-- ==== Sys2Proof/Word.lean ====
section
/-! DEFINITION. The bit-vector types the manual's words and bytes are written in (R8, R9). -/

namespace Sys2Proof

/-- One byte of memory. -/
abbrev Byte := BitVec 8

/-- One register dword (R469). -/
abbrev Word := BitVec 32

/-- A 64-bit field, address or detail word. -/
abbrev Quad := BitVec 64

end Sys2Proof
end

