-- ==== Sys2Proof/Syntax.lean ====
section
/-! DEFINITION. The commands of the block: one constructor of Instr per row of spec/opcode_table.json, in
the table's order, with the operand types they need. -/

namespace Sys2Proof

/-- The world of an agent (R386). -/
inductive World where
  | nonSecure
  | secure
  deriving DecidableEq, Repr

/-- Numbers of the package's units (R17, R32, R54, R308, R350, R407). -/
abbrev RingId := Fin 64
abbrev SlotId := Fin 16384
abbrev TileId := Fin 192
abbrev DieId := Fin 12
abbrev StackId := Fin 24
abbrev BoardId := Fin 3
abbrev PortId := Fin 12
abbrev MapId := Fin 4
abbrev RegimeId := Fin 2
abbrev LinkId := Fin 51

/-- The payload of a KEEPALIVE cell (Table 12-5). -/
structure KeepalivePay where
  serial : Quad
  nodeId : BitVec 16
  port : BitVec 4
  pkgState : BitVec 4
  mapActive : BitVec 2
  epoch : Word
  posTag : Quad
  linkEpoch : Word
  deriving DecidableEq, Repr

/-- The payload of a SETUP cell (Table 12-9). -/
structure SetupPay where
  posTag : Quad
  epoch : Word
  stepLo : Word
  tag : Word
  opcode : Byte
  group : BitVec 3
  mapActive : BitVec 2
  senderCtx : BitVec 16
  count : Word
  inFmt : Byte
  outFmt : Byte
  op : BitVec 2
  outRole : BitVec 2
  rowUnits : BitVec 12
  root : BitVec 16
  senderRank : BitVec 16
  size : Word
  deriving DecidableEq, Repr

/-- The closing word of a collective (R323): the direction of the pass, STEP_NUM [31:0], the status word, the
agreement bit s of R278 and the rank that sends it. -/
structure ClosePay where
  up : Bool
  stepLo : Word
  status : Byte
  agree : Bool
  senderRank : BitVec 16
  deriving DecidableEq, Repr

/-- The abort word of a collective (R324): status, detecting rank, cause and fault address. -/
structure AbortPay where
  status : Byte
  rank : BitVec 16
  cause : Byte
  addr : Quad
  deriving DecidableEq, Repr

/-- The data of one DATA cell of a collective (R319, R320, R322): the level its transfer belongs to and at most 240
bytes; the cell's INDEX places them within the transfer. -/
structure DataPay where
  level : Nat
  bytes : List Byte
  deriving DecidableEq, Repr

/-- How a lender answers a deep-tier request (Table 12-3, R241). -/
inductive DtAnswer where
  | acked
  | refused
  | error
  deriving DecidableEq, Repr

/-- Checkpoint traffic (R336, R342, R343): what a CKPT cell carries, the open request of a piece, its stored bytes and
its record, and the requests for records, for a piece and for a piece's digest with their answers. The manual names
these messages and gives no layout. -/
inductive CkptMsg where
  | openSlot (pieceBytes : Nat)
  | units (pos : Nat) (bytes : List Byte)
  | record (bytes : List Byte)
  | reply (accepted : Bool)
  | askRecords
  | held (half : Nat) (record : Option (List Byte))
  | askPiece (resume : Nat)
  | askDigest (resume : Nat)
  | digest (d : Option (List Byte))
  deriving DecidableEq, Repr

/-- What a cell carries (Table 12-3). A deep-tier request carries the world of its agent (R390). -/
inductive Payload where
  | none
  | keepalive (p : KeepalivePay)
  | setup (p : SetupPay)
  | close (p : ClosePay)
  | abort (p : AbortPay)
  | data (p : DataPay)
  | dtRead (window : BitVec 3) (offset : Quad) (len : Nat) (secure : Bool)
  | dtWrite (window : BitVec 3) (offset : Quad) (secure : Bool) (bytes : List Byte)
  | dtResp (bytes : List Byte)
  | dtAck (a : DtAnswer)
  | ckpt (m : CkptMsg)
  | serial (n : Quad)
  deriving DecidableEq, Repr

/-- A cell (Table 12-2): the fields of its head, what its payload says, the 240 payload bytes as the fibre carries them
(enciphered, with the tag, where ENC is set: R303), and the CRC word. -/
structure Cell where
  type : BitVec 4
  vc : BitVec 2
  seq : BitVec 12
  ack : BitVec 12
  crVc : BitVec 2
  crCnt : BitVec 10
  enc : Bool
  map : BitVec 2
  ctx : BitVec 16
  hops : BitVec 6
  index : BitVec 26
  payload : Payload
  wire : List Byte
  crc : Word
  deriving DecidableEq, Repr

/-- A control frame (Table 17-4) less TYPE, which its row gives: LEN's priority, the payload bytes that LEN counts, the
bytes up to byte 27 behind them, and the CRC word. -/
structure Frame where
  seq : Byte
  ack : Byte
  prio : BitVec 2
  payload : List Byte
  pad : List Byte
  crc : Word
  deriving DecidableEq, Repr

/-- Where a control frame travels: the control channel of an outer die (links 0 to 48), or one of the two
management lane sets of a bridge (links 49 and 50; R407, R417). -/
structure Channel where
  link : LinkId
  set1 : Bool
  deriving DecidableEq, Repr

/-- The 32 bytes of a control frame as they arrive on a channel (R416). -/
structure RawFrame where
  channel : Channel
  bytes : List Byte
  deriving DecidableEq, Repr

/-- The mode in which the CXL link has trained, and what the host enables in it: IDE_ACTIVE, CACHE_EN and MEM_EN
(Table 15-5). -/
structure LinkMode where
  mode : BitVec 2
  enables : BitVec 3
  deriving DecidableEq, Repr

/-- What the lane test finds in one bundle half (R412): the wires that failed, and whether the clock failed. -/
structure HalfTest where
  link : LinkId
  bundle : Fin 64
  dir : Bool
  failed : List (Fin 70)
  clockFailed : Bool
  deriving DecidableEq, Repr

/-- What a start observes of its dies: the halves in which a wire or the clock failed (R412), dies that answer on
their control channel (R30, by position in the build record), stacks whose initialisation or internal lane test
fails (R188), the self-test's failing tiles, boards and whether a pawn, base die or fabric failed (R452), and the
trims the ageing monitors call for in 5 mV steps (R437), and whether REFCLK_SYS has been present for 1 ms (R489). -/
structure BringUpObs where
  halves : List HalfTest
  silentDies : List Nat
  badStacks : List StackId
  badTiles : List TileId
  badBoards : List BoardId
  badPawn : Bool
  ageSteps : List (DieId × Nat)
  refclk : Bool
  deriving DecidableEq, Repr

/-- A supply of the auxiliary side (R425). -/
inductive AuxSupply where
  | vaux
  | viom
  | vana
  deriving DecidableEq, Repr

/-- Causes of a conversion trip (R427) with their codes in CONV_STATUS.TRIP_CAUSE. -/
inductive TripCause where
  | vinAbove48
  | powerTile (tile : Fin 12)
  | regulation
  | railOver
  | thermal
  deriving DecidableEq, Repr

/-- The rails of Table 18-3. -/
inductive Rail where
  | computeCore (d : DieId)
  | stackDram (s : StackId)
  | stackBase (s : StackId)
  | board (b : BoardId)
  | optical (q : PortId)
  | castle
  deriving DecidableEq, Repr

/-- What starts a warm reset (R455). -/
inductive WarmCause where
  | perst
  | pkgReset
  | firmware
  deriving DecidableEq, Repr

/-- What starts a soft reset (R457). -/
inductive SoftCause where
  | rstCtrl (w : World)
  | flr
  | perst
  deriving DecidableEq, Repr

/-- A board loop's readings of the last 10 µs (R432): estimates in W, before G, and its hottest sensor per
quadrant in degrees Celsius. -/
structure BoardSample where
  link : Nat
  memory : Nat
  compute : Nat
  other : Nat
  temps : List (Fin 256)
  deriving DecidableEq, Repr

/-- What the islands of a die have counted in a window (R431), the die by its index of R444: events in the order array
cell operations, gated ones, vector lane operations, tile-store bytes, DMA bytes, row steps, cells and board-cache
accesses; and the die's temperature in quarters of a degree. -/
structure IslandSample where
  die : Fin 52
  counts : List Nat
  quarterDeg : Int
  deriving DecidableEq, Repr

/-- The castle's readings of the last 1 ms (R431, R433), in W, mV and mA: the islands, VIN, input current, each
class's demand and floor before G, the draw of boards and castle, and each board's demand per class. -/
structure ArbSample where
  islands : List IslandSample
  vinMv : Nat
  iinMa : Nat
  base : Nat
  demandLink : Nat
  demandMemory : Nat
  demandCompute : Nat
  floorLink : Nat
  floorMemory : Nat
  floorCompute : Nat
  boardDemand : List (Nat × Nat × Nat)
  deriving DecidableEq, Repr

/-- One die's control answer to a link-level event is known by its number; a row of a bank (R183). -/
structure RowId where
  pc : Fin 32
  bank : Fin 64
  row : Fin 49152
  deriving DecidableEq, Repr

/-- A differing 4 KiB block that the source of a refresh sends (R346): shard table index, plane (false high, true
extension), byte offset of the block in the plane and its bytes. -/
structure RefreshBlock where
  shard : Nat
  ext : Bool
  offset : Nat
  bytes : List Byte
  deriving DecidableEq, Repr

/-- What one buddy answers to a RESTORE (R342): the piece records of both slots of its port and, for the chosen
generation, the stored piece (preamble and units), if it can be read. -/
structure BuddyAnswer where
  records : List (List Byte)
  piece : Option (List Byte)
  deriving DecidableEq, Repr

/-- Spaces of the management endpoint's READ (R462). -/
inductive MgmtSpace where
  | identity
  | status
  | conv
  | sticky
  deriving DecidableEq, Repr

/-- Instructions of the package TAP (R420, R421). DIE_SELECT comes with what its register selects, die i in bit i by
Table 17-7, and a die-internal instruction with its die. -/
inductive JtagIr where
  | idcode
  | bypass
  | sample
  | extest
  | dieSelect (dies : BitVec 52)
  | dieInternal (die : Fin 52)
  deriving DecidableEq, Repr

/-- Uncorrectable castle faults (R347). -/
inductive CastleFaultKind where
  | sram
  | lockstep
  deriving DecidableEq, Repr

/-- A message that waits to go out on a control channel: its priority and payload (Table 17-4). -/
structure Message where
  prio : BitVec 2
  payload : List Byte
  deriving DecidableEq, Repr

/-- An arriving control frame, and the messages that the package has queued for the channel since the last: the manual
names their kinds and gives no payload (R415). -/
structure FrameObs where
  frame : Frame
  queued : List Message
  deriving DecidableEq, Repr

/-- A data flit as it arrives on one link (R408, R409): the link, its 64 bytes, what the track wire carries in each of
its 8 UI (UI u in bit u), what the valid wire carries there, whether it carries the bad mark from an earlier link, and the in-flight slot that waits for
it, if a command does. -/
structure FlitObs where
  link : LinkId
  bytes : List Byte
  track : Byte
  valid : Byte
  marked : Bool
  consumer : Option SlotId
  deriving DecidableEq, Repr

/-- How an access to the window arrives (R375, R383): through BAR2, posted with or without the relaxed-ordering
attribute where it is a write, or on CXL.mem. -/
inductive WinPath where
  | bar2
  | bar2Relaxed
  | cxlMem
  deriving DecidableEq, Repr

/-- What a window access is. -/
structure WinOp where
  write : Bool
  path : WinPath
  deriving DecidableEq, Repr

/-- The commands, in the order of spec/opcode_table.json. An Adust opcode's row names the in-flight slot that holds
its packet (R54); a register row names the world of the agent that writes; a cell or frame row names the port or
channel on which it arrives. -/
inductive Instr where
  | nop (slot : SlotId)
  | fence (slot : SlotId)
  | waitEvent (slot : SlotId)
  | waitEventTimeout (slot : SlotId)
  | signal (slot : SlotId)
  | mapSelect (slot : SlotId)
  | commitEpoch (slot : SlotId)
  | copy (slot : SlotId)
  | fill (slot : SlotId)
  | gather (slot : SlotId)
  | scatter (slot : SlotId)
  | prefetchStream (slot : SlotId)
  | spill (slot : SlotId)
  | promote (slot : SlotId)
  | gemm (slot : SlotId)
  | gemmAcc (slot : SlotId)
  | dist (slot : SlotId)
  | cmpSelect (slot : SlotId)
  | vop (slot : SlotId)
  | scan (slot : SlotId)
  | segscan (slot : SlotId)
  | reduce (slot : SlotId)
  | norm (slot : SlotId)
  | softmax (slot : SlotId)
  | rope (slot : SlotId)
  | rngFill (slot : SlotId)
  | amax (slot : SlotId)
  | attnFwd (slot : SlotId)
  | attnBwd (slot : SlotId)
  | kvAppend (slot : SlotId)
  | kvPage (slot : SlotId)
  | bucketSort (slot : SlotId)
  | cmpPack (slot : SlotId)
  | cmpUnpack (slot : SlotId)
  | pawnOp (slot : SlotId)
  | digest (slot : SlotId)
  | pawnGemv (slot : SlotId)
  | update (slot : SlotId)
  | reduceScatter (slot : SlotId)
  | allGather (slot : SlotId)
  | allToAll (slot : SlotId)
  | broadcast (slot : SlotId)
  | send (slot : SlotId)
  | recv (slot : SlotId)
  | barrier (slot : SlotId)
  | lossScaleCheck (slot : SlotId)
  | stepBegin (slot : SlotId)
  | stepEnd (slot : SlotId) (roots : List (List Byte))
  | notate (slot : SlotId) (accepted : List Bool) (acked : List Bool)
  | restore (slot : SlotId) (answers : List BuddyAnswer)
  | verify (slot : SlotId) (digests : List (Option (List Byte)))
  | map (slot : SlotId)
  | unmap (slot : SlotId)
  | inval (slot : SlotId)
  | query (slot : SlotId)
  | telemetry (slot : SlotId)
  | attest (slot : SlotId)
  | sqDoorbell (w : World) (n : RingId) (v : Word)
  | cqDoorbell (w : World) (n : RingId) (v : Word)
  | ringCommit (w : World) (n : RingId)
  | ringEnable (w : World) (n : RingId)
  | ringStop (w : World) (n : RingId)
  | ringAbort (w : World) (n : RingId)
  | ringDisabled (n : RingId)
  | errorHaltClear (w : World) (n : RingId)
  | packetFetch (n : RingId)
  | lapRefetch (n : RingId)
  | dispatch (slot : SlotId)
  | finalRecord (slot : SlotId)
  | preemption (slot : SlotId) (units : Nat) (by_ : SlotId)
  | resume (slot : SlotId)
  | translationFault (slot : SlotId) (va : Quad) (write : Bool)
  | zeroResolution (slot : SlotId)
  | xlateResolve (w : World) (r : RegimeId) (id : Word)
  | streamTaskEnd (task : BitVec 16)
  | streamTaskFault (task : BitVec 16) (slot : SlotId)
  | tileReset (w : World) (t : TileId)
  | tileResetComplete (t : TileId)
  | tileClrCounters (w : World) (t : TileId)
  | veClrCounters (w : World) (t : TileId)
  | dmaClrCounters (w : World) (t : TileId)
  | tcClrCounters (w : World) (t : TileId)
  | stackClrCounters (w : World) (s : StackId)
  | pawnClrCounters (w : World) (s : StackId)
  | noteClrCounters (w : World)
  | hostClrCounters (w : World)
  | zlClrCounters (w : World)
  | scrubNow (w : World) (s : StackId)
  | eccInject (w : World) (s : StackId) (v : Word)
  | memmapCommit (w : World) (b : BoardId)
  | invalidateAll (w : World) (b : BoardId)
  | lendCommit (w : World)
  | trainCommit (w : World)
  | mapCommit (w : World) (m : MapId)
  | fabricCommit (w : World)
  | disarm (w : World)
  | digestRecompute
  | retrain (w : World) (q : PortId)
  | noteCommit (w : World)
  | invalidateSlots (w : World)
  | xlateCommit (w : World) (r : RegimeId)
  | windowCommit (w : World)
  | peerCommit (w : World)
  | agentFlush (w : World)
  | worldCommit (w : World)
  | regionCommit (w : World)
  | keyInstall (w : World) (v : Word)
  | eraseSlot (w : World) (v : Word)
  | svnAdvance (w : World)
  | alarmClear (w : World) (v : Word)
  | policyLock (w : World)
  | arbCommit (w : World)
  | calCommit (w : World)
  | calSave (w : World)
  | powerStateRequest (w : World) (v : Word)
  | powerStateEntry
  | errCommit (w : World)
  | testOpen (w : World)
  | registerWrite (w : World) (off : Nat) (bytes : Nat) (v : Quad)
  | softReset (c : SoftCause)
  | warmReset (c : WarmCause) (obs : BringUpObs)
  | functionLevelReset
  | vauxUp
  | pwrGoodAux
  | vinEarly
  | firstStageStart (vinMv : Nat) (obs : BringUpObs)
  | cxlLinkTraining (mode : LinkMode) (width : BitVec 6) (speed : BitVec 4)
  | vinLoss (vinMv : Nat)
  | auxSupplyLoss (x : AuxSupply)
  | conversionTrip (c : TripCause)
  | perstN (assert : Bool) (obs : BringUpObs)
  | pkgResetN (lowNs : Nat) (obs : BringUpObs)
  | refclkSysLoss
  | refclkCxlLoss
  | alarmDetect (src : Fin 6)
  | thermalSample (die : Fin 52) (quarterDeg : Int)
  | railWindow (r : Rail) (avgMa : Nat)
  | boardLoop (b : BoardId) (x : BoardSample)
  | arbAllocation (x : ArbSample)
  | clockChange (t : TileId) (step : Nat)
  | ageingEvaluation (need : List (DieId × Nat))
  | refresh (s : StackId) (pc : Fin 32) (tempC : Int)
  | refreshCountWindow (s : StackId)
  | scrub (s : StackId)
  | correctedWriteBack (s : StackId)
  | rowRemap (s : StackId) (r : RowId)
  | remapListWrite (s : StackId)
  | stackLoss (s : StackId)
  | castleFault (k : CastleFaultKind)
  | flit (x : FlitObs)
  | linkDegraded (l : LinkId)
  | idleFrame (ch : Channel) (f : FrameObs)
  | dataFrame (ch : Channel) (f : FrameObs)
  | nakFrame (ch : Channel) (f : Frame)
  | controlReplayTimeout (ch : Channel)
  | controlChannelExhausted (l : LinkId)
  | managementSetExhausted (ch : Channel)
  | keepalive (q : PortId) (c : Cell)
  | keepaliveSend (q : PortId)
  | credit (q : PortId) (c : Cell)
  | creditTimeout (q : PortId) (vc : Fin 4)
  | nak (q : PortId) (c : Cell)
  | replayTimeout (q : PortId)
  | setup (q : PortId) (c : Cell)
  | close (q : PortId) (c : Cell)
  | abort (q : PortId) (c : Cell)
  | data (q : PortId) (c : Cell)
  | dtRead (q : PortId) (c : Cell)
  | dtWrite (q : PortId) (c : Cell)
  | ckpt (q : PortId) (c : Cell)
  | dtResp (q : PortId) (c : Cell)
  | dtAck (q : PortId) (c : Cell)
  | quiet (q : PortId) (c : Cell)
  | resign (q : PortId) (c : Cell)
  | badCells (q : PortId) (c : Cell)
  | keepaliveTimeout (q : PortId)
  | ackTimeout (q : PortId)
  | portStateBound (q : PortId)
  | lanesLocked (q : PortId)
  | aligned (q : PortId)
  | laserInputChange (q : PortId) (l0 l1 : Bool)
  | lightReturn (q : PortId)
  | collTimeoutExpiry (slot : SlotId)
  | divergenceRefresh (blocks : List RefreshBlock)
  | tokenReturn (s : StackId) (pawn : Fin 512)
  | windowAccess (op : WinOp) (off : Quad) (len : Nat) (bytes : List Byte)
  | windowAccessTimeout
  | hostSnoop (line : Quad)
  | peerTimeout (slot : SlotId) (addr : Quad)
  | msixUnmask (vec : Fin 72)
  | mgmtRead (space : MgmtSpace) (off : Nat) (len : Nat)
  | jtagInstruction (ir : JtagIr)
  | portEnable (w : World) (q : PortId) (v : Bool)
  | laneLockLoss (q : PortId) (lane : Fin 32)
  | cellCrcFailure (q : PortId)
  | controlFrameCrcFailure (ch : RawFrame)
  | cxlLinkDown
  deriving DecidableEq, Repr

end Sys2Proof
end

