-- ==== Sys2Proof/Config.lean ====
section
/-! DEFINITION. What the manual leaves open: free values, constants with no body, so that no proof can see one.
A free value is asked for by a draw number (State's field draws counts them) and, for a byte, by its address. -/

namespace Sys2Proof.Config

/-- The byte at an address of contents the manual calls undefined (R86, R136, R174, R222, R242, R289, R324). -/
opaque freeByte : (draw : Nat) → (addr : Nat) → Byte

/-- A register word whose value the manual does not fix (performance counters, R89, R142, R250). -/
opaque freeWord : (draw : Nat) → Word

/-- A number the manual leaves to the hardware (tile assignment R74, sample order). -/
opaque freeNat : (draw : Nat) → Nat

/-- Castle island cycles when an error record or a TELEMETRY sample is taken (R441, R466, R481). -/
opaque cycles : (draw : Nat) → Quad

/-- Functions of Table 4-7 that are not correctly rounded: the FUNC files hold their bits (R115). The function's
number, the function set version and the argument's bits in give the result's bits. -/
opaque func : (f : Nat) → (version : Nat) → (x : Nat) → (y : Nat) → Nat

/-- The value of a result that the manual does not state, by the log entry that says so and the operands: one value
for equal operands, as R7 asks. -/
opaque openValue : (entry : Nat) → (operands : Nat) → Nat

/-- The bytes of a cell's payload for which the manual gives no layout: of the payload's content, by their place. -/
opaque cellByte : (payload : List Nat) → (i : Nat) → Byte

/-- Random words of the free-running mode (R274). -/
opaque freeRandom : (draw : Nat) → Word

/-- The 256-bit device secret in fuse, which no register exposes (R395). -/
opaque deviceSecret : List Byte

/-- ROM_ID of the security core (Table 16-3), which the manual leaves to the part. -/
opaque romId : Word

/-- Ed448 (R395, R397): the public key of a private key, 57 bytes each. -/
opaque ed448Pub : (priv : List Byte) → List Byte

/-- Ed448: the 114-byte signature of a message under a private key. -/
opaque ed448Sign : (priv msg : List Byte) → List Byte

/-- Ed448: whether a signature of a message verifies under a public key (R393). -/
opaque ed448Verify : (pub msg sig : List Byte) → Bool

/-- The bytes of the board-cache data arrays read through the diagnostic range (R193), which depend on
replacement order. -/
opaque boardCacheByte : (draw : Nat) → (addr : Nat) → Byte

/-- A die's leakage in mW at a voltage in mV and a temperature in quarters of a degree, between the points of its curve in
fuse, for which the manual gives no rule (R431). -/
opaque leakage : (points : List ((Nat × Int) × Nat)) → (mv : Nat) → (quarterDeg : Int) → Nat

/-- What a CXL component register answers, and the two bits of HOST_LINK_STATUS that depend on it (R372, R385): both
are CXL 2.0's, functions of what has been written to those registers, oldest first. -/
opaque componentRead : (written : List (Nat × Word)) → (off : Nat) → Word
opaque componentStatus : (written : List (Nat × Word)) → Bool × Bool

end Sys2Proof.Config
end

