-- ==== Sys2Proof/Machine/Bits.lean ====
section
/-! DEFINITION. Bit fields, little-endian byte strings (R9) and sign readings. -/

namespace Sys2Proof.Machine

/-- Bits [hi:lo] of a word, as a number. -/
def fld (w : BitVec n) (hi lo : Nat) : Nat := (w.toNat >>> lo) % 2 ^ (hi + 1 - lo)

/-- Bit i of a word. -/
def bit (w : BitVec n) (i : Nat) : Bool := w.getLsbD i

/-- The word w with bits [hi:lo] replaced by v. -/
def setFld (w : BitVec n) (hi lo v : Nat) : BitVec n :=
  let mask : BitVec n := BitVec.ofNat n ((2 ^ (hi + 1 - lo) - 1) <<< lo)
  (w &&& ~~~mask) ||| (BitVec.ofNat n (v <<< lo) &&& mask)

/-- The word w with bit i set to b. -/
def setBit (w : BitVec n) (i : Nat) (b : Bool) : BitVec n := setFld w i i b.toNat

/-- A two's complement reading of the low n bits of v. -/
def sext (n v : Nat) : Int :=
  let x := v % 2 ^ n
  if x < 2 ^ (n - 1) then (x : Int) else (x : Int) - (2 ^ n : Nat)

/-- The low n bits of an integer in two's complement. -/
def enc2 (n : Nat) (v : Int) : Nat := (v % (2 ^ n : Nat)).toNat

/-- Bytes, least significant first (R9). -/
def leBytes : (n : Nat) → (v : Nat) → List Byte
  | 0, _ => []
  | n + 1, v => BitVec.ofNat 8 v :: leBytes n (v / 256)

/-- The number that a little-endian byte string spells. -/
def leNat : List Byte → Nat
  | [] => 0
  | b :: bs => b.toNat + 256 * leNat bs

/-- Bytes [at, at + n) of a byte string, absent bytes read as 0. -/
def slice (bs : List Byte) (at_ n : Nat) : List Byte :=
  let x := (bs.drop at_).take n
  x ++ List.replicate (n - x.length) 0

/-- The n-byte little-endian field at an offset. -/
def leAt (bs : List Byte) (at_ n : Nat) : Nat := leNat (slice bs at_ n)

def ceilDiv (a b : Nat) : Nat := if b = 0 then 0 else (a + b - 1) / b

def isPow2 (n : Nat) : Bool := decide (0 < n) && (n &&& (n - 1)) == 0

/-- Floor of the binary logarithm, 0 for 0. -/
def log2 (n : Nat) : Nat := Nat.log2 n

/-- Saturating increment of a 32-bit counter by k. -/
def satAdd (w : Word) (k : Nat) : Word := BitVec.ofNat 32 (min (w.toNat + k) (2 ^ 32 - 1))

/-- The parity (even or odd count) of the set bits of the low n bits: true for odd. -/
def parity (n v : Nat) : Bool := ((List.range n).filter fun i => v.testBit i).length % 2 == 1

/-- Set bits among the low n bits. -/
def popcount (n v : Nat) : Nat := ((List.range n).filter fun i => v.testBit i).length

/-- Splits a list into pieces of k (the last may be shorter). The fuel is the list's length. -/
def chunksOf (k : Nat) (xs : List α) : List (List α) :=
  go xs.length xs
where
  go : Nat → List α → List (List α)
    | 0, _ => []
    | _ + 1, [] => []
    | f + 1, x :: xs => (x :: xs).take k :: go f ((x :: xs).drop k)

end Sys2Proof.Machine
end

