-- ==== Sys2Proof/Machine/Numerics.lean ====
section
/-! DEFINITION. Numbers: the formats of Table 4-1, exact values, rounding and conversion (R91-R105), the order of
reductions (R109) and the Yeltor counter generator (R272). -/

namespace Sys2Proof.Machine

/-- An exact value: a NaN, an infinity, or (−1)^neg × m × 2^e. -/
inductive Num where
  | nan
  | inf (neg : Bool)
  | fin (neg : Bool) (m : Nat) (e : Int)
  deriving DecidableEq, Repr

def numZero : Num := .fin false 0 0

def Num.isNan : Num → Bool
  | .nan => true
  | _ => false

def Num.isZero : Num → Bool
  | .fin _ m _ => m = 0
  | _ => false

def Num.isFinite : Num → Bool
  | .fin _ _ _ => true
  | _ => false

def Num.isNeg : Num → Bool
  | .nan => false
  | .inf n => n
  | .fin n _ _ => n

def Num.neg : Num → Num
  | .nan => .nan
  | .inf n => .inf (!n)
  | .fin n m e => .fin (!n) m e

def Num.abs : Num → Num
  | .nan => .nan
  | .inf _ => .inf false
  | .fin _ m e => .fin false m e

def signed (neg : Bool) (m : Nat) : Int := if neg then -(m : Int) else m

/-- The exact sum, zero signs as IEEE 754 has them (R93). -/
def Num.add : Num → Num → Num
  | .nan, _ => .nan
  | _, .nan => .nan
  | .inf a, .inf b => if a = b then .inf a else .nan
  | .inf a, .fin _ _ _ => .inf a
  | .fin _ _ _, .inf b => .inf b
  | .fin na ma ea, .fin nb mb eb =>
    let e := min ea eb
    let v := signed na (ma <<< (ea - e).toNat) + signed nb (mb <<< (eb - e).toNat)
    if v = 0 then .fin (na && nb && (ma = 0) && (mb = 0)) 0 0 else .fin (v < 0) v.natAbs e

def Num.sub (a b : Num) : Num := a.add b.neg

/-- The exact product. -/
def Num.mul : Num → Num → Num
  | .nan, _ => .nan
  | _, .nan => .nan
  | .inf a, .inf b => .inf (a != b)
  | .inf a, .fin b m _ => if m = 0 then .nan else .inf (a != b)
  | .fin a m _, .inf b => if m = 0 then .nan else .inf (a != b)
  | .fin a ma ea, .fin b mb eb => .fin (a != b) (ma * mb) (ea + eb)

/-- Exact scaling by a power of two. -/
def Num.scale (k : Int) : Num → Num
  | .fin n m e => .fin n m (e + k)
  | x => x

/-- IEEE order: a < b; false with a NaN. -/
def Num.lt : Num → Num → Bool
  | .nan, _ => false
  | _, .nan => false
  | .inf a, .inf b => a && !b
  | .inf a, .fin _ _ _ => a
  | .fin _ _ _, .inf b => !b
  | .fin na ma ea, .fin nb mb eb =>
    let e := min ea eb
    decide (signed na (ma <<< (ea - e).toNat) < signed nb (mb <<< (eb - e).toNat))

def Num.le (a b : Num) : Bool := !a.isNan && !b.isNan && !b.lt a
def Num.eq (a b : Num) : Bool := a.le b && b.le a

/-- The minimum of two, NaN if either is; min(−0, +0) is −0 (R77). -/
def Num.min (a b : Num) : Num :=
  if a.isNan || b.isNan then .nan
  else if a.isZero && b.isZero then (if a.isNeg then a else b)
  else if b.lt a then b else a

/-- The maximum of two, NaN if either is; max(−0, +0) is +0 (R77). -/
def Num.max (a b : Num) : Num :=
  if a.isNan || b.isNan then .nan
  else if a.isZero && b.isZero then (if a.isNeg then b else a)
  else if a.lt b then b else a

def numOfInt (v : Int) : Num := .fin (v < 0) v.natAbs 0

/-! Flags (R80) -/

def accOvf : Nat := 1
def nanGen : Nat := 2
def intSat : Nat := 4
def outSat : Nat := 8
def outOvf : Nat := 16
def divZero : Nat := 32

/-- A floating format: exponent bits, fraction bits, bias, and its special values: 0 IEEE's, 1 E4M3's, 2 none. -/
structure FFmt where
  ebits : Nat
  p : Nat
  bias : Nat
  special : Nat
  deriving DecidableEq, Repr

def fp4 : FFmt := FFmt.mk 2 1 1 2
def e4m3 : FFmt := FFmt.mk 4 3 7 1
def e5m2 : FFmt := FFmt.mk 5 2 15 0
def fp16 : FFmt := FFmt.mk 5 10 15 0
def bf16 : FFmt := FFmt.mk 8 7 127 0
def fp32 : FFmt := FFmt.mk 8 23 127 0
def w40 : FFmt := FFmt.mk 8 31 127 0
def m48 : FFmt := FFmt.mk 8 39 127 0

/-- The floating format of a code (Table 4-1). -/
def ffmtOf : Nat → Option FFmt
  | 1 => some fp4
  | 2 => some e4m3
  | 3 => some e5m2
  | 4 => some fp16
  | 5 => some bf16
  | 6 => some fp32
  | 7 => some w40
  | 8 => some m48
  | _ => none

/-- Bits of the container of a format (Table 4-1); M48 has two planes and FR formats have blocks. -/
def containerBits : Nat → Nat
  | 1 => 4
  | 2 => 8
  | 3 => 8
  | 4 => 16
  | 5 => 16
  | 6 => 32
  | 7 => 64
  | 9 => 8
  | 10 => 4
  | 11 => 32
  | _ => 0

/-- The alignment column of Table 4-1. -/
def fmtAlign : Nat → Nat
  | 4 => 2
  | 5 => 2
  | 6 => 4
  | 7 => 8
  | 8 => 4
  | 11 => 4
  | 12 => 8
  | 13 => 8
  | 14 => 8
  | _ => 1

/-- Width of an integer format. -/
def intBits : Nat → Option Nat
  | 9 => some 8
  | 10 => some 4
  | 11 => some 32
  | _ => none

def FFmt.emin (f : FFmt) : Int := 1 - (f.bias : Int)

/-- The largest finite value (Table 4-2), as a mantissa and an exponent. -/
def FFmt.maxFinite (f : FFmt) : Nat × Int :=
  match f.special with
  | 1 => (14, 5)
  | 2 => (3, 1)
  | _ => (2 ^ (f.p + 1) - 1, ((2 ^ f.ebits - 2 : Nat) : Int) - f.bias - f.p)

/-- The value that bits of a format spell. -/
def FFmt.decode (f : FFmt) (b : Nat) : Num :=
  let neg := b.testBit (f.ebits + f.p)
  let ef := b / 2 ^ f.p % 2 ^ f.ebits
  let fr := b % 2 ^ f.p
  let top := 2 ^ f.ebits - 1
  if f.special = 0 ∧ ef = top then (if fr = 0 then .inf neg else .nan)
  else if f.special = 1 ∧ ef = top ∧ fr = 7 then .nan
  else if ef = 0 then .fin neg fr (f.emin - f.p)
  else .fin neg (2 ^ f.p + fr) ((ef : Int) - f.bias - f.p)

/-- The bits of q × 2^u on the grid of a format. -/
def FFmt.encodeGrid (f : FFmt) (neg : Bool) (q : Nat) (u : Int) : Nat :=
  let s := neg.toNat * 2 ^ (f.ebits + f.p)
  let (q, u) := if 2 ^ (f.p + 1) ≤ q then (q / 2, u + 1) else (q, u)
  if q < 2 ^ f.p then s + q
  else s + (u + f.p + f.bias).toNat * 2 ^ f.p + (q - 2 ^ f.p)

def FFmt.infBits (f : FFmt) (neg : Bool) : Nat :=
  neg.toNat * 2 ^ (f.ebits + f.p) + (2 ^ f.ebits - 1) * 2 ^ f.p

/-- The canonical NaN (Table 4-3); FP4 has none. -/
def FFmt.nanBits (f : FFmt) : Nat :=
  match f.special with
  | 1 => 0x7F
  | 2 => 0
  | _ => (2 ^ f.ebits - 1) * 2 ^ f.p + 2 ^ (f.p - 1)

def FFmt.maxBits (f : FFmt) (neg : Bool) : Nat :=
  let m := f.maxFinite
  f.encodeGrid neg m.1 m.2

/-- The grid value at or below |x| (R104): q, its spacing's exponent u, and what is left, in units of 2^-s of the
spacing. -/
def FFmt.floorGrid (f : FFmt) (m : Nat) (e : Int) : Nat × Int × Nat × Nat :=
  let k : Int := (Nat.log2 m : Int) + e
  let u := (if f.emin ≤ k then k else f.emin) - f.p
  let d := e - u
  if 0 ≤ d then (m <<< d.toNat, u, 0, 0)
  else
    let s := (-d).toNat
    (m >>> s, u, m % 2 ^ s, s)

/-- One rounding onto the grid with unbounded exponent range: to nearest, ties to even, or stochastically under a
random word (R102, R104). -/
def FFmt.roundGrid (f : FFmt) (rnd : Option Word) (m : Nat) (e : Int) : Nat × Int :=
  if m = 0 then (0, f.emin - f.p) else
  let (q, u, r, s) := f.floorGrid m e
  match rnd with
  | none =>
    if r * 2 > 2 ^ s ∨ (r * 2 = 2 ^ s ∧ q % 2 = 1) then (q + 1, u) else (q, u)
  | some w =>
    if 2 ^ 32 ≤ r * 2 ^ 32 / 2 ^ s + w.toNat then (q + 1, u) else (q, u)

/-- Whether q × 2^u lies beyond the largest finite value. -/
def FFmt.beyond (f : FFmt) (q : Nat) (u : Int) : Bool :=
  let m := f.maxFinite
  let e := min u m.2
  decide (m.1 <<< (m.2 - e).toNat < q <<< (u - e).toNat)

/-- A rounding inside a working format (R102, last paragraph; R108): overflow gives an infinity. -/
def FFmt.round (f : FFmt) (x : Num) : Num × Bool :=
  match x with
  | .fin neg m e =>
    let (q, u) := f.roundGrid none m e
    if f.beyond q u then (.inf neg, true) else (.fin neg q u, false)
  | x => (x, false)

/-- round_w40 with its flag. -/
def roundW40 (x : Num) : Num × Nat :=
  let r := w40.round x
  (r.1, if r.2 then accOvf else 0)

/-- The bits of a value that lies on a format's grid. -/
def FFmt.bitsOf (f : FFmt) : Num → Nat
  | .nan => f.nanBits
  | .inf n => f.infBits n
  | .fin neg m e =>
    if m = 0 then neg.toNat * 2 ^ (f.ebits + f.p)
    else let (q, u) := f.roundGrid none m e; f.encodeGrid neg q u

/-- A converted element: its bits, its flags, whether the step overflow flag is set, and whether it is a NaN of an FP4
block (Table 4-4). -/
structure Conv where
  bits : Nat
  flags : Nat
  ovf : Bool
  nanBlock : Bool
  deriving DecidableEq, Repr

/-- Conversion of an exact value to a floating format under a role (Table 4-4); code 7 is W40. -/
def convertFloat (f : FFmt) (isW40 : Bool) (gradient : Bool) (rnd : Option Word) (x : Num) : Conv :=
  match x with
  | .nan =>
    if f.special = 2 then Conv.mk 0 0 false true
    else Conv.mk f.nanBits (if gradient then outOvf else 0) gradient false
  | .inf neg =>
    if isW40 then Conv.mk (f.infBits neg) (if gradient then outOvf else 0) gradient false
    else if gradient then
      Conv.mk (if f.special = 1 then f.nanBits + neg.toNat * 128 else f.infBits neg) outOvf true false
    else Conv.mk (f.maxBits neg) outSat false false
  | .fin neg m e =>
    let (q, u) := f.roundGrid rnd m e
    if f.beyond q u then
      if gradient then
        Conv.mk (if f.special = 1 then f.nanBits + neg.toNat * 128 else f.infBits neg) outOvf true false
      else Conv.mk (f.maxBits neg) outSat false false
    else Conv.mk (f.encodeGrid neg q u) 0 false false

/-- The integer nearest to an exact value, ties to even. -/
def roundInt (neg : Bool) (m : Nat) (e : Int) : Int :=
  if 0 ≤ e then signed neg (m <<< e.toNat)
  else
    let s := (-e).toNat
    let q := m >>> s
    let r := m % 2 ^ s
    signed neg (if r * 2 > 2 ^ s ∨ (r * 2 = 2 ^ s ∧ q % 2 = 1) then q + 1 else q)

/-- Conversion to an integer format of n bits (Table 4-4). -/
def convertInt (n : Nat) (x : Num) : Conv :=
  let hi : Int := 2 ^ (n - 1) - 1
  let lo : Int := -(2 ^ (n - 1))
  match x with
  | .nan => Conv.mk 0 outSat false false
  | .inf neg => Conv.mk (enc2 n (if neg then lo else hi)) outSat false false
  | .fin neg m e =>
    let v := roundInt neg m e
    if v < lo then Conv.mk (enc2 n lo) outSat false false
    else if hi < v then Conv.mk (enc2 n hi) outSat false false
    else Conv.mk (enc2 n v) 0 false false

/-- Conversion to a format by its code; rnd is the random word of a stochastic rounding (R102). -/
def convert (code : Nat) (gradient : Bool) (rnd : Option Word) (x : Num) : Conv :=
  match ffmtOf code with
  | some f => convertFloat f (code = 7) gradient rnd x
  | none => convertInt ((intBits code).getD 32) x

/-- The value that the bits of an element spell. -/
def decodeElem (code bits : Nat) : Num :=
  match ffmtOf code with
  | some f => f.decode bits
  | none => match intBits code with
    | some n => numOfInt (sext n bits)
    | none => numZero

/-- Element i of packed bytes of a format. -/
def elemBits (code : Nat) (bs : List Byte) (i : Nat) : Nat :=
  match containerBits code with
  | 4 => leAt bs (i / 2) 1 / (if i % 2 = 0 then 1 else 16) % 16
  | 64 => leAt bs (8 * i) 8 % 2 ^ 40
  | b => leAt bs (i * (b / 8)) (b / 8)

def elemNum (code : Nat) (bs : List Byte) (i : Nat) : Num := decodeElem code (elemBits code bs i)

/-- Bytes of n packed elements. -/
def packedBytes (code n : Nat) : Nat := (n * containerBits code + 7) / 8

/-- Packs element bits; an odd 4-bit tail leaves the high half 0. -/
def packElems (code : Nat) (xs : List Nat) : List Byte :=
  if containerBits code = 4 then
    (chunksOf 2 xs).map fun c => BitVec.ofNat 8 (c.getD 0 0 % 16 + 16 * (c.getD 1 0 % 16))
  else xs.flatMap fun x => leBytes (containerBits code / 8) x

/-! Division and square root -/

/-- A quotient with enough bits that any rounding of it is the rounding of the exact one. -/
def Num.div : Num → Num → Num
  | .nan, _ => .nan
  | _, .nan => .nan
  | .inf _, .inf _ => .nan
  | .inf a, .fin b _ _ => .inf (a != b)
  | .fin a _ _, .inf b => .fin (a != b) 0 0
  | .fin a ma ea, .fin b mb eb =>
    if mb = 0 then (if ma = 0 then .nan else .inf (a != b))
    else if ma = 0 then .fin (a != b) 0 0
    else
      let k := 80 + Nat.log2 mb
      let n := ma <<< k
      .fin (a != b) (n / mb * 2 + (if n % mb = 0 then 0 else 1)) (ea - eb - k - 1)

/-- The integer square root by bisection over its bits (fuel: bits). -/
def isqrt (n : Nat) : Nat :=
  go (Nat.log2 n / 2 + 1) 0
where
  go : Nat → Nat → Nat
    | 0, r => r
    | b + 1, r =>
      let t := r + 2 ^ b
      go b (if t * t ≤ n then t else r)

/-- A square root with enough bits that any rounding of it is the rounding of the exact one. -/
def Num.sqrt : Num → Num
  | .nan => .nan
  | .inf n => if n then .nan else .inf false
  | .fin neg m e =>
    if m = 0 then .fin neg 0 0
    else if neg then .nan
    else
      let e' : Int := if e % 2 = 0 then e - 160 else e - 161
      let n := m <<< (e - e').toNat
      let r := isqrt n
      .fin false (r * 2 + (if r * r = n then 0 else 1)) (e' / 2 - 1)

/-! Reduction order (R109) -/

/-- One round of the canonical tree: neighbours combine, an odd last value is carried up. -/
def pairUp (f : α → α → α) : List α → List α
  | a :: b :: r => f a b :: pairUp f r
  | r => r

/-- The canonical combination of R109; nothing for no values. The fuel is the number of values. -/
def orderedFold (f : α → α → α) (xs : List α) : Option α :=
  go xs.length xs
where
  go : Nat → List α → Option α
    | _, [] => none
    | _, [x] => some x
    | 0, x :: _ => some x
    | n + 1, xs => go n (pairUp f xs)

/-- A value with the flags raised so far. -/
abbrev Flagged := Num × Nat

/-- round_w40(a + b), with NAN_GEN where a NaN arises from no NaN. -/
def addW40 (a b : Flagged) : Flagged :=
  let s := a.1.add b.1
  let r := roundW40 s
  let g := if s.isNan && !a.1.isNan && !b.1.isNan then nanGen else 0
  (r.1, a.2 ||| b.2 ||| r.2 ||| g)

/-- The exact sum of values; +0 for none. -/
def exactSum : List Num → Num
  | [] => numZero
  | x :: xs => xs.foldl Num.add x

/-! Scales (R98-R101) -/

/-- The largest finite value of a format by its code (Table 4-2). -/
def largestOf (code : Nat) : Nat × Int :=
  match intBits code with
  | some n => (2 ^ (n - 1) - 1, 0)
  | none => ((ffmtOf code).getD fp32).maxFinite

/-- choose_exp (R100): none stands for NAN_SCALE. -/
def chooseExp (amax : Num) (code : Nat) (lo hi : Int) : Option Int :=
  match amax with
  | .nan => none
  | .inf _ => some hi
  | .fin _ m x =>
    if m = 0 then some 0 else
    let (lm, lx) := largestOf code
    let c : Int := (Nat.log2 m : Int) + x - (Nat.log2 lm : Int) - lx
    let e := if (Num.fin false lm lx).lt (Num.fin false m (x - c)) then c + 1 else c
    some (max lo (min hi e))

/-- The factor of a block-scale byte (R99); none marks a NaN block. -/
def blockExp (s : Nat) : Option Int := if s = 255 then none else some ((s : Int) - 127)

/-- An element under a block scale. -/
def scaledElem (code bits : Nat) (s : Nat) : Num :=
  match blockExp s with
  | none => .nan
  | some e => (decodeElem code bits).scale e

/-! The Yeltor counter generator (R272) -/

def rotA : List Nat := [13, 9, 21, 5, 17, 11]
def rotB : List Nat := [26, 6, 14, 23, 3, 19]

/-- One round on (x0, x1, x2, x3). -/
def yRound (k : List Word) (x : Word × Word × Word × Word) (r : Nat) : Word × Word × Word × Word :=
  let (x0, x1, x2, x3) := x
  let x0 := x0 + x1
  let x1 := x1.rotateLeft (rotA.getD r 0) ^^^ x0
  let x2 := x2 + x3
  let x3 := x3.rotateLeft (rotB.getD r 0) ^^^ x2
  let (x1, x3) := (x3, x1)
  if r % 2 = 1 then
    let j := (r + 1) / 2
    let ki := fun i => k.getD ((i + j) % 4) 0
    (x0 + ki 0, x1 + ki 1, x2 + ki 2, x3 + ki 3 + BitVec.ofNat 32 j)
  else (x0, x1, x2, x3)

/-- The 128-bit output as four words, bits [31:0] first. -/
def yrng (k : List Word) (tensor index step stream : Nat) : List Word :=
  let w := fun n => BitVec.ofNat 32 n
  let x := (w tensor + k.getD 0 0, w index + k.getD 1 0,
            w (stream % 65536 * 65536 + index / 2 ^ 32 % 65536) + k.getD 2 0, w step + k.getD 3 0)
  let (a, b, c, d) := (List.range 6).foldl (yRound k) x
  [a, b, c, d]

/-- The random word of a stochastic rounding (R105). -/
def srWord (k : List Word) (tensor index step stream : Nat) : Word := (yrng k tensor index step stream).headD 0

end Sys2Proof.Machine
end

