-- ==== Sys2Proof/Machine/Functions.lean ====
section
/-! DEFINITION. The functions of Table 4-7 (R115): their exact results, to hundreds of bits in fixed point, and the
value a function set gives, which lies within the table's error of them. -/

namespace Sys2Proof.Machine

/-! Constants and fixed-point numbers with 512 fraction bits -/

def fxOne : Nat := 2 ^ 512

/-- π, ln 2, log2 e and 1 / √(2π). -/
def fxPi : Nat := 0x3243f6a8885a308d313198a2e03707344a4093822299f31d0082efa98ec4e6c89452821e638d01377be5466cf34e90c6cc0ac29b7c97c50dd3f84d5b5b5470917
def fxLn2 : Nat := 0xb17217f7d1cf79abc9e3b39803f2f6af40f343267298b62d8a0d175b8baafa2be7b876206debac98559552fb4afa1b10ed2eae35c138214427573b291169b825
def fxLog2e : Nat := 0x171547652b82fe1777d0ffda0d23a7d11d6aef551bad2b4b1164a2cd9a342648fbc3887eeaa2ed9ac49b25eeb82d7c167d52173cc1895213f897f5e06a7be7366
def fxInvSqrt2Pi : Nat := 0x662114cf50d942343f2cf1402eae38bfd3829f30512706d8c0471b4802639d2e9df8ac55447d3db723f5d3abb374e88deb14277970be1513278e993445f08cff

/-- The magnitude m × 2^e in fixed point. -/
def toFx (m : Nat) (e : Int) : Nat :=
  let s := e + 512
  if 0 ≤ s then m <<< s.toNat else m >>> (-s).toNat

def ofFx (v : Int) : Num := .fin (v < 0) v.natAbs (-512)

/-- term + term × r / d(1) + term × r² / (d(1) d(2)) + …, n terms from index k on; r may be negative. -/
def fxSeries (d : Nat → Nat) (r : Int) : Nat → Nat → Int → Int
  | 0, _, _ => 0
  | n + 1, k, term => term + fxSeries d r n (k + 1) (term * r / (fxOne : Int) / (d (k + 1) : Int))

/-- 2^t for t in fixed point. -/
def fxExp2 (t : Int) : Num :=
  let n := t / (fxOne : Int)
  let f := (t % (fxOne : Int)).toNat
  .fin false (fxSeries (fun k => k) ((f * fxLn2 / fxOne : Nat) : Int) 120 0 fxOne).toNat (n - 512)

/-- 2^x, or e^x, of a finite value; beyond every format's range its order of magnitude only. -/
def numExp (natural : Bool) (neg : Bool) (m : Nat) (e : Int) : Num :=
  if m ≠ 0 ∧ 11 ≤ (Nat.log2 m : Int) + e then .fin false 1 (if neg then -4096 else 4096)
  else
    let x := toFx m e
    let t := if natural then x * fxLog2e / fxOne else x
    fxExp2 (if neg then -(t : Int) else t)

/-- ln, or log2, of m × 2^e with m nonzero. -/
def numLog (natural : Bool) (m : Nat) (e : Int) : Num :=
  let k := Nat.log2 m
  let y := toFx m (-k)
  let z := (y - fxOne) * fxOne / (y + fxOne)
  let s := (List.range 170).foldl
    (fun (a : Nat × Nat) i => (a.1 + a.2 / (2 * i + 1), a.2 * z / fxOne * z / fxOne)) (0, z)
  let v : Int := (2 * s.1 : Nat) + ((k : Int) + e) * (fxLn2 : Int)
  ofFx (if natural then v else v * (fxLog2e : Int) / (fxOne : Int))

/-- sin, or cos, of m × 2^e. -/
def numSin (sine : Bool) (m : Nat) (e : Int) : Num :=
  let r := toFx m e % (2 * fxPi)
  let q : Int := -((r * r / fxOne : Nat) : Int)
  ofFx (if sine then fxSeries (fun k => 2 * k * (2 * k + 1)) q 100 0 r
    else fxSeries (fun k => 2 * k * (2 * k - 1)) q 100 0 fxOne)

/-- x Φ(x), the error-function form of GELU. -/
def numGelu (neg : Bool) (m : Nat) (e : Int) : Num :=
  if m ≠ 0 ∧ 4 ≤ (Nat.log2 m : Int) + e then (if neg then .fin true 1 (-4096) else .fin false m e)
  else
    let x := toFx m e
    let q := x * x / (2 * fxOne)
    let s := (List.range 700).foldl (fun (a : Int × Nat) n =>
      (a.1 + (if n % 2 = 0 then 1 else -1) * ((a.2 / (2 * n + 1) : Nat) : Int), a.2 * q / fxOne / (n + 1))) (0, fxOne)
    let half : Int := (x : Int) * s.1 / (fxOne : Int) * (fxInvSqrt2Pi : Int) / (fxOne : Int)
    (Num.fin neg m e).mul (ofFx ((fxOne : Int) / 2 + (if neg then -half else half)))

def num1 : Num := .fin false 1 0

/-- The result of a function, by its MOP number, correct to far more bits than any format holds; at zeros and
infinities its value there or its limit (DEDUCED, log 70). -/
def fnExact (mop : Nat) (x : Num) : Num :=
  match mop, x with
  | _, .nan => .nan
  | 0x16, x => num1.div x
  | 0x17, x => num1.div x.sqrt
  | 0x1C, .inf n => if n then numZero else .inf false
  | 0x1E, .inf n => if n then numZero else .inf false
  | 0x1C, .fin n m e => numExp true n m e
  | 0x1E, .fin n m e => numExp false n m e
  | 0x1D, x => logOf true x
  | 0x1F, x => logOf false x
  | 0x20, .inf n => .fin n 1 0
  | 0x20, .fin n m e =>
    if m = 0 ∨ (Nat.log2 m : Int) + e < -20 then
      (Num.fin n m e).sub ((((Num.fin n m e).mul (.fin n m e)).mul (.fin n m e)).div (numOfInt 3))
    else
      let q := numExp true true m (e + 1)
      let t := (num1.sub q).div (num1.add q)
      if n then t.neg else t
  | 0x21, .inf n => if n then numZero else num1
  | 0x21, .fin n m e =>
    let q := numExp true true m e
    (if n then q else num1).div (num1.add q)
  | 0x22, .inf n => if n then .fin true 0 0 else .inf false
  | 0x22, .fin n m e => numGelu n m e
  | 0x23, .fin n m e => if m = 0 then .fin n 0 0 else (let s := numSin true m e; if n then s.neg else s)
  | 0x24, .fin _ m e => numSin false m e
  | _, _ => .nan
where
  logOf (natural : Bool) : Num → Num
    | .nan => .nan
    | .inf n => if n then .nan else .inf false
    | .fin n m e => if m = 0 then .inf true else if n then .nan else numLog natural m e

/-- The error allowed (Table 4-7), for an exact result v in a format; none where the table gives no bound. -/
def fnBound (f : FFmt) (mop : Nat) (x v : Num) : Option Num :=
  let ulp := match v with
    | .fin _ m e => (if m = 0 then f.emin else max f.emin ((Nat.log2 m : Int) + e)) - f.p
    | _ => 0
  match mop with
  | 0x16 => some (.fin false 1 ulp)
  | 0x17 => some (.fin false 1 ulp)
  | 0x1C => some (.fin false 2 ulp)
  | 0x1D => some (.fin false 2 ulp)
  | 0x1E => some (.fin false 1 ulp)
  | 0x1F => some (.fin false 1 ulp)
  | 0x20 => some (.fin false 3 ulp)
  | 0x21 => some (.fin false 3 ulp)
  | 0x22 => some (.fin false 4 ulp)
  | _ => if x.abs.le (.fin false 1 24) then some (.fin false 1 (-22)) else none

/-- Whether a value of a format lies within a bound of an exact one; an infinity stands for the next binade. -/
def fnWithin (f : FFmt) (bound v : Num) : Num → Bool
  | .nan => false
  | .inf n => ((Num.fin n 1 ((2 ^ (f.ebits - 1) : Nat) : Int)).sub v).abs.le bound
  | c => (c.sub v).abs.le bound

def wfFmt (wf : Nat) : FFmt := if wf = 0 then fp32 else if wf = 1 then bf16 else w40

/-- What the function set in force gives (R115): a fixed value within the table's error of the exact result, which the
FUNC files hold and this model leaves open (log 1). -/
def funcWf (ver mop wf : Nat) (x : Num) : Num :=
  let f := wfFmt wf
  let v := fnExact mop x
  let c := f.decode (Config.func (mop + 256 * wf) ver (f.bitsOf x) 0 % 2 ^ (1 + f.ebits + f.p))
  if !v.isFinite then v
  else match fnBound f mop x v with
    | none => c
    | some b => if fnWithin f b v c then c else (f.round v).1

end Sys2Proof.Machine
end

