-- ==== Sys2Proof/Machine/Crypto.lean ====
section
/-! DEFINITION. The digests and ciphers the manual names: SHAKE256 (FIPS 202), AES-256 and its XTS mode (FIPS 197,
IEEE 1619), CRC-32 (R298), and the Reed-Solomon code of R177. PRESUMED: their bits come from the named standards,
which the manual cites and does not repeat (log entry 11). -/

namespace Sys2Proof.Machine

/-! ### SHAKE256 -/

/-- Rotation offsets of Keccak's rho step, lane x + 5y. -/
def keccakRho : List Nat :=
  [0, 1, 62, 28, 27, 36, 44, 6, 55, 20, 3, 10, 43, 25, 39, 41, 45, 15, 21, 8, 18, 2, 61, 56, 14]

def keccakRC : List (BitVec 64) :=
  [0x0000000000000001, 0x0000000000008082, 0x800000000000808A, 0x8000000080008000,
   0x000000000000808B, 0x0000000080000001, 0x8000000080008081, 0x8000000000008009,
   0x000000000000008A, 0x0000000000000088, 0x0000000080008009, 0x000000008000000A] ++
  [0x000000008000808B, 0x800000000000008B, 0x8000000000008089, 0x8000000000008003,
   0x8000000000008002, 0x8000000000000080, 0x000000000000800A, 0x800000008000000A,
   0x8000000080008081, 0x8000000000008080, 0x0000000080000001, 0x8000000080008008]

/-- One round of Keccak-f[1600] on 25 lanes. -/
def keccakRound (a : List (BitVec 64)) (rc : BitVec 64) : List (BitVec 64) :=
  let l (xs : List (BitVec 64)) (x y : Nat) := xs.getD (x % 5 + 5 * (y % 5)) 0
  let c := (List.range 5).map fun x => l a x 0 ^^^ l a x 1 ^^^ l a x 2 ^^^ l a x 3 ^^^ l a x 4
  let d := (List.range 5).map fun x => c.getD ((x + 4) % 5) 0 ^^^ (c.getD ((x + 1) % 5) 0).rotateLeft 1
  let b1 := (List.range 25).map fun i => (a.getD i 0 ^^^ d.getD (i % 5) 0).rotateLeft (keccakRho.getD i 0)
  -- pi: lane (x, y) goes to (y, 2x + 3y); read backwards, target (x, y) comes from (x + 3y, x)
  let b2 := (List.range 25).map fun i => l b1 (i % 5 + 3 * (i / 5)) (i % 5)
  let e := (List.range 25).map fun i =>
    l b2 (i % 5) (i / 5) ^^^ (~~~(l b2 (i % 5 + 1) (i / 5)) &&& l b2 (i % 5 + 2) (i / 5))
  (e.headD 0 ^^^ rc) :: e.tail

def keccakF (a : List (BitVec 64)) : List (BitVec 64) := keccakRC.foldl keccakRound a

/-- The rate of SHAKE256 in bytes. -/
def shakeRate : Nat := 136

/-- The padded message: 0x1F, zeros, and 0x80 in the block's last byte. -/
def shakePad (m : List Byte) : List Byte :=
  let q := shakeRate - m.length % shakeRate
  if q = 1 then m ++ [0x9F] else m ++ [0x1F] ++ List.replicate (q - 2) 0 ++ [0x80]

def lanesOf (bs : List Byte) : List (BitVec 64) :=
  (List.range 25).map fun i => BitVec.ofNat 64 (leAt bs (8 * i) 8)

def shakeAbsorb (m : List Byte) : List (BitVec 64) :=
  (chunksOf shakeRate (shakePad m)).foldl
    (fun a blk => keccakF ((List.range 25).map fun i => a.getD i 0 ^^^ (lanesOf blk).getD i 0))
    (List.replicate 25 0)

/-- The first n bytes of SHAKE256 of m; n is at most 136 wherever the manual uses it. -/
def shake256 (m : List Byte) (n : Nat) : List Byte :=
  ((shakeAbsorb m).flatMap fun w => leBytes 8 w.toNat).take n

/-! ### AES-256 -/

/-- Multiplication in GF(2^8) modulo x^8 + x^4 + x^3 + x + 1. -/
def gfMulAes (a b : Nat) : Nat :=
  (List.range 8).foldl (fun (p : Nat × Nat) i =>
    let r := if b.testBit i then p.1 ^^^ p.2 else p.1
    let t := p.2 * 2
    (r, if t ≥ 256 then t ^^^ 0x11B else t)) (0, a) |>.1

/-- The inverse in GF(2^8), 0 for 0: a^254. -/
def gfInvAes (a : Nat) : Nat :=
  let a2 := gfMulAes a a
  let a4 := gfMulAes a2 a2
  let a8 := gfMulAes a4 a4
  let a16 := gfMulAes a8 a8
  let a32 := gfMulAes a16 a16
  let a64 := gfMulAes a32 a32
  let a128 := gfMulAes a64 a64
  gfMulAes a128 (gfMulAes a64 (gfMulAes a32 (gfMulAes a16 (gfMulAes a8 (gfMulAes a4 a2)))))

def rotl8 (v k : Nat) : Nat := ((v <<< k) ||| (v >>> (8 - k))) % 256

def aesSbox (a : Nat) : Nat :=
  let i := gfInvAes a
  i ^^^ rotl8 i 1 ^^^ rotl8 i 2 ^^^ rotl8 i 3 ^^^ rotl8 i 4 ^^^ 0x63

def aesInvSbox (a : Nat) : Nat :=
  gfInvAes (rotl8 a 1 ^^^ rotl8 a 3 ^^^ rotl8 a 6 ^^^ 0x05)

def nats (bs : List Byte) : List Nat := bs.map BitVec.toNat

def xorBytes (a b : List Nat) : List Nat := List.zipWith (· ^^^ ·) a b

/-- The fifteen round keys of AES-256, 16 bytes each. -/
def aesKeys (key : List Nat) : List (List Nat) :=
  let w0 := chunksOf 4 key
  let ws := (List.range 52).foldl (fun (ws : List (List Nat)) k =>
    let i := k + 8
    let t := ws.getD (i - 1) []
    let t := if i % 8 = 0 then
        let r := (t.tail ++ [t.headD 0]).map aesSbox
        (r.headD 0 ^^^ (1 <<< (i / 8 - 1)) % 256) :: r.tail
      else if i % 8 = 4 then t.map aesSbox else t
    ws ++ [xorBytes (ws.getD (i - 8) []) t]) w0
  (chunksOf 4 ws).map List.flatten

def mixColumn (c : List Nat) (m : List Nat) : List Nat :=
  (List.range 4).map fun r => (List.range 4).foldl
    (fun x j => x ^^^ gfMulAes (m.getD ((j + 4 - r) % 4) 0) (c.getD j 0)) 0

def aesShift (s : List Nat) (inv : Bool) : List Nat :=
  (List.range 16).map fun i =>
    let r := i % 4; let c := i / 4
    s.getD (r + 4 * ((if inv then c + 4 - r else c + r) % 4)) 0

/-- AES-256 encryption of one 16-byte block. -/
def aesEnc (keys : List (List Nat)) (blk : List Nat) : List Nat :=
  let s0 := xorBytes blk (keys.headD [])
  let s := (List.range 13).foldl (fun s r =>
    let s := aesShift (s.map aesSbox) false
    let s := (chunksOf 4 s).flatMap fun c => mixColumn c [2, 3, 1, 1]
    xorBytes s (keys.getD (r + 1) [])) s0
  xorBytes (aesShift (s.map aesSbox) false) (keys.getD 14 [])

/-- AES-256 decryption of one 16-byte block. -/
def aesDec (keys : List (List Nat)) (blk : List Nat) : List Nat :=
  let s0 := xorBytes blk (keys.getD 14 [])
  let s := (List.range 13).foldl (fun s r =>
    let s := (aesShift s true).map aesInvSbox
    let s := xorBytes s (keys.getD (13 - r) [])
    (chunksOf 4 s).flatMap fun c => mixColumn c [14, 11, 13, 9]) s0
  xorBytes ((aesShift s true).map aesInvSbox) (keys.headD [])

/-- Multiplication of an XTS tweak by the primitive element. -/
def xtsDouble (t : List Nat) : List Nat :=
  let v := (leNat (t.map (BitVec.ofNat 8))) * 2
  let v := if v ≥ 2 ^ 128 then (v % 2 ^ 128) ^^^ 0x87 else v
  nats (leBytes 16 v)

/-- AES-256-XTS of a unit of whole blocks under a data key, a tweak key and a data unit number. -/
def aesXts (dec : Bool) (k1 k2 : List Byte) (unit : Nat) (bs : List Byte) : List Byte :=
  let keys := aesKeys (nats k1)
  let t0 := aesEnc (aesKeys (nats k2)) (nats (leBytes 16 unit))
  let r := (chunksOf 16 (nats bs)).foldl (fun (acc : List (List Nat) × List Nat) b =>
    let x := xorBytes b acc.2
    let y := if dec then aesDec keys x else aesEnc keys x
    (xorBytes y acc.2 :: acc.1, xtsDouble acc.2)) ([], t0)
  r.1.reverse.flatten.map (BitVec.ofNat 8)

/-! ### CRC-32 -/

/-- CRC-32 with the IEEE 802.3 polynomial 0x04C1_1DB7 (R298, R415), in its reflected form. -/
def crc32 (bs : List Byte) : Word :=
  let r := bs.foldl (fun (c : Nat) b =>
    (List.range 8).foldl (fun (c : Nat) _ => if c % 2 = 1 then (c / 2) ^^^ 0xEDB88320 else c / 2)
      (c ^^^ b.toNat)) 0xFFFFFFFF
  BitVec.ofNat 32 (r ^^^ 0xFFFFFFFF)

/-! ### The memory code of R177 -/

/-- Multiplication in GF(2^8) modulo x^8 + x^4 + x^3 + x^2 + 1. -/
def gfMul (a b : Nat) : Nat :=
  (List.range 8).foldl (fun (p : Nat × Nat) i =>
    let r := if b.testBit i then p.1 ^^^ p.2 else p.1
    let t := p.2 * 2
    (r, if t ≥ 256 then t ^^^ 0x11D else t)) (0, a) |>.1

/-- The coefficients x^3 to x^0 of g(x) = (x - 1)(x - α)(x - α^2)(x - α^3), less its leading 1. -/
def rsGen : List Nat :=
  let mulRoot (p : List Nat) (r : Nat) : List Nat :=   -- p highest first, times (x - r)
    List.zipWith (· ^^^ ·) (p ++ [0]) (0 :: p.map (gfMul r))
  ([1, 2, 4, 8].foldl mulRoot [1]).tail

/-- The four check bytes of 64 data bytes: coefficients x^0 to x^3 of the remainder (R177). -/
def rsCheck (data : List Byte) : List Byte :=
  let rem := (nats data).reverse.foldl (fun (r : List Nat) d =>
    let q := d ^^^ r.headD 0
    List.zipWith (fun a g => a ^^^ gfMul q g) (r.tail ++ [0]) rsGen) [0, 0, 0, 0]
  rem.reverse.map (BitVec.ofNat 8)

end Sys2Proof.Machine
end

