-- ==== Sys2Proof/Machine/Sparse.lean ====
section
/-! DEFINITION. Sparse maps from numbers: lists of key and value, keys rising, no entry equal to what an unlisted
key reads as. Registers, memory, slots and per-unit state are held so. -/

namespace Sys2Proof.Machine

/-- The value at a key; dflt is what an unlisted key reads as. -/
def smGet (dflt : α) : List (Nat × α) → Nat → α
  | [], _ => dflt
  | e :: r, k => if e.1 = k then e.2 else smGet dflt r k

/-- The map without a key. -/
def smDel (m : List (Nat × α)) (k : Nat) : List (Nat × α) := m.filter fun e => e.1 ≠ k

/-- Puts an entry before the first greater key. -/
def smInsert (k : Nat) (v : α) : List (Nat × α) → List (Nat × α)
  | [] => [(k, v)]
  | e :: r => if k < e.1 then (k, v) :: e :: r else e :: smInsert k v r

/-- The map with a key at a value, whatever an unlisted key reads as. -/
def smPut (m : List (Nat × α)) (k : Nat) (v : α) : List (Nat × α) := smInsert k v (smDel m k)

/-- The map with a key at a value, kept canonical: the value an unlisted key reads as removes the entry. -/
def smSet [DecidableEq α] (dflt : α) (m : List (Nat × α)) (k : Nat) (v : α) : List (Nat × α) :=
  if v = dflt then smDel m k else smPut m k v

/-- The value at a key that is listed. -/
def smFind : List (Nat × α) → Nat → Option α
  | [], _ => none
  | e :: r, k => if e.1 = k then some e.2 else smFind r k

/-- Keys strictly rising, all above a bound. -/
def smSorted : Nat → List (Nat × α) → Bool
  | _, [] => true
  | b, e :: r => decide (b ≤ e.1) && smSorted (e.1 + 1) r

/-- The canonical form: keys strictly rising, and no entry equal to what its key reads as unlisted. -/
def smWf [DecidableEq α] (dflt : Nat → α) (m : List (Nat × α)) : Bool :=
  smSorted 0 m && m.all fun e => decide (e.2 ≠ dflt e.1)

end Sys2Proof.Machine
end

