-- ==== Sys2Proof/Machine/State.lean ====
section
/-! DEFINITION. The state of the package, as plain data: the queue of waiting commands, the fuses and everything
else the manual gives it; the reasons a step can stop; the state at reset. -/

namespace Sys2Proof.Machine

/-- The package states of Table 19-1. -/
inductive PkgState where
  | off
  | aux
  | bringup
  | ready
  | run
  | hold
  | quiet
  | alarm
  | resigned
  deriving DecidableEq, Repr

/-- Where a byte of memory lies: HBM (keyed by stack × 2^37 + stack offset, R169), the tile stores (keyed by
tile × 2^23 + offset, R17), host physical memory (R351) and the external flash (R187). -/
inductive Space where
  | hbm
  | tile
  | host
  | flash
  deriving DecidableEq, Repr

/-- Bytes whose contents the manual calls undefined: they read as free values of the draw. -/
structure FreeRange where
  space : Space
  base : Nat
  len : Nat
  draw : Nat
  deriving DecidableEq, Repr

/-- Memory: four sparse stores in canonical form (addresses rising, no entry 0) and the marks of undefined bytes, those
of the tile stores apart. -/
structure Mem where
  hbm : List Host.Cell
  tile : List Host.Cell
  host : List Host.Cell
  flash : List Host.Cell
  free : List FreeRange
  tileFree : List FreeRange
  deriving DecidableEq, Repr

/-- What a row remap records (Table 7-4). -/
structure RemapEntry where
  kind : Nat
  spare : Nat
  bank : Nat
  pc : Nat
  row : Nat
  deriving DecidableEq, Repr

/-- A row in one of a pawn's buffers (R199): the order number of the command it moved for, its device virtual
address, its bytes, and the addresses of its poisoned codewords. -/
structure RowBuf where
  order : Nat
  va : Nat
  bytes : List Byte
  bad : List Nat
  deriving DecidableEq, Repr

/-- What a pawn holds (R199, R289): its eight row buffers, the row moved last first; the container of its W40 block
value; and, while it holds a token for UPDATE, its update store, as the rows of the unit in it. -/
structure PawnAux where
  rows : List RowBuf
  block : Nat
  store : List RowBuf
  deriving DecidableEq, Repr

/-- The hidden state of one stack: its row tracker, oldest first (R184), the live remap list and the entries not
yet in flash (R183, R187), pending rows (R186), write-backs waiting (R179), the scrub position and whether SCRUB_NOW
started the pass (R181), the bytes read and written in full (R197), the pawns' row steps (R225), the pawns, and the
vector in its buffer with the order number of the command it is for (R220). Rows are numbers, see rowKey. -/
structure StackAux where
  tracker : List (Nat × Nat)
  remaps : List RemapEntry
  unsaved : List RemapEntry
  pendingRows : List Nat
  writeBacks : List Nat
  scrubAt : Nat
  scrubNow : Bool
  rdBytes : Nat
  wrBytes : Nat
  rowSteps : Nat
  pawns : List (Nat × PawnAux)
  vector : Option (Nat × List Byte)
  deriving DecidableEq, Repr

/-- A line that a board cache holds (R190): its device physical address over 64, its way, and whether its parity is
wrong (R192). Caches hold only clean data (R191), so its bytes are those of memory. -/
structure CacheLine where
  line : Nat
  way : Nat
  bad : Bool
  deriving DecidableEq, Repr

/-- A board cache (R190, R191): its lines; the remote copies of its own stacks' lines that it tracks, with the board
that holds each, oldest first; its hits, misses and remote fills in full; and whether its self-test failed (R452). -/
structure CacheAux where
  lines : List CacheLine
  sharers : List (Nat × Nat)
  hits : Nat
  misses : Nat
  fills : Nat
  failed : Bool
  deriving DecidableEq, Repr

/-- A segment of a pawn command (Table 8-2, Table 11-5): elements, stack, DEEP and its base fields from offset 0x08
on. -/
structure PawnSeg where
  count : Nat
  stack : Nat
  deep : Bool
  bases : List Nat
  deriving DecidableEq, Repr

/-- The hidden state of one ring: the last accepted submission doorbell, the completion consumer index, the
expected lap, the refetches of the running series and whether a series runs (R34, R37-R40, R51); whether its
completion memory has failed a write (Table 14-7); and whether STALE_SLOT parked it (R39). -/
structure RingAux where
  sqProd : Word
  cqCons : Word
  lap : Nat
  refetches : Nat
  mismatch : Bool
  cqFailed : Bool
  stale : Bool
  deriving DecidableEq, Repr

/-- Where a command stands between its fetch and its final record. -/
inductive Phase where
  | waiting
  | running
  | suspended
  | finished
  deriving DecidableEq, Repr

/-- An outstanding resolvable fault (R357, R358): address, access, demand region, mode and record number; and whether
its record waits for room in the fault queue. -/
structure PendingFault where
  va : Nat
  write : Bool
  region : Nat
  report : Bool
  id : Word
  unposted : Bool := false
  deriving DecidableEq, Repr

/-- A command in flight (R54) with its resume area (Table 14-8): its packet, world and phase; how it ended; the step
and the step key at its dispatch (R106); the tiles it holds; its progress with the flags raised and the items counted
so far; why it is suspended; its place in a stream task; opcode-private words; what it wrote through and which stacks
it used; its pinned translations; whether a step was open at its dispatch; units done by segment and pawn; the stripes
of its pawn outputs; the output ranges that are undefined at its end, since its operands overlap as the manual
forbids; the completion ring that takes its records, fixed at its fetch (R48); bricks written of the unit it has
begun; the tile that serves its present units, with what names them (R74, R86, R137); its output ranges and its work
buffer, known before its first unit; its segments, once the check of R206 has passed; the logical rows whose results
poison has spoilt (R202, R219), and leaves that its work area has no room for (R286, R289), or for a NOTATE piece
records not yet sent (R341); the address at which it waits for a held range (R211); the order numbers of the commands
that ended before its dispatch by an order of R46; whether the unit it has begun is computed, its bricks still to be
written; and the tiles it held, ascending, when it began or resumed (R137). -/
structure Cmd where
  ring : RingId
  order : Nat
  packet : List Byte
  world : World
  phase : Phase
  refused : Bool
  empty : Bool
  silent : Bool
  status : Byte
  detail0 : Quad
  detail1 : Quad
  errRef : Word
  step : Quad
  tiles : List Nat
  doneUnits : Nat
  written : Nat
  prePending : Bool
  suspensions : Nat
  firstCause : Byte
  fault : Option PendingFault
  member : Nat
  priv : List Nat
  wroteHost : Bool
  peers : List Nat
  fenced : Bool
  usedStacks : List Nat
  pins : List (Nat × Nat)
  flags : Nat
  tally : Nat
  key : List Word
  inStep : Bool
  shares : List (Nat × Nat)
  outs : List Nat
  undef : List (Nat × Nat)
  target : Nat
  part : Nat
  serving : Option (Nat × Nat)
  outRanges : List (Nat × Nat)
  buffer : List (Nat × Nat)
  segs : Option (List PawnSeg)
  lost : List Nat
  leaves : List (Nat × List Byte)
  heldAt : Option Nat
  knows : List Nat
  computed : Bool
  team : List Nat
  deriving DecidableEq, Repr

/-- One matrix array of a tile (Table 3-1): its active and shadow weight buffers, columns of weights; its two
accumulator blocks, rows of W40 values, and which of them collects the next group; its cell operations and the gated
ones among them, in full (R66, R67, R70, R89). -/
structure ArrayAux where
  active : List (List Num)
  shadow : List (List Num)
  acc0 : List (List Num)
  acc1 : List (List Num)
  second : Bool
  cellOps : Nat
  gatedOps : Nat
  deriving DecidableEq, Repr

/-- A staged copy in a tile's store (R229, R230, R247): the order number of its task's opening command, the task, the
schedule entry, its LAST_USER, the range of memory that it copies, and the credits that hold its bytes in order. -/
structure StagedCopy where
  opener : Nat
  task : Nat
  entry : Nat
  last : Nat
  base : Nat
  bytes : Nat
  credits : List Nat
  deriving DecidableEq, Repr

/-- What a tile holds beside its registers and its store (R60): the four arrays, the bricks in its finished-tile
queue, oldest first, the credits of the command holding it, once that has claimed some, and the staged copies (R229). -/
structure TileAux where
  arrays : List ArrayAux
  queue : List (List (List Num))
  claimed : Option (List Nat)
  copies : List StagedCopy
  deriving DecidableEq, Repr

/-- A leaf in a translation cache (R356): its regime, its level, the page of that level and the entry. -/
structure LeafEntry where
  regime : Nat
  level : Nat
  page : Nat
  leaf : Nat
  deriving DecidableEq, Repr

/-- A translation cache with its full counts of hits and misses (R356, R368). -/
structure XCache where
  entries : List LeafEntry
  hits : Nat
  misses : Nat
  deriving DecidableEq, Repr

/-- A table pointer in a walker's cache (R356): its regime, its level, the prefix of that level and the table it
points to. -/
structure PointerEntry where
  regime : Nat
  level : Nat
  page : Nat
  table : Nat
  deriving DecidableEq, Repr

/-- What translation keeps (R356): the caches of tiles 0 to 191 and, as 192, of the castle; the pointers each board's
walker holds; and the count of walks. -/
structure XlateAux where
  caches : List (Nat × XCache)
  pointers : List (Nat × List PointerEntry)
  walks : Nat
  deriving DecidableEq, Repr

/-- A pending snapshot of a linked set: register offsets of live copies with their values. -/
abbrev Snapshot := List (Nat × Word)

/-- What the training block holds beside its registers (R269-R293): the step key, the pending set, whether an
UPDATE has been dispatched in this step, and the full count of clean checks (R279). -/
structure TrainAux where
  stepKey : List Word
  pendingSet : Option Snapshot
  updateSeen : Bool
  cleanRun : Nat
  deriving DecidableEq, Repr

/-- An ABORT that a failed collective owes a partner whose SETUP had not arrived (R324): the partner's map, group,
TAG and rank, the slot and the distance of the way to it, and the abort word. -/
structure OwedAbort where
  map : Nat
  group : Nat
  tag : Nat
  rank : Nat
  slot : Nat
  dist : Nat
  pay : AbortPay
  deriving DecidableEq, Repr

/-- What the fabric holds beside its registers: pending route maps and FABRIC_CFG (R310, R315), whether the
digest is older than its inputs (R312), whether a cancelled epoch left a training set that waits for the next
one (R314), and the ABORT cells that failed collectives still owe (R324). -/
structure FabricAux where
  pendingMaps : List (Nat × Snapshot)
  pendingCfg : Option Word
  stale : Bool
  heldTrain : Bool
  owed : List OwedAbort
  deriving DecidableEq, Repr

/-- A deep-tier request of this package that waits for its answer (R299): its tag, the slot that asked, the tile whose
DMA engine holds its tags (R226; 192 for none), whether it writes, what it asks for, and what came back: read data by
INDEX, or acknowledged cells; lost with its partner. -/
structure DtReq where
  tag : Nat
  slot : Nat
  tile : Nat
  write : Bool
  window : Nat
  offset : Nat
  len : Nat
  got : List (Nat × List Byte)
  acks : Nat
  answer : Option DtAnswer
  lost : Bool
  deriving DecidableEq, Repr

/-- The link state of one port beside its registers (R297-R307): sequence numbers sent, received and acknowledged, the
replay buffer, credits held and owed per channel, cells that wait for credit and whose turn it is between VC1 and VC2,
SETUP cells waiting, consecutive good keepalives, whether the partner reported HELLO or UP, the link epoch, the serial
number seen, whether this end's SERIAL is the larger of the two (R400), link-encryption counters by key slot, laser
inputs, light, whether it locks again on a return from QUIET (R443), every cell that has left the port since the last
link-up, deep-tier requests, the cell counts below the granularity of their registers, and FEC_CORR and FEC_UNCORR. -/
structure PortAux where
  txSeq : Nat
  rxSeq : Nat
  acked : Nat
  replay : List Cell
  credits : List Nat
  owed : List Nat
  queue : List Cell
  lowTurn : Bool
  setups : List Cell
  good : Nat
  partnerUp : Bool
  linkEpoch : Word
  serialSeen : Option Quad
  larger : Bool
  encTx : List (Nat × Nat)
  encRx : List (Nat × Nat)
  laser0 : Bool
  laser1 : Bool
  light : Bool
  rejoins : Bool
  out : List Cell
  requests : List DtReq
  nextTag : Nat
  txCount : Nat
  rxCount : Nat
  fwdCount : Nat
  fecCorr : Word
  fecUncorr : Word
  deriving DecidableEq, Repr

/-- A live collective (R316-R325): its slot, context number, map, group and tag; whether its setups are sent and as
what, which partners' setups have matched (rank and context); the level it is at and whether its transfer of that
level has left; cells received by level and INDEX; what the member holds, exact values of a reduction, blocks of bytes
otherwise; bytes received and flags raised; whether its own final writes are done and whether the step was open at
dispatch; and the close exchange. -/
structure Coll where
  slot : Nat
  ctx : Nat
  map : Nat
  group : Nat
  tag : Nat
  setupSent : Bool
  mine : Option SetupPay
  matched : List (Nat × Nat)
  level : Nat
  levelSent : Bool
  inbox : List (Nat × Nat × List Byte)
  acc : List Num
  blocks : List (Nat × List Byte)
  bytesIn : Nat
  flags : Nat
  written : Bool
  agree : Bool
  ups : List ClosePay
  upSent : Bool
  down : Option ClosePay
  deriving DecidableEq, Repr

/-- A checked schedule entry of a live task (Table 9-7): its kind, source, destination, object and bytes, the member it
comes after, the last user and the tiles of its staged copies, and its memory units of 64 KiB. -/
structure StreamEntry where
  kind : Nat
  src : Nat
  dst : Nat
  obj : Nat
  bytes : Nat
  after : Nat
  last : Nat
  stage : List Nat
  units : Nat
  deriving DecidableEq, Repr

/-- The first fault inside a task (R248): the slot it struck, its status and DETAIL words, and whether it is
replayable (Table 9-8). -/
structure StreamFault where
  slot : Nat
  status : Nat
  detail0 : Nat
  detail1 : Nat
  replayable : Bool
  deriving DecidableEq, Repr

/-- A live stream task (R243-R248): its number, ring and opening slot, the members it expects and the slots of those
fetched, in order; whether its schedule has been checked, and the entries; replays run; a fault that waits to be
served; a status every member still to come takes; and whether its records are being written. -/
structure Stream where
  task : Nat
  ring : RingId
  slot : Nat
  members : Nat
  fetched : List Nat
  checked : Bool
  entries : List StreamEntry
  replays : Nat
  fault : Option StreamFault
  abort : Option (Nat × Nat × Nat × Nat)
  ended : Bool
  deriving DecidableEq, Repr

/-- A piece being received (R336): its port and which slot of the two it fills. -/
structure CkptRx where
  port : Nat
  half : Nat
  deriving DecidableEq, Repr

/-- The checkpoint engines beside their registers (R336-R346): pieces being received, stored bytes sent so far, the
digests of the five pieces of the generations last sent, newest first; and of replica audits the roots that an audit has
gathered, by rank (none at all where its gather failed), the context numbers of the members that took part, and the
divergent members that this one is the source of. -/
structure CkptAux where
  rx : List CkptRx
  sentBytes : Nat
  gens : List (Nat × List (List Byte))
  gathered : Option (List (List Byte))
  peers : List (Nat × Nat)
  serves : List Nat
  deriving DecidableEq, Repr

/-- A line the CXL.cache agent holds modified (R378): its bytes and the slot that wrote it last. -/
structure AgentLine where
  bytes : List Byte
  slot : Nat
  deriving DecidableEq, Repr

/-- A window access that waits behind a held range (R211, R212), or a read behind posted writes (R383). -/
structure WinAccess where
  op : WinOp
  off : Nat
  pa : Nat
  len : Nat
  bytes : List Byte
  deriving DecidableEq, Repr

/-- What a window read answers: its bytes and whether they carry CXL poison (R376, R212). -/
structure WinAnswer where
  bytes : List Byte
  poison : Bool
  deriving DecidableEq, Repr

/-- An MSI-X message, a posted write of a data word to an address, both of the vector's table entry (R374). -/
structure MsixMessage where
  vector : Nat
  addr : Nat
  data : Word
  deriving DecidableEq, Repr

/-- Host side of the package beside its registers: lines held modified, oldest first, waiting and answered window
accesses, MSI-X messages sent and vectors held, error messages sent on CXL by severity, the last host address written, and the
64-byte lines of host memory whose data carries CXL poison (R39); the host sets those, and a write clears them. behind
holds the BAR0 writes that wait for posted writes before them, oldest first (R383); component, what has been written to
the CXL component registers (R372); memInfoValid and memActive, the bits of the CXL DVSEC (R451). -/
structure HostAux where
  lines : List (Nat × AgentLine)
  winQueue : List WinAccess
  winAnswers : List WinAnswer
  msixSent : List MsixMessage
  msixHeld : List Nat
  aerSent : List Nat
  lastWrite : Option Nat
  winRead : Nat
  winWritten : Nat
  agentRead : Nat
  agentWritten : Nat
  poisoned : List Nat
  behind : List Instr
  component : List (Nat × Word)
  memInfoValid : Bool
  memActive : Bool
  deriving DecidableEq, Repr

/-- One link key slot (R398). -/
structure LinkKey where
  key : List Byte
  salt : Word
  world : World
  deriving DecidableEq, Repr

/-- One egress key slot (R398): data key, tweak key, egress counter. -/
structure EgressKey where
  dataKey : List Byte
  tweakKey : List Byte
  counter : Nat
  world : World
  deriving DecidableEq, Repr

/-- The security core beside its registers (R395-R405). -/
structure SecAux where
  linkKeys : List (Nat × LinkKey)
  egressKeys : List (Nat × EgressKey)
  keyData : List Word
  keyArg0 : Word
  keyArg1 : Word
  idPriv : List Byte
  aliasPriv : List Byte
  fwMeas : List Byte
  verified : Bool
  halted : Bool
  keysErased : Bool
  deriving DecidableEq, Repr

/-- The lands of the package that commands change or read (R451, R425, R430, R402): true is the asserted or
in-window level, whatever its polarity. -/
structure Pins where
  faultN : Bool
  alarmN : Bool
  thermTripN : Bool
  mgmtAlertN : Bool
  pwrGoodAux : Bool
  pkgResetDriven : Bool
  pkgResetHeld : Bool
  perst : Bool
  ospiReleased : Bool
  deriving DecidableEq, Repr

/-- Supplies and clocks (R423-R425, R440). needRamp: VIN must fall below 2 V and ramp again before a start. -/
structure Supplies where
  vaux : Bool
  viom : Bool
  vana : Bool
  vinMv : Nat
  refclkSys : Bool
  refclkCxl : Bool
  converters : Bool
  needRamp : Bool
  deriving DecidableEq, Repr

/-- The types of control frames (Table 17-4). -/
inductive FrameKind where
  | idle
  | data
  | nak
  deriving DecidableEq, Repr

/-- One control channel or management lane set (R415-R417): sequence numbers, the replay buffer, resends of the
oldest frame in a row, frames delivered and sent, whether its retry is exhausted, and the messages that wait to go out. -/
structure ChanAux where
  txSeq : Nat
  rxSeq : Nat
  acked : Nat
  replay : List Frame
  resends : Nat
  delivered : List Frame
  sent : List (FrameKind × Frame)
  dead : Bool
  waiting : List Message
  deriving DecidableEq, Repr

/-- An error record (Table 20-6). cyclesDraw names the free value of CYCLES (R441). -/
structure ErrRec where
  ref : Word
  source : Byte
  kind : Byte
  code : Byte
  secure : Bool
  severity : Nat
  unit : Nat
  cmd : Option (Nat × Nat × Nat × Word)
  addr : Quad
  detail0 : Quad
  detail1 : Quad
  step : Quad
  cyclesDraw : Nat
  deriving DecidableEq, Repr

/-- Error reporting beside its registers: the last 4,096 records newest first, the sticky log oldest first, the
highest severity since the last start, and records whose mirror copy and interrupt are due (R458-R462, R480). -/
structure ErrAux where
  log : List ErrRec
  sticky : List ErrRec
  highest : Option Nat
  mirrorStopped : Bool
  toMirror : List ErrRec
  wrapped : Bool
  deriving DecidableEq, Repr

/-- A record that waits for its place in a completion ring (R50, R51): its slot and, of a SUSPENDED record, its DETAIL
words. -/
structure DueRecord where
  slot : Nat
  suspended : Option (Nat × Nat)
  deriving DecidableEq, Repr

/-- What a command that has ended wrote (R46): its order number, its opcode, its ring, its world, its stream task by the
order of the task's opening command, and the ranges. -/
structure PastWrite where
  order : Nat
  opcode : Nat
  ring : Nat
  world : World
  task : Option Nat
  ranges : List (Nat × Nat)
  deriving DecidableEq, Repr

/-- The order that software gives commands (R46): what ended commands wrote, and which of them come, by ring order with
FENCE_BEFORE, by a FENCE or by a counter, before all that a ring dispatches from now on, or before a counter's value. -/
structure OrderAux where
  past : List PastWrite
  rings : List (Nat × List Nat)
  counters : List (Nat × List Nat)
  deriving DecidableEq, Repr

/-- A range held under HOLD (R211): its slot and its stack range. -/
structure Hold where
  slot : Nat
  base : Nat
  len : Nat
  deriving DecidableEq, Repr

/-- The lane repair in force of a bundle half (R411-R414): its entry, and the spare that carries each wire it names. -/
structure LaneRepair where
  entry : Quad
  spares : List Nat
  deriving DecidableEq, Repr

/-- The test port (R420, R421): its instruction register, whether the last instruction was refused (the register then
captures 0b0101), whether TEST_OPEN is set, the dies that the die-select register leaves in the chain, and those whose TAP
holds an instruction of its own. -/
structure Jtag where
  ir : JtagIr
  refused : Bool
  isOpen : Bool
  dr : Option (Nat × Nat)
  selected : BitVec 52
  internal : List (Fin 52)
  deriving DecidableEq, Repr

/-- Power management beside its registers (R427-R447): an ARB set that waits for the next allocation, the power
state asked for, dies above T_THROTTLE, the clock step each tile is capped at, and by how many steps ageing has lowered
each compute die's highest clock. -/
structure PowerAux where
  pendingArb : Option Snapshot
  target : Option PkgState
  hot : List Nat
  caps : List (Nat × Nat)
  aged : List (Nat × Nat)
  deriving DecidableEq, Repr

/-- Everything but the queue and the fuses. A start in progress holds what it is to observe and whether its step 7 runs
(R450, R452). due holds records that wait for their completion rings, in the order they became ready (R50). fetchTurn is
the ring fetched last in each class of PRIO_MAX (R55). -/
structure Hw where
  pkg : PkgState
  bringStep : Nat
  starting : Option (BringUpObs × Bool)
  regs : List (Nat × Word)
  freeRegs : List (Nat × Nat)
  mem : Mem
  symErrs : List (Nat × List (Nat × Byte))
  poison : List Nat
  stackAux : List (Nat × StackAux)
  tilesAux : List (Nat × TileAux)
  caches : List (Nat × CacheAux)
  xlate : XlateAux
  rings : List (Nat × RingAux)
  slots : List (Nat × Cmd)
  due : List DueRecord
  order : OrderAux
  nextOrder : Nat
  train : TrainAux
  fabric : FabricAux
  ports : List (Nat × PortAux)
  colls : List Coll
  streams : List Stream
  ckpt : CkptAux
  nextFault : Word
  host : HostAux
  sec : SecAux
  pins : Pins
  supplies : Supplies
  chans : List (Nat × ChanAux)
  errs : ErrAux
  holds : List Hold
  tokens : List (Nat × (Nat × Bool))
  tokenWaits : List (Nat × Nat)
  lanes : List (Nat × LaneRepair)
  descriptors : List (List Word)
  jtag : Jtag
  power : PowerAux
  mgmtOut : List Byte
  draws : Nat
  fetchTurn : List (Nat × Nat)
  deriving DecidableEq, Repr

/-- A die's capability descriptor (Table 17-6): ZPROTO, MAX_RATE, FUNC_MAX, FUNC_MIN and OPSET. -/
structure DieCaps where
  zproto : Nat
  maxRate : Nat
  funcMax : Nat
  funcMin : Nat
  opset : Nat
  deriving DecidableEq, Repr

/-- The factory values in fuse that calibration adds to (R436, R444): of each compute die V_MIN in mV at 875 MHz and
above in steps of 25 MHz; of each die by its index of R444 the offset of its temperature sensor in quarters of a degree
and of its current-sense gain in 1/1,024; of each lane by port and lane its heater bias in steps of 0.5 %; V_MIN of the fixed-voltage rails in mV; and for the
estimate of R431 V_REF in mV, of each die the energy of each kind of event at V_REF in pJ and points of its leakage curve,
mW at a voltage and a temperature. A value that is not listed is 0. -/
structure FactoryCal where
  vMin : List (Nat × List Nat)
  temp : List (Nat × Int)
  gain : List (Nat × Int)
  heat : List ((Nat × Nat) × Int)
  vFixed : List (Rail × Nat)
  vRef : Nat
  energy : List (Nat × List Nat)
  leak : List (Nat × List ((Nat × Int) × Nat))
  deriving DecidableEq, Repr

/-- The fuses (R28-R30, R393-R395), which only SVN_ADVANCE ever changes: the place word of each die, in the order of
Table 17-7; both copies of the build record, that is the serial number, the place words and lane-repair entries per
die; vendor key hashes, revoked indexes, the SVN floor, the lifecycle, the capability descriptors of the dies (R418)
and the factory calibration (R444). -/
structure Fuses where
  dieWords : List Word
  serial : Quad
  serialCopy : Quad
  places : List Word
  placesCopy : List Word
  repairs : List (List Quad)
  repairsCopy : List (List Quad)
  vendorHash : List (List Byte)
  revoked : List Nat
  svnFloor : Nat
  lifecycle : Nat
  caps : List DieCaps
  factory : FactoryCal
  deriving DecidableEq, Repr

/-- The state: waiting commands, first in, first out; the fuses; the hardware. -/
structure State where
  pending : List Instr
  fuses : Fuses
  hw : Hw
  deriving DecidableEq, Repr

/-- Reasons a step ends in a fault. Nothing in this model raises one: every condition of the manual is a status, a
record, a latch or an ignored access. -/
inductive Fault where
  /-- Raised by no command; it stands so that the type is inhabited. Safe: it can only stop a run. -/
  | unused
  deriving DecidableEq, Repr

/-- Reasons a step is refused. -/
inductive Refusal where
  /-- A command that has no meaning yet, raised by exec's arm for it. Safe: it stops the run. -/
  | notModelled (mnemonic : String)
  deriving DecidableEq, Repr

/-- The place words of an A1 package in the order of Table 17-7, by the formula of R28: the fuses of the model.
DESIGN CHOICE (log 6): the manual leaves the serial number, the repair map and the keys to each part. -/
def placeWords : List Word :=
    [0x340010B2#32] ++
    [0x00001014#32, 0x100010FE#32, 0x101010B8#32, 0x1020109B#32, 0x103010C8#32] ++
    [0x20001043#32, 0x201010FB#32, 0x20201080#32, 0x203010D1#32, 0x204010D9#32, 0x2050103A#32, 0x20601050#32, 0x20701021#32] ++
    [0x4000105B#32, 0x4010102E#32, 0x402010AF#32, 0x40301090#32] ++
    [0x040010A8#32, 0x14001085#32, 0x14101055#32, 0x142010A2#32, 0x143010BA#32] ++
    [0x24001088#32, 0x241010A1#32, 0x242010D7#32, 0x24301011#32, 0x244010F6#32, 0x245010B1#32, 0x246010F1#32, 0x247010F6#32] ++
    [0x44001050#32, 0x441010C1#32, 0x44201026#32, 0x443010D8#32] ++
    [0x08001071#32, 0x180010BB#32, 0x181010EC#32, 0x182010E0#32, 0x183010CF#32] ++
    [0x280010D3#32, 0x28101094#32, 0x2820105A#32, 0x283010B8#32, 0x28401043#32, 0x28501026#32, 0x286010ED#32, 0x2870100B#32] ++
    [0x48001044#32, 0x48101021#32, 0x482010B4#32, 0x483010A2#32]

/-- The A1 descriptors (Table 17-6): compute dies and stacks implement features 0 to 63, other dies report 0. -/
def descriptors : List DieCaps :=
  placeWords.map fun w =>
    (DieCaps.mk 1 8 1 1 (if w.toNat / 2 ^ 28 = 1 ∨ w.toNat / 2 ^ 28 = 2 then 2 ^ 64 - 1 else 0))

def Fuses.reset : Fuses where
  dieWords := placeWords
  serial := 1
  serialCopy := 1
  places := placeWords
  placesCopy := placeWords
  repairs := List.replicate 52 []
  repairsCopy := List.replicate 52 []
  vendorHash := List.replicate 4 (List.replicate 32 0)
  revoked := []
  svnFloor := 0
  lifecycle := 1
  caps := descriptors
  factory := FactoryCal.mk [] [] [] [] [] 0 [] []

def Mem.reset : Mem := Mem.mk [] [] [] [] [] []

/-- The step key is R273's at the reset values of the seeds and of STEP_NUM (DEDUCED, log 2). -/
def TrainAux.reset : TrainAux :=
  TrainAux.mk [0xAE480DC9, 0x69B4E06F, 0x6673DE72, 0x6EB6B20B] none false 0

def OrderAux.reset : OrderAux := OrderAux.mk [] [] []

def CkptAux.reset : CkptAux := CkptAux.mk [] 0 [] none [] []

def FabricAux.reset : FabricAux := FabricAux.mk [] none true false []

/-- A port before its first link-up; its laser inputs are dark (R297, R488). -/
def PortAux.reset : PortAux where
  txSeq := 0
  rxSeq := 0
  acked := 0
  replay := []
  credits := [64, 2048, 1024, 1024]
  owed := [0, 0, 0, 0]
  queue := []
  lowTurn := false
  setups := []
  good := 0
  partnerUp := false
  linkEpoch := 0
  serialSeen := none
  larger := false
  encTx := []
  encRx := []
  laser0 := false
  laser1 := false
  light := false
  rejoins := false
  out := []
  requests := []
  nextTag := 0
  txCount := 0
  rxCount := 0
  fwdCount := 0
  fecCorr := 0
  fecUncorr := 0

/-- A ring as a commit leaves it (R34). -/
def RingAux.reset : RingAux := RingAux.mk 0 0 1 0 false false false

def StackAux.reset : StackAux := StackAux.mk [] [] [] [] [] 0 false 0 0 0 [] none

/-- A pawn whose buffers nothing has filled. -/
def PawnAux.reset : PawnAux := PawnAux.mk [] 0 []

/-- An empty cache (log 9). -/
def CacheAux.reset : CacheAux := CacheAux.mk [] [] 0 0 0 false

def ArrayAux.reset : ArrayAux := ArrayAux.mk [] [] [] [] false 0 0

def TileAux.reset : TileAux := TileAux.mk (List.replicate 4 .reset) [] none []

def ChanAux.reset : ChanAux := ChanAux.mk 0 0 0 [] 0 [] [] false []

def HostAux.reset : HostAux := HostAux.mk [] [] [] [] [] [] none 0 0 0 0 [] [] [] false false

def SecAux.reset : SecAux := SecAux.mk [] [] (List.replicate 16 0) 0 0 [] [] [] false false false

def Pins.reset : Pins := Pins.mk false false false false false true false false false

/-- Power-on: VAUX has just entered its window and no other supply has (R423, R424). REFCLK_SYS runs: DESIGN CHOICE
(log 36), the manual gives it no row that starts it. -/
def Supplies.reset : Supplies := Supplies.mk true false false 0 true false false false

def ErrAux.reset : ErrAux := ErrAux.mk [] [] none false [] false

def Jtag.reset : Jtag := Jtag.mk .idcode false false (some (32, 0x1792452F)) 0 []

def XCache.reset : XCache := XCache.mk [] 0 0

def XlateAux.reset : XlateAux := XlateAux.mk [] [] 0

def PowerAux.reset : PowerAux := PowerAux.mk none none [] [] []

/-- The hardware at a cold reset: VAUX present, package state AUX (Table 20-5 GSTATUS reset 1), every register at
its reset value, nothing in memory. -/
def Hw.reset : Hw where
  pkg := .aux
  bringStep := 0
  starting := none
  regs := []
  freeRegs := []
  mem := .reset
  symErrs := []
  poison := []
  stackAux := []
  tilesAux := []
  caches := []
  xlate := .reset
  rings := []
  slots := []
  due := []
  order := .reset
  nextOrder := 0
  train := .reset
  fabric := .reset
  ports := []
  colls := []
  streams := []
  ckpt := .reset
  nextFault := 1
  host := .reset
  sec := .reset
  pins := .reset
  supplies := .reset
  chans := []
  errs := .reset
  holds := []
  tokens := []
  tokenWaits := []
  lanes := []
  descriptors := []
  jtag := .reset
  power := .reset
  mgmtOut := []
  draws := 0
  fetchTurn := []

/-- The machine right after reset: no command waits. -/
def State.reset : State where
  pending := []
  fuses := .reset
  hw := .reset

end Sys2Proof.Machine
end

