-- ==== Sys2Proof/Machine/Regs.lean ====
section
/-! DEFINITION. The register space: the blocks of Table 20-1, each register's reset value and the bits an agent may
write or clear (Tables 2-1 to 20-5), and the stored value of a register. -/

namespace Sys2Proof.Machine

/-- The blocks of Table 20-1. -/
inductive Block where
  | ident
  | gstatus
  | build
  | ring (n : Nat)
  | ctr
  | stream
  | train
  | host
  | cxl
  | xlate
  | regime (r : Nat)
  | power
  | port (q : Nat)
  | fabric
  | map (m : Nat)
  | note
  | err
  | sec
  | tile (t : Nat)
  | stack (s : Nat)
  | board (b : Nat)
  | zl
  | unmapped
  deriving DecidableEq, Repr

/-- The base of a block. -/
def baseOf : Block → Nat
  | .ident => 0
  | .gstatus => 0x1000
  | .build => 0x2000
  | .ring n => 0x100000 + n * 0x1000
  | .ctr => 0x140000
  | .stream => 0x160000
  | .train => 0x170000
  | .host => 0x200000
  | .cxl => 0x204000
  | .xlate => 0x300000
  | .regime r => 0x301000 + r * 0x1000
  | .power => 0x400000
  | .port q => 0x500000 + q * 0x400
  | .fabric => 0x504000
  | .map m => 0x508000 + m * 0x1000
  | .note => 0x600000
  | .err => 0x700000
  | .sec => 0x800000
  | .tile t => 0x1000000 + t * 0x10000
  | .stack s => 0x2000000 + s * 0x20000
  | .board b => 0x2400000 + b * 0x40000
  | .zl => 0x2800000
  | .unmapped => 0x4000000

/-- The block an offset lies in (R468). -/
def blockOf (o : Nat) : Block :=
  if o < 0x1000 then .ident
  else if o < 0x2000 then .gstatus
  else if o < 0x10000 then .build
  else if o < 0x100000 then .unmapped
  else if o < 0x140000 then .ring ((o - 0x100000) / 0x1000)
  else if o < 0x142000 then .ctr
  else if o < 0x160000 then .unmapped
  else if o < 0x170000 then .stream
  else if o < 0x180000 then .train
  else if o < 0x200000 then .unmapped
  else if o < 0x204000 then .host
  else if o < 0x210000 then .cxl
  else if o < 0x300000 then .unmapped
  else if o < 0x301000 then .xlate
  else if o < 0x303000 then .regime ((o - 0x301000) / 0x1000)
  else if o < 0x400000 then .unmapped
  else if o < 0x410000 then .power
  else if o < 0x500000 then .unmapped
  else if o < 0x503000 then .port ((o - 0x500000) / 0x400)
  else if o < 0x504000 then .unmapped
  else if o < 0x508000 then .fabric
  else if o < 0x50C000 then .map ((o - 0x508000) / 0x1000)
  else if o < 0x600000 then .unmapped
  else if o < 0x610000 then .note
  else if o < 0x700000 then .unmapped
  else if o < 0x710000 then .err
  else if o < 0x800000 then .unmapped
  else if o < 0x810000 then .sec
  else if o < 0x1000000 then .unmapped
  else if o < 0x1C00000 then .tile ((o - 0x1000000) / 0x10000)
  else if o < 0x2000000 then .unmapped
  else if o < 0x2300000 then .stack ((o - 0x2000000) / 0x20000)
  else if o < 0x2400000 then .unmapped
  else if o < 0x24C0000 then .board ((o - 0x2400000) / 0x40000)
  else if o < 0x2800000 then .unmapped
  else if o < 0x2810000 then .zl
  else .unmapped

/-- The offset of a register of a block. -/
def regOf (b : Block) (rel : Nat) : Nat := baseOf b + rel

/-- What an agent's write does by the access code (Table 20-2): the bits it sets, the bits a 1 clears, the bits only
the secure world sets; and the reset value. -/
structure RegInfo where
  reset : Nat
  rw : Nat
  w1c : Nat
  secureOnly : Nat
  deriving DecidableEq, Repr

def ro (reset : Nat := 0) : RegInfo := RegInfo.mk reset 0 0 0
def rw (mask : Nat) (reset : Nat := 0) : RegInfo := RegInfo.mk reset mask 0 0
def w1c (mask : Nat) : RegInfo := RegInfo.mk 0 0 mask 0
def rwSec (mask sec : Nat) (reset : Nat := 0) : RegInfo := RegInfo.mk reset mask 0 sec

def allBits : Nat := 0xFFFFFFFF
def topBit : Nat := 0x80000000

/-- Ring page (Table 2-1). The staged WORLD bit of a linked set is written by the secure world only (R34), here and in
the blocks below. -/
def ringInfo (r : Nat) : RegInfo :=
  if r = 0x008 then w1c 0x3C0
  else if 0x020 ≤ r ∧ r < 0x038 then rw allBits
  else if r = 0x038 then rwSec 0xFB000000 topBit
  else ro

/-- Stream and lending (Table 9-9). -/
def streamInfo (r : Nat) : RegInfo :=
  if r < 0x100 then rw 3
  else if 0x1000 ≤ r ∧ r < 0x1020 then rwSec 0xC0FFFFFF 0x40000000
  else if r = 0x1084 then w1c topBit
  else ro

/-- Training (Table 11-7). -/
def trainInfo (r : Nat) : RegInfo :=
  if r = 0x000 then w1c 0x100
  else if r = 0x00C then rw 0xFF
  else if r = 0x100 then rwSec 0x80000001 topBit
  else if r = 0x104 then rw 0xFFFF 0x1800
  else if r = 0x108 then rw 0xFFFF 0x7D0
  else if 0x10C ≤ r ∧ r ≤ 0x118 then rw allBits
  else if r = 0x124 then ro 0x1800
  else if r = 0x128 then ro 0x7D0
  else if r = 0x144 then w1c topBit
  else ro

/-- Host interface (Table 15-5). An MSI-X entry is masked at reset: PRESUMED, PCI Express's (log 7). -/
def hostInfo (r : Nat) : RegInfo :=
  if r = 0x0100 then rw 0xFFF
  else if r = 0x0104 then rw 0x1F 0x10
  else if r = 0x010C then ro 0x10
  else if r = 0x0114 then w1c topBit
  else if 0x0200 ≤ r ∧ r < 0x0240 then
    (if r % 16 = 0 then rw 0xFFFFF001 else if r % 16 = 12 then ro else rw allBits)
  else if r = 0x0284 then w1c topBit
  else if 0x1000 ≤ r ∧ r < 0x1480 then
    (if r % 16 = 0 then rw 0xFFFFFFFC else if r % 16 = 12 then rw 1 1 else rw allBits)
  else ro

/-- Translation regime (Table 14-11). -/
def regimeInfo (r : Nat) : RegInfo :=
  if r = 0x00 ∨ r = 0x08 ∨ r = 0x14 ∨ r = 0x18 ∨ r = 0x1C then rw allBits
  else if r = 0x04 ∨ r = 0x0C then rw 0x3FF
  else if r = 0x10 then rw 0x1F01
  else if r = 0x44 then w1c 0x80000002
  else if r = 0x4C then rw allBits
  else ro

/-- Power (Table 18-9). -/
def powerInfo (r : Nat) : RegInfo :=
  if r = 0x0004 then rw 0x7
  else if r = 0x0018 then w1c topBit
  else if r = 0x0020 then w1c 0x9
  else if r = 0x0024 then w1c 0xA0000000
  else if r = 0x0100 then rw 0xFFF 0xC80
  else if r = 0x0104 then rwSec 0x80007F3F topBit 0x6939
  else if r = 0x0120 then ro 0xC80
  else if r = 0x0124 then ro 0x6939
  else if r = 0x0144 then w1c topBit
  else if 0x0200 ≤ r ∧ r < 0x0230 then rw 0xF
  else if 0x0240 ≤ r ∧ r < 0x0310 then rw 0xFF
  else if 0x0320 ≤ r ∧ r < 0x03F0 then rw 0x7F
  else if 0x0400 ≤ r ∧ r < 0x04C0 then rw allBits
  else ro

/-- Port (Table 12-14). -/
def portInfo (r : Nat) : RegInfo :=
  if r = 0x000 then w1c 0xA00 else if r = 0x004 then rw 5 5 else ro

/-- Fabric (Table 12-15). -/
def fabricInfo (r : Nat) : RegInfo :=
  if r = 0x000 then rw 0xFFFF
  else if r = 0x100 then rwSec 0x8000FFFF topBit 0x3E8
  else if r = 0x104 then ro 0x3E8
  else if r = 0x10C then w1c topBit
  else ro

/-- Route map (Table 12-16). -/
def mapInfo (r : Nat) : RegInfo :=
  if r = 0x000 then rwSec 0x80001FFF topBit
  else if 0x040 ≤ r ∧ r < 0x080 then rw 0xFF0F
  else if 0x100 ≤ r ∧ r < 0x300 then
    (if r % 0x40 = 0 then rw 0x1FFFF else if r % 0x40 = 4 then rw 0x7FFFF
      else if r % 0x40 < 0x20 then rw 0xFF07 else ro)
  else if r = 0xFF4 then w1c topBit
  else ro

/-- Notation (Table 13-5). -/
def noteInfo (r : Nat) : RegInfo :=
  if r = 0x000 then w1c 0x8
  else if r = 0x100 then rwSec 0xFF8FFFFF topBit 0x50000000
  else if r = 0x104 then rw 0x00FF0FFF 0x00140000
  else if r = 0x108 then rw 0xF800FFFF
  else if r = 0x10C then rw 0xFFFF
  else if r = 0x110 ∨ r = 0x114 then rw allBits
  else if r = 0x118 then rw 0x1FFF
  else if r = 0x140 then ro 0x50000000
  else if r = 0x144 then ro 0x00140000
  else if r = 0x184 then w1c topBit
  else ro

/-- Errors and reset (Table 19-8). -/
def errInfo (r : Nat) : RegInfo :=
  if r = 0x000 then w1c 0xC0000000
  else if r = 0x008 ∨ r = 0x084 ∨ r = 0x088 ∨ r = 0x08C ∨ r = 0x0CC then rw allBits
  else if r = 0x080 then rw 0x77 2
  else if r = 0x0A0 then ro 2
  else if r = 0x0C4 then w1c topBit
  else if r = 0x104 then rw 3
  else ro

/-- Security (Table 16-7), secure view. -/
def secInfo (r : Nat) : RegInfo :=
  if r = 0x0108 then ro 0x852
  else if r = 0x0204 ∨ r = 0x0584 ∨ r = 0x2004 then w1c topBit
  else if 0x0500 ≤ r ∧ r < 0x0518 then rw allBits
  else if r = 0x0518 then rw 0xFFFFFF
  else if r = 0x051C then rw 0x0FFF0700
  else if r = 0x0520 then rw 0xFFFF
  else if 0x1000 ≤ r ∧ r < 0x1800 then (if r % 8 = 0 then rw 0x801FFFFF else rw 0x1FFFFF)
  else ro

/-- TILE_ID (R89): board, tile, die position, file and rank (R17, R18). -/
def tileId (t : Nat) : Nat :=
  (t / 64) * 2 ^ 16 + t * 2 ^ 8 + (t % 64 / 16) * 2 ^ 6 + (t % 8) * 2 ^ 3 + 2 * (t % 64 / 16) + t % 16 / 8

/-- STACK_ID (R197). -/
def stackId (s : Nat) : Nat := (s / 8) * 2 ^ 12 + (s % 8) * 2 ^ 8 + s

/-- Tile block (Tables 3-10, 5-8, 9-12, 14-12). -/
def tileInfo (t r : Nat) : RegInfo :=
  if r = 0x0000 then ro (tileId t)
  else if r = 0x0004 then w1c 0x10
  else if r = 0x0010 then w1c 0x1F
  else if r = 0x1004 then w1c 0x3F
  else if r = 0x2004 then ro 0x80
  else ro

/-- Stack block (Tables 7-7, 8-6). -/
def stackInfo (s r : Nat) : RegInfo :=
  if r = 0x0000 then ro (stackId s)
  else if r = 0x0004 then w1c 0xF0
  else if r = 0x002C then rw 0xFF 0x18
  else if r = 0x0030 then rwSec 0xFFFF00FF 0xFFFF00FF
  else if r = 0x10000 then ro 0x80
  else if r = 0x10004 then ro 0x80
  else if r = 0x10008 then w1c 0x1B
  else ro

/-- Board block (Tables 7-8, 18-10). -/
def boardInfo (r : Nat) : RegInfo :=
  if r = 0x0000 then rw 3 1
  else if r = 0x0004 then ro 1
  else if r = 0x0104 then w1c topBit
  else if 0x0400 ≤ r ∧ r < 0x0580 then rw 0x17
  else ro

/-- Zinolu link control (Table 17-8). -/
def zlInfo (r : Nat) : RegInfo :=
  if r = 0x0004 then ro 8
  else if r = 0x000C then ro 1
  else if 0x0100 ≤ r ∧ r < 0x0430 ∧ r % 16 = 0 then w1c 0x80
  else if r = 0x0440 then rw 0x1FFF
  else ro

/-- Identity page (Table 20-4), the constants. -/
def identInfo (r : Nat) : RegInfo :=
  if r = 0x000 then ro 0x59543234
  else if r = 0x004 then ro 0x79240101
  else if r = 0x010 then ro 0x900
  else if r = 0x014 then ro 0xC0180C0C
  else ro

/-- The access codes and the reset value of an offset; an unmapped or RSVD offset reads 0 and ignores writes
(R470). -/
def regInfo (off : Nat) : RegInfo :=
  let b := blockOf off
  let r := off - baseOf b
  match b with
  | .ident => identInfo r
  | .ring _ => ringInfo r
  | .ctr => if r % 8 = 0 then rw allBits else RegInfo.mk 0 topBit 1 topBit
  | .stream => streamInfo r
  | .train => trainInfo r
  | .host => hostInfo r
  | .regime _ => regimeInfo r
  | .power => powerInfo r
  | .port _ => portInfo r
  | .fabric => fabricInfo r
  | .map _ => mapInfo r
  | .note => noteInfo r
  | .err => errInfo r
  | .sec => secInfo r
  | .tile t => tileInfo t r
  | .stack s => stackInfo s r
  | .board _ => boardInfo r
  | .zl => zlInfo r
  | .gstatus => ro
  | .build => ro
  | .cxl => ro
  | .xlate => ro
  | .unmapped => ro

/-- The reset value of a register. -/
def regReset (off : Nat) : Word := BitVec.ofNat 32 (regInfo off).reset

/-- The stored value of a register: a free value where it is marked so, else what the map holds. -/
def getReg (h : Hw) (off : Nat) : Word :=
  match smFind h.freeRegs off with
  | some d => Config.freeWord d
  | none => smGet (regReset off) h.regs off

/-- Stores a register's value. -/
def setReg (h : Hw) (off : Nat) (v : Word) : Hw :=
  { h with regs := smSet (regReset off) h.regs off v, freeRegs := smDel h.freeRegs off }

/-- Gives a register a free value (log 1): the manual does not fix it. -/
def freeReg (h : Hw) (off : Nat) : Hw :=
  { h with regs := smDel h.regs off, freeRegs := smPut h.freeRegs off h.draws, draws := h.draws + 1 }

/-- A field of a stored register. -/
def regFld (h : Hw) (off hi lo : Nat) : Nat := fld (getReg h off) hi lo

/-- Bit i of a stored register. -/
def regBit (h : Hw) (off i : Nat) : Bool := bit (getReg h off) i

/-- Stores a field of a register. -/
def setRegFld (h : Hw) (off hi lo v : Nat) : Hw := setReg h off (setFld (getReg h off) hi lo v)

/-- Stores a bit of a register. -/
def setRegBit (h : Hw) (off i : Nat) (b : Bool) : Hw := setReg h off (setBit (getReg h off) i b)

/-- Adds to a counter that saturates at its width of 32 bits. -/
def bumpSat (h : Hw) (off k : Nat) : Hw := setReg h off (satAdd (getReg h off) k)

/-- Adds to a counter that wraps. -/
def bumpWrap (h : Hw) (off k : Nat) : Hw := setReg h off (getReg h off + BitVec.ofNat 32 k)

/-- Returns a register to its reset value. -/
def clearReg (h : Hw) (off : Nat) : Hw := setReg h off (regReset off)

/-- Returns every stored register of the blocks a predicate names to reset values. -/
def resetRegs (h : Hw) (p : Nat → Bool) : Hw :=
  { h with regs := h.regs.filter (fun e => !p e.1), freeRegs := h.freeRegs.filter (fun e => !p e.1) }

/-- A 64-bit value held in two registers, low word first. -/
def getReg64 (h : Hw) (off : Nat) : Nat := (getReg h off).toNat + 2 ^ 32 * (getReg h (off + 4)).toNat

def setReg64 (h : Hw) (off v : Nat) : Hw :=
  setReg (setReg h off (BitVec.ofNat 32 v)) (off + 4) (BitVec.ofNat 32 (v / 2 ^ 32))

/-- Copies a run of registers, in words. -/
def copyRegs (h : Hw) (src dst words : Nat) : Hw :=
  (List.range words).foldl (fun h i => setReg h (dst + 4 * i) (getReg h (src + 4 * i))) h

/-- A fresh draw for a free value. -/
def draw (h : Hw) : Nat × Hw := (h.draws, { h with draws := h.draws + 1 })

end Sys2Proof.Machine
end

