-- ==== Sys2Proof/Machine/Memory.lean ====
section
/-! DEFINITION. Memory: the canonical byte stores, undefined contents, the device physical decode (R170-R172), the
region table (R389), the error correction of the stacks (R177-R186) and host memory (R378-R379). -/

namespace Sys2Proof.Machine

/-- The store of a space. -/
def Mem.cells (m : Mem) : Space → List Host.Cell
  | .hbm => m.hbm
  | .tile => m.tile
  | .host => m.host
  | .flash => m.flash

def Mem.setCells (m : Mem) (sp : Space) (c : List Host.Cell) : Mem :=
  match sp with
  | .hbm => { m with hbm := c }
  | .tile => { m with tile := c }
  | .host => { m with host := c }
  | .flash => { m with flash := c }

/-- What a byte that nothing has written reads as: HBM is zero-filled at every start (R391), tile stores are zeroed
by their reset (R90). DESIGN CHOICE (log 2): host memory and flash read 0. -/
def memDefault : Byte := 0

/-- The marks of undefined bytes of a space; those of other spaces may stand among them. -/
def Mem.marks (m : Mem) (sp : Space) : List FreeRange := if sp = .tile then m.tileFree else m.free

def Mem.setMarks (m : Mem) (sp : Space) (rs : List FreeRange) : Mem :=
  if sp = .tile then { m with tileFree := rs } else { m with free := rs }

/-- The draw that marks an address as undefined, if one does. -/
def freeDraw (m : Mem) (sp : Space) (a : Nat) : Option Nat :=
  ((m.marks sp).find? fun r => decide (r.space = sp) && decide (r.base ≤ a) && decide (a < r.base + r.len)).map
    FreeRange.draw

/-- One byte. -/
def Mem.read (m : Mem) (sp : Space) (a : Nat) : Byte :=
  match freeDraw m sp a with
  | some d => Config.freeByte d a
  | none => smGet memDefault (m.cells sp) a

/-- n bytes from an address. -/
def Mem.readN (m : Mem) (sp : Space) (a n : Nat) : List Byte := (List.range n).map fun i => m.read sp (a + i)

/-- A mark less an interval. -/
def FreeRange.cut (r : FreeRange) (sp : Space) (a n : Nat) : List FreeRange :=
  if r.space = sp ∧ a < r.base + r.len ∧ r.base < a + n then
    (if r.base < a then [{ r with len := a - r.base }] else []) ++
    (if a + n < r.base + r.len then [{ r with base := a + n, len := r.base + r.len - (a + n) }] else [])
  else [r]

/-- Takes the marks off an interval. -/
def Mem.unfree (m : Mem) (sp : Space) (a n : Nat) : Mem :=
  m.setMarks sp ((m.marks sp).flatMap fun r => r.cut sp a n)

/-- Stores bytes in a list of cells. -/
def storeBytes (c : List Host.Cell) (a : Nat) : List Byte → List Host.Cell
  | [] => c
  | b :: bs => storeBytes (smSet memDefault c a b) (a + 1) bs

/-- Stores bytes from an address on; each byte stored is defined from then on. -/
def Mem.write (m : Mem) (sp : Space) (a : Nat) (bs : List Byte) : Mem :=
  let m := if bs.isEmpty then m else m.unfree sp a bs.length
  m.setCells sp (storeBytes (m.cells sp) a bs)

/-- Zeroes an interval of any length. -/
def Mem.zero (m : Mem) (sp : Space) (a n : Nat) : Mem :=
  let m := m.unfree sp a n
  m.setCells sp ((m.cells sp).filter fun c => decide (c.1 < a) || decide (a + n ≤ c.1))

/-- Marks an interval undefined under a draw. -/
def Mem.makeFree (m : Mem) (sp : Space) (a n d : Nat) : Mem :=
  let m := m.zero sp a n
  m.setMarks sp (FreeRange.mk sp a n d :: m.marks sp)

/-- The canonical form of memory. -/
def Mem.wf (m : Mem) : Bool :=
  smWf (fun _ => memDefault) m.hbm && smWf (fun _ => memDefault) m.tile &&
  smWf (fun _ => memDefault) m.host && smWf (fun _ => memDefault) m.flash

/-- Where a device physical address lies (R170, R176, R193). -/
inductive PaLoc where
  | hbm (s y : Nat)
  | tile (t off : Nat)
  | cacheArray (b off : Nat)
  | unbacked
  deriving DecidableEq, Repr

def GiB : Nat := 2 ^ 30

/-- The end of HBM: 2,304 GiB (R170). -/
def hbmEnd : Nat := 2304 * GiB

/-- The live memory-map entry of octet n (Table 7-8). -/
def octetEntry (h : Hw) (n : Nat) : Word := getReg h (regOf (.board (n % 3)) (0x800 + 4 * (n / 3)))

def octetMode (h : Hw) (n : Nat) : Nat := fld (octetEntry h n) 1 0
def octetPawn (h : Hw) (n : Nat) : Bool := bit (octetEntry h n) 2

/-- Table 7-2. -/
def boardLocal (pa : Nat) : PaLoc :=
  let n := pa / 2 ^ 33
  let x := pa % 2 ^ 33
  .hbm (8 * (n % 3) + x / 2 ^ 10 % 8) (n / 3 * GiB + x / 2 ^ 13 * 2 ^ 10 + x % 2 ^ 10)

/-- Table 7-3. -/
def stackLocal (pa : Nat) : PaLoc :=
  let n := pa / 2 ^ 33
  let x := pa % 2 ^ 33
  .hbm (8 * (n % 3) + x / GiB) (n / 3 * GiB + x % GiB)

/-- The PACKAGE_WIDE decode (R172). -/
def packageWide (pa : Nat) : PaLoc :=
  let o := pa / 2 ^ 33 / 3
  let z := pa - o * (24 * GiB)
  let u := z / 1024
  .hbm (u % 24) (o * GiB + u / 24 * 1024 + z % 1024)

/-- The decode of a device physical address under the live memory map. -/
def decodePa (h : Hw) (pa : Nat) : PaLoc :=
  if pa < hbmEnd then
    match octetMode h (pa / 2 ^ 33) with
    | 0 => boardLocal pa
    | 1 => packageWide pa
    | _ => stackLocal pa
  else if 0xF00000000000 ≤ pa ∧ pa < 0xF00000000000 + 192 * 0x800000 then
    .tile ((pa - 0xF00000000000) / 0x800000) ((pa - 0xF00000000000) % 0x800000)
  else if 0xF10000000000 ≤ pa ∧ pa < 0xF10000000000 + 3 * 0x4000000 then
    .cacheArray ((pa - 0xF10000000000) / 0x4000000) ((pa - 0xF10000000000) % 0x4000000)
  else .unbacked

/-- The key of a stack offset in the HBM store. -/
def hbmKey (s y : Nat) : Nat := s * 2 ^ 37 + y

def tileKey (t off : Nat) : Nat := t * 2 ^ 23 + off

/-- Where GiB g of device physical address space lies in the stacks: keys of the HBM store with lengths. -/
def gibKeys (h : Hw) (g : Nat) : List (Nat × Nat) :=
  match octetMode h (g / 8) with
  | 0 => (List.range 8).map fun i => (hbmKey (8 * (g / 8 % 3) + i) (g / 8 / 3 * GiB + g % 8 * 2 ^ 27), 2 ^ 27)
  | 1 =>
    let u := g % 24 * 2 ^ 20
    (List.range 24).map fun s =>
      let j := (u + 23 - s) / 24
      (hbmKey s (g / 24 * GiB + j * 1024), ((u + 2 ^ 20 + 23 - s) / 24 - j) * 1024)
  | _ => [(hbmKey (8 * (g / 8 % 3) + g % 8) (g / 8 / 3 * GiB), GiB)]

/-- The contents of the enabled lend windows (Table 9-9). -/
def lentKeys (h : Hw) : List (Nat × Nat) :=
  (List.range 8).flatMap fun w =>
    let r := getReg h (0x161040 + 4 * w)
    if bit r 31 then
      (List.range (fld r 23 12)).flatMap fun i =>
        let g := fld r 11 0 + i
        if g < 2304 then gibKeys h g else []
    else []

/-- Ranges of the HBM store are undefined from now on. -/
def freeKeys (ks : List (Nat × Nat)) (h : Hw) : Hw :=
  ks.foldl (fun h k => { h with mem := h.mem.makeFree .hbm k.1 k.2 h.draws, draws := h.draws + 1 }) h

/-- A row of a stack as a number: ROW, PC and bank (Table 7-1). -/
def rowKeyOf (pc bank row : Nat) : Nat := row * 2 ^ 11 + pc * 2 ^ 6 + bank

def yRow (y : Nat) : Nat := y / 2 ^ 21
def yPc (y : Nat) : Nat := y / 2 ^ 10 % 32
def yBank (y : Nat) : Nat := y / 2 ^ 15 % 64
def rowKey (y : Nat) : Nat := rowKeyOf (yPc y) (yBank y) (yRow y)

/-- Whether a live entry of the region table, the register at off, is valid and covers an address. -/
def regionHit (h : Hw) (off : Nat) (b : Word) (pa : Nat) : Bool :=
  let z := getReg h (off + 4)
  bit b 31 && decide (fld b 20 0 * 2 ^ 21 ≤ pa) && decide (pa < (fld b 20 0 + fld z 20 0) * 2 ^ 21)

/-- Whether a device physical address lies in a secure region of the live table (R389): an entry that is not
listed reads 0 and is not valid. -/
def regionSecure (h : Hw) (pa : Nat) : Bool :=
  h.regs.any fun e =>
    decide (0x801800 ≤ e.1) && decide (e.1 < 0x802000) && decide (e.1 % 8 = 0) && regionHit h e.1 e.2 pa

/-! Stacks and error correction -/

def stackAux (h : Hw) (s : Nat) : StackAux := smGet StackAux.reset h.stackAux s

def setStackAux (h : Hw) (s : Nat) (a : StackAux) : Hw := { h with stackAux := smSet StackAux.reset h.stackAux s a }

/-- The number of a codeword: its key over 64. -/
def cwOf (s y : Nat) : Nat := hbmKey s y / 64

def cwErrs (h : Hw) (cw : Nat) : List (Nat × Byte) := smGet [] h.symErrs cw

def setCwErrs (h : Hw) (cw : Nat) (e : List (Nat × Byte)) : Hw := { h with symErrs := smSet [] h.symErrs cw e }

def isPoison (h : Hw) (cw : Nat) : Bool := h.poison.contains cw

def setPoison (h : Hw) (cw : Nat) (b : Bool) : Hw :=
  { h with poison := if b then (if h.poison.contains cw then h.poison else h.poison ++ [cw])
                     else h.poison.filter (· ≠ cw) }

/-- Logs a stack event in ERR_ADDR and ERR_INFO (Table 7-7). -/
def logStackEvent (h : Hw) (s y kind symbol : Nat) : Hw :=
  let h := setReg h (regOf (.stack s) 0x20) (BitVec.ofNat 32 y)
  let h := setReg h (regOf (.stack s) 0x24) (BitVec.ofNat 32 (y / 2 ^ 32))
  setReg h (regOf (.stack s) 0x28)
    (BitVec.ofNat 32 (kind * 2 ^ 28 + symbol * 2 ^ 21 + yPc y * 2 ^ 16 + yBank y * 2 ^ 10))

end Sys2Proof.Machine
end

