-- ==== Sys2Proof/Machine/Errors.lean ====
section
/-! DEFINITION. Interrupt messages (R374, R453, R461), error records with their routing (R458-R462, Table 19-5) and
changes of the package state (R449, R461). -/

namespace Sys2Proof.Machine

/-- Registers that many rules name. -/
def rErrLast : Nat := 0x700004
def rStepLo : Nat := 0x170004
def rTrainScale : Nat := 0x17000C
def rEpoch : Nat := 0x504008
def rHostLink : Nat := 0x200000

def worldBit : World → Bool
  | .nonSecure => false
  | .secure => true

/-- The vector control word of an MSI-X entry masks it when bit 0 is set. -/
def msixMasked (h : Hw) (v : Nat) : Bool := regBit h (regOf .host (0x1000 + 16 * v + 12)) 0

/-- The message of a vector, as its table entry holds it (R374). -/
def msixMessage (h : Hw) (v : Nat) : MsixMessage :=
  let e := regOf .host (0x1000 + 16 * v)
  { vector := v, addr := getReg64 h e, data := getReg h (e + 8) }

/-- Sends an MSI-X message: a masked vector sets its pending bit (R374); during bring-up all but vector 67 are held
(R453). -/
def sendMsix (h : Hw) (v : Nat) : Hw :=
  if msixMasked h v then setRegBit h (regOf .host (0x2000 + 4 * (v / 32))) (v % 32) true
  else if h.pkg = .bringup ∧ v ≠ 67 then
    { h with host := { h.host with msixHeld := h.host.msixHeld ++ [v] } }
  else { h with host := { h.host with msixSent := h.host.msixSent ++ [msixMessage h v] } }

/-- Enters a package state and sends vector 67 (R461). -/
def setPkg (h : Hw) (p : PkgState) : Hw :=
  if h.pkg = p then h else sendMsix { h with pkg := p } 67

/-- The number of a package state (Table 19-1). -/
def pkgCode : PkgState → Nat
  | .off => 0
  | .aux => 1
  | .bringup => 2
  | .ready => 3
  | .run => 4
  | .hold => 5
  | .quiet => 6
  | .alarm => 7
  | .resigned => 8

/-- What a caller says of an event that writes an error record. -/
structure ErrEvent where
  source : Nat
  kind : Nat
  code : Nat := 0
  secure : Bool := false
  severity : Nat
  unit : Nat := 0
  cmd : Option (Nat × Nat × Nat × Word) := none
  addr : Nat := 0
  detail0 : Quad := 0
  detail1 : Quad := 0
  deriving DecidableEq, Repr

def stepNum (h : Hw) : Nat := getReg64 h rStepLo

/-- The next ERR_REF: it skips 0 (R458). -/
def nextRef (w : Word) : Word := if w + 1 = 0 then 1 else w + 1

/-- Marks that follow from the severity (Table 19-5): CXL messages, the sticky log with MGMT_ALERT_N, FAULT_N. -/
def routeSeverity (h : Hw) (r : ErrRec) : Hw :=
  let ceAer := regBit h (regOf .err 0xA0) 4
  let h := if 3 ≤ r.severity ∨ (r.severity = 1 ∧ ceAer) then
      { h with host := { h.host with aerSent := h.host.aerSent ++ [r.severity] } } else h
  let h := if 3 ≤ r.severity then
      { h with errs := { h.errs with sticky := (h.errs.sticky ++ [r]).drop (h.errs.sticky.length + 1 - 16) },
               pins := { h.pins with mgmtAlertN := true } } else h
  if 4 ≤ r.severity then { h with pins := { h.pins with faultN := true } } else h

/-- Writes an error record (R458): it takes the next ERR_REF, enters the castle log, counts, and is routed by its
severity. Its mirror copy and vector 64 follow in flushErrs. Answers the ERR_REF. -/
def errRecord (h : Hw) (e : ErrEvent) : Word × Hw :=
  let ref := nextRef (getReg h rErrLast)
  let r : ErrRec :=
    { ref := ref, source := BitVec.ofNat 8 e.source, kind := BitVec.ofNat 8 e.kind, code := BitVec.ofNat 8 e.code,
      secure := e.secure, severity := e.severity, unit := e.unit, cmd := e.cmd, addr := BitVec.ofNat 64 e.addr,
      detail0 := e.detail0, detail1 := e.detail1, step := BitVec.ofNat 64 (stepNum h), cyclesDraw := h.draws }
  let h := { h with draws := h.draws + 1 }
  let h := setReg h rErrLast ref
  let h := bumpSat h (regOf .err (0x50 + 4 * e.severity)) 1
  let h := { h with errs := { h.errs with
      log := (r :: h.errs.log).take 4096,
      highest := some (max e.severity (h.errs.highest.getD 0)),
      wrapped := h.errs.wrapped || (decide (ref = 1) && h.errs.highest.isSome),
      toMirror := h.errs.toMirror ++ [r] } }
  (ref, routeSeverity h r)

/-- As errRecord, where the ERR_REF is not needed. -/
def logErr (h : Hw) (e : ErrEvent) : Hw := (errRecord h e).2

/-- The 64 bytes of a record (Table 20-6); a reader that may not see a secure record gets its
address and details as 0 (R458, R460). -/
def errBytes (r : ErrRec) (hide : Bool) : List Byte :=
  let open_ := fun (q : Quad) => if hide && r.secure then 0 else q.toNat
  leBytes 4 r.ref.toNat ++
  leBytes 4 (r.source.toNat * 2 ^ 24 + r.kind.toNat * 2 ^ 16 + r.code.toNat * 2 ^ 8 + r.secure.toNat * 8 + r.severity) ++
  leBytes 4 r.unit ++
  (match r.cmd with
   | none => leBytes 4 0 ++ leBytes 8 0
   | some (slot, opcode, ring, seq) =>
     leBytes 4 (slot * 2 ^ 16 + opcode * 2 ^ 8 + 128 + ring) ++ leBytes 8 seq.toNat) ++
  leBytes 8 (open_ r.addr) ++ leBytes 8 (open_ r.detail0) ++ leBytes 8 (open_ r.detail1) ++
  leBytes 8 r.step.toNat ++ leBytes 8 (Config.cycles r.cyclesDraw).toNat

/-! Error correction of the stacks -/

/-- Counts a corrected error against its row (R184): a full tracker displaces the entry of lowest count, the oldest
first, and logs TRACK_OVF. -/
def trackRow (h : Hw) (s y : Nat) : Hw :=
  let a := stackAux h s
  let k := rowKey y
  if a.tracker.any (fun e => e.1 = k) then
    setStackAux h s { a with tracker := a.tracker.map fun e => if e.1 = k then (k, e.2 + 1) else e }
  else if a.tracker.length < 4096 then setStackAux h s { a with tracker := a.tracker ++ [(k, 1)] }
  else
    let low := a.tracker.foldl (fun m e => min m e.2) (2 ^ 32)
    let keep := a.tracker.takeWhile (fun e => e.2 ≠ low)
    let rest := (a.tracker.dropWhile (fun e => e.2 ≠ low)).drop 1
    let h := setStackAux h s { a with tracker := keep ++ rest ++ [(k, 1)] }
    let h := setRegBit h (regOf (.stack s) 4) 7 true
    logErr h { source := 3, kind := 1, severity := 1, unit := s, addr := y }

/-- A codeword meets one erroneous symbol on a read (R179). -/
def correctCw (h : Hw) (s y symbol : Nat) : Hw :=
  let h := bumpSat h (regOf (.stack s) 0x10) 1
  let h := setRegBit h (regOf (.stack s) 4) 4 true
  let h := logStackEvent h s (y / 64 * 64) 1 symbol
  let h := trackRow h s y
  let a := stackAux h s
  setStackAux h s { a with writeBacks := a.writeBacks.filter (· ≠ cwOf s y) ++ [cwOf s y] }

/-- A codeword takes the poison pattern, and its row enters the pending list (R186). -/
def takePoison (h : Hw) (s y : Nat) : Hw :=
  let h := setCwErrs (setPoison h (cwOf s y) true) (cwOf s y) []
  let a := stackAux h s
  if a.pendingRows.contains (rowKey y) then h else
    let h := setStackAux h s { a with pendingRows := a.pendingRows ++ [rowKey y] }
    setReg h (regOf (.stack s) 0x1C) (BitVec.ofNat 32 (a.pendingRows.length + 1))

/-- A codeword meets two erroneous symbols on a read and is poisoned (R180, R186). -/
def poisonCw (h : Hw) (s y symbol : Nat) : Hw :=
  let h := takePoison h s y
  let h := bumpSat h (regOf (.stack s) 0x14) 1
  let h := setRegBit h (regOf (.stack s) 4) 5 true
  let h := logStackEvent h s (y / 64 * 64) 2 symbol
  logErr h { source := 3, kind := 2, severity := 3, unit := s, addr := y / 64 * 64 }

/-- The check of one codeword on a read (R178-R180): answers whether it reads as poisoned. -/
def checkCw (h : Hw) (s y : Nat) : Bool × Hw :=
  let cw := cwOf s y
  if isPoison h cw then (true, h)
  else match cwErrs h cw with
    | [] => (false, h)
    | [e] => (false, correctCw h s y e.1)
    | e :: _ => (true, poisonCw h s y e.1)

/-- Reads bytes of one codeword. -/
def readCw (h : Hw) (s y n : Nat) : List Byte × Bool × Hw :=
  let r := checkCw h s y
  (r.2.mem.readN .hbm (hbmKey s y) n, r.1, r.2)

/-- The injection armed in ECC_INJECT (R182) meets a codeword being stored: the erroneous symbols. -/
def injectErrs (h : Hw) (s : Nat) : List (Nat × Byte) × Hw :=
  let r := getReg h (regOf (.stack s) 0x30)
  if bit r 31 then
    let pat : Byte := BitVec.ofNat 8 (fld r 7 0)
    let s0 := fld r 22 16
    let s1 := fld r 29 23
    let errs := if pat = 0 then [] else
      if bit r 30 then (if s0 = s1 then [] else if s0 < s1 then [(s0, pat), (s1, pat)] else [(s1, pat), (s0, pat)])
      else [(s0, pat)]
    (errs.filter (fun e => e.1 < 68), setRegBit h (regOf (.stack s) 0x30) 31 false)
  else ([], h)

/-- Stores bytes in one codeword (R178, R180): all 64 bytes replace a poisoned one; a partial write is a
read-modify-write, and to a poisoned codeword it is dropped and logged. -/
def writeCw (h : Hw) (s y : Nat) (bs : List Byte) : Hw :=
  let cw := cwOf s y
  let full := decide (bs.length = 64)
  let chk := if full then (false, h) else checkCw h s y
  let h := chk.2
  if chk.1 then
    let h := logStackEvent h s (y / 64 * 64) 5 0x7F
    logErr h { source := 3, kind := 5, severity := 3, unit := s, addr := y / 64 * 64 }
  else
    let h := setPoison h cw false
    let inj := injectErrs h s
    let h := setCwErrs inj.2 cw inj.1
    let a := stackAux h s
    let h := setStackAux h s { a with writeBacks := a.writeBacks.filter (· ≠ cw) }
    { h with mem := h.mem.write .hbm (hbmKey s y) bs }

/-- Cuts n bytes from an address at every multiple of k: addresses and lengths. -/
def pieces (k a n : Nat) : List (Nat × Nat) :=
  go (n / k + 2) a n
where
  go : Nat → Nat → Nat → List (Nat × Nat)
    | 0, _, _ => []
    | f + 1, a, n =>
      if n = 0 then [] else
        let m := min n (k - a % k)
        (a, m) :: go f (a + m) (n - m)

end Sys2Proof.Machine
end

