-- ==== Sys2Proof/Machine/Cache.lean ====
section
/-! DEFINITION. The board caches (R190-R193, R198) and the accesses that pass through them to the stacks (R178-R180,
R197). -/

namespace Sys2Proof.Machine

def cacheAux (h : Hw) (b : Nat) : CacheAux := smGet CacheAux.reset h.caches b

def setCacheAux (h : Hw) (b : Nat) (a : CacheAux) : Hw := { h with caches := smSet CacheAux.reset h.caches b a }

/-- BC_CTRL (Table 7-8). -/
def cacheEnabled (h : Hw) (b : Nat) : Bool := regBit h (regOf (.board b) 0) 0
def cacheNoRemote (h : Hw) (b : Nat) : Bool := regBit h (regOf (.board b) 0) 1

/-- NO_ALLOC of octet n. -/
def octetNoAlloc (h : Hw) (n : Nat) : Bool := bit (octetEntry h n) 4

/-- The set of a line. DESIGN CHOICE (log 9): the low bits of its number; the manual gives sets and ways but no
mapping. -/
def lineSet (line : Nat) : Nat := line % 65536

/-- The line that board b holds, if it holds it. -/
def heldLine (h : Hw) (b line : Nat) : Option CacheLine := (cacheAux h b).lines.find? fun x => x.line = line

/-- Lines leave caches, by board and line: the filters that track them forget them. -/
def dropLines (h : Hw) (p : Nat → Nat → Bool) : Hw :=
  { h with caches := (h.caches.map fun e => (e.1, { e.2 with
      lines := e.2.lines.filter fun x => !p e.1 x.line
      sharers := e.2.sharers.filter fun x => !p x.2 x.1 })).filter fun e => e.2 ≠ CacheAux.reset }

/-- One line leaves the cache of one board. -/
def dropLine (h : Hw) (b line : Nat) : Hw := dropLines h fun b' l => b' = b && l = line

/-- The way a line goes into, and the line it replaces: a way its set does not use, or else any; which one is free
(R190). -/
def wayFor (h : Hw) (b line : Nat) : Nat × Option Nat :=
  let a := cacheAux h b
  let set := a.lines.filter fun x => lineSet x.line = lineSet line
  let pick := Config.openValue 9 ((a.misses * 4 + b) * 2 ^ 40 + line)
  if a.lines.length < 16 ∨ set.length < 16 then
    let unused := (List.range 16).filter fun w => !set.any fun x => x.way = w
    (unused.getD (pick % unused.length) 0, none)
  else match set[pick % set.length]? with
    | some x => (x.way, some x.line)
    | none => (0, none)

/-- Board b takes a line. -/
def allocLine (h : Hw) (b line : Nat) : Hw :=
  let w := wayFor h b line
  let h := match w.2 with
    | some v => dropLine h b v
    | none => h
  let a := cacheAux h b
  setCacheAux h b { a with lines := a.lines ++ [CacheLine.mk line w.1 false] }

/-- Lines that a sharer filter covers (R191). -/
def sharerMax : Nat := 2097152

/-- Board b takes a remote copy of a line of board m, whose filter tracks it: beyond its capacity the oldest tracked
copy goes first (R191). -/
def fillRemote (h : Hw) (b m line : Nat) : Hw :=
  let x := cacheAux h m
  let h := match x.sharers with
    | o :: _ => if sharerMax ≤ x.sharers.length then dropLine h o.2 o.1 else h
    | [] => h
  let h := allocLine h b line
  let a := cacheAux h b
  let h := setCacheAux h b { a with fills := a.fills + 1 }
  let x := cacheAux h m
  setCacheAux h m { x with sharers := x.sharers ++ [(line, b)] }

/-- A read looks a line up: a line whose parity is wrong is dropped and counted (R192), and missed. -/
def lookLine (h : Hw) (b line : Nat) : Bool × Hw :=
  let miss := fun (h : Hw) => let a := cacheAux h b; setCacheAux h b { a with misses := a.misses + 1 }
  match heldLine h b line with
  | none => (false, miss h)
  | some x =>
    if x.bad then (false, miss (bumpSat (dropLine h b line) (regOf (.board b) 0x1C) 1))
    else
      let a := cacheAux h b
      (true, setCacheAux h b { a with hits := a.hits + 1 })

/-- Bytes read and written at a stack (R197). -/
def countStack (h : Hw) (s r w : Nat) : Hw :=
  let a := stackAux h s
  setStackAux h s { a with rdBytes := a.rdBytes + r, wrBytes := a.wrBytes + w }

/-- A read of n bytes of a codeword from its stack, which moves k of it. -/
def stackRead (h : Hw) (s y n k : Nat) : List Byte × Bool × Hw :=
  let r := readCw h s y n
  (r.1, r.2.1, countStack r.2.2 s k 0)

/-- A read within a line at a device physical address that is stack offset y of stack s (R190): through the cache of
the home board, and, where a tile or DMA engine of another board reads, through that board's. What a cache holds reads
no stack. A line that is read whole for a cache counts 64 bytes. The requester's board is given where it may hold
copies. -/
def lineRead (h : Hw) (far : Option Nat) (pa s y n : Nat) : List Byte × Bool × Hw :=
  let line := pa / 64
  let m := s / 8
  let far := far.filter (· ≠ m)
  if octetPawn h (pa / 2 ^ 33) then stackRead h s y n n
  else
    let near := match far with
      | some b => lookLine h b line
      | none => (false, h)
    if near.1 then (near.2.mem.readN .hbm (hbmKey s y) n, false, near.2)
    else
      let home := lookLine near.2 m line
      let may := !octetNoAlloc h (pa / 2 ^ 33)
      let atHome := may && !home.1 && cacheEnabled h m
      let copy := far.filter fun b => may && cacheEnabled h b && !cacheNoRemote h b
      let r := if home.1 then (home.2.mem.readN .hbm (hbmKey s y) n, false, home.2)
        else stackRead home.2 s y n (if atHome || copy.isSome then 64 else n)
      if r.2.1 then r
      else
        let h := if atHome then allocLine r.2.2 m line else r.2.2
        (r.1, false, match copy with
          | some b => fillRemote h b m line
          | none => h)

/-- A write within a line (R191): it goes through to the stack; a home line takes it too, also where the stack drops it
(R180), and every remote copy goes. -/
def lineWrite (h : Hw) (pa s y : Nat) (bs : List Byte) : Hw :=
  let line := pa / 64
  let m := s / 8
  let h := countStack (writeCw h s y bs) s 0 bs.length
  let h := if bs.length < 64 ∧ isPoison h (cwOf s y) ∧ (heldLine h m line).isSome then
      { h with mem := h.mem.write .hbm (hbmKey s y) bs } else h
  if (cacheAux h m).sharers.any fun x => x.1 = line then dropLines h fun b l => b ≠ m && l = line else h

/-- A byte of the data arrays (R193): of the line in that set and way, at its bytes in memory; with none there the byte
is free. -/
def cacheByte (h : Hw) (b off : Nat) : Byte :=
  let hit := (cacheAux h b).lines.find? fun x => lineSet x.line = off / 1024 && x.way = off / 64 % 16
  match hit.map fun x => decodePa h (x.line * 64) with
  | some (.hbm s y) => h.mem.read .hbm (hbmKey s y + off % 64)
  | _ => Config.boardCacheByte h.draws (b * 0x4000000 + off)

end Sys2Proof.Machine
end

