-- ==== Sys2Proof/Machine/Ops.lean ====
section
/-! DEFINITION. The named operations over memory: physical accesses (R176, R178-R180, R390), host accesses through
the CXL.cache agent (R378, R379), translation (R350-R354, R499) and the accesses of a command through it. -/

namespace Sys2Proof.Machine

/-- The kind of an access. -/
inductive Acc where
  | rd
  | wr
  | rmw
  deriving DecidableEq, Repr

/-- How a command's work ends early. -/
inductive Fail where
  /-- It completes with a failing status and its DETAIL words. -/
  | stop (status : Nat) (detail0 detail1 : Nat)
  /-- A translation fault at an address (R354): the access, and whether the walk met a not-present entry. -/
  | xlate (va : Nat) (acc : Acc) (notPresent : Bool)
  /-- It consumed poisoned data at an address (R180). -/
  | poison (va : Nat)
  /-- The translation of an address read a poisoned codeword (R499). -/
  | walkPoison (va : Nat)
  /-- A non-secure request to a secure address (R390). -/
  | world (va : Nat)
  /-- It waits in place for something another command provides; nothing it did so far counts. -/
  | wait
  deriving DecidableEq, Repr

/-- Work on the hardware that may end early; what was done before stays. -/
abbrev Run (α : Type) := ExceptT Fail (StateM Hw) α

/-- Runs work. -/
def runOn (m : Run α) (h : Hw) : Except Fail α × Hw := (m.run).run h

def modifyHw (f : Hw → Hw) : Run Unit := modify f

/-! Header fields (Table 2-2) -/

def pk (p : List Byte) (off n : Nat) : Nat := leAt p off n
def pkBits (p : List Byte) (off hi lo : Nat) : Nat := pk p off 4 / 2 ^ lo % 2 ^ (hi + 1 - lo)
def pkBit (p : List Byte) (off i : Nat) : Bool := pkBits p off i i = 1

def hOpcode (p : List Byte) : Nat := pk p 0 1
def hLap (p : List Byte) : Nat := pk p 1 1
def hLen (p : List Byte) : Nat := pkBits p 0 18 16
def hPrio (p : List Byte) : Nat := pkBits p 0 21 20
def hTarget (p : List Byte) : Nat := pkBits p 0 29 24
def hFenceBefore (p : List Byte) : Bool := pkBit p 4 0
def hFenceHost (p : List Byte) : Bool := pkBit p 4 1
def hFenceGlobal (p : List Byte) : Bool := pkBit p 4 2
def hIrq (p : List Byte) : Bool := pkBit p 4 3
def hWait (p : List Byte) (i : Nat) : Bool := pkBit p 4 (4 + i)
def hSignal (p : List Byte) : Bool := pkBit p 4 6
def hOpflags (p : List Byte) : Nat := pk p 6 2
def hSeq (p : List Byte) : Nat := pk p 8 4
def hTask (p : List Byte) : Nat := pk p 0xC 2
def hWaitCtr (p : List Byte) (i : Nat) : Nat := pkBits p (0x10 + 8 * i) 9 0
def hWaitVal (p : List Byte) (i : Nat) : Word := BitVec.ofNat 32 (pk p (0x14 + 8 * i) 4)
def hSigMode (p : List Byte) : Bool := pkBit p 0x20 16
def hSigCtr (p : List Byte) : Nat := pkBits p 0x20 9 0
def hSigVal (p : List Byte) : Word := BitVec.ofNat 32 (pk p 0x24 4)

/-- A field of the parameter units: offsets count from the start of unit 1. -/
def par (p : List Byte) (off n : Nat) : Nat := pk p (0x40 + off) n
def parBits (p : List Byte) (off hi lo : Nat) : Nat := pkBits p (0x40 + off) hi lo
def parBit (p : List Byte) (off i : Nat) : Bool := pkBit p (0x40 + off) i

def Cmd.opcode (c : Cmd) : Nat := hOpcode c.packet
def Cmd.cls (c : Cmd) : Nat := hOpcode c.packet / 16

/-- The output ranges and the work buffer of a command, which the opcodes of classes 1 to 7 have (Table 2-3). What a
command of another class stores stands in outRanges too, for R46, and what KV_APPEND and KV_PAGE have changed, which no
failure spoils (R165). -/
def Cmd.outputs (c : Cmd) : List (Nat × Nat) :=
  if 1 ≤ c.cls ∧ c.cls ≤ 7 ∧ c.opcode ≠ 0x42 ∧ c.opcode ≠ 0x43 then c.outRanges else []
def Cmd.workBuffer (c : Cmd) : List (Nat × Nat) := if 1 ≤ c.cls ∧ c.cls ≤ 7 then c.buffer else []
def Cmd.overlaps (c : Cmd) : List (Nat × Nat) := if 1 ≤ c.cls ∧ c.cls ≤ 7 then c.undef else []

/-- The error-record fields of a command (Table 20-6). -/
def cmdField (slot : Nat) (c : Cmd) : Option (Nat × Nat × Nat × Word) :=
  some (slot, c.opcode, c.ring.val, BitVec.ofNat 32 (hSeq c.packet))

/-- The slot table. -/
def cmdAt (h : Hw) (slot : Nat) : Option Cmd := smFind h.slots slot

def setCmd (h : Hw) (slot : Nat) (c : Cmd) : Hw := { h with slots := smPut h.slots slot c }

def dropCmd (h : Hw) (slot : Nat) : Hw := { h with slots := smDel h.slots slot }

def modCmd (h : Hw) (slot : Nat) (f : Cmd → Cmd) : Hw :=
  match cmdAt h slot with
  | none => h
  | some c => setCmd h slot (f c)

/-- Who accesses memory: a command in a slot (its world and board matter), or a unit of the package itself; and whether
it is a tile or a DMA engine, whose board's cache takes copies of other boards' lines (R190). va is the device virtual
address of a command's access, which its error records name. -/
structure Who where
  world : World
  slot : Option Nat
  board : Nat
  engine : Bool := false
  va : Nat := 0
  deriving DecidableEq, Repr

/-- What stands for no slot where a line names its last writer. -/
def noSlot : Nat := 16384

/-- The castle acting for a world on its own account. -/
def castle (w : World) : Who := { world := w, slot := none, board := 1 }

/-! Physical accesses -/

/-- Records that a command has accessed a stack (R189). -/
def touchStack (h : Hw) (who : Who) (s : Nat) : Hw :=
  match who.slot with
  | none => h
  | some sl => modCmd h sl fun c => if c.usedStacks.contains s then c else { c with usedStacks := c.usedStacks ++ [s] }

/-- Whether a stack range meets a range held under HOLD by another command (R211). -/
def heldByOther (h : Hw) (who : Who) (key n : Nat) : Bool :=
  h.holds.any fun r => decide (some r.slot ≠ who.slot) && decide (r.base < key + n) && decide (key < r.base + r.len)

/-- What a physical access answers; poison is the offset of the first poisoned piece from where the access began. -/
inductive PaAnswer where
  | bytes (bs : List Byte) (poison : Option Nat)
  | unbacked
  | refused
  | held
  deriving DecidableEq, Repr

/-- Logs an access to an unbacked address (R176) or a refused one (R390). Of a command's access the record has the
command and, as its completion record will, the device virtual address and the units written (R481). -/
def logBoard (h : Hw) (who : Who) (kind pa board : Nat) : Hw :=
  let e : ErrEvent :=
    { source := 4, kind := kind, severity := 2, unit := board, addr := pa, secure := worldBit who.world,
      code := if kind = 2 then 0x13 else 0 }
  logErr h (match who.slot, who.slot.bind (cmdAt h) with
    | some sl, some c => { e with
        cmd := cmdField sl c, detail0 := BitVec.ofNat 64 who.va, detail1 := BitVec.ofNat 64 c.written }
    | _, _ => e)

/-- An access waits for a held range: HOLD_WAITS counts it once (R211). -/
def noteHeld (h : Hw) (who : Who) (pa : Nat) : Hw :=
  let seen := match who.slot.bind (cmdAt h) with
    | some c => decide (c.heldAt = some pa)
    | none => false
  if seen then h
  else
    let h := match decodePa h pa with
      | .hbm s _ => bumpSat h (regOf (.stack s) 0x10014) 1
      | _ => h
    match who.slot with
    | some sl => modCmd h sl fun c => { c with heldAt := some pa }
    | none => h

/-- Reads at most 64 bytes that do not cross a multiple of 64, at a device physical address. -/
def readPaPiece (h : Hw) (who : Who) (pa n : Nat) : PaAnswer × Hw :=
  match decodePa h pa with
  | .hbm s y =>
    if who.world = .nonSecure ∧ regionSecure h pa then (.refused, logBoard h who 2 pa (s / 8))
    else if heldByOther h who (hbmKey s y) n then (.held, h)
    else
      let r := lineRead (touchStack h who s) (if who.engine then some who.board else none) pa s y n
      (.bytes r.1 (if r.2.1 then some 0 else none), r.2.2)
  | .tile t off => (.bytes (h.mem.readN .tile (tileKey t off) n) none, h)
  | .cacheArray b off =>
    if who.world = .nonSecure then (.bytes (List.replicate n 0) none, h)
    else (.bytes ((List.range n).map fun i => cacheByte h b (off + i)) none, { h with draws := h.draws + 1 })
  | .unbacked => (.unbacked, logBoard h who 1 pa who.board)

/-- Writes at most 64 bytes that do not cross a multiple of 64. The answer's bytes are empty. -/
def writePaPiece (h : Hw) (who : Who) (pa : Nat) (bs : List Byte) : PaAnswer × Hw :=
  match decodePa h pa with
  | .hbm s y =>
    if who.world = .nonSecure ∧ regionSecure h pa then (.refused, logBoard h who 2 pa (s / 8))
    else if heldByOther h who (hbmKey s y) bs.length then (.held, h)
    else (.bytes [] none, lineWrite (touchStack h who s) pa s y bs)
  | .tile t off => (.bytes [] none, { h with mem := h.mem.write .tile (tileKey t off) bs })
  | .cacheArray _ _ => (.bytes [] none, h)
  | .unbacked => (.unbacked, logBoard h who 1 pa who.board)

/-- Reads any number of bytes at consecutive device physical addresses; stops at the first piece that fails. -/
def readPa (h : Hw) (who : Who) (pa n : Nat) : PaAnswer × Hw :=
  go h [] none (pieces 64 pa n)
where
  go (h : Hw) (acc : List Byte) (poison : Option Nat) : List (Nat × Nat) → PaAnswer × Hw
    | [] => (.bytes acc poison, h)
    | p :: ps =>
      match readPaPiece h who p.1 p.2 with
      | (.bytes bs q, h) => go h (acc ++ bs) (poison.or (q.map (· + acc.length))) ps
      | r => r

/-- Writes bytes at consecutive device physical addresses. -/
def writePa (h : Hw) (who : Who) (pa : Nat) (bs : List Byte) : PaAnswer × Hw :=
  go h bs (pieces 64 pa bs.length)
where
  go (h : Hw) (bs : List Byte) : List (Nat × Nat) → PaAnswer × Hw
    | [] => (.bytes [] none, h)
    | p :: ps =>
      match writePaPiece h who p.1 (bs.take p.2) with
      | (.bytes _ _, h) => go h (bs.drop p.2) ps
      | r => r

/-- A little-endian read of the package itself at a device physical address: nothing where it fails. -/
def readPaNat (h : Hw) (who : Who) (pa n : Nat) : Option Nat × Hw :=
  match readPa h who pa n with
  | (.bytes bs none, h) => (some (leNat bs), h)
  | (_, h) => (none, h)

/-! Host memory -/

/-- HOST_LINK_STATUS.MODE (Table 15-5). -/
def hostMode (h : Hw) : Nat := regFld h rHostLink 1 0

/-- The valid live peer range that covers a host address (R379). -/
def peerOf (h : Hw) (a : Nat) : Option Nat :=
  (List.range 4).find? fun p =>
    let base := getReg64 h (regOf .host (0x240 + 16 * p))
    let size := (getReg h (regOf .host (0x248 + 16 * p))).toNat * 4096
    decide (base % 2 = 1) && decide (base - base % 4096 ≤ a) && decide (a < base - base % 4096 + size)

def agentLine (h : Hw) (line : Nat) : Option AgentLine :=
  (h.host.lines.find? (fun e => e.1 = line)).map Prod.snd

/-- AGENT_STATUS and the counter of bytes written back follow the agent's lines. -/
def countAgent (h : Hw) (written : Nat) : Hw :=
  let tot := h.host.agentWritten + written
  let h := { h with host := { h.host with agentWritten := tot } }
  setReg (setReg h (regOf .host 0x20) (BitVec.ofNat 32 (tot / 65536))) (regOf .host 8)
    (BitVec.ofNat 32 h.host.lines.length)

/-- Lines written whole carry the poison no more. DEDUCED (log 71): host data comes with it from outside. -/
def clearHostPoison (h : Hw) (a n : Nat) : Hw :=
  if h.host.poisoned = [] then h
  else { h with host := { h.host with
    poisoned := h.host.poisoned.filter fun l => !(decide (a ≤ l * 64) && decide (l * 64 + 64 ≤ a + n)) } }

/-- Writes a modified line back to host memory and drops it (R378). -/
def writeBackLine (h : Hw) (line : Nat) : Hw :=
  match agentLine h line with
  | none => h
  | some l =>
    let h := clearHostPoison h (line * 64) 64
    let h := { h with mem := h.mem.write .host (line * 64) l.bytes,
                      host := { h.host with lines := h.host.lines.filter (fun e => e.1 ≠ line) } }
    countAgent h 64

/-- Writes back every modified line that a predicate on its last writer takes. -/
def writeBackLines (h : Hw) (p : Nat → Bool) : Hw :=
  (h.host.lines.filter (fun e => p e.2.slot)).foldl (fun h e => writeBackLine h e.1) h

/-- Discards every modified line (R378). -/
def discardLines (h : Hw) : Hw := countAgent { h with host := { h.host with lines := [] } } 0

/-- A coherent read of host memory: lines held modified by the agent are current (R378). -/
def hostBytes (h : Hw) (a n : Nat) : List Byte :=
  (List.range n).map fun i =>
    match agentLine h ((a + i) / 64) with
    | some l => l.bytes.getD ((a + i) % 64) 0
    | none => h.mem.read .host (a + i)

/-- A set of the agent's 2 MiB, 16-way cache. DESIGN CHOICE (log 12): the low bits of the line's number, since the
manual gives no mapping. -/
def agentSet (line : Nat) : Nat := line % 2048

/-- A line of a set of 16 that a new line replaces goes back to host memory; which one the manual leaves open. -/
def makeAgentRoom (h : Hw) (line : Nat) : Hw :=
  let set := h.host.lines.filter fun e => agentSet e.1 = agentSet line && e.1 ≠ line
  if set.length < 16 then h
  else match set[Config.openValue 12 (h.host.agentWritten * 2 ^ 64 + line) % set.length]? with
    | some e => writeBackLine h e.1
    | none => h

/-- The agent takes a line modified, merging bytes into it. -/
def agentWriteLine (h : Hw) (slot a : Nat) (bs : List Byte) : Hw :=
  let line := a / 64
  let cur := hostBytes h (line * 64) 64
  let new := cur.take (a % 64) ++ bs ++ cur.drop (a % 64 + bs.length)
  let h := makeAgentRoom h line
  let rest := h.host.lines.filter (fun e => e.1 ≠ line)
  countAgent { h with host := { h.host with lines := rest ++ [(line, AgentLine.mk new slot)] } } 0

/-- The offset of the first of n bytes of host memory that carries CXL poison (R39, Table 14-7): a line that the agent
holds modified is its own. -/
def hostPoison (h : Hw) (a n : Nat) : Option Nat :=
  if h.host.poisoned = [] then none
  else (List.range n).find? fun i =>
    h.host.poisoned.contains ((a + i) / 64) && (agentLine h ((a + i) / 64)).isNone

/-- A posted CXL.io write into host memory, with the last host address written (R381). Coherence takes any line the
agent holds first. -/
def hostIoWrite (h : Hw) (a : Nat) (bs : List Byte) : Hw :=
  let h := (pieces 64 a bs.length).foldl (fun h p => writeBackLine h (p.1 / 64)) h
  let h := clearHostPoison h a bs.length
  { h with mem := h.mem.write .host a bs, host := { h.host with lastWrite := some a } }

/-- A host access needs a trained link: DEDUCED (log 13), one that finds none ends as R379 gives for a completion
that never arrives. -/
def hostUp (h : Hw) : Bool := hostMode h = 1 || hostMode h = 2

/-- AGENT_RD_BYTES counts bytes read through the agent (Table 15-5). -/
def countAgentRead (h : Hw) (n : Nat) : Hw :=
  let tot := h.host.agentRead + n
  setReg { h with host := { h.host with agentRead := tot } } (regOf .host 0x1C) (BitVec.ofNat 32 (tot / 65536))

/-- A read of bytes of one 4 KiB page by a package engine: a peer's own memory, or host memory, through the agent in
CXL mode (R371, R378, R379). -/
def hostReadPiece (h : Hw) (a n : Nat) : List Byte × Hw :=
  if (peerOf h a).isSome then (h.mem.readN .host a n, h)
  else (hostBytes h a n, if hostMode h = 1 then countAgentRead h n else h)

/-- A read of host physical memory by a package engine; each 4 KiB page takes its own path, since peer ranges are of
that grain. -/
def hostRead (h : Hw) (a n : Nat) : Option (List Byte) × Hw :=
  if hostUp h then
    let r := (pieces 4096 a n).foldl (fun r p =>
      let x := hostReadPiece r.2 p.1 p.2
      (r.1 ++ x.1, x.2)) ([], h)
    (some r.1, r.2)
  else (none, h)

/-- A write of bytes of one 4 KiB page by a command's engine (R371, R378, R379); the command notes the peer ranges it
writes. -/
def hostWritePiece (h : Hw) (slot a : Nat) (bs : List Byte) : Hw :=
  match peerOf h a with
  | some p =>
    let h := modCmd h slot fun c => { c with
      wroteHost := true, peers := if c.peers.contains p then c.peers else c.peers ++ [p] }
    { h with mem := h.mem.write .host a bs, host := { h.host with lastWrite := some a } }
  | none =>
    let h := modCmd h slot fun c => { c with wroteHost := true }
    if hostMode h = 1 then
      ((pieces 64 a bs.length).foldl
        (fun r p => (agentWriteLine r.1 slot p.1 (r.2.take p.2), r.2.drop p.2)) (h, bs)).1
    else hostIoWrite h a bs

/-- A write of host physical memory by a command's engine. -/
def hostWrite (h : Hw) (slot a : Nat) (bs : List Byte) : Option Hw :=
  if hostUp h then
    some ((pieces 4096 a bs.length).foldl
      (fun r p => (hostWritePiece r.1 slot p.1 (r.2.take p.2), r.2.drop p.2)) (h, bs)).1
  else none

/-! Translation -/

/-- What a walk answers (R354, R499). -/
inductive Walk where
  | ok (hostTarget : Bool) (pa : Nat)
  | notPresent (level : Nat)
  | permission
  | poisoned
  | held (pa : Nat)
  deriving DecidableEq, Repr

def regimeOf (w : World) : Nat := if w = .secure then 1 else 0
def worldOf (r : Nat) : World := if r = 1 then .secure else .nonSecure

/-- A live register of a regime (Table 14-11). -/
def xLive (r rel : Nat) : Nat := regOf (.regime r) (0x20 + rel)

def regimeEnabled (h : Hw) (r : Nat) : Bool := regBit h (xLive r 0x10) 0

/-- Whether a range lies wholly in HBM of a world: HBM that a valid region covers is the secure world's, all other
the non-secure world's (R389). Regions are made of granules of 2 MiB. -/
def hbmOfWorld (h : Hw) (w : World) (pa n : Nat) : Bool :=
  decide (pa + n ≤ hbmEnd) &&
    (List.range (ceilDiv (pa + n) (2 ^ 21) - pa / 2 ^ 21)).all fun i =>
      regionSecure h ((pa / 2 ^ 21 + i) * 2 ^ 21) = decide (w = .secure)

/-- Bits per level (Table 14-1): lowest VA bit indexed, entries. -/
def levelShift : Nat → Nat
  | 0 => 39
  | 1 => 30
  | 2 => 21
  | _ => 16

def levelEntries (l : Nat) : Nat := if l = 3 then 32 else 512

/-- The output address range of a leaf is one that R351 allows. -/
def leafTargetOk (r e size : Nat) : Bool :=
  let a := e / 2 ^ 8 % 2 ^ 44 * 2 ^ 8
  if e / 16 % 4 = 1 then true
  else if a + size ≤ hbmEnd then true
  else r = 1 && e / 8 % 2 = 0 &&
    ((decide (0xF00000000000 ≤ a) && decide (a + size ≤ 0xF00000000000 + 192 * 0x800000)) ||
     (decide (0xF10000000000 ≤ a) && decide (a + size ≤ 0xF10000000000 + 3 * 0x4000000)))

/-- Whether a valid entry keeps Table 14-2 as a leaf of a level. -/
def leafOk (r l e : Nat) : Bool :=
  e / 2 ^ 52 % 16 = 0 && e / 2 ^ 6 % 4 = 0 && decide (e / 16 % 4 < 2) && decide (0 < l) &&
  (e / 2 ^ 8 % 2 ^ 44 * 2 ^ 8) % 2 ^ levelShift l = 0 && leafTargetOk r e (2 ^ levelShift l)

/-- Whether a valid entry keeps Table 14-2 as a pointer to a table of the next level. -/
def pointerOk (h : Hw) (r l e : Nat) : Bool :=
  let a := e / 2 ^ 8 % 2 ^ 44 * 2 ^ 8
  let size := if l = 2 then 256 else 4096
  e / 2 ^ 52 % 16 = 0 && e / 4 % 64 = 0 && decide (l < 3) && a % size = 0 &&
  hbmOfWorld h (worldOf r) a size

/-- Whether a leaf allows an access (R354). -/
def leafAllows (e : Nat) : Acc → Bool
  | .rd => e / 4 % 2 = 1
  | .wr => e / 8 % 2 = 1
  | .rmw => e / 4 % 2 = 1 && e / 8 % 2 = 1

/-- What the path to an address holds: the level reached, the entry's physical address and its value, or a failure; or
the entry that lies in a range held by another command (R211). -/
inductive Path where
  | leaf (level : Nat) (entryPa entry : Nat)
  | absent (level : Nat) (entryPa : Nat)
  | broken
  | poisoned
  | held (entryPa : Nat)
  deriving DecidableEq, Repr

/-! Translation caches (R356) -/

/-- The cache of a tile, or of the castle. -/
def castleCache : Nat := 192
def xcache (h : Hw) (k : Nat) : XCache := smGet XCache.reset h.xlate.caches k
def setXcache (h : Hw) (k : Nat) (c : XCache) : Hw :=
  { h with xlate := { h.xlate with caches := smSet XCache.reset h.xlate.caches k c } }

/-- The cache that an access looks in: that of the tile which serves its command, or the castle's. -/
def xcacheOf (h : Hw) (who : Who) : Nat :=
  match who.slot.bind (cmdAt h) with
  | some c => (c.serving.map Prod.snd).getD castleCache
  | none => castleCache

/-- An entry of a full cache gives way to a new one; which one is open (R356; log 88). -/
def makeRoom (size key n : Nat) (es : List α) : List α :=
  if es.length < size then es else es.eraseIdx (Config.openValue 88 (n * 256 + key) % es.length)

/-- A leaf that a walk has read is installed (Table 14-3). -/
def installLeaf (h : Hw) (k r l va e : Nat) : Hw :=
  let c := xcache h k
  setXcache h k { c with
    entries := makeRoom (if k = castleCache then 512 else 256) k c.misses c.entries ++
      [LeafEntry.mk r l (va / 2 ^ levelShift l) e] }

/-- The pointers that the walker of board b holds. -/
def pointersOf (h : Hw) (b : Nat) : List PointerEntry := smGet [] h.xlate.pointers b

def installPointer (h : Hw) (b : Nat) (e : PointerEntry) : Hw :=
  { h with xlate := { h.xlate with
      pointers := smSet [] h.xlate.pointers b (makeRoom 1024 b h.xlate.walks (pointersOf h b) ++ [e]) } }

/-- Drops what the caches hold of a regime's range of n bytes (R366). -/
def dropXlate (h : Hw) (r va n : Nat) : Hw :=
  let hit := fun (r' l page : Nat) => r' = r && decide (page * 2 ^ levelShift l < va + n) &&
    decide (va < (page + 1) * 2 ^ levelShift l)
  { h with xlate := { h.xlate with
      caches := (h.xlate.caches.map fun e => (e.1, { e.2 with
        entries := e.2.entries.filter fun x => !hit x.regime x.level x.page })).filter fun e => e.2 ≠ XCache.reset
      pointers := (h.xlate.pointers.map fun e => (e.1, e.2.filter fun x => !hit x.regime x.level x.page)).filter
        fun e => e.2 ≠ [] } }

/-- Follows the tables from a table at a level (the fuel is the levels left); a walker given by its board keeps the
pointers it passes. DEDUCED (log 14): a level-0 table outside HBM of the regime's world is broken as a pointer to such
a table is (R353, R389). -/
def follow (h : Hw) (walker : Option Nat) (r va : Nat) : Nat → Nat → Nat → Path × Hw
  | 0, _, _ => (.broken, h)
  | f + 1, l, table =>
    let at_ := table + va / 2 ^ levelShift l % levelEntries l * 8
    let who := castle (worldOf r)
    if l = 0 ∧ !hbmOfWorld h (worldOf r) table 4096 then (.broken, h) else
    match readPa h who at_ 8 with
    | (.bytes bs none, h) =>
      let e := leNat bs
      if e % 2 = 0 then (.absent l at_, h)
      else if e / 2 % 2 = 1 ∨ l = 3 then
        (if e / 2 % 2 = 1 ∧ leafOk r l e then (.leaf l at_ e, h) else (.broken, h))
      else if pointerOk h r l e then
        let next := e / 2 ^ 8 % 2 ^ 44 * 2 ^ 8
        let h := match walker with
          | some b => installPointer h b (PointerEntry.mk r l (va / 2 ^ levelShift l) next)
          | none => h
        follow h walker r va f (l + 1) next
      else (.broken, h)
    | (.bytes _ (some _), h) => (.poisoned, h)
    | (.held, h) => (.held at_, h)
    | (_, h) => (.broken, h)

/-- The level-0 table of a regime. -/
def rootOf (h : Hw) (r : Nat) : Nat := getReg64 h (xLive r 0)

/-- The path to an address in a regime, read from the tables themselves (R358: "reads the leaf again"). -/
def pathTo (h : Hw) (r va : Nat) : Path × Hw := follow h none r va 4 0 (rootOf h r)

/-- Where the walker of a board starts: behind the lowest pointer it holds, or at the root. -/
def walkStart (h : Hw) (b r va : Nat) : Nat × Nat :=
  let held := fun l => (pointersOf h b).find? fun e => e.regime = r && e.level = l && e.page = va / 2 ^ levelShift l
  match held 2, held 1, held 0 with
  | some e, _, _ => (3, e.table)
  | none, some e, _ => (2, e.table)
  | none, none, some e => (1, e.table)
  | none, none, none => (0, rootOf h r)

/-- The leaf that translates an address for an agent (Table 14-3): from its cache, or from a walk, which installs it. -/
def leafFor (h : Hw) (who : Who) (va : Nat) : Path × Hw :=
  let r := regimeOf who.world
  let k := xcacheOf h who
  let c := xcache h k
  match c.entries.find? fun e => e.regime = r && e.page = va / 2 ^ levelShift e.level with
  | some e => (.leaf e.level 0 e.leaf, setXcache h k { c with hits := c.hits + 1 })
  | none =>
    let h := setXcache h k { c with misses := c.misses + 1 }
    let h := { h with xlate := { h.xlate with walks := h.xlate.walks + 1 } }
    let s := walkStart h who.board r va
    match follow h (some who.board) r va (4 - s.1) s.1 s.2 with
    | (.leaf l a e, h) => (.leaf l a e, installLeaf h k r l va e)
    | x => x

/-- The translation of an address for an agent (R350-R354). -/
def walk (h : Hw) (who : Who) (va : Nat) (acc : Acc) : Walk × Hw :=
  if 2 ^ 48 ≤ va ∨ !regimeEnabled h (regimeOf who.world) then (.permission, h)
  else match leafFor h who va with
    | (.leaf l _ e, h) =>
      if leafAllows e acc then
        (.ok (e / 16 % 4 = 1) (e / 2 ^ 8 % 2 ^ 44 * 2 ^ 8 + va % 2 ^ levelShift l), h)
      else (.permission, h)
    | (.absent l _, h) => (.notPresent l, h)
    | (.broken, h) => (.permission, h)
    | (.poisoned, h) => (.poisoned, h)
    | (.held a, h) => (.held a, h)

/-- A pinned translation of a command (R360): pages of 64 KiB; bit 63 of the value marks a host page. -/
def pinned (h : Hw) (who : Who) (va : Nat) : Option Walk :=
  match who.slot with
  | none => none
  | some sl =>
    match cmdAt h sl with
    | none => none
    | some c => (c.pins.find? fun p => p.1 = va / 65536).map fun p =>
        .ok (decide (2 ^ 63 ≤ p.2)) (p.2 % 2 ^ 63 + va % 65536)

/-- The translation an access of a command uses. -/
def translate (h : Hw) (who : Who) (va : Nat) (acc : Acc) : Walk × Hw :=
  match pinned h who va with
  | some w => (w, h)
  | none => walk h who va acc

/-! Accesses of commands through translation -/

/-- Translates within one page, or fails. -/
def xlateRun (who : Who) (va : Nat) (acc : Acc) : Run (Bool × Nat) := do
  let h ← get
  match translate h who va acc with
  | (.ok t pa, h) => set h; pure (t, pa)
  | (.notPresent _, h) => set h; throw (.xlate va acc true)
  | (.permission, h) => set h; throw (.xlate va acc false)
  | (.poisoned, h) => set h; throw (.walkPoison va)
  | (.held a, h) => set (noteHeld h who a); throw .wait

/-! Accesses that are not ordered (R46, R210) -/

/-- What is left of a range within another. -/
def common (a n : Nat) (r : Nat × Nat) : Nat × Nat := (max a r.1, min (a + n) (r.1 + r.2) - max a r.1)

/-- Two commands belong to one live stream task, whose entries and members the task orders (R247). -/
def sameTask (h : Hw) (x y : Nat) : Bool :=
  h.streams.any fun t => (t.slot = x || t.fetched.contains x) && (t.slot = y || t.fetched.contains y)

/-- The stream task of a slot, by the order number of its opening command. -/
def taskOrder (h : Hw) (slot : Nat) : Option Nat :=
  (h.streams.find? fun t => t.slot = slot || t.fetched.contains slot).bind fun t => (cmdAt h t.slot).map Cmd.order

/-- What commands have written that have ended in no order with a command (R46). -/
def pastWrites (h : Hw) (slot : Nat) (c : Cmd) : List (Nat × Nat) :=
  h.order.past.flatMap fun p =>
    if p.order = c.order || c.knows.contains p.order || p.world ≠ c.world ||
        (p.task.isSome && p.task = taskOrder h slot) then [] else p.ranges

/-- The parts of a command's access that meet what another command, not ordered with it, has written or is writing: one
in flight at work on its outputs, or one that has ended. Their values are undefined (R46). -/
def racing (h : Hw) (who : Who) (va n : Nat) : List (Nat × Nat) :=
  match who.slot.bind (cmdAt h), who.slot with
  | some c, some sl =>
    let busy := h.slots.flatMap fun e =>
      if e.1 ≠ sl && (e.2.phase = .running || e.2.phase = .suspended) && e.2.world = c.world && !sameTask h sl e.1 then
        e.2.outRanges else []
    ((pastWrites h sl c ++ busy).map (common va n)).filter fun r => decide (r.2 ≠ 0)
  | _, _ => []

/-- Bytes read, the parts that race replaced by free values. -/
def blur (h : Hw) (va : Nat) (bs : List Byte) (rs : List (Nat × Nat)) : List Byte :=
  (List.range bs.length).map fun i =>
    if rs.any fun r => decide (r.1 ≤ va + i) && decide (va + i < r.1 + r.2) then Config.freeByte h.draws (va + i)
    else bs.getD i 0

/-- Memory units of a task's entries before entry i. -/
def unitsBefore (es : List StreamEntry) (i : Nat) : Nat := (es.take i).foldl (fun n e => n + e.units) 0

/-- A member's read meets the destination of an entry that it must wait for (R247): unfinished, of kind 0 or 2, with
an AFTER below the member. -/
def entryBlocks (h : Hw) (who : Who) (va n : Nat) : Bool :=
  match who.slot with
  | none => false
  | some sl =>
    match cmdAt h sl with
    | none => false
    | some c =>
      if c.member = 0 then false else
        h.streams.any fun t => t.fetched.contains sl &&
          (match cmdAt h t.slot with
           | none => false
           | some o => o.phase ≠ .finished && (List.range t.entries.length).any fun i =>
              match t.entries[i]? with
              | none => false
              | some e => e.kind ≠ 1 && decide (e.after < c.member) &&
                  decide (o.doneUnits < unitsBefore t.entries (i + 1)) &&
                  decide (e.dst < va + n) && decide (va < e.dst + e.bytes))

/-- Reads within one page. Poisoned bytes are read as they are, with a flag. -/
def rdPage (who : Who) (va n : Nat) : Run (List Byte × Option Nat) := do
  if entryBlocks (← get) who va n then throw .wait
  let (t, pa) ← xlateRun who va .rd
  let h ← get
  let rs := racing h who va n
  let seen := fun (h : Hw) (bs : List Byte) =>
    if rs = [] then (bs, h) else (blur h va bs rs, { h with draws := h.draws + 1 })
  if t then
    match hostRead h pa n with
    | (some bs, h) => set (seen h bs).2; pure ((seen h bs).1, hostPoison h pa n)
    | (none, h) => set h; throw (.xlate va .rd false)
  else
    match readPa h { who with va := va } pa n with
    | (.bytes bs p, h) => set (seen h bs).2; pure ((seen h bs).1, p)
    | (.unbacked, h) => set h; throw (.xlate va .rd false)
    | (.refused, h) => set h; throw (.world va)
    | (.held, h) => set (noteHeld h who pa); throw .wait

/-- Marks bytes of device memory undefined under the present draw. -/
def freePa (h : Hw) (pa n : Nat) : Hw :=
  (pieces 64 pa n).foldl (fun h p => match decodePa h p.1 with
    | .hbm s y => { h with mem := h.mem.makeFree .hbm (hbmKey s y) p.2 h.draws }
    | .tile u off => { h with mem := h.mem.makeFree .tile (tileKey u off) p.2 h.draws }
    | _ => h) h

/-- The parts of a write at va, which lies at pa, that race are undefined afterwards. -/
def freeRaced (h : Hw) (va pa : Nat) : List (Nat × Nat) → Hw
  | [] => h
  | r :: rs => freeRaced { freePa h (pa + (r.1 - va)) r.2 with draws := h.draws + 1 } va pa rs

/-- Writes within one page. -/
def wrPage (who : Who) (va : Nat) (bs : List Byte) : Run Unit := do
  let (t, pa) ← xlateRun who va .wr
  let h ← get
  let rs := racing h who va bs.length
  if t then
    match hostWrite h (who.slot.getD noSlot) pa (if rs = [] then bs else blur h va bs rs) with
    | some h => set (if rs = [] then h else { h with draws := h.draws + 1 })
    | none => throw (.xlate va .wr false)
  else
    match writePa h { who with va := va } pa bs with
    | (.bytes _ _, h) => set (freeRaced h va pa rs)
    | (.unbacked, h) => set h; throw (.xlate va .wr false)
    | (.refused, h) => set h; throw (.world va)
    | (.held, h) => set (noteHeld h who pa); throw .wait

/-- Reads device virtual memory; answers also the first poisoned address. -/
def rdFlag (who : Who) (va n : Nat) : Run (List Byte × Option Nat) :=
  go [] none (pieces 65536 va n)
where
  go (acc : List Byte) (bad : Option Nat) : List (Nat × Nat) → Run (List Byte × Option Nat)
    | [] => pure (acc, bad)
    | p :: ps => do
      let (bs, q) ← rdPage who p.1 p.2
      go (acc ++ bs) (bad.or (q.map (p.1 + ·))) ps

/-- Reads device virtual memory; poisoned data ends the command (R180). -/
def rd (who : Who) (va n : Nat) : Run (List Byte) := do
  let (bs, bad) ← rdFlag who va n
  match bad with
  | none => pure bs
  | some a => throw (.poison a)

/-- Reads a little-endian number. -/
def rdNat (who : Who) (va n : Nat) : Run Nat := do
  let bs ← rd who va n
  pure (leNat bs)

/-- The ranges that a command stores to, for R46. -/
def noteOut (slot : Nat) (rs : List (Nat × Nat)) : Run Unit := modifyHw fun h => modCmd h slot fun c => { c with outRanges := rs }

/-- Writes device virtual memory. -/
def wr (who : Who) (va : Nat) (bs : List Byte) : Run Unit :=
  go bs (pieces 65536 va bs.length)
where
  go (bs : List Byte) : List (Nat × Nat) → Run Unit
    | [] => pure ()
    | p :: ps => do
      wrPage who p.1 (bs.take p.2)
      go (bs.drop p.2) ps

/-- A command pins the translations of the pages of a range, as they are for an access (R360). -/
def pinRange (slot : Nat) (who : Who) (va n : Nat) (acc : Acc) : Run Unit :=
  go (pieces 65536 va n)
where
  go : List (Nat × Nat) → Run Unit
    | [] => pure ()
    | p :: ps => do
      let (t, pa) ← xlateRun who p.1 acc
      modifyHw fun h => modCmd h slot fun c =>
        if c.pins.any fun q => q.1 = p.1 / 65536 then c
        else { c with pins := c.pins ++ [(p.1 / 65536, t.toNat * 2 ^ 63 + (pa - p.1 % 65536))] }
      go ps

/-- Checks that a range translates for an access, without touching it. -/
def touch (who : Who) (va n : Nat) (acc : Acc) : Run Unit :=
  go (pieces 65536 va n)
where
  go : List (Nat × Nat) → Run Unit
    | [] => pure ()
    | p :: ps => do
      let _ ← xlateRun who p.1 acc
      go ps

/-- Marks bytes of host memory undefined, also in lines that the agent holds. -/
def freeHost (h : Hw) (a n : Nat) : Hw :=
  let byte := fun (l : AgentLine) (k i : Nat) =>
    if a ≤ k + i ∧ k + i < a + n then Config.freeByte h.draws (k + i) else l.bytes.getD i 0
  let spoil := fun (e : Nat × AgentLine) =>
    if e.1 * 64 + 64 ≤ a ∨ a + n ≤ e.1 * 64 then e
    else (e.1, { e.2 with bytes := (List.range 64).map (byte e.2 (e.1 * 64)) })
  { h with mem := h.mem.makeFree .host a n h.draws, host := { h.host with lines := h.host.lines.map spoil } }

/-- Marks bytes of device memory undefined, where they translate: contents the manual calls undefined. -/
def freeVa (who : Who) (va n : Nat) : Run Unit :=
  go (pieces 1024 va n)
where
  go : List (Nat × Nat) → Run Unit
    | [] => pure ()
    | p :: ps => do
      let h ← get
      match translate h who p.1 .wr with
      | (.ok false pa, h) =>
        (match decodePa h pa with
         | .hbm s y =>
           if who.world = .nonSecure ∧ regionSecure h pa then set h
           else set { h with mem := h.mem.makeFree .hbm (hbmKey s y) p.2 h.draws }
         | .tile t off => set { h with mem := h.mem.makeFree .tile (tileKey t off) p.2 h.draws }
         | _ => set h)
      | (.ok true pa, h) => set (freeHost h pa p.2)
      | (_, h) => set h
      go ps

/-- As freeVa, then a fresh draw for the next. -/
def freeVaDraw (who : Who) (va n : Nat) : Run Unit := do
  freeVa who va n
  modifyHw fun h => { h with draws := h.draws + 1 }

end Sys2Proof.Machine
end

