-- ==== Sys2Proof/Machine/Rings.lean ====
section
/-! DEFINITION. Rings, packets and completion: header fields (Table 2-2), counters (R43, R44), completion records
(Table 2-7), fences (R381), ring errors (R52), ends of commands (R50-R54, R359) and the package's READY and RUN
(R449). -/

namespace Sys2Proof.Machine

/-! Ring registers (Table 2-1) -/

def rRing (n rel : Nat) : Nat := 0x100000 + n * 0x1000 + rel
def ringAux (h : Hw) (n : Nat) : RingAux := smGet RingAux.reset h.rings n
def setRingAux (h : Hw) (n : Nat) (a : RingAux) : Hw := { h with rings := smSet RingAux.reset h.rings n a }

def rRingStatus (n : Nat) : Nat := rRing n 0x008
def ringEnabled (h : Hw) (n : Nat) : Bool := regBit h (rRingStatus n) 0
def ringStopping (h : Hw) (n : Nat) : Bool := regBit h (rRingStatus n) 3
def ringParked (h : Hw) (n : Nat) : Bool := regBit h (rRingStatus n) 4
def ringHalted (h : Hw) (n : Nat) : Bool := regBit h (rRingStatus n) 8
def sqCons (h : Hw) (n : Nat) : Word := getReg h (rRing n 0x00C)
def cqProd (h : Hw) (n : Nat) : Word := getReg h (rRing n 0x010)

/-- Live copies, in the order of the staged ones (Table 2-1). -/
def sqBase (h : Hw) (n : Nat) : Nat := getReg64 h (rRing n 0x040)
def sqSize (h : Hw) (n : Nat) : Nat := (getReg h (rRing n 0x048)).toNat
def cqBase (h : Hw) (n : Nat) : Nat := getReg64 h (rRing n 0x04C)
def cqSize (h : Hw) (n : Nat) : Nat := (getReg h (rRing n 0x054)).toNat
def ringCfg (h : Hw) (n : Nat) : Word := getReg h (rRing n 0x058)
def ringWorld (h : Hw) (n : Nat) : World := if bit (ringCfg h n) 31 then .secure else .nonSecure
def prioMax (h : Hw) (n : Nat) : Nat := fld (ringCfg h n) 25 24

/-- Records in the completion ring that software has not reported consumed (R51). -/
def cqUsed (h : Hw) (n : Nat) : Nat := (cqProd h n - (ringAux h n).cqCons).toNat

/-- The completion ring has no free record (R51). -/
def cqFull (h : Hw) (n : Nat) : Bool := decide (cqSize h n ≤ cqUsed h n)

/-- The completion ring takes no record and CQ_FULL reads 1: it is full, or it counts as full because its memory failed (Table 14-7).
DEDUCED (log 42): until ERROR_HALT is cleared or the ring is committed again. -/
def cqClosed (h : Hw) (n : Nat) : Bool := cqFull h n || (ringAux h n).cqFailed

/-! Dependency counters (R43, R44) -/

def rCtr (c : Nat) : Nat := 0x140000 + c * 8
def ctrSecure (h : Hw) (c : Nat) : Bool := regBit h (rCtr c + 4) 31
def ctrErr (h : Hw) (c : Nat) : Bool := regBit h (rCtr c + 4) 0

/-- A wait is met when the signed 32-bit difference is at least 0 (R43). -/
def ctrMet (h : Hw) (c : Nat) (v : Word) : Bool := !(getReg h (rCtr c) - v).msb

/-- Adds to or sets a counter. -/
def ctrSignal (h : Hw) (c : Nat) (set_ : Bool) (v : Word) : Hw :=
  setReg h (rCtr c) (if set_ then v else getReg h (rCtr c) + v)

/-- A status is failing by Table 2-9, and 0x52 by R280. -/
def failing (st : Nat) : Bool :=
  [0x03, 0x10, 0x11, 0x12, 0x13, 0x20, 0x21, 0x22, 0x30, 0x31, 0x40, 0x41, 0x42, 0x43, 0x52, 0x7F].contains st

/-! What commands know to have ended before them (R46) -/

def ringKnows (h : Hw) (n : Nat) : List Nat := smGet [] h.order.rings n
def ctrKnows (h : Hw) (k : Nat) : List Nat := smGet [] h.order.counters k
def addNew (xs ys : List Nat) : List Nat := xs ++ ys.filter fun y => !xs.contains y

/-- All that ring n dispatches from now on comes after some commands. -/
def learnRing (h : Hw) (n : Nat) (os : List Nat) : Hw :=
  { h with order := { h.order with rings := smSet [] h.order.rings n (addNew (ringKnows h n) os) } }

/-- Who waits for counter k from now on comes after some commands. -/
def learnCtr (h : Hw) (k : Nat) (os : List Nat) : Hw :=
  { h with order := { h.order with counters := smSet [] h.order.counters k (addNew (ctrKnows h k) os) } }

/-- Commands of a ring that have ended. -/
def endedOf (h : Hw) (n : Nat) : List Nat := (h.order.past.filter fun p => p.ring = n).map PastWrite.order

/-! Ring errors -/

/-- Raises the ring error interrupt (R52, R461). -/
def ringIrq (h : Hw) : Hw := sendMsix h 65

/-- Stops a ring's fetch with ERROR_HALT and a code (R39, R53, Table 14-7). -/
def haltRing (h : Hw) (n code : Nat) : Hw :=
  let h := setRegBit h (rRingStatus n) 8 true
  ringIrq (setRegFld h (rRingStatus n) 31 24 code)

def rPermFaults : Nat := 0x30000C
def rDemandMaps : Nat := 0x300008

/-- Ring memory and other castle accesses that fault: an error record of the translation and the count (R359). -/
def castleFault (h : Hw) (w : World) (va : Nat) : Hw :=
  logErr (bumpSat h rPermFaults 1)
    { source := 7, kind := 1, code := 0x20, secure := worldBit w, severity := 2, unit := regimeOf w, addr := va }

/-- The code of Table 14-7 for a castle access that failed: 0 where it only waits. -/
def castleFail (h : Hw) (w : World) : Fail → Nat × Hw
  | .poison _ => (0x30, h)
  | .walkPoison _ => (0x30, h)
  | .wait => (0, h)
  | .xlate va _ _ => (0x20, castleFault h w va)
  | .world _ => (0x20, h)
  | .stop _ _ _ => (0x20, h)

/-- Reads ring memory (R33): a device ring through the regime of its world, a host ring at host physical addresses, on
CXL.io, which is no access of the agent (R370). Answers nothing, and the code of Table 14-7, where it fails. -/
def ringRead (h : Hw) (w : World) (hostLoc : Bool) (a n : Nat) : (Option (List Byte) × Nat) × Hw :=
  if hostLoc then
    if !hostUp h then ((none, 0x20), h)
    else (if (hostPoison h a n).isSome then (none, 0x30) else (some (hostBytes h a n), 0), h)
  else
    match runOn (rd (castle w) a n) h with
    | (.ok bs, h) => ((some bs, 0), h)
    | (.error f, h) => let r := castleFail h w f; ((none, r.1), r.2)

/-- Writes ring memory; the code says how it failed, 0 for a wait. -/
def ringWrite (h : Hw) (w : World) (hostLoc : Bool) (a : Nat) (bs : List Byte) : Option Nat × Hw :=
  if hostLoc then
    if hostUp h then (none, hostIoWrite h a bs) else (some 0x20, h)
  else
    match runOn (wr (castle w) a bs) h with
    | (.ok (), h) => (none, h)
    | (.error f, h) => let r := castleFail h w f; (some r.1, r.2)

/-! Completion records (Table 2-7) -/

/-- The bytes of a record that enters completion ring n at its next index. -/
def recordBytes (h : Hw) (n : Nat) (c : Cmd) (final : Bool) (status : Nat) (d0 d1 : Quad) : List Byte :=
  let i := (cqProd h n).toNat
  let phase := 1 - i / cqSize h n % 2
  leBytes 4 (c.ring.val * 2 ^ 18 + phase * 2 ^ 17 + final.toNat * 2 ^ 16 + c.opcode * 2 ^ 8 + status) ++
  leBytes 4 (hSeq c.packet) ++ leBytes 8 d0.toNat ++ leBytes 8 d1.toNat ++
  leBytes 4 c.errRef.toNat ++ leBytes 4 (sqCons h c.ring.val).toNat

/-- Writes a record into completion ring n (R50, R51). A ring that is full takes none; one whose memory fails counts
as full and halts (Table 14-7). Answers whether the record was written. -/
def postRecord (h : Hw) (n : Nat) (bs : List Byte) : Bool × Hw :=
  if cqClosed h n ∨ cqSize h n = 0 then (false, h)
  else
    let a := cqBase h n + (cqProd h n).toNat % cqSize h n * 32
    match ringWrite h (ringWorld h n) (bit (ringCfg h n) 29) a bs with
    | (none, h) => (true, setReg h (rRing n 0x010) (cqProd h n + 1))
    | (some code, h) =>
      (false, if code = 0 then h else haltRing (setRingAux h n { ringAux h n with cqFailed := true }) n code)

/-! Fence actions (R381) -/

/-- Zero-length reads issued. -/
def flushReads (h : Hw) (k : Nat) : Hw := bumpSat h (regOf .host 0x24) k

/-- The peer ranges that are valid (R379). -/
def validPeers (h : Hw) : Nat :=
  ((List.range 4).filter fun p => regBit h (regOf .host (0x240 + 16 * p)) 0).length

/-- What FENCE_GLOBAL does before the record of a command (R381); the control commands FENCE and SIGNAL cover every
write of the package. FENCE_HOST asks for nothing more here: agent lines are owned when written, and CXL.io writes
are issued in order (log 15). -/
def fenceActions (h : Hw) (slot : Nat) : Hw :=
  match cmdAt h slot with
  | none => h
  | some c =>
    let h := setCmd h slot { c with fenced := true }
    if c.fenced ∨ !hFenceGlobal c.packet ∨ !hostUp h then h
    else if c.opcode = 1 ∨ c.opcode = 3 then
      let h := writeBackLines h (fun _ => true)
      flushReads h ((if h.host.lastWrite.isSome then 1 else 0) + validPeers h)
    else if c.wroteHost then
      flushReads (writeBackLines h (fun s => s = slot)) (1 + c.peers.length)
    else h

/-! Ends of commands -/

/-- The access of a command: its world, its slot and the board of the tile that serves it. -/
def whoOf (slot : Nat) (c : Cmd) : Who :=
  { world := c.world, slot := some slot, board := ((c.serving.map Prod.snd).getD (c.tiles.headD 64)) / 64,
    engine := decide (1 ≤ c.cls) && decide (c.cls ≤ 5) }

def tileAux (h : Hw) (t : Nat) : TileAux := smGet TileAux.reset h.tilesAux t
def setTileAux (h : Hw) (t : Nat) (a : TileAux) : Hw := { h with tilesAux := smSet TileAux.reset h.tilesAux t a }

/-- TILE_FREQ of a tile (Table 18-10). -/
def rTileFreq (t : Nat) : Nat := regOf (.board (t / 64)) (0x1100 + 4 * (t % 64))

/-- The highest clock step of a compute die: 35 less what ageing takes (R437). -/
def maxStep (h : Hw) (d : Nat) : Nat := 35 - smGet 0 h.power.aged d

/-- The highest clock step the arbiter lets a tile run. -/
def tileCap (h : Hw) (t : Nat) : Nat := min (smGet 35 h.power.caps t) (maxStep h (t / 16))

/-- A tile leaves the command that holds it (TILE_STATUS BUSY, STAGING and SLOT, R89), with what stands in its
finished-tile queue and its credits, and its clock is gated (R439). -/
def freeTile (h : Hw) (t : Nat) : Hw :=
  let o := regOf (.tile t) 4
  let h := setTileAux h t { tileAux h t with queue := [], claimed := none }
  setReg (setRegFld (setRegFld h o 29 16 0) o 2 1 0) (rTileFreq t) 63

/-- Releases the tiles a command holds. -/
def releaseTiles (h : Hw) (slot : Nat) : Hw :=
  match cmdAt h slot with
  | none => h
  | some c => c.tiles.foldl freeTile (setCmd h slot { c with tiles := [], serving := none, computed := false, team := [] })

/-- Deep-tier requests of a slot are forgotten with it. -/
def dropSlotReqs (ps : List (Nat × PortAux)) (slot : Nat) : List (Nat × PortAux) :=
  (ps.map fun e => (e.1, { e.2 with requests := e.2.requests.filter fun r => r.slot ≠ slot })).filter
    fun e => e.2 ≠ PortAux.reset

/-- Ranges whose contents are undefined from now on. -/
def spoil (who : Who) (rs : List (Nat × Nat)) (h : Hw) : Hw :=
  rs.foldl (fun h r => (runOn (freeVaDraw who r.1 r.2) h).2) h

/-- A command's output memory is undefined after it (R87, R140, R165). -/
def spoilOutputs (h : Hw) (slot : Nat) : Hw :=
  match cmdAt h slot with
  | none => h
  | some c => spoil (whoOf slot c) c.outputs h

/-- A command ends: what it wrote is ordered only with the commands that R46 orders after it. Readers of what it held
under HOLD see the whole of it (R211). -/
def notePast (h : Hw) (slot : Nat) (c : Cmd) : Hw :=
  if c.outRanges = [] ∨ (h.holds.any fun r => r.slot = slot) then h
  else { h with order := { h.order with
    past := h.order.past ++ [PastWrite.mk c.order c.opcode c.ring.val c.world (taskOrder h slot) c.outRanges] } }

/-- What a command's end leaves open: its outputs where its operands overlap as the manual forbids (R84, R138, R149,
R262), its work buffer (R86, R136, R148), and the order of what it wrote with other commands (R46). -/
def leaveOpen (h : Hw) (slot : Nat) (c : Cmd) : Hw :=
  spoil (whoOf slot c) (c.workBuffer ++ c.overlaps) (notePast h slot c)

/-- A command whose work has ended with a status: it holds nothing more. -/
def Cmd.finished (c : Cmd) (status d0 d1 : Nat) : Cmd :=
  { c with phase := .finished, status := BitVec.ofNat 8 status, detail0 := BitVec.ofNat 64 d0,
           detail1 := BitVec.ofNat 64 d1, fault := none, prePending := false, tiles := [], serving := none, computed := false, team := [] }

/-- A command's work ends with a status (R50): its tiles, its pawn tokens and its deep-tier requests are free; its
record follows in FINAL_RECORD. -/
def finish (h : Hw) (slot status d0 d1 : Nat) : Hw :=
  match cmdAt h slot with
  | none => h
  | some c =>
    let h := c.tiles.foldl freeTile (leaveOpen h slot c)
    let h := setCmd h slot (c.finished status d0 d1)
    { h with
      tokens := h.tokens.filter (fun e => e.2.1 ≠ slot), tokenWaits := h.tokenWaits.filter (fun e => e.1 ≠ slot),
      ports := dropSlotReqs h.ports slot }

/-! Stream tasks (R243-R248) -/

/-- The live stream task a command belongs to, as its opening packet or as a member. -/
def taskOf (h : Hw) (slot : Nat) : Option Stream :=
  h.streams.find? fun t => t.slot = slot || t.fetched.contains slot

def modStream (h : Hw) (task : Nat) (f : Stream → Stream) : Hw :=
  { h with streams := h.streams.map fun t => if t.task = task then f t else t }

/-- Whether member m of a task has finished; member 0 stands for none. -/
def memberDone (h : Hw) (t : Stream) (m : Nat) : Bool :=
  m = 0 || (match t.fetched[m - 1]? with
    | none => false
    | some sl => ((cmdAt h sl).map fun c => decide (c.phase = .finished)).getD true)

/-- A staged copy is held while its task lives with no fault and its last user has not finished (R247, R248). -/
def copyLive (h : Hw) (x : StagedCopy) : Bool :=
  h.streams.any fun t => t.task = x.task && (cmdAt h t.slot).map Cmd.order = some x.opener && t.fault.isNone &&
    t.abort.isNone && !(x.last ≠ 0 && memberDone h t x.last)

/-- The staged copies that a tile holds. -/
def liveCopies (h : Hw) (t : Nat) : List StagedCopy := (tileAux h t).copies.filter (copyLive h)

def StagedCopy.count (x : StagedCopy) : Nat := ceilDiv x.bytes 65536
def creditsOf (xs : List StagedCopy) : Nat := (xs.map StagedCopy.count).sum

/-- Credits of a tile that staged copies hold, and that the command holding the tile does (R229). -/
def streamHeld (h : Hw) (t : Nat) : Nat := creditsOf (liveCopies h t)
def cmdHeld (h : Hw) (t : Nat) : Nat :=
  ((tileAux h t).claimed.getD []).length

/-- The credits that neither some copies nor the command holding the tile have. -/
def freeCredits (h : Hw) (t : Nat) (xs : List StagedCopy) : List Nat :=
  (List.range 128).filter fun c =>
    !(((tileAux h t).claimed.getD []).contains c) && !(xs.any fun x => x.credits.contains c)

/-- The sequencer takes n of some credits (R229); which ones is a free value of the draw (log 21). -/
def pickCredits (draw : Nat) : Nat → List Nat → List Nat
  | 0, _ => []
  | n + 1, cs =>
    let i := Config.openValue 21 (draw * 2 ^ 16 + n) % cs.length
    match cs[i]? with
    | none => []
    | some c => c :: pickCredits draw n (cs.eraseIdx i)

/-- The bytes of credits of a tile store are undefined from now on (R61). -/
def spoilCredits (t : Nat) (cs : List Nat) (h : Hw) : Hw :=
  { h with mem := cs.foldl (fun m c => m.makeFree .tile (tileKey t (c * 65536)) 65536 h.draws) h.mem, draws := h.draws + 1 }

/-- The credits of copies whose tasks hold them no more, and those copies gone. -/
def sweepCopies (h : Hw) (t : Nat) : Hw :=
  let xs := (tileAux h t).copies.filter fun x => !copyLive h x
  if xs = [] then h
  else setTileAux (spoilCredits t (xs.flatMap StagedCopy.credits) h) t { tileAux h t with copies := liveCopies h t }

/-- A fault strikes a command of a live task (R248): the command stops, and the task waits for the fault to be
served. The first fault counts. -/
def strikeTask (h : Hw) (t : Stream) (slot st d0 d1 : Nat) (replayable : Bool) : Hw :=
  let h := releaseTiles h slot
  let h := modCmd h slot fun c => { c with phase := .suspended }
  modStream h t.task fun t => if t.fault.isSome then t else
    { t with fault := some (StreamFault.mk slot st d0 d1 replayable) }

/-- Statuses that are faults of a task (Table 9-8). -/
def taskFault (st : Nat) : Bool := [0x20, 0x22, 0x30, 0x40, 0x43].contains st

/-- A command's work fails with a status: it ends, or its task is struck. -/
def failCmd (h : Hw) (slot st d0 d1 : Nat) : Hw :=
  match taskOf h slot with
  | some t => if taskFault st then strikeTask h t slot st d0 d1 (st = 0x43) else finish h slot st d0 d1
  | none => finish h slot st d0 d1

/-- Writes an error record that concerns a command (Table 20-7). -/
def cmdErr (h : Hw) (slot : Nat) (c : Cmd) (status d0 d1 source kind unit addr : Nat) : Word × Hw :=
  errRecord h
    { source := source, kind := kind, code := status, secure := worldBit c.world, severity := 2, unit := unit,
      cmd := cmdField slot c, addr := addr, detail0 := BitVec.ofNat 64 d0, detail1 := BitVec.ofNat 64 d1 }

/-- Ends a command with a status that writes an error record. -/
def finishErr (h : Hw) (slot status d0 d1 source kind unit addr : Nat) : Hw :=
  match cmdAt h slot with
  | none => h
  | some c =>
    let (ref, h) := cmdErr h slot c status d0 d1 source kind unit addr
    modCmd (finish h slot status d0 d1) slot fun c => { c with errRef := ref }

/-- Progress that a SUSPENDED record reports (R87): bricks written, brick groups scored for CMP_SELECT. -/
def progressOf (c : Cmd) : Nat := if c.opcode = 0x23 then c.doneUnits else c.written

/-- DETAIL1 of ABORTED, MEM_UNCORRECTABLE, D2D_DATA_ERROR and STACK_LOST: 0 in Table 3-8; the attention and pawn
commands count in every record (R146, R165, R223). -/
def endCount (c : Cmd) : Nat := if c.cls = 4 ∨ c.cls = 6 then c.written else 0

def endCountOf (h : Hw) (slot : Nat) : Nat := ((cmdAt h slot).map endCount).getD 0

/-- The DETAIL words of a SUSPENDED record (R57, R363): the first cause in DETAIL0 [7:0], bit [8] a pre-emption cause
and bit [9] a fault that is pending besides it, the units completed in DETAIL1. -/
def suspendedWords (c : Cmd) : Nat × Nat :=
  (c.firstCause.toNat + (c.prePending && c.firstCause ≠ 0).toNat * 2 ^ 8 +
    (c.fault.isSome && c.firstCause = 0).toNat * 2 ^ 9, progressOf c)

/-- The resume area of a slot up to its PRIVATE field (Table 14-8), from the first suspension on. Units are written in
the order of their assignment, so that LOW_UNIT is the count of units written, and WINDOW is clear (R362). -/
def resumeArea (c : Cmd) : List Byte :=
  leBytes 4 (c.opcode + c.prePending.toNat * 2 ^ 8 + c.fault.isSome.toNat * 2 ^ 9 + c.suspensions * 2 ^ 16 +
    c.firstCause.toNat * 2 ^ 24) ++ leBytes 4 0 ++
  leBytes 8 c.step.toNat ++ leBytes 8 c.doneUnits ++ leBytes 8 c.doneUnits ++
  leBytes 8 ((c.fault.map PendingFault.va).getD 0) ++
  leBytes 4 ((c.fault.map fun f => if f.report then f.id.toNat else 0).getD 0) ++ leBytes 20 0 ++ leBytes 128 0

/-- Writes a SUSPENDED record (R50). Answers whether the completion ring took it. -/
def postSuspended (h : Hw) (c : Cmd) (ds : Nat × Nat) : Bool × Hw :=
  postRecord h c.target (recordBytes h c.target c false 2 (BitVec.ofNat 64 ds.1) (BitVec.ofNat 64 ds.2))

/-- The completion ring that a record waits for. -/
def DueRecord.target (h : Hw) (e : DueRecord) : Option Nat := (cmdAt h e.slot).map Cmd.target

/-- A record of a slot enters its completion ring after others that became ready before it (R50); the records of a
stream task keep their order across rings (R244). -/
def waitsBehind (h : Hw) (es : List DueRecord) (e : DueRecord) : Bool :=
  es.any fun x => x.target h = e.target h || sameTask h x.slot e.slot

/-- A pawn command that stops leaves its progress in the first 64 KiB of its work area, in a layout the manual does not
give (R222). -/
def saveProgress (h : Hw) (slot : Nat) (c : Cmd) : Hw :=
  if c.cls = 6 then spoil (whoOf slot c) (c.workBuffer.map fun b => (b.1, min b.2 65536)) h else h

/-- A command in a slot stops as suspended: its record is written, or waits its turn or for room in the completion ring
(R50, R51); what it holds is released either way (R56). -/
def suspendIn (h : Hw) (slot : Nat) (c : Cmd) : Hw :=
  let h := spoil (whoOf slot c) c.overlaps (saveProgress h slot c)
  let h := releaseTiles (setCmd h slot { c with suspensions := min 255 (c.suspensions + 1) }) slot
  let e := DueRecord.mk slot (some (suspendedWords c))
  let wait := fun (h : Hw) => { h with due := h.due ++ [e] }
  if waitsBehind h h.due e then wait h
  else match postSuspended h c (suspendedWords c) with
    | (true, h) => h
    | (false, h) => wait h

/-! Demand regions (R357, R358) -/

/-- A demand region descriptor (Table 14-4). -/
structure Region where
  index : Nat
  base : Nat
  bytes : Nat
  psize : Nat
  read : Bool
  write : Bool
  report : Bool
  pool : Nat
  ok : Bool
  deriving DecidableEq, Repr

/-- The bytes of a page of a demand region. -/
def Region.page (r : Region) : Nat := if r.psize = 1 then 65536 else 2 ^ 21

/-- What a read of a demand region descriptor answers. DEDUCED (log 99): one that no memory backs, or that the world of
the regime may not read, admits no fault; one in a held range is read later (R211). -/
inductive RegionRead where
  | found (r : Region)
  | absent
  | poisoned
  | held
  deriving DecidableEq, Repr

/-- Reads descriptor i of a regime (R357, R499). -/
def readRegion (h : Hw) (r i : Nat) : RegionRead × Hw :=
  let a := getReg64 h (xLive r 8) / 64 * 64 + 64 * i
  match readPa h (castle (worldOf r)) a 64 with
  | (.bytes d none, h) =>
    let f := leAt d 0x10 4
    let base := leAt d 0 8
    let bytes := leAt d 8 8
    let ps := f % 4
    let page := if ps = 1 then 65536 else 2 ^ 21
    let report := f / 16 % 2 = 1
    let pool := leAt d 0x18 8
    let ok := (ps = 1 || ps = 2) && f / 32 = 0 && leAt d 0x14 4 = 0 && leNat (d.drop 0x20) = 0 &&
      base % page = 0 && bytes % page = 0 && decide (base + bytes ≤ 2 ^ 48) &&
      (if report then pool = 0 else pool % 64 = 0)
    (.found { index := i, base := base, bytes := bytes, psize := ps, read := f / 4 % 2 = 1, write := f / 8 % 2 = 1,
              report := report, pool := pool, ok := ok }, h)
  | (.bytes _ _, h) => (.poisoned, h)
  | (.held, h) => (.held, h)
  | (_, h) => (.absent, h)

/-- What the demand regions of a regime say of a not-present fault (R357). -/
inductive Demand where
  | region (r : Region)
  | outside
  | poisoned
  | held
  deriving DecidableEq, Repr

/-- The region allows an access; a read-modify-write needs both bits, as a leaf asks (R354, R357). -/
def Region.allows (d : Region) : Acc → Bool
  | .rd => d.read
  | .wr => d.write
  | .rmw => d.read && d.write

/-- Looks a faulting address up in the demand region table. -/
def demandOf (h : Hw) (r va : Nat) (acc : Acc) : Demand × Hw :=
  go h (List.range (regFld h (xLive r 0x10) 12 8))
where
  go (h : Hw) : List Nat → Demand × Hw
    | [] => (.outside, h)
    | i :: is =>
      match readRegion h r i with
      | (.poisoned, h) => (.poisoned, h)
      | (.held, h) => (.held, h)
      | (.absent, h) => go h is
      | (.found d, h) =>
        if d.base ≤ va ∧ va < d.base + d.bytes then
          (if d.ok ∧ d.allows acc ∧ (!d.report ∨ 0 < (getReg h (xLive r 0x1C)).toNat) then .region d else .outside, h)
        else go h is

/-- The task that a fault of a command strikes. The opening command that still reads its schedule strikes none: that
is a structure read before work begins (R246, Table 14-7). -/
def struckBy (h : Hw) (slot : Nat) : Option Stream := (taskOf h slot).filter fun t => t.checked || t.slot ≠ slot

/-- The members of a task whose schedule cannot be read or fails its check end as STREAM_ABORT, fetched or to come, with
the status that ends the opening command (R246). -/
def abortMembers (h : Hw) (t : Stream) (st : Nat) : Hw :=
  let h := t.fetched.foldl (fun h m => if (cmdAt h m).all Cmd.refused then h else finish h m 0x21 st 0) h
  modStream h t.task fun t => { t with checked := true, abort := some (0x21, st, 0, 0) }

/-- A fault that nothing resolves ends its command, or strikes its task, with the error record of a kind (R354, R358,
R359): XLATE_FAULT with the address and the units written. DEDUCED (log 98): one in the schedule of a task ends the
opening command so, and its members as a failed check does. -/
def faultEnds (h : Hw) (slot : Nat) (c : Cmd) (va kind : Nat) : Hw :=
  match struckBy h slot with
  | some t =>
    strikeTask (cmdErr h slot c 0x20 va c.written 7 kind (regimeOf c.world) va).2 t slot 0x20 va c.written false
  | none =>
    let h' := finishErr h slot 0x20 va c.written 7 kind (regimeOf c.world) va
    match taskOf h slot with
    | some t => abortMembers h' t 0x20
    | none => h'

/-- A permission fault of a command (R354, R359). -/
def permissionFault (h : Hw) (slot va : Nat) : Hw :=
  match cmdAt h slot with
  | none => h
  | some c =>
    faultEnds (bumpSat h rPermFaults 1) slot c va 1

/-- What becomes of the fault record for a REPORT region (R358, Table 14-5): it is written under a FAULT_ID, it waits
for room in the queue, or its write faults, which sets FQ_ERR and drops it. -/
inductive Report where
  | written (id : Word)
  | full
  | dropped
  deriving DecidableEq, Repr

def faultRecord (slot : Nat) (c : Cmd) (d : Region) (va : Nat) (write : Bool) (id : Word) : List Byte :=
  leBytes 4 id.toNat ++ leBytes 4 (write.toNat + d.index * 16 + slot * 2 ^ 16) ++
  leBytes 8 (va / d.page * d.page) ++ leBytes 4 c.ring.val ++ leBytes 4 (hSeq c.packet) ++ leBytes 8 0

/-- FAULT_IDs in use by outstanding records are not given again. -/
def fqUsed (h : Hw) (r : Nat) : Nat :=
  (getReg h (regOf (.regime r) 0x48) - getReg h (regOf (.regime r) 0x4C)).toNat

/-- The FAULT_ID of the record that another command's fault on the same page has outstanding: faults on one page share
one resolution (R358). -/
def sharedReport (h : Hw) (slot r : Nat) (d : Region) (va : Nat) : Option Word :=
  h.slots.findSome? fun e =>
    if e.1 = slot || regimeOf e.2.world ≠ r then none
    else e.2.fault.bind fun f =>
      if f.report && !f.unposted && f.region = d.index && decide (f.va / d.page = va / d.page) then some f.id else none

/-- Before vector 66 a record in host memory is written back from the agent and confirmed by a zero-length read; one in
device memory is acknowledged by its stack (R358, R381). -/
def announceFault (h : Hw) (host : Bool) : Hw :=
  sendMsix (if host then flushReads (writeBackLines h (fun s => s = noSlot)) 1 else h) 66

def reportFault (h : Hw) (slot : Nat) (c : Cmd) (d : Region) (va : Nat) (write : Bool) : Report × Hw :=
  let r := regimeOf c.world
  let size := (getReg h (xLive r 0x1C)).toNat
  match sharedReport h slot r d va with
  | some id => (.written id, h)
  | none =>
  if size ≤ fqUsed h r then (.full, h)
  else
    let id := h.nextFault
    let a := getReg64 h (xLive r 0x14) + (getReg h (regOf (.regime r) 0x48)).toNat % size * 32
    let put : Run Bool := do
      let x ← xlateRun (castle c.world) a .wr
      wr (castle c.world) a (faultRecord slot c d va write id)
      pure x.1
    match runOn put h with
    | (.ok host, h) =>
      let h := setReg h (regOf (.regime r) 0x48) (getReg h (regOf (.regime r) 0x48) + 1)
      let h := { h with nextFault := h.nextFault + 1 }
      (.written id, if r = 0 then announceFault h host else h)
    | (.error .wait, _) => (.full, h)
    | (.error _, h) => (.dropped, setRegBit h (regOf (.regime r) 0x44) 1 true)

/-- A dropped fault record: one error record of kind 2 stands for the permission fault (R358). -/
def droppedFault (h : Hw) (slot va : Nat) : Hw :=
  match cmdAt h slot with
  | none => h
  | some c =>
    faultEnds (bumpSat h rPermFaults 1) slot c va 2

/-- How a command stands to a resolvable fault (Table 14-7). -/
inductive FaultRule where
  | suspends
  | waitsInPlace
  | fails
  deriving DecidableEq, Repr

def faultRule (opcode : Nat) : FaultRule :=
  if opcode = 0x03 ∨ opcode = 0xF0 ∨ opcode = 0xF1 ∨ opcode = 0xF2 then .waitsInPlace
  else if opcode / 16 = 7 then .waitsInPlace
  else if 1 ≤ opcode / 16 ∧ opcode / 16 ≤ 6 then .suspends
  else .fails

/-- One of some tiles: which one is a free value (R74). -/
def someTile (h : Hw) : List Nat → Option Nat × Hw
  | [] => (none, h)
  | [t] => (some t, h)
  | ts => (ts[Config.freeNat h.draws % ts.length]?, { h with draws := h.draws + 1 })

/-- TC_FAULTS of the tile that met a fault (R368): the one that serves the command's present units; the castle meets
those of structure reads. -/
def countTileFault (h : Hw) (c : Cmd) : Hw :=
  match c.serving with
  | some x => bumpSat h (regOf (.tile x.2) 0x3010) 1
  | none => h

/-- A command takes a resolvable fault (Table 14-7): it suspends, waits in place, or its task is struck. One that is
suspended already writes no further record (R363). -/
def holdFault (h : Hw) (slot : Nat) (c : Cmd) (pf : PendingFault) : Hw :=
  match struckBy h slot with
  | some t => strikeTask (setCmd h slot { c with fault := some pf }) t slot 0x20 pf.va c.written true
  | none =>
    if faultRule c.opcode = .waitsInPlace ∨ c.phase = .suspended then setCmd h slot { c with fault := some pf }
    else suspendIn h slot { c with fault := some pf, phase := .suspended, firstCause := 0x20 }

/-- What a resolvable fault leaves outstanding, its record written or waiting for room in the queue; nothing where the
record is dropped (R358). -/
def pendingFor (h : Hw) (slot : Nat) (c : Cmd) (d : Region) (va : Nat) (write : Bool) : Option PendingFault × Hw :=
  let pf : PendingFault := { va := va, write := write, region := d.index, report := d.report, id := 0 }
  if !d.report then (some pf, h)
  else match reportFault h slot c d va write with
    | (.written id, h) => (some { pf with id := id }, h)
    | (.full, h) => (some { pf with unposted := true }, h)
    | (.dropped, h) => (none, h)

/-- A command takes a translation fault at an address (R357, R359, Table 14-7): one that no region admits is a
permission fault; a resolvable one suspends the command, holds it in place, or fails it by its class. A member of a
live stream task strikes the task instead of suspending (R248; DEDUCED, log 19). -/
def takeXlateFault (h : Hw) (slot va : Nat) (acc : Acc) (notPresent : Bool) : Hw :=
  match cmdAt h slot with
  | none => h
  | some c =>
    let h0 := countTileFault h c
    let dm := if notPresent then demandOf h0 (regimeOf c.world) va acc else (.outside, h0)
    match dm.1 with
    | .held => h
    | .poisoned => failCmd (spoilOutputs dm.2 slot) slot 0x30 va (endCount c)
    | .outside => permissionFault dm.2 slot va
    | .region d =>
      if faultRule c.opcode = .fails ∧ (struckBy h slot).isNone then permissionFault dm.2 slot va
      else match pendingFor dm.2 slot c d va (acc ≠ .rd) with
        | (none, h) => droppedFault h slot va
        | (some pf, h) => holdFault h slot c pf

/-- Accesses of a command that waited for a held range stay counted (R211). -/
def keepWaits (before after : Hw) (slot : Nat) : Hw :=
  let was := fun (h : Hw) => (cmdAt h slot).bind Cmd.heldAt
  if was before = was after then before
  else (List.range 24).foldl (fun h s =>
    let o := regOf (.stack s) 0x10014
    if getReg h o = getReg after o then h else setReg h o (getReg after o))
    (modCmd before slot fun c => { c with heldAt := was after })

/-- What becomes of a command whose work ended early (Table 3-8, Table 14-7, R390). The state before the work stands
where the command only waits. -/
def takeFail (before after : Hw) (slot : Nat) : Fail → Hw
  | .stop st d0 d1 => failCmd after slot st d0 d1
  | .xlate va acc np => takeXlateFault after slot va acc np
  | .poison va => failCmd after slot 0x30 va (endCountOf after slot)
  | .walkPoison va => failCmd after slot 0x30 va (endCountOf after slot)
  | .world va =>
    let ref := getReg after rErrLast
    let units := ((cmdAt after slot).map Cmd.written).getD 0
    modCmd (finish after slot 0x13 va units) slot fun c => { c with errRef := ref }
  | .wait => keepWaits before after slot

/-- Runs a command's work: it ends it, or it ended early. -/
def runCmd (h : Hw) (slot : Nat) (m : Run (Nat × Nat × Nat)) : Hw :=
  match runOn m h with
  | (.ok r, h') => finish h' slot r.1 r.2.1 r.2.2
  | (.error f, h') => takeFail h h' slot f

/-- The records of a task that stand in its completion rings are out of it; with the last the task is gone (R244). -/
def forgetSlot (ts : List Stream) (slot : Nat) : List Stream :=
  (ts.map fun t => if !t.ended then t else
    { t with slot := if t.slot = slot then noSlot else t.slot,
             fetched := t.fetched.map fun k => if k = slot then noSlot else k }).filter
    fun t => !(t.ended && t.slot = noSlot && t.fetched.all (· = noSlot))

/-- Frees a slot at its final record (R54, R211). -/
def freeSlot (h : Hw) (slot : Nat) : Hw :=
  let h := dropCmd (releaseTiles h slot) slot
  { h with holds := h.holds.filter fun r => r.slot ≠ slot, streams := forgetSlot h.streams slot }

/-- Signals a command's counter at its final record (R44); a command refused for naming a secure counter signals
none (R48). -/
def signalOf (h : Hw) (c : Cmd) : Hw :=
  if hSignal c.packet ∧ !c.silent then
    let h := learnCtr (ctrSignal h (hSigCtr c.packet) (hSigMode c.packet) (hSigVal c.packet)) (hSigCtr c.packet)
      (c.order :: c.knows)
    if failing c.status.toNat then setRegBit h (rCtr (hSigCtr c.packet) + 4) 0 true else h
  else h

/-! Package state and mirrored records -/

def anyRingEnabled (h : Hw) : Bool := (List.range 64).any fun n => ringEnabled h n

/-- READY and RUN follow the rings and the commands in flight (R449). -/
def settlePkg (h : Hw) : Hw :=
  if h.pkg = .ready ∧ anyRingEnabled h then setPkg h .run
  else if h.pkg = .run ∧ !anyRingEnabled h ∧ h.slots.isEmpty then setPkg h .ready
  else h

/-- Vector 64 for a record, as its severity asks (Table 19-5). -/
def errIrq (h : Hw) (r : ErrRec) : Hw :=
  if 4 ≤ r.severity ∨ fld (getReg h (regOf .err 0xA0)) 2 0 ≤ r.severity then sendMsix h 64 else h

/-- Copies one record into the mirror ring (R460). Answers whether that is over: a copy whose place lies in a held range
waits (R211). -/
def mirrorOne (h : Hw) (r : ErrRec) : Bool × Hw :=
  let cfg := getReg h (regOf .err 0xA0)
  let size := (getReg h (regOf .err 0xAC)).toNat
  let prod := getReg h (regOf .err 0xC8)
  let used := (prod - getReg h (regOf .err 0xCC)).toNat
  if !bit cfg 5 ∨ h.errs.mirrorStopped then (true, h)
  else if size ≤ used then (true, setRegBit h (regOf .err 0) 31 true)
  else
    match ringWrite h .nonSecure (bit cfg 6) (getReg64 h (regOf .err 0xA4) + prod.toNat % size * 64) (errBytes r true) with
    | (none, h) => (true, setReg h (regOf .err 0xC8) (prod + 1))
    | (some 0, _) => (false, h)
    | (some _, h) =>
      let h := setRegBit h (regOf .err 0) 30 true
      (true, { h with errs := { h.errs with mirrorStopped := true } })

/-- Copies due records in ERR_REF order, each with its interrupt; copying may log more, which follow in turn. -/
def flushErrs : Nat → Hw → Hw
  | 0, h => h
  | f + 1, h =>
    match h.errs.toMirror with
    | [] => h
    | r :: rs => match mirrorOne { h with errs := { h.errs with toMirror := rs } } r with
      | (true, g) => flushErrs f (errIrq g r)
      | (false, _) => h

/-- What follows every command: mirror copies and interrupts of the records it wrote, and READY or RUN. -/
def settle (h : Hw) : Hw := settlePkg (flushErrs (h.errs.toMirror.length + 64) h)

/-- A meaning over the hardware alone. -/
def onHw (f : Hw → Hw) (s : State) : Host.Outcome State Fault Refusal := .next { s with hw := settle (f s.hw) }

end Sys2Proof.Machine
end

