-- ==== Sys2Proof/Machine/Operands.lean ====
section
/-! DEFINITION. Operand forms of packets: the fields an opcode's chapter gives its parameter units, with their zero
class (R49), ranges and alignments, and the checks of R48 on them. -/

namespace Sys2Proof.Machine

/-- The zero class of a field (R49, Table 2-6). -/
inductive FKind where
  | work
  | size
  | value
  deriving DecidableEq, Repr

/-- One parameter field: its byte offset in the packet, the bytes of the word it stands in, its bits, its zero class
and its greatest value. -/
structure PField where
  off : Nat
  bytes : Nat
  hi : Nat
  lo : Nat
  kind : FKind
  max : Nat
  deriving DecidableEq, Repr

/-- A 32-bit word's field, any value; offsets here count from the start of unit 1. -/
def fV (off hi lo : Nat) : PField := PField.mk (0x40 + off) 4 hi lo .value (2 ^ 64)
def fMax (off hi lo max : Nat) : PField := PField.mk (0x40 + off) 4 hi lo .value max
def fW (off hi lo : Nat) : PField := PField.mk (0x40 + off) 4 hi lo .work (2 ^ 64)
def fS (off hi lo : Nat) : PField := PField.mk (0x40 + off) 4 hi lo .size (2 ^ 64)
def fWMax (off hi lo max : Nat) : PField := PField.mk (0x40 + off) 4 hi lo .work max
def fSMax (off hi lo max : Nat) : PField := PField.mk (0x40 + off) 4 hi lo .size max
/-- A 64-bit field. -/
def fQ (off : Nat) : PField := PField.mk (0x40 + off) 8 63 0 .value (2 ^ 64)
def fQW (off : Nat) : PField := PField.mk (0x40 + off) 8 63 0 .work (2 ^ 64)
def fQS (off : Nat) : PField := PField.mk (0x40 + off) 8 63 0 .size (2 ^ 64)
/-- A field of n bytes. -/
def fBytes (off n : Nat) : PField := PField.mk (0x40 + off) n (8 * n - 1) 0 .value (2 ^ (8 * n))

/-- What the chapter of an opcode gives its packet: LEN, the OPFLAGS it defines, its fields, its alignments (offset
in the packet, bytes, modulus), further checks of values (offsets of offending fields), further alignment checks,
and whether it names secure blocks. -/
structure PSpec where
  len : Nat
  flags : Nat := 0
  fields : List PField := []
  aligns : List (Nat × Nat × Nat) := []
  extra : Hw → World → List Byte → List Nat := fun _ _ _ => []
  extraAlign : Hw → List Byte → List Nat := fun _ _ => []
  secure : Hw → List Byte → Bool := fun _ _ => false
  emptyIf : List Byte → Bool := fun _ => false

def fieldVal (p : List Byte) (f : PField) : Nat := leAt p f.off f.bytes / 2 ^ f.lo % 2 ^ (f.hi + 1 - f.lo)

/-- The bits of byte b of the packet that fields cover. -/
def coveredBits (fs : List PField) (b : Nat) : Nat :=
  fs.foldl (fun m f =>
    if f.off ≤ b ∧ b < f.off + f.bytes then
      let w := (2 ^ (f.hi + 1) - 2 ^ f.lo) / 2 ^ (8 * (b - f.off)) % 256
      m ||| w
    else m) 0

/-- Parameter bytes with reserved bits set, as the offsets of their dwords. -/
def reservedSet (fs : List PField) (p : List Byte) (len : Nat) : List Nat :=
  ((List.range (64 * len)).filter fun i =>
    let b := 0x40 + i
    decide ((pk p b 1 &&& (255 - coveredBits fs b)) ≠ 0)).map fun i => (0x40 + i) / 4 * 4

/-- Header bits that must be 0 (Table 2-2), as offsets. -/
def headerReserved (p : List Byte) : List Nat :=
  (if pkBits p 0 31 30 ≠ 0 ∨ pkBits p 0 23 22 ≠ 0 ∨ pkBit p 0 19 then [0] else []) ++
  (if pkBits p 4 15 7 ≠ 0 then [4] else []) ++
  (if pkBits p 0xC 31 16 ≠ 0 then [0xC] else []) ++
  (if pkBits p 0x10 31 10 ≠ 0 then [0x10] else []) ++
  (if pkBits p 0x18 31 10 ≠ 0 then [0x18] else []) ++
  (if pkBits p 0x20 31 17 ≠ 0 ∨ pkBits p 0x20 15 10 ≠ 0 then [0x20] else []) ++
  ((List.range 6).filter (fun i => decide (pk p (0x28 + 4 * i) 4 ≠ 0))).map (fun i => 0x28 + 4 * i)

def minOf : List Nat → Option Nat
  | [] => none
  | x :: xs => some (xs.foldl min x)

/-- Step 2 of R48: offsets of header fields that are not sound. -/
def headerBad (h : Hw) (n : Nat) (sp : PSpec) (p : List Byte) : List Nat :=
  (if hLen p ≠ sp.len ∨ prioMax h n < hPrio p ∨ !ringEnabled h (hTarget p) ∨
      ringWorld h (hTarget p) ≠ ringWorld h n then [0] else []) ++
  (if (hOpflags p &&& (65535 - sp.flags % 65536)) ≠ 0 then [4] else []) ++
  headerReserved p

/-- Step 3 of R48: offsets of parameter fields out of range, reserved bits set, structure sizes of zero. -/
def paramBad (h : Hw) (w : World) (sp : PSpec) (p : List Byte) : List Nat :=
  (sp.fields.filter fun f => decide (f.max < fieldVal p f) || (f.kind = .size && fieldVal p f = 0)).map PField.off ++
  reservedSet sp.fields p sp.len ++ sp.extra h w p

/-- Step 4 of R48. -/
def alignBad (h : Hw) (sp : PSpec) (p : List Byte) : List Nat :=
  (sp.aligns.filter fun a => decide (leAt p a.1 a.2.1 % a.2.2 ≠ 0)).map Prod.fst ++ sp.extraAlign h p

/-- Whether an enabled wait or the signal of the header names a secure counter. -/
def namesSecureCtr (h : Hw) (p : List Byte) : Bool :=
  (hWait p 0 && ctrSecure h (hWaitCtr p 0)) || (hWait p 1 && ctrSecure h (hWaitCtr p 1)) ||
  (hSignal p && ctrSecure h (hSigCtr p)) ||
  (hOpcode p = 2 && ctrSecure h (parBits p 0 9 0)) || (hOpcode p = 3 && ctrSecure h (parBits p 0 9 0))

/-- What R48 finds. -/
inductive Verdict where
  | pass
  | empty
  | refuse (status detail0 : Nat) (silent : Bool)
  deriving DecidableEq, Repr

/-- Steps 2 to 6 of R48 for an assigned opcode. -/
def checkPacket (h : Hw) (n : Nat) (sp : PSpec) (p : List Byte) : Verdict :=
  let w := ringWorld h n
  match minOf (headerBad h n sp p) with
  | some o => .refuse 0x11 o false
  | none =>
    match minOf (paramBad h w sp p) with
    | some o => .refuse 0x11 o false
    | none =>
      match minOf (alignBad h sp p) with
      | some o => .refuse 0x12 o false
      | none =>
        if w = .nonSecure ∧ namesSecureCtr h p then .refuse 0x13 0 true
        else if w = .nonSecure ∧ sp.secure h p then .refuse 0x13 0 false
        else if (sp.fields.any fun f => f.kind = .work && fieldVal p f = 0) || sp.emptyIf p then .empty
        else .pass

/-! Tile masks (R83) -/

/-- A 192-bit tile mask at an offset of the parameters. -/
def maskAt (p : List Byte) (off : Nat) : List Nat :=
  let m := pk p (0x40 + off) 24
  (List.range 192).filter fun t => m.testBit t

/-- Fields of a tile mask: three 64-bit words (S as a whole). -/
def fMask (off : Nat) : List PField := [fQ off, fQ (off + 8), fQ (off + 16)]

/-- An empty mask is a structure size of zero. -/
def maskEmpty (p : List Byte) (off : Nat) : List Nat := if pk p (0x40 + off) 24 = 0 then [0x40 + off] else []

def tileSecure (h : Hw) (t : Nat) : Bool := regBit h (regOf .sec (0x540 + 4 * (t / 32))) (t % 32)
def stackSecure (h : Hw) (s : Nat) : Bool := regBit h (regOf .sec 0x558) s
def boardSecure (h : Hw) (b : Nat) : Bool := regBit h (regOf .sec 0x55C) (8 + b)
def portSecure (h : Hw) (q : Nat) : Bool := regBit h (regOf .sec 0x55C) (16 + q)

/-- A mask names a tile of the secure world. -/
def maskSecure (h : Hw) (p : List Byte) (off : Nat) : Bool := (maskAt p off).any (tileSecure h)

def tileReady (h : Hw) (t : Nat) : Bool := regBit h (regOf (.tile t) 4) 0
def tileBusy (h : Hw) (t : Nat) : Bool := regBit h (regOf (.tile t) 4) 1
def tileInReset (h : Hw) (t : Nat) : Bool := regBit h (regOf (.tile t) 4) 3

/-- A tile is out of service until the next start: neither ready nor in reset (R90, R416, R452). -/
def tileOut (h : Hw) (t : Nat) : Bool := !tileReady h t && !tileInReset h t

/-- The offset of the tile mask in the parameters of an opcode, where it has one. -/
def maskOff (op : Nat) : Option Nat :=
  match op / 16 with
  | 1 => some (if op = 0x10 then 0x40 else if op = 0x14 then 0x10 else if op = 0x11 ∨ op = 0x16 then 0x20 else 0x28)
  | 2 => some 0x80
  | 3 => some 0x180
  | 4 => some (if op = 0x42 then 0x40 else if op = 0x43 then 0x20 else if op = 0x44 then 0x28 else 0xA0)
  | 5 => some 0x40
  | 7 => some 0x48
  | _ => none

/-- The tiles that a command names. -/
def Cmd.mask (c : Cmd) : List Nat := ((maskOff c.opcode).map (maskAt c.packet)).getD []

/-- Commands that hold the tiles that serve them (R61, R317); movement uses DMA engines beside any holder. -/
def holdsTiles (op : Nat) : Bool := [2, 3, 4, 5, 7].contains (op / 16)

/-- Among commands that compete for a resource b goes before c (R55): the higher class; in one class a suspended
command before one that has not started; then the lower ring, then ring order. -/
def ranksAbove (b c : Cmd) : Bool :=
  if hPrio b.packet ≠ hPrio c.packet then decide (hPrio c.packet < hPrio b.packet)
  else if decide (b.phase = .suspended) ≠ decide (c.phase = .suspended) then decide (b.phase = .suspended)
  else decide (b.ring < c.ring) || (b.ring = c.ring && decide (b.order < c.order))

/-- A command is ready for a tile of its mask and holds none: dispatched, or suspended with no fault outstanding in it
or its task (R55, R363). -/
def wantsTile (h : Hw) (slot : Nat) (c : Cmd) (t : Nat) : Bool :=
  (c.phase = .running || c.phase = .suspended) && c.fault.isNone && holdsTiles c.opcode && c.tiles.isEmpty &&
  c.mask.contains t && !((taskOf h slot).any fun t => t.fault.isSome)

/-- A tile is free, and no command that goes before c waits for it (R55). -/
def tileFor (h : Hw) (slot : Nat) (c : Cmd) (t : Nat) : Bool :=
  tileReady h t && !tileBusy h t &&
  !(h.slots.any fun e => e.1 ≠ slot && ranksAbove e.2 c && wantsTile h e.1 e.2 t)

/-- A movement command at work wants the DMA engine of a tile of its mask; one that waits, for its deep-tier requests or
for a held range, does not. -/
def wantsEngine (h : Hw) (slot : Nat) (b : Cmd) (t : Nat) : Bool :=
  b.cls = 1 && b.phase = .running && b.fault.isNone && b.heldAt.isNone && b.mask.contains t &&
  !((taskOf h slot).any fun t => t.fault.isSome) && !(h.ports.any fun p => p.2.requests.any fun r => r.slot = slot)

/-- The DMA engine of a tile that serves goes to no movement command before c (R55); the commands of a task keep its own
order (R247). -/
def engineFor (h : Hw) (slot : Nat) (c : Cmd) (t : Nat) : Bool :=
  tileReady h t &&
  !(h.slots.any fun e => e.1 ≠ slot && ranksAbove e.2 c && wantsEngine h e.1 e.2 t && !sameTask h slot e.1)

/-- Takes the tiles of a mask that are free for a command: TILE_STATUS BUSY, SLOT and, until they compute, STAGING
(R55, R89). Their clocks run (R439), DESIGN CHOICE (log 102) at the step the arbiter caps them at. -/
def takeTiles (h : Hw) (slot : Nat) (mask : List Nat) : Hw :=
  let ts := mask.filter fun t => (cmdAt h slot).all fun c => tileFor h slot c t
  let stages := (cmdAt h slot).all fun c => c.cls ≠ 7
  let h := ts.foldl (fun h t =>
    let o := regOf (.tile t) 4
    let h := setReg h (rTileFreq t) (BitVec.ofNat 32 (tileCap h t))
    setRegFld (setRegBit (setRegBit h o 1 true) o 2 stages) o 29 16 slot) h
  modCmd h slot fun c => { c with tiles := c.tiles ++ ts }

end Sys2Proof.Machine
end

