-- ==== Sys2Proof/Machine/Access.lean ====
section
/-! DEFINITION. Which register blocks answer an agent (R348, R386, R404, R453, R473), and when commands make
progress. -/

namespace Sys2Proof.Machine

/-- The lend window that a register of the stream block belongs to, staged or live (Table 9-9). -/
def windowOf (off : Nat) : Option Nat :=
  if 0x161000 ≤ off ∧ off < 0x161020 then some ((off - 0x161000) / 4)
  else if 0x161040 ≤ off ∧ off < 0x161060 then some ((off - 0x161040) / 4)
  else none

/-- The world bit of a block keeps a non-secure agent out (R89, R197, R327, R349, R367, R386, R387, R446). DEDUCED (log
47): the commit of a secure map answers, since R310 refuses it by a cause of its own, as R251 does that of a secure
window. -/
def secureBlock (h : Hw) (off : Nat) : Bool :=
  match blockOf off with
  | .ring n => bit (ringCfg h n) 31
  | .ctr => ctrSecure h ((off - 0x140000) / 8)
  | .stream => (decide (off < 0x160100) && bit (ringCfg h ((off - 0x160000) / 4)) 31) ||
      (windowOf off).any fun k => regBit h (0x161040 + 4 * k) 30
  | .map m => off ≠ regOf (.map m) 0xFF0 && regBit h (regOf (.map m) 0x800) 31
  | .regime r => r = 1
  | .power => regBit h 0x400124 31
  | .port q => portSecure h q
  | .fabric => regBit h 0x504104 31
  | .note => regBit h 0x600140 31
  | .tile t => tileSecure h t
  | .stack s => stackSecure h s
  | .board b => boardSecure h b
  | _ => false

/-- A block that does not answer an agent of a world: a secure one a non-secure agent, and the training block every
agent of the other world than its own (R292; log 16). -/
def blockClosed (h : Hw) (w : World) (off : Nat) : Bool :=
  if blockOf off = .train then decide ((w = .secure) ≠ (regBit h 0x170120 31 = true))
  else w = .nonSecure && secureBlock h off

/-- Which blocks answer in a package state (Table 20-1, R473). The secure view of the security block is no part of
BAR0 (R406) and answers while VAUX is present. DEDUCED (log 47): in a halt the blocks that R404 lists, without the build
record window; and without REFCLK_SYS, which stops the castle's clock too (R440), the secure view alone, whose core has an
oscillator of its own. -/
def stateAnswers (h : Hw) (w : World) (b : Block) : Bool :=
  let early := b = .ident || b = .gstatus || b = .build
  let secView := b = .sec && w = .secure
  match h.pkg with
  | .off => false
  | .aux => early || b = .err || secView
  | .bringup => early || b = .err || secView
  | .resigned => early || secView
  | _ => if h.sec.halted then b = .ident || b = .gstatus || b = .sec else h.supplies.refclkSys || secView

/-- Whether an offset answers an agent (R473). -/
def answers (h : Hw) (w : World) (off : Nat) : Bool :=
  stateAnswers h w (blockOf off) && !blockClosed h w off

/-- A write of the host to BAR0 waits: one before it waits, or a posted BAR2 write without the relaxed-ordering
attribute that has not been written to its stack (R383). The secure view is not on CXL.io (R369). -/
def postedBefore (h : Hw) (w : World) : Bool :=
  w = .nonSecure && (!h.host.behind.isEmpty || h.host.winQueue.any fun x => x.op.write && x.op.path = .bar2)

/-- A BAR0 write acts now, or joins those that wait. -/
def posted (w : World) (i : Instr) (f : Hw → Hw) (h : Hw) : Hw :=
  if postedBefore h w then { h with host := { h.host with behind := h.host.behind ++ [i] } } else f h

/-- A register command, a write of a BAR0 offset, acts only where that answers (R473), and in its order; elsewhere the
write is ignored. -/
def ifAnswers (w : World) (off : Nat) (i : Instr) (f : Hw → Hw) (h : Hw) : Hw :=
  posted w i (fun h => if answers h w off then f h else h) h

/-- A register command sent now acts: its offset answers, and it waits for no write before it. -/
def acts (h : Hw) (w : World) (off : Nat) : Bool := answers h w off && !postedBefore h w

/-- The security block takes writes in the secure view only (R406). -/
def ifSecView (w : World) (off : Nat) (f : Hw → Hw) (h : Hw) : Hw :=
  if w = .secure ∧ answers h w off then f h else h

/-- The package lets commands run (R448, R449): in HOLD and QUIET none is in flight, and without REFCLK_SYS no island
has a clock (R440). -/
def working (h : Hw) : Bool :=
  (h.pkg = .ready || h.pkg = .run || h.pkg = .alarm || h.pkg = .hold || h.pkg = .quiet) && !h.sec.halted &&
    h.supplies.refclkSys

/-- The command in a slot, if it is of an opcode and can make progress now. -/
def active (h : Hw) (slot opcode : Nat) : Option Cmd :=
  match cmdAt h slot with
  | none => none
  | some c =>
    if c.opcode = opcode ∧ c.phase = .running ∧ c.fault.isNone ∧ working h ∧
        !((taskOf h slot).any fun t => t.fault.isSome) then some c else none

/-- A command that holds no tile takes those of its mask that are free (R55, R90). -/
def claimTiles (h : Hw) (slot : Nat) (c : Cmd) : Hw :=
  if holdsTiles c.opcode ∧ c.tiles = [] then takeTiles h slot c.mask else h

/-- The link control block, and LINK_STATUS of a link (Table 17-8). -/
def rZl (rel : Nat) : Nat := regOf .zl rel
def rLink (l : Nat) : Nat := rZl (0x100 + 16 * l)

/-- The lowest compute die of tiles that left service through lost control channels, where every tile of a mask did
(R90, R416). -/
def lostDie (h : Hw) (mask : List Nat) : Option Nat :=
  if mask.all fun t => regBit h (rLink (t / 16)) 6 then minOf (mask.map (· / 16)) else none

/-- A mask with no tile in service ends its command (R90). -/
def noTile (h : Hw) (slot : Nat) (mask : List Nat) : Hw :=
  match lostDie h mask with
  | some d => failCmd h slot 0x43 d (endCountOf h slot)
  | none => finish h slot 3 6 (endCountOf h slot)

/-- Runs f on the active command of an opcode in a slot; where the slot holds none, or the command still waits for a
tile, nothing else happens (log 3). -/
def withCmd (slot opcode : Nat) (f : Cmd → Hw → Hw) (h : Hw) : Hw :=
  match active h slot opcode with
  | none => h
  | some c =>
    let h := claimTiles h slot c
    match cmdAt h slot with
    | none => h
    | some c =>
      if holdsTiles opcode ∧ c.tiles = [] then
        (if !c.mask.all (tileOut h) then h else if c.cls = 7 then f c h else noTile h slot c.mask)
      else f c h

end Sys2Proof.Machine
end

