-- ==== Sys2Proof/Machine/Work.lean ====
section
/-! DEFINITION. Work in units (R57, R61, R68, Table 2-10): a command's operands are read for a whole unit, its
result is written whole, and a command that stops resumes after its last whole unit. -/

namespace Sys2Proof.Machine

/-- What one unit gives: the bricks it writes, each whole and in order, by ranges; the numeric flags it raises (R80;
bit 6 the step overflow flag), and by brick those that go with one; what it adds to the command's tally; words of
progress that the command keeps from now on; ranges of the work buffer that it writes, whose layout the manual does not
give; and flags that it raises at tiles of its own choice. -/
structure UnitOut where
  bricks : List (List (Nat × List Byte))
  flags : Nat := 0
  byBrick : List Nat := []
  tally : Nat := 0
  keep : Option (List Nat) := none
  frees : List (Nat × Nat) := []
  byTile : List (Nat × Nat) := []
  deriving DecidableEq, Repr

/-- A unit that writes one brick. -/
def UnitOut.one (writes : List (Nat × List Byte)) (flags tally : Nat) : UnitOut :=
  { bricks := [writes], flags := flags, tally := tally }

/-- Everything a unit writes. -/
def UnitOut.writes (o : UnitOut) : List (Nat × List Byte) := o.bricks.flatten

/-- The flags of a unit whose first bricks were written before: each brick reads its operands before it is written (R84),
so what they raised they raised then. -/
def UnitOut.flagsFrom (o : UnitOut) (part : Nat) : Nat := (o.byBrick.drop part).foldl (· ||| ·) o.flags

/-- The step overflow flag among a unit's flags (R277). -/
def stepOvf : Nat := 64

/-- A command's work: checks made before its first unit, how many units it has, what each does for the command as it
stands then, and how it ends from the flags and the tally: status and DETAIL words. And, seen before the first unit,
the output ranges (address, bytes) whose contents are undefined at its end, since its operands overlap as the manual
forbids and the package does not detect; its output ranges; its work buffer; which units one tile serves together
(those of one key), or which tile must serve a unit; and what it saves where it stops between units. -/
structure Work where
  pre : Run Unit
  units : Nat
  unit : Cmd → Nat → Run UnitOut
  done : Nat → Nat → Run (Nat × Nat × Nat)
  undef : Run (List (Nat × Nat)) := pure []
  outs : Run (List (Nat × Nat)) := pure []
  buffer : List (Nat × Nat) := []
  key : Nat → Nat := fun u => u
  tileFor : Cmd → Nat → Option Nat := fun _ _ => none
  save : Cmd → Run Unit := fun _ => pure ()

/-! Overlaps (R84, R138, R216, R233, R262): ranges are pairs of a start and a length -/

/-- The bounds of ranges that hold anything. -/
def boundsOf (xs : List (Nat × Nat)) : Option (Nat × Nat) :=
  xs.foldl (fun b x =>
    if x.2 = 0 then b
    else match b with
      | none => some (x.1, x.1 + x.2)
      | some (l, u) => some (min l x.1, max u (x.1 + x.2))) none

/-- Two lists of ranges share a place. -/
def rangesMeet (xs ys : List (Nat × Nat)) : Bool :=
  match boundsOf xs, boundsOf ys with
  | some (l, u), some (l', u') =>
    decide (l < u') && decide (l' < u) &&
      xs.any fun x => ys.any fun y => decide (x.1 < y.1 + y.2) && decide (y.1 < x.1 + x.2) &&
        decide (x.2 ≠ 0) && decide (y.2 ≠ 0)
  | _, _ => false

/-- The rows of a matrix whose elements have bits, stored with a leading dimension; each starts on a byte (R92). -/
def matRanges (base bits ld rows cols : Nat) : List (Nat × Nat) :=
  let pitch := ceilDiv (ld * bits) 8
  if ld = cols then [(base, rows * pitch)]
  else (List.range rows).map fun i => (base + i * pitch, ceilDiv (cols * bits) 8)

/-- Leaves ranges undefined. -/
def freeRanges (who : Who) : List (Nat × Nat) → Run Unit
  | [] => pure ()
  | x :: xs => do
    freeVaDraw who x.1 x.2
    freeRanges who xs

/-- The output ranges, where the operands overlap as they must not. -/
def undefIf (bad : Bool) (out : List (Nat × Nat)) : Run (List (Nat × Nat)) := pure (if bad then out else [])

def rTrainStatus : Nat := 0x170000

/-- Where a command's numeric flags show: MATH_STATUS for the arrays, VE_MATH_STATUS otherwise (R80, R102, R142). -/
def mathReg (c : Cmd) : Nat := if c.cls = 2 then 0x10 else 0x1004

/-- Flags of the arrays in an attention command's work, beside those of the vector engine (R165): bits 8 to 12. -/
def arrFlags (f : Nat) : Nat := f % 32 * 256

/-- Sets bits of a tile's numeric status. -/
def orTile (h : Hw) (t rel f : Nat) : Hw :=
  if f = 0 then h else
    let o := regOf (.tile t) rel
    setReg h o (getReg h o ||| BitVec.ofNat 32 f)

/-- Flags reach the status of the tile that serves the unit (R80, R142, R165) and TRAIN_STATUS.STEP_OVF (R277). -/
def raiseFlags (h : Hw) (c : Cmd) (flags : Nat) : Hw :=
  let h := if flags.testBit 6 then setRegBit (setRegBit h rTrainStatus 2 true) rTrainStatus 4 true else h
  match c.serving with
  | some x => orTile (orTile h x.2 (mathReg c) (flags % 64)) x.2 0x10 (flags / 256 % 32)
  | none => h

/-- Flags reach the status of given tiles. -/
def raiseAt (c : Cmd) (xs : List (Nat × Nat)) (h : Hw) : Hw :=
  xs.foldl (fun h x => raiseFlags h { c with serving := some (0, x.1) } x.2) h

/-- A free choice among n for a command, the same whenever it is asked: the tile of a row (R137). -/
def pickOf (c : Cmd) (what n : Nat) : Nat := if n ≤ 1 then 0 else Config.freeNat ((c.order + 1) * 2 ^ 128 + what) % n

/-- The tiles among which a command shares out rows, ascending: those it held when it began or resumed (R137). -/
def Cmd.crew (c : Cmd) : List Nat := if c.team = [] then (List.range 192).filter c.tiles.contains else c.team

/-- The tile that takes a row, pass after pass (R137). -/
def rowTile (c : Cmd) (row : Nat) : Nat := c.crew.getD (pickOf c (2 * row) c.crew.length) 0

/-- The tile that takes part j of a row of some parts: aligned ranges of parts go to tiles in ascending order (R110,
R137); how long they are, and which tile has the first, is free. -/
def partTile (c : Cmd) (row parts j : Nat) : Nat :=
  let n := c.crew.length
  if n ≤ 1 then c.crew.getD 0 0 else
  let least := ((List.range 64).find? fun k => decide (ceilDiv parts (2 ^ k) ≤ n)).getD 64
  let len := 2 ^ (least + pickOf c (2 * row + 1) 32)
  let ranges := ceilDiv parts len
  c.crew.getD (pickOf c (2 * row) (n + 1 - ranges) + j / len) 0

/-- A tile serves a unit (R74): the same one as before where the unit belongs with the last (R86, R137), else one of
those the command holds, or whose DMA engine it may use for movement (R55); it stages no longer. A tile reset abandons a
movement command's unit, which another tile takes (R233). -/
def serve (slot key : Nat) (must : Option Nat) : Run Unit := do
  let h ← get
  match cmdAt h slot with
  | none => pure ()
  | some c =>
    let keep := match c.serving with
      | none => false
      | some x => x.1 = key && !(c.cls = 1 && !tileReady h x.2)
    match must with
    | some t => set (take h c t)
    | none => if keep then pure () else
      let h := if c.serving.isSome && c.cls = 1 then { h with ports := dropSlotReqs h.ports slot } else h
      match someTile h (if c.cls = 1 then c.mask.filter (engineFor h slot c) else c.tiles) with
      | (none, _) => throw .wait
      | (some t, h) => set (take h c t)
where
  take (h : Hw) (c : Cmd) (t : Nat) : Hw :=
    let h := modCmd h slot fun c => { c with serving := some (key, t) }
    if c.cls = 1 then h else setRegBit h (regOf (.tile t) 4) 2 false

/-- A write must translate and meet no held range before any byte of its unit is written. -/
def mayWrite (who : Who) (va n : Nat) : Run Unit :=
  go (pieces 1024 va n)
where
  go : List (Nat × Nat) → Run Unit
    | [] => pure ()
    | p :: ps => do
      let (t, pa) ← xlateRun who p.1 .wr
      let h ← get
      if t then (if !hostUp h then throw (.xlate p.1 .wr false) else pure ())
      else match decodePa h pa with
        | .hbm s y =>
          if who.world = .nonSecure ∧ regionSecure h pa then
            do set (logBoard h { who with va := p.1 } 2 pa (s / 8)); throw (.world p.1)
          else if heldByOther h who (hbmKey s y) p.2 then do set (noteHeld h who pa); throw .wait
          else pure ()
        | .unbacked => do set (logBoard h { who with va := p.1 } 1 pa who.board); throw (.xlate p.1 .wr false)
        | _ => pure ()
      go ps

def mayWriteAll (who : Who) : List (Nat × List Byte) → Run Unit
  | [] => pure ()
  | w :: ws => do mayWrite who w.1 w.2.length; mayWriteAll who ws

def writeAll (who : Who) : List (Nat × List Byte) → Run Unit
  | [] => pure ()
  | w :: ws => do wr who w.1 w.2; writeAll who ws

/-- A wrapping counter that counts on, unless its value is free. -/
def countOn (h : Hw) (off n : Nat) : Hw := if (smFind h.freeRegs off).isSome then freeReg h off else bumpWrap h off n

/-- The vector engine of a tile takes n bricks from its finished-tile queue (R67, R139), which VE_QUEUE_BRICKS counts. -/
def takeBricks (t n : Nat) (h : Hw) : Hw :=
  let a := tileAux h t
  let k := min n a.queue.length
  if k = 0 then h else countOn (setTileAux h t { a with queue := a.queue.drop k }) (regOf (.tile t) 0x1018) k

/-- A written brick leaves the finished-tile queue of the tile that serves the command (R67). -/
def popFinished (h : Hw) (c : Cmd) : Hw :=
  match c.serving with
  | none => h
  | some x => takeBricks x.2 1 h

/-- What KV_APPEND and KV_PAGE are about to change joins what they have changed (R46): no parameter gives its extent. -/
def noteChanged (slot : Nat) (c : Cmd) (b : List (Nat × List Byte)) : Run Unit :=
  if c.opcode = 0x42 ∨ c.opcode = 0x43 then modifyHw fun h => modCmd h slot fun c =>
    { c with outRanges := c.outRanges ++ b.map fun w => (w.1, w.2.length) }
  else pure ()

/-- The bricks of a unit that are still to be written: each is checked, then written whole, and counts (R57). -/
def writeBricks (slot : Nat) (c : Cmd) : List (List (Nat × List Byte)) → Run Unit
  | [] => pure ()
  | b :: bs => do
    mayWriteAll (whoOf slot c) b
    noteChanged slot c b
    writeAll (whoOf slot c) b
    modifyHw fun h => modCmd (popFinished h c) slot fun c => { c with part := c.part + 1, written := c.written + 1 }
    writeBricks slot c bs

/-- Ranges of the work buffer are written, in a layout the manual does not give: their bytes are free values. -/
def writeFree (who : Who) : List (Nat × Nat) → Run Unit
  | [] => pure ()
  | r :: rs => do
    mayWrite who r.1 r.2
    freeVaDraw who r.1 r.2
    writeFree who rs

/-- The command in a slot, in the midst of its work. -/
def cmdNow (slot : Nat) (c : Cmd) : Run Cmd := do pure ((cmdAt (← get) slot).getD c)

/-- Before its first unit a command has its work buffer, its output ranges and what of them is undefined at its end; then
its checks run. One that they turn away has no outputs. -/
def openWork (slot : Nat) (w : Work) : Run Unit := do
  modifyHw fun h => modCmd h slot fun c => { c with buffer := w.buffer }
  noteOut slot (← w.outs)
  let u ← w.undef
  modifyHw fun h => modCmd h slot fun c => { c with undef := u }
  tryCatch w.pre fun f => do
    (match f with
     | .stop _ _ _ => modifyHw fun h => modCmd h slot fun c => { c with outRanges := [], undef := [] }
     | _ => pure ())
    throw f

/-- The result of the unit that a command has begun, with the flags that it raises. One whose computing is over, and
whose bricks wait to be written, has its operands staged: nothing happens again. -/
def computeUnit (slot : Nat) (c : Cmd) (w : Work) : Run UnitOut := do
  let before ← get
  let o ← w.unit c c.doneUnits
  let fl := o.flagsFrom c.part
  if c.computed then set before
  else modifyHw fun h => modCmd (raiseAt c o.byTile (raiseFlags h c fl)) slot fun c =>
    { c with computed := c.cls ≠ 1, flags := c.flags ||| fl }
  pure o

/-- One unit: a tile takes it, its result is computed, then its bricks are written in order and its progress
counts. -/
def unitStep (slot : Nat) (c : Cmd) (w : Work) : Run Unit := do
  serve slot (w.key c.doneUnits) (w.tileFor c c.doneUnits)
  let c ← cmdNow slot c
  let o ← computeUnit slot c w
  writeFree (whoOf slot c) o.frees
  writeBricks slot c (o.bricks.drop c.part)
  modifyHw fun h => modCmd h slot fun c =>
    { c with doneUnits := c.doneUnits + 1, part := 0, tally := c.tally + o.tally, priv := o.keep.getD c.priv,
             heldAt := none, computed := false }

/-- Where a command waits: in the midst of a movement, or with a unit computed and bricks to write, what it has done
stands; else nothing of the unit has happened. -/
def waitsIn (before after : Hw) (slot : Nat) : Hw :=
  if (cmdAt after slot).any fun c => c.cls = 1 || c.computed then after else keepWaits before after slot

/-- At most k further units. -/
def runUnits (slot : Nat) (w : Work) : Nat → Hw → Option Fail × Hw
  | 0, h => (none, h)
  | k + 1, h =>
    match cmdAt h slot with
    | none => (none, h)
    | some c =>
      if w.units ≤ c.doneUnits then (none, h)
      else match runOn (unitStep slot c w) h with
        | (.ok (), h) => runUnits slot w k h
        | (.error .wait, g) => (some .wait, waitsIn h g slot)
        | (.error f, h) => (some f, h)

/-- The performance counters of the tiles that served a command: the manual fixes neither which tile served which
unit nor how long it took (R74, R142, R250), so they take free values. -/
def perfRegs (regs : List Nat) (tiles : List Nat) (h : Hw) : Hw :=
  tiles.foldl (fun h t => regs.foldl (fun h r => freeReg h (regOf (.tile t) r)) h) h

/-- The performance counters of a tile whose values the rates leave open, those of the vector engine and of the DMA engine
(Tables 5-8, 9-12). -/
def tilePerf : List Nat := [0x1010, 0x1014, 0x2008, 0x2010, 0x2014]

/-- The order in which staged copies are dropped (R230): the task of lowest class, then the highest TASK, then the
highest entry. -/
def dropsBefore (h : Hw) (x y : StagedCopy) : Bool :=
  let prio := fun (x : StagedCopy) =>
    (((h.streams.find? fun t => t.task = x.task).bind fun t => cmdAt h t.slot).map fun c => hPrio c.packet).getD 0
  if prio x ≠ prio y then decide (prio x < prio y)
  else if x.task ≠ y.task then decide (y.task < x.task) else decide (y.entry < x.entry)

def insertCopy (h : Hw) (x : StagedCopy) : List StagedCopy → List StagedCopy
  | [] => [x]
  | y :: ys => if dropsBefore h x y then x :: y :: ys else y :: insertCopy h x ys

/-- Drops copies, in order, until need credits are free. -/
def dropCopies (need held : Nat) : List StagedCopy → List StagedCopy
  | [] => []
  | x :: xs => if held + need ≤ 128 then x :: xs else dropCopies need (held - x.count) xs

/-- The command holding a tile takes the credits it needs, whose number is a free value, and they hold its staging from
then on (R61, R229, R230): staged copies that it does not read are dropped and counted. DESIGN CHOICE (log 21): which
copies of its own task a member reads is a free value. -/
def claimCredits (slot : Nat) (h : Hw) (t : Nat) : Hw :=
  if (tileAux h t).claimed.isSome then h else
  let h := sweepCopies h t
  let d := h.draws
  let all := liveCopies h t
  let reads := fun (x : StagedCopy) => (taskOf h slot).any fun s => s.task = x.task &&
    decide (Config.openValue 21 (d * 2 ^ 16 + 2 ^ 15 + x.entry) % 2 = 1)
  let may := (all.filter fun x => !reads x).foldl (fun xs x => insertCopy h x xs) []
  let need := Config.freeNat d % 129
  let left := dropCopies need (creditsOf all) may
  let h := if may.length = left.length then h else bumpSat h (regOf (.tile t) 0x2018) (may.length - left.length)
  let kept := all.filter reads ++ left
  let cs := pickCredits d need (freeCredits h t kept)
  let gone := (all.filter fun x => !kept.contains x).flatMap StagedCopy.credits
  let h := spoilCredits t (gone ++ cs) h
  let h := if all.any fun x => (taskOf h slot).any fun s => s.task = x.task then freeReg h (regOf (.tile t) 0x201C) else h
  setTileAux h t { tileAux h t with claimed := some cs, copies := kept }

/-- What the tiles of a command leave open once they work: stores and performance counters (R61, R74); and who shares its
rows (R137). -/
def beginTiles (slot : Nat) (c : Cmd) (h : Hw) : Hw :=
  let h := c.tiles.foldl (claimCredits slot) h
  perfRegs tilePerf c.tiles (modCmd h slot fun c => { c with team := c.crew })

/-! Staged copies (R229, R230, R247) -/

/-- Entries begin in ascending order, each once its AFTER member has finished (R247). -/
def entryBegun (h : Hw) (t : Stream) (i : Nat) : Bool := (t.entries.take (i + 1)).all fun e => memberDone h t e.after

def stCreditMax (p : List Byte) : Nat := parBits p 0xC 22 16

/-- A tile could take its copy of entry i now, but for credits: the tile is of its STAGE_MASK, the entry has begun, its
last user has not finished, and the memory part of kind 2 has. -/
def mayStage (h : Hw) (s : Stream) (units t i : Nat) (e : StreamEntry) : Bool :=
  e.kind ≠ 0 && e.stage.contains t && decide (0 < e.bytes) && tileReady h t && entryBegun h s i &&
  !(e.last ≠ 0 && memberDone h s e.last) && (e.kind = 1 || decide (unitsBefore s.entries (i + 1) ≤ units))

/-- The memory range of an entry's copy. -/
def StreamEntry.copyBase (e : StreamEntry) : Nat := if e.kind = 1 then e.src else e.dst

/-- The copy of entry i, in credits still to be given. -/
def copyOf (c : Cmd) (s : Stream) (i : Nat) (e : StreamEntry) : StagedCopy :=
  { opener := c.order, task := s.task, entry := i, last := e.last, base := e.copyBase, bytes := e.bytes, credits := [] }

/-- A tile holds a copy already. -/
def isStaged (h : Hw) (t : Nat) (x : StagedCopy) : Bool := (liveCopies h t).any fun y => { y with credits := [] } = x

/-- Credits allow a copy: those of the tile, and CREDIT_MAX of its task. -/
def creditsAllow (h : Hw) (c : Cmd) (t : Nat) (x : StagedCopy) : Bool :=
  let xs := liveCopies h t
  decide (creditsOf xs + cmdHeld h t + x.count ≤ 128) &&
  decide (creditsOf (xs.filter fun y => y.task = x.task) + x.count ≤ stCreditMax c.packet)

/-- The bytes of a copy go into its credits, 64 KiB to each. -/
def landCopy (t : Nat) (bs : List Byte) (cs : List Nat) (m : Mem) : Mem :=
  (List.zip cs (chunksOf 65536 bs)).foldl (fun m x => m.write .tile (tileKey t (x.1 * 65536)) x.2) m

/-- Copies are made in entry order as credits become free; the first that must wait stops those after it. A prefetch
counts as the access of its entry: a fault or poison that the read meets strikes the task (R248, R359, R499). -/
def stageTile (slot : Nat) (c : Cmd) (s : Stream) (h : Hw) (t : Nat) : Hw :=
  ((List.range s.entries.length).foldl (fun (r : Bool × Hw) i =>
    match r, s.entries[i]? with
    | (true, h), some e =>
      let x := copyOf c s i e
      if !mayStage h s c.doneUnits t i e || isStaged h t x then r
      else if !creditsAllow h c t x then (false, h)
      else match runOn (rd { whoOf slot c with board := t / 64 } x.base x.bytes) h with
        | (.ok bs, h) =>
          let cs := pickCredits h.draws x.count (freeCredits h t (liveCopies h t))
          (true, setTileAux { h with mem := landCopy t bs cs h.mem, draws := h.draws + 1 } t
            { tileAux h t with copies := (tileAux h t).copies ++ [{ x with credits := cs }] })
        | (.error f, h') => (false, takeFail h h' slot f)
    | _, _ => r) (true, sweepCopies h t)).2

/-- The tiles that receive copies, in ascending order. -/
def stageCopies (slot : Nat) (h : Hw) : Hw :=
  match cmdAt h slot, taskOf h slot with
  | some c, some s =>
    (((s.entries.flatMap StreamEntry.stage).eraseDups)).foldl (fun h t =>
      if (taskOf h slot).any fun s => s.fault.isSome || s.abort.isSome || s.ended then h else stageTile slot c s h t) h
  | _, _ => h

/-- Every live task stages what it still lacks, as credits have become free (R247). -/
def stageLive (h : Hw) : Hw := h.streams.foldl (fun h s => stageCopies s.slot h) h

/-- Staging of some live task waits for credits of a tile (DMA_STATUS.CREDIT_WAIT). -/
def creditWait (h : Hw) (t : Nat) : Bool :=
  h.streams.any fun s => s.fault.isNone && s.abort.isNone && (match cmdAt h s.slot with
    | none => false
    | some c => (List.range s.entries.length).any fun i => match s.entries[i]? with
      | none => false
      | some e => mayStage h s c.doneUnits t i e && !isStaged h t (copyOf c s i e) &&
          !creditsAllow h c t (copyOf c s i e))

/-! How work ends -/

/-- Failures that end a command as MEM_UNCORRECTABLE, which leaves its outputs undefined (Table 3-8, R499). -/
def Fail.spoils : Fail → Bool
  | .poison _ => true
  | .walkPoison _ => true
  | _ => false

/-- A unit ends early: poison leaves the outputs undefined (Table 3-8, R140, R165); a command that may stop at a fault
saves its progress first, and a fault met there comes before; then it ends or stops as the failure says. -/
def unitFailed (slot : Nat) (w : Work) (h : Hw) (f : Fail) : Hw :=
  match cmdAt h slot, f with
  | none, _ => h
  | some c, .xlate _ _ _ =>
    (match runOn (w.save c) h with
     | (.ok (), h) => takeFail h h slot f
     | (.error .wait, _) => takeFail h h slot f
     | (.error g, h) => takeFail h h slot g)
  | some _, _ => takeFail h (if f.spoils then spoilOutputs h slot else h) slot f

/-- At most k units, after what precedes the first one. -/
def runSome (slot : Nat) (w : Work) (k : Nat) (c : Cmd) (h : Hw) : Option Fail × Hw :=
  match runOn (if c.doneUnits = 0 then openWork slot w else pure ()) h with
  | (.error .wait, g) => (some .wait, waitsIn h g slot)
  | (.error f, h) => (some f, h)
  | (.ok (), h) => runUnits slot w k h

/-- Runs every remaining unit and ends the command; what ends early ends as the failure says. -/
def runWork (slot : Nat) (w : Work) (c : Cmd) (h : Hw) : Hw :=
  match runSome slot w (w.units - c.doneUnits) c h with
  | (some .wait, h) => h
  | (some f, h) => unitFailed slot w h f
  | (none, h) =>
    match cmdAt h slot with
    | none => h
    | some c =>
      match runOn (w.done c.flags c.tally) h with
      | (.ok r, h) => finish h slot r.1 r.2.1 r.2.2
      | (.error .wait, h) => h
      | (.error f, h) => unitFailed slot w h f

/-- Runs work that holds tiles; the credits that its end frees take staged copies. -/
def runTiles (slot : Nat) (w : Work) (c : Cmd) (h : Hw) : Hw := stageLive (runWork slot w c (beginTiles slot c h))

/-- A structure failure: BAD_PARAM with bit 63, the cause and the index, and the item's address (R249, R261). -/
def structFail (cause index addr : Nat) : Run α :=
  throw (.stop 0x11 (2 ^ 63 + cause * 2 ^ 48 + index) addr)

/-- The step key and the low step bits under which a command's random words are drawn (R105, R106). -/
def srOf (c : Cmd) (tensor stream index : Nat) : Word :=
  srWord c.key tensor index (c.step.toNat % 2 ^ 32) stream

end Sys2Proof.Machine
end

