-- ==== Sys2Proof/Machine/Compress.lean ====
section
/-! DEFINITION. Fixed-rate compression: blocks, regions, CMP_PACK and CMP_UNPACK (R252-R263), and the egress pipeline
with its stored objects (R264, R265). -/

namespace Sys2Proof.Machine

/-- Bits per code (Table 10-1). -/
def frBits : Nat → Nat
  | 0x0C => 4
  | 0x0D => 6
  | _ => 8

def frQmax (rate : Nat) : Nat := 2 ^ (frBits rate - 1) - 1

/-- Bytes of a block (Table 10-1). -/
def frBlock (rate : Nat) : Nat := 8 + 32 * frBits rate

def isRate (r : Nat) : Bool := r = 0x0C || r = 0x0D || r = 0x0E

/-- Bytes of an element of Table 10-4. -/
def srcElem : Nat → Nat
  | 2 => 1
  | 3 => 1
  | 4 => 2
  | 5 => 2
  | 6 => 4
  | _ => 8

def srcFmtOk (f : Nat) : Bool := decide (2 ≤ f) && decide (f ≤ 7)

/-- FR8 of an 8-bit source is refused (R257). -/
def rateOk (rate fmt : Nat) : Bool := isRate rate && !(rate = 0x0E && srcElem fmt = 1)

def segElems (fmt : Nat) : Nat := 2 ^ 20 / srcElem fmt

/-- ceil(n / d) for an exact positive value m × 2^e over d: the least integer at or above (m × 2^e) / d. -/
def ceilScaled (m : Nat) (e : Int) (d : Nat) : Nat :=
  if 0 ≤ e then ceilDiv (m <<< e.toNat) d else ceilDiv m (d <<< (-e).toNat)

/-- The step of a block (R254): MANT and EXP with 32768 ≤ MANT ≤ 65535, the least step with step × qmax ≥ amax. -/
def blockStep (m : Nat) (e : Int) (qmax : Nat) : Nat × Int :=
  let k0 : Int := (Nat.log2 m : Int) - Nat.log2 qmax + e - 1
  -- amax / qmax lies in [2^k0, 2^(k0+2)): the largest exponent x ≤ k0 + 3 whose MANT stays in range
  let try_ := fun (x : Int) => (ceilScaled m (e - (x - 16)) qmax, x)
  let a := try_ (k0 + 1)
  let b := try_ (k0 + 2)
  let c := try_ (k0 + 3)
  if a.1 ≤ 65535 then (max 32768 a.1, a.2)
  else if b.1 ≤ 65535 then (max 32768 b.1, b.2)
  else (max 32768 c.1, c.2)

/-- The quotient |x| / step rounded to an integer: to nearest, ties to even, or under a random word (R104). -/
def roundQuot (m : Nat) (e : Int) (mant : Nat) (exp : Int) (rnd : Option Word) : Nat :=
  let s := e - (exp - 16)
  let n := if 0 ≤ s then m <<< s.toNat else m
  let d := if 0 ≤ s then mant else mant <<< (-s).toNat
  let q := n / d
  let r := n % d
  match rnd with
  | none => if r * 2 > d ∨ (r * 2 = d ∧ q % 2 = 1) then q + 1 else q
  | some w => if 2 ^ 32 ≤ r * 2 ^ 32 / d + w.toNat then q + 1 else q

/-- An encoded block and the flags it raises. -/
structure FrBlock where
  bytes : List Byte
  flags : Nat
  deriving DecidableEq, Repr

def frHeader (rate : Nat) (nan : Bool) (mant : Nat) (exp : Int) : List Byte :=
  leBytes 8 (rate * 2 ^ 40 + nan.toNat * 2 ^ 32 + mant * 2 ^ 16 + enc2 16 exp)

/-- Codes of b bits, packed from bit 0 (R253). -/
def packCodes (b : Nat) (qs : List Int) : List Byte :=
  let n := qs.foldr (fun q acc => enc2 b q + 2 ^ b * acc) 0
  leBytes (32 * b) n

/-- encode_block (R254): elements as exact values, at most 256, with their random words under role 2. -/
def encodeBlock (rate role : Nat) (xs : List (Num × Option Word)) : FrBlock :=
  let b := frBits rate
  let qmax := frQmax rate
  let zeros := packCodes b (List.replicate 256 0)
  let bad := xs.any fun x => x.1.isNan || (role = 2 && match x.1 with | .inf _ => true | _ => false)
  if bad then FrBlock.mk (frHeader rate true 0 0 ++ zeros) (if role = 2 then outOvf ||| stepOvf else 0)
  else
    let amax := xs.foldl (fun a x => match x.1 with
      | .fin _ m e => if a.lt (.fin false m e) then .fin false m e else a
      | _ => a) numZero
    match amax with
    | .fin _ m e =>
      let sat := if xs.any (fun x => match x.1 with | .inf _ => true | _ => false) then outSat else 0
      if m = 0 then FrBlock.mk (frHeader rate false 0 0 ++ zeros) 0
      else
        let (mant, exp) := blockStep m e qmax
        let q := fun (x : Num × Option Word) => match x.1 with
          | .inf n => signed n qmax
          | .fin n xm xe => signed n (roundQuot xm xe mant exp (if role = 2 then x.2 else none))
          | .nan => 0
        FrBlock.mk (frHeader rate false mant exp ++
          packCodes b ((xs.map q) ++ List.replicate (256 - xs.length) 0)) sat
    | _ => FrBlock.mk (frHeader rate true 0 0 ++ zeros) 0

/-- The decoded values of a block with their flags (R255): NaN where the block or the code is not well formed. -/
def decodeBlock (rate : Nat) (bs : List Byte) : List (Num × Nat) :=
  let h := leAt bs 0 8
  let b := frBits rate
  let payload := leNat (bs.drop 8)
  let code := fun i => sext b (payload / 2 ^ (b * i))
  let mant := h / 2 ^ 16 % 2 ^ 16
  let exp := sext 16 h
  let nan := (h / 2 ^ 32 % 2 = 1)
  let malformed := decide (h / 2 ^ 48 ≠ 0) || decide (h / 2 ^ 33 % 2 ^ 7 ≠ 0) ||
    decide (h / 2 ^ 40 % 256 ≠ rate) || (decide (0 < mant) && decide (mant < 32768)) ||
    (mant = 0 && (exp ≠ 0 || decide (payload % 2 ^ (256 * b) ≠ 0)))
  (List.range 256).map fun i =>
    let q := code i
    if malformed || q = -(2 ^ (b - 1) : Nat) then (.nan, nanGen)
    else if nan then (.nan, 0)
    else (.fin (decide (q < 0)) (q.natAbs * mant) (exp - 16), 0)

/-! Regions -/

/-- One segment of a range: its rate (0 raw), its byte offset from the region base and its elements. -/
structure Seg where
  rate : Nat
  offset : Nat
  elems : Nat
  deriving DecidableEq, Repr

/-- Bytes of a segment (R257, R258). -/
def segBytes (rate fmt elems : Nat) : Nat :=
  if rate = 0 then ceilDiv (elems * srcElem fmt) 8 * 8 else ceilDiv elems 256 * frBlock rate

/-- Elements of segment i of a range of n elements. -/
def segCount (fmt n i : Nat) : Nat := min (segElems fmt) (n - i * segElems fmt)

/-! CMP_PACK and CMP_UNPACK -/

def cElems (p : List Byte) : Nat := par p 0x18 8
def cFirst (p : List Byte) : Nat := par p 0x20 4
def cFmt (p : List Byte) : Nat := par p 0x24 1
def cRate (p : List Byte) : Nat := par p 0x25 1
def cRole (p : List Byte) : Nat := par p 0x26 1 % 4
def cIndex (p : List Byte) : Nat := par p 0x10 8

def cmpExtra (pack : Bool) (_ : Hw) (_ : World) (p : List Byte) : List Nat :=
  (if 2 ^ 48 < cElems p then [0x58] else []) ++
  (if cRate p = 0xFF ∧ cIndex p = 0 then [0x50] else []) ++
  (if !srcFmtOk (cFmt p) ∨ !(cRate p = 0xFF ∨ rateOk (cRate p) (cFmt p)) ∨ par p 0x26 1 / 4 ≠ 0 then [0x64] else []) ++
  (if pack then
    (if cRole p = 3 then [0x64] else []) ++ (if par p 0x28 2 ≠ 0 then [0x68] else []) ++
    (if cRole p ≠ 2 ∧ par p 0x30 2 ≠ 0 then [0x70] else [])
   else
    (if cRole p ≠ 0 ∨ par p 0x27 1 ≠ 0 then [0x64] else []) ++
    (if par p 0x28 1 < 4 ∨ 7 < par p 0x28 1 then [0x68] else []) ++
    (if par p 0x30 2 ≠ 0 then [0x70] else [])) ++
  maskEmpty p 0x40

/-- Parameters of the compression class (Table 10-6). -/
def specCmp (pack : Bool) : PSpec :=
  { len := 2,
    fields := [fQ 0, fQ 8, fQ 0x10, fQW 0x18, fV 0x20 31 0, fV 0x24 17 0, fV 0x24 31 24, fV 0x28 15 0, fV 0x2C 31 0,
      fV 0x30 15 0] ++ fMask 0x40,
    aligns := [(if pack then 0x48 else 0x40, 8, 4096), (0x50, 8, 8)],
    extra := cmpExtra pack,
    secure := fun h p => maskSecure h p 0x40 }

/-- The segments of a command's range, checked under R259 and R261. -/
def cmpSegs (who : Who) (p : List Byte) (pack : Bool) : Run (List Seg) := do
  let fmt := cFmt p
  let n := cElems p
  let k := ceilDiv n (segElems fmt)
  if cRate p ≠ 0xFF then
    pure ((List.range k).map fun i =>
      Seg.mk (cRate p) ((cFirst p + i) * segBytes (cRate p) fmt (segElems fmt)) (segCount fmt n i))
  else
    let at_ := fun i => cIndex p + 8 * (cFirst p + i)
    let es ← (List.range k).mapM fun i => rdNat who (at_ i) 8
    let segs := (List.range k).map fun i => Seg.mk (es.getD i 0 % 256) (es.getD i 0 / 256) (segCount fmt n i)
    let bad := (List.range k).find? fun i =>
      let s := segs.getD i (Seg.mk 0 0 0)
      !(s.rate = 0 || rateOk s.rate fmt) || decide (s.offset % 8 ≠ 0)
    match bad with
    | some i => structFail 1 (cFirst p + i) (at_ i)
    | none =>
      if pack then
        pure ((segs.foldl (fun (acc : List Seg × Nat) s =>
          (acc.1 ++ [{ s with offset := acc.2 }], acc.2 + segBytes s.rate fmt s.elems))
          ([], (segs.headD (Seg.mk 0 0 0)).offset)).1)
      else
        let clash := (List.range (k - 1)).find? fun i =>
          let s := segs.getD i (Seg.mk 0 0 0)
          decide ((segs.getD (i + 1) (Seg.mk 0 0 0)).offset < s.offset + segBytes s.rate fmt s.elems)
        match clash with
        | some i => structFail 2 (cFirst p + i + 1) (at_ (i + 1))
        | none => pure segs

/-- The index entries that CMP_PACK writes (R261). -/
def packIndex (who : Who) (p : List Byte) (segs : List Seg) : Run (List (Nat × List Byte)) := do
  if cIndex p = 0 then pure []
  else
    let at_ := fun i => cIndex p + 8 * (cFirst p + i)
    if cRate p ≠ 0xFF then
      pure ((List.range segs.length).map fun i =>
        let s := segs.getD i (Seg.mk 0 0 0)
        (at_ i, leBytes 8 (s.offset * 256 + s.rate)))
    else
      let last := segs.getLastD (Seg.mk 0 0 0)
      let endRate ← rdNat who (at_ segs.length) 1
      let next := last.offset + segBytes last.rate (cFmt p) last.elems
      pure (((List.range (segs.length - 1)).map fun i =>
          let s := segs.getD (i + 1) (Seg.mk 0 0 0)
          (at_ (i + 1), leBytes 8 (s.offset * 256 + s.rate))) ++
        [(at_ segs.length, leBytes 8 (next * 256 + endRate))])

/-- Output brick i of CMP_PACK: sixteen blocks (R262). -/
def packUnit (slot : Nat) (c : Cmd) (i : Nat) : Run UnitOut := do
  let p := c.packet
  let who := whoOf slot c
  let fmt := cFmt p
  let e := srcElem fmt
  let segs ← cmpSegs who p true
  let j0 := i * 4096
  let n := min 4096 (cElems p - j0)
  let src ← rd who (par p 0 8 + j0 * e) (n * e)
  let s := segs.getD (j0 / segElems fmt) (Seg.mk 0 0 0)
  let rel := j0 % segElems fmt
  let base := par p 8 8 + s.offset
  let idx ← if i = 0 then packIndex who p segs else pure []
  if s.rate = 0 then
    let pad := if j0 % segElems fmt + n = s.elems then segBytes 0 fmt s.elems - s.elems * e else 0
    pure (UnitOut.one (idx ++ [(base + rel * e, src ++ List.replicate pad 0)]) 0 0)
  else
    let exp := sext 8 (par p 0x27 1)
    let el := fun j => ((elemNum fmt src j).scale exp,
      if cRole p = 2 then
        some (srOf c (par p 0x2C 4) (par p 0x30 2) (cFirst p * segElems fmt + j0 + j)) else none)
    let blocks := (List.range (ceilDiv n 256)).map fun b =>
      encodeBlock s.rate (cRole p) ((List.range (min 256 (n - 256 * b))).map fun k => el (256 * b + k))
    pure (UnitOut.one (idx ++ [(base + rel / 256 * frBlock s.rate, blocks.flatMap FrBlock.bytes)])
      (blocks.foldl (fun f b => f ||| b.flags) 0) 0)

/-- Converts a decoded element (R255). -/
def unpackElem (fmt : Nat) (exp : Int) (x : Num × Nat) : Nat × Nat :=
  let r := convert fmt false none (x.1.scale exp)
  (r.bits, x.2 ||| r.flags)

/-- Output brick i of CMP_UNPACK. -/
def unpackUnit (slot : Nat) (c : Cmd) (i : Nat) : Run UnitOut := do
  let p := c.packet
  let who := whoOf slot c
  let fmt := cFmt p
  let dst := par p 0x28 1
  let exp := sext 8 (par p 0x29 1)
  let segs ← cmpSegs who p false
  let j0 := i * 4096
  let n := min 4096 (cElems p - j0)
  let s := segs.getD (j0 / segElems fmt) (Seg.mk 0 0 0)
  let rel := j0 % segElems fmt
  let base := par p 0 8 + s.offset
  let xs ← if s.rate = 0 then do
      let src ← rd who (base + rel * srcElem fmt) (n * srcElem fmt)
      pure ((List.range n).map fun j => (elemNum fmt src j, 0))
    else do
      let src ← rd who (base + rel / 256 * frBlock s.rate) (ceilDiv n 256 * frBlock s.rate)
      pure (((chunksOf (frBlock s.rate) src).flatMap (decodeBlock s.rate)).take n)
  let ys := xs.map (unpackElem dst exp)
  pure (UnitOut.one [(par p 8 8 + j0 * srcElem dst, packElems dst (ys.map Prod.fst))]
    (ys.foldl (fun f y => f ||| y.2) 0) 0)

/-- What CMP_PACK or CMP_UNPACK writes. -/
def cmpOuts (who : Who) (p : List Byte) (pack : Bool) : Run (List (Nat × Nat)) := do
  if pack then
    let segs ← cmpSegs who p pack
    let idx ← packIndex who p segs
    pure ((segs.map fun s => (par p 8 8 + s.offset, segBytes s.rate (cFmt p) s.elems)) ++ idx.map fun w => (w.1, w.2.length))
  else pure [(par p 8 8, cElems p * srcElem (par p 0x28 1))]

/-- The index entries of a range, with the one after it that CMP_PACK writes. -/
def cmpIndexRange (p : List Byte) (pack : Bool) (segs : Nat) : List (Nat × Nat) :=
  if cIndex p = 0 then []
  else [(cIndex p + 8 * cFirst p, 8 * (segs + (pack && cRate p = 0xFF).toNat))]

/-- What CMP_PACK or CMP_UNPACK writes, where it overlaps the source, the index or its other destination (R262). -/
def cmpUndef (who : Who) (p : List Byte) (pack : Bool) : Run (List (Nat × Nat)) := do
  let fmt := cFmt p
  let segs ← cmpSegs who p pack
  let data := fun (base : Nat) => segs.map fun s => (base + s.offset, segBytes s.rate fmt s.elems)
  let idx := cmpIndexRange p pack segs.length
  let out ← cmpOuts who p pack
  if pack then
    undefIf (rangesMeet out [(par p 0 8, cElems p * srcElem fmt)] || rangesMeet (data (par p 8 8)) idx) out
  else undefIf (rangesMeet out (data (par p 0 8)) || rangesMeet out idx) out

def cmpWork (pack : Bool) (slot : Nat) (c : Cmd) : Work where
  pre := do let _ ← cmpSegs (whoOf slot c) c.packet pack
  units := ceilDiv (cElems c.packet) 4096
  unit := if pack then packUnit slot else unpackUnit slot
  done := fun flags _ => do
    let h ← get
    pure (0, flags &&& (outOvf ||| outSat ||| nanGen), (((cmdAt h slot).map Cmd.written).getD 0))
  undef := cmpUndef (whoOf slot c) c.packet pack
  outs := cmpOuts (whoOf slot c) c.packet pack

def execCmpPack (slot : SlotId) (s : State) : Host.Outcome State Fault Refusal :=
  onHw (withCmd slot.val 0x50 fun c h => runTiles slot.val (cmpWork true slot.val c) c h) s

def execCmpUnpack (slot : SlotId) (s : State) : Host.Outcome State Fault Refusal :=
  onHw (withCmd slot.val 0x51 fun c h => runTiles slot.val (cmpWork false slot.val c) c h) s

/-! The egress pipeline -/

/-- Slot of the key store that serves egress (R398). -/
def egressKey (h : Hw) (k : Nat) : Option EgressKey := smFind h.sec.egressKeys k

/-- A counter at 2^64 − 1 serves no further egress (R400). -/
def spentKey (k : EgressKey) : Bool := decide (2 ^ 64 - 1 ≤ k.counter)

/-- Whether a command of a world may use a slot for egress: the status it gets otherwise (R401). -/
def egressRefusal (h : Hw) (w : World) (k : Nat) (field : Nat) : Option (Nat × Nat) :=
  match (if 64 ≤ k then none else egressKey h k) with
  | none => some (0x11, field)
  | some e =>
    if spentKey e then some (0x11, field)
    else if e.world = .secure ∧ w = .nonSecure then some (0x13, 0) else none

/-- Takes the next NONCE of a slot (R265, R400). -/
def takeNonce (h : Hw) (k : Nat) : Nat × Hw :=
  match egressKey h k with
  | none => (0, h)
  | some e =>
    (e.counter, { h with sec := { h.sec with
      egressKeys := smPut h.sec.egressKeys k { e with counter := e.counter + 1 } } })

/-- The preamble of a stored object (R265). -/
def preamble (nonce objBytes rate fmt key : Nat) : List Byte :=
  let a := leBytes 8 nonce ++ leBytes 8 objBytes ++ leBytes 1 rate ++ leBytes 1 fmt ++ leBytes 1 key ++
    List.replicate 13 0
  a ++ shake256 a 32

/-- A preamble whose digest holds (R265). -/
def preambleOk (bs : List Byte) : Bool := bs.drop 32 == shake256 (bs.take 32) 32

/-- A stored unit: the ciphertext of a stream unit and its check bits (R265). -/
def sealUnit (k : EgressKey) (nonce u : Nat) (plain : List Byte) : List Byte :=
  let ct := aesXts false k.dataKey k.tweakKey (nonce * 2 ^ 64 + u) plain
  ct ++ shake256 (leBytes 8 nonce ++ leBytes 8 u ++ ct) 32

/-- The check bits of a stored unit hold. -/
def unitOk (nonce u : Nat) (bs : List Byte) : Bool :=
  bs.drop 4096 == shake256 (leBytes 8 nonce ++ leBytes 8 u ++ bs.take 4096) 32

/-- Opens a stored unit; nothing where its check bits fail. -/
def openUnit (k : EgressKey) (nonce u : Nat) (bs : List Byte) : Option (List Byte) :=
  if unitOk nonce u bs then some (aesXts true k.dataKey k.tweakKey (nonce * 2 ^ 64 + u) (bs.take 4096)) else none

def storedBytes (streamBytes : Nat) : Nat := 64 + 4128 * (streamBytes / 4096)

/-- Pads to a 4 KiB multiple. -/
def pad4k (bs : List Byte) : List Byte := bs ++ List.replicate (ceilDiv bs.length 4096 * 4096 - bs.length) 0

/-- A segment of an object's stream: elements of a source under a rate, activation role (R264). -/
def encodeSeg (rate fmt : Nat) (src : List Byte) (n : Nat) : List Byte :=
  if rate = 0 then src ++ List.replicate (segBytes 0 fmt n - src.length) 0
  else (List.range (ceilDiv n 256)).flatMap fun b =>
    (encodeBlock rate 0 ((List.range (min 256 (n - 256 * b))).map fun k =>
      (elemNum fmt src (256 * b + k), none))).bytes

/-- The segments of an object of n elements with their offsets from the end of the padded index. -/
def objSegs (fmt n : Nat) (rates : List Nat) : List Seg :=
  ((List.range rates.length).foldl (fun (acc : List Seg × Nat) i =>
    let r := rates.getD i 0
    let k := segCount fmt n i
    (acc.1 ++ [Seg.mk r acc.2 k], acc.2 + segBytes r fmt k)) ([], 0)).1

/-- Bytes of the padded index of an object with per-segment rates. -/
def objIndexBytes (segs : Nat) : Nat := ceilDiv (8 * segs) 4096 * 4096

end Sys2Proof.Machine
end

