-- ==== Sys2Proof/Machine/Layout.lean ====
section
/-! DEFINITION. Pawn layout (R203, R204), the stripes of pawn operands and their checks (R206), and the brick layout
of weight operands (R231, Table 9-2). -/

namespace Sys2Proof.Machine

/-- A 2 MiB stripe. -/
def stripeBytes : Nat := 2 ^ 21

/-- The byte of element i of a pawn operand at base b whose elements are q 32nds of a byte (R203, R204). -/
def pawnAddrQ (b q i : Nat) : Nat :=
  let c := i / 2048
  let p := c % 512
  let l := c / 512 * (64 * q) + i % 2048 * q / 32
  let k := l / 1024
  b + k / 4 * stripeBytes + p % 16 * 0x20000 + k % 4 * 0x8000 + p / 16 * 0x400 + l % 1024

/-- Stripes of an operand of n elements of q 32nds of a byte (R203). -/
def stripesOfQ (n q : Nat) : Nat := ceilDiv (ceilDiv (ceilDiv n 2048) 512 * q) 64

/-- As above, for elements of ebits bits. -/
def pawnAddr (b ebits i : Nat) : Nat := pawnAddrQ b (4 * ebits) i
def stripesOf (n ebits : Nat) : Nat := stripesOfQ n (4 * ebits)

/-- Runs of elements [i, i + n) of an operand that lie at consecutive bytes: first element, count. A run ends with a
pawn-local row or a chunk. -/
def pawnRuns (ebits i n : Nat) : List (Nat × Nat) :=
  pieces (min 2048 (if ebits = 0 then 2048 else 8192 / ebits)) i n

/-- Bytes of a run of n elements. -/
def runBytes (ebits n : Nat) : Nat := ceilDiv (n * ebits) 8

/-- The bytes of a pawn-layout operand that hold elements. -/
def pawnRanges (b ebits n : Nat) : List (Nat × Nat) :=
  (pawnRuns ebits 0 n).map fun r => (pawnAddr b ebits r.1, runBytes ebits r.2)

/-- A stripe's mapping: the level of its leaf and where it leads. -/
def xlateStripe (who : Who) (va : Nat) (acc : Acc) : Run (Nat × Bool × Nat) := do
  let h ← get
  let r := regimeOf who.world
  if 2 ^ 48 ≤ va ∨ !regimeEnabled h r then throw (.xlate va acc false)
  match leafFor h who va with
  | (.leaf l _ e, h) =>
    set h
    if leafAllows e acc then
      pure (l, decide (e / 16 % 4 = 1), e / 2 ^ 8 % 2 ^ 44 * 2 ^ 8 + va % 2 ^ levelShift l)
    else throw (.xlate va acc false)
  | (.absent _ _, h) => do set h; throw (.xlate va acc true)
  | (.broken, h) => do set h; throw (.xlate va acc false)
  | (.poisoned, h) => do set h; throw (.walkPoison va)
  | (.held a, h) => do set (noteHeld h who a); throw .wait

/-- The stack offset and the device physical address of a stripe that is mapped as R203 asks: by a 2 MiB or 1 GiB page, 2 MiB-aligned, in a pawn
region. Nothing where it breaks that rule; a stripe of a secure region is refused to a non-secure ring (R206). -/
def stripeAt (who : Who) (va : Nat) (acc : Acc) : Run (Option (Nat × Nat × Nat)) := do
  let (l, host, pa) ← xlateStripe who va acc
  let h ← get
  if host then pure none
  else if who.world = .nonSecure ∧ regionSecure h pa then do
    set (logBoard h { who with va := va } 2 pa (match decodePa h pa with | .hbm s _ => s / 8 | _ => 1))
    throw (.world va)
  else if l = 3 ∨ pa % stripeBytes ≠ 0 ∨ !octetPawn h (pa / 2 ^ 33) then pure none
  else match decodePa h pa with
    | .hbm s y => pure (some (s, y, pa))
    | _ => pure none

/-- Reads elements [i, i + n) of a pawn operand: their bytes in element order. -/
def rdPawn (who : Who) (b ebits i n : Nat) : Run (List Byte) :=
  go [] (pawnRuns ebits i n)
where
  go (acc : List Byte) : List (Nat × Nat) → Run (List Byte)
    | [] => pure acc
    | p :: ps => do
      let bs ← rd who (pawnAddr b ebits p.1) (runBytes ebits p.2)
      go (acc ++ bs) ps

/-- The writes that put bytes of elements [i, i + n) in their places. -/
def pawnWrites (b ebits i n : Nat) (bs : List Byte) : List (Nat × List Byte) :=
  go bs (pawnRuns ebits i n)
where
  go (bs : List Byte) : List (Nat × Nat) → List (Nat × List Byte)
    | [] => []
    | p :: ps =>
      let k := runBytes ebits p.2
      (pawnAddr b ebits p.1, bs.take k) :: go (bs.drop k) ps

/-! Bricks -/

/-- Bytes of a brick (Table 9-2). -/
def brickPitch (fmt : Nat) : Nat := if fmt = 1 then 2176 else 64 * 64 * containerBits fmt / 8

/-- Element (k, n) of a brick's bytes. -/
def brickElem (fmt : Nat) (bs : List Byte) (k n : Nat) : Nat :=
  if fmt = 1 then leAt bs (k / 2 * 64 + n) 1 / (if k % 2 = 0 then 1 else 16) % 16
  else elemBits fmt bs (k * 64 + n)

/-- The scale byte of element (k, n) of an FP4 brick. -/
def brickScale (bs : List Byte) (k n : Nat) : Nat := leAt bs (2048 + k / 32 * 64 + n) 1

/-- The bytes of a brick from its elements and, for FP4, its scales (k group, n). -/
def brickBytes (fmt : Nat) (el : Nat → Nat → Nat) (sc : Nat → Nat → Nat) : List Byte :=
  if fmt = 1 then
    (List.range 2048).map (fun i => BitVec.ofNat 8 (el (i / 64 * 2) (i % 64) + 16 * el (i / 64 * 2 + 1) (i % 64))) ++
    (List.range 128).map (fun i => BitVec.ofNat 8 (sc (i / 64) (i % 64)))
  else packElems fmt ((List.range 4096).map fun i => el (i / 64) (i % 64))

end Sys2Proof.Machine
end

