-- ==== Sys2Proof/Machine/Cells.lean ====
section
/-! DEFINITION. A cell as its 256 bytes (R298, Tables 12-2, 12-5, 12-9), its CRC-32, and link encryption (R303, R400):
AES-256-GCM. -/

namespace Sys2Proof.Machine

/-! Layout -/

/-- The payload of a KEEPALIVE (Table 12-5). -/
def keepaliveBytes (p : KeepalivePay) : List Byte :=
  leBytes 8 p.serial.toNat ++
  leBytes 4 (p.nodeId.toNat + p.port.toNat * 2 ^ 16 + p.pkgState.toNat * 2 ^ 20 + p.mapActive.toNat * 2 ^ 24) ++
  leBytes 4 p.epoch.toNat ++ leBytes 8 p.posTag.toNat ++ leBytes 4 p.linkEpoch.toNat ++ List.replicate 212 0

/-- The payload of a SETUP (Table 12-9). -/
def setupBytes (p : SetupPay) : List Byte :=
  leBytes 8 p.posTag.toNat ++ leBytes 4 p.epoch.toNat ++ leBytes 4 p.stepLo.toNat ++ leBytes 4 p.tag.toNat ++
  leBytes 4 (p.opcode.toNat + p.group.toNat * 2 ^ 8 + p.mapActive.toNat * 2 ^ 12 + p.senderCtx.toNat * 2 ^ 16) ++
  leBytes 4 p.count.toNat ++
  leBytes 4 (p.inFmt.toNat + p.outFmt.toNat * 2 ^ 8 + p.op.toNat * 2 ^ 16 + p.outRole.toNat * 2 ^ 18 +
    p.rowUnits.toNat * 2 ^ 20) ++
  leBytes 4 (p.root.toNat + p.senderRank.toNat * 2 ^ 16) ++ leBytes 4 p.size.toNat ++ List.replicate 200 0

/-- The bytes of a payload that the manual lays out, from the payload's start. -/
def laidOut : Payload → List Byte
  | .keepalive p => keepaliveBytes p
  | .setup p => setupBytes p
  | .data p => p.bytes
  | .dtWrite _ _ _ bs => bs
  | .dtResp bs => bs
  | _ => []

/-- The content of a payload as numbers. -/
def payloadCode : Payload → List Nat
  | .none => [0]
  | .keepalive p => 1 :: (keepaliveBytes p).map BitVec.toNat
  | .setup p => 2 :: (setupBytes p).map BitVec.toNat
  | .close p => [3, p.up.toNat, p.stepLo.toNat, p.status.toNat, p.agree.toNat, p.senderRank.toNat]
  | .abort p => [4, p.status.toNat, p.rank.toNat, p.cause.toNat, p.addr.toNat]
  | .data p => 5 :: p.level :: p.bytes.map BitVec.toNat
  | .dtRead w off n s => [6, w.toNat, off.toNat, n, s.toNat]
  | .dtWrite w off s bs => 7 :: w.toNat :: off.toNat :: s.toNat :: bs.map BitVec.toNat
  | .dtResp bs => 8 :: bs.map BitVec.toNat
  | .dtAck a => [9, (match a with | .acked => 0 | .refused => 1 | .error => 2)]
  | .ckpt (.openSlot n) => [10, n]
  | .ckpt (.units pos bs) => 11 :: pos :: bs.map BitVec.toNat
  | .ckpt (.record bs) => 12 :: bs.map BitVec.toNat
  | .ckpt (.reply a) => [13, a.toNat]
  | .ckpt .askRecords => [15]
  | .ckpt (.held i r) => 16 :: i :: r.isSome.toNat :: (r.getD []).map BitVec.toNat
  | .ckpt (.askPiece n) => [17, n]
  | .ckpt (.askDigest n) => [18, n]
  | .ckpt (.digest d) => 19 :: d.isSome.toNat :: (d.getD []).map BitVec.toNat
  | .serial n => [14, n.toNat]

/-- The 240 payload bytes of a cell: what the manual lays out, and free bytes where it gives no layout (log 85). -/
def payloadBytes (p : Payload) : List Byte :=
  let bs := (laidOut p).take 240
  bs ++ (List.range (240 - bs.length)).map fun i => Config.cellByte (payloadCode p) (bs.length + i)

/-- Bytes 0x00 to 0x0B of a cell (Table 12-2). -/
def cellHead (c : Cell) : List Byte :=
  leBytes 4 (c.type.toNat * 2 ^ 28 + c.vc.toNat * 2 ^ 26 + c.seq.toNat * 2 ^ 12 + c.ack.toNat) ++
  leBytes 4 (c.crVc.toNat * 2 ^ 30 + c.crCnt.toNat * 2 ^ 20 + c.enc.toNat * 2 ^ 19 + c.map.toNat * 2 ^ 16 +
    c.ctx.toNat) ++
  leBytes 4 (c.hops.toNat * 2 ^ 26 + c.index.toNat)

/-- CRC-32 over bytes 0x00 to 0xFB of a cell (R298). -/
def cellCrc (c : Cell) : Word := crc32 (cellHead c ++ c.wire)

/-- A cell as it leaves: its last word is the CRC of the rest. -/
def crcCell (c : Cell) : Cell := { c with crc := cellCrc c }

/-- The CRC of an arriving cell holds. -/
def crcOk (c : Cell) : Bool := c.crc = cellCrc c

/-! Control frames (Table 17-4) -/

/-- Bytes 0 to 27 of a frame of a TYPE. -/
def frameHead (type : Nat) (f : Frame) : List Byte :=
  [BitVec.ofNat 8 type, f.seq, f.ack, BitVec.ofNat 8 (f.prio.toNat * 64 + f.payload.length)] ++ f.payload ++ f.pad

/-- A frame as it leaves: padded with zeros, its last word the CRC of the rest. -/
def crcFrame (type : Nat) (f : Frame) : Frame :=
  let f := { f with pad := List.replicate (24 - f.payload.length) 0 }
  { f with crc := crc32 (frameHead type f) }

/-- The CRC of an arriving frame holds. -/
def frameCrcOk (type : Nat) (f : Frame) : Bool := f.crc = crc32 (frameHead type f)

/-! Flits (R408) -/

/-- What data wire w carries in UI u of a flit. -/
def wireBit (bytes : List Byte) (u w : Nat) : Bool := (bytes.getD (8 * u + w / 8) 0).getLsbD (w % 8)

/-- The valid wire marks a flit: it is high in every UI of one, and low otherwise. -/
def isFlit (valid : Byte) : Bool := (List.range 8).all fun u => valid.getLsbD u

/-- The track wire in UI u of a flit: even parity over the 64 data wires. -/
def trackBit (bytes : List Byte) (u : Nat) : Bool :=
  (List.range 64).foldl (fun p w => p ^^ wireBit bytes u w) false

/-- The end-to-end code of a flit holds (R409): every UI agrees with its track wire. -/
def flitOk (bytes : List Byte) (track : Byte) : Bool :=
  (List.range 8).all fun u => trackBit bytes u == track.getLsbD u

/-! AES-256-GCM -/

/-- A number from bytes, the first the most significant. -/
def beNat (bs : List Nat) : Nat := bs.foldl (fun n b => n * 256 + b) 0

def beBytes (n v : Nat) : List Nat := (nats (leBytes n v)).reverse

/-- Multiplication of two blocks in the field of GHASH, the first bit of a block being its most significant. -/
def ghashMul (x y : Nat) : Nat :=
  ((List.range 128).foldl (fun (s : Nat × Nat) i =>
    (if x.testBit (127 - i) then s.1 ^^^ s.2 else s.1,
     if s.2 % 2 = 1 then (s.2 / 2) ^^^ (0xE1 * 2 ^ 120) else s.2 / 2)) (0, y)).1

def ghash (h : Nat) (bs : List Nat) : Nat := (chunksOf 16 bs).foldl (fun y b => ghashMul (y ^^^ beNat b) h) 0

/-- Whole blocks: zeros up to a multiple of 16 bytes. -/
def padBlocks (bs : List Nat) : List Nat := bs ++ List.replicate ((16 - bs.length % 16) % 16) 0

/-- GCM's counter mode under a 96-bit IV: enciphers and deciphers. -/
def gcmCrypt (keys : List (List Nat)) (iv bs : List Nat) : List Nat :=
  xorBytes bs ((List.range (ceilDiv bs.length 16)).flatMap fun i => aesEnc keys (iv ++ beBytes 4 (i + 2)))

/-- The 16-byte tag of GCM over additional data and ciphertext. -/
def gcmTag (keys : List (List Nat)) (iv aad bs : List Nat) : List Nat :=
  let h := beNat (aesEnc keys (List.replicate 16 0))
  let lens := beBytes 8 (8 * aad.length) ++ beBytes 8 (8 * bs.length)
  xorBytes (beBytes 16 (ghash h (padBlocks aad ++ padBlocks bs ++ lens))) (aesEnc keys (iv ++ beBytes 4 1))

def bytesOf (ns : List Nat) : List Byte := ns.map (BitVec.ofNat 8)

/-- The IV of a cell (R303): the salt, then the 64-bit counter; little-endian (R9). -/
def linkIv (salt : Word) (counter : Nat) : List Nat := nats (leBytes 4 salt.toNat ++ leBytes 8 counter)

/-- The additional data of a cell (R303). -/
def cellAad (c : Cell) : List Nat := nats (cellHead { c with seq := 0, ack := 0, crVc := 0, crCnt := 0 })

/-- A cell under link encryption: 224 enciphered bytes, then the tag. -/
def sealCell (key : List Byte) (salt : Word) (counter : Nat) (c : Cell) : Cell :=
  let keys := aesKeys (nats key)
  let iv := linkIv salt counter
  let x := gcmCrypt keys iv (nats (c.wire.take 224))
  { c with wire := bytesOf (x ++ gcmTag keys iv (cellAad c) x) }

/-- An arriving encrypted cell with its payload deciphered; none where its tag fails. -/
def openCell (key : List Byte) (salt : Word) (counter : Nat) (c : Cell) : Option Cell :=
  let keys := aesKeys (nats key)
  let iv := linkIv salt counter
  let x := nats (c.wire.take 224)
  if nats (c.wire.drop 224) = gcmTag keys iv (cellAad c) x then
    some { c with wire := bytesOf (gcmCrypt keys iv x) ++ List.replicate 16 0 }
  else none

/-- The counter value of a direction (R400): bit 63 is 1 for cells of the end with the larger SERIAL. -/
def linkCounter (larger : Bool) (n : Nat) : Nat := larger.toNat * 2 ^ 63 + n % 2 ^ 63

end Sys2Proof.Machine
end

