-- ==== Sys2Proof/Machine/Ports.lean ====
section
/-! DEFINITION. Ports, cells and credits (R294-R303), route maps (R308, R309, R319) and the requester's side of
deep-tier transfers. -/

namespace Sys2Proof.Machine

def rPort (q rel : Nat) : Nat := regOf (.port q) rel
def portAux (h : Hw) (q : Nat) : PortAux := smGet PortAux.reset h.ports q
def setPortAux (h : Hw) (q : Nat) (a : PortAux) : Hw := { h with ports := smSet PortAux.reset h.ports q a }

/-- PORT_STATUS.STATE (Table 12-1). -/
def portState (h : Hw) (q : Nat) : Nat := regFld h (rPort q 0) 2 0
def setPortState (h : Hw) (q st : Nat) : Hw := setRegFld h (rPort q 0) 2 0 st
def portUp (h : Hw) (q : Nat) : Bool := portState h q = 4

/-- A port runs, sending and accepting cells, only with all 16 lanes locked in each direction (R296). -/
def portRuns (h : Hw) (q : Nat) : Bool :=
  portUp h q && h.supplies.refclkSys && getReg h (rPort q 0x3C) = BitVec.ofNat 32 allBits

/-! Route maps: live copies (Table 12-16) -/

def rMap (m rel : Nat) : Nat := regOf (.map m) (0x800 + rel)
def mapCtrl (h : Hw) (m : Nat) : Word := getReg h (rMap m 0)
def mapValid (h : Hw) (m : Nat) : Bool := bit (mapCtrl h m) 12
def mapSecure (h : Hw) (m : Nat) : Bool := bit (mapCtrl h m) 31
def mapPorts (h : Hw) (m : Nat) : List Nat := (List.range 12).filter fun q => bit (mapCtrl h m) q
def mapSlot (h : Hw) (m i : Nat) : Word := getReg h (rMap m (0x40 + 4 * i))
def slotValid (w : Word) : Bool := bit w 15
def slotEnc (w : Word) : Bool := bit w 14
def slotKey (w : Word) : Nat := fld w 13 8
def slotPort (w : Word) : Nat := fld w 3 0

def mapActive (h : Hw) : Nat := regFld h 0x504004 1 0

/-- Whether a port's slot in a map encrypts, with its key slot. -/
def encOn (h : Hw) (m q : Nat) : Option Nat :=
  (List.range 16).findSome? fun s =>
    let w := mapSlot h m s
    if slotValid w && slotPort w = q && slotEnc w then some (slotKey w) else none

/-- The key of a slot of a map that a port sends and receives under, with the key slot (R303). -/
def linkKeyOn (h : Hw) (m q : Nat) : Option (Nat × LinkKey) :=
  (encOn h m q).bind fun k => (smFind h.sec.linkKeys k).map fun key => (k, key)

/-! Cells -/

/-- Types 0x3 to 0xB are sequenced (Table 12-3). -/
def isSequenced (t : Nat) : Bool := decide (3 ≤ t) && decide (t ≤ 11)

/-- The virtual channel of a type (Table 12-3). -/
def vcOf (t : Nat) : Nat := if t = 6 then 1 else if t = 7 ∨ t = 8 ∨ t = 9 then 2 else if t = 10 ∨ t = 11 then 3 else 0

/-- A cell of a type with a payload and every other field 0. -/
def blankCell (t : Nat) (pay : Payload) : Cell :=
  { type := BitVec.ofNat 4 t, vc := BitVec.ofNat 2 (vcOf t), seq := 0, ack := 0, crVc := 0, crCnt := 0, enc := false,
    map := 0, ctx := 0, hops := 0, index := 0, payload := pay, wire := payloadBytes pay, crc := 0 }

/-- ACK and the credits that a leaving cell carries; DESIGN CHOICE (log 18): those of the lowest channel that owes
any. -/
def stampCell (a : PortAux) (c : Cell) : Cell × PortAux :=
  match (List.range 4).find? fun v => decide (0 < a.owed.getD v 0) with
  | none => ({ c with ack := BitVec.ofNat 12 a.rxSeq, crVc := 0, crCnt := 0 }, a)
  | some v =>
    let n := min 1023 (a.owed.getD v 0)
    ({ c with ack := BitVec.ofNat 12 a.rxSeq, crVc := BitVec.ofNat 2 v, crCnt := BitVec.ofNat 10 n },
      { a with owed := a.owed.set v (a.owed.getD v 0 - n) })

/-- A counter register of cells: the count over 65,536, wrapping (Table 12-14). -/
def cellCount (h : Hw) (q rel n : Nat) : Hw := setReg h (rPort q rel) (BitVec.ofNat 32 (n / 65536))

/-- A cell leaves the port, with the CRC of what it carries (R298). -/
def emitCell (h : Hw) (q : Nat) (c : Cell) : Hw :=
  let a := portAux h q
  let (c, a) := stampCell a c
  let h := setPortAux h q { a with out := a.out ++ [crcCell c], txCount := a.txCount + 1 }
  cellCount h q 0x2C (a.txCount + 1)

/-- The waiting cell that may leave next (R300): VC0, then VC3, then VC1 and VC2 in turn, each with a credit, while
the replay buffer has room (R301). -/
def nextCell (a : PortAux) : Option Cell :=
  if 2048 ≤ a.replay.length then none
  else
    let of := fun v => if 0 < a.credits.getD v 0 then a.queue.find? (fun c => c.vc.toNat = v) else none
    (of 0).or ((of 3).or (if a.lowTurn then (of 2).or (of 1) else (of 1).or (of 2)))

/-- A cell that a slot encrypts is sealed as it takes its sequence number: the counter of the direction and key slot
advances once (R303, R400). -/
def sealOut (h : Hw) (q : Nat) (c : Cell) : Cell × Hw :=
  match (if c.enc then linkKeyOn h c.map.toNat q else none) with
  | none => (c, h)
  | some (k, key) =>
    let a := portAux h q
    let n := smGet 0 a.encTx k
    (sealCell key.key key.salt (linkCounter a.larger n) c, setPortAux h q { a with encTx := smPut a.encTx k (n + 1) })

/-- Sends waiting cells while credits last (the fuel is the queue's length). -/
def pumpPort : Nat → Hw → Nat → Hw
  | 0, h, _ => h
  | f + 1, h, q =>
    match (if portRuns h q then nextCell (portAux h q) else none) with
    | none => h
    | some c =>
      let v := c.vc.toNat
      let (c', h) := sealOut h q c
      let a := portAux h q
      let seq := (a.txSeq + 1) % 4096
      let c' := { c' with seq := BitVec.ofNat 12 seq }
      let h := setPortAux h q { a with
        txSeq := seq, queue := a.queue.erase c, replay := a.replay ++ [c'],
        credits := a.credits.set v (a.credits.getD v 0 - 1),
        lowTurn := if v = 1 then true else if v = 2 then false else a.lowTurn }
      pumpPort f (emitCell h q c') q

/-- Hands a sequenced cell to a port; one that is not UP carries none (R297). -/
def sendCell (h : Hw) (q : Nat) (c : Cell) : Hw :=
  if portUp h q then
    let a := portAux h q
    pumpPort (a.queue.length + 1) (setPortAux h q { a with queue := a.queue ++ [c] }) q
  else h

/-- Drops acknowledged cells from the replay buffer: those at or before ACK in sequence order. -/
def ackCells (a : PortAux) (ack : Nat) : PortAux :=
  let keep := a.replay.filter fun c => decide (2048 ≤ (ack + 4096 - c.seq.toNat) % 4096)
  { a with replay := keep, acked := if keep.length < a.replay.length then ack else a.acked }

/-- The ACK and the credits of any arriving cell (R300, R301), then what they let leave. -/
def takeAck (h : Hw) (q : Nat) (c : Cell) : Hw :=
  let a := ackCells (portAux h q) c.ack.toNat
  let v := c.crVc.toNat
  let a := { a with credits := a.credits.set v (a.credits.getD v 0 + c.crCnt.toNat) }
  pumpPort (a.queue.length + 1) (setPortAux h q a) q

/-- A NAK names the last good cell (R301). The bound of one NAK per 1 µs is timing. -/
def sendNak (h : Hw) (q : Nat) : Hw := emitCell h q (blankCell 2 .none)

/-- The sender resends every cell after ACK, changed only in ACK and credits (R301). -/
def resendCells (h : Hw) (q : Nat) : Hw :=
  let h := (portAux h q).replay.foldl (fun h c => emitCell h q c) h
  bumpSat h (rPort q 0x20) 1

/-- A sequenced cell arrives (R301): accepted in order, or discarded with a NAK. -/
def acceptSeq (h : Hw) (q : Nat) (c : Cell) : Bool × Hw :=
  let a := portAux h q
  if c.seq.toNat = (a.rxSeq + 1) % 4096 then
    (true, setPortAux h q { a with rxSeq := c.seq.toNat })
  else (false, sendNak h q)

/-- A buffer of the receiver is free again: its credit is owed (R300). -/
def freeBuffer (h : Hw) (q v : Nat) : Hw :=
  let a := portAux h q
  setPortAux h q { a with owed := a.owed.set v (a.owed.getD v 0 + 1) }

/-- Counts an arriving cell. -/
def countRx (h : Hw) (q : Nat) : Hw :=
  let a := portAux h q
  cellCount (setPortAux h q { a with rxCount := a.rxCount + 1 }) q 0x30 (a.rxCount + 1)

/-- A group of a map (R309). -/
structure Group where
  size : Nat
  rank : Nat
  dims : List (Nat × Nat × Nat)
  deriving DecidableEq, Repr

/-- Dimensions as (SIZE_LOG2, NEXT_SLOT, PREV_SLOT). -/
def groupOf (h : Hw) (m g : Nat) : Group :=
  let r := fun o => getReg h (rMap m (0x100 + 0x40 * g + o))
  { size := fld (r 0) 16 0, rank := fld (r 4) 15 0,
    dims := (List.range (fld (r 4) 18 16)).map fun d =>
      (fld (r (8 + 4 * d)) 2 0, fld (r (8 + 4 * d)) 11 8, fld (r (8 + 4 * d)) 15 12) }

/-- Rank bits of a group. -/
def Group.bits (g : Group) : Nat := Nat.log2 g.size

/-- The dimension of rank bit k, with the bit's place in its coordinate. -/
def Group.dimOf (g : Group) (k : Nat) : Option ((Nat × Nat × Nat) × Nat) :=
  go g.dims k
where
  go : List (Nat × Nat × Nat) → Nat → Option ((Nat × Nat × Nat) × Nat)
    | [], _ => none
    | d :: ds, k => if k < d.1 then some (d, k) else go ds (k - d.1)

/-- A way to a partner: the map slot it leaves on and the distance. -/
structure Route where
  slot : Nat
  dist : Nat
  deriving DecidableEq, Repr

/-- The ways from a member to its partner of bit k (R319): two for the top bit of a dimension of four or more. -/
def Group.routes (g : Group) (k : Nat) : List Route :=
  match g.dimOf k with
  | none => []
  | some (d, i) =>
    if i + 1 = d.1 ∧ 2 ≤ d.1 then [Route.mk d.2.1 (2 ^ i), Route.mk d.2.2 (2 ^ i)]
    else if g.rank.testBit k then [Route.mk d.2.2 (2 ^ i)] else [Route.mk d.2.1 (2 ^ i)]

/-- The slot on which a cell that arrived on a port travels on in its direction (R319): the lowest group and
dimension of the map that name the port's slot. -/
def onwardSlot (h : Hw) (m q : Nat) : Option Nat :=
  let arrives := fun s => slotValid (mapSlot h m s) && slotPort (mapSlot h m s) = q
  let dims := (List.range 8).flatMap fun g => (groupOf h m g).dims
  dims.findSome? fun d =>
    if d.1 < 2 then none
    else if arrives d.2.2 then some d.2.1 else if arrives d.2.1 then some d.2.2 else none

/-- A cell leaves on a slot of a map, encrypted where the slot is (R303). DEDUCED (log 85): with no key in the slot it
cannot leave. -/
def sendOnSlot (h : Hw) (m s : Nat) (c : Cell) : Hw :=
  let w := mapSlot h m s
  let q := slotPort w
  if !portUp h q ∨ (slotEnc w ∧ (smFind h.sec.linkKeys (slotKey w)).isNone) then h
  else sendCell h q { c with map := BitVec.ofNat 2 m, enc := slotEnc w }

/-- An arriving cell with its payload in the clear (R303); none where the tag of an encrypted one fails, or this end has
no such key in use. -/
def clearCell (h : Hw) (q : Nat) (c : Cell) : Option Cell :=
  if !c.enc then some c
  else (linkKeyOn h c.map.toNat q).bind fun k =>
    let a := portAux h q
    openCell k.2.key k.2.salt (linkCounter (!a.larger) (smGet 0 a.encRx k.1)) c

/-- A cell carries the content that its bytes spell, as far as the manual lays it out. -/
def spelt (c : Cell) : Bool :=
  let bs := (laidOut c.payload).take (if c.enc then 224 else 240)
  c.wire.take bs.length == bs

/-- The counter of a direction and key slot advances with an encrypted cell received (R303). -/
def countEnc (h : Hw) (q : Nat) (c : Cell) : Hw :=
  match (if c.enc then encOn h c.map.toNat q else none) with
  | none => h
  | some k =>
    let a := portAux h q
    setPortAux h q { a with encRx := smPut a.encRx k (smGet 0 a.encRx k + 1) }


/-! Deep-tier requests (R226, R237, R299) -/

/-- Blocks of 512 bytes that a range meets: one tag for each (R226). -/
def tagsFor (off len : Nat) : Nat := if len = 0 then 0 else (off + len - 1) / 512 + 1 - off / 512

/-- Bytes of a read by INDEX, in order. -/
def inOrder (ps : List (Nat × List Byte)) : List Byte :=
  (List.range ps.length).flatMap fun i => ((ps.find? fun p => p.1 = i).map Prod.snd).getD []

/-- Tags that a request holds: of the blocks whose last byte has not arrived or is not acknowledged (R226). -/
def reqTags (r : DtReq) : Nat :=
  if r.lost ∨ r.answer = some .refused ∨ r.answer = some .error then 0
  else
    let got := if r.write then 240 * r.acks else (inOrder r.got).length
    tagsFor (r.offset + min got r.len) (r.len - got)

/-- Tags of a tile's DMA engine in use, 512 at most. Transfers of stacks and host memory open and close theirs within
a step (log 21). -/
def tagsBusy (h : Hw) (t : Nat) : Nat :=
  (h.ports.map fun e => ((e.2.requests.filter fun r => r.tile = t).map reqTags).sum).sum

/-- The tile whose DMA engine serves a slot's transfers; 192 for none. -/
def dmaTile (h : Hw) (slot : Nat) : Nat := (((cmdAt h slot).bind Cmd.serving).map Prod.snd).getD 192

/-- A DMA engine has the tags for a transfer, or there is none to ask. -/
def tagsFree (h : Hw) (slot off len : Nat) : Bool :=
  let t := dmaTile h slot
  t = 192 || decide (tagsBusy h t + tagsFor off len ≤ 512)

/-- Finds a request of a slot on a port. -/
def findReq (a : PortAux) (slot : Nat) (write : Bool) (w off len : Nat) : Option DtReq :=
  a.requests.find? fun r => r.slot = slot && r.write = write && r.window = w && r.offset = off && r.len = len

/-- Whether the command of a slot is of the secure world. -/
def slotSecure (h : Hw) (slot : Nat) : Bool := (cmdAt h slot).any fun c => c.world = .secure

/-- Adds a request and sends its cells, which carry the world of its command (R390). -/
def postReq (h : Hw) (q slot : Nat) (w off len : Nat) (data : Option (List Byte)) : Hw :=
  let a := portAux h q
  let tag := a.nextTag
  let r : DtReq := { tag := tag, slot := slot, tile := dmaTile h slot, write := data.isSome, window := w, offset := off, len := len, got := [],
                     acks := 0, answer := none, lost := false }
  let h := setPortAux h q { a with requests := a.requests ++ [r], nextTag := (tag + 1) % 65536 }
  let ctx := BitVec.ofNat 16 tag
  match data with
  | none => sendCell h q { blankCell 7 (.dtRead (BitVec.ofNat 3 w) (BitVec.ofNat 64 off) len (slotSecure h slot)) with ctx := ctx }
  | some bs =>
    let cs := chunksOf 240 bs
    (List.range cs.length).foldl (fun h i =>
      sendCell h q { blankCell 8 (.dtWrite (BitVec.ofNat 3 w) (BitVec.ofNat 64 off) (slotSecure h slot) (cs.getD i [])) with
        ctx := ctx, index := BitVec.ofNat 26 i }) h

/-- A deep-tier command of the non-secure world names a secure port (R386). -/
def portClosed (h : Hw) (slot q : Nat) : Bool := portSecure h q && !slotSecure h slot

/-- A read of a lender through a port: posts it, waits for it, and answers its bytes; reached is the object offset a
lost partner reports (Table 9-11). A refusal is a permission fault of va, an error cell MEM_UNCORRECTABLE (R241). -/
def dtFetch (slot q w off len va reached : Nat) : Run (List Byte) := do
  let h ← get
  match findReq (portAux h q) slot false w off len with
  | none =>
    if portClosed h slot q then throw (.world va)
    else if portUp h q then do
      if tagsFree h slot off len then set (postReq h q slot w off len none)
      throw .wait
    else throw (.stop 0x40 q reached)
  | some r =>
    if r.lost then throw (.stop 0x40 q reached)
    else match r.answer with
      | some .refused => throw (.xlate va .rd false)
      | some .error => throw (.stop 0x30 reached 0)
      | _ =>
        let bs := inOrder r.got
        if len ≤ bs.length then pure (bs.take len) else throw .wait

/-- A write to a lender through a port: done when every cell is acknowledged. -/
def dtStore (slot q w off : Nat) (bs : List Byte) (va reached : Nat) : Run Unit := do
  let h ← get
  match findReq (portAux h q) slot true w off bs.length with
  | none =>
    if portClosed h slot q then throw (.world va)
    else if portUp h q then do
      if tagsFree h slot off bs.length then set (postReq h q slot w off bs.length (some bs))
      throw .wait
    else throw (.stop 0x40 q reached)
  | some r =>
    if r.lost then throw (.stop 0x40 q reached)
    else match r.answer with
      | some .refused => throw (.xlate va .wr false)
      | some .error => throw (.stop 0x30 reached 0)
      | _ => if ceilDiv bs.length 240 ≤ r.acks then pure () else throw .wait

/-- Forgets the requests of a slot. -/
def dropReqs (h : Hw) (slot : Nat) : Hw :=
  (List.range 12).foldl (fun h q =>
    let a := portAux h q
    if a.requests.any (fun r => r.slot = slot) then
      setPortAux h q { a with requests := a.requests.filter fun r => r.slot ≠ slot }
    else h) h

end Sys2Proof.Machine
end

