-- ==== Sys2Proof/Machine/Movement.lean ====
section
/-! DEFINITION. The movement commands COPY, FILL, GATHER, SCATTER, SPILL, PROMOTE and PREFETCH_STREAM (R233-R249). -/

namespace Sys2Proof.Machine

/-- The unit of movement (R233). -/
def unit64k : Nat := 65536

/-! Lend windows -/

/-- A live lend window (Table 9-9): enabled, secure, base and size in GiB. -/
def lendWindow (h : Hw) (w : Nat) : Word := getReg h (0x161040 + 4 * w)

/-- Whether a device physical range meets an enabled lend window of this package. -/
def inLend (h : Hw) (pa n : Nat) : Bool :=
  (List.range 8).any fun w =>
    let r := lendWindow h w
    bit r 31 && decide (fld r 11 0 * GiB < pa + n) && decide (pa < (fld r 11 0 + fld r 23 12) * GiB)

/-- Some lend window of this package is enabled. -/
def lends (h : Hw) : Bool := (List.range 8).any fun w => bit (lendWindow h w) 31

/-- A destination range in an enabled lend window ends the command before any byte is written (R233), with the
destination address at_. DESIGN CHOICE (log 97): while a window is enabled, a page that demand would map is met here, so
that its place is known before the first byte; other pages that do not translate are met when they are written. -/
def lendRange (who : Who) (at_ dst n : Nat) : Run Unit :=
  go (pieces 65536 dst n)
where
  go : List (Nat × Nat) → Run Unit
    | [] => pure ()
    | p :: ps => do
      let h ← get
      if lends h then
        match translate h who p.1 .wr with
        | (.ok false pa, h') => do
          set h'
          if inLend h' pa p.2 then throw (.stop 0x22 at_ 0)
        | (.notPresent _, h') =>
          (match demandOf h' (regimeOf who.world) p.1 .wr with
           | (.region _, h'') => do set h''; throw (.xlate p.1 .wr true)
           | _ => pure ())
        | (.held a, h') => do set (noteHeld h' who a); throw .wait
        | _ => pure ()
      go ps

def lendCheck (who : Who) (dst n : Nat) : Run Unit := lendRange who dst dst n

/-- The ranges of one destination. -/
def lendRanges (who : Who) (at_ : Nat) : List (Nat × Nat) → Run Unit
  | [] => pure ()
  | r :: rs => do lendRange who at_ r.1 r.2; lendRanges who at_ rs

/-- The DMA engine of some tile of its mask serves a movement command. -/
def served (h : Hw) (slot : Nat) (c : Cmd) : Bool := c.mask.any (engineFor h slot c)

/-- Registers of a DMA engine that movement leaves free: the round trip measured, bytes read and written (Table
9-12). -/
def dmaPerf : List Nat := [0x2008, 0x2010, 0x2014]

/-- Runs movement work: it waits while each tile of the mask is in reset or its DMA engine goes to a command that comes
before (R55, R233), and ends where none is in service (R90). -/
def runMove (slot : Nat) (w : Work) (c : Cmd) (h : Hw) : Hw :=
  let mask := c.mask
  if served h slot c then perfRegs dmaPerf (mask.filter (tileReady h)) (runWork slot w c h)
  else if mask.all (tileOut h) then noTile h slot mask else h

def writtenOf (slot : Nat) : Run Nat := do pure (((cmdAt (← get) slot).map Cmd.written).getD 0)

/-! FILL -/

def specFill : PSpec :=
  { len := 1,
    fields := [fQ 0, fQW 8, fQ 0x10, fSMax 0x18 3 0 8] ++ fMask 0x20,
    extra := fun _ _ p => (if isPow2 (parBits p 0x18 3 0) then [] else [0x58]) ++ maskEmpty p 0x20,
    extraAlign := fun _ p =>
      let n := parBits p 0x18 3 0
      (if par p 0 8 % n ≠ 0 then [0x40] else []) ++ (if par p 8 8 % n ≠ 0 then [0x48] else []),
    secure := fun h p => maskSecure h p 0x20 }

def repeatBytes (pat : List Byte) (n : Nat) : List Byte := (List.range n).map fun i => pat.getD (i % pat.length) 0

def fillWork (slot : Nat) (c : Cmd) : Work :=
  let p := c.packet
  let dst := par p 0 8
  let n := par p 8 8
  { pre := lendCheck (whoOf slot c) dst n,
    units := ceilDiv n unit64k,
    unit := fun _ i => pure (UnitOut.one [(dst + i * unit64k,
      repeatBytes (leBytes (parBits p 0x18 3 0) (par p 0x10 8)) (min unit64k (n - i * unit64k)))] 0 0),
    done := fun _ _ => do pure (0, 0, ← writtenOf slot),
    outs := pure [(dst, n)] }

def execFill (slot : SlotId) (s : State) : Host.Outcome State Fault Refusal :=
  onHw (withCmd slot.val 0x11 fun c h => runMove slot.val (fillWork slot.val c) c h) s

/-! GATHER and SCATTER -/

def specIndexed : PSpec :=
  { len := 1,
    fields := [fQ 0, fQ 8, fQ 0x10, fW 0x18 31 0, fSMax 0x1C 15 0 32768, fV 0x1C 16 16, fQS 0x20] ++ fMask 0x28,
    extra := fun _ _ p => maskEmpty p 0x28,
    extraAlign := fun _ p => if par p 0x10 8 % (if parBit p 0x1C 16 then 8 else 4) ≠ 0 then [0x50] else [],
    secure := fun h p => maskSecure h p 0x28 }

/-- Index j of a command; none where it lies outside the table (R236). -/
def readIndex (who : Who) (p : List Byte) (j : Nat) : Run (Option Nat) := do
  let w := if parBit p 0x1C 16 then 8 else 4
  let v ← rdNat who (par p 0x10 8 + j * w) w
  let i := sext (8 * w) v
  pure (if 0 ≤ i ∧ i < (par p 0x20 8 : Nat) then some i.toNat else none)

/-- Element j of GATHER or SCATTER: the write it makes, or none if it is skipped. -/
def indexedElem (who : Who) (p : List Byte) (scatter : Bool) (j : Nat) : Run (Option (Nat × List Byte)) := do
  let eb := parBits p 0x1C 15 0
  match ← readIndex who p j with
  | none => pure none
  | some i =>
    if scatter then
      let bs ← rd who (par p 0 8 + j * eb) eb
      pure (some (par p 8 8 + i * eb, bs))
    else
      let bs ← rd who (par p 0 8 + i * eb) eb
      pure (some (par p 8 8 + j * eb, bs))

/-- The destination of GATHER or SCATTER: of a table, the elements that the indices name. -/
def indexedOuts (who : Who) (p : List Byte) (scatter : Bool) : Run (List (Nat × Nat)) := do
  let eb := parBits p 0x1C 15 0
  let n := par p 0x18 4
  if scatter then
    let js ← (List.range n).mapM (readIndex who p)
    pure ((js.filterMap id).map fun i => (par p 8 8 + i * eb, eb))
  else pure [(par p 8 8, n * eb)]

/-- The destination of GATHER or SCATTER where it overlaps the source or the index list (R233). -/
def indexedUndef (who : Who) (p : List Byte) (scatter : Bool) : Run (List (Nat × Nat)) := do
  let eb := parBits p 0x1C 15 0
  let n := par p 0x18 4
  let line := fun (o : Nat) => (par p o 8, n * eb)
  let table := fun (o : Nat) => (par p o 8, par p 0x20 8 * eb)
  let idx := (par p 0x10 8, n * if parBit p 0x1C 16 then 8 else 4)
  let src := if scatter then line 0 else table 0
  let dst := if scatter then table 8 else line 8
  if rangesMeet [dst] [src, idx] then indexedOuts who p scatter else pure []

def indexedWork (slot : Nat) (c : Cmd) (scatter : Bool) : Work :=
  let p := c.packet
  let who := whoOf slot c
  let eb := parBits p 0x1C 15 0
  let n := par p 0x18 4
  let per := unit64k / eb
  { pre := if scatter then do
        let js ← (List.range n).mapM (readIndex who p)
        for i in js.filterMap id do lendCheck who (par p 8 8 + i * eb) eb
      else lendCheck who (par p 8 8) (n * eb),
    units := ceilDiv n per,
    unit := fun c u => do
      let js := (List.range (min per (n - u * per))).map (u * per + ·)
      let ws ← js.mapM (indexedElem (whoOf slot c) p scatter)
      pure (UnitOut.one (ws.filterMap id) 0 (ws.filter Option.isNone).length),
    done := fun _ skipped => do pure (0, skipped, ← writtenOf slot),
    undef := indexedUndef who p scatter,
    outs := indexedOuts who p scatter }

def execGather (slot : SlotId) (s : State) : Host.Outcome State Fault Refusal :=
  onHw (withCmd slot.val 0x12 fun c h => runMove slot.val (indexedWork slot.val c false) c h) s

def execScatter (slot : SlotId) (s : State) : Host.Outcome State Fault Refusal :=
  onHw (withCmd slot.val 0x13 fun c h => runMove slot.val (indexedWork slot.val c true) c h) s

/-! COPY -/

def cpMode (p : List Byte) : Nat := parBits p 0x18 3 0
def cpFmt (p : List Byte) : Nat := par p 0x19 1
def cpK (p : List Byte) : Nat := par p 0x20 4
def cpN (p : List Byte) : Nat := par p 0x24 4
def cpLd (p : List Byte) : Nat := par p 0x28 4
def cpLdb (p : List Byte) : Nat := par p 0x2C 4
def cpEbits (p : List Byte) : Nat := containerBits (cpFmt p)

def copyExtra (_ : Hw) (_ : World) (p : List Byte) : List Nat :=
  let m := cpMode p
  let f := cpFmt p
  (if 4 < m then [0x58] else []) ++
  (if (m = 0 ∧ f ≠ 0) ∨ ((m = 1 ∨ m = 2) ∧ containerBits f = 0) ∨ ((m = 3 ∨ m = 4) ∧ (f = 0 ∨ 6 < f)) then [0x58]
    else []) ++
  (if m = 3 ∨ m = 4 then
    (if par p 0x10 8 ≠ 0 then [0x50] else []) ++ (if cpLd p = 0 then [0x68] else []) ++
    (if cpLdb p < ceilDiv (cpN p) 64 ∨ cpLdb p = 0 then [0x6C] else []) ++
    (if f ≠ 1 ∧ par p 0x30 8 ≠ 0 then [0x70] else [])
   else
    (if cpK p ≠ 0 then [0x60] else []) ++ (if cpN p ≠ 0 then [0x64] else []) ++ (if cpLd p ≠ 0 then [0x68] else []) ++
    (if cpLdb p ≠ 0 then [0x6C] else []) ++ (if par p 0x30 8 ≠ 0 then [0x70] else [])) ++
  maskEmpty p 0x40

def copyAlign (_ : Hw) (p : List Byte) : List Nat :=
  let m := cpMode p
  let src := par p 0 8
  let dst := par p 8 8
  if m = 1 then
    (if dst % stripeBytes ≠ 0 then [0x48] else []) ++ (if par p 0x10 8 * 8 % cpEbits p ≠ 0 then [0x50] else [])
  else if m = 2 then
    (if src % stripeBytes ≠ 0 then [0x40] else []) ++ (if par p 0x10 8 * 8 % cpEbits p ≠ 0 then [0x50] else [])
  else if m = 3 then (if dst % 4096 ≠ 0 then [0x48] else [])
  else if m = 4 then (if src % 4096 ≠ 0 then [0x40] else [])
  else []

/-- Parameters of COPY (Tables 9-3, 9-4). -/
def specCopy : PSpec :=
  { len := 2,
    fields := [fQ 0, fQ 8, fQ 0x10, fV 0x18 3 0, fV 0x18 15 8, fV 0x20 31 0, fV 0x24 31 0, fV 0x28 31 0, fV 0x2C 31 0,
      fQ 0x30] ++ fMask 0x40,
    extra := copyExtra,
    extraAlign := copyAlign,
    secure := fun h p => maskSecure h p 0x40,
    emptyIf := fun p => if cpMode p ≤ 2 then par p 0x10 8 = 0 else cpK p = 0 || cpN p = 0 }

/-- Checks the stripes of a pawn-layout operand of COPY (Table 9-4). -/
def copyStripes (who : Who) (b n ebits : Nat) (acc : Acc) : Run Unit :=
  go (List.range (stripesOf n ebits))
where
  go : List Nat → Run Unit
    | [] => pure ()
    | z :: zs => do
      let va := b + z * stripeBytes
      match ← stripeAt who va acc with
      | none => structFail 6 z va
      | some _ => go zs

/-- The columns and rows of bricks that hold a position of the matrix. -/
def cpBricks (p : List Byte) : Nat := ceilDiv (cpN p) 64

/-- The scale byte of column n and K group g (R234). -/
def cpScaleAt (p : List Byte) (n g : Nat) : Nat := par p 0x30 8 + n * ceilDiv (cpK p) 32 + g

/-- Elements n to n + count − 1 of row k of a matrix in rows of ld elements, each of which starts on a byte (R92). -/
def rowElemBits (who : Who) (fmt base ld k n count : Nat) : Run (List Nat) := do
  let b := containerBits fmt
  let first := n * b / 8
  let last := ((n + count) * b + 7) / 8
  let bs ← rd who (base + k * ceilDiv (ld * b) 8 + first) (last - first)
  let skip := n * b % 8 / 4
  pure ((List.range count).map fun i => elemBits fmt bs (i + skip))

/-- Brick (kb, nb) of a matrix in rows (COPY mode 3): absent positions are 0. -/
def makeBrick (who : Who) (p : List Byte) (kb nb : Nat) : Run (List Byte) := do
  let fmt := cpFmt p
  let cols := min 64 (cpN p - nb * 64)
  let rows := min 64 (cpK p - kb * 64)
  let els ← (List.range rows).mapM fun k => rowElemBits who fmt (par p 0 8) (cpLd p) (kb * 64 + k) (nb * 64) cols
  let scs ← if fmt = 1 then
      (List.range cols).mapM fun n => rd who (cpScaleAt p (nb * 64 + n) (kb * 2)) (ceilDiv rows 32)
    else pure []
  pure (brickBytes fmt (fun k n => (els.getD k []).getD n 0)
    (fun g n => ((scs.getD n []).getD g 0).toNat))

/-- Unit i of COPY mode 3: 64 KiB of the bricks' bytes in address order. -/
def brickUnit (who : Who) (p : List Byte) (i : Nat) : Run UnitOut := do
  let pitch := brickPitch (cpFmt p)
  let nb := cpBricks p
  let total := ceilDiv (cpK p) 64 * nb * pitch
  let a := i * unit64k
  let n := min unit64k (total - a)
  let ws ← (pieces pitch a n).mapM fun q => do
    let j := q.1 / pitch
    let bs ← makeBrick who p (j / nb) (j % nb)
    pure (par p 8 8 + (j / nb * cpLdb p + j % nb) * pitch + q.1 % pitch, (bs.drop (q.1 % pitch)).take q.2)
  pure (UnitOut.one ws 0 0)

/-- Brick (kb, nb) of the source of COPY mode 4. -/
def readBrick (who : Who) (base ldb fmt kb nb : Nat) : Run (List Byte) :=
  rd who (base + (kb * ldb + nb) * brickPitch fmt) (brickPitch fmt)

/-- Bytes of a row, and where row k starts. DESIGN CHOICE (log 20): rows of an odd FP4 LD are LD / 2 bytes apart,
rounded up, since a row starts on a byte (R92). -/
def cpRowBytes (p : List Byte) : Nat := ceilDiv (cpN p * cpEbits p) 8

def cpRowAt (p : List Byte) (base k : Nat) : Nat := base + k * ceilDiv (cpLd p * cpEbits p) 8

/-- The bytes of row k of mode 4: elements of the bricks of that row; the half byte beyond an odd FP4 row stays. -/
def rowBytes (who : Who) (p : List Byte) (k : Nat) : Run (List Byte) := do
  let fmt := cpFmt p
  let bricks ← (List.range (cpBricks p)).mapM fun nb => readBrick who (par p 0 8) (cpLdb p) fmt (k / 64) nb
  let els := (List.range (cpN p)).map fun n => brickElem fmt (bricks.getD (n / 64) []) (k % 64) (n % 64)
  if fmt = 1 ∧ cpN p % 2 = 1 then
    let old ← rdNat who (cpRowAt p (par p 8 8) k + cpN p / 2) 1
    pure (packElems fmt (els ++ [old / 16]))
  else pure (packElems fmt els)

/-- Scale byte x of mode 4: column x / G and group x % G of G groups. -/
def scaleByte (who : Who) (p : List Byte) (x : Nat) : Run Byte := do
  let gs := ceilDiv (cpK p) 32
  let g := x % gs
  let n := x / gs
  let br ← readBrick who (par p 0 8) (cpLdb p) 1 (g / 2) (n / 64)
  pure (BitVec.ofNat 8 (brickScale br (g % 2 * 32) (n % 64)))

/-- Bytes of the scales of mode 4, and whether they lie before the rows. -/
def cpScaleBytes (p : List Byte) : Nat := if cpFmt p = 1 then cpN p * ceilDiv (cpK p) 32 else 0
def cpScalesFirst (p : List Byte) : Bool := decide (par p 0x30 8 < par p 8 8)

/-- What mode 4 writes of bytes [a, a + n) of its rows, and of its scales. -/
def rowPart (who : Who) (p : List Byte) (a n : Nat) : Run (List (Nat × List Byte)) :=
  (pieces (cpRowBytes p) a n).mapM fun q => do
    let k := q.1 / cpRowBytes p
    let bs ← rowBytes who p k
    pure (cpRowAt p (par p 8 8) k + q.1 % cpRowBytes p, (bs.drop (q.1 % cpRowBytes p)).take q.2)

def scalePart (who : Who) (p : List Byte) (a n : Nat) : Run (List (Nat × List Byte)) :=
  if n = 0 then pure []
  else do
    let bs ← (List.range n).mapM fun i => scaleByte who p (a + i)
    pure [(cpScaleAt p 0 0 + a, bs)]

/-- Bytes of the destination of mode 4. -/
def rowTotal (p : List Byte) : Nat := cpK p * cpRowBytes p + cpScaleBytes p

/-- Unit i of COPY mode 4: 64 KiB of the destination in address order (R233), rows and scales. -/
def rowUnit (who : Who) (p : List Byte) (i : Nat) : Run UnitOut := do
  let a := i * unit64k
  let b := min (a + unit64k) (rowTotal p)
  let first := if cpScalesFirst p then cpScaleBytes p else cpK p * cpRowBytes p
  let lo := fun (x : Nat) => min x first
  let hi := fun (x : Nat) => x - first
  let (x, y) := if cpScalesFirst p then (scalePart who p, rowPart who p) else (rowPart who p, scalePart who p)
  let w1 ← x (lo a) (lo b - lo a)
  let w2 ← y (hi a) (hi b - hi a)
  pure (UnitOut.one (w1 ++ w2) 0 0)

/-- The K × N matrix in rows and its scales, and its bricks, of COPY modes 3 and 4. -/
def cpRows (p : List Byte) (base : Nat) : List (Nat × Nat) :=
  matRanges base (cpEbits p) (cpLd p) (cpK p) (cpN p) ++
  (if cpFmt p = 1 then [(cpScaleAt p 0 0, cpN p * ceilDiv (cpK p) 32)] else [])
def cpBrickRanges (p : List Byte) (base : Nat) : List (Nat × Nat) :=
  matRanges base (8 * brickPitch (cpFmt p)) (cpLdb p) (ceilDiv (cpK p) 64) (cpBricks p)

/-- The source and the destination of COPY. -/
def cpSources (p : List Byte) : List (Nat × Nat) :=
  let src := par p 0 8
  let n := par p 0x10 8
  match cpMode p with
  | 2 => pawnRanges src (cpEbits p) (n * 8 / cpEbits p)
  | 3 => cpRows p src
  | 4 => cpBrickRanges p src
  | _ => [(src, n)]

def cpDests (p : List Byte) : List (Nat × Nat) :=
  let dst := par p 8 8
  let n := par p 0x10 8
  match cpMode p with
  | 1 => pawnRanges dst (cpEbits p) (n * 8 / cpEbits p)
  | 3 => cpBrickRanges p dst
  | 4 => cpRows p dst
  | _ => [(dst, n)]

/-- The bytes that unit i of COPY modes 0 to 2 moves, and where: 64 KiB in destination order, or in element order of a
pawn layout (R233, R234). -/
def copyUnit (who : Who) (p : List Byte) (i : Nat) : Run UnitOut := do
  let src := par p 0 8
  let dst := par p 8 8
  let eb := cpEbits p
  let a := i * unit64k
  let n := min unit64k (par p 0x10 8 - a)
  match cpMode p with
  | 1 => do
    let bs ← rd who (src + a) n
    pure (UnitOut.one (pawnWrites dst eb (a * 8 / eb) (n * 8 / eb) bs) 0 0)
  | 2 => do
    let bs ← rdPawn who src eb (a * 8 / eb) (n * 8 / eb)
    pure (UnitOut.one [(dst + a, bs)] 0 0)
  | _ => do
    let bs ← rd who (src + a) n
    pure (UnitOut.one [(dst + a, bs)] 0 0)

/-- Checks before the first unit of COPY: pawn stripes (Table 9-4) and lend windows (R233). -/
def copyPre (who : Who) (p : List Byte) : Run Unit := do
  let els := par p 0x10 8 * 8 / cpEbits p
  if cpMode p = 1 then copyStripes who (par p 8 8) els (cpEbits p) .wr
  if cpMode p = 2 then copyStripes who (par p 0 8) els (cpEbits p) .rd
  lendRanges who (par p 8 8) (if cpMode p = 1 then [(par p 8 8, stripesOf els (cpEbits p) * stripeBytes)] else cpDests p)

def copyWork (slot : Nat) (c : Cmd) : Work :=
  let p := c.packet
  { pre := copyPre (whoOf slot c) p,
    units := match cpMode p with
      | 3 => ceilDiv (ceilDiv (cpK p) 64 * cpBricks p * brickPitch (cpFmt p)) unit64k
      | 4 => ceilDiv (rowTotal p) unit64k
      | _ => ceilDiv (par p 0x10 8) unit64k,
    unit := fun c i => match cpMode p with
      | 3 => brickUnit (whoOf slot c) p i
      | 4 => rowUnit (whoOf slot c) p i
      | _ => copyUnit (whoOf slot c) p i,
    done := fun _ _ => do pure (0, 0, ← writtenOf slot),
    undef := undefIf (rangesMeet (cpSources p) (cpDests p)) (cpDests p),
    outs := pure (cpDests p) }

def execCopy (slot : SlotId) (s : State) : Host.Outcome State Fault Refusal :=
  onHw (withCmd slot.val 0x10 fun c h => runMove slot.val (copyWork slot.val c) c h) s

/-! Objects (R237, R238, R265) -/

/-- One extent of an object (Table 9-5). -/
structure Extent where
  addr : Nat
  port : Nat
  kind : Nat
  window : Nat
  deriving DecidableEq, Repr

structure Object where
  bytes : Nat
  stored : Nat
  state : Nat
  rate : Nat
  key : Nat
  extents : List Extent
  bad : Option Nat
  deriving DecidableEq, Repr

/-- A descriptor from its 256 bytes; bad names an extent or field that breaks R238, 12 standing for the header. -/
def parseObject (d : List Byte) : Object :=
  let f := leAt d 0x10 4
  let n := f / 2 ^ 8 % 16
  let ext := fun x => (leAt d (0x20 + 16 * x) 8, leAt d (0x28 + 16 * x) 8)
  let badExt := fun x =>
    let e := ext x
    if x < n then
      decide (e.1 % 65536 ≠ 0) || decide (11 < e.2 % 16) || !(e.2 / 16 % 4 = 1 || e.2 / 16 % 4 = 2) ||
      decide (e.2 / 2 ^ 6 % 4 ≠ 0) || decide (e.2 / 2 ^ 11 ≠ 0)
    else e.1 ≠ 0 || e.2 ≠ 0
  let header := decide (n = 0) || decide (12 < n) || decide (f / 4 % 64 ≠ 0) || decide (f / 2 ^ 12 % 16 ≠ 0) ||
    decide (leNat (slice d 0x14 12) ≠ 0) || decide (leNat (slice d 0xE0 32) ≠ 0)
  { bytes := leAt d 0 8, stored := leAt d 8 8, state := f % 4, rate := f / 2 ^ 16 % 256, key := f / 2 ^ 24 % 256,
    extents := (List.range n).map fun x =>
      let e := ext x
      Extent.mk e.1 (e.2 % 16) (e.2 / 16 % 4) (e.2 / 2 ^ 8 % 8),
    bad := if header then some 12 else (List.range 12).find? badExt }

/-- The bytes of host memory that the stored bytes of an object take up (R238). -/
def Object.hostRanges (o : Object) : List (Nat × Nat) :=
  let n := o.extents.length
  let stripes := ceilDiv o.stored 65536
  (List.range n).filterMap fun x => (o.extents[x]?).bind fun e =>
    let k := ceilDiv (stripes - x) n
    if e.kind = 2 ∧ 0 < k then
      some (e.addr, if (stripes - 1) % n = x then k * 65536 - (stripes * 65536 - o.stored) else k * 65536)
    else none

/-- The host memory that a range of device virtual addresses names. -/
def hostNamed (h : Hw) (who : Who) (va n : Nat) : List (Nat × Nat) :=
  (pieces 65536 va n).filterMap fun p => match translate h who p.1 .rd with
    | (.ok true pa, _) => some (pa, p.2)
    | _ => none

def readObject (who : Who) (va : Nat) : Run Object := do pure (parseObject (← rd who va 256))

/-- The address of the item that breaks R238. -/
def objItem (va x : Nat) : Nat := if x = 12 then va + 0x10 else va + 0x20 + 16 * x

/-- The place of stored byte a: its extent and the offset there (R238). -/
def storedAt (o : Object) (a : Nat) : Option (Extent × Nat) :=
  let n := o.extents.length
  (o.extents[a / 65536 % n]?).map fun e => (e, e.addr + a / 65536 / n * 65536 + a % 65536)

/-- Reads stored bytes [a, a + n) of an object. -/
def readStored (slot : Nat) (o : Object) (va reached a n : Nat) : Run (List Byte) :=
  go [] (pieces 65536 a n)
where
  go (acc : List Byte) : List (Nat × Nat) → Run (List Byte)
    | [] => pure acc
    | p :: ps => do
      match storedAt o p.1 with
      | none => throw (.stop 0x30 reached 1)
      | some (e, off) => do
        let bs ← if e.kind = 1 then dtFetch slot e.port e.window off p.2 va reached
          else do
            let h ← get
            match hostRead h off p.2 with
            | (some bs, h) => do set h; pure bs
            | (none, h) => do set h; throw (.xlate va .rd false)
        go (acc ++ bs) ps

/-- Writes stored bytes at a of an object. -/
def writeStored (slot : Nat) (o : Object) (va reached a : Nat) (bs : List Byte) : Run Unit :=
  go bs (pieces 65536 a bs.length)
where
  go (bs : List Byte) : List (Nat × Nat) → Run Unit
    | [] => pure ()
    | p :: ps => do
      match storedAt o p.1 with
      | none => pure ()
      | some (e, off) =>
        if e.kind = 1 then dtStore slot e.port e.window off (bs.take p.2) va reached
        else do
          let h ← get
          match hostWrite h slot off (bs.take p.2) with
          | some h => set h
          | none => throw (.xlate va .wr false)
      go (bs.drop p.2) ps

/-! SPILL -/

def spRate (p : List Byte) : Nat := par p 0x18 1
def spFmt (p : List Byte) : Nat := par p 0x19 1
def spKey (p : List Byte) : Nat := par p 0x1A 1
def spBytes (p : List Byte) : Nat := par p 0x10 8

def specSpill : PSpec :=
  { len := 1,
    fields := [fQ 0, fQ 8, fQW 0x10, fV 0x18 15 0, fMax 0x18 23 16 63, fQ 0x20] ++ fMask 0x28,
    aligns := [(0x40, 8, 4096), (0x48, 8, 64), (0x50, 8, 4096), (0x60, 8, 8)],
    extra := fun _ _ p =>
      let r := spRate p
      (if (r = 0 ∧ spFmt p ≠ 0) ∨ (r ≠ 0 ∧ !srcFmtOk (spFmt p)) ∨ !(r = 0 ∨ r = 0xFF ∨ rateOk r (spFmt p)) then [0x58]
        else []) ++
      (if r ≠ 0xFF ∧ par p 0x20 8 ≠ 0 then [0x60] else []) ++ maskEmpty p 0x28,
    secure := fun h p => maskSecure h p 0x28 }

/-- The rates of the segments of a SPILL. A rate that R257 refuses is BAD_PARAM at INDEX_ADDR (log 20). -/
def spillRates (who : Who) (p : List Byte) : Run (List Nat) := do
  let fmt := spFmt p
  let k := ceilDiv (spBytes p / srcElem fmt) (segElems fmt)
  if spRate p = 0xFF then
    let rs ← (List.range k).mapM fun i => rdNat who (par p 0x20 8 + 8 * i) 1
    if rs.all fun r => r = 0 || rateOk r fmt then pure rs else throw (.stop 0x11 0x60 0)
  else pure (List.replicate k (spRate p))

/-- Bytes of the stream of a SPILL. -/
def spillStreamBytes (p : List Byte) (rates : List Nat) : Nat :=
  if spRate p = 0 then spBytes p
  else
    let fmt := spFmt p
    let segs := objSegs fmt (spBytes p / srcElem fmt) rates
    let body := segs.foldl (fun n s => n + segBytes s.rate fmt s.elems) 0
    ceilDiv ((if spRate p = 0xFF then objIndexBytes rates.length else 0) + body) 4096 * 4096

/-- The whole stream of a compressed SPILL. -/
def spillStream (who : Who) (p : List Byte) (rates : List Nat) : Run (List Byte) := do
  let fmt := spFmt p
  let e := srcElem fmt
  let n := spBytes p / e
  let segs := objSegs fmt n rates
  let parts ← (List.range segs.length).mapM fun i => do
    let k := segCount fmt n i
    let src ← rd who (par p 0 8 + i * segElems fmt * e) (k * e)
    pure (encodeSeg (rates.getD i 0) fmt src k)
  let index := if spRate p = 0xFF then
      pad4k (segs.flatMap fun s => leBytes 8 (s.offset * 256 + s.rate)) else []
  pure (pad4k (index ++ parts.flatten))

/-- Stored bytes [a, a + n) of a SPILL: preamble, then sealed stream units (R265). -/
def spillStored (who : Who) (p : List Byte) (k : EgressKey) (nonce a n : Nat) : Run (List Byte) := do
  let rates ← if spRate p = 0 then pure [] else spillRates who p
  let whole ← if spRate p = 0 then pure [] else spillStream who p rates
  let pre := preamble nonce (spBytes p) (spRate p) (spFmt p) (spKey p)
  let u0 := (a - 64) / 4128
  let u1 := (a + n - 64 + 4127) / 4128
  let units ← (List.range (u1 - u0)).mapM fun j => do
    let u := u0 + j
    let plain ← if spRate p = 0 then rd who (par p 0 8 + u * 4096) 4096
      else pure ((whole.drop (u * 4096)).take 4096)
    pure (sealUnit k nonce u plain)
  let body := units.flatten
  pure (if a < 64 then ((pre ++ body).drop a).take n else (body.drop (a - 64 - u0 * 4128)).take n)

/-- Steps 1 and 2 of R239, once, with the key check of R401; the NONCE is kept with the command. -/
def spillPre (slot : Nat) (c : Cmd) : Run Unit := do
  if c.priv = [] then
    let p := c.packet
    let who := whoOf slot c
    let obj := par p 8 8
    let h ← get
    match egressRefusal h c.world (spKey p) 0x58 with
    | some (st, d) => throw (.stop st d 0)
    | none => pure ()
    let o ← readObject who obj
    if o.state ≠ 0 then throw (.stop 0x22 obj 0)
    match o.bad with
    | some x => structFail 2 x (objItem obj x)
    | none => pure ()
    let _ ← spillRates who p
    mayWrite who (obj + 0x10) 1
    let b ← rdNat who (obj + 0x10) 1
    wr who (obj + 0x10) (leBytes 1 (b / 4 * 4 + 1))
    modifyHw fun h =>
      let (nonce, h) := takeNonce h (spKey p)
      modCmd h slot fun c => { c with priv := [nonce] }

/-- The uncompressed offset that stored byte a of a SPILL lies at, at block granularity (Table 9-11). -/
def spillReached (p : List Byte) (rates : List Nat) (a : Nat) : Nat :=
  let s := (a - 64) / 4128 * 4096 + min 4096 ((a - 64) % 4128)
  if spRate p = 0 then min (spBytes p) s
  else
    let fmt := spFmt p
    let s := s - (if spRate p = 0xFF then objIndexBytes rates.length else 0)
    let segs := objSegs fmt (spBytes p / srcElem fmt) rates
    let i := (segs.takeWhile fun x => decide (x.offset ≤ s)).length - 1
    let x := segs.getD i (Seg.mk 0 0 0)
    min (spBytes p) (i * 2 ^ 20 + (if x.rate = 0 then s - x.offset
      else (s - x.offset) / frBlock x.rate * 256 * srcElem fmt))

/-- The source of SPILL, or the list of its rates, overlaps the host memory that the object is written to: what it
writes is undefined (R233). -/
def spillOverlaps (h : Hw) (who : Who) (p : List Byte) (o : Object) (stored : Nat) : Bool :=
  let rates := if spRate p = 0xFF then hostNamed h who (par p 0x20 8) (8 * ceilDiv (spBytes p) (2 ^ 20)) else []
  let dst := Object.hostRanges { o with stored := stored }
  dst ≠ [] && rangesMeet (hostNamed h who (par p 0 8) (spBytes p) ++ rates) dst

/-- Unit i of SPILL: 64 KiB of stored bytes; past its end the unit writes nothing and is not counted. -/
def spillUnit (slot : Nat) (c : Cmd) (i : Nat) : Run UnitOut := do
  let p := c.packet
  let who := whoOf slot c
  match egressKey (← get) (spKey p) with
  | none => throw (.stop 0x03 5 0)
  | some k => do
    let rates ← if spRate p = 0 then pure [] else spillRates who p
    let total := storedBytes (spillStreamBytes p rates)
    let a := i * unit64k
    if total ≤ a then pure { bricks := [] }
    else do
      let bs ← spillStored who p k (c.priv.headD 0) a (min unit64k (total - a))
      let o ← readObject who (par p 8 8)
      let h ← get
      let bs := if spillOverlaps h who p o total then (List.range bs.length).map fun j => Config.freeByte h.draws (a + j)
        else bs
      set { h with draws := h.draws + 1 }
      writeStored slot o (par p 8 8) (spillReached p rates a) a bs
      modifyHw fun h => { h with ports := dropSlotReqs h.ports slot }
      pure (UnitOut.one [] 0 0)

def spillWork (slot : Nat) (c : Cmd) : Work :=
  let p := c.packet
  let who := whoOf slot c
  let obj := par p 8 8
  { pre := spillPre slot c,
    units := ceilDiv (storedBytes (spBytes p + if spRate p = 0xFF then objIndexBytes (ceilDiv (spBytes p) (2 ^ 20)) else 0)) unit64k,
    unit := spillUnit slot,
    done := fun _ _ => do
      let rates ← if spRate p = 0 then pure [] else spillRates who p
      let total := storedBytes (spillStreamBytes p rates)
      let b ← rdNat who (obj + 0x10) 2
      wr who obj (leBytes 8 (spBytes p) ++ leBytes 8 total ++
        leBytes 4 (b / 4 * 4 + 2 + spRate p * 2 ^ 16 + spKey p * 2 ^ 24))
      pure (0, total, ← writtenOf slot) }

def execSpill (slot : SlotId) (s : State) : Host.Outcome State Fault Refusal :=
  onHw (withCmd slot.val 0x15 fun c h => runMove slot.val (spillWork slot.val c) c h) s

/-! PROMOTE -/

def specPromote : PSpec :=
  { len := 1,
    fields := [fQ 0, fQ 8, fQW 0x10, fQ 0x18] ++ fMask 0x20,
    aligns := [(0x40, 8, 64), (0x48, 8, 4096), (0x58, 8, 4096)],
    extra := fun _ _ p => maskEmpty p 0x20,
    secure := fun h p => maskSecure h p 0x20 }

/-- The key of an object's descriptor (R401). DESIGN CHOICE (log 20): the field of the packet that a slot which serves
nothing offends is the first of PROMOTE and of PREFETCH_STREAM, which names the descriptor or the schedule that does. -/
def objectKey (w : World) (o : Object) : Run EgressKey := do
  let h ← get
  match egressRefusal h w o.key 0x40 with
  | some (st, d) => throw (.stop st d 0)
  | none =>
    match egressKey h o.key with
    | none => throw (.stop 0x11 0x40 0)
    | some k => pure k

/-- The preamble of a stored object: NONCE and SRC_FMT, where its digest holds. -/
def objectHead (slot : Nat) (o : Object) (obj reached : Nat) : Run (Nat × Nat) := do
  let bs ← readStored slot o obj reached 0 64
  if preambleOk bs then pure (leAt bs 0 8, leAt bs 0x11 1) else throw (.stop 0x30 reached 1)

/-- Stream bytes [a, a + n) of an object, checked and decrypted. -/
def readStream (slot : Nat) (o : Object) (k : EgressKey) (nonce obj reached a n : Nat) : Run (List Byte) := do
  let u0 := a / 4096
  let us ← (List.range (ceilDiv (a % 4096 + n) 4096)).mapM fun j => do
    let bs ← readStored slot o obj reached (64 + (u0 + j) * 4128) 4128
    match openUnit k nonce (u0 + j) bs with
    | some plain => pure plain
    | none => throw (.stop 0x30 reached 1)
  pure ((us.flatten.drop (a % 4096)).take n)

/-- Object bytes [a, a + n) of a sealed object; of a compressed one they lie in one segment. -/
def readObjectBytes (slot : Nat) (w : World) (o : Object) (obj a n : Nat) : Run (List Byte) := do
  let k ← objectKey w o
  let (nonce, fmt) ← objectHead slot o obj a
  if o.rate = 0 then readStream slot o k nonce obj a a n
  else
    let e := srcElem fmt
    let els := o.bytes / e
    let seg := a / 2 ^ 20
    let cnt := segCount fmt els seg
    let (rate, off) ← if o.rate = 0xFF then do
        let w ← readStream slot o k nonce obj a (8 * seg) 8
        let segs := ceilDiv els (segElems fmt)
        pure (leNat w % 256, objIndexBytes segs + leNat w / 256)
      else pure (o.rate, seg * segBytes o.rate fmt (segElems fmt))
    let src ← readStream slot o k nonce obj a off (segBytes rate fmt cnt)
    let raw := if rate = 0 then src
      else packElems fmt ((((chunksOf (frBlock rate) src).flatMap (decodeBlock rate)).take cnt).map
        fun x => (unpackElem fmt 0 x).1)
    pure ((raw.drop (a % 2 ^ 20)).take n)

/-- The object checks of PROMOTE and of schedule entries (R240, R246, R249): they fail with a cause for index ix and the
item's address at_, or for the descriptor's own extent or field. -/
def objectCheck (o : Object) (obj at_ ix off n : Nat) : Run Unit := do
  if o.state ≠ 2 then structFail 1 ix at_
  match o.bad with
  | some x => structFail 2 (if x = 12 then ix else x) (objItem obj x)
  | none => pure ()
  if o.bytes < off + n then structFail 5 ix at_

def promotePre (slot : Nat) (c : Cmd) : Run Unit := do
  let p := c.packet
  let who := whoOf slot c
  let obj := par p 0 8
  let o ← readObject who obj
  let off := par p 8 8
  let n := par p 0x10 8
  objectCheck o obj obj 0 off n
  let _ ← objectKey c.world o
  if o.rate ≠ 0 ∧ off % 2 ^ 20 ≠ 0 then throw (.stop 0x12 0x48 0)
  if n % 4096 ≠ 0 ∧ off + n ≠ o.bytes then throw (.stop 0x12 0x50 0)
  lendCheck who (par p 0x18 8) n

/-- The destination of PROMOTE, where the object lies there too: its descriptor, or stored bytes in host memory
(R233). -/
def promoteUndef (who : Who) (p : List Byte) : Run (List (Nat × Nat)) := do
  let dst := (par p 0x18 8, par p 0x10 8)
  let o ← readObject who (par p 0 8)
  let h ← get
  pure (if rangesMeet [(par p 0 8, 256)] [dst] || rangesMeet o.hostRanges (hostNamed h who dst.1 dst.2) then [dst] else [])

/-- 64 KiB of an object written to a destination. -/
def promoteUnit (slot : Nat) (who : Who) (obj off dst n i : Nat) : Run UnitOut := do
  let o ← readObject who obj
  let a := i * unit64k
  let bs ← readObjectBytes slot who.world o obj (off + a) (min unit64k (n - a))
  modifyHw fun h => { h with ports := dropSlotReqs h.ports slot }
  pure (UnitOut.one [(dst + a, bs)] 0 0)

def promoteWork (slot : Nat) (c : Cmd) : Work :=
  let p := c.packet
  { pre := promotePre slot c,
    units := ceilDiv (par p 0x10 8) unit64k,
    unit := fun c => promoteUnit slot (whoOf slot c) (par p 0 8) (par p 8 8) (par p 0x18 8) (par p 0x10 8),
    done := fun _ _ => do pure (0, 0, ← writtenOf slot),
    undef := promoteUndef (whoOf slot c) p,
    outs := pure [(par p 0x18 8, par p 0x10 8)] }

def execPromote (slot : SlotId) (s : State) : Host.Outcome State Fault Refusal :=
  onHw (withCmd slot.val 0x16 fun c h => runMove slot.val (promoteWork slot.val c) c h) s

/-! PREFETCH_STREAM -/

def specStream : PSpec :=
  { len := 1,
    fields := [fQ 0, fWMax 8 31 0 65536, fMax 0xC 10 0 1024, fSMax 0xC 22 16 96] ++ fMask 0x10,
    aligns := [(0x40, 8, 64)],
    extra := fun _ _ p => maskEmpty p 0x10,
    secure := fun h p => maskSecure h p 0x10 }

def stMembers (p : List Byte) : Nat := parBits p 0xC 10 0
def stEntries (p : List Byte) : Nat := par p 8 4

/-- Entry i of a schedule with its checks (R246); prev is the AFTER of the entry before it. -/
def readEntry (who : Who) (p : List Byte) (prev i : Nat) : Run StreamEntry := do
  let at_ := par p 0 8 + 64 * i
  let d ← rd who at_ 64
  let kind := leAt d 0x1C 4
  let src := leAt d 0 8
  let dst := leAt d 8 8
  let obj := leAt d 0x10 8
  let n := leAt d 0x18 4
  let w := leAt d 0x20 4
  let after := w % 2 ^ 11
  let last := w / 2 ^ 16 % 2 ^ 11
  let stage := leNat (slice d 0x28 24)
  let mask := pk p 0x50 24
  let members := stMembers p
  let credits := parBits p 0xC 22 16
  let badStage := decide ((stage ||| mask) ≠ mask) || (kind ≠ 0 && decide (credits * 65536 < n))
  let bad := decide (2 < kind) || decide (w / 2 ^ 11 % 32 ≠ 0) || decide (w / 2 ^ 27 ≠ 0) || decide (leAt d 0x24 4 ≠ 0) ||
    decide (members < after) || decide (members < last) || decide (after < prev) || badStage ||
    (kind = 0 && stage ≠ 0) || (kind = 1 && (dst ≠ 0 || obj ≠ 0 || decide (n % 4096 ≠ 0))) ||
    (kind ≠ 1 && (decide (obj % 64 ≠ 0) || decide (dst % 4096 ≠ 0) || decide (src % 4096 ≠ 0)))
  if bad then structFail 3 i at_
  if kind ≠ 1 then
    let o ← readObject who obj
    objectCheck o obj at_ i src n
    if (o.rate ≠ 0 ∧ src % 2 ^ 20 ≠ 0) ∨ (n % 4096 ≠ 0 ∧ src + n ≠ o.bytes) then structFail 3 i at_
  pure { kind := kind, src := src, dst := dst, obj := obj, bytes := n, after := after,
         last := last, stage := (List.range 192).filter fun t => stage.testBit t,
         units := if kind = 1 then 0 else ceilDiv n unit64k }

/-- Reads and checks the whole schedule. -/
def readSchedule (who : Who) (p : List Byte) : Run (List StreamEntry) :=
  go 0 [] (List.range (stEntries p))
where
  go (prev : Nat) (acc : List StreamEntry) : List Nat → Run (List StreamEntry)
    | [] => pure acc
    | i :: is => do
      let e ← readEntry who p prev i
      go e.after (acc ++ [e]) is

/-- The entry and the unit within it that a task's unit number names. -/
def entryOf (es : List StreamEntry) (i : Nat) : Option (Nat × StreamEntry × Nat) := go 0 es i
where
  go (k : Nat) : List StreamEntry → Nat → Option (Nat × StreamEntry × Nat)
    | [], _ => none
    | e :: r, i => if i < e.units then some (k, e, i) else go (k + 1) r (i - e.units)

/-- Every entry has begun. -/
def entriesBegun (h : Hw) (t : Stream) : Bool := t.entries.all fun e => memberDone h t e.after

/-- The schedule check, once; a failed one makes every member STREAM_ABORT with 0x11 (R246). -/
def streamPre (slot : Nat) (c : Cmd) : Run Unit := do
  let h ← get
  match taskOf h slot with
  | none => pure ()
  | some t =>
    if !t.checked then
      let es ← readSchedule (whoOf slot c) c.packet
      for e in es do
        if e.kind ≠ 1 then lendCheck (whoOf slot c) e.dst e.bytes
      modifyHw fun h => modStream h t.task fun t => { t with checked := true, entries := es }

def streamEntries (h : Hw) (slot : Nat) : List StreamEntry := ((taskOf h slot).map Stream.entries).getD []

def streamUnit (slot : Nat) (c : Cmd) (i : Nat) : Run UnitOut := do
  let h ← get
  match taskOf h slot, entryOf (streamEntries h slot) i with
  | some t, some (k, e, j) =>
    if entryBegun h t k then promoteUnit slot (whoOf slot c) e.obj e.src e.dst e.bytes j else throw .wait
  | _, _ => pure (UnitOut.one [] 0 0)

def streamWork (slot : Nat) (_ : Cmd) (h : Hw) : Work :=
  let es := streamEntries h slot
  { pre := pure (),
    units := es.foldl (fun n e => n + e.units) 0,
    unit := streamUnit slot,
    done := fun _ _ => do
      let h ← get
      match taskOf h slot with
      | none => pure (0, es.length, ← writtenOf slot)
      | some t => if entriesBegun h t then pure (0, es.length, ← writtenOf slot) else throw .wait,
    outs := pure ((es.filter fun e => e.kind ≠ 1).map fun e => (e.dst, e.bytes)) }

/-- A failed schedule check ends the opening command and aborts every member, fetched or to come (R246). -/
def failSchedule (h : Hw) (slot st d0 d1 : Nat) : Hw :=
  match taskOf h slot with
  | none => finish h slot st d0 d1
  | some t => abortMembers (finish h slot st d0 d1) t st

/-- The opening command runs its entries as far as their members allow, and copies are staged (R247). -/
def streamRun (slot : Nat) (c : Cmd) (h : Hw) : Hw :=
  let mask := c.mask
  if !served h slot c then (if mask.all (tileOut h) then noTile h slot mask else h)
  else match runOn (streamPre slot c) h with
    | (.error .wait, h) => h
    | (.error (.stop st d0 d1), h) =>
      if st = 0x11 then failSchedule h slot st d0 d1 else takeFail h h slot (.stop st d0 d1)
    | (.error f, h) => takeFail h h slot f
    | (.ok (), h) =>
      let h := stageLive (runWork slot (streamWork slot c h) c h)
      perfRegs dmaPerf (mask.filter (tileReady h)) h

def execPrefetchStream (slot : SlotId) (s : State) : Host.Outcome State Fault Refusal :=
  onHw (withCmd slot.val 0x14 fun c h => streamRun slot.val c h) s

end Sys2Proof.Machine
end

