-- ==== Sys2Proof/Machine/Matrix.lean ====
section
/-! DEFINITION. The matrix commands GEMM, GEMM_ACC, DIST and CMP_SELECT (R65, R69-R87). -/

namespace Sys2Proof.Machine

/-! Parameters (Table 3-6) -/

def mxM (p : List Byte) : Nat := par p 0x20 4
def mxN (p : List Byte) : Nat := par p 0x24 4
def mxK (p : List Byte) : Nat := par p 0x28 4
def mxBatch (p : List Byte) : Nat := par p 0x2C 4
def mxLda (p : List Byte) : Nat := par p 0x30 4
def mxLdb (p : List Byte) : Nat := par p 0x34 4
def mxLdc (p : List Byte) : Nat := par p 0x38 4
def mxSel (p : List Byte) : Nat := parBits p 0x3C 8 0
def mxFmt (p : List Byte) (i : Nat) : Nat := par p (0x60 + i) 1
def mxTransA (p : List Byte) : Bool := parBit p 0x64 0
def mxTransB (p : List Byte) : Bool := parBit p 0x64 1
def mxBrick (p : List Byte) : Bool := parBit p 0x64 2
def mxDEn (p : List Byte) : Bool := parBit p 0x64 3
def mxRole (p : List Byte) : Nat := parBits p 0x64 5 4
def mxSelDir (p : List Byte) : Bool := parBit p 0x64 6
def mxMode (p : List Byte) : Nat := parBits p 0x64 11 8
def mxSplit (p : List Byte) : Nat := parBits p 0x64 14 12
def mxExp (p : List Byte) (i : Nat) : Int := sext 8 (par p (0x68 + i) 1)

/-- The scale of an operand; packed bits have none (R77). -/
def mxScale (p : List Byte) (i : Nat) : Int := if mxMode p = 6 then 0 else mxExp p i

/-- A field at a base plus b times a signed stride, modulo 2^64. -/
def strided (p : List Byte) (base stride b : Nat) : Nat := (par p base 8 + b * par p stride 8) % 2 ^ 64

/-- Operand pairings of Table 3-2 for MAC and their K limits (Table 3-3). -/
def macKMax (a b : Nat) : Option Nat :=
  if a = 1 ∧ b = 1 then some 32768
  else if a = 6 ∧ b = 6 then some 1024
  else if (a = 2 ∨ a = 3) ∧ (b = 2 ∨ b = 3) then some 16384
  else if (2 ≤ a ∧ a ≤ 5) ∧ (2 ≤ b ∧ b ≤ 5) then some 8192
  else none

/-- Pairings of the distance and comparison modes. -/
def distPair (a b : Nat) : Bool := ((a = 2 || a = 3) && (b = 2 || b = 3)) || (a = 5 && b = 5)

/-- K limit of a mode and formats, if Table 3-7 allows them. -/
def mxKMax (mode a b : Nat) : Option Nat :=
  if mode = 0 then macKMax a b
  else if mode ≤ 5 then (if distPair a b then some 8192 else none)
  else if mode = 6 then (if a = 9 ∧ b = 9 then some 8192 else none)
  else none

/-- The k-block depth (Table 3-2). -/
def mxDepth (a : Nat) : Nat := if a = 1 then 128 else 64

/-- Modes an opcode accepts (Table 3-7). -/
def mxModeOk (op mode : Nat) : Bool :=
  if op = 0x22 then decide (1 ≤ mode) && decide (mode ≤ 6) else if op = 0x23 then decide (mode ≤ 4) else mode = 0

def mxIntMode (mode : Nat) : Bool := decide (5 ≤ mode)

def wideFmt (f : Nat) : Bool := decide (4 ≤ f) && decide (f ≤ 7)

/-- Output formats an opcode and mode accept. -/
def mxOutOk (op mode f : Nat) : Bool :=
  if mxIntMode mode then f = 11
  else if op = 0x20 ∨ op = 0x21 then decide (2 ≤ f) && decide (f ≤ 7) else wideFmt f

/-- D_FMT by opcode (Table 3-7): GEMM_ACC always has a D, DIST one with D_EN, GEMM and CMP_SELECT none. -/
def mxDOk (op mode : Nat) (dEn : Bool) (f : Nat) : Bool :=
  if op = 0x21 then wideFmt f
  else if op = 0x22 ∧ dEn then (if mxIntMode mode then f = 11 else wideFmt f)
  else f = 0

/-- The magnitude of a signed 64-bit value. -/
def mag64 (v : Nat) : Nat := (sext 64 v).natAbs

/-- Offsets of fields that R81 to R83 call invalid. Formats are held against Table 3-7 in the modes it lists. DESIGN
CHOICE (log 66): DETAIL0 names M (0x60) for a gradient output of more than 2^48 elements, where BATCH, M and N offend
together. DESIGN CHOICE (log 90): an odd LDB is no odd leading dimension of an FP4 operand where B_BRICK is 1, since it counts bricks
there. -/
def matrixExtra (op : Nat) (_ : Hw) (_ : World) (p : List Byte) : List Nat :=
  let mode := mxMode p
  let a := mxFmt p 0
  let b := mxFmt p 1
  let rowC := if op = 0x23 then mxSel p else mxN p
  let span := if mxM p = 0 then 0 else ((mxM p - 1) * mxLdc p + rowC) * containerBits (mxFmt p 2) / 8
  let fp4A := a = 1
  let fp4B := b = 1
  let kmax := mxKMax mode a b
  (if op = 0x20 ∧ par p 0x18 8 ≠ 0 then [0x58] else []) ++
  (if mxRole p = 2 ∧ 2 ^ 48 < mxBatch p * mxM p * mxN p then [0x60] else []) ++
  (if kmax.any (fun k => k < mxK p) then [0x68] else []) ++
  (if mxLda p < (if mxTransA p then mxM p else mxK p) ∨ (fp4A ∧ mxLda p % 2 = 1) then [0x70] else []) ++
  (if (if mxBrick p then mxLdb p < ceilDiv (mxN p) 64 else mxLdb p < (if mxTransB p then mxK p else mxN p)) ∨
      (fp4B ∧ !mxBrick p ∧ mxLdb p % 2 = 1) then [0x74] else []) ++
  (if mxLdc p < rowC then [0x78] else []) ++
  (if mxSel p ≠ 0 ∧ op ≠ 0x23 then [0x7C] else []) ++
  (if 1 < mxBatch p ∧ mag64 (par p 0x50 8) < span then [0x90] else []) ++
  (if mxModeOk op mode ∧ (kmax.isNone ∨ !mxOutOk op mode (mxFmt p 2) ∨ !mxDOk op mode (mxDEn p) (mxFmt p 3) ∨
      (mxBrick p ∧ b = 9)) then [0xA0] else []) ++
  (if !mxModeOk op mode ∨ mxRole p = 3 ∨ (mxRole p ≠ 0 ∧ (op = 0x22 ∨ op = 0x23)) ∨ 4 < mxSplit p ∨
      (mxBrick p ∧ mxTransB p) ∨ (fp4A ∧ mxTransA p) ∨ (fp4B ∧ mxTransB p) ∨
      (if op = 0x21 then !mxDEn p else if op = 0x22 then false else mxDEn p) then [0xA4] else []) ++
  (if !fp4A ∧ par p 0x70 8 ≠ 0 then [0xB0] else []) ++
  (if (!fp4B ∨ mxBrick p) ∧ par p 0x78 8 ≠ 0 then [0xB8] else []) ++
  maskEmpty p 0x80 ++
  (if op ≠ 0x23 ∧ par p 0x98 8 ≠ 0 then [0xD8] else []) ++
  (if mxRole p ≠ 2 ∧ par p 0xA0 2 ≠ 0 then [0xE0] else [])

/-- Alignment (R83). -/
def matrixAlign (op : Nat) (_ : Hw) (p : List Byte) : List Nat :=
  let al := fun (off f : Nat) => if par p off 8 % fmtAlign f ≠ 0 then [0x40 + off] else []
  let fd := if op = 0x23 then 11 else mxFmt p 3
  al 0 (mxFmt p 0) ++
  (if mxBrick p then (if par p 8 8 % 4096 ≠ 0 then [0x48] else []) else al 8 (mxFmt p 1)) ++
  al 0x10 (mxFmt p 2) ++ al 0x18 fd ++ al 0x40 (mxFmt p 0) ++ al 0x48 (mxFmt p 1) ++ al 0x50 (mxFmt p 2) ++
  al 0x58 fd ++ (if par p 0x98 8 % 4096 ≠ 0 then [0xD8] else [])

def specMatrix (op : Nat) : PSpec :=
  { len := 3,
    fields := [fQ 0, fQ 8, fQ 0x10, fQ 0x18, fWMax 0x20 31 0 (2 ^ 31 - 1), fWMax 0x24 31 0 (2 ^ 31 - 1), fW 0x28 31 0,
      fWMax 0x2C 31 0 (2 ^ 24), fS 0x30 31 0, fS 0x34 31 0, fS 0x38 31 0,
      (if op = 0x23 then fWMax 0x3C 8 0 256 else fV 0x3C 8 0), fQ 0x40, fQ 0x48, fQ 0x50, fQ 0x58, fV 0x60 31 0,
      fV 0x64 6 0, fV 0x64 14 8, fV 0x68 23 0, fV 0x6C 31 0, fQ 0x70, fQ 0x78] ++ fMask 0x80 ++ [fQ 0x98, fV 0xA0 15 0],
    extra := matrixExtra op,
    extraAlign := matrixAlign op,
    secure := fun h p => maskSecure h p 0x80 }

/-! Operands -/

/-- Scale bytes of a run of K: one per 32 positions. -/
def scaleRun (who : Who) (addr n : Nat) : Run (List Nat) := do
  let bs ← rd who addr (ceilDiv n 32)
  pure (bs.map BitVec.toNat)

/-- Rows of A from i0 on: each the K exact values, A_EXP and the scales applied; for HAMMING the bytes. -/
def mxRowsA (who : Who) (p : List Byte) (b i0 rows : Nat) : Run (List (List Num)) := do
  let f := mxFmt p 0
  let base := strided p 0 0x40 b
  let k := mxK p
  if mxTransA p then
    let cols ← (List.range k).mapM fun j => rowElemBits who f base (mxLda p) j i0 rows
    pure ((List.range rows).map fun i => cols.map fun c => (decodeElem f (c.getD i 0)).scale (mxScale p 0))
  else
    (List.range rows).mapM fun i => do
      let r := i0 + i
      let els ← rowElemBits who f base (mxLda p) r 0 k
      if f = 1 then
        let perRow := ceilDiv (mxLda p) 32
        let sb := par p 0x70 8 + (if par p 0x40 8 = 0 then 0 else b * mxM p * perRow) + r * perRow
        let sc ← scaleRun who sb k
        pure ((List.range k).map fun j => (scaledElem 1 (els.getD j 0) (sc.getD (j / 32) 0)).scale (mxScale p 0))
      else pure (els.map fun x => (decodeElem f x).scale (mxScale p 0))

/-- Columns of B from j0 on: each the K exact values. -/
def mxColsB (who : Who) (p : List Byte) (b j0 cols : Nat) : Run (List (List Num)) := do
  let f := mxFmt p 1
  let base := strided p 8 0x48 b
  let k := mxK p
  if mxBrick p then
    let bricks ← (List.range (ceilDiv k 64)).mapM fun kb => readBrick who base (mxLdb p) f kb (j0 / 64)
    pure ((List.range cols).map fun j => (List.range k).map fun r =>
      let bs := bricks.getD (r / 64) []
      let x := brickElem f bs (r % 64) j
      (if f = 1 then scaledElem 1 x (brickScale bs (r % 64) j) else decodeElem f x).scale (mxScale p 1))
  else if mxTransB p then
    (List.range cols).mapM fun j => do
      let els ← rowElemBits who f base (mxLdb p) (j0 + j) 0 k
      pure (els.map fun x => (decodeElem f x).scale (mxScale p 1))
  else
    let rows ← (List.range k).mapM fun r => rowElemBits who f base (mxLdb p) r j0 cols
    let scs ← if f = 1 then
        (List.range cols).mapM fun j => do
          let per := ceilDiv k 32
          scaleRun who (par p 0x78 8 + (if par p 0x48 8 = 0 then 0 else b * mxN p * per) + (j0 + j) * per) k
      else pure []
    pure ((List.range cols).map fun j => (List.range k).map fun r =>
      let x := (rows.getD r []).getD j 0
      (if f = 1 then scaledElem 1 x ((scs.getD j []).getD (r / 32) 0) else decodeElem f x).scale (mxScale p 1))

/-! Arithmetic -/

def nanFlag (x : Num) (ops : List Num) : Nat := if x.isNan && !(ops.any Num.isNan) then nanGen else 0

/-- The set bits in which two bytes differ. -/
def hamByte (a b : Num) : Nat :=
  let v := fun (x : Num) => match x with
    | .fin n m e => enc2 8 (signed n (m <<< e.toNat))
    | _ => 0
  popcount 8 (v a ^^^ v b)

/-- The exact block value of a mode (R71, R77). -/
def blockVal (mode : Nat) (as ws : List Num) : Num :=
  match mode with
  | 0 => exactSum (List.zipWith Num.mul as ws)
  | 1 => exactSum (List.zipWith (fun a w => (a.sub w).abs) as ws)
  | 2 => exactSum (List.zipWith (fun a w => (a.sub w).mul (a.sub w)) as ws)
  | 3 => (List.zipWith Num.add as ws).foldl Num.min (.inf false)
  | 4 => (List.zipWith Num.add as ws).foldl Num.max (.inf true)
  | 5 => numOfInt ((List.zipWith (fun (a w : Num) => (w.le a).toNat) as ws).foldl (· + ·) 0 : Nat)
  | _ => numOfInt ((List.zipWith hamByte as ws).foldl (· + ·) 0 : Nat)

/-- The fold of a mode of two accumulated values (Table 3-5). -/
def modeFold (mode : Nat) (a b : Flagged) : Flagged :=
  match mode with
  | 3 => (a.1.min b.1, a.2 ||| b.2)
  | 4 => (a.1.max b.1, a.2 ||| b.2)
  | 5 => (a.1.add b.1, a.2 ||| b.2)
  | 6 => (a.1.add b.1, a.2 ||| b.2)
  | _ => addW40 a b

/-- A block value folded into the accumulator: sums round once, after the addition; minimum and maximum round the
block value. -/
def foldBlock (mode : Nat) (acc : Flagged) (as ws : List Num) : Flagged :=
  let b := blockVal mode as ws
  let g := nanFlag b (as ++ ws)
  match mode with
  | 3 => let r := roundW40 b; (acc.1.min r.1, acc.2 ||| r.2 ||| g)
  | 4 => let r := roundW40 b; (acc.1.max r.1, acc.2 ||| r.2 ||| g)
  | 5 => (acc.1.add b, acc.2)
  | 6 => (acc.1.add b, acc.2)
  | _ => addW40 acc (b, g)

def modeStart (mode : Nat) : Num := if mode = 3 then .inf false else if mode = 4 then .inf true else numZero

/-- A part of the k-blocks, in order. -/
def foldPart (mode : Nat) (blocks : List (List Num × List Num)) : Flagged :=
  blocks.foldl (fun acc b => foldBlock mode acc b.1 b.2) (modeStart mode, 0)

/-- The accumulated value of one output element (R71, R75, R77). -/
def mxAccum (mode depth split : Nat) (as ws : List Num) : Flagged :=
  let blocks := List.zip (chunksOf depth as) (chunksOf depth ws)
  let per := ceilDiv blocks.length (2 ^ split)
  let parts := (List.range (2 ^ split)).map fun i => foldPart mode ((blocks.drop (i * per)).take per)
  (orderedFold (modeFold mode) parts).getD (modeStart mode, 0)

/-- The D combine (R76, R77, R78). -/
def combineD (mode : Nat) (d : Num) (acc : Flagged) : Flagged :=
  if mxIntMode mode then
    let s := d.add acc.1
    match s with
    | .fin n m e =>
      let v := signed n (m <<< e.toNat)
      let lo : Int := -(2 ^ 31)
      let hi : Int := 2 ^ 31 - 1
      if v < lo then (numOfInt lo, acc.2 ||| intSat) else if hi < v then (numOfInt hi, acc.2 ||| intSat) else (s, acc.2)
    | _ => (s, acc.2)
  else modeFold mode (d, 0) acc

/-- The stored element (R79): bits and flags. -/
def mxStore (c : Cmd) (index : Nat) (acc : Flagged) : Nat × Nat :=
  let p := c.packet
  if mxIntMode (mxMode p) then ((convertInt 32 acc.1).bits, acc.2)
  else
    let grad := mxRole p = 2
    let rnd := if grad then some (srOf c (par p 0x6C 4) (par p 0xA0 2) index) else none
    let v := convert (mxFmt p 2) grad rnd (acc.1.scale (mxExp p 2))
    (v.bits, acc.2 ||| v.flags ||| (if v.ovf then stepOvf else 0))

/-! The arrays (R64, R66, R67, R70, R89) -/

/-- Cycles per activation row (Table 3-2). -/
def mxRowCycles (mode a b : Nat) : Nat :=
  if 1 ≤ mode then 2
  else if a = 1 ∨ ((a = 2 ∨ a = 3) ∧ (b = 2 ∨ b = 3)) then 1
  else if a = 6 then 16 else 2

/-- The k-blocks of weights pass through the shadow buffer, and each swap exchanges the buffers (R66). -/
def ArrayAux.loadAll (a : ArrayAux) (blocks : List (List (List Num))) : ArrayAux :=
  blocks.foldl (fun a b => { a with active := b, shadow := a.active }) a

/-- A group's sums fill the accumulator block that collects; the next group has the other (R67). -/
def ArrayAux.collect (a : ArrayAux) (rows : List (List Num)) : ArrayAux :=
  { a with acc0 := if a.second then a.acc0 else rows, acc1 := if a.second then rows else a.acc1, second := !a.second }

/-- A product with a zero factor whose other factor is finite (R70). -/
def gatedPair (a w : Num) : Bool := (a.isZero && w.isFinite) || (w.isZero && a.isFinite)

/-- Such products of a row and a column. -/
def gatedOf (as ws : List Num) : Nat :=
  ((List.zip as ws).filter fun x => gatedPair x.1 x.2).length

/-- Array j of a tile computes its brick of a group: its weights by k-block, its sums, its counters (Table 3-10).
DESIGN CHOICE (log 67): a cell operation is one element operation of Table 3-2, so an FP4 cell does two; those with a
zero are gated in the MAC mode, whose cells multiply. DESIGN CHOICE (log 91): a group that stops after some of its
bricks, and is computed again at the resume, counts again whole. -/
def arrayGroup (t j cycles : Nat) (blocks : List (List (List Num))) (rows : List (List Num)) (ops gated : Nat) (h : Hw) : Hw :=
  let x := tileAux h t
  let a := x.arrays.getD j .reset
  let a' := { (a.loadAll blocks).collect rows with cellOps := a.cellOps + ops, gatedOps := a.gatedOps + gated }
  let h := setTileAux h t { x with arrays := x.arrays.set j a' }
  let r := fun k => regOf (.tile t) (0x100 + 16 * j + 4 * k)
  let h := countOn h (r 0) cycles
  let h := countOn h (r 1) (a'.cellOps / 4096 - a.cellOps / 4096)
  let h := countOn h (r 2) (a'.gatedOps / 4096 - a.gatedOps / 4096)
  countOn h (r 3) blocks.length

/-- Bricks wait in the finished-tile queue, which holds 16 (R60, R67). -/
def queueBricks (t : Nat) (bricks : List (List (List Num))) (h : Hw) : Hw :=
  let x := tileAux h t
  setTileAux h t { x with queue := (x.queue ++ bricks).take 16 }

/-- The vector engine takes the bricks of a group from the queue of the tile that serves the command. -/
def takeGroup (c : Cmd) (n : Nat) (h : Hw) : Hw := (c.serving.map fun x => takeBricks x.2 n h).getD h

/-- A brick group computed on a tile: rows of A, its columns of B, and the sums by row and column. Each array takes 64
of the columns; all four swap together, and a row enters all four (R66). -/
def groupOnTile (c : Cmd) (as bs : List (List Num)) (acc : List (List Num)) (h : Hw) : Hw :=
  match c.serving with
  | none => h
  | some x =>
    let p := c.packet
    let depth := mxDepth (mxFmt p 0)
    let k := mxK p
    let cyc := as.length * mxRowCycles (mxMode p) (mxFmt p 0) (mxFmt p 1) * ceilDiv k depth
    let h := (List.range 4).foldl (fun h j =>
      let cols := (bs.drop (64 * j)).take 64
      let blocks := (List.range (ceilDiv k depth)).map fun b => cols.map fun w => (w.drop (b * depth)).take depth
      let gated := if mxMode p = 0 then (as.map fun a => (cols.map fun w => gatedOf a w).sum).sum else 0
      arrayGroup x.2 j cyc blocks (acc.map fun r => (r.drop (64 * j)).take 64) (as.length * cols.length * k) gated h) h
    queueBricks x.2 ((List.range (ceilDiv bs.length 64)).map fun j => acc.map fun r => (r.drop (64 * j)).take 64) h

/-- The columns of a brick group from j0 on. -/
def groupCols (who : Who) (p : List Byte) (b j0 cols : Nat) : Run (List (List Num)) := do
  let bs ← (List.range (ceilDiv cols 64)).mapM fun g => mxColsB who p b (j0 + 64 * g) (min 64 (cols - 64 * g))
  pure bs.flatten

/-! GEMM, GEMM_ACC and DIST -/

/-- Brick groups of a batch: bands of 64 rows, and 256 columns each. -/
def mxBands (p : List Byte) : Nat := ceilDiv (mxM p) 64
def mxGroups (p : List Byte) : Nat := ceilDiv (mxN p) 256

/-- Unit u: a brick group, by batch, row band and column group. It starts only when all its operands are staged (R68),
and each brick has read its D by then (R84). -/
def mxUnit (slot : Nat) (c : Cmd) (u : Nat) : Run UnitOut := do
  let p := c.packet
  let who := whoOf slot c
  let b := u / (mxBands p * mxGroups p)
  let i0 := u / mxGroups p % mxBands p * 64
  let j0 := u % mxGroups p * 256
  let rows := min 64 (mxM p - i0)
  let cols := min 256 (mxN p - j0)
  let as ← mxRowsA who p b i0 rows
  let bs ← groupCols who p b j0 cols
  let ds ← if mxDEn p then
      (List.range rows).mapM fun i => do
        let els ← rowElemBits who (mxFmt p 3) (strided p 0x18 0x58 b) (mxLdc p) (i0 + i) j0 cols
        pure (els.map (decodeElem (mxFmt p 3)))
    else pure []
  let acc := as.map fun a => bs.map fun w => mxAccum (mxMode p) (mxDepth (mxFmt p 0)) (mxSplit p) a w
  modifyHw (groupOnTile c as bs (acc.map fun r => r.map Prod.fst))
  let els := (List.range rows).map fun i => (List.range cols).map fun j =>
    let x := (acc.getD i []).getD j (numZero, 0)
    let x := if mxDEn p then combineD (mxMode p) ((ds.getD i []).getD j numZero) x else x
    mxStore c (b * (mxM p * mxN p) + (i0 + i) * mxN p + (j0 + j)) x
  let eb := containerBits (mxFmt p 2) / 8
  let base := strided p 0x10 0x50 b
  let brick := fun g => (List.range rows).map fun i =>
    (base + ((i0 + i) * mxLdc p + j0 + 64 * g) * eb,
     packElems (mxFmt p 2) ((((els.getD i []).map Prod.fst).drop (64 * g)).take 64))
  let flags := fun g => els.foldl (fun f r => ((r.drop (64 * g)).take 64).foldl (fun f x => f ||| x.2) f) 0
  pure { bricks := (List.range (ceilDiv cols 64)).map brick, byBrick := (List.range (ceilDiv cols 64)).map flags }

/-- One range per operand row of every batch: A and B with their scales, C, and D (R81). -/
def mxBatches (p : List Byte) (base stride : Nat) (f : Nat → List (Nat × Nat)) : List (Nat × Nat) :=
  (List.range (if par p stride 8 = 0 then min 1 (mxBatch p) else mxBatch p)).flatMap fun b => f (strided p base stride b)

def mxScales (p : List Byte) (off stride rows per : Nat) : List (Nat × Nat) :=
  if par p off 8 = 0 then [] else [(par p off 8, (if par p stride 8 = 0 then 1 else mxBatch p) * rows * per)]

def mxRangesA (p : List Byte) : List (Nat × Nat) :=
  (mxBatches p 0 0x40 fun a =>
    if mxTransA p then matRanges a (containerBits (mxFmt p 0)) (mxLda p) (mxK p) (mxM p)
    else matRanges a (containerBits (mxFmt p 0)) (mxLda p) (mxM p) (mxK p)) ++
  mxScales p 0x70 0x40 (mxM p) (ceilDiv (mxLda p) 32)

def mxRangesB (p : List Byte) : List (Nat × Nat) :=
  (mxBatches p 8 0x48 fun a =>
    if mxBrick p then matRanges a (8 * brickPitch (mxFmt p 1)) (mxLdb p) (ceilDiv (mxK p) 64) (ceilDiv (mxN p) 64)
    else if mxTransB p then matRanges a (containerBits (mxFmt p 1)) (mxLdb p) (mxN p) (mxK p)
    else matRanges a (containerBits (mxFmt p 1)) (mxLdb p) (mxK p) (mxN p)) ++
  mxScales p 0x78 0x48 (mxN p) (ceilDiv (mxK p) 32)

/-- C, or D: rows of n elements. -/
def mxRangesOut (p : List Byte) (off stride fmt n : Nat) : List (Nat × Nat) :=
  mxBatches p off stride fun a => matRanges a (containerBits fmt) (mxLdc p) (mxM p) n

/-- C where it overlaps A, B or their scales, or D without coinciding with it (R84). -/
def mxUndef (p : List Byte) : Run (List (Nat × Nat)) :=
  let out := mxRangesOut p 0x10 0x50 (mxFmt p 2) (mxN p)
  let same := par p 0x10 8 = par p 0x18 8 ∧ mxFmt p 2 = mxFmt p 3 ∧ (mxBatch p ≤ 1 ∨ par p 0x50 8 = par p 0x58 8)
  let bad := rangesMeet out (mxRangesA p) || rangesMeet out (mxRangesB p) ||
    (mxDEn p && !same && rangesMeet out (mxRangesOut p 0x18 0x58 (mxFmt p 3) (mxN p)))
  undefIf bad out

def mxWork (slot : Nat) (c : Cmd) : Work where
  pre := pure ()
  units := mxBatch c.packet * mxBands c.packet * mxGroups c.packet
  unit := mxUnit slot
  done := fun flags _ => do pure (0, flags % 32, ← writtenOf slot)
  undef := mxUndef c.packet
  outs := pure (mxRangesOut c.packet 0x10 0x50 (mxFmt c.packet 2) (mxN c.packet))

def matrixRun (slot : Nat) (c : Cmd) (h : Hw) : Hw := runTiles slot (mxWork slot c) c h

def execGemm (slot : SlotId) (s : State) : Host.Outcome State Fault Refusal :=
  onHw (withCmd slot.val 0x20 (matrixRun slot.val)) s

def execGemmAcc (slot : SlotId) (s : State) : Host.Outcome State Fault Refusal :=
  onHw (withCmd slot.val 0x21 (matrixRun slot.val)) s

def execDist (slot : SlotId) (s : State) : Host.Outcome State Fault Refusal :=
  onHw (withCmd slot.val 0x22 (matrixRun slot.val)) s

/-! CMP_SELECT (R85, R86) -/

/-- Whether a scored column is better than another (R85). -/
def better (smallest : Bool) (a b : Num × Nat) : Bool :=
  let gt := if smallest then a.1.lt b.1 else b.1.lt a.1
  let lt := if smallest then b.1.lt a.1 else a.1.lt b.1
  if a.1.isNan || b.1.isNan then (if a.1.isNan = b.1.isNan then decide (a.2 < b.2) else !a.1.isNan)
  else if gt then true else if lt then false else decide (a.2 < b.2)

/-- Places a column among the kept ones, best first. -/
def insertBest (smallest : Bool) (x : Num × Nat) : List (Num × Nat) → List (Num × Nat)
  | [] => [x]
  | y :: ys => if better smallest x y then x :: y :: ys else y :: insertBest smallest x ys

/-- The k best columns. -/
def selectBest (smallest : Bool) (k : Nat) (xs : List (Num × Nat)) : List (Num × Nat) :=
  xs.foldl (fun acc x => (insertBest smallest x acc).take k) []

/-- The running selections of a band's rows as words of progress, and back: SEL_K pairs a row, the W40 score's bits
and the column; 2^32 - 1 for none. -/
def selWords (k : Nat) (rows : List (List (Num × Nat))) : List Nat :=
  rows.flatMap fun r =>
    ((r.map fun x => [w40.bitsOf x.1, x.2]) ++ List.replicate (k - r.length) [0, 2 ^ 32 - 1]).flatten

def selRows (k : Nat) (ws : List Nat) : List (List (Num × Nat)) :=
  (chunksOf (2 * k) ws).map fun r => ((chunksOf 2 r).filter fun x => x.getD 1 0 ≠ 2 ^ 32 - 1).map fun x =>
    (w40.decode (x.getD 0 0), x.getD 1 0)

/-- The slot of a tile in the work buffer (R86): that of its place in the mask. -/
def selSlot (p : List Byte) (i : Nat) : Nat × Nat := (par p 0x98 8 + 131072 * i, 131072)

/-- Unit u: a brick group is scored and merged with the running selection of its band, which the command's progress
holds: first the slot it was saved in, counted from 1, then the words. It reads that slot where it was saved. The last
group of a band writes its selections. Scored bricks leave the queue as they are merged (R67). DESIGN CHOICE (log 68): the output bricks that DETAIL1 counts are those of the
values, 64 to a row, each with its indices. -/
def selUnit (slot : Nat) (c : Cmd) (u : Nat) : Run UnitOut := do
  let p := c.packet
  let who := whoOf slot c
  let ng := mxGroups p
  let b := u / (mxBands p * ng)
  let i0 := u / ng % mxBands p * 64
  let g := u % ng
  let rows := min 64 (mxM p - i0)
  let cols := min 256 (mxN p - g * 256)
  let k := mxSel p
  let saved := c.priv.headD 0
  if g ≠ 0 ∧ saved ≠ 0 then
    let _ ← rd who (selSlot p (saved - 1)).1 (selSlot p (saved - 1)).2
  let as ← mxRowsA who p b i0 rows
  let bs ← groupCols who p b (g * 256) cols
  let acc := as.map fun a => bs.map fun w => mxAccum (mxMode p) (mxDepth (mxFmt p 0)) (mxSplit p) a w
  modifyHw fun h => takeGroup c 4 (groupOnTile c as bs (acc.map fun r => r.map Prod.fst) h)
  let flags := acc.flatten.foldl (fun f x => f ||| x.2) 0
  let before := if g = 0 then [] else selRows k c.priv.tail
  let sel := (List.range rows).map fun i =>
    let row := acc.getD i []
    ((List.range row.length).map fun j => ((row.getD j (numZero, 0)).1, g * 256 + j)).foldl
      (fun s x => (insertBest (mxSelDir p) x s).take k) (before.getD i [])
  if g + 1 < ng then pure { bricks := [], flags := flags, keep := some (0 :: selWords k sel) }
  else
    let full := sel.map fun r => r ++ List.replicate (k - r.length) (Num.nan, 2 ^ 32 - 1)
    let conv := full.map fun r => r.map fun x => convert (mxFmt p 2) false none (x.1.scale (mxExp p 2))
    let eb := containerBits (mxFmt p 2) / 8
    let brick := fun q => (List.range rows).flatMap fun i =>
      let at_ := (i0 + i) * mxLdc p + 64 * q
      [(strided p 0x10 0x50 b + at_ * eb,
        packElems (mxFmt p 2) ((((conv.getD i []).drop (64 * q)).take 64).map Conv.bits)),
       (strided p 0x18 0x58 b + at_ * 4, (((full.getD i []).drop (64 * q)).take 64).flatMap fun x => leBytes 4 x.2)]
    pure { bricks := (List.range (ceilDiv k 64)).map brick,
           flags := conv.flatten.foldl (fun f x => f ||| x.flags) flags, keep := some [] }

/-- A band's running selection is written to the slot of the tile that serves it (R86). -/
def selSave (slot : Nat) (c : Cmd) : Run Unit :=
  match c.serving, c.priv with
  | some x, _ :: ws => do
    let i := (c.mask.takeWhile (· ≠ x.2)).length
    writeFree (whoOf slot c) [selSlot c.packet i]
    modifyHw fun h => modCmd h slot fun c => { c with priv := (i + 1) :: ws }
  | _, _ => pure ()

/-- The work buffer of CMP_SELECT: a slot for each tile of the mask. -/
def selBuffer (p : List Byte) : List (Nat × Nat) := [(par p 0x98 8, 131072 * (maskAt p 0x80).length)]

def selOuts (p : List Byte) : List (Nat × Nat) :=
  mxRangesOut p 0x10 0x50 (mxFmt p 2) (mxSel p) ++ mxRangesOut p 0x18 0x58 11 (mxSel p)

/-- The outputs of CMP_SELECT where they overlap an operand, the work buffer or each other (R84). -/
def selUndef (p : List Byte) : Run (List (Nat × Nat)) :=
  let out := selOuts p
  undefIf (rangesMeet (mxRangesOut p 0x10 0x50 (mxFmt p 2) (mxSel p)) (mxRangesOut p 0x18 0x58 11 (mxSel p)) ||
    rangesMeet out (mxRangesA p) || rangesMeet out (mxRangesB p) || rangesMeet out (selBuffer p)) out

def selWork (slot : Nat) (c : Cmd) : Work where
  pre := pure ()
  units := mxBatch c.packet * mxBands c.packet * mxGroups c.packet
  unit := selUnit slot
  done := fun flags _ => do pure (0, flags % 32, ← writtenOf slot)
  undef := selUndef c.packet
  outs := pure (selOuts c.packet)
  buffer := selBuffer c.packet
  key := fun u => u / mxGroups c.packet
  save := selSave slot

def execCmpSelect (slot : SlotId) (s : State) : Host.Outcome State Fault Refusal :=
  onHw (withCmd slot.val 0x23 fun c h => runTiles slot.val (selWork slot.val c) c h) s

end Sys2Proof.Machine
end

