-- ==== Sys2Proof/Machine/Vector.lean ====
section
/-! DEFINITION. The vector commands VOP, SCAN, SEGSCAN, REDUCE, NORM, SOFTMAX, ROPE, RNG_FILL and AMAX
(R119-R140). -/

namespace Sys2Proof.Machine

/-! Parameters (Tables 5-1, 5-2) -/

def vOps (p : List Byte) : Nat := parBits p 8 6 0
def vRank (p : List Byte) : Nat := parBits p 8 10 8
def vAxis (p : List Byte) : Nat := parBits p 8 14 12
def vMode (p : List Byte) : Nat := parBits p 8 19 16
def vSegLen (p : List Byte) : Bool := parBit p 8 20
def vFree (p : List Byte) : Bool := parBit p 8 21
def vDim (p : List Byte) (i : Nat) : Nat := if i < vRank p then par p (0x20 + 4 * i) 4 else 1
def vWork (p : List Byte) : Nat := par p 0x38 8

/-- A tensor slot. -/
structure VSlot where
  n : Nat
  base : Nat
  fmt : Nat
  role : Nat
  out : Bool
  scales : Bool
  exp : Int
  strides : List Int
  deriving DecidableEq, Repr

def vSlot (p : List Byte) (n : Nat) : VSlot :=
  let o := 0x40 + 0x28 * n
  VSlot.mk n (par p o 8) (par p (o + 8) 1) (parBits p (o + 8) 9 8) (parBit p (o + 8) 10) (parBit p (o + 8) 11)
    (sext 8 (par p (o + 0xC) 1)) ((List.range 6).map fun i => sext 32 (par p (o + 0x10 + 4 * i) 4))

def vHasProg (op : Nat) : Bool := decide (0x30 ≤ op) && decide (op ≤ 0x33)
def vNeedsWork (op : Nat) : Bool := !(op = 0x30 || op = 0x36 || op = 0x37)
def vFmtOk (f : Nat) : Bool := (decide (1 ≤ f) && decide (f ≤ 7)) || f = 9 || f = 10 || f = 11

/-- A slot that serves as the block scales of slot n. -/
def vScaleOf (p : List Byte) (n : Nat) : Option VSlot :=
  if n < 7 then (let s := vSlot p (n + 1); if s.fmt ≠ 0 ∧ s.scales then some s else none) else none

/-- Offsets of a slot's parts that R120 and R121 call invalid. DESIGN CHOICE (log 74): an unused slot with a nonzero
byte offends at the slot's start, whichever byte it is. -/
def slotBad (p : List Byte) (n : Nat) : List Nat :=
  let s := vSlot p n
  let o := 0x80 + 0x28 * n
  if s.fmt = 0 then (if pk p o 40 ≠ 0 then [o] else [])
  else
    let served := vSlot p (n - 1)
    let scaleBad := s.scales && (n = 0 || served.fmt = 0 || served.scales || s.fmt ≠ 9 || 3 < served.fmt ||
      served.out ≠ s.out)
    (if !vFmtOk s.fmt ∨ (s.role ≠ 0 ∧ !s.out) ∨ s.role = 3 ∨ scaleBad ∨
        (s.fmt = 1 ∧ (vScaleOf p n).isNone) then [o + 8] else []) ++
    ((List.range 6).filter fun i => vRank p ≤ i ∧ s.strides.getD i 0 ≠ 0).map (fun i => o + 0x10 + 4 * i) ++
    (if s.fmt = 1 ∨ s.fmt = 10 then
      ((List.range 6).filter fun i => decide (i < vRank p) &&
        (if i = 0 then s.strides.getD 0 0 ≠ 1 else s.strides.getD i 0 % 2 ≠ 0)).map (fun i => o + 0x10 + 4 * i)
     else [])

/-- A slot that must have a direction, a format among some, and serve no block scales. -/
def slotIs (p : List Byte) (n : Nat) (out : Bool) (fmts : List Nat) : Bool :=
  let s := vSlot p n
  fmts.contains s.fmt && (s.fmt = 0 || (s.out = out && !s.scales))

def fltFmts : List Nat := [2, 3, 4, 5, 6, 7]
def anyFmts : List Nat := [1, 2, 3, 4, 5, 6, 7, 9, 10, 11]

/-- Slots that break Table 5-5 (R128), and gradient rules of opcodes without a program (R103). DESIGN CHOICE (log 75):
the gain and bias of NORM may have any format of R120, which R131 reads into FP32. -/
def opSlotsBad (op : Nat) (p : List Byte) : List Nat :=
  let unused := fun (ns : List Nat) => ns.filter fun n => (vSlot p n).fmt ≠ 0
  let need := fun (n : Nat) (out : Bool) (fs : List Nat) => if slotIs p n out fs then [] else [n]
  let bad := match op with
    | 0x32 => need 7 false (if vSegLen p then [11] else [9])
    | 0x34 => need 0 false fltFmts ++ need 1 true fltFmts ++ need 2 false (0 :: anyFmts) ++ need 3 false (0 :: anyFmts) ++
        unused [4, 5, 6, 7]
    | 0x35 => need 0 false fltFmts ++ need 1 true fltFmts ++ need 2 true [0, 7] ++ unused [3, 4, 5, 6, 7]
    | 0x36 => need 0 false [2, 3, 4, 5, 6] ++ need 1 true anyFmts ++ need 2 false [0, 11] ++
        unused [3, 4, 5, 6, 7]
    | 0x37 => unused [0] ++ need 1 true anyFmts ++ (unused [2]).filter (fun _ => (vScaleOf p 1).isNone) ++
        unused [3, 4, 5, 6, 7]
    | 0x38 => need 0 false anyFmts ++ need 1 true [7] ++ unused [2, 3, 4, 5, 6, 7]
    | _ => []
  let y := vSlot p 1
  let grad := !vHasProg op && op ≠ 0x38 && y.role = 2 &&
    ([1, 9, 10, 11].contains y.fmt || vFree p)
  bad.map (fun n => 0x88 + 0x28 * n) ++ (if grad then [0xB0] else [])

/-- Modes of an opcode (Table 5-5): the greatest. -/
def vModeMax (op : Nat) : Nat :=
  match op with
  | 0x31 => 3
  | 0x32 => 3
  | 0x33 => 2
  | 0x34 => 1
  | 0x35 => 1
  | 0x36 => 1
  | 0x37 => 2
  | _ => 0

/-- Fields that R119 and Table 5-5 make invalid. DESIGN CHOICE (log 76): ROPE may name any loop as AXIS, which gives its
positions where slot 2 is unused and means nothing where it is used. -/
def vectorExtra (op : Nat) (_ : Hw) (_ : World) (p : List Byte) : List Nat :=
  let axisUsed := !(op = 0x30 || op = 0x37 || op = 0x38)
  let L := vDim p (vAxis p)
  (if !vHasProg op ∧ par p 0 8 ≠ 0 then [0x40] else []) ++
  (if (if vHasProg op then 64 < vOps p else vOps p ≠ 0) ∨ 6 < vRank p ∨
      (if axisUsed then vRank p ≤ vAxis p else vAxis p ≠ 0) ∨ vModeMax op < vMode p ∨
      (vSegLen p ∧ op ≠ 0x32) then [0x48] else []) ++
  (if (if op = 0x38 then !vFmtOk (par p 0xC 1) ∧ par p 0xC 1 ≠ 8 else par p 0xC 1 ≠ 0) then [0x4C] else []) ++
  (if !(op = 0x34 ∨ op = 0x36 ∨ (op = 0x37 ∧ vMode p = 2)) ∧ par p 0x14 4 ≠ 0 then [0x54] else []) ++
  (if op ≠ 0x36 ∧ par p 0x18 4 ≠ 0 then [0x58] else []) ++
  ((List.range 6).filter fun i => vRank p ≤ i ∧ par p (0x20 + 4 * i) 4 ≠ 0).map (fun i => 0x60 + 4 * i) ++
  (if op = 0x36 ∧ vDim p 0 % 2 = 1 then [0x60] else []) ++
  (if (op = 0x34 ∨ op = 0x35) ∧ 2 ^ 20 < L then [0x60 + 4 * vAxis p] else []) ++
  (if vNeedsWork op = decide (vWork p = 0) then [0x78] else []) ++
  (List.range 8).flatMap (slotBad p) ++ opSlotsBad op p ++ maskEmpty p 0x180

def vectorAlign (_ : Hw) (p : List Byte) : List Nat :=
  (if par p 0 8 % 8 ≠ 0 then [0x40] else []) ++ (if vWork p % 4096 ≠ 0 then [0x78] else []) ++
  ((List.range 8).filter fun n =>
    let s := vSlot p n
    s.fmt ≠ 0 ∧ s.base % fmtAlign s.fmt ≠ 0).map (fun n => 0x80 + 0x28 * n)

def slotFields (n : Nat) : List PField :=
  let o := 0x40 + 0x28 * n
  [fQ o, fV (o + 8) 11 0, fV (o + 0xC) 7 0] ++ (List.range 6).map fun i => fV (o + 0x10 + 4 * i) 31 0

def specVector (op : Nat) : PSpec :=
  { len := 7,
    fields := [fQ 0, (if vHasProg op then fS 8 6 0 else fV 8 6 0), fS 8 10 8, fV 8 14 12, fV 8 21 16, fV 0xC 7 0,
      fV 0xC 31 16, fV 0x10 31 0, fV 0x14 31 0, fV 0x18 31 0] ++ ((List.range 6).map fun i => fV (0x20 + 4 * i) 31 0) ++
      [fQ 0x38] ++ (List.range 8).flatMap slotFields ++ fMask 0x180,
    extra := vectorExtra op,
    extraAlign := vectorAlign,
    secure := fun h p => maskSecure h p 0x180,
    emptyIf := fun p => (List.range 6).any fun i => vDim p i = 0 }

/-! The iteration space (R121, R122) -/

def vTotal (p : List Byte) : Nat := (List.range 6).foldl (fun n i => n * vDim p i) 1

/-- The point of a logical index over given loops; the other loops stand at 0. -/
def pointOf (p : List Byte) (loops : List Nat) (idx : Nat) : List Nat :=
  (loops.foldl (fun (acc : Nat × List (Nat × Nat)) i =>
    (acc.1 / vDim p i, acc.2 ++ [(i, acc.1 % vDim p i)])) (idx, [])).2.foldl
      (fun pt e => pt.set e.1 e.2) (List.replicate 6 0)

def allLoops : List Nat := List.range 6

/-- The loops other than AXIS. -/
def rowLoops (p : List Byte) : List Nat := allLoops.filter fun i => i ≠ vAxis p

def vRows (p : List Byte) : Nat := (rowLoops p).foldl (fun n i => n * vDim p i) 1

/-- The logical index of a point (R122). -/
def logicalIndex (p : List Byte) (pt : List Nat) : Nat :=
  (List.range 6).reverse.foldl (fun n i => n * vDim p i + pt.getD i 0) 0

/-- The element offset of a point in a slot. -/
def slotOffset (s : VSlot) (pt : List Nat) : Int :=
  (List.range 6).foldl (fun n i => n + (pt.getD i 0 : Int) * s.strides.getD i 0) 0

/-- The byte address of an element offset, and the nibble of a 4-bit one. -/
def slotAddr (s : VSlot) (e : Int) : Nat × Nat :=
  let b := containerBits s.fmt
  if b = 4 then ((((s.base : Int) + e / 2) % (2 ^ 64 : Int)).toNat, (e % 2).toNat)
  else ((((s.base : Int) + e * (b / 8 : Nat)) % (2 ^ 64 : Int)).toNat, 0)

/-- Stored bits of an element. -/
def slotBits (who : Who) (s : VSlot) (e : Int) : Run Nat := do
  let (a, nib) := slotAddr s e
  if containerBits s.fmt = 4 then
    let v ← rdNat who a 1
    pure (v / (if nib = 0 then 1 else 16) % 16)
  else
    let v ← rdNat who a (containerBits s.fmt / 8)
    pure (if s.fmt = 7 then v % 2 ^ 40 else v)

/-- The point of a scale slot: loop 0 counts blocks of 32. -/
def scalePoint (pt : List Nat) : List Nat := pt.set 0 (pt.getD 0 0 / 32)

/-- The exact value of a slot at a point, block scale and EXP applied (R98, R99, R121). -/
def slotNum (who : Who) (p : List Byte) (s : VSlot) (pt : List Nat) : Run Num := do
  let x ← slotBits who s (slotOffset s pt)
  match vScaleOf p s.n with
  | none => pure ((decodeElem s.fmt x).scale s.exp)
  | some z => do
    let b ← slotBits who z (slotOffset z (scalePoint pt))
    pure ((scaledElem s.fmt x b).scale s.exp)

/-! Lanes (R124-R126) -/

/-- A register: a value of a working format, FP32 (0), BF16 (1) or W40 (2), or an INT32. -/
inductive Lane where
  | flt (wf : Nat) (x : Num)
  | int (w : Word)
  deriving DecidableEq, Repr

def Lane.wf : Lane → Nat
  | .flt w _ => w
  | .int _ => 3

def Lane.num : Lane → Num
  | .flt _ x => x
  | .int w => numOfInt w.toInt

def Lane.word : Lane → Word
  | .int w => w
  | .flt _ _ => 0

def wfCode (wf : Nat) : Nat := if wf = 0 then 6 else if wf = 1 then 5 else if wf = 2 then 7 else 11
/-- A register as a number, for the work area. -/
def Lane.pack : Lane → Nat
  | .int w => 3 + 4 * w.toNat
  | .flt wf x => wf + 4 * (wfFmt wf).bitsOf x

def Lane.unpack (n : Nat) : Lane :=
  if n % 4 = 3 then .int (BitVec.ofNat 32 (n / 4)) else .flt (n % 4) ((wfFmt (n % 4)).decode (n / 4))

/-- Conversion to a working format, activation role (R102, CVT in Table 5-4). -/
def toWf (wf : Nat) (x : Num) : Lane × Nat :=
  let c := convert (wfCode wf) false none x
  (if wf = 3 then .int (BitVec.ofNat 32 c.bits) else .flt wf ((wfFmt wf).decode c.bits), c.flags)

/-- A loaded value in a working format (R125): exact where the format holds it, infinities too; else converted. -/
def loadWf (wf : Nat) (x : Num) : Lane × Nat :=
  match x with
  | .inf n => if wf = 3 then toWf wf x else (.flt wf (.inf n), 0)
  | x => toWf wf x

/-- One rounding to a working format (R108): only a W40 overflow raises ACC_OVF. -/
def roundWf (wf : Nat) (ops : List Num) (x : Num) : Lane × Nat :=
  let r := (wfFmt wf).round x
  (.flt wf r.1, (if r.2 && wf = 2 then accOvf else 0) ||| nanFlag r.1 ops)

/-- The function set's version (Table 17-8). -/
def funcVersion (h : Hw) : Nat := (getReg h (regOf .zl 0xC)).toNat

def fp32Round (x : Num) : Num := (fp32.round x).1

/-! Microprograms -/

/-- A microprogram word (Table 5-3). -/
structure VWord where
  imm : Nat
  mop : Nat
  vd : Nat
  va : Nat
  vb : Nat
  vc : Nat
  wf : Nat
  slot : Nat
  rsvd : Nat
  deriving DecidableEq, Repr

def parseWord (w : Nat) : VWord :=
  VWord.mk (w / 2 ^ 32) (w / 2 ^ 24 % 256) (w / 2 ^ 20 % 16) (w / 2 ^ 16 % 16) (w / 2 ^ 12 % 16) (w / 2 ^ 8 % 16)
    (w / 2 ^ 6 % 4) (w / 8 % 8) (w % 8)

def mopDefined (m : Nat) : Bool :=
  (decide (1 ≤ m) && decide (m ≤ 5)) || (decide (0x10 ≤ m) && decide (m ≤ 0x24)) ||
  (decide (0x30 ≤ m) && decide (m ≤ 0x34)) || (decide (0x40 ≤ m) && decide (m ≤ 0x45)) || m = 0x48

/-- Working formats an operation allows (Table 5-4). -/
def mopWf (m wf : Nat) : Bool :=
  if m = 4 ∨ m = 0x48 ∨ (0x40 ≤ m ∧ m ≤ 0x45) then wf = 3
  else if m = 0x13 ∨ m = 0x14 ∨ m = 0x15 then decide (wf ≤ 1)
  else if m = 0x1C ∨ m = 0x1D then wf = 0 || wf = 2
  else if (0x16 ≤ m ∧ m ≤ 0x17) ∨ (0x1E ≤ m ∧ m ≤ 0x24) then wf = 0
  else if m = 0x34 then decide (wf ≤ 2)
  else true

/-- The registers a word reads, each with the format it must carry; none accepts any. -/
def wordReads (w : VWord) : List (Nat × Option Nat) :=
  let m := w.mop
  if m = 1 ∨ m = 3 ∨ m = 4 ∨ m = 0x48 then []
  else if m = 2 ∨ m = 5 then [(w.va, none)]
  else if m = 0x13 then [(w.va, some w.wf), (w.vb, some w.wf), (w.vc, some w.wf)]
  else if m = 0x33 then [(w.va, some w.wf), (w.vb, some w.wf), (w.vc, some 3)]
  else if (0x10 ≤ m ∧ m ≤ 0x12) ∨ m = 0x14 ∨ m = 0x18 ∨ m = 0x19 ∨ (0x30 ≤ m ∧ m ≤ 0x32) ∨ (0x40 ≤ m ∧ m ≤ 0x45) then
    [(w.va, some w.wf), (w.vb, some w.wf)]
  else [(w.va, some w.wf)]

/-- The format of the register a word writes; none for ST. -/
def wordWrites (w : VWord) : Option Nat :=
  if w.mop = 2 then none else if 0x30 ≤ w.mop ∧ w.mop ≤ 0x34 ∧ w.mop ≠ 0x33 then some 3 else some w.wf

/-- A word may use a slot (R126, Table 5-5). -/
def wordSlotOk (op : Nat) (p : List Byte) (w : VWord) : Bool :=
  if w.mop = 1 ∨ w.mop = 2 then
    let s := vSlot p w.slot
    s.fmt ≠ 0 && !s.scales && (s.out = (w.mop = 2)) && !(op = 0x32 && w.slot = 7)
  else if w.mop = 4 then decide (w.slot ≤ 5) else true

/-- The lowest cause of VE_PROG_ERR that a word breaks, given the formats of the registers written so far. -/
def wordCause (op : Nat) (p : List Byte) (regs : List (Option Nat)) (w : VWord) : Option Nat :=
  let reads := wordReads w
  let at_ := fun r => (regs.getD r none)
  if !mopDefined w.mop then some 1
  else if reads.any fun r => (at_ r.1).isNone then some 2
  else if !mopWf w.mop w.wf ∧ w.mop ≠ 2 then some 3
  else if reads.any fun r => r.2.isSome && at_ r.1 ≠ r.2 then some 4
  else if !wordSlotOk op p w then some 5
  else if w.mop = 2 ∧ (vSlot p w.slot).role = 2 ∧ ([1, 9, 10, 11].contains (vSlot p w.slot).fmt ∨ vFree p) then some 7
  else if w.rsvd ≠ 0 then some 8
  else none

/-- The first word of a program that breaks a rule, and its cause (R127). -/
def progBad (op : Nat) (p : List Byte) (ws : List VWord) : Option (Nat × Nat) :=
  go (List.replicate 16 none) 0 ws
where
  go (regs : List (Option Nat)) (i : Nat) : List VWord → Option (Nat × Nat)
    | [] => if ws.any fun w => w.mop = 2 then none else some (6, ws.length - 1)
    | w :: rest =>
      match wordCause op p regs w with
      | some cause => some (cause, i)
      | none => go (match wordWrites w with | some f => regs.set w.vd (some f) | none => regs) (i + 1) rest

def readProg (who : Who) (p : List Byte) : Run (List VWord) := do
  let bs ← rd who (par p 0 8) (8 * vOps p)
  pure ((List.range (vOps p)).map fun i => parseWord (leAt bs (8 * i) 8))

/-- Where the command's step and key give it random words. -/
structure RngCtx where
  draws : Nat
  ver : Nat

/-- Word k of the generator at a logical index (R134, R274), asked for by program word at_; in the free-running mode
each is a word of its own. -/
def rngWord (c : Cmd) (r : RngCtx) (idx at_ k : Nat) : Word :=
  let p := c.packet
  if vFree p then Config.freeRandom (r.draws * 2 ^ 128 + idx * 2 ^ 8 + at_ * 4 + k)
  else (yrng c.key (par p 0x10 4) idx (c.step.toNat % 2 ^ 32) (par p 0xE 2)).getD k 0

/-- An operation other than LD and ST on its sources (Table 5-4). -/
def mopResult (c : Cmd) (r : RngCtx) (pt : List Nat) (idx at_ : Nat) (w : VWord) (a b d : Lane) : Lane × Nat :=
  let wf := w.wf
  let ia := a.word
  let ib := b.word
  let x := a.num
  let y := b.num
  let z := d.num
  let bool := fun (t : Bool) => ((Lane.int (BitVec.ofNat 32 t.toNat), 0) : Lane × Nat)
  let arith := fun (i : Word) (e : Num) => if wf = 3 then ((Lane.int i, 0) : Lane × Nat) else roundWf wf [x, y] e
  let exact := fun (i : Word) (e : Num) => ((if wf = 3 then Lane.int i else Lane.flt wf e, 0) : Lane × Nat)
  let fn := fun (flag : Nat) =>
    let v := funcWf r.ver w.mop wf x
    ((Lane.flt wf v, flag ||| nanFlag v [x] |||
      (if w.mop = 0x1C && wf = 2 && x.isFinite && !v.isFinite then accOvf else 0)) : Lane × Nat)
  match w.mop with
  | 0x03 => if wf = 3 then (.int (BitVec.ofNat 32 w.imm), 0) else roundWf wf [.nan] (fp32.decode w.imm)
  | 0x04 => (.int (BitVec.ofNat 32 (if w.slot < vRank c.packet then pt.getD w.slot 0 else 0)), 0)
  | 0x05 => toWf wf x
  | 0x10 => arith (ia + ib) (x.add y)
  | 0x11 => arith (ia - ib) (x.sub y)
  | 0x12 => arith (ia * ib) (x.mul y)
  | 0x13 => roundWf wf [x, y, z] ((x.mul y).add z)
  | 0x14 =>
    let v := roundWf wf [x, y] (x.div y)
    (v.1, v.2 ||| (match x with | .fin _ m _ => if m ≠ 0 && y.isZero then divZero else 0 | _ => 0))
  | 0x15 => roundWf wf [x] x.sqrt
  | 0x16 => fn (if x.isZero then divZero else 0)
  | 0x17 => fn (if x.isZero then divZero else 0)
  | 0x18 => exact (if ia.slt ib then ia else ib) (x.min y)
  | 0x19 => exact (if ia.slt ib then ib else ia) (x.max y)
  | 0x1A => exact (if ia.msb then -ia else ia) x.abs
  | 0x1B => exact (-ia) x.neg
  | 0x30 => bool (if wf = 3 then ia.slt ib else x.lt y)
  | 0x31 => bool (if wf = 3 then ia.sle ib else x.le y)
  | 0x32 => bool (if wf = 3 then ia == ib else x.eq y)
  | 0x33 => (if d.word ≠ 0 then a else b, 0)
  | 0x34 => bool x.isNan
  | 0x40 => (.int (ia &&& ib), 0)
  | 0x41 => (.int (ia ||| ib), 0)
  | 0x42 => (.int (ia ^^^ ib), 0)
  | 0x43 => (.int (ia <<< (ib.toNat % 32)), 0)
  | 0x44 => (.int (ia >>> (ib.toNat % 32)), 0)
  | 0x45 => (.int (ia.sshiftRight (ib.toNat % 32)), 0)
  | 0x48 => (.int (rngWord c r idx at_ (w.imm % 4)), 0)
  | _ => fn 0

/-- What a program has done at a point: words run, registers, stores by slot, flags. -/
structure LaneState where
  at_ : Nat
  regs : List Lane
  outs : List (Nat × Lane)
  flags : Nat

/-- Runs the program at one point (R124). -/
def runPoint (who : Who) (c : Cmd) (r : RngCtx) (pt : List Nat) (idx : Nat) : List VWord → LaneState → Run LaneState
  | [], st => pure st
  | w :: ws, st => do
    let reg := fun i => st.regs.getD i (.int 0)
    if w.mop = 2 then runPoint who c r pt idx ws { st with at_ := st.at_ + 1, outs := st.outs ++ [(w.slot, reg w.va)] }
    else
      let v ← if w.mop = 1 then do
          let x ← slotNum who c.packet (vSlot c.packet w.slot) pt
          pure (loadWf w.wf x)
        else pure (mopResult c r pt idx st.at_ w (reg w.va) (reg w.vb) (reg w.vc))
      runPoint who c r pt idx ws { st with at_ := st.at_ + 1, regs := st.regs.set w.vd v.1, flags := st.flags ||| v.2 }

/-- Stores and flags at a point. -/
def evalPoint (who : Who) (c : Cmd) (r : RngCtx) (ws : List VWord) (pt : List Nat) (idx : Nat) :
    Run (List (Nat × Lane) × Nat) := do
  let st ← runPoint who c r pt idx ws { at_ := 0, regs := List.replicate 16 (.int 0), outs := [], flags := 0 }
  pure (st.outs, st.flags)

/-! Stores -/

/-- A value to be stored: its slot, point, element index for random words (R122) and value. -/
structure VStore where
  slot : Nat
  pt : List Nat
  idx : Nat
  val : Num

/-- The bytes of one element at its address; a nibble keeps its neighbour's. -/
def elemWrite (who : Who) (s : VSlot) (e : Int) (bits : Nat) : Run (Nat × List Byte) := do
  let (a, nib) := slotAddr s e
  if containerBits s.fmt = 4 then
    let old ← rdNat who a 1
    pure (a, [BitVec.ofNat 8 (if nib = 0 then old / 16 * 16 + bits % 16 else old % 16 + bits % 16 * 16)])
  else pure (a, leBytes (containerBits s.fmt / 8) bits)

/-- Merges consecutive nibble writes of one byte: a later write of a byte keeps the nibble of the earlier one. -/
def mergeNibbles (s : VSlot) (xs : List (Nat × Nat × Nat × List Byte)) : List (Nat × List Byte) :=
  (xs.foldr (fun x (acc : List (Nat × Nat × Nat × List Byte)) =>
    match x, acc with
    | (a, 0, b, [lo]), (a', 1, b', bs) :: rest =>
      if a = a' ∧ containerBits s.fmt = 4 then (a, 2, 0, [BitVec.ofNat 8 (lo.toNat % 16 + b' % 16 * 16)]) :: rest
      else (a, 0, b, [lo]) :: (a', 1, b', bs) :: rest
    | x, acc => x :: acc) []).map fun x => (x.1, x.2.2.2)

/-- The conversion of a stored element under its slot's role and EXP (R98, R102). An integer store that saturates sets
INT_SAT too (the field map of VE_MATH_STATUS). -/
def storeConv (c : Cmd) (s : VSlot) (idx : Nat) (x : Num) : Conv :=
  let grad := s.role = 2
  let rnd := if grad then some (srOf c (par c.packet 0x10 4) (par c.packet 0xE 2) idx) else none
  let v := convert s.fmt grad rnd x
  if (intBits s.fmt).isSome && v.flags ≠ 0 && !x.isNan then { v with flags := v.flags ||| intSat } else v

/-- The conversion of an element of a block with a scale, or of a NaN block (R99, R102, Table 4-4): an FP8 element of it
is a canonical NaN; the bits of an FP4 one are open (log 73). -/
def blockConv (c : Cmd) (s : VSlot) (o : VStore) (e : Option Int) : Conv :=
  match e with
  | some e => storeConv c s o.idx ((o.val.scale s.exp).scale (-e))
  | none =>
    if s.fmt = 1 then
      Conv.mk (Config.openValue 73 (w40.bitsOf o.val * 32 + o.pt.getD 0 0 % 32) % 16) 0 false true
    else storeConv c s o.idx .nan

/-- The last store of each point; a point's stores to a slot stand together. -/
def lastStores (xs : List VStore) : List VStore :=
  xs.foldr (fun o acc => match acc with
    | x :: _ => if x.idx = o.idx then acc else o :: acc
    | [] => [o]) []

def Conv.allFlags (v : Conv) : Nat := v.flags ||| (if v.ovf then stepOvf else 0)

/-- The writes of converted elements. -/
def elemWrites (who : Who) (s : VSlot) (xs : List (VStore × Conv)) : Run (List (Nat × List Byte)) := do
  let ws ← xs.mapM fun x => do
    let w ← elemWrite who s (slotOffset s x.1.pt) x.2.bits
    pure (w.1, (slotAddr s (slotOffset s x.1.pt)).2, x.2.bits, w.2)
  pure (mergeNibbles s ws)

/-- The writes of one slot, and the flags of each store. A block-scaled slot takes, for every block of 32 along loop 0
that is met, the values of the whole block (R101); only the elements among outs are written. -/
def slotWrites (who : Who) (c : Cmd) (n : Nat) (outs blockVals : List VStore) :
    Run (List (Nat × List Byte) × List (VStore × Nat)) := do
  let s := vSlot c.packet n
  match vScaleOf c.packet n with
  | none => do
    let ws ← elemWrites who s ((lastStores outs).map fun o => (o, storeConv c s o.idx (o.val.scale s.exp)))
    pure (ws, outs.map fun o => (o, (storeConv c s o.idx (o.val.scale s.exp)).allFlags))
  | some z => do
    let outs := lastStores outs
    let key := fun (o : VStore) => scalePoint o.pt
    let scs := (outs.map key).eraseDups.map fun k =>
      let vals := ((lastStores blockVals).filter fun o => key o = k).map fun o => o.val.scale s.exp
      (k, chooseExp (vals.foldl (fun m x => m.max x.abs) numZero) s.fmt (-127) 127)
    let xs := outs.map fun o => (o, blockConv c s o (((scs.find? fun e => e.1 = key o).map Prod.snd).getD none))
    let ws ← elemWrites who s xs
    let zs ← scs.mapM fun e => elemWrite who z (slotOffset z e.1)
      (match e.2 with | none => 255 | some v => (v + 127).toNat)
    pure (ws ++ zs, xs.map fun x => (x.1, x.2.allFlags))

/-- The writes of all stores of a brick, slot by slot; the flags go to the tile of each store, where it has one of its
own (R137). -/
def brickWrites (who : Who) (c : Cmd) (tileOf : VStore → Option Nat) (outs blockVals : List VStore) : Run UnitOut := do
  let rs ← ((outs.map VStore.slot).eraseDups).mapM fun n =>
    slotWrites who c n (outs.filter fun o => o.slot = n) (blockVals.filter fun o => o.slot = n)
  modifyHw fun h => { h with draws := h.draws + 1 }
  let fl := (rs.flatMap Prod.snd).filter fun x => x.2 ≠ 0
  pure { UnitOut.one (rs.flatMap Prod.fst)
      ((fl.filter fun x => (tileOf x.1).isNone).foldl (fun f x => f ||| x.2) 0) 0 with
    byTile := fl.filterMap fun x => (tileOf x.1).map fun t => (t, x.2) }

/-- Indices whose values a brick [a, b) needs: the whole blocks of 32 along loop 0 where a slot is block-scaled. -/
def blockSpan (p : List Byte) (a b : Nat) : Nat × Nat :=
  if (List.range 8).any fun n => (vSlot p n).out && (vSlot p n).scales then
    let d := vDim p 0
    let lo := a / d * d + a % d / 32 * 32
    let e := b - 1
    let hi := e / d * d + min d ((e % d / 32 + 1) * 32)
    (lo, hi)
  else (a, b)

def rngCtx (h : Hw) : RngCtx := { draws := h.draws, ver := funcVersion h }

/-! Elementwise commands -/

/-- A point's stores and flags as words of progress, and back. -/
def packPoint (x : Nat × List (Nat × Num) × Nat) : List Nat :=
  [x.1, x.2.2, x.2.1.length] ++ x.2.1.flatMap fun o => [o.1, w40.bitsOf o.2]

def unpackPoints : Nat → List Nat → List (Nat × List (Nat × Num) × Nat)
  | n + 1, idx :: fl :: k :: ws =>
    (idx, (chunksOf 2 (ws.take (2 * k))).map fun x => (x.getD 0 0, w40.decode (x.getD 1 0)), fl) ::
      unpackPoints n (ws.drop (2 * k))
  | _, _ => []

/-- Unit u of an elementwise command: a brick of 4,096 points; f gives the stores at a point. The points of a block of
32 that the brick's end cuts are kept for the next brick, which writes the rest of it: in place, their inputs are
overwritten by then (R138). -/
def elemUnit (slot : Nat) (f : Cmd → Who → RngCtx → List Nat → Nat → Run (List (Nat × Num) × Nat)) (c : Cmd) (u : Nat) :
    Run UnitOut := do
  let p := c.packet
  let who := whoOf slot c
  let r := rngCtx (← get)
  let a := u * 4096
  let b := min (vTotal p) (a + 4096)
  let (lo, hi) := blockSpan p a b
  let kept := unpackPoints c.priv.length c.priv
  let rs ← (List.range (hi - lo)).mapM fun k =>
    match kept.find? fun e => e.1 = lo + k with
    | some e => pure e
    | none => do
      let x ← f c who r (pointOf p allLoops (lo + k)) (lo + k)
      pure (lo + k, x)
  let all := rs.flatMap fun e => e.2.1.map fun o => VStore.mk o.1 (pointOf p allLoops e.1) e.1 o.2
  let o ← brickWrites who c (fun _ => none) (all.filter fun o => decide (a ≤ o.idx) && decide (o.idx < b)) all
  let cut := (blockSpan p b (b + 1)).1
  pure { o with
    flags := ((rs.drop (a - lo)).take (b - a)).foldl (fun f e => f ||| e.2.2) o.flags,
    keep := some (if b < hi then (rs.filter fun e => decide (cut ≤ e.1)).flatMap packPoint else []) }

/-- The tile that serves the command reads its program. -/
def loadProg (slot : Nat) (c : Cmd) : Run (List VWord) := do
  let ws ← readProg (whoOf slot c) c.packet
  modifyHw fun h => match c.serving with
    | some x => setRegFld h (regOf (.tile x.2) 0x1000) 6 0 (vOps c.packet)
    | none => h
  pure ws

/-- The program's check before the first unit (R127): VE_PROG_ERR of the tiles that read it. -/
def progPre (slot op : Nat) (c : Cmd) : Run Unit := do
  let p := c.packet
  let ws ← readProg (whoOf slot c) p
  modifyHw fun h => c.tiles.foldl (fun h t => setRegFld h (regOf (.tile t) 0x1000) 6 0 (vOps p)) h
  match progBad op p ws with
  | none => pure ()
  | some (cause, word) => do
    modifyHw fun h => c.tiles.foldl (fun h t =>
      setReg h (regOf (.tile t) 0x1008) (BitVec.ofNat 32 (2 ^ 31 + cause * 2 ^ 8 + word))) h
    throw (.stop 0x11 0x40 0)

def vopPoint (ws : List VWord) (c : Cmd) (who : Who) (r : RngCtx) (pt : List Nat) (idx : Nat) :
    Run (List (Nat × Num) × Nat) := do
  let (os, fl) ← evalPoint who c r ws pt idx
  pure (os.map (fun o => (o.1, o.2.num)), fl)

/-! Overlaps (R138): ranges in half bytes -/

/-- The loops whose points an output slot has: one row value of REDUCE and of the sums of SOFTMAX, one point of AMAX. -/
def slotLoops (op : Nat) (p : List Byte) (n : Nat) : List Nat :=
  if op = 0x38 then [] else if op = 0x33 ∨ (op = 0x35 ∧ n = 2) then rowLoops p else allLoops

/-- The extent of a slot along a loop; the blocks of 32 for a scale slot. -/
def slotDim (p : List Byte) (s : VSlot) (i : Nat) : Nat :=
  if s.scales ∧ i = 0 then ceilDiv (vDim p 0) 32 else vDim p i

/-- Elements a record takes in an output slot: two for the row values of SOFTMAX and the result of AMAX. -/
def slotSpan (op : Nat) (s : VSlot) : Nat := if (op = 0x35 ∧ s.n = 2) ∨ (op = 0x38 ∧ s.n = 1) then 2 else 1

/-- The half bytes of a slot over some loops, span elements at each point: one range where loop 0 is dense, else one
for each point. -/
def slotRanges (p : List Byte) (s : VSlot) (loops : List Nat) (span : Nat) : List (Nat × Nat) :=
  let w := containerBits s.fmt / 4 * span
  let starts := (loops.filter (· ≠ 0)).foldl (fun (xs : List Int) i =>
    xs.flatMap fun e => (List.range (slotDim p s i)).map fun (k : Nat) => e + (k : Int) * s.strides.getD i 0) [0]
  let d := if loops.contains 0 then slotDim p s 0 else 1
  let st := s.strides.getD 0 0
  let place := fun (e : Int) => (2 * (s.base : Int) + e * (containerBits s.fmt / 4 : Nat)).toNat
  if (st = 1 ∧ span = 1) ∨ d = 1 then starts.map fun e => (place e, d * w)
  else if st = 0 then starts.map fun e => (place e, w)
  else starts.flatMap fun e => (List.range d).map fun (k : Nat) => (place (e + (k : Int) * st), w)

/-- No two points of an output slot share an element: sorted by stride, each loop steps over all shorter ones; else the
elements are compared. -/
def slotApart (p : List Byte) (s : VSlot) (loops : List Nat) (span : Nat) : Bool :=
  let xs := (loops.filter fun i => decide (1 < slotDim p s i)).map fun i => ((s.strides.getD i 0).natAbs, slotDim p s i)
  let ys := xs.foldl (fun acc x => (acc.filter fun y => y.1 ≤ x.1) ++ [x] ++ (acc.filter fun y => x.1 < y.1)) []
  (ys.foldl (fun (r : Bool × Nat) y => (r.1 && decide (r.2 < y.1), r.2 + (y.2 - 1) * y.1)) (true, span - 1)).1 ||
  (let pts := loops.foldl (fun (zs : List Int) i =>
      zs.flatMap fun e => (List.range (slotDim p s i)).map fun (k : Nat) => e + (k : Int) * s.strides.getD i 0) [0]
   decide (pts.flatMap fun e => (List.range span).map fun (k : Nat) => e + (k : Int)).Nodup)

def slotsUsed (p : List Byte) : List VSlot := ((List.range 8).map (vSlot p)).filter fun s => s.fmt ≠ 0

/-- An output slot that coincides exactly with an input slot. -/
def slotsSame (a b : VSlot) : Bool := a.base = b.base && a.fmt = b.fmt && a.exp = b.exp && decide (a.strides = b.strides)

/-- Bytes of the work buffer (R136). -/
def vWorkBytes (op : Nat) (p : List Byte) : Nat :=
  let (rows, len) := if op = 0x38 then (1, vTotal p) else (vRows p, vDim p (vAxis p))
  rows * (32 + 8 * ceilDiv len 4096)

/-- The half bytes of a slot. -/
def slotExtent (op : Nat) (p : List Byte) (s : VSlot) : List (Nat × Nat) :=
  if s.out then slotRanges p s (slotLoops op p s.n) (slotSpan op s) else slotRanges p s allLoops 1

/-- The bytes of every output slot. -/
def vecOuts (op : Nat) (p : List Byte) : List (Nat × Nat) :=
  (((slotsUsed p).filter VSlot.out).flatMap (slotExtent op p)).map fun r => (r.1 / 2, ceilDiv (r.1 % 2 + r.2) 2)

def vecBuffer (op : Nat) (p : List Byte) : List (Nat × Nat) :=
  if vWork p = 0 then [] else [(vWork p, vWorkBytes op p)]

/-- Every output, where one overlaps what it must not (R138). -/
def vecUndef (op : Nat) (p : List Byte) : Run (List (Nat × Nat)) :=
  let ss := slotsUsed p
  let at_ := slotExtent op p
  let work := (vecBuffer op p).map fun r => (2 * r.1, 2 * r.2)
  let bad := (ss.filter VSlot.out).any fun o =>
    !slotApart p o (slotLoops op p o.n) (slotSpan op o) || rangesMeet (at_ o) work ||
    ss.any fun s => s.n ≠ o.n && (s.out || !slotsSame o s) && rangesMeet (at_ o) (at_ s)
  undefIf bad (vecOuts op p)

/-- How a vector command ends (R140): VE_MATH_STATUS [5:0] of its mask's tiles, and the bricks and partials. -/
def vecDone (slot : Nat) (c : Cmd) : Run (Nat × Nat × Nat) := do
  let h ← get
  pure (0, c.mask.foldl (fun f t => f ||| (getReg h (regOf (.tile t) 0x1004)).toNat % 64) 0, ← writtenOf slot)

/-- Work of a vector command. -/
def vecWork (slot : Nat) (c : Cmd) (units : Nat) (unit : Cmd → Nat → Run UnitOut) : Work where
  pre := if vHasProg c.opcode then progPre slot c.opcode c else pure ()
  units := units
  unit := unit
  done := fun _ _ => vecDone slot c
  undef := vecUndef c.opcode c.packet
  outs := pure (vecOuts c.opcode c.packet)
  buffer := vecBuffer c.opcode c.packet

def vopWork (slot : Nat) (c : Cmd) : Work :=
  vecWork slot c (ceilDiv (vTotal c.packet) 4096) fun c u => do
    let ws ← loadProg slot c
    elemUnit slot (vopPoint ws) c u

def execVop (slot : SlotId) (s : State) : Host.Outcome State Fault Refusal :=
  onHw (withCmd slot.val 0x30 fun c h => runTiles slot.val (vopWork slot.val c) c h) s

/-! RNG_FILL (R134) -/

def twoPi : Num := fp32.decode 0x40C90FDB

/-- The generated value at a point. -/
def fillValue (c : Cmd) (r : RngCtx) (idx : Nat) : Num :=
  let w0 := (rngWord c r idx 0 0).toNat
  let w1 := (rngWord c r idx 0 1).toNat
  let fn := fun (mop : Nat) (x : Num) => funcWf r.ver mop 0 x
  match vMode c.packet with
  | 0 => .fin false (w0 / 256) (-24)
  | 1 =>
    let u1 : Num := .fin false (w0 / 256 + 1) (-24)
    let u2 : Num := .fin false (w1 / 256) (-24)
    let l := fp32Round ((numOfInt (-2)).mul (fn 0x1D u1))
    fp32Round ((fp32Round l.sqrt).mul (fn 0x24 (fp32Round (u2.mul twoPi))))
  | _ => numOfInt (if w0 < par c.packet 0x14 4 then 1 else 0)

def rngWork (slot : Nat) (c : Cmd) : Work :=
  vecWork slot c (ceilDiv (vTotal c.packet) 4096) fun c u =>
    elemUnit slot (fun c _ r _ idx => pure ([(1, fillValue c r idx)], 0)) c u

def execRngFill (slot : SlotId) (s : State) : Host.Outcome State Fault Refusal :=
  onHw (withCmd slot.val 0x37 fun c h => runTiles slot.val (rngWork slot.val c) c h) s

/-! ROPE (R133) -/

/-- The rotated element at loop-0 index i0 of a row with inputs x and position pos, with its flags. -/
def ropeElem (c : Cmd) (ver : Nat) (x : Nat → Num) (pos : Int) (i0 : Nat) : Num × Nat :=
  let p := c.packet
  let d := vDim p 0
  let half := vMode p = 1
  let k := if half then i0 % (d / 2) else i0 / 2
  let (i, j) := if half then (k, k + d / 2) else (2 * k, 2 * k + 1)
  let x0 := x i
  let x1 := x j
  let base := fp32.decode (par p 0x14 4)
  let lb := funcWf ver 0x1F 0 base
  let t := fp32Round (((numOfInt (-(2 * k : Nat))).mul lb).div (numOfInt d))
  let th := funcWf ver 0x1E 0 t
  let a := fp32Round ((numOfInt pos).mul th)
  let cs := funcWf ver 0x24 0 a
  let sn := funcWf ver 0x23 0 a
  let y := if i0 = i then fp32Round ((x0.mul cs).add (fp32Round (x1.neg.mul sn)))
    else fp32Round ((x1.mul cs).add (fp32Round (x0.mul sn)))
  (y, nanFlag y [x0, x1, cs, sn] ||| nanFlag lb [base] ||| nanFlag t [lb] ||| nanFlag a [th] ||| nanFlag cs [a] |||
    nanFlag sn [a])

/-- The stored inputs of the row of a point, and its position: R133 gives one to a pair. DESIGN CHOICE (log 77): slot 2
is read at the row's first point. -/
def ropeRow (who : Who) (p : List Byte) (pt : List Nat) : Run (List Nat) := do
  let xs ← (List.range (vDim p 0)).mapM fun i => slotBits who (vSlot p 0) (slotOffset (vSlot p 0) (pt.set 0 i))
  let pos ← if (vSlot p 2).fmt = 0 then pure 0 else slotBits who (vSlot p 2) (slotOffset (vSlot p 2) pt)
  pure (pos :: xs)

/-- Unit u of ROPE. A row that a brick leaves unfinished keeps its inputs for the next (R138). DESIGN CHOICE (log 77):
where AXIS is loop 0, each element takes its own index; i(AXIS) + IMM1 does not wrap. DESIGN CHOICE (log 93): EXP of slot 2
scales no position. -/
def ropeUnit (slot : Nat) (c : Cmd) (u : Nat) : Run UnitOut := do
  let p := c.packet
  let who := whoOf slot c
  let ver := funcVersion (← get)
  let d := vDim p 0
  let x0 := vSlot p 0
  let a := u * 4096
  let b := min (vTotal p) (a + 4096)
  let rows := (List.range ((b - 1) / d + 1)).drop (a / d)
  let ins ← rows.mapM fun r => do
    let xs ← if r * d < a ∧ c.priv.length = d + 1 then pure c.priv else ropeRow who p (pointOf p allLoops (r * d))
    pure (r, xs)
  let outs := (List.range (b - a)).map fun k =>
    let idx := a + k
    let pt := pointOf p allLoops idx
    let xs := ((ins.find? fun e => e.1 = idx / d).map Prod.snd).getD []
    let pos : Int := if (vSlot p 2).fmt = 0 then (pt.getD (vAxis p) 0 : Int) + sext 32 (par p 0x18 4)
      else sext 32 (xs.getD 0 0)
    let y := ropeElem c ver (fun i => (decodeElem x0.fmt (xs.getD (i + 1) 0)).scale x0.exp) pos (pt.getD 0 0)
    (VStore.mk 1 pt idx y.1, y.2)
  let o ← brickWrites who c (fun _ => none) (outs.map Prod.fst) (outs.map Prod.fst)
  pure { o with
    flags := outs.foldl (fun f x => f ||| x.2) o.flags,
    keep := some (match ins.getLast? with
      | some (r, xs) => if b < (r + 1) * d then xs else []
      | none => []) }

def ropeWork (slot : Nat) (c : Cmd) : Work :=
  vecWork slot c (ceilDiv (vTotal c.packet) 4096) (ropeUnit slot)

def execRope (slot : SlotId) (s : State) : Host.Outcome State Fault Refusal :=
  onHw (withCmd slot.val 0x36 fun c h => runTiles slot.val (ropeWork slot.val c) c h) s

/-! Commands along an axis (R110, R111, R129-R132, R136) -/

def vLen (p : List Byte) : Nat := vDim p (vAxis p)

/-- Partials of one row: level-6 nodes or running carries. -/
def vParts (p : List Byte) : Nat := ceilDiv (vLen p) 4096

/-- Segment starts of a row from lengths (R130). -/
def startsOf (L : Nat) (lens : List Int) : List Nat :=
  (lens.foldl (fun (acc : Nat × List Nat) l =>
    let n := acc.1 + (if l < 0 then 0 else l.toNat)
    (n, if n < L ∧ 0 < l then acc.2 ++ [n] else acc.2)) (0, [0])).2

/-- The lengths of a row, read until they reach its end. DESIGN CHOICE (log 93): EXP of slot 7 scales no length. -/
def readLens (who : Who) (p : List Byte) (pt : List Nat) : Run (List Int) :=
  go (vLen p) 0 []
where
  go : Nat → Nat → List Int → Run (List Int)
    | 0, _, acc => pure acc
    | f + 1, sum, acc =>
      if vLen p ≤ sum then pure acc
      else do
        let s := vSlot p 7
        let x ← slotBits who s (slotOffset s (pt.set (vAxis p) acc.length))
        let l := sext 32 x
        go f (sum + (if l < 0 then 0 else l.toNat)) (acc ++ [l])

/-- Whether each of some positions of a row starts a segment. -/
def segFlags (who : Who) (p : List Byte) (pt : List Nat) (js : List Nat) : Run (List Bool) := do
  if vSegLen p then
    let ls ← readLens who p pt
    let st := startsOf (vLen p) ls
    pure (js.map fun j => st.contains j)
  else
    js.mapM fun j => do
      let x ← slotBits who (vSlot p 7) (slotOffset (vSlot p 7) (pt.set (vAxis p) j))
      pure (j = 0 || x ≠ 0)

/-- The row of a point. -/
def rowOfPoint (p : List Byte) (pt : List Nat) : Nat :=
  (rowLoops p).reverse.foldl (fun n i => n * vDim p i + pt.getD i 0) 0

/-- The values of one position that later passes need: the program's stores, drawn under the index of R122, which for
REDUCE is the row's; for the other opcodes x itself. DESIGN CHOICE (log 92): an x that W40 does not hold exactly once EXP
is applied is converted as the activation role converts (R98, R131, R132). -/
def axisValue (who : Who) (c : Cmd) (r : RngCtx) (ws : List VWord) (pt : List Nat) : Run (List Lane × Nat) := do
  let p := c.packet
  if vHasProg c.opcode then
    let (os, fl) ← evalPoint who c r ws pt (if c.opcode = 0x33 then rowOfPoint p pt else logicalIndex p pt)
    pure (os.map Prod.snd, fl)
  else
    let x ← slotNum who p (vSlot p 0) pt
    let v := loadWf 2 x
    pure ([v.1], v.2)

/-- Exact block values in W40, 64 elements each (R110). -/
def blockSums (xs : List Num) : List Flagged :=
  (chunksOf 64 xs).map fun b =>
    let s := exactSum b
    let r := roundW40 s
    (r.1, r.2 ||| nanFlag s b)

def orderedSum (xs : List Num) : Flagged := (orderedFold addW40 (blockSums xs)).getD (numZero, 0)

/-- The value of a level-6 node of a reduction (R109, R110, R129): a sum, minimum or maximum; integers exact. -/
def nodeValue (mode : Nat) (xs : List Lane) : Num × Nat :=
  let ns := xs.map Lane.num
  match mode, xs.head? with
  | 0, some (.int _) => (numOfInt (xs.foldl (fun n x => n + x.word.toInt) 0), 0)
  | 0, _ => orderedSum ns
  | 1, _ => (ns.foldl Num.min (.inf false), 0)
  | _, _ => (ns.foldl Num.max (.inf true), 0)

/-- A node value as a word of progress, and back: integers are odd. -/
def packNode (int : Bool) : Num → Nat
  | .fin n m e => if int then 1 + 2 * (2 * (m <<< e.toNat) + n.toNat) else 2 * w40.bitsOf (.fin n m e)
  | x => 2 * w40.bitsOf x

def unpackNode (w : Nat) : Num :=
  if w % 2 = 1 then .fin (w / 2 % 2 = 1) (w / 4) 0 else w40.decode (w / 2)

/-- The upper levels of a reduction over its node values (R109, R129): an integer saturates when it is stored. -/
def reduceNodes (mode : Nat) (ws : List Nat) : Num × Nat :=
  let ns := ws.map unpackNode
  if ws.headD 0 % 2 = 1 then
    let v := match mode with
      | 0 => exactSum ns
      | 1 => ns.foldl Num.min (.inf false)
      | _ => ns.foldl Num.max (.inf true)
    let c := convertInt 32 v
    (numOfInt (sext 32 c.bits), if c.flags = 0 then 0 else intSat)
  else match mode with
    | 0 => (orderedFold addW40 (ns.map fun x => (x, 0))).getD (numZero, 0)
    | 1 => (ns.foldl Num.min (.inf false), 0)
    | _ => (ns.foldl Num.max (.inf true), 0)

/-- One step of a scan: the carry into the block, the exact sum within it since the last start, whether a start has
dropped the carry, and the outputs. -/
structure ScanSt where
  carry : Flagged
  exact : List Num
  dropped : Bool
  outs : List Num
  flags : Nat

/-- The sum that a scan gives at a point (R111). -/
def scanSum (s : ScanSt) (xs : List Num) : Flagged :=
  let e := exactSum xs
  if s.dropped then let r := roundW40 e; (r.1, r.2 ||| nanFlag e xs)
  else addW40 s.carry (e, nanFlag e xs)

/-- Floating scans: 64-element blocks with carries; a start restarts the sum and drops the carry, at position 0 too. -/
def scanFloat (mode : Nat) (xs : List (Num × Bool)) : List Num × Nat :=
  let step := fun (s : ScanSt) (e : Nat × Num × Bool) =>
    let (i, x, start) := e
    let s := if start then { s with exact := [], dropped := true } else s
    let inc := s.exact ++ [x]
    let v := scanSum s (if mode = 1 then s.exact else inc)
    let s := { s with exact := inc, outs := s.outs ++ [v.1], flags := s.flags ||| v.2 }
    if i % 64 = 63 then
      -- R111's carry is round_w40(C + round_w40(exact sum of the block)), or the rounded sum since a start
      let e := exactSum s.exact
      let t := roundW40 e
      let tv : Flagged := (t.1, t.2 ||| nanFlag e s.exact)
      let c := if s.dropped then tv else addW40 s.carry tv
      { s with carry := (c.1, 0), exact := [], dropped := false, flags := s.flags ||| c.2 }
    else s
  let fin := (List.zip (List.range xs.length) xs).foldl (fun s e => step s (e.1, e.2.1, e.2.2))
    { carry := (numZero, 0), exact := [], dropped := false, outs := [], flags := 0 }
  (fin.outs, fin.flags)

/-- Minimum and maximum scans, exact; and integer scans, exact with a saturated output. -/
def scanExact (mode : Nat) (xs : List (Lane × Bool)) : List Num × Nat :=
  let isInt := match xs.head? with
    | some (.int _, _) => true
    | _ => false
  let comb := fun (a b : Num) => if mode = 2 then a.max b else if mode = 3 then a.min b else a.add b
  let fin := xs.foldl (fun (acc : Option Num × List Num × Nat) e =>
    let prev := if e.2 then none else acc.1
    let cur := match prev with
      | none => e.1.num
      | some a => comb a e.1.num
    let out := if mode = 1 then prev.getD numZero else cur
    if isInt then
      let c := convertInt 32 out
      (some cur, acc.2.1 ++ [numOfInt (sext 32 c.bits)], acc.2.2 ||| (if c.flags = 0 then 0 else intSat))
    else (some cur, acc.2.1 ++ [out], acc.2.2)) (none, [], 0)
  (fin.2.1, fin.2.2)

/-- A scan of a row (R111, R129). -/
def scanRow (mode : Nat) (xs : List (Lane × Bool)) : List Num × Nat :=
  match xs.head? with
  | some (.int _, _) => scanExact mode xs
  | _ => if 2 ≤ mode then scanExact mode xs else scanFloat mode (xs.map fun e => (e.1.num, e.2))

def quotW40 (a : Num) (n : Nat) : Flagged :=
  let q := a.div (numOfInt n)
  let r := roundW40 q
  (r.1, r.2 ||| nanFlag q [a])

/-- NORM of a row (R131): the normalised values before gain and bias, as FP32, with flags. -/
def normRow (p : List Byte) (ver : Nat) (xs : List Num) : List Num × Nat :=
  let L := xs.length
  let s := orderedSum xs
  let mu := quotW40 s.1 L
  let ds := if vMode p = 1 then xs.map fun x => addW40 (x, 0) (mu.1.neg, 0) else xs.map fun x => (x, 0)
  let dn := ds.map Prod.fst
  let bs := (chunksOf 64 dn).map fun b =>
    let e := exactSum (b.map fun x => x.mul x)
    let r := roundW40 e
    ((r.1, r.2 ||| nanFlag e b) : Flagged)
  let sq := (orderedFold addW40 bs).getD (numZero, 0)
  let ms := quotW40 sq.1 L
  let r := fp32Round (ms.1.add (fp32.decode (par p 0x14 4)))
  let inv := funcWf ver 0x17 0 r
  let ys := dn.map fun d => fp32Round (d.mul inv)
  let fl := (if vMode p = 1 then s.2 ||| mu.2 else 0) ||| sq.2 ||| ms.2 ||| ds.foldl (fun f x => f ||| x.2) 0 |||
    (if ys.any Num.isNan && !(xs.any Num.isNan) then nanGen else 0) ||| (if r.isZero then divZero else 0)
  (ys, fl)

/-- Gain or bias in FP32 (R131); what FP32 does not hold exactly has no stated value (log 75). -/
def toFp32 (x : Num) : Num :=
  if x.isFinite && !(fp32Round x).eq x then fp32.decode (Config.openValue 75 (w40.bitsOf x) % 2 ^ 32) else x

/-- Gain and bias applied to a normalised value (R131). -/
def gainBias (who : Who) (p : List Byte) (pt : List Nat) (v : Num) : Run (Num × Nat) := do
  let g ← if (vSlot p 2).fmt = 0 then pure num1 else slotNum who p (vSlot p 2) pt
  let b ← if (vSlot p 3).fmt = 0 then pure numZero else slotNum who p (vSlot p 3) pt
  let y := fp32Round ((v.mul (toFp32 g)).add (toFp32 b))
  pure (y, nanFlag y [v, g, b])

/-- SOFTMAX of a row (R132): the exact values to be converted, m and s, and flags. -/
def softRow (p : List Byte) (ver : Nat) (xs : List Num) : List Num × Num × Num × Nat :=
  let m := xs.foldl Num.max (.inf true)
  let ds := xs.map fun x => addW40 (x, 0) (m.neg, 0)
  let es := ds.map fun d => funcWf ver 0x1C 2 d.1
  let s := orderedSum es
  let lg := funcWf ver 0x1D 2 s.1
  let ys := if vMode p = 0 then es.map fun e => (e.div s.1, 0)
    else ds.map fun d => addW40 (d.1, 0) (lg.neg, 0)
  let fl := ds.foldl (fun f x => f ||| x.2) s.2 ||| ys.foldl (fun f x => f ||| x.2) 0 |||
    (if (ys.map Prod.fst).any Num.isNan && !(xs.any Num.isNan) then nanGen else 0)
  (ys.map Prod.fst, m, s.1, fl)

/-! The partials of a command along an axis, in the work buffer (R136) -/

/-- The part of the work buffer that a row has; the manual gives its size and no layout within it. -/
def rowBuffer (p : List Byte) (r : Nat) : Nat × Nat :=
  let n := 32 + 8 * vParts p
  (vWork p + r * n, n)

/-- What the first pass keeps of part j of row r, as words of progress: the node value of each store for REDUCE; else
for each position the values, and for SEGSCAN the segment start. -/
def partWords (c : Cmd) (vs : List (List Lane)) (segs : List Bool) : List Nat × Nat :=
  if c.opcode = 0x33 then
    let ns := (List.range (vs.headD []).length).map fun k =>
      let xs := vs.map fun v => v.getD k (.int 0)
      let x := nodeValue (vMode c.packet) xs
      let int := match xs.head? with
        | some (.int _) => true
        | _ => false
      (packNode int x.1, x.2)
    (ns.map Prod.fst, ns.foldl (fun f x => f ||| x.2) 0)
  else
    ((List.zip vs (segs ++ List.replicate vs.length false)).flatMap fun x =>
      x.1.map Lane.pack ++ (if c.opcode = 0x32 then [x.2.toNat] else []), 0)

/-- The first pass over part j of row r: its partial is written to the work buffer and counts as a brick. DESIGN CHOICE
(log 78): a row has one partial for each 4,096 elements, also for NORM and SOFTMAX with their two passes over it and for
programs with several stores. -/
def axisPart (slot : Nat) (c : Cmd) (r j : Nat) : Run UnitOut := do
  let p := c.packet
  let who := whoOf slot c
  let ctx := rngCtx (← get)
  let ws ← if vHasProg c.opcode then loadProg slot c else pure []
  let pt := pointOf p (rowLoops p) r
  let js := (List.range (min 4096 (vLen p - 4096 * j))).map (· + 4096 * j)
  let segs ← if c.opcode = 0x32 then segFlags who p pt js else pure []
  let vs ← js.mapM fun i => axisValue who c ctx ws (pt.set (vAxis p) i)
  modifyHw fun h => { h with draws := h.draws + 1 }
  let x := partWords c (vs.map Prod.fst) segs
  pure { bricks := [[]], flags := vs.foldl (fun f v => f ||| v.2) x.2, keep := some (c.priv ++ x.1),
         frees := [rowBuffer p r] }

/-- Words kept per position. -/
def perPos (c : Cmd) (ws : List VWord) : Nat :=
  if vHasProg c.opcode then (ws.filter fun w => w.mop = 2).length + (if c.opcode = 0x32 then 1 else 0) else 1

/-- The kept words k of a row, in order. -/
def rowKept (c : Cmd) (per r k : Nat) : List Nat :=
  let n := if c.opcode = 0x33 then vParts c.packet else vLen c.packet
  (List.range n).map fun i => c.priv.getD ((r * n + i) * per + k) 0

/-- The results of a row, one list of values per store slot, with flags; SOFTMAX's statistics beside them. -/
def rowResults (c : Cmd) (ver : Nat) (ws : List VWord) (r : Nat) : List (Nat × List Num) × Option (Num × Num) × Nat :=
  let p := c.packet
  let per := perPos c ws
  let lanes := fun k => (rowKept c per r k).map Lane.unpack
  let sts := (ws.filter fun w => w.mop = 2).map VWord.slot
  match c.opcode with
  | 0x33 =>
    let rs := (List.range sts.length).map fun k => (sts.getD k 0, reduceNodes (vMode p) (rowKept c per r k))
    (rs.map (fun x => (x.1, [x.2.1])), none, rs.foldl (fun f x => f ||| x.2.2) 0)
  | 0x34 => let y := normRow p ver ((lanes 0).map Lane.num); ([(1, y.1)], none, y.2)
  | 0x35 => let y := softRow p ver ((lanes 0).map Lane.num); ([(1, y.1)], some (y.2.1, y.2.2.1), y.2.2.2)
  | _ =>
    let seg := if c.opcode = 0x32 then (rowKept c per r (per - 1)).map fun x => decide (x ≠ 0)
      else List.replicate (vLen p) false
    let rs := (List.range sts.length).map fun k =>
      (sts.getD k 0, scanRow (vMode p) (List.zip (lanes k) seg))
    (rs.map (fun x => (x.1, x.2.1)), none, rs.foldl (fun f x => f ||| x.2.2) 0)

/-- The loops of the output points: REDUCE's leave AXIS out. -/
def outLoops (c : Cmd) : List Nat := if c.opcode = 0x33 then rowLoops c.packet else allLoops

def outTotal (c : Cmd) : Nat := if c.opcode = 0x33 then vRows c.packet else vTotal c.packet

/-- Output brick u of a command along an axis: its rows' partials are read from the work buffer. The flags of a scanned,
normalised or soft-maximised row go to its tile (R137), those of its sums with the brick that holds its start. DESIGN
CHOICE (log 93): EXP and ROLE of SOFTMAX's slot 2 do not change the containers of m and s. -/
def axisBrick (slot : Nat) (c : Cmd) (u : Nat) : Run UnitOut := do
  let p := c.packet
  let who := whoOf slot c
  let ver := funcVersion (← get)
  let ws ← if vHasProg c.opcode then loadProg slot c else pure []
  let a := u * 4096
  let b := min (outTotal c) (a + 4096)
  let (lo, hi) := blockSpan p a b
  let pts := (List.range (hi - lo)).map fun k => (lo + k, pointOf p (outLoops c) (lo + k))
  let rows := (pts.map fun e => rowOfPoint p e.2).eraseDups
  let _ ← rows.mapM fun r => rd who (rowBuffer p r).1 (rowBuffer p r).2
  let res := rows.map fun r => (r, rowResults c ver ws r)
  let of_ := fun (pt : List Nat) => ((res.find? fun e => e.1 = rowOfPoint p pt).map Prod.snd).getD ([], none, 0)
  let inside := fun (i : Nat) => decide (a ≤ i) && decide (i < b)
  let starts := pts.filter fun e => inside e.1 && (c.opcode = 0x33 || e.2.getD (vAxis p) 0 = 0)
  let all ← pts.mapM fun e => do
    let pos := if c.opcode = 0x33 then 0 else e.2.getD (vAxis p) 0
    (of_ e.2).1.mapM fun s => do
      let v := s.2.getD pos numZero
      let x ← if c.opcode = 0x34 then gainBias who p e.2 v else pure (v, 0)
      pure (VStore.mk s.1 e.2 e.1 x.1, x.2)
  let all := all.flatten
  let tileOf := fun (pt : List Nat) => if c.opcode = 0x33 then none else some (rowTile c (rowOfPoint p pt))
  let o ← brickWrites who c (fun s => tileOf s.pt) ((all.map Prod.fst).filter fun s => inside s.idx) (all.map Prod.fst)
  let stats := if c.opcode = 0x35 ∧ (vSlot p 2).fmt ≠ 0 then
      starts.filterMap fun e => (of_ e.2).2.1.map fun ms =>
        ((slotAddr (vSlot p 2) (slotOffset (vSlot p 2) e.2)).1,
          leBytes 8 (w40.bitsOf ms.1) ++ leBytes 8 (w40.bitsOf ms.2))
    else []
  let mine := starts.map (fun e => (tileOf e.2, (of_ e.2).2.2)) ++
    (all.filter fun s => inside s.1.idx).map fun s => (tileOf s.1.pt, s.2)
  pure { UnitOut.one (o.writes ++ stats) ((mine.filter fun x => x.1.isNone).foldl (fun f x => f ||| x.2) o.flags) 0 with
    byTile := o.byTile ++ mine.filterMap fun x => if x.2 = 0 then none else x.1.map fun t => (t, x.2) }

/-- The tile that must take unit u of a command along an axis (R137): a row's own, or its part's for REDUCE; output
bricks of REDUCE go to any. -/
def axisTile (c : Cmd) (u : Nat) : Option Nat :=
  let p := c.packet
  let n := vRows p * vParts p
  if c.opcode = 0x33 then
    (if u < n then some (partTile c (u / vParts p) (vParts p) (u % vParts p)) else none)
  else if u < n then some (rowTile c (u / vParts p))
  else some (rowTile c (rowOfPoint p (pointOf p allLoops ((u - n) * 4096))))

/-- A command along an axis: its partials, then its output bricks. -/
def axisWork (slot : Nat) (c : Cmd) : Work :=
  let p := c.packet
  let n := vRows p * vParts p
  { vecWork slot c (n + ceilDiv (outTotal c) 4096) (fun c u =>
      if u < n then axisPart slot c (u / vParts p) (u % vParts p) else axisBrick slot c (u - n)) with
    tileFor := axisTile }

def axisRun (slot : Nat) (c : Cmd) (h : Hw) : Hw := runTiles slot (axisWork slot c) c h

def execScan (slot : SlotId) (s : State) : Host.Outcome State Fault Refusal :=
  onHw (withCmd slot.val 0x31 (axisRun slot.val)) s

def execSegscan (slot : SlotId) (s : State) : Host.Outcome State Fault Refusal :=
  onHw (withCmd slot.val 0x32 (axisRun slot.val)) s

def execReduce (slot : SlotId) (s : State) : Host.Outcome State Fault Refusal :=
  onHw (withCmd slot.val 0x33 (axisRun slot.val)) s

def execNorm (slot : SlotId) (s : State) : Host.Outcome State Fault Refusal :=
  onHw (withCmd slot.val 0x34 (axisRun slot.val)) s

def execSoftmax (slot : SlotId) (s : State) : Host.Outcome State Fault Refusal :=
  onHw (withCmd slot.val 0x35 (axisRun slot.val)) s

/-! AMAX (R135) -/

/-- A magnitude as words of progress, and back: exact, a NaN, an infinity. -/
def packMag : Num → List Nat
  | .nan => [2, 0, 0]
  | .inf _ => [1, 0, 0]
  | .fin _ m e => [0, m, (e + 4096).toNat]

def unpackMag (ws : List Nat) : Num :=
  match ws.getD 0 0 with
  | 0 => .fin false (ws.getD 1 0) ((ws.getD 2 4096 : Int) - 4096)
  | 1 => .inf false
  | _ => .nan

/-- A magnitude in W40's container; one that W40 does not hold has no stated value (log 72). -/
def magBits (m : Num) : Nat :=
  let r := (w40.round m).1
  if m.isFinite && !r.eq m then Config.openValue 72 ((packMag m).foldl (fun n x => n * 2 ^ 64 + x) 0) % 2 ^ 40
  else w40.bitsOf r

/-- Unit u: 4,096 elements, whose node values are exact magnitudes, or the record after the last. What is kept is the
greatest magnitude so far and whether a NaN or an infinity has been seen. DESIGN CHOICE (log 93): EXP and ROLE of slot 1 do
not change the container of amax. -/
def amaxUnit (slot : Nat) (c : Cmd) (u : Nat) : Run UnitOut := do
  let p := c.packet
  let who := whoOf slot c
  let total := vTotal p
  let m0 := unpackMag c.priv
  let seen := c.priv.getD 3 0
  let buf := (vWork p, vWorkBytes 0x38 p)
  if u < ceilDiv total 4096 then
    let xs ← (List.range (min 4096 (total - 4096 * u))).mapM fun k =>
      slotNum who p (vSlot p 0) (pointOf p allLoops (4096 * u + k))
    let m := xs.foldl (fun m x => m.max x.abs) m0
    let isInf := fun (x : Num) => !x.isFinite && !x.isNan
    let s := (xs.any Num.isNan).toNat + 2 * (xs.any isInf).toNat
    pure { bricks := [[]], keep := some (packMag m ++ [seen ||| s]), frees := [buf] }
  else
    let _ ← rd who buf.1 buf.2
    let e := ((chooseExp m0 (par p 0xC 1) (-128) 127).map (enc2 8)).getD 0
    pure (UnitOut.one [((vSlot p 1).base, leBytes 8 (magBits m0) ++ leBytes 1 e ++ leBytes 1 seen ++ leBytes 6 0)] 0 0)

def amaxWork (slot : Nat) (c : Cmd) : Work :=
  let n := ceilDiv (vTotal c.packet) 4096
  { vecWork slot c (n + 1) (amaxUnit slot) with
    tileFor := fun c u => if u < n then some (partTile c 0 n u) else none }

def execAmax (slot : SlotId) (s : State) : Host.Outcome State Fault Refusal :=
  onHw (withCmd slot.val 0x38 fun c h => runTiles slot.val (amaxWork slot.val c) c h) s

end Sys2Proof.Machine
end

