-- ==== Sys2Proof/Machine/Attention.lean ====
section
/-! DEFINITION. Attention and the key-value cache: ATTN_FWD, ATTN_BWD, KV_APPEND, KV_PAGE and BUCKET_SORT
(R143-R166). -/

namespace Sys2Proof.Machine

/-! Attention parameters (Table 6-1) -/

def atNSeq (p : List Byte) : Nat := par p 0x60 4
def atRows (p : List Byte) : Nat := par p 0x64 4
def atHQ (p : List Byte) : Nat := par p 0x68 1
def atHKV (p : List Byte) : Nat := par p 0x69 1
def atD (p : List Byte) : Nat := parBits p 0x68 24 16
def atKvRows (p : List Byte) : Nat := par p 0x6C 4
def atLdq (p : List Byte) : Nat := par p 0x70 4
def atLdk (p : List Byte) : Nat := par p 0x74 4
def atLdv (p : List Byte) : Nat := par p 0x78 4
def atLdo (p : List Byte) : Nat := par p 0x7C 4
def atScale (p : List Byte) : Num := fp32.decode (par p 0x80 4)
def atWindow (p : List Byte) : Nat := par p 0x84 4
def atFmt (p : List Byte) (i : Nat) : Nat := par p (0x88 + i) 1
def atExp (p : List Byte) (i : Nat) : Int := sext 8 (par p (0x8C + i) 1)
def atPaged (p : List Byte) : Bool := parBit p 0x90 8
def atCausal (p : List Byte) : Bool := parBit p 0x90 9
def atRing (p : List Byte) : Bool := (hOpflags p).testBit 0
/-- Without RING a command is its own first and last step (R147). -/
def atFirst (p : List Byte) : Bool := !atRing p || (hOpflags p).testBit 1
def atLast (p : List Byte) : Bool := !atRing p || (hOpflags p).testBit 2

def headDimOk (d : Nat) : Bool := d = 64 || d = 128 || d = 192 || d = 256

/-- Offsets of fields that Table 6-1 and R147 call invalid. -/
def attnExtra (bwd : Bool) (_ : Hw) (_ : World) (p : List Byte) : List Nat :=
  let in16 := fun f => decide (2 ≤ f) && decide (f ≤ 5)
  let zero := fun off n => if par p off n ≠ 0 then [0x40 + off] else []
  let paged := atPaged p
  let rowQ := atHQ p * atD p
  let rowK := atHKV p * atD p
  (if paged then zero 0x10 8 else []) ++
  (if bwd ∧ par p 0x20 8 = 0 then [0x60] else []) ++
  (if !(atRing p && !(atFirst p && atLast p)) then zero 0x38 8 else []) ++
  (if bwd then [] else zero 0x40 8 ++ zero 0x48 8 ++ zero 0x50 8 ++ zero 0x58 8) ++
  (if atHKV p = 0 ∨ atHQ p % atHKV p ≠ 0 ∨ !headDimOk (atD p) then [0xA8] else []) ++
  (if paged then zero 0x6C 4 ++ zero 0x74 4 ++ zero 0x78 4 else
    (if atLdk p < rowK ∨ atLdk p = 0 then [0xB4] else []) ++ (if atLdv p < rowK ∨ atLdv p = 0 then [0xB8] else [])) ++
  (if atLdq p < rowQ then [0xB0] else []) ++ (if atLdo p < rowQ then [0xBC] else []) ++
  (if !in16 (atFmt p 0) ∨ (if paged then atFmt p 1 ≠ 0 else !in16 (atFmt p 1)) ∨
      !(decide (2 ≤ atFmt p 2) && decide (atFmt p 2 ≤ 6)) ∨
      (if bwd then !(decide (3 ≤ atFmt p 3) && decide (atFmt p 3 ≤ 6)) else atFmt p 3 ≠ 0) then [0xC8] else []) ++
  (if bwd ∧ paged then [0xD0] else []) ++ maskEmpty p 0xA0

/-- Alignments: Table 4-1 for tensors, and those of Tables 6-1, 6-4. -/
def attnAlign (bwd : Bool) (_ : Hw) (p : List Byte) : List Nat :=
  let al := fun (off n : Nat) => if par p off 8 % n ≠ 0 then [0x40 + off] else []
  let g := fmtAlign (atFmt p 3)
  let dk := if atRing p then 8 else g
  al 0 (fmtAlign (atFmt p 0)) ++ al 8 (if atPaged p then 64 else fmtAlign (atFmt p 1)) ++
  al 0x10 (fmtAlign (atFmt p 1)) ++ al 0x18 (fmtAlign (atFmt p 2)) ++ al 0x20 8 ++ al 0x28 32 ++ al 0x30 4096 ++
  al 0x38 8 ++ (if bwd then al 0x40 g ++ al 0x48 g ++ al 0x50 dk ++ al 0x58 dk else [])

def specAttn (bwd : Bool) : PSpec :=
  { len := 3, flags := 7,
    fields := (List.range 12).map (fun i => fQ (8 * i)) ++
      [fWMax 0x60 31 0 (2 ^ 24), fWMax 0x64 31 0 (2 ^ 24), fSMax 0x68 7 0 128, fS 0x68 15 8, fS 0x68 24 16, fV 0x6C 31 0,
       fS 0x70 31 0, fV 0x74 31 0, fV 0x78 31 0, fS 0x7C 31 0, fV 0x80 31 0, fV 0x84 31 0, fV 0x88 31 0, fV 0x8C 31 0,
       fV 0x90 9 0, fV 0x94 31 0, fV 0x98 15 0] ++ fMask 0xA0,
    extra := attnExtra bwd,
    extraAlign := attnAlign bwd,
    secure := fun h p => maskSecure h p 0xA0 }

/-! Structures in memory -/

/-- A sequence descriptor (Table 6-2); kvRow is PT_LEN in paged mode. -/
structure SeqDesc where
  pt : Nat
  row : Nat
  rows : Nat
  pos0 : Nat
  ctx : Nat
  kvRow : Nat
  kvPos : Nat
  deriving DecidableEq, Repr

def readSeq (who : Who) (table n : Nat) : Run SeqDesc := do
  let d ← rd who (table + 32 * n) 32
  pure (SeqDesc.mk (leAt d 0 8) (leAt d 8 4) (leAt d 0xC 4) (leAt d 0x10 4) (leAt d 0x14 4) (leAt d 0x18 4) (leAt d 0x1C 4))

/-- A pool descriptor (Table 6-4) with its free-list header (R158). -/
structure Pool where
  pages : Nat
  refs : Nat
  free : Nat
  count : Nat
  bytes : Nat
  fmt : Nat
  hkv : Nat
  d : Nat
  head : Nat
  tail : Nat
  cap : Nat
  deriving DecidableEq, Repr

/-- Bytes of n cache elements of a pool's format. -/
def poolBytes (fmt n : Nat) : Nat := n * containerBits fmt / 8

/-- The page size R157 asks for. -/
def pageNeed (fmt hkv d : Nat) : Nat := 2 * (poolBytes fmt (hkv * 256 * d) + hkv * 256 * d / 32)

/-- Reads and checks a pool (R156); the command's H_KV and D_HEAD where it has them. -/
def readPool (who : Who) (at_ : Nat) (dims : Option (Nat × Nat)) : Run Pool := do
  let d ← rd who at_ 64
  let fr := leAt d 0x10 8
  let hd ← rd who fr 64
  let q : Pool :=
    { pages := leAt d 0 8, refs := leAt d 8 8, free := fr, count := leAt d 0x18 4, bytes := leAt d 0x1C 4,
      fmt := leAt d 0x20 1, hkv := leAt d 0x21 1, d := leAt d 0x20 4 / 2 ^ 16 % 2 ^ 9,
      head := leAt hd 0 4, tail := leAt hd 4 4, cap := leAt hd 8 4 }
  if q.bytes % 4096 ≠ 0 ∨ q.bytes < pageNeed q.fmt q.hkv q.d ∨ 2 ^ 24 < q.count ∨ !isPow2 q.cap ∨ q.cap < q.count ∨
      !(q.fmt = 1 || q.fmt = 2) ∨ dims.any (fun x => x ≠ (q.hkv, q.d)) then
    structFail 2 0 at_
  else pure q

def noPage : Nat := 0xFFFFFFFF

/-- Pages on the free list. -/
def Pool.freeCount (q : Pool) : Nat := (q.tail + 2 ^ 32 - q.head) % 2 ^ 32

/-- The page at position i from the head of the free list. -/
def Pool.popAt (who : Who) (q : Pool) (i : Nat) : Run Nat :=
  rdNat who (q.free + 0x40 + (q.head + i) % 2 ^ 32 % q.cap * 4) 4

def Pool.refAddr (q : Pool) (page : Nat) : Nat := q.refs + 2 * page

def readRef (who : Who) (q : Pool) (page : Nat) : Run Nat := rdNat who (q.refAddr page) 2

/-! Pairs, bands and units (R143, R144, R146) -/

/-- Whether the pair of a sequence's row i (from ROW_START) and key k is present. -/
def pairPresent (p : List Byte) (q : SeqDesc) (i k : Nat) : Bool :=
  let qp : Int := (q.pos0 : Int) + i
  let kp : Int := (q.kvPos : Int) + k
  decide (k < q.ctx) && (!atCausal p || decide (kp ≤ qp)) && (atWindow p = 0 || decide (qp - (atWindow p : Int) < kp))

def bandRows (q : SeqDesc) (b : Nat) : List Nat := (List.range (min 256 (q.rows - 256 * b))).map (256 * b + ·)

def unitPresent (p : List Byte) (q : SeqDesc) (b e : Nat) : Bool :=
  (bandRows q b).any fun i => (List.range 256).any fun s => pairPresent p q i (256 * e + s)

def bandCount (q : SeqDesc) : Nat := ceilDiv q.rows 256
def pageCount (q : SeqDesc) : Nat := ceilDiv q.ctx 256

/-- One unit: its pass (0 band-owned, 1 page-owned), sequence, query head, band and page, and whether it is the last
of its band or page. -/
structure AttnUnit where
  pass : Nat
  seq : Nat
  head : Nat
  band : Nat
  page : Nat
  last : Bool
  deriving DecidableEq, Repr

def markLast : List AttnUnit → List AttnUnit
  | [] => []
  | [u] => [{ u with last := true }]
  | u :: us => u :: markLast us

/-- Pages of a band with a present pair, ascending (R145). -/
def bandPages (p : List Byte) (q : SeqDesc) (b : Nat) : List Nat :=
  (List.range (pageCount q)).filter fun e => unitPresent p q b e

/-- Query heads of group j with bands, in the order a page takes them (R145). -/
def pageTurns (p : List Byte) (q : SeqDesc) (j e : Nat) : List (Nat × Nat) :=
  let g := atHQ p / atHKV p
  (List.range g).flatMap fun x => ((List.range (bandCount q)).filter fun b => unitPresent p q b e).map fun b => (j * g + x, b)

/-- The units of the band-owned pass. DESIGN CHOICE (log 95): a unit that R144 skips is none of the units completed. -/
def bandUnits (p : List Byte) (seqs : List SeqDesc) : List AttnUnit :=
  (List.range seqs.length).flatMap fun n =>
    match seqs[n]? with
    | none => []
    | some q => (List.range (atHQ p)).flatMap fun h => (List.range (bandCount q)).flatMap fun b =>
        markLast ((bandPages p q b).map fun e => AttnUnit.mk 0 n h b e false)

/-- The units of the page-owned pass. -/
def pageUnits (p : List Byte) (seqs : List SeqDesc) : List AttnUnit :=
  (List.range seqs.length).flatMap fun n =>
    match seqs[n]? with
    | none => []
    | some q => (List.range (atHKV p)).flatMap fun j => (List.range (pageCount q)).flatMap fun e =>
        markLast ((pageTurns p q j e).map fun hb => AttnUnit.mk 1 n hb.1 hb.2 e false)

/-! Checks (R149, R163) -/

/-- Reads and checks page-table entries [a, b) of a sequence. DESIGN CHOICE (log 94): the index that DETAIL0 has is the
entry's in that table. -/
def checkEntries (who : Who) (pool : Pool) (pt a b : Nat) : Run Unit :=
  go ((List.range (b - a)).map (a + ·))
where
  go : List Nat → Run Unit
    | [] => pure ()
    | e :: es => do
      let x ← rdNat who (pt + 4 * e) 4
      if pool.count ≤ x then structFail 3 e (pt + 4 * e)
      go es

/-- A descriptor fails by its own fields. -/
def seqBad (p : List Byte) (q : SeqDesc) : Bool :=
  decide (atRows p < q.row + q.rows) || decide (2 ^ 24 < q.pos0 + q.rows) || decide (2 ^ 24 < q.kvPos + q.ctx) ||
  (if atPaged p then decide (q.kvRow < ceilDiv q.ctx 256) || decide (q.kvPos ≠ 0)
   else decide (atKvRows p < q.kvRow + q.ctx) || decide (q.pt ≠ 0))

/-- The descriptors of an attention command, checked; and its pool in paged mode. DESIGN CHOICE (log 94): where N_SEQ is
not 1 or KV_SRC is 1, cause 0x09 has index 0 and the address in SEQ_ADDR, or in K_ADDR. -/
def attnPlan (who : Who) (p : List Byte) : Run (List SeqDesc × Option Pool) := do
  let table := par p 0x28 8
  if atRing p ∧ atNSeq p ≠ 1 then structFail 9 0 table
  if atRing p ∧ atPaged p then structFail 9 0 (par p 8 8)
  let pool ← if atPaged p then do pure (some (← readPool who (par p 8 8) (some (atHKV p, atD p)))) else pure none
  let seqs ← (List.range (atNSeq p)).mapM fun n => do
    let q ← readSeq who table n
    let q ← if atRing p then do
        let hd ← rd who (par p 8 8) 64
        if 2 ^ 24 < leAt hd 4 4 ∨ leNat (hd.drop 8) ≠ 0 then structFail 9 0 (par p 8 8)
        if q.kvRow ≠ 0 then structFail 9 n (table + 32 * n)
        pure { q with kvPos := leAt hd 0 4, ctx := leAt hd 4 4 }
      else pure q
    if seqBad p q then structFail 1 n (table + 32 * n)
    match pool with
    | none => pure ()
    | some l => checkEntries who l q.pt 0 (pageCount q)
    pure q
  pure (seqs, pool)

/-! Operands -/

/-- A row of D_HEAD exact values of a tensor in rows. -/
def headRow (who : Who) (fmt base ld r h d : Nat) (exp : Int) : Run (List Num) := do
  let els ← rowElemBits who fmt base ld r (h * d) d
  pure (els.map fun x => (decodeElem fmt x).scale exp)

/-- The keys of a contiguous tensor begin past the block header of a ring step (R163). -/
def keyBase (p : List Byte) : Nat := par p 8 8 + if atRing p then 64 else 0

/-- A position of a cache page, staged as BF16 (R150): element × block scale, converted in the activation role. -/
def pageRow (who : Who) (q : Pool) (page j slot : Nat) (vals : Bool) (exp : Int) : Run (List Num × Nat) := do
  let base := q.pages + page * q.bytes
  let half := poolBytes q.fmt (q.hkv * 256 * q.d)
  let sc := q.hkv * 256 * q.d / 32
  let at_ := (j * 256 + slot) * q.d
  let bs ← rd who (base + (if vals then half else 0) + poolBytes q.fmt at_) (poolBytes q.fmt q.d)
  let ss ← rd who (base + 2 * half + (if vals then sc else 0) + (j * 256 + slot) * (q.d / 32)) (q.d / 32)
  let cs := (List.range q.d).map fun i =>
    convert 5 false none (scaledElem q.fmt (elemBits q.fmt bs i) (leAt ss (i / 32) 1))
  pure (cs.map fun c => (decodeElem 5 c.bits).scale exp, cs.foldl (fun f c => f ||| c.flags) 0)

/-- Keys (or values) of page e for key-value head j, as many as the sequence has. -/
def keyRows (who : Who) (p : List Byte) (pool : Option Pool) (q : SeqDesc) (j e : Nat) (vals : Bool) :
    Run (List (List Num) × Nat) := do
  let n := min 256 (q.ctx - 256 * e)
  let exp := atExp p (if vals then 2 else 1)
  match pool with
  | some l => do
    let page ← rdNat who (q.pt + 4 * e) 4
    let rs ← (List.range n).mapM fun s => pageRow who l page j s vals exp
    pure (rs.map Prod.fst, rs.foldl (fun f r => f ||| r.2) 0)
  | none => do
    let rs ← (List.range n).mapM fun s =>
      headRow who (atFmt p 1) (if vals then par p 0x10 8 else keyBase p) (if vals then atLdv p else atLdk p)
        (q.kvRow + 256 * e + s) j (atD p) exp
    pure (rs, 0)

/-- A W40 container. -/
def w40Bytes (x : Num) : List Byte := leBytes 8 (w40.bitsOf x)
def w40Read (bs : List Byte) (i : Nat) : Num := w40.decode (leAt bs (8 * i) 8 % 2 ^ 40)

/-! Progress: the values Δ of ATTN_BWD, a mark of the slot that holds the running state, then the state (R146) -/

/-- Values Δ that a command keeps. -/
def deltaCount (p : List Byte) : Nat := if atFmt p 3 = 0 then 0 else atRows p * atHQ p

/-- The slot of a tile of the mask in the work buffer (R148). -/
def attnSlot (p : List Byte) (i : Nat) : Nat × Nat :=
  let n := 4096 + 4096 * atD p
  (par p 0x30 8 + n * i, n)

/-- The place of the serving tile in the mask, and how often the command had stopped by then. -/
def stateMark (c : Cmd) : Nat :=
  match c.serving with
  | some x => (c.mask.takeWhile (· ≠ x.2)).length + 256 * c.suspensions
  | none => 0

/-- The running state that the last unit left: read from its slot where the command has stopped since. -/
def priorState (who : Who) (c : Cmd) : Run (List Num) := do
  let ws := c.priv.drop (deltaCount c.packet)
  if ws.headD 0 ≠ stateMark c then
    let r := attnSlot c.packet (ws.headD 0 % 256)
    let _ ← rd who r.1 r.2
  pure (ws.tail.map w40.decode)

/-- A unit's result: what it writes, its flags, and the running state, which goes to its tile's slot. -/
def unitResult (c : Cmd) (ws : List (Nat × List Byte)) (flags : Nat) (state : List Num) : UnitOut :=
  { UnitOut.one ws flags 1 with
    keep := some (c.priv.take (deltaCount c.packet) ++ stateMark c :: state.map w40.bitsOf),
    frees := [attnSlot c.packet (stateMark c % 256)] }

/-- What names the band or page of a unit, which one tile takes (R145). -/
def unitKey (p : List Byte) (u : AttnUnit) : Nat :=
  let x := if u.pass = 0 then (u.head, u.band) else (u.head / (atHQ p / atHKV p), u.page)
  ((u.seq * 2 ^ 32 + x.1) * 2 ^ 32 + x.2) * 2 + u.pass

/-! The products of a unit on the arrays (R155) -/

/-- A product of an attention unit: rows that stream, the columns of weights, by position, with none where a pair is
absent; the bands of 64 rows and the k-blocks of 64 positions that a whole unit takes, and the cycles of a row in one;
which row and column make a present pair; and the sums. -/
structure Product where
  bands : Nat
  blocks : Nat
  cycles : Nat
  rows : List (List Num)
  cols : List (List (Option Num))
  meets : Nat → Nat → Bool
  sums : List (List Num)

/-- The operand pairs of a block of rows and columns, from row a and column b on. -/
def Product.pairs (x : Product) (a b : Nat) (rows : List (List Num)) (cols : List (List (Option Num))) : List (Num × Num) :=
  (List.range rows.length).flatMap fun i => (List.range cols.length).flatMap fun j =>
    if x.meets (a + i) (b + j) then
      (List.zip (rows.getD i []) (cols.getD j [])).filterMap fun y => y.2.map fun w => (y.1, w)
    else []

/-- A product runs on a tile as brick groups (R67, R155), whose bricks the vector engine takes. DESIGN CHOICE (log 96): rows
beyond a sequence's end shorten no cycle count, and only present pairs are cell operations. -/
def runProduct (t : Nat) (h : Hw) (x : Product) : Hw :=
  (List.range x.bands).foldl (fun h b =>
    let rows := (x.rows.drop (64 * b)).take 64
    let part := fun (j : Nat) => ((x.sums.drop (64 * b)).take 64).map fun r => (r.drop (64 * j)).take 64
    let h := (List.range 4).foldl (fun h j =>
      let cols := (x.cols.drop (64 * j)).take 64
      let ps := x.pairs (64 * b) (64 * j) rows cols
      arrayGroup t j (64 * x.cycles * x.blocks)
        ((List.range x.blocks).map fun k => cols.map fun w => ((w.drop (64 * k)).take 64).filterMap id)
        (part j) ps.length (ps.filter fun y => gatedPair y.1 y.2).length h) h
    let n := if rows.isEmpty then 0 else ceilDiv x.cols.length 64
    takeBricks t n (queueBricks t ((List.range n).map part) h)) h

def runProducts (c : Cmd) (xs : List Product) (h : Hw) : Hw :=
  (c.serving.map fun x => xs.foldl (runProduct x.2) h).getD h

/-- A product over D_HEAD: query rows stream against key or value rows; so dP, too. -/
def headProduct (d cycles : Nat) (xs ws : List (List Num)) (meets : Nat → Nat → Bool) : Product where
  bands := 4
  blocks := d / 64
  cycles := cycles
  rows := xs
  cols := ws.map fun w => w.map some
  meets := meets
  sums := (List.range xs.length).map fun i => (List.range ws.length).map fun j =>
    if meets i j then (mxAccum 0 64 0 (xs.getD i []) (ws.getD j [])).1 else numZero

/-- A product over slots: rows of a transposed tensor stream against transposed weights, those of pv, dQ, dK and dV. -/
def slotProduct (d cycles : Nat) (vals : List (List Num)) (cols : List (List (Option Num))) (sums : List (List Num)) :
    Product where
  bands := d / 64
  blocks := 4
  cycles := cycles
  rows := (List.range d).map fun k => vals.map fun v => v.getD k numZero
  cols := cols
  meets := fun _ _ => true
  sums := sums

/-- Cycles of a row (Table 3-2) for operand formats of attention; keys and values of a paged cache are BF16 (R150). -/
def atCycles (a b : Nat) : Nat := mxRowCycles 0 a b
def atKvFmt (p : List Byte) : Nat := if atPaged p then 5 else atFmt p 1

/-- Rows of sums by column turned into columns, d of them. -/
def turned (d : Nat) (xs : List (List Num)) : List (List Num) :=
  (List.range d).map fun k => xs.map fun x => x.getD k numZero

/-! Forward (R150-R152) -/

/-- R71 over D_HEAD in k-blocks of 64, with the flags of the arrays. -/
def dotHead (xs ws : List Num) : Flagged :=
  let a := mxAccum 0 64 0 xs ws
  (a.1, arrFlags a.2)

/-- The score of a pair. -/
def scoreOf (p : List Byte) (q k : List Num) : Flagged :=
  let a := dotHead q k
  let x := a.1.mul (atScale p)
  let r := roundW40 x
  (r.1, a.2 ||| r.2 ||| nanFlag x [a.1, atScale p])

def expW40 (ver : Nat) (x : Flagged) : Flagged := (funcWf ver 0x1C 2 x.1, x.2)

/-- The running state of a row and head. -/
structure AttnRow where
  m : Num
  s : Num
  o : List Num
  flags : Nat

def AttnRow.isEmpty (r : AttnRow) : Bool :=
  (match r.m with | .inf true => true | _ => false) && r.s.isZero && !r.s.isNeg

def emptyRow (d : Nat) : AttnRow := AttnRow.mk (.inf true) numZero (List.replicate d numZero) 0

/-- The operand p enters the arrays: E4M3 of e × 2^8 beside FP8 values of a contiguous tensor, BF16 otherwise. -/
def operandP (fp8 : Bool) (e : Num) : Num := if fp8 then (e4m3.round (e.scale 8)).1.scale (-8) else (bf16.round e).1

/-- Four k-blocks of 64 slots; absent slots add nothing. -/
def slotBlocks (xs : List (Option α)) (ys : List β) : List (List α × List β) :=
  (chunksOf 64 (List.zip xs ys)).map fun b =>
    (b.filterMap Prod.fst, (b.filter fun e => e.1.isSome).map Prod.snd)

/-- R71 over the four blocks, from a value. -/
def foldSlots (start : Flagged) (blocks : List (List Num × List Num)) : Flagged :=
  blocks.foldl (fun acc b => foldBlock 0 acc b.1 b.2) start

/-- The new maximum of a row, and e for each present score of a page (R151). -/
def pageExps (ver : Nat) (st : AttnRow) (ts : List (Option Flagged)) : Num × List (Option Flagged) :=
  let m1 := (ts.filterMap id).foldl (fun m t => m.max t.1) st.m
  (m1, ts.map fun t => t.map fun t => expW40 ver (addW40 (t.1, 0) (m1.neg, 0)))

/-- The operands p of a row for a page. -/
def pageOperands (ver : Nat) (fp8 : Bool) (st : AttnRow) (ts : List (Option Flagged)) : List (Option Num) :=
  (pageExps ver st ts).2.map fun e => e.map fun e => operandP fp8 e.1

/-- One element of the pv product (R151). -/
def pvElem (ps : List (Option Num)) (vs : List (List Num)) (k : Nat) : Flagged :=
  foldSlots (numZero, 0) (slotBlocks ps (vs.map fun v => v.getD k numZero))

/-- One page applied to a row (R151): ts holds the scores of present slots. -/
def pageStep (ver : Nat) (fp8 : Bool) (d : Nat) (st : AttnRow) (ts : List (Option Flagged)) (vs : List (List Num)) : AttnRow :=
  let here := ts.filterMap id
  match here with
  | [] => st
  | _ =>
    let (m1, es) := pageExps ver st ts
    let sums := (chunksOf 64 es).map fun b =>
      let xs := (b.filterMap id).map Prod.fst
      let e := exactSum xs
      let r := roundW40 e
      ((r.1, r.2 ||| nanFlag e xs) : Flagged)
    let sb := (orderedFold addW40 sums).getD (numZero, 0)
    let pv := (List.range d).map (pvElem (pageOperands ver fp8 st ts) vs)
    let fl := (here.foldl (fun f t => f ||| t.2) 0) ||| ((es.filterMap id).foldl (fun f e => f ||| e.2) 0) ||| sb.2 |||
      arrFlags (pv.foldl (fun f x => f ||| x.2) 0)
    if st.isEmpty then AttnRow.mk m1 sb.1 (pv.map Prod.fst) (st.flags ||| fl)
    else
      let a : Flagged := if m1.eq st.m then (.fin false 1 0, 0) else expW40 ver (addW40 (st.m, 0) (m1.neg, 0))
      let mulA := fun (x : Num) =>
        let y := a.1.mul x
        let r := roundW40 y
        ((r.1, r.2 ||| nanFlag y [a.1, x]) : Flagged)
      let s := addW40 (mulA st.s) (sb.1, 0)
      let os := List.zipWith (fun o x => addW40 (mulA o) (x, 0)) st.o (pv.map Prod.fst)
      AttnRow.mk m1 s.1 (os.map Prod.fst) (st.flags ||| fl ||| a.2 ||| s.2 ||| os.foldl (fun f x => f ||| x.2) 0)

/-- Where the partial state of a row stands (R163). The layout of ATTN_BWD's is DESIGN CHOICE (log 30). -/
def partAddr (bwd : Bool) (p : List Byte) (r h : Nat) : Nat :=
  par p 0x38 8 + (r * atHQ p + h) * ((if bwd then 0 else 16) + 8 * atD p)

/-- The state a row starts this command with. -/
def startRow (who : Who) (p : List Byte) (r h : Nat) : Run AttnRow :=
  if atFirst p then pure (emptyRow (atD p)) else do
    let bs ← rd who (partAddr false p r h) (16 + 8 * atD p)
    pure (AttnRow.mk (w40Read bs 0) (w40Read bs 1) ((List.range (atD p)).map fun i => w40Read bs (2 + i)) 0)

/-- Scores of one row against a page: none where the pair is absent. -/
def rowScores (p : List Byte) (q : SeqDesc) (i e : Nat) (qr : List Num) (ks : List (List Num)) : List (Option Flagged) :=
  (List.range ks.length).map fun s =>
    if pairPresent p q i (256 * e + s) then some (scoreOf p qr (ks.getD s [])) else none

/-- The state of a band before its first page. -/
def bandStart (who : Who) (p : List Byte) (q : SeqDesc) (h b : Nat) : Run (List (Nat × AttnRow)) :=
  (bandRows q b).mapM fun i => do pure (i, ← startRow who p (q.row + i) h)

def AttnRow.nums (r : AttnRow) : List Num := r.m :: r.s :: r.o

def bandOf (p : List Byte) (q : SeqDesc) (b : Nat) (xs : List Num) : List (Nat × AttnRow) :=
  List.zip (bandRows q b) ((chunksOf (2 + atD p) xs).map fun r =>
    AttnRow.mk (r.getD 0 .nan) (r.getD 1 .nan) (r.drop 2) 0)

/-- One page applied to the rows of a band, with the flags raised and the products. -/
def bandStep (who : Who) (ver : Nat) (p : List Byte) (pool : Option Pool) (q : SeqDesc) (h e : Nat)
    (sts : List (Nat × AttnRow)) : Run (List (Nat × AttnRow) × Nat × List Product) := do
  let j := h / (atHQ p / atHKV p)
  let fp8 := !atPaged p && (atFmt p 1 = 2 || atFmt p 1 = 3)
  let (ks, f1) ← keyRows who p pool q j e false
  let (vs, f2) ← keyRows who p pool q j e true
  let fin ← sts.mapM fun x => do
    let qr ← headRow who (atFmt p 0) (par p 0 8) (atLdq p) (q.row + x.1) h (atD p) (atExp p 0)
    let ts := rowScores p q x.1 e qr ks
    pure ((x.1, pageStep ver fp8 (atD p) x.2 ts vs), qr, pageOperands ver fp8 x.2 ts)
  let ps := fin.map fun x => x.2.2
  pure (fin.map Prod.fst, fin.foldl (fun f x => f ||| x.1.2.flags) (f1 ||| f2),
    [headProduct (atD p) (atCycles (atFmt p 0) (atKvFmt p)) (fin.map fun x => x.2.1) ks fun i s =>
       pairPresent p q (((sts[i]?).map Prod.fst).getD 0) (256 * e + s),
     slotProduct (atD p) (atCycles (atKvFmt p) (if fp8 then 2 else 5)) vs ps
       ((List.range (atD p)).map fun k => ps.map fun w => (pvElem w vs k).1)])

/-- What a finished band writes for one row (R152), or its partial state (R163); and the flags of its conversion. -/
def rowOut (p : List Byte) (r h : Nat) (st : AttnRow) : List (Nat × List Byte) × Nat :=
  if atLast p then
    let xs := st.o.map fun o =>
      if st.isEmpty then (Conv.mk 0 0 false false, 0)
      else
        let x := (o.scale (atExp p 3)).div st.s
        (convert (atFmt p 2) false none x, nanFlag x [o, st.s])
    let eb := containerBits (atFmt p 2) / 8
    ([(par p 0x18 8 + (r * atLdo p + h * atD p) * eb, packElems (atFmt p 2) (xs.map fun x => x.1.bits))] ++
      (if par p 0x20 8 = 0 then [] else [(par p 0x20 8 + (r * atHQ p + h) * 16, w40Bytes st.m ++ w40Bytes st.s)]),
      xs.foldl (fun f x => f ||| x.1.flags ||| x.2) 0)
  else ([(partAddr false p r h, w40Bytes st.m ++ w40Bytes st.s ++ st.o.flatMap w40Bytes)], 0)

def bandOut (p : List Byte) (q : SeqDesc) (h : Nat) (sts : List (Nat × AttnRow)) : List (Nat × List Byte) × Nat :=
  let rs := sts.map fun x => rowOut p (q.row + x.1) h x.2
  (rs.flatMap Prod.fst, rs.foldl (fun f r => f ||| r.2) 0)

/-- A forward unit: a page joins the running state of its band; the last of a band writes its rows. -/
def fwdUnit (slot : Nat) (c : Cmd) (seqs : List SeqDesc) (pool : Option Pool) (first : Bool) (u : AttnUnit) :
    Run UnitOut := do
  let p := c.packet
  let who := whoOf slot c
  match seqs[u.seq]? with
  | none => pure (UnitOut.one [] 0 1)
  | some q => do
    let before ← if first then bandStart who p q u.head u.band else do pure (bandOf p q u.band (← priorState who c))
    let (sts, fl, xs) ← bandStep who (funcVersion (← get)) p pool q u.head u.page before
    modifyHw (runProducts c xs)
    let o := if u.last then bandOut p q u.head sts else ([], 0)
    pure (unitResult c o.1 (fl ||| o.2) (sts.flatMap fun x => x.2.nums))

/-- Bands with no present pair: no unit runs, and their rows are written all the same. -/
def emptyBands (slot : Nat) (c : Cmd) (seqs : List SeqDesc) : Run (List (Nat × List Byte) × Nat) := do
  let p := c.packet
  let items := seqs.flatMap fun q => (List.range (bandCount q)).flatMap fun b =>
    if (bandPages p q b).isEmpty then (List.range (atHQ p)).map fun h => (q, h, b) else []
  let rs ← items.mapM fun x => do pure (bandOut p x.1 x.2.1 (← bandStart (whoOf slot c) p x.1 x.2.1 x.2.2))
  pure (rs.flatMap Prod.fst, rs.foldl (fun f r => f ||| r.2) 0)

/-! Backward (R153, R154) -/

/-- The row values a backward unit needs: q, dO, m, s and Δ; none where the statistics mark the row empty. -/
structure GradRow where
  i : Nat
  q : List Num
  dO : List Num
  m : Num
  s : Num
  delta : Num
  live : Bool

def gradDo (who : Who) (p : List Byte) (r h : Nat) : Run (List Num) :=
  headRow who (atFmt p 3) (par p 0x40 8) (atLdo p) r h (atD p) 0

/-- Δ of a row and head (R153). -/
def deltaOf (who : Who) (p : List Byte) (r h : Nat) : Run Flagged := do
  let do_ ← gradDo who p r h
  let o ← headRow who (atFmt p 2) (par p 0x18 8) (atLdo p) r h (atD p) (-(atExp p 3))
  pure (orderedSum (List.zipWith Num.mul do_ o))

def gradRow (who : Who) (c : Cmd) (q : SeqDesc) (h i : Nat) : Run GradRow := do
  let p := c.packet
  let r := q.row + i
  let qr ← headRow who (atFmt p 0) (par p 0 8) (atLdq p) r h (atD p) (atExp p 0)
  let do_ ← gradDo who p r h
  let st ← rd who (par p 0x20 8 + (r * atHQ p + h) * 16) 16
  let row := AttnRow.mk (w40Read st 0) (w40Read st 1) [] 0
  pure { i := i, q := qr, dO := do_, m := row.m, s := row.s, delta := w40.decode (c.priv.getD (r * atHQ p + h) 0),
         live := !row.isEmpty }

/-- The area of the values Δ in the work buffer (R148). -/
def deltaArea (p : List Byte) : Nat × Nat :=
  ((attnSlot p (maskAt p 0xA0).length).1, 8 * atRows p * atHQ p)

/-- Before the units of ATTN_BWD, Δ is formed for every row of a sequence and every head (R153). -/
def deltaPre (slot : Nat) (c : Cmd) (seqs : List SeqDesc) : Run Unit := do
  let p := c.packet
  let who := whoOf slot c
  let rows := seqs.flatMap fun q => (List.range q.rows).map (q.row + ·)
  let ds ← (rows.flatMap fun r => (List.range (atHQ p)).map fun h => r * atHQ p + h).mapM fun i => do
    pure (i, ← deltaOf who p (i / atHQ p) (i % atHQ p))
  writeFree who [deltaArea p]
  let c ← cmdNow slot c
  modifyHw fun h => raiseAt c ((ds.filter fun x => x.2.2 ≠ 0).map fun x => (rowTile c x.1, x.2.2)) h
  modifyHw fun h => modCmd h slot fun c =>
    { c with priv := ds.foldl (fun xs x => xs.set x.1 (w40.bitsOf x.2.1)) (List.replicate (deltaCount p) 0) }

/-- p and ds of a present pair, as BF16 operands, with flags (R153). DESIGN CHOICE (log 79): their conversions have no
role, so one that overflows gives an infinity and raises no flag. -/
def gradPair (ver : Nat) (p : List Byte) (g : GradRow) (k v : List Num) : Num × Num × Nat :=
  let t := scoreOf p g.q k
  let e := expW40 ver (addW40 (t.1, 0) (g.m.neg, 0))
  let pq := e.1.div g.s
  let pr := roundW40 pq
  let dp := dotHead g.dO v
  let df := addW40 (dp.1, 0) (g.delta.neg, 0)
  let x := pr.1.mul df.1
  let ds := roundW40 x
  let z := if g.s.isZero && !e.1.isZero && !e.1.isNan then divZero else 0
  ((bf16.round pr.1).1, (bf16.round ds.1).1,
    t.2 ||| e.2 ||| pr.2 ||| nanFlag pq [e.1, g.s] ||| z ||| dp.2 ||| df.2 ||| ds.2 ||| nanFlag x [pr.1, df.1])

/-- The pairs of a row with a page: none where absent. -/
def gradRowPairs (ver : Nat) (p : List Byte) (q : SeqDesc) (e : Nat) (ks vs : List (List Num)) (g : GradRow) :
    List (Option (Num × Num × Nat)) :=
  (List.range ks.length).map fun s =>
    if g.live && pairPresent p q g.i (256 * e + s) then some (gradPair ver p g (ks.getD s []) (vs.getD s [])) else none

def pairFlags (xs : List (Option (Num × Num × Nat))) : Nat := (xs.filterMap id).foldl (fun f x => f ||| x.2.2) 0

/-- A gradient element: scaled exactly and converted under the gradient role (R154). -/
def gradStore (c : Cmd) (scaled : Bool) (tensor index : Nat) (x : Num) : Nat × Nat :=
  let p := c.packet
  let y := (if scaled then x.mul (atScale p) else x).scale (sext 8 (par p 0x90 1))
  let v := convert (atFmt p 3) true (some (srOf c (par p 0x94 4 + tensor) (par p 0x98 2) index)) y
  (v.bits, v.flags ||| (if v.ovf then stepOvf else 0) |||
    (if scaled then nanFlag y [x, atScale p] else 0))

/-- A gradient row of D_HEAD elements in place. -/
def gradRowOut (c : Cmd) (scaled : Bool) (tensor base ld heads r h : Nat) (xs : List Num) : (Nat × List Byte) × Nat :=
  let p := c.packet
  let f := atFmt p 3
  let es := (List.range xs.length).map fun d => gradStore c scaled tensor ((r * heads + h) * atD p + d) (xs.getD d numZero)
  ((base + (r * ld + h * atD p) * (containerBits f / 8), packElems f (es.map Prod.fst)), es.foldl (fun f x => f ||| x.2) 0)

/-- dQ of a band before its first page: rows of accumulators. -/
def dqStart (who : Who) (p : List Byte) (q : SeqDesc) (h b : Nat) : Run (List (Nat × List Num)) :=
  (bandRows q b).mapM fun i => do
    if atFirst p then pure (i, List.replicate (atD p) numZero) else
      let bs ← rd who (partAddr true p (q.row + i) h) (8 * atD p)
      pure (i, (List.range (atD p)).map (w40Read bs))

/-- The score product and the dP product of rows with a page. -/
def gradProducts (p : List Byte) (q : SeqDesc) (e : Nat) (ks vs : List (List Num)) (gs : List GradRow) : List Product :=
  let meets := fun i s => (gs[i]?.map fun g => g.live && pairPresent p q g.i (256 * e + s)).getD false
  [headProduct (atD p) (atCycles (atFmt p 0) (atKvFmt p)) (gs.map GradRow.q) ks meets,
   headProduct (atD p) (atCycles (atFmt p 3) (atKvFmt p)) (gs.map GradRow.dO) vs meets]

/-- A page adds to the dQ of a band, with flags and the products. -/
def dqStep (who : Who) (ver : Nat) (c : Cmd) (q : SeqDesc) (h e : Nat) (sts : List (Nat × List Num)) :
    Run (List (Nat × List Num) × Nat × List Product) := do
  let p := c.packet
  let j := h / (atHQ p / atHKV p)
  let (ks, _) ← keyRows who p none q j e false
  let (vs, _) ← keyRows who p none q j e true
  let fin ← sts.mapM fun x => do
    let g ← gradRow who c q h x.1
    let ps := gradRowPairs ver p q e ks vs g
    let ds := ps.map fun y => y.map fun y => y.2.1
    let acc := (List.range (atD p)).map fun d =>
      foldSlots (x.2.getD d numZero, 0) (slotBlocks ds (ks.map fun k => k.getD d numZero))
    pure ((x.1, acc.map Prod.fst), pairFlags ps ||| arrFlags (acc.foldl (fun f y => f ||| y.2) 0), g, ds)
  let res := fin.map Prod.fst
  pure (res, fin.foldl (fun f x => f ||| x.2.1) 0,
    gradProducts p q e ks vs (fin.map fun x => x.2.2.1) ++
    [slotProduct (atD p) (atCycles (atKvFmt p) 5) ks (fin.map fun x => x.2.2.2) (turned (atD p) (res.map Prod.snd))])

/-- What a finished band of the dQ pass writes. -/
def dqOut (c : Cmd) (q : SeqDesc) (h : Nat) (rows : List (Nat × List Num)) : List (Nat × List Byte) × Nat :=
  let p := c.packet
  let rs := rows.map fun x =>
    if atLast p then gradRowOut c true 0 (par p 0x48 8) (atLdq p) (atHQ p) (q.row + x.1) h x.2
    else ((partAddr true p (q.row + x.1) h, x.2.flatMap w40Bytes), 0)
  (rs.map Prod.fst, rs.foldl (fun f r => f ||| r.2) 0)

/-- The address of a partial gradient row in a ring step (R163): W40 containers in the tensor's own places. -/
def ringGrad (p : List Byte) (base ld k j : Nat) : Nat := base + (k * ld + j * atD p) * 8

/-- Accumulators of a page's keys: dK then dV of each. -/
abbrev DkvState := List (List Num × List Num)

/-- dK and dV of a page before its first turn. -/
def dkvStart (who : Who) (p : List Byte) (q : SeqDesc) (j e : Nat) : Run DkvState := do
  let start := fun base ld s =>
    if !atRing p || atFirst p then pure (List.replicate (atD p) numZero) else do
      let bs ← rd who (ringGrad p base ld (q.kvRow + 256 * e + s) j) (8 * atD p)
      pure ((List.range (atD p)).map (w40Read bs))
  (List.range (min 256 (q.ctx - 256 * e))).mapM fun s => do
    let a ← start (par p 0x50 8) (atLdk p) s
    let b ← start (par p 0x58 8) (atLdv p) s
    pure (a, b)

/-- A turn, of a query head and a band, adds to the dK and dV of a page, with flags and the products. -/
def dkvStep (who : Who) (ver : Nat) (c : Cmd) (q : SeqDesc) (h b e : Nat) (st : DkvState) :
    Run (DkvState × Nat × List Product) := do
  let p := c.packet
  let j := h / (atHQ p / atHKV p)
  let (ks, _) ← keyRows who p none q j e false
  let (vs, _) ← keyRows who p none q j e true
  let gs ← (bandRows q b).mapM fun i => gradRow who c q h i
  let ps := gs.map fun g => gradRowPairs ver p q e ks vs g
  let fold := fun (col : List (Option (Num × Num × Nat))) (a : List Num) (pick : Num × Num × Nat → Num)
      (val : GradRow → List Num) =>
    (List.range (atD p)).map fun d =>
      foldSlots (a.getD d numZero, 0) (slotBlocks (col.map fun x => x.map pick) (gs.map fun g => (val g).getD d numZero))
  let acc := (List.range st.length).map fun s =>
    let col := ps.map fun r => r.getD s none
    let cur := st.getD s ([], [])
    (fold col cur.1 (fun x => x.2.1) GradRow.q, fold col cur.2 (fun x => x.1) GradRow.dO)
  let fl := acc.foldl (fun f x => (x.1 ++ x.2).foldl (fun f y => f ||| y.2) f) 0
  let res := acc.map fun x => (x.1.map Prod.fst, x.2.map Prod.fst)
  let cols := fun (pick : Num × Num × Nat → Num) =>
    (List.range st.length).map fun s => ps.map fun r => (r.getD s none).map pick
  pure (res, ps.foldl (fun f r => f ||| pairFlags r) (arrFlags fl),
    gradProducts p q e ks vs gs ++
    [slotProduct (atD p) (atCycles (atFmt p 0) 5) (gs.map GradRow.q) (cols fun x => x.2.1) (turned (atD p) (res.map Prod.fst)),
     slotProduct (atD p) (atCycles (atFmt p 3) 5) (gs.map GradRow.dO) (cols fun x => x.1) (turned (atD p) (res.map Prod.snd))])

/-- What a finished page of the dK/dV pass writes. -/
def dkvOut (c : Cmd) (q : SeqDesc) (j e : Nat) (xs : DkvState) : List (Nat × List Byte) × Nat :=
  let p := c.packet
  let rs := (List.range xs.length).flatMap fun s =>
    let k := q.kvRow + 256 * e + s
    let x := xs.getD s ([], [])
    if atRing p then
      [((ringGrad p (par p 0x50 8) (atLdk p) k j, x.1.flatMap w40Bytes), 0),
       ((ringGrad p (par p 0x58 8) (atLdv p) k j, x.2.flatMap w40Bytes), 0)]
    else
      [gradRowOut c true 1 (par p 0x50 8) (atLdk p) (atHKV p) k j x.1,
       gradRowOut c false 2 (par p 0x58 8) (atLdv p) (atHKV p) k j x.2]
  (rs.map Prod.fst, rs.foldl (fun f r => f ||| r.2) 0)

/-- A backward unit of either pass. -/
def bwdUnit (slot : Nat) (c : Cmd) (seqs : List SeqDesc) (first : Bool) (u : AttnUnit) : Run UnitOut := do
  let p := c.packet
  let who := whoOf slot c
  let ver := funcVersion (← get)
  match seqs[u.seq]? with
  | none => pure (UnitOut.one [] 0 1)
  | some q =>
    let j := u.head / (atHQ p / atHKV p)
    if u.pass = 0 then do
      let before ← if first then dqStart who p q u.head u.band
        else do pure (List.zip (bandRows q u.band) (chunksOf (atD p) (← priorState who c)))
      let (st, fl, xs) ← dqStep who ver c q u.head u.page before
      modifyHw (runProducts c xs)
      let o := if u.last then dqOut c q u.head st else ([], 0)
      pure (unitResult c o.1 (fl ||| o.2) (st.flatMap Prod.snd))
    else do
      let before ← if first then dkvStart who p q j u.page
        else do pure ((chunksOf (2 * atD p) (← priorState who c)).map fun x => (x.take (atD p), x.drop (atD p)))
      let (st, fl, xs) ← dkvStep who ver c q u.head u.band u.page before
      modifyHw (runProducts c xs)
      let o := if u.last then dkvOut c q j u.page st else ([], 0)
      pure (unitResult c o.1 (fl ||| o.2) (st.flatMap fun x => x.1 ++ x.2))

/-- Bands and pages of the backward passes that no unit serves. -/
def emptyGrads (slot : Nat) (c : Cmd) (seqs : List SeqDesc) : Run (List (Nat × List Byte) × Nat) := do
  let p := c.packet
  let who := whoOf slot c
  let rs ← seqs.mapM fun q => do
    let bs := (List.range (bandCount q)).filter fun b => (bandPages p q b).isEmpty
    let a ← (bs.flatMap fun b => (List.range (atHQ p)).map fun h => (h, b)).mapM fun x => do
      pure (dqOut c q x.1 (← dqStart who p q x.1 x.2))
    let es := if q.rows = 0 then [] else (List.range (pageCount q)).filter fun e => (pageTurns p q 0 e).isEmpty
    let d ← (es.flatMap fun e => (List.range (atHKV p)).map fun j => (j, e)).mapM fun x => do
      pure (dkvOut c q x.1 x.2 (← dkvStart who p q x.1 x.2))
    pure (a ++ d)
  pure (rs.flatten.flatMap Prod.fst, rs.flatten.foldl (fun f r => f ||| r.2) 0)

/-! What the commands write (R149, R165) -/

/-- Rows from r on of some heads of D_HEAD elements of w bytes. -/
def headRanges (base ld w heads d r n : Nat) : List (Nat × Nat) :=
  (List.range n).map fun i => (base + (r + i) * ld * w, heads * d * w)

/-- The rows of Q or K that a sequence gives to an attention command's outputs, partial ones among them. -/
def seqOuts (bwd : Bool) (p : List Byte) (q : SeqDesc) : List (Nat × Nat) :=
  let g := containerBits (atFmt p 3) / 8
  let row := (if bwd then 0 else 16) + 8 * atD p
  let part := if atLast p then [] else [(partAddr bwd p q.row 0, q.rows * atHQ p * row)]
  let kv := if q.rows = 0 then 0 else q.ctx
  let w := if atRing p then 8 else g
  part ++ if bwd then
    (if atLast p then headRanges (par p 0x48 8) (atLdq p) g (atHQ p) (atD p) q.row q.rows else []) ++
    headRanges (par p 0x50 8) (atLdk p) w (atHKV p) (atD p) q.kvRow kv ++
    headRanges (par p 0x58 8) (atLdv p) w (atHKV p) (atD p) q.kvRow kv
  else
    (if atLast p then headRanges (par p 0x18 8) (atLdo p) (containerBits (atFmt p 2) / 8) (atHQ p) (atD p) q.row q.rows ++
      (if par p 0x20 8 = 0 then [] else [(par p 0x20 8 + q.row * atHQ p * 16, q.rows * atHQ p * 16)]) else [])

/-- Two sequences that share query rows, or in ATTN_BWD key rows. -/
def seqsMeet (bwd : Bool) (a b : SeqDesc) : Bool :=
  rangesMeet [(a.row, a.rows)] [(b.row, b.rows)] ||
  (bwd && a.rows ≠ 0 && b.rows ≠ 0 && rangesMeet [(a.kvRow, a.ctx)] [(b.kvRow, b.ctx)])

/-! The commands -/

/-- Bytes of the work buffer (R148). -/
def attnWorkBytes (bwd : Bool) (p : List Byte) : Nat :=
  (maskAt p 0xA0).length * (4096 + 4096 * atD p) + if bwd then 8 * atRows p * atHQ p else 0

/-- DETAIL0 of an attention command (R165): MATH_STATUS [4:0] and VE_MATH_STATUS [5:0] of its mask's tiles. -/
def attnDetail (c : Cmd) (h : Hw) : Nat :=
  c.mask.foldl (fun f t => f ||| (getReg h (regOf (.tile t) 0x10)).toNat % 32 |||
    (getReg h (regOf (.tile t) 0x1004)).toNat % 64) 0

def attnWork (bwd : Bool) (slot : Nat) (c : Cmd) (seqs : List SeqDesc) (pool : Option Pool) : Work :=
  let p := c.packet
  let us := bandUnits p seqs ++ if bwd then pageUnits p seqs else []
  let key := fun u => (us[u]?.map (unitKey p)).getD 0
  let outs := seqs.flatMap (seqOuts bwd p)
  { pre := if bwd then deltaPre slot c seqs else pure (),
    units := us.length,
    unit := fun c u =>
      let first := u = 0 || key (u - 1) ≠ key u
      match us[u]? with
      | none => pure (UnitOut.one [] 0 1)
      | some x => if bwd then bwdUnit slot c seqs first x else fwdUnit slot c seqs pool first x,
    done := fun _ _ => do
      let who := whoOf slot c
      let (ws, fl) ← if bwd then emptyGrads slot c seqs else emptyBands slot c seqs
      mayWriteAll who ws
      writeAll who ws
      let c ← cmdNow slot c
      modifyHw fun h => raiseAt c [(rowTile c 0, fl)] h
      pure (0, attnDetail c (← get), ← writtenOf slot),
    undef := undefIf ((List.range seqs.length).any fun i => (seqs.drop (i + 1)).any fun b =>
      (seqs[i]?.map fun a => seqsMeet bwd a b).getD false) outs,
    outs := pure outs,
    buffer := [(par p 0x30 8, attnWorkBytes bwd p)],
    key := key }

/-- What a command's output ranges are where its descriptors cannot be read: all rows that its parameters name. -/
def attnAllOuts (bwd : Bool) (p : List Byte) : List (Nat × Nat) :=
  seqOuts bwd p (SeqDesc.mk 0 0 (atRows p) 0 (atKvRows p) 0 0)

/-- The structures are read and checked before any tile computes (R149). Poison met there leaves the outputs undefined
(R165). -/
def attnRun (bwd : Bool) (slot : Nat) (c : Cmd) (h : Hw) : Hw :=
  let h := modCmd h slot fun c => { c with buffer := [(par c.packet 0x30 8, attnWorkBytes bwd c.packet)] }
  match runOn (attnPlan (whoOf slot c) c.packet) h with
  | (.ok pl, h) => runTiles slot (attnWork bwd slot c pl.1 pl.2) c h
  | (.error f, h') =>
    if f.spoils then
      takeFail h (spoilOutputs (modCmd h' slot fun c => { c with
        outRanges := if c.outRanges = [] then attnAllOuts bwd c.packet else c.outRanges }) slot) slot f
    else takeFail h h' slot f

def execAttnFwd (slot : SlotId) (s : State) : Host.Outcome State Fault Refusal :=
  onHw (withCmd slot.val 0x40 (attnRun false slot.val)) s

def execAttnBwd (slot : SlotId) (s : State) : Host.Outcome State Fault Refusal :=
  onHw (withCmd slot.val 0x41 (attnRun true slot.val)) s

/-! KV_APPEND (R160, Table 6-5) -/

def kaFmt (p : List Byte) : Nat := par p 0x30 1
def kaHkv (p : List Byte) : Nat := par p 0x33 1
def kaD (p : List Byte) : Nat := parBits p 0x34 8 0

def specKvAppend : PSpec :=
  { len := 2,
    fields := [fQ 0, fQ 8, fQ 0x10, fQ 0x18, fWMax 0x20 31 0 (2 ^ 24), fW 0x24 31 0, fS 0x28 31 0, fS 0x2C 31 0,
      fV 0x30 23 0, fS 0x30 31 24, fS 0x34 8 0] ++ fMask 0x40,
    extra := fun _ _ p =>
      (if !(decide (4 ≤ kaFmt p) && decide (kaFmt p ≤ 7)) then [0x70] else []) ++ maskEmpty p 0x40,
    aligns := [(0x40, 8, 64), (0x48, 8, 32)],
    extraAlign := fun _ p =>
      (if par p 0x10 8 % fmtAlign (kaFmt p) ≠ 0 then [0x50] else []) ++
      (if par p 0x18 8 % fmtAlign (kaFmt p) ≠ 0 then [0x58] else []),
    secure := fun h p => maskSecure h p 0x40 }

/-- The page-table entries that a descriptor's positions touch. -/
def touchedEntries (q : SeqDesc) : List Nat :=
  if q.rows = 0 then [] else
    (List.range ((q.pos0 + q.rows - 1) / 256 + 1 - q.pos0 / 256)).map (q.pos0 / 256 + ·)

/-- Descriptors of a KV_APPEND, checked (R149 as far as they apply, R160). -/
def appendSeqs (who : Who) (p : List Byte) : Run (List SeqDesc) := do
  let table := par p 8 8
  (List.range (par p 0x20 4)).mapM fun n => do
    let q ← readSeq who table n
    if par p 0x24 4 < q.row + q.rows ∨ 2 ^ 24 < q.pos0 + q.rows ∨ q.kvPos ≠ 0 ∨
        (q.rows ≠ 0 ∧ q.kvRow < (q.pos0 + q.rows - 1) / 256 + 1) then structFail 1 n (table + 32 * n)
    pure q

/-- Checks the touched entries and answers the addresses of the unassigned ones, in order. -/
def appendNeeds (who : Who) (pool : Pool) (seqs : List SeqDesc) : Run (List Nat) := do
  let rs ← seqs.mapM fun q => (touchedEntries q).mapM fun e => do
    let a := q.pt + 4 * e
    let x ← rdNat who a 4
    if x = noPage then pure [a]
    else if pool.count ≤ x then structFail 3 e a
    else do
      let n ← readRef who pool x
      if n ≠ 1 then structFail 4 e a else pure []
  pure (rs.flatten.flatten.eraseDups)

/-- Steps 1 and 2 of R160: all checks, then pages popped for the unassigned entries. DESIGN CHOICE (log 94): cause 0x05 has
index 0. -/
def appendPre (slot : Nat) (c : Cmd) : Run Unit := do
  let who := whoOf slot c
  let p := c.packet
  let pool ← readPool who (par p 0 8) (some (kaHkv p, kaD p))
  let seqs ← appendSeqs who p
  let need ← appendNeeds who pool seqs
  if pool.freeCount < need.length then throw (.stop 0x11 (2 ^ 63 + 5 * 2 ^ 48) (need.length - pool.freeCount))
  let pages ← (List.range need.length).mapM fun i => Pool.popAt who pool i
  let ws := (List.zip need pages).flatMap fun x =>
    [(pool.refAddr x.2, leBytes 2 1), (x.1, leBytes 4 x.2)]
  let ws := if need.isEmpty then ws else ws ++ [(pool.free, leBytes 4 (pool.head + need.length))]
  mayWriteAll who ws
  noteChanged slot c ws
  writeAll who ws

/-- The output bricks of a KV_APPEND: the rows of one descriptor that fall in one page. -/
def appendBricks (seqs : List SeqDesc) : List (SeqDesc × Nat) := seqs.flatMap fun q => (touchedEntries q).map fun e => (q, e)

/-- A block of 32 values in the pool's format: element bits, the scale byte and flags (R101). In a block with a NaN, FP8
elements are the canonical NaN (R94), and the bits of FP4 ones are open (log 73). -/
def cacheBlock (fmt : Nat) (xs : List Num) : List Nat × Nat × Nat :=
  match chooseExp (xs.foldl (fun m x => m.max x.abs) numZero) fmt (-127) 127 with
  | none => ((List.range xs.length).map fun i =>
      if fmt = 1 then Config.openValue 73 (w40.bitsOf (xs.getD i .nan) * 32 + i) % 16 else e4m3.nanBits, 255, 0)
  | some e =>
    let cs := xs.map fun x => convert fmt false none (x.scale (-e))
    (cs.map Conv.bits, (e + 127).toNat, cs.foldl (fun f c => f ||| c.flags) 0)

/-- One position of one head of keys or values: its writes and flags. -/
def appendRow (who : Who) (c : Cmd) (pool : Pool) (page j slot row : Nat) (vals : Bool) : Run (List (Nat × List Byte) × Nat) := do
  let p := c.packet
  let d := kaD p
  let xs ← headRow who (kaFmt p) (par p (if vals then 0x18 else 0x10) 8) (par p (if vals then 0x2C else 0x28) 4) row j d
    (sext 8 (par p (if vals then 0x32 else 0x31) 1))
  let rs := (chunksOf 32 xs).map (cacheBlock pool.fmt)
  let base := pool.pages + page * pool.bytes
  let half := poolBytes pool.fmt (pool.hkv * 256 * d)
  let sc := pool.hkv * 256 * d / 32
  pure ([(base + (if vals then half else 0) + poolBytes pool.fmt ((j * 256 + slot) * d), packElems pool.fmt (rs.flatMap Prod.fst)),
         (base + 2 * half + (if vals then sc else 0) + (j * 256 + slot) * (d / 32), rs.map fun r => BitVec.ofNat 8 r.2.1)],
        rs.foldl (fun f r => f ||| r.2.2) 0)

def appendUnit (slot : Nat) (c : Cmd) (pool : Pool) (x : SeqDesc × Nat) : Run UnitOut := do
  let p := c.packet
  let who := whoOf slot c
  let (q, e) := x
  let page ← rdNat who (q.pt + 4 * e) 4
  let slots := (List.range 256).filter fun s => decide (q.pos0 ≤ 256 * e + s) && decide (256 * e + s < q.pos0 + q.rows)
  let rs ← (slots.flatMap fun s => (List.range (kaHkv p)).flatMap fun j => [(s, j, false), (s, j, true)]).mapM fun y =>
    appendRow who c pool page y.2.1 y.1 (q.row + (256 * e + y.1 - q.pos0)) y.2.2
  pure (UnitOut.one (rs.flatMap Prod.fst) (rs.foldl (fun f r => f ||| r.2) 0) 0)

/-- The pool and the sequences are read and checked, then the bricks are its units. -/
def kvAppendPlan (slot : Nat) (c : Cmd) : Run Work := do
  let who := whoOf slot c
  let pool ← readPool who (par c.packet 0 8) (some (kaHkv c.packet, kaD c.packet))
  let seqs ← appendSeqs who c.packet
  if c.doneUnits = 0 then appendPre slot c
  let bricks := appendBricks seqs
  pure { pre := pure (), units := bricks.length,
         unit := fun c u => match bricks[u]? with
           | none => pure (UnitOut.one [] 0 0)
           | some x => appendUnit slot c pool x,
         done := fun _ _ => do pure (0, attnDetail c (← get), ← writtenOf slot) }

def kvAppendRun (slot : Nat) (c : Cmd) (h : Hw) : Hw :=
  match runOn (kvAppendPlan slot c) h with
  | (.error f, h') => takeFail h h' slot f
  | (.ok w, h) => runTiles slot w c h

def execKvAppend (slot : SlotId) (s : State) : Host.Outcome State Fault Refusal :=
  onHw (withCmd slot.val 0x42 (kvAppendRun slot.val)) s

/-! KV_PAGE (R161, Table 6-6) -/

def kpCount (p : List Byte) : Nat := par p 0x18 4
def kpOp (p : List Byte) : Nat := parBits p 0x1C 1 0

def specKvPage : PSpec :=
  { len := 1,
    fields := [fQ 0, fQ 8, fQ 0x10, fWMax 0x18 31 0 (2 ^ 24), fV 0x1C 1 0] ++ fMask 0x20,
    extra := fun _ _ p =>
      (if kpOp p ≠ 3 then (if par p 0x10 8 ≠ 0 then [0x50] else [])
       else if par p 0x10 8 < par p 8 8 + 4 * kpCount p ∧ par p 8 8 < par p 0x10 8 + 4 * kpCount p then [0x50] else []) ++
      maskEmpty p 0x20,
    aligns := [(0x40, 8, 64), (0x48, 8, 4), (0x50, 8, 4)],
    secure := fun h p => maskSecure h p 0x20 }

/-- What the checks of R159 hold of the counts a command's earlier entries would leave: pages with their counts, and
the pages popped. -/
structure KvCheck where
  counts : List (Nat × Nat)
  pops : Nat

/-- Checks entry i of the list on what the earlier entries would leave. -/
def kvCheckEntry (who : Who) (p : List Byte) (pool : Pool) (k : KvCheck) (i : Nat) : Run KvCheck := do
  let a := par p 8 8 + 4 * i
  let x ← rdNat who a 4
  if x = noPage then pure k
  else if pool.count ≤ x then structFail 3 i a
  else do
    let n ← match k.counts.find? fun e => e.1 = x with
      | some e => pure e.2
      | none => readRef who pool x
    let set_ := fun m => (x, m) :: k.counts.filter fun e => e.1 ≠ x
    match kpOp p with
    | 1 => if n = 0 then structFail 7 i a else pure { k with counts := set_ (n - 1) }
    | 2 => if 1 < n then pure { counts := set_ (n - 1), pops := k.pops + 1 } else pure k
    | _ => if 65535 ≤ n then structFail 6 i a else pure { k with counts := set_ (n + 1) }

/-- All checks of the whole work (R159). -/
def kvPagePre (who : Who) (p : List Byte) : Run Unit := do
  let pool ← readPool who (par p 0 8) none
  let k ← (List.range (kpCount p)).foldlM (fun k i => kvCheckEntry who p pool k i) (KvCheck.mk [] 0)
  if pool.freeCount < k.pops then throw (.stop 0x11 (2 ^ 63 + 5 * 2 ^ 48) (k.pops - pool.freeCount))

/-- Entry i: its whole change; an entry of 0xFFFF_FFFF is skipped by every operation. The command keeps whether COW copied a
page, which is a pre-emption point. -/
def kvPageUnit (slot : Nat) (c : Cmd) (i : Nat) : Run UnitOut := do
  let p := c.packet
  let who := whoOf slot c
  let pool ← readPool who (par p 0 8) none
  let a := par p 8 8 + 4 * i
  let x ← rdNat who a 4
  if x = noPage then pure { UnitOut.one [] 0 0 with keep := some [] }
  else do
    let n ← readRef who pool x
    match kpOp p with
    | 1 =>
      let push := if n = 1 then
          [(pool.free + 0x40 + pool.tail % pool.cap * 4, leBytes 4 x), (pool.free + 4, leBytes 4 (pool.tail + 1))] else []
      pure (UnitOut.one ((pool.refAddr x, leBytes 2 (n - 1)) :: push) 0 0)
    | 2 =>
      if n ≤ 1 then pure { UnitOut.one [] 0 0 with keep := some [] }
      else do
        let new ← Pool.popAt who pool 0
        let bs ← rd who (pool.pages + x * pool.bytes) pool.bytes
        pure { UnitOut.one [(pool.pages + new * pool.bytes, bs), (pool.free, leBytes 4 (pool.head + 1)),
          (pool.refAddr new, leBytes 2 1), (pool.refAddr x, leBytes 2 (n - 1)), (a, leBytes 4 new)] 0 0 with
          keep := some [1] }
    | op =>
      let copy := if op = 3 then [(par p 0x10 8 + 4 * i, leBytes 4 x)] else []
      pure (UnitOut.one (copy ++ [(pool.refAddr x, leBytes 2 (n + 1))]) 0 0)

def kvPageWork (slot : Nat) (c : Cmd) : Work where
  pre := kvPagePre (whoOf slot c) c.packet
  units := kpCount c.packet
  unit := kvPageUnit slot
  done := fun _ _ => do pure (0, attnDetail c (← get), ← writtenOf slot)

def execKvPage (slot : SlotId) (s : State) : Host.Outcome State Fault Refusal :=
  onHw (withCmd slot.val 0x43 fun c h => runTiles slot.val (kvPageWork slot.val c) c h) s

/-! BUCKET_SORT (R162) -/

def bsN (p : List Byte) : Nat := par p 0x18 4

def specBucketSort : PSpec :=
  { len := 1,
    fields := [fQ 0, fQ 8, fQ 0x10, fWMax 0x18 31 0 (2 ^ 24), fQ 0x20] ++ fMask 0x28,
    extra := fun _ _ p => maskEmpty p 0x28,
    aligns := [(0x40, 8, 4), (0x48, 8, 4), (0x50, 8, 8), (0x60, 8, 4096)],
    secure := fun h p => maskSecure h p 0x28 }

/-- The bucket of a length. -/
def bucketOf (n : Nat) : Nat := if n ≤ 256 then 0 else Nat.log2 (n - 1) + 1 - 8

def bsLengths (who : Who) (p : List Byte) : Run (List Nat) := do
  let bs ← rd who (par p 0 8) (4 * bsN p)
  (List.range (bsN p)).mapM fun i => do
    let v := sext 32 (leAt bs (4 * i) 4)
    if v < 0 ∨ 2 ^ 24 < v then structFail 8 i (par p 0 8 + 4 * i) else pure v.toNat

/-- The stable permutation by bucket, and the bucket table. -/
def bucketPerm (xs : List Nat) : List Nat × List (Nat × Nat) :=
  let groups := (List.range 17).map fun b => (List.range xs.length).filter fun i => bucketOf (xs.getD i 0) = b
  (groups.flatten, (List.range 17).map fun b =>
    (((groups.take b).map List.length).foldl (· + ·) 0, (groups.getD b []).length))

def bucketUnit (slot : Nat) (c : Cmd) (u : Nat) : Run UnitOut := do
  let p := c.packet
  let xs ← bsLengths (whoOf slot c) p
  let (perm, table) := bucketPerm xs
  let piece := (perm.drop (4096 * u)).take 4096
  let tab := if 4096 * (u + 1) < bsN p then [] else
    [(par p 0x10 8, table.flatMap fun e => leBytes 4 e.1 ++ leBytes 4 e.2)]
  pure (UnitOut.one ((par p 8 8 + 16384 * u, piece.flatMap (leBytes 4)) :: tab) 0 0)

def bucketWork (slot : Nat) (c : Cmd) : Work where
  pre := do let _ ← bsLengths (whoOf slot c) c.packet; pure ()
  units := ceilDiv (bsN c.packet) 4096
  unit := bucketUnit slot
  done := fun _ _ => do pure (0, attnDetail c (← get), ← writtenOf slot)
  outs := pure [(par c.packet 8 8, 4 * bsN c.packet), (par c.packet 0x10 8, 136)]
  buffer := [(par c.packet 0x20 8, 4096 * (maskAt c.packet 0x28).length)]

def execBucketSort (slot : SlotId) (s : State) : Host.Outcome State Fault Refusal :=
  onHw (withCmd slot.val 0x44 fun c h => runTiles slot.val (bucketWork slot.val c) c h) s

end Sys2Proof.Machine
end

