-- ==== Sys2Proof/Machine/Collectives.lean ====
section
/-! DEFINITION. Collectives: setup, exchange, close, failure (R316-R325), and the loss of a partner (R305). -/

namespace Sys2Proof.Machine

/-! Operands (Tables 12-9a, 12-9b) -/

def clCount (p : List Byte) : Nat := par p 0x10 4
def clTag (p : List Byte) : Nat := par p 0x14 4
def clGroup (p : List Byte) : Nat := parBits p 0x18 2 0
def clDim (p : List Byte) : Nat := parBits p 0x18 6 4
def clDir (p : List Byte) : Bool := parBit p 0x18 7
def clIn (p : List Byte) : Nat := par p 0x19 1
def clOut (p : List Byte) : Nat := par p 0x1A 1
def clRole (p : List Byte) : Nat := parBits p 0x18 25 24
def clOp (p : List Byte) : Nat := parBits p 0x18 27 26
def clRoot (p : List Byte) : Nat := par p 0x1C 2
def clRow (p : List Byte) : Nat := par p 0x26 2

/-- Bits of an element that moves unchanged. DESIGN CHOICE (log 22): an M48 element counts 48 bits. -/
def clBits (fmt : Nat) : Nat := if fmt = 8 then 48 else containerBits fmt

/-- The group a command names in the active map; none where the map is not valid. -/
def clGroupOf (h : Hw) (p : List Byte) : Group :=
  if mapValid h (mapActive h) then groupOf h (mapActive h) (clGroup p) else Group.mk 0 0 []

def collExtra (op : Nat) (h : Hw) (_ : World) (p : List Byte) : List Nat :=
  let g := clGroupOf h p
  let zero := fun (off n at_ : Nat) => if par p off n ≠ 0 then [0x40 + at_] else []
  let fmts := clIn p ≠ 0 ∨ clOut p ≠ 0
  (if op = 0x76 then zero 0x10 4 0x10 else []) ++
  (if g.size = 0 then [0x58] else []) ++
  (if op = 0x70 then
     (if clIn p < 2 ∨ 7 < clIn p ∨ clOut p < 4 ∨ 7 < clOut p ∨ clRole p = 3 ∨ clOp p = 3 then [0x58] else [])
   else
     (if clRole p ≠ 0 then [0x58] else []) ++
     (if op = 0x71 ∨ op = 0x73 then
        (if clBits (clIn p) = 0 ∨ !(clOut p = clIn p ∨ clOut p = 0) then [0x58] else [])
      else (if fmts then [0x58] else []))) ++
  (if op = 0x74 ∨ op = 0x75 then
     (if ((g.dims[clDim p]?).map (fun d => d.1)).getD 0 = 0 then [0x58] else []) ++
     (if op = 0x74 then zero 8 8 8 else zero 0 8 0)
   else []) ++
  (if op = 0x73 ∧ g.size ≤ clRoot p then [0x5C] else []) ++
  (if op = 0x72 then (if clRow p = 0 then [0x64] else [])
   else zero 0x26 2 0x24 ++ zero 0x38 8 0x38 ++ zero 0x40 8 0x40) ++
  maskEmpty p 0x48

/-- Parameters of a collective. -/
def specColl (op : Nat) : PSpec :=
  { len := 2,
    fields := [fQ 0, fQ 8, (if op = 0x76 then fV 0x10 31 0 else fW 0x10 31 0), fV 0x14 31 0, fV 0x18 2 0, fV 0x18 27 4,
      fV 0x1C 31 0, fV 0x20 31 0, fV 0x24 31 0, fV 0x28 31 0, fQ 0x30, fQ 0x38, fQ 0x40] ++ fMask 0x48,
    aligns := [(0x70, 8, 4096)],
    extra := collExtra op,
    extraAlign := fun _ p => if op = 0x72 ∧ clRow p % 16 ≠ 0 then [0x64] else [],
    secure := fun h p => maskSecure h p 0x48 || mapSecure h (mapActive h) }

/-! Partners -/

/-- A partner of a collective: its rank and the ways to it. -/
structure Partner where
  rank : Nat
  routes : List Route
  deriving DecidableEq, Repr

/-- The neighbour of SEND or RECV: one step along DIM (R318, R321). -/
def neighbour (g : Group) (dim : Nat) (next : Bool) : Partner :=
  let below := (g.dims.take dim).foldl (fun n d => n + d.1) 0
  let d := (g.dims[dim]?).getD (0, 0, 0)
  let size := 2 ^ d.1
  let x := g.rank / 2 ^ below % size
  let y := if next then (x + 1) % size else (x + size - 1) % size
  Partner.mk (g.rank - x * 2 ^ below + y * 2 ^ below) [Route.mk (if next then d.2.1 else d.2.2) 1]

/-- The least set bit of a rank, or the number of rank bits for rank 0. -/
def lowBit (g : Group) : Nat := ((List.range g.bits).find? fun k => g.rank.testBit k).getD g.bits

/-- Those that send their upward CLOSE to this member (R323). -/
def children (g : Group) : List Nat := (List.range (lowBit g)).map fun k => g.rank + 2 ^ k

/-- Rank bits whose partners a collective uses (R318, R319). -/
def partnerBits (op : Nat) (g : Group) : List Nat :=
  if op = 0x76 then List.range (min g.bits (lowBit g + 1)) else List.range g.bits

/-- The partners of a collective. -/
def partnersOf (op : Nat) (g : Group) (p : List Byte) : List Partner :=
  if op = 0x74 then [neighbour g (clDim p) (!clDir p)]
  else if op = 0x75 then [neighbour g (clDim p) (clDir p)]
  else (partnerBits op g).map fun k => Partner.mk (g.rank ^^^ 2 ^ k) (g.routes k)

/-- What a live collective needs at hand: the command, its group and its partners; and whether it is the gather of a
replica audit, whose command is a STEP_END (R345). -/
structure CollView where
  coll : Coll
  cmd : Cmd
  op : Nat
  group : Group
  partners : List Partner
  audit : Bool
  deriving DecidableEq, Repr

/-- The TAG of the gather of a replica audit, and what each member brings to it: its root and its RESUME_STEP (R345). -/
def auditTag : Nat := 0xFFFFFFFF
def auditBytes : Nat := 40

/-- The packet of an audit's gather. DESIGN CHOICE (log 27): it runs as an ALL_GATHER of auditBytes INT8 elements for each
member, for the manual gives it a setup and no exchange. -/
def auditPacket (group : Nat) : List Byte :=
  List.replicate 80 0 ++ leBytes 4 auditBytes ++ leBytes 4 auditTag ++ leBytes 4 (group + 9 * 2 ^ 8 + 9 * 2 ^ 16) ++
    List.replicate 100 0

def collAt (h : Hw) (slot : Nat) : Option CollView :=
  match h.colls.find? (fun c => c.slot = slot), cmdAt h slot with
  | some c, some cmd =>
    let g := groupOf h c.map c.group
    let audit := cmd.opcode = 0x82
    let cmd := if audit then { cmd with packet := auditPacket c.group } else cmd
    let op := if audit then 0x71 else cmd.opcode
    some (CollView.mk c cmd op g (partnersOf op g cmd.packet) audit)
  | _, _ => none

def modColl (h : Hw) (slot : Nat) (f : Coll → Coll) : Hw :=
  { h with colls := h.colls.map fun c => if c.slot = slot then f c else c }

/-- The ports of a collective's route. -/
def routePorts (h : Hw) (v : CollView) : List Nat :=
  v.partners.flatMap fun p => p.routes.map fun r => slotPort (mapSlot h v.coll.map r.slot)

/-- COLL_LIVE (Table 12-15). -/
def countColls (h : Hw) : Hw := setReg h 0x504060 (BitVec.ofNat 32 h.colls.length)

/-- A collective of a group of the active map becomes live with a TAG, a context number of its own (R318), and what it
brings. DESIGN CHOICE (log 22): the least number not in use. -/
def openCollAs (h : Hw) (slot group tag : Nat) (agree : Bool) (blocks : List (Nat × List Byte)) : Hw :=
  let ctx := ((List.range 65).find? fun n => 0 < n && !(h.colls.any fun x => x.ctx = n)).getD 65
  let x : Coll :=
    { slot := slot, ctx := ctx, map := mapActive h, group := group, tag := tag,
      setupSent := false, mine := none, matched := [], level := 0, levelSent := false, inbox := [], acc := [],
      blocks := blocks, bytesIn := 0, flags := 0, written := false, agree := agree, ups := [], upSent := false,
      down := none }
  countColls { h with colls := h.colls ++ [x] }

/-- A collective becomes live at its dispatch. -/
def openColl (h : Hw) (slot : Nat) (c : Cmd) : Hw :=
  openCollAs h slot (clGroup c.packet) (clTag c.packet) (regBit h rTrainStatus 0 && c.opcode = 0x70) []

/-! Sending -/

/-- Cells to a partner leave on its first way. -/
def sendTo (h : Hw) (v : CollView) (p : Partner) (c : Cell) : Hw :=
  match p.routes with
  | [] => h
  | r :: _ => sendOnSlot h v.coll.map r.slot { c with hops := BitVec.ofNat 6 (r.dist - 1) }

/-- The partner's context number, where its setup has arrived. -/
def ctxOf (v : CollView) (rank : Nat) : Option Nat := (v.coll.matched.find? fun m => m.1 = rank).map Prod.snd

/-- Data bytes that one cell carries to a partner (R298, R303, R320). -/
def perCell (h : Hw) (v : CollView) (p : Partner) (packed40 : Bool) : Nat :=
  let enc := p.routes.any fun r => slotEnc (mapSlot h v.coll.map r.slot)
  if enc then (if packed40 then 220 else 224) else 240

/-- A transfer leaves (R319): cut into cells, by halves over both ways to the top bit's partner. -/
def sendTransfer (h : Hw) (v : CollView) (p : Partner) (level : Nat) (packed40 : Bool) (bs : List Byte) : Hw :=
  let cs := chunksOf (perCell h v p packed40) bs
  let ctx := (ctxOf v p.rank).getD 0
  (List.range cs.length).foldl (fun h i =>
    let r := if i < cs.length / 2 then p.routes.head? else p.routes.getLast?
    match r with
    | none => h
    | some r =>
      sendOnSlot h v.coll.map r.slot
        { blankCell 6 (.data (DataPay.mk level (cs.getD i []))) with
          ctx := BitVec.ofNat 16 ctx, hops := BitVec.ofNat 6 (r.dist - 1), index := BitVec.ofNat 26 i }) h

/-! Ends -/

/-- The work buffer of a collective (Table 12-9b); an audit has none. -/
def collBuffer (v : CollView) : List (Nat × Nat) :=
  let p := v.cmd.packet
  if v.audit then [] else
  [(par p 0x30 8, 65536 +
    (if v.op = 0x70 then 4 * v.group.size * clCount p
     else if v.op = 0x72 then v.group.size * clCount p * clRow p else 0))]

/-- The output memory of a collective (Table 12-9b); an audit has none. -/
def collOutputs (v : CollView) : List (Nat × Nat) :=
  let p := v.cmd.packet
  let n := clCount p
  let dst := par p 8 8
  if v.audit then [] else
  match v.op with
  | 0x70 => [(dst, ceilDiv (n * containerBits (clOut p)) 8)]
  | 0x71 => [(dst, ceilDiv (v.group.size * n * clBits (clIn p)) 8)]
  | 0x72 => [(dst, v.group.size * n * clRow p), (par p 0x40 8, 4 * v.group.size)]
  | 0x73 => [(dst, ceilDiv (n * clBits (clIn p)) 8)]
  | 0x75 => [(dst, n)]
  | _ => []

/-- Marks the output memory of a collective undefined (R324). -/
def freeOutputs (h : Hw) (v : CollView) : Hw := spoil (whoOf v.coll.slot v.cmd) (collOutputs v) h

/-- A collective's work buffer is undefined after it, however it ends: DEDUCED (log 22), since the manual lays the
partials out nowhere (R320). -/
def freeWork (h : Hw) (v : CollView) : Hw := spoil (whoOf v.coll.slot v.cmd) (collBuffer v) h

/-- A collective is live no longer. -/
def removeColl (h : Hw) (slot : Nat) : Hw := countColls { h with colls := h.colls.filter fun c => c.slot ≠ slot }

/-- The SETUP of a partner that waits at a port for this collective. -/
def heldSetup (h : Hw) (v : CollView) (rank : Nat) : Option (Nat × Cell × Nat) :=
  (List.range 12).findSome? fun q => (portAux h q).setups.findSome? fun c =>
    match c.payload with
    | .setup s =>
      if c.map.toNat = v.coll.map ∧ s.group.toNat = v.coll.group ∧ s.tag.toNat = v.coll.tag ∧
          s.senderRank.toNat = rank then some (q, c, s.senderCtx.toNat) else none
    | _ => none

/-- An ABORT to one partner (R324). A partner is addressed by the context number its SETUP names. DEDUCED (log 22): one
whose SETUP has not arrived is sent its ABORT when it does. -/
def abortPartner (v : CollView) (a : AbortPay) (h : Hw) (p : Partner) : Hw :=
  let cell := fun (ctx : Nat) => { blankCell 5 (.abort a) with ctx := BitVec.ofNat 16 ctx }
  match ctxOf v p.rank with
  | some ctx => sendTo h v p (cell ctx)
  | none =>
    match heldSetup h v p.rank with
    | some (q, c, ctx) =>
      let x := portAux h q
      sendTo (freeBuffer (setPortAux h q { x with setups := x.setups.erase c }) q 0) v p (cell ctx)
    | none =>
      match p.routes with
      | [] => h
      | r :: _ =>
        if !portUp h (slotPort (mapSlot h v.coll.map r.slot)) then h
        else { h with fabric := { h.fabric with
          owed := h.fabric.owed ++ [OwedAbort.mk v.coll.map v.coll.group v.coll.tag p.rank r.slot r.dist a] } }

/-- ABORT cells to every partner (R324). -/
def sendAborts (h : Hw) (v : CollView) (a : AbortPay) : Hw := v.partners.foldl (abortPartner v a) h

/-- The ABORT owed to the sender of a SETUP cell, with its context number. -/
def owedTo (h : Hw) (c : Cell) : Option (OwedAbort × Nat) :=
  match c.payload with
  | .setup s => (h.fabric.owed.find? fun o => o.map = c.map.toNat && o.group = s.group.toNat && o.tag = s.tag.toNat &&
      o.rank = s.senderRank.toNat).map fun o => (o, s.senderCtx.toNat)
  | _ => none

/-- An owed ABORT leaves. -/
def payAbort (h : Hw) (o : OwedAbort) (ctx : Nat) : Hw :=
  let h := { h with fabric := { h.fabric with owed := h.fabric.owed.erase o } }
  sendOnSlot h o.map o.slot
    { blankCell 5 (.abort o.pay) with ctx := BitVec.ofNat 16 ctx, hops := BitVec.ofNat 6 (o.dist - 1) }

/-- The package resigns (Table 12-11): no collective is live any more; its partners see RESIGN cells, no ABORT. -/
def dropColls (h : Hw) : Hw :=
  h.colls.foldl (fun h c => match collAt h c.slot with
    | none => removeColl h c.slot
    | some v => removeColl (freeWork (freeOutputs h v) v) c.slot) h

/-- The gather of an audit is over, with the roots by rank, or none where it failed; its STEP_END goes on. -/
def gatherOver (h : Hw) (v : CollView) (roots : List (List Byte)) : Hw :=
  { h with ckpt := { h.ckpt with gathered := some roots, peers := v.coll.matched } }

/-- A collective ends without DONE. DESIGN CHOICE (log 27): an audit whose gather fails ends, and compares nothing. -/
def endColl (h : Hw) (v : CollView) (st d0 d1 : Nat) : Hw :=
  let h := freeWork (freeOutputs h v) v
  let h := bumpSat (removeColl h v.coll.slot) 0x504064 1
  if v.audit then gatherOver h v [] else finish h v.coll.slot st d0 d1

/-- This member detects a failure (R324): ABORT to every partner, an error record of some origin, and its own end. cause
and word travel in the ABORT. -/
def failCollAs (source kind unit addr : Nat) (h : Hw) (v : CollView) (st d0 d1 cause word : Nat) : Hw :=
  let a : AbortPay :=
    AbortPay.mk (BitVec.ofNat 8 st) (BitVec.ofNat 16 v.group.rank) (BitVec.ofNat 8 cause) (BitVec.ofNat 64 word)
  let h := sendAborts h v a
  let h := endColl h v st d0 d1
  let (ref, h) := cmdErr h v.coll.slot ((cmdAt h v.coll.slot).getD v.cmd) st d0 d1 source kind unit addr
  if v.audit then h else modCmd h v.coll.slot fun c => { c with errRef := ref }

/-- A failure that the interpreter records: ADDR is the address of the statuses that have one (Table 20-7). -/
def failColl (h : Hw) (v : CollView) (st d0 d1 cause word : Nat) : Hw :=
  failCollAs 1 0 v.cmd.ring.val (if st = 0x13 ∨ st = 0x20 ∨ st = 0x30 then word else 0) h v st d0 d1 cause word

/-- The DETAIL words and status of a member that received an ABORT (Table 12-11). -/
def abortedAs (a : AbortPay) : Nat × Nat × Nat :=
  let st := a.status.toNat
  if st = 0x40 then (st, a.addr.toNat, a.rank.toNat)
  else if st = 0x41 then (st, a.cause.toNat + a.rank.toNat * 2 ^ 16, a.addr.toNat)
  else if st = 0x42 then (st, 0, a.rank.toNat)
  else if st = 3 then (3, a.cause.toNat, a.addr.toNat)
  else (3, 4 + st * 2 ^ 8 + a.rank.toNat * 2 ^ 16, a.addr.toNat)

/-- A permission fault of a collective, or a dropped fault record in its place (R358, R359): the member fails, and the one
record is the translation's, of a kind. -/
def collPermission (h : Hw) (v : CollView) (va kind : Nat) : Hw :=
  failCollAs 7 kind (regimeOf v.cmd.world) va (bumpSat h rPermFaults 1) v 0x20 va 0 0 va

/-- A collective's work met a failure of the memory (R318, R324). A resolvable fault holds it in place. -/
def collFailed (before after : Hw) (v : CollView) : Fail → Hw
  | .wait => after
  | .stop st d0 d1 => failColl after v st d0 d1 0 d1
  | .poison va => failColl after v 0x30 va 0 0 va
  | .walkPoison va => failColl after v 0x30 va 0 0 va
  | .world va => failColl after v 0x13 va 0 0 va
  | .xlate va acc np =>
    let dm := if np then demandOf after (regimeOf v.cmd.world) va acc else (.outside, after)
    match dm.1 with
    | .held => before
    | .poisoned => failColl dm.2 v 0x30 va 0 0 va
    | .outside => collPermission dm.2 v va 1
    | .region d =>
      match pendingFor dm.2 v.coll.slot v.cmd d va (acc ≠ .rd) with
      | (none, h) => collPermission h v va 2
      | (some pf, h) => modCmd h v.coll.slot fun c => { c with fault := some pf }

/-! Setup (R318) -/

def posTag (h : Hw) : Nat := getReg64 h 0x504020

/-- The SETUP this member sends (Table 12-9). -/
def mySetup (h : Hw) (v : CollView) : SetupPay :=
  let p := v.cmd.packet
  { posTag := BitVec.ofNat 64 (posTag h), epoch := getReg h rEpoch, stepLo := getReg h rStepLo,
    tag := BitVec.ofNat 32 v.coll.tag, opcode := BitVec.ofNat 8 v.op, group := BitVec.ofNat 3 v.coll.group,
    mapActive := BitVec.ofNat 2 v.coll.map, senderCtx := BitVec.ofNat 16 v.coll.ctx,
    count := BitVec.ofNat 32 (clCount p), inFmt := BitVec.ofNat 8 (clIn p), outFmt := BitVec.ofNat 8 (clOut p),
    op := BitVec.ofNat 2 (clOp p), outRole := BitVec.ofNat 2 (clRole p), rowUnits := BitVec.ofNat 12 (clRow p / 16),
    root := BitVec.ofNat 16 (clRoot p), senderRank := BitVec.ofNat 16 v.group.rank,
    size := BitVec.ofNat 32 v.group.size }

/-- The opcode the partner's SETUP must name. -/
def peerOpcode (op : Nat) : Nat := if op = 0x74 then 0x75 else if op = 0x75 then 0x74 else op

/-- The first cause of Table 12-10 that a SETUP arriving on a port fails under, against the one this member sent. -/
def setupCause (h : Hw) (v : CollView) (q : Nat) (s : SetupPay) : Option Nat :=
  let m := v.coll.mine.getD (mySetup h v)
  if s.posTag ≠ m.posTag then some 1
  else if s.epoch ≠ m.epoch then some 2
  else if s.stepLo ≠ m.stepLo then some 3
  else if s.opcode.toNat ≠ peerOpcode v.op ∨ s.group ≠ m.group ∨ s.mapActive ≠ m.mapActive ∨ s.size ≠ m.size then
    some 4
  else if s.count ≠ m.count ∨ s.inFmt ≠ m.inFmt ∨ s.outFmt ≠ m.outFmt ∨ s.op ≠ m.op ∨ s.outRole ≠ m.outRole ∨
      s.rowUnits ≠ m.rowUnits ∨ s.root ≠ m.root then some 5
  else if v.partners.any fun p => p.rank = s.senderRank.toNat &&
      p.routes.any (fun r => slotPort (mapSlot h v.coll.map r.slot) = q) then none
  else some 6

/-- A SETUP meets its live collective. -/
def matchSetup (h : Hw) (v : CollView) (q : Nat) (s : SetupPay) : Hw :=
  let v := { v with coll := { v.coll with matched := v.coll.matched ++ [(s.senderRank.toNat, s.senderCtx.toNat)] } }
  let h := modColl h v.coll.slot fun _ => v.coll
  match setupCause h v q s with
  | none => h
  | some k =>
    let tag := if k = 1 then s.posTag.toNat else 0
    failColl (bumpSat h 0x504068 1) v 0x41 (k + v.group.rank * 2 ^ 16) tag k tag

/-- The live collective a SETUP names: same map, group and TAG, its own setups sent. -/
def setupTarget (h : Hw) (c : Cell) : Option Coll :=
  match c.payload with
  | .setup s => h.colls.find? fun x =>
      x.setupSent && x.map = c.map.toNat && x.group = s.group.toNat && x.tag = s.tag.toNat
  | _ => none

/-- SETUP cells that wait for a collective meet it (R318); each frees its buffer. The fuel is the cells waiting. -/
def takeSetups : Nat → Hw → Nat → Hw
  | 0, h, _ => h
  | f + 1, h, slot =>
    let found := (List.range 12).findSome? fun q =>
      ((portAux h q).setups.find? fun c => (setupTarget h c).any fun x => x.slot = slot).map fun c => (q, c)
    match found with
    | none => h
    | some (q, c) =>
      let a := portAux h q
      let h := freeBuffer (setPortAux h q { a with setups := a.setups.erase c }) q 0
      match collAt h slot, c.payload with
      | some v, .setup s => takeSetups f (matchSetup h v q s) slot
      | _, _ => h

def waitingSetups (h : Hw) : Nat := (h.ports.map fun e => e.2.setups.length).foldl (· + ·) 0

/-! Elements at element offsets, nibbles included -/

/-- Elements [first, first + n) of b bits from a base, packed from bit 0. -/
def rdPacked (who : Who) (base b first n : Nat) : Run (List Byte) := do
  if b = 4 ∧ first % 2 = 1 then
    let bs ← rd who (base + first / 2) (ceilDiv (n + 1) 2)
    pure (packElems 1 ((List.range n).map fun i => elemBits 1 bs (i + 1)))
  else rd who (base + first * b / 8) (ceilDiv (n * b) 8)

/-- Writes packed elements at an element offset, keeping neighbours' nibbles. -/
def wrPacked (who : Who) (base b first n : Nat) (bs : List Byte) : Run Unit := do
  if b = 4 ∧ (first % 2 = 1 ∨ n % 2 = 1) then
    let a := base + first / 2
    let k := ceilDiv (first % 2 + n) 2
    let old ← rd who a k
    let els := (List.range (2 * k)).map fun i =>
      if first % 2 ≤ i ∧ i < first % 2 + n then elemBits 1 bs (i - first % 2) else elemBits 1 old i
    wr who a (packElems 1 els)
  else wr who (base + first * b / 8) bs

/-! Start: buffers, contribution, setups -/

/-- The memory that a collective reads (Table 12-9b). -/
def collSources (v : CollView) : List (Nat × Nat) :=
  let p := v.cmd.packet
  let n := clCount p
  let src := par p 0 8
  match v.op with
  | 0x70 => [(src, ceilDiv (v.group.size * n * containerBits (clIn p)) 8)]
  | 0x71 => [(src, ceilDiv (n * clBits (clIn p)) 8)]
  | 0x72 => [(par p 0x38 8, 4 * v.group.size), (src, v.group.size * n * clRow p)]
  | 0x73 => if v.group.rank = clRoot p then [(src, ceilDiv (n * clBits (clIn p)) 8)] else []
  | 0x74 => [(src, n)]
  | _ => []

/-- Ranges are translated and pinned (R318, R360). -/
def pinRanges (slot : Nat) (who : Who) (acc : Acc) : List (Nat × Nat) → Run Unit
  | [] => pure ()
  | r :: rs => do pinRange slot who r.1 r.2 acc; pinRanges slot who acc rs

/-- Step 1 of R318: every buffer is translated; the translations stay pinned. -/
def pinColl (v : CollView) : Run Unit := do
  let who := whoOf v.coll.slot v.cmd
  pinRanges v.coll.slot who .rmw (collBuffer v)
  pinRanges v.coll.slot who .rd (collSources v)
  pinRanges v.coll.slot who .wr (collOutputs v)

/-- What this member brings to a collective (R318). -/
def loadColl (v : CollView) : Run Coll := do
  let p := v.cmd.packet
  let who := whoOf v.coll.slot v.cmd
  let n := clCount p
  let g := v.group
  let src := par p 0 8
  match v.op with
  | 0x70 => do
    let bs ← rd who src (ceilDiv (g.size * n * containerBits (clIn p)) 8)
    let e := sext 8 (par p 0x1E 1)
    pure { v.coll with acc := (List.range (g.size * n)).map fun i => (elemNum (clIn p) bs i).scale e }
  | 0x71 => do
    let bs ← rd who src (ceilDiv (n * clBits (clIn p)) 8)
    pure { v.coll with blocks := [(g.rank, bs)] }
  | 0x72 => do
    let sc ← rd who (par p 0x38 8) (4 * g.size)
    let cnt := fun d => sext 32 (leAt sc (4 * d) 4)
    match (List.range g.size).find? fun d => decide (cnt d < 0) || decide ((n : Int) < cnt d) with
    | some d => throw (.stop 0x11 (2 ^ 63 + 2 ^ 48 + d) 0)
    | none => do
      let bl ← (List.range g.size).mapM fun d => do
        let bs ← rd who (src + d * n * clRow p) ((cnt d).toNat * clRow p)
        pure (g.rank * g.size + d, bs)
      pure { v.coll with blocks := bl }
  | 0x73 => do
    if g.rank = clRoot p then
      let bs ← rd who src (ceilDiv (n * clBits (clIn p)) 8)
      pure { v.coll with blocks := [(0, bs)] }
    else pure v.coll
  | 0x74 => do
    let bs ← rd who src n
    pure { v.coll with blocks := [(0, bs)] }
  | _ => pure v.coll

/-- A slot of the route encrypts under a link key slot that is empty (R401). -/
def routeKeyMissing (h : Hw) (v : CollView) : Bool :=
  v.partners.any fun p => p.routes.any fun r =>
    let w := mapSlot h v.coll.map r.slot
    slotEnc w && (smFind h.sec.linkKeys (slotKey w)).isNone

/-- Steps 1 to 3 of R318. SETUP cells are held while the digest is not ready (R312). On a return from QUIET a collective
waits for its ports (R443). -/
def startColl (h : Hw) (v : CollView) : Hw :=
  let down := (List.range 12).filter fun q => (routePorts h v).contains q && !portUp h q
  match down with
  | q :: _ => if down.all fun q => (portAux h q).rejoins then h else failColl h v 0x40 q v.group.rank 0 q
  | [] =>
    if routeKeyMissing h v then failColl h v 0x11 0x58 0 0 0
    else if h.fabric.stale then h
    else match runOn (if v.audit then pure v.coll else do pinColl v; loadColl v) h with
      | (.error f, h') => collFailed h (modCmd h' v.coll.slot fun c => { c with pins := [] }) v f
      | (.ok x, h) =>
        let s := mySetup h v
        let x := { x with setupSent := true, mine := some s }
        let h := modColl h v.coll.slot fun _ => x
        let h := modCmd h v.coll.slot fun c => { c with outRanges := collOutputs v }
        let v := { v with coll := x }
        let h := v.partners.foldl (fun h p => sendTo h v p (blankCell 3 (.setup s))) h
        takeSetups (waitingSetups h) h v.coll.slot

/-! Levels -/

/-- Rank bits in the order of a collective's levels. -/
def levelBit (v : CollView) : Nat :=
  if v.op = 0x71 ∨ v.op = 0x73 then v.group.bits - 1 - v.coll.level else v.coll.level

/-- Levels of data exchange. -/
def levels (v : CollView) : Nat :=
  match v.op with
  | 0x74 => 1
  | 0x75 => 1
  | 0x76 => 0
  | _ => v.group.bits

/-- Chunks that a reducing member holds before level k (R320), or a gathering one after the bits above k (R321). -/
def chunksHeld (v : CollView) (k : Nat) : List Nat :=
  (List.range (v.group.size / 2 ^ k)).map fun j => v.group.rank % 2 ^ k + j * 2 ^ k

/-- Elements of the chunks of a list that hold a bit, in order. -/
def keepBit (v : CollView) (k : Nat) (b : Bool) : List Num :=
  let n := clCount v.cmd.packet
  let hs := chunksHeld v k
  (List.range hs.length).flatMap fun i =>
    if (hs.getD i 0).testBit k = b then (v.coll.acc.drop (i * n)).take n else []

/-- Blocks an exchange sends at level k: those whose destination has the partner's bit (R322). -/
def forkSends (v : CollView) (k : Nat) : List (Nat × List Byte) :=
  v.coll.blocks.filter fun b => (b.1 % v.group.size).testBit k ≠ v.group.rank.testBit k

/-- What this member sends at its level, with whether it is packed W40; none where it sends nothing. At level 0 elements
travel in IN_FMT, W40 in its own container (R320). -/
def levelData (v : CollView) : Option (Bool × List Byte) :=
  let p := v.cmd.packet
  let k := levelBit v
  let r := v.group.rank
  match v.op with
  | 0x70 =>
    let els := keepBit v k (!r.testBit k)
    if v.coll.level = 0 then
      let e := sext 8 (par p 0x1E 1)
      some (false, packElems (clIn p) (els.map fun x => ((ffmtOf (clIn p)).getD fp32).bitsOf (x.scale (-e))))
    else some (true, els.flatMap fun x => leBytes 5 (w40.bitsOf x))
  | 0x71 => some (false, v.coll.blocks.flatMap Prod.snd)
  | 0x72 => some (false, (forkSends v k).flatMap fun b => leBytes 4 (b.2.length / clRow p) ++ b.2)
  | 0x73 =>
    if (r ^^^ clRoot p) % 2 ^ (k + 1) = 0 then v.coll.blocks.head?.map fun b => (false, b.2) else none
  | 0x74 => v.coll.blocks.head?.map fun b => (false, b.2)
  | _ => none

/-- Bytes of the cells received for a level, in INDEX order; none while one is missing. -/
def levelBytes (v : CollView) : List Byte :=
  let cs := v.coll.inbox.filter fun x => x.1 = v.coll.level
  let rec_ := fun i => (cs.find? fun x => x.2.1 = i).map fun x => x.2.2
  ((List.range cs.length).map rec_).takeWhile Option.isSome |>.flatMap fun o => o.getD []

/-- Splits counted blocks from a transfer of the fork: the keys it must hold, in order. -/
def splitBlocks (row : Nat) : List Nat → List Byte → Option (List (Nat × List Byte))
  | [], _ => some []
  | k :: ks, bs =>
    if bs.length < 4 then none
    else
      let n := leAt bs 0 4 * row
      let rest := bs.drop 4
      if rest.length < n then none
      else (splitBlocks row ks (rest.drop n)).map fun r => (k, rest.take n) :: r

/-- The blocks a member receives at level k (R322): their keys in order. -/
def forkExpects (v : CollView) (k : Nat) : List Nat :=
  let g := v.group
  let p := g.rank ^^^ 2 ^ k
  (List.range (g.size * g.size)).filter fun key =>
    let s := key / g.size
    let d := key % g.size
    decide (s / 2 ^ k = p / 2 ^ k) && decide (d % 2 ^ (k + 1) = g.rank % 2 ^ (k + 1))

/-- One received element of a reduction combined with one kept: left is the value of the lower rank (R320). Both are
exact, an element as scaled, and the combination is rounded once, to W40 (Table 4-5). -/
def combineColl (op : Nat) (mineLow : Bool) (mine theirs : Num) : Num × Nat :=
  let l := if mineLow then mine else theirs
  let r := if mineLow then theirs else mine
  if op = 1 then roundW40 (l.min r)
  else if op = 2 then roundW40 (l.max r)
  else addW40 (l, 0) (r, 0)

/-- Elements that a reducing member receives at its level: in IN_FMT at level 0, packed W40 after (R320). -/
def rawLevel (v : CollView) : Bool := v.coll.level = 0

/-- Bytes of n such elements. -/
def levelNeed (v : CollView) (n : Nat) : Nat :=
  if rawLevel v then ceilDiv (n * containerBits (clIn v.cmd.packet)) 8 else n * 5

/-- Received element i. -/
def theirElem (v : CollView) (bs : List Byte) (i : Nat) : Num :=
  let p := v.cmd.packet
  let e := if v.coll.level = 0 then sext 8 (par p 0x1E 1) else 0
  (if rawLevel v then elemNum (clIn p) bs i else w40.decode (leAt bs (5 * i) 5)).scale e

/-- The partials a reduction receives stand in W40 containers in the work buffer (R320). DESIGN CHOICE (log 22): from
its start, in chunk order. -/
def keepPartials (v : CollView) : Run Unit :=
  let n := (keepBit v (levelBit v) (v.group.rank.testBit (levelBit v))).length
  let bs := levelBytes v
  if v.op = 0x70 then
    wr (whoOf v.coll.slot v.cmd) ((collBuffer v).headD (0, 0)).1
      ((List.range n).flatMap fun i => leBytes 8 (w40.bitsOf (roundW40 (theirElem v bs i)).1))
  else pure ()

/-- What a level's received bytes make of the member; none while bytes are missing. -/
def levelStep (v : CollView) : Option Coll :=
  let p := v.cmd.packet
  let n := clCount p
  let k := levelBit v
  let bs := levelBytes v
  let r := v.group.rank
  let next : Coll := { v.coll with level := v.coll.level + 1, levelSent := false,
                                   inbox := v.coll.inbox.filter fun x => x.1 ≠ v.coll.level,
                                   bytesIn := v.coll.bytesIn + bs.length }
  match v.op with
  | 0x70 =>
    let mine := keepBit v k (r.testBit k)
    if bs.length < levelNeed v mine.length then none
    else
      let out := (List.range mine.length).map fun i =>
        combineColl (clOp p) (!r.testBit k) (mine.getD i numZero) (theirElem v bs i)
      some { next with acc := out.map Prod.fst, flags := (out.foldl (fun f x => f ||| x.2) v.coll.flags) }
  | 0x71 =>
    let one := ceilDiv (n * clBits (clIn p)) 8
    let keys := (chunksHeld v (k + 1)).map fun c => c ^^^ 2 ^ k
    if bs.length < keys.length * one then none
    else
      let got := (List.range keys.length).map fun i => (keys.getD i 0, (bs.drop (i * one)).take one)
      some { next with blocks := (got.foldl (fun m b => smPut m b.1 b.2) v.coll.blocks) }
  | 0x72 =>
    (splitBlocks (clRow p) (forkExpects v k) bs).map fun got =>
      { next with blocks := (got.foldl (fun m b => smPut m b.1 b.2)
          (v.coll.blocks.filter fun b => (b.1 % v.group.size).testBit k = r.testBit k)) }
  | 0x73 =>
    if (r ^^^ clRoot p) % 2 ^ (k + 1) = 2 ^ k then
      let one := ceilDiv (n * clBits (clIn p)) 8
      if bs.length < one then none else some { next with blocks := [(0, bs.take one)] }
    else some next
  | 0x75 => if bs.length < n then none else some { next with blocks := [(0, bs.take n)] }
  | _ => some next

/-- The rank of the level's partner. -/
def levelPartner (v : CollView) : Option Partner :=
  if v.op = 0x74 ∨ v.op = 0x75 then v.partners.head?
  else v.partners.find? fun p => p.rank = v.group.rank ^^^ 2 ^ levelBit v

/-! Final writes and the close exchange -/

/-- The member's own final writes (R320-R322). -/
def writeColl (v : CollView) : Run Nat := do
  let p := v.cmd.packet
  let who := whoOf v.coll.slot v.cmd
  let n := clCount p
  let dst := par p 8 8
  if v.audit then pure 0 else
  match v.op with
  | 0x70 => do
    let e := sext 8 (par p 0x1F 1)
    let rnd := fun j => if clRole p = 2 then
        some (srOf v.cmd (par p 0x20 4) (par p 0x24 2) (v.group.rank * n + j)) else none
    let out := (List.range n).map fun j =>
      convert (clOut p) (clRole p = 2) (rnd j) ((v.coll.acc.getD j numZero).scale e)
    wr who dst (packElems (clOut p) (out.map Conv.bits))
    pure (out.foldl (fun f c => f ||| c.flags ||| (if c.ovf then stepOvf else 0)) 0)
  | 0x71 => do
    for b in v.coll.blocks do wrPacked who dst (clBits (clIn p)) (b.1 * n) n b.2
    pure 0
  | 0x72 => do
    for b in v.coll.blocks do
      wr who (dst + b.1 / v.group.size * n * clRow p) b.2
      wr who (par p 0x40 8 + 4 * (b.1 / v.group.size)) (leBytes 4 (b.2.length / clRow p))
    pure 0
  | 0x73 => do
    wrPacked who dst (clBits (clIn p)) 0 n ((v.coll.blocks.head?.map Prod.snd).getD [])
    pure 0
  | 0x75 => do
    wr who dst ((v.coll.blocks.head?.map Prod.snd).getD [])
    pure 0
  | _ => pure 0

/-- The agreement sample of a member (R278): its s, with UNCOVERED cleared. -/
def sampleAgree (h : Hw) (v : CollView) : Bool × Hw :=
  if v.coll.agree then
    (regBit h rTrainStatus 2 || regBit h rTrainStatus 3, setRegBit h rTrainStatus 4 false)
  else (false, h)

/-- DONE (Table 12-11): flags of a reduction, rows received by a fork, bytes received. -/
def doneColl (h : Hw) (v : CollView) (agreed : Bool) : Hw :=
  let h := if v.coll.agree then
      let h := if agreed then setRegBit h rTrainStatus 3 true else h
      bumpSat h 0x170014 1
    else h
  let p := v.cmd.packet
  let d0 := if v.op = 0x70 then v.coll.flags % 32
    else if v.op = 0x72 then
      v.coll.blocks.foldl (fun n b => n + b.2.length / clRow p) 0
    else 0
  let h := freeWork h v
  if v.audit then
    gatherOver (removeColl h v.coll.slot) v ((List.range v.group.size).map fun r => ((smFind v.coll.blocks r).getD []).take 32)
  else
  let h := perfRegs tilePerf v.cmd.tiles h
  finish (removeColl h v.coll.slot) v.coll.slot 0 d0 v.coll.bytesIn

def closeCell (h : Hw) (v : CollView) (up : Bool) (agree : Bool) : ClosePay :=
  ClosePay.mk up (getReg h rStepLo) 0 agree (BitVec.ofNat 16 v.group.rank)

def sendClose (h : Hw) (v : CollView) (rank : Nat) (c : ClosePay) : Hw :=
  match v.partners.find? fun p => p.rank = rank with
  | none => h
  | some p => sendTo h v p { blankCell 4 (.close c) with ctx := BitVec.ofNat 16 ((ctxOf v rank).getD 0) }

/-- Whether the setups that the close exchange needs have matched. -/
def closeReady (v : CollView) : Bool := v.partners.all fun p => (ctxOf v p.rank).isSome

/-- The downward pass reaches this member: it passes it on and completes (R323). -/
def closeDown (h : Hw) (v : CollView) (agree : Bool) : Hw :=
  let h := (children v.group).foldl (fun h r => sendClose h v r (closeCell h v false agree)) h
  doneColl h v agree

/-- The close exchange as far as it goes. -/
def closeColl (h : Hw) (v : CollView) : Hw :=
  if v.op = 0x74 then
    match v.coll.ups with
    | [] => h
    | _ :: _ => doneColl h v false
  else if v.op = 0x75 then
    match v.partners.head? with
    | none => h
    | some p => doneColl (sendClose h v p.rank (closeCell h v true false)) v false
  else if v.coll.upSent then
    match v.coll.down with
    | none => h
    | some d => closeDown h v d.agree
  else if v.coll.ups.length < (children v.group).length ∨ !closeReady v then h
  else
    let (s, h) := sampleAgree h v
    let s := s || v.coll.ups.any ClosePay.agree
    if v.group.rank = 0 then closeDown h v s
    else
      let h := sendClose h v (v.group.rank - 2 ^ lowBit v.group) (closeCell h v true s)
      modColl h v.coll.slot fun c => { c with upSent := true }

/-- A collective goes on as far as cells received allow (the fuel bounds its levels). -/
def advanceColl : Nat → Hw → Nat → Hw
  | 0, h, _ => h
  | f + 1, h, slot =>
    match collAt h slot with
    | none => h
    | some v =>
      if v.cmd.phase ≠ .running ∨ v.cmd.fault.isSome then h
      else if !v.coll.setupSent then
        let h' := startColl h v
        (match collAt h' slot with
         | some v' => if v'.coll.setupSent then advanceColl f h' slot else h'
         | none => h')
      else if v.coll.level < levels v then
        match levelPartner v with
        | none => h
        | some p =>
          if (ctxOf v p.rank).isNone then h
          else
            let h := if v.coll.levelSent then h else
              let h := match levelData v with
                | none => h
                | some (packed, bs) => sendTransfer h v p v.coll.level packed bs
              modColl h slot fun c => { c with levelSent := true }
            (match collAt h slot with
             | none => h
             | some v => match levelStep v with
               | none => h
               | some c =>
                 match runOn (keepPartials v) h with
                 | (.error e, h') => collFailed h h' v e
                 | (.ok _, h) => advanceColl f (modColl h slot fun _ => c) slot)
      else if !v.coll.written then
        match runOn (writeColl v) h with
        | (.error e, h') => collFailed h h' v e
        | (.ok flags, h) =>
          let h := raiseFlags h v.cmd flags
          advanceColl f (modColl h slot fun c => { c with written := true, flags := c.flags ||| flags }) slot
      else closeColl h v

/-- Runs a collective in a slot; one whose tiles have all left service fails (R90). -/
def collRun (slot : Nat) (c : Cmd) (h : Hw) : Hw :=
  match c.tiles, collAt h slot with
  | [], some v =>
    (match lostDie h c.mask with
     | some d => failColl h v 0x43 d 0 0 0
     | none => failColl h v 3 6 0 6 0)
  | _, _ => advanceColl 64 h slot

def execReduceScatter (slot : SlotId) (s : State) : Host.Outcome State Fault Refusal :=
  onHw (withCmd slot.val 0x70 (collRun slot.val)) s

def execAllGather (slot : SlotId) (s : State) : Host.Outcome State Fault Refusal :=
  onHw (withCmd slot.val 0x71 (collRun slot.val)) s

def execAllToAll (slot : SlotId) (s : State) : Host.Outcome State Fault Refusal :=
  onHw (withCmd slot.val 0x72 (collRun slot.val)) s

def execBroadcast (slot : SlotId) (s : State) : Host.Outcome State Fault Refusal :=
  onHw (withCmd slot.val 0x73 (collRun slot.val)) s

def execSend (slot : SlotId) (s : State) : Host.Outcome State Fault Refusal :=
  onHw (withCmd slot.val 0x74 (collRun slot.val)) s

def execRecv (slot : SlotId) (s : State) : Host.Outcome State Fault Refusal :=
  onHw (withCmd slot.val 0x75 (collRun slot.val)) s

def execBarrier (slot : SlotId) (s : State) : Host.Outcome State Fault Refusal :=
  onHw (withCmd slot.val 0x76 (collRun slot.val)) s

/-- The time limit of a collective, 0 for none (R316, R325). -/
def collLimit (h : Hw) (c : Cmd) : Nat :=
  if par c.packet 0x28 4 ≠ 0 then par c.packet 0x28 4 else regFld h 0x504104 15 0

/-- TIMEOUT_MS passes (R325). -/
def collTimeout (slot : Nat) (h : Hw) : Hw :=
  match collAt h slot with
  | none => h
  | some v => if v.cmd.phase = .running ∧ collLimit h v.cmd ≠ 0 then failColl h v 0x42 0 v.group.rank 0 0 else h

def execCollTimeoutExpiry (slot : SlotId) (s : State) : Host.Outcome State Fault Refusal :=
  onHw (collTimeout slot.val) s

/-! Loss of a partner (R305, R306) -/

/-- Live collectives whose route uses a port. -/
def collsOn (h : Hw) (q : Nat) : List Nat :=
  (h.colls.map Coll.slot).filter fun s => (collAt h s).any fun v => (routePorts h v).contains q

/-- The state of a link is discarded: replay buffer, credits, waiting cells; requests are lost (R305, R242), and a
piece being received stays unfinished (R336). -/
def clearLink (h : Hw) (q : Nat) : Hw :=
  let h := { h with
    ckpt := { h.ckpt with rx := h.ckpt.rx.filter fun x => x.port ≠ q },
    fabric := { h.fabric with owed := h.fabric.owed.filter fun o => slotPort (mapSlot h o.map o.slot) ≠ q } }
  let a := portAux h q
  setPortAux h q { a with
    replay := [], queue := [], credits := [64, 2048, 1024, 1024], owed := [0, 0, 0, 0],
    setups := [], good := 0, partnerUp := false,
    requests := a.requests.map fun r => { r with lost := true } }

/-- A port declares its partner lost with a cause (Table 12-6). -/
def partnerLoss (h : Hw) (q cause : Nat) : Hw :=
  let st := portState h q
  if st = 3 ∨ st = 4 then
    let hit := collsOn h q
    let h := setPortState h q 5
    let h := setRegBit (setRegFld h (rPort q 0) 27 24 cause) (rPort q 0) 9 true
    let h := clearLink h q
    let h := hit.foldl (fun h s => match collAt h s with
      | none => h
      | some v => failColl h v 0x40 q v.group.rank 0 q) h
    logErr h { source := 5, kind := cause, secure := portSecure h q, severity := (if cause = 4 then 0 else 3),
               unit := q }
  else h

end Sys2Proof.Machine
end

