-- ==== Sys2Proof/Machine/PortRows.lean ====
section
/-! DEFINITION. What ports do with arriving cells, timeouts, light and control writes (R296-R307, R241, R323, R324). -/

namespace Sys2Proof.Machine

/-! CRC (R298) -/

/-- Both forward-error-correction counters count on, by what no command shows: FEC_CORR wraps and FEC_UNCORR saturates
(Table 12-14; log 87). -/
def countFec (h : Hw) (q : Nat) : Hw :=
  let a := portAux h q
  setPortAux { h with draws := h.draws + 2 } q { a with
    fecCorr := a.fecCorr + Config.freeWord h.draws, fecUncorr := satAdd a.fecUncorr (Config.freeNat (h.draws + 1)) }

/-- A cell whose CRC fails is discarded: a port that runs answers with a NAK (R301), and no keepalive of a HELLO port is
good in a row with those before (Table 12-1). -/
def cellCrcFailureHw (q : Nat) (h : Hw) : Hw :=
  if portRuns h q then sendNak (countFec h q) q
  else if portState h q = 3 then setPortAux h q { portAux h q with good := 0 } else h

def execCellCrcFailure (q : PortId) (s : State) : Host.Outcome State Fault Refusal := onHw (cellCrcFailureHw q.val) s

/-- What an arriving cell does, where its CRC holds. -/
def ifCrc (q : Nat) (c : Cell) (f : Hw → Hw) (h : Hw) : Hw := if crcOk c then f h else cellCrcFailureHw q h

/-! Link states -/

/-- TAG_DIFF stands while the partner's POS_TAG or EPOCH differs from this package's (R304). -/
def tagDiff (h : Hw) (q : Nat) : Hw :=
  let d := getReg h (rPort q 0x18) ≠ getReg h 0x504020 || getReg h (rPort q 0x1C) ≠ getReg h 0x504024 ||
    getReg h (rPort q 0x14) ≠ getReg h rEpoch
  setRegBit h (rPort q 0) 10 d

/-- A link-up (R307, R300): sequence numbers start at 0, credits are restored, LINK_EPOCH counts. -/
def linkUp (h : Hw) (q : Nat) (serial : Quad) : Hw :=
  let a := portAux h q
  let changed := a.serialSeen.any fun s => s ≠ serial
  let h := setPortAux h q { a with
    txSeq := 0, rxSeq := 0, acked := 0, replay := [], credits := [64, 2048, 1024, 1024], owed := [0, 0, 0, 0],
    queue := [], setups := [], linkEpoch := a.linkEpoch + 1, serialSeen := some serial, rejoins := false, out := [] }
  let h := setRegFld (setPortState h q 4) (rPort q 0) 27 24 0
  let h := if changed then setRegBit h (rPort q 0) 11 true else h
  bumpSat h (rPort q 0x40) 1

/-- Leaving HELLO, UP or any state for another without a partner's loss declared: what lived on the link ends as
LINK_LOST. DEDUCED (log 23): the manual names only the partner's side. -/
def dropLink (h : Hw) (q st : Nat) : Hw :=
  let hit := if portState h q = 3 ∨ portState h q = 4 then collsOn h q else []
  let h := clearLink (setPortState h q st) q
  hit.foldl (fun h s => match collAt h s with
    | none => h
    | some v => failColl h v 0x40 q v.group.rank 0 q) h

/-- A port goes dark (R297, R306). -/
def darkenPort (h : Hw) (q : Nat) : Hw :=
  let h := setReg (dropLink h q 0) (rPort q 0x3C) 0
  setPortAux h q { portAux h q with rejoins := false }

/-- The record of a retrain, the port back in LOCKING (Tables 19-5, 20-7). -/
def retrained (h : Hw) (q : Nat) : Hw :=
  logErr h { source := 5, kind := 7, secure := portSecure h q, severity := 0, unit := q }

/-- Both laser inputs are present. -/
def laserOk (h : Hw) (q : Nat) : Bool := (portAux h q).laser0 && (portAux h q).laser1

/-- A port whose engine has lost its control channel stays dark until the next start (Table 17-5). -/
def portLost (h : Hw) (q : Nat) : Bool := regBit h (regOf .zl (0x100 + 16 * (36 + q))) 6

/-- A dark port that is enabled and has its laser input begins to lock (Table 12-1); in a bring-up, from its step 8 on,
which runs alongside steps 6 and 7 (R450). -/
def tryLock (h : Hw) (q : Nat) : Hw :=
  if portState h q = 0 ∧ regBit h (rPort q 4) 0 ∧ laserOk h q ∧ !portLost h q ∧ h.pkg ≠ .quiet ∧ h.pkg ≠ .resigned ∧
      h.pkg ≠ .off ∧ h.pkg ≠ .aux ∧ (h.pkg ≠ .bringup ∨ 5 ≤ h.bringStep) ∧ h.supplies.refclkSys ∧ !h.sec.halted then
    setPortState h q 1
  else h

def allPorts (f : Hw → Nat → Hw) (h : Hw) : Hw := (List.range 12).foldl f h

/-- Four QUIET or RESIGN cells on every UP port, then every port dark (R306). -/
def leavePorts (h : Hw) (serial : Quad) (type : Nat) : Hw :=
  allPorts (fun h q =>
    let h := if portRuns h q then
        (List.range 4).foldl (fun h _ => emitCell h q (blankCell type (.serial serial))) h else h
    darkenPort h q) h

/-! Keepalives -/

def keepaliveCell (h : Hw) (serial : Quad) (q : Nat) : Cell :=
  blankCell 0 (.keepalive
    { serial := serial, nodeId := BitVec.ofNat 16 (regFld h 0x504000 15 0), port := BitVec.ofNat 4 q,
      pkgState := BitVec.ofNat 4 (pkgCode h.pkg), mapActive := BitVec.ofNat 2 (mapActive h), epoch := getReg h rEpoch,
      posTag := BitVec.ofNat 64 (posTag h), linkEpoch := (portAux h q).linkEpoch })

def keepaliveSendHw (serial : Quad) (q : Nat) (h : Hw) : Hw :=
  if portState h q = 3 ∨ portRuns h q then emitCell h q (keepaliveCell h serial q) else h

def execKeepaliveSend (q : PortId) (s : State) : Host.Outcome State Fault Refusal :=
  onHw (keepaliveSendHw s.fuses.serial q.val) s

/-- The PARTNER registers of a keepalive (R304). -/
def partnerRegs (h : Hw) (q : Nat) (p : KeepalivePay) : Hw :=
  let h := setReg64 h (rPort q 8) p.serial.toNat
  let h := setReg h (rPort q 0x10) (BitVec.ofNat 32
    (p.nodeId.toNat * 2 ^ 16 + p.port.toNat * 2 ^ 12 + p.pkgState.toNat * 2 ^ 8 + p.mapActive.toNat))
  let h := setReg h (rPort q 0x14) p.epoch
  tagDiff (setReg64 h (rPort q 0x18) p.posTag.toNat) q

/-- A KEEPALIVE arrives: the third in a row brings the port from HELLO to UP. A sender of keepalives is in HELLO or UP
itself (R304). Whose SERIAL is the larger fixes the link counters (R400). -/
def keepaliveHw (serial : Quad) (q : Nat) (c : Cell) (h : Hw) : Hw :=
  match c.payload with
  | .keepalive p =>
    if c.type = 0 ∧ (portState h q = 3 ∨ portRuns h q) then
      let h := takeAck (countRx (countFec h q) q) q c
      let h := partnerRegs h q p
      let a := portAux h q
      let h := setPortAux h q { a with good := a.good + 1, partnerUp := true, larger := decide (p.serial.toNat < serial.toNat) }
      if portState h q = 3 ∧ 3 ≤ a.good + 1 then linkUp h q p.serial else h
    else h
  | _ => h

def execKeepalive (q : PortId) (c : Cell) (s : State) : Host.Outcome State Fault Refusal :=
  onHw (ifCrc q.val c (keepaliveHw s.fuses.serial q.val c)) s

/-! Credits and retry -/

def creditHw (q : Nat) (c : Cell) (h : Hw) : Hw :=
  if c.type = 1 ∧ portRuns h q then takeAck (countRx h q) q c else h

def execCredit (q : PortId) (c : Cell) (s : State) : Host.Outcome State Fault Refusal :=
  onHw (ifCrc q.val c (creditHw q.val c)) s

/-- A credit that no cell has carried for 1 µs leaves in a CREDIT cell (R300). -/
def creditTimeoutHw (q v : Nat) (h : Hw) : Hw :=
  let a := portAux h q
  let n := min 1023 (a.owed.getD v 0)
  if portRuns h q ∧ 0 < n then
    let c := { blankCell 1 .none with ack := BitVec.ofNat 12 a.rxSeq, crVc := BitVec.ofNat 2 v,
                                      crCnt := BitVec.ofNat 10 n }
    let h := setPortAux h q { a with
      owed := a.owed.set v (a.owed.getD v 0 - n), out := a.out ++ [crcCell c], txCount := a.txCount + 1 }
    cellCount h q 0x2C (a.txCount + 1)
  else h

def execCreditTimeout (q : PortId) (vc : Fin 4) (s : State) : Host.Outcome State Fault Refusal :=
  onHw (creditTimeoutHw q.val vc.val) s

def nakHw (q : Nat) (c : Cell) (h : Hw) : Hw :=
  if c.type = 2 ∧ portRuns h q then resendCells (takeAck (countRx h q) q c) q else h

def execNak (q : PortId) (c : Cell) (s : State) : Host.Outcome State Fault Refusal :=
  onHw (ifCrc q.val c (nakHw q.val c)) s

def replayTimeoutHw (q : Nat) (h : Hw) : Hw :=
  if portRuns h q ∧ (portAux h q).replay ≠ [] then resendCells h q else h

def execReplayTimeout (q : PortId) (s : State) : Host.Outcome State Fault Refusal := onHw (replayTimeoutHw q.val) s

/-- A cell of type 0xE or 0xF is discarded and counted (R299). -/
def badCellsHw (q : Nat) (c : Cell) (h : Hw) : Hw :=
  if 14 ≤ c.type.toNat ∧ portRuns h q then bumpSat (countRx h q) (rPort q 0x38) 1 else h

def execBadCells (q : PortId) (c : Cell) (s : State) : Host.Outcome State Fault Refusal :=
  onHw (ifCrc q.val c (badCellsHw q.val c)) s

/-! Sequenced cells -/

/-- A sequenced cell of a type arrives on a running port (R301): its CRC holds (R298), it is accepted in order, its tag
checked and its payload deciphered (R303), then f takes it. A cell whose bytes in the clear spell another content than
the row names does not exist: nothing arrives (log 85). -/
def arriveSeq (t q : Nat) (c : Cell) (f : Cell → Hw → Hw) : Hw → Hw :=
  ifCrc q c fun h0 =>
    if c.type.toNat = t ∧ portRuns h0 q then
      let h := takeAck (countRx h0 q) q c
      match acceptSeq h q c with
      | (false, h) => h
      | (true, h) =>
        match clearCell h q c with
        | none => partnerLoss h q 3
        | some c => if spelt c then f c (countEnc h q c) else h0
    else h0

/-- A collective's cell that is not for this member travels on (R319); it leaves the buffer. DEDUCED (log 22): SETUP,
CLOSE and ABORT travel as DATA does. -/
def forwardCell (h : Hw) (q : Nat) (c : Cell) : Hw :=
  let h := freeBuffer h q (vcOf c.type.toNat)
  let a := portAux h q
  let h := cellCount (setPortAux h q { a with fwdCount := a.fwdCount + 1 }) q 0x34 (a.fwdCount + 1)
  match onwardSlot h c.map.toNat q with
  | none => h
  | some s => sendOnSlot h c.map.toNat s { c with hops := c.hops - 1, seq := 0 }

/-- The live collective of a context number. -/
def collOfCtx (h : Hw) (ctx : Nat) : Option Nat :=
  (h.colls.find? fun c => c.ctx = ctx && c.setupSent).map Coll.slot

/-- A cell for this member meets its collective; every other cell is discarded. -/
def toColl (q : Nat) (f : Cell → Hw → Nat → Hw) (c : Cell) (h : Hw) : Hw :=
  if c.hops ≠ 0 then forwardCell h q c
  else
    let h := freeBuffer h q (vcOf c.type.toNat)
    match collOfCtx h c.ctx.toNat with
    | none => h
    | some s => f c h s

/-- A SETUP meets its collective, or waits in the VC0 buffer (R318). -/
def setupIn (q : Nat) (c : Cell) (h : Hw) : Hw :=
  if c.hops ≠ 0 then forwardCell h q c
  else match setupTarget h c, c.payload with
    | some x, .setup s =>
      let h := freeBuffer h q 0
      match collAt h x.slot with
      | none => h
      | some v => advanceColl 64 (matchSetup h v q s) x.slot
    | _, .setup _ =>
      match owedTo h c with
      | some (o, ctx) => payAbort (freeBuffer h q 0) o ctx
      | none =>
        let a := portAux h q
        setPortAux h q { a with setups := a.setups ++ [c] }
    | _, _ => freeBuffer h q 0

def execSetup (q : PortId) (c : Cell) (s : State) : Host.Outcome State Fault Refusal :=
  onHw (arriveSeq 3 q.val c (setupIn q.val)) s

/-- A closing word (R323, R278): a different STEP_NUM fails the collective. -/
def closeIn (c : Cell) (h : Hw) (slot : Nat) : Hw :=
  match c.payload, collAt h slot with
  | .close p, some v =>
    if p.stepLo ≠ getReg h rStepLo then
      failColl (bumpSat h 0x504068 1) v 0x41 (3 + v.group.rank * 2 ^ 16) 0 3 0
    else
      let h := modColl h slot fun x => if p.up then { x with ups := x.ups ++ [p] } else { x with down := some p }
      advanceColl 64 h slot
  | _, _ => h

def execClose (q : PortId) (c : Cell) (s : State) : Host.Outcome State Fault Refusal :=
  onHw (arriveSeq 4 q.val c (toColl q.val closeIn)) s

/-- An ABORT stops a live collective (R324): it is passed on once, and the member completes. -/
def abortIn (c : Cell) (h : Hw) (slot : Nat) : Hw :=
  match c.payload, collAt h slot with
  | .abort a, some v =>
    let r := abortedAs a
    endColl (sendAborts h v a) v r.1 r.2.1 r.2.2
  | _, _ => h

def execAbort (q : PortId) (c : Cell) (s : State) : Host.Outcome State Fault Refusal :=
  onHw (arriveSeq 5 q.val c (toColl q.val abortIn)) s

def dataIn (c : Cell) (h : Hw) (slot : Nat) : Hw :=
  match c.payload with
  | .data d =>
    let h := modColl h slot fun x => { x with inbox := x.inbox ++ [(d.level, c.index.toNat, d.bytes)] }
    advanceColl 64 h slot
  | _ => h

def execData (q : PortId) (c : Cell) (s : State) : Host.Outcome State Fault Refusal :=
  onHw (arriveSeq 6 q.val c (toColl q.val dataIn)) s

/-! The lender's side of the deep tier (R241) -/

/-- The device address of a request that an enabled window of the requester's world serves (R241). -/
def lendAddr (h : Hw) (secure : Bool) (w off n : Nat) : Option Nat :=
  let r := getReg h (0x161040 + 4 * w)
  if bit r 31 ∧ bit r 30 = secure ∧ off + n ≤ fld r 23 12 * GiB then some (fld r 11 0 * GiB + off) else none

/-- A request reaches the lender's memory through its port, in the world it carries (R390). -/
def portWho (secure : Bool) (q : Nat) : Who :=
  { world := if secure then .secure else .nonSecure, slot := none, board := q / 4 }

def dtAnswerCell (c : Cell) (a : DtAnswer) : Cell := { blankCell 11 (.dtAck a) with ctx := c.ctx }

/-- A deep-tier read: data in DT_RESP cells, a refusal, or an error cell for poison. -/
def dtReadIn (q : Nat) (c : Cell) (h : Hw) : Hw :=
  let h := freeBuffer h q 2
  match c.payload with
  | .dtRead w off n sec =>
    match (if n ≤ 65536 then lendAddr h sec w.toNat off.toNat n else none) with
    | none => sendCell h q (dtAnswerCell c .refused)
    | some pa =>
      match readPa h (portWho sec q) pa n with
      | (.bytes bs none, h) =>
        let cs := chunksOf 240 bs
        (List.range cs.length).foldl (fun h i =>
          sendCell h q { blankCell 10 (.dtResp (cs.getD i [])) with ctx := c.ctx, index := BitVec.ofNat 26 i }) h
      | (.bytes _ (some _), h) => sendCell h q (dtAnswerCell c .error)
      | (_, h) => sendCell h q (dtAnswerCell c .refused)
  | _ => h

def execDtRead (q : PortId) (c : Cell) (s : State) : Host.Outcome State Fault Refusal :=
  onHw (arriveSeq 7 q.val c (dtReadIn q.val)) s

/-- A deep-tier write cell: its bytes land at offset + INDEX × 240, and it is acknowledged. -/
def dtWriteIn (q : Nat) (c : Cell) (h : Hw) : Hw :=
  let h := freeBuffer h q 2
  match c.payload with
  | .dtWrite w off sec bs =>
    match lendAddr h sec w.toNat (off.toNat + c.index.toNat * 240) bs.length with
    | none => sendCell h q (dtAnswerCell c .refused)
    | some pa =>
      match writePa h (portWho sec q) pa bs with
      | (.bytes _ _, h) => sendCell h q (dtAnswerCell c .acked)
      | (_, h) => sendCell h q (dtAnswerCell c .refused)
  | _ => h

def execDtWrite (q : PortId) (c : Cell) (s : State) : Host.Outcome State Fault Refusal :=
  onHw (arriveSeq 8 q.val c (dtWriteIn q.val)) s

def modReq (h : Hw) (q tag : Nat) (f : DtReq → DtReq) : Hw :=
  let a := portAux h q
  setPortAux h q { a with requests := a.requests.map fun r => if r.tag = tag ∧ !r.lost then f r else r }

def dtRespIn (q : Nat) (c : Cell) (h : Hw) : Hw :=
  let h := freeBuffer h q 3
  match c.payload with
  | .dtResp bs => modReq h q c.ctx.toNat fun r => { r with got := r.got ++ [(c.index.toNat, bs)] }
  | _ => h

def execDtResp (q : PortId) (c : Cell) (s : State) : Host.Outcome State Fault Refusal :=
  onHw (arriveSeq 10 q.val c (dtRespIn q.val)) s

def dtAckIn (q : Nat) (c : Cell) (h : Hw) : Hw :=
  let h := freeBuffer h q 3
  match c.payload with
  | .dtAck .acked => modReq h q c.ctx.toNat fun r => { r with acks := r.acks + 1 }
  | .dtAck a => modReq h q c.ctx.toNat fun r => { r with answer := some a }
  | _ => h

def execDtAck (q : PortId) (c : Cell) (s : State) : Host.Outcome State Fault Refusal :=
  onHw (arriveSeq 11 q.val c (dtAckIn q.val)) s

/-! Loss -/

/-- A QUIET or RESIGN cell arrives at a port in HELLO or UP (R305, R306): counted, and its sender lost. -/
def leaveCell (t q cause : Nat) (c : Cell) (h : Hw) : Hw :=
  if c.type.toNat = t ∧ (portState h q = 3 ∨ portRuns h q) then partnerLoss (countRx h q) q cause else h

def execQuiet (q : PortId) (c : Cell) (s : State) : Host.Outcome State Fault Refusal :=
  onHw (ifCrc q.val c (leaveCell 12 q.val 4 c)) s

def execResign (q : PortId) (c : Cell) (s : State) : Host.Outcome State Fault Refusal :=
  onHw (ifCrc q.val c (leaveCell 13 q.val 5 c)) s

def execKeepaliveTimeout (q : PortId) (s : State) : Host.Outcome State Fault Refusal :=
  onHw (fun h => partnerLoss h q.val 1) s

/-- 8 µs pass with sequenced cells outstanding and no progress of ACK (R305). -/
def ackTimeoutHw (q : Nat) (h : Hw) : Hw := if (portAux h q).replay ≠ [] then partnerLoss h q 2 else h

def execAckTimeout (q : PortId) (s : State) : Host.Outcome State Fault Refusal := onHw (ackTimeoutHw q.val) s

/-! Light and state -/

/-- A state that exceeds its bound returns the port to LOCKING; the retrain is recorded (R297, Table 20-7). -/
def stateBoundHw (q : Nat) (h : Hw) : Hw :=
  let st := portState h q
  if st = 1 ∨ st = 2 ∨ st = 3 then retrained (setRegFld (setPortState h q 1) (rPort q 0) 27 24 6) q else h

def execPortStateBound (q : PortId) (s : State) : Host.Outcome State Fault Refusal := onHw (stateBoundHw q.val) s

/-- All 32 lanes lock, which needs both laser inputs (R296): the port aligns. An UP port that had lost a lane runs
again. -/
def lanesLockedHw (q : Nat) (h : Hw) : Hw :=
  if !laserOk h q then h
  else
    let h' := setReg h (rPort q 0x3C) (BitVec.ofNat 32 allBits)
    if portState h q = 1 then setPortState h' q 2
    else if portState h q = 4 then pumpPort ((portAux h q).queue.length + 1) h' q
    else h

def execLanesLocked (q : PortId) (s : State) : Host.Outcome State Fault Refusal := onHw (lanesLockedHw q.val) s

def alignedHw (q : Nat) (h : Hw) : Hw :=
  if portState h q = 2 then
    let h := setPortState h q 3
    setPortAux h q { portAux h q with good := 0, partnerUp := false }
  else h

def execAligned (q : PortId) (s : State) : Host.Outcome State Fault Refusal := onHw (alignedHw q.val) s

/-- Lanes have lost lock (R296): a port that is aligning or in HELLO locks again. DEDUCED (log 23): an UP port keeps its
state, runs no more, and is left to the timeouts of R305. -/
def lanesLost (q : Nat) (h : Hw) : Hw := if portState h q = 2 ∨ portState h q = 3 then setPortState h q 1 else h

/-- A laser input appears or disappears (R296): with none left the port is dark, and so is an UP port that loses one
(R491); with one missing its transmit lanes lose lock. -/
def laserHw (q : Nat) (l0 l1 : Bool) (h : Hw) : Hw :=
  let h := setPortAux h q { portAux h q with laser0 := l0, laser1 := l1 }
  let h := setRegBit h (rPort q 0) 8 (l0 && l1)
  if (!l0 ∧ !l1) ∨ (portState h q = 4 ∧ !(l0 && l1)) then darkenPort h q
  else
    let lock := getReg h (rPort q 0x3C)
    let lock := if l0 then lock else lock &&& 0xFFFFFF00#32
    let lock := if l1 then lock else lock &&& 0xFFFF00FF#32
    let h := setReg h (rPort q 0x3C) lock
    if l0 && l1 then tryLock h q else lanesLost q h

def execLaserInputChange (q : PortId) (l0 l1 : Bool) (s : State) : Host.Outcome State Fault Refusal :=
  onHw (laserHw q.val l0 l1) s

/-- A lane loses lock (R296). -/
def laneLossHw (q lane : Nat) (h : Hw) : Hw := lanesLost q (setRegBit (countFec h q) (rPort q 0x3C) lane false)

def execLaneLockLoss (q : PortId) (lane : Fin 32) (s : State) : Host.Outcome State Fault Refusal :=
  onHw (laneLossHw q.val lane.val) s

/-- A LOST port with AUTO set retrains when its receive lanes see light (R307). -/
def lightHw (q : Nat) (h : Hw) : Hw :=
  let h := setPortAux h q { portAux h q with light := true }
  if portState h q = 5 ∧ regBit h (rPort q 4) 2 then retrained (setPortState h q 1) q else h

def execLightReturn (q : PortId) (s : State) : Host.Outcome State Fault Refusal := onHw (lightHw q.val) s

/-- A write of RETRAIN enters LOCKING from any state but DARK (R307, Table 12-14). -/
def retrainHw (q : Nat) (h : Hw) : Hw := if portState h q = 0 then h else retrained (dropLink h q 1) q

def execRetrain (w : World) (q : PortId) (s : State) : Host.Outcome State Fault Refusal :=
  onHw (ifAnswers w (rPort q.val 4) (.retrain w q) (retrainHw q.val)) s

/-- A write of PORT_CTRL.ENABLE (R297). -/
def portEnableHw (q : Nat) (v : Bool) (h : Hw) : Hw :=
  let h := setRegBit h (rPort q 4) 0 v
  if v then tryLock h q else darkenPort h q

def execPortEnable (w : World) (q : PortId) (v : Bool) (s : State) : Host.Outcome State Fault Refusal :=
  onHw (ifAnswers w (rPort q.val 4) (.portEnable w q v) (portEnableHw q.val v)) s

end Sys2Proof.Machine
end

