-- ==== Sys2Proof/Machine/Fabric.lean ====
section
/-! DEFINITION. Commits of linked sets (R474, R475), the position digest and epochs (R312-R315), MAP_SELECT (R311),
and the commits of route maps and FABRIC_CFG (R310, R328). -/

namespace Sys2Proof.Machine

/-! Linked sets -/

/-- A refused commit: REJECT sets, CAUSE and the offending item (below bit 12) are those of this commit (R475). -/
def rejectSet (h : Hw) (off cause item itemBits : Nat) : Hw :=
  let h := setRegFld (setRegBit h off 31 true) off 30 28 cause
  if itemBits = 0 then h else setRegFld h off (itemBits - 1) 0 item

/-- The lowest-numbered cause among those broken, with the lowest item that breaks it (R475). -/
def firstCause : List (Nat × Nat) → Option (Nat × Nat)
  | [] => none
  | x :: xs => some (xs.foldl (fun m y => if y.1 < m.1 ∨ (y.1 = m.1 ∧ y.2 < m.2) then y else m) x)

/-- The snapshot of a set's staged copies, under the offsets of its live copies (R474). -/
def snapSet (h : Hw) (stg live words : Nat) : Snapshot :=
  (List.range words).map fun i => (live + 4 * i, getReg h (stg + 4 * i))

def applySnap (h : Hw) (s : Snapshot) : Hw := s.foldl (fun h e => setReg h e.1 e.2) h

/-! Position digest -/

def setStale (h : Hw) : Hw := { h with fabric := { h.fabric with stale := true } }

/-- One group's bytes of Table 12-7: SIZE, the six SIZE_LOG2 and the ENC byte. A dimension of size 1 uses no slot
(R309). -/
def groupDigest (h : Hw) (m g : Nat) : List Byte :=
  let ndim := regFld h (rMap m (0x104 + 0x40 * g)) 18 16
  let dim := fun d => getReg h (rMap m (0x108 + 0x40 * g + 4 * d))
  let enc := (List.range 6).foldl (fun n d =>
    let x := dim d
    if d < ndim ∧ fld x 2 0 ≠ 0 ∧ (slotEnc (mapSlot h m (fld x 11 8)) ∨ slotEnc (mapSlot h m (fld x 15 12))) then
      n + 2 ^ d else n) 0
  leBytes 4 (getReg h (rMap m (0x100 + 0x40 * g))).toNat ++
  ((List.range 6).map fun d => BitVec.ofNat 8 (fld (dim d) 2 0)) ++ leBytes 1 enc

/-- The byte string of Table 12-7. -/
def digestInput (h : Hw) : List Byte :=
  leBytes 1 4 ++ leBytes 4 (getReg h rEpoch).toNat ++ slice h.sec.fwMeas 0 64 ++
  ((List.range 7).flatMap fun i => leBytes 4 (getReg h (0x170120 + 4 * i)).toNat) ++
  leBytes 4 (getReg h 0x504104).toNat ++
  ((List.range 4).flatMap fun m =>
    leBytes 1 (mapValid h m).toNat ++ (List.range 8).flatMap fun g => groupDigest h m g)

/-- Collectives whose setups are held go on (R312). -/
def releaseSetups (h : Hw) : Hw :=
  (h.colls.filter fun c => !c.setupSent).foldl (fun h c => advanceColl 64 h c.slot) h

/-- The digest becomes that of its inputs; TAG_DIFF of ports in HELLO and UP follows (R304). -/
def recomputeDigest (h : Hw) : Hw :=
  let d := shake256 (digestInput h) 64
  let h := (List.range 16).foldl (fun h i => setReg h (0x504020 + 4 * i) (BitVec.ofNat 32 (leAt d (4 * i) 4))) h
  let h := { h with fabric := { h.fabric with stale := false } }
  allPorts (fun h q => if portState h q = 3 ∨ portState h q = 4 then tagDiff h q else h) h

def digestRecomputeHw (h : Hw) : Hw :=
  if h.fabric.stale ∧ working h then releaseSetups (recomputeDigest h) else h

def execDigestRecompute (s : State) : Host.Outcome State Fault Refusal := onHw digestRecomputeHw s

/-! Epochs -/

def rEpochCtrl : Nat := 0x504018
def epochArmed (h : Hw) : Bool := regBit h rEpochCtrl 0

/-- No epoch is armed any more. EPOCH_ARM and EPOCH_STEP read 0 then: DESIGN CHOICE (log 26). -/
def clearEpoch (h : Hw) : Hw := setReg64 (setReg (setRegBit h rEpochCtrl 0 false) 0x50400C 0) 0x504010 0

/-- A pending training set becomes live (R269 step 1). -/
def applyTraining (h : Hw) : Hw :=
  match h.train.pendingSet with
  | none => h
  | some s =>
    let h := applySnap h s
    setStale (setRegBit { h with train := { h.train with pendingSet := none },
                                 fabric := { h.fabric with heldTrain := false } } rTrainStatus 7 false)

/-- A route map's snapshot becomes live. -/
def applyMap (h : Hw) (m : Nat) (s : Snapshot) : Hw :=
  let h := applySnap h s
  setStale (setRegBit { h with fabric := { h.fabric with
    pendingMaps := h.fabric.pendingMaps.filter fun e => e.1 ≠ m } } (regOf (.map m) 0xFF4) 27 false)

def applyCfg (h : Hw) (v : Word) : Hw :=
  setStale (setRegBit (setReg { h with fabric := { h.fabric with pendingCfg := none } } 0x504104 v) 0x50410C 30 false)

/-- The epoch turns (R315): every pending set, EPOCH and the digest. -/
def turnEpoch (h : Hw) : Hw :=
  let h := applyTraining h
  let h := h.fabric.pendingMaps.foldl (fun h e => applyMap h e.1 e.2) h
  let h := match h.fabric.pendingCfg with
    | none => h
    | some v => applyCfg h v
  let h := setReg h rEpoch (getReg h 0x50400C)
  recomputeDigest (clearEpoch h)

/-- BAD_PARAM given for the state of the package (Table 2-8). -/
def stateBad : Nat := 2 ^ 62

def fabricSecure (h : Hw) : Bool := regBit h 0x504104 31

/-- Parameters of MAP_SELECT and COMMIT_EPOCH. A secure fabric block, or a secure map, is no non-secure ring's to
select (R386). -/
def specMapSelect : PSpec :=
  { len := 1, fields := [fV 0 1 0], secure := fun h p => fabricSecure h || mapSecure h (parBits p 0 1 0) }

def specCommitEpoch : PSpec := { len := 1, fields := [fQ 0, fV 8 31 0], secure := fun h _ => fabricSecure h }

/-- Commands of a class that are dispatched and have not written their final record. -/
def classLive (h : Hw) (cls : Nat) : Bool := h.slots.any fun e => e.2.cls = cls && e.2.phase ≠ .waiting

def mapSelectWork (slot : Nat) (c : Cmd) (h : Hw) : Hw :=
  let m := parBits c.packet 0 1 0
  if classLive h 7 then h
  else if !mapValid h m then finish h slot 0x11 stateBad 0
  else match (mapPorts h m).find? fun q => !portUp h q with
    | some q => finish h slot 0x40 q 0
    | none => finish (setReg h 0x504004 (BitVec.ofNat 32 m)) slot 0 0 0

def execMapSelect (slot : SlotId) (s : State) : Host.Outcome State Fault Refusal :=
  onHw (withCmd slot.val 0x04 (mapSelectWork slot.val)) s

def commitEpochWork (slot : Nat) (c : Cmd) (h : Hw) : Hw :=
  let at_ := par c.packet 0 8
  let e := BitVec.ofNat 32 (par c.packet 8 4)
  if epochArmed h ∨ e = getReg h rEpoch ∨ at_ ≤ stepNum h then finish h slot 0x11 stateBad 0
  else
    let h := setReg64 (setReg (setRegBit h rEpochCtrl 0 true) 0x50400C e) 0x504010 at_
    finish h slot 0 e.toNat at_

def execCommitEpoch (slot : SlotId) (s : State) : Host.Outcome State Fault Refusal :=
  onHw (withCmd slot.val 0x05 (commitEpochWork slot.val)) s

/-- EPOCH_CTRL.DISARM (R314): pending sets wait for the next epoch. -/
def disarmHw (h : Hw) : Hw :=
  if epochArmed h then
    clearEpoch { h with fabric := { h.fabric with heldTrain := h.train.pendingSet.isSome } }
  else h

def execDisarm (w : World) (s : State) : Host.Outcome State Fault Refusal := onHw (ifAnswers w rEpochCtrl (.disarm w) disarmHw) s

/-! Commits -/

def stgMap (m rel : Nat) : Nat := regOf (.map m) rel

/-- A staged group breaks R309. -/
def groupBad (h : Hw) (m g : Nat) : Bool :=
  let size := regFld h (stgMap m (0x100 + 0x40 * g)) 16 0
  let ndim := regFld h (stgMap m (0x104 + 0x40 * g)) 18 16
  let rank := regFld h (stgMap m (0x104 + 0x40 * g)) 15 0
  let dims := (List.range ndim).map fun d => getReg h (stgMap m (0x108 + 0x40 * g + 4 * d))
  let used := dims.flatMap fun x =>
    let l := fld x 2 0
    let next := fld x 11 8
    let prev := fld x 15 12
    if l = 0 then [] else if l = 1 then [next] else [next, prev]
  if size = 0 then false
  else ndim = 0 || 6 < ndim || dims.any (fun x => 6 < fld x 2 0) || 65536 < size ||
    dims.foldl (fun n x => n * 2 ^ fld x 2 0) 1 ≠ size || size ≤ rank ||
    dims.any (fun x => fld x 2 0 = 1 && fld x 11 8 ≠ fld x 15 12) ||
    used.any (fun i => !regBit h (stgMap m (0x40 + 4 * i)) 15) || used.eraseDups.length ≠ used.length

/-- The causes that a staged map breaks (R310); a slot that names a port of the other world breaks cause 4
(Table 16-1). -/
def mapCauses (h : Hw) (w : World) (m : Nat) : List (Nat × Nat) :=
  let slots := ((List.range 16).map fun i => getReg h (stgMap m (0x40 + 4 * i))).filter slotValid
  let ports := slots.map slotPort
  (if (mapActive h = m ∧ !epochArmed h) ∨ h.colls.any (fun c => c.map = m) then [(1, 0)] else []) ++
  (if ports.any (fun q => 11 < q) ∨ ports.eraseDups.length ≠ ports.length then [(2, 0)] else []) ++
  (if (List.range 8).any (groupBad h m) then [(3, 0)] else []) ++
  (if (w = .nonSecure ∧ (mapSecure h m ∨ regBit h (stgMap m 0) 31)) ∨
      ports.any (fun q => q < 12 && portSecure h q ≠ regBit h (stgMap m 0) 31) then [(4, 0)] else []) ++
  (if ports.any (fun q => !regBit h (stgMap m 0) q) then [(5, 0)] else [])

/-- MAP_COMMIT (R310): refused, pending under an armed epoch, or live at once. -/
def mapCommitHw (w : World) (m : Nat) (h : Hw) : Hw :=
  let st := regOf (.map m) 0xFF4
  match firstCause (mapCauses h w m) with
  | some c => rejectSet h st c.1 0 0
  | none =>
    let s := snapSet h (stgMap m 0) (rMap m 0) 192
    if epochArmed h then
      setRegBit { h with fabric := { h.fabric with
        pendingMaps := smPut h.fabric.pendingMaps m s } } st 27 true
    else applyMap h m s

def execMapCommit (w : World) (m : MapId) (s : State) : Host.Outcome State Fault Refusal :=
  onHw (ifAnswers w (regOf (.map m.val) 0xFF0) (.mapCommit w m) (mapCommitHw w m.val)) s

/-- FABRIC_COMMIT (R328): only a change of WORLD by a non-secure agent is refused. -/
def fabricCommitHw (w : World) (h : Hw) : Hw :=
  let v := getReg h 0x504100
  if w = .nonSecure ∧ bit v 31 ≠ fabricSecure h then setRegBit h 0x50410C 31 true
  else if epochArmed h then
    setRegBit { h with fabric := { h.fabric with pendingCfg := some v } } 0x50410C 30 true
  else applyCfg h v

def execFabricCommit (w : World) (s : State) : Host.Outcome State Fault Refusal :=
  onHw (ifAnswers w 0x504108 (.fabricCommit w) (fabricCommitHw w)) s

end Sys2Proof.Machine
end

