-- ==== Sys2Proof/Machine/Blocks.lean ====
section
/-! DEFINITION. Commands of the tile, stack, board and lending blocks: tile resets (R90), counters, scrub and error
injection (R181, R182), the memory map (R173, R174), lend windows (R251), and the stacks' own events: refresh, scrub,
write-back and row repair (R168, R179-R187). -/

namespace Sys2Proof.Machine

/-! Tiles (R89, R90) -/

/-- What a tile reset clears: the arrays' buffers and accumulator blocks, the finished-tile queue, the store and every
register of the block but TILE_STATUS. -/
def clearTile (t : Nat) (h : Hw) : Hw :=
  let b := regOf (.tile t) 0
  let h := resetRegs h fun o => decide (b ≤ o) && decide (o < b + 0x10000) && decide (o ≠ b + 4)
  let h := setXcache (setTileAux h t .reset) t .reset
  { h with mem := h.mem.zero .tile (tileKey t 0) (2 ^ 23) }

/-- A tile's DMA engine forgets its open requests and the units of movement commands that it served, which other tiles
take (R233, R250). -/
def abandonUnits (t : Nat) (h : Hw) : Hw :=
  { h with
    slots := h.slots.map fun e =>
      if e.2.cls = 1 ∧ e.2.serving.any (fun x => x.2 = t) then (e.1, { e.2 with serving := none }) else e
    ports := (h.ports.map fun e => (e.1, { e.2 with requests := e.2.requests.filter fun r => r.tile ≠ t })).filter
      fun e => e.2 ≠ PortAux.reset }

/-- TILE_CTRL.TILE_RESET. A tile out of service stays so (R90). -/
def tileResetHw (t : Nat) (h : Hw) : Hw :=
  let st := regOf (.tile t) 4
  if tileBusy h t then setRegBit h st 4 true
  else
    let out := tileOut h t
    let h := abandonUnits t (clearTile t h)
    if out then h else setRegBit (setRegBit h st 0 false) st 3 true

def execTileReset (w : World) (t : TileId) (s : State) : Host.Outcome State Fault Refusal :=
  onHw (ifAnswers w (regOf (.tile t.val) 8) (.tileReset w t) (tileResetHw t.val)) s

/-- The reset ends: IN_RESET clears and READY sets. -/
def tileResetDone (t : Nat) (h : Hw) : Hw :=
  let st := regOf (.tile t) 4
  if tileInReset h t then setRegBit (setRegBit h st 3 false) st 0 true else h

def execTileResetComplete (t : TileId) (s : State) : Host.Outcome State Fault Refusal := onHw (tileResetDone t.val) s

/-- Returns registers of a block to reset values. -/
def clearRegs (base : Nat) (rels : List Nat) (h : Hw) : Hw := rels.foldl (fun h r => clearReg h (base + r)) h

/-- The sixteen array counters. -/
def arrayCounters : List Nat := (List.range 16).map fun i => 0x100 + 4 * i

/-- Clears the array counters, with what is counted below the granularity of the registers. -/
def tileClrHw (t : Nat) (h : Hw) : Hw :=
  let a := tileAux h t
  let h := setTileAux h t { a with arrays := a.arrays.map fun x => { x with cellOps := 0, gatedOps := 0 } }
  clearRegs (regOf (.tile t) 0) arrayCounters h

def execTileClrCounters (w : World) (t : TileId) (s : State) : Host.Outcome State Fault Refusal :=
  onHw (ifAnswers w (regOf (.tile t.val) 8) (.tileClrCounters w t) (tileClrHw t.val)) s

def execVeClrCounters (w : World) (t : TileId) (s : State) : Host.Outcome State Fault Refusal :=
  onHw (ifAnswers w (regOf (.tile t.val) 0x100C) (.veClrCounters w t) (clearRegs (regOf (.tile t.val) 0) [0x1010, 0x1014, 0x1018])) s

def execDmaClrCounters (w : World) (t : TileId) (s : State) : Host.Outcome State Fault Refusal :=
  onHw (ifAnswers w (regOf (.tile t.val) 0x200C) (.dmaClrCounters w t) (clearRegs (regOf (.tile t.val) 0) [0x2010, 0x2014, 0x2018, 0x201C])) s

/-! Stack registers (Tables 7-7, 8-6) -/

/-- Clears CE_COUNT, UE_COUNT and the byte counters. -/
def stackClrHw (s : Nat) (h : Hw) : Hw :=
  let h := setStackAux h s { stackAux h s with rdBytes := 0, wrBytes := 0 }
  clearRegs (regOf (.stack s) 0) [0x10, 0x14] h

def execStackClrCounters (w : World) (k : StackId) (s : State) : Host.Outcome State Fault Refusal :=
  onHw (ifAnswers w (regOf (.stack k.val) 8) (.stackClrCounters w k) (stackClrHw k.val)) s

def pawnClrHw (s : Nat) (h : Hw) : Hw :=
  let h := setStackAux h s { stackAux h s with rowSteps := 0 }
  clearRegs (regOf (.stack s) 0) [0x10010, 0x10014, 0x10018, 0x1001C] h

def execPawnClrCounters (w : World) (k : StackId) (s : State) : Host.Outcome State Fault Refusal :=
  onHw (ifAnswers w (regOf (.stack k.val) 0x1000C) (.pawnClrCounters w k) (pawnClrHw k.val)) s

/-- The stack is initialised and accepts traffic (STACK_STATUS.READY). -/
def stackReady (h : Hw) (s : Nat) : Bool := regBit h (regOf (.stack s) 4) 0

/-- STACK_CTRL.SCRUB_NOW starts a pass. -/
def scrubNowHw (s : Nat) (h : Hw) : Hw :=
  if stackReady h s then
    setRegBit (setStackAux h s { stackAux h s with scrubAt := 0, scrubNow := true }) (regOf (.stack s) 4) 2 true
  else h

/-- SCRUB_CFG is written: PERIOD_H 0 ends a pass in the background, but not one that SCRUB_NOW started (R181). -/
def scrubCfgHw (s : Nat) (h : Hw) : Hw :=
  let a := stackAux h s
  if regFld h (regOf (.stack s) 0x2C) 7 0 = 0 ∧ !a.scrubNow then
    setRegBit (setStackAux h s { a with scrubAt := 0 }) (regOf (.stack s) 4) 2 false
  else h

def execScrubNow (w : World) (k : StackId) (s : State) : Host.Outcome State Fault Refusal :=
  onHw (ifAnswers w (regOf (.stack k.val) 8) (.scrubNow w k) (scrubNowHw k.val)) s

/-- ECC_INJECT is written by the secure world only (R182). -/
def eccInjectHw (w : World) (s : Nat) (v : Word) (h : Hw) : Hw :=
  if w = .secure then setReg h (regOf (.stack s) 0x30) (v &&& 0xFFFF00FF) else h

def execEccInject (w : World) (k : StackId) (v : Word) (s : State) : Host.Outcome State Fault Refusal :=
  onHw (ifAnswers w (regOf (.stack k.val) 0x30) (.eccInject w k v) (eccInjectHw w k.val v)) s

/-! Stack events -/

/-- A refresh command on a pseudo-channel, at its rate for the temperature: pseudo-channel 0 counts (R168). -/
def refreshHw (s pc : Nat) (tempC : Int) (h : Hw) : Hw :=
  if stackReady h s then
    let o := regOf (.stack s) 0xC
    let h := if pc = 0 then setRegFld h o 19 0 ((regFld h o 19 0 + 1) % 2 ^ 20) else h
    setRegBit h o 20 (decide (85 < tempC))
  else h

def execRefresh (k : StackId) (pc : Fin 32) (tempC : Int) (s : State) : Host.Outcome State Fault Refusal :=
  onHw (refreshHw k.val pc.val tempC) s

/-- A refresh-count window ends: every count of the tracker is 0 again (R184). -/
def windowEndHw (s : Nat) (h : Hw) : Hw :=
  if regFld h (regOf (.stack s) 0xC) 19 0 = 0 then
    let a := stackAux h s
    setStackAux h s { a with tracker := a.tracker.map fun e => (e.1, 0) }
  else h

def execRefreshCountWindow (k : StackId) (s : State) : Host.Outcome State Fault Refusal := onHw (windowEndHw k.val) s

/-- Codewords of a stack: 96 GiB of 64 bytes. -/
def stackWords : Nat := 96 * GiB / 64

/-- The scrub reads the next codeword (R181): with PERIOD_H 0 only in a pass that SCRUB_NOW started. It skips one in a
range held under HOLD (R211). -/
def scrubHw (s : Nat) (h : Hw) : Hw :=
  let st := regOf (.stack s) 4
  let a := stackAux h s
  let y := a.scrubAt * 64
  if !stackReady h s ∨ (regFld h (regOf (.stack s) 0x2C) 7 0 = 0 ∧ !a.scrubNow) then h
  else
    let h := setRegBit h st 2 true
    let h := if heldByOther h (castle .secure) (hbmKey s y) 64 then h else (checkCw h s y).2
    let next := (a.scrubAt + 1) % stackWords
    let b := stackAux h s
    let h := setStackAux h s { b with scrubAt := next, scrubNow := b.scrubNow && decide (next ≠ 0) }
    if next = 0 then setRegBit h st 2 false else h

def execScrub (k : StackId) (s : State) : Host.Outcome State Fault Refusal := onHw (scrubHw k.val) s

/-- A corrected codeword is written back (R179): the oldest that waits. -/
def writeBackHw (s : Nat) (h : Hw) : Hw :=
  let a := stackAux h s
  match a.writeBacks with
  | [] => h
  | cw :: rest => setCwErrs (setStackAux h s { a with writeBacks := rest }) cw []

def execCorrectedWriteBack (k : StackId) (s : State) : Host.Outcome State Fault Refusal := onHw (writeBackHw k.val) s

/-! Row repair (R183-R187) -/

/-- The codewords of a row. -/
def rowWords (s pc bank row : Nat) : List Nat :=
  (List.range 16).map fun i => cwOf s (row * 2 ^ 21 + bank * 2 ^ 15 + pc * 2 ^ 10 + 64 * i)

/-- The least spare of a bank that no entry uses; DESIGN CHOICE (log 31): the manual leaves the spare open. -/
def freeSpare (a : StackAux) (pc bank : Nat) : Option Nat :=
  (List.range 8).find? fun k => !(a.remaps.any fun e => e.pc = pc && e.bank = bank && e.spare = k)

/-- An entry stands for the row now; a spare replaced before is KIND 3. -/
def liveFor (e : RemapEntry) (pc bank row : Nat) : Bool := e.kind ≠ 3 && e.pc = pc && e.bank = bank && e.row = row

/-- Reads the 16 codewords of a row with their checks (R178). -/
def checkRow (h : Hw) (s y : Nat) : Hw := (List.range 16).foldl (fun h i => (checkCw h s (y + 64 * i)).2) h

/-- Writes the codewords of a row copied: what was corrected is correct now, poison stays, and an injection that is
armed meets the first (R182). -/
def copyRow (h : Hw) (s : Nat) (words : List Nat) : Hw :=
  let h := words.foldl (fun h w => setCwErrs h w []) h
  match words with
  | [] => h
  | w :: _ =>
    let inj := injectErrs h s
    if isPoison h w then inj.2 else setCwErrs inj.2 w inj.1

/-- Copies a row into a free spare and redirects it (R185): its codewords are read, correctable ones become correct,
poison stays. DESIGN CHOICE (log 9): the copy ends within the step, so REMAP_BUSY is never seen. -/
def remapRow (h : Hw) (s kind pc bank row : Nat) : Hw :=
  let k := rowKeyOf pc bank row
  let y := row * 2 ^ 21 + bank * 2 ^ 15 + pc * 2 ^ 10
  match freeSpare (stackAux h s) pc bank with
  | none =>
    let a := stackAux h s
    let h := setStackAux h s { a with tracker := a.tracker.filter fun e => e.1 ≠ k }
    let h := setRegBit (logStackEvent h s y 4 0x7F) (regOf (.stack s) 4) 6 true
    logErr h { source := 3, kind := 4, severity := 3, unit := s, addr := y }
  | some sp =>
    let e := RemapEntry.mk kind sp bank pc row
    let words := rowWords s pc bank row
    let h := copyRow (checkRow h s y) s words
    let a := stackAux h s
    let h := setStackAux h s { a with
      tracker := a.tracker.filter fun e => e.1 ≠ k
      remaps := (a.remaps.map fun x => if liveFor x pc bank row then { x with kind := 3 } else x) ++ [e]
      unsaved := a.unsaved ++ [e]
      writeBacks := a.writeBacks.filter fun w => !words.contains w }
    let o := regOf (.stack s) 0x18
    let h := setRegFld h o 14 0 (regFld h o 14 0 + 1)
    let h := logStackEvent h s y 3 0x7F
    logErr h { source := 3, kind := 3, severity := 1, unit := s, addr := y }

/-- A row that met the threshold of three corrected errors in a window is remapped (R184, R185), unless a codeword in it
is poisoned (R186). -/
def rowRemapHw (s : Nat) (r : RowId) (h : Hw) : Hw :=
  let k := rowKeyOf r.pc.val r.bank.val r.row.val
  let a := stackAux h s
  if stackReady h s ∧ (a.tracker.any fun e => e.1 = k && decide (3 ≤ e.2)) ∧
      !(rowWords s r.pc.val r.bank.val r.row.val).any (isPoison h) then
    remapRow h s 1 r.pc.val r.bank.val r.row.val
  else h

def execRowRemap (k : StackId) (r : RowId) (s : State) : Host.Outcome State Fault Refusal := onHw (rowRemapHw k.val r) s

/-- An entry of the remap list (Table 7-4). -/
def remapWord (e : RemapEntry) : Nat := e.kind * 2 ^ 30 + e.spare * 2 ^ 27 + e.bank * 2 ^ 21 + e.pc * 2 ^ 16 + e.row

/-- The 65,536 bytes of a list. -/
def remapList (es : List RemapEntry) : List Byte := slice (es.flatMap fun e => leBytes 4 (remapWord e)) 0 65536

/-- Where copy c of a stack's list lies in flash (R187). -/
def remapFlash (s c : Nat) : Nat := 0x200000 + s * 0x40000 + c * 0x20000

/-- The castle writes the oldest unsaved entry to both copies, with their digests (R187). -/
def remapListHw (s : Nat) (h : Hw) : Hw :=
  let a := stackAux h s
  match a.unsaved with
  | [] => h
  | _ :: rest =>
    let saved := a.remaps.take (a.remaps.length - rest.length)
    let bs := remapList saved
    let bs := bs ++ shake256 bs 32
    let h := setStackAux h s { a with unsaved := rest }
    { h with mem := (h.mem.write .flash (remapFlash s 0) bs).write .flash (remapFlash s 1) bs }

def execRemapListWrite (k : StackId) (s : State) : Host.Outcome State Fault Refusal := onHw (remapListHw k.val) s

/-! Memory map (R173, R174) -/

def mmStg (n : Nat) : Nat := regOf (.board (n % 3)) (0x400 + 4 * (n / 3))
def mmLive (n : Nat) : Nat := regOf (.board (n % 3)) (0x800 + 4 * (n / 3))

/-- A live region of the region table meets an octet. -/
def octetSecure (h : Hw) (n : Nat) : Bool :=
  h.regs.any fun e =>
    decide (0x801800 ≤ e.1) && decide (e.1 < 0x802000) && decide (e.1 % 8 = 0) && bit e.2 31 &&
    decide (fld e.2 20 0 * 2 ^ 21 < (n + 1) * 2 ^ 33) &&
    decide (n * 2 ^ 33 < (fld e.2 20 0 + regFld h (e.1 + 4) 20 0) * 2 ^ 21)

/-- The causes of MEMMAP_STATUS with their octets. -/
def memmapCauses (h : Hw) (w : World) : List (Nat × Nat) :=
  (List.range 288).flatMap fun n =>
    let x := getReg h (mmStg n)
    let wide := fun m => fld (getReg h (mmStg m)) 1 0 = 1
    let o := n / 3 * 3
    let k := (List.range 3).filter fun i => decide (wide (o + i))
    (if fld x 1 0 = 3 then [(1, n)] else []) ++
    (if bit x 2 ∧ fld x 1 0 ≠ 2 then [(2, n)] else []) ++
    (if k.length ≠ 0 ∧ k.length ≠ 3 then [(3, n)] else []) ++
    (if w = .nonSecure ∧ x ≠ getReg h (mmLive n) ∧ octetSecure h n then [(4, n)] else [])

/-- An octet whose MODE or PAWN changes has undefined contents (R174): the 8 GiB it holds in its board's stacks. -/
def freeOctet (h : Hw) (n : Nat) : Hw :=
  let h := (List.range 8).foldl (fun h j =>
    { h with mem := h.mem.makeFree .hbm (hbmKey (8 * (n % 3) + j) (n / 3 * GiB)) GiB h.draws }) h
  { h with draws := h.draws + 1 }

/-- MEMMAP_COMMIT (R173, R174): an accepted one first takes the lines of changed octets out of every cache. -/
def memmapCommitHw (w : World) (h : Hw) : Hw :=
  match firstCause (memmapCauses h w) with
  | some c => (List.range 3).foldl (fun h b => setRegFld (rejectSet h (regOf (.board b) 0x104) c.1 0 0) (regOf (.board b) 0x104) 24 16 c.2) h
  | none =>
    let h := dropLines h fun _ l => let n := l / 2 ^ 27; decide (getReg h (mmStg n) ≠ getReg h (mmLive n))
    (List.range 288).foldl (fun h n =>
      let x := getReg h (mmStg n)
      let y := getReg h (mmLive n)
      if x = y then h
      else
        let h := if fld x 2 0 ≠ fld y 2 0 then freeOctet h n else h
        setReg h (mmLive n) x) h

def execMemmapCommit (w : World) (b : BoardId) (s : State) : Host.Outcome State Fault Refusal :=
  onHw (ifAnswers w (regOf (.board b.val) 0x100) (.memmapCommit w b) (memmapCommitHw w)) s

/-- BC_OP.INVALIDATE_ALL empties a cache (R192). DESIGN CHOICE (log 9): at once, so INVALIDATING is never seen. -/
def emptyCache (b : Nat) (h : Hw) : Hw := dropLines h fun b' _ => b' = b

def execInvalidateAll (w : World) (b : BoardId) (s : State) : Host.Outcome State Fault Refusal :=
  onHw (ifAnswers w (regOf (.board b.val) 8) (.invalidateAll w b) (emptyCache b.val)) s

/-! Lend windows (R251) -/

def lendBase (x : Word) : Nat := fld x 11 0
def lendSize (x : Word) : Nat := fld x 23 12

/-- The causes of LEND_STATUS with their windows. -/
def lendCauses (h : Hw) (w : World) : List (Nat × Nat) :=
  (List.range 8).flatMap fun i =>
    let x := getReg h (0x161000 + 4 * i)
    let live := lendWindow h i
    let on := bit x 31
    (if on ∧ 2304 < lendBase x + lendSize x then [(1, i)] else []) ++
    (if on ∧ ((List.range 8).any fun j =>
        let y := getReg h (0x161000 + 4 * j)
        j ≠ i && bit y 31 && decide (lendBase y < lendBase x + lendSize x) && decide (lendBase x < lendBase y + lendSize y))
      then [(2, i)] else []) ++
    (if on ∧ ((List.range 288).any fun n => octetPawn h n && decide (8 * n < lendBase x + lendSize x) && decide (lendBase x < 8 * n + 8))
      then [(3, i)] else []) ++
    (if on ∧ lendSize x = 0 then [(4, i)] else []) ++
    (if w = .nonSecure ∧ x ≠ live ∧ (bit x 30 ∨ bit live 30) then [(5, i)] else [])

def lendCommitHw (w : World) (h : Hw) : Hw :=
  match firstCause (lendCauses h w) with
  | some c => rejectSet h 0x161084 c.1 c.2 3
  | none => copyRegs h 0x161000 0x161040 8

def execLendCommit (w : World) (s : State) : Host.Outcome State Fault Refusal :=
  onHw (ifAnswers w 0x161080 (.lendCommit w) (lendCommitHw w)) s

end Sys2Proof.Machine
end

