-- ==== Sys2Proof/Machine/Pawns.lean ====
section
/-! DEFINITION. Pawns: segment tables and their checks (R205, R206), row steps with poison (R200, R202), the token
budget (R207, R208), holds (R211), PAWN_OP, DIGEST, PAWN_GEMV (R214-R223) and TOKEN_RETURN. -/

namespace Sys2Proof.Machine

def PawnSeg.base (g : PawnSeg) (i : Nat) : Nat := g.bases.getD i 0

/-- One operand of a segment: which base field, its element size in 32nds of a byte, and how it is accessed. -/
structure PawnOperand where
  field : Nat
  q : Nat
  acc : Acc
  deriving DecidableEq, Repr

/-- What an opcode asks of its segment table: the reserved bits of the word at 0x04, how many base fields it has, which
operands a segment uses, and its own rules: the cause each breaks. -/
structure SegRule where
  wordMask : Nat
  fields : Nat
  operands : PawnSeg → List PawnOperand
  optional : PawnSeg → List Nat
  extra : PawnSeg → Option Nat

def parseSeg (fields : Nat) (d : List Byte) : PawnSeg :=
  PawnSeg.mk (leAt d 0 4) (leAt d 4 4 % 32) (leAt d 4 4 / 256 % 2 = 1)
    ((List.range fields).map fun i => leAt d (8 + 8 * i) 8)

/-- Table 8-2: the first rule a segment breaks, if any. -/
def segBad (r : SegRule) (d : List Byte) : Option Nat :=
  let g := parseSeg r.fields d
  let used := (r.operands g).map PawnOperand.field
  let field := (leAt d 4 4 &&& (2 ^ 32 - 1 - r.wordMask)) ≠ 0 || 23 < g.stack ||
    leNat (d.drop (8 + 8 * r.fields)) ≠ 0 ||
    (List.range r.fields).any fun i =>
      let b := g.base i
      b % stripeBytes ≠ 0 || (!(r.optional g).contains i && (decide (b ≠ 0) != used.contains i))
  if field then some 1 else r.extra g

/-- Reads the table, with the field, index and COUNT rules. -/
def readSegs (who : Who) (addr n : Nat) (r : SegRule) : Run (List PawnSeg) :=
  go 0 [] (List.range n)
where
  go (total : Nat) (acc : List PawnSeg) : List Nat → Run (List PawnSeg)
    | [] => pure acc
    | i :: is => do
      let d ← rd who (addr + 64 * i) 64
      match segBad r d with
      | some cause => structFail cause i (addr + 64 * i)
      | none =>
        let g := parseSeg r.fields d
        if 2 ^ 48 < total + g.count then structFail 3 i (addr + 64 * i)
        go (total + g.count) (acc ++ [g]) is

/-- A stripe of an operand: its virtual and its device physical address, where it lies in the stacks, and whether the
operand is written. -/
structure Stripe where
  va : Nat
  pa : Nat
  key : Nat
  write : Bool
  deriving DecidableEq, Repr

/-- The stripes that a command writes. -/
def writtenStripes (ss : List Stripe) : List Nat := (ss.filter Stripe.write).map Stripe.key

/-- The pinned pages of a stripe (R360). -/
def Stripe.pins (x : Stripe) : List (Nat × Nat) :=
  (List.range 32).map fun i => (x.va / 65536 + i, x.pa + i * 65536)

/-- Translates every stripe of an operand. -/
def checkStripes (who : Who) (i : Nat) (g : PawnSeg) (o : PawnOperand) : Run (List Stripe) :=
  go [] (List.range (stripesOfQ g.count o.q))
where
  go (acc : List Stripe) : List Nat → Run (List Stripe)
    | [] => pure acc
    | z :: zs => do
      let va := g.base o.field + z * stripeBytes
      match ← stripeAt who va o.acc with
      | some (s, y, pa) =>
        if s = g.stack then go (acc ++ [Stripe.mk va pa (hbmKey s y) (o.acc ≠ .rd)]) zs else structFail 2 i va
      | none => structFail 2 i va

/-- The check of R206 over a whole table; answers the stripes of the operands. -/
def checkSegs (who : Who) (r : SegRule) (gs : List PawnSeg) : Run (List Stripe) :=
  go [] (List.range gs.length)
where
  go (acc : List Stripe) : List Nat → Run (List Stripe)
    | [] => pure acc
    | i :: is => do
      match gs[i]? with
      | none => go acc is
      | some g => do
        let ks ← (r.operands g).mapM fun o => if g.base o.field = 0 then pure [] else checkStripes who i g o
        go (acc ++ ks.flatten) is

/-! Row steps with poison (R199, R200, R202) -/

/-- Reads bytes with the addresses of the poisoned codewords among them. -/
def rdMarks (who : Who) (va n : Nat) : Run (List Byte × List Nat) :=
  go [] [] (pieces 64 va n)
where
  go (acc : List Byte) (bad : List Nat) : List (Nat × Nat) → Run (List Byte × List Nat)
    | [] => pure (acc, bad)
    | p :: ps => do
      let (bs, q) ← rdPage who p.1 p.2
      go (acc ++ bs) (if q.isSome then bad ++ [p.1 / 64 * 64] else bad) ps

/-- A pawn at work for a command: how it accesses memory, its stack, its number and the command's order number. -/
structure PawnAt where
  who : Who
  stack : Nat
  pawn : Nat
  order : Nat
  deriving DecidableEq, Repr

def pawnAux (h : Hw) (s p : Nat) : PawnAux := smGet PawnAux.reset (stackAux h s).pawns p

def setPawnAux (h : Hw) (s p : Nat) (x : PawnAux) : Hw :=
  let a := stackAux h s
  setStackAux h s { a with pawns := smSet PawnAux.reset a.pawns p x }

/-- A row step is counted (R225), and its row stands in a buffer of the pawn (R199). DESIGN CHOICE (log 80): the row
takes the buffer used longest ago. -/
def countStep (a : PawnAt) (r : RowBuf) (h : Hw) : Hw :=
  let s := stackAux h a.stack
  let n := s.rowSteps + 1
  let x := smGet PawnAux.reset s.pawns a.pawn
  let x := { x with rows := (r :: x.rows).take 8 }
  let h := setStackAux h a.stack { s with rowSteps := n, pawns := smSet PawnAux.reset s.pawns a.pawn x }
  if n % 1024 = 0 then setReg h (regOf (.stack a.stack) 0x10010) (BitVec.ofNat 32 (n / 1024)) else h

/-- A read step: a whole row, all of its 16 codewords checked (R200). A member's waits for an entry of its task (R247). -/
def readRow (a : PawnAt) (va : Nat) : Run RowBuf := do
  if entryBlocks (← get) a.who va 1024 then throw .wait
  let (t, pa) ← xlateRun a.who va .rd
  if t then throw (.xlate va .rd false)
  let rs := racing (← get) a.who va 1024
  let (bs, bad) ← go pa [] [] (List.range 16)
  let bs ← if rs = [] then pure bs else do
    let h ← get
    set { h with draws := h.draws + 1 }
    pure (blur h va bs rs)
  let r := RowBuf.mk a.order va bs bad
  modifyHw (countStep a r)
  pure r
where
  go (pa : Nat) (acc : List Byte) (bad : List Nat) : List Nat → Run (List Byte × List Nat)
    | [] => pure (acc, bad)
    | i :: is => do
      let h ← get
      match readPaPiece h { a.who with va := va } (pa + 64 * i) 64 with
      | (.bytes bs q, h) => do
        set h
        go pa (acc ++ bs) (if q.isSome then bad ++ [va + 64 * i] else bad) is
      | (.held, h) => do set (noteHeld h a.who (pa + 64 * i)); throw .wait
      | (.refused, h) => do set h; throw (.world va)
      | (.unbacked, h) => do set h; throw (.xlate va .rd false)

/-- A codeword of a stack takes the poison pattern (R186, R202). -/
def poisonPa (h : Hw) (pa : Nat) : Hw :=
  match decodePa h pa with
  | .hbm s y => takePoison h s y
  | _ => h

/-- A write step: a whole row with new check bits, the codewords of its list with the poison pattern (R200, R202). -/
def writeRow (a : PawnAt) (r : RowBuf) : Run Unit := do
  let (t, pa) ← xlateRun a.who r.va .wr
  if t then throw (.xlate r.va .wr false)
  let h ← get
  let rs := racing h a.who r.va 1024
  match writePa h { a.who with va := r.va } pa r.bytes with
  | (.bytes _ _, h) => do
    set (freeRaced (r.bad.foldl (fun h w => poisonPa h (pa + (w - r.va))) h) r.va pa rs)
    modifyHw (countStep a r)
  | (.held, h) => do set (noteHeld h a.who pa); throw .wait
  | (.refused, h) => do set h; throw (.world r.va)
  | (.unbacked, h) => do set h; throw (.xlate r.va .wr false)

/-- Elements of a pawn operand as read: packed bytes, per element whether its codeword is poisoned, the lowest
poisoned codeword as (index of its first element, address), and the rows moved. -/
structure PawnRead where
  bytes : List Byte
  bad : List Bool
  low : Option (Nat × Nat)
  rows : List RowBuf
  deriving DecidableEq, Repr

def PawnRead.none : PawnRead := PawnRead.mk [] [] Option.none []

def lowOf (a b : Option (Nat × Nat)) : Option (Nat × Nat) :=
  match a, b with
  | some x, some y => if y.1 < x.1 then some y else some x
  | some x, none => some x
  | none, y => y

/-- What of some rows is poisoned. -/
def lowest (rs : List PawnRead) : Option (Nat × Nat) := rs.foldl (fun l r => lowOf l r.low) none

/-- Reads elements [i, i + n) of an operand of ebits per element, row by row; base0 is the logical index of element 0.
-/
def readPawn (a : PawnAt) (b ebits base0 i n : Nat) : Run PawnRead :=
  go .none (pawnRuns ebits i n)
where
  go (acc : PawnRead) : List (Nat × Nat) → Run PawnRead
    | [] => pure acc
    | p :: ps => do
      let va := pawnAddr b ebits p.1
      let len := runBytes ebits p.2
      let row ← readRow a (va / 1024 * 1024)
      let bad := row.bad.filter fun w => decide (va < w + 64) && decide (w < va + len)
      let marks := (List.range p.2).map fun j => bad.contains ((va + j * ebits / 8) / 64 * 64)
      let first := fun (w : Nat) =>
        if va ≤ w then base0 + p.1 + (w - va) * 8 / ebits else base0 + p.1 - (va - w) * 8 / ebits
      let low := bad.head?.map fun w => (first w, w)
      go (PawnRead.mk (acc.bytes ++ slice row.bytes (va % 1024) len) (acc.bad ++ marks) (lowOf acc.low low)
        (acc.rows ++ [row])) ps

/-- What a unit writes to an operand: its base, bits per element, the elements' bytes, and which are poisoned. -/
structure PawnOut where
  base : Nat
  ebits : Nat
  bytes : List Byte
  bad : List Bool
  deriving DecidableEq, Repr

/-- The row that bytes at an address are written in. A row that they do not fill is written with its other bytes as they
were read (R289); where the unit has not read it, it is read for that. -/
def mergeRow (a : PawnAt) (have_ : List RowBuf) (va : Nat) (bs : List Byte) (bad : List Nat) : Run RowBuf := do
  let row := va / 1024 * 1024
  let off := va % 1024
  if bs.length = 1024 then pure (RowBuf.mk a.order row bs bad)
  else
    let old ← match have_.find? fun r => r.va = row with
      | some r => pure r
      | none => readRow a row
    let kept := old.bad.filter fun w => decide (w < va) || decide (va + bs.length < w + 64)
    pure (RowBuf.mk a.order row (old.bytes.take off ++ bs ++ old.bytes.drop (off + bs.length)) (bad ++ kept))

/-- The rows that hold elements [i, i + n) of an output. -/
def outRows (a : PawnAt) (have_ : List RowBuf) (i n : Nat) (o : PawnOut) : Run (List RowBuf) :=
  go o.bytes o.bad (pawnRuns o.ebits i n)
where
  go (bs : List Byte) (bad : List Bool) : List (Nat × Nat) → Run (List RowBuf)
    | [] => pure []
    | p :: ps => do
      let va := pawnAddr o.base o.ebits p.1
      let k := runBytes o.ebits p.2
      let hurt := ((List.range p.2).filter fun j => bad.getD j false).map fun j => (va + j * o.ebits / 8) / 64 * 64
      let r ← mergeRow a have_ va (bs.take k) hurt.eraseDups
      let rs ← go (bs.drop k) (bad.drop p.2) ps
      pure (r :: rs)

def writeRows (a : PawnAt) : List RowBuf → Run Unit
  | [] => pure ()
  | r :: rs => do writeRow a r; writeRows a rs

/-- Notes the lowest poisoned codeword that a command has met: kept as first element and address. -/
def notePoison (slot : Nat) (low : Option (Nat × Nat)) : Run Unit :=
  match low with
  | none => pure ()
  | some (e, va) => modifyHw fun h => modCmd h slot fun c =>
      match c.priv with
      | [e0, _] => if e < e0 then { c with priv := [e, va] } else c
      | _ => { c with priv := [e, va] }

/-- Flags reach PAWN_MATH_STATUS of a stack (R215) and TRAIN_STATUS (R277). -/
def raisePawn (h : Hw) (s flags : Nat) : Hw :=
  let h := if flags.testBit 6 then setRegBit (setRegBit h rTrainStatus 2 true) rTrainStatus 4 true else h
  if flags % 32 = 0 then h else
    let o := regOf (.stack s) 0x10008
    setReg h o (getReg h o ||| BitVec.ofNat 32 (flags % 32))

/-! The token budget -/

/-- Elements of a segment that lie under pawn p (R203). -/
def localCount (count p : Nat) : Nat :=
  let chunks := ceilDiv count 2048
  if chunks ≤ p then 0
  else
    let mine := (chunks - p + 511) / 512
    let last := p + 512 * (mine - 1)
    (mine - 1) * 2048 + min 2048 (count - last * 2048)

/-- What a unit gives: its outputs, the rows it has read, the flags it raises, the block value it leaves in the pawn's
register, what it writes to the work area (offset, bytes), leaves it keeps, and the logical rows whose results poison
spoils. -/
structure PawnStep where
  outs : List PawnOut := []
  have_ : List RowBuf := []
  flags : Nat := 0
  block : Option Nat := none
  work : List (Nat × List Byte) := []
  leaves : List (Nat × List Byte) := []
  lost : List Nat := []
  deriving DecidableEq, Repr

/-- What pawns do for a command: its segments and checks; elements per unit, and row steps at most per unit; one unit
of a segment; its work area, by address and bytes; the ranges it writes as outputs and as results, and those of them
whose contents are undefined at its end, since its operands overlap as the manual forbids; whether it waits before its
first row step, given the stripes it writes; what comes before the first unit; whether a unit stands in an update store
(R289); and the results at its end. -/
structure PawnJob where
  segs : Run (List PawnSeg)
  check : List PawnSeg → Run (List Stripe)
  per : Nat
  steps : PawnSeg → Nat
  unit : PawnAt → (gs : List PawnSeg) → (seg i n : Nat) → Run PawnStep
  work : List PawnSeg → Nat × Nat
  outs : List PawnSeg → List (Nat × Nat)
  results : List PawnSeg → List (Nat × Nat)
  undef : List PawnSeg → List (Nat × Nat) := fun _ => []
  waits : Hw → List Nat → Bool := fun _ _ => false
  begin_ : List PawnSeg → Run Unit := fun _ => pure ()
  stored : Bool := false
  final : List PawnSeg → Run (Nat × Nat × Nat)

def shareKey (seg p : Nat) : Nat := seg * 512 + p

/-- Units of pawn p in a segment. -/
def shareUnits (j : PawnJob) (g : PawnSeg) (p : Nat) : Nat := ceilDiv (localCount g.count p) j.per

def shareDone (c : Cmd) (seg p : Nat) : Nat := smGet 0 c.shares (shareKey seg p)

/-- Pawns with work left in a segment. -/
def openPawns (j : PawnJob) (c : Cmd) (seg : Nat) (g : PawnSeg) : List Nat :=
  (List.range (min 512 (ceilDiv g.count 2048))).filter fun p => decide (shareDone c seg p < shareUnits j g p)

/-- The segment a stack's pawns are at: the first in table order with work left. -/
def currentSeg (j : PawnJob) (c : Cmd) (gs : List PawnSeg) (s : Nat) : Option Nat :=
  (List.range gs.length).find? fun i =>
    match gs[i]? with
    | none => false
    | some g => g.stack = s && !(openPawns j c i g).isEmpty

def limitEff (h : Hw) (s : Nat) : Nat := regFld h (regOf (.stack s) 0x10004) 7 0

def pawnKey (s p : Nat) : Nat := s * 512 + p

def holdersOf (h : Hw) (s : Nat) : Nat := (h.tokens.filter fun t => t.1 / 512 = s).length

/-- Whether one waiting request is granted before another (R208). -/
def waitsBefore (h : Hw) (a b : Nat × Nat) : Bool :=
  match cmdAt h a.1, cmdAt h b.1 with
  | some x, some y =>
    let k := fun (c : Cmd) (p : Nat) => [3 - hPrio c.packet, c.ring.val, c.order, p]
    decide (k x a.2 < k y b.2)
  | _, _ => false

/-- Grants tokens of a stack to waiting requests in order while the limit allows (the fuel is the requests). -/
def grantTokens : Nat → Hw → Nat → Hw
  | 0, h, _ => h
  | f + 1, h, s =>
    if limitEff h s ≤ holdersOf h s then h
    else
      let ws := h.tokenWaits.filter fun w => w.2 / 512 = s && (smFind h.tokens w.2).isNone
      match ws with
      | [] => h
      | w :: r =>
        let best := r.foldl (fun b x => if waitsBefore h x b then x else b) w
        grantTokens f { h with tokens := smPut h.tokens best.2 (best.1, false),
                               tokenWaits := h.tokenWaits.erase best } s

/-- A command's pawns with work left in their stack's current segment ask for tokens. -/
def askTokens (h : Hw) (slot : Nat) (j : PawnJob) (gs : List PawnSeg) : Hw :=
  match cmdAt h slot with
  | none => h
  | some c =>
    let wants := (List.range 24).flatMap fun s =>
      match currentSeg j c gs s with
      | none => []
      | some i => match gs[i]? with
        | none => []
        | some g => (openPawns j c i g).map fun p => (slot, pawnKey s p)
    let new := wants.filter fun w =>
      !h.tokenWaits.contains w && !(h.tokens.any fun t => t.1 = w.2 && t.2.1 = slot)
    { h with tokenWaits := h.tokenWaits ++ new }

def grantAll (h : Hw) : Hw := (List.range 24).foldl (fun h s => grantTokens 512 h s) h

/-- The ranges that HOLD covers, from a command's first row step on (R211). -/
def takeHold (h : Hw) (slot : Nat) (c : Cmd) : Hw :=
  if hOpflags c.packet % 2 = 1 ∧ (c.opcode = 0x60 ∨ c.opcode = 0x61) ∧ !(h.holds.any fun r => r.slot = slot) then
    { h with holds := h.holds ++ c.outs.map fun k => Hold.mk slot k stripeBytes }
  else h

/-- The logical index of the first element of a segment (R205). -/
def segBase (gs : List PawnSeg) (seg : Nat) : Nat := (gs.take seg).foldl (fun n g => n + g.count) 0

/-- The number of the first logical row of a segment, of an operand with so many elements in a row (R205). -/
def segRow (gs : List PawnSeg) (per seg : Nat) : Nat := (gs.take seg).foldl (fun n g => n + ceilDiv g.count per) 0

/-- Element that unit u of pawn p starts at, and how many it has (R222, R289). -/
def unitAt (j : PawnJob) (g : PawnSeg) (p u : Nat) : Nat × Nat :=
  let first := (u * j.per / 2048 * 512 + p) * 2048 + u * j.per % 2048
  (first, min j.per (g.count - first))

/-- Ranges are written with bytes of their own. -/
def writeWork (who : Who) (base : Nat) : List (Nat × List Byte) → Run Unit
  | [] => pure ()
  | w :: ws => do wr who (base + w.1) w.2; writeWork who base ws

/-- Unit u of pawn p of a segment: it reads its rows and computes; then, once every row may be written, it writes whole
rows and what it leaves in the work area, and counts (R200, R222, R289). -/
def pawnUnit (slot : Nat) (j : PawnJob) (gs : List PawnSeg) (seg p : Nat) : Run Unit := do
  let h ← get
  match cmdAt h slot, gs[seg]? with
  | some c, some g => do
    let u := shareDone c seg p
    let (i, n) := unitAt j g p u
    let who := whoOf slot c
    let a := PawnAt.mk { who with board := g.stack / 8 } g.stack p c.order
    set (takeHold h slot c)
    let o ← j.unit a gs seg i n
    let rows := (← o.outs.mapM (outRows a o.have_ i n)).flatten
    for r in rows do mayWrite a.who r.va 1024
    for w in o.work do mayWrite who ((j.work gs).1 + w.1) w.2.length
    writeRows a rows
    writeWork who (j.work gs).1 o.work
    modifyHw fun h =>
      let h := raisePawn h g.stack o.flags
      let x := pawnAux h g.stack p
      let h := setPawnAux h g.stack p { x with block := o.block.getD x.block, store := if j.stored then o.have_ else x.store }
      modCmd h slot fun c => { c with
        shares := smPut c.shares (shareKey seg p) (u + 1), written := c.written + 1, doneUnits := c.doneUnits + 1,
        flags := c.flags ||| o.flags, lost := c.lost ++ o.lost, leaves := c.leaves ++ o.leaves, heldAt := none }
  | _, _ => pure ()

/-- Further units of pawn p, while the row steps left in its turn suffice (R208). Of one that waits nothing has happened.
The fuel is the units there may be. -/
def pawnUnits (slot : Nat) (j : PawnJob) (gs : List PawnSeg) (seg p : Nat) : Nat → (left : Nat) → Run Unit
  | 0, _ => pure ()
  | k + 1, left => do
    let h ← get
    match cmdAt h slot, gs[seg]? with
    | some c, some g =>
      let u := shareDone c seg p
      let need := j.steps g + if (unitAt j g p u).2 < j.per then 1 else 0
      if u < shareUnits j g p ∧ need ≤ left then do
        tryCatch (pawnUnit slot j gs seg p) fun f => do
          if f = .wait then modifyHw fun g => keepWaits h g slot
          throw f
        pawnUnits slot j gs seg p k (left - need)
      else pure ()
    | _, _ => pure ()

/-- Every pawn of the command that holds a fresh token runs: at most 64 row steps, or its share of the segment. A
finished share returns its token; 64 row steps spend it (R208). The fuel is the tokens there may be. -/
def runTokens (slot : Nat) (j : PawnJob) (gs : List PawnSeg) : Nat → Run Unit
  | 0 => pure ()
  | f + 1 => do
    modifyHw fun h => grantAll (askTokens h slot j gs)
    let h ← get
    match h.tokens.find? fun t => t.2.1 = slot && !t.2.2 with
    | none => pure ()
    | some (key, _) =>
      match cmdAt h slot with
      | none => pure ()
      | some c =>
        match currentSeg j c gs (key / 512) with
        | none => modifyHw fun h => { h with tokens := smDel h.tokens key }
        | some seg =>
          match gs[seg]? with
          | none => pure ()
          | some g => do
            let p := key % 512
            pawnUnits slot j gs seg p 64 64
            modifyHw fun h =>
              let spent := (cmdAt h slot).any fun c => decide (shareUnits j g p ≤ shareDone c seg p)
              if spent then { h with tokens := smDel h.tokens key }
              else { h with tokens := smPut h.tokens key (slot, true) }
            runTokens slot j gs f

def allShares (j : PawnJob) (c : Cmd) (gs : List PawnSeg) : Bool :=
  (List.range gs.length).all fun i => match gs[i]? with
    | none => true
    | some g => (openPawns j c i g).isEmpty

/-- The check of R206, once, before any row step; what it has translated is pinned from then on (R360). DEDUCED (log 81): it
also translates the results and the work area, so that a permission fault there leaves memory untouched (Table 8-5). -/
def pawnCheck (slot : Nat) (j : PawnJob) (c : Cmd) : Run (List PawnSeg) :=
  match c.segs with
  | some gs => pure gs
  | none => do
    let gs ← j.segs
    let ss ← j.check gs
    let who := whoOf slot c
    for r in j.results gs do mayWrite who r.1 r.2
    tryCatch (do
        for r in j.results gs do pinRange slot who r.1 r.2 .wr
        pinRange slot who (j.work gs).1 (j.work gs).2 .wr
        j.begin_ gs) fun f => do
      modifyHw fun h => modCmd h slot fun c => { c with pins := [] }
      throw f
    modifyHw fun h => modCmd h slot fun c => { c with
      outs := writtenStripes ss, pins := ss.flatMap Stripe.pins ++ c.pins, segs := some gs,
      outRanges := j.outs gs ++ j.results gs, undef := j.undef gs, buffer := [j.work gs],
      usedStacks := (c.usedStacks ++ gs.map PawnSeg.stack).eraseDups }
    pure gs

/-- A pawn command that has run no row step waits where its opcode must. -/
def pawnGate (slot : Nat) (j : PawnJob) : Run Unit := do
  let h ← get
  if (cmdAt h slot).any fun c => c.doneUnits = 0 && j.waits h c.outs then throw .wait

/-- Runs a pawn command: its check, what its tokens allow, and its end when every share is done. -/
def pawnRun (slot : Nat) (j : PawnJob) (c : Cmd) (h : Hw) : Hw :=
  match runOn (do let gs ← pawnCheck slot j c
                  pawnGate slot j
                  runTokens slot j gs 16384
                  pure gs) h with
  | (.error .wait, h) => h
  | (.error f, h) => takeFail h h slot f
  | (.ok gs, h) =>
    match cmdAt h slot with
    | none => h
    | some c =>
      if allShares j c gs then
        match runOn (j.final gs) h with
        | (.error .wait, h) => h
        | (.error f, h) => takeFail h h slot f
        | (.ok r, h) => finish h slot r.1 r.2.1 r.2.2
      else h

/-- TOKEN_RETURN (R208): a pawn that has run its 64 row steps returns its token; it asks again if work is left, and
waiting requests are granted in order. -/
def tokenReturnHw (s p : Nat) (h : Hw) : Hw :=
  match smFind h.tokens (pawnKey s p) with
  | some (slot, true) =>
    let h := { h with tokens := smDel h.tokens (pawnKey s p),
                      tokenWaits := h.tokenWaits ++ [(slot, pawnKey s p)] }
    grantTokens 512 h s
  | _ => h

def execTokenReturn (s : StackId) (pawn : Fin 512) (st : State) : Host.Outcome State Fault Refusal :=
  onHw (tokenReturnHw s.val pawn.val) st

/-- The status at a pawn command's end (Table 8-5): MEM_UNCORRECTABLE with the lowest poisoned codeword if any, or else
the numeric status of the stacks that its segments name. -/
def pawnEnd (slot : Nat) (gs : List PawnSeg) (d0hi st : Nat) : Run (Nat × Nat × Nat) := do
  let h ← get
  match cmdAt h slot with
  | none => pure (st, 0, 0)
  | some c =>
    match c.priv with
    | [_, va] => pure (0x30, va, c.written)
    | _ =>
      let seen := gs.foldl (fun f g => f ||| regFld h (regOf (.stack g.stack) 0x10008) 4 0) 0
      pure (st, seen + d0hi, c.written)

/-! Results in the work area (R217, R222) -/

/-- Where results of rows stand in a work area, after the 64 KiB of progress. DESIGN CHOICE (log 82): in logical order;
the manual gives their sizes and no layout. -/
def resultsAt : Nat := 65536

/-- The block values of n rows. -/
def rdBlocks (who : Who) (work n : Nat) : Run (List Num) := do
  let bs ← rd who (work + resultsAt) (8 * n)
  pure ((List.range n).map fun r => w40.decode (leAt bs (8 * r) 8))

/-- A node of a reduction (R109): its value, the segment all of its rows lie in, and flags by stack. -/
structure RedNode where
  v : Num
  seg : Option Nat
  flags : List (Nat × Nat)
  deriving DecidableEq, Repr

/-- A node over two: the combine unit of the stack forms one within a segment, and the board sequencer the others, whose
flags go to the first segment's stack (DESIGN CHOICE, log 83). -/
def redNode (fold : Flagged → Flagged → Flagged) (gs : List PawnSeg) (x y : RedNode) : RedNode :=
  let r := fold (x.v, 0) (y.v, 0)
  let seg := if x.seg = y.seg then x.seg else none
  let g := (seg.bind fun i => gs[i]?).or gs.head?
  { v := r.1, seg := seg, flags := x.flags ++ y.flags ++ if r.2 = 0 then [] else [((g.map PawnSeg.stack).getD 0, r.2)] }

/-- The segment of every logical row. -/
def rowSegs (gs : List PawnSeg) (per : Nat) : List Nat :=
  (List.range gs.length).flatMap fun i => List.replicate (ceilDiv ((gs[i]?.map PawnSeg.count).getD 0) per) i

/-- Flags reach the stacks they belong to. -/
def raisePawns (slot : Nat) (xs : List (Nat × Nat)) (h : Hw) : Hw :=
  xs.foldl (fun h x => modCmd (raisePawn h x.1 x.2) slot fun c => { c with flags := c.flags ||| x.2 }) h

/-! PAWN_OP -/

def poOp (p : List Byte) : Nat := par p 0xC 1
def poRole (p : List Byte) : Nat := parBits p 0xC 9 8
def poFmt (p : List Byte) (i : Nat) : Nat := par p (0x10 + i) 1
def poExp (p : List Byte) (i : Nat) : Int := sext 8 (par p (0x14 + i) 1)
def poReduce (p : List Byte) : Bool := decide (16 ≤ poOp p)

/-- Inputs that a POP reads (Table 8-4): which of A, B, C. -/
def poReads (op : Nat) : List Nat :=
  if op = 1 then []
  else if op = 2 ∨ op = 3 ∨ 16 ≤ op then [0]
  else if op = 7 ∨ op = 11 then [0, 1, 2]
  else [0, 1]

def pawnFmt (f : Nat) : Bool := decide (2 ≤ f) && decide (f ≤ 7)

def popOk (op : Nat) : Bool := (decide (1 ≤ op) && decide (op ≤ 11)) || (decide (16 ≤ op) && decide (op ≤ 20))

def pawnOpExtra (_ : Hw) (_ : World) (p : List Byte) : List Nat :=
  let op := poOp p
  let used := fun i => if i = 3 then !poReduce p else (poReads op).contains i
  (if !popOk op ∨ poRole p = 3 ∨ (poRole p = 2 ∧ parBit p 0xC 11) then [0x4C] else []) ++
  (if (List.range 4).any fun i => if used i then !pawnFmt (poFmt p i) else poFmt p i ≠ 0 then [0x50] else []) ++
  (if !poReduce p ∧ par p 0x20 8 ≠ 0 then [0x60] else []) ++
  (if par p 0x28 8 = 0 then [0x68] else [])

/-- Parameters of PAWN_OP (Table 8-3). -/
def specPawnOp : PSpec :=
  { len := 1, flags := 1,
    fields := [fQ 0, fWMax 8 31 0 4096, fV 0xC 11 0, fV 0x10 31 0, fV 0x14 31 0, fV 0x18 31 0, fV 0x1C 31 0, fQ 0x20,
      fQ 0x28, fV 0x30 15 0],
    aligns := [(0x40, 8, 64), (0x60, 8, 8), (0x68, 8, 4096)],
    extra := pawnOpExtra }

/-- The exact value for D from a, b, c and the present d (Table 8-4). -/
def popValue (op : Nat) (imm a b c d : Num) : Num :=
  match op with
  | 1 => imm
  | 2 => a
  | 3 => a.mul imm
  | 4 => a.add b
  | 5 => a.sub b
  | 6 => a.mul b
  | 7 => (a.mul b).add c
  | 8 => (imm.mul a).add b
  | 9 => a.min b
  | 10 => a.max b
  | _ => if b.le a then c else d

/-- The operands of a segment of PAWN_OP. -/
def pawnOpRule (p : List Byte) : SegRule :=
  let ins := (poReads (poOp p)).map fun i => PawnOperand.mk i (4 * containerBits (poFmt p i)) .rd
  let out := if poReduce p then [] else
    [PawnOperand.mk 3 (4 * containerBits (poFmt p 3)) (if poOp p = 11 then .rmw else .wr)]
  { wordMask := 0x1F, fields := 4, operands := fun _ => ins ++ out, optional := fun _ => [], extra := fun _ => none }

/-- Random words of one conversion (R102, R105, R274). -/
def popRnd (h : Hw) (c : Cmd) (index : Nat) : Option Word :=
  let p := c.packet
  if parBit p 0xC 11 ∧ poRole p ≠ 2 ∧ parBit p 0xC 10 then some (Config.freeRandom (h.draws * 2 ^ 64 + index))
  else if poRole p = 2 ∨ parBit p 0xC 10 then some (srOf c (par p 0x1C 4) (par p 0x30 2) index)
  else none

/-- The start value and the block value of a reduction (R109, R110). -/
def reduceStart (op : Nat) : Num :=
  if op = 0x12 then .inf false else if op = 0x13 then .inf true else numZero

/-- The exact value over a row, with NAN_GEN where a NaN comes from none. -/
def reduceExact (op : Nat) (xs : List Num) : Flagged :=
  match op with
  | 0x12 => (xs.foldl Num.min (.inf false), 0)
  | 0x13 => (xs.foldl Num.max (.inf true), 0)
  | 0x14 => (xs.foldl (fun m x => m.max x.abs) numZero, 0)
  | _ =>
    let s := exactSum (if op = 0x11 then xs.map fun x => x.mul x else xs)
    (s, if s.isNan && !(xs.any Num.isNan) then nanGen else 0)

/-- A block value is a W40 value (R109, R217): one past its range is an infinity and raises ACC_OVF. -/
def reduceBlock (op : Nat) (xs : List Num) : Flagged :=
  let s := reduceExact op xs
  let r := roundW40 s.1
  (r.1, r.2 ||| s.2)

def reduceFold (op : Nat) (a b : Flagged) : Flagged :=
  match op with
  | 0x12 => (a.1.min b.1, a.2 ||| b.2)
  | 0x13 => (a.1.max b.1, a.2 ||| b.2)
  | 0x14 => (a.1.max b.1, a.2 ||| b.2)
  | _ => addW40 a b

/-- One unit of a reduction: the block value of a row of A, written to the work area (R217). -/
def reduceUnit (p : List Byte) (slot : Nat) (a : PawnAt) (gs : List PawnSeg) (seg i n : Nat) : Run PawnStep := do
  let bits := containerBits (poFmt p 0)
  let per := 8192 / bits
  let x ← readPawn a (((gs[seg]?).map fun g => g.base 0).getD 0) bits (segBase gs seg) i n
  notePoison slot x.low
  let v := reduceBlock (poOp p) ((List.range n).map fun e => (elemNum (poFmt p 0) x.bytes e).scale (poExp p 0))
  let row := segRow gs per seg + i / per
  let bits := w40.bitsOf v.1
  pure { have_ := x.rows, flags := v.2, block := some bits, work := [(resultsAt + 8 * row, leBytes 8 bits)] }

/-- The values of D for the elements of a unit (R215): bits and flags, from the inputs read and the present D. -/
def popValues (h : Hw) (c : Cmd) (ins : List PawnRead) (old : PawnRead) (index n : Nat) : List (Nat × Nat) :=
  let p := c.packet
  let val := fun k e => match ins[k]? with
    | none => numZero
    | some r => (elemNum (poFmt p k) r.bytes e).scale (poExp p k)
  let imm := fp32.decode (par p 0x18 4)
  (List.range n).map fun e =>
    let d := (elemNum (poFmt p 3) old.bytes e).scale (-(poExp p 3))
    let v := popValue (poOp p) imm (val 0 e) (val 1 e) (val 2 e) d
    let ops := (if (poReads (poOp p)).isEmpty then [imm] else
      (List.range (poReads (poOp p)).length).map (fun k => val k e)) ++
      (if poOp p = 3 ∨ poOp p = 8 then [imm] else []) ++ (if poOp p = 11 then [d] else [])
    let nan := if v.isNan && !(ops.any Num.isNan) then nanGen else 0
    let cv := convert (poFmt p 3) (poRole p = 2) (popRnd h c (index + e)) (v.scale (poExp p 3))
    (cv.bits, cv.flags ||| nan ||| (if cv.ovf then stepOvf else 0))

/-- One unit of PAWN_OP that writes an output row of D. -/
def mapUnit (slot : Nat) (c : Cmd) (a : PawnAt) (gs : List PawnSeg) (seg i n : Nat) : Run PawnStep := do
  let p := c.packet
  let base := fun k => ((gs[seg]?).map fun g => g.base k).getD 0
  let bits := fun k => containerBits (poFmt p k)
  let base0 := segBase gs seg
  let ins ← (poReads (poOp p)).mapM fun k => readPawn a (base k) (bits k) base0 i n
  let old ← if poOp p = 11 then readPawn a (base 3) (bits 3) base0 i n else pure .none
  notePoison slot (lowest (ins ++ [old]))
  let h ← get
  set (if parBit p 0xC 11 then { h with draws := h.draws + 1 } else h)
  let res := popValues h c ins old (base0 + i) n
  let bad := (List.range n).map fun e => (ins ++ [old]).any fun r => r.bad.getD e false
  pure { outs := [PawnOut.mk (base 3) (bits 3) (packElems (poFmt p 3) (res.map Prod.fst)) bad]
         have_ := (ins ++ [old]).flatMap PawnRead.rows
         flags := res.foldl (fun f r => f ||| r.2) 0 }

/-- One unit of PAWN_OP (R222). -/
def pawnOpUnit (slot : Nat) (c : Cmd) : PawnAt → List PawnSeg → Nat → Nat → Nat → Run PawnStep :=
  if poReduce c.packet then reduceUnit c.packet slot else mapUnit slot c

/-- The elements of D in every segment. -/
def pawnOpOuts (p : List Byte) (gs : List PawnSeg) : List (Nat × Nat) :=
  if poReduce p then [] else gs.flatMap fun g => pawnRanges (g.base 3) (containerBits (poFmt p 3)) g.count

/-- D where it overlaps an operand without coinciding with one (R216): the elements of D in every segment. -/
def pawnOpUndef (p : List Byte) (gs : List PawnSeg) : List (Nat × Nat) :=
  if poReduce p then [] else
  let part := fun (k : Nat) (g : PawnSeg) => pawnRanges (g.base k) (containerBits (poFmt p k)) g.count
  let ins := poReads (poOp p)
  let bad := gs.any fun g => gs.any fun g' => ins.any fun k =>
    !(g.base 3 = g'.base k && g.stack = g'.stack && poFmt p 3 = poFmt p k) && rangesMeet (part 3 g) (part k g')
  if bad then gs.flatMap (part 3) else []

/-- The value of a reduction over its block values, with flags by stack (R217). -/
def reduceAll (op per : Nat) (gs : List PawnSeg) (vs : List Num) : RedNode :=
  let leaves := (vs.zip (rowSegs gs per)).map fun x => RedNode.mk x.1 (some x.2) []
  (orderedFold (redNode (reduceFold op) gs) leaves).getD (RedNode.mk (reduceStart op) none [])

/-- Results of PAWN_OP: the reduction record at RES_ADDR (R217), which poison leaves unwritten (R202). -/
def pawnOpFinal (slot : Nat) (c : Cmd) (gs : List PawnSeg) : Run (Nat × Nat × Nat) := do
  let p := c.packet
  let who := whoOf slot c
  if poReduce p then
    let per := 8192 / max 1 (containerBits (poFmt p 0))
    let vs ← rdBlocks who (par p 0x28 8) (segRow gs per gs.length)
    let tot := reduceAll (poOp p) per gs vs
    let hurt := (cmdAt (← get) slot).any fun c => decide (c.priv ≠ [])
    if !hurt then
      mayWrite who (par p 0x20 8) 16
      wr who (par p 0x20 8) (leBytes 8 (w40.bitsOf tot.v) ++ leBytes 8 0)
    modifyHw (raisePawns slot tot.flags)
  pawnEnd slot gs 0 0

/-- Row steps of a unit of PAWN_OP: the rows of each input that an output row needs, the present D for CSEL, and the
row written. -/
def pawnOpSteps (p : List Byte) : Nat :=
  if poReduce p then 1
  else (if poOp p = 11 then 2 else 1) + (poReads (poOp p)).foldl
    (fun n k => n + max 1 (containerBits (poFmt p k) / max 1 (containerBits (poFmt p 3)))) 0

def pawnOpJob (slot : Nat) (c : Cmd) : PawnJob :=
  let p := c.packet
  let who := whoOf slot c
  let per := 8192 / max 1 (containerBits (if poReduce p then poFmt p 0 else poFmt p 3))
  { segs := readSegs who (par p 0 8) (par p 8 4) (pawnOpRule p)
    check := checkSegs who (pawnOpRule p)
    per := per
    steps := fun _ => pawnOpSteps p
    unit := pawnOpUnit slot c
    work := fun gs => (par p 0x28 8, resultsAt + if poReduce p then 8 * segRow gs per gs.length else 0)
    outs := pawnOpOuts p
    results := fun _ => if poReduce p then [(par p 0x20 8, 16)] else []
    undef := pawnOpUndef p
    final := pawnOpFinal slot c }

def execPawnOp (slot : SlotId) (s : State) : Host.Outcome State Fault Refusal :=
  onHw (withCmd slot.val 0x60 fun c h => pawnRun slot.val (pawnOpJob slot.val c) c h) s

/-! DIGEST (R218, R219) -/

def leafHash (r : Nat) (bs : List Byte) : List Byte :=
  shake256 ([0x00] ++ leBytes 8 r ++ leBytes 2 bs.length ++ bs) 32

def nodeHash (l r : List Byte) : List Byte := shake256 ([0x01] ++ l ++ r) 32

def emptyHash : List Byte := shake256 [0x02] 32

/-- A node over children of which one may be missing (a poisoned row below it). -/
def nodeOpt (l r : Option (List Byte)) : Option (List Byte) :=
  match l, r with
  | some a, some b => some (nodeHash a b)
  | _, _ => none

/-- The nodes at level j. -/
def levelNodes : Nat → List (Option (List Byte)) → List (Option (List Byte))
  | 0, xs => xs
  | j + 1, xs => levelNodes j (pairUp nodeOpt xs)

/-- The root over leaves; empty for none. -/
def rootOfLeaves (xs : List (Option (List Byte))) : Option (List Byte) :=
  (orderedFold nodeOpt xs).getD (some emptyHash)

/-- The leaves of n rows that stand in a work area from row k on; none where poison has spoilt a row. -/
def rdLeaves (who : Who) (work k n : Nat) (lost : List Nat) : Run (List (Option (List Byte))) := do
  let bs ← rd who (work + resultsAt + 32 * k) (32 * n)
  pure ((List.range n).map fun r => if lost.contains (k + r) then none else some (slice bs (32 * r) 32))

/-- Nodes must be writable, every one that is there, before any is written. -/
def mayNodes (who : Who) (addr : Nat) (ns : List (Option (List Byte))) : Run Unit := do
  for i in List.range ns.length do
    if (ns.getD i none).isSome then mayWrite who (addr + 32 * i) 32

/-- Writes nodes that are there, 32 bytes each in index order. -/
def writeNodes (who : Who) (addr : Nat) (ns : List (Option (List Byte))) : Run Unit := do
  for i in List.range ns.length do
    match ns.getD i none with
    | none => pure ()
    | some n => wr who (addr + 32 * i) n

def specDigest : PSpec :=
  { len := 1,
    fields := [fQ 0, fWMax 8 31 0 4096, fV 0xC 7 0, fMax 0xC 13 8 47, fQ 0x10, fQ 0x18, fQ 0x20],
    aligns := [(0x40, 8, 64), (0x50, 8, 8), (0x58, 8, 8), (0x60, 8, 4096)],
    extra := fun _ _ p =>
      (if containerBits (par p 0xC 1) = 0 then [0x4C] else []) ++ (if par p 0x20 8 = 0 then [0x60] else []) }

def digestRule (p : List Byte) : SegRule :=
  { wordMask := 0x1F, fields := 4, operands := fun _ => [PawnOperand.mk 0 (4 * containerBits (par p 0xC 1)) .rd],
    optional := fun _ => [], extra := fun _ => none }

/-- One unit of DIGEST: the leaf of a row, written to the work area (R219). -/
def digestUnit (p : List Byte) (slot : Nat) (a : PawnAt) (gs : List PawnSeg) (seg i n : Nat) : Run PawnStep := do
  let bits := containerBits (par p 0xC 1)
  let per := 8192 / max 1 bits
  let x ← readPawn a (((gs[seg]?).map fun g => g.base 0).getD 0) bits (segBase gs seg) i n
  notePoison slot x.low
  let row := segRow gs per seg + i / per
  if x.low.isSome then pure { have_ := x.rows, lost := [row] }
  else pure { have_ := x.rows, work := [(resultsAt + 32 * row, leafHash row x.bytes)] }

/-- How many nodes of level j there are over n rows (R219). -/
def nodeCount (n j : Nat) : Nat := ceilDiv n (2 ^ j)

/-- The root and the level nodes, as far as no poisoned row lies below them; with no row, no node. -/
def digestFinal (slot : Nat) (c : Cmd) (gs : List PawnSeg) : Run (Nat × Nat × Nat) := do
  let p := c.packet
  let who := whoOf slot c
  let rows := segRow gs (8192 / max 1 (containerBits (par p 0xC 1))) gs.length
  let ls ← rdLeaves who (par p 0x20 8) 0 rows (((cmdAt (← get) slot).map Cmd.lost).getD [])
  let nodes := if par p 0x18 8 = 0 then [] else levelNodes (parBits p 0xC 13 8) ls
  let root := rootOfLeaves ls
  if root.isSome then mayWrite who (par p 0x10 8) 32
  mayNodes who (par p 0x18 8) nodes
  match root with
  | none => pure ()
  | some r => wr who (par p 0x10 8) r
  writeNodes who (par p 0x18 8) nodes
  pawnEnd slot gs 0 0

def digestJob (slot : Nat) (c : Cmd) : PawnJob :=
  let p := c.packet
  let who := whoOf slot c
  let per := 8192 / max 1 (containerBits (par p 0xC 1))
  { segs := readSegs who (par p 0 8) (par p 8 4) (digestRule p)
    check := checkSegs who (digestRule p)
    per := per
    steps := fun _ => 1
    unit := digestUnit p slot
    work := fun gs => (par p 0x20 8, resultsAt + 32 * segRow gs per gs.length)
    outs := fun _ => []
    results := fun gs => (par p 0x10 8, 32) :: (if par p 0x18 8 = 0 then [] else
      [(par p 0x18 8, 32 * nodeCount (segRow gs per gs.length) (parBits p 0xC 13 8))])
    final := digestFinal slot c }

def execDigest (slot : SlotId) (s : State) : Host.Outcome State Fault Refusal :=
  onHw (withCmd slot.val 0x62 fun c h => pawnRun slot.val (digestJob slot.val c) c h) s

/-! PAWN_GEMV (R220, R221) -/

def specGemv : PSpec :=
  { len := 1,
    fields := [fQ 0, fWMax 8 31 0 4096, fWMax 0xC 31 0 32768, fQ 0x10, fQ 0x18, fQ 0x20, fV 0x28 23 0, fV 0x2C 15 0],
    aligns := [(0x40, 8, 64), (0x60, 8, 4096)],
    extra := fun _ _ p =>
      (if par p 0xC 4 % 2048 ≠ 0 then [0x4C] else []) ++ (if par p 0x20 8 = 0 then [0x60] else []) ++
      (if !(par p 0x28 1 = 1 ∨ par p 0x28 1 = 2) ∨ !(par p 0x29 1 = 2 ∨ par p 0x29 1 = 4 ∨ par p 0x29 1 = 5) ∨
          !(4 ≤ par p 0x2A 1 ∧ par p 0x2A 1 ≤ 7) then [0x68] else []),
    extraAlign := fun _ p =>
      (if par p 0x10 8 % fmtAlign (par p 0x29 1) ≠ 0 then [0x50] else []) ++
      (if par p 0x18 8 % fmtAlign (par p 0x2A 1) ≠ 0 then [0x58] else []) }

def gemvRule (p : List Byte) : SegRule :=
  { wordMask := 0x1F, fields := 4,
    operands := fun _ => [PawnOperand.mk 0 (4 * containerBits (par p 0x28 1)) .rd, PawnOperand.mk 1 1 .rd],
    optional := fun _ => [],
    extra := fun g => if g.count % max 1 (par p 0xC 4) ≠ 0 then some 3 else none }

/-- The vector x in the buffer of a stack. DESIGN CHOICE (log 84): it is delivered again where another command's vector
has taken the buffer since. -/
def vectorOf (slot : Nat) (c : Cmd) (s : Nat) : Run (List Byte) := do
  match (stackAux (← get) s).vector with
  | some (o, bs) => if o = c.order then pure bs else deliver
  | none => deliver
where
  deliver : Run (List Byte) := do
    let bs ← rd (whoOf slot c) (par c.packet 0x10 8) (par c.packet 0xC 4 * containerBits (par c.packet 0x29 1) / 8)
    modifyHw fun h => setStackAux h s { stackAux h s with vector := some (c.order, bs) }
    pure bs

/-- The board delivers x once to every stack that a segment names, before the pawns run (R220). -/
def deliverX (slot : Nat) (c : Cmd) (gs : List PawnSeg) : Run Unit := do
  let bs ← rd (whoOf slot c) (par c.packet 0x10 8) (par c.packet 0xC 4 * containerBits (par c.packet 0x29 1) / 8)
  modifyHw fun h => gs.foldl (fun h g => setStackAux h g.stack { stackAux h g.stack with vector := some (c.order, bs) }) h

/-- A row that the pawn has in a buffer for this command, or that it reads: every scale row is read once (R221). -/
def rowAtHand (a : PawnAt) (va : Nat) : Run RowBuf := do
  let h ← get
  let x := pawnAux h a.stack a.pawn
  match x.rows.find? fun r => r.order = a.order && r.va = va with
  | some r => do
    set (setPawnAux h a.stack a.pawn { x with rows := r :: x.rows.filter (· ≠ r) })
    pure r
  | none => readRow a va

/-- The block value of a row of W (R221): the exact sum of scaled products, rounded once. x is read from column k on. -/
def gemvBlock (p : List Byte) (w scales xb : List Byte) (k n : Nat) : Flagged :=
  let wf := par p 0x28 1
  let xf := par p 0x29 1
  let xe := sext 8 (par p 0x2C 1)
  let a := fun e => scaledElem wf (elemBits wf w e) (leAt scales (e / 32) 1)
  let b := fun e => (elemNum xf xb (k + e)).scale xe
  let s := exactSum ((List.range n).map fun e => (a e).mul (b e))
  let r := roundW40 s
  (r.1, r.2 ||| (if s.isNan && !((List.range n).any fun e => (a e).isNan || (b e).isNan) then nanGen else 0))

/-- One unit of PAWN_GEMV: a logical row of W with its scales. -/
def gemvUnit (slot : Nat) (c : Cmd) (a : PawnAt) (gs : List PawnSeg) (seg i n : Nat) : Run PawnStep := do
  let p := c.packet
  let bits := containerBits (par p 0x28 1)
  let per := 8192 / max 1 bits
  let base := fun k => ((gs[seg]?).map fun g => g.base k).getD 0
  let base0 := segBase gs seg
  let sva := pawnAddrQ (base 1) 1 i
  let xb ← vectorOf slot c a.stack
  let sc ← rowAtHand a (sva / 1024 * 1024)
  let w ← readPawn a (base 0) bits base0 i n
  let badSc := sc.bad.contains (sva / 64 * 64)
  notePoison slot (lowOf w.low (if badSc then some (base0 + i / 2048 * 2048, sva / 64 * 64) else none))
  let row := segRow gs per seg + i / per
  if w.low.isSome ∨ badSc then pure { lost := [row] }
  else
    let v := gemvBlock p w.bytes (slice sc.bytes (sva % 1024) (n / 32)) xb (i % max 1 (par p 0xC 4)) n
    let bits := w40.bitsOf v.1
    pure { have_ := w.rows, flags := v.2, block := some bits, work := [(resultsAt + 8 * row, leBytes 8 bits)] }

/-- Rows of the matrix. -/
def gemvRows (p : List Byte) (gs : List PawnSeg) : Nat := segBase gs gs.length / max 1 (par p 0xC 4)

/-- Bytes of an element of y. -/
def gemvOut (p : List Byte) : Nat := containerBits (par p 0x2A 1) / 8

/-- The work area: block values after the progress. -/
def gemvArea (p : List Byte) (gs : List PawnSeg) : Nat × Nat :=
  (par p 0x20 8, resultsAt + 8 * segRow gs (8192 / max 1 (containerBits (par p 0x28 1))) gs.length)

/-- Y where it overlaps x, an operand, a scale plane or the work area (R220). -/
def gemvUndef (p : List Byte) (gs : List PawnSeg) : List (Nat × Nat) :=
  let k := par p 0xC 4
  let wb := containerBits (par p 0x28 1)
  let y := [(par p 0x18 8, gemvRows p gs * gemvOut p)]
  let scales := fun (g : PawnSeg) => (pieces 2048 0 g.count).map fun r => (pawnAddrQ (g.base 1) 1 r.1, ceilDiv r.2 32)
  if rangesMeet y [(par p 0x10 8, k * containerBits (par p 0x29 1) / 8), gemvArea p gs] ||
      gs.any fun g => rangesMeet y (pawnRanges (g.base 0) wb g.count) || rangesMeet y (scales g)
  then y else []

/-- y[j] from the block values of its row (R221), with its flags. -/
def gemvValue (p : List Byte) (vs : List Num) : Nat × Nat :=
  let tot := (orderedFold addW40 (vs.map fun v => (v, 0))).getD (numZero, 0)
  let cv := convert (par p 0x2A 1) false none (tot.1.scale (sext 8 (par p 0x2D 1)))
  (cv.bits, tot.2 ||| cv.flags)

/-- The elements of y, but for those of rows that poison spoils. -/
def gemvFinal (slot : Nat) (c : Cmd) (gs : List PawnSeg) : Run (Nat × Nat × Nat) := do
  let p := c.packet
  let who := whoOf slot c
  let per := 8192 / max 1 (containerBits (par p 0x28 1))
  let m := par p 0xC 4 / per
  let eb := gemvOut p
  let vs ← rdBlocks who (par p 0x20 8) (segRow gs per gs.length)
  let lost := ((cmdAt (← get) slot).map Cmd.lost).getD []
  let segOf := rowSegs gs per
  let js := (List.range (gemvRows p gs)).filter fun j => !lost.any fun r => r / max 1 m = j
  for j in js do mayWrite who (par p 0x18 8 + j * eb) eb
  for j in js do
    let y := gemvValue p ((vs.drop (j * m)).take m)
    wr who (par p 0x18 8 + j * eb) (leBytes eb y.1)
    let s := ((gs[segOf.getD (j * m) 0]?).map PawnSeg.stack).getD 0
    modifyHw (raisePawns slot [(s, y.2)])
  pawnEnd slot gs 0 0

def gemvJob (slot : Nat) (c : Cmd) : PawnJob :=
  let p := c.packet
  let who := whoOf slot c
  { segs := readSegs who (par p 0 8) (par p 8 4) (gemvRule p)
    check := checkSegs who (gemvRule p)
    per := 8192 / max 1 (containerBits (par p 0x28 1))
    steps := fun _ => 2
    unit := gemvUnit slot c
    work := gemvArea p
    outs := fun _ => []
    results := fun gs => [(par p 0x18 8, gemvRows p gs * gemvOut p)]
    undef := gemvUndef p
    begin_ := deliverX slot c
    final := gemvFinal slot c }

def execPawnGemv (slot : SlotId) (s : State) : Host.Outcome State Fault Refusal :=
  onHw (withCmd slot.val 0x63 fun c h => pawnRun slot.val (gemvJob slot.val c) c h) s

end Sys2Proof.Machine
end

