-- ==== Sys2Proof/Machine/Training.lean ====
section
/-! DEFINITION. The training step: STEP_BEGIN, STEP_END with its replica audit, LOSS_SCALE_CHECK, the training set
(R267-R280, R292, R293, R345, R346) and UPDATE (R282-R291). -/

namespace Sys2Proof.Machine

/-! The training block (Table 11-7) -/

def trainWorld (h : Hw) : World := if regBit h 0x170120 31 then .secure else .nonSecure
def stepOpen (h : Hw) : Bool := regBit h rTrainStatus 0
def stepClosing (h : Hw) : Bool := regBit h rTrainStatus 1
def stepDecided (h : Hw) : Bool := regBit h rTrainStatus 6
def stepSkip (h : Hw) : Bool := regBit h rTrainStatus 5
def liveExp (h : Hw) : Int := sext 8 (regFld h rTrainScale 23 16)
def nextExp (h : Hw) : Int := sext 8 (regFld h rTrainScale 7 0)
def setLiveExp (h : Hw) (e : Int) : Hw := setRegFld h rTrainScale 23 16 (enc2 8 e)
def setNextExp (h : Hw) (e : Int) : Hw := setRegFld h rTrainScale 7 0 (enc2 8 e)
def floorExp (h : Hw) : Int := sext 8 (regFld h 0x170124 7 0)
def ceilExp (h : Hw) : Int := sext 8 (regFld h 0x170124 15 8)

/-- The full count of clean checks; the register saturates at 65,535 (R279). -/
def setCleanRun (h : Hw) (n : Nat) : Hw :=
  setReg { h with train := { h.train with cleanRun := n } } 0x170010 (BitVec.ofNat 32 (min n 65535))

/-- The step key (R273). -/
def stepKeyOf (h : Hw) (step : Nat) : List Word :=
  let seeds := (List.range 4).flatMap fun i => leBytes 4 (getReg h (0x17012C + 4 * i)).toNat
  let d := shake256 (leBytes 1 3 ++ seeds ++ leBytes 4 (step / 2 ^ 32)) 16
  (List.range 4).map fun i => BitVec.ofNat 32 (leAt d (4 * i) 4)

/-- A class 0x8 command from a ring of the other world completes as BAD_WORLD (R267). -/
def inTrainWorld (slot : Nat) (c : Cmd) (f : Hw → Hw) (h : Hw) : Hw :=
  if c.world = trainWorld h then f h else finish h slot 0x13 0 0

def specStepBegin : PSpec := { len := 1, fields := [fQ 0, fQ 8], aligns := [(0x48, 8, 16)] }
def specStepEnd : PSpec := { len := 1, fields := [fQ 0] }

/-- The scale record: 2^e and 2^−e as FP32, and e (R269). -/
def scaleRecord (e : Int) : List Byte :=
  leBytes 4 ((e + 127).toNat * 2 ^ 23) ++ leBytes 4 ((127 - e).toNat * 2 ^ 23) ++ leBytes 8 (enc2 8 e)

/-- Steps 2 to 4 and the open state of R269. -/
def openStep (h : Hw) (step : Nat) : Hw :=
  let h := setReg64 h rStepLo step
  let h := { h with train := { h.train with stepKey := stepKeyOf h step, updateSeen := false } }
  let h := setLiveExp h (max (floorExp h) (min (ceilExp h) (nextExp h)))
  let h := [2, 3, 4, 5, 6].foldl (fun h b => setRegBit h rTrainStatus b false) h
  setRegBit (setReg h 0x170014 0) rTrainStatus 0 true

/-- STEP_BEGIN (R269, R315): one dispatched while a step was open is BAD_PARAM, also once that step closes; the scale
record's place is translated before anything is latched; an epoch that turns waits for collectives. -/
def stepBegin (slot : Nat) (c : Cmd) : Run (Nat × Nat × Nat) := do
  let step := par c.packet 0 8
  let at_ := par c.packet 8 8
  if stepOpen (← get) then throw (.stop 0x11 stateBad 0)
  if stepClosing (← get) then throw (if c.inStep then .stop 0x11 stateBad 0 else .wait)
  if at_ ≠ 0 then mayWrite (whoOf slot c) at_ 16
  let h ← get
  let turn := epochArmed h && decide (getReg64 h 0x504010 ≤ step)
  if turn && classLive h 7 then throw .wait
  let h := if turn then turnEpoch h
    else if epochArmed h || h.fabric.heldTrain then h else applyTraining h
  let h := openStep h step
  set h
  noteOut slot (if at_ = 0 then [] else [(at_, 16)])
  if at_ ≠ 0 then wr (whoOf slot c) at_ (scaleRecord (liveExp h))
  pure (0, step, enc2 64 (liveExp h))

def execStepBegin (slot : SlotId) (s : State) : Host.Outcome State Fault Refusal :=
  onHw (withCmd slot.val 0x81 fun c => inTrainWorld slot.val c fun h => runCmd h slot.val (stepBegin slot.val c)) s

/-! STEP_END -/

/-- RESUME_STEP (R332). -/
def resumeStep (h : Hw) : Nat := if stepOpen h then stepNum h else stepNum h + 1

/-- What the training record of a NOTATE holds, as at its dispatch (R332). -/
def noteWords (h : Hw) : List Nat :=
  [resumeStep h, enc2 32 (liveExp h), enc2 32 (nextExp h), h.train.cleanRun, (getReg h rEpoch).toNat]

/-- STEP_END makes the step closing at its dispatch (R270); a STEP that differs, or a step that is not open, is known
then too. priv holds 1 where it closes the step. -/
def startClosing (slot : Nat) (c : Cmd) (h : Hw) : Hw :=
  if c.world = trainWorld h ∧ stepOpen h ∧ par c.packet 0 8 = stepNum h then
    modCmd (setRegFld h rTrainStatus 1 0 2) slot fun c => { c with priv := [1] }
  else modCmd h slot fun c => { c with priv := [0] }

/-- Every command that the drain of R270 waits for has written its final record. -/
def drained (h : Hw) (slot : Nat) : Bool :=
  h.slots.all fun e => e.1 = slot || !e.2.inStep || [0x0, 0x9, 0xA, 0xF].contains e.2.cls

def noteWorld (h : Hw) : World := if regBit h 0x600140 31 then .secure else .nonSecure

/-- The castle on the notation block's account. -/
def noteWho (h : Hw) : Who := castle (noteWorld h)

/-- Addresses of the shard table's entries (R345): DIG_ADDR, SEG_ADDR, SEG_COUNT. -/
def shardEntries (h : Hw) : Run (List (Nat × Nat × Nat)) :=
  (List.range (regFld h 0x600158 12 0)).mapM fun i => do
    let d ← rd (noteWho h) (getReg64 h 0x600150 / 32 * 32 + 32 * i) 32
    pure (leAt d 0 8, leAt d 8 8, leAt d 0x10 4)

/-- The shard root (R345). -/
def shardRoot (h : Hw) : Run (List Byte) := do
  let es ← shardEntries h
  let ds ← es.mapM fun e => rd (noteWho h) e.1 64
  pure (shake256 (leBytes 1 5 ++ ds.flatten) 32)

/-- The number of AUDIT_GROUP, and the group in the active map; none where the map is not valid. -/
def auditGroupNo (h : Hw) : Nat := regFld h 0x600148 29 27
def auditGroup (h : Hw) : Group :=
  if mapValid h (mapActive h) then groupOf h (mapActive h) (auditGroupNo h) else Group.mk 0 0 []

/-- An audit is due at the STEP_END of this step (R345). -/
def auditDue (h : Hw) : Bool :=
  let iv := regFld h 0x600148 15 0
  let iv := if iv ≠ 0 then iv else if (auditGroup h).size ≤ 64 then 1000 else 50
  regBit h 0x600148 31 && stepNum h % iv = 0

/-- The authoritative root (R346). -/
def authority (h : Hw) (rs : List (List Byte)) : Option (List Byte) :=
  if rs.length = 2 then rs[regFld h 0x60014C 15 0]?
  else rs.find? fun r => decide (rs.length < 2 * (rs.filter fun x => x = r).length)

/-- The castle stops fetch on every ring under 0x51 (R346 step 7). -/
def haltAll (h : Hw) : Hw :=
  let h := logErr h { source := 0x0C, kind := 2, code := 0x51, severity := 2 }
  (List.range 64).foldl (fun h n => haltRing h n 0x51) h

/-- The divergent members by rank: those whose root differs from the authoritative one (R346 step 2). -/
def divergent (rs : List (List Byte)) (r : List Byte) : List Nat :=
  (List.range rs.length).filter fun i => rs.getD i [] ≠ r

/-- The source of every divergent member: the lowest-ranked one that holds the authoritative root (R346 step 2). -/
def sourceRank (rs : List (List Byte)) (r : List Byte) : Nat :=
  ((List.range rs.length).find? fun i => rs.getD i [] = r).getD 0

/-- The roots of a group meet (R345 step 3, R346 steps 1, 2 and 7): whether STEP_END may go on at this member, of a rank. A
divergent member waits for its refresh, and its source has it to serve; with AUDIT HALT set every member stops its
rings. -/
def compareRoots (rank : Nat) (rs : List (List Byte)) (h : Hw) : Bool × Hw :=
  let own := rs.getD rank []
  if rs.all fun r => r = own then (true, h)
  else
    let h := setRegBit h 0x600020 0 true
    match authority h rs with
    | none => (true, haltAll (setRegBit h 0x600020 2 true))
    | some r =>
      if r ≠ own then (false, setRegBit (setRegBit h 0x600000 3 true) 0x600000 2 true)
      else if regBit h 0x600148 30 then (true, haltAll h)
      else (true, { h with ckpt := { h.ckpt with serves := if sourceRank rs r = rank then divergent rs r else [] } })

/-- An audit begins (R345): this member folds its root, and the gather of the roots starts. A table or record that cannot
be read ends the audit: DEDUCED (log 27). -/
def beginAudit (slot : Nat) (h : Hw) : Bool × Hw :=
  match runOn (shardRoot h) h with
  | (.error .wait, _) => (false, h)
  | (.error f, h) => (true, (castleFail h (noteWorld h) f).2)
  | (.ok own, h) =>
    let h := setReg (bumpSat h 0x600014 1) 0x600020 0
    let h := { h with ckpt := { h.ckpt with serves := [] } }
    (false, openCollAs h slot (auditGroupNo h) auditTag false
      [((auditGroup h).rank, own ++ leBytes 8 (resumeStep h))])

/-- The audit as far as it goes: whether STEP_END may go on. The roots that the row names are those that the gather's
cells have brought; where it names others, none, or too few, it waits for what they bring. -/
def audit (slot : Nat) (roots : List (List Byte)) (h : Hw) : Bool × Hw :=
  if (auditGroup h).size = 0 then (true, setReg h 0x600020 2)
  else
    let b := if (h.colls.any fun c => c.slot = slot) || h.ckpt.gathered.isSome then (false, h) else beginAudit slot h
    if b.1 then b
    else
      let h := advanceColl 64 b.2 slot
      match h.ckpt.gathered with
      | none => (false, h)
      | some rs =>
        if roots ≠ [] ∧ rs ≠ [] ∧ roots ≠ rs then (false, h)
        else
          let h := { h with ckpt := { h.ckpt with gathered := none } }
          if rs = [] then (true, h) else compareRoots (auditGroup h).rank rs h

/-- STEP_END completes (R270): the step is closing until the final record, which closes it (closesStep). -/
def closeStep (slot : Nat) (h : Hw) : Hw :=
  let d1 := (stepSkip h).toNat + 2 * (regBit h rTrainStatus 2).toNat + 4 * (regBit h rTrainStatus 3).toNat +
    enc2 8 (liveExp h) * 2 ^ 8 + enc2 8 (nextExp h) * 2 ^ 16
  finish h slot 0 (stepNum h) d1

def stepEndWork (slot : Nat) (roots : List (List Byte)) (c : Cmd) (h : Hw) : Hw :=
  let h := if c.priv = [] then startClosing slot c h else h
  match cmdAt h slot with
  | none => h
  | some c =>
    match c.priv with
    | [1] =>
      if !drained h slot then h
      else if !auditDue h then closeStep slot h
      else match audit slot roots h with
        | (true, h) => closeStep slot h
        | (false, h) => if regBit h 0x600000 2 then modCmd h slot fun c => { c with priv := [2] } else h
    | [2] => if regBit h 0x600000 2 then h else closeStep slot h
    | _ => finish h slot 0x11 stateBad 0

def execStepEnd (slot : SlotId) (roots : List (List Byte)) (s : State) : Host.Outcome State Fault Refusal :=
  onHw (withCmd slot.val 0x82 fun c => inTrainWorld slot.val c (stepEndWork slot.val roots c)) s

/-! LOSS_SCALE_CHECK (R279, R280) -/

def specLossScale : PSpec := { len := 0 }

/-- The decision, given the overflow it rests on. -/
def decideScale (slot : Nat) (ovf : Bool) (h : Hw) : Hw :=
  let live := liveExp h
  let h := setRegBit h rTrainStatus 6 true
  let iv := regFld h 0x170128 15 0
  let run := min (h.train.cleanRun + 1) (2 ^ 32 - 1)
  let double := !ovf && iv ≠ 0 && decide (iv ≤ run)
  let next := if ovf then max (live - 1) (floorExp h) else if double then min (live + 1) (ceilExp h) else live
  let h := setNextExp h next
  let h := setCleanRun h (if ovf || double then 0 else run)
  let h := if ovf then bumpSat (setRegBit h rTrainStatus 5 true) 0x170018 1 else h
  let d0 := ovf.toNat + (ovf && decide (next = live)).toNat * 2 + (decide (live < next)).toNat * 4 +
    enc2 8 live * 2 ^ 8 + enc2 8 next * 2 ^ 16
  finish h slot 0 d0 h.train.cleanRun

def lossScaleWork (slot : Nat) (h : Hw) : Hw :=
  if !stepOpen h ∨ stepDecided h then finish h slot 0x11 stateBad 0
  else if regBit h 0x170120 0 then
    if regBit h rTrainStatus 4 ∨ getReg h 0x170014 = 0 then
      finishErr (setRegBit h rTrainStatus 8 true) slot 0x52 0 0 0x0B 1 0 0
    else decideScale slot (regBit h rTrainStatus 3) h
  else decideScale slot (regBit h rTrainStatus 2) h

def execLossScaleCheck (slot : SlotId) (s : State) : Host.Outcome State Fault Refusal :=
  onHw (withCmd slot.val 0x80 fun c => inTrainWorld slot.val c (lossScaleWork slot.val)) s

/-! TRAIN_COMMIT (R293) -/

def trainCauses (h : Hw) (w : World) : List (Nat × Nat) :=
  let f := sext 8 (regFld h 0x170104 7 0)
  let c := sext 8 (regFld h 0x170104 15 8)
  let out := fun (e : Int) => e < -126 || 126 < e
  (if c < f then [(1, 0)] else []) ++ (if out f || out c then [(2, 0)] else []) ++
  (if w = .nonSecure ∧ regBit h 0x170100 31 ≠ regBit h 0x170120 31 then [(3, 0)] else [])

def trainCommitHw (w : World) (h : Hw) : Hw :=
  match firstCause (trainCauses h w) with
  | some c => rejectSet h 0x170144 c.1 0 0
  | none =>
    let s := snapSet h 0x170100 0x170120 7
    setRegBit { h with train := { h.train with pendingSet := some s },
                       fabric := { h.fabric with heldTrain := false } } rTrainStatus 7 true

def execTrainCommit (w : World) (s : State) : Host.Outcome State Fault Refusal :=
  onHw (ifAnswers w 0x170140 (.trainCommit w) (trainCommitHw w)) s

/-! UPDATE (R282-R291) -/

def upOpt (p : List Byte) : Nat := parBits p 0xC 1 0
def upG (p : List Byte) : Nat := par p 0xD 1
def upWc (p : List Byte) : Nat := par p 0xE 1
def upHyper (p : List Byte) (off : Nat) : Num := fp32.decode (par p off 4)

/-- Hyperparameters that an OPT does not use must be 0 (R282). -/
def upUnused (opt : Nat) : List Nat :=
  if opt = 0 then [] else if opt = 1 then [0x18, 0x1C, 0x24, 0x28] else [0x1C, 0x24, 0x28]

def updateExtra (_ : Hw) (_ : World) (p : List Byte) : List Nat :=
  (if upOpt p = 3 ∨ !(upG p = 4 ∨ upG p = 5) ∨ !([0, 2, 3, 4, 5].contains (upWc p)) then [0x4C] else []) ++
  ((upUnused (upOpt p)).filter fun o => par p o 4 ≠ 0).map (fun o => 0x40 + o) ++
  (if par p 0x48 8 = 0 then [0x88] else [])

/-- Parameters of UPDATE (Table 11-4); HOLD and SKIP_ON_OVF are its OPFLAGS. -/
def specUpdate : PSpec :=
  { len := 2, flags := 3,
    fields := [fQ 0, fWMax 8 31 0 4096, fV 0xC 1 0, fV 0xC 23 8, fMax 0xC 29 24 47, fV 0x10 31 0, fV 0x14 31 0,
      fV 0x18 31 0, fV 0x1C 31 0, fV 0x20 31 0, fV 0x24 31 0, fV 0x28 31 0, fV 0x2C 31 0, fV 0x30 15 0, fQ 0x38,
      fQ 0x40, fQ 0x48],
    aligns := [(0x40, 8, 64), (0x78, 8, 8), (0x80, 8, 8), (0x88, 8, 4096)],
    extra := updateExtra }

/-- Fields of a segment entry, from 0x08 on (Table 11-5). -/
def upMhi : Nat := 0
def upMext : Nat := 1
def upGrad : Nat := 2
def upMom1 : Nat := 3
def upMom2 : Nat := 4
def upCopy : Nat := 5
def upPark : Nat := 6

/-- The operands of a segment by Table 11-5; the park of a DEEP 0 segment may be 0. -/
def updateRule (p : List Byte) : SegRule :=
  let park := PawnOperand.mk upPark 256 .rmw
  { wordMask := 0x11F, fields := 7,
    operands := fun g =>
      if g.deep then [PawnOperand.mk upGrad 64 .rd, park]
      else
        [PawnOperand.mk upMhi 128 .rmw, PawnOperand.mk upMext 64 .rmw, PawnOperand.mk upGrad 64 .rd,
         PawnOperand.mk upMom1 128 .rmw] ++
        (if upOpt p = 0 then [PawnOperand.mk upMom2 128 .rmw] else []) ++
        (if upWc p = 0 then [] else [PawnOperand.mk upCopy (4 * containerBits (upWc p)) .wr]) ++ [park],
    optional := fun _ => [upPark],
    extra := fun g => if g.deep && g.base upPark = 0 then some 4 else none }

/-- A result rounded once under the weight role (R285), with its flags: NAN_GEN where a NaN arises from none. -/
def upRound (code : Nat) (ops : List Num) (x : Num) : Num × Nat :=
  let c := convert code false none x
  ((ffmtOf code).elim numZero (fun f => f.decode c.bits),
    c.flags ||| (if x.isNan && !(ops.any Num.isNan) then nanGen else 0))

def one : Num := .fin false 1 0

def sgnNum (c : Num) : Num :=
  if c.isNan then .nan else if c.isZero then numZero else .fin c.isNeg 1 0

/-- The hyperparameters of UPDATE (R282). -/
structure UpHyper where
  lr : Num
  b1 : Num
  b2 : Num
  eps : Num
  wd : Num
  bc1 : Num
  bc2 : Num

def upHypers (p : List Byte) : UpHyper :=
  { lr := upHyper p 0x10, b1 := upHyper p 0x14, b2 := upHyper p 0x18, eps := upHyper p 0x1C,
    wd := upHyper p 0x20, bc1 := upHyper p 0x24, bc2 := upHyper p 0x28 }

/-- One element of R285: the new master, moments and flags from g, w, m and v. -/
def upStep (opt : Nat) (y : UpHyper) (g w m v : Num) : Num × Num × Num × Nat :=
  let decay := fun (u : Num) => w.sub (y.lr.mul (u.add (y.wd.mul w)))
  match opt with
  | 0 =>
    let m1 := upRound 6 [y.b1, m, g] ((y.b1.mul m).add ((one.sub y.b1).mul g))
    let v1 := upRound 6 [y.b2, v, g] ((y.b2.mul v).add (((one.sub y.b2).mul g).mul g))
    let q := upRound 7 [v1.1, y.bc2] (v1.1.mul y.bc2).sqrt
    let dn := upRound 7 [q.1, y.eps] (q.1.add y.eps)
    let u := upRound 7 [m1.1, y.bc1, dn.1] ((m1.1.mul y.bc1).div dn.1)
    let w1 := upRound 8 [w, y.lr, u.1, y.wd] (decay u.1)
    (w1.1, m1.1, v1.1, m1.2 ||| v1.2 ||| q.2 ||| dn.2 ||| u.2 ||| w1.2)
  | 1 =>
    let m1 := upRound 6 [y.b1, m, g] ((y.b1.mul m).add g)
    let w1 := upRound 8 [w, y.lr, m1.1, y.wd] (decay m1.1)
    (w1.1, m1.1, v, m1.2 ||| w1.2)
  | _ =>
    let c := (y.b1.mul m).add ((one.sub y.b1).mul g)
    let w1 := upRound 8 [w, y.lr, y.b1, m, g, y.wd] (decay (sgnNum c))
    let m1 := upRound 6 [y.b2, m, g] ((y.b2.mul m).add ((one.sub y.b2).mul g))
    (w1.1, m1.1, v, w1.2 ||| m1.2)

/-- The intake of R284. -/
def upIntake (gexp live : Int) (gmul park g16 : Num) : Num × Nat :=
  let gs := (g16.scale (gexp - live)).mul gmul
  let s := park.add gs
  let r := roundW40 s
  (r.1, r.2 ||| (if s.isNan && !([park, g16, gmul].any Num.isNan) then nanGen else 0))

/-- An M48 value from its planes; an infinite or NaN high plane ignores the extension (R96). -/
def m48Num (hi ext : Nat) : Num := m48.decode (hi * 2 ^ 16 + if hi / 2 ^ 23 % 256 = 255 then 0 else ext)

/-- The planes of the master that leave digests: field, bits per element, elements of a row (R286). -/
def upPlanes : List (Nat × Nat × Nat) := [(upMhi, 32, 256), (upMext, 16, 512)]

/-- Only DEEP 0 segments have master rows (R286): the others count none. -/
def masterSegs (gs : List PawnSeg) : List PawnSeg := gs.map fun g => if g.deep then { g with count := 0 } else g

/-- The leaves of the rows of a plane that a unit writes, by the number of their row in the work area; none for a row
that holds poison (R202, R219). -/
def planeLeaves (gs : List PawnSeg) (seg i n plane : Nat) (bytes : List Byte) (bad : List Bool) :
    List (Nat × Option (List Byte)) :=
  let ms := masterSegs gs
  let (_, bits, per) := upPlanes.getD plane (0, 32, 256)
  let before := if plane = 0 then 0 else segRow ms 256 ms.length
  (pieces per i n).map fun q =>
    let row := segRow ms per seg + q.1 / per
    let hurt := (List.range q.2).any fun e => bad.getD (q.1 - i + e) false
    (before + row, if hurt then none else some (leafHash row (slice bytes ((q.1 - i) * bits / 8) (q.2 * bits / 8))))

/-- One unit of UPDATE: up to 1,024 consecutive pawn-local elements (R289). An output element is poisoned where an
element it is computed from is (R202, R285): the cleared park is computed from none. -/
def updateUnit (slot : Nat) (c : Cmd) (a : PawnAt) (gs : List PawnSeg) (seg i n : Nat) : Run PawnStep := do
  let p := c.packet
  let g := (gs[seg]?).getD (PawnSeg.mk 0 0 false [])
  let base0 := segBase gs seg
  let get_ := fun (f bits : Nat) (b : Bool) =>
    if b then readPawn a (g.base f) bits base0 i n else pure .none
  let hasPark := decide (g.base upPark ≠ 0)
  let hi ← get_ upMhi 32 (!g.deep)
  let ext ← get_ upMext 16 (!g.deep)
  let gr ← get_ upGrad 16 true
  let m1 ← get_ upMom1 32 (!g.deep)
  let m2 ← get_ upMom2 32 (!g.deep && upOpt p = 0)
  let pk_ ← get_ upPark 64 hasPark
  let h ← get
  let park := fun e => if hasPark then elemNum 7 pk_.bytes e else numZero
  let ins := (List.range n).map fun e =>
    upIntake (sext 8 (par p 0x30 1)) (liveExp h) (upHyper p 0x2C) (park e) (elemNum (upG p) gr.bytes e)
  let from_ := fun (rs : List PawnRead) => (List.range n).map fun e => rs.any fun r => r.bad.getD e false
  let rs := [hi, ext, gr, m1, m2, pk_]
  notePoison slot (lowest rs)
  let have_ := rs.flatMap PawnRead.rows
  let gFlags := ins.foldl (fun f x => f ||| x.2) 0
  if g.deep then
    pure { have_ := have_, flags := gFlags
           outs := [PawnOut.mk (g.base upPark) 64 (packElems 7 (ins.map fun x => w40.bitsOf x.1)) (from_ [gr, pk_])] }
  else
    let y := upHypers p
    let res := (List.range n).map fun e =>
      upStep (upOpt p) y (ins.getD e (numZero, 0)).1
        (m48Num (elemBits 6 hi.bytes e) (leAt ext.bytes (2 * e) 2))
        (elemNum 6 m1.bytes e) (if upOpt p = 0 then elemNum 6 m2.bytes e else numZero)
    let w := res.map fun r => m48.bitsOf r.1
    let copy := res.map fun r => convert (upWc p) false none (r.1.scale (sext 8 (par p 0x31 1)))
    let wBad := from_ rs
    let hiBytes := packElems 6 (w.map (· / 2 ^ 16))
    let extBytes := w.flatMap fun x => leBytes 2 x
    let outs :=
      (if hasPark then [PawnOut.mk (g.base upPark) 64 (List.replicate (8 * n) 0) []] else []) ++
      [PawnOut.mk (g.base upMhi) 32 hiBytes wBad, PawnOut.mk (g.base upMext) 16 extBytes wBad,
       PawnOut.mk (g.base upMom1) 32 (packElems 6 (res.map fun r => fp32.bitsOf r.2.1)) (from_ [m1, gr, pk_])] ++
      (if upOpt p = 0 then
        [PawnOut.mk (g.base upMom2) 32 (packElems 6 (res.map fun r => fp32.bitsOf r.2.2.1)) (from_ [m2, gr, pk_])] else []) ++
      (if upWc p = 0 then [] else
        [PawnOut.mk (g.base upCopy) (containerBits (upWc p)) (packElems (upWc p) (copy.map Conv.bits)) wBad])
    let cf := if upWc p = 0 then 0 else copy.foldl (fun f x => f ||| x.flags) 0
    let dig := par p 0x38 8
    let ls := if dig = 0 ∧ par p 0x40 8 = 0 then [] else
      planeLeaves gs seg i n 0 hiBytes wBad ++ planeLeaves gs seg i n 1 extBytes wBad
    let good := ls.filterMap fun l => l.2.map fun b => (l.1, b)
    pure { outs := outs, have_ := have_
           flags := res.foldl (fun f r => f ||| r.2.2.2) (gFlags ||| cf)
           work := if dig = 0 then [] else good.map fun l => (resultsAt + 32 * l.1, l.2)
           leaves := if dig = 0 then good else []
           lost := (ls.filter fun l => l.2.isNone).map Prod.fst }

/-- Stack offsets of the memory units of virtual extents, as far as they translate. -/
def extentKeys (who : Who) (es : List (Nat × Nat)) (h : Hw) : List Nat :=
  es.flatMap fun e => (pieces 65536 e.1 e.2).filterMap fun p =>
    match (translate h who p.1 .rd).1 with
    | .ok false pa => (match decodePa h pa with
      | .hbm s y => some (hbmKey s y)
      | _ => none)
    | _ => none

/-- The extents of a notation set (R331), as far as they can be read. -/
def setExtents (who : Who) (addr n : Nat) : Run (List (Nat × Nat)) :=
  (List.range n).mapM fun i => do
    let d ← rd who (addr + 16 * i) 16
    pure (leAt d 0 8, leAt d 8 8)

/-- The outputs of an UPDATE, 2 MiB stripes, overlap extents. -/
def stripesMeet (outs : List Nat) (keys : List Nat) : Bool :=
  keys.any fun k => outs.contains (k / stripeBytes * stripeBytes)

/-- An UPDATE waits before its first row step for a live NOTATE that has not read its set, and for a pending
divergence refresh, of what it writes (R339). A NOTATE reads its whole set in one command of this model, and is at stage
3 from then on. -/
def updateWaits (h : Hw) (outs : List Nat) : Bool :=
  (h.slots.any fun e => e.2.opcode = 0x90 && e.2.phase = .running && decide (e.2.priv.headD 0 < 3) &&
    (match runOn (setExtents (whoOf e.1 e.2) (par e.2.packet 0 8) (par e.2.packet 8 4)) h with
     | (.ok es, _) => stripesMeet outs (extentKeys (whoOf e.1 e.2) es h)
     | _ => false)) ||
  (regBit h 0x600000 2 &&
    (match runOn (do
        let es ← shardEntries h
        let gs ← es.mapM fun e => (List.range e.2.2).mapM fun i => do
          let d ← rd (noteWho h) (e.2.1 + 64 * i) 64
          pure (parseSeg 7 d)
        pure gs.flatten) h with
     | (.ok gs, _) =>
       stripesMeet outs (extentKeys (noteWho h) ((gs.filter fun g => !g.deep).flatMap fun g =>
         [(g.base upMhi, stripesOf g.count 32 * stripeBytes), (g.base upMext, stripesOf g.count 16 * stripeBytes)]) h)
     | _ => false))

def deepSegs (gs : List PawnSeg) : Nat := (gs.filter fun g => g.deep && g.count ≠ 0).length

/-- What UPDATE writes, where one written operand, or the work area, overlaps another operand (R283). -/
def updateUndef (p : List Byte) (gs : List PawnSeg) (work : Nat × Nat) : List (Nat × Nat) :=
  let areas := gs.flatMap fun g => (((updateRule p).operands g).filter fun o => g.base o.field ≠ 0).map fun o =>
    (decide (o.acc ≠ .rd), pawnRanges (g.base o.field) (o.q / 4) g.count)
  let n := areas.length
  let at_ := fun i => areas.getD i (false, [])
  if (areas.any fun x => rangesMeet [work] x.2) ||
      (List.range n).any fun i => (at_ i).1 && (List.range n).any fun j => i ≠ j && rangesMeet (at_ i).2 (at_ j).2
  then (areas.filter Prod.fst).flatMap Prod.snd else []

/-- Logical rows of the two master planes. -/
def masterRows (gs : List PawnSeg) : Nat × Nat :=
  let ms := masterSegs gs
  (segRow ms 256 ms.length, segRow ms 512 ms.length)

/-- The digest record is due: masters are updated, and DIG_ADDR names a place (R286). -/
def digestDue (p : List Byte) (gs : List PawnSeg) (off : Nat) : Bool :=
  decide (par p off 8 ≠ 0) && decide ((masterRows gs).1 ≠ 0)

/-- The work area (R289). -/
def updateArea (p : List Byte) (gs : List PawnSeg) : Nat × Nat :=
  (par p 0x48 8, resultsAt + if par p 0x38 8 = 0 then 0 else 32 * ((masterRows gs).1 + (masterRows gs).2))

/-- Where UPDATE writes results: the digest record, and the level nodes of both planes. -/
def updateResults (p : List Byte) (gs : List PawnSeg) : List (Nat × Nat) :=
  let j := parBits p 0xC 29 24
  let rows := masterRows gs
  (if digestDue p gs 0x38 then [(par p 0x38 8, 64)] else []) ++
  (if digestDue p gs 0x40 then [(par p 0x40 8, 32 * (nodeCount rows.1 j + nodeCount rows.2 j))] else [])

/-- The elements of every operand that UPDATE writes. -/
def updateOuts (p : List Byte) (gs : List PawnSeg) : List (Nat × Nat) :=
  gs.flatMap fun g => (((updateRule p).operands g).filter fun o => g.base o.field ≠ 0 && o.acc ≠ .rd).flatMap fun o =>
    pawnRanges (g.base o.field) (o.q / 4) g.count

/-- The leaves of rows k to k + n of the master planes: from the work area, or kept where it has no room for them. -/
def updateLeaves (slot : Nat) (c : Cmd) (k n : Nat) : Run (List (Option (List Byte))) := do
  let now := (cmdAt (← get) slot).getD c
  if par c.packet 0x38 8 = 0 then
    pure ((List.range n).map fun r => (now.leaves.find? fun l => l.1 = k + r).map Prod.snd)
  else rdLeaves (whoOf slot c) (par c.packet 0x48 8) k n now.lost

/-- The digest record and the level nodes of both planes (R286), and the status. -/
def updateFinal (slot : Nat) (c : Cmd) (gs : List PawnSeg) : Run (Nat × Nat × Nat) := do
  let p := c.packet
  let who := whoOf slot c
  let dig := par p 0x38 8
  let node := par p 0x40 8
  let rows := masterRows gs
  if digestDue p gs 0x38 ∨ digestDue p gs 0x40 then
    let hi ← updateLeaves slot c 0 rows.1
    let ext ← updateLeaves slot c rows.1 rows.2
    let hurt := ((cmdAt (← get) slot).map Cmd.priv).getD [] ≠ []
    let roots := match rootOfLeaves hi, rootOfLeaves ext with
      | some a, some b => if dig ≠ 0 ∧ !hurt then some (a ++ b) else none
      | _, _ => none
    let j := parBits p 0xC 29 24
    let nodes := if node = 0 then [] else levelNodes j hi ++ levelNodes j ext
    if roots.isSome then mayWrite who dig 64
    mayNodes who node nodes
    match roots with
    | some bs => wr who dig bs
    | none => pure ()
    writeNodes who node nodes
  let parked := deepSegs gs
  pawnEnd slot gs (parked * 2 ^ 32) (if parked = 0 then 0 else 0x23)

/-- Row steps of a unit of UPDATE (Table 11-6). -/
def updateSteps (p : List Byte) (g : PawnSeg) : Nat :=
  if g.deep then 18
  else (if upOpt p = 0 then 30 else 22) + containerBits (upWc p) / 8 + (if g.base upPark = 0 then 0 else 16)

def updateJob (slot : Nat) (c : Cmd) : PawnJob :=
  let p := c.packet
  let who := whoOf slot c
  { segs := readSegs who (par p 0 8) (par p 8 4) (updateRule p)
    check := checkSegs who (updateRule p)
    undef := fun gs => updateUndef p gs (updateArea p gs)
    waits := updateWaits
    per := 1024
    steps := updateSteps p
    unit := updateUnit slot c
    work := updateArea p
    outs := updateOuts p
    results := updateResults p
    stored := true
    final := updateFinal slot c }

/-- SKIP_ON_OVF comes before R206 (R287). -/
def updateRun (slot : Nat) (c : Cmd) (h : Hw) : Hw :=
  if (hOpflags c.packet).testBit 1 ∧ c.segs.isNone then
    if !(stepOpen h || stepClosing h) ∨ !stepDecided h then finish h slot 0x11 stateBad 0
    else if stepSkip h then finish h slot 0x50 0 0
    else pawnRun slot (updateJob slot c) c h
  else pawnRun slot (updateJob slot c) c h

def execUpdate (slot : SlotId) (s : State) : Host.Outcome State Fault Refusal :=
  onHw (withCmd slot.val 0x61 (updateRun slot.val)) s

end Sys2Proof.Machine
end

