-- ==== Sys2Proof/Machine/Checkpoint.lean ====
section
/-! DEFINITION. Checkpoints: the reserve and its slots (R335, R336), NOTATE, RESTORE, VERIFY (R331-R343), the CKPT
row, divergence refresh (R346) and the notation block's commits (R349). -/

namespace Sys2Proof.Machine

/-! The reserve -/

/-- RES in GiB for a RESERVE_PCT (R335). -/
def reserveGib (pct : Nat) : Nat := 2304 * pct / 100

def recvPorts (h : Hw) : List Nat := (List.range 12).filter fun q => regBit h 0x600144 q

/-- SLOT_GIB (R336). -/
def slotGib (h : Hw) : Nat := reserveGib (regFld h 0x600144 23 16) / (2 * (recvPorts h).length)

/-- Where a slot begins. DESIGN CHOICE (log 28): slots lie in port order, two by two, from the reserve's start. -/
def slotBase (h : Hw) (q half : Nat) : Nat :=
  hbmEnd - reserveGib (regFld h 0x600144 23 16) * GiB +
    (2 * ((recvPorts h).takeWhile fun x => x ≠ q).length + half) * slotGib h * GiB

/-- Bytes at a device physical address, unless a codeword among them is poisoned. -/
def peekPa (h : Hw) (pa n : Nat) : Option (List Byte) :=
  let ps := (pieces 64 pa n).map fun p => match decodePa h p.1 with
    | .hbm s y => if isPoison h (cwOf s y) then none else some (h.mem.readN .hbm (hbmKey s y) p.2)
    | _ => none
  if ps.all Option.isSome then some (ps.filterMap id).flatten else none

/-- A piece record is valid when its REC_DIG holds (R333). -/
def recordOk (r : List Byte) : Bool := slice r 0x60 32 == shake256 (slice r 0 0x60) 32

/-- The valid record of a slot. -/
def slotRecord (h : Hw) (q half : Nat) : Option (List Byte) :=
  if slotGib h = 0 then none
  else match peekPa h (slotBase h q half) 128 with
    | some r => if recordOk r then some r else none
    | none => none

def slotsValid (h : Hw) : Nat :=
  ((recvPorts h).map fun q => (slotRecord h q 0).isSome.toNat + (slotRecord h q 1).isSome.toNat).foldl (· + ·) 0

/-- Invalidates a slot: its header area is cleared. -/
def clearSlot (h : Hw) (q half : Nat) : Hw :=
  if slotGib h = 0 then h else (writePa h (castle .secure) (slotBase h q half) (List.replicate 4096 0)).2

/-- The slot of a port that an open request fills: the one without the newest valid record (R336). -/
def freeHalf (h : Hw) (q : Nat) : Nat :=
  match slotRecord h q 0, slotRecord h q 1 with
  | none, _ => 0
  | some _, none => 1
  | some a, some b => if leAt a 0 8 < leAt b 0 8 then 0 else 1

def ckptCell (m : CkptMsg) : Cell := blankCell 9 (.ckpt m)

def rxHalf (h : Hw) (q : Nat) : Option Nat := (h.ckpt.rx.find? fun x => x.port = q).map CkptRx.half

def setRx (h : Hw) (q : Nat) (x : Option Nat) : Hw :=
  { h with ckpt := { h.ckpt with
      rx := (h.ckpt.rx.filter fun r => r.port ≠ q) ++ (x.map fun b => CkptRx.mk q b).toList } }

/-- Where byte pos of a stored piece lies in its slot (R333). -/
def pieceAt (pos : Nat) : Nat := if pos < 64 then 0x80 + pos else 0x1000 + (pos - 64)

/-- Stores bytes of a stored piece: the preamble and the units have places of their own. -/
def storePiece (h : Hw) (q half pos : Nat) (bs : List Byte) : Hw :=
  let head := bs.take (64 - pos)
  let rest := bs.drop (64 - pos)
  let base := slotBase h q half
  let h := (writePa h (castle .secure) (base + pieceAt pos) head).2
  (writePa h (castle .secure) (base + pieceAt (pos + head.length)) rest).2

/-- The stored bytes of a piece leave in cells. -/
def sendUnits (h : Hw) (q : Nat) (stored : List Byte) : Hw :=
  let cs := chunksOf 240 stored
  (List.range cs.length).foldl (fun h i => sendCell h q (ckptCell (.units (240 * i) (cs.getD i [])))) h

/-- The stored piece in a slot, preamble and units; none where it is not valid or holds poison (R333). -/
def slotPiece (h : Hw) (q half : Nat) : Option (List Byte) :=
  (slotRecord h q half).bind fun r =>
    (peekPa h (slotBase h q half + 0x80) 64).bind fun head =>
      (peekPa h (slotBase h q half + 0x1000) (66048 * leAt r 0x14 4)).map fun us => head ++ us

/-- The slot of a port that holds a generation. -/
def halfOf (h : Hw) (q resume : Nat) : Option Nat :=
  [0, 1].find? fun i => (slotRecord h q i).any fun r => leAt r 0 8 = resume

/-- What a buddy finds of a piece it re-reads (R343): its digest, where every unit's check bits hold. -/
def pieceDigest (bs : List Byte) : Option (List Byte) :=
  let n := (bs.length - 64) / 4128
  if preambleOk (bs.take 64) && (List.range n).all fun u => unitOk (leAt bs 0 8) u (slice bs (64 + 4128 * u) 4128)
  then some (shake256 bs 32) else none

/-- A CKPT cell (R336): open request, stored bytes, record; and what a buddy answers a RESTORE and a VERIFY (R342,
R343). Answers to this package's own requests reach its NOTATE, RESTORE and VERIFY rows. -/
def ckptIn (q : Nat) (c : Cell) (h : Hw) : Hw :=
  let h := freeBuffer h q 2
  match c.payload with
  | .ckpt (.openSlot n) =>
    if !(recvPorts h).contains q then sendCell h q (ckptCell (.reply false))
    else
      let half := freeHalf h q
      let h := clearSlot h q half
      let fits := decide (n + 4032 ≤ slotGib h * GiB)
      let h := setRx h q (if fits then some half else none)
      sendCell h q (ckptCell (.reply fits))
  | .ckpt (.units pos bs) =>
    (match rxHalf h q with
     | none => h
     | some half => if pos + bs.length + 4032 ≤ slotGib h * GiB then storePiece h q half pos bs else h)
  | .ckpt (.record r) =>
    (match rxHalf h q with
     | none => sendCell h q (ckptCell (.reply false))
     | some half =>
       let h := (writePa h (castle .secure) (slotBase h q half) (slice r 0 128)).2
       sendCell (setRx h q none) q (ckptCell (.reply true)))
  | .ckpt .askRecords =>
    [0, 1].foldl (fun h i => sendCell h q (ckptCell (.held i (slotRecord h q i)))) h
  | .ckpt (.askPiece n) =>
    (match (halfOf h q n).bind (slotPiece h q) with
     | none => sendCell h q (ckptCell (.reply false))
     | some bs => sendUnits h q bs)
  | .ckpt (.askDigest n) =>
    sendCell h q (ckptCell (.digest (((halfOf h q n).bind (slotPiece h q)).bind pieceDigest)))
  | _ => h

def execCkpt (q : PortId) (c : Cell) (s : State) : Host.Outcome State Fault Refusal :=
  onHw (arriveSeq 9 q.val c (ckptIn q.val)) s

/-! NOTATE -/

def noteSecure (h : Hw) (_ : List Byte) : Bool := regBit h 0x600140 31

def specNotate : PSpec :=
  { len := 1, fields := [fQ 0, fWMax 8 31 0 1024, fMax 0xC 7 0 63], aligns := [(0x40, 8, 16)], secure := noteSecure }

def specRestore : PSpec :=
  { len := 1, fields := [fQ 0, fWMax 8 31 0 1024, fMax 0xC 7 0 63, fQ 0x10], aligns := [(0x40, 8, 16)],
    secure := noteSecure }

def specVerify : PSpec := { len := 1, fields := [fQ 0], secure := noteSecure }

def noteValid (h : Hw) : Bool := regBit h 0x600140 23

/-- The port of a piece (R334). -/
def piecePort (h : Hw) (i : Nat) : Nat := regFld h 0x600140 (4 * i + 3) (4 * i)

/-- The notation set, its extents translated and pinned (R331, R338 step 1, R360). -/
def readSet (slot : Nat) (who : Who) (addr n : Nat) (acc : Acc) : Run (List (Nat × Nat)) := do
  let es ← setExtents who addr n
  for i in List.range es.length do
    let e := es.getD i (0, 0)
    if e.1 % 65536 ≠ 0 ∨ e.2 % 65536 ≠ 0 ∨ e.2 = 0 then structFail 1 i (addr + 16 * i)
  pinRanges slot who acc es
  pure es

/-- The training record, unit 0 of the stream (R332). -/
def trainRecord (ws : List Nat) : List Byte :=
  let r := leBytes 8 (ws.getD 0 0) ++ (ws.drop 1).flatMap (leBytes 4)
  r ++ List.replicate (65536 - r.length) 0

def zeroUnit : List Byte := List.replicate 65536 0

/-- Quarter q of a stream of units (R332). -/
def quarter (us : List (List Byte)) (q : Nat) : List (List Byte) :=
  (List.range (ceilDiv us.length 4)).map fun p => us.getD (4 * p + q) zeroUnit

def xorUnits (a b : List Byte) : List Byte := List.zipWith (· ^^^ ·) a b

/-- The parity piece: the XOR of the quarters, unit by unit. -/
def parityOf (qs : List (List (List Byte))) : List (List Byte) :=
  (List.range ((qs.headD []).length)).map fun i =>
    qs.foldl (fun acc q => xorUnits acc (q.getD i zeroUnit)) zeroUnit

/-- A stored piece (R333). -/
def storedPiece (k : EgressKey) (nonce key : Nat) (us : List (List Byte)) : List Byte :=
  let plain := us.flatten
  let cs := chunksOf 4096 plain
  preamble nonce plain.length 0 0 key ++
    (List.range cs.length).flatMap fun u => sealUnit k nonce u (cs.getD u [])

/-- A piece record (Table 13-1). -/
def pieceRecord (resume serial piece key q u : Nat) (streamDig stored : List Byte) : List Byte :=
  let a := leBytes 8 resume ++ leBytes 8 serial ++ leBytes 1 piece ++ leBytes 1 key ++ leBytes 2 0 ++ leBytes 4 q ++
    leBytes 4 u ++ leBytes 4 0 ++ streamDig ++ shake256 stored 32
  a ++ shake256 a 32

/-- Running UPDATEs that write extents of the set have written their final records (R338 step 3). -/
def updatesOver (h : Hw) (keys : List Nat) : Bool :=
  !(h.slots.any fun e => e.2.opcode = 0x61 && decide (0 < e.2.doneUnits) && stripesMeet e.2.outs keys)

/-- The first of the five ports that is not UP. -/
def buddyLost (h : Hw) : Option Nat := ((List.range 5).map (piecePort h)).find? fun q => !portUp h q

/-- Pairs from a flat list, and back: the extents that a checkpoint command has read. -/
def pairsOf : List Nat → List (Nat × Nat)
  | a :: b :: r => (a, b) :: pairsOf r
  | _ => []

def flatPairs (es : List (Nat × Nat)) : List Nat := es.flatMap fun e => [e.1, e.2]

/-- The words of a NOTATE's training record, and its extents (priv: its stage, then these). -/
def noteRecordWords (c : Cmd) : List Nat := (c.priv.drop 1).take 5
def noteExtents (c : Cmd) : List (Nat × Nat) := pairsOf (c.priv.drop 6)

def setStage (h : Hw) (slot n : Nat) : Hw := modCmd h slot fun c => { c with priv := n :: c.priv.drop 1 }

/-- Steps 1 and 2 of R338: the set and what forbids a NOTATE now. -/
def noteCheck (slot : Nat) (c : Cmd) : Run (List (Nat × Nat)) := do
  let p := c.packet
  match egressRefusal (← get) c.world (par p 0xC 1) 0x4C with
  | some r => throw (.stop r.1 r.2 0)
  | none => pure ()
  let es ← readSet slot (whoOf slot c) (par p 0 8) (par p 8 4) .rd
  let h ← get
  if stepOpen h && (stepDecided h || h.train.updateSeen) then structFail 4 0 0
  if !noteValid h then structFail 2 0 0
  match buddyLost h with
  | some q => throw (.stop 0x40 q 0)
  | none => pure es

/-- Units of the stream and of a piece: U and Q (R332). -/
def noteUnits (es : List (Nat × Nat)) : Nat := 1 + (es.map fun e => e.2 / 65536).sum
def noteQ (es : List (Nat × Nat)) : Nat := ceilDiv (noteUnits es) 4

/-- Bytes of a stored piece (R333). -/
def pieceBytes (q : Nat) : Nat := 64 + 66048 * q

/-- The five stored pieces with their records, each under a NONCE of its own (R332, R333). -/
def notePieces (slot serial : Nat) (c : Cmd) : Run (List (List Byte × List Byte)) := do
  let key := par c.packet 0xC 1
  let es := noteExtents c
  let data ← es.mapM fun e => rd (whoOf slot c) e.1 e.2
  match egressKey (← get) key with
  | none => throw (.stop 0x11 0x4C 0)
  | some k => do
    if 2 ^ 64 - 1 < k.counter + 5 then throw (.stop 0x11 0x4C 0)
    modifyHw fun h => (List.range 5).foldl (fun h _ => (takeNonce h key).2) h
    let us := trainRecord (noteRecordWords c) :: chunksOf 65536 data.flatten
    let qs := (List.range 4).map (quarter us)
    let ps := qs ++ [parityOf qs]
    let dig := shake256 us.flatten 32
    pure ((List.range 5).map fun i =>
      let s := storedPiece k (k.counter + i) key (ps.getD i [])
      (s, pieceRecord ((noteRecordWords c).getD 0 0) serial i key (noteQ es) (noteUnits es) dig s))

/-- Stored bytes that a NOTATE sends. -/
def noteBytes (c : Cmd) : Nat := 5 * pieceBytes (noteQ (noteExtents c))

/-- The pieces leave, and NOTE_BYTES counts them; their records follow once every unit has reached its buddy (R341). -/
def sendPieces (slot : Nat) (c : Cmd) (xs : List (List Byte × List Byte)) (h : Hw) : Hw :=
  let h := (List.range 5).foldl (fun h i => sendUnits h (piecePort h i) ((xs.getD i ([], [])).1)) h
  let sent := h.ckpt.sentBytes + noteBytes c
  let h := setReg { h with ckpt := { h.ckpt with sentBytes := sent } } 0x600010 (BitVec.ofNat 32 (sent / 2 ^ 20))
  modCmd h slot fun c => { c with leaves := (List.range 5).map fun i => (i, (xs.getD i ([], [])).2) }

/-- Stored bytes of a piece still wait at a buddy's port, or for its acknowledgement (R301). -/
def unitsOut (h : Hw) : Bool :=
  (List.range 5).any fun i =>
    let a := portAux h (piecePort h i)
    (a.queue ++ a.replay).any fun c => match c.payload with
      | .ckpt (.units _ _) => true
      | _ => false

/-- The records leave (R336 step 4, R341). -/
def sendRecords (c : Cmd) (h : Hw) : Hw :=
  c.leaves.foldl (fun h x => sendCell h (piecePort h x.1) (ckptCell (.record x.2))) h

/-- All five buddies have acknowledged their records: NOTATE is done (R338 step 6). -/
def noteDone (slot : Nat) (c : Cmd) (h : Hw) : Hw :=
  let resume := (noteRecordWords c).getD 0 0
  let gen := (resume, c.leaves.map fun x => slice x.2 0x40 32)
  let h := { h with ckpt := { h.ckpt with gens := (gen :: h.ckpt.gens.filter (fun g => g.1 ≠ resume)).take 2 } }
  finish (setReg64 h 0x600008 resume) slot 0 resume (noteBytes c)

/-- What NOTATE reads is ordered with the UPDATEs that it has waited for (R338 step 3). -/
def afterUpdates (slot : Nat) (h : Hw) : Hw :=
  modCmd h slot fun c => { c with knows := c.knows ++ ((h.order.past.filter fun p => p.opcode = 0x61).map PastWrite.order) }

/-- NOTATE as far as it goes at its stage (R338), given which buddies have accepted the open request and which of them
have acknowledged their record: 0 its checks, 1 the UPDATEs before it and the open requests, 2 the pieces, 3 the records
once every unit has arrived, 4 its end. -/
def noteStep (slot serial : Nat) (accepted acked : List Bool) (h : Hw) : Hw :=
  match active h slot 0x90 with
  | none => h
  | some c =>
    match c.priv.headD 0, buddyLost h with
    | 0, _ =>
      (match runOn (noteCheck slot c) h with
       | (.error f, h') => takeFail h h' slot f
       | (.ok es, h) => modCmd h slot fun c => { c with priv := 1 :: noteRecordWords c ++ flatPairs es })
    | _, some q => failCmd h slot 0x40 q 0
    | 1, none =>
      if !updatesOver h (extentKeys (whoOf slot c) (noteExtents c) h) then h
      else
        let n := pieceBytes (noteQ (noteExtents c))
        let h := afterUpdates slot h
        setStage ((List.range 5).foldl (fun h i => sendCell h (piecePort h i) (ckptCell (.openSlot n))) h) slot 2
    | 2, none =>
      if accepted.length ≠ 5 then h
      else match (List.range 5).find? fun i => !accepted.getD i true with
        | some i => failCmd h slot 0x11 (2 ^ 63 + 3 * 2 ^ 48) (piecePort h i)
        | none => match runOn (notePieces slot serial c) h with
          | (.error f, h') => takeFail h h' slot f
          | (.ok xs, h) => setStage (sendPieces slot c xs h) slot 3
    | 3, none => if unitsOut h then h else setStage (sendRecords c h) slot 4
    | _, none =>
      if acked.length ≠ 5 then h
      else match (List.range 5).find? fun i => !acked.getD i true with
        | some i => failCmd h slot 0x40 (piecePort h i) 0
        | none => noteDone slot c h

/-- NOTATE: its record is that of its dispatch (R332). What it sends is answered in a later row; from its checks it goes
on to the open requests at once. -/
def notate (slot serial : Nat) (accepted acked : List Bool) (c : Cmd) (h : Hw) : Hw :=
  let h := if c.priv = [] then modCmd h slot fun c => { c with priv := 0 :: noteWords h } else h
  let h := noteStep slot serial accepted acked h
  if (cmdAt h slot).any fun c => c.priv.headD 0 = 1 then noteStep slot serial accepted acked h else h

def execNotate (slot : SlotId) (accepted acked : List Bool) (s : State) : Host.Outcome State Fault Refusal :=
  onHw (withCmd slot.val 0x90 (notate slot.val s.fuses.serial.toNat accepted acked)) s

/-! RESTORE -/

/-- What records must agree in: RESUME_STEP, SERIAL, Q, U, STREAM_DIG (R342). -/
structure Generation where
  resume : Nat
  serial : Nat
  q : Nat
  u : Nat
  dig : List Byte
  deriving DecidableEq, Repr

def generationOf (r : List Byte) : Generation :=
  Generation.mk (leAt r 0 8) (leAt r 8 8) (leAt r 0x14 4) (leAt r 0x18 4) (slice r 0x20 32)

def validRecords (a : BuddyAnswer) : List (List Byte) := a.records.filter recordOk

/-- The generation that RESTORE chooses: at least four buddies hold a valid record of it; the newest, or the one asked
for. -/
def chooseGen (answers : List BuddyAnswer) (gen : Nat) : Option Generation :=
  let all := answers.flatMap fun a => (validRecords a).map generationOf
  let good := all.filter fun g =>
    decide (4 ≤ (answers.filter fun a => (validRecords a).any fun r => generationOf r = g).length) &&
    (gen = 0 || g.resume = gen)
  match good with
  | [] => none
  | g :: gs => some (gs.foldl (fun m x => if m.resume < x.resume then x else m) g)

/-- The plaintext units of a piece, checked and decrypted: nothing where a check fails. -/
def openPiece (k : EgressKey) (q : Nat) (bs : List Byte) : Option (List (List Byte)) :=
  if preambleOk (slice bs 0 64) then
    let us := (List.range (16 * q)).map fun u => openUnit k (leAt bs 0 8) u (slice bs (64 + 4128 * u) 4128)
    if us.all Option.isSome then some (chunksOf 65536 (us.filterMap id).flatten) else none
  else none

/-- The pieces of a generation that the buddies hold: number and buddy. -/
def heldPieces (answers : List BuddyAnswer) (g : Generation) : List (Nat × Nat) :=
  (List.range answers.length).filterMap fun i =>
    ((answers[i]?).bind fun a => (validRecords a).find? fun r => generationOf r = g).map fun r => (leAt r 0x10 4 % 8, i)

/-- The four pieces that RESTORE asks for first: the quarters, with parity where one of them is held nowhere (R342 step
4). -/
def firstPieces (held : List (Nat × Nat)) : List Nat :=
  let qs := (List.range 4).filter fun i => (smFind held i).isSome
  if qs.length = 4 then qs else qs ++ [4]

/-- The pieces asked for that have arrived, by number. -/
def fetchedPieces (answers : List BuddyAnswer) (g : Generation) (asked : List Nat) : List (Nat × List Byte) :=
  (heldPieces answers g).filterMap fun x =>
    if asked.contains x.1 then ((answers[x.2]?).bind BuddyAnswer.piece).map fun bs => (x.1, bs) else none

/-- The quarters, rebuilt from parity where one is missing; the piece that fails otherwise. Quarters come first. -/
def rebuild (k : EgressKey) (g : Generation) (ps : List (Nat × List Byte)) : Except Nat (List (List (List Byte))) :=
  let have_ := (List.range 4).filter fun i => (smFind ps i).isSome
  let missing := (List.range 4).filter fun i => (smFind ps i).isNone
  let use := have_ ++ (if missing.length = 1 then [4] else [])
  match (if 1 < missing.length then missing.head? else if missing.length = 1 ∧ (smFind ps 4).isNone then some 4 else none) with
  | some i => .error i
  | none =>
    let opened := use.map fun i => (i, (smFind ps i).bind (openPiece k g.q))
    match opened.find? fun x => x.2.isNone with
    | some x => .error x.1
    | none =>
      let got := fun i => (opened.find? fun x => x.1 = i).bind Prod.snd
      .ok ((List.range 4).map fun i => match got i with
        | some us => us
        | none => parityOf ((use.filterMap fun j => got j)))

/-- The stream's units from its quarters. -/
def streamOf (qs : List (List (List Byte))) (u : Nat) : List (List Byte) :=
  (List.range u).map fun i => (qs.getD (i % 4) []).getD (i / 4) zeroUnit

/-- Sets the training registers from the training record (R342 step 6). -/
def restoreTrain (h : Hw) (r : List Byte) : Hw :=
  let h := setReg64 h rStepLo (leAt r 0 8)
  let h := setNextExp (setLiveExp h (sext 8 (leAt r 8 1))) (sext 8 (leAt r 12 1))
  let h := setCleanRun h (leAt r 16 4)
  setStale (setReg h rEpoch (BitVec.ofNat 32 (leAt r 20 4)))

/-- What forbids a RESTORE, and its set (R342, R331). -/
def restoreCheck (slot : Nat) (c : Cmd) : Run (List (Nat × Nat)) := do
  let p := c.packet
  let h ← get
  if stepOpen h || stepClosing h then structFail 7 0 0
  match egressRefusal h c.world (par p 0xC 1) 0x4C with
  | some r => throw (.stop r.1 r.2 0)
  | none => pure ()
  let es ← readSet slot (whoOf slot c) (par p 0 8) (par p 8 4) .wr
  if !noteValid h then structFail 2 0 0
  noteOut slot es
  pure es

/-- The generation that RESTORE takes: records agree in it, and its size is that of the set (R342 steps 2 and 3). -/
def restoreGen (es : List (Nat × Nat)) (answers : List BuddyAnswer) (c : Cmd) : Run Generation := do
  match chooseGen answers (par c.packet 0x10 8) with
  | none => structFail 5 0 0
  | some g => do
    if g.u ≠ noteUnits es then structFail 6 0 0
    pure g

/-- Requests for pieces of a generation leave to the buddies that hold them. -/
def askPieces (answers : List BuddyAnswer) (g : Generation) (ps : List Nat) (h : Hw) : Hw :=
  ps.foldl (fun h i => match smFind (heldPieces answers g) i with
    | some b => sendCell h (piecePort h b) (ckptCell (.askPiece g.resume))
    | none => h) h

/-- Steps 4 to 6 of R342, given the buddies' answers: the pieces asked for are checked and opened, and the extents
written. DESIGN CHOICE (log 28): a stream that fails its digest names piece 0. -/
def restore (slot : Nat) (es : List (Nat × Nat)) (asked : List Nat) (answers : List BuddyAnswer) (c : Cmd) :
    Run (Nat × Nat × Nat) := do
  let p := c.packet
  let who := whoOf slot c
  let g ← restoreGen es answers c
  match egressKey (← get) (par p 0xC 1) with
  | none => throw (.stop 0x11 0x4C 0)
  | some k => do
      match rebuild k g (fetchedPieces answers g asked) with
      | .error i => throw (.stop 0x30 i 1)
      | .ok qs => do
        let us := streamOf qs g.u
        if shake256 us.flatten 32 ≠ g.dig then throw (.stop 0x30 0 1)
        let data := (us.drop 1).flatten
        let ws := (es.foldl (fun (acc : List (Nat × List Byte) × List Byte) e =>
          (acc.1 ++ [(e.1, acc.2.take e.2)], acc.2.drop e.2)) ([], data)).1
        mayWriteAll who ws
        writeAll who ws
        modifyHw fun h => restoreTrain h (us.headD [])
        pure (0, g.resume, 0)

/-- A request to the buddies of the five pieces. -/
def askBuddies (m : CkptMsg) (h : Hw) : Hw := (List.range 5).foldl (fun h i => sendCell h (piecePort h i) (ckptCell m)) h

/-- The numbers of a set of pieces, one bit each. -/
def pieceNumbers (m : Nat) : List Nat := (List.range 5).filter m.testBit

/-- A quarter asked for cannot be read by its buddy, and parity, not asked for yet, can stand for it (R342 step 4). -/
def wantsParity (answers : List BuddyAnswer) (g : Generation) (asked : List Nat) : Bool :=
  !asked.contains 4 && (fetchedPieces answers g asked).length = 3 && (smFind (heldPieces answers g) 4).isSome

/-- RESTORE with the answers of all five buddies: it asks for four pieces, the quarters first, for parity where one of
those cannot be read, and ends with the pieces at hand. priv holds the pieces asked for, plus 1 in 32 places above them,
then the set. -/
def restoreOn (slot : Nat) (es : List (Nat × Nat)) (asked : List Nat) (answers : List BuddyAnswer) (c : Cmd) (h : Hw) : Hw :=
  match runOn (restoreGen es answers c) h with
  | (.error f, h') => takeFail h h' slot f
  | (.ok g, _) =>
    let more := if asked = [] then firstPieces (heldPieces answers g) else if wantsParity answers g asked then [4] else []
    if more = [] then runCmd h slot (restore slot es asked answers c)
    else askPieces answers g more
      (modCmd h slot fun c => { c with priv := (32 + ((asked ++ more).map (2 ^ ·)).sum) :: flatPairs es })

/-- RESTORE: its checks, then the request for the records of both slots of each port; then, with the answers of all
five, the rest. -/
def restoreRun (slot : Nat) (answers : List BuddyAnswer) (c : Cmd) (h : Hw) : Hw :=
  match c.priv with
  | [] =>
    (match runOn (restoreCheck slot c) h with
     | (.error f, h') => takeFail h h' slot f
     | (.ok es, h) => askBuddies .askRecords (modCmd h slot fun c => { c with priv := 32 :: flatPairs es }))
  | m :: es =>
    if answers.length ≠ 5 then h else restoreOn slot (pairsOf es) (pieceNumbers m) answers c h

def execRestore (slot : SlotId) (answers : List BuddyAnswer) (s : State) : Host.Outcome State Fault Refusal :=
  onHw (withCmd slot.val 0x91 (restoreRun slot.val answers)) s

/-! VERIFY -/

/-- The generation that VERIFY names: the last one for 0. -/
def verifyGen (h : Hw) (c : Cmd) : Nat := if par c.packet 0 8 = 0 then getReg64 h 0x600008 else par c.packet 0 8

/-- VERIFY (R343), given each buddy's recomputed digest by piece; none where its check bits fail. A generation of
which this package holds no digests breaks cause 0x05: DEDUCED (log 28). -/
def verify (digests : List (Option (List Byte))) (c : Cmd) : Run (Nat × Nat × Nat) := do
  let h ← get
  let gen := verifyGen h c
  if !noteValid h then structFail 2 0 0
  match h.ckpt.gens.find? fun g => g.1 = gen with
  | none => structFail 5 0 0
  | some g => do
    if digests.length ≠ 5 then throw .wait
    match (List.range 5).find? fun i => digests.getD i none ≠ g.2[i]? with
    | some i => throw (.stop 0x30 i 0)
    | none => pure (0, gen, 0)

/-- VERIFY asks its buddies once. -/
def verifyRun (slot : Nat) (digests : List (Option (List Byte))) (c : Cmd) (h : Hw) : Hw :=
  let ask := c.priv = [] && noteValid h && (h.ckpt.gens.any fun g => g.1 = verifyGen h c)
  let h := if ask then askBuddies (.askDigest (verifyGen h c)) (modCmd h slot fun c => { c with priv := [1] }) else h
  runCmd h slot (verify digests c)

def execVerify (slot : SlotId) (digests : List (Option (List Byte))) (s : State) : Host.Outcome State Fault Refusal :=
  onHw (withCmd slot.val 0x92 (verifyRun slot.val digests)) s

/-! Divergence refresh (R346) -/

/-- The rows of an operand in logical order: segment, logical index of its first element, and its elements. -/
def rowsOf (gs : List PawnSeg) (per : Nat) : List (PawnSeg × Nat × Nat × Nat) :=
  go 0 gs
where
  go (base0 : Nat) : List PawnSeg → List (PawnSeg × Nat × Nat × Nat)
    | [] => []
    | g :: r =>
      ((List.range (ceilDiv g.count per)).map fun i => (g, base0, i * per, min per (g.count - i * per))) ++
      go (base0 + g.count) r

/-- Writes a block of a plane: consecutive rows of the DEEP 0 segments in logical order. -/
def writeBlock (who : Who) (gs : List PawnSeg) (field ebits off : Nat) (bs : List Byte) : Run Unit :=
  go bs ((rowsOf gs (8192 / ebits)).drop (off / 1024))
where
  go (bs : List Byte) : List (PawnSeg × Nat × Nat × Nat) → Run Unit
    | [] => pure ()
    | r :: rs =>
      if bs.isEmpty then pure ()
      else do
        let n := min r.2.2.2 (bs.length * 8 / ebits)
        let k := runBytes ebits n
        writeAll who (pawnWrites (r.1.base field) ebits r.2.2.1 n (bs.take k))
        if k = 0 then pure () else go (bs.drop k) rs

/-- The DEEP 0 segments of a shard, whose planes an audit compares. -/
def shardSegs (h : Hw) (shard : Nat) : Run (List PawnSeg) := do
  let es ← shardEntries h
  let (_, seg, n) := es.getD shard (0, 0, 0)
  let gs ← (List.range n).mapM fun i => do
    let d ← rd (noteWho h) (seg + 64 * i) 64
    pure (parseSeg 7 d)
  pure (gs.filter fun g => !g.deep)

/-- Element bits of a plane, and the segment field that names it. -/
def planeBits (ext : Bool) : Nat := if ext then 16 else 32
def planeField (ext : Bool) : Nat := if ext then upMext else upMhi

/-- The bytes of a block of a plane, as this member holds them. -/
def readBlock (h : Hw) (b : RefreshBlock) : Run (List Byte) := do
  let ebits := planeBits b.ext
  let gs ← shardSegs h b.shard
  let rows := ((rowsOf gs (8192 / ebits)).drop (b.offset / 1024)).take 4
  let bs ← rows.mapM fun r => rdPawn (noteWho h) (r.1.base (planeField b.ext)) ebits r.2.2.1 r.2.2.2
  pure bs.flatten

/-- Refreshes one block. -/
def refreshBlock (h : Hw) (b : RefreshBlock) : Hw :=
  (runOn (do
    let gs ← shardSegs h b.shard
    writeBlock (noteWho h) gs (planeField b.ext) (planeBits b.ext) b.offset b.bytes) h).2

/-- A block that differs at this member, as steps 3 and 4 of R346 find by the digests of its row (R218): one that holds
the same bytes does not. -/
def blockDiffers (h : Hw) (b : RefreshBlock) : Bool :=
  match (runOn (readBlock h b) h).1 with
  | .ok bs => bs ≠ b.bytes.take bs.length
  | .error _ => true

/-- The error record of a block (R346 step 6). DESIGN CHOICE (log 28): the plane stands in DETAIL0, the step in
DETAIL1. -/
def blockRecord (h : Hw) (b : RefreshBlock) : Hw :=
  logErr h { source := 0x0C, kind := 1, code := 0x51, severity := 2, secure := worldBit (noteWorld h),
             unit := b.shard, addr := b.offset, detail0 := BitVec.ofNat 64 b.ext.toNat,
             detail1 := BitVec.ofNat 64 (stepNum h) }

/-- A block leaves to a divergent member over the group's route (R346 step 5). DESIGN CHOICE (log 28): in DATA cells of
the first level, on the way to the partner of the least rank bit in which the two differ, whose way the manual gives. -/
def sendBlock (h : Hw) (rank : Nat) (bs : List Byte) : Hw :=
  let g := auditGroup h
  match (List.range g.bits).find? fun k => (g.rank ^^^ rank).testBit k with
  | none => h
  | some k =>
    let cs := chunksOf 224 bs
    (List.range cs.length).foldl (fun h i => match (g.routes k).head? with
      | none => h
      | some r => sendOnSlot h (mapActive h) r.slot
          { blankCell 6 (.data (DataPay.mk 0 (cs.getD i []))) with
            ctx := BitVec.ofNat 16 (((h.ckpt.peers.find? fun p => p.1 = rank).map Prod.snd).getD 0),
            hops := BitVec.ofNat 6 (r.dist - 1), index := BitVec.ofNat 26 i }) h

/-- The source of divergent members sends them the blocks that the narrowing has found (R346 steps 3 to 5). -/
def serveBlocks (blocks : List RefreshBlock) (h : Hw) : Hw :=
  let h := if 64 < blocks.length then haltAll h
    else h.ckpt.serves.foldl (fun h rank => blocks.foldl (fun h b => match runOn (readBlock h b) h with
      | (.ok bs, h) => sendBlock h rank bs
      | (.error f, h') => (castleFail h' (noteWorld h) f).2) h) h
  { h with ckpt := { h.ckpt with serves := [] } }

/-- DIVERGENCE_REFRESH: steps 3 to 7 of R346, at a divergent member and at the source of one. What their exchange of
records and digests finds is the row's operand: the manual gives its messages no layout. -/
def divergenceHw (blocks : List RefreshBlock) (h : Hw) : Hw :=
  if h.ckpt.serves ≠ [] then serveBlocks blocks h
  else if regBit h 0x600000 2 then
    let blocks := blocks.filter (blockDiffers h)
    let halt := regBit h 0x600148 30 || decide (64 < blocks.length)
    let h := if halt then h else blocks.foldl refreshBlock h
    let h := blocks.foldl blockRecord h
    let h := bumpSat h 0x600018 blocks.length
    let h := setRegFld h 0x600020 31 16 (min 65535 blocks.length)
    let h := setRegBit h 0x600000 2 false
    if halt then haltAll h else h
  else h

def execDivergenceRefresh (blocks : List RefreshBlock) (s : State) : Host.Outcome State Fault Refusal :=
  onHw (divergenceHw blocks) s

/-! The notation block -/

/-- The octets of the reserve hold a PAWN one. -/
def reservePawn (h : Hw) (pct : Nat) : Bool :=
  (List.range 288).any fun n => decide (hbmEnd - reserveGib pct * GiB < (n + 1) * 2 ^ 33) && octetPawn h n

/-- NOTE_CFG_STATUS.CAUSE (Table 13-5). The five ports are in use only with VALID. -/
def noteCauses (h : Hw) (w : World) : List (Nat × Nat) :=
  let cfg := getReg h 0x600100
  let recv := getReg h 0x600104
  let live := getReg h 0x600144
  let ports := (List.range 5).map fun i => fld cfg (4 * i + 3) (4 * i)
  let share := fld cfg 30 24
  let pct := fld recv 23 16
  let changed := pct ≠ fld live 23 16 || fld recv 11 0 ≠ fld live 11 0
  let busy := decide (0 < slotsValid h) || h.slots.any fun e =>
    (e.2.opcode = 0x90 || e.2.opcode = 0x91) && e.2.phase = .running
  (if bit cfg 23 ∧ (ports.any (fun q => 11 < q) ∨ ports.eraseDups.length ≠ 5) then [(1, 0)] else []) ++
  (if share < 10 ∨ 100 < share then [(2, 0)] else []) ++
  (if pct < 5 ∨ 35 < pct ∨ reservePawn h pct then [(3, 0)] else []) ++
  (if changed && busy then [(4, 0)] else []) ++
  (if w = .nonSecure ∧ bit cfg 31 ≠ regBit h 0x600140 31 then [(5, 0)] else [])

def noteCommitHw (w : World) (h : Hw) : Hw :=
  match firstCause (noteCauses h w) with
  | some c => rejectSet h 0x600184 c.1 0 0
  | none => applySnap h (snapSet h 0x600100 0x600140 7)

def execNoteCommit (w : World) (s : State) : Host.Outcome State Fault Refusal :=
  onHw (ifAnswers w 0x600180 (.noteCommit w) (noteCommitHw w)) s

/-- INVALIDATE_SLOTS (R335); pieces being received end with their slots. -/
def invalidateSlotsHw (h : Hw) : Hw :=
  let h := (recvPorts h).foldl (fun h q => clearSlot (clearSlot h q 0) q 1) h
  { h with ckpt := { h.ckpt with rx := [] } }

def execInvalidateSlots (w : World) (s : State) : Host.Outcome State Fault Refusal :=
  onHw (ifAnswers w 0x600004 (.invalidateSlots w) invalidateSlotsHw) s

def noteClrHw (h : Hw) : Hw :=
  let h := [0x600010, 0x600014, 0x600018].foldl clearReg h
  { h with ckpt := { h.ckpt with sentBytes := 0 } }

def execNoteClrCounters (w : World) (s : State) : Host.Outcome State Fault Refusal :=
  onHw (ifAnswers w 0x600004 (.noteClrCounters w) noteClrHw) s

end Sys2Proof.Machine
end

