-- ==== Sys2Proof/Machine/Control.lean ====
section
/-! DEFINITION. The control commands NOP, FENCE, WAIT_EVENT and SIGNAL (R47) and the commands on ring pages
(R34, R39, R40, R51, R53, R58). -/

namespace Sys2Proof.Machine

/-- Parameters of WAIT_EVENT and SIGNAL (Table 2-5). -/
def specNop : PSpec := { len := 0 }
def specWaitEvent : PSpec := { len := 1, fields := [fV 0 9 0, fV 4 31 0, fV 8 31 0] }
def specSignal : PSpec :=
  { len := 1, fields := [fV 0 9 0, fV 0 16 16, fV 0 17 17, fV 4 31 0, fQ 8, fQ 0x10],
    extraAlign := fun _ p => if parBit p 0 17 ∧ par p 8 8 % 8 ≠ 0 then [0x48] else [] }

def nopWork (slot : Nat) (_ : Cmd) (h : Hw) : Hw := finish h slot 0 0 0

def fenceWork (slot : Nat) (_ : Cmd) (h : Hw) : Hw := finish (fenceActions h slot) slot 0 0 0

def waitMet (h : Hw) (c : Cmd) : Bool :=
  ctrMet h (parBits c.packet 0 9 0) (BitVec.ofNat 32 (par c.packet 4 4))

/-- WAIT_EVENT: later commands of the ring then come after what the counter speaks for (R46). -/
def waitWork (slot : Nat) (c : Cmd) (h : Hw) : Hw :=
  if waitMet h c then finish (learnRing h c.ring.val (ctrKnows h (parBits c.packet 0 9 0))) slot 0 0 0 else h

def timeoutWork (slot : Nat) (c : Cmd) (h : Hw) : Hw :=
  if par c.packet 8 4 ≠ 0 ∧ !waitMet h c then finish h slot 3 3 0 else h

/-- SIGNAL: fence actions, the counter, then the store (R47). A store that waits in place for a page does not update
the counter again: priv marks it done. -/
def signalWork (slot : Nat) (c : Cmd) (h : Hw) : Hw :=
  let h := fenceActions h slot
  let p := c.packet
  let h := if c.priv = [1] then h else
    modCmd (learnCtr (ctrSignal h (parBits p 0 9 0) (parBit p 0 16) (BitVec.ofNat 32 (par p 4 4))) (parBits p 0 9 0) c.knows)
      slot fun c => { c with priv := [1], outRanges := if parBit p 0 17 then [(par p 8 8, 8)] else [] }
  if parBit p 0 17 then
    match runOn (wr (whoOf slot c) (par p 8 8) (leBytes 8 (par p 0x10 8))) h with
    | (.ok (), h) => finish h slot 0 0 0
    | (.error .wait, _) => h
    | (.error f, h') => takeFail h h' slot f
  else finish h slot 0 0 0

def execNop (slot : SlotId) (s : State) : Host.Outcome State Fault Refusal :=
  onHw (withCmd slot.val 0x00 (nopWork slot.val)) s

def execFence (slot : SlotId) (s : State) : Host.Outcome State Fault Refusal :=
  onHw (withCmd slot.val 0x01 (fenceWork slot.val)) s

def execWaitEvent (slot : SlotId) (s : State) : Host.Outcome State Fault Refusal :=
  onHw (withCmd slot.val 0x02 (waitWork slot.val)) s

def execWaitEventTimeout (slot : SlotId) (s : State) : Host.Outcome State Fault Refusal :=
  onHw (withCmd slot.val 0x02 (timeoutWork slot.val)) s

def execSignal (slot : SlotId) (s : State) : Host.Outcome State Fault Refusal :=
  onHw (withCmd slot.val 0x03 (signalWork slot.val)) s

/-! Ring pages -/

/-- A ring size is a power of two from 16 to 65,536 (R33). -/
def ringSizeOk (n : Nat) : Bool := isPow2 n && decide (16 ≤ n) && decide (n ≤ 65536)

/-- RING_COMMIT is refused in these cases (R34). -/
def ringCommitBad (h : Hw) (w : World) (n : Nat) : Bool :=
  ringEnabled h n || !ringSizeOk (getReg h (rRing n 0x028)).toNat || !ringSizeOk (getReg h (rRing n 0x034)).toNat ||
  decide (regFld h (rRing n 0x020) 11 0 ≠ 0) || decide (regFld h (rRing n 0x02C) 11 0 ≠ 0) ||
  (w = .nonSecure && regBit h (rRing n 0x038) 31)

def refuseRing (h : Hw) (n : Nat) : Hw := ringIrq (setRegBit h (rRingStatus n) 9 true)

/-- What an accepted commit of a ring does (R34). -/
def acceptRing (h : Hw) (n : Nat) : Hw :=
  let h := copyRegs h (rRing n 0x020) (rRing n 0x040) 7
  let h := setReg (setReg h (rRing n 0x00C) 0) (rRing n 0x010) 0
  setRingAux (setRegBit h (rRingStatus n) 4 false) n RingAux.reset

def ringCommitHw (w : World) (n : Nat) (h : Hw) : Hw :=
  if ringCommitBad h w n then refuseRing h n else acceptRing h n

def execRingCommit (w : World) (n : RingId) (s : State) : Host.Outcome State Fault Refusal :=
  onHw (ifAnswers w (rRing n.val 0x05C) (.ringCommit w n) (ringCommitHw w n.val)) s

/-- RING_CTRL.ENABLE (R34, R58). -/
def ringEnableHw (n : Nat) (h : Hw) : Hw :=
  if ringEnabled h n ∨ ringStopping h n then h
  else if sqSize h n = 0 then refuseRing h n
  else setRegBit h (rRingStatus n) 0 true

def execRingEnable (w : World) (n : RingId) (s : State) : Host.Outcome State Fault Refusal :=
  onHw (ifAnswers w (rRing n.val 0x018) (.ringEnable w n) (ringEnableHw n.val)) s

/-- RING_CTRL.STOP ends fetch (R58). -/
def ringStopHw (n : Nat) (h : Hw) : Hw :=
  if ringEnabled h n then setRegBit h (rRingStatus n) 3 true else h

def execRingStop (w : World) (n : RingId) (s : State) : Host.Outcome State Fault Refusal :=
  onHw (ifAnswers w (rRing n.val 0x018) (.ringStop w n) (ringStopHw n.val)) s

/-- Commands of the classes with pre-emption points (Table 2-10). -/
def preemptible (op : Nat) : Bool := decide (1 ≤ op / 16) && decide (op / 16 ≤ 6)

/-- A command holds ranges: past its first row step under HOLD it has no pre-emption point (R211, Table 2-10). -/
def holds (h : Hw) (slot : Nat) : Bool := h.holds.any fun r => r.slot = slot

/-- Whether a ring abort ends a command now (R58): not yet dispatched, suspended, a WAIT_EVENT, or at a pre-emption
point. DESIGN CHOICE (log 17): a running command with pre-emption points stops at the one it stands at. -/
def abortable (h : Hw) (slot : Nat) (c : Cmd) : Bool :=
  match c.phase with
  | .waiting => true
  | .suspended => true
  | .finished => false
  | .running => c.opcode = 0x02 || (preemptible c.opcode && !holds h slot)

/-- Ends a command as ABORTED with a reason and its extra DETAIL0 bits. -/
def abortCmd (h : Hw) (slot reason extra : Nat) : Hw := finish h slot 3 (reason + extra) (endCountOf h slot)

/-- The tasks of an aborted ring end with no replay, and members still to come take ABORTED (R248). -/
def abortTasks (h : Hw) (n : Nat) : Hw :=
  { h with streams := h.streams.map fun t =>
      if t.ring.val = n then { t with fault := none, abort := some (3, 1, 0, 0) } else t }

/-- RING_CTRL.ABORT (R58). -/
def ringAbortHw (n : Nat) (h : Hw) : Hw :=
  if ringEnabled h n then
    let h := setRegBit h (rRingStatus n) 3 true
    let h := h.slots.foldl (fun h e =>
      if e.2.ring.val = n ∧ abortable h e.1 e.2 then abortCmd h e.1 1 0 else h) h
    abortTasks h n
  else h

def execRingAbort (w : World) (n : RingId) (s : State) : Host.Outcome State Fault Refusal :=
  onHw (ifAnswers w (rRing n.val 0x018) (.ringAbort w n) (ringAbortHw n.val)) s

/-- Commands of a ring that hold in-flight slots (IN_FLIGHT, Table 2-1). -/
def inFlight (h : Hw) (n : Nat) : Nat := (h.slots.filter fun e => e.2.ring.val = n).length

/-- A stopping ring whose commands have all written their records is disabled (R58). -/
def ringDisabledHw (n : Nat) (h : Hw) : Hw :=
  if ringEnabled h n ∧ ringStopping h n ∧ inFlight h n = 0 then
    setRegBit (setRegBit h (rRingStatus n) 0 false) (rRingStatus n) 3 false
  else h

def execRingDisabled (n : RingId) (s : State) : Host.Outcome State Fault Refusal := onHw (ringDisabledHw n.val) s

/-- PWR_STATUS.STATE follows the package state (Table 18-9). -/
def setPower (h : Hw) (p : PkgState) : Hw :=
  let h := setRegFld h 0x400000 1 0 (match p with | .hold => 1 | .quiet => 2 | _ => 0)
  setPkg h p

/-- A return from HOLD or QUIET (R443, R449): RUN if a ring is enabled, READY otherwise; tile stores are zeroed on
exit from QUIET and enabled ports lock again (Table 18-6); collectives wait for these (R443). -/
def leaveLowPower (h : Hw) : Hw :=
  let h := if h.pkg = .quiet then
      allPorts (fun h q => setPortAux h q { portAux h q with rejoins := regBit h (rPort q 4) 0 })
        { h with mem := h.mem.zero .tile 0 (192 * 2 ^ 23) }
    else h
  allPorts tryLock (setPower h (if anyRingEnabled h then .run else .ready))

/-- A doorbell wakes the package from HOLD, and from QUIET with WAKE_ON_DB (R443). It withdraws a waiting request
for neither. -/
def wakeOnDoorbell (h : Hw) : Hw :=
  if h.pkg = .hold ∨ (h.pkg = .quiet ∧ regBit h 0x400004 2) then leaveLowPower h else h

/-- SQ_DOORBELL (R39, R40). On a ring that STALE_SLOT has parked any value clears PARKED and starts a fresh series of 8
refetches at the same slot; DEDUCED (log 61): so does one that R40 ignores, which sets DB_RANGE as anywhere. -/
def sqDoorbellHw (n : Nat) (v : Word) (h : Hw) : Hw :=
  let h := wakeOnDoorbell h
  let a := ringAux h n
  let a1 := if a.stale then { a with refetches := 0, mismatch := true, stale := false } else a
  if (v - sqCons h n).toNat ≤ sqSize h n then
    setRegBit (setRingAux h n { a1 with sqProd := v }) (rRingStatus n) 4 false
  else
    ringIrq (setRegBit (setRegBit (setRingAux h n a1) (rRingStatus n) 7 true) (rRingStatus n) 4 (!a.stale))

def execSqDoorbell (w : World) (n : RingId) (v : Word) (s : State) : Host.Outcome State Fault Refusal :=
  onHw (ifAnswers w (rRing n.val 0) (.sqDoorbell w n v) (sqDoorbellHw n.val v)) s

end Sys2Proof.Machine
end

