-- ==== Sys2Proof/Machine/Host.lean ====
section
/-! DEFINITION. The host interface (R369-R385): the window, its commit and its waits (R211, R212), peer ranges, the
CXL.cache agent, MSI-X unmasking and the state of the link. -/

namespace Sys2Proof.Machine

/-- A register of the host block. -/
def rHost (rel : Nat) : Nat := regOf .host rel

/-! The window (R375-R377) -/

def winBase (h : Hw) : Nat := regFld h (rHost 0x108) 11 0 * GiB
def winSize (h : Hw) : Nat := regFld h (rHost 0x10C) 4 0 * GiB

/-- The host window acts in the non-secure world (R369), through board 1 (R376). -/
def winWho : Who := castle .nonSecure

/-- An access is refused (R376): it passes the window, or meets a secure region. -/
def winRefused (h : Hw) (off n : Nat) : Bool :=
  decide (winSize h < off + n) || (pieces 64 (winBase h + off) n).any fun p => regionSecure h p.1

def answerWin (h : Hw) (bs : List Byte) (poison : Bool) : Hw :=
  { h with host := { h.host with winAnswers := h.host.winAnswers ++ [WinAnswer.mk bs poison] } }

/-- Window bytes read and written, over 65,536 (Table 15-5). -/
def countWin (h : Hw) (rd wr : Nat) : Hw :=
  let a := h.host.winRead + rd
  let b := h.host.winWritten + wr
  let h := { h with host := { h.host with winRead := a, winWritten := b } }
  setReg (setReg h (rHost 0x10) (BitVec.ofNat 32 (a / 65536))) (rHost 0x14) (BitVec.ofNat 32 (b / 65536))

/-- The device ranges that a pinned page of a pawn command, started and not ended, gives of a range of its addresses. -/
def pinnedParts (c : Cmd) (r : Nat × Nat) : List (Nat × Nat) :=
  (pieces 65536 r.1 r.2).filterMap fun p =>
    (c.pins.find? fun q => q.1 = p.1 / 65536 && decide (q.2 < 2 ^ 63)).map fun q => (q.2 + p.1 % 65536, p.2)

/-- Pawn commands that have started and not ended. -/
def pawnsAtWork (h : Hw) : List (Nat × Cmd) :=
  h.slots.filter fun e => e.2.cls = 6 && (e.2.phase = .running || e.2.phase = .suspended)

/-- The parts of a window access that meet the outputs of a pawn command: its values are undefined, since nothing
orders the access against the command (R210). -/
def winRaces (h : Hw) (x : WinAccess) : List (Nat × Nat) :=
  (((pawnsAtWork h).flatMap fun e => e.2.outRanges.flatMap (pinnedParts e.2)).map (common x.pa x.len)).filter
    fun r => decide (r.2 ≠ 0)

/-- A window write to pages that a pawn command pins leaves its outputs undefined (R210), taken by the page (log 97). -/
def winSpoils (h : Hw) (x : WinAccess) : Hw :=
  let meets := fun (c : Cmd) => c.pins.any fun q =>
    decide (q.2 < x.pa + x.len) && decide (x.pa < q.2 + 65536)
  ((pawnsAtWork h).filter fun e => meets e.2).foldl
    (fun h e => modCmd h e.1 fun c => { c with undef := c.outRanges }) h

/-- An access at the stack; nothing where it waits behind a hold. An unbacked access has been logged (R176). -/
def serveOne (h : Hw) (x : WinAccess) : Option Hw :=
  let rs := winRaces h x
  let drawn := fun (h : Hw) => if rs = [] then h else { h with draws := h.draws + 1 }
  if x.op.write then
    match writePa h winWho x.pa x.bytes with
    | (.bytes _ _, h) => some (countWin (drawn (rs.foldl (fun h r => freePa h r.1 r.2) (winSpoils h x))) 0 x.len)
    | (.held, _) => none
    | (_, h) => some h
  else
    match readPa h winWho x.pa x.len with
    | (.bytes bs p, h) => some (answerWin (countWin (drawn h) x.len 0) (if rs = [] then bs else blur h x.pa bs rs) p.isSome)
    | (.held, _) => none
    | (_, h) => some (answerWin h (List.replicate x.len 0xFF) false)

/-- The stack at which an access waits. -/
def heldStack (h : Hw) (x : WinAccess) : Option Nat :=
  (pieces 64 x.pa x.len).findSome? fun p => match decodePa h p.1 with
    | .hbm s y => if heldByOther h winWho (hbmKey s y) p.2 then some s else none
    | _ => none

/-- A BAR2 read returns only after every posted write on CXL.io before it: window writes, here those of a queue, and
BAR0 writes (R383). -/
def readWaits (h : Hw) (q : List WinAccess) (x : WinAccess) : Bool :=
  !x.op.write && x.op.path ≠ .cxlMem &&
    (!h.host.behind.isEmpty || q.any fun y => y.op.write && y.op.path ≠ .cxlMem)

/-- The access is served, unless it is a read that must wait. -/
def serveTurn (h : Hw) (q : List WinAccess) (x : WinAccess) : Option Hw := if readWaits h q x then none else serveOne h x

/-- Waiting accesses that nothing keeps back any more are served, oldest first. -/
def serveWindow (h : Hw) : Hw :=
  h.host.winQueue.foldl (fun h x => match serveTurn h (h.host.winQueue.takeWhile fun y => y ≠ x) x with
    | some h => { h with host := { h.host with winQueue := h.host.winQueue.erase x } }
    | none => h) h

/-- The BAR0 write that acts next of those that wait, once no posted write waits before it, and the state without any
(R383). -/
def nextBehind (h : Hw) : Option (Instr × Hw) :=
  match h.host.behind with
  | [] => none
  | i :: _ =>
    let h := { h with host := { h.host with behind := [] } }
    if postedBefore h .nonSecure then none else some (i, h)

/-- The others wait on; where none is left, the reads behind them are served. -/
def stayBehind (rest : List Instr) (h : Hw) : Hw :=
  let h := { h with host := { h.host with behind := rest ++ h.host.behind } }
  if rest = [] then serveWindow h else h

/-- An access joins the queue; HOLD_WAITS counts it where its stack holds it (R211). -/
def waitWindow (h : Hw) (x : WinAccess) : Hw :=
  let h := match heldStack h x with
    | some s => bumpSat h (regOf (.stack s) 0x10014) 1
    | none => h
  { h with host := { h.host with winQueue := h.host.winQueue ++ [x] } }

/-- The BARs of the function and its one HDM decoder (R370, R372): bytes of BAR0 and BAR2, where the register locator
puts the component registers in BAR0, and the decoder's size and interleave ways. -/
def bar0Bytes : Nat := 64 * 2 ^ 20
def bar2Bytes : Nat := 16 * GiB
def componentBase : Nat := 0x204000
def hdmBytes : Nat := 16 * GiB
def hdmWays : Nat := 1

/-- A path to the window is there: BAR2 on a link that is up, and CXL.mem where the host has enabled it, with the HDM
decoder committed (R370, R371, Table 15-5). -/
def pathUp (h : Hw) (p : WinPath) : Bool := hostUp h && (p ≠ .cxlMem || (hostMode h = 1 && regBit h rHostLink 3))

/-- The window answers a path that is there; during bring-up, a halt and after resigning a read is 0 and a write is
ignored (R348, R404, R453). -/
def windowHw (op : WinOp) (off len : Nat) (bytes : List Byte) (h : Hw) : Hw :=
  let n := if op.write then bytes.length else len
  if !pathUp h op.path ∨ n = 0 then h
  else if !working h then (if op.write then h else answerWin h (List.replicate n 0) false)
  else if winRefused h off n then
    let h := logErr (bumpSat h (rHost 0x18) 1) { source := 8, kind := 1, severity := 2, addr := off }
    if op.write then h else answerWin h (List.replicate n 0xFF) false
  else
    let x : WinAccess := { op := op, off := off, pa := winBase h + off, len := n, bytes := bytes }
    match serveTurn h h.host.winQueue x with
    | some h => h
    | none => waitWindow h x

def execWindowAccess (op : WinOp) (off : Quad) (len : Nat) (bytes : List Byte) (s : State) :
    Host.Outcome State Fault Refusal := onHw (windowHw op off.toNat len bytes) s

/-- 50 µs of waiting (R212) end the oldest access: a read is answered with poison, its bytes undefined, and a write is
dropped. -/
def windowTimeoutHw (h : Hw) : Hw :=
  match h.host.winQueue with
  | [] => h
  | x :: rest =>
    let s := (heldStack h x).getD 0
    let h := { h with host := { h.host with winQueue := rest } }
    if x.op.write then
      logErr (bumpSat h (regOf (.stack s) 0x1001C) 1) { source := 8, kind := 3, severity := 3, addr := x.off }
    else
      let h := answerWin h ((List.range x.len).map fun i => Config.freeByte h.draws (x.off + i)) true
      let h := { h with draws := h.draws + 1 }
      logErr (bumpSat h (regOf (.stack s) 0x10018) 1) { source := 8, kind := 2, severity := 3, addr := x.off }

def execWindowAccessTimeout (s : State) : Host.Outcome State Fault Refusal := onHw windowTimeoutHw s

/-- The causes of WINDOW_STATUS (R377). -/
def windowCauses (h : Hw) : List (Nat × Nat) :=
  let base := regFld h (rHost 0x100) 11 0
  let size := regFld h (rHost 0x104) 4 0
  (if 2304 < base + size then [(1, 0)] else []) ++
  (if size = 0 ∨ 16 < size then [(2, 0)] else []) ++
  (if 2304 - reserveGib (regFld h 0x600144 23 16) < base + size then [(3, 0)] else [])

def windowCommitHw (h : Hw) : Hw :=
  match firstCause (windowCauses h) with
  | some c => rejectSet h (rHost 0x114) c.1 0 0
  | none => copyRegs h (rHost 0x100) (rHost 0x108) 2

def execWindowCommit (w : World) (s : State) : Host.Outcome State Fault Refusal :=
  onHw (ifAnswers w (rHost 0x110) (.windowCommit w) windowCommitHw) s

/-! Peer ranges (R379) -/

/-- A staged range: whether it is valid, its base and its bytes. -/
def peerStg (h : Hw) (p : Nat) : Bool × Nat × Nat :=
  let b := getReg64 h (rHost (0x200 + 16 * p))
  (b % 2 = 1, b / 4096 * 4096, (getReg h (rHost (0x208 + 16 * p))).toNat * 4096)

def peerCauses (h : Hw) : List (Nat × Nat) :=
  (List.range 4).flatMap fun p =>
    let x := peerStg h p
    (if x.1 ∧ x.2.2 = 0 then [(1, p)] else []) ++
    (if x.1 ∧ ((List.range 4).any fun j =>
        let y := peerStg h j
        j ≠ p && y.1 && decide (y.2.1 < x.2.1 + x.2.2) && decide (x.2.1 < y.2.1 + y.2.2)) then [(2, p)] else [])

def peerCommitHw (h : Hw) : Hw :=
  match firstCause (peerCauses h) with
  | some c => rejectSet h (rHost 0x284) c.1 c.2 2
  | none => copyRegs h (rHost 0x200) (rHost 0x240) 16

def execPeerCommit (w : World) (s : State) : Host.Outcome State Fault Refusal :=
  onHw (ifAnswers w (rHost 0x280) (.peerCommit w) peerCommitHw) s

/-- The host address of a peer range that a command's address leads to. -/
def peerTarget (h : Hw) (slot va : Nat) (c : Cmd) : Option Nat :=
  let at_ := fun acc => match (translate h (whoOf slot c) va acc).1 with
    | .ok true pa => if (peerOf h pa).isSome then some pa else none
    | _ => none
  (at_ .rd).or (at_ .wr)

/-- A peer access that no completion answers within 50 ms is a permission fault (R379); one error record stands for
it (Table 20-7). -/
def peerTimeoutHw (slot va : Nat) (h : Hw) : Hw :=
  match cmdAt h slot with
  | none => h
  | some c =>
    if (active h slot c.opcode).isNone then h
    else match peerTarget h slot va c with
      | none => h
      | some pa =>
        let h := bumpSat (bumpSat h (rHost 0x28) 1) rPermFaults 1
        match taskOf h slot, collAt h slot with
        | some t, _ => strikeTask h t slot 0x20 va c.written false
        | none, some v => failCollAs 8 4 0 pa h v 0x20 va 0 0 va
        | none, none => finishErr h slot 0x20 va c.written 8 4 0 pa

def execPeerTimeout (slot : SlotId) (addr : Quad) (s : State) : Host.Outcome State Fault Refusal :=
  onHw (peerTimeoutHw slot.val addr.toNat) s

/-! The agent (R378) -/

/-- HOST_CTRL.AGENT_FLUSH. -/
def agentFlushHw (h : Hw) : Hw := if hostMode h = 1 then writeBackLines h (fun _ => true) else h

def execAgentFlush (w : World) (s : State) : Host.Outcome State Fault Refusal :=
  onHw (ifAnswers w (rHost 4) (.agentFlush w) agentFlushHw) s

/-- A host snoop takes a modified line: the host has its bytes, and the agent drops it. -/
def hostSnoopHw (a : Nat) (h : Hw) : Hw :=
  let line := a / 64
  match agentLine h line with
  | none => h
  | some l =>
    countAgent { h with mem := h.mem.write .host (line * 64) l.bytes,
                        host := { h.host with lines := h.host.lines.filter (fun e => e.1 ≠ line) } } 0

def execHostSnoop (line : Quad) (s : State) : Host.Outcome State Fault Refusal := onHw (hostSnoopHw line.toNat) s

/-- HOST_CTRL.CLR_COUNTERS clears offsets 0x0010 to 0x0028. -/
def hostClrHw (h : Hw) : Hw :=
  let h := { h with host := { h.host with winRead := 0, winWritten := 0, agentRead := 0, agentWritten := 0 } }
  (List.range 7).foldl (fun h i => clearReg h (rHost (0x10 + 4 * i))) h

def execHostClrCounters (w : World) (s : State) : Host.Outcome State Fault Refusal :=
  onHw (ifAnswers w (rHost 4) (.hostClrCounters w) hostClrHw) s

/-! MSI-X (R374) -/

/-- A vector is unmasked, and a pending message goes out. -/
def unmaskHw (v : Nat) (h : Hw) : Hw :=
  let h := setRegBit h (rHost (0x1000 + 16 * v + 12)) 0 false
  let o := rHost (0x2000 + 4 * (v / 32))
  if regBit h o (v % 32) then sendMsix (setRegBit h o (v % 32) false) v else h

def execMsixUnmask (vec : Fin 72) (s : State) : Host.Outcome State Fault Refusal :=
  onHw (ifAnswers .nonSecure (rHost (0x1000 + 16 * vec.val + 12)) (.msixUnmask vec) (unmaskHw vec.val)) s

/-! The link (R371, R451) -/

/-- PKG_RESET_N is low: driven by the package or held by the board (R451). -/
def resetAsserted (h : Hw) : Bool := h.pins.pkgResetDriven || h.pins.pkgResetHeld

/-- The link may train: PERST_N and PKG_RESET_N are released, and the castle is powered and has its clock. -/
def mayTrain (h : Hw) : Bool :=
  !h.pins.perst && !resetAsserted h && h.supplies.refclkSys && h.pkg ≠ .off && h.pkg ≠ .aux

/-- Whether HOST_LINK_STATUS can report a result. -/
def trainResult (mode width speed : Nat) : Bool :=
  (mode = 1 || mode = 2) && decide (1 ≤ width) && decide (width ≤ 16) && decide (1 ≤ speed) && decide (speed ≤ 5)

/-- Memory_Active is due within this many seconds (R451). -/
def memActiveTimeout : Nat := 64

/-- Step 9 of the bring-up completes where the steps before it have, and the link is up. -/
def stepNine (h : Hw) : Hw :=
  if h.bringStep = 8 ∧ hostUp h then setRegFld { h with bringStep := 9 } (regOf .err 0x108) 23 16 9 else h

/-- The link trains. What the host enables in CXL mode, IDE_ACTIVE, CACHE_EN and MEM_EN, is the host's (Table 15-5);
in PCIe fallback the three read 0. -/
def linkTrainHw (mode width speed enables : Nat) (h : Hw) : Hw :=
  if mayTrain h ∧ trainResult mode width speed then
    let h := if mode = 2 then discardLines h else h
    let h := { h with supplies := { h.supplies with refclkCxl := true } }
    let en := if mode = 1 then enables % 8 * 8 else 0
    let h := { h with host := { h.host with memInfoValid := true } }
    stepNine (setReg h rHostLink (BitVec.ofNat 32 (mode + en + width * 64 + speed * 4096)))
  else h

def execCxlLinkTraining (mode : LinkMode) (width : BitVec 6) (speed : BitVec 4) (s : State) :
    Host.Outcome State Fault Refusal :=
  onHw (linkTrainHw mode.mode.toNat width.toNat speed.toNat mode.enables.toNat) s

/-- The link goes down; modified lines stay until a reset (R378). -/
def linkDown (h : Hw) : Hw := { setReg h rHostLink 0 with host := { h.host with memInfoValid := false } }

def execCxlLinkDown (s : State) : Host.Outcome State Fault Refusal := onHw linkDown s

end Sys2Proof.Machine
end

