-- ==== Sys2Proof/Machine/Finish.lean ====
section
/-! DEFINITION. Final records (R50-R54, R44, R381), the loss of a stack (R188, R189) and resignation (R347). -/

namespace Sys2Proof.Machine

/-- Raises the completion interrupt of a record in ring n (R52). -/
def completionIrq (h : Hw) (n : Nat) (c : Cmd) : Hw :=
  if hIrq c.packet ∧ bit (ringCfg h n) 28 then sendMsix h n else h

/-- HALT_ON_ERROR stops fetch of the submission ring at a failing status (R53). -/
def haltOnError (h : Hw) (c : Cmd) : Hw :=
  if bit (ringCfg h c.ring.val) 27 ∧ failing c.status.toNat then haltRing h c.ring.val c.status.toNat else h

/-- The final record of a STEP_END that closes a step ends the closing state (R270). -/
def closesStep (h : Hw) (c : Cmd) : Hw :=
  if c.opcode = 0x82 ∧ c.status = 0 ∧ !c.refused then setRegFld h 0x170000 1 0 0 else h

/-- Writes the final record of a finished command, after its fence actions (R381): then its signal, its interrupt and
the halt, and the slot is free, with what waited behind its holds and tokens. Answers whether the record was
written. A refused command runs no work, and no fence (R48). -/
def writeFinal (h : Hw) (slot : Nat) : Bool × Hw :=
  match cmdAt h slot with
  | none => (true, h)
  | some c0 =>
    let h := if c0.refused then h else fenceActions h slot
    let c := (cmdAt h slot).getD c0
    let n := c.target
    match postRecord h n (recordBytes h n c true c.status.toNat c.detail0 c.detail1) with
    | (false, h) => (false, h)
    | (true, h) =>
      let h := haltOnError (completionIrq (signalOf (closesStep h c) c) n c) c
      (true, serveWindow (grantAll (freeSlot h slot)))

/-! Records in the order they become ready (R50) -/

/-- Writes a record whose turn it is. Answers whether it was written. -/
def writeOne (h : Hw) (e : DueRecord) : Bool × Hw :=
  match e.suspended, cmdAt h e.slot with
  | _, none => (true, h)
  | some ds, some c => postSuspended h c ds
  | none, some _ => writeFinal h e.slot

/-- Goes through the records that are due, oldest first; those in kept stay. -/
def writeList (h : Hw) (kept : List DueRecord) : List DueRecord → Hw
  | [] => { h with due := kept ++ h.due }
  | e :: es =>
    if waitsBehind h kept e then writeList h (kept ++ [e]) es
    else match writeOne h e with
      | (true, h) => writeList h kept es
      | (false, h) => writeList h (kept ++ [e]) es

/-- Writes the records that are due as far as their completion rings have room (R51). -/
def writeDue (h : Hw) : Hw := writeList { h with due := [] } [] h.due

/-- The final record of a command becomes ready. -/
def finalReady (h : Hw) (slot : Nat) : Hw :=
  if h.due.any fun e => e.slot = slot && e.suspended.isNone then h else { h with due := h.due ++ [DueRecord.mk slot none] }

/-- FINAL_RECORD: a command outside a live task; members wait for their task's end (R244). -/
def finalRecordHw (slot : Nat) (h : Hw) : Hw :=
  match cmdAt h slot with
  | none => h
  | some c =>
    if c.phase = .finished ∧ (taskOf h slot).isNone ∧ (working h ∨ h.sec.halted) then writeDue (finalReady h slot) else h

def execFinalRecord (slot : SlotId) (s : State) : Host.Outcome State Fault Refusal := onHw (finalRecordHw slot.val) s

/-- Clearing ERROR_HALT resumes fetch of an enabled ring, whose completion memory is tried again where its write had
failed; on a disabled ring it clears only the bit (R34, R53). -/
def errorHaltClearHw (n : Nat) (h : Hw) : Hw :=
  let h' := setRegBit h (rRingStatus n) 8 false
  if ringEnabled h n then writeDue (setRingAux h' n { ringAux h' n with cqFailed := false }) else h'

def execErrorHaltClear (w : World) (n : RingId) (s : State) : Host.Outcome State Fault Refusal :=
  onHw (ifAnswers w (rRingStatus n.val) (.errorHaltClear w n) (errorHaltClearHw n.val)) s

/-- CQ_DOORBELL (R51): records that waited for room follow. -/
def cqDoorbellHw (n : Nat) (v : Word) (h : Hw) : Hw :=
  let a := ringAux h n
  if (v - a.cqCons).toNat ≤ (cqProd h n - a.cqCons).toNat then writeDue (setRingAux h n { a with cqCons := v })
  else ringIrq (setRegBit h (rRingStatus n) 7 true)

def execCqDoorbell (w : World) (n : RingId) (v : Word) (s : State) : Host.Outcome State Fault Refusal :=
  onHw (ifAnswers w (rRing n.val 4) (.cqDoorbell w n v) (cqDoorbellHw n.val v)) s

/-! Resigning (R347, R348) -/

/-- The package resigns: live collectives end (Table 12-11), RESIGN cells on every UP port, then the ports dark, the
fatal record, and RESIGNED, where no command makes progress. -/
def resign (serial : Quad) (h : Hw) : Hw :=
  if h.pkg = .off ∨ h.pkg = .aux ∨ h.pkg = .resigned then h
  else
    let h := leavePorts (dropColls h) serial 13
    setPower (logErr h { source := 0x0F, kind := 1, severity := 4 }) .resigned

/-- The commands in flight that have accessed a stack. -/
def usersOf (h : Hw) (s : Nat) : List Nat := (h.slots.filter fun e => e.2.usedStacks.contains s).map Prod.fst

/-- A final STACK_LOST record (R189), whatever task the command belongs to; its outputs are undefined (R87, R140). -/
def stackLostRecord (s : Nat) (h : Hw) (slot : Nat) : Hw :=
  writeDue (finalReady (finish (spoilOutputs h slot) slot 0x31 s (endCountOf h slot)) slot)

/-- STACK_STATUS of a lost stack reads LOST (R188). -/
def markLost (h : Hw) (s : Nat) : Hw := let o := regOf (.stack s) 4; setRegBit (setRegBit h o 0 false) o 8 true

/-- A stack is lost (R188, R189): STACK_STATUS reads LOST, its users end and the package resigns. -/
def loseStack (serial : Quad) (s : Nat) (h : Hw) : Hw :=
  if h.pkg = .off ∨ h.pkg = .aux ∨ h.pkg = .resigned then h
  else
    let h := markLost h s
    let h := (usersOf h s).foldl (stackLostRecord s) (leavePorts (dropColls h) serial 13)
    resign serial h

/-- Several stacks are lost at one start (R188). -/
def loseStacks (serial : Quad) (ss : List Nat) (h : Hw) : Hw :=
  match ss with
  | [] => h
  | s :: _ => loseStack serial s (ss.foldl markLost h)

def execStackLoss (k : StackId) (s : State) : Host.Outcome State Fault Refusal :=
  onHw (loseStack s.fuses.serial k.val) s

/-- An uncorrectable castle fault (R347) is recorded and makes the package resign. -/
def castleFaultHw (serial : Quad) (k : CastleFaultKind) (h : Hw) : Hw :=
  if h.pkg = .off ∨ h.pkg = .aux ∨ h.pkg = .resigned then h
  else resign serial (logErr h { source := 0x0F, kind := (match k with | .sram => 2 | .lockstep => 3), severity := 4 })

def execCastleFault (k : CastleFaultKind) (s : State) : Host.Outcome State Fault Refusal :=
  onHw (castleFaultHw s.fuses.serial k) s

end Sys2Proof.Machine
end

