-- ==== Sys2Proof/Machine/Security.lean ====
section
/-! DEFINITION. Security (R386-R406): boot and identity, the world set and the region table, the key store, alarms with
key erasure and the halt, and TEST_OPEN (R421). -/

namespace Sys2Proof.Machine

/-- A register of the security block. -/
def rSec (rel : Nat) : Nat := regOf .sec rel

/-! Boot (R392-R395) -/

/-- Where a firmware image slot lies in flash (R392). -/
def imageAt (slot : Nat) : Nat := if slot = 0 then 0x1000000 else 0x5000000

/-- Bytes of an image slot. -/
def imageMax : Nat := 64 * 2 ^ 20 - 0x200

def imageHeader (h : Hw) (slot : Nat) : List Byte := h.mem.readN .flash (imageAt slot) 0x200

/-- Table 16-2: the header's fields are valid. -/
def headerOk (d : List Byte) : Bool :=
  leAt d 0 4 = 1 && decide (leAt d 4 4 ≤ 64) && decide (leAt d 8 8 ≤ imageMax) && decide (leAt d 0x50 4 < 4) &&
  leAt d 0x8D 3 = 0 && leNat (d.drop 0x102) = 0

/-- The fail cause of an image slot, 0 where it verifies (R393). DEDUCED (log 33): the checks run in the order the
manual lists them. -/
def imageCause (f : Fuses) (h : Hw) (slot : Nat) : Nat :=
  let d := imageHeader h slot
  let key := leAt d 0x50 4
  let pub := slice d 0x54 57
  if !headerOk d then 1
  else if f.revoked.contains key ∨ some (shake256 pub 32) ≠ f.vendorHash[key]? then 4
  else if !Config.ed448Verify pub (shake256 (slice d 0 0x90) 64) (slice d 0x90 114) then 3
  else if shake256 (h.mem.readN .flash (imageAt slot + 0x200) (leAt d 8 8)) 64 ≠ slice d 0x10 64 then 2
  else if leAt d 4 4 < f.svnFloor then 5
  else 0

/-- The two private keys of R395, from the secret and the measurement. -/
def identityKeys (meas : List Byte) : List Byte × List Byte :=
  (shake256 ([0x06] ++ Config.deviceSecret) 57, shake256 ([0x07] ++ Config.deviceSecret ++ meas) 57)

/-- FW_MEAS and DEVICE_PUB as registers (Table 16-7). -/
def bootRegs (h : Hw) (meas pub : List Byte) : Hw :=
  let h := (List.range 16).foldl (fun h i => setReg h (rSec (0x10 + 4 * i)) (BitVec.ofNat 32 (leAt meas (4 * i) 4))) h
  (List.range 15).foldl (fun h i => setReg h (rSec (0x50 + 4 * i)) (BitVec.ofNat 32 (leAt pub (4 * i) 4))) h

/-- The security core verifies both slots and boots one, or the package halts at step 2 (R393). -/
def verifyFirmware (f : Fuses) (h : Hw) : Hw :=
  let c0 := imageCause f h 0
  let c1 := imageCause f h 1
  let svn := fun slot => leAt (imageHeader h slot) 4 4
  let boot := if c0 = 0 ∧ c1 = 0 then (if svn 0 < svn 1 then 1 else 0) else if c0 = 0 then 0 else 1
  let oks := (decide (c1 = 0)).toNat * 4 + (decide (c0 = 0)).toNat * 2
  if c0 = 0 ∨ c1 = 0 then
    let meas := shake256 ([0x08] ++ slice (imageHeader h boot) 0 0x90) 64
    let keys := identityKeys meas
    let h := { h with
      sec := { h.sec with verified := true, fwMeas := meas, idPriv := keys.1, aliasPriv := keys.2 },
      pins := { h.pins with ospiReleased := false } }
    setStale (bootRegs (setReg h (rSec 4) (BitVec.ofNat 32 (svn boot * 2 ^ 16 + oks + boot))) meas (Config.ed448Pub keys.1))
  else
    let h := { h with
      sec := { h.sec with verified := false, fwMeas := [], idPriv := [], aliasPriv := [] },
      pins := { h.pins with faultN := true, ospiReleased := true } }
    bootRegs (setReg h (rSec 4) (BitVec.ofNat 32 (c0 * 16 + 8))) [] []

/-- SEC_CTRL.SVN_ADVANCE burns the floor up to the running image's SVN (R394); a floor never falls. -/
def burnFloor (h : Hw) (f : Fuses) : Fuses :=
  if h.sec.verified then { f with svnFloor := max f.svnFloor (regFld h (rSec 4) 31 16) } else f

def execSvnAdvance (w : World) (s : State) : Host.Outcome State Fault Refusal :=
  if w = .secure ∧ answers s.hw w (rSec 0xC) then .next { s with fuses := burnFloor s.hw s.fuses } else .next s

/-! Worlds (R388) -/

/-- Stacks that an in-flight pawn command names: those of its segments, as its check read them or, before it, as its
table stands. -/
def pawnStacks (h : Hw) (slot : Nat) (c : Cmd) : List Nat :=
  match c.segs with
  | some gs => gs.map PawnSeg.stack
  | none => (List.range (par c.packet 8 4)).filterMap fun i =>
    match (runOn (rd (whoOf slot c) (par c.packet 0 8 + 64 * i) 64) h).1 with
    | .ok d => some (leAt d 4 4 % 32)
    | .error _ => none

/-- Staged and live world words: tiles 0-5, stacks 6, boards and ports 7, cores 8. -/
def worldStg (h : Hw) (i : Nat) : Word := getReg h (rSec (0x500 + 4 * i))
def worldLive (h : Hw) (i : Nat) : Word := getReg h (rSec (0x540 + 4 * i))

/-- Whether bit k of word i changes. -/
def worldChange (h : Hw) (i k : Nat) : Bool := bit (worldStg h i) k != bit (worldLive h i) k

def changedTiles (h : Hw) : List Nat := (List.range 192).filter fun t => worldChange h (t / 32) (t % 32)

/-- Whether the castle firmware holds a core in reset is open to the model (log 1): each commit draws it. -/
def coreHeld (h : Hw) (c : Nat) : Bool := Config.freeNat (h.draws + c) % 2 = 1

/-- The causes of WORLD_STATUS with their items. A pawn command is in flight until its final record is written (R54). -/
def worldCauses (h : Hw) : List (Nat × Nat) :=
  let busy := (changedTiles h).filter fun t => tileBusy h t || regBit h (regOf (.tile t) 4) 2
  let used := h.slots.flatMap fun e => if e.2.cls = 6 then pawnStacks h e.1 e.2 else []
  let stks := (List.range 24).filter fun s => worldChange h 6 s && used.contains s
  let ports := (List.range 12).filter fun q => worldChange h 7 (16 + q) && decide (portState h q ≠ 0)
  let cores := (List.range 16).filter fun c => worldChange h 8 c && !coreHeld h c
  busy.map (1, ·) ++ stks.map (2, ·) ++ ports.map (3, ·) ++ cores.map (4, ·)

/-- WORLD_COMMIT: refused, or live after the reset of every tile whose world changes (R90). -/
def worldCommitHw (h : Hw) : Hw :=
  let h' := { h with draws := h.draws + 16 }
  match firstCause (worldCauses h) with
  | some c => rejectSet h' (rSec 0x584) c.1 c.2 8
  | none => copyRegs ((changedTiles h).foldl (fun h t => tileResetHw t h) h') (rSec 0x500) (rSec 0x540) 9

def execWorldCommit (w : World) (s : State) : Host.Outcome State Fault Refusal :=
  onHw (ifSecView w (rSec 0x580) worldCommitHw) s

/-! Regions (R389, R391) -/

/-- Valid entries of a copy of the region table whose base register lies at an offset: entry number, first byte and
end, as device physical addresses. -/
def regionList (h : Hw) (base : Nat) : List (Nat × Nat × Nat) :=
  h.regs.filterMap fun e =>
    if base ≤ e.1 ∧ e.1 < base + 0x800 ∧ e.1 % 8 = 0 ∧ bit e.2 31 then
      let lo := fld e.2 20 0 * 2 ^ 21
      some ((e.1 - base) / 8, lo, lo + regFld h (e.1 + 4) 20 0 * 2 ^ 21)
    else none

/-- The causes of REGION_STATUS with their entries. -/
def regionCauses (h : Hw) : List (Nat × Nat) :=
  let es := regionList h (rSec 0x1000)
  es.flatMap fun e =>
    (if es.any fun x => x.1 ≠ e.1 && decide (x.2.1 < e.2.2) && decide (e.2.1 < x.2.2) then [(1, e.1)] else []) ++
    (if hbmEnd < e.2.2 then [(2, e.1)] else []) ++
    (if e.2.1 = e.2.2 then [(3, e.1)] else [])

/-- An interval less another. -/
def cutInterval (a b : Nat × Nat) : List (Nat × Nat) :=
  ([(a.1, min a.2 b.1), (max a.1 b.2, a.2)]).filter fun r => decide (r.1 < r.2)

/-- What of the old secure intervals leaves the secure world. -/
def leaving (old new : List (Nat × Nat)) : List (Nat × Nat) :=
  old.flatMap fun r => new.foldl (fun rs n => rs.flatMap fun x => cutInterval x n) [r]

/-- Zero-fills a stack range: its codewords are written whole, so marks and poison go (R180). They are writes to the
stack: it counts them, and an injection that is armed meets the first (R182). -/
def zeroStack (h : Hw) (s y n : Nat) : Hw :=
  let k := hbmKey s y
  let gone := fun cw => decide (k ≤ cw * 64) && decide (cw * 64 < k + n)
  let inj := if n = 0 then ([], h) else injectErrs (countStack h s 0 n) s
  let h := inj.2
  let h : Hw := { h with mem := h.mem.zero .hbm k n,
                         poison := h.poison.filter (fun cw => !gone cw),
                         symErrs := h.symErrs.filter (fun e => !gone e.1) }
  if inj.1 = [] then h else setCwErrs h (cwOf s y) inj.1

/-- Zero-fills an interval within octet n of device physical address, under its live mode (R170-R172). The interval is
a multiple of 2 MiB, so it is contiguous in each stack. -/
def zeroOctet (h : Hw) (n lo hi : Nat) : Hw :=
  let b := n % 3
  let base := n / 3 * GiB
  match octetMode h n with
  | 0 => (List.range 8).foldl (fun h j =>
      zeroStack h (8 * b + j) (base + (lo - n * 2 ^ 33) / 8) ((hi - lo) / 8)) h
  | 1 => (List.range 24).foldl (fun h s =>
      let row := fun z => ((z - n / 3 * (24 * GiB)) / 1024 + 23 - s) / 24 * 1024
      zeroStack h s (base + row lo) (row hi - row lo)) h
  | _ => (List.range 8).foldl (fun h j =>
      let a := max lo (n * 2 ^ 33 + j * GiB)
      let e := min hi (n * 2 ^ 33 + (j + 1) * GiB)
      if a < e then zeroStack h (8 * b + j) (base + (a - n * 2 ^ 33 - j * GiB)) (e - a) else h) h

/-- Zero-fills an interval of device physical address. -/
def zeroInterval (h : Hw) (r : Nat × Nat) : Hw :=
  (pieces (2 ^ 33) r.1 (r.2 - r.1)).foldl (fun h p => zeroOctet h (p.1 / 2 ^ 33) p.1 (p.1 + p.2)) h

/-- REGION_COMMIT. FILLING stands only while the fill runs, which this step completes. -/
def regionCommitHw (h : Hw) : Hw :=
  match firstCause (regionCauses h) with
  | some c => rejectSet h (rSec 0x2004) c.1 c.2 8
  | none =>
    let old := (regionList h (rSec 0x1800)).map Prod.snd
    let new := (regionList h (rSec 0x1000)).map Prod.snd
    let changed := leaving old new ++ leaving new old
    let h := dropLines ((leaving old new).foldl zeroInterval h) fun _ l =>
      changed.any fun r => decide (r.1 < l * 64 + 64) && decide (l * 64 < r.2)
    copyRegs h (rSec 0x1000) (rSec 0x1800) 512

def execRegionCommit (w : World) (s : State) : Host.Outcome State Fault Refusal :=
  onHw (ifSecView w (rSec 0x2000) regionCommitHw) s

/-! Keys (R398-R401) -/

/-- Slots of keys that ENC slots of the active map name. -/
def encSlots (h : Hw) : List Word :=
  ((List.range 16).map fun i => mapSlot h (mapActive h) i).filter fun w => slotValid w && slotEnc w

/-- The egress key slots that a live command names (R265, R401): in its packet, or in its objects' descriptors. -/
def namedKeys (h : Hw) (slot : Nat) (c : Cmd) : List Nat :=
  let ofObj := fun va => match (runOn (readObject (whoOf slot c) va) h).1 with
    | .ok o => [o.key]
    | .error _ => []
  if c.opcode = 0x15 then [spKey c.packet]
  else if c.opcode = 0x16 then ofObj (par c.packet 0 8)
  else if c.opcode = 0x14 then (streamEntries h slot).flatMap fun e => if e.kind = 1 then [] else ofObj e.obj
  else if c.opcode = 0x90 ∨ c.opcode = 0x91 then [par c.packet 0xC 1]
  else []

/-- The causes for which a key command is refused (R399). -/
def keyCauses (h : Hw) (w : World) (egress : Bool) (k : Nat) : List (Nat × Nat) :=
  (if !egress ∧ (encSlots h).any (fun x => slotKey x = k) then [(1, 0)] else []) ++
  (if egress ∧ h.slots.any (fun e => e.2.phase ≠ .finished && (namedKeys h e.1 e.2).contains k) then [(2, 0)] else []) ++
  (if w = .nonSecure then [(3, 0)] else [])

/-- The bytes of key data words. -/
def keyBytes (h : Hw) (n : Nat) : List Byte := (h.sec.keyData.take n).flatMap fun x => leBytes 4 x.toNat

/-- The counters of a link slot count from 0 at an install (R400). -/
def resetLinkCtr (h : Hw) (k : Nat) : Hw :=
  allPorts (fun h q =>
    let a := portAux h q
    setPortAux h q { a with encTx := smDel a.encTx k, encRx := smDel a.encRx k }) h

def keyWorld (v : Word) : World := if bit v 7 then .secure else .nonSecure

/-- KEY_CMD.GO: the key data becomes a slot's key. -/
def installKey (w : World) (v : Word) (h : Hw) : Hw :=
  let k := fld v 5 0
  match firstCause (keyCauses h w (bit v 8) k) with
  | some c => rejectSet h (rSec 0x204) c.1 0 0
  | none =>
    let sec := h.sec
    let clear := { sec with keyData := List.replicate 16 0, keysErased := false }
    if bit v 8 then
      let bs := keyBytes h 16
      let key := EgressKey.mk (bs.take 32) (bs.drop 32) (sec.keyArg0.toNat + 2 ^ 32 * sec.keyArg1.toNat) (keyWorld v)
      { h with sec := { clear with egressKeys := smPut sec.egressKeys k key } }
    else
      let key := LinkKey.mk (keyBytes h 8) sec.keyArg0 (keyWorld v)
      resetLinkCtr { h with sec := { clear with linkKeys := smPut sec.linkKeys k key } } k

/-- KEY_CMD.ERASE_SLOT empties a slot. -/
def eraseSlot (w : World) (v : Word) (h : Hw) : Hw :=
  let k := fld v 5 0
  match firstCause (keyCauses h w (bit v 8) k) with
  | some c => rejectSet h (rSec 0x204) c.1 0 0
  | none =>
    if bit v 8 then { h with sec := { h.sec with egressKeys := smDel h.sec.egressKeys k } }
    else { h with sec := { h.sec with linkKeys := smDel h.sec.linkKeys k } }

/-- A write of KEY_CMD. DEDUCED (log 34): ERASE_SLOT acts whatever GO is, and an install needs GO without it. -/
def keyInstallHw (w : World) (v : Word) (h : Hw) : Hw := if bit v 31 ∧ !bit v 30 then installKey w v h else h
def eraseSlotHw (w : World) (v : Word) (h : Hw) : Hw := if bit v 30 then eraseSlot w v h else h

def execKeyInstall (w : World) (v : Word) (s : State) : Host.Outcome State Fault Refusal :=
  onHw (ifAnswers w (rSec 0x200) (.keyInstall w v) (keyInstallHw w v)) s

def execEraseSlot (w : World) (v : Word) (s : State) : Host.Outcome State Fault Refusal :=
  onHw (ifAnswers w (rSec 0x200) (.eraseSlot w v) (eraseSlotHw w v)) s

/-! Alarms (R402-R405) -/

/-- Reason KEY_ERASED of ABORTED. -/
def keyErased : Nat := 5

/-- Whether a PREFETCH_STREAM has entries unfinished that bring objects in, which staging entries do not. -/
def bringsIn (h : Hw) (slot : Nat) (c : Cmd) : Bool :=
  let es := streamEntries h slot
  (List.range es.length).any fun i => (es[i]?.any fun e => e.kind ≠ 1) && decide (c.doneUnits < unitsBefore es (i + 1))

/-- Commands that are mid-way through egress or ingress of classes 0x1 and 0x9. -/
def movesKeys (h : Hw) (slot : Nat) (c : Cmd) : Bool :=
  (c.phase = .running || c.phase = .suspended) &&
    ([0x15, 0x16, 0x90, 0x91].contains c.opcode || (c.opcode = 0x14 && bringsIn h slot c))

/-- A member or opener of a task ends the task with it. DESIGN CHOICE (log 35): the manual leaves a task open whose
opening command is aborted; its members end as R248 gives for an aborted ring. -/
def abortTaskOf (h : Hw) (slot reason : Nat) : Hw :=
  match taskOf h slot with
  | none => abortCmd h slot reason 0
  | some t =>
    let all := (t.slot :: t.fetched).filter fun m => (cmdAt h m).any fun c => c.phase ≠ .finished
    let h := all.foldl (fun h m => abortCmd h m reason 0) h
    modStream h t.task fun t => { t with fault := none, abort := some (3, reason, 0, 0) }

/-- Key erasure (R403): both key stores and the private keys, and the commands mid-way through egress or ingress. -/
def eraseKeys (h : Hw) : Hw :=
  let encColls := h.colls.filter fun c => (collAt h c.slot).any fun v =>
    (routePorts h v).any fun q => (encOn h c.map q).isSome
  let h := encColls.foldl (fun h c => match collAt h c.slot with
    | none => h
    | some v => endColl h v 3 keyErased 0) h
  let h := (h.slots.filter fun e => movesKeys h e.1 e.2).foldl (fun h e => match cmdAt h e.1 with
    | some c => if movesKeys h e.1 c then abortTaskOf h e.1 keyErased else h
    | none => h) h
  { h with sec := { h.sec with linkKeys := [], egressKeys := [], idPriv := [], aliasPriv := [], keysErased := true } }

/-- The halt of R404. -/
def haltPackage (h : Hw) : Hw :=
  let h := (List.range 64).foldl (fun h n =>
    setRegBit (setRegBit h (rRingStatus n) 0 false) (rRingStatus n) 3 false) h
  let h := h.colls.foldl (fun h c => removeColl h c.slot) h
  let h := h.slots.foldl (fun h e => if e.2.phase ≠ .finished then abortCmd h e.1 keyErased 0 else h) h
  let h := { h with streams := h.streams.map fun t => { t with fault := none, abort := some (3, keyErased, 0, 0) } }
  let h := allPorts darkenPort h
  logErr { h with sec := { h.sec with halted := true } } { source := 9, kind := 8, severity := 3 }

/-- The policy of an alarm source (Table 16-5). -/
def policyOf (h : Hw) (src : Nat) : Nat := regFld h (rSec 0x108) (2 * src + 1) (2 * src)

/-- An erase policy acts in a package state that runs commands (Table 19-2). -/
def inWork (h : Hw) : Bool := h.pkg = .ready || h.pkg = .run || h.pkg = .hold || h.pkg = .quiet || h.pkg = .alarm

/-- Leaving QUIET zeroes the tile stores (Table 18-6). -/
def leaveQuiet (h : Hw) : Hw :=
  if h.pkg = .quiet then { h with mem := h.mem.zero .tile 0 (192 * 2 ^ 23) } else h

/-- ERASE_KEYS: erasure, ALARM_N, and in work the ENC ports dark and ALARM (Table 16-5). -/
def erasePolicy (h : Hw) : Hw :=
  let ports := (encSlots h).map slotPort
  let h := eraseKeys h
  let h := { h with pins := { h.pins with alarmN := true } }
  if inWork h then setPower (ports.foldl darkenPort (leaveQuiet h)) .alarm else h

/-- ALARM_LATCH and ALARM_LIVE. Whether a source is still live is open to the model (log 1): the register reads a free
value within the latches. -/
def alarmLatch (h : Hw) : Word := getReg h (rSec 0x100)
def alarmLive (h : Hw) : Word := getReg h (rSec 0x104) &&& alarmLatch h

/-- An alarm source is detected (R402-R404). With VAUX lost only the erasure acts. -/
def alarmDetectHw (src : Nat) (h : Hw) : Hw :=
  let pol := policyOf h src
  if h.pkg = .off then (if pol = 0 then h else eraseKeys h)
  else
    let h := freeReg (setRegBit h (rSec 0x100) src true) (rSec 0x104)
    let h := bumpSat h (rSec 0x10C) 1
    let h := if src = 5 then setRegBit h (rSec 8) 0 true else h
    let h := logErr h { source := 9, kind := src, severity := 3 }
    let h := if pol = 0 then h else erasePolicy h
    if pol = 2 ∧ inWork h ∧ !h.sec.halted then haltPackage h else h

def execAlarmDetect (src : Fin 6) (s : State) : Host.Outcome State Fault Refusal := onHw (alarmDetectHw src.val) s

/-- A latch of an erase policy is set. -/
def eraseLatched (h : Hw) : Bool := (List.range 6).any fun i => bit (alarmLatch h) i && decide (policyOf h i ≠ 0)

/-- The package leaves BRINGUP once steps 3 to 8 are complete and no erase-policy latch is set: READY with
Memory_Active, vector 67 and the messages held until then (R449, R451, R453). -/
def endBringUp (h : Hw) : Hw :=
  if h.pkg = .bringup ∧ 8 ≤ h.bringStep ∧ !eraseLatched h then
    let held := h.host.msixHeld
    let h := setPower { h with host := { h.host with msixHeld := [], memActive := true } } .ready
    held.foldl sendMsix h
  else h

/-- ALARM ends (R405): after a halt the package is READY with every ring disabled. Ports with ENABLE and AUTO set lock
again. -/
def leaveAlarm (h : Hw) : Hw :=
  if eraseLatched h then h
  else
    let h := { h with pins := { h.pins with alarmN := false } }
    if h.pkg = .alarm then
      let after : PkgState := if h.sec.halted ∨ (!anyRingEnabled h ∧ h.slots.isEmpty) then .ready else .run
      let h := setPower { h with sec := { h.sec with halted := false } } after
      allPorts (fun h q => if regBit h (rPort q 4) 2 then tryLock h q else h) h
    else endBringUp h

/-- A W1C write of ALARM_LATCH (R405): a latch whose source is live stays, with cause 4. -/
def alarmClearHw (v : Word) (h : Hw) : Hw :=
  let h := if alarmLatch h = 0 then h else freeReg h (rSec 0x104)
  let live := alarmLive h
  let hit := v &&& alarmLatch h
  let h' := setReg h (rSec 0x100) (alarmLatch h &&& ~~~(hit &&& ~~~live))
  let h' := if alarmLatch h' = 0 then clearReg h' (rSec 0x104) else h'
  let h' := if hit &&& live = 0 then h' else rejectSet h' (rSec 0x204) 4 0 0
  leaveAlarm h'

def execAlarmClear (w : World) (v : Word) (s : State) : Host.Outcome State Fault Refusal :=
  onHw (ifSecView w (rSec 0x100) (alarmClearHw v)) s

/-- ALARM_POLICY.POLICY_LOCK (R402). -/
def policyLockHw (h : Hw) : Hw := setRegBit h (rSec 0x108) 31 true

def execPolicyLock (w : World) (s : State) : Host.Outcome State Fault Refusal :=
  onHw (ifSecView w (rSec 0x108) policyLockHw) s

/-- A write of ALARM_POLICY: a field takes a valid policy, under the lock only a stricter one (R402). DEDUCED
(log 34): the rule holds field by field. The alarm ends where no latch of an erase policy is left by it (R405). -/
def policyWrite (v : Word) (h : Hw) : Hw :=
  let old := getReg h (rSec 0x108)
  let new := (List.range 6).foldl (fun (r : Word) i =>
    let x := fld v (2 * i + 1) (2 * i)
    if x = 3 ∨ (bit old 31 ∧ x < fld old (2 * i + 1) (2 * i)) then r else setFld r (2 * i + 1) (2 * i) x) old
  leaveAlarm (setReg h (rSec 0x108) (if bit v 31 then setBit new 31 true else new))

/-- TEST_OPEN (R421): every key slot is erased, then the chain is open until the next start. -/
def testOpenHw (h : Hw) : Hw := let h := eraseKeys h; { h with jtag := { h.jtag with isOpen := true } }

def execTestOpen (w : World) (s : State) : Host.Outcome State Fault Refusal :=
  onHw (ifSecView w (regOf .zl 8) testOpenHw) s

end Sys2Proof.Machine
end

