-- ==== Sys2Proof/Machine/Xlate.lean ====
section
/-! DEFINITION. Translation: MAP, UNMAP and INVAL (R364-R366), commits of a regime (R367), translation faults and
their resolution (R357-R359, R499). -/

namespace Sys2Proof.Machine

/-! MAP, UNMAP, INVAL (Tables 14-9, 14-10) -/

def xmVa (p : List Byte) : Nat := par p 0 8
def xmOa (p : List Byte) : Nat := par p 8 8
def xmPages (p : List Byte) : Nat := par p 0x10 4
def xmPsize (p : List Byte) : Nat := parBits p 0x14 1 0
def xmTarget (p : List Byte) : Nat := parBits p 0x14 5 4
def xmReplace (p : List Byte) : Bool := parBit p 0x14 8
def xmTbl (p : List Byte) : Nat := par p 0x18 8
def xmTblBytes (p : List Byte) : Nat := par p 0x20 4

/-- The level whose entries are leaves of a page size. -/
def leafLevel (psize : Nat) : Nat := if psize = 1 then 3 else if psize = 2 then 2 else 1
def pageBytes (psize : Nat) : Nat := 2 ^ levelShift (leafLevel psize)

def specMap : PSpec :=
  { len := 1,
    fields := [fQ 0, fQ 8, fW 0x10 31 0, fS 0x14 1 0, fV 0x14 3 2, fMax 0x14 5 4 1, fV 0x14 8 8, fQ 0x18, fV 0x20 31 0],
    aligns := [(0x58, 8, 4096)],
    extraAlign := fun _ p =>
      (if xmVa p % pageBytes (xmPsize p) ≠ 0 then [0x40] else []) ++
      (if xmOa p % pageBytes (xmPsize p) ≠ 0 then [0x48] else []) ++
      (if xmTblBytes p % 4096 ≠ 0 then [0x60] else []) }

/-- UNMAP reads neither REPLACE nor TBL_BYTES, of which Table 14-9 asks nothing there. -/
def specUnmap : PSpec :=
  { len := 1,
    fields := [fQ 0, PField.mk 0x48 8 63 0 .value 0, fW 0x10 31 0, fS 0x14 1 0, fMax 0x14 5 2 0, fV 0x14 8 8,
      PField.mk 0x58 8 63 0 .value 0, fV 0x20 31 0],
    extraAlign := fun _ p => if xmVa p % pageBytes (xmPsize p) ≠ 0 then [0x40] else [] }

def specInval : PSpec :=
  { len := 1, fields := [fQ 0, fQW 8],
    extra := fun _ _ p => if 2 ^ 48 < par p 0 8 + par p 8 8 then [0x48] else [],
    aligns := [(0x40, 8, 65536), (0x48, 8, 65536)] }

/-- The plan of a MAP or UNMAP: tables to create (address, bytes), pointers and leaves to write (entry address and
value), new tables by level and prefix with their addresses, and the bytes of the area used. -/
structure MapPlan where
  zeroes : List (Nat × Nat)
  pointers : List (Nat × Nat)
  leaves : List (Nat × Nat)
  made : List ((Nat × Nat) × Nat)
  used : Nat

/-- Where a walk of the tables stands: a table in memory, or one the plan creates. -/
inductive TableAt where
  | mem (pa : Nat)
  | fresh (pa : Nat)

def TableAt.pa : TableAt → Nat
  | .mem a => a
  | .fresh a => a

/-- A table entry read by a translation command; none for a new table's empty entry. Poison ends the command
(R499). -/
def readEntryPa (r va : Nat) (t : TableAt) (l : Nat) : Run Nat :=
  match t with
  | .fresh _ => pure 0
  | .mem table => do
    match readPa (← get) (castle (if r = 1 then .secure else .nonSecure)) (table + va / 2 ^ levelShift l % levelEntries l * 8) 8 with
    | (.bytes bs none, h) => set h; pure (leNat bs)
    | (.bytes _ (some _), h) => set h; throw (.stop 0x30 va 0)
    | (.held, h) => set h; throw .wait
    | (_, h) => set h; throw (.stop 0x11 (2 ^ 63 + 5 * 2 ^ 48) va)

/-- Bytes of a table of a level. -/
def tableBytes (l : Nat) : Nat := if l = 3 then 256 else 4096

/-- Fails page i of a command with a cause of R365. -/
def pageFail (cause i va : Nat) : Run α := throw (.stop 0x11 (2 ^ 63 + cause * 2 ^ 48 + i % 2 ^ 32) va)

/-- The entry that stands where a page's leaf is to go, or nothing where a pointer above it is not present (R365). make
says how a missing table is created. The fuel is the levels left. -/
def planWalk (r i va lv : Nat) (make : MapPlan → Nat → Nat → Nat → Run (Option (MapPlan × Nat))) :
    Nat → Nat → TableAt → MapPlan → Run (Option (TableAt × Nat) × MapPlan)
  | 0, _, _, pl => pure (none, pl)
  | f + 1, l, t, pl => do
    let e ← readEntryPa r va t l
    if l = lv then pure (some (t, e), pl)
    else
      let key := (l + 1, va / 2 ^ levelShift l)
      if e % 2 = 1 then
        if e / 2 % 2 = 1 then
          (if leafOk r l e then pageFail 4 i va else pageFail 5 i va)
        else if pointerOk (← get) r l e then planWalk r i va lv make f (l + 1) (.mem (e / 2 ^ 8 % 2 ^ 44 * 2 ^ 8)) pl
        else pageFail 5 i va
      else match pl.made.find? fun m => m.1 = key with
        | some m => planWalk r i va lv make f (l + 1) (.fresh m.2) pl
        | none => do
          match ← make pl l (t.pa + va / 2 ^ levelShift l % levelEntries l * 8) i with
          | none => pure (none, pl)
          | some (pl, a) => planWalk r i va lv make f (l + 1) (.fresh a) { pl with made := pl.made ++ [(key, a)] }

/-- A valid entry that stands at leaf level of the range. -/
def leafCheck (r l i va e : Nat) : Run Unit :=
  if e % 2 = 0 then pure ()
  else if l < 3 ∧ e / 2 % 2 = 0 then do
    if pointerOk (← get) r l e then pageFail 4 i va else pageFail 5 i va
  else if e / 2 % 2 = 1 ∧ leafOk r l e then pure () else pageFail 5 i va

/-- A new table in the area of a MAP: tables follow each other, each at its alignment (R365). -/
def newTable (p : List Byte) (va : Nat) (pl : MapPlan) (l entry i : Nat) : Run (Option (MapPlan × Nat)) :=
  let n := tableBytes (l + 1)
  let at_ := (pl.used + n - 1) / n * n
  if xmTbl p = 0 ∨ xmTblBytes p < at_ + n then pageFail 3 i va
  else
    let a := xmTbl p + at_
    pure (some ({ pl with zeroes := pl.zeroes ++ [(a, n)], pointers := pl.pointers ++ [(entry, a + 1)], used := at_ + n }, a))

/-- The leaf that MAP writes for a page. -/
def mapLeaf (p : List Byte) (oa : Nat) : Nat :=
  oa + xmTarget p * 16 + (parBit p 0x14 3).toNat * 8 + (parBit p 0x14 2).toNat * 4 + 3

/-- Checks page i of a MAP and plans its writes. -/
def mapPage (r : Nat) (p : List Byte) (root : Nat) (pl : MapPlan) (i : Nat) : Run MapPlan := do
  let size := pageBytes (xmPsize p)
  let va := xmVa p + i * size
  let oa := xmOa p + i * size
  let lv := leafLevel (xmPsize p)
  if 2 ^ 48 < va + size ∨ 2 ^ 52 < oa + size ∨ !leafTargetOk r (mapLeaf p oa) size then pageFail 1 i va
  match ← planWalk r i va lv (fun pl l a i => newTable p va pl l a i) 4 0 (.mem root) pl with
  | (none, pl) => pure pl
  | (some (t, e), pl) => do
    leafCheck r lv i va e
    if e % 2 = 1 ∧ !xmReplace p then pageFail 2 i va
    pure { pl with leaves := pl.leaves ++ [(t.pa + va / 2 ^ levelShift lv % levelEntries lv * 8, mapLeaf p oa)] }

/-- Checks page i of an UNMAP: an entry already not present is skipped. -/
def unmapPage (r : Nat) (p : List Byte) (root : Nat) (pl : MapPlan) (i : Nat) : Run MapPlan := do
  let size := pageBytes (xmPsize p)
  let va := xmVa p + i * size
  let lv := leafLevel (xmPsize p)
  if 2 ^ 48 < va + size then pageFail 1 i va
  match ← planWalk r i va lv (fun _ _ _ _ => pure none) 4 0 (.mem root) pl with
  | (none, pl) => pure pl
  | (some (t, e), pl) => do
    leafCheck r lv i va e
    if e % 2 = 0 then pure pl
    else pure { pl with leaves := pl.leaves ++ [(t.pa + va / 2 ^ levelShift lv % levelEntries lv * 8, e - 1)] }

/-- Writes bytes of the tables. -/
def putPa (r a : Nat) (bs : List Byte) : Run Unit := do
  match writePa (← get) (castle (if r = 1 then .secure else .nonSecure)) a bs with
  | (.held, _) => throw .wait
  | (_, h) => set h

/-- A non-secure MAP whose output or table area lies in a secure region (R365). -/
def mapSecureHit (h : Hw) (p : List Byte) : Bool :=
  let size := pageBytes (xmPsize p)
  let pas := (if xmTarget p = 0 then (List.range (xmPages p)).flatMap fun i =>
      (List.range (size / 65536)).map fun k => xmOa p + i * size + k * 65536 else []) ++
    (if xmTbl p = 0 then [] else (List.range (xmTblBytes p / 4096)).map fun k => xmTbl p + 4096 * k)
  pas.any fun a => decide (a < hbmEnd) && regionSecure h a

/-- The checks and the writes of a MAP or UNMAP: the bytes of table area used. -/
def mapWork (map : Bool) (w : World) (p : List Byte) : Run Nat := do
  let h ← get
  let r := regimeOf w
  if map ∧ w = .nonSecure ∧ mapSecureHit h p then throw (.stop 0x13 0 0)
  if map ∧ xmTbl p ≠ 0 ∧ !(hbmOfWorld h w (xmTbl p) (max 1 (xmTblBytes p))) then pageFail 1 0 (xmVa p)
  let page := if map then mapPage r p (rootOf h r) else unmapPage r p (rootOf h r)
  let pl ← (List.range (xmPages p)).foldlM (fun pl i => page pl i) (MapPlan.mk [] [] [] [] 0)
  for z in pl.zeroes do putPa r z.1 (List.replicate z.2 0)
  for e in pl.pointers do putPa r e.1 (leBytes 8 e.2)
  for e in pl.leaves do putPa r e.1 (leBytes 8 e.2)
  modifyHw fun h => dropXlate h r (xmVa p) (xmPages p * pageBytes (xmPsize p))
  pure pl.used

/-- Another command of the world pins a page in a range (R360, R366). -/
def pinsIn (h : Hw) (slot : Nat) (w : World) (va n : Nat) : Bool :=
  h.slots.any fun e => e.1 ≠ slot && e.2.world = w && e.2.pins.any fun q =>
    decide (q.1 * 65536 < va + n) && decide (va < q.1 * 65536 + 65536)

/-- INVALS (Table 14-11). -/
def finishXlate (h : Hw) (slot d0 : Nat) : Hw := finish (bumpSat h 0x300010 1) slot 0 d0 0

/-- MAP and UNMAP: once written they wait for the pins of their range (R366); priv keeps the bytes used. -/
def mapRun (map : Bool) (slot : Nat) (c : Cmd) (h : Hw) : Hw :=
  let p := c.packet
  let n := xmPages p * pageBytes (xmPsize p)
  let close := fun (h : Hw) used => if pinsIn h slot c.world (xmVa p) n then h else finishXlate h slot (if map then used else 0)
  match c.priv with
  | [1, used] => close h used
  | _ =>
    match runOn (mapWork map c.world p) h with
    | (.ok used, h) => close (modCmd h slot fun c => { c with priv := [1, used] }) used
    | (.error .wait, _) => h
    | (.error f, h') => takeFail h h' slot f

/-- INVAL: the caches drop the range, and it ends once no command pins a page of it (R366). -/
def invalRun (slot : Nat) (c : Cmd) (h : Hw) : Hw :=
  let h := dropXlate h (regimeOf c.world) (par c.packet 0 8) (par c.packet 8 8)
  if pinsIn h slot c.world (par c.packet 0 8) (par c.packet 8 8) then h else finishXlate h slot 0

def execMap (slot : SlotId) (s : State) : Host.Outcome State Fault Refusal :=
  onHw (withCmd slot.val 0xA0 (mapRun true slot.val)) s

def execUnmap (slot : SlotId) (s : State) : Host.Outcome State Fault Refusal :=
  onHw (withCmd slot.val 0xA1 (mapRun false slot.val)) s

def execInval (slot : SlotId) (s : State) : Host.Outcome State Fault Refusal :=
  onHw (withCmd slot.val 0xA2 (invalRun slot.val)) s

/-! XLATE_COMMIT (R367) -/

/-- The causes for which a commit of regime r is refused. -/
def xlateCauses (h : Hw) (r : Nat) : List (Nat × Nat) :=
  let stg := fun rel => regOf (.regime r) rel
  let w := if r = 1 then World.secure else .nonSecure
  let root := getReg64 h (stg 0)
  let dreg := getReg64 h (stg 8)
  let count := regFld h (stg 0x10) 12 8
  let fqb := getReg64 h (stg 0x14)
  let fqs := (getReg h (stg 0x1C)).toNat
  (if h.slots.any fun e => e.2.world = w then [(1, 0)] else []) ++
  (if root % 4096 ≠ 0 ∨ hbmEnd < root + 4096 ∨ dreg % 64 ≠ 0 ∨ hbmEnd ≤ dreg ∨ hbmEnd < dreg + 64 * count then [(2, 0)] else []) ++
  (if 16 < count ∨ !(fqs = 0 || (isPow2 fqs && decide (16 ≤ fqs) && decide (fqs ≤ 4096))) ∨ fqb % 4096 ≠ 0 then [(3, 0)] else [])

/-- XLATE_COMMIT. DEDUCED (log 88): the caches keep nothing of the regime over it, since no value depends on them
(R356). -/
def xlateCommitHw (r : Nat) (h : Hw) : Hw :=
  match firstCause (xlateCauses h r) with
  | some c => rejectSet h (regOf (.regime r) 0x44) c.1 0 0
  | none =>
    let h := dropXlate (copyRegs h (regOf (.regime r) 0) (xLive r 0) 8) r 0 (2 ^ 48)
    setRegBit h 0x300000 r (regimeEnabled h r)

def execXlateCommit (w : World) (r : RegimeId) (s : State) : Host.Outcome State Fault Refusal :=
  onHw (ifAnswers w (regOf (.regime r.val) 0x40) (.xlateCommit w r) (xlateCommitHw r.val)) s

/-! Faults (R359) and their resolution (R358) -/

/-- A fault met by a command in a slot, by its class: collectives abort their members, the others as Table 14-7
gives. -/
def faultOf (before after : Hw) (slot : Nat) (f : Fail) : Hw :=
  match collAt after slot with
  | some v => collFailed before after v f
  | none => takeFail before after slot f

/-- A command suspended for pre-emption alone may still take a translation fault (R57). -/
def lateFault (h : Hw) (slot : Nat) (c : Cmd) : Bool :=
  working h && c.phase = .suspended && c.prePending && c.fault.isNone && !((taskOf h slot).any fun t => t.fault.isSome)

/-- An access of a command faults (R57, R354, R359): an address that does translate, or a command that can issue no
access, faults nothing. -/
def translationFaultHw (slot va : Nat) (write : Bool) (h : Hw) : Hw :=
  match cmdAt h slot with
  | none => h
  | some c =>
    if (active h slot c.opcode).isNone ∧ !lateFault h slot c then h
    else
      let acc : Acc := if write then .wr else .rd
      match translate h (whoOf slot c) va acc with
      | (.ok _ _, _) => h
      | (.notPresent _, h') => faultOf h h' slot (.xlate va acc true)
      | (.permission, h') => faultOf h h' slot (.xlate va acc false)
      | (.poisoned, h') => faultOf h h' slot (.walkPoison va)
      | (.held _, _) => h

def execTranslationFault (slot : SlotId) (va : Quad) (write : Bool) (s : State) : Host.Outcome State Fault Refusal :=
  onHw (translationFaultHw slot.val va.toNat write) s

/-- An outstanding fault is resolved: DEMAND_MAPS counts it and the command may go on. -/
def faultResolved (h : Hw) (slot : Nat) : Hw :=
  modCmd (bumpSat h rDemandMaps 1) slot fun c => { c with fault := none }

/-- The task's fault can be served no more: it takes this status and is not replayed (R248, R499). -/
def taskHopeless (h : Hw) (t : Stream) (status va units : Nat) : Hw :=
  modStream h t.task fun t =>
    { t with fault := t.fault.map fun f => { f with status := status, detail0 := va, detail1 := units, replayable := false } }

/-- An outstanding fault becomes a permission fault, or its record is dropped (R358): with the one error record of that
kind, the command fails, or its task. -/
def faultRefused (h : Hw) (slot : Nat) (c : Cmd) (pf : PendingFault) (kind : Nat) : Hw :=
  let h := setCmd h slot { c with fault := none }
  match struckBy h slot, collAt h slot with
  | some t, _ =>
    let h := (cmdErr (bumpSat h rPermFaults 1) slot c 0x20 pf.va c.written 7 kind (regimeOf c.world) pf.va).2
    taskHopeless h t 0x20 pf.va c.written
  | none, some v => collPermission h v pf.va kind
  | none, none => faultEnds (bumpSat h rPermFaults 1) slot { c with fault := none } pf.va kind

/-- A resolution met poison (R499): the command completes as MEM_UNCORRECTABLE, whose outputs are undefined. -/
def faultPoisoned (h : Hw) (slot : Nat) (c : Cmd) (pf : PendingFault) : Hw :=
  let h := spoilOutputs (setCmd h slot { c with fault := none }) slot
  match struckBy h slot, collAt h slot with
  | some t, _ => taskHopeless h t 0x30 pf.va (endCount c)
  | none, some v => failColl h v 0x30 pf.va 0 0 pf.va
  | none, none =>
    let h' := finish h slot 0x30 pf.va (endCount c)
    match taskOf h slot with
    | some t => abortMembers h' t 0x30
    | none => h'

/-- What ZERO resolution finds; it waits while the tables, the pool or the page lie in a held range (R211). -/
inductive ZeroAnswer where
  | already
  | mapped
  | refused
  | poisoned
  | waits
  deriving DecidableEq, Repr

/-- The pool's next frame (R358): header and entry checked; HEAD moves, the frame is zero-filled, the leaf written and
the page's range invalidated. -/
def popFrame (h : Hw) (r va : Nat) (d : Region) (leafPa : Nat) : ZeroAnswer × Hw :=
  let who := castle (if r = 1 then .secure else .nonSecure)
  match readPa h who d.pool 64 with
  | (.bytes hd none, h) =>
    let head := leAt hd 0 4
    let n := (leAt hd 4 4 + 2 ^ 32 - head) % 2 ^ 32
    let cap := leAt hd 8 4
    if !isPow2 cap ∨ cap < n ∨ n = 0 then (.refused, h)
    else match readPa h who (d.pool + 0x40 + head % cap * 4) 4 with
      | (.bytes f none, h) =>
        let pa := leNat f * d.page
        let e := pa + d.write.toNat * 8 + d.read.toNat * 4 + 3
        if hbmEnd < pa + d.page then (.refused, h)
        else
          let head := writePa h who d.pool (leBytes 4 (head + 1))
          let page := writePa head.2 who pa (List.replicate d.page 0)
          let leaf := writePa page.2 who leafPa (leBytes 8 e)
          if head.1 = .held ∨ page.1 = .held ∨ leaf.1 = .held then (.waits, leaf.2)
          else (.mapped, dropXlate leaf.2 r (va / d.page * d.page) d.page)
      | (.bytes _ (some _), h) => (.poisoned, h)
      | (.held, h) => (.waits, h)
      | (_, h) => (.refused, h)
  | (.bytes _ (some _), h) => (.poisoned, h)
  | (.held, h) => (.waits, h)
  | (_, h) => (.refused, h)

/-- ZERO resolution of a fault (R358). -/
def zeroResolve (h : Hw) (r : Nat) (pf : PendingFault) : ZeroAnswer × Hw :=
  match readRegion h r pf.region with
  | (.poisoned, h) => (.poisoned, h)
  | (.held, h) => (.waits, h)
  | (.absent, h) => (.refused, h)
  | (.found d, h) =>
    let lv := leafLevel d.psize
    match pathTo h r pf.va with
    | (.leaf l _ _, h) => (if l = lv then .already else .refused, h)
    | (.absent l leafPa, h) => if l = lv ∧ d.ok then popFrame h r pf.va d leafPa else (.refused, h)
    | (.broken, h) => (.refused, h)
    | (.poisoned, h) => (.poisoned, h)
    | (.held _, h) => (.waits, h)

def zeroResolutionHw (slot : Nat) (h : Hw) : Hw :=
  match cmdAt h slot with
  | none => h
  | some c =>
    match c.fault with
    | none => h
    | some pf =>
      if pf.report then h
      else match zeroResolve h (regimeOf c.world) pf with
        | (.already, h) => faultResolved h slot
        | (.mapped, h) => faultResolved h slot
        | (.refused, h) => faultRefused h slot c pf 1
        | (.poisoned, h) => faultPoisoned h slot c pf
        | (.waits, _) => h

def execZeroResolution (slot : SlotId) (s : State) : Host.Outcome State Fault Refusal :=
  onHw (zeroResolutionHw slot.val) s

/-- The fault of a command in a slot, if it waits on a record of its regime that a predicate takes. -/
def reported (h : Hw) (r slot : Nat) (p : PendingFault → Bool) : Option (Cmd × PendingFault) :=
  (cmdAt h slot).bind fun c => (c.fault.filter fun f => regimeOf c.world = r && f.report && p f).map fun f => (c, f)

/-- The castle reads the leaf of a reported fault again (R358). -/
def resolveOne (r : Nat) (id : Word) (h : Hw) (slot : Nat) : Hw :=
  match reported h r slot fun f => !f.unposted && f.id = id with
  | none => h
  | some (c, pf) =>
    match pathTo h r pf.va with
    | (.absent _ _, h) => faultRefused h slot c pf 1
    | (.poisoned, h) => faultPoisoned h slot c pf
    | (.held _, _) => h
    | (_, h) => faultResolved h slot

/-- XLATE_RESOLVE (R358): every fault that shares the record is resolved. A FAULT_ID with no outstanding record has no
effect (R363). -/
def xlateResolveHw (r : Nat) (id : Word) (h : Hw) : Hw := (h.slots.map Prod.fst).foldl (resolveOne r id) h

/-- A fault that waits for room in the fault queue has its record written (R358). -/
def postFault (r : Nat) (h : Hw) (slot : Nat) : Hw :=
  match reported h r slot PendingFault.unposted with
  | none => h
  | some (c, pf) =>
    match readRegion h r pf.region with
    | (.found d, h) =>
      (match reportFault h slot c d pf.va pf.write with
       | (.written id, h) => setCmd h slot { c with fault := some { pf with id := id, unposted := false } }
       | (.full, h) => h
       | (.dropped, h) => faultRefused h slot c pf 2)
    | (.absent, h) => faultRefused h slot c pf 1
    | (.poisoned, h) => faultPoisoned h slot c pf
    | (.held, h) => h

/-- A write of FQ_CONS makes room in the fault queue (R358, Table 14-11). -/
def fqConsHw (r : Nat) (v : Word) (h : Hw) : Hw :=
  (h.slots.map Prod.fst).foldl (postFault r) (setReg h (regOf (.regime r) 0x4C) v)

def execXlateResolve (w : World) (r : RegimeId) (id : Word) (s : State) : Host.Outcome State Fault Refusal :=
  onHw (ifAnswers w (regOf (.regime r.val) 0x50) (.xlateResolve w r id) (xlateResolveHw r.val id)) s

/-! CLR_COUNTERS of a tile's translation cache (R368) -/

def tcClrHw (t : Nat) (h : Hw) : Hw :=
  clearReg (setXcache h t { xcache h t with hits := 0, misses := 0 }) (regOf (.tile t) 0x3010)

def execTcClrCounters (w : World) (t : TileId) (s : State) : Host.Outcome State Fault Refusal :=
  onHw (ifAnswers w (regOf (.tile t.val) 0x3004) (.tcClrCounters w t) (tcClrHw t.val)) s

end Sys2Proof.Machine
end

