-- ==== Sys2Proof/Machine/Opcodes.lean ====
section
/-! DEFINITION. The assigned opcodes (Table 2-3): the parameter form of each, and the work that runs in units. -/

namespace Sys2Proof.Machine

/-- Parameters of QUERY, TELEMETRY (R464) and ATTEST (R396). -/
def specQuery : PSpec :=
  { len := 1, fields := [fQ 0, fS 8 31 0], aligns := [(0x40, 8, 8)],
    extra := fun _ _ p => if par p 8 4 < 256 then [0x48] else [] }

/-- Bytes of a TELEMETRY output: header and sections (R466, Table 19-7). -/
def telemetryBytes (groups : Nat) : Nat :=
  [(192, 32), (24, 32), (12, 32), (4, 32), (51, 16), (1, 32)].foldl
    (fun (r : Nat × Nat) g => (r.1 + 1, r.2 + if groups.testBit r.1 then 16 + g.1 * g.2 else 0)) (0, 64) |>.2

def specTelemetry : PSpec :=
  { len := 1, fields := [fQ 0, fS 8 31 0, fW 0xC 5 0], aligns := [(0x40, 8, 8)],
    extra := fun _ _ p =>
      if par p 8 4 < telemetryBytes (parBits p 0xC 5 0) ∧ parBits p 0xC 5 0 ≠ 0 then [0x48] else [] }

/-- The build record of the package (R479). -/
def buildRecord (f : Fuses) : List Byte :=
  leBytes 8 f.serial.toNat ++
  (List.range f.places.length).flatMap fun i =>
    leBytes 4 (f.places.getD i 0).toNat ++ leBytes 4 (f.repairs.getD i []).length ++
    (f.repairs.getD i []).flatMap fun e => leBytes 8 e.toNat

/-- BR_BYTES, set at bring-up step 1 (Table 20-4). -/
def brBytes (h : Hw) : Nat := (getReg h 0x100).toNat

def round8 (n : Nat) : Nat := ceilDiv n 8 * 8

/-- Bytes of an ATTEST report (R397). -/
def attestBytes (h : Hw) : Nat := 0x1D0 + round8 (brBytes h) + 120

def specAttest : PSpec :=
  { len := 1, fields := [fQ 0, fS 8 31 0, fBytes 0x10 32], aligns := [(0x40, 8, 8)],
    extra := fun h _ p => if par p 8 4 < attestBytes h then [0x48] else [] }

/-- The parameter form of an opcode; none where it is unassigned (R36, R48 step 1). -/
def specOf (op : Nat) : Option PSpec :=
  if op = 0x00 ∨ op = 0x01 then some specNop
  else if op = 0x02 then some specWaitEvent
  else if op = 0x03 then some specSignal
  else if op = 0x04 then some specMapSelect
  else if op = 0x05 then some specCommitEpoch
  else if op = 0x10 then some specCopy
  else if op = 0x11 then some specFill
  else if op = 0x12 ∨ op = 0x13 then some specIndexed
  else if op = 0x14 then some specStream
  else if op = 0x15 then some specSpill
  else if op = 0x16 then some specPromote
  else if 0x20 ≤ op ∧ op ≤ 0x23 then some (specMatrix op)
  else if 0x30 ≤ op ∧ op ≤ 0x38 then some (specVector op)
  else if op = 0x40 then some (specAttn false)
  else if op = 0x41 then some (specAttn true)
  else if op = 0x42 then some specKvAppend
  else if op = 0x43 then some specKvPage
  else if op = 0x44 then some specBucketSort
  else if op = 0x50 then some (specCmp true)
  else if op = 0x51 then some (specCmp false)
  else if op = 0x60 then some specPawnOp
  else if op = 0x61 then some specUpdate
  else if op = 0x62 then some specDigest
  else if op = 0x63 then some specGemv
  else if 0x70 ≤ op ∧ op ≤ 0x76 then some (specColl op)
  else if op = 0x80 then some specLossScale
  else if op = 0x81 then some specStepBegin
  else if op = 0x82 then some specStepEnd
  else if op = 0x90 then some specNotate
  else if op = 0x91 then some specRestore
  else if op = 0x92 then some specVerify
  else if op = 0xA0 then some specMap
  else if op = 0xA1 then some specUnmap
  else if op = 0xA2 then some specInval
  else if op = 0xF0 then some specQuery
  else if op = 0xF1 then some specTelemetry
  else if op = 0xF2 then some specAttest
  else none

/-- The work of a command of classes 0x1 to 0x5, which runs in units (Table 2-10); other commands have none. -/
def workOf (slot : Nat) (c : Cmd) : Run (Option Work) := do
  let op := c.opcode
  if op = 0x10 then pure (some (copyWork slot c))
  else if op = 0x11 then pure (some (fillWork slot c))
  else if op = 0x12 ∨ op = 0x13 then pure (some (indexedWork slot c (op = 0x13)))
  else if op = 0x14 then do
    streamPre slot c
    pure (some (streamWork slot c (← get)))
  else if op = 0x15 then pure (some (spillWork slot c))
  else if op = 0x16 then pure (some (promoteWork slot c))
  else if 0x20 ≤ op ∧ op ≤ 0x22 then pure (some (mxWork slot c))
  else if op = 0x23 then pure (some (selWork slot c))
  else if op = 0x30 then pure (some (vopWork slot c))
  else if op = 0x36 then pure (some (ropeWork slot c))
  else if op = 0x37 then pure (some (rngWork slot c))
  else if op = 0x38 then pure (some (amaxWork slot c))
  else if 0x31 ≤ op ∧ op ≤ 0x35 then pure (some (axisWork slot c))
  else if op = 0x40 ∨ op = 0x41 then do
    let pl ← attnPlan (whoOf slot c) c.packet
    pure (some (attnWork (op = 0x41) slot c pl.1 pl.2))
  else if op = 0x42 then do pure (some (← kvAppendPlan slot c))
  else if op = 0x43 then pure (some (kvPageWork slot c))
  else if op = 0x44 then pure (some (bucketWork slot c))
  else if op = 0x50 then pure (some (cmpWork true slot c))
  else if op = 0x51 then pure (some (cmpWork false slot c))
  else pure none

end Sys2Proof.Machine
end

