-- ==== Sys2Proof/Machine/Links.lean ====
section
/-! DEFINITION. Zinolu die links (R407-R422): flits and their end-to-end code, the lane test and its spares, control
channels and their exhaustion, the capability exchange, and the test port. -/

namespace Sys2Proof.Machine

/-- E2E_ERR and CTL_RETRY of a link (Table 17-8). -/
def rE2e (l : Nat) : Nat := rZl (0x104 + 16 * l)
def rRetry (l : Nat) : Nat := rZl (0x108 + 16 * l)

/-- Bundles of a link as built (Table 17-1). -/
def linkBundles (l : Nat) : Nat := if l < 12 then 64 else if l < 36 then 32 else if l < 49 then 8 else 32

/-- The dies of the build record in chain order (Table 17-7): the link whose outer die a die is; board 2 is none. -/
def linkOfDie (i : Nat) : Option Nat :=
  if i = 0 then some 48
  else
    let b := (i - 1) / 17
    let k := (i - 1) % 17
    if k = 0 then (if b < 2 then some (49 + b) else none)
    else if k < 5 then some (4 * b + (k - 1))
    else if k < 13 then some (12 + 8 * b + (k - 5))
    else some (36 + 4 * b + (k - 13))

/-- The outer die of a link, by its position in the build record. -/
def dieOfLink (l : Nat) : Nat := ((List.range 52).find? fun i => linkOfDie i = some l).getD 0

/-! Flits (R409, R410) -/

/-- The converters run, so dies exchange data and control. -/
def powered (h : Hw) : Bool := h.pkg ≠ .off && h.pkg ≠ .aux

/-- A command in a slot that makes progress, whatever its opcode. -/
def activeAny (h : Hw) (slot : Nat) : Option Cmd :=
  match cmdAt h slot with
  | none => none
  | some c => active h slot c.opcode

/-- The output ranges and the work buffer of a command. -/
def outsOf (slot : Nat) (c : Cmd) : Run (List (Nat × Nat) × List (Nat × Nat)) := do
  match ← workOf slot c with
  | none => pure (c.outRanges, c.buffer)
  | some w => pure (← w.outs, w.buffer)

/-- A command meets a bad flit from a link (R409, Table 3-8): it fails as D2D_DATA_ERROR, its output undefined. -/
def dataError (h : Hw) (slot l : Nat) : Hw :=
  match activeAny h slot with
  | none => h
  | some c =>
    match collAt h slot with
    | some v => failColl h v 0x43 l 0 0 0
    | none =>
      let h := match runOn (outsOf slot c) h with
        | (.ok x, _) => modCmd h slot fun c => { c with outRanges := x.1, buffer := x.2 }
        | _ => h
      failCmd (spoilOutputs h slot) slot 0x43 l (endCount c)

/-- A data flit arrives on a link, where its valid wire marks one: a failure counts where it is first seen, and its
consumer discards the data. A board stops accepting flits of a compute die whose control channel is lost (Table 17-5). -/
def flitHw (x : FlitObs) (h : Hw) : Hw :=
  let shut := decide (x.link.val < 12) && regBit h (rLink x.link.val) 6
  if !powered h ∨ !isFlit x.valid ∨ shut ∨ flitOk x.bytes x.track ∨ x.marked then h
  else
    let h := bumpSat h (rE2e x.link.val) 1
    match x.consumer with
    | none => h
    | some slot => dataError h slot.val x.link.val

def execFlit (x : FlitObs) (s : State) : Host.Outcome State Fault Refusal := onHw (flitHw x) s

/-- 64 failures within 1 s (R410). -/
def degradedHw (serial : Quad) (l : Nat) (h : Hw) : Hw :=
  if !powered h then h
  else if 12 ≤ l ∧ l < 36 then loseStack serial (l - 12) h
  else logErr (setRegBit h (rLink l) 7 true) { source := 6, kind := 1, severity := 3, unit := l }

def execLinkDegraded (l : LinkId) (s : State) : Host.Outcome State Fault Refusal :=
  onHw (degradedHw s.fuses.serial l.val) s

def zlClrHw (h : Hw) : Hw := (List.range 51).foldl (fun h l => clearReg (clearReg h (rE2e l)) (rRetry l)) h

def execZlClrCounters (w : World) (s : State) : Host.Outcome State Fault Refusal := onHw (ifAnswers w (rZl 8) (.zlClrCounters w) zlClrHw) s

/-! Lane test (R411-R414) -/

/-- The fields of a lane-repair entry (Table 17-3). -/
def reRetired (e : Quad) : Bool := bit e 63
def reDir (e : Quad) : Bool := bit e 62
def reBundle (e : Quad) : Nat := fld e 61 56
def reCount (e : Quad) : Nat := fld e 55 53
def reWire (e : Quad) (i : Nat) : Nat := fld e (16 + 8 * i + 7) (16 + 8 * i)

/-- CHECK: the first byte of SHAKE256 over bytes 7 to 1 of the entry. -/
def reCheck (v : Nat) : Nat := leNat (shake256 ((List.range 7).map fun i => BitVec.ofNat 8 (v / 2 ^ (8 * (7 - i)))) 1)

/-- An entry of a half with these wires spared, or of a retired bundle. -/
def repairEntry (retired dir : Bool) (bundle : Nat) (wires : List Nat) : Quad :=
  let ws := if retired then [] else wires
  let wire := fun i => (ws[i]?).getD 0xFF
  let v := retired.toNat * 2 ^ 63 + dir.toNat * 2 ^ 62 + bundle * 2 ^ 56 + ws.length * 2 ^ 53 +
    wire 3 * 2 ^ 40 + wire 2 * 2 ^ 32 + wire 1 * 2 ^ 24 + wire 0 * 2 ^ 16
  BitVec.ofNat 64 (v + reCheck v)

/-- An entry is sound (R414): its CHECK, its wire codes, and its COUNT, which is the number of its wire fields; those of
a retired bundle are 0xFF. -/
def repairOk (e : Quad) : Bool :=
  let ws := (List.range 4).map (reWire e)
  fld e 7 0 = reCheck e.toNat && decide (reCount e ≤ 4) && (!reRetired e || reCount e = 0) &&
  (List.range 4).all fun i =>
    let x := ws.getD i 0xFF
    if i < reCount e then decide (x ≤ 0x41) else x = 0xFF

/-- The entry of the map for a half. -/
def mapEntry (f : Fuses) (l b : Nat) (dir : Bool) : Option Quad :=
  (f.repairs.getD (dieOfLink l) []).find? fun e => reBundle e = b && reDir e = dir

def mapWires (f : Fuses) (l b : Nat) (dir : Bool) : List Nat :=
  match mapEntry f l b dir with
  | none => []
  | some e => (List.range (reCount e)).map (reWire e)

/-- What the test found in a half: failed wires in ascending order, and whether the clock failed. -/
def halfTest (obs : BringUpObs) (l b : Nat) (dir : Bool) : List Nat × Bool :=
  let hs := obs.halves.filter fun x => x.link.val = l && x.bundle.val = b && x.dir = dir
  ((List.range 70).filter fun w => hs.any fun x => x.failed.any fun y => y.val = w, hs.any HalfTest.clockFailed)

/-- Wires of a half that a spare replaces, those of the map and those that failed (R412), each with its spare: in
ascending order of wire index, the first takes the first spare that has not failed (R411). And whether the spares
suffice. -/
def halfSpares (f : Fuses) (obs : BringUpObs) (l b : Nat) (dir : Bool) : List (Nat × Nat) × Bool :=
  let t := halfTest obs l b dir
  let old := mapWires f l b dir
  let need := (List.range 66).filter fun w => old.contains w || t.1.contains w
  let good := (List.range 4).filter fun k => !t.1.contains (66 + k)
  (List.zip need good, decide (need.length ≤ good.length) && !t.2)

/-- A bundle is retired: at assembly in either half, or because a half needs more than 4 spares (R26, R412). -/
def bundleRetired (f : Fuses) (obs : BringUpObs) (l b : Nat) : Bool :=
  [false, true].any fun d => (mapEntry f l b d).any reRetired || !(halfSpares f obs l b d).2

/-- Retired bundles of a link. -/
def retiredOf (f : Fuses) (obs : BringUpObs) (l : Nat) : List Nat :=
  (List.range (linkBundles l)).filter (bundleRetired f obs l)

/-- Where REPAIR_SEL names a half. -/
def laneKey (l b : Nat) (dir : Bool) : Nat := l * 128 + b * 2 + dir.toNat

/-- LINK_STATUS and the entries in force of a link after its test (R412, R413): each bundle retired at a start is
recorded. -/
def testLink (f : Fuses) (obs : BringUpObs) (h : Hw) (l : Nat) : Hw :=
  let out := retiredOf f obs l
  let halves := (List.range (linkBundles l)).flatMap fun b => [(b, false), (b, true)]
  let used := halves.map fun x => (x, if out.contains x.1 then [] else (halfSpares f obs l x.1 x.2).1)
  let spares := used.foldl (fun n x => n + x.2.length) 0
  let h := setReg h (rLink l) (BitVec.ofNat 32 (spares * 2 ^ 16 + (linkBundles l - out.length) * 2 ^ 8))
  let h := used.foldl (fun h x =>
    let gone := out.contains x.1.1
    if x.2 = [] ∧ !gone then h
    else
      let e := repairEntry gone x.1.2 x.1.1 (x.2.map Prod.fst)
      { h with lanes := smPut h.lanes (laneKey l x.1.1 x.1.2) (LaneRepair.mk e (x.2.map Prod.snd)) }) h
  out.foldl (fun h _ => logErr h { source := 6, kind := 3, severity := 0, unit := l }) h

/-- The whole lane test. -/
def laneTest (f : Fuses) (obs : BringUpObs) (h : Hw) : Hw :=
  (List.range 51).foldl (testLink f obs) { h with lanes := [] }

/-- A stack whose link needs a bundle retired is lost (R26). -/
def stacksByLanes (f : Fuses) (obs : BringUpObs) : List Nat :=
  (List.range 24).filter fun s => retiredOf f obs (12 + s) ≠ []

/-- A link with no working bundle counts as a missing die (R26). -/
def linkDead (f : Fuses) (obs : BringUpObs) : Bool :=
  (List.range 51).any fun l => (retiredOf f obs l).length = linkBundles l

/-! Fuse integrity and capabilities (R28, R30, R418, R419) -/

/-- A place word is sound (R28). -/
def placeOk (w : Word) : Bool :=
  let kind := fld w 31 28
  let board := fld w 27 26
  let site := fld w 25 20
  decide (kind ≤ 4) && decide (board < 3) && fld w 11 8 = 0 && decide (fld w 15 12 < 10) &&
  (if kind = 0 then site = 0 else if kind = 3 then board = 1 && site = 0
   else if kind = 2 then decide (site < 8) else decide (site < 4)) &&
  fld w 7 0 = leNat (shake256 [BitVec.ofNat 8 (fld w 31 24), BitVec.ofNat 8 (fld w 23 16), BitVec.ofNat 8 (fld w 15 8)] 1)

/-- Kind, board and site of a place word. -/
def placeOf (w : Word) : Nat := fld w 31 20

def isKind (k : Nat) (w : Word) : Bool := fld w 31 28 = k

/-- The capability descriptor that die i sends (R418, Table 17-6): its place word, the versions and the rate, OPSET,
which dies other than compute dies and stacks report as 0, and two reserved words. -/
def descriptorOf (f : Fuses) (i : Nat) : List Word :=
  let place := f.dieWords.getD i 0
  let c := f.caps.getD i (DieCaps.mk 0 0 0 0 0)
  let ops := if isKind 1 place || isKind 2 place then c.opset else 0
  [place, BitVec.ofNat 32 (c.zproto % 256 * 2 ^ 24 + c.maxRate % 256 * 2 ^ 16 + c.funcMax % 256 * 2 ^ 8 + c.funcMin % 256)] ++
  ((List.range 4).map fun k => BitVec.ofNat 32 (ops / 2 ^ (32 * k))) ++ [0, 0]

/-- What a descriptor says. -/
def capsIn (d : List Word) : DieCaps :=
  let v := d.getD 1 0
  let ops := (List.range 4).foldl (fun n k => n + (d.getD (2 + k) 0).toNat * 2 ^ (32 * k)) 0
  DieCaps.mk (fld v 31 24) (fld v 23 16) (fld v 15 8) (fld v 7 0) ops

/-- What the descriptors of dies of a kind say. -/
def capsOf (ds : List (List Word)) (kinds : List Nat) : List DieCaps :=
  (ds.filter fun d => kinds.contains (fld (d.getD 0 0) 31 28)).map capsIn

/-- Function versions that every compute die and every stack reproduces (R419). -/
def commonFunc (ds : List (List Word)) : Option Nat :=
  let cs := capsOf ds [1, 2]
  ((List.range 256).filter fun v => cs.all fun c => decide (c.funcMin ≤ v) && decide (v ≤ c.funcMax)).getLast?

/-- The features of this printing: 0 to 63. -/
def printing : Nat := 2 ^ 64 - 1

/-- Stage 1 of R30: the castle's place word and both copies of the build record, read with VAUX present. -/
def stageOne (f : Fuses) : Bool :=
  f.serial = f.serialCopy && f.places = f.placesCopy && f.repairs = f.repairsCopy &&
  (match f.dieWords, f.places with
   | w :: _, p :: _ => placeOk w && w = p
   | _, _ => false)

/-- R30: the check of the fuses at a start, both stages, before the lane test. -/
def fuseCheck (f : Fuses) (obs : BringUpObs) : Bool :=
  stageOne f && f.dieWords.length = 52 && f.dieWords.all placeOk && (f.dieWords.map placeOf).eraseDups.length = 52 &&
  f.dieWords = f.places && obs.silentDies = [] && (f.repairs.all fun es => es.all repairOk)

/-- What the descriptors show does not fail that check (R419). -/
def capsCheck (ds : List (List Word)) : Bool :=
  (ds.map fun d => (capsIn d).zproto).eraseDups.length = 1 && (commonFunc ds).isSome &&
  (capsOf ds [1, 2]).all fun c => (c.opset &&& printing) = printing

/-- The lowest data wire rate. -/
def zlRate (ds : List (List Word)) : Nat := (ds.map fun d => (capsIn d).maxRate).foldl min 255

def inter (xs : List Nat) : Nat := xs.foldl (· &&& ·) (2 ^ 128 - 1)
def union (xs : List Nat) : Nat := xs.foldl (· ||| ·) 0

/-- A 128-bit set in four registers. -/
def setOpset (h : Hw) (rel v : Nat) : Hw :=
  (List.range 4).foldl (fun h i => setReg h (rZl (rel + 4 * i)) (BitVec.ofNat 32 (v / 2 ^ (32 * i)))) h

/-- The negotiated sets (R419). -/
def negotiate (h : Hw) : Hw :=
  let ds := h.descriptors
  let tiles := (capsOf ds [1]).map DieCaps.opset
  let pawns := (capsOf ds [2]).map DieCaps.opset
  let h := setReg h (rZl 4) (BitVec.ofNat 32 (zlRate ds))
  let h := setReg h (rZl 0xC) (BitVec.ofNat 32 ((commonFunc ds).getD 1))
  setOpset (setOpset (setOpset (setOpset h 0x10 (inter tiles)) 0x20 (union tiles)) 0x30 (inter pawns)) 0x40 (union pawns)

/-! Control channels (R415-R417) -/

def chanKey (ch : Channel) : Nat := ch.link.val * 2 + ch.set1.toNat
def chanAux (h : Hw) (ch : Channel) : ChanAux := smGet ChanAux.reset h.chans (chanKey ch)
def setChan (h : Hw) (ch : Channel) (a : ChanAux) : Hw := { h with chans := smSet ChanAux.reset h.chans (chanKey ch) a }

/-- A channel that exists and still works: only bridges have a second set (R417). -/
def chanWorks (h : Hw) (ch : Channel) : Bool :=
  powered h && !(chanAux h ch).dead && (!ch.set1 || decide (49 ≤ ch.link.val))

/-- The ACK of an arriving frame covers frames of the replay buffer, in order. -/
def takeFrameAck (a : ChanAux) (ack : Nat) : ChanAux :=
  let keep := a.replay.filter fun f => decide (128 ≤ (ack + 256 - f.seq.toNat) % 256)
  if keep.length < a.replay.length then { a with replay := keep, acked := ack, resends := 0 } else a

/-- TYPE of a frame (Table 17-4). -/
def FrameKind.code : FrameKind → Nat
  | .idle => 0
  | .data => 1
  | .nak => 2

/-- A frame goes out with the ACK of the frames received. -/
def sendFrame (a : ChanAux) (k : FrameKind) (f : Frame) : ChanAux :=
  { a with sent := a.sent ++ [(k, crcFrame k.code { f with ack := BitVec.ofNat 8 a.rxSeq })] }

def nakOut (a : ChanAux) : ChanAux := sendFrame a .nak (Frame.mk 0 0 0 [] [] 0)

/-- The message that goes out next, the first of the highest priority (R415). -/
def nextMessage (ms : List Message) : Option Message :=
  [3, 2, 1, 0].findSome? fun p => ms.find? fun m => m.prio.toNat = p

/-- The sender's turn: the next message as a DATA frame, while the replay buffer has room for it, else an IDLE frame
with ACK (R415, R416). -/
def sendNext (a : ChanAux) : ChanAux :=
  match nextMessage a.waiting with
  | some m =>
    if a.replay.length < 128 then
      let seq := (a.txSeq + 1) % 256
      let f := crcFrame 1 (Frame.mk (BitVec.ofNat 8 seq) (BitVec.ofNat 8 a.rxSeq) m.prio m.payload [] 0)
      { a with txSeq := seq, waiting := a.waiting.erase m, replay := a.replay ++ [f], sent := a.sent ++ [(.data, f)] }
    else sendFrame a .idle (Frame.mk 0 0 0 [] [] 0)
  | none => sendFrame a .idle (Frame.mk 0 0 0 [] [] 0)

/-- Messages are queued for a channel. -/
def queueMessages (ms : List Message) (a : ChanAux) : ChanAux := { a with waiting := a.waiting ++ ms }

/-- A frame arrives on a channel that works: one that fails its CRC is discarded and answered with a NAK (R416). -/
def onFrame (ch : Channel) (k : FrameKind) (f : Frame) (h : Hw) (act : ChanAux → Hw) : Hw :=
  if !chanWorks h ch then h
  else if frameCrcOk k.code f then act (takeFrameAck (chanAux h ch) f.ack.toNat)
  else setChan h ch (nakOut (chanAux h ch))

/-- An IDLE frame. The channel moves one frame each way in a frame's time, so each frame received gives the sender its
turn: DESIGN CHOICE (log 101). -/
def idleFrameHw (ch : Channel) (x : FrameObs) (h : Hw) : Hw :=
  onFrame ch .idle x.frame h fun a => setChan h ch (sendNext (queueMessages x.queued a))

def execIdleFrame (ch : Channel) (f : FrameObs) (s : State) : Host.Outcome State Fault Refusal := onHw (idleFrameHw ch f) s

/-- A DATA frame in order is delivered; any other is discarded with a NAK. LEN is at most 24 (Table 17-4). -/
def dataFrameHw (ch : Channel) (x : FrameObs) (h : Hw) : Hw :=
  let f := x.frame
  onFrame ch .data f h fun a =>
    if 24 < f.payload.length then h
    else if f.seq.toNat = (a.rxSeq + 1) % 256 then
      setChan h ch (sendNext (queueMessages x.queued { a with rxSeq := f.seq.toNat, delivered := a.delivered ++ [f] }))
    else setChan h ch (nakOut (queueMessages x.queued a))

def execDataFrame (ch : Channel) (f : FrameObs) (s : State) : Host.Outcome State Fault Refusal := onHw (dataFrameHw ch f) s

/-- A frame that fails CRC is discarded and answered with a NAK (R416); one of an unknown TYPE whose CRC holds is
discarded (Table 17-4), and one of a known TYPE is none of this row. -/
def frameCrcHw (ch : Channel) (bytes : List Byte) (h : Hw) : Hw :=
  if chanWorks h ch ∧ crc32 (bytes.take 28) ≠ BitVec.ofNat 32 (leNat (bytes.drop 28)) then
    setChan h ch (nakOut (chanAux h ch))
  else h

def execControlFrameCrcFailure (ch : RawFrame) (s : State) : Host.Outcome State Fault Refusal :=
  onHw (frameCrcHw ch.channel ch.bytes) s

/-! Exhausted channels (Table 17-5) -/

/-- The commands that hold a tile of a compute die. -/
def holdersOfDie (h : Hw) (d : Nat) : List Nat :=
  (h.slots.filter fun e => e.2.tiles.any fun t => t / 16 = d).map Prod.fst

/-- A tile leaves service until the next start. -/
def retireTile (h : Hw) (t : Nat) : Hw :=
  let o := regOf (.tile t) 4
  setRegBit (setRegBit h o 0 false) o 3 false

/-- A command holding tiles of a lost die completes as D2D_DATA_ERROR, suspended or not. -/
def loseHolder (d : Nat) (h : Hw) (slot : Nat) : Hw :=
  if (activeAny h slot).isSome then dataError h slot d else failCmd h slot 0x43 d (endCountOf h slot)

/-- A control channel is exhausted. -/
def chanLostHw (serial : Quad) (link : LinkId) (h : Hw) : Hw :=
  let l := link.val
  if !powered h ∨ h.pkg = .resigned ∨ regBit h (rLink l) 6 then h
  else
    let ch := Channel.mk link false
    let h := setChan (setRegBit h (rLink l) 6 true) ch { chanAux h ch with dead := true }
    let logged := fun h => logErr h { source := 6, kind := 2, severity := 3, unit := l }
    if l < 12 then
      let h := logged h
      let h := (holdersOfDie h l).foldl (loseHolder l) h
      (List.range 16).foldl (fun h i => retireTile h (16 * l + i)) h
    else if l < 36 then loseStack serial (l - 12) (logged h)
    else if l < 48 then darkenPort (logged h) (l - 36)
    else resign serial h

/-- A management lane set is exhausted (R417). -/
def setLostHw (serial : Quad) (ch : Channel) (h : Hw) : Hw :=
  let l := ch.link.val
  if l < 49 ∨ !chanWorks h ch ∨ h.pkg = .resigned then h
  else
    let h := setChan h ch { chanAux h ch with dead := true }
    let h := logErr h { source := 6, kind := 4, severity := 1, unit := l }
    let other := chanAux h (Channel.mk ch.link (!ch.set1))
    if other.dead then resign serial (setRegBit (setRegBit h (rLink l) 5 false) (rLink l) 6 true)
    else setRegBit h (rLink l) 5 (!ch.set1)

/-- The retry of a channel is exhausted. -/
def exhaust (serial : Quad) (ch : Channel) (h : Hw) : Hw :=
  if ch.link.val < 49 then chanLostHw serial ch.link h else setLostHw serial ch h

/-- Every frame after ACK goes out again, and CTL_RETRY counts the episode; a frame that has gone out 8 times again
without being acknowledged exhausts the channel (R416). -/
def resendFrames (serial : Quad) (h : Hw) (ch : Channel) (a : ChanAux) : Hw :=
  if a.replay ≠ [] ∧ 8 ≤ a.resends then exhaust serial ch h
  else
    let a' := a.replay.foldl (fun a f => sendFrame a .data f) { a with resends := a.resends + 1 }
    bumpSat (setChan h ch a') (rRetry ch.link.val) 1

def nakFrameHw (serial : Quad) (ch : Channel) (f : Frame) (h : Hw) : Hw := onFrame ch .nak f h (resendFrames serial h ch)

def execNakFrame (ch : Channel) (f : Frame) (s : State) : Host.Outcome State Fault Refusal :=
  onHw (nakFrameHw s.fuses.serial ch f) s

def controlReplayHw (serial : Quad) (ch : Channel) (h : Hw) : Hw :=
  if chanWorks h ch ∧ (chanAux h ch).replay ≠ [] then resendFrames serial h ch (chanAux h ch) else h

def execControlReplayTimeout (ch : Channel) (s : State) : Host.Outcome State Fault Refusal :=
  onHw (controlReplayHw s.fuses.serial ch) s

/-- Bridges have management lanes instead of a control channel (R407). -/
def execControlChannelExhausted (l : LinkId) (s : State) : Host.Outcome State Fault Refusal :=
  onHw (fun h => if l.val < 49 then chanLostHw s.fuses.serial l h else h) s

def execManagementSetExhausted (ch : Channel) (s : State) : Host.Outcome State Fault Refusal :=
  onHw (setLostHw s.fuses.serial ch) s

/-! Test port (R420, R421) -/

/-- Whether the TAP takes an instruction: in AUX or with PKG_RESET_N asserted every one; in production DIE_SELECT and
what lies behind it also need TEST_OPEN. -/
def jtagTakes (f : Fuses) (h : Hw) (ir : JtagIr) : Bool :=
  let free := h.pkg = .aux || h.pins.pkgResetDriven || h.pins.pkgResetHeld
  let chain := free && (f.lifecycle ≠ 1 || h.jtag.isOpen)
  match ir with
  | .idcode => true
  | .bypass => true
  | .sample => true
  | .extest => free
  | .dieSelect _ => chain
  | .dieInternal _ => chain

/-- The data register between TDI and TDO that an instruction of the castle's TAP selects, its bits and what it
captures, where the manual gives it (R420). -/
def jtagRegister : JtagIr → Option (Nat × Nat)
  | .idcode => some (32, 0x1792452F)
  | .bypass => some (1, 0)
  | _ => none

/-- The dies of the chain in its order (Table 17-7): the castle, and those that the die-select register leaves in. -/
def chainDies (j : Jtag) : List Nat := (List.range 52).filter fun i => i = 0 || j.selected.getLsbD i

/-- The bits of the chain: the castle's register and one bit of each other die in BYPASS (R420). Where a die holds an
instruction of its own, the manual gives no length. -/
def chainBits (j : Jtag) : Option Nat :=
  if (chainDies j).any fun i => j.internal.any fun d => d.val = i then none
  else j.dr.map fun r => r.1 + (chainDies j).length - 1

/-- The die TAPs after an instruction that is taken: DIE_SELECT opens the chain with every die in BYPASS. -/
def jtagDies (j : Jtag) : JtagIr → Jtag
  | .dieSelect ds => { j with selected := ds, internal := [] }
  | .dieInternal d => { j with internal := if j.internal.contains d then j.internal else j.internal ++ [d] }
  | _ => j

/-- Instructions that the TAP takes, and those it refuses: the instruction register captures 0b0101, and BYPASS is
selected (R421). -/
def jtagHw (f : Fuses) (ir : JtagIr) (h : Hw) : Hw :=
  if h.pkg = .off then h
  else
    let ok := jtagTakes f h ir
    let now := if ok then ir else .bypass
    let j := if ok then jtagDies h.jtag ir else h.jtag
    { h with jtag := { j with ir := now, refused := !ok, dr := jtagRegister now } }

def execJtagInstruction (ir : JtagIr) (s : State) : Host.Outcome State Fault Refusal := onHw (jtagHw s.fuses ir) s

end Sys2Proof.Machine
end

