-- ==== Sys2Proof/Machine/Calib.lean ====
section
/-! DEFINITION. Calibration and ageing (R436, R437, R444-R446): CAL_COMMIT, the user calibration page, ageing trims and
their page, and the clock steps of tiles. -/

namespace Sys2Proof.Machine

def rPwr (rel : Nat) : Nat := regOf .power rel
def rCalStatus : Nat := rPwr 0x24

/-! The CAL set -/

/-- The calibration registers in offset order: staged and live offsets (Table 18-9). -/
def calRegs : List (Nat × Nat) :=
  ((List.range 12).map fun d => (0x200 + 4 * d, 0x600 + 4 * d)) ++
  ((List.range 52).map fun n => (0x240 + 4 * n, 0x640 + 4 * n)) ++
  ((List.range 52).map fun n => (0x320 + 4 * n, 0x720 + 4 * n)) ++
  ((List.range 48).map fun i => (0x400 + 4 * i, 0x800 + 4 * i))

/-- CAL_COMMIT: refused when a voltage field exceeds 10 (Table 18-9). -/
def calCommitHw (h : Hw) : Hw :=
  if (List.range 12).any fun d => 10 < regFld h (rPwr (0x200 + 4 * d)) 3 0 then setRegBit h rCalStatus 31 true
  else calRegs.foldl (fun h r => setReg h (rPwr r.2) (getReg h (rPwr r.1))) h

def execCalCommit (w : World) (s : State) : Host.Outcome State Fault Refusal :=
  onHw (ifAnswers w (rPwr 0x900) (.calCommit w) calCommitHw) s

/-! Effective values (R444, Table 18-8) -/

/-- A two's complement field of n bits. -/
def signedField (n v : Nat) : Int := if v < 2 ^ (n - 1) then v else (v : Int) - 2 ^ n

/-- A value within limits. -/
def clampInt (lo hi x : Int) : Int := max lo (min hi x)

/-- Factory value plus user offset, the offset within its own range and the sum within the limits. -/
def effective (factory user lo hi min_ max_ : Int) : Int := clampInt min_ max_ (factory + clampInt lo hi user)

/-- The offset of die n's temperature sensor in quarters of a degree. -/
def tempOffset (f : Fuses) (h : Hw) (n : Nat) : Int :=
  effective (smGet 0 f.factory.temp n) (signedField 8 (regFld h (rPwr (0x640 + 4 * n)) 7 0)) (-32) 31 (-40) 40

/-- The current-sense gain of die n in 1/1,024 of nominal. A 5 % of 1,024 is 51 whole steps. -/
def senseGain (f : Fuses) (h : Hw) (n : Nat) : Nat :=
  (1024 + effective (smGet 0 f.factory.gain n) (signedField 7 (regFld h (rPwr (0x720 + 4 * n)) 6 0)) (-51) 51 (-102) 102).toNat

/-- The heater bias of a lane in steps of 0.5 % of full scale (R296). -/
def heaterBias (f : Fuses) (h : Hw) (q lane : Nat) : Int :=
  let user := regFld h (rPwr (0x800 + 16 * q + 4 * (lane / 8))) (4 * (lane % 8) + 3) (4 * (lane % 8))
  effective (((f.factory.heat.find? fun e => e.1 = (q, lane)).map Prod.snd).getD 0) (signedField 4 user) (-8) 7 0 200

/-! The user calibration page (R445) -/

/-- Where copy c of the page lies in flash. -/
def calPageAt (c : Nat) : Nat := 0x8000 + 0x1000 * c

def readPage (h : Hw) (a : Nat) : List Byte := h.mem.readN .flash a 4096

/-- The digest at 0xFE0 holds. -/
def pageDigestOk (p : List Byte) : Bool := slice p 0xFE0 32 == shake256 (slice p 0 0xFE0) 32

def calPageOk (p : List Byte) : Bool := leAt p 0 4 = 0x4C414359 && leAt p 4 4 = 1 && pageDigestOk p

/-- Completes a page of 4 KiB with its digest. -/
def sealPage (head : List Byte) : List Byte := let b := slice head 0 0xFE0; b ++ shake256 b 32

/-- The SEQ of a copy, nothing where it is not valid. -/
def calSeq (h : Hw) (c : Nat) : Option Nat :=
  let p := readPage h (calPageAt c)
  if calPageOk p then some (leAt p 8 4) else none

/-- PWR_CTRL.CAL_SAVE: the live set goes into the copy with the lower SEQ, with the higher SEQ plus 1. A copy that is
not valid has the lower: DEDUCED (log 37). -/
def calSaveHw (h : Hw) : Hw :=
  let (c, seq) := match calSeq h 0, calSeq h 1 with
    | none, none => (0, 1)
    | none, some y => (0, y + 1)
    | some x, none => (1, x + 1)
    | some x, some y => if y < x then (1, x + 1) else (0, y + 1)
  let head := leBytes 4 0x4C414359 ++ leBytes 4 1 ++ leBytes 4 seq ++ leBytes 4 0 ++
    calRegs.flatMap fun r => leBytes 4 (getReg h (rPwr r.2)).toNat
  { h with mem := h.mem.write .flash (calPageAt c) (sealPage head) }

def execCalSave (w : World) (s : State) : Host.Outcome State Fault Refusal := onHw (ifAnswers w (rPwr 4) (.calSave w) calSaveHw) s

/-- The castle stages and commits the valid copy with the higher SEQ; with none every offset is 0 and NO_PAGE stands. -/
def loadCalPage (h : Hw) : Hw :=
  let pick := match calSeq h 0, calSeq h 1 with
    | none, none => none
    | none, some _ => some 1
    | some _, none => some 0
    | some x, some y => if x < y then some 1 else some 0
  match pick with
  | none => setRegBit h rCalStatus 30 true
  | some c =>
    let p := readPage h (calPageAt c)
    let h := (List.range calRegs.length).foldl (fun h i =>
      let r := rPwr ((calRegs.getD i (0, 0)).1)
      setReg h r (BitVec.ofNat 32 (leAt p (0x10 + 4 * i) 4) &&& BitVec.ofNat 32 (regInfo r).rw)) h
    calCommitHw h

/-! Ageing (R437) -/

def rAge (d : Nat) : Nat := rPwr (0x30 + 4 * d)
def ageTrim (h : Hw) (d : Nat) : Nat := regFld h (rAge d) 3 0

/-- The ageing page: the trims as le32 words, then the digest as the calibration page has it. DESIGN CHOICE (log 37):
the manual gives its copies and digests and no layout. -/
def agePage (h : Hw) : List Byte := sealPage ((List.range 12).flatMap fun d => leBytes 4 (ageTrim h d))

def saveAgePage (h : Hw) : Hw :=
  let p := agePage h
  { h with mem := (h.mem.write .flash 0xA000 p).write .flash 0xB000 p }

/-- The trims of the page, where a copy's digest holds. -/
def loadAgePage (h : Hw) : Hw :=
  match [0xA000, 0xB000].find? fun a => pageDigestOk (readPage h a) with
  | none => h
  | some a => (List.range 12).foldl (fun h d => setReg h (rAge d) (BitVec.ofNat 32 (min 10 (leAt (readPage h a) (4 * d) 4)))) h

/-- A die's trim after an evaluation that calls for n steps: at a start any number of steps, in operation one. A die
that needs more than +50 mV sets AGE_LIMIT, is recorded, and loses a clock step for each further 5 mV. -/
def ageDie (atStart : Bool) (h : Hw) (d n : Nat) : Hw :=
  let old := ageTrim h d
  let want := min n 10
  let new := if atStart then want else if old < want then old + 1 else if want < old then old - 1 else old
  let h := setReg h (rAge d) (BitVec.ofNat 32 new)
  let h := { h with power := { h.power with aged := smSet 0 h.power.aged d (min 35 (n - 10)) } }
  if 10 < n then
    let h := if regBit h rCalStatus 29 then h else setRegFld (setRegBit h rCalStatus 29 true) rCalStatus 5 0 d
    logErr h { source := 0xA, kind := 7, severity := 3, unit := d }
  else h

/-- An evaluation over every die that it names, in ascending order, and the page that keeps it. -/
def evaluateAge (atStart : Bool) (need : List (DieId × Nat)) (h : Hw) : Hw :=
  let h := (List.range 12).foldl (fun h d => match need.find? fun x => x.1.val = d with
    | none => h
    | some x => ageDie atStart h d x.2) h
  saveAgePage h

/-! Voltage (R436, R438, Table 18-6) -/

/-- The highest clock step that a tile of compute die d runs; a gated tile runs none. -/
def dieStep (h : Hw) (d : Nat) : Nat :=
  ((List.range 16).map fun i =>
    let k := (getReg h (rTileFreq (16 * d + i))).toNat
    if 35 < k then 0 else k).foldl max 0

/-- V = V_MIN(f) + AGE_TRIM + 60 mV + the user offset, in steps of 5 mV and within the rail's range (Table 18-3). -/
def coreVolt (f : Fuses) (h : Hw) (d step : Nat) : Nat :=
  let v := (smGet [] f.factory.vMin d).getD step 0 + 5 * ageTrim h d + 60 + 5 * regFld h (rPwr (0x600 + 4 * d)) 3 0
  max 660 (min 960 ((v + 4) / 5 * 5))

/-- The voltage of compute die d's core rail in mV: the clock's, in HOLD that of 875 MHz, in QUIET retention, and none
while the converters are stopped. A rail has slewed once a clock change takes effect (R438). -/
def coreMv (f : Fuses) (h : Hw) (d : Nat) : Nat :=
  if !h.supplies.converters then 0
  else if h.pkg = .quiet then 550
  else coreVolt f h d (if h.pkg = .hold then 0 else dieStep h d)

/-- The nominal voltage of a fixed-voltage rail in mV (Table 18-3); 0 for a variable one. -/
def railSet : Rail → Nat
  | .computeCore _ => 0
  | .stackDram _ => 1100
  | .stackBase _ => 750
  | .board _ => 750
  | .optical _ => 900
  | .castle => 800

/-- The voltage of a rail in mV. A fixed-voltage rail follows the same rule at its one frequency, within 3 % of its set
voltage; without a value in fuse it stands at that voltage. No such rail has a trim or a user offset (R437, R444). -/
def railMv (f : Fuses) (h : Hw) : Rail → Nat
  | .computeCore d => coreMv f h d.val
  | r =>
    let set := railSet r
    let low := ((f.factory.vFixed.find? fun e => e.1 = r).map Prod.snd).getD (set - 60)
    if !h.supplies.converters then 0 else max (set * 97 / 100) (min (set * 103 / 100) ((low + 60 + 4) / 5 * 5))

/-- AGEING_EVALUATION after 24 h of operation out of AUX. -/
def ageingHw (need : List (DieId × Nat)) (h : Hw) : Hw :=
  if powered h ∧ h.pkg ≠ .bringup ∧ h.pkg ≠ .resigned then evaluateAge false need h else h

def execAgeingEvaluation (need : List (DieId × Nat)) (s : State) : Host.Outcome State Fault Refusal :=
  onHw (ageingHw need) s

end Sys2Proof.Machine
end

