-- ==== Sys2Proof/Machine/Reset.lean ====
section
/-! DEFINITION. Supplies, bring-up and resets (R423-R425, R448-R457, R476, R186, R187, R391-R393), and the error block's
commit (R467). -/

namespace Sys2Proof.Machine

def rRstStatus : Nat := regOf .err 0x108

/-! What survives (Table 19-4) -/

/-- Registers of the auxiliary domain: CONV_STATUS and the security core's boot, alarm and key registers. -/
def auxReg (off : Nat) : Bool :=
  off = rPwr 0x20 || (decide (rSec 4 ≤ off) && decide (off < rSec 0x300))

/-- What of a port no reset changes: its light inputs, the cells it has sent (R455), and the counters of its link keys,
which count from the install (R400). -/
def portInputs (a : PortAux) : PortAux :=
  { PortAux.reset with
    laser0 := a.laser0, laser1 := a.laser1, light := a.light, out := a.out, encTx := a.encTx, encRx := a.encRx }

/-- Everything the castle and the dies hold returns to reset values: the auxiliary domain, the flash and host memory
stay, and what has left the package. The contents of lend windows are undefined after it (R242). keepCfg keeps RST_CFG.
The pending rows of the stacks are in flash, also where power is lost (Table 19-4; DESIGN CHOICE, log 9: the manual
lays no list of them out). -/
def restart (keepCfg : Bool) (h : Hw) : Hw :=
  let keep := fun off => auxReg off || (keepCfg && decide (off = regOf .err 0x104))
  freeKeys (lentKeys h) { Hw.reset with
    pkg := h.pkg
    regs := h.regs.filter fun e => keep e.1
    freeRegs := h.freeRegs.filter fun e => keep e.1
    mem := { h.mem with hbm := [], tile := [], tileFree := [], free := h.mem.free.filter fun r => r.space = .host || r.space = .flash }
    stackAux := (h.stackAux.map fun e => (e.1, { StackAux.reset with pendingRows := e.2.pendingRows })).filter
        fun e => e.2 ≠ StackAux.reset
    nextOrder := h.nextOrder
    ports := (h.ports.map fun e => (e.1, portInputs e.2)).filter fun e => e.2 ≠ PortAux.reset
    host := { HostAux.reset with
      winAnswers := h.host.winAnswers, msixSent := h.host.msixSent, aerSent := h.host.aerSent }
    sec := { h.sec with halted := false }
    pins := h.pins
    supplies := h.supplies
    errs := { ErrAux.reset with sticky := h.errs.sticky }
    jtag := h.jtag
    mgmtOut := h.mgmtOut
    draws := h.draws }

/-- The loss of VAUX: the auxiliary domain goes too (Table 19-4), and a ramp that was owed (R427). FUSE_STATE's alarm mark stays: DEDUCED (log 38), its
register is read from fuse. -/
def loseVaux (h : Hw) : Hw :=
  let r := restart false h
  { r with
    pkg := .off
    regs := (r.regs.filter fun e => e.1 = rSec 8)
    freeRegs := []
    sec := .reset
    pins := { Pins.reset with pkgResetDriven := false, pkgResetHeld := h.pins.pkgResetHeld, perst := h.pins.perst }
    supplies := { h.supplies with vaux := false, converters := false, needRamp := false }
    errs := .reset
    jtag := .reset }

/-! Boot (R450 steps 1 and 2) -/

/-- RST_STATUS reports the step last completed. -/
def setStep (h : Hw) (n : Nat) : Hw := setRegFld { h with bringStep := n } rRstStatus 23 16 n

def setKind (h : Hw) (k : Nat) : Hw := setRegFld h rRstStatus 31 24 k

/-- Step 1: the build record is read, and BR_BYTES set (Table 20-4). -/
def bootOne (f : Fuses) (h : Hw) : Hw := setStep (setReg h 0x100 (BitVec.ofNat 32 (buildRecord f).length)) 1

/-- Step 2: firmware verified, then the calibration page; a package without verified firmware halts at it. -/
def bootTwo (h : Hw) : Hw := if h.sec.verified then setStep (loadCalPage h) 2 else h

/-- The boot of the auxiliary domain. -/
def boot (f : Fuses) (h : Hw) : Hw := bootTwo (verifyFirmware f (bootOne f h))

/-- VAUX_UP: VAUX enters its window in OFF, or has just entered it at power-on and nothing has booted (R424). -/
def vauxUpHw (f : Fuses) (h : Hw) : Hw :=
  if h.pkg = .off ∨ (h.pkg = .aux ∧ h.bringStep = 0) then
    let h := { h with supplies := { h.supplies with vaux := true },
                      pins := { h.pins with pkgResetDriven := true } }
    boot f (setKind (setPkg h .aux) 1)
  else h

def execVauxUp (s : State) : Host.Outcome State Fault Refusal := onHw (vauxUpHw s.fuses) s

/-- VIN has reached 2 V before PWR_GOOD_AUX: VIN_EARLY is set, and a new ramp is owed (R424). -/
def earlyVin (h : Hw) : Hw := setRegBit { h with supplies := { h.supplies with needRamp := true } } (rPwr 0x20) 3 true

/-- PWR_GOOD_AUX, 5 ms after VANA is in its window, which VIOM is before (R424); a VIN that stands at 2 V or more is
early. -/
def pwrGoodHw (h : Hw) : Hw :=
  if h.supplies.vaux ∧ h.pkg ≠ .off ∧ !h.pins.pwrGoodAux then
    let h := if 2000 ≤ h.supplies.vinMv then earlyVin h else h
    { h with supplies := { h.supplies with viom := true, vana := true },
             pins := { h.pins with pwrGoodAux := true } }
  else h

def execPwrGoodAux (s : State) : Host.Outcome State Fault Refusal := onHw pwrGoodHw s

/-- VIN reaches 2 V too early (R424). -/
def vinEarlyHw (h : Hw) : Hw :=
  if h.pkg = .aux ∧ !h.pins.pwrGoodAux then
    earlyVin { h with supplies := { h.supplies with vinMv := max 2000 h.supplies.vinMv } }
  else h

def execVinEarly (s : State) : Host.Outcome State Fault Refusal := onHw vinEarlyHw s

/-! Bring-up (R450, Table 19-3) -/

/-- CONV_STATUS follows VIN (R426). -/
def vinFlags (h : Hw) (mv : Nat) : Hw :=
  let h := { h with supplies := { h.supplies with vinMv := mv } }
  let h := setReg h (rPwr 0x10) (BitVec.ofNat 32 mv)
  setRegBit (setRegBit h (rPwr 0x20) 1 (decide (mv < 36000))) (rPwr 0x20) 2 (decide (44000 < mv))

/-- The entries of a remap list (Table 7-4). -/
def listEntries (bs : List Byte) : List RemapEntry :=
  (List.range 16384).filterMap fun i =>
    let w := leAt bs (4 * i) 4
    if w / 2 ^ 30 = 0 then none
    else some { kind := w / 2 ^ 30, spare := w / 2 ^ 27 % 8, bank := w / 2 ^ 21 % 64, pc := w / 2 ^ 16 % 32, row := w % 2 ^ 16 }

/-- The remap list of a stack from flash: the first copy whose digest holds (R187). -/
def flashList (h : Hw) (s : Nat) : Option (List RemapEntry) :=
  [0, 1].findSome? fun c =>
    let bs := h.mem.readN .flash (remapFlash s c) 65536
    if h.mem.readN .flash (remapFlash s c + 65536) 32 == shake256 bs 32 then some (listEntries bs) else none

/-- Reapplies a list; with both copies bad the stack starts with none, and that is recorded. -/
def reapply (h : Hw) (s : Nat) : Hw :=
  let a := stackAux h s
  match flashList h s with
  | some es =>
    setReg (setStackAux h s { a with remaps := es }) (regOf (.stack s) 0x18) (BitVec.ofNat 32 es.length)
  | none => logErr h { source := 0xE, kind := 3, severity := 3, unit := s }

/-- Pending rows are remapped before the stack accepts traffic (R186). -/
def remapPending (h : Hw) (s : Nat) : Hw :=
  let rows := (stackAux h s).pendingRows
  let h := setStackAux h s { stackAux h s with pendingRows := [] }
  rows.foldl (fun h k => remapRow h s 2 (k / 64 % 32) (k % 64) (k / 2048)) h

/-- Step 6: stacks that fail are lost; the others take their remaps, are zero-filled and ready (R188, R391). -/
def initStacks (f : Fuses) (obs : BringUpObs) (h : Hw) : Hw :=
  match obs.badStacks with
  | _ :: _ => loseStacks f.serial (obs.badStacks.map Fin.val) h
  | [] =>
    let h := (List.range 24).foldl (fun h s =>
      setRegBit (remapPending (reapply h s) s) (regOf (.stack s) 4) 0 true) h
    { h with mem := { h.mem with hbm := [] }, poison := [], symErrs := [] }

/-- Step 7: the quick self-test (R452). -/
def selfTest (f : Fuses) (obs : BringUpObs) (h : Hw) : Hw :=
  let h := setRegBit h rRstStatus 0 true
  if obs.badPawn then resign f.serial h
  else
    let bad := (List.range 192).filter fun t => obs.badTiles.any fun x => x.val = t
    let h := bad.foldl (fun h t =>
      let h := setRegBit h (regOf (.tile t) 4) 0 false
      let h := setRegBit h (regOf .err (0x110 + 4 * (t / 32))) (t % 32) true
      logErr h { source := 0xE, kind := 1, severity := 3, unit := t }) h
    let h := obs.badBoards.foldl (fun h b =>
      let h := setRegBit (setRegBit h (regOf (.board b.val) 0) 0 false) (regOf (.board b.val) 4) 0 false
      let h := setCacheAux h b.val { cacheAux h b.val with failed := true }
      logErr h { source := 0xE, kind := 2, severity := 3, unit := b.val }) h
    setRegFld h rRstStatus 15 8 bad.length

/-- Step 3: the converters run, and at its end the castle drives PKG_RESET_N no longer (R451). Steps 4 to 8 are to come,
with what they will observe. A test chain that was open closes (R421). -/
def bringUp (obs : BringUpObs) (test : Bool) (h : Hw) : Hw :=
  setStep { h with supplies := { h.supplies with converters := true }
                   pins := { h.pins with pkgResetDriven := false }
                   jtag := { h.jtag with isOpen := false, selected := 0, internal := [] }
                   starting := some (obs, test) } 3

/-- Step 4: the fuse check, place words, lane test and spares; a failed check or a stack without its lanes makes the
package resign (R28, R394, Table 17-2). -/
def stepFour (f : Fuses) (obs : BringUpObs) (h : Hw) : Hw :=
  if fuseCheck f obs then
    let h := laneTest f obs h
    if linkDead f obs then resign f.serial h
    else match stacksByLanes f obs with
    | [] => setStep h 4
    | ss => loseStacks f.serial ss h
  else resign f.serial h

/-- Step 5: every die whose control channel works sends its descriptor (R418); what they show makes the package resign,
or gives the negotiated sets (R419). Then the ports begin to lock, alongside steps 6 and 7 (R450). -/
def stepFive (f : Fuses) (h : Hw) : Hw :=
  let sends := fun i => (linkOfDie i).all fun l => !(chanAux h (Channel.mk (Fin.ofNat 51 l) false)).dead
  let ds := ((List.range 52).filter sends).map (descriptorOf f)
  let h := { h with descriptors := ds }
  if capsCheck ds then allPorts tryLock (setStep (negotiate h) 5) else resign f.serial h

/-- Step 6: the stacks, then the ageing evaluation (R437). -/
def stepSix (f : Fuses) (obs : BringUpObs) (h : Hw) : Hw :=
  let h := initStacks f obs h
  if h.pkg = .bringup then setStep (evaluateAge true obs.ageSteps (loadAgePage h)) 6 else h

/-- Step 7: the tiles serve, those that a self-test fails apart and those of a die whose control channel is lost. -/
def stepSeven (f : Fuses) (obs : BringUpObs) (test : Bool) (h : Hw) : Hw :=
  let h := (List.range 192).foldl (fun h t =>
    if regBit h (rLink (t / 16)) 6 then h else setRegBit h (regOf (.tile t) 4) 0 true) h
  let h := if test then selfTest f obs h else h
  if h.pkg = .bringup then setStep h 7 else h

/-- Step 8: the ports lock, and the package leaves BRINGUP; step 9 is over where the link has trained. -/
def stepEight (h : Hw) : Hw := stepNine (endBringUp (setStep { allPorts tryLock h with starting := none } 8))

/-- The next step of a bring-up in progress (Table 19-3). -/
def bringStepHw (f : Fuses) (obs : BringUpObs) (test : Bool) (h : Hw) : Hw :=
  if h.bringStep = 2 then bringUp obs test h
  else if h.bringStep = 3 then stepFour f obs h
  else if h.bringStep = 4 then stepFive f h
  else if h.bringStep = 5 then stepSix f obs h
  else if h.bringStep = 6 then stepSeven f obs test h
  else if h.bringStep = 7 then stepEight h
  else h

/-- No command waits: a bring-up in progress takes its next step, and otherwise the package idles (DESIGN CHOICE, logs 3
and 32). -/
def idleStep (s : State) : State :=
  match s.hw.starting with
  | some (obs, test) =>
    if s.hw.pkg = .bringup ∧ s.hw.supplies.refclkSys then { s with hw := settle (bringStepHw s.fuses obs test s.hw) } else s
  | none => s

/-- The first stage may start: VIN above 34 V after PWR_GOOD_AUX, firmware verified, and no ramp owed (R424, R427). -/
def mayStart (h : Hw) (mv : Nat) : Bool :=
  h.pkg = .aux && h.pins.pwrGoodAux && decide (34000 < mv) && h.sec.verified && !h.supplies.needRamp

/-- FIRST_STAGE_START, which REFCLK_SYS must precede by 1 ms (R489). DEDUCED (log 86): a package that failed stage 1 of R30 in AUX, which Table 19-2 does not let
resign there, resigns as it leaves AUX. -/
def firstStageHw (f : Fuses) (mv : Nat) (obs : BringUpObs) (h : Hw) : Hw :=
  let h := if h.pkg = .aux then { h with supplies := { h.supplies with refclkSys := obs.refclk } } else h
  if mayStart h mv ∧ obs.refclk then
    let h := { h with pins := { h.pins with faultN := false, thermTripN := false } }
    let h := vinFlags (setKind (setPkg h .bringup) 1) mv
    if stageOne f then bringUp obs true h else resign f.serial (bringUp obs true h)
  else if h.pkg = .aux then { h with supplies := { h.supplies with vinMv := mv } }
  else h

def execFirstStageStart (vinMv : Nat) (obs : BringUpObs) (s : State) : Host.Outcome State Fault Refusal :=
  onHw (firstStageHw s.fuses vinMv obs) s

/-! Converters stop -/

/-- Every converter stops, and the package enters AUX, or stays RESIGNED (R425, R449): no memory contents survive. The
security core still runs, so the boot of steps 1 and 2 stands. -/
def stopConverters (f : Fuses) (h : Hw) : Hw :=
  let pkg := if h.pkg = .resigned then PkgState.resigned else .aux
  let r := restart false h
  let r := { r with supplies := { r.supplies with converters := false },
                    pins := { r.pins with pkgResetDriven := true } }
  bootTwo (bootOne f (setPkg r pkg))

/-- VIN falls (R425): below 33 V the converters stop; below 2 V a new ramp may follow. CONV_STATUS follows VIN while
VAUX is there. -/
def vinLossHw (f : Fuses) (mv : Nat) (h : Hw) : Hw :=
  if mv < 33000 then
    let h := if powered h ∧ h.supplies.converters then stopConverters f h else h
    let h := if h.pkg = .off then h else vinFlags h mv
    { h with supplies := { h.supplies with vinMv := mv, needRamp := h.supplies.needRamp && decide (2000 ≤ mv) } }
  else h

def execVinLoss (vinMv : Nat) (s : State) : Host.Outcome State Fault Refusal := onHw (vinLossHw s.fuses vinMv) s

/-- VAUX, VIOM or VANA leaves its window (R425). -/
def auxLossHw (f : Fuses) (x : AuxSupply) (h : Hw) : Hw :=
  if h.pkg = .off then h
  else match x with
    | .vaux => loseVaux h
    | _ =>
      let h := if powered h ∧ h.supplies.converters then stopConverters f h else h
      { h with pins := { h.pins with pwrGoodAux := false },
               supplies := { h.supplies with viom := h.supplies.viom && decide (x ≠ .viom),
                                             vana := h.supplies.vana && decide (x ≠ .vana) } }

def execAuxSupplyLoss (x : AuxSupply) (s : State) : Host.Outcome State Fault Refusal := onHw (auxLossHw s.fuses x) s

/-! Warm reset (R455, R456) -/

def warmKind : WarmCause → Nat
  | .perst => 2
  | .pkgReset => 3
  | .firmware => 4

/-- The agent's modified lines at a reset (R378). -/
def agentReset (perst : Bool) (h : Hw) : Hw :=
  if perst ∨ hostMode h ≠ 1 then discardLines h else writeBackLines h (fun _ => true)

/-- Steps 2 and on of a warm reset; a package whose firmware fails halts in AUX with its converters stopped: DEDUCED
(log 38). -/
def warmStart (f : Fuses) (obs : BringUpObs) (test : Bool) (h : Hw) : Hw :=
  let h := bootTwo (verifyFirmware f h)
  if h.sec.verified then
    vinFlags { h with starting := some (obs, test), supplies := { h.supplies with refclkSys := obs.refclk } } h.supplies.vinMv
  else setPkg { h with supplies := { h.supplies with converters := false } } .aux

/-- A warm reset: lines, QUIET cells, then bring-up from step 1, where a failed stage 1 of R30 makes the package
resign. A package that halted in AUX verifies its firmware again (R393). -/
def warmHw (f : Fuses) (c : WarmCause) (obs : BringUpObs) (h : Hw) : Hw :=
  if h.pkg = .off ∨ h.pkg = .resigned then h
  else if h.pkg = .aux then
    (if h.bringStep = 0 then h else boot f (setKind h (warmKind c)))
  else
    let h := leavePorts (agentReset (c = .perst) h) f.serial 12
    let test := regBit h (regOf .err 0x104) 1
    let r := restart true h
    let r := { r with pins := { r.pins with pkgResetDriven := true, faultN := false } }
    let r := bootOne f (setKind (setPkg r .bringup) (warmKind c))
    if stageOne f then warmStart f obs test r
    else resign f.serial { r with pins := { r.pins with pkgResetDriven := false } }

def execWarmReset (c : WarmCause) (obs : BringUpObs) (s : State) : Host.Outcome State Fault Refusal :=
  onHw (warmHw s.fuses c obs) s

/-- PKG_RESET_N at the board's side (R451): low for a time, or with 0 released. A low of at least 1 µs while the package
does not drive the line itself is a warm reset. -/
def pkgResetHw (f : Fuses) (ns : Nat) (obs : BringUpObs) (h : Hw) : Hw :=
  let h := { h with pins := { h.pins with pkgResetHeld := decide (0 < ns) } }
  if 1000 ≤ ns ∧ !h.pins.pkgResetDriven then warmHw f .pkgReset obs h else h

def execPkgResetN (lowNs : Nat) (obs : BringUpObs) (s : State) : Host.Outcome State Fault Refusal :=
  onHw (pkgResetHw s.fuses lowNs obs) s

/-! Soft reset (R457) -/

/-- Sets whose live copies a soft reset keeps: staged base, live base, words (R476). -/
def keptSets : List (Nat × Nat × Nat) :=
  [(0x161000, 0x161040, 8), (0x170100, 0x170120, 7), (0x200100, 0x200108, 2), (0x200200, 0x200240, 16),
   (0x301000, 0x301020, 8), (0x302000, 0x302020, 8), (0x400100, 0x400120, 2), (0x400200, 0x400600, 124),
   (0x400400, 0x400800, 48), (0x504100, 0x504104, 1), (0x600100, 0x600140, 7), (0x700080, 0x7000A0, 4),
   (0x800500, 0x800540, 9), (0x801000, 0x801800, 512)] ++
  ((List.range 4).map fun m => (0x508000 + 0x1000 * m, 0x508800 + 0x1000 * m, 192)) ++
  ((List.range 3).map fun b => (0x2400400 + 0x40000 * b, 0x2400800 + 0x40000 * b, 96))

/-- Staged copies become equal to the live ones. -/
def restage (h : Hw) : Hw := keptSets.foldl (fun h k => copyRegs h k.2.1 k.1 k.2.2) h

/-- Every live collective sends ABORT cells of ABORTED with reason 0x01, and is gone. -/
def abortColls (h : Hw) : Hw :=
  h.colls.foldl (fun h c =>
    let h := match collAt h c.slot with
      | none => h
      | some v => sendAborts h v (AbortPay.mk 3 (BitVec.ofNat 16 v.group.rank) 1 0)
    removeColl h c.slot) h

/-- Every in-flight command is discarded with its slot, resume area, holds, tokens and outstanding fault; no record is
written. The fault queues are empty again. -/
def discardCmds (h : Hw) : Hw :=
  let h := h.slots.foldl (fun h e => releaseTiles h e.1) h
  let h := { h with
    slots := [], streams := [], holds := [], tokens := [], tokenWaits := [],
    ports := (h.ports.map fun e => (e.1, { e.2 with requests := [] })).filter fun e => e.2 ≠ PortAux.reset }
  [0, 1].foldl (fun h r => setReg h (regOf (.regime r) 0x4C) (getReg h (regOf (.regime r) 0x48))) h

/-- Every tile is reset under R90 and serves again. -/
def resetTiles (h : Hw) : Hw := (List.range 192).foldl (fun h t => tileResetDone t (tileResetHw t h)) h

/-- Ring pages and counters, and all of the training block but its live set. -/
def resetRings (h : Hw) : Hw :=
  let h := resetRegs h fun o =>
    (decide (0x100000 ≤ o) && decide (o < 0x142000)) ||
    (decide (0x170000 ≤ o) && decide (o < 0x180000) && !(decide (0x170120 ≤ o) && decide (o < 0x17013C)))
  { h with rings := [], train := { TrainAux.reset with stepKey := stepKeyOf h 0 }, fabric := { h.fabric with heldTrain := false } }

def softKind : SoftCause → Nat
  | .rstCtrl _ => 5
  | .flr => 6
  | .perst => 7

/-- A soft reset: ignored in OFF, AUX, BRINGUP and RESIGNED (R456). What a lend window holds is undefined after it
(R242). -/
def softHw (c : SoftCause) (h : Hw) : Hw :=
  if h.pkg = .off ∨ h.pkg = .aux ∨ h.pkg = .bringup ∨ h.pkg = .resigned then h
  else
    let h := freeKeys (lentKeys h) (abortColls h)
    let h := serveWindow { h with holds := [] }
    let h := agentReset (c = .perst) (discardCmds h)
    let h := restage (resetRings (resetTiles h))
    let h := setKind { h with power := { h.power with target := none } } (softKind c)
    if h.pkg = .alarm then h
    else if h.pkg = .hold ∨ h.pkg = .quiet then leaveLowPower h
    else setPower h .ready

/-- A write of RST_CTRL.SOFT acts where the block answers. -/
def execSoftReset (c : SoftCause) (s : State) : Host.Outcome State Fault Refusal :=
  onHw (match c with
    | .rstCtrl w => ifAnswers w (regOf .err 0x100) (.softReset c) (softHw c)
    | _ => softHw c) s

/-- A function-level reset arrives over the link (R373). -/
def flrHw (h : Hw) : Hw := if hostUp h then softHw .flr h else h

def execFunctionLevelReset (s : State) : Host.Outcome State Fault Refusal := onHw flrHw s

/-- PERST_N: its assertion is a warm reset, or with PERST_SOFT a soft reset and a retraining of the link (R455). -/
def perstHw (f : Fuses) (assert_ : Bool) (obs : BringUpObs) (h : Hw) : Hw :=
  let fresh := assert_ && !h.pins.perst
  let h := { h with pins := { h.pins with perst := assert_ } }
  if !fresh then h
  else if regBit h (regOf .err 0x104) 0 then linkDown (softHw .perst h)
  else warmHw f .perst obs h

def execPerstN (assert : Bool) (obs : BringUpObs) (s : State) : Host.Outcome State Fault Refusal :=
  onHw (perstHw s.fuses assert obs) s

/-! Error block (R467) -/

def errCauses (h : Hw) : List (Nat × Nat) :=
  let size := (getReg h (regOf .err 0x8C)).toNat
  (if regBit h (regOf .err 0x80) 5 ∧ !ringSizeOk size then [(1, 0)] else []) ++
  (if regFld h (regOf .err 0x84) 11 0 ≠ 0 then [(2, 0)] else [])

def errCommitHw (h : Hw) : Hw :=
  match firstCause (errCauses h) with
  | some c => rejectSet h (regOf .err 0xC4) c.1 0 0
  | none =>
    let h := copyRegs h (regOf .err 0x80) (regOf .err 0xA0) 4
    let h := setReg (setReg h (regOf .err 0xC8) 0) (regOf .err 0xCC) 0
    { h with errs := { h.errs with mirrorStopped := false } }

def execErrCommit (w : World) (s : State) : Host.Outcome State Fault Refusal :=
  onHw (ifAnswers w (regOf .err 0xC0) (.errCommit w) errCommitHw) s

end Sys2Proof.Machine
end

