-- ==== Sys2Proof/Machine/Power.lean ====
section
/-! DEFINITION. Power (R426-R435, R438-R443, R446, R447): conversion trips, rail windows, sensors, the two levels of the
arbiter, tile clocks, reference clocks and the power states. -/

namespace Sys2Proof.Machine

/-- A register of a board's arbiter loop (Table 18-10). -/
def rBrd (b rel : Nat) : Nat := regOf (.board b) (0x1000 + rel)

/-- The castle's arbiter and monitors run: converters and clocks run, and the package is past its bring-up. -/
def managed (h : Hw) : Bool := powered h && h.pkg ≠ .bringup && h.pkg ≠ .resigned && h.supplies.refclkSys

/-! Trips (R427) -/

/-- A conversion trip: its cause is latched and recorded, FAULT_N is asserted by the record, and every converter stops.
VIN must fall below 2 V and ramp again. No error message goes out: a trip reaches the host only as loss of the link and
in CONV_STATUS (R459). -/
def tripHw (f : Fuses) (cause unit tile : Nat) (h : Hw) : Hw :=
  if powered h ∧ h.supplies.converters then
    let c := setRegFld (setRegFld (setRegBit h (rPwr 0x20) 0 true) (rPwr 0x20) 11 8 cause) (rPwr 0x20) 7 4 tile
    let h := logErr c { source := 0xA, kind := cause, severity := 4, unit := unit }
    let h := { h with host := { h.host with aerSent := c.host.aerSent } }
    stopConverters f { h with supplies := { h.supplies with needRamp := true } }
  else h

/-- A thermal trip also asserts THERM_TRIP_N (R430). -/
def thermalTrip (f : Fuses) (die : Nat) (h : Hw) : Hw :=
  if powered h ∧ h.supplies.converters then
    tripHw f 5 die 0 { h with pins := { h.pins with thermTripN := true } }
  else h

/-- A trip by its cause; where the cause does not say which power tile or die, the record's UNIT is 0. -/
def conversionTripHw (f : Fuses) (c : TripCause) (h : Hw) : Hw :=
  match c with
  | .vinAbove48 => tripHw f 1 0 0 h
  | .powerTile t => tripHw f 2 t.val t.val h
  | .regulation => tripHw f 3 0 0 h
  | .railOver => tripHw f 4 0 0 h
  | .thermal => thermalTrip f 0 h

def execConversionTrip (c : TripCause) (s : State) : Host.Outcome State Fault Refusal :=
  onHw (conversionTripHw s.fuses c) s

/-! Knobs (Table 18-4) -/

def setCap (h : Hw) (t k : Nat) : Hw := { h with power := { h.power with caps := smSet 35 h.power.caps t k } }

def lowerTile (h : Hw) (t : Nat) : Hw := setCap h t (tileCap h t - 1)
def raiseTile (h : Hw) (t : Nat) : Hw := setCap h t (min 35 (tileCap h t + 1))

def pawnLimit (h : Hw) (s : Nat) : Nat := regFld h (regOf (.stack s) 0x10000) 7 0
def setLimitEff (h : Hw) (s n : Nat) : Hw := setRegFld h (regOf (.stack s) 0x10004) 7 0 n

def lowerStack (h : Hw) (s : Nat) : Hw := setLimitEff h s (max (min 16 (pawnLimit h s)) (limitEff h s - 8))
/-- A higher limit lets waiting pawns have tokens (R207). -/
def raiseStack (h : Hw) (s : Nat) : Hw := grantTokens 512 (setLimitEff h s (min (pawnLimit h s) (limitEff h s + 8))) s

/-- LINK pacing and the read-issue limit of a board, as what they take off the peak in percent. DESIGN CHOICE (log 39):
the manual gives both fields in percent with reset 0, where nothing is limited. -/
def pacing (h : Hw) (b : Nat) : Nat := regFld h (rBrd b 0xC) 31 24
def issueLimit (h : Hw) (b : Nat) : Nat := regFld h (rBrd b 0xC) 23 16
def setPacing (h : Hw) (b n : Nat) : Hw := setRegFld h (rBrd b 0xC) 31 24 n
def setIssueLimit (h : Hw) (b n : Nat) : Hw := setRegFld h (rBrd b 0xC) 23 16 n

def lowerPacing (h : Hw) (b : Nat) : Hw := setPacing h b (min 75 (pacing h b + 5))
def raisePacing (h : Hw) (b : Nat) : Hw := setPacing h b (pacing h b - 5)
def lowerIssue (h : Hw) (b : Nat) : Hw := setIssueLimit h b (min 50 (issueLimit h b + 5))
def raiseIssue (h : Hw) (b : Nat) : Hw := setIssueLimit h b (issueLimit h b - 5)

/-- The tiles of compute die d, and those of board b. -/
def tilesOfDie (d : Nat) : List Nat := (List.range 16).map fun i => 16 * d + i
def tilesOfBoard (b : Nat) : List Nat := (List.range 64).map fun i => 64 * b + i
def stacksOfBoard (b : Nat) : List Nat := (List.range 8).map fun i => 8 * b + i

/-- Lowers the islands of die n (numbered by R444) by a step: tile clocks, LIMIT_EFF, or the pacing of its class. The
castle is never throttled (R434). -/
def lowerDie (h : Hw) (n : Nat) : Hw :=
  if n < 12 then (tilesOfDie n).foldl lowerTile h
  else if n < 36 then lowerStack h (n - 12)
  else if n < 48 then lowerPacing h ((n - 36) / 4)
  else if n = 48 then h
  else lowerIssue h (n - 49)

/-- PWR_STATUS says which classes stand below their peak, and whether a sensor holds a die down. -/
def showThrottle (h : Hw) : Hw :=
  let link := (List.range 3).any fun b => 0 < pacing h b
  let mem := ((List.range 3).any fun b => 0 < issueLimit h b) || (List.range 24).any fun s => limitEff h s < pawnLimit h s
  let comp := (List.range 192).any fun t => tileCap h t < maxStep h (t / 16)
  setRegFld h (rPwr 0) 5 2 ((!h.power.hot.isEmpty).toNat + 2 * link.toNat + 4 * mem.toNat + 8 * comp.toNat)

/-! Sensors (R430) and rails (R428, R429) -/

/-- A reading of a die's sensor in quarters of a degree; calibration comes before every comparison (R430, R444). -/
def thermalHw (f : Fuses) (die : Nat) (raw : Int) (h : Hw) : Hw :=
  let q := raw + tempOffset f h die
  if !powered h then h
  else if 500 < q then thermalTrip f die h
  else
    let limit : Int := (regFld h (rPwr 0x124) 14 8 : Nat)
    let others := h.power.hot.filter (· ≠ die)
    let hot := decide (4 * limit < q) || (h.power.hot.contains die && decide (4 * (limit - 2) < q))
    let h := { h with power := { h.power with hot := if hot then others ++ [die] else others } }
    showThrottle (if hot then lowerDie h die else h)

def execThermalSample (die : Fin 52) (quarterDeg : Int) (s : State) : Host.Outcome State Fault Refusal :=
  onHw (thermalHw s.fuses die.val quarterDeg) s

/-- The limit of a rail in A (Table 18-3), and the die whose islands it feeds (R444). -/
def railLimit : Rail → Nat
  | .computeCore _ => 260
  | .stackDram _ => 22
  | .stackBase _ => 16
  | .board _ => 120
  | .optical _ => 18
  | .castle => 60

def railDie : Rail → Nat
  | .computeCore d => d.val
  | .stackDram s => 12 + s.val
  | .stackBase s => 12 + s.val
  | .board b => 49 + b.val
  | .optical q => 36 + q.val
  | .castle => 48

/-- A 5 µs window's average, by the calibrated gain of the die's current sense (R444), over the limit counts and
lowers the islands by 4 steps; above 130 % it trips. Issue at half rate changes timing only. -/
def railHw (f : Fuses) (r : Rail) (raw : Nat) (h : Hw) : Hw :=
  let ma := raw * senseGain f h (railDie r) / 1024
  if !powered h ∨ ma ≤ 1000 * railLimit r then h
  else
    let h := bumpSat h (rPwr 0x1C) 1
    if 1300 * railLimit r < ma then tripHw f 4 (railDie r) 0 h
    else showThrottle ((List.range 4).foldl (fun h _ => lowerDie h (railDie r)) h)

def execRailWindow (r : Rail) (avgMa : Nat) (s : State) : Host.Outcome State Fault Refusal :=
  onHw (railHw s.fuses r avgMa) s

/-! Board loops (R432, R434) -/

/-- A tile holds a command: TILE_STATUS.BUSY (R89). -/
def tileHolds (h : Hw) (t : Nat) : Bool := h.slots.any fun e => e.2.tiles.contains t

/-- COMPUTE below or above its grant: a step of every tile's clock, and at the lowest clock gaps between brick groups,
whose number is a free value. A die that its sensor holds down is not released. -/
def computeKnob (b est grant : Nat) (h : Hw) : Hw :=
  if grant < est then
    if (tilesOfBoard b).all fun t => tileCap h t = 0 then
      setRegFld { h with draws := h.draws + 1 } (rBrd b 0xC) 7 0 (Config.freeNat h.draws % 256)
    else (tilesOfBoard b).foldl lowerTile h
  else if est < grant then
    (tilesOfBoard b).foldl (fun h t => if h.power.hot.contains (t / 16) then h else raiseTile h t) h
  else h

/-- MEMORY: pawn limits first, then the issue of reads and writes; released in the other order. DESIGN CHOICE (log
39): the manual does not order the two knobs. -/
def memoryKnob (b est grant : Nat) (h : Hw) : Hw :=
  if grant < est then
    if (stacksOfBoard b).all fun s => limitEff h s ≤ min 16 (pawnLimit h s) then lowerIssue h b
    else (stacksOfBoard b).foldl lowerStack h
  else if est < grant then
    if 0 < issueLimit h b then (if h.power.hot.contains (49 + b) then h else raiseIssue h b)
    else (stacksOfBoard b).foldl (fun h s => if h.power.hot.contains (12 + s) then h else raiseStack h s) h
  else h

def linkKnob (b est grant : Nat) (h : Hw) : Hw :=
  if grant < est then lowerPacing h b
  else if est < grant then
    (if (List.range 4).any fun i => h.power.hot.contains (36 + 4 * b + i) then h else raisePacing h b)
  else h

/-- Tiles that hold no command are clock-gated: TILE_FREQ reads 63. -/
def gateIdle (b : Nat) (h : Hw) : Hw :=
  (tilesOfBoard b).foldl (fun h t => if tileHolds h t then h else setReg h (rTileFreq t) 63) h

/-- A board's loop: its estimates and temperatures, then each class against its grant. -/
def boardLoopHw (b : Nat) (x : BoardSample) (h : Hw) : Hw :=
  if !managed h then h
  else
    let h := setReg h (rBrd b 4) (BitVec.ofNat 32 (x.link + x.memory + x.compute + x.other))
    let h := setReg h (rBrd b 0x10) (BitVec.ofNat 32 (leNat ((x.temps.take 4).map fun t => BitVec.ofNat 8 t.val)))
    let h := linkKnob b x.link (regFld h (rBrd b 8) 15 0) h
    let h := memoryKnob b x.memory (regFld h (rBrd b 8) 31 16) h
    let h := computeKnob b x.compute (regFld h (rBrd b 0) 31 16) h
    showThrottle (gateIdle b h)

def execBoardLoop (b : BoardId) (x : BoardSample) (s : State) : Host.Outcome State Fault Refusal :=
  onHw (boardLoopHw b.val x) s

/-! The castle's allocation (R426, R431-R433) -/

/-- The three classes in their numbering by ARB_CFG: 1 LINK, 2 MEMORY, 3 COMPUTE. -/
def classDemand (x : ArbSample) : Nat → Nat
  | 1 => x.demandLink
  | 2 => x.demandMemory
  | _ => x.demandCompute

def classFloor (x : ArbSample) : Nat → Nat
  | 1 => x.floorLink
  | 2 => x.floorMemory
  | _ => x.floorCompute

/-- The rail whose voltage the islands of a die run at, the die by its index of R444. -/
def dieRail (n : Fin 52) : Rail :=
  if n.val < 12 then .computeCore (Fin.ofNat 12 n.val)
  else if n.val < 36 then .stackBase (Fin.ofNat 24 (n.val - 12))
  else if n.val < 48 then .optical (Fin.ofNat 12 (n.val - 36))
  else if n.val = 48 then .castle
  else .board (Fin.ofNat 3 (n.val - 49))

/-- The leakage of a die in mW: at a point of its curve, or between the points, where the curve is open (log 106). -/
def leakageOf (f : Fuses) (n mv : Nat) (deg : Int) : Nat :=
  let points := smGet [] f.factory.leak n
  match points.find? fun p => p.1 = (mv, deg) with
  | some p => p.2
  | none => Config.leakage points mv deg

/-- The power of a die's islands over 1 ms in mW (R431): its leakage, and (V / V_REF)² times the energies of its events. -/
def islandMw (f : Fuses) (h : Hw) (x : IslandSample) : Nat :=
  let v := railMv f h (dieRail x.die)
  let es := smGet [] f.factory.energy x.die.val
  let pj := (List.zip es x.counts).foldl (fun n p => n + p.1 * p.2) 0
  leakageOf f x.die.val v x.quarterDeg + v * v * pj / (max 1 (f.factory.vRef * f.factory.vRef) * 1000000)

/-- The sum of the islands' estimates in W. -/
def estimate (f : Fuses) (h : Hw) (x : ArbSample) : Nat := (x.islands.map (islandMw f h)).sum / 1000

/-- G × 4,096: measured over estimated, clamped to 1.00 to 1.25. With no estimate the ratio has no value, and G is a
free value of that range (log 1). -/
def gain (f : Fuses) (h : Hw) (x : ArbSample) : Nat :=
  let est := estimate f h x
  if est = 0 then 4096 + Config.freeNat h.draws % 1025
  else max 4096 (min 5120 (x.vinMv * x.iinMa * 4096 / (est * 1000000)))

/-- Grants in order, and what is left of the budget (R433). -/
def allocate (x : ArbSample) (order : List Nat) (budget : Int) : List (Nat × Nat) × Int :=
  order.foldl (fun r c =>
    let grant : Int := max (classFloor x c : Int) (min (classDemand x c : Int) r.2)
    (r.1 ++ [(c, grant.toNat)], r.2 - grant)) ([], budget)

/-- ORDER of the live set, first to last. -/
def arbOrder (v : Word) : List Nat := [fld v 1 0, fld v 3 2, fld v 5 4]

/-- The budget of R433 in whole W. -/
def arbBudget (h : Hw) (x : ArbSample) (g : Nat) : Int :=
  ((min (regFld h (rPwr 0x120) 11 0) (x.vinMv / 10) * 4096 / g : Nat) : Int) - (x.base : Int)

/-- The grants of an allocation and whether the cap is met; while CAP_UNMET stands every class has its floor. -/
def arbGrants (h : Hw) (x : ArbSample) (g : Nat) : List (Nat × Nat) × Bool :=
  let order := arbOrder (getReg h (rPwr 0x124))
  let r := allocate x order (arbBudget h x g)
  let unmet := decide (r.2 < 0)
  (if unmet || regBit h (rPwr 0x18) 31 then order.map fun c => (c, classFloor x c) else r.1, unmet)

/-- A board's share of a class grant, in proportion to its demand within the class. -/
def share (grant : Nat) (demands : List Nat) (b : Nat) : Nat := grant * demands.getD b 0 / max 1 demands.sum

def grantOf (gs : List (Nat × Nat)) (c : Nat) : Nat := ((gs.find? fun e => e.1 = c).map Prod.snd).getD 0

/-- The board budgets of an allocation (Table 18-10). -/
def boardGrants (x : ArbSample) (gs : List (Nat × Nat)) (h : Hw) (b : Nat) : Hw :=
  let l := share (grantOf gs 1) (x.boardDemand.map fun d => d.1) b
  let m := share (grantOf gs 2) (x.boardDemand.map fun d => d.2.1) b
  let c := share (grantOf gs 3) (x.boardDemand.map fun d => d.2.2) b
  let h := setReg h (rBrd b 0) (BitVec.ofNat 32 (c % 2 ^ 16 * 2 ^ 16 + (l + m + c) % 2 ^ 16))
  let h := setReg h (rBrd b 8) (BitVec.ofNat 32 (m % 2 ^ 16 * 2 ^ 16 + l % 2 ^ 16))
  setRegFld h (rBrd b 0xC) 7 0 0

/-- A pending ARB set becomes live. -/
def applyArb (h : Hw) : Hw :=
  match h.power.pendingArb with
  | none => h
  | some ss => ss.foldl (fun h e => setReg h e.1 e.2) { h with power := { h.power with pendingArb := none } }

/-- G in force before an allocation; 1.00 before the first. -/
def gainNow (h : Hw) : Nat := max 4096 (regFld h (rPwr 0x18) 15 0)

/-- The readings of the last 1 ms: the estimate with the gain in force, the measured power, VIN and its current. -/
def arbReadings (f : Fuses) (x : ArbSample) (h : Hw) : Hw :=
  let h := setReg h (rPwr 8) (BitVec.ofNat 32 (estimate f h x * gainNow h / 4096))
  let h := setReg h (rPwr 0xC) (BitVec.ofNat 32 (x.vinMv * x.iinMa / 1000000))
  setReg (vinFlags h x.vinMv) (rPwr 0x14) (BitVec.ofNat 32 x.iinMa)

def arbAllocationHw (f : Fuses) (x : ArbSample) (h : Hw) : Hw :=
  if !managed h then h
  else
    let h := arbReadings f x (applyArb h)
    let g := gain f h x
    let r := arbGrants h x g
    let h := setRegFld { h with draws := h.draws + 1 } (rPwr 0x18) 15 0 g
    let h := (List.range 3).foldl (boardGrants x r.1) h
    if r.2 then logErr (setRegBit h (rPwr 0x18) 31 true) { source := 0xA, kind := 6, severity := 3 } else h

def execArbAllocation (x : ArbSample) (s : State) : Host.Outcome State Fault Refusal :=
  onHw (arbAllocationHw s.fuses x) s

/-- ARB_COMMIT is refused in these cases (Table 18-9). -/
def arbBad (h : Hw) (w : World) : Bool :=
  let cap := regFld h (rPwr 0x100) 11 0
  let cfg := getReg h (rPwr 0x104)
  let t := fld cfg 14 8
  decide (cap < 1200) || decide (3200 < cap) || decide (t < 85) || decide (120 < t) ||
  !([1, 2, 3].all fun c => (arbOrder cfg).contains c) || (w = .nonSecure && bit cfg 31)

/-- An accepted commit waits for the next allocation (R446). -/
def arbCommitHw (w : World) (h : Hw) : Hw :=
  if arbBad h w then setRegBit h (rPwr 0x144) 31 true
  else { h with power := { h.power with
    pendingArb := some [(rPwr 0x120, getReg h (rPwr 0x100)), (rPwr 0x124, getReg h (rPwr 0x104))] } }

def execArbCommit (w : World) (s : State) : Host.Outcome State Fault Refusal :=
  onHw (ifAnswers w (rPwr 0x140) (.arbCommit w) (arbCommitHw w)) s

/-! Clocks (R438-R440) -/

/-- A tile that holds a command moves its clock toward its cap by at most 8 steps, or starts it at or below the cap. -/
def clockChangeHw (t k : Nat) (h : Hw) : Hw :=
  let cur := (getReg h (rTileFreq t)).toNat
  let cap := tileCap h t
  let toCap := (decide (cur ≤ k) && decide (k ≤ cap) && decide (k ≤ cur + 8)) ||
    (decide (cap ≤ k) && decide (k ≤ cur) && decide (cur ≤ k + 8))
  if managed h ∧ tileHolds h t ∧ (if cur = 63 then k ≤ cap else toCap) then
    setReg h (rTileFreq t) (BitVec.ofNat 32 k)
  else h

def execClockChange (t : TileId) (step : Nat) (s : State) : Host.Outcome State Fault Refusal :=
  onHw (clockChangeHw t.val step) s

/-- Loss of REFCLK_SYS stops every island's clock and, after the start, raises CGLITCH (R440, R489, Table 16-4). -/
def refclkSysLossHw (h : Hw) : Hw :=
  let g := { h with supplies := { h.supplies with refclkSys := false } }
  if h.supplies.refclkSys ∧ powered h ∧ h.supplies.converters then alarmDetectHw 3 g else g

def execRefclkSysLoss (s : State) : Host.Outcome State Fault Refusal := onHw refclkSysLossHw s

/-- Loss of REFCLK_CXL drops the host link. -/
def refclkCxlLossHw (h : Hw) : Hw := linkDown { h with supplies := { h.supplies with refclkCxl := false } }

def execRefclkCxlLoss (s : State) : Host.Outcome State Fault Refusal := onHw refclkCxlLossHw s

/-! Power states (R442, R443) -/

/-- A request: RUN leaves HOLD or QUIET; HOLD and QUIET wait for the in-flight slots. -/
def requestState (req : Nat) (h : Hw) : Hw :=
  if req = 0 then
    let h := { h with power := { h.power with target := none } }
    if h.pkg = .hold ∨ h.pkg = .quiet then leaveLowPower h else h
  else if req = 3 then h
  else
    let want := if req = 1 then PkgState.hold else .quiet
    { h with power := { h.power with target := if h.pkg = want then none else some want } }

/-- A write of PWR_CTRL: WAKE_ON_DB, REQ unless it is 3, and CAL_SAVE (Table 18-9). -/
def pwrCtrlHw (v : Word) (h : Hw) : Hw :=
  let req := fld v 1 0
  let h := setRegBit h (rPwr 4) 2 (bit v 2)
  let h := if req = 3 then h else setRegFld h (rPwr 4) 1 0 req
  let h := if bit v 3 then calSaveHw h else h
  requestState req h

def execPowerStateRequest (w : World) (v : Word) (s : State) : Host.Outcome State Fault Refusal :=
  onHw (ifAnswers w (rPwr 4) (.powerStateRequest w v) (pwrCtrlHw v)) s

/-- Once no command holds a slot, READY or RUN gives way to the state asked for; QUIET sends QUIET cells and darkens
the ports. -/
def powerStateEntryHw (serial : Quad) (h : Hw) : Hw :=
  match h.power.target with
  | none => h
  | some p =>
    if (h.pkg = .ready ∨ h.pkg = .run) ∧ h.slots = [] then
      let h := { h with power := { h.power with target := none } }
      setPower (if p = .quiet then dropLines (leavePorts h serial 12) (fun _ _ => true) else h) p
    else h

def execPowerStateEntry (s : State) : Host.Outcome State Fault Refusal := onHw (powerStateEntryHw s.fuses.serial) s

end Sys2Proof.Machine
end

