-- ==== Sys2Proof/Machine/RegAccess.lean ====
section
/-! DEFINITION. What registers read (R470-R473, R477-R481 and the register tables), and REGISTER_WRITE (R469-R471,
R474). -/

namespace Sys2Proof.Machine

/-! Reads -/

def w32 (n : Nat) : Word := BitVec.ofNat 32 n

/-- Bundles in service on a link, and its bandwidth per direction in GB/s (R478). -/
def linkBw (h : Hw) (l : Nat) : Word :=
  let n := regFld h (rLink l) 15 8
  w32 (n * 2 ^ 16 + n * 4 * regFld h (rZl 4) 7 0)

/-- The identity page (Table 20-4): fields set at bring-up step 5 read 0 before it. -/
def readIdent (f : Fuses) (h : Hw) (r : Nat) : Word :=
  if r = 8 then w32 f.serial.toNat
  else if r = 0xC then w32 (f.serial.toNat / 2 ^ 32)
  else if r = 0x18 then (if 5 ≤ h.bringStep then w32 (regFld h (rZl 4) 7 0) else 0)
  else if 0x20 ≤ r ∧ r < 0xEC ∧ r % 4 = 0 then (if 5 ≤ h.bringStep then linkBw h ((r - 0x20) / 4) else 0)
  else getReg h r

/-- Enabled rings whose bits an agent sees, ring n in bit n (R480). -/
def ringMap (h : Hw) (w : World) : Nat :=
  ((List.range 64).map fun n =>
    (ringEnabled h n && (w = .secure || ringWorld h n = .nonSecure)).toNat * 2 ^ n).sum

def countP (n : Nat) (p : Nat → Bool) : Nat := ((List.range n).filter p).length

/-- The global status page (Table 20-5). -/
def readStatus (h : Hw) (w : World) (r : Nat) : Word :=
  if r = 0 then w32 (h.pins.faultN.toNat * 2 ^ 31 + h.pins.alarmN.toNat * 2 ^ 30 + h.pins.thermTripN.toNat * 2 ^ 29 +
    h.sec.halted.toNat * 2 ^ 28 + h.bringStep * 2 ^ 16 + pkgCode h.pkg)
  else if r = 4 then w32 (countP 12 (portUp h) * 2 ^ 16 + countP 24 (stackReady h) * 2 ^ 8 + countP 192 (tileReady h))
  else if r = 8 then w32 h.slots.length
  else if r = 0xC then w32 (ringMap h w)
  else if r = 0x10 then w32 (ringMap h w / 2 ^ 32)
  else if r = 0x14 then getReg h rErrLast
  else if r = 0x18 then (match h.errs.highest with | none => 0 | some s => w32 (8 + s))
  else if r = 0x1C then w32 ((getReg h (rPwr 0xC)).toNat % 2 ^ 16)
  else 0

/-- The record that ERR_SEL names; whether it was written and has been overwritten (Table 19-8). -/
def selected (h : Hw) : Option ErrRec := h.errs.log.find? fun r => r.ref = getReg h (regOf .err 8)
def selGone (h : Hw) : Bool :=
  let sel := getReg h (regOf .err 8)
  (selected h).isNone && sel ≠ 0 && (h.errs.wrapped || decide (sel.toNat ≤ (getReg h rErrLast).toNat)) && h.errs.highest.isSome

/-- The error and reset block (Table 19-8). -/
def readErr (h : Hw) (w : World) (r : Nat) : Word :=
  let o := regOf .err r
  if r = 0 then setBit (getReg h o) 29 (selGone h)
  else if 0x10 ≤ r ∧ r < 0x50 then
    (match selected h with
     | none => 0
     | some e => w32 (leAt (errBytes e (w = .nonSecure)) (r - 0x10) 4))
  else if r = 0x200 then w32 h.errs.sticky.length
  else if 0x400 ≤ r ∧ r < 0x800 then
    w32 (leAt (h.errs.sticky.flatMap fun e => errBytes e (w = .nonSecure)) (r - 0x400) 4)
  else getReg h o

/-- A key's fingerprint: the first 3 bytes of SHAKE256 of its material (R398). -/
def fingerprint (key : List Byte) : Nat := leNat (shake256 key 3)

def linkInfo (h : Hw) (k : Nat) : Word :=
  match smFind h.sec.linkKeys k with
  | none => 0
  | some x => w32 (2 ^ 31 + (worldBit x.world).toNat * 2 ^ 30 + fingerprint x.key)

def egressInfo (h : Hw) (k : Nat) : Word :=
  match smFind h.sec.egressKeys k with
  | none => 0
  | some x => w32 (2 ^ 31 + (worldBit x.world).toNat * 2 ^ 30 + (spentKey x).toNat * 2 ^ 29 +
      fingerprint (x.dataKey ++ x.tweakKey))

/-- SEC_STATUS (Table 16-7). -/
def secStatus (h : Hw) : Word :=
  w32 (h.sec.halted.toNat * 16 + h.pins.alarmN.toNat * 8 + h.sec.keysErased.toNat * 4 +
    (regBit h (rSec 0x108) 31).toNat * 2 + h.sec.verified.toNat)

def fuseState (f : Fuses) (h : Hw) : Word :=
  w32 (f.svnFloor * 2 ^ 8 + f.lifecycle * 16 + (regBit h (rSec 8) 0).toNat)

/-- The security block (Table 16-7). -/
def readSec (f : Fuses) (h : Hw) (r : Nat) : Word :=
  if r = 0 then secStatus h
  else if r = 8 then fuseState f h
  else if r = 0x104 then alarmLive h
  else if 0x300 ≤ r ∧ r < 0x400 then linkInfo h ((r - 0x300) / 4)
  else if 0x400 ≤ r ∧ r < 0x500 then egressInfo h ((r - 0x400) / 4)
  else getReg h (rSec r)

/-- VE_STATUS (Table 5-8): the length of the program last loaded, and while a command works on the tile its pass and
what its engine waits for, which timing decides (log 1). -/
def veStatus (h : Hw) (t : Nat) : Word :=
  let len := (getReg h (regOf (.tile t) 0x1000)).toNat % 128
  let d := (match smFind h.freeRegs (regOf (.tile t) 0x1010) with | some d => Config.freeNat d | none => 0)
  match h.slots.find? fun e => e.2.tiles.contains t with
  | none => w32 len
  | some e =>
    let op := e.2.opcode
    let engine := e.2.cls = 3 || e.2.cls = 4
    w32 (len + (if op = 0x34 ∨ op = 0x35 then d % 3 * 2 ^ 10 else 0) + (if engine then d / 4 % 2 * 2 ^ 9 else 0) +
      (if e.2.cls = 2 ∨ e.2.cls = 4 then d / 8 % 2 * 2 ^ 8 else 0))

/-- A tile block: WORLD, and counts that the manual does not fix once commands have run on the tile (log 1). -/
def readTile (h : Hw) (t r : Nat) : Word :=
  let o := regOf (.tile t) r
  if r = 4 then setBit (getReg h o) 31 (tileSecure h t)
  else if r = 0x1000 then veStatus h t
  else if r = 0x2000 then w32 (tagsBusy h t + (creditWait h t).toNat * 2 ^ 10)
  else if r = 0x2004 then
    let s := streamHeld h t
    let c := cmdHeld h t
    w32 ((128 - s - c) + c * 2 ^ 8 + s * 2 ^ 16)
  else if r = 0x2008 then getReg h o &&& w32 0xFFFF
  else if r = 0x3000 then w32 (xcache h t).entries.length
  else if r = 0x3008 then w32 ((xcache h t).hits / 1024)
  else if r = 0x300C then w32 (xcache h t).misses
  else getReg h o

/-- Whether an octet position of a stack is a pawn region with no output of a command in flight (REGION_READY). -/
def regionReady (h : Hw) (s o : Nat) : Bool :=
  regBit h (regOf (.board (s / 8)) (0x800 + 4 * o)) 2 &&
  !(h.slots.any fun e => e.2.outs.any fun k => k / 2 ^ 37 = s && k % 2 ^ 37 / 2 ^ 30 = o)

/-- Bits 32w + i of a predicate. -/
def bitWord (w : Nat) (p : Nat → Bool) : Word :=
  w32 ((List.range 32).map fun i => (p (32 * w + i)).toNat * 2 ^ i).sum

/-- Pawns that wait for a token of a stack. -/
def pawnsWaiting (h : Hw) (s : Nat) : Nat := ((h.tokenWaits.filter fun t => t.2 / 512 = s).map Prod.snd).eraseDups.length

/-- A stack block (Tables 7-7, 8-6). -/
def readStack (h : Hw) (s r : Nat) : Word :=
  let o := regOf (.stack s) r
  if r = 4 then setBit (getReg h o) 31 (stackSecure h s)
  else if r = 0x34 then w32 ((stackAux h s).rdBytes / 65536)
  else if r = 0x38 then w32 ((stackAux h s).wrBytes / 65536)
  else if r = 0x10004 then
    w32 (pawnsWaiting h s * 2 ^ 16 + holdersOf h s * 2 ^ 8 + limitEff h s)
  else if r = 0x10020 then w32 ((h.holds.filter fun x => x.base / 2 ^ 37 = s).map Hold.slot).eraseDups.length
  else if 0x10100 ≤ r ∧ r < 0x10140 then
    bitWord ((r - 0x10100) / 4) fun p => (smFind h.tokens (pawnKey s p)).isSome
  else if 0x10200 ≤ r ∧ r < 0x1020C then bitWord ((r - 0x10200) / 4) (regionReady h s)
  else getReg h o

/-- A board block (Table 7-8). -/
def readBoard (h : Hw) (b r : Nat) : Word :=
  let a := cacheAux h b
  if r = 0x10 then w32 (a.hits / 1024)
  else if r = 0x14 then w32 (a.misses / 1024)
  else if r = 0x18 then w32 (a.fills / 1024)
  else getReg h (regOf (.board b) r)

/-- Link control (Table 17-8). -/
def readZl (h : Hw) (r : Nat) : Word :=
  let repair : Nat :=
    let sel := getReg h (rZl 0x440)
    let l := fld sel 12 7
    let b := fld sel 6 1
    let d := bit sel 0
    if 51 ≤ l ∨ linkBundles l ≤ b ∨ h.bringStep < 4 then 0
    else ((smFind h.lanes (laneKey l b d)).elim (repairEntry false d b []) LaneRepair.entry).toNat
  if r = 0 then
    let retired := if h.bringStep < 4 then 0 else
      ((List.range 51).map fun l => linkBundles l - regFld h (rLink l) 15 8).sum
    w32 (countP 51 (fun l => regBit h (rLink l) 7) * 2 ^ 16 + countP 51 (fun l => regBit h (rLink l) 6) * 2 ^ 8 +
      min 255 retired)
  else if r = 0x444 then w32 repair
  else if r = 0x448 then w32 (repair / 2 ^ 32)
  else getReg h (rZl r)

/-- A port: WORLD and LASER_OK (Table 12-14). -/
def readPort (h : Hw) (q r : Nat) : Word :=
  let v := getReg h (regOf (.port q) r)
  if r = 0 then setBit (setBit v 31 (portSecure h q)) 8 (laserOk h q)
  else if r = 0x24 then (portAux h q).fecCorr
  else if r = 0x28 then (portAux h q).fecUncorr
  else v

/-- Whether a command of an opcode is at work. -/
def opRuns (h : Hw) (op : Nat) : Bool := h.slots.any fun e => e.2.opcode = op && e.2.phase = .running

/-- Notation (Table 13-5). -/
def readNote (h : Hw) (r : Nat) : Word :=
  let v := getReg h (regOf .note r)
  if r = 0 then setBit (setBit v 1 (opRuns h 0x91)) 0 (opRuns h 0x90)
  else if r = 0x1C then w32 (slotsValid h * 2 ^ 8 + slotGib h % 2 ^ 8)
  else v

/-- A ring page (Table 2-1). -/
def readRing (h : Hw) (n r : Nat) : Word :=
  let v := getReg h (rRing n r)
  if r = 8 then setBit v 5 (decide (cqSize h n ≠ 0) && cqClosed h n)
  else if r = 0x14 then w32 (inFlight h n)
  else v

/-- What the build record window holds (R479). -/
def readBuild (f : Fuses) (h : Hw) (r : Nat) : Word :=
  if brBytes h ≤ r then 0 else w32 (leAt (buildRecord f) r 4)

/-- The dword at an aligned offset, as a block answers it. -/
def blockRead (f : Fuses) (h : Hw) (w : World) (off : Nat) : Word :=
  let b := blockOf off
  let r := off - baseOf b
  match b with
  | .ident => readIdent f h r
  | .gstatus => readStatus h w r
  | .build => readBuild f h r
  | .ring n => readRing h n r
  | .stream => if r = 0x100 then w32 h.streams.length else getReg h off
  | .xlate =>
    if r = 0 then w32 ((regimeEnabled h 1).toNat * 2 + (regimeEnabled h 0).toNat)
    else if r = 4 then w32 (h.xlate.walks / 1024)
    else getReg h off
  | .regime k =>
    if r = 0x44 then setBit (getReg h off) 0
      (decide (0 < (getReg h (xLive k 0x1C)).toNat) && decide ((getReg h (xLive k 0x1C)).toNat ≤ fqUsed h k))
    else getReg h off
  | .port q => readPort h q r
  | .fabric => if r = 0x60 then w32 h.colls.length else getReg h off
  | .note => readNote h r
  | .err => readErr h w r
  | .sec => readSec f h r
  | .tile t => readTile h t r
  | .stack s => readStack h s r
  | .board k => readBoard h k r
  | .zl => readZl h r
  | .cxl => Config.componentRead h.host.component off
  | _ => getReg h off

/-- A read of a dword by an agent: 0 where the offset does not answer (R473). -/
def readReg (f : Fuses) (h : Hw) (w : World) (off : Nat) : Word :=
  if answers h w off then blockRead f h w (off / 4 * 4) else 0

/-- The bytes that a read of 1, 2, 4 or 8 bytes returns (R469): bytes of the enclosing dword, or two dwords, the lower
address first. -/
def readRegBytes (f : Fuses) (h : Hw) (w : World) (off n : Nat) : List Byte :=
  if n = 8 then leBytes 4 (readReg f h w off).toNat ++ leBytes 4 (readReg f h w (off + 4)).toNat
  else ((leBytes 4 (readReg f h w off).toNat).drop (off % 4)).take n

/-! Writes -/

/-- A write by the access codes of Table 20-2. -/
def plainWrite (w : World) (off : Nat) (v : Word) (h : Hw) : Hw :=
  let i := regInfo off
  let mask := w32 (if w = .secure then i.rw ||| i.secureOnly else i.rw - (i.rw &&& i.secureOnly))
  let old := getReg h off
  let new := (old &&& ~~~mask ||| v &&& mask) &&& ~~~(v &&& w32 i.w1c)
  if new = old then h else setReg h off new

/-- f where bit i of a written word is set. -/
def onBit (v : Word) (i : Nat) (f : Hw → Hw) (h : Hw) : Hw := if bit v i then f h else h

/-- RING_CTRL: start, stop, abort (Table 2-1). DESIGN CHOICE (log 63): a write with several of the bits acts on ENABLE,
then STOP, then ABORT; the manual gives no order. -/
def ringCtrlWrite (n : Nat) (v : Word) (h : Hw) : Hw :=
  onBit v 2 (ringAbortHw n) (onBit v 1 (ringStopHw n) (onBit v 0 (ringEnableHw n) h))

def ringWriteReg (w : World) (n r : Nat) (v : Word) (h : Hw) : Hw :=
  if r = 0 then sqDoorbellHw n v h
  else if r = 8 then onBit v 8 (errorHaltClearHw n) (plainWrite w (rRing n 8) (setBit v 8 false) h)
  else if r = 4 then cqDoorbellHw n v h
  else if r = 0x18 then ringCtrlWrite n v h
  else if r = 0x5C then ringCommitHw w n h
  else plainWrite w (rRing n r) v h

/-- TRAIN_SCALE.NEXT_EXP takes no write while a step is open or closing (Table 11-7). -/
def trainWriteReg (w : World) (r : Nat) (v : Word) (h : Hw) : Hw :=
  if r = 0x140 then trainCommitHw w h
  else if r = 0xC ∧ (regBit h rTrainStatus 0 ∨ regBit h rTrainStatus 1) then h
  else plainWrite w (regOf .train r) v h

/-- Unmasking an MSI-X vector sends its pending message (R374). -/
def hostWriteReg (w : World) (r : Nat) (v : Word) (h : Hw) : Hw :=
  if r = 4 then onBit v 1 hostClrHw (onBit v 0 agentFlushHw h)
  else if r = 0x110 then windowCommitHw h
  else if r = 0x280 then peerCommitHw h
  else if 0x1000 ≤ r ∧ r < 0x1480 ∧ r % 16 = 12 ∧ !bit v 0 then unmaskHw ((r - 0x1000) / 16) h
  else plainWrite w (rHost r) v h

/-- A write of a CXL component register (R372). What it changes there is CXL 2.0's: the write is held, and in CXL mode
IDE_ACTIVE and MEM_EN follow (R371, Table 15-5). -/
def componentWrite (off : Nat) (v : Word) (h : Hw) : Hw :=
  let ws := h.host.component ++ [(off, v)]
  let h := { h with host := { h.host with component := ws } }
  let bits := Config.componentStatus ws
  if hostMode h = 1 then setRegBit (setRegBit h rHostLink 5 bits.1) rHostLink 3 bits.2 else h

def powerWriteReg (w : World) (r : Nat) (v : Word) (h : Hw) : Hw :=
  if r = 4 then pwrCtrlHw v h
  else if r = 0x140 then arbCommitHw w h
  else if r = 0x900 then calCommitHw h
  else plainWrite w (rPwr r) v h

/-- PORT_CTRL: AUTO, ENABLE and RETRAIN (Table 12-14). -/
def portWriteReg (w : World) (q r : Nat) (v : Word) (h : Hw) : Hw :=
  if r = 4 then onBit v 1 (retrainHw q) (portEnableHw q (bit v 0) (setRegBit h (rPort q 4) 2 (bit v 2)))
  else plainWrite w (regOf (.port q) r) v h

def fabricWriteReg (w : World) (r : Nat) (v : Word) (h : Hw) : Hw :=
  if r = 0x18 then onBit v 1 disarmHw h
  else if r = 0x108 then fabricCommitHw w h
  else plainWrite w (regOf .fabric r) v h

def noteWriteReg (w : World) (r : Nat) (v : Word) (h : Hw) : Hw :=
  if r = 4 then onBit v 1 invalidateSlotsHw (onBit v 0 noteClrHw h)
  else if r = 0x180 then noteCommitHw w h
  else plainWrite w (regOf .note r) v h

def errWriteReg (w : World) (r : Nat) (v : Word) (h : Hw) : Hw :=
  if r = 0xC0 then errCommitHw h
  else if r = 0x100 then onBit v 0 (softHw (.rstCtrl w)) h
  else plainWrite w (regOf .err r) v h

/-- The security block takes writes in the secure view only (R406); a KEY_CMD of the non-secure world is refused with
cause 3 (R399). -/
def secWriteReg (w : World) (r : Nat) (v : Word) (h : Hw) : Hw :=
  if w = .nonSecure then (if r = 0x200 then keyInstallHw w v (eraseSlotHw w v h) else h)
  else if r = 0x100 then alarmClearHw v h
  else if r = 0x108 then policyWrite v h
  else if r = 0x200 then (if bit v 30 then eraseSlotHw w v h else keyInstallHw w v h)
  else if r = 0x208 then { h with sec := { h.sec with keyArg0 := v } }
  else if r = 0x20C then { h with sec := { h.sec with keyArg1 := v } }
  else if 0x240 ≤ r ∧ r < 0x280 then { h with sec := { h.sec with keyData := h.sec.keyData.set ((r - 0x240) / 4) v } }
  else if r = 0x580 then worldCommitHw h
  else if r = 0x2000 then regionCommitHw h
  else plainWrite w (rSec r) v h

/-- VE_PROG_ERR.VALID, written as 1, clears the register (Table 5-8). -/
def tileWriteReg (w : World) (t r : Nat) (v : Word) (h : Hw) : Hw :=
  let b := regOf (.tile t) 0
  if r = 8 then onBit v 0 (tileResetHw t) (onBit v 1 (tileClrHw t) h)
  else if r = 0x1008 then onBit v 31 (fun h => clearReg h (b + r)) h
  else if r = 0x100C then onBit v 0 (clearRegs b [0x1010, 0x1014, 0x1018]) h
  else if r = 0x200C then onBit v 0 (clearRegs b [0x2010, 0x2014, 0x2018, 0x201C]) h
  else if r = 0x3004 then onBit v 0 (tcClrHw t) h
  else plainWrite w (b + r) v h

/-- PAWN_CFG.LIMIT takes 1 to 128; what the arbiter has taken off the limit stays off, down to 16 or the limit
(R207, Table 18-4). -/
def pawnCfgWrite (s : Nat) (v : Word) (h : Hw) : Hw :=
  let n := fld v 7 0
  if n = 0 ∨ 128 < n then h
  else
    let off := pawnLimit h s - limitEff h s
    let h := setLimitEff (setRegFld h (regOf (.stack s) 0x10000) 7 0 n) s (max (min 16 n) (n - off))
    grantTokens 512 h s

def stackWriteReg (w : World) (s r : Nat) (v : Word) (h : Hw) : Hw :=
  let b := regOf (.stack s) 0
  if r = 8 then onBit v 1 (scrubNowHw s) (onBit v 0 (stackClrHw s) h)
  else if r = 0x2C then scrubCfgHw s (plainWrite w (b + r) v h)
  else if r = 0x30 then eccInjectHw w s v h
  else if r = 0x10000 then pawnCfgWrite s v h
  else if r = 0x1000C then onBit v 0 (pawnClrHw s) h
  else plainWrite w (b + r) v h

/-- BC_STATUS follows BC_CTRL (Table 7-8), but a cache that failed its self-test stays off (R452). REJECT of one
board's MEMMAP_STATUS, written as 1, clears in all three. -/
def boardWriteReg (w : World) (b r : Nat) (v : Word) (h : Hw) : Hw :=
  let o := regOf (.board b) 0
  if r = 0 then
    let on := bit v 0 && !(cacheAux h b).failed
    setRegBit (plainWrite w o (setBit v 0 on) h) (o + 4) 0 on
  else if r = 8 then onBit v 0 (emptyCache b) h
  else if r = 0x100 then memmapCommitHw w h
  else if r = 0x104 then onBit v 31 (fun h => (List.range 3).foldl (fun h b => setRegBit h (regOf (.board b) r) 31 false) h) h
  else plainWrite w (o + r) v h

def zlWriteReg (w : World) (r : Nat) (v : Word) (h : Hw) : Hw :=
  if r = 8 then
    let h := onBit v 0 zlClrHw h
    if w = .secure then onBit v 1 testOpenHw h else h
  else plainWrite w (rZl r) v h

def mapWriteReg (w : World) (m r : Nat) (v : Word) (h : Hw) : Hw :=
  if r = 0xFF0 then mapCommitHw w m h else plainWrite w (regOf (.map m) r) v h

def streamWriteReg (w : World) (r : Nat) (v : Word) (h : Hw) : Hw :=
  if r = 0x1080 then lendCommitHw w h else plainWrite w (regOf .stream r) v h

def regimeWriteReg (w : World) (k r : Nat) (v : Word) (h : Hw) : Hw :=
  if r = 0x40 then xlateCommitHw k h
  else if r = 0x4C then fqConsHw k v h
  else if r = 0x50 then xlateResolveHw k v h
  else plainWrite w (regOf (.regime k) r) v h

/-- A whole aligned write to a block that answers: what a register's field map says a write does, else its access code
(Table 20-2). -/
def blockWrite (w : World) (off : Nat) (v : Word) (h : Hw) : Hw :=
  let b := blockOf off
  let r := off - baseOf b
  match b with
  | .ring n => ringWriteReg w n r v h
  | .stream => streamWriteReg w r v h
  | .train => trainWriteReg w r v h
  | .host => hostWriteReg w r v h
  | .regime k => regimeWriteReg w k r v h
  | .power => powerWriteReg w r v h
  | .port q => portWriteReg w q r v h
  | .fabric => fabricWriteReg w r v h
  | .map m => mapWriteReg w m r v h
  | .note => noteWriteReg w r v h
  | .err => errWriteReg w r v h
  | .sec => secWriteReg w r v h
  | .tile t => tileWriteReg w t r v h
  | .stack s => stackWriteReg w s r v h
  | .board k => boardWriteReg w k r v h
  | .zl => zlWriteReg w r v h
  | .ctr => plainWrite w off v h
  | .ident => h
  | .gstatus => h
  | .build => h
  | .cxl => componentWrite off v h
  | .xlate => h
  | .unmapped => h

/-- A write that is narrower than 4 bytes or not dword-aligned is dropped and recorded (R469). -/
def malformed (off bytes : Nat) : Bool := decide (bytes < 4) || decide (off % 4 ≠ 0)

/-- Its record's ADDR: DEDUCED (log 43), the BAR0 offset, which Table 20-7 leaves out of source 0x08's addresses. -/
def malformedWrite (off : Nat) (h : Hw) : Hw := logErr h { source := 8, kind := 5, severity := 2, addr := off }

/-- A write of a dword at a BAR0 offset, or at a register of the secure view. SEC_CTRL.SVN_ADVANCE is its own command,
whose fuse burn this one shares. -/
def writeDword (w : World) (off : Nat) (v : Word) (s : State) : State :=
  if !answers s.hw w off then s
  else if off = rSec 0xC then
    (if bit v 0 ∧ w = .secure then { s with fuses := burnFloor s.hw s.fuses } else s)
  else { s with hw := settle (blockWrite w off v s.hw) }

/-- REGISTER_WRITE: an 8-byte write is two dword writes, the lower address first (R469), and a write of the host acts
in its order (R383). -/
def execRegisterWrite (w : World) (off : Nat) (bytes : Nat) (v : Quad) (s : State) : Host.Outcome State Fault Refusal :=
  if postedBefore s.hw w then onHw (posted w (.registerWrite w off bytes v) id) s
  else if malformed off bytes then (if answers s.hw w off then onHw (malformedWrite off) s else .next s)
  else
    let t := writeDword w off (BitVec.ofNat 32 v.toNat) s
    .next (if bytes = 8 then writeDword w (off + 4) (BitVec.ofNat 32 (v.toNat / 2 ^ 32)) t else t)

end Sys2Proof.Machine
end

