-- ==== Sys2Proof/Machine/Manage.lean ====
section
/-! DEFINITION. QUERY, TELEMETRY, ATTEST (R464-R466, R395-R397) and the management endpoint (R462). -/

namespace Sys2Proof.Machine

/-- A command of class 0xF writes its report whole and ends DONE with the size; a fault in the output waits in place or
ends it (Table 14-7). -/
def reportWork (slot : Nat) (c : Cmd) (report : List Byte) (h : Hw) : Hw :=
  runCmd h slot do
    noteOut slot [(par c.packet 0 8, report.length)]
    wr (whoOf slot c) (par c.packet 0 8) report
    pure (0, report.length, 0)

/-- A set of bits as little-endian bytes. -/
def maskBytes (n : Nat) (p : Nat → Bool) : List Byte :=
  leBytes (n / 8) ((List.range n).map fun i => (p i).toNat * 2 ^ i).sum

/-! QUERY (Table 19-6) -/

/-- The lowest stepping of the dies: letter and digit (R28). -/
def lowestStep (f : Fuses) : Nat := (f.places.map fun w => fld w 19 16 * 16 + fld w 15 12).foldl min 255

def opsetBytes (h : Hw) (rel : Nat) : List Byte :=
  (List.range 4).flatMap fun i => leBytes 4 (getReg h (rZl (rel + 4 * i))).toNat

/-- The QUERY report. -/
def queryReport (f : Fuses) (h : Hw) : List Byte :=
  leBytes 4 1 ++ leBytes 4 256 ++ leBytes 8 f.serial.toNat ++
  leBytes 4 (getReg h (rZl 4)).toNat ++ leBytes 4 (getReg h (rZl 0xC)).toNat ++ leBytes 4 (pkgCode h.pkg) ++
  leBytes 4 (lowestStep f) ++
  opsetBytes h 0x10 ++ opsetBytes h 0x20 ++ opsetBytes h 0x30 ++ opsetBytes h 0x40 ++
  maskBytes 192 (fun t => !tileOut h t) ++ maskBytes 32 (fun q => decide (q < 12) && portUp h q) ++
  maskBytes 32 (fun s => decide (s < 24) && stackReady h s) ++
  ((List.range 51).map fun l => BitVec.ofNat 8 (regFld h (rLink l) 15 8)) ++ leBytes 5 0 ++
  ((List.range 12).map fun d => BitVec.ofNat 8 (maxStep h d)) ++ leBytes 4 0 ++
  leBytes 8 hbmEnd ++ leBytes 48 0

def queryWork (f : Fuses) (slot : Nat) (c : Cmd) (h : Hw) : Hw := reportWork slot c (queryReport f h) h

def execQuery (slot : SlotId) (s : State) : Host.Outcome State Fault Refusal :=
  onHw (withCmd slot.val 0xF0 (queryWork s.fuses slot.val)) s

/-! TELEMETRY (Table 19-7) -/

/-- Registers of an entry, as offsets in BAR0, and whether the entry is of the secure world. -/
structure Entry where
  secure : Bool
  regs : List Nat
  deriving DecidableEq, Repr

def tileEntry (h : Hw) (t : Nat) : Entry :=
  { secure := tileSecure h t,
    regs := rTileFreq t :: [4, 0x100, 0x110, 0x120, 0x130, 0x1010, 0x2008].map fun r => regOf (.tile t) r }

def stackEntry (h : Hw) (s : Nat) : Entry :=
  { secure := stackSecure h s,
    regs := [4, 0x10, 0x14, 0x18, 0x34, 0x38, 0x10004, 0x10010].map fun r => regOf (.stack s) r }

def portEntry (h : Hw) (q : Nat) : Entry :=
  { secure := portSecure h q, regs := [0, 0x20, 0x24, 0x28, 0x2C, 0x30, 0x34, 0x40].map fun r => regOf (.port q) r }

def boardEntry (h : Hw) (b : Nat) : Entry :=
  { secure := boardSecure h b,
    regs := [0x1000, 0x1004, 0x1008, 0x100C, 0x1010, 0x10, 0x14, 0x18].map fun r => regOf (.board b) r }

def powerEntry : Entry := { secure := false, regs := [8, 0xC, 0x10, 0x14, 0x18, 0x1C, 0, 0x20].map rPwr }

/-- The fourth word of a link's entry is 0: the RSVD offset of its block. -/
def linkEntry (l : Nat) : Entry := { secure := false, regs := [rLink l, rE2e l, rRetry l, rLink l + 12] }

def trainEntry (h : Hw) : Entry :=
  { secure := regBit h 0x170120 31,
    regs := [rTrainStatus, rStepLo, rStepLo + 4, rTrainScale, 0x170010, 0x170014, 0x170018, rEpoch] }

/-- The entries of a group, in ascending block number. -/
def groupEntries (h : Hw) (g : Nat) : List Entry :=
  if g = 0 then (List.range 192).map (tileEntry h)
  else if g = 1 then (List.range 24).map (stackEntry h)
  else if g = 2 then (List.range 12).map (portEntry h)
  else if g = 3 then (List.range 3).map (boardEntry h) ++ [powerEntry]
  else if g = 4 then (List.range 51).map linkEntry
  else [trainEntry h]

/-- A non-secure ring sees a secure entry as zeros (R464). -/
def entryBytes (f : Fuses) (h : Hw) (w : World) (e : Entry) : List Byte :=
  e.regs.flatMap fun r => leBytes 4 (if e.secure && w = .nonSecure then 0 else (blockRead f h .secure r).toNat)

/-- A section of the output. -/
def section_ (f : Fuses) (h : Hw) (w : World) (g : Nat) : List Byte :=
  let es := groupEntries h g
  leBytes 4 g ++ leBytes 4 es.length ++ leBytes 4 (if g = 4 then 16 else 32) ++ leBytes 4 0 ++
    es.flatMap (entryBytes f h w)

/-- The TELEMETRY output: one sample, taken at once, is one of those the manual allows (R466). -/
def telemetryReport (f : Fuses) (h : Hw) (c : Cmd) : List Byte :=
  let groups := parBits c.packet 0xC 5 0
  leBytes 4 1 ++ leBytes 4 (telemetryBytes groups) ++ leBytes 8 (stepNum h) ++
  leBytes 4 (getReg h rEpoch).toNat ++ leBytes 4 0 ++ leBytes 8 (Config.cycles h.draws).toNat ++ leBytes 32 0 ++
  (((List.range 6).filter fun g => groups.testBit g).flatMap (section_ f h c.world))

def telemetryWork (f : Fuses) (slot : Nat) (c : Cmd) (h : Hw) : Hw :=
  reportWork slot c (telemetryReport f h c) { h with draws := h.draws + 1 }

def execTelemetry (slot : SlotId) (s : State) : Host.Outcome State Fault Refusal :=
  onHw (withCmd slot.val 0xF1 (telemetryWork s.fuses slot.val)) s

/-! ATTEST (Table 16-3) -/

/-- The report's bytes before the signature. Erased keys are derived again from the fuse (R403). -/
def attestBody (f : Fuses) (h : Hw) (nonce : List Byte) : List Byte :=
  let keys := identityKeys h.sec.fwMeas
  let idPub := slice (Config.ed448Pub keys.1) 0 57
  let aliasPub := slice (Config.ed448Pub keys.2) 0 57
  let endorse := Config.ed448Sign keys.1 (shake256 ([0x09] ++ aliasPub) 64)
  leBytes 4 1 ++ leBytes 4 (attestBytes h) ++ leBytes 8 f.serial.toNat ++ slice nonce 0 32 ++
  slice h.sec.fwMeas 0 64 ++
  leBytes 4 Config.romId.toNat ++ leBytes 4 (regFld h (rSec 4) 31 16) ++ leBytes 4 (fuseState f h).toNat ++
  leBytes 4 (alarmLatch h).toNat ++
  ((List.range 16).flatMap fun i => leBytes 4 (getReg h (0x504020 + 4 * i)).toNat) ++
  leBytes 4 (getReg h rEpoch).toNat ++ leBytes 4 (pkgCode h.pkg) ++ leBytes 8 (stepNum h) ++
  idPub ++ leBytes 7 0 ++ aliasPub ++ leBytes 7 0 ++ slice endorse 0 114 ++ leBytes 6 0 ++
  leBytes 4 (brBytes h) ++ leBytes 4 0 ++ slice (buildRecord f) 0 (round8 (brBytes h))

def attestReport (f : Fuses) (h : Hw) (c : Cmd) : List Byte :=
  let body := attestBody f h (slice c.packet 0x50 32)
  let sig := Config.ed448Sign (identityKeys h.sec.fwMeas).2 (shake256 body 64)
  body ++ slice sig 0 114 ++ leBytes 6 0

def attestWork (f : Fuses) (slot : Nat) (c : Cmd) (h : Hw) : Hw := reportWork slot c (attestReport f h c) h

def execAttest (slot : SlotId) (s : State) : Host.Outcome State Fault Refusal :=
  onHw (withCmd slot.val 0xF2 (attestWork s.fuses slot.val)) s

/-! The management endpoint (R462) -/

/-- Bytes of a page from its dwords. -/
def mgmtPage (f : Fuses) (h : Hw) (base off n : Nat) : List Byte :=
  (List.range n).map fun i =>
    let a := off + i
    if 4096 ≤ a then 0 else BitVec.ofNat 8 ((blockRead f h .nonSecure (base + a / 4 * 4)).toNat / 2 ^ (8 * (a % 4)))

/-- What a READ returns. The endpoint belongs to no world of the package: DEDUCED (log 40), it sees what a non-secure
reader does. -/
def mgmtBytes (f : Fuses) (h : Hw) (sp : MgmtSpace) (off n : Nat) : List Byte :=
  match sp with
  | .identity => mgmtPage f h 0 off n
  | .status => mgmtPage f h 0x1000 off n
  | .conv => slice (leBytes 4 (getReg h (rPwr 0x20)).toNat) off n
  | .sticky => slice (h.errs.sticky.flatMap fun e => errBytes e true) off n

/-- A READ of 1 to 64 bytes in every state but OFF; one that reaches the end of the sticky log releases MGMT_ALERT_N. -/
def mgmtReadHw (f : Fuses) (sp : MgmtSpace) (off n : Nat) (h : Hw) : Hw :=
  if h.pkg = .off ∨ n = 0 ∨ 64 < n then h
  else
    let atEnd := sp = .sticky && decide (64 * h.errs.sticky.length ≤ off + n)
    { h with mgmtOut := h.mgmtOut ++ mgmtBytes f h sp off n,
             pins := { h.pins with mgmtAlertN := h.pins.mgmtAlertN && !atEnd } }

def execMgmtRead (space : MgmtSpace) (off : Nat) (len : Nat) (s : State) : Host.Outcome State Fault Refusal :=
  onHw (mgmtReadHw s.fuses space off len) s

end Sys2Proof.Machine
end

