-- ==== Sys2Proof/Machine/Fetch.lean ====
section
/-! DEFINITION. The life of a command between its ring and its record (R37-R48, R54-R57, R106, R243-R248, R363): fetch,
dispatch, pre-emption, resumption and the ends of stream tasks. -/

namespace Sys2Proof.Machine

/-! Fetch (R37-R41, R54) -/

/-- Fetch of a ring is not stopped: the package works, the ring is enabled and neither stops, nor is parked, nor
halted. HOLD and QUIET fetch nothing (R443). -/
def fetchOn (h : Hw) (n : Nat) : Bool :=
  working h && h.pkg ≠ .hold && h.pkg ≠ .quiet && ringEnabled h n && !ringStopping h n && !ringParked h n &&
  !ringHalted h n

/-- A doorbell has announced a packet at SQ_CONS or beyond it (R37). A slot that a refetch series takes may lie beyond
the doorbell (R39). -/
def announced (h : Hw) (n : Nat) : Bool :=
  let d := ((ringAux h n).sqProd - sqCons h n).toNat
  decide (0 < d) && decide (d ≤ sqSize h n)

/-- Fetch of a ring goes on. -/
def mayFetch (h : Hw) (n : Nat) : Bool := fetchOn h n && announced h n

/-- The in-flight slot of the next command of a ring: the lowest free one; the last 1,024 only for PRIO_MAX 3 (R54).
DESIGN CHOICE (log 41): the manual does not say which free slot. -/
def pickSlot (h : Hw) (n : Nat) : Option Nat :=
  (List.range (if prioMax h n = 3 then 16384 else 15360)).find? fun s => (cmdAt h s).isNone

/-- Where the packet of a ring's consumer index lies (R37). -/
def packetAt (h : Hw) (n : Nat) : Nat := sqBase h n + (sqCons h n).toNat % sqSize h n * 512

/-- Reads submission memory of a ring. -/
def readSlot (h : Hw) (n a len : Nat) : (Option (List Byte) × Nat) × Hw :=
  ringRead h (ringWorld h n) (bit (ringCfg h n) 30) a len

/-- The consumer index and the lap advance (R38, R41). -/
def advanceSq (h : Hw) (n : Nat) : Hw :=
  let next := sqCons h n + 1
  let a := ringAux h n
  let lap := if next.toNat % sqSize h n = 0 then (if a.lap = 255 then 1 else a.lap + 1) else a.lap
  setReg (setRingAux h n { a with lap := lap, refetches := 0, mismatch := false }) (rRing n 0xC) next

/-- The completion ring that a packet's records go to, fixed at its fetch: its own ring's where CQ_TARGET fails step 2
(R48). DESIGN CHOICE (log 62): the same for a packet that step 1 refuses, where step 2 is not reached. -/
def cqOf (h : Hw) (n : Nat) (head : List Byte) : Nat :=
  let t := hTarget head
  if ringEnabled h t && ringWorld h t = ringWorld h n then t else n

/-- A command just fetched. -/
def newCmd (h : Hw) (n : Nat) (p : List Byte) : Cmd :=
  { ring := Fin.ofNat 64 n, order := h.nextOrder, packet := p, world := ringWorld h n, phase := .waiting,
    refused := false, empty := false, silent := false, status := 0, detail0 := 0, detail1 := 0, errRef := 0,
    step := 0, tiles := [], doneUnits := 0, written := 0, prePending := false, suspensions := 0, firstCause := 0,
    fault := none, member := 0, priv := [], wroteHost := false, peers := [], fenced := false, usedStacks := [],
    pins := [], flags := 0, tally := 0, key := [], inStep := false, shares := [], outs := [], undef := [],
    target := cqOf h n p, part := 0, serving := none, outRanges := [], buffer := [], segs := none, lost := [],
    leaves := [], heldAt := none, knows := [], computed := false, team := [] }

/-- A packet refused under R48 or R243 ends at its fetch. -/
def refuse (c : Cmd) (st d0 : Nat) (silent : Bool) : Cmd :=
  { c with phase := .finished, refused := true, silent := silent, status := BitVec.ofNat 8 st,
           detail0 := BitVec.ofNat 64 d0 }

/-- What R48 makes of a packet. -/
def verdictOf (h : Hw) (n : Nat) (p : List Byte) : Verdict :=
  match specOf (hOpcode p) with
  | none => .refuse 0x10 0 false
  | some sp => checkPacket h n sp p

def applyVerdict (c : Cmd) : Verdict → Cmd
  | .pass => c
  | .empty => { c with empty := true }
  | .refuse st d0 silent => refuse c st d0 silent

/-- Opcodes that a member of a task may have (R243). -/
def memberOpcode (op : Nat) : Bool :=
  [0x10, 0x11, 0x12, 0x13, 0x16, 0x40, 0x41, 0x44, 0x60, 0x62, 0x63].contains op || [2, 3, 5].contains (op / 16)

/-- A rule of R243 is broken: BAD_PARAM in the structure form, cause 4, with the member's number, and in DETAIL1 the
address of the item (R249): DEDUCED (log 69), that of its packet in submission memory. -/
def taskRefuse (c : Cmd) (index at_ : Nat) : Cmd :=
  if c.refused then c
  else { refuse c 0x11 (2 ^ 63 + 4 * 2 ^ 48 + index) false with detail1 := BitVec.ofNat 64 at_ }

/-- The live task that takes a packet as its next member. -/
def taskFor (h : Hw) (n task : Nat) : Option Stream :=
  h.streams.find? fun t => t.task = task && t.ring.val = n && decide (t.fetched.length < t.members)

/-- A member's place; one that comes to a task which has been aborted ends as the task does (R246, R248). -/
def joinTask (h : Hw) (slot at_ : Nat) (c : Cmd) (t : Stream) : Hw :=
  let m := t.fetched.length + 1
  let c := { c with member := m }
  let c := if memberOpcode c.opcode then c else taskRefuse c m at_
  let c := match t.abort with
    | some (st, d0, d1, _) => if c.refused then c else
        { c with phase := .finished, status := BitVec.ofNat 8 st, detail0 := BitVec.ofNat 64 d0, detail1 := BitVec.ofNat 64 d1 }
    | none => c
  modStream (setCmd h slot c) t.task fun t => { t with fetched := t.fetched ++ [slot] }

/-- A PREFETCH_STREAM opens its task (R243). -/
def openTask (h : Hw) (slot : Nat) (c : Cmd) : Hw :=
  let task := hTask c.packet
  let h := setCmd h slot c
  if c.refused then h
  else
    let t : Stream :=
      { task := task, ring := c.ring, slot := slot, members := stMembers c.packet, fetched := [], checked := false,
        entries := [], replays := 0, fault := none, abort := none, ended := false }
    { h with streams := h.streams ++ [t] }

/-- Puts a packet fetched from an address into its slot, with the rules of stream tasks (R243). -/
def enterCmd (h : Hw) (slot n at_ : Nat) (c : Cmd) : Hw :=
  let task := hTask c.packet
  if c.opcode = 0x14 then
    openTask h slot (if task = 0 ∨ h.streams.any (fun t => t.task = task) then taskRefuse c 0 at_ else c)
  else if task = 0 then setCmd h slot c
  else match taskFor h n task with
    | some t => joinTask h slot at_ c t
    | none => setCmd h slot (taskRefuse c (((h.streams.find? fun t => t.task = task && t.ring.val = n).map
        fun t => t.members + 1).getD 0) at_)

/-- A fetched packet with the expected lap is accepted: whole, checked, in a slot of its own. Fetch waits for a slot,
for a task while 256 are live, and while the completion ring it names is full (R51, R54, R243). -/
def acceptPacket (h : Hw) (n : Nat) (head : List Byte) : Hw :=
  match pickSlot h n with
  | none => h
  | some slot =>
    let opens := hOpcode head = 0x14 && hTask head ≠ 0
    if (opens ∧ 256 ≤ h.streams.length) ∨ cqClosed h (cqOf h n head) then h
    else match readSlot h n (packetAt h n) (64 * (1 + hLen head)) with
      | ((some p, _), h) =>
        let at_ := packetAt h n
        let h := advanceSq h n
        let c := applyVerdict (newCmd h n p) (verdictOf h n p)
        enterCmd { h with nextOrder := h.nextOrder + 1 } slot n at_ c
      | ((none, code), h') => if code = 0 then h else haltRing h' n code

/-- Fetch of a ring would do something now: it takes its next packet, starts a refetch series or stops. It waits for a
slot, for a task, or for room in the completion ring that the packet names. -/
def fetchable (h : Hw) (n : Nat) : Bool :=
  mayFetch h n && !(ringAux h n).mismatch &&
  match (readSlot h n (packetAt h n) 64).1 with
  | (some head, _) =>
    hLap head ≠ (ringAux h n).lap ||
    ((pickSlot h n).isSome && !(hOpcode head = 0x14 && hTask head ≠ 0 && decide (256 ≤ h.streams.length)) &&
      !cqClosed h (cqOf h n head))
  | (none, code) => code ≠ 0

/-- How far a ring stands from its turn in the round of its PRIO_MAX: the ring after the one fetched last comes
first (R55). -/
def fetchRound (h : Hw) (n : Nat) : Nat := (n + 63 - smGet 63 h.fetchTurn (prioMax h n)) % 64

/-- Fetch takes rings in descending PRIO_MAX and round-robin within equal PRIO_MAX (R55): another ring is before n. -/
def fetchBefore (h : Hw) (n m : Nat) : Bool :=
  fetchable h m && (decide (prioMax h n < prioMax h m) ||
    (prioMax h n = prioMax h m && decide (fetchRound h m < fetchRound h n)))

/-- It is the turn of ring n. -/
def fetchTurnOf (h : Hw) (n : Nat) : Bool :=
  !((List.range 64).any fun m => m ≠ n && fetchBefore h n m)

/-- PACKET_FETCH of a ring whose turn it is: a lap that differs starts the refetch series (R39). -/
def packetFetchHw (n : Nat) (h0 : Hw) : Hw :=
  let h := { h0 with fetchTurn := smPut h0.fetchTurn (prioMax h0 n) n }
  if !fetchable h0 n ∨ !fetchTurnOf h0 n then h0
  else match readSlot h n (packetAt h n) 64 with
    | ((some head, _), h1) =>
      let a := ringAux h1 n
      if hLap head = a.lap then acceptPacket h1 n head
      else setRingAux h1 n { a with mismatch := true, refetches := 0 }
    | ((none, code), h1) => if code = 0 then h else haltRing h1 n code

def execPacketFetch (n : RingId) (s : State) : Host.Outcome State Fault Refusal := onHw (packetFetchHw n.val) s

/-- A series of 8 refetches without the expected lap parks the ring (R39). -/
def staleSlot (h : Hw) (n : Nat) : Hw :=
  let h := setRingAux h n { ringAux h n with mismatch := false, refetches := 0, stale := true }
  let h := setRegBit (setRegBit h (rRingStatus n) 6 true) (rRingStatus n) 4 true
  ringIrq (setRegFld h (rRingStatus n) 31 24 0x70)

/-- LAP_REFETCH. -/
def lapRefetchHw (n : Nat) (h : Hw) : Hw :=
  if !fetchOn h n ∨ !(ringAux h n).mismatch then h
  else match readSlot h n (packetAt h n) 64 with
    | ((some head, _), h1) =>
      let a := ringAux h1 n
      if hLap head = a.lap then acceptPacket (setRingAux h1 n { a with mismatch := false, refetches := 0 }) n head
      else if 8 ≤ a.refetches + 1 then staleSlot h1 n
      else setRingAux h1 n { a with refetches := a.refetches + 1 }
    | ((none, code), h1) => if code = 0 then h else haltRing h1 n code

def execLapRefetch (n : RingId) (s : State) : Host.Outcome State Fault Refusal := onHw (lapRefetchHw n.val) s

/-! Dispatch (R42-R45, R47) -/

/-- Commands of the same ring fetched before a command. -/
def earlier (h : Hw) (c : Cmd) : List (Nat × Cmd) :=
  h.slots.filter fun e => e.2.ring = c.ring && decide (e.2.order < c.order)

/-- Ring order: every earlier command has been dispatched, and no WAIT_EVENT or FENCE among them is still without its
record. A refused command holds nothing back (R48). -/
def ringOrderMet (h : Hw) (c : Cmd) : Bool :=
  (earlier h c).all fun e => e.2.refused || (e.2.phase ≠ .waiting && e.2.opcode ≠ 1 && e.2.opcode ≠ 2)

/-- FENCE_BEFORE, which FENCE implies: every earlier command has written its record; within a task its finish
suffices (R45, R47, R244). -/
def fenceMet (h : Hw) (slot : Nat) (c : Cmd) : Bool :=
  if hFenceBefore c.packet ∨ c.opcode = 1 then
    let mates := match taskOf h slot with
      | none => []
      | some t => t.slot :: t.fetched
    (earlier h c).all fun e => mates.contains e.1 && e.2.phase = .finished
  else true

/-- Both header waits are met (R43). -/
def waitsMet (h : Hw) (p : List Byte) : Bool :=
  (List.range 2).all fun i => !hWait p i || ctrMet h (hWaitCtr p i) (hWaitVal p i)

/-- The counter in error of a wait that DETAIL0 names (R44). DESIGN CHOICE (log 89): with both waits enabled and both
counters in error, WAIT0's; the manual names neither. -/
def waitInError (h : Hw) (p : List Byte) : Option Nat :=
  ((List.range 2).find? fun i => hWait p i && ctrErr h (hWaitCtr p i)).map (hWaitCtr p)

/-- Limits of a class at dispatch: collectives (R311, R317), NOTATE, the closing of a step (R270). -/
def classMet (h : Hw) (c : Cmd) : Bool :=
  let colls := c.cls ≠ 7 || (decide (h.colls.length < 64) &&
    decide ((h.colls.filter fun x => x.map = mapActive h && x.group = clGroup c.packet).length < 16) &&
    !(h.slots.any fun e => e.2.opcode = 4 && (e.2.phase = .running || e.2.phase = .suspended)))
  let note := c.opcode ≠ 0x90 || !(h.slots.any fun e => e.2.opcode = 0x90 && e.2.phase ≠ .waiting)
  let step := !stepClosing h || c.cls = 0 || 8 < c.cls
  colls && note && step

/-- A member of a task waits for the check of the schedule, and while a fault of its task is served (R246, R248). -/
def taskMet (h : Hw) (slot : Nat) : Bool :=
  match taskOf h slot with
  | none => true
  | some t => t.fault.isNone && (t.slot = slot || t.checked)

/-- A command may be dispatched now. -/
def mayDispatch (h : Hw) (slot : Nat) (c : Cmd) : Bool :=
  working h && c.phase = .waiting && ringOrderMet h c && fenceMet h slot c && waitsMet h c.packet && taskMet h slot &&
  classMet h c

/-- At a dispatch all that its ring dispatches from then on comes after the commands that a FENCE_BEFORE or FENCE waited
for, and after those that the counters of its waits speak for (R46). -/
def learn (h : Hw) (c : Cmd) : Hw :=
  let fence := if hFenceBefore c.packet ∨ c.opcode = 1 then endedOf h c.ring.val else []
  learnRing h c.ring.val (fence ++ (List.range 2).flatMap fun i =>
    if hWait c.packet i then ctrKnows h (hWaitCtr c.packet i) else [])

/-- What a dispatch fixes of a command: the commands that come before it (R46); its step and step key, and whether a
step is open. A replayed command keeps those of its first dispatch (R106, R248). -/
def stampStep (h : Hw) (c : Cmd) : Cmd :=
  let c := { c with knows := ringKnows h c.ring.val }
  if c.key = [] then
    { c with step := BitVec.ofNat 64 (stepNum h), key := h.train.stepKey, inStep := stepOpen h } else c

/-- A dispatched command that runs: its tiles, and what its opcode does at dispatch. -/
def startCmd (h : Hw) (slot : Nat) (c : Cmd) : Hw :=
  let h := setCmd h slot { c with phase := .running }
  let h := if c.opcode = 0x82 then startClosing slot c h else h
  let h := if c.opcode = 0x61 then { h with train := { h.train with updateSeen := true } } else h
  let h := if c.cls = 7 then openColl h slot c else h
  let h := if c.opcode = 0x90 then modCmd h slot fun c => { c with priv := 0 :: noteWords h } else h
  if holdsTiles c.opcode then takeTiles h slot c.mask else h

/-- DISPATCH. A wait whose counter is in error aborts the command (R44); a zero work count ends it (R49), and lets the
members of its task run (R246). The world of the active map is that of the dispatch (R308). -/
def dispatchHw (slot : Nat) (h : Hw) : Hw :=
  match cmdAt h slot with
  | none => h
  | some c =>
    if !mayDispatch h slot c then h
    else
      let h := learn h c
      let c := stampStep h c
      let h := setCmd h slot c
      match waitInError h c.packet with
      | some k => finish h slot 3 (2 + k * 2 ^ 16) 0
      | none =>
        if c.empty then
          let h := finish h slot 1 0 0
          match taskOf h slot with
          | some t => if t.slot = slot then modStream h t.task fun t => { t with checked := true } else h
          | none => h
        else if (maskOff c.opcode).isSome ∧ c.mask.all (tileOut h) then noTile h slot c.mask
        else if c.cls = 7 ∧ c.world = .nonSecure ∧ mapSecure h (mapActive h) then finish h slot 0x13 0 0
        else startCmd h slot c

def execDispatch (slot : SlotId) (s : State) : Host.Outcome State Fault Refusal := onHw (dispatchHw slot.val) s

/-! Pre-emption and resumption (R55-R57, R363) -/

/-- A command is ready for a resource: dispatched, or suspended with no fault outstanding. -/
def isReady (c : Cmd) : Bool := c.fault.isNone && (c.phase = .running || c.phase = .suspended)

/-- A command finds every tag of a tile's DMA engine held by movement of lower classes (R228). -/
def tagsTaken (h : Hw) (b : Cmd) (t : Nat) : Bool :=
  tagsBusy h t = 512 && h.ports.all fun p => p.2.requests.all fun r => r.tile ≠ t ||
    (cmdAt h r.slot).all fun c => c.cls = 1 && decide (hPrio c.packet < hPrio b.packet)

/-- A command needs what another holds: a tile or a DMA engine of both masks, or pawns (R56). -/
def needs (h : Hw) (bSlot : Nat) (b : Cmd) (slot : Nat) (c : Cmd) : Bool :=
  if c.cls = 6 then
    h.tokenWaits.any fun w => w.1 = bSlot && h.tokens.any fun t => t.2.1 = slot && t.1 / 512 = w.2 / 512 &&
      (t.1 = w.2 || decide (limitEff h (w.2 / 512) ≤ holdersOf h (w.2 / 512)))
  else if c.cls = 1 then (b.cls = 1 || holdsTiles b.opcode) && c.mask.any fun t => b.mask.contains t && tagsTaken h b t
  else holdsTiles b.opcode && c.tiles.any (fun t => b.mask.contains t && !b.tiles.contains t)

/-- A command stops at a pre-emption point: it is running, of a class that has them, holds no range, and its task
serves no fault. -/
def stoppable (h : Hw) (slot : Nat) (c : Cmd) : Bool :=
  c.phase = .running && c.fault.isNone && preemptible c.opcode && !holds h slot &&
  !((taskOf h slot).any fun t => t.fault.isSome)

/-- Units up to the pre-emption point reached: KV_PAGE stops at every 256 entries, under COW also at every page copied
(R161, Table 2-10). -/
def toPoint (c : Cmd) (units : Nat) : Nat :=
  if c.opcode = 0x43 ∧ kpOp c.packet ≠ 2 then ceilDiv (c.doneUnits + units) 256 * 256 - c.doneUnits else units

/-- A command stands at a pre-emption point. -/
def atPoint (c : Cmd) : Bool := !(c.opcode = 0x43 && kpOp c.packet = 2) || c.doneUnits % 256 = 0 || c.priv = [1]

/-- Runs on, at most some units, to the next pre-emption point. -/
def runOnToPoint (slot : Nat) (w : Work) : Nat → Hw → Option Fail × Hw
  | 0, h => (none, h)
  | f + 1, h =>
    if (cmdAt h slot).all atPoint then (none, h)
    else match runUnits slot w 1 h with
      | (none, h) => runOnToPoint slot w f h
      | r => r

/-- The command stops: its SUSPENDED record, and what it holds released (R56, R57). -/
def suspendCmd (h : Hw) (slot : Nat) : Hw :=
  match cmdAt h slot with
  | none => h
  | some c =>
    let c := { c with prePending := true, firstCause := 0, phase := .suspended }
    let h := suspendIn h slot c
    grantAll { h with tokens := h.tokens.filter (fun e => e.2.1 ≠ slot),
                      tokenWaits := h.tokenWaits.filter (fun e => e.1 ≠ slot) }

/-- The higher command takes the tiles it needs. -/
def handOver (h : Hw) (by_ : Nat) : Hw :=
  match cmdAt h by_ with
  | none => h
  | some b => if b.phase = .running ∧ holdsTiles b.opcode then takeTiles h by_ b.mask else h

/-- A command saves its progress (R86), then stops; a fault met there is taken with the pre-emption pending. -/
def saveAndSuspend (slot : Nat) (w : Work) (h : Hw) : Hw :=
  match cmdAt h slot with
  | none => h
  | some c =>
    match runOn (w.save c) h with
    | (.ok (), h) => suspendCmd h slot
    | (.error .wait, _) => suspendCmd h slot
    | (.error f, h') => takeFail h (modCmd h' slot fun c => { c with prePending := true }) slot f

/-- A command runs some further units, then stops at its point: a fault there is taken with the pre-emption pending
(R363); a command with no unit left ends instead. -/
def runToPoint (before : Hw) (slot units : Nat) (c : Cmd) : Hw :=
  match runOn (workOf slot c) before with
  | (.ok none, _) => suspendCmd before slot
  | (.ok (some w), h) =>
    (match (match if toPoint c units = 0 then (none, h) else runSome slot w (toPoint c units) c (beginTiles slot c h) with
       | (none, h) => runOnToPoint slot w 256 h
       | r => r) with
     | (some .wait, h) => saveAndSuspend slot w h
     | (some f, h) => unitFailed slot w (modCmd h slot fun c => { c with prePending := true }) f
     | (none, h) =>
       if ((cmdAt h slot).map Cmd.doneUnits).getD 0 < w.units then saveAndSuspend slot w h
       else runWork slot w ((cmdAt h slot).getD c) h)
  | (.error _, _) => suspendCmd before slot

/-- PREEMPTION of a command by a higher one that needs what it holds. -/
def preemptionHw (slot units by_ : Nat) (h : Hw) : Hw :=
  match cmdAt h slot, cmdAt h by_ with
  | some c, some b =>
    if working h ∧ slot ≠ by_ ∧ hPrio c.packet < hPrio b.packet ∧ isReady b ∧ needs h by_ b slot c ∧ stoppable h slot c then
      handOver (runToPoint h slot units c) by_
    else h
  | _, _ => h

def execPreemption (slot : SlotId) (units : Nat) (by_ : SlotId) (s : State) : Host.Outcome State Fault Refusal :=
  onHw (preemptionHw slot.val units by_.val) s

/-- A command that goes before a suspended one still waits for pawns (R55). -/
def outranked (h : Hw) (slot : Nat) (c : Cmd) : Bool :=
  c.cls = 6 && h.slots.any fun e => e.1 ≠ slot && ranksAbove e.2 c && h.tokenWaits.any fun w => w.1 = e.1

/-- RESUME: both causes are cleared and what the command needs is free again. One whose tiles have all left service
ends (R90). -/
def resumeHw (slot : Nat) (h : Hw) : Hw :=
  match cmdAt h slot with
  | none => h
  | some c =>
    let free := if c.cls = 1 then c.mask.any (engineFor h slot c)
      else !holdsTiles c.opcode || c.mask.any (tileFor h slot c)
    let struck := (taskOf h slot).any fun t => t.fault.isSome
    if working h ∧ c.phase = .suspended ∧ c.fault.isNone ∧ !struck ∧ (maskOff c.opcode).isSome ∧ c.mask.all (tileOut h) then
      noTile h slot c.mask
    else if working h ∧ c.phase = .suspended ∧ c.fault.isNone ∧ !struck ∧ free ∧ !outranked h slot c then
      let h := if holdsTiles c.opcode then takeTiles h slot c.mask else h
      modCmd h slot fun c => { c with phase := .running, prePending := false }
    else h

def execResume (slot : SlotId) (s : State) : Host.Outcome State Fault Refusal := onHw (resumeHw slot.val) s

/-! Ends of stream tasks (R244, R248) -/

def slotFinished (h : Hw) (slot : Nat) : Bool := slot = noSlot || ((cmdAt h slot).all fun c => c.phase = .finished)

/-- Every member has been fetched; a ring that has stopped fetching brings an aborted task no more. -/
def allFetched (h : Hw) (t : Stream) : Bool :=
  t.fetched.length = t.members || (t.abort.isSome && (!ringEnabled h t.ring.val || ringStopping h t.ring.val))

/-- A task ends: no fault waits, and its commands have all finished. -/
def taskOver (h : Hw) (t : Stream) : Bool :=
  t.fault.isNone && allFetched h t && slotFinished h t.slot && t.fetched.all (slotFinished h)

/-- STREAM_TASK_END: the records of a task become ready, the opening command's first, then the members', in order; each
enters its ring as room there allows. -/
def taskEndHw (task : Nat) (h : Hw) : Hw :=
  if !(working h || h.sec.halted) then h
  else match h.streams.find? fun t => t.task = task with
    | none => h
    | some t =>
      if !taskOver h t then h
      else
        let h := modStream h task fun t => { t with ended := true }
        writeDue (((t.slot :: t.fetched).filter (· ≠ noSlot)).foldl finalReady h)

def execStreamTaskEnd (task : BitVec 16) (s : State) : Host.Outcome State Fault Refusal := onHw (taskEndHw task.toNat) s

/-- REPLAY_MAX of a ring. -/
def replayMax (h : Hw) (n : Nat) : Nat := regFld h (0x160000 + 4 * n) 1 0

/-- A command of a replayed task starts again from its first unit, under the step of its first dispatch. What it has
written is undefined until the replay writes it again, so that a member that is not idempotent gives undefined results
(R245). -/
def rewind (h : Hw) (slot : Nat) : Hw :=
  match cmdAt h slot with
  | none => h
  | some c =>
    if c.refused then h
    else
      let h := finish (if c.doneUnits = 0 ∧ c.part = 0 then h else spoilOutputs h slot) slot 0 0 0
      let h := serveWindow { h with holds := h.holds.filter fun r => r.slot ≠ slot }
      setCmd h slot { c with
        phase := .waiting, status := 0, detail0 := 0, detail1 := 0, errRef := 0, tiles := [], doneUnits := 0,
        written := 0, prePending := false, firstCause := 0, fault := none, priv := [], pins := [], flags := 0,
        tally := 0, shares := [], outs := [], undef := [], part := 0, serving := none, outRanges := [], buffer := [],
        segs := none, lost := [], leaves := [], heldAt := none, computed := false, team := [] }

/-- The task's commands all end as STREAM_ABORT (R248), DETAIL1 the address, port or stack that the original status
has in its DETAIL0; what was refused keeps its own status. -/
def abortTask (h : Hw) (t : Stream) (f : StreamFault) (ref : Word) : Hw :=
  let d0 := f.status + t.replays * 256
  let h := (t.slot :: t.fetched).foldl (fun h m => match cmdAt h m with
    | none => h
    | some c => if c.refused then h else
        modCmd (finish h m 0x21 d0 f.detail0) m fun c => { c with errRef := ref }) h
  let h := bumpSat h 0x160108 1
  modStream h t.task fun t => { t with fault := none, checked := true, abort := some (0x21, d0, f.detail0, ref.toNat) }

/-- The copies of a task are dropped from every tile (R248). -/
def dropTaskCopies (h : Hw) (task : Nat) : Hw :=
  let kept := h.tilesAux.map fun e => (e.1, { e.2 with copies := e.2.copies.filter fun x => x.task ≠ task })
  { h with tilesAux := kept.filter fun e => e.2 ≠ TileAux.reset }

/-- STREAM_TASK_FAULT: an error record, then a replay or the abort of the whole task. Before a
replay its cause is cleared. -/
def taskFaultHw (task slot : Nat) (h : Hw) : Hw :=
  match h.streams.find? fun t => t.task = task with
  | none => h
  | some t =>
    match t.fault with
    | none => h
    | some f =>
      let again := f.replayable && decide (t.replays < replayMax h t.ring.val)
      if f.slot ≠ slot ∨ !working h ∨ (again && (cmdAt h slot).any fun c => c.fault.isSome) then h
      else
        let c := cmdAt h slot
        let e : ErrEvent :=
          { source := 0xD, kind := if again then 1 else 2, code := f.status,
            secure := c.any fun c => worldBit c.world, severity := 2, unit := task,
            cmd := c.bind (cmdField slot), addr := if f.status = 0x20 ∨ f.status = 0x30 then f.detail0 else 0,
            detail0 := BitVec.ofNat 64 (f.status + t.replays * 256), detail1 := BitVec.ofNat 64 f.detail0 }
        let r := errRecord h e
        if again then
          let h := (t.slot :: t.fetched).foldl rewind (bumpSat (dropTaskCopies r.2 t.task) 0x160104 1)
          modStream h task fun t => { t with replays := t.replays + 1, fault := none, checked := false, entries := [] }
        else abortTask r.2 t f r.1

def execStreamTaskFault (task : BitVec 16) (slot : SlotId) (s : State) : Host.Outcome State Fault Refusal :=
  onHw (taskFaultHw task.toNat slot.val) s

end Sys2Proof.Machine
end

