-- ==== Sys2Proof/Machine/Dispatch.lean ====
section
/-! DEFINITION. The one dispatch from a command to its meaning. -/

namespace Sys2Proof.Machine

open Sys2Proof

def exec (i : Instr) (s : State) : Host.Outcome State Fault Refusal :=
  match i with
  | .nop slot => Sys2Proof.Machine.execNop slot s
  | .fence slot => Sys2Proof.Machine.execFence slot s
  | .waitEvent slot => Sys2Proof.Machine.execWaitEvent slot s
  | .waitEventTimeout slot => Sys2Proof.Machine.execWaitEventTimeout slot s
  | .signal slot => Sys2Proof.Machine.execSignal slot s
  | .mapSelect slot => Sys2Proof.Machine.execMapSelect slot s
  | .commitEpoch slot => Sys2Proof.Machine.execCommitEpoch slot s
  | .copy slot => Sys2Proof.Machine.execCopy slot s
  | .fill slot => Sys2Proof.Machine.execFill slot s
  | .gather slot => Sys2Proof.Machine.execGather slot s
  | .scatter slot => Sys2Proof.Machine.execScatter slot s
  | .prefetchStream slot => Sys2Proof.Machine.execPrefetchStream slot s
  | .spill slot => Sys2Proof.Machine.execSpill slot s
  | .promote slot => Sys2Proof.Machine.execPromote slot s
  | .gemm slot => Sys2Proof.Machine.execGemm slot s
  | .gemmAcc slot => Sys2Proof.Machine.execGemmAcc slot s
  | .dist slot => Sys2Proof.Machine.execDist slot s
  | .cmpSelect slot => Sys2Proof.Machine.execCmpSelect slot s
  | .vop slot => Sys2Proof.Machine.execVop slot s
  | .scan slot => Sys2Proof.Machine.execScan slot s
  | .segscan slot => Sys2Proof.Machine.execSegscan slot s
  | .reduce slot => Sys2Proof.Machine.execReduce slot s
  | .norm slot => Sys2Proof.Machine.execNorm slot s
  | .softmax slot => Sys2Proof.Machine.execSoftmax slot s
  | .rope slot => Sys2Proof.Machine.execRope slot s
  | .rngFill slot => Sys2Proof.Machine.execRngFill slot s
  | .amax slot => Sys2Proof.Machine.execAmax slot s
  | .attnFwd slot => Sys2Proof.Machine.execAttnFwd slot s
  | .attnBwd slot => Sys2Proof.Machine.execAttnBwd slot s
  | .kvAppend slot => Sys2Proof.Machine.execKvAppend slot s
  | .kvPage slot => Sys2Proof.Machine.execKvPage slot s
  | .bucketSort slot => Sys2Proof.Machine.execBucketSort slot s
  | .cmpPack slot => Sys2Proof.Machine.execCmpPack slot s
  | .cmpUnpack slot => Sys2Proof.Machine.execCmpUnpack slot s
  | .pawnOp slot => Sys2Proof.Machine.execPawnOp slot s
  | .digest slot => Sys2Proof.Machine.execDigest slot s
  | .pawnGemv slot => Sys2Proof.Machine.execPawnGemv slot s
  | .update slot => Sys2Proof.Machine.execUpdate slot s
  | .reduceScatter slot => Sys2Proof.Machine.execReduceScatter slot s
  | .allGather slot => Sys2Proof.Machine.execAllGather slot s
  | .allToAll slot => Sys2Proof.Machine.execAllToAll slot s
  | .broadcast slot => Sys2Proof.Machine.execBroadcast slot s
  | .send slot => Sys2Proof.Machine.execSend slot s
  | .recv slot => Sys2Proof.Machine.execRecv slot s
  | .barrier slot => Sys2Proof.Machine.execBarrier slot s
  | .lossScaleCheck slot => Sys2Proof.Machine.execLossScaleCheck slot s
  | .stepBegin slot => Sys2Proof.Machine.execStepBegin slot s
  | .stepEnd slot roots => Sys2Proof.Machine.execStepEnd slot roots s
  | .notate slot accepted acked => Sys2Proof.Machine.execNotate slot accepted acked s
  | .restore slot answers => Sys2Proof.Machine.execRestore slot answers s
  | .verify slot digests => Sys2Proof.Machine.execVerify slot digests s
  | .map slot => Sys2Proof.Machine.execMap slot s
  | .unmap slot => Sys2Proof.Machine.execUnmap slot s
  | .inval slot => Sys2Proof.Machine.execInval slot s
  | .query slot => Sys2Proof.Machine.execQuery slot s
  | .telemetry slot => Sys2Proof.Machine.execTelemetry slot s
  | .attest slot => Sys2Proof.Machine.execAttest slot s
  | .sqDoorbell w n v => Sys2Proof.Machine.execSqDoorbell w n v s
  | .cqDoorbell w n v => Sys2Proof.Machine.execCqDoorbell w n v s
  | .ringCommit w n => Sys2Proof.Machine.execRingCommit w n s
  | .ringEnable w n => Sys2Proof.Machine.execRingEnable w n s
  | .ringStop w n => Sys2Proof.Machine.execRingStop w n s
  | .ringAbort w n => Sys2Proof.Machine.execRingAbort w n s
  | .ringDisabled n => Sys2Proof.Machine.execRingDisabled n s
  | .errorHaltClear w n => Sys2Proof.Machine.execErrorHaltClear w n s
  | .packetFetch n => Sys2Proof.Machine.execPacketFetch n s
  | .lapRefetch n => Sys2Proof.Machine.execLapRefetch n s
  | .dispatch slot => Sys2Proof.Machine.execDispatch slot s
  | .finalRecord slot => Sys2Proof.Machine.execFinalRecord slot s
  | .preemption slot units by_ => Sys2Proof.Machine.execPreemption slot units by_ s
  | .resume slot => Sys2Proof.Machine.execResume slot s
  | .translationFault slot va write => Sys2Proof.Machine.execTranslationFault slot va write s
  | .zeroResolution slot => Sys2Proof.Machine.execZeroResolution slot s
  | .xlateResolve w r id => Sys2Proof.Machine.execXlateResolve w r id s
  | .streamTaskEnd task => Sys2Proof.Machine.execStreamTaskEnd task s
  | .streamTaskFault task slot => Sys2Proof.Machine.execStreamTaskFault task slot s
  | .tileReset w t => Sys2Proof.Machine.execTileReset w t s
  | .tileResetComplete t => Sys2Proof.Machine.execTileResetComplete t s
  | .tileClrCounters w t => Sys2Proof.Machine.execTileClrCounters w t s
  | .veClrCounters w t => Sys2Proof.Machine.execVeClrCounters w t s
  | .dmaClrCounters w t => Sys2Proof.Machine.execDmaClrCounters w t s
  | .tcClrCounters w t => Sys2Proof.Machine.execTcClrCounters w t s
  | .stackClrCounters w k => Sys2Proof.Machine.execStackClrCounters w k s
  | .pawnClrCounters w k => Sys2Proof.Machine.execPawnClrCounters w k s
  | .noteClrCounters w => Sys2Proof.Machine.execNoteClrCounters w s
  | .hostClrCounters w => Sys2Proof.Machine.execHostClrCounters w s
  | .zlClrCounters w => Sys2Proof.Machine.execZlClrCounters w s
  | .scrubNow w k => Sys2Proof.Machine.execScrubNow w k s
  | .eccInject w k v => Sys2Proof.Machine.execEccInject w k v s
  | .memmapCommit w b => Sys2Proof.Machine.execMemmapCommit w b s
  | .invalidateAll w b => Sys2Proof.Machine.execInvalidateAll w b s
  | .lendCommit w => Sys2Proof.Machine.execLendCommit w s
  | .trainCommit w => Sys2Proof.Machine.execTrainCommit w s
  | .mapCommit w m => Sys2Proof.Machine.execMapCommit w m s
  | .fabricCommit w => Sys2Proof.Machine.execFabricCommit w s
  | .disarm w => Sys2Proof.Machine.execDisarm w s
  | .digestRecompute => Sys2Proof.Machine.execDigestRecompute s
  | .retrain w q => Sys2Proof.Machine.execRetrain w q s
  | .noteCommit w => Sys2Proof.Machine.execNoteCommit w s
  | .invalidateSlots w => Sys2Proof.Machine.execInvalidateSlots w s
  | .xlateCommit w r => Sys2Proof.Machine.execXlateCommit w r s
  | .windowCommit w => Sys2Proof.Machine.execWindowCommit w s
  | .peerCommit w => Sys2Proof.Machine.execPeerCommit w s
  | .agentFlush w => Sys2Proof.Machine.execAgentFlush w s
  | .worldCommit w => Sys2Proof.Machine.execWorldCommit w s
  | .regionCommit w => Sys2Proof.Machine.execRegionCommit w s
  | .keyInstall w v => Sys2Proof.Machine.execKeyInstall w v s
  | .eraseSlot w v => Sys2Proof.Machine.execEraseSlot w v s
  | .svnAdvance w => Sys2Proof.Machine.execSvnAdvance w s
  | .alarmClear w v => Sys2Proof.Machine.execAlarmClear w v s
  | .policyLock w => Sys2Proof.Machine.execPolicyLock w s
  | .arbCommit w => Sys2Proof.Machine.execArbCommit w s
  | .calCommit w => Sys2Proof.Machine.execCalCommit w s
  | .calSave w => Sys2Proof.Machine.execCalSave w s
  | .powerStateRequest w v => Sys2Proof.Machine.execPowerStateRequest w v s
  | .powerStateEntry => Sys2Proof.Machine.execPowerStateEntry s
  | .errCommit w => Sys2Proof.Machine.execErrCommit w s
  | .testOpen w => Sys2Proof.Machine.execTestOpen w s
  | .registerWrite w off bytes v => Sys2Proof.Machine.execRegisterWrite w off bytes v s
  | .softReset c => Sys2Proof.Machine.execSoftReset c s
  | .warmReset c obs => Sys2Proof.Machine.execWarmReset c obs s
  | .functionLevelReset => Sys2Proof.Machine.execFunctionLevelReset s
  | .vauxUp => Sys2Proof.Machine.execVauxUp s
  | .pwrGoodAux => Sys2Proof.Machine.execPwrGoodAux s
  | .vinEarly => Sys2Proof.Machine.execVinEarly s
  | .firstStageStart vinMv obs => Sys2Proof.Machine.execFirstStageStart vinMv obs s
  | .cxlLinkTraining mode width speed => Sys2Proof.Machine.execCxlLinkTraining mode width speed s
  | .vinLoss vinMv => Sys2Proof.Machine.execVinLoss vinMv s
  | .auxSupplyLoss x => Sys2Proof.Machine.execAuxSupplyLoss x s
  | .conversionTrip c => Sys2Proof.Machine.execConversionTrip c s
  | .perstN assert obs => Sys2Proof.Machine.execPerstN assert obs s
  | .pkgResetN lowNs obs => Sys2Proof.Machine.execPkgResetN lowNs obs s
  | .refclkSysLoss => Sys2Proof.Machine.execRefclkSysLoss s
  | .refclkCxlLoss => Sys2Proof.Machine.execRefclkCxlLoss s
  | .alarmDetect src => Sys2Proof.Machine.execAlarmDetect src s
  | .thermalSample die quarterDeg => Sys2Proof.Machine.execThermalSample die quarterDeg s
  | .railWindow r avgMa => Sys2Proof.Machine.execRailWindow r avgMa s
  | .boardLoop b x => Sys2Proof.Machine.execBoardLoop b x s
  | .arbAllocation x => Sys2Proof.Machine.execArbAllocation x s
  | .clockChange t step => Sys2Proof.Machine.execClockChange t step s
  | .ageingEvaluation need => Sys2Proof.Machine.execAgeingEvaluation need s
  | .refresh k pc tempC => Sys2Proof.Machine.execRefresh k pc tempC s
  | .refreshCountWindow k => Sys2Proof.Machine.execRefreshCountWindow k s
  | .scrub k => Sys2Proof.Machine.execScrub k s
  | .correctedWriteBack k => Sys2Proof.Machine.execCorrectedWriteBack k s
  | .rowRemap k r => Sys2Proof.Machine.execRowRemap k r s
  | .remapListWrite k => Sys2Proof.Machine.execRemapListWrite k s
  | .stackLoss k => Sys2Proof.Machine.execStackLoss k s
  | .castleFault k => Sys2Proof.Machine.execCastleFault k s
  | .flit x => Sys2Proof.Machine.execFlit x s
  | .linkDegraded l => Sys2Proof.Machine.execLinkDegraded l s
  | .idleFrame ch f => Sys2Proof.Machine.execIdleFrame ch f s
  | .dataFrame ch f => Sys2Proof.Machine.execDataFrame ch f s
  | .nakFrame ch f => Sys2Proof.Machine.execNakFrame ch f s
  | .controlReplayTimeout ch => Sys2Proof.Machine.execControlReplayTimeout ch s
  | .controlChannelExhausted l => Sys2Proof.Machine.execControlChannelExhausted l s
  | .managementSetExhausted ch => Sys2Proof.Machine.execManagementSetExhausted ch s
  | .keepalive q c => Sys2Proof.Machine.execKeepalive q c s
  | .keepaliveSend q => Sys2Proof.Machine.execKeepaliveSend q s
  | .credit q c => Sys2Proof.Machine.execCredit q c s
  | .creditTimeout q vc => Sys2Proof.Machine.execCreditTimeout q vc s
  | .nak q c => Sys2Proof.Machine.execNak q c s
  | .replayTimeout q => Sys2Proof.Machine.execReplayTimeout q s
  | .setup q c => Sys2Proof.Machine.execSetup q c s
  | .close q c => Sys2Proof.Machine.execClose q c s
  | .abort q c => Sys2Proof.Machine.execAbort q c s
  | .data q c => Sys2Proof.Machine.execData q c s
  | .dtRead q c => Sys2Proof.Machine.execDtRead q c s
  | .dtWrite q c => Sys2Proof.Machine.execDtWrite q c s
  | .ckpt q c => Sys2Proof.Machine.execCkpt q c s
  | .dtResp q c => Sys2Proof.Machine.execDtResp q c s
  | .dtAck q c => Sys2Proof.Machine.execDtAck q c s
  | .quiet q c => Sys2Proof.Machine.execQuiet q c s
  | .resign q c => Sys2Proof.Machine.execResign q c s
  | .badCells q c => Sys2Proof.Machine.execBadCells q c s
  | .keepaliveTimeout q => Sys2Proof.Machine.execKeepaliveTimeout q s
  | .ackTimeout q => Sys2Proof.Machine.execAckTimeout q s
  | .portStateBound q => Sys2Proof.Machine.execPortStateBound q s
  | .lanesLocked q => Sys2Proof.Machine.execLanesLocked q s
  | .aligned q => Sys2Proof.Machine.execAligned q s
  | .laserInputChange q l0 l1 => Sys2Proof.Machine.execLaserInputChange q l0 l1 s
  | .lightReturn q => Sys2Proof.Machine.execLightReturn q s
  | .collTimeoutExpiry slot => Sys2Proof.Machine.execCollTimeoutExpiry slot s
  | .divergenceRefresh blocks => Sys2Proof.Machine.execDivergenceRefresh blocks s
  | .tokenReturn k pawn => Sys2Proof.Machine.execTokenReturn k pawn s
  | .windowAccess op off len bytes => Sys2Proof.Machine.execWindowAccess op off len bytes s
  | .windowAccessTimeout => Sys2Proof.Machine.execWindowAccessTimeout s
  | .hostSnoop line => Sys2Proof.Machine.execHostSnoop line s
  | .peerTimeout slot addr => Sys2Proof.Machine.execPeerTimeout slot addr s
  | .msixUnmask vec => Sys2Proof.Machine.execMsixUnmask vec s
  | .mgmtRead space off len => Sys2Proof.Machine.execMgmtRead space off len s
  | .jtagInstruction ir => Sys2Proof.Machine.execJtagInstruction ir s
  | .portEnable w q v => Sys2Proof.Machine.execPortEnable w q v s
  | .laneLockLoss q lane => Sys2Proof.Machine.execLaneLockLoss q lane s
  | .cellCrcFailure q => Sys2Proof.Machine.execCellCrcFailure q s
  | .controlFrameCrcFailure ch => Sys2Proof.Machine.execControlFrameCrcFailure ch s
  | .cxlLinkDown => Sys2Proof.Machine.execCxlLinkDown s

end Sys2Proof.Machine
end

