-- ==== Sys2Proof/Machine/Step.lean ====
section
/-! DEFINITION. One step: the command at the front of the queue, or idling where none waits. -/

namespace Sys2Proof.Machine

/-- An empty queue: a BAR0 write that waited for the posted writes before it acts (R383), a bring-up in progress goes
on, or the block idles (DESIGN CHOICE, logs 3, 32 and 100). -/
def stepEmpty (s : State) : Host.Outcome State Fault Refusal :=
  match nextBehind s.hw with
  | none => .next (idleStep s)
  | some (i, h) =>
    match exec i { s with hw := h } with
    | .next t => .next { t with hw := stayBehind (s.hw.host.behind.drop 1) t.hw }
    | r => r

/-- The front command runs on the state with the rest of the queue. -/
def step (s : State) : Host.Outcome State Fault Refusal :=
  match s.pending with
  | [] => stepEmpty s
  | i :: rest => exec i { s with pending := rest }

/-- The state with the command that a table word spells at the front of its queue. -/
def State.withFetchWord (s : State) (nbits w : Nat) : State :=
  match decodeTableWord nbits w with
  | none => s
  | some i => { s with pending := i :: s.pending }

end Sys2Proof.Machine
end

