-- ==== Sys2Proof/Safety.lean ====
section
/-! DEFINITION. The terms the statements use: a command's own effect, a command that is ready to run, how it ends, what
an effect leaves alone, and which register a register command writes. -/

namespace Sys2Proof.Machine

/-- The state an outcome goes on with. -/
def nextOf : Host.Outcome State Fault Refusal → Option State
  | .next s => some s
  | .fault _ => none
  | .refused _ => none

/-- The command completes: its outcome is a next state. -/
def completes (i : Instr) (s : State) : Prop := ∃ t, exec i s = .next t

/-- A command's own effect leaves the hardware h: exec goes on with it, the queue and the fuses as they were. What
follows every command (settle) then mirrors the error records it wrote (R460), and READY and RUN follow the rings
(R449). -/
def effect (i : Instr) (s : State) (h : Hw) : Prop := exec i s = .next { s with hw := settle h }

/-- A slot holds a command of an opcode that can make progress now, with a tile where it needs one (R56, R61). -/
def ready (h : Hw) (slot op : Nat) (c : Cmd) : Prop :=
  active h slot op = some c ∧ (holdsTiles op = true → c.tiles ≠ [])

/-- The command of a slot has finished with a status and its DETAIL words (R50). -/
def ended (h : Hw) (slot st d0 d1 : Nat) : Prop :=
  ∃ c, cmdAt h slot = some c ∧ c.phase = .finished ∧ c.status = BitVec.ofNat 8 st ∧
    c.detail0 = BitVec.ofNat 64 d0 ∧ c.detail1 = BitVec.ofNat 64 d1

/-- A completion ring in host memory has room for k more records, and the link to the host is up (R33, R50, R51). -/
def roomFor (h : Hw) (n k : Nat) : Prop :=
  n < 64 ∧ hostUp h = true ∧ bit (ringCfg h n) 29 = true ∧ cqSize h n ≠ 0 ∧ (ringAux h n).cqFailed = false ∧
  cqUsed h n + k ≤ cqSize h n

/-- The hardware from which a command's final record is written: the fence actions of a command that was not refused
come first (R48, R381). -/
def fencedHw (h : Hw) (slot : Nat) (c : Cmd) : Hw := if c.refused = true then h else fenceActions h slot

/-- Registers outside a list read as before. -/
def regsKept (h h' : Hw) (offs : List Nat) : Prop := ∀ o, o ∉ offs → getReg h' o = getReg h o

/-- At most the registers of a list change, and nothing else of the hardware: no memory, no command, no port. -/
def onlyRegs (h h' : Hw) (offs : List Nat) : Prop :=
  regsKept h h' offs ∧ h' = { h with regs := h'.regs, freeRegs := h'.freeRegs }

/-- TILE_STATUS and TILE_FREQ of tiles (R89, R439). -/
def tileStatuses (ts : List Nat) : List Nat := (ts.map fun t => regOf (.tile t) 4) ++ ts.map rTileFreq

/-- A command has ended with a status, and nothing but what its end frees has changed (R50): the tiles it held, its
pawn tokens and its deep-tier requests. What its end leaves open comes first: its work buffer, outputs that its operands
overlap, and the order of what it wrote with other commands (R46); a command with none of these leaves nothing open. -/
def endsOnly (h h' : Hw) (slot : Nat) (c : Cmd) (st d0 d1 : Nat) : Prop :=
  let g := leaveOpen h slot c
  ended h' slot st d0 d1 ∧ (∀ k, k ≠ slot → cmdAt h' k = cmdAt g k) ∧ regsKept g h' (tileStatuses c.tiles) ∧
  (∀ t, t ∉ c.tiles → tileAux h' t = tileAux g t) ∧
  (∀ t ∈ c.tiles, tileAux h' t = { tileAux g t with queue := [], claimed := none }) ∧
  h' = { g with regs := h'.regs, freeRegs := h'.freeRegs, slots := h'.slots, tilesAux := h'.tilesAux,
                tokens := g.tokens.filter (fun e => e.2.1 ≠ slot),
                tokenWaits := g.tokenWaits.filter (fun e => e.1 ≠ slot), ports := dropSlotReqs g.ports slot } ∧
  (c.workBuffer = [] → c.overlaps = [] → g = { h with order := g.order }) ∧
  (c.workBuffer = [] → c.overlaps = [] → c.outRanges = [] → g = h)

/-- The hardware once a SIGNAL has made its fence actions and updated its counter, which from then on speaks for what the
command comes after (R46); one that waited in place to store has updated it before (R47, R381). -/
def signalled (h : Hw) (slot : Nat) (c : Cmd) : Hw :=
  let h := fenceActions h slot
  let k := parBits c.packet 0 9 0
  if c.priv = [1] then h
  else modCmd (learnCtr (ctrSignal h k (parBit c.packet 0 16) (BitVec.ofNat 32 (par c.packet 4 4))) k c.knows) slot
    fun c => { c with priv := [1], outRanges := if parBit c.packet 0 17 then [(par c.packet 8 8, 8)] else [] }

/-- A register command that an agent's world may give makes these registers read 0 to any agent that they answer, and
leaves every other register, memory, the commands and the rings as they were. -/
def clears (i : Instr) (w : World) (off : Nat) (regs : List Nat) : Prop :=
  ∀ s : State, acts s.hw w off = true → ∃ h', effect i s h' ∧ (∀ o ∈ regs, ∀ v, blockRead s.fuses h' v o = 0) ∧
    regsKept s.hw h' regs ∧ h'.mem = s.hw.mem ∧ h'.slots = s.hw.slots ∧ h'.rings = s.hw.rings

/-- A linked set is taken whole (R474): every live register holds its staged copy, and no other register, no memory and
no command changes. -/
def takesSet (h h' : Hw) (pairs : List (Nat × Nat)) : Prop :=
  (∀ p ∈ pairs, getReg h' p.2 = getReg h p.1) ∧ onlyRegs h h' (pairs.map Prod.snd)

/-- A commit that breaks a rule is refused (R475): REJECT, the lowest CAUSE and, in a status register with a field of
some bits for it, the first item that breaks that rule are set, and of a state g nothing else changes. -/
def refuses (i : Instr) (s : State) (g : Hw) (causes : List (Nat × Nat)) (status itemBits : Nat) : Prop :=
  ∀ x, firstCause causes = some x → ∃ h', effect i s h' ∧ regBit h' status 31 = true ∧
    regFld h' status 30 28 = x.1 % 8 ∧ (itemBits ≠ 0 → regFld h' status (itemBits - 1) 0 = x.2 % 2 ^ itemBits) ∧
    onlyRegs g h' [status]

/-- The offsets of a set of words, staged and live. -/
def setPairs (staged live words : Nat) : List (Nat × Nat) :=
  (List.range words).map fun i => (staged + 4 * i, live + 4 * i)

/-! Work in units (R57, R61) -/

/-- The units a command has left, each read, computed and written whole, in order, from one state to another. -/
inductive UnitsRun (slot : Nat) (w : Work) : Hw → Hw → Prop
  | none (h : Hw) (c : Cmd) : cmdAt h slot = some c → w.units ≤ c.doneUnits → UnitsRun slot w h h
  | more (h h1 h2 : Hw) (c c1 : Cmd) : cmdAt h slot = some c → c.doneUnits < w.units →
      runOn (unitStep slot c w) h = (.ok (), h1) → cmdAt h1 slot = some c1 → c1.doneUnits = c.doneUnits + 1 →
      UnitsRun slot w h1 h2 → UnitsRun slot w h h2

/-- The work of a command goes through: its checks, unless it has gone past them before, all its units, then its end
with a status and DETAIL words. -/
def workEnds (slot : Nat) (w : Work) (c : Cmd) (h : Hw) (st d0 d1 : Nat) (h' : Hw) : Prop :=
  ∃ h0 h1 h2 c0 c1 c2, runOn (if c.doneUnits = 0 then openWork slot w else pure ()) h = (.ok (), h0) ∧
    cmdAt h0 slot = some c0 ∧ c0.doneUnits = c.doneUnits ∧ UnitsRun slot w h0 h1 ∧ cmdAt h1 slot = some c1 ∧
    runOn (w.done c1.flags c1.tally) h1 = (.ok (st, d0, d1), h2) ∧ cmdAt h2 slot = some c2 ∧
    h' = finish h2 slot st d0 d1

/-- A command of an opcode that holds tiles runs this work to its end, wherever the work goes through; what its tiles
leave open once they work is drawn first (R61, R74, R229), and the credits that it frees take staged copies last
(R247). -/
def worksAs (i : SlotId → Instr) (op : Nat) (w : Nat → Cmd → Work) : Prop :=
  ∀ (slot : SlotId) (s : State) (c : Cmd) (st d0 d1 : Nat) (h' : Hw), ready s.hw slot.val op c →
    workEnds slot.val (w slot.val c) c (beginTiles slot.val c s.hw) st d0 d1 h' →
    effect (i slot) s (stageLive h') ∧ ended h' slot.val st d0 d1

/-- As worksAs for movement (R233): a tile of the mask has its DMA engine to serve, and the counters of those engines hold
free values at the end. -/
def movesAs (i : SlotId → Instr) (op : Nat) (w : Nat → Cmd → Work) : Prop :=
  ∀ (slot : SlotId) (s : State) (c : Cmd) (st d0 d1 : Nat) (h' : Hw), ready s.hw slot.val op c →
    served s.hw slot.val c = true → workEnds slot.val (w slot.val c) c s.hw st d0 d1 h' →
    ∃ h'', effect (i slot) s h'' ∧ ended h'' slot.val st d0 d1 ∧ h''.mem = h'.mem

/-- A pawn command's work goes through: its checks, with nothing to wait for, its units as far as its tokens go, all of them done, and its end
(R206-R208). -/
def pawnEnds (slot : Nat) (j : PawnJob) (c : Cmd) (h : Hw) (st d0 d1 : Nat) (h' : Hw) : Prop :=
  ∃ gs h1 h2 h3 c2 c3, runOn (pawnCheck slot j c) h = (.ok gs, h1) ∧ runOn (pawnGate slot j) h1 = (.ok (), h1) ∧
    runOn (runTokens slot j gs 16384) h1 = (.ok (), h2) ∧ cmdAt h2 slot = some c2 ∧ allShares j c2 gs = true ∧
    runOn (j.final gs) h2 = (.ok (st, d0, d1), h3) ∧ cmdAt h3 slot = some c3 ∧ h' = finish h3 slot st d0 d1

/-- A command runs an operation of the package that goes through with a status and DETAIL words. -/
def runsAs (slot : Nat) (m : Run (Nat × Nat × Nat)) (h : Hw) (st d0 d1 : Nat) (h' : Hw) : Prop :=
  ∃ h1 c1, runOn m h = (.ok (st, d0, d1), h1) ∧ cmdAt h1 slot = some c1 ∧ h' = finish h1 slot st d0 d1

/-! Ports and cells -/

/-- Of the hardware only a port changes: registers at these offsets of its block, and what it holds. -/
def onlyPort (h h' : Hw) (q : Nat) (rels : List Nat) : Prop :=
  regsKept h h' (rels.map (rPort q)) ∧ (∀ p, p ≠ q → portAux h' p = portAux h p) ∧
  h' = { h with regs := h'.regs, freeRegs := h'.freeRegs, ports := h'.ports }

/-- The port, the cell and the cell type of the commands that are the arrival of a sequenced cell (Table 12-3). -/
def seqCell : Instr → Option (PortId × Cell × Nat)
  | .setup q c => some (q, c, 3)
  | .close q c => some (q, c, 4)
  | .abort q c => some (q, c, 5)
  | .data q c => some (q, c, 6)
  | .dtRead q c => some (q, c, 7)
  | .dtWrite q c => some (q, c, 8)
  | .ckpt q c => some (q, c, 9)
  | .dtResp q c => some (q, c, 10)
  | .dtAck q c => some (q, c, 11)
  | _ => none

/-- The hardware once a port has taken a sequenced cell in order: the cell is counted, its ACK and credits taken, and
its sequence number is the last one accepted (R300, R301). -/
def takenCell (h : Hw) (q : Nat) (c : Cell) : Hw :=
  let h := takeAck (countRx h q) q c
  setPortAux h q { portAux h q with rxSeq := c.seq.toNat }

/-- The hardware once the tag of the cell has held, too: an encrypted cell counts under its key (R303). d is the cell
with its payload in the clear. -/
def acceptedCell (h : Hw) (q : Nat) (c d : Cell) : Hw := countEnc (takenCell h q c) q d

/-- A sequenced cell is accepted: the port runs, the CRC holds, the cell is the next in order, and its tag holds or it
has none; d is the cell with its payload in the clear, whose bytes spell that payload (R298, R301, R303, log 85). -/
def taken (h : Hw) (q : Nat) (c d : Cell) : Prop :=
  portRuns h q = true ∧ crcOk c = true ∧ c.seq.toNat = ((portAux h q).rxSeq + 1) % 4096 ∧
  clearCell (takenCell h q c) q c = some d ∧ spelt d = true

/-! Which opcode a command runs, and which register it writes -/

/-- The slot and opcode of the commands that run one (Table 2-3). -/
def opcodeOf : Instr → Option (SlotId × Nat)
  | .nop k => some (k, 0x00)
  | .fence k => some (k, 0x01)
  | .waitEvent k => some (k, 0x02)
  | .waitEventTimeout k => some (k, 0x02)
  | .signal k => some (k, 0x03)
  | .mapSelect k => some (k, 0x04)
  | .commitEpoch k => some (k, 0x05)
  | .copy k => some (k, 0x10)
  | .fill k => some (k, 0x11)
  | .gather k => some (k, 0x12)
  | .scatter k => some (k, 0x13)
  | .prefetchStream k => some (k, 0x14)
  | .spill k => some (k, 0x15)
  | .promote k => some (k, 0x16)
  | .gemm k => some (k, 0x20)
  | .gemmAcc k => some (k, 0x21)
  | .dist k => some (k, 0x22)
  | .cmpSelect k => some (k, 0x23)
  | .vop k => some (k, 0x30)
  | .scan k => some (k, 0x31)
  | .segscan k => some (k, 0x32)
  | .reduce k => some (k, 0x33)
  | .norm k => some (k, 0x34)
  | .softmax k => some (k, 0x35)
  | .rope k => some (k, 0x36)
  | .rngFill k => some (k, 0x37)
  | .amax k => some (k, 0x38)
  | .attnFwd k => some (k, 0x40)
  | .attnBwd k => some (k, 0x41)
  | .kvAppend k => some (k, 0x42)
  | .kvPage k => some (k, 0x43)
  | .bucketSort k => some (k, 0x44)
  | .cmpPack k => some (k, 0x50)
  | .cmpUnpack k => some (k, 0x51)
  | .pawnOp k => some (k, 0x60)
  | .update k => some (k, 0x61)
  | .digest k => some (k, 0x62)
  | .pawnGemv k => some (k, 0x63)
  | .reduceScatter k => some (k, 0x70)
  | .allGather k => some (k, 0x71)
  | .allToAll k => some (k, 0x72)
  | .broadcast k => some (k, 0x73)
  | .send k => some (k, 0x74)
  | .recv k => some (k, 0x75)
  | .barrier k => some (k, 0x76)
  | .lossScaleCheck k => some (k, 0x80)
  | .stepBegin k => some (k, 0x81)
  | .stepEnd k _ => some (k, 0x82)
  | .notate k _ _ => some (k, 0x90)
  | .restore k _ => some (k, 0x91)
  | .verify k _ => some (k, 0x92)
  | .map k => some (k, 0xA0)
  | .unmap k => some (k, 0xA1)
  | .inval k => some (k, 0xA2)
  | .query k => some (k, 0xF0)
  | .telemetry k => some (k, 0xF1)
  | .attest k => some (k, 0xF2)
  | _ => none

/-- The register a register command writes, and the world of the agent that writes it. -/
def registerOf : Instr → Option (World × Nat)
  | .sqDoorbell w n _ => some (w, rRing n.val 0)
  | .cqDoorbell w n _ => some (w, rRing n.val 4)
  | .ringCommit w n => some (w, rRing n.val 0x05C)
  | .ringEnable w n => some (w, rRing n.val 0x018)
  | .ringStop w n => some (w, rRing n.val 0x018)
  | .ringAbort w n => some (w, rRing n.val 0x018)
  | .errorHaltClear w n => some (w, rRingStatus n.val)
  | .xlateResolve w r _ => some (w, regOf (.regime r.val) 0x50)
  | .tileReset w t => some (w, regOf (.tile t.val) 8)
  | .tileClrCounters w t => some (w, regOf (.tile t.val) 8)
  | .veClrCounters w t => some (w, regOf (.tile t.val) 0x100C)
  | .dmaClrCounters w t => some (w, regOf (.tile t.val) 0x200C)
  | .tcClrCounters w t => some (w, regOf (.tile t.val) 0x3004)
  | .stackClrCounters w s => some (w, regOf (.stack s.val) 8)
  | .pawnClrCounters w s => some (w, regOf (.stack s.val) 0x1000C)
  | .noteClrCounters w => some (w, 0x600004)
  | .hostClrCounters w => some (w, rHost 4)
  | .zlClrCounters w => some (w, rZl 8)
  | .scrubNow w s => some (w, regOf (.stack s.val) 8)
  | .eccInject w s _ => some (w, regOf (.stack s.val) 0x30)
  | .memmapCommit w b => some (w, regOf (.board b.val) 0x100)
  | .lendCommit w => some (w, 0x161080)
  | .trainCommit w => some (w, 0x170140)
  | .mapCommit w m => some (w, regOf (.map m.val) 0xFF0)
  | .fabricCommit w => some (w, 0x504108)
  | .disarm w => some (w, rEpochCtrl)
  | .retrain w q => some (w, rPort q.val 4)
  | .portEnable w q _ => some (w, rPort q.val 4)
  | .noteCommit w => some (w, 0x600180)
  | .invalidateSlots w => some (w, 0x600004)
  | .xlateCommit w r => some (w, regOf (.regime r.val) 0x40)
  | .windowCommit w => some (w, rHost 0x110)
  | .peerCommit w => some (w, rHost 0x280)
  | .agentFlush w => some (w, rHost 4)
  | .worldCommit w => some (w, rSec 0x580)
  | .regionCommit w => some (w, rSec 0x2000)
  | .keyInstall w _ => some (w, rSec 0x200)
  | .eraseSlot w _ => some (w, rSec 0x200)
  | .svnAdvance w => some (w, rSec 0xC)
  | .alarmClear w _ => some (w, rSec 0x100)
  | .policyLock w => some (w, rSec 0x108)
  | .testOpen w => some (w, regOf .zl 8)
  | .arbCommit w => some (w, rPwr 0x140)
  | .calCommit w => some (w, rPwr 0x900)
  | .calSave w => some (w, rPwr 4)
  | .powerStateRequest w _ => some (w, rPwr 4)
  | .errCommit w => some (w, regOf .err 0xC0)
  | .registerWrite w off _ _ => some (w, off)
  | .softReset (.rstCtrl w) => some (w, regOf .err 0x100)
  | .msixUnmask v => some (.nonSecure, rHost (0x1000 + 16 * v.val + 12))
  | _ => none

end Sys2Proof.Machine
end

