-- ==== Sys2Proof/Certificates/Slice0/Obligations.lean ====
section
/-! DEFINITION. The statements about the package, for the provers: one Prop each. -/

open Sys2Proof Sys2Proof.Machine

/-! The machine -/

/-- A step at a state whose queue begins with a command c is exec of c at that state with the rest of the queue (log
3: the queue and its order are the model's). (the model's reading of 20_register_space.md, 02_adust_commands.md) -/
def Obligations.StepRunsFront : Prop :=
  ∀ (c : Instr) (rest : List Instr) (s : State), step { s with pending := c :: rest } = exec c { s with pending := rest }

/-- Every command answers a next state from every state: none stops the machine. It leaves the queue of waiting
commands as it was, and every fuse but the SVN floor. (the model's reading of R394, R473) -/
def Obligations.EveryCommandGoesOn : Prop :=
  ∀ (i : Instr) (s : State), ∃ t, exec i s = .next t ∧ t.pending = s.pending ∧
    { t.fuses with svnFloor := s.fuses.svnFloor } = s.fuses

/-- From every state, a step that goes on leaves every fuse as it was but the SVN floor, and the floor never falls: a
firmware version once refused for its age stays refused. (the model's reading of R394) -/
def Obligations.FusesKeepAndFloorNeverFalls : Prop :=
  ∀ (F : Fuses) (s s' : State), step s = .next s' →
    ({ s.fuses with svnFloor := F.svnFloor } = F ∧ F.svnFloor ≤ s.fuses.svnFloor) →
    ({ s'.fuses with svnFloor := F.svnFloor } = F ∧ F.svnFloor ≤ s'.fuses.svnFloor)

/-- At reset no command waits, the package is in AUX and no start runs, no command is in flight, no ring is enabled,
every register reads its reset value, no byte of memory is listed, and memory has its canonical form. (Reset values
the manual does not give are the model's, log 2.) (the model's reading of R423, R450, R472, R470) -/
def Obligations.ResetState : Prop :=
  State.reset.pending = [] ∧ State.reset.hw.pkg = .aux ∧ State.reset.hw.starting = none ∧
  State.reset.hw.slots = [] ∧ (∀ n, ringEnabled State.reset.hw n = bit (regReset (rRingStatus n)) 0) ∧
  (∀ o, getReg State.reset.hw o = regReset o) ∧
  (∀ sp a, State.reset.hw.mem.read sp a = 0) ∧ State.reset.hw.mem.wf = true

/-- Where no error record waits for its mirror copy, what follows every command changes only the package state, READY
to RUN where a ring is enabled and RUN to READY where none is and no command is in flight, with the MSI-X vector of
that change; any other package state, every command, all of memory and every register outside the MSI-X pending bits
stay. (the model's reading of R449, R460) -/
def Obligations.SettleWithNothingDue : Prop :=
  ∀ h : Hw, h.errs.toMirror = [] →
    (settle h).pkg = (if h.pkg = .ready ∧ anyRingEnabled h = true then .run
      else if h.pkg = .run ∧ anyRingEnabled h = false ∧ h.slots = [] then .ready else h.pkg) ∧
    ((settle h).pkg = h.pkg → settle h = h) ∧
    regsKept h (settle h) [rHost 0x2008] ∧
    settle h = { h with pkg := (settle h).pkg, host := (settle h).host, regs := (settle h).regs,
                        freeRegs := (settle h).freeRegs } ∧
    (settle h).host = { h.host with msixSent := (settle h).host.msixSent, msixHeld := (settle h).host.msixHeld }

/-- On an empty queue the first BAR0 write that waits (R383) acts once no posted window write waits before it. With
none that may act and no start in progress, or without REFCLK_SYS, a step answers the same state. A start in progress
takes the next of its steps: unless the package resigns the step number goes up by one and the start goes on; its last
step ends it at step 8, or 9 with a trained link, in READY, or in RUN where a ring is enabled, unless a latched alarm
with an erase policy keeps the package in BRINGUP (logs 3, 32 and 100: what an empty queue does is the model's
choice). (the model's reading of R383, R440, R450, R452, R453) -/
def Obligations.EmptyQueueStep : Prop :=
  ∀ s : State, s.pending = [] →
    let blocked := (s.hw.host.winQueue.any fun x => x.op.write && x.op.path = .bar2) = true
    (∀ i rest t, s.hw.host.behind = i :: rest → ¬ blocked →
      exec i { s with hw := { s.hw with host := { s.hw.host with behind := [] } } } = .next t →
      step s = .next { t with hw := stayBehind rest t.hw }) ∧
    ((s.hw.host.behind = [] ∨ blocked) →
      (s.hw.starting = none ∨ s.hw.supplies.refclkSys = false → step s = .next s) ∧
      (∀ x, s.hw.starting = some x → s.hw.pkg = .bringup → s.hw.supplies.refclkSys = true → 2 ≤ s.hw.bringStep →
        s.hw.bringStep ≤ 7 → ∃ t, step s = .next t ∧ t.pending = [] ∧ t.fuses = s.fuses ∧
        (s.hw.bringStep < 7 → t.hw.pkg = .bringup ∧ t.hw.bringStep = s.hw.bringStep + 1 ∧ t.hw.starting = some x ∨
          t.hw.pkg = .resigned) ∧
        (s.hw.bringStep = 7 → t.hw.starting = none ∧
          (eraseLatched s.hw = false → t.hw.pkg = .ready ∨ t.hw.pkg = .run) ∧
          (eraseLatched s.hw = true → t.hw.pkg = .bringup) ∧
          t.hw.bringStep = (if hostUp s.hw = true then 9 else 8))))

/-- A register command whose offset does not answer its agent, in this package state or to this world, completes and
changes nothing but what follows every command. One of the host that stands behind a posted window write joins those
that wait and changes nothing else; the commands of the secure view alone never do. The command of an opcode changes
nothing in a slot that holds no running command of it without an outstanding fault, and while the package lets no
command run. (the model's reading of R42, R54, R348, R357, R383, R386, R404, R448, R473) -/
def Obligations.CommandsThatCannotActDoNothing : Prop :=
  ∀ (i : Instr) (s : State),
    (∀ w off, registerOf i = some (w, off) →
      (postedBefore s.hw w = false → answers s.hw w off = false → effect i s s.hw ∨ exec i s = .next s) ∧
      (postedBefore s.hw w = true →
        i ∉ [.worldCommit w, .regionCommit w, .policyLock w, .testOpen w, .svnAdvance w] → (∀ v, i ≠ .alarmClear w v) →
        effect i s { s.hw with host := { s.hw.host with behind := s.hw.host.behind ++ [i] } })) ∧
    (∀ slot op, opcodeOf i = some (slot, op) → active s.hw slot.val op = none → effect i s s.hw)

/-- The end of a command's work with a status leaves it finished with that status and its DETAIL words, and frees the
tiles it held, its pawn tokens and its deep-tier requests. Memory, every other command and every register but the
TILE_STATUS and TILE_FREQ of its tiles stay, but that a work buffer, and outputs that its operands overlap, are left
undefined, and that what it wrote is noted for the commands it is not ordered with (R46). Commands of the classes
without operands in memory leave none of these. (the model's reading of R46, R50, R89, R207, R439) -/
def Obligations.FinishEndsTheCommand : Prop :=
  ∀ (h : Hw) (slot st d0 d1 : Nat) (c : Cmd), cmdAt h slot = some c →
    endsOnly h (finish h slot st d0 d1) slot c st d0 d1 ∧
    (c.cls = 0 ∨ 8 ≤ c.cls → c.overlaps = [] ∧ c.workBuffer = []) ∧
    (∀ t ∈ c.tiles, t < 192 → tileBusy (finish h slot st d0 d1) t = false) ∧
    (∀ e ∈ (finish h slot st d0 d1).tokens, e.2.1 ≠ slot)

/-- A condition that writes an error record gives it the next ERR_REF, which skips 0; the record heads the castle log,
which keeps the last 4,096; its severity counts in its own counter, saturating, and the highest severity follows; it
waits for its mirror copy. No command and no byte of memory changes. (the model's reading of R458, R460) -/
def Obligations.ErrorRecordsNumbered : Prop :=
  ∀ (h : Hw) (e : ErrEvent),
    (errRecord h e).1 = (if getReg h rErrLast + 1 = 0 then 1 else getReg h rErrLast + 1) ∧
    getReg (errRecord h e).2 rErrLast = (errRecord h e).1 ∧
    (∃ r, (errRecord h e).2.errs.log = (r :: h.errs.log).take 4096 ∧ r.ref = (errRecord h e).1 ∧
      r.severity = e.severity ∧ r.addr = BitVec.ofNat 64 e.addr ∧
      (errRecord h e).2.errs.toMirror = h.errs.toMirror ++ [r]) ∧
    getReg (errRecord h e).2 (regOf .err (0x50 + 4 * e.severity)) =
      satAdd (getReg h (regOf .err (0x50 + 4 * e.severity))) 1 ∧
    (errRecord h e).2.errs.highest = some (max e.severity (h.errs.highest.getD 0)) ∧
    (errRecord h e).2.slots = h.slots ∧ (errRecord h e).2.mem = h.mem ∧
    regsKept h (errRecord h e).2 [rErrLast, regOf .err (0x50 + 4 * e.severity)]

/-! Control commands (R43-R49) -/

/-- A dispatched NOP ends DONE and changes nothing but its end. A dispatched FENCE ends DONE; with FENCE_GLOBAL and a
trained link every line the agent held modified is then written back, without it memory and the registers stay but for
its end, and no memory but the host's changes in either case. A dispatched WAIT_EVENT on counter k with value v ends
DONE where the signed 32-bit difference (counter k − v) is at least 0 (its ring then comes after what that counter
speaks for, R46), and stays where it is not; its timeout, where it gives one, ends it ABORTED with DETAIL0 0x03 while
the wait is not met, and does nothing else. A dispatched SIGNAL sets its counter to the value or adds it modulo 2^32,
once, and changes no other register but those that count the fence actions; a form that stores nothing then ends DONE,
and a form that stores ends DONE when its 8 bytes are written. (the model's reading of R43, R44, R47, R50, R381) -/
def Obligations.ControlCommandsEnd : Prop :=
  (∀ (slot : SlotId) (s : State) (c : Cmd),
      (ready s.hw slot.val 0x00 c → ∃ h', effect (.nop slot) s h' ∧ endsOnly s.hw h' slot.val c 0 0 0) ∧
      (ready s.hw slot.val 0x01 c → ∃ h', effect (.fence slot) s h' ∧ ended h' slot.val 0 0 0 ∧
        (hFenceGlobal c.packet = true → c.fenced = false → hostUp s.hw = true → h'.host.lines = []) ∧
        (hFenceGlobal c.packet = false → h'.mem = s.hw.mem ∧ regsKept s.hw h' (tileStatuses c.tiles)) ∧
        (∀ sp a, sp ≠ .host → h'.mem.read sp a = s.hw.mem.read sp a))) ∧
  (∀ (slot : SlotId) (s : State) (c : Cmd), ready s.hw slot.val 0x02 c →
      let k := parBits c.packet 0 9 0
      let v : Word := BitVec.ofNat 32 (par c.packet 4 4)
      (0 ≤ (getReg s.hw (rCtr k) - v).toInt →
        (∃ h', effect (.waitEvent slot) s h' ∧
          endsOnly (learnRing s.hw c.ring.val (ctrKnows s.hw k)) h' slot.val c 0 0 0) ∧ effect (.waitEventTimeout slot) s s.hw) ∧
      ((getReg s.hw (rCtr k) - v).toInt < 0 → effect (.waitEvent slot) s s.hw ∧
        (par c.packet 8 4 = 0 → effect (.waitEventTimeout slot) s s.hw) ∧
        (par c.packet 8 4 ≠ 0 → ∃ h', effect (.waitEventTimeout slot) s h' ∧ endsOnly s.hw h' slot.val c 3 3 0))) ∧
  (∀ (slot : SlotId) (s : State) (c : Cmd), ready s.hw slot.val 0x03 c →
      let k := parBits c.packet 0 9 0
      let v : Word := BitVec.ofNat 32 (par c.packet 4 4)
      let h1 := signalled s.hw slot.val c
      (c.priv ≠ [1] → getReg h1 (rCtr k) = (if parBit c.packet 0 16 = true then v else getReg s.hw (rCtr k) + v)) ∧
      (c.priv = [1] → getReg h1 (rCtr k) = getReg s.hw (rCtr k)) ∧
      regsKept s.hw h1 [rCtr k, rHost 0x08, rHost 0x20, rHost 0x24] ∧
      (∀ sp a, sp ≠ .host → h1.mem.read sp a = s.hw.mem.read sp a) ∧
      (parBit c.packet 0 17 = false → effect (.signal slot) s (finish h1 slot.val 0 0 0) ∧
        ended (finish h1 slot.val 0 0 0) slot.val 0 0 0) ∧
      (parBit c.packet 0 17 = true → ∀ h2 c2,
        runOn (wr (whoOf slot.val c) (par c.packet 8 8) (leBytes 8 (par c.packet 0x10 8))) h1 = (.ok (), h2) →
        cmdAt h2 slot.val = some c2 →
        effect (.signal slot) s (finish h2 slot.val 0 0 0) ∧ ended (finish h2 slot.val 0 0 0) slot.val 0 0 0))

/-! Rings (R33-R41, R50-R58) -/

/-- A doorbell value v of a ring whose page answers is accepted exactly where (v − SQ_CONS) mod 2^32 ≤ SQ_SIZE: it
becomes the producer index and clears PARKED. Any other value is ignored as an index and sets DB_RANGE, and PARKED
unless STALE_SLOT has parked the ring: there any value clears PARKED and starts a fresh series of refetches at the
same slot (log 61). (the model's reading of R39, R40) -/
def Obligations.SubmissionDoorbellRange : Prop :=
  ∀ (w : World) (n : RingId) (v : Word) (s : State), acts s.hw w (rRing n.val 0) = true →
    ((v.toNat + 2 ^ 32 - (sqCons s.hw n.val).toNat) % 2 ^ 32 ≤ sqSize s.hw n.val →
      ∃ h', effect (.sqDoorbell w n v) s h' ∧ (ringAux h' n.val).sqProd = v ∧ ringParked h' n.val = false ∧
        ((ringAux s.hw n.val).stale = true → (ringAux h' n.val).mismatch = true ∧ (ringAux h' n.val).refetches = 0)) ∧
    (sqSize s.hw n.val < (v.toNat + 2 ^ 32 - (sqCons s.hw n.val).toNat) % 2 ^ 32 →
      ∃ h', effect (.sqDoorbell w n v) s h' ∧ (ringAux h' n.val).sqProd = (ringAux s.hw n.val).sqProd ∧
        regBit h' (rRingStatus n.val) 7 = true ∧ ringParked h' n.val = !(ringAux s.hw n.val).stale ∧
        ((ringAux s.hw n.val).stale = true → (ringAux h' n.val).mismatch = true ∧ (ringAux h' n.val).refetches = 0))

/-- Outside HOLD and QUIET an accepted submission doorbell changes no register but the status of its ring, no memory,
no command and no other ring. A completion doorbell within the records written becomes the consumer index, and the
records that waited for room follow in their order; with none it changes nothing else; any other is ignored, sets
DB_RANGE and raises the ring error interrupt. RING_COMMIT of a disabled ring whose staged set has sizes that are
powers of two from 16 to 65,536, bases on 4 KiB and no secure WORLD from the non-secure world makes every staged
register the live one, zeroes SQ_CONS and CQ_PROD and clears PARKED; any other is refused: REJECT is set, the ring
error interrupt raised and nothing else changes. RING_CTRL.ENABLE enables a ring that is neither enabled nor stopping
and has a live size, and is refused where it has none. (the model's reading of R34, R40, R51, R58, R443) -/
def Obligations.DoorbellsAndRingCommits : Prop :=
  (∀ (w : World) (n : RingId) (v : Word) (s : State),
      (acts s.hw w (rRing n.val 0) = true → s.hw.pkg ≠ .hold → s.hw.pkg ≠ .quiet →
        (v - sqCons s.hw n.val).toNat ≤ sqSize s.hw n.val →
        ∃ h', effect (.sqDoorbell w n v) s h' ∧ regsKept s.hw h' [rRingStatus n.val] ∧
          (∀ m, m ≠ n.val → ringAux h' m = ringAux s.hw m) ∧
          h' = { s.hw with regs := h'.regs, freeRegs := h'.freeRegs, rings := h'.rings }) ∧
      (acts s.hw w (rRing n.val 4) = true →
        let a := ringAux s.hw n.val
        ((v - a.cqCons).toNat ≤ (cqProd s.hw n.val - a.cqCons).toNat →
          effect (.cqDoorbell w n v) s (writeDue (setRingAux s.hw n.val { a with cqCons := v })) ∧
          (s.hw.due = [] → ∃ h', effect (.cqDoorbell w n v) s h' ∧ ringAux h' n.val = { a with cqCons := v } ∧
              h' = { s.hw with rings := h'.rings })) ∧
        ((cqProd s.hw n.val - a.cqCons).toNat < (v - a.cqCons).toNat →
          effect (.cqDoorbell w n v) s (sendMsix (setRegBit s.hw (rRingStatus n.val) 7 true) 65)))) ∧
  (∀ (w : World) (n : RingId) (s : State),
      (acts s.hw w (rRing n.val 0x05C) = true →
        let ok := ringEnabled s.hw n.val = false ∧
          (∀ r ∈ [0x028, 0x034], ∃ k, 4 ≤ k ∧ k ≤ 16 ∧ (getReg s.hw (rRing n.val r)).toNat = 2 ^ k) ∧
          (∀ r ∈ [0x020, 0x02C], (getReg s.hw (rRing n.val r)).toNat % 4096 = 0) ∧
          (w = .nonSecure → regBit s.hw (rRing n.val 0x038) 31 = false)
        (ok → ∃ h', effect (.ringCommit w n) s h' ∧
          (∀ i < 7, getReg h' (rRing n.val (0x040 + 4 * i)) = getReg s.hw (rRing n.val (0x020 + 4 * i))) ∧
          sqCons h' n.val = 0 ∧ cqProd h' n.val = 0 ∧ ringParked h' n.val = false ∧
          ringAux h' n.val = RingAux.reset ∧
          h' = { s.hw with regs := h'.regs, freeRegs := h'.freeRegs, rings := h'.rings }) ∧
        (¬ ok → effect (.ringCommit w n) s (sendMsix (setRegBit s.hw (rRingStatus n.val) 9 true) 65))) ∧
      (acts s.hw w (rRing n.val 0x018) = true → ringEnabled s.hw n.val = false → ringStopping s.hw n.val = false →
        (sqSize s.hw n.val ≠ 0 → ∃ h', effect (.ringEnable w n) s h' ∧ ringEnabled h' n.val = true ∧
          onlyRegs s.hw h' [rRingStatus n.val]) ∧
        (sqSize s.hw n.val = 0 →
          effect (.ringEnable w n) s (sendMsix (setRegBit s.hw (rRingStatus n.val) 9 true) 65))))

/-- On an enabled ring STOP sets STOPPING and changes nothing else; ABORT sets it and ends every command of the ring
that stands where an abort may end it as ABORTED with DETAIL0 0x01, and with its units in DETAIL1 where its class
counts them; other commands stay, and where none that ends has overlapping operands or a work buffer no memory
changes. A stopping ring with no command in flight is disabled: ENABLED and STOPPING clear. Clearing ERROR_HALT clears
the bit; on an enabled ring fetch may go on, its completion memory is tried again, and the records that waited follow,
and on a disabled one nothing else changes. (the model's reading of R58, R34, R53) -/
def Obligations.RingStopAbortDisable : Prop :=
  ∀ (w : World) (n : RingId) (s : State),
    (acts s.hw w (rRing n.val 0x018) = true → ringEnabled s.hw n.val = true →
      (∃ h', effect (.ringStop w n) s h' ∧ ringStopping h' n.val = true ∧ ringEnabled h' n.val = true ∧
        onlyRegs s.hw h' [rRingStatus n.val]) ∧
      (∃ h', effect (.ringAbort w n) s h' ∧ ringStopping h' n.val = true ∧
        (smSorted 0 s.hw.slots = true →
          (∀ k c, cmdAt s.hw k = some c → c.ring = n → abortable s.hw k c = true → ended h' k 3 1 (endCount c)) ∧
          (∀ k c, cmdAt s.hw k = some c → (c.ring ≠ n ∨ abortable s.hw k c = false) →
            cmdAt h' k = some c) ∧
          ((∀ k c, cmdAt s.hw k = some c → c.ring = n → abortable s.hw k c = true →
              c.overlaps = [] ∧ c.workBuffer = []) → h'.mem = s.hw.mem)))) ∧
    (ringEnabled s.hw n.val = true → ringStopping s.hw n.val = true → (∀ k c, cmdAt s.hw k = some c → c.ring ≠ n) →
      smSorted 0 s.hw.slots = true →
      ∃ h', effect (.ringDisabled n) s h' ∧ ringEnabled h' n.val = false ∧ ringStopping h' n.val = false ∧
        onlyRegs s.hw h' [rRingStatus n.val]) ∧
    (acts s.hw w (rRingStatus n.val) = true →
      (ringEnabled s.hw n.val = false → ∃ h', effect (.errorHaltClear w n) s h' ∧ ringHalted h' n.val = false ∧
        onlyRegs s.hw h' [rRingStatus n.val]) ∧
      (ringEnabled s.hw n.val = true → effect (.errorHaltClear w n) s (writeDue (setRingAux
        (setRegBit s.hw (rRingStatus n.val) 8 false) n.val { ringAux s.hw n.val with cqFailed := false }))) ∧
      (ringEnabled s.hw n.val = true → s.hw.due = [] →
        ∃ h', effect (.errorHaltClear w n) s h' ∧ ringHalted h' n.val = false ∧
          regsKept s.hw h' [rRingStatus n.val] ∧ (ringAux h' n.val).cqFailed = false ∧ h'.mem = s.hw.mem ∧
          h'.slots = s.hw.slots))

/-- A record for a completion ring that is full, or whose memory has failed, is not written and changes nothing. One
for a ring in host memory, with a trained link, is written at CQ base + (CQ_PROD mod CQ_SIZE) × 32 and CQ_PROD goes up
by one; no device memory changes. (the model's reading of R50, R51, R33, R371) -/
def Obligations.RecordsTakeTheNextIndex : Prop :=
  ∀ (h : Hw) (n : Nat) (bs : List Byte),
    (cqClosed h n = true → postRecord h n bs = (false, h)) ∧
    (cqClosed h n = false → cqSize h n ≠ 0 → bit (ringCfg h n) 29 = true → hostUp h = true →
      (postRecord h n bs).1 = true ∧ cqProd (postRecord h n bs).2 n = cqProd h n + 1 ∧
      (∀ i < bs.length, (postRecord h n bs).2.mem.read .host (cqBase h n + (cqProd h n).toNat % cqSize h n * 32 + i) =
        bs.getD i 0) ∧
      (∀ sp a, sp ≠ .host → (postRecord h n bs).2.mem.read sp a = h.mem.read sp a) ∧
      (postRecord h n bs).2.slots = h.slots)

/-- Where fetch of a ring may go on, on its turn among the rings, PACKET_FETCH of a packet with the expected lap, with
a free slot and an open completion ring, advances SQ_CONS by one and puts the packet with what R48 makes of it into
the slot; a sound PREFETCH_STREAM with a TASK that is not live opens its task. A packet with another lap starts a
refetch series and takes nothing. LAP_REFETCH does the same within a series, and its eighth failure parks the ring
with STALE_SLOT and code 0x70. (h1 and h2 are the states the reads leave: reading ring memory may correct errors.)
(the model's reading of R37, R38, R39, R41, R48, R54, R55, R243) -/
def Obligations.FetchTakesPacketsInOrder : Prop :=
  ∀ (n : RingId) (s : State) (head : List Byte) (k : Nat) (h0 h1 : Hw),
    let again := (ringAux s.hw n.val).mismatch
    let fetch : Instr := if again then .lapRefetch n else .packetFetch n
    mayFetch s.hw n.val = true → (again = false → fetchable s.hw n.val = true ∧ fetchTurnOf s.hw n.val = true) →
    h0 = (if again then s.hw else { s.hw with fetchTurn := smPut s.hw.fetchTurn (prioMax s.hw n.val) n.val }) →
    readSlot h0 n.val (packetAt s.hw n.val) 64 = ((some head, k), h1) →
    (hLap head = (ringAux h1 n.val).lap →
      ∀ g, g = (if again then setRingAux h1 n.val { ringAux h1 n.val with mismatch := false, refetches := 0 } else h1) →
      ∀ slot p k2 h2, pickSlot g n.val = some slot → cqClosed g (cqOf g n.val head) = false →
        (hOpcode head = 0x14 → hTask head = 0 ∨ g.streams.length < 256) →
        readSlot g n.val (packetAt g n.val) (64 * (1 + hLen head)) = ((some p, k2), h2) →
        let h3 := advanceSq h2 n.val
        let c := applyVerdict (newCmd h3 n.val p) (verdictOf h3 n.val p)
        let h4 := { h3 with nextOrder := h3.nextOrder + 1 }
        effect fetch s (enterCmd h4 slot n.val (packetAt h2 n.val) c) ∧
        sqCons h3 n.val = sqCons h2 n.val + 1 ∧ h3.mem = h2.mem ∧ h3.slots = h2.slots ∧
        (hOpcode p ≠ 0x14 → hTask p = 0 → enterCmd h4 slot n.val (packetAt h2 n.val) c = setCmd h4 slot c) ∧
        (hOpcode p = 0x14 → hTask p ≠ 0 → (∀ t ∈ h3.streams, t.task ≠ hTask p) → c.refused = false →
          ∃ t, enterCmd h4 slot n.val (packetAt h2 n.val) c = { setCmd h4 slot c with streams := h3.streams ++ [t] } ∧
            t.task = hTask p ∧ t.slot = slot ∧ t.members = stMembers p ∧ t.fetched = [] ∧ t.replays = 0 ∧
            t.fault = none)) ∧
    (hLap head ≠ (ringAux h1 n.val).lap →
      ∃ h', effect fetch s h' ∧ h'.slots = h1.slots ∧ sqCons h' n.val = sqCons h1 n.val ∧
        (again = false → (ringAux h' n.val).mismatch = true ∧ (ringAux h' n.val).refetches = 0) ∧
        (again = true → (ringAux h1 n.val).refetches < 7 →
          (ringAux h' n.val).refetches = (ringAux h1 n.val).refetches + 1) ∧
        (again = true → 7 ≤ (ringAux h1 n.val).refetches →
          ringParked h' n.val = true ∧ regBit h' (rRingStatus n.val) 6 = true ∧
          regFld h' (rRingStatus n.val) 31 24 = 0x70 ∧ (ringAux h' n.val).mismatch = false))

/-- DISPATCH of a waiting command whose ring order, fences, waits and class limits are met fixes what it comes after
(R46) and, unless it was dispatched before, its step and step key. Where a wait names a counter in error it ends
ABORTED with DETAIL0 bit 1 and the counter in bits 25:16; else where a work count is zero it ends DONE_EMPTY; else,
where a tile of its mask still serves, a non-secure collective on a secure map ends BAD_WORLD, and every other command
runs. Where they are not met nothing happens. (the model's reading of R42, R43, R44, R45, R46, R49, R90, R106, R308)
-/
def Obligations.DispatchStartsTheCommand : Prop :=
  ∀ (slot : SlotId) (s : State) (c : Cmd), cmdAt s.hw slot.val = some c →
    let g := learn s.hw c
    let d := stampStep g c
    let h1 := setCmd g slot.val d
    let secureMap := c.cls = 7 ∧ c.world = .nonSecure ∧ mapSecure s.hw (mapActive s.hw) = true
    d.packet = c.packet ∧ d.doneUnits = c.doneUnits ∧
    (c.key = [] → d.step = BitVec.ofNat 64 (stepNum s.hw) ∧ d.key = s.hw.train.stepKey ∧ d.inStep = stepOpen s.hw) ∧
    (c.key ≠ [] → d = { c with knows := ringKnows g c.ring.val }) ∧
    (mayDispatch s.hw slot.val c = false → effect (.dispatch slot) s s.hw) ∧
    (mayDispatch s.hw slot.val c = true →
      (∀ k, waitInError s.hw c.packet = some k →
        ∃ h', effect (.dispatch slot) s h' ∧ endsOnly h1 h' slot.val d 3 (2 + k * 2 ^ 16) 0) ∧
      (waitInError s.hw c.packet = none → c.empty = true → taskOf s.hw slot.val = none →
        ∃ h', effect (.dispatch slot) s h' ∧ endsOnly h1 h' slot.val d 1 0 0) ∧
      (waitInError s.hw c.packet = none → c.empty = false →
        ((maskOff c.opcode).isSome = false ∨ ∃ t ∈ c.mask, tileOut s.hw t = false) →
        (secureMap → ∃ h', effect (.dispatch slot) s h' ∧ endsOnly h1 h' slot.val d 0x13 0 0) ∧
        (¬ secureMap → ∃ h' c', effect (.dispatch slot) s h' ∧ cmdAt h' slot.val = some c' ∧ c'.phase = .running ∧
          c'.packet = c.packet ∧ c'.doneUnits = c.doneUnits ∧ c'.step = d.step ∧ c'.key = d.key ∧
          c'.inStep = d.inStep ∧ h'.mem = s.hw.mem)))

/-- FINAL_RECORD of a finished command outside a live task, after its fence actions, frees its slot where its
completion ring takes the record, where no record became ready before it. With room in a completion ring in host
memory it does: the record stands at the next index, CQ_PROD goes up by one, and a command that signals sets its
counter or adds to it. Where the ring takes no record the command stays, finished, with its record due. A command that
is not finished, or belongs to a live task, writes none. (the model's reading of R44, R48, R50, R51, R53, R54, R381)
-/
def Obligations.FinalRecordFreesTheSlot : Prop :=
  ∀ (slot : SlotId) (s : State) (c : Cmd), cmdAt s.hw slot.val = some c →
    let h1 := fencedHw s.hw slot.val c
    let c1 := (cmdAt h1 slot.val).getD c
    let record := recordBytes h1 c.target c1 true c.status.toNat c.detail0 c.detail1
    (c.phase = .finished → taskOf s.hw slot.val = none → (working s.hw || s.hw.sec.halted) = true →
      (s.hw.due = [] ∨ s.hw.due = [DueRecord.mk slot.val none]) →
      c1.packet = c.packet ∧ c1.status = c.status ∧ c1.target = c.target ∧
      ((postRecord h1 c.target record).1 = true →
        ∃ h', effect (.finalRecord slot) s h' ∧ cmdAt h' slot.val = none) ∧
      (roomFor s.hw c.target 1 → ∃ h', effect (.finalRecord slot) s h' ∧ cmdAt h' slot.val = none ∧
        (s.hw.host.winQueue = [] →
          cqProd h' c.target = cqProd s.hw c.target + 1 ∧
          (∀ i < record.length,
            h'.mem.read .host (cqBase s.hw c.target + (cqProd s.hw c.target).toNat % cqSize s.hw c.target * 32 + i) =
              record.getD i 0) ∧
          (hSignal c.packet = true → c.silent = false → getReg h' (rCtr (hSigCtr c.packet)) =
            (if hSigMode c.packet = true then hSigVal c.packet
             else getReg s.hw (rCtr (hSigCtr c.packet)) + hSigVal c.packet)))) ∧
      (cqClosed h1 c.target = true → effect (.finalRecord slot) s { h1 with due := [DueRecord.mk slot.val none] } ∧
        cmdAt h1 slot.val = some c1 ∧ c1.phase = .finished)) ∧
    ((c.phase ≠ .finished ∨ (taskOf s.hw slot.val).isSome = true) → effect (.finalRecord slot) s s.hw)

/-- Where a ready command of a higher class needs what a running command holds, PREEMPTION runs the command to its
pre-emption point and, with units left and its progress saved, suspends it: it holds no tile and keeps its progress,
and owes its SUSPENDED record where its completion ring has no room. A pawn command, and one that is not yet at its
units, is suspended where it stands. RESUME of a suspended command with no fault outstanding, outside a live task,
with no command before it that waits for its pawns, and with a tile of its mask that is free for it where it holds
tiles, or a DMA engine where it moves data, makes it run again with its progress. (the model's reading of R51, R55,
R56, R57, R86, R363) -/
def Obligations.PreemptionAndResumption : Prop :=
  ∀ (slot : SlotId) (s : State) (c : Cmd), cmdAt s.hw slot.val = some c →
    (∀ (units : Nat) (by_ : SlotId) (b : Cmd), cmdAt s.hw by_.val = some b →
      working s.hw = true → slot ≠ by_ → hPrio c.packet < hPrio b.packet → isReady b = true →
      needs s.hw by_.val b slot.val c = true → stoppable s.hw slot.val c = true →
      let stops := fun (c2 : Cmd) => ∃ h' c', effect (.preemption slot units by_) s h' ∧
        cmdAt h' slot.val = some c' ∧ c'.phase = .suspended ∧ c'.tiles = [] ∧ c'.doneUnits = c2.doneUnits ∧
        c'.packet = c2.packet ∧ c'.prePending = true
      (∀ (w : Work) (h1 h2 h3 : Hw) (c2 c3 : Cmd), runOn (workOf slot.val c) s.hw = (.ok (some w), h1) →
        (if toPoint c units = 0 then (none, h1)
          else runSome slot.val w (toPoint c units) c (beginTiles slot.val c h1)) = (none, h2) →
        cmdAt h2 slot.val = some c2 → atPoint c2 = true → c2.doneUnits < w.units → runOn (w.save c2) h2 = (.ok (), h3) →
        cmdAt h3 slot.val = some c3 → stops c3) ∧
      (∀ r h1, runOn (workOf slot.val c) s.hw = (r, h1) → (∀ w, r ≠ .ok (some w)) → stops c)) ∧
    (working s.hw = true → c.phase = .suspended → c.fault = none → taskOf s.hw slot.val = none →
      outranked s.hw slot.val c = false →
      ((maskOff c.opcode).isSome = false ∨ ∃ t ∈ c.mask, tileOut s.hw t = false) →
      (holdsTiles c.opcode = true → ∃ t ∈ c.mask, tileFor s.hw slot.val c t = true) →
      (c.cls = 1 → ∃ t ∈ c.mask, engineFor s.hw slot.val c t = true) →
      ∃ h' c', effect (.resume slot) s h' ∧ cmdAt h' slot.val = some c' ∧ c'.phase = .running ∧
        c'.doneUnits = c.doneUnits ∧ c'.packet = c.packet ∧ h'.mem = s.hw.mem ∧
        (holdsTiles c.opcode = true → c'.tiles ≠ []))

/-! The training step (R267-R293) and epochs (R310-R315) -/

/-- LOSS_SCALE_CHECK, STEP_BEGIN and STEP_END of a ring whose world is not the one TRAIN_CFG.WORLD selects complete as
BAD_WORLD and change nothing but their end. (R267) -/
def Obligations.TrainingBlockWorld : Prop :=
  ∀ (slot : SlotId) (s : State) (c : Cmd) (roots : List (List Byte)),
    (c.world = .secure ↔ regBit s.hw 0x170120 31 = false) →
    (ready s.hw slot.val 0x80 c → ∃ h', effect (.lossScaleCheck slot) s h' ∧ endsOnly s.hw h' slot.val c 0x13 0 0) ∧
    (ready s.hw slot.val 0x81 c → ∃ h', effect (.stepBegin slot) s h' ∧ endsOnly s.hw h' slot.val c 0x13 0 0) ∧
    (ready s.hw slot.val 0x82 c → ∃ h', effect (.stepEnd slot roots) s h' ∧ endsOnly s.hw h' slot.val c 0x13 0 0)

/-- STEP_BEGIN ends BAD_PARAM while a step is open, and one dispatched in an open step also while that step closes;
one dispatched later waits for the close. Otherwise, with no epoch to turn and no scale record to write, it makes
STEP_NUM its STEP and LIVE_EXP the NEXT_EXP clamped to FLOOR_EXP and CEIL_EXP, clears the step's flags and
AGREE_COUNT, leaves the step open, and ends with DETAIL0 = STEP and DETAIL1 = LIVE_EXP; a pending training set that no
epoch holds is live then. With a scale record, its place is checked first and its 16 bytes are written before the end.
(the model's reading of R269, R273, R277, R315) -/
def Obligations.StepBeginOpensTheStep : Prop :=
  ∀ (slot : SlotId) (s : State) (c : Cmd), ready s.hw slot.val 0x81 c → c.world = trainWorld s.hw →
    let step := par c.packet 0 8
    let place := par c.packet 8 8
    (stepOpen s.hw = true → ∃ h', effect (.stepBegin slot) s h' ∧ endsOnly s.hw h' slot.val c 0x11 (2 ^ 62) 0) ∧
    (stepOpen s.hw = false → stepClosing s.hw = true →
      (c.inStep = true → ∃ h', effect (.stepBegin slot) s h' ∧ endsOnly s.hw h' slot.val c 0x11 (2 ^ 62) 0) ∧
      (c.inStep = false → effect (.stepBegin slot) s s.hw)) ∧
    (stepOpen s.hw = false → stepClosing s.hw = false →
      (epochArmed s.hw = false ∨ step < getReg64 s.hw 0x504010) →
      (place = 0 → ∃ h', effect (.stepBegin slot) s h' ∧ ended h' slot.val 0 step (enc2 64 (liveExp h')) ∧
        stepOpen h' = true ∧ stepNum h' = step ∧
        liveExp h' = max (floorExp h') (min (ceilExp h') (nextExp h')) ∧
        (∀ b ∈ [2, 3, 4, 5, 6], regBit h' rTrainStatus b = false) ∧ getReg h' 0x170014 = 0 ∧
        h'.train.updateSeen = false ∧ h'.mem = s.hw.mem ∧
        (s.hw.train.pendingSet = none → stepClosing h' = false ∧ nextExp h' = nextExp s.hw ∧
          floorExp h' = floorExp s.hw ∧ ceilExp h' = ceilExp s.hw) ∧
        (epochArmed s.hw = false → s.hw.fabric.heldTrain = false → h'.train.pendingSet = none)) ∧
      (place ≠ 0 → ∀ h1 h2 h3 c3, runOn (mayWrite (whoOf slot.val c) place 16) s.hw = (.ok (), h1) →
        h2 = openStep (if epochArmed h1 = true ∨ h1.fabric.heldTrain = true then h1 else applyTraining h1) step →
        epochArmed h1 = epochArmed s.hw → getReg64 h1 0x504010 = getReg64 s.hw 0x504010 →
        runOn (wr (whoOf slot.val c) place (scaleRecord (liveExp h2))) h2 = (.ok (), h3) →
        cmdAt h3 slot.val = some c3 → stepOpen h2 = true ∧ stepNum h2 = step ∧
        effect (.stepBegin slot) s (finish h3 slot.val 0 step (enc2 64 (liveExp h2))) ∧
        ended (finish h3 slot.val 0 step (enc2 64 (liveExp h2))) slot.val 0 step (enc2 64 (liveExp h2))))

/-- STEP_BEGIN of a closed step whose STEP is at least the AT_STEP of an armed epoch waits while a collective lives;
otherwise it disarms the epoch, leaves nothing pending, makes EPOCH the armed one where no pending set was to be
applied, and opens the step. (the model's reading of R315, R314) -/
def Obligations.EpochTurnsAtStepBegin : Prop :=
  ∀ (slot : SlotId) (s : State) (c : Cmd), ready s.hw slot.val 0x81 c → c.world = trainWorld s.hw →
    stepOpen s.hw = false → stepClosing s.hw = false → par c.packet 8 8 = 0 → epochArmed s.hw = true →
    getReg64 s.hw 0x504010 ≤ par c.packet 0 8 →
    (classLive s.hw 7 = true → effect (.stepBegin slot) s s.hw) ∧
    (classLive s.hw 7 = false →
      ∃ h', effect (.stepBegin slot) s h' ∧ epochArmed h' = false ∧ stepOpen h' = true ∧
        stepNum h' = par c.packet 0 8 ∧ h'.train.pendingSet = none ∧ h'.fabric.pendingMaps = [] ∧
        h'.fabric.pendingCfg = none ∧
        (s.hw.train.pendingSet = none → s.hw.fabric.pendingMaps = [] → s.hw.fabric.pendingCfg = none →
          getReg h' rEpoch = getReg s.hw 0x50400C))

/-- A STEP_END that closes its step stays while a command of the step still owes its record; then, with no audit due
or after one that lets it go on, it ends with DETAIL0 = STEP_NUM and DETAIL1 of the flags and exponents; an audit
whose group has no member is SKIPPED, one whose gather is under way holds it, and one that a divergence holds waits
for the refresh (log 27). A STEP_END that found no open step, or another STEP, ends BAD_PARAM. The final record of the
first kind ends the closing state. (the model's reading of R270, R345, R346) -/
def Obligations.StepEndClosesTheStep : Prop :=
  ∀ (slot : SlotId) (s : State) (c : Cmd) (roots : List (List Byte)), ready s.hw slot.val 0x82 c →
    c.world = trainWorld s.hw →
    let detail1 := fun (h : Hw) => (stepSkip h).toNat + 2 * (regBit h rTrainStatus 2).toNat +
      4 * (regBit h rTrainStatus 3).toNat + enc2 8 (liveExp h) * 2 ^ 8 + enc2 8 (nextExp h) * 2 ^ 16
    (c.priv = [1] → drained s.hw slot.val = false → effect (.stepEnd slot roots) s s.hw) ∧
    (c.priv = [1] → drained s.hw slot.val = true →
      (auditDue s.hw = false →
        ∃ h', effect (.stepEnd slot roots) s h' ∧ endsOnly s.hw h' slot.val c 0 (stepNum s.hw) (detail1 s.hw)) ∧
      (auditDue s.hw = true → (auditGroup s.hw).size = 0 →
        ∃ h', effect (.stepEnd slot roots) s h' ∧ ended h' slot.val 0 (stepNum s.hw) (detail1 s.hw) ∧
          getReg h' 0x600020 = 2 ∧ h'.mem = s.hw.mem) ∧
      (∀ h1 c1, auditDue s.hw = true → audit slot.val roots s.hw = (true, h1) → cmdAt h1 slot.val = some c1 →
        effect (.stepEnd slot roots) s (finish h1 slot.val 0 (stepNum h1) (detail1 h1)) ∧
        ended (finish h1 slot.val 0 (stepNum h1) (detail1 h1)) slot.val 0 (stepNum h1) (detail1 h1)) ∧
      (∀ h1 c1, auditDue s.hw = true → audit slot.val roots s.hw = (false, h1) → cmdAt h1 slot.val = some c1 →
        (regBit h1 0x600000 2 = true → effect (.stepEnd slot roots) s (setCmd h1 slot.val { c1 with priv := [2] })) ∧
        (regBit h1 0x600000 2 = false → effect (.stepEnd slot roots) s h1))) ∧
    (c.priv = [2] → regBit s.hw 0x600000 2 = true → effect (.stepEnd slot roots) s s.hw) ∧
    (c.priv = [2] → regBit s.hw 0x600000 2 = false →
      ∃ h', effect (.stepEnd slot roots) s h' ∧ endsOnly s.hw h' slot.val c 0 (stepNum s.hw) (detail1 s.hw)) ∧
    (c.priv ≠ [] → c.priv ≠ [1] → c.priv ≠ [2] →
      ∃ h', effect (.stepEnd slot roots) s h' ∧ endsOnly s.hw h' slot.val c 0x11 (2 ^ 62) 0) ∧
    (∀ h (d : Cmd), d.opcode = 0x82 → d.status = 0 → d.refused = false →
      stepClosing (closesStep h d) = false ∧ stepOpen (closesStep h d) = false)

/-- LOSS_SCALE_CHECK ends BAD_PARAM where no step is open or one is decided, and OVF_UNAGREED, with nothing decided,
where agreement is asked for and an overflow is uncovered or no sample was taken. Otherwise it decides: on an overflow
NEXT_EXP falls by one down to FLOOR_EXP, SKIP sets, CLEAN_RUN is 0 and SKIPPED_STEPS counts; without one CLEAN_RUN
counts, and at INTERVAL NEXT_EXP rises by one up to CEIL_EXP and CLEAN_RUN is 0 again, else NEXT_EXP is LIVE_EXP.
LIVE_EXP and memory stay. (the model's reading of R279, R280) -/
def Obligations.LossScaleDecision : Prop :=
  ∀ (slot : SlotId) (s : State) (c : Cmd), ready s.hw slot.val 0x80 c → c.world = trainWorld s.hw →
    let h := s.hw
    let agree := regBit h 0x170120 0
    let ovf := if agree = true then regBit h rTrainStatus 3 else regBit h rTrainStatus 2
    let unagreed := agree = true ∧ (regBit h rTrainStatus 4 = true ∨ getReg h 0x170014 = 0)
    let interval := (getReg h 0x170128).toNat % 2 ^ 16
    let run := min (h.train.cleanRun + 1) (2 ^ 32 - 1)
    ((stepOpen h = false ∨ stepDecided h = true) →
      ∃ h', effect (.lossScaleCheck slot) s h' ∧ endsOnly h h' slot.val c 0x11 (2 ^ 62) 0) ∧
    (stepOpen h = true → stepDecided h = false → unagreed →
      ∃ h', effect (.lossScaleCheck slot) s h' ∧ ended h' slot.val 0x52 0 0 ∧ regBit h' rTrainStatus 8 = true ∧
        stepDecided h' = false ∧ nextExp h' = nextExp h ∧ h'.train = h.train ∧ h'.mem = h.mem) ∧
    (stepOpen h = true → stepDecided h = false → ¬ unagreed →
      ∃ h' d0, effect (.lossScaleCheck slot) s h' ∧ ended h' slot.val 0 d0 h'.train.cleanRun ∧
        stepDecided h' = true ∧ liveExp h' = liveExp h ∧ h'.mem = h.mem ∧ d0 % 2 = ovf.toNat ∧
        (ovf = true → nextExp h' = max (liveExp h - 1) (floorExp h) ∧ stepSkip h' = true ∧ h'.train.cleanRun = 0 ∧
          getReg h' 0x170018 = satAdd (getReg h 0x170018) 1) ∧
        (ovf = false → stepSkip h' = stepSkip h ∧ getReg h' 0x170018 = getReg h 0x170018 ∧
          (interval ≠ 0 → interval ≤ run → nextExp h' = min (liveExp h + 1) (ceilExp h) ∧ h'.train.cleanRun = 0) ∧
          ((interval = 0 ∨ run < interval) → nextExp h' = liveExp h ∧ h'.train.cleanRun = run)))

/-- TRAIN_COMMIT of a sound set makes its staged copies the pending set and leaves the live set. MAP_COMMIT of a sound
map and FABRIC_COMMIT under an armed epoch leave the live copies and pend; with none armed the staged copies are live
at once, and the digest is stale. A set that a rule refuses sets REJECT and changes nothing else. (the model's reading
of R293, R310, R315, R328, R475) -/
def Obligations.TrainingAndFabricCommits : Prop :=
  ∀ (w : World) (s : State),
    (acts s.hw w 0x170140 = true →
      (firstCause (trainCauses s.hw w) = none → ∃ h', effect (.trainCommit w) s h' ∧
        h'.train.pendingSet = some ((List.range 7).map fun i => (0x170120 + 4 * i, getReg s.hw (0x170100 + 4 * i))) ∧
        regBit h' rTrainStatus 7 = true ∧ regsKept s.hw h' [rTrainStatus] ∧ h'.mem = s.hw.mem ∧
        h'.slots = s.hw.slots) ∧
      (∀ x, firstCause (trainCauses s.hw w) = some x → ∃ h', effect (.trainCommit w) s h' ∧
        regBit h' 0x170144 31 = true ∧ regFld h' 0x170144 30 28 = x.1 % 8 ∧ onlyRegs s.hw h' [0x170144])) ∧
    (∀ m : MapId, acts s.hw w (regOf (.map m.val) 0xFF0) = true →
      (firstCause (mapCauses s.hw w m.val) = none → epochArmed s.hw = false →
        ∃ h', effect (.mapCommit w m) s h' ∧ h'.fabric.stale = true ∧
          (∀ i < 192, getReg h' (rMap m.val (4 * i)) = getReg s.hw (regOf (.map m.val) (4 * i))) ∧
          regsKept s.hw h' (regOf (.map m.val) 0xFF4 :: (List.range 192).map fun i => rMap m.val (4 * i))) ∧
      (firstCause (mapCauses s.hw w m.val) = none → epochArmed s.hw = true →
        ∃ h', effect (.mapCommit w m) s h' ∧ regsKept s.hw h' [regOf (.map m.val) 0xFF4] ∧
          regBit h' (regOf (.map m.val) 0xFF4) 27 = true ∧
          smFind h'.fabric.pendingMaps m.val =
            some ((List.range 192).map fun i => (rMap m.val (4 * i), getReg s.hw (regOf (.map m.val) (4 * i))))) ∧
      (∀ x, firstCause (mapCauses s.hw w m.val) = some x → ∃ h', effect (.mapCommit w m) s h' ∧
        regBit h' (regOf (.map m.val) 0xFF4) 31 = true ∧ onlyRegs s.hw h' [regOf (.map m.val) 0xFF4])) ∧
    (acts s.hw w 0x504108 = true →
      let v := getReg s.hw 0x504100
      (w = .nonSecure → bit v 31 ≠ fabricSecure s.hw →
        ∃ h', effect (.fabricCommit w) s h' ∧ regBit h' 0x50410C 31 = true ∧ onlyRegs s.hw h' [0x50410C]) ∧
      ((w = .secure ∨ bit v 31 = fabricSecure s.hw) →
        (epochArmed s.hw = true → ∃ h', effect (.fabricCommit w) s h' ∧ h'.fabric.pendingCfg = some v ∧
          regsKept s.hw h' [0x50410C]) ∧
        (epochArmed s.hw = false → ∃ h', effect (.fabricCommit w) s h' ∧ getReg h' 0x504104 = v ∧
          h'.fabric.stale = true ∧ regsKept s.hw h' [0x504104, 0x50410C])))

/-- MAP_SELECT stays while a collective lives; then it ends BAD_PARAM for an invalid map, LINK_LOST with the lowest
port of the map that is not UP, and otherwise makes its map MAP_ACTIVE and ends DONE, changing no other register.
COMMIT_EPOCH ends BAD_PARAM where an epoch is armed, where its epoch is the current one or where AT_STEP is not above
STEP_NUM, and otherwise arms: EPOCH_ARM and EPOCH_STEP hold its values, which its DETAIL words give. DISARM of an
armed epoch disarms it, and a pending training set waits for the next epoch. While the package works, a stale position
digest whose setups no collective holds back becomes the first 64 bytes of SHAKE256 of the byte string of Table 12-7,
in its sixteen registers, and is stale no more; a digest that is not stale stays. (the model's reading of R311, R312,
R314, Table 12-7) -/
def Obligations.MapsEpochsAndTheDigest : Prop :=
  (∀ (slot : SlotId) (s : State) (c : Cmd) (w : World),
      (ready s.hw slot.val 0x04 c →
        let m := parBits c.packet 0 1 0
        (classLive s.hw 7 = true → effect (.mapSelect slot) s s.hw) ∧
        (classLive s.hw 7 = false → mapValid s.hw m = false →
          ∃ h', effect (.mapSelect slot) s h' ∧ endsOnly s.hw h' slot.val c 0x11 (2 ^ 62) 0) ∧
        (classLive s.hw 7 = false → mapValid s.hw m = true → ∀ q ∈ mapPorts s.hw m, portUp s.hw q = false →
          (∀ p ∈ mapPorts s.hw m, portUp s.hw p = false → q ≤ p) →
          ∃ h', effect (.mapSelect slot) s h' ∧ endsOnly s.hw h' slot.val c 0x40 q 0) ∧
        (classLive s.hw 7 = false → mapValid s.hw m = true → (∀ q ∈ mapPorts s.hw m, portUp s.hw q = true) →
          ∃ h', effect (.mapSelect slot) s h' ∧ ended h' slot.val 0 0 0 ∧ mapActive h' = m ∧
            regsKept s.hw h' (0x504004 :: tileStatuses c.tiles) ∧ h'.mem = s.hw.mem)) ∧
      (ready s.hw slot.val 0x05 c →
        let e : Word := BitVec.ofNat 32 (par c.packet 8 4)
        let step := par c.packet 0 8
        ((epochArmed s.hw = true ∨ e = getReg s.hw rEpoch ∨ step ≤ stepNum s.hw) →
          ∃ h', effect (.commitEpoch slot) s h' ∧ endsOnly s.hw h' slot.val c 0x11 (2 ^ 62) 0) ∧
        (epochArmed s.hw = false → e ≠ getReg s.hw rEpoch → stepNum s.hw < step →
          ∃ h', effect (.commitEpoch slot) s h' ∧ ended h' slot.val 0 e.toNat step ∧ epochArmed h' = true ∧
            getReg h' 0x50400C = e ∧ getReg64 h' 0x504010 = step ∧ getReg h' rEpoch = getReg s.hw rEpoch ∧
            h'.mem = s.hw.mem)) ∧
      (acts s.hw w rEpochCtrl = true → epochArmed s.hw = true →
        ∃ h', effect (.disarm w) s h' ∧ epochArmed h' = false ∧ h'.train = s.hw.train ∧
          h'.fabric.heldTrain = s.hw.train.pendingSet.isSome ∧ h'.fabric.pendingMaps = s.hw.fabric.pendingMaps ∧
          regsKept s.hw h' [rEpochCtrl, 0x50400C, 0x504010, 0x504014])) ∧
  (∀ s : State,
      (s.hw.fabric.stale = false → effect .digestRecompute s s.hw) ∧
      (s.hw.fabric.stale = true → working s.hw = true → (∀ x ∈ s.hw.colls, x.setupSent = true) →
        ∃ h', effect .digestRecompute s h' ∧ h'.fabric.stale = false ∧
          (∀ i < 16, getReg h' (0x504020 + 4 * i) =
            BitVec.ofNat 32 (leAt (shake256 (digestInput s.hw) 64) (4 * i) 4)) ∧
          regsKept s.hw h' (((List.range 16).map fun i => 0x504020 + 4 * i) ++ (List.range 12).map fun q => rPort q 0) ∧
          h'.mem = s.hw.mem ∧ h'.slots = s.hw.slots))

/-- A new UPDATE with SKIP_ON_OVF ends BAD_PARAM where DECIDED is 0 in an open step or the step is closed, and
NUMERIC_OVERFLOW_SKIPPED where SKIP is 1, with no memory changed by either; otherwise, and always without SKIP_ON_OVF,
it runs its segments. (New: its segments are not read yet, log 81.) (R287) -/
def Obligations.UpdateSkipsOnOverflow : Prop :=
  ∀ (slot : SlotId) (s : State) (c : Cmd), ready s.hw slot.val 0x61 c →
    let skipOnOvf := (hOpflags c.packet).testBit 1
    let new := c.segs = none ∧ c.outRanges = [] ∧ c.buffer = []
    (skipOnOvf = true → new →
      ((stepOpen s.hw = true ∧ stepDecided s.hw = false) ∨ (stepOpen s.hw = false ∧ stepClosing s.hw = false)) →
      ∃ h', effect (.update slot) s h' ∧ endsOnly s.hw h' slot.val c 0x11 (2 ^ 62) 0) ∧
    (skipOnOvf = true → new → (stepOpen s.hw = true ∨ stepClosing s.hw = true) → stepDecided s.hw = true →
      stepSkip s.hw = true → ∃ h', effect (.update slot) s h' ∧ endsOnly s.hw h' slot.val c 0x50 0 0) ∧
    ((skipOnOvf = false ∨ c.segs.isSome = true ∨
        (stepOpen s.hw = true ∨ stepClosing s.hw = true) ∧ stepDecided s.hw = true ∧ stepSkip s.hw = false) →
      ∀ st d0 d1 h', pawnEnds slot.val (updateJob slot.val c) c s.hw st d0 d1 h' →
        effect (.update slot) s h' ∧ ended h' slot.val st d0 d1)

/-! Translation (R350-R368, R499) -/

/-- MAP and UNMAP whose checks pass and whose entries are written, and INVAL, end DONE when no other command of their
world pins a page of their range, MAP with the bytes of table area used. While one does they wait, and a MAP or UNMAP
that has written its entries writes nothing again. INVAL leaves no translation of its range in a cache, also while it
waits. INVALS counts each end. No end and no wait changes another byte of memory. (the model's reading of R364, R365,
R366, R360, R356) -/
def Obligations.TranslationCommands : Prop :=
  ∀ (slot : SlotId) (s : State) (c : Cmd),
    let va := par c.packet 0 8
    let bytes := xmPages c.packet * pageBytes (xmPsize c.packet)
    (∀ map : Bool,
      let i : Instr := if map = true then .map slot else .unmap slot
      let op := if map = true then 0xA0 else 0xA1
      let reported := fun (used : Nat) => if map = true then used else 0
      (∀ used h1, ready s.hw slot.val op c → c.priv = [] → runOn (mapWork map c.world c.packet) s.hw = (.ok used, h1) →
        cmdAt h1 slot.val = some c →
        (pinsIn h1 slot.val c.world va bytes = false →
          ∃ h', effect i s h' ∧ ended h' slot.val 0 (reported used) 0 ∧ h'.mem = h1.mem ∧
            getReg h' 0x300010 = satAdd (getReg h1 0x300010) 1) ∧
        (pinsIn h1 slot.val c.world va bytes = true →
          ∃ h', effect i s h' ∧ cmdAt h' slot.val = some { c with priv := [1, used] } ∧ h'.mem = h1.mem)) ∧
      (∀ used, ready s.hw slot.val op c → c.priv = [1, used] →
        (pinsIn s.hw slot.val c.world va bytes = false →
          ∃ h', effect i s h' ∧ ended h' slot.val 0 (reported used) 0 ∧ h'.mem = s.hw.mem ∧
            getReg h' 0x300010 = satAdd (getReg s.hw 0x300010) 1) ∧
        (pinsIn s.hw slot.val c.world va bytes = true → effect i s s.hw))) ∧
    (ready s.hw slot.val 0xA2 c →
      let n := par c.packet 8 8
      let h1 := dropXlate s.hw (regimeOf c.world) va n
      (∀ e ∈ h1.xlate.caches, ∀ x ∈ e.2.entries, x.regime = regimeOf c.world →
        (x.page + 1) * 2 ^ levelShift x.level ≤ va ∨ va + n ≤ x.page * 2 ^ levelShift x.level) ∧
      h1.mem = s.hw.mem ∧ h1.slots = s.hw.slots ∧
      (pinsIn s.hw slot.val c.world va n = false →
        ∃ h', effect (.inval slot) s h' ∧ ended h' slot.val 0 0 0 ∧ h'.mem = s.hw.mem ∧ h'.xlate = h1.xlate ∧
          getReg h' 0x300010 = satAdd (getReg s.hw 0x300010) 1 ∧
          regsKept s.hw h' (0x300010 :: tileStatuses c.tiles)) ∧
      (pinsIn s.hw slot.val c.world va n = true → effect (.inval slot) s h1))

/-- A fault at an address that translates changes nothing. One that no demand region admits ends a command outside a
task and a collective as XLATE_FAULT, with the address and the units written. A not-present fault in a ZERO region
suspends a command of a class that suspends, with the fault outstanding and its progress kept; its SUSPENDED record
waits where its completion ring has no room. A command suspended for pre-emption alone takes the fault the same way,
and stays suspended. (the model's reading of R57, R354, R357, R358, R359, R363) -/
def Obligations.TranslationFaultsByClass : Prop :=
  ∀ (slot : SlotId) (va : Quad) (write : Bool) (s : State) (c : Cmd), cmdAt s.hw slot.val = some c →
    (active s.hw slot.val c.opcode = some c ∨ lateFault s.hw slot.val c = true) → s.hw.colls = [] →
    let acc := if write = true then Acc.wr else Acc.rd
    (∀ t pa h1, translate s.hw (whoOf slot.val c) va.toNat acc = (.ok t pa, h1) →
      effect (.translationFault slot va write) s s.hw) ∧
    (∀ h1, translate s.hw (whoOf slot.val c) va.toNat acc = (.permission, h1) → taskOf s.hw slot.val = none →
      ∃ h', effect (.translationFault slot va write) s h' ∧ ended h' slot.val 0x20 va.toNat c.written) ∧
    (∀ l h1 h2 d, translate s.hw (whoOf slot.val c) va.toNat acc = (.notPresent l, h1) → taskOf s.hw slot.val = none →
      demandOf (countTileFault h1 c) (regimeOf c.world) va.toNat acc = (.region d, h2) → d.report = false →
      faultRule c.opcode = .suspends →
      ∃ h' c', effect (.translationFault slot va write) s h' ∧ cmdAt h' slot.val = some c' ∧ c'.phase = .suspended ∧
        c'.fault = some { va := va.toNat, write := write, region := d.index, report := false, id := 0 } ∧
        c'.doneUnits = c.doneUnits ∧ c'.packet = c.packet ∧ c'.prePending = c.prePending ∧
        (c.phase ≠ .suspended → c'.tiles = [] ∧ c'.firstCause = 0x20))

/-- Where the pool of a ZERO region gives a frame for an outstanding fault, or the page is there already,
ZERO_RESOLUTION clears the fault and DEMAND_MAPS counts it. XLATE_RESOLVE of the FAULT_ID of an outstanding record
that one command waits on does the same where the address now has a leaf; one of a FAULT_ID with no outstanding record
has no effect. No other command changes. (the model's reading of R358, R363, R499) -/
def Obligations.FaultsAreResolved : Prop :=
  ∀ (slot : SlotId) (s : State) (c : Cmd) (pf : PendingFault), cmdAt s.hw slot.val = some c → c.fault = some pf →
    (pf.report = false → ∀ h1 a, zeroResolve s.hw (regimeOf c.world) pf = (a, h1) → (a = .mapped ∨ a = .already) →
      cmdAt h1 slot.val = some c →
      ∃ h', effect (.zeroResolution slot) s h' ∧ cmdAt h' slot.val = some { c with fault := none } ∧
        getReg h' rDemandMaps = satAdd (getReg h1 rDemandMaps) 1 ∧ h'.mem = h1.mem ∧
        (∀ k, k ≠ slot.val → cmdAt h' k = cmdAt h1 k)) ∧
    (∀ (w : World) (r : RegimeId), acts s.hw w (regOf (.regime r.val) 0x50) = true →
      (∀ l a e h1, pf.report = true → pf.unposted = false → regimeOf c.world = r.val →
        (∀ k d f, k ≠ slot.val → cmdAt s.hw k = some d → d.fault = some f → f.id ≠ pf.id) →
        pathTo s.hw r.val pf.va = (.leaf l a e, h1) → cmdAt h1 slot.val = some c →
        ∃ h', effect (.xlateResolve w r pf.id) s h' ∧ cmdAt h' slot.val = some { c with fault := none } ∧
          getReg h' rDemandMaps = satAdd (getReg h1 rDemandMaps) 1 ∧ h'.mem = h1.mem) ∧
      (∀ id, (∀ k d f, (k, d) ∈ s.hw.slots → d.fault = some f → f.id ≠ id) →
        effect (.xlateResolve w r id) s s.hw))

/-- STREAM_TASK_END of a task whose members have all been fetched and whose commands have all finished writes their
records in order: once none of its commands is left the task is gone, and with room for all of them in completion
rings in host memory, where no other record is due, it goes at once and frees their slots. Before, nothing happens.
STREAM_TASK_FAULT of a replayable fault below REPLAY_MAX whose cause is cleared counts a replay and makes the commands
of the task that were not refused wait again from their first unit. Any other fault ends each of them as STREAM_ABORT,
with the original status and the replays in DETAIL0. (the model's reading of R244, R245, R246, R248) -/
def Obligations.StreamTasksEndWhole : Prop :=
  ∀ (task : BitVec 16) (s : State) (t : Stream), s.hw.streams.find? (fun x => x.task = task.toNat) = some t →
    let all := (t.slot :: t.fetched).filter (· ≠ noSlot)
    ((∀ x ∈ s.hw.streams, x.task = task.toNat → x = t) → all ≠ [] → (∀ k ∈ all, (cmdAt s.hw k).isSome = true) →
      (working s.hw || s.hw.sec.halted) = true → taskOver s.hw t = true →
      (∃ h', effect (.streamTaskEnd task) s h' ∧
        ((∀ k ∈ all, cmdAt h' k = none) → ∀ x ∈ h'.streams, x.task ≠ task.toNat)) ∧
      (s.hw.host.winQueue = [] → s.hw.due = [] →
        (∀ k ∈ all, ∀ c, cmdAt s.hw k = some c → roomFor s.hw c.target (1 + t.fetched.length)) →
        ∃ h', effect (.streamTaskEnd task) s h' ∧ (∀ x ∈ h'.streams, x.task ≠ task.toNat) ∧
          ∀ k ∈ all, cmdAt h' k = none)) ∧
    (taskOver s.hw t = false → effect (.streamTaskEnd task) s s.hw) ∧
    (∀ (slot : SlotId) (f : StreamFault) (c : Cmd), t.fault = some f → f.slot = slot.val → working s.hw = true →
      cmdAt s.hw slot.val = some c → c.refused = false → slot.val ∈ t.slot :: t.fetched →
      (f.replayable = true → t.replays < replayMax s.hw t.ring.val → c.fault = none →
        ∃ h' c' t', effect (.streamTaskFault task slot) s h' ∧ cmdAt h' slot.val = some c' ∧ c'.phase = .waiting ∧
          c'.doneUnits = 0 ∧ c'.packet = c.packet ∧ t' ∈ h'.streams ∧ t'.task = task.toNat ∧
          t'.replays = t.replays + 1 ∧ t'.fault = none ∧ t'.checked = false) ∧
      (f.replayable = true → t.replays < replayMax s.hw t.ring.val → c.fault ≠ none →
        effect (.streamTaskFault task slot) s s.hw) ∧
      ((f.replayable = false ∨ replayMax s.hw t.ring.val ≤ t.replays) →
        ∃ h' t', effect (.streamTaskFault task slot) s h' ∧
          ended h' slot.val 0x21 (f.status + t.replays * 256) f.detail0 ∧ t' ∈ h'.streams ∧
          t'.task = task.toNat ∧ t'.fault = none ∧ t'.abort.isSome = true))

/-- With the regime of its world disabled, or at an address of 2^48 or above, every access of an agent that pins
nothing is a permission fault and changes nothing. A walk changes no byte of memory and no command. (the model's
reading of R350, R352, R354, R499) -/
def Obligations.DisabledRegimeRefuses : Prop :=
  ∀ (h : Hw) (who : Who) (va : Nat) (acc : Acc),
    ((regimeEnabled h (regimeOf who.world) = false ∨ 2 ^ 48 ≤ va) → walk h who va acc = (.permission, h)) ∧
    (walk h who va acc).2.mem = h.mem ∧ (walk h who va acc).2.slots = h.slots ∧
    (∀ t pa, (walk h who va acc).1 = .ok t pa → regimeEnabled h (regimeOf who.world) = true ∧ va < 2 ^ 48) ∧
    (pinned h who va = none → translate h who va acc = walk h who va acc)

/-! Registers of the units: counters, linked sets, tiles and stacks -/

/-- CLR_COUNTERS of a tile, its vector engine, its DMA engine, its translation cache, a stack, its pawns, the notation
block, the host block and link control makes the counters that its table names read 0 and changes no other register,
no memory, no command and no ring. (the model's reading of R89, R142, R197, R225, R250, R368, R384, R343, R422) -/
def Obligations.CountersClear : Prop :=
  ∀ (w : World) (t : TileId) (k : StackId),
    clears (.tileClrCounters w t) w (regOf (.tile t.val) 8) ((List.range 16).map fun i => regOf (.tile t.val) (0x100 + 4 * i)) ∧
    clears (.veClrCounters w t) w (regOf (.tile t.val) 0x100C) ([0x1010, 0x1014, 0x1018].map (regOf (.tile t.val))) ∧
    clears (.dmaClrCounters w t) w (regOf (.tile t.val) 0x200C)
      ([0x2010, 0x2014, 0x2018, 0x201C].map (regOf (.tile t.val))) ∧
    clears (.tcClrCounters w t) w (regOf (.tile t.val) 0x3004) ([0x3008, 0x300C, 0x3010].map (regOf (.tile t.val))) ∧
    clears (.stackClrCounters w k) w (regOf (.stack k.val) 8) ([0x10, 0x14, 0x34, 0x38].map (regOf (.stack k.val))) ∧
    clears (.pawnClrCounters w k) w (regOf (.stack k.val) 0x1000C)
      ([0x10010, 0x10014, 0x10018, 0x1001C].map (regOf (.stack k.val))) ∧
    clears (.noteClrCounters w) w 0x600004 [0x600010, 0x600014, 0x600018] ∧
    clears (.hostClrCounters w) w (rHost 4) ((List.range 7).map fun i => rHost (0x10 + 4 * i)) ∧
    clears (.zlClrCounters w) w (rZl 8) ((List.range 51).flatMap fun l => [rE2e l, rRetry l])

/-- The commits of the window, the peer ranges, the lend windows, a translation regime, the error block, the notation
block and the calibration registers make every live register of their set its staged copy where no rule is broken, and
change no other register but what is named here: a regime's commit also shows its ENABLE and empties its caches (log
88), and the error commit empties its mirror ring. Where a rule is broken REJECT and the lowest broken rule's CAUSE
are set, with the first item that breaks it where the status register has one, and nothing else changes; the
calibration set has one rule and no CAUSE. MEMMAP_COMMIT on any board does the same for every octet, with the status
in all three boards; the memory of the tiles, the host and the flash stays, as all of HBM does where no octet's MODE
or PAWN changes. (the model's reading of R173, R174, R251, R349, R367, R377, R379, R445, R446, R467, R474, R475) -/
def Obligations.LinkedSetsCommitWhole : Prop :=
  (∀ (w : World) (s : State),
      (acts s.hw w (rHost 0x110) = true →
        (firstCause (windowCauses s.hw) = none → ∃ h', effect (.windowCommit w) s h' ∧
          takesSet s.hw h' (setPairs (rHost 0x100) (rHost 0x108) 2)) ∧
        refuses (.windowCommit w) s s.hw (windowCauses s.hw) (rHost 0x114) 0) ∧
      (acts s.hw w (rHost 0x280) = true →
        (firstCause (peerCauses s.hw) = none → ∃ h', effect (.peerCommit w) s h' ∧
          takesSet s.hw h' (setPairs (rHost 0x200) (rHost 0x240) 16)) ∧
        refuses (.peerCommit w) s s.hw (peerCauses s.hw) (rHost 0x284) 2) ∧
      (acts s.hw w 0x161080 = true →
        (firstCause (lendCauses s.hw w) = none → ∃ h', effect (.lendCommit w) s h' ∧
          takesSet s.hw h' (setPairs 0x161000 0x161040 8)) ∧
        refuses (.lendCommit w) s s.hw (lendCauses s.hw w) 0x161084 3) ∧
      (acts s.hw w 0x600180 = true →
        (firstCause (noteCauses s.hw w) = none → ∃ h', effect (.noteCommit w) s h' ∧
          takesSet s.hw h' (setPairs 0x600100 0x600140 7)) ∧
        refuses (.noteCommit w) s s.hw (noteCauses s.hw w) 0x600184 0) ∧
      (∀ r : RegimeId, acts s.hw w (regOf (.regime r.val) 0x40) = true →
        let pairs := setPairs (regOf (.regime r.val) 0) (regOf (.regime r.val) 0x20) 8
        (firstCause (xlateCauses s.hw r.val) = none → ∃ h', effect (.xlateCommit w r) s h' ∧
          (∀ p ∈ pairs, getReg h' p.2 = getReg s.hw p.1) ∧ regsKept s.hw h' (0x300000 :: pairs.map Prod.snd) ∧
          regBit h' 0x300000 r.val = regimeEnabled h' r.val ∧
          h' = { s.hw with regs := h'.regs, freeRegs := h'.freeRegs, xlate := h'.xlate } ∧
          (∀ e ∈ h'.xlate.caches, ∀ x ∈ e.2.entries, x.regime = r.val →
            2 ^ 48 ≤ x.page * 2 ^ levelShift x.level)) ∧
        refuses (.xlateCommit w r) s s.hw (xlateCauses s.hw r.val) (regOf (.regime r.val) 0x44) 0) ∧
      (acts s.hw w (regOf .err 0xC0) = true →
        let pairs := setPairs (regOf .err 0x80) (regOf .err 0xA0) 4
        (firstCause (errCauses s.hw) = none → ∃ h', effect (.errCommit w) s h' ∧
          (∀ p ∈ pairs, getReg h' p.2 = getReg s.hw p.1) ∧
          regsKept s.hw h' (regOf .err 0xC8 :: regOf .err 0xCC :: pairs.map Prod.snd) ∧
          getReg h' (regOf .err 0xC8) = 0 ∧ getReg h' (regOf .err 0xCC) = 0 ∧ h'.errs.mirrorStopped = false ∧
          h' = { s.hw with regs := h'.regs, freeRegs := h'.freeRegs,
                           errs := { s.hw.errs with mirrorStopped := false } }) ∧
        refuses (.errCommit w) s s.hw (errCauses s.hw) (regOf .err 0xC4) 0) ∧
      (acts s.hw w (rPwr 0x900) = true →
        ((∀ d < 12, regFld s.hw (rPwr (0x200 + 4 * d)) 3 0 ≤ 10) → ∃ h', effect (.calCommit w) s h' ∧
          takesSet s.hw h' (calRegs.map fun p => (rPwr p.1, rPwr p.2))) ∧
        ((∃ d < 12, 10 < regFld s.hw (rPwr (0x200 + 4 * d)) 3 0) → ∃ h', effect (.calCommit w) s h' ∧
          regBit h' rCalStatus 31 = true ∧ regFld h' rCalStatus 30 0 = regFld s.hw rCalStatus 30 0 ∧
          onlyRegs s.hw h' [rCalStatus]))) ∧
  (∀ (w : World) (b : BoardId) (s : State), acts s.hw w (regOf (.board b.val) 0x100) = true →
      (firstCause (memmapCauses s.hw w) = none → ∃ h', effect (.memmapCommit w b) s h' ∧
        (∀ n < 288, getReg h' (mmLive n) = getReg s.hw (mmStg n)) ∧
        regsKept s.hw h' ((List.range 288).map mmLive) ∧
        (∀ sp a, sp ≠ .hbm → h'.mem.read sp a = s.hw.mem.read sp a) ∧
        ((∀ n < 288, fld (getReg s.hw (mmStg n)) 2 0 = fld (getReg s.hw (mmLive n)) 2 0) → h'.mem = s.hw.mem) ∧
        h'.slots = s.hw.slots) ∧
      (∀ x, firstCause (memmapCauses s.hw w) = some x → ∃ h', effect (.memmapCommit w b) s h' ∧
        (∀ k < 3, regBit h' (regOf (.board k) 0x104) 31 = true ∧ regFld h' (regOf (.board k) 0x104) 30 28 = x.1 % 8 ∧
          regFld h' (regOf (.board k) 0x104) 24 16 = x.2 % 512) ∧
        onlyRegs s.hw h' ((List.range 3).map fun k => regOf (.board k) 0x104)))

/-- TILE_RESET of a tile that is not busy and serves zeroes its store, its array buffers, accumulators and queue and
its translation cache, returns every register of its block but TILE_STATUS to its reset value, and leaves it in reset
and not ready, or out of service where it was; its DMA engine's open requests are dropped, and the units of movement
that it served are served by another. Of a busy tile it sets RESET_REFUSED and nothing else. When the reset completes
the tile is ready again. Other tiles' stores and every other memory stay. (the model's reading of R89, R90, R233,
R250, R416) -/
def Obligations.TileResets : Prop :=
  ∀ (w : World) (t : TileId) (s : State),
    (acts s.hw w (regOf (.tile t.val) 8) = true →
      (tileBusy s.hw t.val = true → ∃ h', effect (.tileReset w t) s h' ∧
        regBit h' (regOf (.tile t.val) 4) 4 = true ∧ onlyRegs s.hw h' [regOf (.tile t.val) 4]) ∧
      (tileBusy s.hw t.val = false → ∃ h', effect (.tileReset w t) s h' ∧
        tileInReset h' t.val = !tileOut s.hw t.val ∧ tileReady h' t.val = false ∧
        (∀ r, 8 ≤ r → r < 0x10000 → getReg h' (regOf (.tile t.val) r) = regReset (regOf (.tile t.val) r)) ∧
        (∀ o, (o < regOf (.tile t.val) 0 ∨ regOf (.tile t.val) 0x10000 ≤ o) → getReg h' o = getReg s.hw o) ∧
        (∀ y < 2 ^ 23, h'.mem.read .tile (tileKey t.val y) = 0) ∧ tileAux h' t.val = TileAux.reset ∧
        (xcache h' t.val).entries = [] ∧
        (∀ sp a, (sp ≠ .tile ∨ a < tileKey t.val 0 ∨ tileKey t.val 0 + 2 ^ 23 ≤ a) →
          h'.mem.read sp a = s.hw.mem.read sp a) ∧
        (∀ q, ∀ r ∈ (portAux h' q).requests, r.tile ≠ t.val ∧ r ∈ (portAux s.hw q).requests) ∧
        (∀ k, cmdAt h' k = (cmdAt s.hw k).map fun c =>
          if c.cls = 1 ∧ (c.serving.any fun x => x.2 = t.val) = true then { c with serving := none } else c))) ∧
    (tileInReset s.hw t.val = true → ∃ h', effect (.tileResetComplete t) s h' ∧ tileInReset h' t.val = false ∧
      tileReady h' t.val = true ∧ onlyRegs s.hw h' [regOf (.tile t.val) 4])

/-- A refresh of a ready stack shows whether it is above 85 °C, and one of pseudo-channel 0 counts modulo 2^20. The
end of a refresh-count window zeroes the tracker. SCRUB_NOW starts a pass at codeword 0; a scrub moves on from a held,
poisoned or error-free codeword, and the last of the stack ends the pass. The oldest write-back corrects its codeword.
ECC_INJECT is written in the secure world only. INVALIDATE_ALL empties its board's cache. No byte of memory changes. A
row of a ready stack that has met three corrected errors and holds no poison leaves the tracker: with a free spare in
its bank it gets a remap entry for that spare, its codewords are correct or, with two errors, poisoned, and remaps
count one more; with none nothing is remapped and REMAP_EXHAUSTED sets. The oldest unsaved entry is saved by writing
the list with its digest to both copies in flash. HBM keeps its bytes. (the model's reading of R168, R179, R181, R182,
R184, R185, R187, R191, Table 7-4) -/
def Obligations.StacksAreKept : Prop :=
  (∀ (w : World) (k : StackId) (s : State),
      let st := regOf (.stack k.val) 4
      let rc := regOf (.stack k.val) 0xC
      let a := stackAux s.hw k.val
      (∀ (pc : Fin 32) (temp : Int), stackReady s.hw k.val = true →
        ∃ h', effect (.refresh k pc temp) s h' ∧ regBit h' rc 20 = decide (85 < temp) ∧ onlyRegs s.hw h' [rc] ∧
          regFld h' rc 19 0 = (if pc = 0 then (regFld s.hw rc 19 0 + 1) % 2 ^ 20 else regFld s.hw rc 19 0)) ∧
      (regFld s.hw rc 19 0 = 0 → ∃ h', effect (.refreshCountWindow k) s h' ∧
        (∀ e ∈ (stackAux h' k.val).tracker, e.2 = 0) ∧
        (stackAux h' k.val).tracker.map Prod.fst = a.tracker.map Prod.fst ∧ h' = { s.hw with stackAux := h'.stackAux }) ∧
      (acts s.hw w (regOf (.stack k.val) 8) = true → stackReady s.hw k.val = true →
        ∃ h', effect (.scrubNow w k) s h' ∧ (stackAux h' k.val).scrubAt = 0 ∧ (stackAux h' k.val).scrubNow = true ∧
          regBit h' st 2 = true ∧ regsKept s.hw h' [st] ∧ h'.mem = s.hw.mem) ∧
      (stackReady s.hw k.val = true → (regFld s.hw (regOf (.stack k.val) 0x2C) 7 0 ≠ 0 ∨ a.scrubNow = true) →
        (heldByOther s.hw (castle .secure) (hbmKey k.val (a.scrubAt * 64)) 64 = true ∨
          isPoison s.hw (cwOf k.val (a.scrubAt * 64)) = true ∨ cwErrs s.hw (cwOf k.val (a.scrubAt * 64)) = []) →
        ∃ h', effect (.scrub k) s h' ∧ (stackAux h' k.val).scrubAt = (a.scrubAt + 1) % stackWords ∧
          regBit h' st 2 = decide ((a.scrubAt + 1) % stackWords ≠ 0) ∧ regsKept s.hw h' [st] ∧ h'.mem = s.hw.mem) ∧
      (∀ cw rest, a.writeBacks = cw :: rest → ∃ h', effect (.correctedWriteBack k) s h' ∧
        (stackAux h' k.val).writeBacks = rest ∧ cwErrs h' cw = [] ∧ (∀ x, x ≠ cw → cwErrs h' x = cwErrs s.hw x) ∧
        h' = { s.hw with stackAux := h'.stackAux, symErrs := h'.symErrs }) ∧
      (∀ v : Word, acts s.hw w (regOf (.stack k.val) 0x30) = true →
        (w = .secure → ∃ h', effect (.eccInject w k v) s h' ∧
          getReg h' (regOf (.stack k.val) 0x30) = v &&& 0xFFFF00FF ∧ onlyRegs s.hw h' [regOf (.stack k.val) 0x30]) ∧
        (w = .nonSecure → effect (.eccInject w k v) s s.hw)) ∧
      (∀ b : BoardId, acts s.hw w (regOf (.board b.val) 8) = true →
        ∃ h', effect (.invalidateAll w b) s h' ∧ (cacheAux h' b.val).lines = [] ∧ h' = { s.hw with caches := h'.caches })) ∧
  (∀ (k : StackId) (r : RowId) (s : State),
      let a := stackAux s.hw k.val
      let key := rowKeyOf r.pc.val r.bank.val r.row.val
      let words := rowWords k.val r.pc.val r.bank.val r.row.val
      (stackReady s.hw k.val = true → (∃ n, (key, n) ∈ a.tracker ∧ 3 ≤ n) →
        (∀ cw ∈ words, isPoison s.hw cw = false) →
        ∃ h', effect (.rowRemap k r) s h' ∧ h'.mem = s.hw.mem ∧
          (stackAux h' k.val).tracker = a.tracker.filter (fun e => e.1 ≠ key) ∧
          (∀ sp, freeSpare a r.pc.val r.bank.val = some sp →
            (∀ cw ∈ words, isPoison h' cw = decide (2 ≤ (cwErrs s.hw cw).length)) ∧
            (regBit s.hw (regOf (.stack k.val) 0x30) 31 = false → ∀ cw ∈ words, cwErrs h' cw = []) ∧
            (stackAux h' k.val).remaps.getLast? = some (RemapEntry.mk 1 sp r.bank.val r.pc.val r.row.val) ∧
            (stackAux h' k.val).remaps.length = a.remaps.length + 1 ∧
            (stackAux h' k.val).unsaved = a.unsaved ++ [RemapEntry.mk 1 sp r.bank.val r.pc.val r.row.val] ∧
            regFld h' (regOf (.stack k.val) 0x18) 14 0 = (regFld s.hw (regOf (.stack k.val) 0x18) 14 0 + 1) % 2 ^ 15) ∧
          (freeSpare a r.pc.val r.bank.val = none → (stackAux h' k.val).remaps = a.remaps ∧
            regBit h' (regOf (.stack k.val) 4) 6 = true)) ∧
      (∀ e rest, a.unsaved = e :: rest → ∃ h', effect (.remapListWrite k) s h' ∧ (stackAux h' k.val).unsaved = rest ∧
        (∀ c < 2, let bs := remapList (a.remaps.take (a.remaps.length - rest.length))
          ∀ i < 65568, h'.mem.read .flash (remapFlash k.val c + i) = (bs ++ shake256 bs 32).getD i 0) ∧
        (∀ sp x, sp ≠ .flash → h'.mem.read sp x = s.hw.mem.read sp x) ∧
        h' = { s.hw with stackAux := h'.stackAux, mem := h'.mem }))

/-! The host interface (R369-R385) and security (R386-R406) -/

/-- On a path that is there: while commands may not run a window write is ignored and a read is answered with zeros.
An access that passes the window or meets a secure region is refused: WIN_REJECTS counts it, a record is written, a
read is answered with all ones, and no memory changes. An access behind a held range, and a read behind posted writes,
join the queue and change no memory. A read that is served is answered with its bytes and a write makes its bytes the
memory's, where no pawn command's outputs are met (R210). Without its path an access does nothing. Fifty µs end the
oldest waiting access: a read is answered with poison, a write is dropped. (the model's reading of R210, R211, R212,
R348, R371, R376, R383, R404) -/
def Obligations.HostWindow : Prop :=
  ∀ (op : WinOp) (off : Quad) (len : Nat) (bytes : List Byte) (s : State),
    let n := if op.write = true then bytes.length else len
    let x : WinAccess := { op := op, off := off.toNat, pa := winBase s.hw + off.toNat, len := n, bytes := bytes }
    let passes := working s.hw = true ∧ winRefused s.hw off.toNat n = false
    (pathUp s.hw op.path = true → 0 < n →
      (working s.hw = false → ∃ h', effect (.windowAccess op off len bytes) s h' ∧ h'.mem = s.hw.mem ∧
        (op.write = true → h' = s.hw) ∧
        (op.write = false → h'.host.winAnswers = s.hw.host.winAnswers ++ [WinAnswer.mk (List.replicate n 0) false])) ∧
      (working s.hw = true → winRefused s.hw off.toNat n = true →
        ∃ h', effect (.windowAccess op off len bytes) s h' ∧ h'.mem = s.hw.mem ∧
          getReg h' (rHost 0x18) = satAdd (getReg s.hw (rHost 0x18)) 1 ∧
          h'.host.winAnswers = s.hw.host.winAnswers ++
            (if op.write = true then [] else [WinAnswer.mk (List.replicate n 0xFF) false])) ∧
      (passes → (readWaits s.hw s.hw.host.winQueue x = true ∨ serveOne s.hw x = none) →
        ∃ h', effect (.windowAccess op off len bytes) s h' ∧ h'.mem = s.hw.mem ∧
          h'.host.winQueue = s.hw.host.winQueue ++ [x]) ∧
      (passes → op.write = false → readWaits s.hw s.hw.host.winQueue x = false → winRaces s.hw x = [] →
        ∀ bs p h1, readPa s.hw winWho x.pa n = (.bytes bs p, h1) →
        ∃ h', effect (.windowAccess op off len bytes) s h' ∧ h'.mem = h1.mem ∧
          h'.host.winAnswers = h1.host.winAnswers ++ [WinAnswer.mk bs p.isSome]) ∧
      (passes → op.write = true → winRaces s.hw x = [] →
        ∀ bs p h1, writePa s.hw winWho x.pa bytes = (.bytes bs p, h1) →
        ∃ h', effect (.windowAccess op off len bytes) s h' ∧ h'.mem = h1.mem ∧
          h'.host.winAnswers = h1.host.winAnswers)) ∧
    ((pathUp s.hw op.path = false ∨ n = 0) → effect (.windowAccess op off len bytes) s s.hw) ∧
    (∀ y rest, s.hw.host.winQueue = y :: rest → ∃ h', effect .windowAccessTimeout s h' ∧
      h'.host.winQueue = rest ∧ h'.mem = s.hw.mem ∧
      (y.op.write = false → ∃ bs, bs.length = y.len ∧
        h'.host.winAnswers = s.hw.host.winAnswers ++ [WinAnswer.mk bs true]) ∧
      (y.op.write = true → h'.host.winAnswers = s.hw.host.winAnswers))

/-- A host snoop of a line that the agent holds modified writes its bytes to host memory and drops it; AGENT_FLUSH
does so for every line on CXL. No device memory changes. A link that may train, which PERST_N, PKG_RESET_N and a lost
REFCLK_SYS forbid, reports its mode, width and speed, and in CXL mode what the host enables, sets Memory_Info_Valid,
and completes step 9 of a bring-up that stands at step 8; a link that goes down reads 0. A peer access that times out
ends its command as XLATE_FAULT. (the model's reading of R371, R378, R379, R440, R450, R451) -/
def Obligations.AgentLinesReachTheHost : Prop :=
  ∀ (s : State) (w : World),
    (∀ (line : Quad) (l : AgentLine), agentLine s.hw (line.toNat / 64) = some l → l.bytes.length = 64 →
      ∃ h', effect (.hostSnoop line) s h' ∧ agentLine h' (line.toNat / 64) = none ∧
        (∀ i < 64, h'.mem.read .host (line.toNat / 64 * 64 + i) = l.bytes.getD i 0) ∧
        (∀ sp a, (sp ≠ .host ∨ a / 64 ≠ line.toNat / 64) → h'.mem.read sp a = s.hw.mem.read sp a)) ∧
    (acts s.hw w (rHost 4) = true →
      (hostMode s.hw = 1 → ∃ h', effect (.agentFlush w) s h' ∧ h'.host.lines = [] ∧
        (∀ sp a, sp ≠ .host → h'.mem.read sp a = s.hw.mem.read sp a) ∧
        regsKept s.hw h' [rHost 0x08, rHost 0x20]) ∧
      (hostMode s.hw ≠ 1 → effect (.agentFlush w) s s.hw)) ∧
    (∀ (mode : BitVec 2) (width : BitVec 6) (speed : BitVec 4) (enables : BitVec 3), mayTrain s.hw = true →
      trainResult mode.toNat width.toNat speed.toNat = true →
      ∃ h', effect (.cxlLinkTraining ⟨mode, enables⟩ width speed) s h' ∧ hostMode h' = mode.toNat ∧
        getReg h' rHostLink = BitVec.ofNat 32 (mode.toNat + (if mode = 1 then enables.toNat * 8 else 0) +
          width.toNat * 64 + speed.toNat * 4096) ∧
        h'.bringStep = (if s.hw.bringStep = 8 then 9 else s.hw.bringStep) ∧ h'.host.memInfoValid = true ∧
        h'.mem = s.hw.mem) ∧
    (mayTrain s.hw = true → s.hw.pins.perst = false ∧ s.hw.pins.pkgResetDriven = false ∧
      s.hw.pins.pkgResetHeld = false ∧ s.hw.supplies.refclkSys = true) ∧
    (∃ h', effect .cxlLinkDown s h' ∧ getReg h' rHostLink = 0 ∧ regsKept s.hw h' [rHostLink] ∧
      h' = { s.hw with regs := h'.regs, freeRegs := h'.freeRegs,
                       host := { s.hw.host with memInfoValid := false } }) ∧
    (∀ (slot : SlotId) (addr : Quad) (c : Cmd) (pa : Nat), active s.hw slot.val c.opcode = some c → s.hw.colls = [] →
      taskOf s.hw slot.val = none → peerTarget s.hw slot.val addr.toNat c = some pa →
      ∃ h', effect (.peerTimeout slot addr) s h' ∧ ended h' slot.val 0x20 addr.toNat c.written ∧
        getReg h' (rHost 0x28) = satAdd (getReg s.hw (rHost 0x28)) 1 ∧
        (c.overlaps = [] → c.workBuffer = [] → h'.mem = s.hw.mem))

/-- An interrupt of a masked vector sets its pending bit and sends nothing; an unmasked one is sent, as a write of its
entry's data to its entry's address, but for those other than vector 67 during bring-up, which are held. Unmasking a
vector whose pending bit is set clears the bit and sends the message; unmasking another sends nothing. (the model's
reading of R374, R453) -/
def Obligations.InterruptVectors : Prop :=
  (∀ (h : Hw) (v : Nat), v < 96 →
    (msixMasked h v = true → (sendMsix h v).host = h.host ∧
      regBit (sendMsix h v) (regOf .host (0x2000 + 4 * (v / 32))) (v % 32) = true ∧
      regsKept h (sendMsix h v) [regOf .host (0x2000 + 4 * (v / 32))]) ∧
    (msixMasked h v = false → h.pkg ≠ .bringup ∨ v = 67 →
      (sendMsix h v).host.msixSent = h.host.msixSent ++ [msixMessage h v] ∧ regsKept h (sendMsix h v) []) ∧
    (msixMasked h v = false → h.pkg = .bringup → v ≠ 67 →
      (sendMsix h v).host.msixHeld = h.host.msixHeld ++ [v] ∧ (sendMsix h v).host.msixSent = h.host.msixSent)) ∧
  (∀ (v : Fin 72) (s : State), acts s.hw .nonSecure (rHost (0x1000 + 16 * v.val + 12)) = true →
    let pend := rHost (0x2000 + 4 * (v.val / 32))
    (regBit s.hw pend (v.val % 32) = true → s.hw.pkg ≠ .bringup → ∃ h', effect (.msixUnmask v) s h' ∧
      msixMasked h' v.val = false ∧ regBit h' pend (v.val % 32) = false ∧
      h'.host.msixSent = s.hw.host.msixSent ++ [msixMessage s.hw v.val]) ∧
    (regBit s.hw pend (v.val % 32) = false → ∃ h', effect (.msixUnmask v) s h' ∧ msixMasked h' v.val = false ∧
      onlyRegs s.hw h' [rHost (0x1000 + 16 * v.val + 12)]))

/-- WORLD_COMMIT and REGION_COMMIT of the secure view make every live register of their set its staged copy where no
rule is broken, after the tiles that change world are reset, or what leaves the secure world is zero-filled, and
change no other register but those of these tiles and an armed injection (R182); otherwise REJECT, the lowest CAUSE
and its first item are set and no other register changes. KEY_CMD installs the key data words into a link or egress
slot, or erases a slot, from the secure world where no ENC slot of the active map names the link key and no live
command names the egress key; an install zeroes the data words. From the non-secure world it is refused. SVN_ADVANCE
in the secure world raises the SVN floor to the running firmware's SVN where that is higher, and changes nothing else.
(the model's reading of R90, R386, R388, R389, R391, R394, R398, R399, R400, R474, R475) -/
def Obligations.KeysAndFloor : Prop :=
  (∀ s : State,
    (answers s.hw .secure (rSec 0x580) = true →
      let pairs := setPairs (rSec 0x500) (rSec 0x540) 9
      (firstCause (worldCauses s.hw) = none → ∃ h', effect (.worldCommit .secure) s h' ∧
        (∀ p ∈ pairs, getReg h' p.2 = getReg s.hw p.1) ∧
        (∀ t ∈ changedTiles s.hw, tileInReset h' t = !tileOut s.hw t ∧ ∀ y < 2 ^ 23, h'.mem.read .tile (tileKey t y) = 0) ∧
        (∀ o, o ∉ pairs.map Prod.snd →
          (∀ t ∈ changedTiles s.hw, o < regOf (.tile t) 0 ∨ regOf (.tile t) 0x10000 ≤ o) → getReg h' o = getReg s.hw o) ∧
        (∀ sp a, sp ≠ .tile → h'.mem.read sp a = s.hw.mem.read sp a) ∧
        (changedTiles s.hw = [] → h'.mem = s.hw.mem ∧ h'.slots = s.hw.slots)) ∧
      refuses (.worldCommit .secure) s { s.hw with draws := s.hw.draws + 16 } (worldCauses s.hw) (rSec 0x584) 8) ∧
    (answers s.hw .secure (rSec 0x2000) = true →
      let pairs := setPairs (rSec 0x1000) (rSec 0x1800) 512
      (firstCause (regionCauses s.hw) = none → ∃ h', effect (.regionCommit .secure) s h' ∧
        (∀ p ∈ pairs, getReg h' p.2 = getReg s.hw p.1) ∧ regsKept s.hw h' (pairs.map Prod.snd ++ (List.range 24).map fun k => regOf (.stack k) 0x30) ∧
        h'.slots = s.hw.slots ∧ (∀ sp a, sp ≠ .hbm → h'.mem.read sp a = s.hw.mem.read sp a) ∧
        ((∀ p ∈ pairs, getReg s.hw p.1 = getReg s.hw p.2) → h'.mem = s.hw.mem ∧ regsKept s.hw h' [])) ∧
      refuses (.regionCommit .secure) s s.hw (regionCauses s.hw) (rSec 0x2004) 8)) ∧
  ∀ (v : Word) (s : State),
    let k := fld v 5 0
    (∀ w, acts s.hw w (rSec 0x200) = true → bit v 31 = true → bit v 30 = false →
      (∀ x, firstCause (keyCauses s.hw w (bit v 8) k) = some x → ∃ h', effect (.keyInstall w v) s h' ∧
        regBit h' (rSec 0x204) 31 = true ∧ onlyRegs s.hw h' [rSec 0x204]) ∧
      (firstCause (keyCauses s.hw w (bit v 8) k) = none → ∃ h', effect (.keyInstall w v) s h' ∧
        h'.sec.keyData = List.replicate 16 0 ∧ h'.sec.keysErased = false ∧ h'.regs = s.hw.regs ∧ h'.mem = s.hw.mem ∧
        (bit v 8 = true → h'.sec.linkKeys = s.hw.sec.linkKeys ∧ ∃ x, smFind h'.sec.egressKeys k = some x ∧
          x.dataKey ++ x.tweakKey = keyBytes s.hw 16 ∧ x.world = keyWorld v) ∧
        (bit v 8 = false → h'.sec.egressKeys = s.hw.sec.egressKeys ∧ ∃ x, smFind h'.sec.linkKeys k = some x ∧
          x.key = keyBytes s.hw 8 ∧ x.salt = s.hw.sec.keyArg0 ∧ x.world = keyWorld v))) ∧
    (∀ w, acts s.hw w (rSec 0x200) = true → bit v 30 = true →
      (∀ x, firstCause (keyCauses s.hw w (bit v 8) k) = some x → ∃ h', effect (.eraseSlot w v) s h' ∧
        regBit h' (rSec 0x204) 31 = true ∧ onlyRegs s.hw h' [rSec 0x204]) ∧
      (firstCause (keyCauses s.hw w (bit v 8) k) = none → ∃ h', effect (.eraseSlot w v) s h' ∧
        h' = { s.hw with sec := h'.sec } ∧
        (bit v 8 = true → smFind h'.sec.egressKeys k = none ∧ h'.sec.linkKeys = s.hw.sec.linkKeys) ∧
        (bit v 8 = false → smFind h'.sec.linkKeys k = none ∧ h'.sec.egressKeys = s.hw.sec.egressKeys))) ∧
    (∀ e, firstCause (keyCauses s.hw .nonSecure e k) ≠ none) ∧
    (answers s.hw .secure (rSec 0xC) = true →
      ∃ f, exec (.svnAdvance .secure) s = .next { s with fuses := f } ∧
        f = { s.fuses with svnFloor := f.svnFloor } ∧
        (s.hw.sec.verified = true → f.svnFloor = max s.fuses.svnFloor (regFld s.hw (rSec 4) 31 16)) ∧
        (s.hw.sec.verified = false → f = s.fuses)) ∧
    exec (.svnAdvance .nonSecure) s = .next s

/-- An alarm in a powered package sets its latch and counts. Under an erase policy, and at TEST_OPEN, no link key, no
egress key and no private key is left, and KEYS_ERASED stands; under the erase policy ALARM_N is asserted, and the
halt policy halts a package in work. A write of ALARM_LATCH clears the latches whose source is live no more and leaves
the others. POLICY_LOCK sets for good. (the model's reading of R402, R403, R404, R405, R421) -/
def Obligations.AlarmsAndErasure : Prop :=
  ∀ (s : State) (src : Fin 6),
    (s.hw.pkg ≠ .off → ∃ h', effect (.alarmDetect src) s h' ∧ bit (alarmLatch h') src.val = true ∧
      getReg h' (rSec 0x10C) = satAdd (getReg s.hw (rSec 0x10C)) 1 ∧
      (policyOf s.hw src.val = 0 → h'.sec = s.hw.sec ∧ h'.pkg = s.hw.pkg ∧ h'.mem = s.hw.mem) ∧
      (policyOf s.hw src.val ≠ 0 → h'.sec.linkKeys = [] ∧ h'.sec.egressKeys = [] ∧ h'.sec.idPriv = [] ∧
        h'.sec.aliasPriv = [] ∧ h'.sec.keysErased = true ∧ h'.pins.alarmN = true) ∧
      (policyOf s.hw src.val ≠ 0 → inWork s.hw = true → h'.pkg = .alarm) ∧
      (policyOf s.hw src.val = 2 → inWork s.hw = true → h'.sec.halted = true)) ∧
    (∀ v : Word, answers s.hw .secure (rSec 0x100) = true → ∃ h' live, effect (.alarmClear .secure v) s h' ∧
      alarmLatch h' = alarmLatch s.hw &&& ~~~(v &&& ~~~live) ∧ live &&& alarmLatch s.hw = live ∧
      (v &&& live ≠ 0 → regBit h' (rSec 0x204) 31 = true) ∧
      (eraseLatched h' = false → h'.pins.alarmN = false)) ∧
    (answers s.hw .secure (rSec 0x108) = true → ∃ h', effect (.policyLock .secure) s h' ∧
      regBit h' (rSec 0x108) 31 = true ∧ regFld h' (rSec 0x108) 11 0 = regFld s.hw (rSec 0x108) 11 0 ∧
      onlyRegs s.hw h' [rSec 0x108]) ∧
    (answers s.hw .secure (regOf .zl 8) = true → ∃ h', effect (.testOpen .secure) s h' ∧ h'.jtag.isOpen = true ∧
      h'.sec.linkKeys = [] ∧ h'.sec.egressKeys = [] ∧ h'.sec.idPriv = [] ∧ h'.sec.keysErased = true) ∧
    (∀ v : Word, effect (.alarmClear .nonSecure v) s s.hw ∧ effect (.policyLock .nonSecure) s s.hw ∧
      effect (.testOpen .nonSecure) s s.hw)

/-! Resets, supplies and power (R423-R447, R450-R457) -/

/-- A soft reset of a package in work, asked for by RST_CTRL, by a function-level reset over the link or by PERST_N
with PERST_SOFT, leaves no command, task, hold or collective, every ring register and counter at its reset value,
every tile ready, RST_STATUS its kind, the key stores, the flash and the live copies of the kept sets as they were
with their staged copies equal to them, and the package READY, or in ALARM where it was. In OFF, AUX, BRINGUP and
RESIGNED it is ignored. (the model's reading of R373, R449, R455, R456, R457, R476) -/
def Obligations.SoftResetDiscardsWork : Prop :=
  ∀ (s : State) (w : World) (obs : BringUpObs),
    let idle := s.hw.pkg = .off ∨ s.hw.pkg = .aux ∨ s.hw.pkg = .bringup ∨ s.hw.pkg = .resigned
    let done := fun (kind : Nat) (h' : Hw) =>
      h'.slots = [] ∧ h'.streams = [] ∧ h'.holds = [] ∧ h'.colls = [] ∧ h'.tokens = [] ∧
      (∀ o, 0x100000 ≤ o → o < 0x142000 → getReg h' o = regReset o) ∧ h'.rings = [] ∧
      (∀ t < 192, tileInReset h' t = false) ∧ regFld h' rRstStatus 31 24 = kind ∧
      h'.sec = s.hw.sec ∧ (∀ a, h'.mem.read .flash a = s.hw.mem.read .flash a) ∧
      (∀ p ∈ keptSets, ∀ i < p.2.2, getReg h' (p.2.1 + 4 * i) = getReg s.hw (p.2.1 + 4 * i) ∧
        getReg h' (p.1 + 4 * i) = getReg s.hw (p.2.1 + 4 * i)) ∧
      (s.hw.pkg = .alarm → h'.pkg = .alarm) ∧ (s.hw.pkg ≠ .alarm → h'.pkg = .ready)
    (acts s.hw w (regOf .err 0x100) = true →
      (idle → effect (.softReset (.rstCtrl w)) s s.hw) ∧
      (¬ idle → ∃ h', effect (.softReset (.rstCtrl w)) s h' ∧ done 5 h')) ∧
    (hostUp s.hw = false → effect .functionLevelReset s s.hw) ∧
    (hostUp s.hw = true → ¬ idle → ∃ h', effect .functionLevelReset s h' ∧ done 6 h') ∧
    (¬ idle → ∃ h', effect (.softReset .flr) s h' ∧ done 6 h') ∧
    (¬ idle → s.hw.pins.perst = false → regBit s.hw (regOf .err 0x104) 0 = true →
      ∃ h', effect (.perstN true obs) s h' ∧ done 7 h' ∧ getReg h' rHostLink = 0 ∧ h'.pins.perst = true) ∧
    (∃ h', effect (.perstN false obs) s h' ∧ h' = { s.hw with pins := { s.hw.pins with perst := false } })

/-- A warm reset of a powered package, by PERST_N, by a board-driven PKG_RESET_N low of at least 1 µs or by firmware,
leaves no command and no contents of a tile or, where no lend window was live (whose contents are undefined), of HBM,
keeps the flash and the link and egress keys, and reports its kind. Where its castle passes the first check the
package is then in BRINGUP with step 2 done, PKG_RESET_N driven, and a start to come with firmware that verifies;
without it in AUX with its converters stopped; where the castle fails that check the package resigns. In OFF and
RESIGNED it does nothing. A shorter low, and one while the package drives the line, only hold the line. (the model's
reading of R30, R242, R378, R391, R393, R451, R455, R456) -/
def Obligations.WarmResetStartsAgain : Prop :=
  ∀ (s : State) (obs : BringUpObs),
    let live := s.hw.pkg ≠ .off ∧ s.hw.pkg ≠ .resigned ∧ s.hw.pkg ≠ .aux
    let done := fun (kind : Nat) (h' : Hw) =>
      h'.slots = [] ∧ h'.colls = [] ∧ (lentKeys s.hw = [] → ∀ a, h'.mem.read .hbm a = 0) ∧
      (∀ a, h'.mem.read .tile a = 0) ∧
      (∀ a, h'.mem.read .flash a = s.hw.mem.read .flash a) ∧ h'.sec.linkKeys = s.hw.sec.linkKeys ∧
      h'.sec.egressKeys = s.hw.sec.egressKeys ∧ regFld h' rRstStatus 31 24 = kind ∧
      (stageOne s.fuses = true → h'.sec.verified = true → h'.pkg = .bringup ∧ h'.bringStep = 2 ∧
        h'.pins.pkgResetDriven = true ∧ h'.starting = some (obs, regBit s.hw (regOf .err 0x104) 1)) ∧
      (stageOne s.fuses = true → h'.sec.verified = false →
        h'.pkg = .aux ∧ h'.supplies.converters = false ∧ h'.bringStep = 1) ∧
      (stageOne s.fuses = false → h'.pkg = .resigned)
    (live → ∃ h', effect (.warmReset .firmware obs) s h' ∧ done 4 h') ∧
    (live → ∃ h', effect (.warmReset .perst obs) s h' ∧ done 2 h') ∧
    (live → s.hw.pins.perst = false → regBit s.hw (regOf .err 0x104) 0 = false →
      ∃ h', effect (.perstN true obs) s h' ∧ done 2 h') ∧
    (∀ ns, 1000 ≤ ns → s.hw.pins.pkgResetDriven = false → live →
      ∃ h', effect (.pkgResetN ns obs) s h' ∧ done 3 h') ∧
    (∀ ns, (ns < 1000 ∨ s.hw.pins.pkgResetDriven = true) → effect (.pkgResetN ns obs) s
      { s.hw with pins := { s.hw.pins with pkgResetHeld := decide (0 < ns) } }) ∧
    (∀ c, (s.hw.pkg = .off ∨ s.hw.pkg = .resigned) → effect (.warmReset c obs) s s.hw)

/-- VAUX_UP in OFF, or in AUX before anything booted, leaves the package in AUX with its firmware verified exactly
where an image slot verifies, and the boot at step 2, or at step 1 without verified firmware. PWR_GOOD_AUX is noted
once. VIN that comes before it, and one that stands at 2 V or more when it comes, is a sequence error, and a new ramp
is owed. The first stage starts only above 34 V, in AUX after PWR_GOOD_AUX, with verified firmware, REFCLK_SYS and no
ramp owed: the package is then in BRINGUP at step 3, or has resigned where its castle fails the first check (log 86).
(the model's reading of R30, R393, R424, R426, R427, R450, R489) -/
def Obligations.SuppliesStartThePackage : Prop :=
  ∀ s : State,
    let bare := s.hw.pkg = .off ∨ (s.hw.pkg = .aux ∧ s.hw.bringStep = 0)
    (bare → ∃ h', effect .vauxUp s h' ∧ h'.pkg = .aux ∧ h'.supplies.vaux = true ∧ h'.pins.pkgResetDriven = true ∧
      (h'.sec.verified = true ↔ imageCause s.fuses s.hw 0 = 0 ∨ imageCause s.fuses s.hw 1 = 0) ∧
      h'.bringStep = (if h'.sec.verified = true then 2 else 1) ∧ h'.mem = s.hw.mem) ∧
    (¬ bare → effect .vauxUp s s.hw) ∧
    (s.hw.supplies.vaux = true → s.hw.pkg ≠ .off → s.hw.pins.pwrGoodAux = false →
      ∃ h', effect .pwrGoodAux s h' ∧ h'.pins.pwrGoodAux = true ∧ h'.supplies.viom = true ∧ h'.supplies.vana = true ∧
        (s.hw.supplies.vinMv < 2000 → h' = { s.hw with pins := h'.pins, supplies := h'.supplies } ∧
          h'.supplies.needRamp = s.hw.supplies.needRamp) ∧
        (2000 ≤ s.hw.supplies.vinMv → h'.supplies.needRamp = true ∧ regBit h' (rPwr 0x20) 3 = true ∧
          regsKept s.hw h' [rPwr 0x20] ∧ h'.mem = s.hw.mem)) ∧
    (s.hw.pkg = .aux → s.hw.pins.pwrGoodAux = false →
      ∃ h', effect .vinEarly s h' ∧ h'.supplies.needRamp = true ∧ regBit h' (rPwr 0x20) 3 = true ∧ h'.mem = s.hw.mem) ∧
    (∀ mv obs,
      (mayStart s.hw mv = true → obs.refclk = true → stageOne s.fuses = false →
        ∃ h', effect (.firstStageStart mv obs) s h' ∧ h'.pkg = .resigned) ∧
      (mayStart s.hw mv = true → obs.refclk = true → stageOne s.fuses = true →
        ∃ h', effect (.firstStageStart mv obs) s h' ∧ h'.pkg = .bringup ∧ h'.bringStep = 3 ∧
        h'.starting = some (obs, true) ∧ h'.supplies.converters = true ∧ h'.pins.pkgResetDriven = false ∧
        h'.pins.faultN = false ∧ h'.pins.thermTripN = false ∧
        getReg h' (rPwr 0x10) = BitVec.ofNat 32 mv ∧ h'.mem = s.hw.mem) ∧
      (mayStart s.hw mv = true → s.hw.pkg = .aux ∧ s.hw.pins.pwrGoodAux = true ∧ 34000 < mv ∧
        s.hw.sec.verified = true ∧ s.hw.supplies.needRamp = false) ∧
      ((mayStart s.hw mv = false ∨ obs.refclk = false) → ∃ h', effect (.firstStageStart mv obs) s h' ∧
        h' = { s.hw with supplies := h'.supplies } ∧ h'.supplies.converters = s.hw.supplies.converters))

/-- VIN below 33 V, the loss of VIOM or VANA, and every conversion trip stop the running converters of a powered
package: it is in AUX, or stays RESIGNED, with no command and no contents of a tile or, where no lend window was live
(whose contents are undefined), of HBM, while the flash stays. A trip is a fatal record and no AER message, asks for a
new ramp, a thermal one asserts THERM_TRIP_N, and VIN below 2 V gives one, also in OFF. The loss of VAUX leaves the
package OFF with no key and no ramp owed. A lost REFCLK_CXL drops the host link; a lost REFCLK_SYS stops every clock
and, once the converters run, is the alarm CGLITCH. (the model's reading of R242, R425, R427, R430, R440, R449, R459,
R487) -/
def Obligations.SupplyLossStopsTheConverters : Prop :=
  ∀ s : State,
    let running := s.hw.pkg ≠ .off ∧ s.hw.pkg ≠ .aux ∧ s.hw.supplies.converters = true
    let stopped := fun (h' : Hw) => h'.pkg = (if s.hw.pkg = .resigned then .resigned else .aux) ∧
      h'.supplies.converters = false ∧ h'.slots = [] ∧ h'.starting = none ∧
      (lentKeys s.hw = [] → ∀ a, h'.mem.read .hbm a = 0) ∧
      (∀ a, h'.mem.read .tile a = 0) ∧ (∀ a, h'.mem.read .flash a = s.hw.mem.read .flash a)
    (∀ mv, mv < 33000 → s.hw.pkg ≠ .off → ∃ h', effect (.vinLoss mv) s h' ∧ h'.supplies.vinMv = mv ∧
      (running → stopped h')) ∧
    (∀ mv, mv < 2000 → ∃ h', effect (.vinLoss mv) s h' ∧ h'.supplies.vinMv = mv ∧ h'.supplies.needRamp = false) ∧
    (∀ mv, 33000 ≤ mv → effect (.vinLoss mv) s s.hw) ∧
    (∀ x, x ≠ .vaux → s.hw.pkg ≠ .off → ∃ h', effect (.auxSupplyLoss x) s h' ∧ h'.pins.pwrGoodAux = false ∧
      (running → stopped h')) ∧
    (s.hw.pkg ≠ .off → ∃ h', effect (.auxSupplyLoss .vaux) s h' ∧ h'.pkg = .off ∧ h'.slots = [] ∧
      h'.supplies.needRamp = false ∧ h'.sec.linkKeys = [] ∧ h'.sec.egressKeys = [] ∧ (lentKeys s.hw = [] → ∀ a, h'.mem.read .hbm a = 0) ∧
      (∀ a, h'.mem.read .flash a = s.hw.mem.read .flash a)) ∧
    (running → ∀ c, ∃ h' r, effect (.conversionTrip c) s h' ∧ stopped h' ∧ h'.supplies.needRamp = true ∧
      regBit h' (rPwr 0x20) 0 = true ∧ h'.pins.faultN = true ∧ (c = .thermal → h'.pins.thermTripN = true) ∧
      h'.errs.sticky.getLast? = some r ∧ r.severity = 4 ∧ r.source = 0x0A ∧ h'.host.aerSent = s.hw.host.aerSent) ∧
    (¬ running → ∀ c, effect (.conversionTrip c) s s.hw) ∧
    (∃ h', effect .refclkCxlLoss s h' ∧ h'.supplies.refclkCxl = false ∧ getReg h' rHostLink = 0 ∧ h'.mem = s.hw.mem) ∧
    (∃ h', effect .refclkSysLoss s h' ∧ h'.supplies.refclkSys = false ∧ working h' = false ∧ mayTrain h' = false) ∧
    (s.hw.supplies.refclkSys = true → s.hw.pkg ≠ .off → s.hw.pkg ≠ .aux → s.hw.supplies.converters = true →
      ∃ h', effect .refclkSysLoss s h' ∧ bit (alarmLatch h') 3 = true) ∧
    (s.hw.supplies.refclkSys = true → (s.hw.pkg = .off ∨ s.hw.pkg = .aux ∨ s.hw.supplies.converters = false) →
      effect .refclkSysLoss s { s.hw with supplies := { s.hw.supplies with refclkSys := false } }) ∧
    (s.hw.supplies.refclkSys = false → effect .refclkSysLoss s s.hw)

/-- A request for HOLD or QUIET is noted; POWER_STATE_ENTRY enters it from READY or RUN once no command is in flight,
and does nothing before. A request for RUN withdraws it, and in HOLD or QUIET leaves for RUN where a ring is enabled,
else for READY; leaving QUIET zeroes the tile stores. A REQ of 3 asks for nothing. With CAL_SAVE the write also saves
a valid calibration page. CAL_SAVE writes a valid calibration page into one of the two copies, and changes no register
and no other memory. An ageing evaluation in operation moves the trim of a die that it names by at most one step of 5
mV toward what it calls for, up to 10 steps, leaves the trims of other dies, and changes no memory but the flash. (the
model's reading of R437, R442, R443, R445, R449) -/
def Obligations.PowerStatesAndCalibration : Prop :=
  (∀ (w : World) (v : Word) (s : State),
      (acts s.hw w (rPwr 4) = true →
        let saves := bit v 3
        (fld v 1 0 = 1 → s.hw.pkg ≠ .hold → ∃ h', effect (.powerStateRequest w v) s h' ∧
          h'.power.target = some .hold ∧ h'.pkg = s.hw.pkg ∧ regsKept s.hw h' [rPwr 4] ∧
          (saves = false → h'.mem = s.hw.mem)) ∧
        (fld v 1 0 = 2 → s.hw.pkg ≠ .quiet → ∃ h', effect (.powerStateRequest w v) s h' ∧
          h'.power.target = some .quiet ∧ h'.pkg = s.hw.pkg ∧ regsKept s.hw h' [rPwr 4] ∧
          (saves = false → h'.mem = s.hw.mem)) ∧
        (fld v 1 0 = 3 → ∃ h', effect (.powerStateRequest w v) s h' ∧ regsKept s.hw h' [rPwr 4] ∧
          h'.power = s.hw.power ∧ (saves = false → h'.mem = s.hw.mem)) ∧
        (fld v 1 0 = 0 → ∃ h', effect (.powerStateRequest w v) s h' ∧ h'.power.target = none ∧
          ((s.hw.pkg = .hold ∨ s.hw.pkg = .quiet) → h'.pkg = (if anyRingEnabled s.hw = true then .run else .ready)) ∧
          (s.hw.pkg = .quiet → ∀ a < 192 * 2 ^ 23, h'.mem.read .tile a = 0) ∧
          (s.hw.pkg ≠ .hold → s.hw.pkg ≠ .quiet → h'.pkg = s.hw.pkg ∧ (saves = false → h'.mem = s.hw.mem))) ∧
        (saves = true → ∃ h', effect (.powerStateRequest w v) s h' ∧
          (calPageOk (readPage h' (calPageAt 0)) = true ∨ calPageOk (readPage h' (calPageAt 1)) = true))) ∧
      (∀ p, s.hw.power.target = some p → (s.hw.pkg = .ready ∨ s.hw.pkg = .run) → s.hw.slots = [] →
        ∃ h', effect .powerStateEntry s h' ∧ h'.pkg = p ∧ h'.power.target = none ∧ h'.mem = s.hw.mem) ∧
      ((s.hw.power.target = none ∨ s.hw.slots ≠ [] ∨ (s.hw.pkg ≠ .ready ∧ s.hw.pkg ≠ .run)) →
        effect .powerStateEntry s s.hw)) ∧
  (∀ s : State,
      (∀ w, acts s.hw w (rPwr 4) = true → ∃ h' c, c < 2 ∧ effect (.calSave w) s h' ∧
        calPageOk (readPage h' (calPageAt c)) = true ∧ h' = { s.hw with mem := h'.mem } ∧
        (∀ sp a, (sp ≠ .flash ∨ a < calPageAt c ∨ calPageAt c + 4096 ≤ a) → h'.mem.read sp a = s.hw.mem.read sp a)) ∧
      (managed s.hw = true → ∀ need, ∃ h', effect (.ageingEvaluation need) s h' ∧
        (∀ sp a, sp ≠ .flash → h'.mem.read sp a = s.hw.mem.read sp a) ∧
        (∀ d : DieId, (∀ x ∈ need, x.1 ≠ d) → ageTrim h' d.val = ageTrim s.hw d.val) ∧
        (∀ d n, need.find? (fun x => decide (x.1.val = (d : DieId).val)) = some (d, n) →
          ageTrim h' d.val = (if ageTrim s.hw d.val < min n 10 then ageTrim s.hw d.val + 1
            else if min n 10 < ageTrim s.hw d.val then ageTrim s.hw d.val - 1 else ageTrim s.hw d.val))))

/-- ARB_COMMIT of a sound set waits for the next allocation, which leaves none pending, shows the islands' estimate
under the gain in force, and puts the new gain, measured over estimated and clamped to 1.00 to 1.25, in force; an
unsound one is refused. A board loop shows its estimate and its temperatures. A rail whose calibrated current is
within its limit changes nothing; one above it counts, and above 130 % trips. A calibrated temperature up to the
throttle limit, of a die that is not hot, changes only what PWR_STATUS shows, and one above 125 °C trips. CLOCK_CHANGE
moves the clock of a tile that holds a command within 8 steps toward its cap and changes no other register. (the
model's reading of R426, R429, R430, R431, R432, R433, R438, R444, R446) -/
def Obligations.ArbiterAndClocks : Prop :=
  ∀ s : State,
    (∀ w, acts s.hw w (rPwr 0x140) = true →
      (arbBad s.hw w = true → ∃ h', effect (.arbCommit w) s h' ∧ regBit h' (rPwr 0x144) 31 = true ∧
        onlyRegs s.hw h' [rPwr 0x144]) ∧
      (arbBad s.hw w = false → ∃ h', effect (.arbCommit w) s h' ∧ h'.regs = s.hw.regs ∧
        h'.power.pendingArb = some [(rPwr 0x120, getReg s.hw (rPwr 0x100)), (rPwr 0x124, getReg s.hw (rPwr 0x104))])) ∧
    (managed s.hw = true → ∀ x, ∃ h', effect (.arbAllocation x) s h' ∧ h'.power.pendingArb = none ∧
      getReg h' (rPwr 8) = BitVec.ofNat 32 (estimate s.fuses s.hw x * gainNow s.hw / 4096) ∧
      (0 < estimate s.fuses s.hw x → regFld h' (rPwr 0x18) 15 0 =
        max 4096 (min 5120 (x.vinMv * x.iinMa * 4096 / (estimate s.fuses s.hw x * 1000000)))) ∧
      getReg h' (rPwr 0xC) = BitVec.ofNat 32 (x.vinMv * x.iinMa / 1000000) ∧
      getReg h' (rPwr 0x10) = BitVec.ofNat 32 x.vinMv ∧ getReg h' (rPwr 0x14) = BitVec.ofNat 32 x.iinMa ∧
      (∀ a : Word × Word, s.hw.power.pendingArb = some [(rPwr 0x120, a.1), (rPwr 0x124, a.2)] →
        getReg h' (rPwr 0x120) = a.1 ∧ getReg h' (rPwr 0x124) = a.2) ∧ h'.mem = s.hw.mem ∧ h'.slots = s.hw.slots) ∧
    (managed s.hw = true → ∀ (b : BoardId) x, ∃ h', effect (.boardLoop b x) s h' ∧
      getReg h' (rBrd b.val 4) = BitVec.ofNat 32 (x.link + x.memory + x.compute + x.other) ∧
      (∀ t, t / 64 = b.val → t < 192 → tileHolds s.hw t = false → getReg h' (rTileFreq t) = 63) ∧
      h'.mem = s.hw.mem ∧ h'.slots = s.hw.slots) ∧
    (powered s.hw = true → ∀ (r : Rail) (raw : Nat),
      let ma := raw * senseGain s.fuses s.hw (railDie r) / 1024
      (ma ≤ 1000 * railLimit r → effect (.railWindow r raw) s s.hw) ∧
      (1000 * railLimit r < ma → ma ≤ 1300 * railLimit r → ∃ h', effect (.railWindow r raw) s h' ∧
        getReg h' (rPwr 0x1C) = satAdd (getReg s.hw (rPwr 0x1C)) 1 ∧ h'.pkg = s.hw.pkg ∧ h'.mem = s.hw.mem) ∧
      (1300 * railLimit r < ma → s.hw.supplies.converters = true → s.hw.pkg ≠ .resigned →
        ∃ h', effect (.railWindow r raw) s h' ∧ h'.pkg = .aux ∧ h'.supplies.converters = false)) ∧
    (powered s.hw = true → ∀ (d : Fin 52) (raw : Int),
      let q := raw + tempOffset s.fuses s.hw d.val
      (q ≤ 500 → q ≤ 4 * (regFld s.hw (rPwr 0x124) 14 8 : Nat) → s.hw.power.hot.contains d.val = false →
        ∃ h', effect (.thermalSample d raw) s h' ∧ h'.power.hot = s.hw.power.hot ∧ regsKept s.hw h' [rPwr 0] ∧
          h'.mem = s.hw.mem) ∧
      (500 < q → s.hw.supplies.converters = true → s.hw.pkg ≠ .resigned →
        ∃ h', effect (.thermalSample d raw) s h' ∧ h'.pkg = .aux ∧ h'.pins.thermTripN = true)) ∧
    (managed s.hw = true → ∀ (t : TileId) (k : Nat), tileHolds s.hw t.val = true →
      getReg s.hw (rTileFreq t.val) ≠ 63 → (getReg s.hw (rTileFreq t.val)).toNat ≤ k →
      k ≤ tileCap s.hw t.val → k ≤ (getReg s.hw (rTileFreq t.val)).toNat + 8 →
      ∃ h', effect (.clockChange t k) s h' ∧ getReg h' (rTileFreq t.val) = BitVec.ofNat 32 k ∧
        onlyRegs s.hw h' [rTileFreq t.val])

/-! Losses, links and management (R188-R189, R347, R407-R422, R462) -/

/-- Outside OFF, AUX and RESIGNED, a lost stack reads LOST and not ready; a stack loss, an uncorrectable castle fault,
a degraded or exhausted stack link, the exhausted castle link and the second exhausted management set of a bridge
leave the package RESIGNED. Other links only show DEGRADED; an exhausted compute link takes its tiles out of service,
an exhausted optical one its port. In OFF, AUX and RESIGNED a castle fault does nothing. (the model's reading of R188,
R189, R347, R348, R410, R416, R417) -/
def Obligations.LossesResignThePackage : Prop :=
  ∀ (s : State),
    let on_ := s.hw.pkg ≠ .off ∧ s.hw.pkg ≠ .aux ∧ s.hw.pkg ≠ .resigned
    (on_ → ∀ k : StackId, ∃ h', effect (.stackLoss k) s h' ∧ h'.pkg = .resigned ∧ stackReady h' k.val = false ∧
      regBit h' (regOf (.stack k.val) 4) 8 = true ∧ (∀ q < 12, portUp h' q = false)) ∧
    (on_ → ∀ k, ∃ h', effect (.castleFault k) s h' ∧ h'.pkg = .resigned ∧ (∀ q < 12, portUp h' q = false) ∧
      h'.pins.faultN = true) ∧
    (¬ on_ → (∀ k, effect (.castleFault k) s s.hw) ∧ (∀ k, effect (.stackLoss k) s s.hw)) ∧
    (∀ l : LinkId, on_ → 12 ≤ l.val → l.val < 36 →
      (∃ h', effect (.linkDegraded l) s h' ∧ h'.pkg = .resigned) ∧
      (regBit s.hw (rLink l.val) 6 = false → ∃ h', effect (.controlChannelExhausted l) s h' ∧ h'.pkg = .resigned ∧
        regBit h' (rLink l.val) 6 = true)) ∧
    (∀ l : LinkId, on_ → (l.val < 12 ∨ 36 ≤ l.val) →
      ∃ h', effect (.linkDegraded l) s h' ∧ regBit h' (rLink l.val) 7 = true ∧ h'.pkg = s.hw.pkg ∧ h'.mem = s.hw.mem) ∧
    (∀ l : LinkId, on_ → l.val < 12 → regBit s.hw (rLink l.val) 6 = false →
      ∃ h', effect (.controlChannelExhausted l) s h' ∧ regBit h' (rLink l.val) 6 = true ∧
        (∀ t, t / 16 = l.val → tileReady h' t = false ∧ tileInReset h' t = false)) ∧
    (∀ l : LinkId, on_ → 36 ≤ l.val → l.val < 48 → regBit s.hw (rLink l.val) 6 = false →
      ∃ h', effect (.controlChannelExhausted l) s h' ∧ portUp h' (l.val - 36) = false) ∧
    (on_ → regBit s.hw (rLink 48) 6 = false →
      ∃ h', effect (.controlChannelExhausted 48) s h' ∧ h'.pkg = .resigned) ∧
    (∀ l : LinkId, 49 ≤ l.val → effect (.controlChannelExhausted l) s s.hw) ∧
    (∀ ch : Channel, on_ → 49 ≤ ch.link.val → chanWorks s.hw ch = true →
      let other := Channel.mk ch.link (!ch.set1)
      ((chanAux s.hw other).dead = true →
        ∃ h', effect (.managementSetExhausted ch) s h' ∧ h'.pkg = .resigned) ∧
      ((chanAux s.hw other).dead = false → ∃ h', effect (.managementSetExhausted ch) s h' ∧ h'.pkg = s.hw.pkg ∧
        (chanAux h' ch).dead = true ∧ regBit h' (rLink ch.link.val) 5 = !ch.set1))

/-- On a working channel an IDLE frame frees the frames its ACK covers; a DATA frame of at most 24 bytes with the next
sequence number is delivered, any other is discarded with a NAK, as is a frame that fails its CRC. A frame accepted
gives the sender its turn: the waiting message of the highest priority goes out as DATA while fewer than 128 frames
are unacknowledged, else IDLE with ACK (log 101). A NAK frame, and a timeout with frames unacknowledged, send every
frame after the ACK again and CTL_RETRY counts it; the eighth such episode in vain is the last, and the next exhausts
the channel. A flit that fails its code counts once where it is first seen and ends a command that waits for it as
D2D_DATA_ERROR, outside a task and a collective, with the link in DETAIL0 and its units in DETAIL1; one that arrives
sound or marked, or that no valid wire marks, changes nothing. (the model's reading of R408, R409, R415, R416, R165,
R223) -/
def Obligations.ControlFramesInOrder : Prop :=
  ∀ (ch : Channel) (f : Frame) (ms : List Message) (s : State),
    let a := chanAux s.hw ch
    let x : FrameObs := { frame := f, queued := ms }
    let freed := takeFrameAck a f.ack.toNat
    let refused := fun (i : Instr) => ∃ h' g, effect i s h' ∧ h' = { s.hw with chans := h'.chans } ∧
      (chanAux h' ch).sent = a.sent ++ [(.nak, g)] ∧ (chanAux h' ch).delivered = a.delivered ∧
      g.ack = BitVec.ofNat 8 a.rxSeq
    let again := fun (i : Instr) (kept : List Frame) => ∃ h', effect i s h' ∧ h'.mem = s.hw.mem ∧
      regsKept s.hw h' [rRetry ch.link.val] ∧
      getReg h' (rRetry ch.link.val) = satAdd (getReg s.hw (rRetry ch.link.val)) 1 ∧
      (chanAux h' ch).replay = kept ∧ (chanAux h' ch).sent.length = a.sent.length + kept.length
    (chanWorks s.hw ch = true →
      (frameCrcOk 0 f = true → ∃ h' k g, effect (.idleFrame ch x) s h' ∧ h' = { s.hw with chans := h'.chans } ∧
        (chanAux h' ch).delivered = a.delivered ∧ (chanAux h' ch).sent = a.sent ++ [(k, g)] ∧
        g.ack = BitVec.ofNat 8 a.rxSeq ∧ frameCrcOk k.code g = true ∧
        (∀ y ∈ (chanAux h' ch).replay, y ∈ a.replay ∧ 128 ≤ (f.ack.toNat + 256 - y.seq.toNat) % 256 ∨ k = .data ∧ y = g) ∧
        (a.waiting ++ ms = [] → k = .idle ∧ (chanAux h' ch).replay = freed.replay) ∧
        (128 ≤ freed.replay.length → k = .idle ∧ (chanAux h' ch).replay = freed.replay) ∧
        (∀ m, nextMessage (a.waiting ++ ms) = some m → freed.replay.length < 128 → k = .data ∧ g.payload = m.payload ∧
          g.seq = BitVec.ofNat 8 (a.txSeq + 1) ∧ (chanAux h' ch).replay = freed.replay ++ [g] ∧
          (∀ n ∈ a.waiting ++ ms, n.prio ≤ m.prio))) ∧
      (frameCrcOk 1 f = true → f.payload.length ≤ 24 → f.seq.toNat = (a.rxSeq + 1) % 256 →
        ∃ h', effect (.dataFrame ch x) s h' ∧
          h' = { s.hw with chans := h'.chans } ∧ (chanAux h' ch).delivered = a.delivered ++ [f] ∧
          (chanAux h' ch).rxSeq = f.seq.toNat ∧ (chanAux h' ch).sent.length = a.sent.length + 1) ∧
      (frameCrcOk 1 f = true → f.payload.length ≤ 24 → f.seq.toNat ≠ (a.rxSeq + 1) % 256 →
        refused (.dataFrame ch x)) ∧
      (frameCrcOk 2 f = true → freed.replay = [] ∨ freed.resends < 8 → again (.nakFrame ch f) freed.replay) ∧
      (frameCrcOk 2 f = true → freed.replay ≠ [] → 8 ≤ freed.resends →
        effect (.nakFrame ch f) s (exhaust s.fuses.serial ch s.hw)) ∧
      (frameCrcOk 0 f = false → refused (.idleFrame ch x)) ∧
      (frameCrcOk 1 f = false → refused (.dataFrame ch x)) ∧
      (frameCrcOk 2 f = false → refused (.nakFrame ch f)) ∧
      (∀ bytes : List Byte,
        (crc32 (bytes.take 28) ≠ BitVec.ofNat 32 (leNat (bytes.drop 28)) → refused (.controlFrameCrcFailure ⟨ch, bytes⟩)) ∧
        (crc32 (bytes.take 28) = BitVec.ofNat 32 (leNat (bytes.drop 28)) →
          effect (.controlFrameCrcFailure ⟨ch, bytes⟩) s s.hw)) ∧
      (a.replay ≠ [] → a.resends < 8 → again (.controlReplayTimeout ch) a.replay) ∧
      (a.replay ≠ [] → 8 ≤ a.resends →
        effect (.controlReplayTimeout ch) s (exhaust s.fuses.serial ch s.hw)) ∧
      (a.replay = [] → effect (.controlReplayTimeout ch) s s.hw)) ∧
    (∀ x : FlitObs,
      let bad := powered s.hw = true ∧ isFlit x.valid = true ∧ flitOk x.bytes x.track = false ∧ x.marked = false ∧
        (x.link.val < 12 → regBit s.hw (rLink x.link.val) 6 = false)
      (bad → x.consumer = none →
        ∃ h', effect (.flit x) s h' ∧ getReg h' (rE2e x.link.val) = satAdd (getReg s.hw (rE2e x.link.val)) 1 ∧
          onlyRegs s.hw h' [rE2e x.link.val]) ∧
      (∀ slot c, bad → x.consumer = some slot →
        activeAny s.hw slot.val = some c → s.hw.colls = [] → taskOf s.hw slot.val = none →
        ∃ h', effect (.flit x) s h' ∧ ended h' slot.val 0x43 x.link.val (endCount c)) ∧
      (¬ bad → effect (.flit x) s s.hw))

/-- LINK_BW of a link that answers reads, from bring-up step 5 on, its bundles in service in bits 31:16 and below them
the bundles times 32 GB/s times the negotiated rate over 4 GT/s, the rate being RATE in units of 0.5 GT/s; before step
5 it reads 0. With RATE 8 that is 32 GB/s for each bundle. (R478) -/
def Obligations.LinkBandwidth : Prop :=
  ∀ (f : Fuses) (h : Hw) (w : World) (n : LinkId), answers h w (0x20 + 4 * n.val) = true →
    let bundles := regFld h (rLink n.val) 15 8
    let rate := regFld h (rZl 4) 7 0
    (5 ≤ h.bringStep →
      readReg f h w (0x20 + 4 * n.val) = BitVec.ofNat 32 (bundles * 2 ^ 16 + bundles * 32 * rate / 8)) ∧
    (5 ≤ h.bringStep → rate = 8 → (readReg f h w (0x20 + 4 * n.val)).toNat % 2 ^ 16 = bundles * 32) ∧
    (h.bringStep < 5 → readReg f h w (0x20 + 4 * n.val) = 0)

/-! Commands that work in units, pawns, collectives and reports -/

/-- A running command of one of these opcodes, with a tile where it holds tiles and with a serving mover where it
moves data, whose checks and units of work go through, each read, computed and written whole in order, ends at once
with the status and DETAIL words that its work gives. ATTN_FWD, ATTN_BWD and KV_APPEND read their structures first,
PREFETCH_STREAM its schedule; the staged copies that live tasks still lack follow the end of a command that frees
credits. (the model's reading of R57, R61, R68, R75, R110, R148, R160, R161, R162, R233, R246, R258) -/
def Obligations.WorkRunsInUnitsToItsEnd : Prop :=
  (movesAs .copy 0x10 copyWork ∧ movesAs .fill 0x11 fillWork ∧
    movesAs .gather 0x12 (fun k c => indexedWork k c false) ∧ movesAs .scatter 0x13 (fun k c => indexedWork k c true) ∧
    movesAs .spill 0x15 spillWork ∧ movesAs .promote 0x16 promoteWork) ∧
  (worksAs .gemm 0x20 mxWork ∧ worksAs .gemmAcc 0x21 mxWork ∧ worksAs .dist 0x22 mxWork ∧
    worksAs .cmpSelect 0x23 selWork) ∧
  (worksAs .vop 0x30 vopWork ∧ worksAs .scan 0x31 axisWork ∧ worksAs .segscan 0x32 axisWork ∧
    worksAs .reduce 0x33 axisWork ∧ worksAs .norm 0x34 axisWork ∧
    worksAs .softmax 0x35 axisWork ∧ worksAs .rope 0x36 ropeWork ∧
    worksAs .rngFill 0x37 rngWork ∧ worksAs .amax 0x38 amaxWork) ∧
  (worksAs .kvPage 0x43 kvPageWork ∧ worksAs .bucketSort 0x44 bucketWork ∧
    worksAs .cmpPack 0x50 (cmpWork true) ∧ worksAs .cmpUnpack 0x51 (cmpWork false)) ∧
  (∀ (slot : SlotId) (s : State) (c : Cmd) (st d0 d1 : Nat) (h1 h' : Hw),
    let attnBegun := fun (bwd : Bool) => modCmd s.hw slot.val fun c =>
      { c with buffer := [(par c.packet 0x30 8, attnWorkBytes bwd c.packet)] }
    (∀ pl, ready s.hw slot.val 0x40 c → runOn (attnPlan (whoOf slot.val c) c.packet) (attnBegun false) = (.ok pl, h1) →
      workEnds slot.val (attnWork false slot.val c pl.1 pl.2) c (beginTiles slot.val c h1) st d0 d1 h' →
      effect (.attnFwd slot) s (stageLive h') ∧ ended h' slot.val st d0 d1) ∧
    (∀ pl, ready s.hw slot.val 0x41 c → runOn (attnPlan (whoOf slot.val c) c.packet) (attnBegun true) = (.ok pl, h1) →
      workEnds slot.val (attnWork true slot.val c pl.1 pl.2) c (beginTiles slot.val c h1) st d0 d1 h' →
      effect (.attnBwd slot) s (stageLive h') ∧ ended h' slot.val st d0 d1) ∧
    (∀ w, ready s.hw slot.val 0x42 c → runOn (kvAppendPlan slot.val c) s.hw = (.ok w, h1) →
      workEnds slot.val w c (beginTiles slot.val c h1) st d0 d1 h' →
      effect (.kvAppend slot) s (stageLive h') ∧ ended h' slot.val st d0 d1) ∧
    (ready s.hw slot.val 0x14 c → served s.hw slot.val c = true →
      runOn (streamPre slot.val c) s.hw = (.ok (), h1) →
      workEnds slot.val (streamWork slot.val c h1) c h1 st d0 d1 h' →
      ∃ h'' x, x = stageLive h' ∧ h'' = perfRegs dmaPerf (c.mask.filter (tileReady x)) x ∧
        effect (.prefetchStream slot) s h'' ∧ ended h'' slot.val st d0 d1))

/-- PAWN_OP, DIGEST and PAWN_GEMV whose checks pass, whose pawns get their tokens and finish their shares end with the
status and DETAIL words of their work. TOKEN_RETURN of a pawn that has spent its token gives the token up and asks
again, behind the requests that wait; it changes tokens only, and does nothing where no spent token is held. Grants
never bring a stack's tokens above its limit. (the model's reading of R206, R207, R208, R218, R220) -/
def Obligations.PawnsWorkUnderTokens : Prop :=
  (∀ (slot : SlotId) (s : State) (c : Cmd) (st d0 d1 : Nat) (h' : Hw),
    (ready s.hw slot.val 0x60 c → pawnEnds slot.val (pawnOpJob slot.val c) c s.hw st d0 d1 h' →
      effect (.pawnOp slot) s h' ∧ ended h' slot.val st d0 d1) ∧
    (ready s.hw slot.val 0x62 c → pawnEnds slot.val (digestJob slot.val c) c s.hw st d0 d1 h' →
      effect (.digest slot) s h' ∧ ended h' slot.val st d0 d1) ∧
    (ready s.hw slot.val 0x63 c → pawnEnds slot.val (gemvJob slot.val c) c s.hw st d0 d1 h' →
      effect (.pawnGemv slot) s h' ∧ ended h' slot.val st d0 d1)) ∧
  (∀ (k : StackId) (p : Fin 512) (s : State),
    let key := pawnKey k.val p.val
    ((∀ slot, smFind s.hw.tokens key ≠ some (slot, true)) → effect (.tokenReturn k p) s s.hw) ∧
    (∀ slot, smFind s.hw.tokens key = some (slot, true) →
      ∃ h', effect (.tokenReturn k p) s h' ∧
        h' = { s.hw with tokens := h'.tokens, tokenWaits := h'.tokenWaits } ∧
        (limitEff s.hw k.val ≤ holdersOf { s.hw with tokens := smDel s.hw.tokens key } k.val →
          smFind h'.tokens key = none ∧ h'.tokenWaits = s.hw.tokenWaits ++ [(slot, key)]) ∧
        (holdersOf { s.hw with tokens := smDel s.hw.tokens key } k.val < limitEff s.hw k.val →
          (∀ x ∈ s.hw.tokenWaits, x.2 / 512 ≠ k.val) →
          smFind h'.tokens key = some (slot, false) ∧ h'.tokenWaits = s.hw.tokenWaits))) ∧
  (∀ (n k : Nat) (h : Hw), holdersOf (grantTokens n h k) k ≤ max (limitEff h k) (holdersOf h k))

/-- A collective whose levels are done and whose writes are made ends DONE with the bytes it received: SEND when the
partner's CLOSE has come, RECV at once, rank 0 of a group when every child's CLOSE has come, any other member when the
downward CLOSE has come; until then it waits. One whose route has a port that is not UP, and comes back from no QUIET,
ends LINK_LOST, and its time limit ends it COLLECTIVE_TIMEOUT with its rank in DETAIL1. It is live no more then.
DIVERGENCE_REFRESH ends the state of a divergence with the number of the blocks that differ; where RING_HALT is set or
more than 64 differ it changes no memory and halts every enabled ring; a source has then served its members (log 28).
(the model's reading of R316, R318, R321, R323, R324, R325, R346) -/
def Obligations.CollectivesClose : Prop :=
  (∀ (i : SlotId → Instr) (op : Nat), (i, op) ∈ [(Instr.reduceScatter, 0x70), (Instr.allGather, 0x71),
      (Instr.allToAll, 0x72), (Instr.broadcast, 0x73), (Instr.send, 0x74), (Instr.recv, 0x75), (Instr.barrier, 0x76)] →
    ∀ (slot : SlotId) (s : State) (c : Cmd) (v : CollView), ready s.hw slot.val op c →
      collAt s.hw slot.val = some v →
      let d0 := if op = 0x70 then v.coll.flags % 32
        else if op = 0x72 then v.coll.blocks.foldl (fun n b => n + b.2.length / clRow c.packet) 0 else 0
      let done := ∃ h', effect (i slot) s h' ∧ ended h' slot.val 0 d0 v.coll.bytesIn ∧
        ∀ x ∈ h'.colls, x.slot ≠ slot.val
      (v.coll.setupSent = true → v.coll.written = true → levels v ≤ v.coll.level →
        (op = 0x74 → (v.coll.ups ≠ [] → done) ∧ (v.coll.ups = [] → effect (i slot) s s.hw)) ∧
        (op = 0x75 → v.partners ≠ [] → done) ∧
        (op ≠ 0x74 → op ≠ 0x75 →
          (v.coll.upSent = true → v.coll.down.isSome = true → done) ∧
          (v.coll.upSent = true → v.coll.down = none → effect (i slot) s s.hw) ∧
          (v.coll.upSent = false → (v.coll.ups.length < (children v.group).length ∨ closeReady v = false) →
            effect (i slot) s s.hw) ∧
          (v.coll.upSent = false → (children v.group).length ≤ v.coll.ups.length → closeReady v = true →
            (v.group.rank = 0 → done) ∧
            (v.group.rank ≠ 0 → ∃ h' v', effect (i slot) s h' ∧ collAt h' slot.val = some v' ∧
              v'.coll.upSent = true ∧ cmdAt h' slot.val = cmdAt s.hw slot.val)))) ∧
      (v.coll.setupSent = false → (∀ p, (portAux s.hw p).rejoins = false) → ∀ q < 12, (routePorts s.hw v).contains q = true → portUp s.hw q = false →
        (∀ p < q, (routePorts s.hw v).contains p = true → portUp s.hw p = true) →
        ∃ h', effect (i slot) s h' ∧ ended h' slot.val 0x40 q v.group.rank ∧ ∀ x ∈ h'.colls, x.slot ≠ slot.val)) ∧
  (∀ (slot : SlotId) (s : State) (v : CollView), collAt s.hw slot.val = some v →
    (v.cmd.phase = .running → v.audit = false → collLimit s.hw v.cmd ≠ 0 →
      ∃ h', effect (.collTimeoutExpiry slot) s h' ∧ ended h' slot.val 0x42 0 v.group.rank ∧
        ∀ x ∈ h'.colls, x.slot ≠ slot.val) ∧
    (collLimit s.hw v.cmd = 0 → effect (.collTimeoutExpiry slot) s s.hw)) ∧
  (∀ (blocks : List RefreshBlock) (s : State),
    let differ := blocks.filter (blockDiffers s.hw)
    let halted := fun (h' : Hw) => h'.mem = s.hw.mem ∧ h'.slots = s.hw.slots ∧
      ∀ n < 64, ringEnabled s.hw n = true → ringHalted h' n = true
    (s.hw.ckpt.serves = [] → regBit s.hw 0x600000 2 = false → effect (.divergenceRefresh blocks) s s.hw) ∧
    (s.hw.ckpt.serves = [] → regBit s.hw 0x600000 2 = true →
      ∃ h', effect (.divergenceRefresh blocks) s h' ∧ regBit h' 0x600000 2 = false ∧
        regFld h' 0x600020 31 16 = min 65535 differ.length ∧
        (regBit s.hw 0x600148 30 = true ∨ 64 < differ.length → halted h') ∧
        (differ = [] → h'.mem = s.hw.mem ∧ h'.slots = s.hw.slots)) ∧
    (s.hw.ckpt.serves ≠ [] → ∃ h', effect (.divergenceRefresh blocks) s h' ∧ h'.ckpt.serves = [] ∧
      (64 < blocks.length → halted h')))

/-- A running QUERY, TELEMETRY or ATTEST whose output can be written ends DONE with DETAIL0 the bytes of its report,
which it writes. NOTATE whose checks fail ends with what they say; its records leave once every unit of its pieces has
arrived, and once every buddy has acknowledged its own it ends DONE with the step to resume and the bytes sent; a port
of its five that is not UP ends it LINK_LOST and a buddy that refuses BAD_PARAM with cause 3. RESTORE under a step
that is open or closes ends BAD_PARAM with cause 7; otherwise it asks its buddies for their records, with the answers
of all five for four pieces, for parity where a quarter cannot be read, and ends as its steps give. VERIFY of a
generation whose five digests the buddies repeat ends DONE with that generation and writes nothing. INVALIDATE_SLOTS
ends every piece being received. (the model's reading of R335, R338, R342, R343, R395, R464, R465, R466) -/
def Obligations.ReportsAndNotation : Prop :=
  (∀ (slot : SlotId) (s : State) (c c1 : Cmd) (h1 : Hw), cmdAt h1 slot.val = some c1 →
    let writes := fun (h : Hw) (bs : List Byte) =>
      runOn (wr (whoOf slot.val c) (par c.packet 0 8) bs) h = (.ok (), h1)
    (∀ bs, bs = queryReport s.fuses s.hw → ready s.hw slot.val 0xF0 c → writes s.hw bs →
      ∃ h', effect (.query slot) s h' ∧ ended h' slot.val 0 bs.length 0 ∧ h'.mem = h1.mem) ∧
    (∀ bs, bs = telemetryReport s.fuses s.hw c → ready s.hw slot.val 0xF1 c →
      writes { s.hw with draws := s.hw.draws + 1 } bs →
      ∃ h', effect (.telemetry slot) s h' ∧ ended h' slot.val 0 bs.length 0 ∧ h'.mem = h1.mem) ∧
    (∀ bs, bs = attestReport s.fuses s.hw c → ready s.hw slot.val 0xF2 c → writes s.hw bs →
      ∃ h', effect (.attest slot) s h' ∧ ended h' slot.val 0 bs.length 0 ∧ h'.mem = h1.mem)) ∧
  (∀ (slot : SlotId) (s : State) (c : Cmd) (accepted acked : List Bool), ready s.hw slot.val 0x90 c →
    let i : Instr := .notate slot accepted acked
    let c0 := { c with priv := 0 :: noteWords s.hw }
    (∀ st d0 d1 h1 c1, c.priv = [] →
      runOn (noteCheck slot.val c0) (setCmd s.hw slot.val c0) = (.error (.stop st d0 d1), h1) →
      cmdAt h1 slot.val = some c1 → taskOf h1 slot.val = none →
      ∃ h', effect i s h' ∧ ended h' slot.val st d0 d1) ∧
    (c.priv.head? = some 3 → buddyLost s.hw = none →
      (unitsOut s.hw = true → effect i s s.hw) ∧
      (unitsOut s.hw = false → ∃ h' d, effect i s h' ∧ cmdAt h' slot.val = some d ∧ d.priv = 4 :: c.priv.drop 1 ∧
        h'.mem = s.hw.mem)) ∧
    (c.priv.head? = some 4 → buddyLost s.hw = none → acked = List.replicate 5 true →
      ∃ h', effect i s h' ∧
        ended h' slot.val 0 ((noteRecordWords c).getD 0 0) (5 * pieceBytes (noteQ (noteExtents c)))) ∧
    (∀ k q, c.priv.head? = some k → k ≠ 0 → buddyLost s.hw = some q → taskOf s.hw slot.val = none →
      ∃ h', effect i s h' ∧ ended h' slot.val 0x40 q 0) ∧
    (∀ k, c.priv.head? = some 2 → buddyLost s.hw = none → accepted.length = 5 →
      (List.range 5).find? (fun i => !accepted.getD i true) = some k →
      ∃ h', effect i s h' ∧ ended h' slot.val 0x11 (2 ^ 63 + 3 * 2 ^ 48) (piecePort s.hw k))) ∧
  (∀ (slot : SlotId) (s : State) (c : Cmd) (answers_ : List BuddyAnswer), ready s.hw slot.val 0x91 c →
    let i : Instr := .restore slot answers_
    (c.priv = [] → (stepOpen s.hw = true ∨ stepClosing s.hw = true) →
      ∃ h', effect i s h' ∧ endsOnly s.hw h' slot.val c 0x11 (2 ^ 63 + 7 * 2 ^ 48) 0) ∧
    (∀ es h1, c.priv = [] → runOn (restoreCheck slot.val c) s.hw = (.ok es, h1) →
      effect i s (askBuddies .askRecords (modCmd h1 slot.val fun c => { c with priv := 32 :: flatPairs es }))) ∧
    (∀ m ws, c.priv = m :: ws →
      (answers_.length ≠ 5 → effect i s s.hw) ∧
      (answers_.length = 5 → ∀ g h1, runOn (restoreGen (pairsOf ws) answers_ c) s.hw = (.ok g, h1) →
        let asked := pieceNumbers m
        let more := if asked = [] then firstPieces (heldPieces answers_ g)
          else if wantsParity answers_ g asked = true then [4] else []
        (more ≠ [] → ∃ h' d, effect i s h' ∧ cmdAt h' slot.val = some d ∧
          d.priv = (32 + ((asked ++ more).map (2 ^ ·)).sum) :: flatPairs (pairsOf ws) ∧ h'.mem = s.hw.mem) ∧
        (more = [] → ∀ st d0 d1 h', runsAs slot.val (restore slot.val (pairsOf ws) asked answers_ c) s.hw st d0 d1 h' →
          effect i s h' ∧ ended h' slot.val st d0 d1)))) ∧
  (∀ (slot : SlotId) (s : State) (c : Cmd) digests g, ready s.hw slot.val 0x92 c → noteValid s.hw = true →
    digests.length = 5 →
    let gen := if par c.packet 0 8 = 0 then getReg64 s.hw 0x600008 else par c.packet 0 8
    s.hw.ckpt.gens.find? (fun g => g.1 = gen) = some g → digests = g.2.map some →
    (c.priv ≠ [] → ∃ h', effect (.verify slot digests) s h' ∧ endsOnly s.hw h' slot.val c 0 gen 0) ∧
    (c.priv = [] → ∃ h', effect (.verify slot digests) s h' ∧ ended h' slot.val 0 gen 0 ∧ h'.mem = s.hw.mem)) ∧
  (∀ (w : World) (s : State), acts s.hw w 0x600004 = true →
    ∃ h', effect (.invalidateSlots w) s h' ∧ h'.ckpt.rx = [] ∧ h'.slots = s.hw.slots ∧
      (∀ sp a, sp ≠ .hbm → h'.mem.read sp a = s.hw.mem.read sp a))

/-- A management READ of 1 to 64 bytes outside OFF answers as many bytes and changes nothing else, but that one which
reaches the end of the sticky log releases MGMT_ALERT_N; any other is ignored. A JTAG instruction that the TAP takes
selects its data register, DIE_SELECT the dies of the chain, which in BYPASS has a bit for each; one that the life
cycle refuses loads BYPASS. A register write narrower than a dword or not aligned to one is dropped and recorded; one
of 8 bytes is two, the lower address first. A write to the identity, status and build pages changes nothing; one to
the component registers is kept in order; one to an event counter changes that counter only, in the bits its access
code lets the writer's world write. (the model's reading of R372, R407, R420, R421, R462, R469, R470, R477) -/
def Obligations.PlainAccesses : Prop :=
  ∀ s : State,
    (∀ sp off n,
      (s.hw.pkg ≠ .off → 0 < n → n ≤ 64 → ∃ h' bs, effect (.mgmtRead sp off n) s h' ∧ bs.length = n ∧
        h'.mgmtOut = s.hw.mgmtOut ++ bs ∧
        h' = { s.hw with mgmtOut := h'.mgmtOut, pins := { s.hw.pins with mgmtAlertN := h'.pins.mgmtAlertN } } ∧
        (h'.pins.mgmtAlertN = true ↔ s.hw.pins.mgmtAlertN = true ∧
          ¬ (sp = .sticky ∧ 64 * s.hw.errs.sticky.length ≤ off + n))) ∧
      ((s.hw.pkg = .off ∨ n = 0 ∨ 64 < n) → effect (.mgmtRead sp off n) s s.hw)) ∧
    (∀ ir, s.hw.pkg ≠ .off →
      (jtagTakes s.fuses s.hw ir = true → ∃ h', effect (.jtagInstruction ir) s h' ∧ h'.jtag.ir = ir ∧
        h'.jtag.refused = false ∧ h'.jtag.dr = jtagRegister ir ∧ h' = { s.hw with jtag := h'.jtag } ∧
        (∀ ds, ir = .dieSelect ds → h'.jtag.selected = ds ∧ h'.jtag.internal = []) ∧
        (ir = .bypass → s.hw.jtag.internal = [] →
          chainBits h'.jtag = some ((List.range 52).filter fun i => i = 0 || s.hw.jtag.selected.getLsbD i).length)) ∧
      (jtagTakes s.fuses s.hw ir = false → ∃ h', effect (.jtagInstruction ir) s h' ∧ h'.jtag.ir = .bypass ∧
        h'.jtag.refused = true ∧ h'.jtag.dr = some (1, 0) ∧ h' = { s.hw with jtag := h'.jtag })) ∧
    (∀ w off bytes v, acts s.hw w off = true →
      ((bytes < 4 ∨ off % 4 ≠ 0) → ∃ h' r rest, effect (.registerWrite w off bytes v) s h' ∧ h'.errs.log = r :: rest ∧
        r.source = 8 ∧ r.kind = 5 ∧ r.severity = 2 ∧ r.addr = BitVec.ofNat 64 off ∧ h'.mem = s.hw.mem ∧
        h'.slots = s.hw.slots) ∧
      (bytes = 8 → off % 4 = 0 → ∀ t, exec (.registerWrite w off 4 v) s = .next t → postedBefore t.hw w = false →
        exec (.registerWrite w off 8 v) s = exec (.registerWrite w (off + 4) 4 (v >>> 32)) t) ∧
      (bytes = 4 → off % 4 = 0 →
        ((blockOf off = .ident ∨ blockOf off = .gstatus ∨ blockOf off = .build) →
          effect (.registerWrite w off bytes v) s s.hw) ∧
        (blockOf off = .cxl → ∃ h', effect (.registerWrite w off bytes v) s h' ∧
          h'.host.component = s.hw.host.component ++ [(off, BitVec.ofNat 32 v.toNat)] ∧
          regsKept s.hw h' [rHostLink] ∧ (hostMode s.hw ≠ 1 → regsKept s.hw h' []) ∧
          h' = { s.hw with regs := h'.regs, freeRegs := h'.freeRegs,
                           host := { s.hw.host with component := h'.host.component } }) ∧
        (blockOf off = .ctr → ∃ h', effect (.registerWrite w off bytes v) s h' ∧ onlyRegs s.hw h' [off] ∧
          getReg h' off =
            (let i := regInfo off
             let mask : Word := BitVec.ofNat 32 (if w = .secure then i.rw ||| i.secureOnly else i.rw - (i.rw &&& i.secureOnly))
             let d : Word := BitVec.ofNat 32 v.toNat
             (getReg s.hw off &&& ~~~mask ||| d &&& mask) &&& ~~~(d &&& BitVec.ofNat 32 i.w1c)))))

/-! Ports and cells (R241, R295-R307, R318-R324, R336) -/

/-- ENABLE of a dark port with both laser inputs begins to lock; without ENABLE or any laser input, or one input short
in UP, a port is dark. With both inputs lanes that lock lead to ALIGNING, alignment to HELLO, the third keepalive in a
row whose CRC holds to UP under the next LINK_EPOCH with full credits. A bound passed before UP, a lane lost in
ALIGNING or HELLO, and RETRAIN lead back to LOCKING, as light does for a LOST port with AUTO; a bound, RETRAIN and
light leave an INFO record. In HELLO, and in UP with all lanes locked, keepalives leave and are taken. An UP port
whose lanes lock again keeps its state. An event for another state changes nothing. RETRAIN, the end of ENABLE and of
light are stated for a port with no collective on it. (the model's reading of R296, R297, R304, R307, R491, Table
12-1, Table 12-14, Table 20-7) -/
def Obligations.PortStates : Prop :=
  ∀ (q : PortId) (w : World) (s : State),
    let st := portState s.hw q.val
    let a := portAux s.hw q.val
    let free := collsOn s.hw q.val = []
    let may := s.hw.pkg ∉ [.quiet, .resigned, .off, .aux] ∧ (s.hw.pkg = .bringup → 5 ≤ s.hw.bringStep) ∧
      s.hw.supplies.refclkSys = true ∧ s.hw.sec.halted = false ∧ portLost s.hw q.val = false
    let recorded := fun (h' : Hw) => ∃ r, h'.errs.log.head? = some r ∧ r.source = 5 ∧ r.kind = 7 ∧ r.severity = 0 ∧
      r.unit = q.val ∧ h'.mem = s.hw.mem ∧ h'.slots = s.hw.slots
    let fec := { s.hw with draws := s.hw.draws + 2 }
    let runs := portRuns s.hw q.val = true
    (acts s.hw w (rPort q.val 4) = true →
      (st = 0 → may → laserOk s.hw q.val = true → ∃ h', effect (.portEnable w q true) s h' ∧
        portState h' q.val = 1 ∧ onlyPort s.hw h' q.val [0, 4]) ∧
      (free → ∃ h', effect (.portEnable w q false) s h' ∧ portState h' q.val = 0 ∧
        getReg h' (rPort q.val 0x3C) = 0 ∧ (portAux h' q.val).replay = [] ∧ h'.mem = s.hw.mem ∧ h'.slots = s.hw.slots) ∧
      (st = 0 → effect (.retrain w q) s s.hw) ∧
      (st ≠ 0 → free → ∃ h', effect (.retrain w q) s h' ∧ portState h' q.val = 1 ∧ (portAux h' q.val).replay = [] ∧
        recorded h')) ∧
    (st = 1 → laserOk s.hw q.val = true → ∃ h', effect (.lanesLocked q) s h' ∧ portState h' q.val = 2 ∧
      getReg h' (rPort q.val 0x3C) = 0xFFFFFFFF ∧ onlyPort s.hw h' q.val [0, 0x3C]) ∧
    (st = 4 → laserOk s.hw q.val = true → a.queue = [] → ∃ h', effect (.lanesLocked q) s h' ∧
      portRuns h' q.val = true ∧ onlyPort s.hw h' q.val [0x3C]) ∧
    ((st ≠ 1 ∧ st ≠ 4 ∨ laserOk s.hw q.val = false) → effect (.lanesLocked q) s s.hw) ∧
    (st = 2 → ∃ h', effect (.aligned q) s h' ∧ portState h' q.val = 3 ∧ (portAux h' q.val).good = 0 ∧
      onlyPort s.hw h' q.val [0]) ∧
    (st ≠ 2 → effect (.aligned q) s s.hw) ∧
    ((st = 3 ∨ runs) → ∃ h' c p, effect (.keepaliveSend q) s h' ∧ (portAux h' q.val).out = a.out ++ [c] ∧
      crcOk c = true ∧ c.type = 0 ∧ c.payload = .keepalive p ∧ p.serial = s.fuses.serial ∧ p.port = BitVec.ofNat 4 q.val ∧
      p.epoch = getReg s.hw rEpoch ∧ p.linkEpoch = a.linkEpoch ∧ onlyPort s.hw h' q.val [0x2C]) ∧
    (st ≠ 3 → ¬ runs → effect (.keepaliveSend q) s s.hw) ∧
    (∀ (c : Cell) (p : KeepalivePay), crcOk c = true → c.type = 0 → c.payload = .keepalive p → a.queue = [] →
      (st = 3 → 2 ≤ a.good → ∃ h', effect (.keepalive q c) s h' ∧ portState h' q.val = 4 ∧
        (portAux h' q.val).linkEpoch = a.linkEpoch + 1 ∧ (portAux h' q.val).credits = [64, 2048, 1024, 1024] ∧
        (portAux h' q.val).txSeq = 0 ∧ (portAux h' q.val).rxSeq = 0 ∧ (portAux h' q.val).replay = [] ∧
        onlyPort fec h' q.val [0, 8, 0xC, 0x10, 0x14, 0x18, 0x1C, 0x30, 0x40]) ∧
      ((st = 3 ∧ a.good < 2 ∨ runs) → ∃ h', effect (.keepalive q c) s h' ∧ portState h' q.val = st ∧
        (portAux h' q.val).good = a.good + 1 ∧ getReg h' (rPort q.val 0x14) = p.epoch ∧
        onlyPort fec h' q.val [0, 8, 0xC, 0x10, 0x14, 0x18, 0x1C, 0x30]) ∧
      (st ≠ 3 → ¬ runs → effect (.keepalive q c) s s.hw)) ∧
    ((st = 1 ∨ st = 2 ∨ st = 3) → ∃ h', effect (.portStateBound q) s h' ∧ portState h' q.val = 1 ∧
      regFld h' (rPort q.val 0) 27 24 = 6 ∧ recorded h') ∧
    ((st = 0 ∨ 4 ≤ st) → effect (.portStateBound q) s s.hw) ∧
    (∀ l0 l1,
      ((l0 || l1) = false ∨ st = 4 ∧ (l0 && l1) = false → free → ∃ h', effect (.laserInputChange q l0 l1) s h' ∧ portState h' q.val = 0) ∧
      (l0 = true → l1 = true → st = 0 → may → regBit s.hw (rPort q.val 4) 0 = true →
        ∃ h', effect (.laserInputChange q l0 l1) s h' ∧ portState h' q.val = 1 ∧ onlyPort s.hw h' q.val [0, 0x3C]) ∧
      ((l0 ≠ l1 ∧ st ≠ 4 ∨ (l0 && l1) = true ∧ st ≠ 0) → ∃ h', effect (.laserInputChange q l0 l1) s h' ∧
        portState h' q.val = (if l0 ≠ l1 ∧ (st = 2 ∨ st = 3) then 1 else st) ∧
        laserOk h' q.val = (l0 && l1) ∧ (∀ i < 8, l0 = false → regBit h' (rPort q.val 0x3C) i = false) ∧
        (∀ i < 8, l1 = false → regBit h' (rPort q.val 0x3C) (8 + i) = false) ∧ onlyPort s.hw h' q.val [0, 0x3C])) ∧
    (∀ lane : Fin 32, ∃ h', effect (.laneLockLoss q lane) s h' ∧ regBit h' (rPort q.val 0x3C) lane.val = false ∧
      portState h' q.val = (if st = 2 ∨ st = 3 then 1 else st) ∧ onlyPort fec h' q.val [0, 0x3C]) ∧
    (st = 5 → regBit s.hw (rPort q.val 4) 2 = true → ∃ h', effect (.lightReturn q) s h' ∧
      (portAux h' q.val).light = true ∧ portState h' q.val = 1 ∧ recorded h') ∧
    (st ≠ 5 ∨ regBit s.hw (rPort q.val 4) 2 = false → ∃ h', effect (.lightReturn q) s h' ∧
      (portAux h' q.val).light = true ∧ onlyPort s.hw h' q.val [])

/-- On a port that runs, with nothing queued, a CREDIT cell returns its credits and acknowledges, a NAK cell makes
every cell after its ACK leave again, and a reserved cell counts. A failed CRC, and a sequenced cell out of order, are
answered by a NAK that names the last good cell, and take nothing; every cell whose CRC fails does what a failed CRC
does. A replay timeout sends what is unacknowledged again; a credit timeout sends what is owed. A port that does not
run takes none of these. A failed tag, silence, an ACK that makes no progress, QUIET and RESIGN lose the partner with
their causes: the port is LOST, and a collective on it ends LINK_LOST. (the model's reading of R298, R299, R300, R301,
R303, R305, R306, Table 12-6) -/
def Obligations.LinkLayerKeepsOrder : Prop :=
  ∀ (q : PortId) (c : Cell) (s : State),
    let st := portState s.hw q.val
    let a := portAux s.hw q.val
    let kept := fun (h' : Hw) => ∀ x ∈ (portAux h' q.val).replay,
      x ∈ a.replay ∧ 2048 ≤ (c.ack.toNat + 4096 - x.seq.toNat) % 4096
    let naks := fun (h' : Hw) => ∃ n, (portAux h' q.val).out = a.out ++ [n] ∧ n.type = 2 ∧
      crcOk n = true ∧ n.ack = BitVec.ofNat 12 a.rxSeq ∧ (portAux h' q.val).rxSeq = a.rxSeq
    let runs := portRuns s.hw q.val = true
    (runs → crcOk c = true → a.queue = [] →
      (c.type = 1 → ∃ h', effect (.credit q c) s h' ∧ kept h' ∧ (portAux h' q.val).credits =
        a.credits.set c.crVc.toNat (a.credits.getD c.crVc.toNat 0 + c.crCnt.toNat) ∧ onlyPort s.hw h' q.val [0x30]) ∧
      (c.type = 2 → ∃ h', effect (.nak q c) s h' ∧ kept h' ∧
        getReg h' (rPort q.val 0x20) = satAdd (getReg s.hw (rPort q.val 0x20)) 1 ∧
        (portAux h' q.val).out.length = a.out.length + (portAux h' q.val).replay.length ∧
        onlyPort s.hw h' q.val [0x20, 0x2C, 0x30]) ∧
      (∀ i t, seqCell i = some (q, c, t) → c.type.toNat = t → c.seq.toNat ≠ (a.rxSeq + 1) % 4096 →
        ∃ h', effect i s h' ∧ naks h' ∧ kept h' ∧ onlyPort s.hw h' q.val [0x2C, 0x30])) ∧
    (runs → crcOk c = true → 14 ≤ c.type.toNat → ∃ h', effect (.badCells q c) s h' ∧
      getReg h' (rPort q.val 0x38) = satAdd (getReg s.hw (rPort q.val 0x38)) 1 ∧
      (portAux h' q.val).rxCount = a.rxCount + 1 ∧ onlyPort s.hw h' q.val [0x30, 0x38]) ∧
    (runs → ∃ h', effect (.cellCrcFailure q) s h' ∧ naks h' ∧
      onlyPort { s.hw with draws := s.hw.draws + 2 } h' q.val [0x2C]) ∧
    (st = 3 → ∃ h', effect (.cellCrcFailure q) s h' ∧ (portAux h' q.val).good = 0 ∧ onlyPort s.hw h' q.val []) ∧
    (st ≠ 3 → ¬ runs → effect (.cellCrcFailure q) s s.hw) ∧
    (crcOk c = false → ∀ i, (i ∈ [.keepalive q c, .credit q c, .nak q c, .badCells q c, .quiet q c, .resign q c] ∨
      ∃ t, seqCell i = some (q, c, t)) → exec i s = exec (.cellCrcFailure q) s) ∧
    (runs → a.replay ≠ [] → ∃ h', effect (.replayTimeout q) s h' ∧ (portAux h' q.val).replay = a.replay ∧
      getReg h' (rPort q.val 0x20) = satAdd (getReg s.hw (rPort q.val 0x20)) 1 ∧
      (portAux h' q.val).out.length = a.out.length + a.replay.length ∧ onlyPort s.hw h' q.val [0x20, 0x2C]) ∧
    (a.replay = [] → effect (.replayTimeout q) s s.hw ∧ effect (.ackTimeout q) s s.hw) ∧
    (∀ v : Fin 4, runs → 0 < a.owed.getD v.val 0 → ∃ h' n, effect (.creditTimeout q v) s h' ∧
      (portAux h' q.val).out = a.out ++ [n] ∧ crcOk n = true ∧ n.type = 1 ∧ n.crVc = BitVec.ofNat 2 v.val ∧
      n.crCnt = BitVec.ofNat 10 (min 1023 (a.owed.getD v.val 0)) ∧
      (portAux h' q.val).owed = a.owed.set v.val (a.owed.getD v.val 0 - min 1023 (a.owed.getD v.val 0)) ∧
      onlyPort s.hw h' q.val [0x2C]) ∧
    (∀ v : Fin 4, a.owed.getD v.val 0 = 0 → effect (.creditTimeout q v) s s.hw) ∧
    (¬ runs → crcOk c = true → effect (.credit q c) s s.hw ∧ effect (.nak q c) s s.hw ∧ effect (.badCells q c) s s.hw ∧
      (∀ i t, seqCell i = some (q, c, t) → effect i s s.hw)) ∧
    (st ≠ 3 → ¬ runs → crcOk c = true → effect (.quiet q c) s s.hw ∧ effect (.resign q c) s s.hw) ∧
    (∀ i cause, ((i = .keepaliveTimeout q ∧ cause = 1) ∨ (i = .ackTimeout q ∧ a.replay ≠ [] ∧ cause = 2) ∨
        (i = .quiet q c ∧ crcOk c = true ∧ c.type = 12 ∧ (st = 3 ∨ runs) ∧ cause = 4) ∨
        (i = .resign q c ∧ crcOk c = true ∧ c.type = 13 ∧ (st = 3 ∨ runs) ∧ cause = 5)) →
      (st ≠ 3 → st ≠ 4 → effect i s s.hw) ∧
      ((st = 3 ∨ st = 4) → collsOn s.hw q.val = [] → ∃ h', effect i s h' ∧ portState h' q.val = 5 ∧
        regFld h' (rPort q.val 0) 27 24 = cause ∧ (portAux h' q.val).replay = [] ∧ h'.mem = s.hw.mem ∧
        h'.slots = s.hw.slots) ∧
      ((st = 3 ∨ st = 4) → ∀ slot v, collsOn s.hw q.val = [slot] → collAt s.hw slot = some v → v.audit = false →
        ∃ h', effect i s h' ∧ ended h' slot 0x40 q.val v.group.rank)) ∧
    (∀ i t, seqCell i = some (q, c, t) → c.type.toNat = t → runs → crcOk c = true → a.queue = [] →
      c.seq.toNat = (a.rxSeq + 1) % 4096 → clearCell (takenCell s.hw q.val c) q.val c = none → collsOn s.hw q.val = [] →
      ∃ h', effect i s h' ∧ portState h' q.val = 5 ∧ regFld h' (rPort q.val 0) 27 24 = 3 ∧ h'.mem = s.hw.mem ∧
        h'.slots = s.hw.slots)

/-- A sequenced cell that a running port accepts in order with its CRC and tag holding: a collective's cell that is
for another member is forwarded, one whose collective is not live is discarded, and its buffer is free again. A SETUP
with no collective and no owed ABORT waits; an ABORT ends the member it meets with what it carries; a CLOSE of another
step ends it POSITION_MISMATCH, one of this step joins its closing pass; DATA joins what the member has received. A
deep-tier read and write are served from the lend window in the world the request carries, or refused; responses reach
their request. A checkpoint cell fills the slot that its port was given. (the model's reading of R241, R299, R318,
R319, R323, R324, R336) -/
def Obligations.CellsReachTheirUse : Prop :=
  ∀ (q : PortId) (c d : Cell) (s : State), taken s.hw q.val c d →
    let h1 := acceptedCell s.hw q.val c d
    let took := fun (vc : Nat) => freeBuffer h1 q.val vc
    (d.hops ≠ 0 → ∀ i t, seqCell i = some (q, c, t) → t ≤ 6 → c.type.toNat = t →
      effect i s (forwardCell h1 q.val d)) ∧
    (d.hops = 0 →
      (∀ p, c.type = 3 → d.payload = .setup p → setupTarget h1 d = none → owedTo h1 d = none →
        ∃ h', effect (.setup q c) s h' ∧ (portAux h' q.val).setups = (portAux h1 q.val).setups ++ [d] ∧
          onlyPort h1 h' q.val []) ∧
      (∀ p x v, c.type = 3 → d.payload = .setup p → setupTarget h1 d = some x → collAt (took 0) x.slot = some v →
        effect (.setup q c) s (advanceColl 64 (matchSetup (took 0) v q.val p) x.slot)) ∧
      (collOfCtx h1 d.ctx.toNat = none →
        (c.type = 4 → effect (.close q c) s (took 0)) ∧ (c.type = 5 → effect (.abort q c) s (took 0)) ∧
        (c.type = 6 → effect (.data q c) s (took 1))) ∧
      (∀ slot v, collOfCtx h1 d.ctx.toNat = some slot → collAt h1 slot = some v → v.audit = false →
        (∀ p, c.type = 4 → d.payload = .close p → p.stepLo ≠ getReg s.hw rStepLo →
          ∃ h', effect (.close q c) s h' ∧ ended h' slot 0x41 (3 + v.group.rank * 2 ^ 16) 0) ∧
        (∀ p, c.type = 4 → d.payload = .close p → p.stepLo = getReg s.hw rStepLo →
          effect (.close q c) s (advanceColl 64 (modColl (took 0) slot fun x =>
            if p.up then { x with ups := x.ups ++ [p] } else { x with down := some p }) slot)) ∧
        (∀ p, c.type = 5 → d.payload = .abort p →
          ∃ h', effect (.abort q c) s h' ∧ ended h' slot (abortedAs p).1 (abortedAs p).2.1 (abortedAs p).2.2 ∧
            ∀ x ∈ h'.colls, x.slot ≠ slot) ∧
        (∀ e, c.type = 6 → d.payload = .data e →
          effect (.data q c) s (advanceColl 64 (modColl (took 1) slot fun x =>
            { x with inbox := x.inbox ++ [(e.level, d.index.toNat, e.bytes)] }) slot)))) ∧
    (∀ w off n sec, c.type = 7 → d.payload = .dtRead w off n sec →
      ((65536 < n ∨ lendAddr s.hw sec w.toNat off.toNat n = none) →
        effect (.dtRead q c) s (sendCell (took 2) q.val (dtAnswerCell d .refused))) ∧
      (∀ pa bs h2, n ≤ 65536 → lendAddr s.hw sec w.toNat off.toNat n = some pa →
        readPa (took 2) (portWho sec q.val) pa n = (.bytes bs none, h2) →
        ∃ h', effect (.dtRead q c) s h' ∧ h'.mem = h2.mem ∧ h'.slots = h2.slots) ∧
      (∀ pa bs x h2, n ≤ 65536 → lendAddr s.hw sec w.toNat off.toNat n = some pa →
        readPa (took 2) (portWho sec q.val) pa n = (.bytes bs (some x), h2) →
        effect (.dtRead q c) s (sendCell h2 q.val (dtAnswerCell d .error)))) ∧
    (∀ w off sec bs, c.type = 8 → d.payload = .dtWrite w off sec bs →
      let o := off.toNat + d.index.toNat * 240
      (lendAddr s.hw sec w.toNat o bs.length = none →
        effect (.dtWrite q c) s (sendCell (took 2) q.val (dtAnswerCell d .refused))) ∧
      (∀ pa ys p h2, lendAddr s.hw sec w.toNat o bs.length = some pa →
        writePa (took 2) (portWho sec q.val) pa bs = (.bytes ys p, h2) →
        effect (.dtWrite q c) s (sendCell h2 q.val (dtAnswerCell d .acked)))) ∧
    (∀ bs, c.type = 10 → d.payload = .dtResp bs → effect (.dtResp q c) s
      (modReq (took 3) q.val d.ctx.toNat fun r => { r with got := r.got ++ [(d.index.toNat, bs)] })) ∧
    (∀ x, c.type = 11 → d.payload = .dtAck x → effect (.dtAck q c) s
      (modReq (took 3) q.val d.ctx.toNat fun r =>
        if x = .acked then { r with acks := r.acks + 1 } else { r with answer := some x })) ∧
    (c.type = 9 →
      (∀ n, d.payload = .ckpt (.openSlot n) → (recvPorts s.hw).contains q.val = false →
        effect (.ckpt q c) s (sendCell (took 2) q.val (ckptCell (.reply false)))) ∧
      (∀ pos bs half, d.payload = .ckpt (.units pos bs) → rxHalf s.hw q.val = some half →
        pos + bs.length + 4032 ≤ slotGib s.hw * GiB →
        effect (.ckpt q c) s (storePiece (took 2) q.val half pos bs)) ∧
      (∀ r half, d.payload = .ckpt (.record r) → rxHalf s.hw q.val = some half →
        ∃ h', effect (.ckpt q c) s h' ∧ rxHalf h' q.val = none ∧
          h'.mem = (writePa (took 2) (castle .secure) (slotBase s.hw q.val half) (slice r 0 128)).2.mem))

/-! Memory and numbers -/

/-- Under every memory map that keeps R173 (an octet is PACKAGE_WIDE only with the other two of its row), two backed
device physical addresses that lie at the same place are the same address; every HBM place decoded is within its
stack's 96 GiB, and every byte of the 24 stacks has an address. (the model's reading of R170, R171, R172, Table 7-2,
Table 7-3) -/
def Obligations.AddressesDecodeOnce : Prop :=
  ∀ h : Hw, (∀ n m, n < 288 → m < 288 → n / 3 = m / 3 → (octetMode h n = 1 ↔ octetMode h m = 1)) →
    (∀ a b, decodePa h a = decodePa h b → decodePa h a ≠ .unbacked → a = b) ∧
    (∀ a k y, decodePa h a = .hbm k y → k < 24 ∧ y < 96 * GiB) ∧
    (∀ k y, k < 24 → y < 96 * GiB → ∃ a, a < hbmEnd ∧ decodePa h a = .hbm k y)

/-- A write that stays in one 64-byte codeword of HBM or in a tile store, to a place that no other command holds and
the accessor's world may reach, without errors, poison or an armed injection, reads back as its bytes, and no other
byte of any memory changes. An access from the non-secure world to a secure region is refused, one behind a hold
waits, and neither changes a byte. (the model's reading of R170, R178, R180, R211, R390) -/
def Obligations.StoredBytesReadBack : Prop :=
  ∀ (h : Hw) (who : Who) (pa : Nat) (bs : List Byte), pa % 64 + bs.length ≤ 64 →
    (∀ t off, decodePa h pa = .tile t off →
      ∃ h1, writePaPiece h who pa bs = (.bytes [] none, h1) ∧ readPaPiece h1 who pa bs.length = (.bytes bs none, h1) ∧
        h1 = { h with mem := h1.mem } ∧
        (∀ sp a, ¬ (sp = .tile ∧ tileKey t off ≤ a ∧ a < tileKey t off + bs.length) →
          h1.mem.read sp a = h.mem.read sp a)) ∧
    (∀ k y, decodePa h pa = .hbm k y →
      ((who.world = .secure ∨ regionSecure h pa = false) → heldByOther h who (hbmKey k y) bs.length = false →
        cwErrs h (cwOf k y) = [] → isPoison h (cwOf k y) = false → regBit h (regOf (.stack k) 0x30) 31 = false →
        ∃ h1, writePaPiece h who pa bs = (.bytes [] none, h1) ∧
          (readPaPiece h1 who pa bs.length).1 = .bytes bs none ∧ regsKept h h1 [] ∧
          (∀ sp a, ¬ (sp = .hbm ∧ hbmKey k y ≤ a ∧ a < hbmKey k y + bs.length) →
            h1.mem.read sp a = h.mem.read sp a)) ∧
      (who.world = .nonSecure → regionSecure h pa = true →
        (∀ n, (readPaPiece h who pa n).1 = .refused ∧ (readPaPiece h who pa n).2.mem = h.mem) ∧
        (writePaPiece h who pa bs).1 = .refused ∧ (writePaPiece h who pa bs).2.mem = h.mem) ∧
      ((who.world = .secure ∨ regionSecure h pa = false) → heldByOther h who (hbmKey k y) bs.length = true →
        writePaPiece h who pa bs = (.held, h) ∧ readPaPiece h who pa bs.length = (.held, h)))

/-- In every floating format of Table 4-1 with one plane, the bits of a finite value convert back to themselves with
no flag, in either role and under any random word; an integer in the range of an integer format converts to itself,
and one beyond it saturates with OUT_SAT. (the model's reading of R91, R102, Table 4-1, Table 4-2, Table 4-4) -/
def Obligations.ConversionsKeepValues : Prop :=
  (∀ f ∈ [fp4, e4m3, e5m2, fp16, bf16, fp32, w40, m48], ∀ (w40_ gradient : Bool) (rnd : Option Word) (b : Nat),
    b < 2 ^ (1 + f.ebits + f.p) → (f.decode b).isNan = false → (∀ n, f.decode b ≠ .inf n) →
    convertFloat f w40_ gradient rnd (f.decode b) = Conv.mk b 0 false false) ∧
  (∀ (n : Nat) (v : Int), n = 4 ∨ n = 8 ∨ n = 32 →
    (-(2 ^ (n - 1)) ≤ v → v < 2 ^ (n - 1) → convertInt n (numOfInt v) = Conv.mk (enc2 n v) 0 false false) ∧
    (2 ^ (n - 1) ≤ v → convertInt n (numOfInt v) = Conv.mk (2 ^ (n - 1) - 1) outSat false false) ∧
    (v < -(2 ^ (n - 1)) → convertInt n (numOfInt v) = Conv.mk (2 ^ (n - 1)) outSat false false))
end

