-- ==== Sys2Proof/Laws/Sparse.lean ====
section
/-! SUPPORT. Laws of the sparse maps: reading after writing, and the canonical form kept. -/

namespace Sys2Proof.Machine

variable {α : Type} {dflt v : α} {m : List (Nat × α)} {j k : Nat}

theorem smGet_filter_ne (h : j ≠ k) : smGet dflt (m.filter fun e => decide (e.1 ≠ k)) j = smGet dflt m j := by
  induction m with
  | nil => rfl
  | cons e r ih =>
    by_cases he : e.1 = k
    · have hj : e.1 ≠ j := fun x => h (x.symm.trans he)
      rw [smGet, if_neg hj, ← ih, List.filter_cons, if_neg (by simpa using he)]
    · simp only [List.filter_cons, he, ne_eq, not_false_eq_true, decide_true, if_true, smGet]
      rw [ih]

@[simp] theorem smGet_smDel_self : smGet dflt (smDel m k) k = dflt := by
  induction m with
  | nil => rfl
  | cons e r ih =>
    by_cases he : e.1 = k
    · simpa [smDel, List.filter_cons, he] using ih
    · simpa [smDel, List.filter_cons, he, smGet] using ih

theorem smGet_smDel_ne (h : j ≠ k) : smGet dflt (smDel m k) j = smGet dflt m j := smGet_filter_ne h

theorem smGet_smInsert_ne (h : j ≠ k) : smGet dflt (smInsert k v m) j = smGet dflt m j := by
  induction m with
  | nil => simp [smInsert, smGet, Ne.symm h]
  | cons e r ih =>
    by_cases he : k < e.1
    · simp [smInsert, he, smGet, Ne.symm h]
    · simp only [smInsert, he, if_false, smGet, ih]

theorem smGet_smInsert_self (h : ∀ e ∈ m, e.1 ≠ k) : smGet dflt (smInsert k v m) k = v := by
  induction m with
  | nil => simp [smInsert, smGet]
  | cons e r ih =>
    by_cases he : k < e.1
    · simp [smInsert, he, smGet]
    · have h1 := h e (by simp)
      simp only [smInsert, he, if_false, smGet, h1]
      exact ih fun x hx => h x (by simp [hx])

@[simp] theorem smGet_smPut_self : smGet dflt (smPut m k v) k = v :=
  smGet_smInsert_self fun e he => by simpa [smDel] using (List.mem_filter.mp he).2

theorem smGet_smPut_ne (h : j ≠ k) : smGet dflt (smPut m k v) j = smGet dflt m j := by
  rw [smPut, smGet_smInsert_ne h, smGet_smDel_ne h]

theorem smGet_smPut : smGet dflt (smPut m k v) j = if j = k then v else smGet dflt m j := by
  by_cases h : j = k
  · subst h; simp
  · simp [h, smGet_smPut_ne h]

/-- Reading a map that a key was set in. -/
theorem smGet_smSet [DecidableEq α] : smGet dflt (smSet dflt m k v) j = if j = k then v else smGet dflt m j := by
  by_cases hv : v = dflt
  · by_cases h : j = k
    · subst h; simp [smSet, hv]
    · simp [smSet, hv, h, smGet_smDel_ne h]
  · simp [smSet, hv, smGet_smPut]

theorem smFind_eq_smGet : smFind m k = smGet none (m.map fun e => (e.1, some e.2)) k := by
  induction m with
  | nil => rfl
  | cons e r ih => simp only [List.map_cons, smGet, smFind, ih]

theorem smFind_smDel : smFind (smDel m k) j = if j = k then none else smFind m j := by
  rw [smFind_eq_smGet, smFind_eq_smGet]
  have : (smDel m k).map (fun e => (e.1, some e.2)) = smDel (m.map fun e => (e.1, some e.2)) k := by
    simp [smDel, List.filter_map, Function.comp_def]
  rw [this]
  by_cases h : j = k
  · subst h; simp
  · simp [h, smGet_smDel_ne h]

theorem map_smInsert (f : α → β) : (smInsert k v m).map (fun e => (e.1, f e.2)) =
    smInsert k (f v) (m.map fun e => (e.1, f e.2)) := by
  induction m with
  | nil => rfl
  | cons e r ih =>
    by_cases he : k < e.1
    · simp [smInsert, he]
    · simp [smInsert, he, ih]

theorem smFind_smPut : smFind (smPut m k v) j = if j = k then some v else smFind m j := by
  rw [smFind_eq_smGet, smFind_eq_smGet, smPut, map_smInsert]
  have : (smDel m k).map (fun e => (e.1, some e.2)) = smDel (m.map fun e => (e.1, some e.2)) k := by
    simp [smDel, List.filter_map, Function.comp_def]
  rw [this, ← smPut, smGet_smPut]

/-! The canonical form -/

theorem smSorted_mono {b c : Nat} (h : c ≤ b) (hs : smSorted b m = true) : smSorted c m = true := by
  cases m with
  | nil => rfl
  | cons e r =>
    simp only [smSorted, Bool.and_eq_true, decide_eq_true_eq] at hs ⊢
    exact ⟨Nat.le_trans h hs.1, hs.2⟩

theorem smSorted_filter {b : Nat} (p : Nat × α → Bool) (hs : smSorted b m = true) :
    smSorted b (m.filter p) = true := by
  induction m generalizing b with
  | nil => rfl
  | cons e r ih =>
    simp only [smSorted, Bool.and_eq_true, decide_eq_true_eq] at hs
    by_cases hp : p e
    · simp [hp, smSorted, hs.1, ih hs.2]
    · simp only [List.filter_cons, hp]
      exact ih (smSorted_mono (by omega) hs.2)

theorem smSorted_smInsert {b : Nat} (hb : b ≤ k) (hk : ∀ e ∈ m, e.1 ≠ k) (hs : smSorted b m = true) :
    smSorted b (smInsert k v m) = true := by
  induction m generalizing b with
  | nil => simp [smInsert, smSorted, hb]
  | cons e r ih =>
    have h1 := hk e (by simp)
    simp only [smSorted, Bool.and_eq_true, decide_eq_true_eq] at hs
    by_cases he : k < e.1
    · simp only [smInsert, he, if_true, smSorted, Bool.and_eq_true, decide_eq_true_eq]
      exact ⟨hb, by omega, hs.2⟩
    · simp only [smInsert, he, if_false, smSorted, Bool.and_eq_true, decide_eq_true_eq]
      exact ⟨hs.1, ih (by omega) (fun x hx => hk x (by simp [hx])) hs.2⟩

theorem mem_smInsert {e : Nat × α} : e ∈ smInsert k v m ↔ e = (k, v) ∨ e ∈ m := by
  induction m with
  | nil => simp [smInsert]
  | cons x r ih =>
    by_cases he : k < x.1
    · simp [smInsert, he]
    · simp only [smInsert, he, if_false, List.mem_cons, ih]
      tauto

theorem smSorted_smPut (hs : smSorted 0 m = true) : smSorted 0 (smPut m k v) = true :=
  smSorted_smInsert (Nat.zero_le _) (fun _ he => by simpa using (List.mem_filter.mp he).2)
    (smSorted_filter _ hs)

variable [DecidableEq α] {d : Nat → α}

theorem smWf_smDel (h : smWf d m = true) : smWf d (smDel m k) = true := by
  simp only [smWf, Bool.and_eq_true, List.all_eq_true] at h ⊢
  exact ⟨smSorted_filter _ h.1, fun e he => h.2 e (List.mem_filter.mp he).1⟩

theorem smWf_smSet (h : smWf d m = true) : smWf d (smSet (d k) m k v) = true := by
  by_cases hv : v = d k
  · simpa [smSet, hv] using smWf_smDel h
  · simp only [smSet, hv, if_false]
    have h' := h
    simp only [smWf, Bool.and_eq_true, List.all_eq_true] at h ⊢
    refine ⟨smSorted_smPut h.1, fun e he => ?_⟩
    rcases mem_smInsert.mp he with rfl | he
    · simpa using hv
    · exact h.2 e (List.mem_filter.mp he).1

theorem smWf_filter (p : Nat × α → Bool) (h : smWf d m = true) : smWf d (m.filter p) = true := by
  simp only [smWf, Bool.and_eq_true, List.all_eq_true] at h ⊢
  exact ⟨smSorted_filter _ h.1, fun e he => h.2 e (List.mem_filter.mp he).1⟩

end Sys2Proof.Machine
end

