-- ==== Sys2Proof/Laws/Memory.lean ====
section
/-! SUPPORT. Laws of memory: a byte read after a write, every other byte as before, and the canonical form kept. -/

namespace Sys2Proof.Machine

variable (m : Mem) (sp tp : Space) (a b n d : Nat) (c : List Host.Cell) (bs : List Byte)

@[simp] theorem cells_setCells : (m.setCells sp c).cells tp = if tp = sp then c else m.cells tp := by
  cases sp <;> cases tp <;> rfl

@[simp] theorem setCells_marks : (m.setCells sp c).marks tp = m.marks tp := by cases sp <;> rfl

@[simp] theorem setMarks_cells (rs : List FreeRange) : (m.setMarks sp rs).cells tp = m.cells tp := by
  cases sp <;> cases tp <;> rfl

@[simp] theorem setMarks_marks (rs : List FreeRange) : (m.setMarks sp rs).marks tp =
    if (tp = .tile ↔ sp = .tile) then rs else m.marks tp := by cases sp <;> cases tp <;> rfl

@[simp] theorem unfree_cells : (m.unfree sp a n).cells tp = m.cells tp := setMarks_cells ..

/-- A byte of stored cells. -/
theorem smGet_storeBytes (x : Nat) : smGet memDefault (storeBytes c a bs) x =
    if a ≤ x ∧ x < a + bs.length then bs.getD (x - a) 0 else smGet memDefault c x := by
  induction bs generalizing c a with
  | nil => simp [storeBytes]
  | cons b bs ih =>
    rw [storeBytes, ih]
    by_cases h1 : a + 1 ≤ x ∧ x < a + 1 + bs.length
    · have h2 : a ≤ x ∧ x < a + (b :: bs).length := by simp; omega
      rw [if_pos h1, if_pos h2]
      obtain ⟨k, rfl⟩ : ∃ k, x = a + 1 + k := ⟨x - (a + 1), by omega⟩
      have : a + 1 + k - a = k + 1 := by omega
      rw [this]; simp
    · rw [if_neg h1, smGet_smSet]
      by_cases h3 : x = a
      · subst h3; simp
      · have h2 : ¬(a ≤ x ∧ x < a + (b :: bs).length) := by simp; omega
        rw [if_neg h3, if_neg h2]

/-! Marks of undefined bytes -/

/-- Whether a mark covers an address. -/
def FreeRange.hits (r : FreeRange) (sp : Space) (a : Nat) : Bool :=
  decide (r.space = sp) && decide (r.base ≤ a) && decide (a < r.base + r.len)

theorem freeDraw_eq (x : Nat) : freeDraw m sp x = ((m.marks sp).find? fun r => r.hits sp x).map FreeRange.draw := rfl

theorem hits_iff (r : FreeRange) (x : Nat) : r.hits tp x = true ↔ r.space = tp ∧ r.base ≤ x ∧ x < r.base + r.len := by
  simp [FreeRange.hits, and_assoc]

theorem find_guarded (p : Prop) [Decidable p] (q : FreeRange) (x : Nat) (rs : List FreeRange) :
    (((if p then [q] else []) ++ rs).find? fun e => e.hits tp x).map FreeRange.draw =
    if p ∧ q.hits tp x then some q.draw else (rs.find? fun e => e.hits tp x).map FreeRange.draw := by
  by_cases hp : p <;> by_cases hq : q.hits tp x <;> simp [hp, hq]

/-- Cutting an interval out of a mark leaves its other addresses under the same draw. -/
theorem find_cut (r : FreeRange) (x : Nat) : ((r.cut sp a n).find? fun q => q.hits tp x).map FreeRange.draw =
    if tp = sp ∧ a ≤ x ∧ x < a + n then none else if r.hits tp x then some r.draw else none := by
  by_cases hc : r.space = sp ∧ a < r.base + r.len ∧ r.base < a + n
  · obtain ⟨rfl, h2, h3⟩ := hc
    rw [FreeRange.cut, if_pos ⟨rfl, h2, h3⟩, find_guarded, ← List.append_nil (if a + n < _ then _ else _), find_guarded]
    simp only [hits_iff, List.find?_nil, Option.map_none]
    by_cases ht : tp = r.space
    · subst ht
      simp only [true_and]
      split_ifs <;> first | rfl | omega
    · have ht' : ¬ r.space = tp := fun e => ht e.symm
      simp [ht, ht']
  · simp only [FreeRange.cut, hc, if_false, List.find?_cons, List.find?_nil]
    by_cases hh : r.hits tp x
    · have : ¬(tp = sp ∧ a ≤ x ∧ x < a + n) := by
        rw [hits_iff] at hh
        rintro ⟨rfl, h1, h2⟩
        exact hc ⟨hh.1, by omega, by omega⟩
      simp [hh, this]
    · simp [hh]

theorem find_flatMap_cut (rs : List FreeRange) (x : Nat) :
    ((rs.flatMap fun r => r.cut sp a n).find? fun q => q.hits tp x).map FreeRange.draw =
    if tp = sp ∧ a ≤ x ∧ x < a + n then none else (rs.find? fun q => q.hits tp x).map FreeRange.draw := by
  induction rs with
  | nil => simp
  | cons r rs ih =>
    have hc := find_cut sp tp a n r x
    rw [List.flatMap_cons, List.find?_append]
    by_cases hin : tp = sp ∧ a ≤ x ∧ x < a + n
    · rw [if_pos hin] at hc ih ⊢
      simp only [Option.map_eq_none_iff] at hc ih ⊢
      simp [hc, ih]
    · rw [if_neg hin] at hc ih ⊢
      rw [List.find?_cons]
      by_cases hh : r.hits tp x
      · simp only [hh, if_true] at hc ⊢
        cases hf : List.find? (fun q => q.hits tp x) (r.cut sp a n) with
        | none => simp [hf] at hc
        | some q => simpa [hf] using hc
      · simp only [hh, Bool.false_eq_true, if_false, Option.map_eq_none_iff] at hc ⊢
        simpa [hc] using ih

/-- Taking marks off an interval leaves every other address under its draw. -/
theorem freeDraw_unfree (x : Nat) : freeDraw (m.unfree sp a n) tp x =
    if tp = sp ∧ a ≤ x ∧ x < a + n then none else freeDraw m tp x := by
  rw [freeDraw_eq, Mem.unfree, setMarks_marks]
  by_cases h : tp = .tile ↔ sp = .tile
  · rw [if_pos h, find_flatMap_cut, freeDraw_eq]
    have : m.marks sp = m.marks tp := by
      by_cases ht : tp = .tile
      · rw [ht, h.mp ht]
      · rw [Mem.marks, Mem.marks, if_neg ht, if_neg fun e => ht (h.mpr e)]
    rw [this]
  · have : tp ≠ sp := fun e => h (e ▸ Iff.rfl)
    rw [if_neg h, if_neg fun e => this e.1, freeDraw_eq]

/-! Reading after writing -/

/-- A byte after a write: what was written there, and as before everywhere else. -/
theorem read_write (x : Nat) : (m.write sp a bs).read tp x =
    if tp = sp ∧ a ≤ x ∧ x < a + bs.length then bs.getD (x - a) 0 else m.read tp x := by
  by_cases he : bs.isEmpty
  · simp only [List.isEmpty_iff] at he
    subst he
    have hf : freeDraw (m.setCells sp (m.cells sp)) tp x = freeDraw m tp x := by simp [freeDraw_eq]
    simp only [Mem.write, List.isEmpty_nil, if_true, storeBytes, Mem.read, hf, cells_setCells]
    have : ¬(tp = sp ∧ a ≤ x ∧ x < a + ([] : List Byte).length) := by simp
    rw [if_neg this]
    cases freeDraw m tp x <;> simp only
    by_cases ht : tp = sp <;> simp [ht]
  · have hf : freeDraw ((m.unfree sp a bs.length).setCells sp (storeBytes (m.cells sp) a bs)) tp x =
        if tp = sp ∧ a ≤ x ∧ x < a + bs.length then none else freeDraw m tp x := by
      rw [← freeDraw_unfree]; simp [freeDraw_eq]
    simp only [Mem.write, he, Bool.false_eq_true, if_false, Mem.read, unfree_cells, hf, cells_setCells]
    by_cases hin : tp = sp ∧ a ≤ x ∧ x < a + bs.length
    · simp only [if_pos hin, if_pos hin.1, smGet_storeBytes, if_pos hin.2]
    · simp only [if_neg hin]
      cases freeDraw m tp x <;> simp only
      by_cases ht : tp = sp
      · subst ht
        have : ¬(a ≤ x ∧ x < a + bs.length) := fun e => hin ⟨rfl, e⟩
        simp [smGet_storeBytes, this]
      · simp [ht]

theorem read_write_self (i : Nat) (hi : i < bs.length) : (m.write sp a bs).read sp (a + i) = bs.getD i 0 := by
  have h : sp = sp ∧ a ≤ a + i ∧ a + i < a + bs.length := ⟨rfl, by omega, by omega⟩
  rw [read_write, if_pos h]
  simp

/-- The bytes written read back whole. -/
theorem readN_write : (m.write sp a bs).readN sp a bs.length = bs := by
  apply List.ext_getElem
  · simp [Mem.readN]
  · intro i h1 h2
    simp only [Mem.readN, List.getElem_map, List.getElem_range, read_write_self m sp a bs i h2]
    simp [List.getD, h2]

theorem read_write_other (x : Nat) (h : ¬(tp = sp ∧ a ≤ x ∧ x < a + bs.length)) :
    (m.write sp a bs).read tp x = m.read tp x := by rw [read_write, if_neg h]

/-- Keys outside an interval keep their values when the interval is cut out. -/
theorem smGet_cut (x : Nat) : smGet memDefault (c.filter fun e => decide (e.1 < a) || decide (a + n ≤ e.1)) x =
    if a ≤ x ∧ x < a + n then memDefault else smGet memDefault c x := by
  induction c with
  | nil => simp [smGet]
  | cons e r ih =>
    by_cases he : e.1 < a ∨ a + n ≤ e.1
    · have hp : (decide (e.1 < a) || decide (a + n ≤ e.1)) = true := by simpa using he
      rw [List.filter_cons, if_pos hp, smGet, smGet, ih]
      by_cases hx : e.1 = x
      · subst hx
        have : ¬(a ≤ e.1 ∧ e.1 < a + n) := by omega
        simp [this]
      · simp [hx]
    · have hp : ¬(decide (e.1 < a) || decide (a + n ≤ e.1)) = true := by simpa using he
      rw [List.filter_cons, if_neg hp, ih, smGet]
      by_cases hx : e.1 = x
      · subst hx
        have : a ≤ e.1 ∧ e.1 < a + n := by omega
        simp [this]
      · simp [hx]

/-- A byte after an interval was zeroed. -/
theorem read_zero (x : Nat) : (m.zero sp a n).read tp x =
    if tp = sp ∧ a ≤ x ∧ x < a + n then 0 else m.read tp x := by
  have hf : freeDraw ((m.unfree sp a n).setCells sp
      ((m.cells sp).filter fun c => decide (c.1 < a) || decide (a + n ≤ c.1))) tp x =
      if tp = sp ∧ a ≤ x ∧ x < a + n then none else freeDraw m tp x := by
    rw [← freeDraw_unfree]; simp [freeDraw_eq]
  simp only [Mem.zero, Mem.read, unfree_cells, hf, cells_setCells]
  by_cases hin : tp = sp ∧ a ≤ x ∧ x < a + n
  · simp only [if_pos hin, if_pos hin.1, smGet_cut, if_pos hin.2]
    rfl
  · simp only [if_neg hin]
    cases freeDraw m tp x <;> simp only
    by_cases ht : tp = sp
    · subst ht
      have : ¬(a ≤ x ∧ x < a + n) := fun e => hin ⟨rfl, e⟩
      simp [smGet_cut, this]
    · simp [ht]

/-! The canonical form -/

theorem wf_iff : m.wf = true ↔ ∀ t, smWf (fun _ => memDefault) (m.cells t) = true := by
  constructor
  · intro h t
    simp only [Mem.wf, Bool.and_eq_true] at h
    cases t
    · exact h.1.1.1
    · exact h.1.1.2
    · exact h.1.2
    · exact h.2
  · intro h
    have h1 := h .hbm
    have h2 := h .tile
    have h3 := h .host
    have h4 := h .flash
    simp only [Mem.cells] at h1 h2 h3 h4
    simp [Mem.wf, h1, h2, h3, h4]

variable {m}

theorem wf_setCells (h : m.wf = true) (hc : smWf (fun _ => memDefault) c = true) : (m.setCells sp c).wf = true := by
  rw [wf_iff] at h ⊢
  intro t
  rw [cells_setCells]
  split
  · exact hc
  · exact h t

theorem wf_unfree (h : m.wf = true) : (m.unfree sp a n).wf = true := by
  rw [wf_iff] at h ⊢
  simpa using h

theorem smWf_storeBytes (hc : smWf (fun _ => memDefault) c = true) :
    smWf (fun _ => memDefault) (storeBytes c a bs) = true := by
  induction bs generalizing c a with
  | nil => exact hc
  | cons b bs ih => exact ih _ _ (smWf_smSet (d := fun _ => memDefault) hc)

theorem wf_write (h : m.wf = true) : (m.write sp a bs).wf = true := by
  have hc := (wf_iff m).mp h sp
  unfold Mem.write
  split
  · exact wf_setCells _ _ h (smWf_storeBytes _ _ _ hc)
  · exact wf_setCells _ _ (wf_unfree _ _ _ h) (by simpa using smWf_storeBytes _ _ _ hc)

theorem wf_zero (h : m.wf = true) : (m.zero sp a n).wf = true :=
  wf_setCells _ _ (wf_unfree _ _ _ h) (smWf_filter _ (by simpa using (wf_iff m).mp h sp))

theorem wf_makeFree (h : m.wf = true) : (m.makeFree sp a n d).wf = true := by
  have := wf_zero sp a n h
  rw [wf_iff] at this ⊢
  intro t
  have ht := this t
  rwa [show (m.makeFree sp a n d).cells t = (m.zero sp a n).cells t from setMarks_cells ..]

end Sys2Proof.Machine
end

