-- ==== Sys2Proof/Laws/State.lean ====
section
/-! SUPPORT. Laws of the state: what each update leaves, one lemma per field per update, and what each accessor reads
after an update. -/

namespace Sys2Proof.Machine

variable (h : Hw)

/-! setReg -/

@[simp] theorem setReg_pkg (o : Nat) (v : Word) : (setReg h o v).pkg = h.pkg := rfl
@[simp] theorem setReg_bringStep (o : Nat) (v : Word) : (setReg h o v).bringStep = h.bringStep := rfl
@[simp] theorem setReg_starting (o : Nat) (v : Word) : (setReg h o v).starting = h.starting := rfl
@[simp] theorem setReg_mem (o : Nat) (v : Word) : (setReg h o v).mem = h.mem := rfl
@[simp] theorem setReg_symErrs (o : Nat) (v : Word) : (setReg h o v).symErrs = h.symErrs := rfl
@[simp] theorem setReg_poison (o : Nat) (v : Word) : (setReg h o v).poison = h.poison := rfl
@[simp] theorem setReg_stackAux (o : Nat) (v : Word) : (setReg h o v).stackAux = h.stackAux := rfl
@[simp] theorem setReg_rings (o : Nat) (v : Word) : (setReg h o v).rings = h.rings := rfl
@[simp] theorem setReg_slots (o : Nat) (v : Word) : (setReg h o v).slots = h.slots := rfl
@[simp] theorem setReg_nextOrder (o : Nat) (v : Word) : (setReg h o v).nextOrder = h.nextOrder := rfl
@[simp] theorem setReg_train (o : Nat) (v : Word) : (setReg h o v).train = h.train := rfl
@[simp] theorem setReg_fabric (o : Nat) (v : Word) : (setReg h o v).fabric = h.fabric := rfl
@[simp] theorem setReg_ports (o : Nat) (v : Word) : (setReg h o v).ports = h.ports := rfl
@[simp] theorem setReg_colls (o : Nat) (v : Word) : (setReg h o v).colls = h.colls := rfl
@[simp] theorem setReg_streams (o : Nat) (v : Word) : (setReg h o v).streams = h.streams := rfl
@[simp] theorem setReg_ckpt (o : Nat) (v : Word) : (setReg h o v).ckpt = h.ckpt := rfl
@[simp] theorem setReg_nextFault (o : Nat) (v : Word) : (setReg h o v).nextFault = h.nextFault := rfl
@[simp] theorem setReg_host (o : Nat) (v : Word) : (setReg h o v).host = h.host := rfl
@[simp] theorem setReg_sec (o : Nat) (v : Word) : (setReg h o v).sec = h.sec := rfl
@[simp] theorem setReg_pins (o : Nat) (v : Word) : (setReg h o v).pins = h.pins := rfl
@[simp] theorem setReg_supplies (o : Nat) (v : Word) : (setReg h o v).supplies = h.supplies := rfl
@[simp] theorem setReg_chans (o : Nat) (v : Word) : (setReg h o v).chans = h.chans := rfl
@[simp] theorem setReg_errs (o : Nat) (v : Word) : (setReg h o v).errs = h.errs := rfl
@[simp] theorem setReg_holds (o : Nat) (v : Word) : (setReg h o v).holds = h.holds := rfl
@[simp] theorem setReg_due (o : Nat) (v : Word) : (setReg h o v).due = h.due := rfl
@[simp] theorem setReg_order (o : Nat) (v : Word) : (setReg h o v).order = h.order := rfl
@[simp] theorem setReg_tokens (o : Nat) (v : Word) : (setReg h o v).tokens = h.tokens := rfl
@[simp] theorem setReg_tokenWaits (o : Nat) (v : Word) : (setReg h o v).tokenWaits = h.tokenWaits := rfl
@[simp] theorem setReg_lanes (o : Nat) (v : Word) : (setReg h o v).lanes = h.lanes := rfl
@[simp] theorem setReg_descriptors (o : Nat) (v : Word) : (setReg h o v).descriptors = h.descriptors := rfl
@[simp] theorem setReg_jtag (o : Nat) (v : Word) : (setReg h o v).jtag = h.jtag := rfl
@[simp] theorem setReg_power (o : Nat) (v : Word) : (setReg h o v).power = h.power := rfl
@[simp] theorem setReg_mgmtOut (o : Nat) (v : Word) : (setReg h o v).mgmtOut = h.mgmtOut := rfl
@[simp] theorem setReg_draws (o : Nat) (v : Word) : (setReg h o v).draws = h.draws := rfl
@[simp] theorem setReg_fetchTurn (o : Nat) (v : Word) : (setReg h o v).fetchTurn = h.fetchTurn := rfl
@[simp] theorem setReg_tilesAux (o : Nat) (v : Word) : (setReg h o v).tilesAux = h.tilesAux := rfl
@[simp] theorem setReg_caches (o : Nat) (v : Word) : (setReg h o v).caches = h.caches := rfl
@[simp] theorem setReg_xlate (o : Nat) (v : Word) : (setReg h o v).xlate = h.xlate := rfl
@[simp] theorem cmdAt_setReg (o : Nat) (v : Word) (x : Nat) : cmdAt (setReg h o v) x = cmdAt h x := rfl
@[simp] theorem portAux_setReg (o : Nat) (v : Word) (x : Nat) : portAux (setReg h o v) x = portAux h x := rfl
@[simp] theorem stackAux_setReg (o : Nat) (v : Word) (x : Nat) : stackAux (setReg h o v) x = stackAux h x := rfl
@[simp] theorem tileAux_setReg (o : Nat) (v : Word) (x : Nat) : tileAux (setReg h o v) x = tileAux h x := rfl
@[simp] theorem ringAux_setReg (o : Nat) (v : Word) (x : Nat) : ringAux (setReg h o v) x = ringAux h x := rfl
@[simp] theorem chanAux_setReg (o : Nat) (v : Word) (x : Channel) : chanAux (setReg h o v) x = chanAux h x := rfl

/-! freeReg -/

@[simp] theorem freeReg_pkg (o : Nat) : (freeReg h o).pkg = h.pkg := rfl
@[simp] theorem freeReg_bringStep (o : Nat) : (freeReg h o).bringStep = h.bringStep := rfl
@[simp] theorem freeReg_starting (o : Nat) : (freeReg h o).starting = h.starting := rfl
@[simp] theorem freeReg_mem (o : Nat) : (freeReg h o).mem = h.mem := rfl
@[simp] theorem freeReg_symErrs (o : Nat) : (freeReg h o).symErrs = h.symErrs := rfl
@[simp] theorem freeReg_poison (o : Nat) : (freeReg h o).poison = h.poison := rfl
@[simp] theorem freeReg_stackAux (o : Nat) : (freeReg h o).stackAux = h.stackAux := rfl
@[simp] theorem freeReg_rings (o : Nat) : (freeReg h o).rings = h.rings := rfl
@[simp] theorem freeReg_slots (o : Nat) : (freeReg h o).slots = h.slots := rfl
@[simp] theorem freeReg_nextOrder (o : Nat) : (freeReg h o).nextOrder = h.nextOrder := rfl
@[simp] theorem freeReg_train (o : Nat) : (freeReg h o).train = h.train := rfl
@[simp] theorem freeReg_fabric (o : Nat) : (freeReg h o).fabric = h.fabric := rfl
@[simp] theorem freeReg_ports (o : Nat) : (freeReg h o).ports = h.ports := rfl
@[simp] theorem freeReg_colls (o : Nat) : (freeReg h o).colls = h.colls := rfl
@[simp] theorem freeReg_streams (o : Nat) : (freeReg h o).streams = h.streams := rfl
@[simp] theorem freeReg_ckpt (o : Nat) : (freeReg h o).ckpt = h.ckpt := rfl
@[simp] theorem freeReg_nextFault (o : Nat) : (freeReg h o).nextFault = h.nextFault := rfl
@[simp] theorem freeReg_host (o : Nat) : (freeReg h o).host = h.host := rfl
@[simp] theorem freeReg_sec (o : Nat) : (freeReg h o).sec = h.sec := rfl
@[simp] theorem freeReg_pins (o : Nat) : (freeReg h o).pins = h.pins := rfl
@[simp] theorem freeReg_supplies (o : Nat) : (freeReg h o).supplies = h.supplies := rfl
@[simp] theorem freeReg_chans (o : Nat) : (freeReg h o).chans = h.chans := rfl
@[simp] theorem freeReg_errs (o : Nat) : (freeReg h o).errs = h.errs := rfl
@[simp] theorem freeReg_holds (o : Nat) : (freeReg h o).holds = h.holds := rfl
@[simp] theorem freeReg_due (o : Nat) : (freeReg h o).due = h.due := rfl
@[simp] theorem freeReg_order (o : Nat) : (freeReg h o).order = h.order := rfl
@[simp] theorem freeReg_tokens (o : Nat) : (freeReg h o).tokens = h.tokens := rfl
@[simp] theorem freeReg_tokenWaits (o : Nat) : (freeReg h o).tokenWaits = h.tokenWaits := rfl
@[simp] theorem freeReg_lanes (o : Nat) : (freeReg h o).lanes = h.lanes := rfl
@[simp] theorem freeReg_descriptors (o : Nat) : (freeReg h o).descriptors = h.descriptors := rfl
@[simp] theorem freeReg_jtag (o : Nat) : (freeReg h o).jtag = h.jtag := rfl
@[simp] theorem freeReg_power (o : Nat) : (freeReg h o).power = h.power := rfl
@[simp] theorem freeReg_mgmtOut (o : Nat) : (freeReg h o).mgmtOut = h.mgmtOut := rfl
@[simp] theorem freeReg_fetchTurn (o : Nat) : (freeReg h o).fetchTurn = h.fetchTurn := rfl
@[simp] theorem freeReg_tilesAux (o : Nat) : (freeReg h o).tilesAux = h.tilesAux := rfl
@[simp] theorem freeReg_caches (o : Nat) : (freeReg h o).caches = h.caches := rfl
@[simp] theorem freeReg_xlate (o : Nat) : (freeReg h o).xlate = h.xlate := rfl
@[simp] theorem cmdAt_freeReg (o : Nat) (x : Nat) : cmdAt (freeReg h o) x = cmdAt h x := rfl
@[simp] theorem portAux_freeReg (o : Nat) (x : Nat) : portAux (freeReg h o) x = portAux h x := rfl
@[simp] theorem stackAux_freeReg (o : Nat) (x : Nat) : stackAux (freeReg h o) x = stackAux h x := rfl
@[simp] theorem tileAux_freeReg (o : Nat) (x : Nat) : tileAux (freeReg h o) x = tileAux h x := rfl
@[simp] theorem ringAux_freeReg (o : Nat) (x : Nat) : ringAux (freeReg h o) x = ringAux h x := rfl
@[simp] theorem chanAux_freeReg (o : Nat) (x : Channel) : chanAux (freeReg h o) x = chanAux h x := rfl

/-! setCmd -/

@[simp] theorem setCmd_pkg (k : Nat) (c : Cmd) : (setCmd h k c).pkg = h.pkg := rfl
@[simp] theorem setCmd_bringStep (k : Nat) (c : Cmd) : (setCmd h k c).bringStep = h.bringStep := rfl
@[simp] theorem setCmd_starting (k : Nat) (c : Cmd) : (setCmd h k c).starting = h.starting := rfl
@[simp] theorem setCmd_regs (k : Nat) (c : Cmd) : (setCmd h k c).regs = h.regs := rfl
@[simp] theorem setCmd_freeRegs (k : Nat) (c : Cmd) : (setCmd h k c).freeRegs = h.freeRegs := rfl
@[simp] theorem setCmd_mem (k : Nat) (c : Cmd) : (setCmd h k c).mem = h.mem := rfl
@[simp] theorem setCmd_symErrs (k : Nat) (c : Cmd) : (setCmd h k c).symErrs = h.symErrs := rfl
@[simp] theorem setCmd_poison (k : Nat) (c : Cmd) : (setCmd h k c).poison = h.poison := rfl
@[simp] theorem setCmd_stackAux (k : Nat) (c : Cmd) : (setCmd h k c).stackAux = h.stackAux := rfl
@[simp] theorem setCmd_rings (k : Nat) (c : Cmd) : (setCmd h k c).rings = h.rings := rfl
@[simp] theorem setCmd_nextOrder (k : Nat) (c : Cmd) : (setCmd h k c).nextOrder = h.nextOrder := rfl
@[simp] theorem setCmd_train (k : Nat) (c : Cmd) : (setCmd h k c).train = h.train := rfl
@[simp] theorem setCmd_fabric (k : Nat) (c : Cmd) : (setCmd h k c).fabric = h.fabric := rfl
@[simp] theorem setCmd_ports (k : Nat) (c : Cmd) : (setCmd h k c).ports = h.ports := rfl
@[simp] theorem setCmd_colls (k : Nat) (c : Cmd) : (setCmd h k c).colls = h.colls := rfl
@[simp] theorem setCmd_streams (k : Nat) (c : Cmd) : (setCmd h k c).streams = h.streams := rfl
@[simp] theorem setCmd_ckpt (k : Nat) (c : Cmd) : (setCmd h k c).ckpt = h.ckpt := rfl
@[simp] theorem setCmd_nextFault (k : Nat) (c : Cmd) : (setCmd h k c).nextFault = h.nextFault := rfl
@[simp] theorem setCmd_host (k : Nat) (c : Cmd) : (setCmd h k c).host = h.host := rfl
@[simp] theorem setCmd_sec (k : Nat) (c : Cmd) : (setCmd h k c).sec = h.sec := rfl
@[simp] theorem setCmd_pins (k : Nat) (c : Cmd) : (setCmd h k c).pins = h.pins := rfl
@[simp] theorem setCmd_supplies (k : Nat) (c : Cmd) : (setCmd h k c).supplies = h.supplies := rfl
@[simp] theorem setCmd_chans (k : Nat) (c : Cmd) : (setCmd h k c).chans = h.chans := rfl
@[simp] theorem setCmd_errs (k : Nat) (c : Cmd) : (setCmd h k c).errs = h.errs := rfl
@[simp] theorem setCmd_holds (k : Nat) (c : Cmd) : (setCmd h k c).holds = h.holds := rfl
@[simp] theorem setCmd_due (k : Nat) (c : Cmd) : (setCmd h k c).due = h.due := rfl
@[simp] theorem setCmd_order (k : Nat) (c : Cmd) : (setCmd h k c).order = h.order := rfl
@[simp] theorem setCmd_tokens (k : Nat) (c : Cmd) : (setCmd h k c).tokens = h.tokens := rfl
@[simp] theorem setCmd_tokenWaits (k : Nat) (c : Cmd) : (setCmd h k c).tokenWaits = h.tokenWaits := rfl
@[simp] theorem setCmd_lanes (k : Nat) (c : Cmd) : (setCmd h k c).lanes = h.lanes := rfl
@[simp] theorem setCmd_descriptors (k : Nat) (c : Cmd) : (setCmd h k c).descriptors = h.descriptors := rfl
@[simp] theorem setCmd_jtag (k : Nat) (c : Cmd) : (setCmd h k c).jtag = h.jtag := rfl
@[simp] theorem setCmd_power (k : Nat) (c : Cmd) : (setCmd h k c).power = h.power := rfl
@[simp] theorem setCmd_mgmtOut (k : Nat) (c : Cmd) : (setCmd h k c).mgmtOut = h.mgmtOut := rfl
@[simp] theorem setCmd_draws (k : Nat) (c : Cmd) : (setCmd h k c).draws = h.draws := rfl
@[simp] theorem setCmd_fetchTurn (k : Nat) (c : Cmd) : (setCmd h k c).fetchTurn = h.fetchTurn := rfl
@[simp] theorem setCmd_tilesAux (k : Nat) (c : Cmd) : (setCmd h k c).tilesAux = h.tilesAux := rfl
@[simp] theorem setCmd_caches (k : Nat) (c : Cmd) : (setCmd h k c).caches = h.caches := rfl
@[simp] theorem setCmd_xlate (k : Nat) (c : Cmd) : (setCmd h k c).xlate = h.xlate := rfl
@[simp] theorem getReg_setCmd (k : Nat) (c : Cmd) (x : Nat) : getReg (setCmd h k c) x = getReg h x := rfl
@[simp] theorem portAux_setCmd (k : Nat) (c : Cmd) (x : Nat) : portAux (setCmd h k c) x = portAux h x := rfl
@[simp] theorem stackAux_setCmd (k : Nat) (c : Cmd) (x : Nat) : stackAux (setCmd h k c) x = stackAux h x := rfl
@[simp] theorem tileAux_setCmd (k : Nat) (c : Cmd) (x : Nat) : tileAux (setCmd h k c) x = tileAux h x := rfl
@[simp] theorem ringAux_setCmd (k : Nat) (c : Cmd) (x : Nat) : ringAux (setCmd h k c) x = ringAux h x := rfl
@[simp] theorem chanAux_setCmd (k : Nat) (c : Cmd) (x : Channel) : chanAux (setCmd h k c) x = chanAux h x := rfl

/-! dropCmd -/

@[simp] theorem dropCmd_pkg (k : Nat) : (dropCmd h k).pkg = h.pkg := rfl
@[simp] theorem dropCmd_bringStep (k : Nat) : (dropCmd h k).bringStep = h.bringStep := rfl
@[simp] theorem dropCmd_starting (k : Nat) : (dropCmd h k).starting = h.starting := rfl
@[simp] theorem dropCmd_regs (k : Nat) : (dropCmd h k).regs = h.regs := rfl
@[simp] theorem dropCmd_freeRegs (k : Nat) : (dropCmd h k).freeRegs = h.freeRegs := rfl
@[simp] theorem dropCmd_mem (k : Nat) : (dropCmd h k).mem = h.mem := rfl
@[simp] theorem dropCmd_symErrs (k : Nat) : (dropCmd h k).symErrs = h.symErrs := rfl
@[simp] theorem dropCmd_poison (k : Nat) : (dropCmd h k).poison = h.poison := rfl
@[simp] theorem dropCmd_stackAux (k : Nat) : (dropCmd h k).stackAux = h.stackAux := rfl
@[simp] theorem dropCmd_rings (k : Nat) : (dropCmd h k).rings = h.rings := rfl
@[simp] theorem dropCmd_nextOrder (k : Nat) : (dropCmd h k).nextOrder = h.nextOrder := rfl
@[simp] theorem dropCmd_train (k : Nat) : (dropCmd h k).train = h.train := rfl
@[simp] theorem dropCmd_fabric (k : Nat) : (dropCmd h k).fabric = h.fabric := rfl
@[simp] theorem dropCmd_ports (k : Nat) : (dropCmd h k).ports = h.ports := rfl
@[simp] theorem dropCmd_colls (k : Nat) : (dropCmd h k).colls = h.colls := rfl
@[simp] theorem dropCmd_streams (k : Nat) : (dropCmd h k).streams = h.streams := rfl
@[simp] theorem dropCmd_ckpt (k : Nat) : (dropCmd h k).ckpt = h.ckpt := rfl
@[simp] theorem dropCmd_nextFault (k : Nat) : (dropCmd h k).nextFault = h.nextFault := rfl
@[simp] theorem dropCmd_host (k : Nat) : (dropCmd h k).host = h.host := rfl
@[simp] theorem dropCmd_sec (k : Nat) : (dropCmd h k).sec = h.sec := rfl
@[simp] theorem dropCmd_pins (k : Nat) : (dropCmd h k).pins = h.pins := rfl
@[simp] theorem dropCmd_supplies (k : Nat) : (dropCmd h k).supplies = h.supplies := rfl
@[simp] theorem dropCmd_chans (k : Nat) : (dropCmd h k).chans = h.chans := rfl
@[simp] theorem dropCmd_errs (k : Nat) : (dropCmd h k).errs = h.errs := rfl
@[simp] theorem dropCmd_holds (k : Nat) : (dropCmd h k).holds = h.holds := rfl
@[simp] theorem dropCmd_due (k : Nat) : (dropCmd h k).due = h.due := rfl
@[simp] theorem dropCmd_order (k : Nat) : (dropCmd h k).order = h.order := rfl
@[simp] theorem dropCmd_tokens (k : Nat) : (dropCmd h k).tokens = h.tokens := rfl
@[simp] theorem dropCmd_tokenWaits (k : Nat) : (dropCmd h k).tokenWaits = h.tokenWaits := rfl
@[simp] theorem dropCmd_lanes (k : Nat) : (dropCmd h k).lanes = h.lanes := rfl
@[simp] theorem dropCmd_descriptors (k : Nat) : (dropCmd h k).descriptors = h.descriptors := rfl
@[simp] theorem dropCmd_jtag (k : Nat) : (dropCmd h k).jtag = h.jtag := rfl
@[simp] theorem dropCmd_power (k : Nat) : (dropCmd h k).power = h.power := rfl
@[simp] theorem dropCmd_mgmtOut (k : Nat) : (dropCmd h k).mgmtOut = h.mgmtOut := rfl
@[simp] theorem dropCmd_draws (k : Nat) : (dropCmd h k).draws = h.draws := rfl
@[simp] theorem dropCmd_fetchTurn (k : Nat) : (dropCmd h k).fetchTurn = h.fetchTurn := rfl
@[simp] theorem dropCmd_tilesAux (k : Nat) : (dropCmd h k).tilesAux = h.tilesAux := rfl
@[simp] theorem dropCmd_caches (k : Nat) : (dropCmd h k).caches = h.caches := rfl
@[simp] theorem dropCmd_xlate (k : Nat) : (dropCmd h k).xlate = h.xlate := rfl
@[simp] theorem getReg_dropCmd (k : Nat) (x : Nat) : getReg (dropCmd h k) x = getReg h x := rfl
@[simp] theorem portAux_dropCmd (k : Nat) (x : Nat) : portAux (dropCmd h k) x = portAux h x := rfl
@[simp] theorem stackAux_dropCmd (k : Nat) (x : Nat) : stackAux (dropCmd h k) x = stackAux h x := rfl
@[simp] theorem tileAux_dropCmd (k : Nat) (x : Nat) : tileAux (dropCmd h k) x = tileAux h x := rfl
@[simp] theorem ringAux_dropCmd (k : Nat) (x : Nat) : ringAux (dropCmd h k) x = ringAux h x := rfl
@[simp] theorem chanAux_dropCmd (k : Nat) (x : Channel) : chanAux (dropCmd h k) x = chanAux h x := rfl

/-! setStackAux -/

@[simp] theorem setStackAux_pkg (k : Nat) (a : StackAux) : (setStackAux h k a).pkg = h.pkg := rfl
@[simp] theorem setStackAux_bringStep (k : Nat) (a : StackAux) : (setStackAux h k a).bringStep = h.bringStep := rfl
@[simp] theorem setStackAux_starting (k : Nat) (a : StackAux) : (setStackAux h k a).starting = h.starting := rfl
@[simp] theorem setStackAux_regs (k : Nat) (a : StackAux) : (setStackAux h k a).regs = h.regs := rfl
@[simp] theorem setStackAux_freeRegs (k : Nat) (a : StackAux) : (setStackAux h k a).freeRegs = h.freeRegs := rfl
@[simp] theorem setStackAux_mem (k : Nat) (a : StackAux) : (setStackAux h k a).mem = h.mem := rfl
@[simp] theorem setStackAux_symErrs (k : Nat) (a : StackAux) : (setStackAux h k a).symErrs = h.symErrs := rfl
@[simp] theorem setStackAux_poison (k : Nat) (a : StackAux) : (setStackAux h k a).poison = h.poison := rfl
@[simp] theorem setStackAux_rings (k : Nat) (a : StackAux) : (setStackAux h k a).rings = h.rings := rfl
@[simp] theorem setStackAux_slots (k : Nat) (a : StackAux) : (setStackAux h k a).slots = h.slots := rfl
@[simp] theorem setStackAux_nextOrder (k : Nat) (a : StackAux) : (setStackAux h k a).nextOrder = h.nextOrder := rfl
@[simp] theorem setStackAux_train (k : Nat) (a : StackAux) : (setStackAux h k a).train = h.train := rfl
@[simp] theorem setStackAux_fabric (k : Nat) (a : StackAux) : (setStackAux h k a).fabric = h.fabric := rfl
@[simp] theorem setStackAux_ports (k : Nat) (a : StackAux) : (setStackAux h k a).ports = h.ports := rfl
@[simp] theorem setStackAux_colls (k : Nat) (a : StackAux) : (setStackAux h k a).colls = h.colls := rfl
@[simp] theorem setStackAux_streams (k : Nat) (a : StackAux) : (setStackAux h k a).streams = h.streams := rfl
@[simp] theorem setStackAux_ckpt (k : Nat) (a : StackAux) : (setStackAux h k a).ckpt = h.ckpt := rfl
@[simp] theorem setStackAux_nextFault (k : Nat) (a : StackAux) : (setStackAux h k a).nextFault = h.nextFault := rfl
@[simp] theorem setStackAux_host (k : Nat) (a : StackAux) : (setStackAux h k a).host = h.host := rfl
@[simp] theorem setStackAux_sec (k : Nat) (a : StackAux) : (setStackAux h k a).sec = h.sec := rfl
@[simp] theorem setStackAux_pins (k : Nat) (a : StackAux) : (setStackAux h k a).pins = h.pins := rfl
@[simp] theorem setStackAux_supplies (k : Nat) (a : StackAux) : (setStackAux h k a).supplies = h.supplies := rfl
@[simp] theorem setStackAux_chans (k : Nat) (a : StackAux) : (setStackAux h k a).chans = h.chans := rfl
@[simp] theorem setStackAux_errs (k : Nat) (a : StackAux) : (setStackAux h k a).errs = h.errs := rfl
@[simp] theorem setStackAux_holds (k : Nat) (a : StackAux) : (setStackAux h k a).holds = h.holds := rfl
@[simp] theorem setStackAux_due (k : Nat) (a : StackAux) : (setStackAux h k a).due = h.due := rfl
@[simp] theorem setStackAux_order (k : Nat) (a : StackAux) : (setStackAux h k a).order = h.order := rfl
@[simp] theorem setStackAux_tokens (k : Nat) (a : StackAux) : (setStackAux h k a).tokens = h.tokens := rfl
@[simp] theorem setStackAux_tokenWaits (k : Nat) (a : StackAux) : (setStackAux h k a).tokenWaits = h.tokenWaits := rfl
@[simp] theorem setStackAux_lanes (k : Nat) (a : StackAux) : (setStackAux h k a).lanes = h.lanes := rfl
@[simp] theorem setStackAux_descriptors (k : Nat) (a : StackAux) : (setStackAux h k a).descriptors = h.descriptors := rfl
@[simp] theorem setStackAux_jtag (k : Nat) (a : StackAux) : (setStackAux h k a).jtag = h.jtag := rfl
@[simp] theorem setStackAux_power (k : Nat) (a : StackAux) : (setStackAux h k a).power = h.power := rfl
@[simp] theorem setStackAux_mgmtOut (k : Nat) (a : StackAux) : (setStackAux h k a).mgmtOut = h.mgmtOut := rfl
@[simp] theorem setStackAux_draws (k : Nat) (a : StackAux) : (setStackAux h k a).draws = h.draws := rfl
@[simp] theorem setStackAux_fetchTurn (k : Nat) (a : StackAux) : (setStackAux h k a).fetchTurn = h.fetchTurn := rfl
@[simp] theorem setStackAux_tilesAux (k : Nat) (a : StackAux) : (setStackAux h k a).tilesAux = h.tilesAux := rfl
@[simp] theorem setStackAux_caches (k : Nat) (a : StackAux) : (setStackAux h k a).caches = h.caches := rfl
@[simp] theorem setStackAux_xlate (k : Nat) (a : StackAux) : (setStackAux h k a).xlate = h.xlate := rfl
@[simp] theorem getReg_setStackAux (k : Nat) (a : StackAux) (x : Nat) : getReg (setStackAux h k a) x = getReg h x := rfl
@[simp] theorem cmdAt_setStackAux (k : Nat) (a : StackAux) (x : Nat) : cmdAt (setStackAux h k a) x = cmdAt h x := rfl
@[simp] theorem portAux_setStackAux (k : Nat) (a : StackAux) (x : Nat) : portAux (setStackAux h k a) x = portAux h x := rfl
@[simp] theorem tileAux_setStackAux (k : Nat) (a : StackAux) (x : Nat) : tileAux (setStackAux h k a) x = tileAux h x := rfl
@[simp] theorem ringAux_setStackAux (k : Nat) (a : StackAux) (x : Nat) : ringAux (setStackAux h k a) x = ringAux h x := rfl
@[simp] theorem chanAux_setStackAux (k : Nat) (a : StackAux) (x : Channel) : chanAux (setStackAux h k a) x = chanAux h x := rfl

/-! setRingAux -/

@[simp] theorem setRingAux_pkg (k : Nat) (a : RingAux) : (setRingAux h k a).pkg = h.pkg := rfl
@[simp] theorem setRingAux_bringStep (k : Nat) (a : RingAux) : (setRingAux h k a).bringStep = h.bringStep := rfl
@[simp] theorem setRingAux_starting (k : Nat) (a : RingAux) : (setRingAux h k a).starting = h.starting := rfl
@[simp] theorem setRingAux_regs (k : Nat) (a : RingAux) : (setRingAux h k a).regs = h.regs := rfl
@[simp] theorem setRingAux_freeRegs (k : Nat) (a : RingAux) : (setRingAux h k a).freeRegs = h.freeRegs := rfl
@[simp] theorem setRingAux_mem (k : Nat) (a : RingAux) : (setRingAux h k a).mem = h.mem := rfl
@[simp] theorem setRingAux_symErrs (k : Nat) (a : RingAux) : (setRingAux h k a).symErrs = h.symErrs := rfl
@[simp] theorem setRingAux_poison (k : Nat) (a : RingAux) : (setRingAux h k a).poison = h.poison := rfl
@[simp] theorem setRingAux_stackAux (k : Nat) (a : RingAux) : (setRingAux h k a).stackAux = h.stackAux := rfl
@[simp] theorem setRingAux_slots (k : Nat) (a : RingAux) : (setRingAux h k a).slots = h.slots := rfl
@[simp] theorem setRingAux_nextOrder (k : Nat) (a : RingAux) : (setRingAux h k a).nextOrder = h.nextOrder := rfl
@[simp] theorem setRingAux_train (k : Nat) (a : RingAux) : (setRingAux h k a).train = h.train := rfl
@[simp] theorem setRingAux_fabric (k : Nat) (a : RingAux) : (setRingAux h k a).fabric = h.fabric := rfl
@[simp] theorem setRingAux_ports (k : Nat) (a : RingAux) : (setRingAux h k a).ports = h.ports := rfl
@[simp] theorem setRingAux_colls (k : Nat) (a : RingAux) : (setRingAux h k a).colls = h.colls := rfl
@[simp] theorem setRingAux_streams (k : Nat) (a : RingAux) : (setRingAux h k a).streams = h.streams := rfl
@[simp] theorem setRingAux_ckpt (k : Nat) (a : RingAux) : (setRingAux h k a).ckpt = h.ckpt := rfl
@[simp] theorem setRingAux_nextFault (k : Nat) (a : RingAux) : (setRingAux h k a).nextFault = h.nextFault := rfl
@[simp] theorem setRingAux_host (k : Nat) (a : RingAux) : (setRingAux h k a).host = h.host := rfl
@[simp] theorem setRingAux_sec (k : Nat) (a : RingAux) : (setRingAux h k a).sec = h.sec := rfl
@[simp] theorem setRingAux_pins (k : Nat) (a : RingAux) : (setRingAux h k a).pins = h.pins := rfl
@[simp] theorem setRingAux_supplies (k : Nat) (a : RingAux) : (setRingAux h k a).supplies = h.supplies := rfl
@[simp] theorem setRingAux_chans (k : Nat) (a : RingAux) : (setRingAux h k a).chans = h.chans := rfl
@[simp] theorem setRingAux_errs (k : Nat) (a : RingAux) : (setRingAux h k a).errs = h.errs := rfl
@[simp] theorem setRingAux_holds (k : Nat) (a : RingAux) : (setRingAux h k a).holds = h.holds := rfl
@[simp] theorem setRingAux_due (k : Nat) (a : RingAux) : (setRingAux h k a).due = h.due := rfl
@[simp] theorem setRingAux_order (k : Nat) (a : RingAux) : (setRingAux h k a).order = h.order := rfl
@[simp] theorem setRingAux_tokens (k : Nat) (a : RingAux) : (setRingAux h k a).tokens = h.tokens := rfl
@[simp] theorem setRingAux_tokenWaits (k : Nat) (a : RingAux) : (setRingAux h k a).tokenWaits = h.tokenWaits := rfl
@[simp] theorem setRingAux_lanes (k : Nat) (a : RingAux) : (setRingAux h k a).lanes = h.lanes := rfl
@[simp] theorem setRingAux_descriptors (k : Nat) (a : RingAux) : (setRingAux h k a).descriptors = h.descriptors := rfl
@[simp] theorem setRingAux_jtag (k : Nat) (a : RingAux) : (setRingAux h k a).jtag = h.jtag := rfl
@[simp] theorem setRingAux_power (k : Nat) (a : RingAux) : (setRingAux h k a).power = h.power := rfl
@[simp] theorem setRingAux_mgmtOut (k : Nat) (a : RingAux) : (setRingAux h k a).mgmtOut = h.mgmtOut := rfl
@[simp] theorem setRingAux_draws (k : Nat) (a : RingAux) : (setRingAux h k a).draws = h.draws := rfl
@[simp] theorem setRingAux_fetchTurn (k : Nat) (a : RingAux) : (setRingAux h k a).fetchTurn = h.fetchTurn := rfl
@[simp] theorem setRingAux_tilesAux (k : Nat) (a : RingAux) : (setRingAux h k a).tilesAux = h.tilesAux := rfl
@[simp] theorem setRingAux_caches (k : Nat) (a : RingAux) : (setRingAux h k a).caches = h.caches := rfl
@[simp] theorem setRingAux_xlate (k : Nat) (a : RingAux) : (setRingAux h k a).xlate = h.xlate := rfl
@[simp] theorem getReg_setRingAux (k : Nat) (a : RingAux) (x : Nat) : getReg (setRingAux h k a) x = getReg h x := rfl
@[simp] theorem cmdAt_setRingAux (k : Nat) (a : RingAux) (x : Nat) : cmdAt (setRingAux h k a) x = cmdAt h x := rfl
@[simp] theorem portAux_setRingAux (k : Nat) (a : RingAux) (x : Nat) : portAux (setRingAux h k a) x = portAux h x := rfl
@[simp] theorem stackAux_setRingAux (k : Nat) (a : RingAux) (x : Nat) : stackAux (setRingAux h k a) x = stackAux h x := rfl
@[simp] theorem tileAux_setRingAux (k : Nat) (a : RingAux) (x : Nat) : tileAux (setRingAux h k a) x = tileAux h x := rfl
@[simp] theorem chanAux_setRingAux (k : Nat) (a : RingAux) (x : Channel) : chanAux (setRingAux h k a) x = chanAux h x := rfl

/-! setPortAux -/

@[simp] theorem setPortAux_pkg (k : Nat) (a : PortAux) : (setPortAux h k a).pkg = h.pkg := rfl
@[simp] theorem setPortAux_bringStep (k : Nat) (a : PortAux) : (setPortAux h k a).bringStep = h.bringStep := rfl
@[simp] theorem setPortAux_starting (k : Nat) (a : PortAux) : (setPortAux h k a).starting = h.starting := rfl
@[simp] theorem setPortAux_regs (k : Nat) (a : PortAux) : (setPortAux h k a).regs = h.regs := rfl
@[simp] theorem setPortAux_freeRegs (k : Nat) (a : PortAux) : (setPortAux h k a).freeRegs = h.freeRegs := rfl
@[simp] theorem setPortAux_mem (k : Nat) (a : PortAux) : (setPortAux h k a).mem = h.mem := rfl
@[simp] theorem setPortAux_symErrs (k : Nat) (a : PortAux) : (setPortAux h k a).symErrs = h.symErrs := rfl
@[simp] theorem setPortAux_poison (k : Nat) (a : PortAux) : (setPortAux h k a).poison = h.poison := rfl
@[simp] theorem setPortAux_stackAux (k : Nat) (a : PortAux) : (setPortAux h k a).stackAux = h.stackAux := rfl
@[simp] theorem setPortAux_rings (k : Nat) (a : PortAux) : (setPortAux h k a).rings = h.rings := rfl
@[simp] theorem setPortAux_slots (k : Nat) (a : PortAux) : (setPortAux h k a).slots = h.slots := rfl
@[simp] theorem setPortAux_nextOrder (k : Nat) (a : PortAux) : (setPortAux h k a).nextOrder = h.nextOrder := rfl
@[simp] theorem setPortAux_train (k : Nat) (a : PortAux) : (setPortAux h k a).train = h.train := rfl
@[simp] theorem setPortAux_fabric (k : Nat) (a : PortAux) : (setPortAux h k a).fabric = h.fabric := rfl
@[simp] theorem setPortAux_colls (k : Nat) (a : PortAux) : (setPortAux h k a).colls = h.colls := rfl
@[simp] theorem setPortAux_streams (k : Nat) (a : PortAux) : (setPortAux h k a).streams = h.streams := rfl
@[simp] theorem setPortAux_ckpt (k : Nat) (a : PortAux) : (setPortAux h k a).ckpt = h.ckpt := rfl
@[simp] theorem setPortAux_nextFault (k : Nat) (a : PortAux) : (setPortAux h k a).nextFault = h.nextFault := rfl
@[simp] theorem setPortAux_host (k : Nat) (a : PortAux) : (setPortAux h k a).host = h.host := rfl
@[simp] theorem setPortAux_sec (k : Nat) (a : PortAux) : (setPortAux h k a).sec = h.sec := rfl
@[simp] theorem setPortAux_pins (k : Nat) (a : PortAux) : (setPortAux h k a).pins = h.pins := rfl
@[simp] theorem setPortAux_supplies (k : Nat) (a : PortAux) : (setPortAux h k a).supplies = h.supplies := rfl
@[simp] theorem setPortAux_chans (k : Nat) (a : PortAux) : (setPortAux h k a).chans = h.chans := rfl
@[simp] theorem setPortAux_errs (k : Nat) (a : PortAux) : (setPortAux h k a).errs = h.errs := rfl
@[simp] theorem setPortAux_holds (k : Nat) (a : PortAux) : (setPortAux h k a).holds = h.holds := rfl
@[simp] theorem setPortAux_due (k : Nat) (a : PortAux) : (setPortAux h k a).due = h.due := rfl
@[simp] theorem setPortAux_order (k : Nat) (a : PortAux) : (setPortAux h k a).order = h.order := rfl
@[simp] theorem setPortAux_tokens (k : Nat) (a : PortAux) : (setPortAux h k a).tokens = h.tokens := rfl
@[simp] theorem setPortAux_tokenWaits (k : Nat) (a : PortAux) : (setPortAux h k a).tokenWaits = h.tokenWaits := rfl
@[simp] theorem setPortAux_lanes (k : Nat) (a : PortAux) : (setPortAux h k a).lanes = h.lanes := rfl
@[simp] theorem setPortAux_descriptors (k : Nat) (a : PortAux) : (setPortAux h k a).descriptors = h.descriptors := rfl
@[simp] theorem setPortAux_jtag (k : Nat) (a : PortAux) : (setPortAux h k a).jtag = h.jtag := rfl
@[simp] theorem setPortAux_power (k : Nat) (a : PortAux) : (setPortAux h k a).power = h.power := rfl
@[simp] theorem setPortAux_mgmtOut (k : Nat) (a : PortAux) : (setPortAux h k a).mgmtOut = h.mgmtOut := rfl
@[simp] theorem setPortAux_draws (k : Nat) (a : PortAux) : (setPortAux h k a).draws = h.draws := rfl
@[simp] theorem setPortAux_fetchTurn (k : Nat) (a : PortAux) : (setPortAux h k a).fetchTurn = h.fetchTurn := rfl
@[simp] theorem setPortAux_tilesAux (k : Nat) (a : PortAux) : (setPortAux h k a).tilesAux = h.tilesAux := rfl
@[simp] theorem setPortAux_caches (k : Nat) (a : PortAux) : (setPortAux h k a).caches = h.caches := rfl
@[simp] theorem setPortAux_xlate (k : Nat) (a : PortAux) : (setPortAux h k a).xlate = h.xlate := rfl
@[simp] theorem getReg_setPortAux (k : Nat) (a : PortAux) (x : Nat) : getReg (setPortAux h k a) x = getReg h x := rfl
@[simp] theorem cmdAt_setPortAux (k : Nat) (a : PortAux) (x : Nat) : cmdAt (setPortAux h k a) x = cmdAt h x := rfl
@[simp] theorem stackAux_setPortAux (k : Nat) (a : PortAux) (x : Nat) : stackAux (setPortAux h k a) x = stackAux h x := rfl
@[simp] theorem tileAux_setPortAux (k : Nat) (a : PortAux) (x : Nat) : tileAux (setPortAux h k a) x = tileAux h x := rfl
@[simp] theorem ringAux_setPortAux (k : Nat) (a : PortAux) (x : Nat) : ringAux (setPortAux h k a) x = ringAux h x := rfl
@[simp] theorem chanAux_setPortAux (k : Nat) (a : PortAux) (x : Channel) : chanAux (setPortAux h k a) x = chanAux h x := rfl

/-! setTileAux -/

@[simp] theorem setTileAux_pkg (k : Nat) (a : TileAux) : (setTileAux h k a).pkg = h.pkg := rfl
@[simp] theorem setTileAux_bringStep (k : Nat) (a : TileAux) : (setTileAux h k a).bringStep = h.bringStep := rfl
@[simp] theorem setTileAux_starting (k : Nat) (a : TileAux) : (setTileAux h k a).starting = h.starting := rfl
@[simp] theorem setTileAux_regs (k : Nat) (a : TileAux) : (setTileAux h k a).regs = h.regs := rfl
@[simp] theorem setTileAux_freeRegs (k : Nat) (a : TileAux) : (setTileAux h k a).freeRegs = h.freeRegs := rfl
@[simp] theorem setTileAux_mem (k : Nat) (a : TileAux) : (setTileAux h k a).mem = h.mem := rfl
@[simp] theorem setTileAux_symErrs (k : Nat) (a : TileAux) : (setTileAux h k a).symErrs = h.symErrs := rfl
@[simp] theorem setTileAux_poison (k : Nat) (a : TileAux) : (setTileAux h k a).poison = h.poison := rfl
@[simp] theorem setTileAux_stackAux (k : Nat) (a : TileAux) : (setTileAux h k a).stackAux = h.stackAux := rfl
@[simp] theorem setTileAux_rings (k : Nat) (a : TileAux) : (setTileAux h k a).rings = h.rings := rfl
@[simp] theorem setTileAux_slots (k : Nat) (a : TileAux) : (setTileAux h k a).slots = h.slots := rfl
@[simp] theorem setTileAux_nextOrder (k : Nat) (a : TileAux) : (setTileAux h k a).nextOrder = h.nextOrder := rfl
@[simp] theorem setTileAux_train (k : Nat) (a : TileAux) : (setTileAux h k a).train = h.train := rfl
@[simp] theorem setTileAux_fabric (k : Nat) (a : TileAux) : (setTileAux h k a).fabric = h.fabric := rfl
@[simp] theorem setTileAux_ports (k : Nat) (a : TileAux) : (setTileAux h k a).ports = h.ports := rfl
@[simp] theorem setTileAux_colls (k : Nat) (a : TileAux) : (setTileAux h k a).colls = h.colls := rfl
@[simp] theorem setTileAux_streams (k : Nat) (a : TileAux) : (setTileAux h k a).streams = h.streams := rfl
@[simp] theorem setTileAux_ckpt (k : Nat) (a : TileAux) : (setTileAux h k a).ckpt = h.ckpt := rfl
@[simp] theorem setTileAux_nextFault (k : Nat) (a : TileAux) : (setTileAux h k a).nextFault = h.nextFault := rfl
@[simp] theorem setTileAux_host (k : Nat) (a : TileAux) : (setTileAux h k a).host = h.host := rfl
@[simp] theorem setTileAux_sec (k : Nat) (a : TileAux) : (setTileAux h k a).sec = h.sec := rfl
@[simp] theorem setTileAux_pins (k : Nat) (a : TileAux) : (setTileAux h k a).pins = h.pins := rfl
@[simp] theorem setTileAux_supplies (k : Nat) (a : TileAux) : (setTileAux h k a).supplies = h.supplies := rfl
@[simp] theorem setTileAux_chans (k : Nat) (a : TileAux) : (setTileAux h k a).chans = h.chans := rfl
@[simp] theorem setTileAux_errs (k : Nat) (a : TileAux) : (setTileAux h k a).errs = h.errs := rfl
@[simp] theorem setTileAux_holds (k : Nat) (a : TileAux) : (setTileAux h k a).holds = h.holds := rfl
@[simp] theorem setTileAux_due (k : Nat) (a : TileAux) : (setTileAux h k a).due = h.due := rfl
@[simp] theorem setTileAux_order (k : Nat) (a : TileAux) : (setTileAux h k a).order = h.order := rfl
@[simp] theorem setTileAux_tokens (k : Nat) (a : TileAux) : (setTileAux h k a).tokens = h.tokens := rfl
@[simp] theorem setTileAux_tokenWaits (k : Nat) (a : TileAux) : (setTileAux h k a).tokenWaits = h.tokenWaits := rfl
@[simp] theorem setTileAux_lanes (k : Nat) (a : TileAux) : (setTileAux h k a).lanes = h.lanes := rfl
@[simp] theorem setTileAux_descriptors (k : Nat) (a : TileAux) : (setTileAux h k a).descriptors = h.descriptors := rfl
@[simp] theorem setTileAux_jtag (k : Nat) (a : TileAux) : (setTileAux h k a).jtag = h.jtag := rfl
@[simp] theorem setTileAux_power (k : Nat) (a : TileAux) : (setTileAux h k a).power = h.power := rfl
@[simp] theorem setTileAux_mgmtOut (k : Nat) (a : TileAux) : (setTileAux h k a).mgmtOut = h.mgmtOut := rfl
@[simp] theorem setTileAux_draws (k : Nat) (a : TileAux) : (setTileAux h k a).draws = h.draws := rfl
@[simp] theorem setTileAux_fetchTurn (k : Nat) (a : TileAux) : (setTileAux h k a).fetchTurn = h.fetchTurn := rfl
@[simp] theorem setTileAux_caches (k : Nat) (a : TileAux) : (setTileAux h k a).caches = h.caches := rfl
@[simp] theorem setTileAux_xlate (k : Nat) (a : TileAux) : (setTileAux h k a).xlate = h.xlate := rfl
@[simp] theorem getReg_setTileAux (k : Nat) (a : TileAux) (x : Nat) : getReg (setTileAux h k a) x = getReg h x := rfl
@[simp] theorem cmdAt_setTileAux (k : Nat) (a : TileAux) (x : Nat) : cmdAt (setTileAux h k a) x = cmdAt h x := rfl
@[simp] theorem portAux_setTileAux (k : Nat) (a : TileAux) (x : Nat) : portAux (setTileAux h k a) x = portAux h x := rfl
@[simp] theorem stackAux_setTileAux (k : Nat) (a : TileAux) (x : Nat) : stackAux (setTileAux h k a) x = stackAux h x := rfl
@[simp] theorem ringAux_setTileAux (k : Nat) (a : TileAux) (x : Nat) : ringAux (setTileAux h k a) x = ringAux h x := rfl
@[simp] theorem chanAux_setTileAux (k : Nat) (a : TileAux) (x : Channel) : chanAux (setTileAux h k a) x = chanAux h x := rfl

/-! setCacheAux -/

@[simp] theorem setCacheAux_pkg (k : Nat) (a : CacheAux) : (setCacheAux h k a).pkg = h.pkg := rfl
@[simp] theorem setCacheAux_bringStep (k : Nat) (a : CacheAux) : (setCacheAux h k a).bringStep = h.bringStep := rfl
@[simp] theorem setCacheAux_starting (k : Nat) (a : CacheAux) : (setCacheAux h k a).starting = h.starting := rfl
@[simp] theorem setCacheAux_regs (k : Nat) (a : CacheAux) : (setCacheAux h k a).regs = h.regs := rfl
@[simp] theorem setCacheAux_freeRegs (k : Nat) (a : CacheAux) : (setCacheAux h k a).freeRegs = h.freeRegs := rfl
@[simp] theorem setCacheAux_mem (k : Nat) (a : CacheAux) : (setCacheAux h k a).mem = h.mem := rfl
@[simp] theorem setCacheAux_symErrs (k : Nat) (a : CacheAux) : (setCacheAux h k a).symErrs = h.symErrs := rfl
@[simp] theorem setCacheAux_poison (k : Nat) (a : CacheAux) : (setCacheAux h k a).poison = h.poison := rfl
@[simp] theorem setCacheAux_stackAux (k : Nat) (a : CacheAux) : (setCacheAux h k a).stackAux = h.stackAux := rfl
@[simp] theorem setCacheAux_rings (k : Nat) (a : CacheAux) : (setCacheAux h k a).rings = h.rings := rfl
@[simp] theorem setCacheAux_slots (k : Nat) (a : CacheAux) : (setCacheAux h k a).slots = h.slots := rfl
@[simp] theorem setCacheAux_nextOrder (k : Nat) (a : CacheAux) : (setCacheAux h k a).nextOrder = h.nextOrder := rfl
@[simp] theorem setCacheAux_train (k : Nat) (a : CacheAux) : (setCacheAux h k a).train = h.train := rfl
@[simp] theorem setCacheAux_fabric (k : Nat) (a : CacheAux) : (setCacheAux h k a).fabric = h.fabric := rfl
@[simp] theorem setCacheAux_ports (k : Nat) (a : CacheAux) : (setCacheAux h k a).ports = h.ports := rfl
@[simp] theorem setCacheAux_colls (k : Nat) (a : CacheAux) : (setCacheAux h k a).colls = h.colls := rfl
@[simp] theorem setCacheAux_streams (k : Nat) (a : CacheAux) : (setCacheAux h k a).streams = h.streams := rfl
@[simp] theorem setCacheAux_ckpt (k : Nat) (a : CacheAux) : (setCacheAux h k a).ckpt = h.ckpt := rfl
@[simp] theorem setCacheAux_nextFault (k : Nat) (a : CacheAux) : (setCacheAux h k a).nextFault = h.nextFault := rfl
@[simp] theorem setCacheAux_host (k : Nat) (a : CacheAux) : (setCacheAux h k a).host = h.host := rfl
@[simp] theorem setCacheAux_sec (k : Nat) (a : CacheAux) : (setCacheAux h k a).sec = h.sec := rfl
@[simp] theorem setCacheAux_pins (k : Nat) (a : CacheAux) : (setCacheAux h k a).pins = h.pins := rfl
@[simp] theorem setCacheAux_supplies (k : Nat) (a : CacheAux) : (setCacheAux h k a).supplies = h.supplies := rfl
@[simp] theorem setCacheAux_chans (k : Nat) (a : CacheAux) : (setCacheAux h k a).chans = h.chans := rfl
@[simp] theorem setCacheAux_errs (k : Nat) (a : CacheAux) : (setCacheAux h k a).errs = h.errs := rfl
@[simp] theorem setCacheAux_holds (k : Nat) (a : CacheAux) : (setCacheAux h k a).holds = h.holds := rfl
@[simp] theorem setCacheAux_due (k : Nat) (a : CacheAux) : (setCacheAux h k a).due = h.due := rfl
@[simp] theorem setCacheAux_order (k : Nat) (a : CacheAux) : (setCacheAux h k a).order = h.order := rfl
@[simp] theorem setCacheAux_tokens (k : Nat) (a : CacheAux) : (setCacheAux h k a).tokens = h.tokens := rfl
@[simp] theorem setCacheAux_tokenWaits (k : Nat) (a : CacheAux) : (setCacheAux h k a).tokenWaits = h.tokenWaits := rfl
@[simp] theorem setCacheAux_lanes (k : Nat) (a : CacheAux) : (setCacheAux h k a).lanes = h.lanes := rfl
@[simp] theorem setCacheAux_descriptors (k : Nat) (a : CacheAux) : (setCacheAux h k a).descriptors = h.descriptors := rfl
@[simp] theorem setCacheAux_jtag (k : Nat) (a : CacheAux) : (setCacheAux h k a).jtag = h.jtag := rfl
@[simp] theorem setCacheAux_power (k : Nat) (a : CacheAux) : (setCacheAux h k a).power = h.power := rfl
@[simp] theorem setCacheAux_mgmtOut (k : Nat) (a : CacheAux) : (setCacheAux h k a).mgmtOut = h.mgmtOut := rfl
@[simp] theorem setCacheAux_draws (k : Nat) (a : CacheAux) : (setCacheAux h k a).draws = h.draws := rfl
@[simp] theorem setCacheAux_fetchTurn (k : Nat) (a : CacheAux) : (setCacheAux h k a).fetchTurn = h.fetchTurn := rfl
@[simp] theorem setCacheAux_tilesAux (k : Nat) (a : CacheAux) : (setCacheAux h k a).tilesAux = h.tilesAux := rfl
@[simp] theorem setCacheAux_xlate (k : Nat) (a : CacheAux) : (setCacheAux h k a).xlate = h.xlate := rfl
@[simp] theorem getReg_setCacheAux (k : Nat) (a : CacheAux) (x : Nat) : getReg (setCacheAux h k a) x = getReg h x := rfl
@[simp] theorem cmdAt_setCacheAux (k : Nat) (a : CacheAux) (x : Nat) : cmdAt (setCacheAux h k a) x = cmdAt h x := rfl
@[simp] theorem portAux_setCacheAux (k : Nat) (a : CacheAux) (x : Nat) : portAux (setCacheAux h k a) x = portAux h x := rfl
@[simp] theorem stackAux_setCacheAux (k : Nat) (a : CacheAux) (x : Nat) : stackAux (setCacheAux h k a) x = stackAux h x := rfl
@[simp] theorem tileAux_setCacheAux (k : Nat) (a : CacheAux) (x : Nat) : tileAux (setCacheAux h k a) x = tileAux h x := rfl
@[simp] theorem ringAux_setCacheAux (k : Nat) (a : CacheAux) (x : Nat) : ringAux (setCacheAux h k a) x = ringAux h x := rfl
@[simp] theorem chanAux_setCacheAux (k : Nat) (a : CacheAux) (x : Channel) : chanAux (setCacheAux h k a) x = chanAux h x := rfl

/-! setXcache -/

@[simp] theorem setXcache_pkg (k : Nat) (a : XCache) : (setXcache h k a).pkg = h.pkg := rfl
@[simp] theorem setXcache_bringStep (k : Nat) (a : XCache) : (setXcache h k a).bringStep = h.bringStep := rfl
@[simp] theorem setXcache_starting (k : Nat) (a : XCache) : (setXcache h k a).starting = h.starting := rfl
@[simp] theorem setXcache_regs (k : Nat) (a : XCache) : (setXcache h k a).regs = h.regs := rfl
@[simp] theorem setXcache_freeRegs (k : Nat) (a : XCache) : (setXcache h k a).freeRegs = h.freeRegs := rfl
@[simp] theorem setXcache_mem (k : Nat) (a : XCache) : (setXcache h k a).mem = h.mem := rfl
@[simp] theorem setXcache_symErrs (k : Nat) (a : XCache) : (setXcache h k a).symErrs = h.symErrs := rfl
@[simp] theorem setXcache_poison (k : Nat) (a : XCache) : (setXcache h k a).poison = h.poison := rfl
@[simp] theorem setXcache_stackAux (k : Nat) (a : XCache) : (setXcache h k a).stackAux = h.stackAux := rfl
@[simp] theorem setXcache_rings (k : Nat) (a : XCache) : (setXcache h k a).rings = h.rings := rfl
@[simp] theorem setXcache_slots (k : Nat) (a : XCache) : (setXcache h k a).slots = h.slots := rfl
@[simp] theorem setXcache_nextOrder (k : Nat) (a : XCache) : (setXcache h k a).nextOrder = h.nextOrder := rfl
@[simp] theorem setXcache_train (k : Nat) (a : XCache) : (setXcache h k a).train = h.train := rfl
@[simp] theorem setXcache_fabric (k : Nat) (a : XCache) : (setXcache h k a).fabric = h.fabric := rfl
@[simp] theorem setXcache_ports (k : Nat) (a : XCache) : (setXcache h k a).ports = h.ports := rfl
@[simp] theorem setXcache_colls (k : Nat) (a : XCache) : (setXcache h k a).colls = h.colls := rfl
@[simp] theorem setXcache_streams (k : Nat) (a : XCache) : (setXcache h k a).streams = h.streams := rfl
@[simp] theorem setXcache_ckpt (k : Nat) (a : XCache) : (setXcache h k a).ckpt = h.ckpt := rfl
@[simp] theorem setXcache_nextFault (k : Nat) (a : XCache) : (setXcache h k a).nextFault = h.nextFault := rfl
@[simp] theorem setXcache_host (k : Nat) (a : XCache) : (setXcache h k a).host = h.host := rfl
@[simp] theorem setXcache_sec (k : Nat) (a : XCache) : (setXcache h k a).sec = h.sec := rfl
@[simp] theorem setXcache_pins (k : Nat) (a : XCache) : (setXcache h k a).pins = h.pins := rfl
@[simp] theorem setXcache_supplies (k : Nat) (a : XCache) : (setXcache h k a).supplies = h.supplies := rfl
@[simp] theorem setXcache_chans (k : Nat) (a : XCache) : (setXcache h k a).chans = h.chans := rfl
@[simp] theorem setXcache_errs (k : Nat) (a : XCache) : (setXcache h k a).errs = h.errs := rfl
@[simp] theorem setXcache_holds (k : Nat) (a : XCache) : (setXcache h k a).holds = h.holds := rfl
@[simp] theorem setXcache_due (k : Nat) (a : XCache) : (setXcache h k a).due = h.due := rfl
@[simp] theorem setXcache_order (k : Nat) (a : XCache) : (setXcache h k a).order = h.order := rfl
@[simp] theorem setXcache_tokens (k : Nat) (a : XCache) : (setXcache h k a).tokens = h.tokens := rfl
@[simp] theorem setXcache_tokenWaits (k : Nat) (a : XCache) : (setXcache h k a).tokenWaits = h.tokenWaits := rfl
@[simp] theorem setXcache_lanes (k : Nat) (a : XCache) : (setXcache h k a).lanes = h.lanes := rfl
@[simp] theorem setXcache_descriptors (k : Nat) (a : XCache) : (setXcache h k a).descriptors = h.descriptors := rfl
@[simp] theorem setXcache_jtag (k : Nat) (a : XCache) : (setXcache h k a).jtag = h.jtag := rfl
@[simp] theorem setXcache_power (k : Nat) (a : XCache) : (setXcache h k a).power = h.power := rfl
@[simp] theorem setXcache_mgmtOut (k : Nat) (a : XCache) : (setXcache h k a).mgmtOut = h.mgmtOut := rfl
@[simp] theorem setXcache_draws (k : Nat) (a : XCache) : (setXcache h k a).draws = h.draws := rfl
@[simp] theorem setXcache_fetchTurn (k : Nat) (a : XCache) : (setXcache h k a).fetchTurn = h.fetchTurn := rfl
@[simp] theorem setXcache_tilesAux (k : Nat) (a : XCache) : (setXcache h k a).tilesAux = h.tilesAux := rfl
@[simp] theorem setXcache_caches (k : Nat) (a : XCache) : (setXcache h k a).caches = h.caches := rfl
@[simp] theorem getReg_setXcache (k : Nat) (a : XCache) (x : Nat) : getReg (setXcache h k a) x = getReg h x := rfl
@[simp] theorem cmdAt_setXcache (k : Nat) (a : XCache) (x : Nat) : cmdAt (setXcache h k a) x = cmdAt h x := rfl
@[simp] theorem portAux_setXcache (k : Nat) (a : XCache) (x : Nat) : portAux (setXcache h k a) x = portAux h x := rfl
@[simp] theorem stackAux_setXcache (k : Nat) (a : XCache) (x : Nat) : stackAux (setXcache h k a) x = stackAux h x := rfl
@[simp] theorem tileAux_setXcache (k : Nat) (a : XCache) (x : Nat) : tileAux (setXcache h k a) x = tileAux h x := rfl
@[simp] theorem ringAux_setXcache (k : Nat) (a : XCache) (x : Nat) : ringAux (setXcache h k a) x = ringAux h x := rfl
@[simp] theorem chanAux_setXcache (k : Nat) (a : XCache) (x : Channel) : chanAux (setXcache h k a) x = chanAux h x := rfl

/-! setChan -/

@[simp] theorem setChan_pkg (k : Channel) (a : ChanAux) : (setChan h k a).pkg = h.pkg := rfl
@[simp] theorem setChan_bringStep (k : Channel) (a : ChanAux) : (setChan h k a).bringStep = h.bringStep := rfl
@[simp] theorem setChan_starting (k : Channel) (a : ChanAux) : (setChan h k a).starting = h.starting := rfl
@[simp] theorem setChan_regs (k : Channel) (a : ChanAux) : (setChan h k a).regs = h.regs := rfl
@[simp] theorem setChan_freeRegs (k : Channel) (a : ChanAux) : (setChan h k a).freeRegs = h.freeRegs := rfl
@[simp] theorem setChan_mem (k : Channel) (a : ChanAux) : (setChan h k a).mem = h.mem := rfl
@[simp] theorem setChan_symErrs (k : Channel) (a : ChanAux) : (setChan h k a).symErrs = h.symErrs := rfl
@[simp] theorem setChan_poison (k : Channel) (a : ChanAux) : (setChan h k a).poison = h.poison := rfl
@[simp] theorem setChan_stackAux (k : Channel) (a : ChanAux) : (setChan h k a).stackAux = h.stackAux := rfl
@[simp] theorem setChan_rings (k : Channel) (a : ChanAux) : (setChan h k a).rings = h.rings := rfl
@[simp] theorem setChan_slots (k : Channel) (a : ChanAux) : (setChan h k a).slots = h.slots := rfl
@[simp] theorem setChan_nextOrder (k : Channel) (a : ChanAux) : (setChan h k a).nextOrder = h.nextOrder := rfl
@[simp] theorem setChan_train (k : Channel) (a : ChanAux) : (setChan h k a).train = h.train := rfl
@[simp] theorem setChan_fabric (k : Channel) (a : ChanAux) : (setChan h k a).fabric = h.fabric := rfl
@[simp] theorem setChan_ports (k : Channel) (a : ChanAux) : (setChan h k a).ports = h.ports := rfl
@[simp] theorem setChan_colls (k : Channel) (a : ChanAux) : (setChan h k a).colls = h.colls := rfl
@[simp] theorem setChan_streams (k : Channel) (a : ChanAux) : (setChan h k a).streams = h.streams := rfl
@[simp] theorem setChan_ckpt (k : Channel) (a : ChanAux) : (setChan h k a).ckpt = h.ckpt := rfl
@[simp] theorem setChan_nextFault (k : Channel) (a : ChanAux) : (setChan h k a).nextFault = h.nextFault := rfl
@[simp] theorem setChan_host (k : Channel) (a : ChanAux) : (setChan h k a).host = h.host := rfl
@[simp] theorem setChan_sec (k : Channel) (a : ChanAux) : (setChan h k a).sec = h.sec := rfl
@[simp] theorem setChan_pins (k : Channel) (a : ChanAux) : (setChan h k a).pins = h.pins := rfl
@[simp] theorem setChan_supplies (k : Channel) (a : ChanAux) : (setChan h k a).supplies = h.supplies := rfl
@[simp] theorem setChan_errs (k : Channel) (a : ChanAux) : (setChan h k a).errs = h.errs := rfl
@[simp] theorem setChan_holds (k : Channel) (a : ChanAux) : (setChan h k a).holds = h.holds := rfl
@[simp] theorem setChan_due (k : Channel) (a : ChanAux) : (setChan h k a).due = h.due := rfl
@[simp] theorem setChan_order (k : Channel) (a : ChanAux) : (setChan h k a).order = h.order := rfl
@[simp] theorem setChan_tokens (k : Channel) (a : ChanAux) : (setChan h k a).tokens = h.tokens := rfl
@[simp] theorem setChan_tokenWaits (k : Channel) (a : ChanAux) : (setChan h k a).tokenWaits = h.tokenWaits := rfl
@[simp] theorem setChan_lanes (k : Channel) (a : ChanAux) : (setChan h k a).lanes = h.lanes := rfl
@[simp] theorem setChan_descriptors (k : Channel) (a : ChanAux) : (setChan h k a).descriptors = h.descriptors := rfl
@[simp] theorem setChan_jtag (k : Channel) (a : ChanAux) : (setChan h k a).jtag = h.jtag := rfl
@[simp] theorem setChan_power (k : Channel) (a : ChanAux) : (setChan h k a).power = h.power := rfl
@[simp] theorem setChan_mgmtOut (k : Channel) (a : ChanAux) : (setChan h k a).mgmtOut = h.mgmtOut := rfl
@[simp] theorem setChan_draws (k : Channel) (a : ChanAux) : (setChan h k a).draws = h.draws := rfl
@[simp] theorem setChan_fetchTurn (k : Channel) (a : ChanAux) : (setChan h k a).fetchTurn = h.fetchTurn := rfl
@[simp] theorem setChan_tilesAux (k : Channel) (a : ChanAux) : (setChan h k a).tilesAux = h.tilesAux := rfl
@[simp] theorem setChan_caches (k : Channel) (a : ChanAux) : (setChan h k a).caches = h.caches := rfl
@[simp] theorem setChan_xlate (k : Channel) (a : ChanAux) : (setChan h k a).xlate = h.xlate := rfl
@[simp] theorem getReg_setChan (k : Channel) (a : ChanAux) (x : Nat) : getReg (setChan h k a) x = getReg h x := rfl
@[simp] theorem cmdAt_setChan (k : Channel) (a : ChanAux) (x : Nat) : cmdAt (setChan h k a) x = cmdAt h x := rfl
@[simp] theorem portAux_setChan (k : Channel) (a : ChanAux) (x : Nat) : portAux (setChan h k a) x = portAux h x := rfl
@[simp] theorem stackAux_setChan (k : Channel) (a : ChanAux) (x : Nat) : stackAux (setChan h k a) x = stackAux h x := rfl
@[simp] theorem tileAux_setChan (k : Channel) (a : ChanAux) (x : Nat) : tileAux (setChan h k a) x = tileAux h x := rfl
@[simp] theorem ringAux_setChan (k : Channel) (a : ChanAux) (x : Nat) : ringAux (setChan h k a) x = ringAux h x := rfl

/-! setCwErrs -/

@[simp] theorem setCwErrs_pkg (k : Nat) (a : List (Nat × Byte)) : (setCwErrs h k a).pkg = h.pkg := rfl
@[simp] theorem setCwErrs_bringStep (k : Nat) (a : List (Nat × Byte)) : (setCwErrs h k a).bringStep = h.bringStep := rfl
@[simp] theorem setCwErrs_starting (k : Nat) (a : List (Nat × Byte)) : (setCwErrs h k a).starting = h.starting := rfl
@[simp] theorem setCwErrs_regs (k : Nat) (a : List (Nat × Byte)) : (setCwErrs h k a).regs = h.regs := rfl
@[simp] theorem setCwErrs_freeRegs (k : Nat) (a : List (Nat × Byte)) : (setCwErrs h k a).freeRegs = h.freeRegs := rfl
@[simp] theorem setCwErrs_mem (k : Nat) (a : List (Nat × Byte)) : (setCwErrs h k a).mem = h.mem := rfl
@[simp] theorem setCwErrs_poison (k : Nat) (a : List (Nat × Byte)) : (setCwErrs h k a).poison = h.poison := rfl
@[simp] theorem setCwErrs_stackAux (k : Nat) (a : List (Nat × Byte)) : (setCwErrs h k a).stackAux = h.stackAux := rfl
@[simp] theorem setCwErrs_rings (k : Nat) (a : List (Nat × Byte)) : (setCwErrs h k a).rings = h.rings := rfl
@[simp] theorem setCwErrs_slots (k : Nat) (a : List (Nat × Byte)) : (setCwErrs h k a).slots = h.slots := rfl
@[simp] theorem setCwErrs_nextOrder (k : Nat) (a : List (Nat × Byte)) : (setCwErrs h k a).nextOrder = h.nextOrder := rfl
@[simp] theorem setCwErrs_train (k : Nat) (a : List (Nat × Byte)) : (setCwErrs h k a).train = h.train := rfl
@[simp] theorem setCwErrs_fabric (k : Nat) (a : List (Nat × Byte)) : (setCwErrs h k a).fabric = h.fabric := rfl
@[simp] theorem setCwErrs_ports (k : Nat) (a : List (Nat × Byte)) : (setCwErrs h k a).ports = h.ports := rfl
@[simp] theorem setCwErrs_colls (k : Nat) (a : List (Nat × Byte)) : (setCwErrs h k a).colls = h.colls := rfl
@[simp] theorem setCwErrs_streams (k : Nat) (a : List (Nat × Byte)) : (setCwErrs h k a).streams = h.streams := rfl
@[simp] theorem setCwErrs_ckpt (k : Nat) (a : List (Nat × Byte)) : (setCwErrs h k a).ckpt = h.ckpt := rfl
@[simp] theorem setCwErrs_nextFault (k : Nat) (a : List (Nat × Byte)) : (setCwErrs h k a).nextFault = h.nextFault := rfl
@[simp] theorem setCwErrs_host (k : Nat) (a : List (Nat × Byte)) : (setCwErrs h k a).host = h.host := rfl
@[simp] theorem setCwErrs_sec (k : Nat) (a : List (Nat × Byte)) : (setCwErrs h k a).sec = h.sec := rfl
@[simp] theorem setCwErrs_pins (k : Nat) (a : List (Nat × Byte)) : (setCwErrs h k a).pins = h.pins := rfl
@[simp] theorem setCwErrs_supplies (k : Nat) (a : List (Nat × Byte)) : (setCwErrs h k a).supplies = h.supplies := rfl
@[simp] theorem setCwErrs_chans (k : Nat) (a : List (Nat × Byte)) : (setCwErrs h k a).chans = h.chans := rfl
@[simp] theorem setCwErrs_errs (k : Nat) (a : List (Nat × Byte)) : (setCwErrs h k a).errs = h.errs := rfl
@[simp] theorem setCwErrs_holds (k : Nat) (a : List (Nat × Byte)) : (setCwErrs h k a).holds = h.holds := rfl
@[simp] theorem setCwErrs_due (k : Nat) (a : List (Nat × Byte)) : (setCwErrs h k a).due = h.due := rfl
@[simp] theorem setCwErrs_order (k : Nat) (a : List (Nat × Byte)) : (setCwErrs h k a).order = h.order := rfl
@[simp] theorem setCwErrs_tokens (k : Nat) (a : List (Nat × Byte)) : (setCwErrs h k a).tokens = h.tokens := rfl
@[simp] theorem setCwErrs_tokenWaits (k : Nat) (a : List (Nat × Byte)) : (setCwErrs h k a).tokenWaits = h.tokenWaits := rfl
@[simp] theorem setCwErrs_lanes (k : Nat) (a : List (Nat × Byte)) : (setCwErrs h k a).lanes = h.lanes := rfl
@[simp] theorem setCwErrs_descriptors (k : Nat) (a : List (Nat × Byte)) : (setCwErrs h k a).descriptors = h.descriptors := rfl
@[simp] theorem setCwErrs_jtag (k : Nat) (a : List (Nat × Byte)) : (setCwErrs h k a).jtag = h.jtag := rfl
@[simp] theorem setCwErrs_power (k : Nat) (a : List (Nat × Byte)) : (setCwErrs h k a).power = h.power := rfl
@[simp] theorem setCwErrs_mgmtOut (k : Nat) (a : List (Nat × Byte)) : (setCwErrs h k a).mgmtOut = h.mgmtOut := rfl
@[simp] theorem setCwErrs_draws (k : Nat) (a : List (Nat × Byte)) : (setCwErrs h k a).draws = h.draws := rfl
@[simp] theorem setCwErrs_fetchTurn (k : Nat) (a : List (Nat × Byte)) : (setCwErrs h k a).fetchTurn = h.fetchTurn := rfl
@[simp] theorem setCwErrs_tilesAux (k : Nat) (a : List (Nat × Byte)) : (setCwErrs h k a).tilesAux = h.tilesAux := rfl
@[simp] theorem setCwErrs_caches (k : Nat) (a : List (Nat × Byte)) : (setCwErrs h k a).caches = h.caches := rfl
@[simp] theorem setCwErrs_xlate (k : Nat) (a : List (Nat × Byte)) : (setCwErrs h k a).xlate = h.xlate := rfl
@[simp] theorem getReg_setCwErrs (k : Nat) (a : List (Nat × Byte)) (x : Nat) : getReg (setCwErrs h k a) x = getReg h x := rfl
@[simp] theorem cmdAt_setCwErrs (k : Nat) (a : List (Nat × Byte)) (x : Nat) : cmdAt (setCwErrs h k a) x = cmdAt h x := rfl
@[simp] theorem portAux_setCwErrs (k : Nat) (a : List (Nat × Byte)) (x : Nat) : portAux (setCwErrs h k a) x = portAux h x := rfl
@[simp] theorem stackAux_setCwErrs (k : Nat) (a : List (Nat × Byte)) (x : Nat) : stackAux (setCwErrs h k a) x = stackAux h x := rfl
@[simp] theorem tileAux_setCwErrs (k : Nat) (a : List (Nat × Byte)) (x : Nat) : tileAux (setCwErrs h k a) x = tileAux h x := rfl
@[simp] theorem ringAux_setCwErrs (k : Nat) (a : List (Nat × Byte)) (x : Nat) : ringAux (setCwErrs h k a) x = ringAux h x := rfl
@[simp] theorem chanAux_setCwErrs (k : Nat) (a : List (Nat × Byte)) (x : Channel) : chanAux (setCwErrs h k a) x = chanAux h x := rfl

/-! setPoison -/

@[simp] theorem setPoison_pkg (k : Nat) (b : Bool) : (setPoison h k b).pkg = h.pkg := rfl
@[simp] theorem setPoison_bringStep (k : Nat) (b : Bool) : (setPoison h k b).bringStep = h.bringStep := rfl
@[simp] theorem setPoison_starting (k : Nat) (b : Bool) : (setPoison h k b).starting = h.starting := rfl
@[simp] theorem setPoison_regs (k : Nat) (b : Bool) : (setPoison h k b).regs = h.regs := rfl
@[simp] theorem setPoison_freeRegs (k : Nat) (b : Bool) : (setPoison h k b).freeRegs = h.freeRegs := rfl
@[simp] theorem setPoison_mem (k : Nat) (b : Bool) : (setPoison h k b).mem = h.mem := rfl
@[simp] theorem setPoison_symErrs (k : Nat) (b : Bool) : (setPoison h k b).symErrs = h.symErrs := rfl
@[simp] theorem setPoison_stackAux (k : Nat) (b : Bool) : (setPoison h k b).stackAux = h.stackAux := rfl
@[simp] theorem setPoison_rings (k : Nat) (b : Bool) : (setPoison h k b).rings = h.rings := rfl
@[simp] theorem setPoison_slots (k : Nat) (b : Bool) : (setPoison h k b).slots = h.slots := rfl
@[simp] theorem setPoison_nextOrder (k : Nat) (b : Bool) : (setPoison h k b).nextOrder = h.nextOrder := rfl
@[simp] theorem setPoison_train (k : Nat) (b : Bool) : (setPoison h k b).train = h.train := rfl
@[simp] theorem setPoison_fabric (k : Nat) (b : Bool) : (setPoison h k b).fabric = h.fabric := rfl
@[simp] theorem setPoison_ports (k : Nat) (b : Bool) : (setPoison h k b).ports = h.ports := rfl
@[simp] theorem setPoison_colls (k : Nat) (b : Bool) : (setPoison h k b).colls = h.colls := rfl
@[simp] theorem setPoison_streams (k : Nat) (b : Bool) : (setPoison h k b).streams = h.streams := rfl
@[simp] theorem setPoison_ckpt (k : Nat) (b : Bool) : (setPoison h k b).ckpt = h.ckpt := rfl
@[simp] theorem setPoison_nextFault (k : Nat) (b : Bool) : (setPoison h k b).nextFault = h.nextFault := rfl
@[simp] theorem setPoison_host (k : Nat) (b : Bool) : (setPoison h k b).host = h.host := rfl
@[simp] theorem setPoison_sec (k : Nat) (b : Bool) : (setPoison h k b).sec = h.sec := rfl
@[simp] theorem setPoison_pins (k : Nat) (b : Bool) : (setPoison h k b).pins = h.pins := rfl
@[simp] theorem setPoison_supplies (k : Nat) (b : Bool) : (setPoison h k b).supplies = h.supplies := rfl
@[simp] theorem setPoison_chans (k : Nat) (b : Bool) : (setPoison h k b).chans = h.chans := rfl
@[simp] theorem setPoison_errs (k : Nat) (b : Bool) : (setPoison h k b).errs = h.errs := rfl
@[simp] theorem setPoison_holds (k : Nat) (b : Bool) : (setPoison h k b).holds = h.holds := rfl
@[simp] theorem setPoison_due (k : Nat) (b : Bool) : (setPoison h k b).due = h.due := rfl
@[simp] theorem setPoison_order (k : Nat) (b : Bool) : (setPoison h k b).order = h.order := rfl
@[simp] theorem setPoison_tokens (k : Nat) (b : Bool) : (setPoison h k b).tokens = h.tokens := rfl
@[simp] theorem setPoison_tokenWaits (k : Nat) (b : Bool) : (setPoison h k b).tokenWaits = h.tokenWaits := rfl
@[simp] theorem setPoison_lanes (k : Nat) (b : Bool) : (setPoison h k b).lanes = h.lanes := rfl
@[simp] theorem setPoison_descriptors (k : Nat) (b : Bool) : (setPoison h k b).descriptors = h.descriptors := rfl
@[simp] theorem setPoison_jtag (k : Nat) (b : Bool) : (setPoison h k b).jtag = h.jtag := rfl
@[simp] theorem setPoison_power (k : Nat) (b : Bool) : (setPoison h k b).power = h.power := rfl
@[simp] theorem setPoison_mgmtOut (k : Nat) (b : Bool) : (setPoison h k b).mgmtOut = h.mgmtOut := rfl
@[simp] theorem setPoison_draws (k : Nat) (b : Bool) : (setPoison h k b).draws = h.draws := rfl
@[simp] theorem setPoison_fetchTurn (k : Nat) (b : Bool) : (setPoison h k b).fetchTurn = h.fetchTurn := rfl
@[simp] theorem setPoison_tilesAux (k : Nat) (b : Bool) : (setPoison h k b).tilesAux = h.tilesAux := rfl
@[simp] theorem setPoison_caches (k : Nat) (b : Bool) : (setPoison h k b).caches = h.caches := rfl
@[simp] theorem setPoison_xlate (k : Nat) (b : Bool) : (setPoison h k b).xlate = h.xlate := rfl
@[simp] theorem getReg_setPoison (k : Nat) (b : Bool) (x : Nat) : getReg (setPoison h k b) x = getReg h x := rfl
@[simp] theorem cmdAt_setPoison (k : Nat) (b : Bool) (x : Nat) : cmdAt (setPoison h k b) x = cmdAt h x := rfl
@[simp] theorem portAux_setPoison (k : Nat) (b : Bool) (x : Nat) : portAux (setPoison h k b) x = portAux h x := rfl
@[simp] theorem stackAux_setPoison (k : Nat) (b : Bool) (x : Nat) : stackAux (setPoison h k b) x = stackAux h x := rfl
@[simp] theorem tileAux_setPoison (k : Nat) (b : Bool) (x : Nat) : tileAux (setPoison h k b) x = tileAux h x := rfl
@[simp] theorem ringAux_setPoison (k : Nat) (b : Bool) (x : Nat) : ringAux (setPoison h k b) x = ringAux h x := rfl
@[simp] theorem chanAux_setPoison (k : Nat) (b : Bool) (x : Channel) : chanAux (setPoison h k b) x = chanAux h x := rfl

/-! Reading what was written -/

theorem getReg_setReg (o : Nat) (v : Word) (x : Nat) : getReg (setReg h o v) x = if x = o then v else getReg h x := by
  simp only [getReg, setReg, smFind_smDel]
  by_cases e : x = o
  · subst e; simp [smGet_smSet]
  · by_cases hv : v = regReset o
    · simp [e, smSet, hv, smGet_smDel_ne e]
    · simp [e, smSet, hv, smGet_smPut]

@[simp] theorem getReg_setReg_self (o : Nat) (v : Word) : getReg (setReg h o v) o = v := by simp [getReg_setReg]

theorem getReg_setReg_ne {o x : Nat} (v : Word) (e : x ≠ o) : getReg (setReg h o v) x = getReg h x := by
  simp [getReg_setReg, e]

/-- A register that was given a free value reads as it. -/
@[simp] theorem getReg_freeReg_self (o : Nat) : getReg (freeReg h o) o = Config.freeWord h.draws := by
  simp [getReg, freeReg, smFind_smPut]

theorem getReg_freeReg_ne {o x : Nat} (e : x ≠ o) : getReg (freeReg h o) x = getReg h x := by
  simp [getReg, freeReg, smFind_smPut, e, smGet_smDel_ne e]

theorem cmdAt_setCmd (k : Nat) (c : Cmd) (x : Nat) : cmdAt (setCmd h k c) x = if x = k then some c else cmdAt h x := by
  simp [cmdAt, setCmd, smFind_smPut]

@[simp] theorem cmdAt_setCmd_self (k : Nat) (c : Cmd) : cmdAt (setCmd h k c) k = some c := by simp [cmdAt_setCmd]

theorem cmdAt_dropCmd (k x : Nat) : cmdAt (dropCmd h k) x = if x = k then none else cmdAt h x := by
  simp [cmdAt, dropCmd, smFind_smDel]

/-- Changing the command of a slot. -/
theorem modCmd_of_some {k : Nat} {c : Cmd} (f : Cmd → Cmd) (e : cmdAt h k = some c) : modCmd h k f = setCmd h k (f c) := by
  simp [modCmd, e]

theorem cmdAt_modCmd (k : Nat) (f : Cmd → Cmd) (x : Nat) :
    cmdAt (modCmd h k f) x = if x = k then (cmdAt h k).map f else cmdAt h x := by
  unfold modCmd
  split
  · by_cases e : x = k
    · subst e; simp [*]
    · simp [e]
  · by_cases e : x = k
    · subst e; simp [*]
    · simp [e, cmdAt_setCmd]

theorem portAux_setPortAux (k : Nat) (a : PortAux) (x : Nat) :
    portAux (setPortAux h k a) x = if x = k then a else portAux h x := by simp [portAux, setPortAux, smGet_smSet]

@[simp] theorem portAux_setPortAux_self (k : Nat) (a : PortAux) : portAux (setPortAux h k a) k = a := by
  simp [portAux_setPortAux]

theorem ringAux_setRingAux (k : Nat) (a : RingAux) (x : Nat) :
    ringAux (setRingAux h k a) x = if x = k then a else ringAux h x := by simp [ringAux, setRingAux, smGet_smSet]

@[simp] theorem ringAux_setRingAux_self (k : Nat) (a : RingAux) : ringAux (setRingAux h k a) k = a := by
  simp [ringAux_setRingAux]

theorem tileAux_setTileAux (k : Nat) (a : TileAux) (x : Nat) :
    tileAux (setTileAux h k a) x = if x = k then a else tileAux h x := by simp [tileAux, setTileAux, smGet_smSet]

@[simp] theorem tileAux_setTileAux_self (k : Nat) (a : TileAux) : tileAux (setTileAux h k a) k = a := by
  simp [tileAux_setTileAux]

@[simp] theorem cacheAux_setCacheAux_self (k : Nat) (a : CacheAux) : cacheAux (setCacheAux h k a) k = a := by
  simp [cacheAux, setCacheAux, smGet_smSet]

@[simp] theorem xcache_setXcache_self (k : Nat) (a : XCache) : xcache (setXcache h k a) k = a := by
  simp [xcache, setXcache, smGet_smSet]

theorem stackAux_setStackAux (k : Nat) (a : StackAux) (x : Nat) :
    stackAux (setStackAux h k a) x = if x = k then a else stackAux h x := by simp [stackAux, setStackAux, smGet_smSet]

@[simp] theorem stackAux_setStackAux_self (k : Nat) (a : StackAux) : stackAux (setStackAux h k a) k = a := by
  simp [stackAux_setStackAux]

@[simp] theorem chanAux_setChan_self (k : Channel) (a : ChanAux) : chanAux (setChan h k a) k = a := by
  simp [chanAux, setChan, smGet_smSet]

/-! The step -/

/-- A meaning over the hardware goes on, and leaves the queue and the fuses. -/
theorem onHw_eq (f : Hw → Hw) (s : State) : onHw f s = .next { s with hw := settle (f s.hw) } := rfl

theorem step_cons (s : State) (c : Instr) (rest : List Instr) :
    step { s with pending := c :: rest } = exec c { s with pending := rest } := rfl

end Sys2Proof.Machine
end

