-- ==== Sys2Proof/Laws/Ops.lean ====
section
/-! SUPPORT. Laws of the shared operations: fields and bits of registers, the end of a command, units of work. -/

namespace Sys2Proof.Machine

theorem getLsbD_setFld {n : Nat} (w : BitVec n) (hi lo v i : Nat) :
    (setFld w hi lo v).getLsbD i = if lo ≤ i ∧ i ≤ hi ∧ i < n then v.testBit (i - lo) else w.getLsbD i := by
  unfold setFld
  simp only [BitVec.getLsbD_or, BitVec.getLsbD_and, BitVec.getLsbD_not, BitVec.getLsbD_ofNat, Nat.testBit_shiftLeft,
    Nat.testBit_two_pow_sub_one]
  by_cases h1 : i < n
  · by_cases h2 : lo ≤ i
    · by_cases h3 : i ≤ hi
      · have : i - lo < hi + 1 - lo := by omega
        simp [h1, h2, h3, this]
      · have : ¬ (i - lo < hi + 1 - lo) := by omega
        simp [h1, h2, h3, this]
    · simp [h1, h2]
  · have : w.getLsbD i = false := BitVec.getLsbD_of_ge _ _ (by omega)
    simp [h1, this]

theorem bit_setBit {n : Nat} (w : BitVec n) (i j : Nat) (b : Bool) (hi : i < n) :
    bit (setBit w i b) j = if j = i then b else bit w j := by
  unfold bit setBit
  rw [getLsbD_setFld]
  by_cases h : j = i
  · subst h; cases b <;> simp [hi]
  · have : ¬ (i ≤ j ∧ j ≤ i ∧ j < n) := by omega
    simp [h, this]

theorem regBit_setRegBit (h : Hw) (o i : Nat) (b : Bool) (o' j : Nat) (hi : i < 32) :
    regBit (setRegBit h o i b) o' j = if o' = o ∧ j = i then b else regBit h o' j := by
  unfold regBit setRegBit
  rw [getReg_setReg]
  by_cases h1 : o' = o
  · subst h1; simp [bit_setBit _ _ _ _ hi]
  · simp [h1]

theorem fld_eq_testBit {n : Nat} (w : BitVec n) (hi lo i : Nat) :
    (fld w hi lo).testBit i = (decide (i < hi + 1 - lo) && w.getLsbD (lo + i)) := by
  unfold fld
  rw [Nat.testBit_mod_two_pow, Nat.testBit_shiftRight]
  simp [BitVec.getLsbD]

theorem fld_setFld {n : Nat} (w : BitVec n) (hi lo v : Nat) (hn : hi < n) (hv : v < 2 ^ (hi + 1 - lo)) :
    fld (setFld w hi lo v) hi lo = v := by
  apply Nat.eq_of_testBit_eq
  intro i
  rw [fld_eq_testBit, getLsbD_setFld]
  by_cases h : i < hi + 1 - lo
  · have : lo ≤ lo + i ∧ lo + i ≤ hi ∧ lo + i < n := by omega
    simp [h, this]
  · have := Nat.testBit_lt_two_pow (i := i) (x := v) (Nat.lt_of_lt_of_le hv (Nat.pow_le_pow_right (by omega) (by omega)))
    simp [h, this]

theorem fld_setFld_other {n : Nat} (w : BitVec n) (hi lo v hi' lo' : Nat) (hd : hi' < lo ∨ hi < lo') :
    fld (setFld w hi lo v) hi' lo' = fld w hi' lo' := by
  apply Nat.eq_of_testBit_eq
  intro i
  rw [fld_eq_testBit, fld_eq_testBit, getLsbD_setFld]
  by_cases h : i < hi' + 1 - lo'
  · have : ¬ (lo ≤ lo' + i ∧ lo' + i ≤ hi ∧ lo' + i < n) := by omega
    simp [h, this]
  · simp [h]

theorem bit_setFld_other {n : Nat} (w : BitVec n) (hi lo v i : Nat) (hd : i < lo ∨ hi < i) :
    bit (setFld w hi lo v) i = bit w i := by
  unfold bit; rw [getLsbD_setFld]
  have : ¬ (lo ≤ i ∧ i ≤ hi ∧ i < n) := by omega
  simp [this]

/-! finish -/

theorem freeTile_eq (h : Hw) (t : Nat) :
    freeTile h t = { h with regs := (freeTile h t).regs, freeRegs := (freeTile h t).freeRegs,
                            tilesAux := (freeTile h t).tilesAux } := rfl

theorem getReg_freeTile (h : Hw) (t o : Nat) (ne : o ≠ regOf (.tile t) 4) (nf : o ≠ rTileFreq t) :
    getReg (freeTile h t) o = getReg h o := by
  simp [freeTile, setRegFld, getReg_setReg, ne, nf]

/-- The registers of the tile blocks are not those of the board blocks. -/
theorem tile_ne_tileFreq (t u r : Nat) (l : t < 192) (lr : r < 0x10000) : regOf (.tile t) r ≠ rTileFreq u := by
  simp [regOf, baseOf, rTileFreq]; omega

theorem freeTiles_eq (h : Hw) (ts : List Nat) :
    ts.foldl freeTile h = { h with regs := (ts.foldl freeTile h).regs, freeRegs := (ts.foldl freeTile h).freeRegs,
                                   tilesAux := (ts.foldl freeTile h).tilesAux } := by
  induction ts generalizing h with
  | nil => rfl
  | cons t ts ih => simp only [List.foldl_cons]; rw [ih, freeTile_eq]

theorem getReg_freeTiles (h : Hw) (ts : List Nat) (o : Nat) (ne : ∀ t ∈ ts, o ≠ regOf (.tile t) 4 ∧ o ≠ rTileFreq t) :
    getReg (ts.foldl freeTile h) o = getReg h o := by
  induction ts generalizing h with
  | nil => rfl
  | cons t ts ih =>
    simp only [List.foldl_cons]
    rw [ih _ (fun t' m => ne t' (by simp [m])), getReg_freeTile _ _ _ (ne t (by simp)).1 (ne t (by simp)).2]

theorem getReg_freeTile_self (h : Hw) (t : Nat) (l : t < 192) :
    bit (getReg (freeTile h t) (regOf (.tile t) 4)) 1 = false := by
  simp only [freeTile, getReg_setReg, if_neg (tile_ne_tileFreq t t 4 l (by omega)), setRegFld]
  show BitVec.getLsbD _ 1 = false
  rw [if_pos trivial, getLsbD_setFld]
  simp

theorem regOf_tile_ne {t x : Nat} (r : Nat) (e : x ≠ t) : regOf (.tile x) r ≠ regOf (.tile t) r := by
  simp [regOf, baseOf]; omega

theorem tileBusy_freeTiles (h : Hw) (ts : List Nat) (t : Nat) (m : t ∈ ts) (l : t < 192) :
    tileBusy (ts.foldl freeTile h) t = false := by
  induction ts generalizing h with
  | nil => simp at m
  | cons u ts ih =>
    simp only [List.foldl_cons]
    by_cases m' : t ∈ ts
    · exact ih _ m'
    · have : t = u := by simpa [m'] using m
      subst this
      unfold tileBusy regBit
      rw [getReg_freeTiles _ _ _ fun t' mt =>
        ⟨regOf_tile_ne _ (by rintro rfl; exact m' mt), tile_ne_tileFreq t t' 4 l (by omega)⟩]
      exact getReg_freeTile_self _ _ l

@[simp] theorem tileAux_setRegFld (h : Hw) (o hi lo v x : Nat) : tileAux (setRegFld h o hi lo v) x = tileAux h x := rfl

theorem tileAux_freeTile_ne {h : Hw} {t x : Nat} (e : x ≠ t) : tileAux (freeTile h t) x = tileAux h x := by
  simp [freeTile, tileAux_setTileAux, e]

theorem tileAux_freeTiles (h : Hw) (ts : List Nat) (x : Nat) (e : x ∉ ts) :
    tileAux (ts.foldl freeTile h) x = tileAux h x := by
  induction ts generalizing h with
  | nil => rfl
  | cons t ts ih =>
    simp only [List.mem_cons, not_or] at e
    rw [List.foldl_cons, ih _ e.2, tileAux_freeTile_ne e.1]

@[simp] theorem tileAux_freeTile_self (h : Hw) (t : Nat) :
    tileAux (freeTile h t) t = { tileAux h t with queue := [], claimed := none } := by
  simp [freeTile]

/-- What a command's end takes from its tiles: their finished-tile queue and their credits. -/
theorem tileAux_freeTiles_mem (h : Hw) (ts : List Nat) (x : Nat) (m : x ∈ ts) :
    tileAux (ts.foldl freeTile h) x = { tileAux h x with queue := [], claimed := none } := by
  induction ts generalizing h with
  | nil => simp at m
  | cons t ts ih =>
    rw [List.foldl_cons]
    by_cases m' : x ∈ ts
    · rw [ih _ m']
      by_cases e : x = t
      · subst e; simp
      · rw [tileAux_freeTile_ne e]
    · have : x = t := by simpa [m'] using m
      subst this
      rw [tileAux_freeTiles _ _ _ m', tileAux_freeTile_self]

/-- The command of a slot after its tiles are released: it holds none. -/
theorem releaseTiles_of_some {h : Hw} {slot : Nat} {c : Cmd} (e : cmdAt h slot = some c) :
    releaseTiles h slot =
      c.tiles.foldl freeTile (setCmd h slot { c with tiles := [], serving := none, computed := false, team := [] }) := by
  simp [releaseTiles, e]

theorem cmdAt_freeTiles (h : Hw) (ts : List Nat) (k : Nat) : cmdAt (ts.foldl freeTile h) k = cmdAt h k := by
  rw [freeTiles_eq]; rfl

/-- What a command has written joins the past, and nothing else changes. -/
theorem notePast_eq (h : Hw) (slot : Nat) (c : Cmd) : notePast h slot c = { h with order := (notePast h slot c).order } := by
  unfold notePast; split_ifs <;> rfl

theorem notePast_none {h : Hw} {slot : Nat} {c : Cmd} (o : c.outRanges = []) : notePast h slot c = h := by
  simp [notePast, o]

/-- A command without a work buffer and overlapping operands leaves only the order of what it wrote open. -/
theorem leaveOpen_plain {h : Hw} {slot : Nat} {c : Cmd} (b : c.workBuffer = []) (v : c.overlaps = []) :
    leaveOpen h slot c = notePast h slot c := by simp [leaveOpen, spoil, b, v]

/-- One that has written nothing either leaves nothing open. -/
theorem leaveOpen_none {h : Hw} {slot : Nat} {c : Cmd} (b : c.workBuffer = []) (v : c.overlaps = [])
    (o : c.outRanges = []) : leaveOpen h slot c = h := by rw [leaveOpen_plain b v, notePast_none o]

theorem overlaps_control {c : Cmd} (e : c.cls = 0 ∨ 7 < c.cls) : c.overlaps = [] := by
  unfold Cmd.overlaps; split_ifs <;> first | omega | rfl

theorem workBuffer_control {c : Cmd} (e : c.cls = 0 ∨ 7 < c.cls) : c.workBuffer = [] := by
  unfold Cmd.workBuffer; split_ifs <;> first | omega | rfl

/-- What finish does, whole: what the command's end leaves open, then its tiles, tokens, token waits and deep-tier
requests are free, and the command is finished. -/
theorem finish_eq {h : Hw} {slot st d0 d1 : Nat} {c : Cmd} (e : cmdAt h slot = some c) :
    finish h slot st d0 d1 =
      let g := leaveOpen h slot c
      let x := setCmd (c.tiles.foldl freeTile g) slot (c.finished st d0 d1)
      { g with regs := x.regs, freeRegs := x.freeRegs, tilesAux := x.tilesAux, slots := x.slots,
               tokens := g.tokens.filter (fun e => e.2.1 ≠ slot),
               tokenWaits := g.tokenWaits.filter (fun e => e.1 ≠ slot), ports := dropSlotReqs g.ports slot } := by
  unfold finish
  rw [e]
  simp only
  rw [freeTiles_eq]
  rfl

theorem cmdAt_finish {h : Hw} {slot st d0 d1 : Nat} {c : Cmd} (e : cmdAt h slot = some c) (k : Nat) :
    cmdAt (finish h slot st d0 d1) k =
      if k = slot then some (c.finished st d0 d1) else cmdAt (leaveOpen h slot c) k := by
  rw [finish_eq e]
  show cmdAt (setCmd _ _ _) k = _
  rw [cmdAt_setCmd, cmdAt_freeTiles]

theorem getReg_finish {h : Hw} {slot st d0 d1 : Nat} {c : Cmd} (e : cmdAt h slot = some c) (o : Nat) :
    getReg (finish h slot st d0 d1) o = getReg (c.tiles.foldl freeTile (leaveOpen h slot c)) o := by
  rw [finish_eq e]; rfl

theorem tileAux_finish {h : Hw} {slot st d0 d1 : Nat} {c : Cmd} (e : cmdAt h slot = some c) {t : Nat} (n : t ∉ c.tiles) :
    tileAux (finish h slot st d0 d1) t = tileAux (leaveOpen h slot c) t := by
  rw [finish_eq e]
  exact tileAux_freeTiles _ _ _ n

theorem tileAux_finish_mem {h : Hw} {slot st d0 d1 : Nat} {c : Cmd} (e : cmdAt h slot = some c) {t : Nat} (m : t ∈ c.tiles) :
    tileAux (finish h slot st d0 d1) t = { tileAux (leaveOpen h slot c) t with queue := [], claimed := none } := by
  rw [finish_eq e]
  exact tileAux_freeTiles_mem _ _ _ m

end Sys2Proof.Machine
end

