-- ==== Sys2Proof/Laws/Work.lean ====
section
/-! SUPPORT. What the shared operations behind the meanings do, once: operations of the package (Run), the access
gates, work in units and its end. -/

namespace Sys2Proof.Machine

variable {α β : Type} {h h' : Hw}

/-! Operations of the package -/

@[simp] theorem runOn_pure (x : α) : runOn (pure x) h = (.ok x, h) := rfl
@[simp] theorem runOn_get : runOn (get : Run Hw) h = (.ok h, h) := rfl
@[simp] theorem runOn_set (g : Hw) : runOn (set g : Run Unit) h = (.ok (), g) := rfl
@[simp] theorem runOn_modifyHw (f : Hw → Hw) : runOn (modifyHw f) h = (.ok (), f h) := rfl
@[simp] theorem runOn_throw (e : Fail) : runOn (throw e : Run α) h = (.error e, h) := rfl

/-- What a sequence of two operations answers comes from what they answer. -/
theorem runOn_bind {m : Run α} {f : α → Run β} :
    runOn (m >>= f) h = match runOn m h with
      | (.ok x, h1) => runOn (f x) h1
      | (.error e, h1) => (.error e, h1) := by
  show (fun p : Except Fail α × Hw => ExceptT.bindCont (m := StateM Hw) f p.1 p.2) (runOn m h) = _
  rcases runOn m h with ⟨r, h1⟩
  cases r <;> rfl

theorem runOn_bind_ok {m : Run α} {f : α → Run β} {x : α} (e : runOn m h = (.ok x, h')) :
    runOn (m >>= f) h = runOn (f x) h' := by
  rw [runOn_bind, e]

theorem runOn_bind_error {m : Run α} {f : α → Run β} {x : Fail} (e : runOn m h = (.error x, h')) :
    runOn (m >>= f) h = (.error x, h') := by
  rw [runOn_bind, e]

/-! Meanings over the hardware -/

/-- A register command acts where its offset answers and nothing waits before it (R383, R473). -/
theorem ifAnswers_of {w : World} {off : Nat} {i : Instr} {f : Hw → Hw} (a : acts h w off = true) :
    ifAnswers w off i f h = f h := by
  simp only [acts, Bool.and_eq_true, Bool.not_eq_true'] at a
  simp [ifAnswers, posted, a.1, a.2]

theorem ifAnswers_not {w : World} {off : Nat} {i : Instr} {f : Hw → Hw} (a : answers h w off = false)
    (p : postedBefore h w = false) : ifAnswers w off i f h = h := by
  simp [ifAnswers, posted, a, p]

/-- Behind a posted write it joins those that wait. -/
theorem ifAnswers_behind {w : World} {off : Nat} {i : Instr} {f : Hw → Hw} (p : postedBefore h w = true) :
    ifAnswers w off i f h = { h with host := { h.host with behind := h.host.behind ++ [i] } } := if_pos p

/-- The secure view waits for no write of the host. -/
@[simp] theorem postedBefore_secure : postedBefore h .secure = false := rfl

theorem ifSecView_of {off : Nat} {f : Hw → Hw} (a : answers h .secure off = true) : ifSecView .secure off f h = f h :=
  if_pos ⟨rfl, a⟩

theorem ifSecView_nonSecure (off : Nat) (f : Hw → Hw) : ifSecView .nonSecure off f h = h := if_neg (by simp)

/-- A command that is not active in its slot makes no progress. -/
theorem withCmd_none {slot op : Nat} {f : Cmd → Hw → Hw} (a : active h slot op = none) : withCmd slot op f h = h := by
  simp only [withCmd, a]

/-- An active command is in its slot, running, of the opcode, and not faulted. -/
theorem active_some {slot op : Nat} {c : Cmd} (a : active h slot op = some c) :
    cmdAt h slot = some c ∧ c.opcode = op ∧ c.phase = .running ∧ c.fault = none ∧ working h = true := by
  unfold active at a
  split at a
  · cases a
  · rename_i d hd
    split at a
    · rename_i hc
      cases a
      exact ⟨hd, hc.1, hc.2.1, by simpa using hc.2.2.1, hc.2.2.2.1⟩
    · cases a

/-! Work in units -/

theorem UnitsRun.cmd {slot : Nat} {w : Work} (u : UnitsRun slot w h h') :
    ∃ c c', cmdAt h slot = some c ∧ cmdAt h' slot = some c' ∧ w.units ≤ c'.doneUnits := by
  induction u with
  | none h c e l => exact ⟨c, c, e, e, l⟩
  | more h h1 h2 c c1 e l r e1 d u ih =>
    obtain ⟨_, c', _, e', l'⟩ := ih
    exact ⟨c, c', e, e', l'⟩

/-- Units that go through are the units that run. -/
theorem runUnits_of_unitsRun {slot : Nat} {w : Work} (u : UnitsRun slot w h h') :
    ∀ {c : Cmd} {k : Nat}, cmdAt h slot = some c → w.units - c.doneUnits ≤ k → runUnits slot w k h = (none, h') := by
  induction u with
  | none h c e l =>
    intro d k ed _
    cases k with
    | zero => rfl
    | succ k => simp only [runUnits, e, if_pos l]
  | more h h1 h2 c c1 e l r e1 d _ ih =>
    intro c' k ec lk
    rw [e] at ec
    cases ec
    cases k with
    | zero => omega
    | succ k =>
      simp only [runUnits, e, if_neg (Nat.not_le.mpr l), r]
      exact ih e1 (by omega)

/-- Work that goes through ends the command: the whole of what runWork does then. -/
theorem runWork_of_workEnds {slot : Nat} {w : Work} {st d0 d1 : Nat} {c : Cmd}
    (g : workEnds slot w c h st d0 d1 h') : runWork slot w c h = h' := by
  obtain ⟨h0, h1, h2, c0, c1, c2, o, e0, d, u, e1, r, e2, rfl⟩ := g
  have ru : runUnits slot w (w.units - c.doneUnits) h0 = (none, h1) :=
    runUnits_of_unitsRun u e0 (by omega)
  simp only [runWork, runSome, o, ru, e1, r]

/-- A command whose work has gone through has finished, as its work says. -/
theorem ended_of_workEnds {slot : Nat} {w : Work} {st d0 d1 : Nat} {c : Cmd} (g : workEnds slot w c h st d0 d1 h') :
    ended h' slot st d0 d1 := by
  obtain ⟨_, h1, h2, _, c1, c2, _, _, _, _, _, _, e2, rfl⟩ := g
  exact ⟨c2.finished st d0 d1, by rw [cmdAt_finish e2, if_pos rfl], rfl, rfl, rfl, rfl⟩

/-! Error records -/

/-- Routing a record by its severity reaches the host queue, the sticky list and the pins alone (R458). -/
theorem routeSeverity_frame (r : ErrRec) : (routeSeverity h r).mem = h.mem ∧ (routeSeverity h r).slots = h.slots ∧
    (routeSeverity h r).ports = h.ports ∧ (routeSeverity h r).colls = h.colls ∧ (routeSeverity h r).sec = h.sec := by
  simp only [routeSeverity]
  refine ⟨?_, ?_, ?_, ?_, ?_⟩ <;> split_ifs <;> rfl

/-- A record written shows in the error registers and the log alone. -/
theorem logErr_frame (x : ErrEvent) : (logErr h x).mem = h.mem ∧ (logErr h x).slots = h.slots ∧
    (logErr h x).ports = h.ports ∧ (logErr h x).colls = h.colls ∧ (logErr h x).sec = h.sec := by
  simp only [logErr, errRecord]
  refine ⟨(routeSeverity_frame _).1.trans ?_, (routeSeverity_frame _).2.1.trans ?_,
    (routeSeverity_frame _).2.2.1.trans ?_, (routeSeverity_frame _).2.2.2.1.trans ?_,
    (routeSeverity_frame _).2.2.2.2.trans ?_⟩ <;> rfl

end Sys2Proof.Machine
end

