-- ==== Sys2Proof/WellFormed.lean ====
section
/-! DEFINITION. Which commands are well formed: values that the manual's own widths and lengths rule out. A meaning takes
any command; a sender sends well-formed ones. -/

namespace Sys2Proof

/-- Why a command is ill formed. -/
inductive WfError where
  /-- A register offset at or beyond the 64 MiB of BAR0 (R468). -/
  | offsetBeyondBar
  /-- A register access of another size than 1, 2, 4 or 8 bytes (R469). -/
  | accessSize
  /-- A cell whose TYPE is not that of its row, or whose payload is not of its type (Table 12-3). -/
  | cellType
  /-- More than 240 bytes in a cell, or another number on the fibre (R298). -/
  | cellBytes
  /-- A cell in the clear whose bytes are not what its payload says, where the manual lays it out (Tables 12-5, 12-9).
  -/
  | cellLayout
  /-- Another number of bytes than a control frame has (Table 17-4). -/
  | frameBytes
  /-- Another number of bytes than a flit has (R408). -/
  | flitBytes
  /-- A window access of no bytes, or a read that carries bytes (R375). -/
  | windowBytes
  /-- A management READ of a length outside 1 to 64 (R462). -/
  | readLength
  /-- A digest or root of another length than the manual gives it (R342, R345). -/
  | digestLength
  /-- A clock step above 35 (Table 18-4). -/
  | clockStep
  /-- A sample that does not list each quadrant or each board (Table 18-10). -/
  | sampleLength
  /-- A block of a refresh of another size than 4 KiB (R346). -/
  | blockLength
  /-- A link result that HOST_LINK_STATUS cannot report (Table 15-5). -/
  | linkResult
  deriving DecidableEq, Repr

/-- The bytes that a payload carries. -/
def Payload.bytes : Payload → Nat
  | .data p => p.bytes.length
  | .dtWrite _ _ _ bs => bs.length
  | .dtResp bs => bs.length
  | .ckpt (.units _ bs) => bs.length
  | .ckpt (.record bs) => bs.length
  | .ckpt (.held _ r) => (r.getD []).length
  | .ckpt (.digest d) => (d.getD []).length
  | _ => 0

/-- The cell type whose payload this is (Table 12-3); cells of two types carry a serial number, and two carry none. -/
def Payload.types : Payload → List Nat
  | .none => [1, 2, 14, 15]
  | .keepalive _ => [0]
  | .setup _ => [3]
  | .close _ => [4]
  | .abort _ => [5]
  | .data _ => [6]
  | .dtRead _ _ _ _ => [7]
  | .dtWrite _ _ _ _ => [8]
  | .ckpt _ => [9]
  | .dtResp _ => [10]
  | .dtAck _ => [11]
  | .serial _ => [12, 13]

/-- A cell stands in a row of one of these types. -/
def cellIssue (types : List Nat) (c : Cell) : Option WfError :=
  if !types.contains c.type.toNat ∨ !c.payload.types.contains c.type.toNat then some .cellType
  else if 240 < c.payload.bytes ∨ c.wire.length ≠ 240 then some .cellBytes
  else if !c.enc ∧ c.wire.take (Machine.laidOut c.payload).length ≠ Machine.laidOut c.payload then some .cellLayout
  else none

def when_ (bad : Bool) (e : WfError) : Option WfError := if bad then some e else none

def frameIssue (f : Frame) : Option WfError := when_ (decide (f.payload.length + f.pad.length ≠ 24)) .frameBytes

def obsIssue (f : FrameObs) : Option WfError :=
  (frameIssue f.frame).or (when_ (f.queued.any fun m => decide (24 < m.payload.length)) .frameBytes)

/-- What is wrong with a command, if anything. -/
def Instr.issue : Instr → Option WfError
  | .registerWrite _ off bytes _ =>
    (when_ (decide (0x4000000 ≤ off)) .offsetBeyondBar).or (when_ (!([1, 2, 4, 8].contains bytes)) .accessSize)
  | .keepalive _ c => cellIssue [0] c
  | .credit _ c => cellIssue [1] c
  | .nak _ c => cellIssue [2] c
  | .setup _ c => cellIssue [3] c
  | .close _ c => cellIssue [4] c
  | .abort _ c => cellIssue [5] c
  | .data _ c => cellIssue [6] c
  | .dtRead _ c => cellIssue [7] c
  | .dtWrite _ c => cellIssue [8] c
  | .ckpt _ c => cellIssue [9] c
  | .dtResp _ c => cellIssue [10] c
  | .dtAck _ c => cellIssue [11] c
  | .quiet _ c => cellIssue [12] c
  | .resign _ c => cellIssue [13] c
  | .badCells _ c => cellIssue [14, 15] c
  | .idleFrame _ f => obsIssue f
  | .dataFrame _ f => obsIssue f
  | .nakFrame _ f => frameIssue f
  | .controlFrameCrcFailure f => when_ (decide (f.bytes.length ≠ 32)) .frameBytes
  | .flit x => when_ (decide (x.bytes.length ≠ 64)) .flitBytes
  | .windowAccess op _ len bytes =>
    when_ (if op.write then decide (bytes.length = 0) else decide (len = 0) || !bytes.isEmpty) .windowBytes
  | .mgmtRead _ _ len => when_ (decide (len = 0) || decide (64 < len)) .readLength
  | .stepEnd _ roots => when_ (roots.any fun r => r.length ≠ 32) .digestLength
  | .verify _ ds => when_ (ds.any fun d => d.any fun b => b.length ≠ 32) .digestLength
  | .clockChange _ step => when_ (decide (35 < step)) .clockStep
  | .boardLoop _ x => when_ (decide (x.temps.length ≠ 4)) .sampleLength
  | .arbAllocation x => when_ (decide (x.boardDemand.length ≠ 3)) .sampleLength
  | .divergenceRefresh bs => when_ (bs.any fun b => b.bytes.length ≠ 4096) .blockLength
  | .cxlLinkTraining m width speed =>
    when_ (!(m.mode.toNat = 1 || m.mode.toNat = 2) || decide (16 < width.toNat) || decide (width.toNat = 0) ||
      decide (5 < speed.toNat) || decide (speed.toNat = 0)) .linkResult
  | _ => none

/-- A well-formed command. -/
def Instr.wf (i : Instr) : Bool := i.issue.isNone

end Sys2Proof
end

