-- ==== Sys2Proof/Tests/Slice0.lean ====
section
/-! SUPPORT. Tests: ill-formed commands are refused, what commands do on small states by the manual's tables and rules,
and a state that meets the hypotheses of each statement. -/

namespace Sys2Proof.Tests

open Sys2Proof Sys2Proof.Machine

set_option Elab.async false

/-! Small states -/

/-- A packet of 1 + len slots with an opcode and fields (offset, bytes, value). -/
def packet (op len : Nat) (fs : List (Nat × Nat × Nat)) : List Byte :=
  (List.range (64 * (1 + len))).map fun i =>
    match (fs ++ [(0, 4, op + len * 2 ^ 16)]).find? (fun f : Nat × Nat × Nat => decide (f.1 ≤ i) && decide (i < f.1 + f.2.1)) with
    | none => 0
    | some f => BitVec.ofNat 8 (f.2.2 / 2 ^ (8 * (i - f.1)))

/-- A package in READY with its bring-up over, and tiles 0 and 1 ready. -/
def live : Hw := [0, 1].foldl (fun h t => setReg h (regOf (.tile t) 4) 1) { Hw.reset with pkg := .ready, bringStep := 10 }

/-- A running command of ring 0 that holds tile 0. -/
def cmd (op len : Nat) (fs : List (Nat × Nat × Nat)) : Cmd :=
  { newCmd live 0 (packet op len fs) with phase := .running, tiles := [0] }

def ofHw (h : Hw) : State := { State.reset with hw := h }

/-- A live package with a command in slot 0. -/
def with0 (c : Cmd) : Hw := { live with slots := [(0, c)] }

/-- The hardware after a command. -/
def after (i : Instr) (h : Hw) : Hw := ((nextOf (exec i (ofHw h))).map State.hw).getD Hw.reset

/-- Status and DETAIL words of the finished command in a slot. -/
def endOf (h : Hw) (slot : Nat) : Option (Nat × Nat × Nat) :=
  match cmdAt h slot with
  | none => none
  | some c => if c.phase = .finished then some (c.status.toNat, c.detail0.toNat, c.detail1.toNat) else none

def regsOf (h : Hw) (rs : List (Nat × Nat)) : Hw :=
  rs.foldl (fun h r => setReg h r.1 (BitVec.ofNat 32 r.2)) h

/-! The machine -/

theorem test_reset_steps : nextOf (step State.reset) = some State.reset ∧
    State.reset.fuses.svnFloor ≤ State.reset.fuses.svnFloor := by decide +kernel

theorem test_settle_run : (settle (setRegBit live (rRingStatus 0) 0 true)).pkg = .run ∧
    (settle { live with pkg := .run }).pkg = .ready ∧ live.errs.toMirror = [] ∧ settle live = live := by decide +kernel

/-- A start at its step k. -/
def startingAt (k : Nat) : State :=
  ofHw { Hw.reset with pkg := .bringup, bringStep := k, starting := some (BringUpObs.mk [] [] [] [] [] false [] true, true) }

theorem test_start_ends : (startingAt 7).pending = [] ∧ (startingAt 3).hw.pkg = .bringup ∧
    ((nextOf (step (startingAt 7))).map fun t => (t.hw.pkg, t.hw.bringStep, t.hw.starting)) = some (.ready, 8, none) := by
  decide +kernel

theorem test_start_step : ((nextOf (step (startingAt 6))).map fun t => (t.hw.pkg, t.hw.bringStep, t.hw.starting.isSome)) =
    some (.bringup, 7, true) := by decide +kernel

theorem test_register_without_answer : registerOf (.ringStop .nonSecure 0) = some (.nonSecure, rRing 0 0x018) ∧
    acts State.reset.hw .nonSecure (rRing 0 0x018) = false ∧ opcodeOf (.nop 0) = some (0, 0) ∧
    active live 0 0 = none := by decide +kernel

theorem test_finish_frees : endOf (finish (with0 (cmd 0 0 [])) 0 3 1 0) 0 = some (3, 1, 0) ∧
    tileBusy (finish (setRegBit (with0 (cmd 0 0 [])) (regOf (.tile 0) 4) 1 true) 0 3 1 0) 0 = false := by decide +kernel

theorem test_error_ref_skips_zero :
    (errRecord (setReg live rErrLast 0xFFFFFFFF) { source := 1, kind := 0, severity := 2 }).1 = 1 := by decide +kernel

/-! Ill-formed commands -/

/-- A cell of a type with a payload, in the clear; its bytes are zeros behind what the manual lays out. -/
def cell (type : Nat) (p : Payload) : Cell :=
  crcCell { blankCell type p with seq := 1, wire := (laidOut p ++ List.replicate 240 0).take 240 }

/-- A frame whose CRC holds as one of a TYPE. -/
def frame (type bytes : Nat) : Frame := crcFrame type (Frame.mk 1 0 0 (List.replicate bytes 0) [] 0)

theorem test_ill_formed_register :
    (Instr.registerWrite .secure 0x4000000 4 0).issue = some .offsetBeyondBar ∧
    (Instr.registerWrite .secure 0x100 3 0).issue = some .accessSize ∧ (Instr.registerWrite .secure 0x100 8 0).wf = true ∧
    (Instr.registerWrite .secure 0x3FFFFFC 4 0).wf = true := by decide

theorem test_ill_formed_cell : (Instr.setup 0 (cell 4 .none)).issue = some .cellType ∧
    (Instr.data 0 (cell 6 (.serial 1))).issue = some .cellType ∧
    (Instr.data 0 (cell 6 (.data ⟨0, List.replicate 241 0⟩))).issue = some .cellBytes ∧
    (Instr.data 0 (cell 6 (.data ⟨0, List.replicate 240 0⟩))).wf = true ∧
    (Instr.data 0 { cell 6 (.data ⟨0, [1]⟩) with wire := List.replicate 240 0 }).issue = some .cellLayout := by decide +kernel

theorem test_ill_formed_bytes : (Instr.dataFrame ⟨0, false⟩ ⟨frame 1 25, []⟩).issue = some .frameBytes ∧
    (Instr.dataFrame ⟨0, false⟩ ⟨frame 1 24, []⟩).wf = true ∧
    (Instr.dataFrame ⟨0, false⟩ ⟨frame 1 24, [⟨0, List.replicate 25 0⟩]⟩).issue = some .frameBytes ∧
    (Instr.windowAccess ⟨true, .bar2⟩ 0 0 []).issue = some .windowBytes ∧
    (Instr.mgmtRead .status 0 65).issue = some .readLength ∧ (Instr.mgmtRead .status 0 64).wf = true := by decide +kernel

theorem test_ill_formed_values : (Instr.stepEnd 0 [[1]]).issue = some .digestLength ∧
    (Instr.clockChange 0 36).issue = some .clockStep ∧ (Instr.clockChange 0 35).wf = true ∧
    (Instr.boardLoop 0 ⟨0, 0, 0, 0, [1]⟩).issue = some .sampleLength ∧
    (Instr.divergenceRefresh [⟨0, false, 0, [1]⟩]).issue = some .blockLength ∧
    (Instr.cxlLinkTraining ⟨3, 1⟩ 16 5).issue = some .linkResult ∧ (Instr.cxlLinkTraining ⟨1, 1⟩ 16 5).wf = true ∧
    (Instr.controlFrameCrcFailure ⟨⟨0, false⟩, [1]⟩).issue = some .frameBytes := by decide
/-! Control commands and rings -/

theorem test_nop : endOf (after (.nop 0) (with0 (cmd 0x00 0 []))) 0 = some (0, 0, 0) ∧
    active (with0 (cmd 0x00 0 [])) 0 0x00 = some (cmd 0x00 0 []) := by decide +kernel

/-- FENCE with FENCE_GLOBAL, a trained CXL link and one modified line. -/
def fenceState : Hw :=
  { setReg (with0 (cmd 0x01 0 [(4, 2, 4)])) rHostLink 0x1001 with
    host := { HostAux.reset with lines := [(4, AgentLine.mk (List.replicate 64 7) 0)] } }

theorem test_fence_writes_lines_back : active fenceState 0 0x01 = some (cmd 0x01 0 [(4, 2, 4)]) ∧
    hostUp fenceState = true ∧ hFenceGlobal (cmd 0x01 0 [(4, 2, 4)]).packet = true ∧
    endOf (after (.fence 0) fenceState) 0 = some (0, 0, 0) ∧ (after (.fence 0) fenceState).host.lines = [] ∧
    (after (.fence 0) fenceState).mem.read .host 256 = 7 := by decide +kernel

/-- WAIT_EVENT on counter 5 with value 3 and a timeout. -/
def waitCmd : Cmd := cmd 0x02 1 [(0x40, 4, 5), (0x44, 4, 3), (0x48, 4, 9)]

theorem test_wait_met : endOf (after (.waitEvent 0) (setReg (with0 waitCmd) (rCtr 5) 3)) 0 = some (0, 0, 0) ∧
    endOf (after (.waitEventTimeout 0) (setReg (with0 waitCmd) (rCtr 5) 3)) 0 = none := by decide +kernel

theorem test_wait_unmet : endOf (after (.waitEvent 0) (setReg (with0 waitCmd) (rCtr 5) 2)) 0 = none ∧
    endOf (after (.waitEventTimeout 0) (setReg (with0 waitCmd) (rCtr 5) 2)) 0 = some (3, 3, 0) := by decide +kernel

/-- The difference is signed: 1 is 2 beyond 2^32 - 1. -/
theorem test_wait_wraps :
    endOf (after (.waitEvent 0) (setReg (with0 (cmd 0x02 1 [(0x40, 4, 5), (0x44, 4, 0xFFFFFFFF)])) (rCtr 5) 1)) 0 =
      some (0, 0, 0) := by decide +kernel

theorem test_signal_adds :
    getReg (after (.signal 0) (setReg (with0 (cmd 0x03 1 [(0x40, 4, 5), (0x44, 4, 3)])) (rCtr 5) 0xFFFFFFFF)) (rCtr 5) = 2 ∧
    endOf (after (.signal 0) (with0 (cmd 0x03 1 [(0x40, 4, 5)]))) 0 = some (0, 0, 0) := by decide +kernel

/-- SIGNAL that sets counter 5 to 9 and stores to a pinned page in a tile store. -/
def storeCmd : Cmd :=
  { cmd 0x03 1 [(0x40, 4, 5 + 3 * 2 ^ 16), (0x44, 4, 9), (0x48, 8, 0x20000), (0x50, 8, 0x1122)] with
    pins := [(2, 0xF00000000000)] }

theorem test_signal_stores : endOf (after (.signal 0) (with0 storeCmd)) 0 = some (0, 0, 0) ∧
    getReg (after (.signal 0) (with0 storeCmd)) (rCtr 5) = 9 ∧
    (after (.signal 0) (with0 storeCmd)).mem.readN .tile 0 2 = [0x22, 0x11] := by decide +kernel

/-- Ring 0 with live sizes of 16, in host memory, and the host link up. -/
def ringed : Hw := regsOf live [(rRing 0 0x048, 16), (rRing 0 0x054, 16), (rRing 0 0x058, 2 ^ 30 + 2 ^ 29), (rHostLink, 0x1001)]

theorem test_doorbell_range : acts ringed .nonSecure (rRing 0 0) = true ∧ sqSize ringed 0 = 16 ∧
    (ringAux (after (.sqDoorbell .nonSecure 0 16) ringed) 0).sqProd = 16 ∧
    (ringAux (after (.sqDoorbell .nonSecure 0 17) ringed) 0).sqProd = 0 ∧
    ringParked (after (.sqDoorbell .nonSecure 0 17) ringed) 0 = true ∧
    regBit (after (.sqDoorbell .nonSecure 0 17) ringed) (rRingStatus 0) 7 = true := by decide +kernel

theorem test_completion_doorbell : acts ringed .nonSecure (rRing 0 4) = true ∧
    (ringAux (after (.cqDoorbell .nonSecure 0 2) (setReg ringed (rRing 0 0x10) 2)) 0).cqCons = 2 ∧
    (ringAux (after (.cqDoorbell .nonSecure 0 3) (setReg ringed (rRing 0 0x10) 2)) 0).cqCons = 0 ∧
    regBit (after (.cqDoorbell .nonSecure 0 3) (setReg ringed (rRing 0 0x10) 2)) (rRingStatus 0) 7 = true := by
  decide +kernel

/-- A sound staged set for ring 1: sizes 16 and 65,536, bases on 4 KiB. -/
def stagedRing : Hw := regsOf live
  [(rRing 1 0x020, 0x1000), (rRing 1 0x028, 16), (rRing 1 0x02C, 0x2000), (rRing 1 0x034, 65536)]

theorem test_ring_commit : acts stagedRing .nonSecure (rRing 1 0x05C) = true ∧
    getReg (after (.ringCommit .nonSecure 1) stagedRing) (rRing 1 0x054) = 65536 ∧
    regBit (after (.ringCommit .nonSecure 1) (setReg stagedRing (rRing 1 0x028) 8)) (rRingStatus 1) 9 = true ∧
    regBit (after (.ringCommit .nonSecure 1) (setReg stagedRing (rRing 1 0x020) 0x800)) (rRingStatus 1) 9 = true := by
  decide +kernel

theorem test_ring_enable : ringEnabled (after (.ringEnable .nonSecure 0) ringed) 0 = true ∧
    ringEnabled (after (.ringEnable .nonSecure 1) ringed) 1 = false ∧
    regBit (after (.ringEnable .nonSecure 1) ringed) (rRingStatus 1) 9 = true := by decide +kernel

/-- Ring 0 enabled, with a waiting command in slot 3. -/
def waitingRing : Hw :=
  { setRegBit ringed (rRingStatus 0) 0 true with slots := [(3, { cmd 0x00 0 [] with phase := .waiting, tiles := [] })] }

theorem test_ring_stop_abort : ringEnabled waitingRing 0 = true ∧
    ringStopping (after (.ringStop .nonSecure 0) waitingRing) 0 = true ∧
    abortable waitingRing 3 { cmd 0x00 0 [] with phase := .waiting, tiles := [] } = true ∧
    endOf (after (.ringAbort .nonSecure 0) waitingRing) 3 = some (3, 1, 0) := by decide +kernel

theorem test_ring_disabled :
    ringEnabled (after (.ringDisabled 0) (setRegBit { waitingRing with slots := [] } (rRingStatus 0) 3 true)) 0 = false ∧
    ringHalted (after (.errorHaltClear .nonSecure 0) (setRegBit waitingRing (rRingStatus 0) 8 true)) 0 = false := by
  decide +kernel

theorem test_record_index : cqClosed ringed 0 = false ∧ bit (ringCfg ringed 0) 29 = true ∧
    (postRecord (setReg ringed (rRing 0 0x10) 17) 0 (List.replicate 32 5)).1 = false ∧
    (postRecord { setReg ringed (rRing 0 0x10) 17 with rings := [(0, { RingAux.reset with cqCons := 17 })] } 0
      (List.replicate 32 5)).2.mem.read .host 32 = 5 ∧
    cqClosed (setReg ringed (rRing 0 0x10) 16) 0 = true := by decide +kernel

/-- Ring 0 enabled, with a NOP of lap 1 in host memory and a doorbell of 1. -/
def fetchRing (lap : Nat) : Hw :=
  { setRegBit ringed (rRingStatus 0) 0 true with
    rings := [(0, { RingAux.reset with sqProd := 1 })], mem := Mem.reset.write .host 0 (packet 0x00 0 [(1, 1, lap)]) }

theorem test_fetch : mayFetch (fetchRing 1) 0 = true ∧ fetchable (fetchRing 1) 0 = true ∧ fetchTurnOf (fetchRing 1) 0 = true ∧
    ((cmdAt (after (.packetFetch 0) (fetchRing 1)) 0).map fun c => (c.opcode, c.phase)) = some (0x00, .waiting) ∧
    sqCons (after (.packetFetch 0) (fetchRing 1)) 0 = 1 := by decide +kernel

theorem test_fetch_stale : (ringAux (after (.packetFetch 0) (fetchRing 2)) 0).mismatch = true ∧
    (after (.packetFetch 0) (fetchRing 2)).slots = [] := by decide +kernel

/-- The seventh refetch has failed. -/
def staleRing : Hw := { fetchRing 2 with rings := [(0, { RingAux.reset with sqProd := 1, mismatch := true, refetches := 7 })] }

theorem test_lap_refetch_parks : mayFetch staleRing 0 = true ∧
    ringParked (after (.lapRefetch 0) staleRing) 0 = true ∧
    regBit (after (.lapRefetch 0) staleRing) (rRingStatus 0) 6 = true ∧
    regFld (after (.lapRefetch 0) staleRing) (rRingStatus 0) 31 24 = 0x70 := by decide +kernel

theorem test_lap_refetch_takes : sqCons (after (.lapRefetch 0)
    { fetchRing 1 with rings := [(0, { RingAux.reset with sqProd := 1, mismatch := true, refetches := 3 })] }) 0 = 1 := by
  decide +kernel

theorem test_dispatch : mayDispatch waitingRing 3 { cmd 0x00 0 [] with phase := .waiting, tiles := [] } = true ∧
    ((cmdAt (after (.dispatch 3) waitingRing) 3).map Cmd.phase) = some .running := by decide +kernel

/-- A wait on counter 7 in error, and a command with no work. -/
def waitCtr7 : Cmd := { cmd 0x00 0 [(4, 2, 16), (0x10, 4, 7)] with phase := .waiting, tiles := [] }

theorem test_dispatch_aborts :
    endOf (after (.dispatch 3) { regsOf waitingRing [(rCtr 7 + 4, 1)] with slots := [(3, waitCtr7)] }) 3 =
      some (3, 2 + 7 * 2 ^ 16, 0) ∧
    endOf (after (.dispatch 3) { waitingRing with slots := [(3, { cmd 0x00 0 [] with
      phase := .waiting, tiles := [], empty := true })] }) 3 = some (1, 0, 0) := by decide +kernel

/-- A finished command of ring 0. -/
def finishedRing : Hw := { waitingRing with slots := [(3, { cmd 0x00 0 [] with phase := .finished, tiles := [] })] }

theorem test_final_record : (writeFinal finishedRing 3).1 = true ∧
    (cmdAt (after (.finalRecord 3) finishedRing) 3).isNone = true ∧ cqProd (after (.finalRecord 3) finishedRing) 0 = 1 := by
  decide +kernel

theorem test_room : roomFor finishedRing 0 1 ∧ (finishedRing.host.winQueue = []) := by unfold roomFor; decide +kernel

/-- A barrier of the non-secure world that waits on a secure map. -/
def secureMapped : Hw :=
  { regsOf live [(rMap 0 0, 2 ^ 31 + 2 ^ 12)] with
    slots := [(0, { cmd 0x76 2 [(0x88, 8, 1)] with phase := .waiting, tiles := [] })] }

theorem test_dispatch_secure_map : mayDispatch secureMapped 0 { cmd 0x76 2 [(0x88, 8, 1)] with phase := .waiting, tiles := [] } = true ∧
    mapSecure secureMapped (mapActive secureMapped) = true ∧
    endOf (after (.dispatch 0) secureMapped) 0 = some (0x13, 0, 0) := by decide +kernel

/-- The SUSPENDED record of a command whose ring was full follows as soon as there is room (R51). -/
theorem test_suspended_follows : cqProd (after (.cqDoorbell .nonSecure 0 1) { setReg ringed (rRing 0 0x10) 16 with
    slots := [(0, { cmd 0x11 1 [] with phase := .suspended })], due := [⟨0, some (1, 0)⟩] }) 0 = 17 := by decide +kernel

/-- A FILL of 64 bytes on tile 0. -/
def fillCmd : Cmd := cmd 0x11 1 [(0x40, 8, 0x20000), (0x48, 8, 64), (0x50, 8, 0x77), (0x58, 4, 1), (0x60, 8, 1)]

/-- A FILL of 128 KiB in class 0, and one of class 3 that finds every tag of the same DMA engine held by it. -/
def longFill : Cmd := { cmd 0x11 1 [(0x48, 8, 0x20000), (0x58, 4, 1), (0x60, 8, 1)] with tiles := [] }

def superior : Cmd := { cmd 0x11 1 [(2, 1, 0x31), (0x48, 8, 64), (0x58, 4, 1), (0x60, 8, 1)] with tiles := [] }

/-- A read of a lender that holds 512 tags of tile 0. -/
def tagHog : DtReq :=
  { tag := 0, slot := 0, tile := 0, write := false, window := 0, offset := 0, len := 262144, got := [], acks := 0,
    answer := none, lost := false }

def contended : Hw :=
  setPortAux { ringed with slots := [(0, longFill), (1, superior)] } 0 { PortAux.reset with requests := [tagHog] }

theorem test_preemption_suspends : hPrio longFill.packet < hPrio superior.packet ∧ isReady superior = true ∧
    needs contended 1 superior 0 longFill = true ∧ stoppable contended 0 longFill = true ∧
    ((cmdAt (after (.preemption 0 0 1) contended) 0).map fun c => (c.phase, c.doneUnits, c.suspensions)) =
      some (.suspended, 0, 1) ∧
    cqProd (after (.preemption 0 0 1) contended) 0 = 1 := by decide +kernel

theorem test_preemption_hypotheses : ∃ w h1, runOn (workOf 0 longFill) contended = (.ok (some w), h1) ∧
    toPoint longFill 0 = 0 ∧ atPoint longFill = true ∧ 0 < w.units ∧
    (runOn (w.save longFill) h1).1 = .ok () := by
  refine ⟨_, _, rfl, ?_⟩; decide +kernel

theorem test_resume : outranked contended 0 longFill = false ∧ (longFill.mask.any fun t => engineFor
    { contended with slots := [(0, { longFill with phase := .suspended, doneUnits := 1 })] } 0 longFill t) = true ∧
    ((cmdAt (after (.resume 0) { contended with slots := [(0, { longFill with phase := .suspended, doneUnits := 1 })] })
      0).map fun c => (c.phase, c.doneUnits)) = some (.running, 1) := by decide +kernel

/-- A suspended GEMM takes a free tile of its mask again. -/
theorem test_resume_takes_tiles : ((cmdAt (after (.resume 0) (with0 { cmd 0x20 3 [(0xC0, 8, 2)] with
      phase := .suspended, tiles := [] })) 0).map fun c => (c.phase, c.tiles)) = some (.running, [1]) := by decide +kernel

/-! The training step -/

/-- Step 5,000 of Table 11-3 is open: AGREE, INTERVAL 2,000, exponents 0 to 24, LIVE_EXP 16, CLEAN_RUN n. -/
def inStep5000 (status n : Nat) (c : Cmd) : Hw :=
  let h := regsOf (with0 c) [(rTrainStatus, status), (rStepLo, 5000), (rTrainScale, 0x100010), (0x170120, 1),
    (0x170124, 24 * 256), (0x170128, 2000), (0x170014, 9)]
  { h with train := { h.train with cleanRun := n } }

/-- Table 11-3, row 3: AGREED_OVF is 1. -/
theorem test_loss_scale_halves : let h := after (.lossScaleCheck 0) (inStep5000 9 1200 (cmd 0x80 0 []))
    nextExp h = 15 ∧ stepSkip h = true ∧ h.train.cleanRun = 0 ∧ stepDecided h = true ∧ liveExp h = 16 := by decide +kernel

/-- Table 11-3, row 6: the check reaches INTERVAL. -/
theorem test_loss_scale_doubles : let h := after (.lossScaleCheck 0) (inStep5000 1 1999 (cmd 0x80 0 []))
    nextExp h = 17 ∧ h.train.cleanRun = 0 ∧ stepSkip h = false := by decide +kernel

theorem test_loss_scale_counts : let h := after (.lossScaleCheck 0) (inStep5000 1 1998 (cmd 0x80 0 []))
    nextExp h = 16 ∧ endOf h 0 = some (0, 0x101000, 1999) := by decide +kernel

/-- The overflow came after the REDUCE_SCATTER: status bit 4. -/
theorem test_loss_scale_unagreed : endOf (after (.lossScaleCheck 0) (inStep5000 0x15 0 (cmd 0x80 0 []))) 0 = some (0x52, 0, 0) ∧
    endOf (after (.lossScaleCheck 0) (inStep5000 0x41 0 (cmd 0x80 0 []))) 0 = some (0x11, 2 ^ 62, 0) ∧
    endOf (after (.lossScaleCheck 0) (inStep5000 0 0 (cmd 0x80 0 []))) 0 = some (0x11, 2 ^ 62, 0) := by decide +kernel

/-- TRAIN_CFG.WORLD is secure. -/
theorem test_training_world :
    endOf (after (.lossScaleCheck 0) (setReg (with0 (cmd 0x80 0 [])) 0x170120 0x80000000)) 0 = some (0x13, 0, 0) ∧
    endOf (after (.stepBegin 0) (setReg (with0 (cmd 0x81 1 [])) 0x170120 0x80000000)) 0 = some (0x13, 0, 0) ∧
    endOf (after (.stepEnd 0 []) (setReg (with0 (cmd 0x82 1 [])) 0x170120 0x80000000)) 0 = some (0x13, 0, 0) := by
  decide +kernel

def beginCmd : Cmd := cmd 0x81 1 [(0x40, 8, 5001)]

/-- STEP_BEGIN clamps NEXT_EXP 30 to CEIL_EXP 24. -/
theorem test_step_begin : let h := after (.stepBegin 0) (setReg (inStep5000 0 0 beginCmd) rTrainScale 30)
    endOf h 0 = some (0, 5001, 24) ∧ stepOpen h = true ∧ stepNum h = 5001 ∧ liveExp h = 24 ∧
    getReg h 0x170014 = 0 := by decide +kernel

theorem test_step_begin_waits : after (.stepBegin 0) (inStep5000 2 0 beginCmd) = inStep5000 2 0 beginCmd ∧
    endOf (after (.stepBegin 0) (inStep5000 1 0 beginCmd)) 0 = some (0x11, 2 ^ 62, 0) := by decide +kernel

/-- STEP_BEGIN that writes a scale record to a pinned tile page: 2^16 and 2^-16 in FP32. -/
def recordCmd : Cmd := { cmd 0x81 1 [(0x40, 8, 5001), (0x48, 8, 0x20000)] with pins := [(2, 0xF00000000000)] }

theorem test_step_begin_record : let h := after (.stepBegin 0) (inStep5000 0 0 recordCmd)
    endOf h 0 = some (0, 5001, 16) ∧ h.mem.readN .tile 0 9 = [0, 0, 0x80, 0x47, 0, 0, 0x80, 0x37, 16] := by decide +kernel

theorem test_step_begin_record_place :
    runOn (mayWrite (whoOf 0 recordCmd) (par recordCmd.packet 8 8) 16) (inStep5000 0 0 recordCmd) =
      (.ok (), inStep5000 0 0 recordCmd) := by rfl

/-- An epoch armed for step 5,001. -/
def armed (h : Hw) : Hw := regsOf h [(rEpochCtrl, 1), (0x50400C, 7), (0x504010, 5001), (rEpoch, 3)]

theorem test_epoch_turns : let h := after (.stepBegin 0) (armed (inStep5000 0 0 beginCmd))
    epochArmed h = false ∧ getReg h rEpoch = 7 ∧ stepOpen h = true := by decide +kernel

/-- The step before AT_STEP leaves the epoch armed; a live collective keeps STEP_BEGIN waiting. -/
theorem test_epoch_waits :
    epochArmed (after (.stepBegin 0) (armed (inStep5000 0 0 (cmd 0x81 1 [(0x40, 8, 5000)])))) = true ∧
    (let h := { armed (inStep5000 0 0 beginCmd) with slots := [(0, beginCmd), (1, cmd 0x76 3 [])] }
     classLive h 7 = true ∧ after (.stepBegin 0) h = h) := by decide +kernel

def endCmd (priv : List Nat) : Cmd := { cmd 0x82 1 [(0x40, 8, 5000)] with priv := priv }

/-- DETAIL1: SKIP 1, STEP_OVF 1, LIVE_EXP 16 and NEXT_EXP 16. -/
theorem test_step_end : endOf (after (.stepEnd 0 []) (inStep5000 0x26 0 (endCmd [1]))) 0 = some (0, 5000, 0x101003) ∧
    auditDue (inStep5000 0x26 0 (endCmd [1])) = false ∧ drained (inStep5000 0x26 0 (endCmd [1])) 0 = true ∧
    endOf (after (.stepEnd 0 []) (inStep5000 1 0 (endCmd [0]))) 0 = some (0x11, 2 ^ 62, 0) ∧
    endOf (after (.stepEnd 0 []) (inStep5000 2 0 (endCmd [2]))) 0 = some (0, 5000, 0x101000) := by decide +kernel

/-- A command of the step still owes its record; a divergence is being refreshed. -/
theorem test_step_end_waits :
    (let h := { inStep5000 2 0 (endCmd [1]) with slots := [(0, endCmd [1]), (1, { cmd 0x10 1 [] with inStep := true })] }
     drained h 0 = false ∧ after (.stepEnd 0 []) h = h) ∧
    (let h := setReg (inStep5000 2 0 (endCmd [2])) 0x600000 4
     regBit h 0x600000 2 = true ∧ after (.stepEnd 0 []) h = h) := by decide +kernel

theorem test_step_closes : (cmd 0x82 1 []).status = 0 ∧ (cmd 0x82 1 []).refused = false ∧
    stepClosing (closesStep (inStep5000 2 0 (endCmd [1])) (cmd 0x82 1 [])) = false := by decide +kernel

/-- An audit at step 5,000 of a group of one: the root is the majority's. -/
def audited : Hw := setReg (inStep5000 2 0 (endCmd [1])) 0x600148 0x800003E8

theorem test_audit_due : auditDue audited = true ∧ drained audited 0 = true ∧ (audit 0 [] audited).1 = true := by decide +kernel

/-- Segments of an UPDATE that asks for SKIP_ON_OVF. -/
def updateCmd : Cmd := cmd 0x61 1 [(6, 2, 2)]

theorem test_update_skips : endOf (after (.update 0) (inStep5000 0x61 0 updateCmd)) 0 = some (0x50, 0, 0) ∧
    endOf (after (.update 0) (inStep5000 1 0 updateCmd)) 0 = some (0x11, 2 ^ 62, 0) ∧
    endOf (after (.update 0) (inStep5000 0 0 updateCmd)) 0 = some (0x11, 2 ^ 62, 0) := by decide +kernel

theorem test_training_commit : let h := regsOf live [(0x170104, 24 * 256), (0x170108, 2000)]
    acts h .nonSecure 0x170140 = true ∧ (after (.trainCommit .nonSecure) h).train.pendingSet.isSome = true ∧
    regFld (after (.trainCommit .nonSecure) (setReg h 0x170104 0x0102)) 0x170144 31 28 = 9 ∧
    regFld (after (.trainCommit .nonSecure) (setReg h 0x170100 0x80000000)) 0x170144 31 28 = 11 := by decide +kernel

theorem test_fabric_commit : acts live .nonSecure 0x504108 = true ∧
    getReg (after (.fabricCommit .nonSecure) (setReg live 0x504100 5)) 0x504104 = 5 ∧
    (after (.fabricCommit .nonSecure) (setReg (armed live) 0x504100 5)).fabric.pendingCfg = some 5 ∧
    regBit (after (.fabricCommit .nonSecure) (setReg live 0x504100 0x80000000)) 0x50410C 31 = true := by decide +kernel

/-- An empty map is sound; a slot of it that names port 13 is not. -/
theorem test_map_commit : acts live .nonSecure (regOf (.map 1) 0xFF0) = true ∧
    firstCause (mapCauses live .nonSecure 1) = none ∧
    (smFind (after (.mapCommit .nonSecure 1) (armed live)).fabric.pendingMaps 1).isSome = true ∧
    regBit (after (.mapCommit .nonSecure 1) (setReg live (regOf (.map 1) 0) 0x800000FF)) (regOf (.map 1) 0xFF4) 31 = true := by
  decide +kernel

/-! MAP_SELECT and epochs -/

/-- Map 2 is valid and uses port 3. -/
def mapped2 (c : Cmd) : Hw := setReg (with0 c) (rMap 2 0) 0x1008

def selectCmd (m : Nat) : Cmd := cmd 0x04 1 [(0x40, 4, m)]

theorem test_map_select : endOf (after (.mapSelect 0) (mapped2 (selectCmd 2))) 0 = some (0x40, 3, 0) ∧
    endOf (after (.mapSelect 0) (mapped2 (selectCmd 1))) 0 = some (0x11, 2 ^ 62, 0) ∧
    (let h := after (.mapSelect 0) (setPortState (mapped2 (selectCmd 2)) 3 4)
     endOf h 0 = some (0, 0, 0) ∧ mapActive h = 2) ∧
    (let h := { mapped2 (selectCmd 2) with slots := [(0, selectCmd 2), (1, cmd 0x76 3 [])] }
     after (.mapSelect 0) h = h) := by decide +kernel

def epochCmd (e step : Nat) : Cmd := cmd 0x05 1 [(0x40, 8, step), (0x48, 4, e)]

theorem test_commit_epoch : let h := after (.commitEpoch 0) (with0 (epochCmd 7 1))
    endOf h 0 = some (0, 7, 1) ∧ epochArmed h = true ∧ getReg h 0x50400C = 7 := by decide +kernel

/-- The current epoch is 0, and STEP_NUM is 0. -/
theorem test_commit_epoch_refused : endOf (after (.commitEpoch 0) (with0 (epochCmd 0 1))) 0 = some (0x11, 2 ^ 62, 0) ∧
    endOf (after (.commitEpoch 0) (with0 (epochCmd 7 0))) 0 = some (0x11, 2 ^ 62, 0) ∧
    endOf (after (.commitEpoch 0) (armed (with0 (epochCmd 7 1)))) 0 = some (0x11, 2 ^ 62, 0) := by decide +kernel

theorem test_disarm : acts (armed live) .nonSecure rEpochCtrl = true ∧
    epochArmed (after (.disarm .nonSecure) (armed live)) = false := by decide +kernel

theorem test_digest_recompute : live.fabric.stale = true ∧ working live = true ∧ live.colls = [] ∧
    (after .digestRecompute live).fabric.stale = false := by decide +kernel

/-! Translation -/

/-- Bytes in HBM. -/
def put (h : Hw) (xs : List (Nat × Nat)) : Hw :=
  xs.foldl (fun h x => (writePa h (castle .secure) x.1 (leBytes 8 x.2)).2) h

/-- Tables of regime 0: address 0x20000 is HBM 0x200000, to be read and written; 0x30000 is not present. -/
def mapped : Hw :=
  put (regsOf live [(xLive 0 0, 0x100000), (xLive 0 0x10, 1)])
    [(0x100000, 0x101001), (0x101000, 0x102001), (0x102000, 0x103001), (0x103010, 0x20000F)]

theorem test_walk : (walk mapped (castle .nonSecure) 0x20008 .rd).1 = .ok false 0x200008 ∧ (walk mapped (castle .nonSecure) 0x30000 .wr).1 = .notPresent 3 ∧
    (walk mapped (castle .nonSecure) (2 ^ 48) .rd).1 = .permission ∧ (walk mapped (castle .secure) 0x20000 .rd).1 = .permission := by decide +kernel

/-- MAP of one 64 KiB page at 0x30000 to HBM 0x210000, to be read only. -/
def mapAt (va tbl bytes : Nat) : Cmd :=
  cmd 0xA0 1 [(0x40, 8, va), (0x48, 8, 0x210000), (0x50, 4, 1), (0x54, 4, 5), (0x58, 8, tbl), (0x60, 4, bytes)]

def mapCmd : Cmd := mapAt 0x30000 0 0

def inSlot (h : Hw) (c : Cmd) : Hw := { h with slots := [(0, c)] }

theorem test_map : let h := after (.map 0) (inSlot mapped mapCmd)
    endOf h 0 = some (0, 0, 0) ∧ (walk h (castle .nonSecure) 0x30004 .rd).1 = .ok false 0x210004 ∧ (walk h (castle .nonSecure) 0x30000 .wr).1 = .permission ∧
    getReg h 0x300010 = 1 := by decide +kernel

/-- Its page stands already, without REPLACE: cause 2. -/
theorem test_map_stands : (endOf (after (.map 0) (inSlot mapped (mapAt 0x20000 0 0))) 0).map
      (fun x => (x.1, x.2.1 / 2 ^ 48)) = some (0x11, 0x8002) := by decide +kernel

/-- New tables come from the area, at their alignments: an L3 table for 0x200000. -/
theorem test_map_area : let h := after (.map 0) (inSlot mapped (mapAt 0x200000 0x300000 0x1000))
    endOf h 0 = some (0, 256, 0) ∧ (walk h (castle .nonSecure) 0x200004 .rd).1 = .ok false 0x210004 := by decide +kernel

/-- Another command pins the page. -/
def pinned (h : Hw) (c : Cmd) : Hw :=
  { h with slots := [(0, c), (1, { cmd 0x10 1 [] with pins := [(3, 0x210000)] })] }

theorem test_map_waits : pinsIn (pinned mapped mapCmd) 0 .nonSecure 0x30000 0x10000 = true ∧
    ((cmdAt (after (.map 0) (pinned mapped mapCmd)) 0).map fun c => (c.priv, c.phase)) = some ([1, 0], .running) ∧
    endOf (after (.map 0) (inSlot mapped { mapCmd with priv := [1, 0] })) 0 = some (0, 0, 0) := by decide +kernel

def unmapCmd : Cmd := cmd 0xA1 1 [(0x40, 8, 0x20000), (0x50, 4, 1), (0x54, 4, 1)]

theorem test_unmap : let h := after (.unmap 0) (inSlot mapped unmapCmd)
    endOf h 0 = some (0, 0, 0) ∧ (walk h (castle .nonSecure) 0x20000 .rd).1 = .notPresent 3 := by decide +kernel

def invalCmd : Cmd := cmd 0xA2 1 [(0x40, 8, 0x30000), (0x48, 8, 0x10000)]

theorem test_inval : endOf (after (.inval 0) (with0 invalCmd)) 0 = some (0, 0, 0) ∧
    endOf (after (.inval 0) (pinned live invalCmd)) 0 = none := by decide +kernel

/-! Faults -/

/-- A FILL in slot 0 whose accesses fault, on ring 0 in host memory. -/
def faulting : Hw :=
  inSlot (regsOf mapped [(rRing 0 0x048, 16), (rRing 0 0x054, 16), (rRing 0 0x058, 2 ^ 30 + 2 ^ 29), (rHostLink, 0x1001)])
    longFill

theorem test_fault_ends : active faulting 0 0x11 = some longFill ∧
    after (.translationFault 0 0x20000 true) faulting = faulting ∧
    endOf (after (.translationFault 0 0x30000 true) faulting) 0 = some (0x20, 0x30000, 0) := by decide +kernel

/-- A ZERO demand region of 64 KiB pages over 0x20000 to 0x3FFFF, to be read and written, with its pool. -/
def demanding : Hw :=
  inSlot (put (regsOf faulting [(xLive 0 8, 0x110000), (xLive 0 0x10, 0x101)])
    [(0x110000, 0x20000), (0x110008, 0x20000), (0x110010, 0xD), (0x110018, 0x120000)]) longFill

theorem test_fault_suspends : ((cmdAt (after (.translationFault 0 0x30000 true) demanding) 0).map fun c =>
    (c.phase, c.fault.map PendingFault.va, c.tiles)) = some (.suspended, some 0x30000, []) := by decide +kernel

def struck (h : Hw) (va : Nat) (report : Bool) : Hw :=
  inSlot h { longFill with phase := .suspended, fault := some (PendingFault.mk va true 0 report 7 false) }

/-- The page is there already. -/
theorem test_zero_already : ((cmdAt (after (.zeroResolution 0) (struck demanding 0x20000 false)) 0).map fun c =>
    (c.phase, c.fault)) = some (.suspended, none) ∧
    (zeroResolve (struck demanding 0x20000 false) 0 (PendingFault.mk 0x20000 true 0 false 7 false)).1 = .already := by decide +kernel

theorem test_resolve : acts live .nonSecure (regOf (.regime 0) 0x50) = true ∧
    ((cmdAt (after (.xlateResolve .nonSecure 0 7) (struck mapped 0x20000 true)) 0).map Cmd.fault) = some none ∧
    getReg (after (.xlateResolve .nonSecure 0 7) (struck mapped 0x20000 true)) rDemandMaps = 1 ∧
    after (.xlateResolve .nonSecure 0 8) (struck mapped 0x20000 true) = struck mapped 0x20000 true := by decide +kernel

/-- The leaf is still absent: a permission fault. -/
theorem test_resolve_absent :
    endOf (after (.xlateResolve .nonSecure 0 7) (struck mapped 0x30000 true)) 0 = some (0x20, 0x30000, 0) := by decide +kernel

/-! Stream tasks -/

/-- Task 9 of ring 0: the opening command in slot 0, one member in slot 1, both in a phase. -/
def tasked (p : Phase) (fault : Option StreamFault) (replays : Nat) : Hw :=
  { ringed with
    slots := [(0, { cmd 0x14 1 [(0x0C, 2, 9)] with phase := p }), (1, { cmd 0x10 2 [(0x0C, 2, 9)] with phase := p })]
    streams := [Stream.mk 9 0 0 1 [1] true [] replays fault none false] }

theorem test_task_ends : (tasked .finished none 0).streams.all (taskOver (tasked .finished none 0)) = true ∧
    (tasked .finished none 0).due = [] ∧
    (after (.streamTaskEnd 9) (tasked .finished none 0)).streams = [] ∧
    cqProd (after (.streamTaskEnd 9) (tasked .finished none 0)) 0 = 2 ∧
    after (.streamTaskEnd 9) (tasked .running none 0) = tasked .running none 0 := by decide +kernel

def taskFault (replayable : Bool) : Option StreamFault := some (StreamFault.mk 1 0x30 0x1234 0 replayable)

/-- REPLAY_MAX is 2. -/
def replaying (n : Nat) (b : Bool) : Hw := setReg (tasked .running (taskFault b) n) 0x160000 2

theorem test_task_replays : replayMax (replaying 1 true) 0 = 2 ∧
    (let h := after (.streamTaskFault 9 1) (replaying 1 true)
     (cmdAt h 1).map Cmd.phase = some .waiting ∧ h.streams.map (fun t => (t.replays, t.checked)) = [(2, false)]) := by
  decide +kernel

/-- The third fault, and one that is not replayable, abort the task. -/
theorem test_task_aborts : endOf (after (.streamTaskFault 9 1) (replaying 2 true)) 0 = some (0x21, 0x230, 0x1234) ∧
    endOf (after (.streamTaskFault 9 1) (replaying 0 false)) 1 = some (0x21, 0x030, 0x1234) := by decide +kernel

/-- The pre-empted command takes a fault, too (R57). -/
def preempted : Hw := { demanding with slots := [(0, { longFill with phase := .suspended, prePending := true, firstCause := 0 })] }

theorem test_late_fault : (lateFault preempted 0 { longFill with phase := .suspended, prePending := true, firstCause := 0 }) = true ∧
    ((cmdAt (after (.translationFault 0 0x30000 true) preempted) 0).map fun c =>
      (c.phase, c.fault.map PendingFault.va, c.prePending, c.firstCause)) = some (.suspended, some 0x30000, true, 0) := by
  decide +kernel

/-- A walk leaves its leaf in a cache, which serves it when the tables are gone, until INVAL (R355, R356). -/
def cached : Hw := (walk mapped (castle .nonSecure) 0x20008 .rd).2

theorem test_inval_empties_caches :
    (walk { cached with mem := Mem.reset } (castle .nonSecure) 0x2000C .rd).1 = .ok false 0x20000C ∧
    (let h := after (.inval 0) { cached with mem := Mem.reset, slots := [(0, cmd 0xA2 1 [(0x40, 8, 0x20000), (0x48, 8, 0x10000)])] }
     endOf h 0 = some (0, 0, 0) ∧ (walk h (castle .nonSecure) 0x2000C .rd).1 = .notPresent 0) := by decide +kernel

theorem test_task_has_room : (tasked .finished none 0).host.winQueue = [] ∧ roomFor (tasked .finished none 0) 0 2 := by
  unfold roomFor; decide +kernel

/-! Registers of the units -/

theorem test_counters_answer : ([regOf (.tile 0) 8, regOf (.tile 0) 0x100C, regOf (.tile 0) 0x200C, regOf (.tile 0) 0x3004,
    regOf (.stack 0) 8, regOf (.stack 0) 0x1000C, 0x600004, rHost 4, rZl 8].all fun o => acts live .nonSecure o) = true ∧
    getReg (after (.tileClrCounters .nonSecure 0) (setReg live (regOf (.tile 0) 0x13C) 9)) (regOf (.tile 0) 0x13C) = 0 ∧
    getReg (after (.tileClrCounters .nonSecure 0) (setReg live (regOf (.tile 1) 0x13C) 9)) (regOf (.tile 1) 0x13C) = 9 ∧
    getReg (after (.zlClrCounters .nonSecure) (setReg live (rRetry 50) 9)) (rRetry 50) = 0 := by decide +kernel

theorem test_counters_clear :
    getReg (after (.veClrCounters .nonSecure 0) (setReg live (regOf (.tile 0) 0x1018) 9)) (regOf (.tile 0) 0x1018) = 0 ∧
    getReg (after (.dmaClrCounters .nonSecure 0) (setReg live (regOf (.tile 0) 0x201C) 9)) (regOf (.tile 0) 0x201C) = 0 ∧
    getReg (after (.tcClrCounters .nonSecure 0) (setReg live (regOf (.tile 0) 0x3010) 9)) (regOf (.tile 0) 0x3010) = 0 ∧
    (let h := countStack live 0 0x80000 0
     blockRead Fuses.reset h .nonSecure (regOf (.stack 0) 0x34) = 8 ∧
       blockRead Fuses.reset (after (.stackClrCounters .nonSecure 0) h) .nonSecure (regOf (.stack 0) 0x34) = 0) ∧
    getReg (after (.pawnClrCounters .nonSecure 0) (setReg live (regOf (.stack 0) 0x1001C) 9)) (regOf (.stack 0) 0x1001C) = 0 ∧
    getReg (after (.noteClrCounters .nonSecure) (setReg live 0x600018 9)) 0x600018 = 0 ∧
    getReg (after (.hostClrCounters .nonSecure) (setReg live (rHost 0x28) 9)) (rHost 0x28) = 0 := by decide +kernel

/-- Staged sets with no rule broken. -/
theorem test_sets_sound : [firstCause (windowCauses live), firstCause (peerCauses live), firstCause (lendCauses live .nonSecure),
    firstCause (xlateCauses live 0), firstCause (errCauses live), firstCause (noteCauses live .nonSecure),
    firstCause (worldCauses live), firstCause (regionCauses live), firstCause (memmapCauses live .nonSecure)] =
      List.replicate 9 none := by decide +kernel

theorem test_sets_answer : ([rHost 0x110, rHost 0x280, 0x161080, regOf (.regime 0) 0x40, regOf .err 0xC0, 0x600180, rPwr 0x900,
      regOf (.board 0) 0x100].all fun o => acts live .nonSecure o) = true ∧
    acts live .secure (rSec 0x580) = true ∧ acts live .secure (rSec 0x2000) = true := by decide +kernel

/-- The window ends at most 2,304 GiB, less the checkpoint reserve. -/
theorem test_window_commit : windowCauses (setReg live (rHost 0x100) 2304) = [(1, 0), (3, 0)] ∧
    regFld (after (.windowCommit .nonSecure) (setReg live (rHost 0x104) 17)) (rHost 0x114) 31 28 = 10 ∧
    getReg (after (.windowCommit .nonSecure) (regsOf live [(rHost 0x100, 100), (rHost 0x104, 8)])) (rHost 0x108) = 100 := by
  decide +kernel

/-- Peer range 2 is valid and empty. -/
theorem test_peer_commit : firstCause (peerCauses (setReg live (rHost 0x220) 0x1001)) = some (1, 2) ∧
    regFld (after (.peerCommit .nonSecure) (setReg live (rHost 0x220) 0x1001)) (rHost 0x284) 1 0 = 2 ∧
    getReg (after (.peerCommit .nonSecure) (regsOf live [(rHost 0x220, 0x1001), (rHost 0x228, 1)])) (rHost 0x260) = 0x1001 := by
  decide +kernel

/-- A lend window of size 0, and one that a non-secure agent may not change. -/
theorem test_lend_commit : regFld (after (.lendCommit .nonSecure) (setReg live 0x161004 0x80000000)) 0x161084 31 28 = 12 ∧
    regFld (after (.lendCommit .nonSecure) (setReg live 0x161044 0x40000000)) 0x161084 30 28 = 5 := by decide +kernel

/-- A root off 4 KiB; a root of 4 KiB, enabled. -/
theorem test_xlate_commit : regFld (after (.xlateCommit .nonSecure 0) (setReg live (regOf (.regime 0) 0) 0x800)) (regOf (.regime 0) 0x44)
      31 28 = 10 ∧
    regimeEnabled (after (.xlateCommit .nonSecure 0) (regsOf live [(regOf (.regime 0) 0, 0x1000), (regOf (.regime 0) 0x10, 1)])) 0 =
      true ∧
    firstCause (xlateCauses (with0 (cmd 0 0 [])) 0) = some (1, 0) := by decide +kernel

theorem test_err_commit : regBit (after (.errCommit .nonSecure) (setReg live (regOf .err 0x84) 1)) (regOf .err 0xC4) 31 = true ∧
    getReg (after (.errCommit .nonSecure) (setReg live (regOf .err 0xC8) 5)) (regOf .err 0xC8) = 0 := by decide +kernel

theorem test_note_commit : regBit (after (.noteCommit .nonSecure) (setReg live 0x600104 0)) 0x600184 31 = true ∧
    getReg (after (.noteCommit .nonSecure) (setReg live 0x600110 0x55)) 0x600150 = 0x55 := by decide +kernel

/-- A WIDTH of 11 is refused, one of 10 taken. -/
theorem test_cal_commit : regBit (after (.calCommit .nonSecure) (setReg live (rPwr 0x200) 11)) rCalStatus 31 = true ∧
    regBit (after (.calCommit .nonSecure) (setReg live (rPwr 0x200) 10)) rCalStatus 31 = false := by decide +kernel

/-- Tile 0 is busy and is to change its world. -/
theorem test_world_commit :
    firstCause (worldCauses (regsOf live [(rSec 0x500, 1), (regOf (.tile 0) 4, 3)])) = some (1, 0) ∧
    getReg (after (.worldCommit .secure) (setReg live (rSec 0x500) 1)) (rSec 0x540) = 1 := by decide +kernel

/-- An empty region; a region of 2 MiB. -/
theorem test_region_commit : firstCause (regionCauses (setReg live (rSec 0x1008) 0x80000001)) = some (3, 1) ∧
    regionSecure (after (.regionCommit .secure) (regsOf live [(rSec 0x1008, 0x80000001), (rSec 0x100C, 1)])) 0x200000 = true ∧
    regionSecure (after (.regionCommit .secure) (regsOf live [(rSec 0x1008, 0x80000001), (rSec 0x100C, 1)])) 0x400000 = false := by
  decide +kernel

/-- Octets 0 to 2 become PACKAGE_WIDE together; one alone is refused with cause 3. -/
theorem test_memmap_commit :
    octetMode (after (.memmapCommit .nonSecure 1) (regsOf live [(mmStg 0, 1), (mmStg 1, 1), (mmStg 2, 1)])) 2 = 1 ∧
    regFld (after (.memmapCommit .nonSecure 1) (setReg live (mmStg 1) 1)) (regOf (.board 2) 0x104) 31 28 = 11 := by decide +kernel

theorem test_tile_reset : tileBusy live 0 = false ∧ tileOut live 0 = false ∧
    (let h := after (.tileReset .nonSecure 0) { live with mem := Mem.reset.write .tile 5 [7] }
     tileInReset h 0 = true ∧ h.mem.read .tile 5 = 0 ∧
       tileReady (after (.tileResetComplete 0) h) 0 = true) ∧
    regBit (after (.tileReset .nonSecure 0) (setReg live (regOf (.tile 0) 4) 3)) (regOf (.tile 0) 4) 4 = true := by decide +kernel

/-! Stacks -/

/-- Stack 0 is ready, and its scrubber is to run. -/
def stacked : Hw := regsOf live [(regOf (.stack 0) 4, 1), (regOf (.stack 0) 0x2C, 1)]

theorem test_refresh : stackReady stacked 0 = true ∧
    regFld (after (.refresh 0 0 86) (setReg stacked (regOf (.stack 0) 0xC) 0xFFFFF)) (regOf (.stack 0) 0xC) 20 0 = 0x100000 ∧
    regBit (after (.refresh 0 1 86) stacked) (regOf (.stack 0) 0xC) 20 = true ∧
    regFld (after (.refresh 0 1 86) stacked) (regOf (.stack 0) 0xC) 19 0 = 0 := by decide +kernel

theorem test_scrub : regBit (after (.scrubNow .nonSecure 0) stacked) (regOf (.stack 0) 4) 2 = true ∧
    (stackAux (after (.scrub 0) stacked) 0).scrubAt = 1 ∧ cwErrs stacked (cwOf 0 0) = [] ∧
    isPoison stacked (cwOf 0 0) = false ∧
    (let h := { stacked with stackAux := [(0, { StackAux.reset with scrubAt := stackWords - 1 })] }
     (stackAux (after (.scrub 0) h) 0).scrubAt = 0) := by decide +kernel

theorem test_ecc_inject : acts stacked .nonSecure (regOf (.stack 0) 0x30) = true ∧
    getReg (after (.eccInject .secure 0 0xFFFFFFFF) stacked) (regOf (.stack 0) 0x30) = 0xFFFF00FF ∧
    after (.eccInject .nonSecure 0 0xFFFFFFFF) stacked = stacked ∧ (cacheAux (allocLine live 0 5) 0).lines.length = 1 ∧
    (cacheAux (after (.invalidateAll .nonSecure 0) (allocLine live 0 5)) 0).lines = [] := by decide +kernel

/-- One codeword waits for its write-back; row 5 has met three corrected errors. -/
def marked (n : Nat) : Hw :=
  { stacked with
    stackAux := [(0, { StackAux.reset with writeBacks := [3], tracker := [(rowKeyOf 0 0 5, n)] })]
    symErrs := [(3, [(0, 1)])] }

theorem test_write_back : cwErrs (marked 1) 3 ≠ [] ∧ cwErrs (after (.correctedWriteBack 0) (marked 1)) 3 = [] ∧
    regFld (marked 1) (regOf (.stack 0) 0xC) 19 0 = 0 ∧
    (stackAux (after (.refreshCountWindow 0) (marked 2)) 0).tracker = [(rowKeyOf 0 0 5, 0)] := by decide +kernel

theorem test_row_remap : freeSpare (stackAux (marked 3) 0) 0 0 ≠ none ∧
    (let h := after (.rowRemap 0 ⟨0, 0, 5⟩) (marked 3)
     (stackAux h 0).remaps.length = 1 ∧ (stackAux h 0).tracker = [] ∧ (stackAux h 0).unsaved.length = 1) ∧
    (stackAux (after (.rowRemap 0 ⟨0, 0, 5⟩) (marked 2)) 0).remaps = [] := by decide +kernel

/-! The host interface -/

/-- A trained CXL link and a window of 16 GiB at 0. -/
def linked : Hw := regsOf live [(rHostLink, 0x1001), (rHost 0x10C, 16)]

theorem test_window_write_reads_back : let h := after (.windowAccess ⟨true, .bar2⟩ 64 0 [1, 2, 3]) linked
    h.host.winAnswers = [] ∧ hostUp linked = true ∧ working linked = true ∧ winRefused linked 64 3 = false ∧
    (after (.windowAccess ⟨false, .bar2⟩ 65 2 []) h).host.winAnswers = [WinAnswer.mk [2, 3] false] := by decide +kernel

/-- The last byte of the window is served, the next one not: all ones. -/
theorem test_window_edge : winRefused linked (16 * GiB - 1) 1 = false ∧
    (let h := after (.windowAccess ⟨false, .bar2⟩ (BitVec.ofNat 64 (16 * GiB)) 2 []) linked
     h.host.winAnswers = [WinAnswer.mk [0xFF, 0xFF] false] ∧ getReg h (rHost 0x18) = 1) := by decide +kernel

theorem test_window_in_aux : (after (.windowAccess ⟨false, .bar2⟩ 64 2 []) { linked with pkg := .aux }).host.winAnswers =
    [WinAnswer.mk [0, 0] false] ∧ after (.windowAccess ⟨true, .bar2⟩ 64 0 [1]) { linked with pkg := .aux } =
    { linked with pkg := .aux } := by decide +kernel

/-- The bytes of stack 0 from 0 are held by slot 5. -/
def heldHw : Hw := { linked with holds := [Hold.mk 5 0 64] }

theorem test_window_waits : (after (.windowAccess ⟨false, .bar2⟩ 0 8 []) heldHw).host.winQueue = [WinAccess.mk ⟨false, .bar2⟩ 0 0 8 []] ∧
    (after .windowAccessTimeout (after (.windowAccess ⟨false, .bar2⟩ 0 8 []) heldHw)).host.winAnswers.map WinAnswer.poison = [true] := by
  decide +kernel

theorem test_snoop : (agentLine fenceState 4).isSome = true ∧ agentLine (after (.hostSnoop 0x100) fenceState) 4 = none ∧
    (after (.hostSnoop 0x100) fenceState).mem.read .host 0x13F = 7 ∧
    (after (.agentFlush .nonSecure) fenceState).host.lines = [] ∧
    after (.agentFlush .nonSecure) linked = linked := by decide +kernel

/-- A link that may train: the resets are off. -/
def coming : Hw := { live with pins := { Pins.reset with pkgResetDriven := false }, bringStep := 8 }

theorem test_link_training : mayTrain coming = true ∧ trainResult 1 16 5 = true ∧
    (let h := after (.cxlLinkTraining ⟨1, 1⟩ 16 5) coming
     h.bringStep = 9 ∧ getReg h rHostLink = 0x5409 ∧ hostMode h = 1) ∧
    getReg (after .cxlLinkDown linked) rHostLink = 0 := by decide +kernel

/-- Address 0x20000 leads to host memory 0x1000000, in peer range 0. -/
def peered : Hw :=
  inSlot (put (regsOf mapped [(rHost 0x240, 0x1000001), (rHost 0x248, 16), (rHostLink, 0x1001)])
    [(0x103010, 0x100001F)]) longFill

theorem test_peer_timeout : peerTarget peered 0 0x20000 longFill = some 0x1000000 ∧
    endOf (after (.peerTimeout 0 0x20000) peered) 0 = some (0x20, 0x20000, 0) ∧
    getReg (after (.peerTimeout 0 0x20000) peered) (rHost 0x28) = 1 := by decide +kernel

/-- Vector 64 is unmasked; vector 3 is masked and pends. -/
def vectored : Hw := regsOf live [(rHost 0x103C, 1), (rHost 0x140C, 0), (rHost 0x2000, 8)]

theorem test_vectors : msixMasked vectored 3 = true ∧ msixMasked vectored 64 = false ∧
    (sendMsix vectored 64).host.msixSent.map MsixMessage.vector = [64] ∧ (sendMsix { vectored with pkg := .bringup } 64).host.msixHeld = [64] ∧
    regBit (sendMsix (setReg vectored (rHost 0x2000) 0) 3) (rHost 0x2000) 3 = true := by decide +kernel

theorem test_unmask : acts vectored .nonSecure (rHost 0x103C) = true ∧
    (after (.msixUnmask 3) vectored).host.msixSent.map MsixMessage.vector = [3] ∧ getReg (after (.msixUnmask 3) vectored) (rHost 0x2000) = 0 ∧
    (after (.msixUnmask 4) vectored).host.msixSent.map MsixMessage.vector = [] ∧ msixMasked (after (.msixUnmask 4) vectored) 4 = false := by
  decide +kernel

/-! Security -/

/-- Key data: the words 1 to 16. -/
def keyed : Hw := { live with sec := { SecAux.reset with keyData := (List.range 16).map fun i => BitVec.ofNat 32 (i + 1) } }

theorem test_key_install : acts keyed .secure (rSec 0x200) = true ∧
    ((smFind (after (.keyInstall .secure 0x80000005) keyed).sec.linkKeys 5).map fun k => (k.key.length, k.key.take 5)) =
      some (32, [1, 0, 0, 0, 2]) ∧
    (after (.keyInstall .secure 0x80000005) keyed).sec.keyData = List.replicate 16 0 ∧
    ((smFind (after (.keyInstall .secure 0x80000103) keyed).sec.egressKeys 3).map fun k => k.tweakKey.take 1) = some [9] := by
  decide +kernel

/-- A non-secure install is refused; slot 0 of the active map names link key 5 with ENC. -/
theorem test_key_refused : regBit (after (.keyInstall .nonSecure 0x80000005) keyed) (rSec 0x204) 31 = true ∧
    regFld (after (.eraseSlot .secure 0x40000005) (regsOf keyed [(rMap 0 0, 0x1001), (rMap 0 0x40, 0xC500)])) (rSec 0x204) 31 28 = 9 ∧
    smFind (after (.eraseSlot .secure 0x40000005) (after (.keyInstall .secure 0x80000005) keyed)).sec.linkKeys 5 = none := by
  decide +kernel

/-- SVN 3 runs, above the floor of 0. -/
theorem test_svn_advance : acts live .secure (rSec 0xC) = true ∧
    ((nextOf (exec (.svnAdvance .secure) (ofHw { setReg live (rSec 4) 0x30000 with sec := { SecAux.reset with verified := true } }))).map
      fun t => t.fuses.svnFloor) = some 3 ∧
    ((nextOf (exec (.svnAdvance .nonSecure) (ofHw live))).map fun t => t.fuses.svnFloor) = some 0 := by decide +kernel

/-- Alarm source 2 erases, source 3 erases and halts, source 0 does neither. -/
def alarmed : Hw := { setReg keyed (rSec 0x108) 0x90 with sec := { keyed.sec with idPriv := [1] } }

theorem test_alarm : [policyOf alarmed 0, policyOf alarmed 2, policyOf alarmed 3] = [0, 1, 2] ∧
    ((after (.alarmDetect 2) alarmed).pkg, (after (.alarmDetect 2) alarmed).sec.idPriv,
      (after (.alarmDetect 2) alarmed).pins.alarmN) = (.alarm, [], true) ∧
    (after (.alarmDetect 3) alarmed).sec.halted = true ∧
    ((after (.alarmDetect 0) alarmed).sec.idPriv, alarmLatch (after (.alarmDetect 0) alarmed)) = ([1], 1) := by decide +kernel

theorem test_policy_lock : acts alarmed .secure (rSec 0x108) = true ∧
    getReg (after (.policyLock .secure) alarmed) (rSec 0x108) = 0x80000090 ∧
    after (.policyLock .nonSecure) alarmed = alarmed ∧ acts alarmed .secure (rSec 0x100) = true := by decide +kernel

theorem test_test_open : acts alarmed .secure (regOf .zl 8) = true ∧
    (after (.testOpen .secure) alarmed).jtag.isOpen = true ∧ (after (.testOpen .secure) alarmed).sec.idPriv = [] ∧
    after (.testOpen .nonSecure) alarmed = alarmed := by decide +kernel

/-! Resets and supplies -/

def noObs : BringUpObs := BringUpObs.mk [] [] [] [] [] false [] true

/-- A ring is enabled, a command runs, and a byte stands in each memory. -/
def busy : Hw :=
  { waitingRing with
    pkg := .run
    pins := { Pins.reset with pkgResetDriven := false }
    mem := ((Mem.reset.write .hbm 5 [1]).write .tile 5 [2]).write .flash 5 [3] }

theorem test_soft_reset : acts busy .nonSecure (regOf .err 0x100) = true ∧
    (busy.pkg, busy.slots.length) = (.run, 1) ∧
    after (.softReset (.rstCtrl .nonSecure)) { busy with pkg := .bringup } = { busy with pkg := .bringup } := by decide +kernel

/-- With the link down no function-level reset arrives. -/
theorem test_flr : hostUp busy = true ∧
    after .functionLevelReset (setReg busy rHostLink 0) = setReg busy rHostLink 0 := by decide +kernel

/-- PERST_N with PERST_SOFT and without it. -/
theorem test_perst : busy.pins.perst = false ∧ regBit (setReg busy (regOf .err 0x104) 1) (regOf .err 0x104) 0 = true ∧
    (after (.perstN false noObs) { busy with pins := { busy.pins with perst := true } }).pins.perst = false ∧
    (after (.perstN true noObs) (setReg busy (regOf .err 0x104) 0)).pkg = .aux := by decide +kernel

/-- A castle whose record copies agree, and one whose serial numbers differ (R30). -/
theorem test_first_check : stageOne Fuses.reset = true ∧ lentKeys busy = [] ∧
    stageOne { Fuses.reset with serialCopy := 2 } = false ∧
    ((nextOf (exec (.warmReset .firmware noObs) { ofHw busy with fuses := { Fuses.reset with serialCopy := 2 } })).map
      fun t => t.hw.pkg) = some .resigned := by decide +kernel

/-- A live lend window of 1 GiB: what it holds after a reset is undefined (R242). -/
theorem test_lent_is_free : (lentKeys (setReg busy 0x161040 0x80001002)).length = 8 ∧
    (after (.warmReset .firmware noObs) (setReg busy 0x161040 0x80001002)).mem.free.length = 8 := by decide +kernel

theorem test_warm_reset : let h := after (.warmReset .firmware noObs) busy
    h.mem.read .hbm 5 = 0 ∧ h.mem.read .tile 5 = 0 ∧ h.mem.read .flash 5 = 3 ∧ regFld h rRstStatus 31 24 = 4 ∧
    h.supplies.converters = false ∧ h.bringStep = 1 := by decide +kernel

/-- A low of 1 µs and one that is a nanosecond short. -/
theorem test_pkg_reset : regFld (after (.pkgResetN 1000 noObs) busy) rRstStatus 31 24 = 3 ∧
    (after (.pkgResetN 999 noObs) busy).pkg = .run ∧ (after (.pkgResetN 999 noObs) busy).pins.pkgResetHeld = true ∧
    (after (.pkgResetN 0 noObs) (after (.pkgResetN 999 noObs) busy)).pins.pkgResetHeld = false ∧
    after (.warmReset .perst noObs) { busy with pkg := .resigned } = { busy with pkg := .resigned } := by decide +kernel

/-- Empty flash verifies no firmware. -/
theorem test_vaux : Hw.reset.pkg = .aux ∧ Hw.reset.bringStep = 0 ∧
    ((after .vauxUp Hw.reset).pkg, (after .vauxUp Hw.reset).bringStep, (after .vauxUp Hw.reset).sec.verified) =
      (.aux, 1, false) ∧
    after .vauxUp busy = busy := by decide +kernel

theorem test_pwr_good : (after .pwrGoodAux { Hw.reset with supplies := { Supplies.reset with vinMv := 2000 } }).supplies.needRamp = true ∧
    (after .pwrGoodAux Hw.reset).pins.pwrGoodAux = true ∧ Hw.reset.supplies.vaux = true ∧
    (after .vinEarly Hw.reset).supplies.needRamp = true ∧ regBit (after .vinEarly Hw.reset) (rPwr 0x20) 3 = true := by
  decide +kernel

/-- Verified firmware and PWR_GOOD_AUX: more than 34 V starts the package. -/
def startable : Hw :=
  { Hw.reset with
    sec := { SecAux.reset with verified := true }
    pins := { Pins.reset with pwrGoodAux := true } }

theorem test_first_stage : mayStart startable 34001 = true ∧ mayStart startable 34000 = false ∧
    (let h := after (.firstStageStart 34001 noObs) startable
     h.pkg = .bringup ∧ h.bringStep = 3 ∧ h.starting.isSome = true ∧ getReg h (rPwr 0x10) = 34001) ∧
    (after (.firstStageStart 34000 noObs) startable).pkg = .aux ∧
    (after (.firstStageStart 34001 { noObs with refclk := false }) startable).pkg = .aux := by decide +kernel

/-- The converters run. -/
def fed : Hw := { busy with supplies := { Supplies.reset with converters := true, vinMv := 48000 } }

theorem test_vin_loss : ((after (.vinLoss 32999) fed).pkg, (after (.vinLoss 32999) fed).supplies.converters) = (.aux, false) ∧
    after (.vinLoss 33000) fed = fed ∧
    (after (.vinLoss 1999) { fed with supplies := { fed.supplies with needRamp := true } }).supplies.needRamp = false := by
  decide +kernel

theorem test_aux_loss : ((after (.auxSupplyLoss .viom) fed).pkg, (after (.auxSupplyLoss .vaux) fed).pkg) = (.aux, .off) ∧
    (after (.auxSupplyLoss .vaux) { fed with sec := keyed.sec }).sec.linkKeys = [] := by decide +kernel

theorem test_trip : let h := after (.conversionTrip .thermal) fed
    h.pkg = .aux ∧ h.pins.thermTripN = true ∧ h.supplies.needRamp = true ∧
    h.errs.sticky.map (fun r => (r.severity, r.source)) = [(4, 0x0A)] ∧
    after (.conversionTrip .thermal) busy = busy := by decide +kernel

theorem test_refclk : bit (alarmLatch (after .refclkSysLoss fed)) 3 = true ∧
    getReg (after .refclkCxlLoss fed) rHostLink = 0 ∧
    after .refclkSysLoss (after .refclkSysLoss fed) = after .refclkSysLoss fed ∧
    after .refclkSysLoss startable = { startable with supplies := { startable.supplies with refclkSys := false } } := by
  decide +kernel

/-! Power -/

theorem test_power_states : acts live .nonSecure (rPwr 4) = true ∧
    (let h := after (.powerStateRequest .nonSecure 1) live
     h.pkg = .ready ∧ (after .powerStateEntry h).pkg = .hold ∧
       (after (.powerStateRequest .nonSecure 0) (after .powerStateEntry h)).pkg = .ready) ∧
    (after (.powerStateRequest .nonSecure 2) live).power.target = some .quiet ∧
    after (.powerStateRequest .nonSecure 3) live = live ∧
    after .powerStateEntry (with0 (cmd 0 0 [])) = with0 (cmd 0 0 []) := by decide +kernel

theorem test_quiet_zeroes : (after (.powerStateRequest .nonSecure 0) { busy with pkg := .quiet }).mem.read .tile 5 = 0 ∧
    (after (.powerStateRequest .nonSecure 0) { busy with pkg := .quiet }).pkg = .run := by decide +kernel

/-- Dies 0 and 1 age by a step up and not at all. -/
theorem test_ageing : managed live = true ∧
    ([0, 1].map fun d => ageTrim (after (.ageingEvaluation [(0, 4)]) live) d) = [1, 0] := by decide +kernel

theorem test_arb_commit : acts live .nonSecure (rPwr 0x140) = true ∧ arbBad live .nonSecure = false ∧
    (after (.arbCommit .nonSecure) live).power.pendingArb.isSome = true ∧
    regBit (after (.arbCommit .nonSecure) (setRegFld live (rPwr 0x100) 11 0 1199)) (rPwr 0x144) 31 = true := by decide +kernel

/-- 48 V at 25 A is 1,200 W, and the castle's island leaks so much at the one point of its curve that the estimate is
some W. -/
def arbSample : ArbSample :=
  ArbSample.mk [IslandSample.mk 48 [] 100] 48000 25000 0 0 0 0 0 0 0 [(0, 0, 0), (0, 0, 0), (0, 0, 0)]

def leaking (watts : Nat) : State :=
  { ofHw live with fuses := { Fuses.reset with factory := { Fuses.reset.factory with
      leak := [(48, [((railMv Fuses.reset live (dieRail 48), 100), watts * 1000)])] } } }

def allocated (watts : Nat) : Hw :=
  ((nextOf (exec (.arbAllocation arbSample) (leaking watts))).map State.hw).getD Hw.reset

/-- A gain of 1.2 on 1,000 W, of 1.25 at most on 800 W and of 1 at least. -/
theorem test_arb_gain : ([1000, 800, 1201].map fun w => regFld (allocated w) (rPwr 0x18) 15 0) = [4915, 5120, 4096] ∧
    [getReg (allocated 1000) (rPwr 8), getReg (allocated 1000) (rPwr 0xC)] = [1000, 1200] := by decide +kernel

theorem test_board_loop : let h := after (.boardLoop 1 (BoardSample.mk 10 20 30 40 [60, 61, 62, 63])) live
    getReg h (rBrd 1 4) = 100 ∧ getReg h (rTileFreq 64) = 63 := by decide +kernel

/-- The core rail of compute die 0: 260 A, and 130 % of it. -/
theorem test_rail : powered fed = true ∧ after (.railWindow (.computeCore 0) 260000) fed = fed ∧
    getReg (after (.railWindow (.computeCore 0) 260001) fed) (rPwr 0x1C) = 1 ∧
    (after (.railWindow (.computeCore 0) 338000) fed).pkg = fed.pkg ∧
    (after (.railWindow (.computeCore 0) 338001) fed).pkg = .aux := by decide +kernel

/-- 125 °C and a quarter more. -/
theorem test_thermal : (after (.thermalSample 0 500) fed).pkg = fed.pkg ∧ (after (.thermalSample 0 501) fed).pkg = .aux ∧
    (after (.thermalSample 0 501) fed).pins.thermTripN = true ∧ (after (.thermalSample 0 100) fed).power.hot = [] := by
  decide +kernel

/-- Tile 0 holds a command at step 10. -/
theorem test_clock : let h := regsOf (with0 (cmd 0x20 3 [])) [(regOf (.tile 0) 4, 3), (rTileFreq 0, 10)]
    tileHolds h 0 = true ∧ tileCap h 0 = 35 ∧ getReg (after (.clockChange 0 18) h) (rTileFreq 0) = 18 ∧
    getReg (after (.clockChange 0 19) h) (rTileFreq 0) ≠ 19 := by decide +kernel

/-! Losses and links -/

/-- Every bundle and both management sets of the links work. -/
def linkUp : Hw := { live with chans := [] }

theorem test_stack_loss : (after (.stackLoss 3) linkUp).pkg = .resigned ∧
    regBit (after (.stackLoss 3) linkUp) (regOf (.stack 3) 4) 8 = true ∧
    ((after (.castleFault .sram) linkUp).pkg, (after (.castleFault .sram) linkUp).pins.faultN) = (.resigned, true) ∧
    after (.castleFault .lockstep) Hw.reset = Hw.reset ∧ after (.stackLoss 3) Hw.reset = Hw.reset := by decide +kernel

/-- The first and the last stack link, and their neighbours. -/
theorem test_link_degraded : ([11, 12, 35, 36].map fun l => (after (.linkDegraded l) linkUp).pkg) =
      [.ready, .resigned, .resigned, .ready] ∧
    regBit (after (.linkDegraded 11) linkUp) (rLink 11) 7 = true := by decide +kernel

/-- The channel of compute die 0, of a stack, of port 0, of the castle and of a bridge is exhausted. -/
theorem test_channel_exhausted : ([0, 12, 36, 48].all fun l => !regBit linkUp (rLink l) 6) = true ∧
    ([0, 12, 36, 48].map fun l => (after (.controlChannelExhausted l) linkUp).pkg) = [.ready, .resigned, .ready, .resigned] ∧
    tileReady (after (.controlChannelExhausted 0) linkUp) 1 = false ∧
    portUp (after (.controlChannelExhausted 36) (setPortState linkUp 0 4)) 0 = false ∧
    after (.controlChannelExhausted 49) linkUp = linkUp := by decide +kernel

def bridge (b : Bool) : Channel := Channel.mk 50 b

theorem test_management_sets : chanWorks linkUp (bridge false) = true ∧
    (after (.managementSetExhausted (bridge false)) linkUp).pkg = .ready ∧
    regBit (after (.managementSetExhausted (bridge false)) linkUp) (rLink 50) 5 = true ∧
    (after (.managementSetExhausted (bridge true)) (after (.managementSetExhausted (bridge false)) linkUp)).pkg = .resigned := by
  decide +kernel

/-! Control frames -/

/-- A frame whose CRC holds as one of a TYPE: 0 IDLE, 1 DATA, 2 NAK. -/
def sound (type : Nat) (seq ack : Byte) (payload : List Byte) : Frame := crcFrame type (Frame.mk seq ack 0 payload [] 0)

/-- Channel of die 3 with frame 7 unacknowledged, 4 received last. -/
def die3 : Channel := Channel.mk 3 false

def framed : Hw := setChan linkUp die3 { ChanAux.reset with txSeq := 7, rxSeq := 4, replay := [sound 1 7 0 [1]] }

theorem test_idle_frame : chanWorks framed die3 = true ∧ (chanAux framed die3).replay ≠ [] ∧
    (chanAux (after (.idleFrame die3 ⟨sound 0 0 7 [], []⟩) framed) die3).replay = [] ∧
    (chanAux (after (.idleFrame die3 ⟨sound 0 0 6 [], []⟩) framed) die3).replay.length = 1 := by decide +kernel

theorem test_data_frame :
    (chanAux (after (.dataFrame die3 ⟨sound 1 5 0 (List.replicate 24 0), []⟩) framed) die3).delivered.length = 1 ∧
    (chanAux (after (.dataFrame die3 ⟨sound 1 6 0 [], []⟩) framed) die3).sent.map (fun x => (x.1, x.2.ack)) = [(.nak, 4)] ∧
    (chanAux (after (.controlFrameCrcFailure ⟨die3, List.replicate 32 1⟩) framed) die3).sent.map (fun x => (x.1, x.2.ack)) =
      [(.nak, 4)] ∧
    frameCrcOk 1 (sound 0 5 0 []) = false ∧
    (chanAux (after (.dataFrame die3 ⟨sound 0 5 0 [], []⟩) framed) die3).sent.map (fun x => (x.1, x.2.ack)) = [(.nak, 4)] := by
  decide +kernel

theorem test_frames_again : (chanAux (after (.nakFrame die3 (sound 2 0 6 [])) framed) die3).sent.length = 1 ∧
    getReg (after (.nakFrame die3 (sound 2 0 6 [])) framed) (rRetry 3) = 1 ∧
    getReg (after (.controlReplayTimeout die3) framed) (rRetry 3) = 1 ∧
    after (.controlReplayTimeout die3) linkUp = linkUp := by decide +kernel

/-- A flit of link 2 whose last byte is 3, with a track byte, that a slot waits for. -/
def flitOn (track : Byte) (marked : Bool) (waits : Option SlotId) : FlitObs :=
  FlitObs.mk 2 (List.replicate 63 0 ++ [3]) track 0xFF marked waits

theorem test_flit : powered live = true ∧ activeAny (with0 longFill) 0 = some longFill ∧
    getReg (after (.flit (flitOn 1 false none)) live) (rE2e 2) = 1 ∧
    endOf (after (.flit (flitOn 1 false (some 0))) (with0 longFill)) 0 = some (0x43, 2, 0) ∧
    after (.flit (flitOn 1 true (some 0))) (with0 longFill) = with0 longFill ∧
    after (.flit (flitOn 0 false (some 0))) (with0 longFill) = with0 longFill := by decide +kernel

/-- Sixteen bundles at rate 8 (4 GT/s) give 512 GB/s. -/
theorem test_link_bandwidth : acts (setReg live (rLink 3) 0x1000) .nonSecure 0x2C = true ∧
    readReg Fuses.reset (regsOf live [(rLink 3, 0x1000), (rZl 4, 8)]) .nonSecure 0x2C = 0x100200 ∧
    readReg Fuses.reset { regsOf live [(rLink 3, 0x1000), (rZl 4, 8)] with bringStep := 4 } .nonSecure 0x2C = 0 := by decide +kernel

/-! Ports -/

/-- Port 0 in a state, enabled, with its laser inputs and all lanes locked. -/
def port0 (st : Nat) (a : PortAux) : Hw :=
  setPortAux (regsOf live [(rPort 0 0, st), (rPort 0 4, 5), (rPort 0 0x3C, 0xFFFFFFFF)]) 0 { a with laser0 := true, laser1 := true }

def stateAfter (i : Instr) (h : Hw) : Nat := portState (after i h) 0

theorem test_port_enable : acts (port0 0 .reset) .nonSecure (rPort 0 4) = true ∧ laserOk (port0 0 .reset) 0 = true ∧
    portLost (port0 0 .reset) 0 = false ∧ collsOn live 0 = [] ∧
    stateAfter (.portEnable .nonSecure 0 true) (port0 0 .reset) = 1 ∧
    ([1, 2, 3, 4, 5].map fun st => stateAfter (.portEnable .nonSecure 0 false) (port0 st .reset)) = [0, 0, 0, 0, 0] ∧
    ([0, 1, 4, 5].map fun st => stateAfter (.retrain .nonSecure 0) (port0 st .reset)) = [0, 1, 1, 1] := by decide +kernel

theorem test_port_locks : ([0, 1, 2, 3].map fun st => stateAfter (.lanesLocked 0) (port0 st .reset)) = [0, 2, 2, 3] ∧
    ([1, 2, 3].map fun st => stateAfter (.aligned 0) (port0 st .reset)) = [1, 3, 3] ∧
    ([0, 1, 2, 3, 4, 5].map fun st => stateAfter (.portStateBound 0) (port0 st .reset)) = [0, 1, 1, 1, 4, 5] := by decide +kernel

/-- The third sound keepalive in a row; an empty one. -/
def keepalivePay : KeepalivePay := KeepalivePay.mk 5 0 0 0 0 9 0 0

theorem test_keepalive : stateAfter (.keepalive 0 (cell 0 (.keepalive keepalivePay))) (port0 3 { PortAux.reset with good := 2 }) = 4 ∧
    stateAfter (.keepalive 0 (cell 0 (.keepalive keepalivePay))) (port0 3 { PortAux.reset with good := 1 }) = 3 ∧
    (portAux (after (.keepalive 0 (cell 0 (.keepalive keepalivePay))) (port0 3 { PortAux.reset with good := 2 })) 0).linkEpoch = 1 ∧
    getReg (after (.keepalive 0 (cell 0 (.keepalive keepalivePay))) (port0 4 .reset)) (rPort 0 0x14) = 9 := by decide +kernel

theorem test_keepalive_send : ([2, 3, 4].map fun st =>
    (portAux (after (.keepaliveSend 0) (port0 st .reset)) 0).out.map Cell.type) = [[], [0], [0]] := by decide +kernel

theorem test_laser : stateAfter (.laserInputChange 0 false false) (port0 4 .reset) = 0 ∧
    stateAfter (.laserInputChange 0 true false) (port0 4 .reset) = 0 ∧
    stateAfter (.laserInputChange 0 true true) (port0 0 .reset) = 1 ∧
    regFld (after (.laserInputChange 0 true false) (setReg (port0 3 .reset) (rPort 0 0x3C) 0xFFFF)) (rPort 0 0x3C) 15 0 = 0xFF ∧
    ([1, 2, 3, 4].map fun st => stateAfter (.laneLockLoss 0 31) (port0 st .reset)) = [1, 1, 1, 4] ∧
    ([4, 5].map fun st => stateAfter (.lightReturn 0) (port0 st .reset)) = [4, 1] := by decide +kernel

/-! The link layer -/

/-- Port 0 is UP; cells 7 and 8 are unacknowledged, 4 was accepted last. -/
def upPort : Hw := port0 4 { PortAux.reset with txSeq := 8, rxSeq := 4, owed := [0, 3, 0, 0],
                                                replay := [{ cell 6 .none with seq := 7 }, { cell 6 .none with seq := 8 }] }

def outOf (h : Hw) : List (Nat × Nat) := (portAux h 0).out.map fun c => (c.type.toNat, c.ack.toNat)

theorem test_credit : (portAux upPort 0).queue = [] ∧
    (let a := portAux (after (.credit 0 (crcCell { cell 1 .none with ack := 7, crVc := 2, crCnt := 5 })) upPort) 0
     a.credits = [64, 2048, 1029, 1024] ∧ a.replay.map Cell.seq = [8]) ∧
    (let h := after (.creditTimeout 0 1) upPort
     (portAux h 0).owed = [0, 0, 0, 0] ∧ (portAux h 0).out.map (fun c => (c.type, c.crVc, c.crCnt)) = [(1, 1, 3)]) ∧
    after (.creditTimeout 0 0) upPort = upPort := by decide +kernel

theorem test_nak : outOf (after (.nak 0 (crcCell { cell 2 .none with ack := 7 })) upPort) = [(6, 4)] ∧
    outOf (after (.replayTimeout 0) upPort) = [(6, 4), (6, 4)] ∧
    getReg (after (.replayTimeout 0) upPort) (rPort 0 0x20) = 1 ∧ (portAux upPort 0).replay ≠ [] ∧
    after (.replayTimeout 0) (port0 4 .reset) = port0 4 .reset := by decide +kernel

/-- Cell 6 comes where 5 is due; a cell fails its CRC, in UP and in HELLO; a reserved cell. -/
theorem test_out_of_order : outOf (after (.data 0 (crcCell { cell 6 .none with seq := 6 })) upPort) = [(2, 4)] ∧
    outOf (after (.cellCrcFailure 0) upPort) = [(2, 4)] ∧
    (portAux (after (.cellCrcFailure 0) (port0 3 { PortAux.reset with good := 2 })) 0).good = 0 ∧
    getReg (after (.badCells 0 (cell 14 .none)) upPort) (rPort 0 0x38) = 1 ∧
    after (.badCells 0 (cell 15 .none)) (port0 3 .reset) = port0 3 .reset := by decide +kernel

theorem test_partner_lost : ([Instr.keepaliveTimeout 0, .ackTimeout 0, .quiet 0 (cell 12 (.serial 1)), .resign 0 (cell 13 (.serial 1))].map
      fun i => (stateAfter i upPort, regFld (after i upPort) (rPort 0 0) 27 24)) = [(5, 1), (5, 2), (5, 4), (5, 5)] ∧
    stateAfter (.keepaliveTimeout 0) (port0 2 .reset) = 2 := by decide +kernel

/-- An encrypted cell for which this end has no key. -/
def sealedCell : Cell := crcCell { cell 6 .none with seq := 5, enc := true }

theorem test_tag_fails : portRuns upPort 0 = true ∧ crcOk sealedCell = true ∧
    clearCell (takenCell upPort 0 sealedCell) 0 sealedCell = none ∧
    stateAfter (.data 0 sealedCell) upPort = 5 ∧ regFld (after (.data 0 sealedCell) upPort) (rPort 0 0) 27 24 = 3 := by
  decide +kernel

/-- The same cell with one bit of its payload changed on the way. -/
def brokenCell : Cell := { cell 6 .none with seq := 5, wire := 1 :: List.replicate 239 0 }

theorem test_bad_crc : crcOk brokenCell = false ∧ outOf (after (.data 0 brokenCell) upPort) = [(2, 4)] ∧
    (portAux (after (.data 0 brokenCell) upPort) 0).rxSeq = 4 := by decide +kernel

/-- CRC-32 of the digits 1 to 9 (its published check value). -/
theorem test_crc32 : crc32 [0x31, 0x32, 0x33, 0x34, 0x35, 0x36, 0x37, 0x38, 0x39] = 0xCBF43926 := by decide +kernel

/-- AES-256-GCM under a key and IV of zeros: the published tag of an empty message. -/
theorem test_gcm : gcmTag (aesKeys (List.replicate 32 0)) (List.replicate 12 0) [] [] =
    [0x53, 0x0F, 0x8A, 0xFB, 0xC7, 0x45, 0x36, 0xB9, 0xA9, 0x63, 0xB4, 0xF1, 0xC4, 0xCB, 0x73, 0x8B] := by decide +kernel

/-- A running port whose lanes have lost lock takes nothing, and runs again when they lock. -/
def darkLane : Hw := setReg upPort (rPort 0 0x3C) 0xFFFFFFFE

theorem test_lanes_lost : portRuns darkLane 0 = false ∧ after (.data 0 (cell 6 .none)) darkLane = darkLane ∧
    portRuns (after (.lanesLocked 0) darkLane) 0 = true ∧ after (.replayTimeout 0) darkLane = darkLane := by decide +kernel

/-! Collectives of a group of two on port 0, TAG 9 -/

def pair (op rank : Nat) (c : Coll) : Hw :=
  { regsOf upPort [(rMap 0 0, 0x1001), (rMap 0 0x40, 0x8000), (rMap 0 0x100, 2), (rMap 0 0x104, 0x10000 + rank), (rMap 0 0x108, 1)] with
    slots := [(0, cmd op 2 [])]
    colls := [c] }

/-- Its data is moved and its writes are made; the partner's SETUP named context 6. -/
def nearEnd (rank : Nat) : Coll :=
  Coll.mk 0 5 0 0 9 true none [(1 - rank, 6)] 1 false [] [] [] 0 0 true false [] false none

def closeOf (up : Bool) (step : Word) : ClosePay := ClosePay.mk up step 0 false 1

theorem test_coll_closes : [0x70, 0x71, 0x72, 0x73, 0x76].map (fun op =>
      ((collAt (pair op 0 { nearEnd 0 with ups := [closeOf true 0] }) 0).map fun v => decide (levels v ≤ 1))) =
      List.replicate 5 (some true) ∧
    endOf (after (.reduceScatter 0) (pair 0x70 0 { nearEnd 0 with ups := [closeOf true 0] })) 0 = some (0, 0, 0) ∧
    endOf (after (.allGather 0) (pair 0x71 0 { nearEnd 0 with ups := [closeOf true 0] })) 0 = some (0, 0, 0) ∧
    endOf (after (.allToAll 0) (pair 0x72 0 { nearEnd 0 with ups := [closeOf true 0] })) 0 = some (0, 0, 0) ∧
    endOf (after (.broadcast 0) (pair 0x73 0 { nearEnd 0 with ups := [closeOf true 0] })) 0 = some (0, 0, 0) := by decide +kernel

theorem test_barrier_closes : endOf (after (.barrier 0) (pair 0x76 0 { nearEnd 0 with ups := [closeOf true 0] })) 0 = some (0, 0, 0) ∧
    (after (.barrier 0) (pair 0x76 0 { nearEnd 0 with ups := [closeOf true 0] })).colls = [] ∧
    after (.barrier 0) (pair 0x76 0 (nearEnd 0)) = pair 0x76 0 (nearEnd 0) ∧
    (after (.barrier 0) (pair 0x76 1 (nearEnd 1))).colls.map Coll.upSent = [true] ∧
    endOf (after (.barrier 0) (pair 0x76 1 { nearEnd 1 with upSent := true, down := some (closeOf false 0) })) 0 = some (0, 0, 0) := by
  decide +kernel

theorem test_send_recv : endOf (after (.send 0) (pair 0x74 0 { nearEnd 0 with ups := [closeOf true 0] })) 0 = some (0, 0, 0) ∧
    after (.send 0) (pair 0x74 0 (nearEnd 0)) = pair 0x74 0 (nearEnd 0) ∧
    endOf (after (.recv 0) (pair 0x75 1 (nearEnd 1))) 0 = some (0, 0, 0) := by decide +kernel

/-- The route's port is down; the limit of 5 ms passes. -/
theorem test_coll_fails :
    endOf (after (.barrier 0) (setPortState (pair 0x76 1 { nearEnd 1 with setupSent := false }) 0 5)) 0 = some (0x40, 0, 1) ∧
    endOf (after (.collTimeoutExpiry 0) (setReg (pair 0x76 1 (nearEnd 1)) 0x504104 5)) 0 = some (0x42, 0, 1) ∧
    endOf (after (.collTimeoutExpiry 0) (setReg (pair 0x76 1 (nearEnd 1)) 0x504104 0)) 0 = none ∧
    endOf (after (.keepaliveTimeout 0) (pair 0x76 1 (nearEnd 1))) 0 = some (0x40, 0, 1) ∧
    collsOn (pair 0x76 1 (nearEnd 1)) 0 = [0] := by decide +kernel

/-- A divergence is over, of one block that cannot be read and so differs, where the ring may not go on (bit 30), and where there is none. -/
theorem test_refresh_ends : regBit (after (.divergenceRefresh []) (setReg live 0x600000 4)) 0x600000 2 = false ∧
    after (.divergenceRefresh []) live = live ∧
    (let h := after (.divergenceRefresh [RefreshBlock.mk 0 false 0 []]) (regsOf waitingRing [(0x600000, 4), (0x600148, 0x40000000), (0x600158, 1)])
     ringHalted h 0 = true ∧ regFld h 0x600020 31 16 = 1) := by decide +kernel

/-! Cells -/

/-- A cell that port 0 accepts: number 5. -/
def inCell (t : Nat) (ctx : Nat) (p : Payload) : Cell := crcCell { cell t p with seq := 5, ctx := BitVec.ofNat 16 ctx }

theorem test_cell_accepted : let c := inCell 4 5 (.close (closeOf true 0))
    portRuns (pair 0x76 0 (nearEnd 0)) 0 = true ∧ crcOk c = true ∧
    clearCell (takenCell (pair 0x76 0 (nearEnd 0)) 0 c) 0 c = some c ∧
    (portAux (acceptedCell (pair 0x76 0 (nearEnd 0)) 0 c c) 0).rxSeq = 5 ∧ spelt c = true ∧
    collOfCtx (pair 0x76 0 (nearEnd 0)) 5 = some 0 ∧ collOfCtx (pair 0x76 0 (nearEnd 0)) 7 = none := by decide +kernel

/-- Rank 1's upward CLOSE ends the barrier; one of another step ends it with cause 3. -/
theorem test_close_cell : endOf (after (.close 0 (inCell 4 5 (.close (closeOf true 0)))) (pair 0x76 0 (nearEnd 0))) 0 = some (0, 0, 0) ∧
    endOf (after (.close 0 (inCell 4 5 (.close (closeOf true 8)))) (pair 0x76 0 (nearEnd 0))) 0 = some (0x41, 3, 0) ∧
    (after (.close 0 (inCell 4 7 (.close (closeOf true 0)))) (pair 0x76 0 (nearEnd 0))).colls.length = 1 := by decide +kernel

theorem test_abort_cell :
    endOf (after (.abort 0 (inCell 5 5 (.abort (AbortPay.mk 0x20 1 0 0x1234)))) (pair 0x76 0 (nearEnd 0))) 0 =
      some (3, 4 + 0x20 * 256 + 65536, 0x1234) := by decide +kernel

theorem test_data_cell : (after (.data 0 (inCell 6 5 (.data ⟨0, [1, 2]⟩)))
    (pair 0x71 0 { nearEnd 0 with level := 0, written := false, levelSent := true, matched := [] })).colls.map Coll.inbox =
      [[(0, 0, [1, 2])]] ∧
    (portAux (after (.data 0 (inCell 6 7 (.data ⟨0, [1, 2]⟩))) upPort) 0).owed = [0, 4, 0, 0] := by decide +kernel

/-- A SETUP with TAG 9 waits while no collective has it; it names context 6 of rank 1. -/
def setupPay (tag : Nat) : SetupPay := SetupPay.mk 0 0 0 (BitVec.ofNat 32 tag) 0x76 0 0 6 0 0 0 0 0 0 0 1 2

theorem test_setup_cell : setupTarget upPort (inCell 3 0 (.setup (setupPay 9))) = none ∧
    (portAux (after (.setup 0 (inCell 3 0 (.setup (setupPay 9)))) upPort) 0).setups.length = 1 ∧
    (setupTarget (pair 0x76 0 { nearEnd 0 with matched := [] }) (inCell 3 0 (.setup (setupPay 9)))).isSome = true ∧
    (after (.setup 0 (inCell 3 0 (.setup (setupPay 9)))) (pair 0x76 0 { nearEnd 0 with matched := [] })).colls.map Coll.matched =
      [[(1, 6)]] := by decide +kernel

/-- A cell with a hop left. -/
theorem test_cell_forwarded : let c := crcCell { inCell 6 5 .none with hops := 1 }
    (portAux (after (.data 0 c) upPort) 0).rxSeq = 5 := by decide +kernel

/-- Lend window 1 is 1 GiB of HBM from 2 GiB. -/
def lender : Hw := setReg upPort 0x161044 0x80001002

theorem test_deep_tier_read : lendAddr lender false 1 64 16 = some (2 * GiB + 64) ∧ lendAddr lender false 1 (GiB - 16) 16 ≠ none ∧
    lendAddr lender false 1 (GiB - 15) 16 = none ∧
    (portAux (after (.dtRead 0 (inCell 7 3 (.dtRead 1 64 16 false))) lender) 0).out.map (fun c => (c.type.toNat, c.ctx.toNat)) = [(10, 3)] ∧
    (portAux (after (.dtRead 0 (inCell 7 3 (.dtRead 1 64 65537 false))) lender) 0).out.map Cell.payload = [.dtAck .refused] := by
  decide +kernel

theorem test_deep_tier_write : let h := after (.dtWrite 0 (inCell 8 3 (.dtWrite 1 64 false [7]))) lender
    (portAux h 0).out.map Cell.payload = [.dtAck .acked] ∧
    (readPa h (castle .secure) (2 * GiB + 64) 1).1 = .bytes [7] none ∧
    (portAux (after (.dtWrite 0 (inCell 8 3 (.dtWrite 2 64 false [7]))) lender) 0).out.map Cell.payload = [.dtAck .refused] := by
  decide +kernel

/-- Request 3 of slot 0 waits for its answer. -/
def asking : Hw := setPortAux upPort 0 { portAux upPort 0 with requests := [DtReq.mk 3 0 0 false 1 64 16 [] 0 none false] }

theorem test_deep_tier_answers : (portAux (after (.dtResp 0 (inCell 10 3 (.dtResp [1, 2]))) asking) 0).requests.map DtReq.got =
      [[(0, [1, 2])]] ∧
    (portAux (after (.dtAck 0 (inCell 11 3 (.dtAck .acked))) asking) 0).requests.map DtReq.acks = [1] ∧
    (portAux (after (.dtAck 0 (inCell 11 3 (.dtAck .refused))) asking) 0).requests.map DtReq.answer = [some .refused] := by
  decide +kernel

/-- Port 0 receives checkpoints; a piece fills its first slot. -/
def receiving : Hw := { regsOf upPort [(0x600144, 0x140001)] with ckpt := { CkptAux.reset with rx := [CkptRx.mk 0 0] } }

theorem test_checkpoint_cells : (recvPorts upPort).contains 0 = false ∧ rxHalf receiving 0 = some 0 ∧
    (portAux (after (.ckpt 0 (inCell 9 0 (.ckpt (.openSlot 64)))) upPort) 0).out.map Cell.payload = [.ckpt (.reply false)] ∧
    (readPa (after (.ckpt 0 (inCell 9 0 (.ckpt (.units 0 [7])))) receiving) (castle .secure) (slotBase receiving 0 0 + 0x80) 1).1 =
      .bytes [7] none ∧
    (after (.ckpt 0 (inCell 9 0 (.ckpt (.record (List.replicate 128 1))))) receiving).ckpt.rx = [] := by decide +kernel

/-! Memory and numbers -/

/-- A map whose first row of octets is PACKAGE_WIDE and whose octet 4 is STACK_LOCAL. -/
def mixedMap : Hw := regsOf live [(mmLive 0, 1), (mmLive 1, 1), (mmLive 2, 1), (mmLive 4, 2)]

theorem test_map_keeps_rows : ((List.range 288).all fun n => decide (octetMode mixedMap n = 1) == decide (octetMode mixedMap (n / 3 * 3) = 1)) =
    true := by decide +kernel

/-- Tables 7-2 and 7-3: the second KiB of octet 3 is in the next stack, the second GiB of octet 4 is. -/
theorem test_decode : decodePa mixedMap (3 * 2 ^ 33 + 1024) = .hbm 1 GiB ∧
    decodePa mixedMap (4 * 2 ^ 33 + GiB + 5) = .hbm 9 (GiB + 5) ∧
    decodePa mixedMap (hbmEnd - 1) = .hbm 23 (96 * GiB - 1) ∧ decodePa mixedMap hbmEnd = .unbacked ∧
    decodePa mixedMap 0xF00000800001 = .tile 1 1 := by decide +kernel

/-- The codeword at 64 KiB of octet 0 is free of errors, poison and injections. -/
theorem test_store_reads_back : cwErrs live (cwOf 0 8192) = [] ∧ isPoison live (cwOf 0 8192) = false ∧
    decodePa live 0x10000 = .hbm 0 8192 ∧
    (readPaPiece (writePaPiece live (castle .secure) 0x1003F [9]).2 (castle .secure) 0x1003F 1).1 = .bytes [9] none := by
  decide +kernel

/-- The first byte of a region and the byte before it, from the non-secure world. -/
theorem test_region_refuses : let h := regsOf live [(rSec 0x1800, 0x80000001), (rSec 0x1804, 1)]
    regionSecure h 0x200000 = true ∧ (readPaPiece h (castle .nonSecure) 0x200000 1).1 = .refused ∧
    (readPaPiece h (castle .nonSecure) 0x1FFFFF 1).1 = .bytes [0] none ∧
    (writePaPiece heldHw (castle .nonSecure) 32 [1]).1 = .held := by decide +kernel

/-- 1.0 in each floating format, and the largest integers. -/
theorem test_conversions : convertFloat e4m3 false false none (e4m3.decode 0x38) = Conv.mk 0x38 0 false false ∧
    convertFloat bf16 false true none (bf16.decode 0x3F80) = Conv.mk 0x3F80 0 false false ∧
    (e4m3.decode 0x38).isNan = false ∧
    convertInt 8 (numOfInt 127) = Conv.mk 127 0 false false ∧ convertInt 8 (numOfInt 128) = Conv.mk 127 outSat false false ∧
    convertInt 8 (numOfInt (-129)) = Conv.mk 128 outSat false false := by decide +kernel

/-- E4M3 holds 448 as 0x7E; 2^-9 is its least value (Table 4-2). -/
theorem test_e4m3_values : (convertFloat fp32 false false none (e4m3.decode 0x7E)).bits = 0x43E00000 ∧
    (convertFloat fp32 false false none (e4m3.decode 1)).bits = 0x3B000000 := by decide +kernel

/-! Work in units: what the statements about it assume is met by small commands -/

/-- The hardware after the units of some work, each of which goes through (at most n of them). -/
def unitsCheck (slot : Nat) (w : Work) : Nat → Hw → Option Hw
  | 0, _ => none
  | n + 1, h =>
    match cmdAt h slot with
    | none => none
    | some c =>
      if w.units ≤ c.doneUnits then some h
      else match runOn (unitStep slot c w) h with
        | (.ok _, h1) =>
          if (cmdAt h1 slot).any (fun c1 => c1.doneUnits = c.doneUnits + 1) then unitsCheck slot w n h1 else none
        | (.error _, _) => none

theorem unitsCheck_runs {slot : Nat} {w : Work} : ∀ {n : Nat} {h h' : Hw}, unitsCheck slot w n h = some h' →
    UnitsRun slot w h h' := by
  intro n
  induction n with
  | zero => intro h h' e; cases e
  | succ n ih =>
    intro h h' e
    simp only [unitsCheck] at e
    split at e
    · cases e
    · rename_i c hc
      split at e
      · cases e; exact .none h c hc ‹_›
      · split at e
        · rename_i h1 hr
          split at e
          · rename_i ha
            obtain ⟨c1, h1c, hd⟩ := (Option.any_eq_true ..).mp ha
            exact .more h h1 h' c c1 hc (by omega) hr h1c (by simpa using hd) (ih e)
          · cases e
        · cases e

/-- Status and DETAIL words with which some work of at most 8 units goes through, and the hardware then. -/
def worksCheck (slot : Nat) (w : Work) (c : Cmd) (h : Hw) : Option ((Nat × Nat × Nat) × Hw) :=
  match runOn (if c.doneUnits = 0 then openWork slot w else pure ()) h with
  | (.error _, _) => none
  | (.ok (), h0) =>
    if (cmdAt h0 slot).any fun c0 => c0.doneUnits = c.doneUnits then
      match unitsCheck slot w 9 h0 with
      | none => none
      | some h1 =>
        match cmdAt h1 slot with
        | none => none
        | some c1 =>
          match runOn (w.done c1.flags c1.tally) h1 with
          | (.ok x, h2) => if (cmdAt h2 slot).isSome then some (x, h2) else none
          | (.error _, _) => none
    else none

theorem worksCheck_ends {slot : Nat} {w : Work} {c : Cmd} {h h2 : Hw} {st d0 d1 : Nat}
    (e : worksCheck slot w c h = some ((st, d0, d1), h2)) : ∃ h', workEnds slot w c h st d0 d1 h' := by
  simp only [worksCheck] at e
  split at e
  · cases e
  · rename_i h0 ho
    split at e
    · rename_i ha
      obtain ⟨c0, hc0, hd⟩ := (Option.any_eq_true ..).mp ha
      split at e
      · cases e
      · rename_i h1 hu
        split at e
        · cases e
        · rename_i c1 hc1
          split at e
          · rename_i x h2 hr
            split at e
            · rename_i hs
              obtain ⟨c2, hc2⟩ := Option.isSome_iff_exists.mp hs
              cases e
              exact ⟨_, h0, h1, h2, c0, c1, c2, ho, hc0, by simpa using hd, unitsCheck_runs hu, hc1, hr, hc2, rfl⟩
            · cases e
          · cases e
    · cases e

/-- A command whose pages 2 to 9 are pinned to the first 512 KiB of tile store 2. -/
def pinning (op len : Nat) (fs : List (Nat × Nat × Nat)) : Cmd :=
  { cmd op len fs with pins := (List.range 8).map fun i => (i + 2, 0xF00001000000 + i * 65536) }

/-- Bytes of tile store 2. -/
def stored (h : Hw) (at_ n : Nat) : List Byte := h.mem.readN .tile (tileKey 2 at_) n

/-- It in slot 0, its tile's credits already taken, with bytes in tile store 2. -/
def holding (c : Cmd) (bs : List (Nat × List Byte)) : Hw :=
  { with0 c with
    mem := bs.foldl (fun m x => m.write .tile (tileKey 2 x.1) x.2) Mem.reset
    tilesAux := [(0, { TileAux.reset with claimed := some [] })] }

/-- Where the work of the command in slot 0 begins. -/
def begun (h : Hw) : Hw :=
  match cmdAt h 0 with
  | some c => if holdsTiles c.opcode then beginTiles 0 c h else h
  | none => h

/-- The status and DETAIL words of work that goes through, and bytes of tile store 2 then. -/
def worked (w : Work) (h : Hw) (at_ n : Nat) : Option ((Nat × Nat × Nat) × List Byte) :=
  (cmdAt h 0).bind fun c => (worksCheck 0 w c (begun h)).map fun x => (x.1, stored x.2 at_ n)

/-- No check of the packet in slot 0 refuses it. -/
def checked (h : Hw) : Bool :=
  (cmdAt h 0).map (fun c => verdictOf (setRegBit h (rRingStatus 0) 0 true) 0 c.packet) == some .pass

/-- A command that no check of its packet refuses, and whose work goes through. -/
def goesThrough (w : Work) (h : Hw) (at_ n : Nat) : Option ((Nat × Nat × Nat) × List Byte) :=
  if checked h then worked w h at_ n else none

theorem worked_ends {w : Work} {h : Hw} {at_ n st d0 d1 : Nat} {bs : List Byte}
    (e : worked w h at_ n = some ((st, d0, d1), bs)) :
    ∃ c h', cmdAt h 0 = some c ∧ workEnds 0 w c (begun h) st d0 d1 h' := by
  obtain ⟨c, hc, e⟩ := Option.bind_eq_some_iff.mp e
  obtain ⟨⟨x, h2⟩, hx, hy⟩ := Option.map_eq_some_iff.mp e
  cases hy
  obtain ⟨h', hh⟩ := worksCheck_ends hx
  exact ⟨c, h', hc, hh⟩

theorem goesThrough_ends {w : Work} {h : Hw} {at_ n st d0 d1 : Nat} {bs : List Byte}
    (e : goesThrough w h at_ n = some ((st, d0, d1), bs)) :
    ∃ c h', cmdAt h 0 = some c ∧ workEnds 0 w c (begun h) st d0 d1 h' := by
  simp only [goesThrough] at e
  split at e
  · exact worked_ends e
  · cases e

/-- Four bytes at 0x20000 go to 0x30000. -/
def copyCmd : Cmd := pinning 0x10 2 [(0x40, 8, 0x20000), (0x48, 8, 0x30000), (0x50, 8, 4), (0x80, 8, 1)]

theorem test_copy : goesThrough (copyWork 0 copyCmd) (holding copyCmd [(0, [1, 2, 3, 4])]) 0x10000 5 =
    some ((0, 0, 1), [1, 2, 3, 4, 0]) := by decide +kernel

/-- 64 bytes of a pattern of two bytes. -/
def patternCmd : Cmd := pinning 0x11 1 [(0x40, 8, 0x20000), (0x48, 8, 64), (0x50, 8, 0x2211), (0x58, 4, 2), (0x60, 8, 1)]

theorem test_fill : goesThrough (fillWork 0 patternCmd) (holding patternCmd []) 62 3 =
    some ((0, 0, 1), [0x11, 0x22, 0]) := by decide +kernel

/-- Elements of 2 bytes of a table of 3, by the indices 2 and 5; the second is outside. -/
def indexCmd (op : Nat) : Cmd :=
  pinning op 1 [(0x40, 8, 0x20000), (0x48, 8, 0x30000), (0x50, 8, 0x40000), (0x58, 4, 2), (0x5C, 4, 2), (0x60, 8, 3), (0x68, 8, 1)]

def indexMem : List (Nat × List Byte) := [(0, [1, 2, 3, 4, 5, 6]), (0x20000, [2, 0, 0, 0, 5, 0, 0, 0])]

theorem test_gather : goesThrough (indexedWork 0 (indexCmd 0x12) false) (holding (indexCmd 0x12) indexMem) 0x10000 4 =
    some ((0, 1, 1), [5, 6, 0, 0]) := by decide +kernel

theorem test_scatter : goesThrough (indexedWork 0 (indexCmd 0x13) true) (holding (indexCmd 0x13) indexMem) 0x10000 6 =
    some ((0, 1, 1), [0, 0, 0, 0, 1, 2]) := by decide +kernel

/-- A matrix command of 1 × 2 by 2 × n: A at 0x20000, B at 0x30000, C at 0x40000, D at 0x50000, work at 0x60000. -/
def matrixCmd (op n fa fb fc fd flags sel : Nat) : Cmd :=
  pinning op 3 [(0x40, 8, 0x20000), (0x48, 8, 0x30000), (0x50, 8, 0x40000), (0x58, 8, if op = 0x20 then 0 else 0x50000), (0x60, 4, 1),
    (0x64, 4, n), (0x68, 4, 2), (0x6C, 4, 1), (0x70, 4, 2), (0x74, 4, n), (0x78, 4, if op = 0x23 then sel else n), (0x7C, 4, sel),
    (0xA0, 4, fa + fb * 256 + fc * 65536 + fd * 2 ^ 24), (0xA4, 4, flags), (0xC0, 8, 1),
    (0xD8, 8, if op = 0x23 then 0x60000 else 0)]

/-- (1, 2) times (3, 0.5) in FP16; D is 1 in FP32. -/
def dotMem : List (Nat × List Byte) :=
  [(0, [0, 0x3C, 0, 0x40]), (0x10000, [0, 0x42, 0, 0x38]), (0x30000, [0, 0, 0x80, 0x3F])]

theorem test_gemm : goesThrough (mxWork 0 (matrixCmd 0x20 1 4 4 6 0 0 0)) (holding (matrixCmd 0x20 1 4 4 6 0 0 0) dotMem) 0x20000 5 =
    some ((0, 0, 1), [0, 0, 0x80, 0x40, 0]) := by decide +kernel

theorem test_gemm_acc : goesThrough (mxWork 0 (matrixCmd 0x21 1 4 4 6 6 8 0)) (holding (matrixCmd 0x21 1 4 4 6 6 8 0) dotMem) 0x20000 5 =
    some ((0, 0, 1), [0, 0, 0xA0, 0x40, 0]) := by decide +kernel

/-- The L1 distance of (1, 2) and (3, 0.5) in BF16 is 3.5. -/
def bfMem : List (Nat × List Byte) := [(0, [0x80, 0x3F, 0, 0x40]), (0x10000, [0x40, 0x40, 0, 0x3F])]

theorem test_dist : goesThrough (mxWork 0 (matrixCmd 0x22 1 5 5 6 0 0x100 0)) (holding (matrixCmd 0x22 1 5 5 6 0 0x100 0) bfMem) 0x20000 4 =
    some ((0, 0, 1), [0, 0, 0x60, 0x40]) := by decide +kernel

/-- The smaller MINPLUS score, 1.5 against 2, is column 1's. -/
theorem test_cmp_select : goesThrough (selWork 0 (matrixCmd 0x23 2 5 5 6 0 0x140 1)) (holding (matrixCmd 0x23 2 5 5 6 0 0x140 1) bfMem)
    0x30000 4 = some ((0, 0, 1), [1, 0, 0, 0]) := by decide +kernel

/-! Vector commands, attention and caches, compression -/

/-- A vector command over two elements: its fields, and tensor slots (number, base, format and its flags). -/
def vecCmd (op : Nat) (fs : List (Nat × Nat × Nat)) (slots : List (Nat × Nat × Nat)) : Cmd :=
  pinning op 7 (fs ++ [(0x60, 4, 2), (0x1C0, 8, 1), (0x78, 8, if op = 0x30 ∨ op = 0x36 ∨ op = 0x37 then 0 else 0x70000)] ++
    slots.flatMap fun s => [(0x80 + 0x28 * s.1, 8, s.2.1), (0x88 + 0x28 * s.1, 4, s.2.2), (0x90 + 0x28 * s.1, 4, 1)])

/-- LD V0 from slot 0, V0 + V0, ST V0 to slot 1, in FP32; or without the sum. -/
def doubling : List Byte := leBytes 8 (2 ^ 24) ++ leBytes 8 (16 * 2 ^ 24) ++ leBytes 8 (2 * 2 ^ 24 + 8)
def passing : List Byte := leBytes 8 (2 ^ 24) ++ leBytes 8 (2 * 2 ^ 24 + 8)

/-- 1 and 2 in FP16, a program, and INT8 flags 1 and 1. -/
def vecMem (prog : List Byte) : List (Nat × List Byte) :=
  [(0, [0, 0x3C, 0, 0x40]), (0x20000, prog), (0x30000, [1, 1])]

/-- In slot 0 FP16, in slot 1 FP32. -/
def ioSlots : List (Nat × Nat × Nat) := [(0, 0x20000, 4), (1, 0x30000, 0x406)]

def progCmd (op n rest : Nat) (more : List (Nat × Nat × Nat)) : Cmd :=
  vecCmd op [(0x40, 8, 0x40000), (0x48, 4, n + 0x100 + rest)] (ioSlots ++ more)

theorem test_vop : worked (vopWork 0 (progCmd 0x30 3 0 [])) (holding (progCmd 0x30 3 0 []) (vecMem doubling)) 0x10000 8 =
    some ((0, 0, 1), [0, 0, 0, 0x40, 0, 0, 0x80, 0x40]) := by decide +kernel

/-- Inclusive sums 1 and 3; a partial and an output brick count. -/
theorem test_scan : worked (axisWork 0 (progCmd 0x31 2 0 [])) (holding (progCmd 0x31 2 0 []) (vecMem passing)) 0x10000 8 =
    some ((0, 0, 2), [0, 0, 0x80, 0x3F, 0, 0, 0x40, 0x40]) := by decide +kernel

/-- Each element starts a segment. -/
theorem test_segscan : worked (axisWork 0 (progCmd 0x32 2 0 [(7, 0x50000, 9)]))
    (holding (progCmd 0x32 2 0 [(7, 0x50000, 9)]) (vecMem passing)) 0x10000 8 =
    some ((0, 0, 2), [0, 0, 0x80, 0x3F, 0, 0, 0, 0x40]) := by decide +kernel

/-- MODE 2: the maximum. -/
theorem test_reduce : worked (axisWork 0 (progCmd 0x33 2 0x20000 [])) (holding (progCmd 0x33 2 0x20000 []) (vecMem passing)) 0x10000 5 =
    some ((0, 0, 2), [0, 0, 0, 0x40, 0]) := by decide +kernel

/-- NaNs in, NaNs out: no value of the function set is asked for. -/
def nanMem : List (Nat × List Byte) := [(0, [0, 0x7E, 0, 0x7E]), (0x20000, [0, 0, 0x80, 0x3F])]

def normCmd : Cmd := vecCmd 0x34 [(0x48, 4, 0x100)] ioSlots

theorem test_norm : worked (axisWork 0 normCmd) (holding normCmd nanMem) 0x10000 8 =
    some ((0, 0, 2), [0, 0, 0xC0, 0x7F, 0, 0, 0xC0, 0x7F]) := by decide +kernel

def softmaxCmd : Cmd := vecCmd 0x35 [(0x48, 4, 0x100)] ioSlots

theorem test_softmax : worked (axisWork 0 softmaxCmd) (holding softmaxCmd nanMem) 0x10000 8 =
    some ((0, 0, 2), [0, 0, 0xC0, 0x7F, 0, 0, 0xC0, 0x7F]) := by decide +kernel

/-- FP16 to FP16, under the base 0, whose angle is a NaN that the command makes (R142). -/
def ropeCmd : Cmd := vecCmd 0x36 [(0x48, 4, 0x100)] [(0, 0x20000, 4), (1, 0x30000, 0x404)]

theorem test_rope : worked (ropeWork 0 ropeCmd) (holding ropeCmd nanMem) 0x10000 4 =
    some ((0, 2, 1), [0, 0x7E, 0, 0x7E]) := by decide +kernel

/-- The greatest magnitude 2, and no NaN or infinity. -/
def amaxCmd : Cmd := vecCmd 0x38 [(0x48, 4, 0x100), (0x4C, 4, 2)] [(0, 0x20000, 4), (1, 0x30000, 0x407)]

theorem test_amax : (worked (amaxWork 0 amaxCmd) (holding amaxCmd (vecMem [])) 0x10000 16).map Prod.fst =
    some (0, 0, 2) := by decide +kernel

/-- MODE 2: 1 where the word is less than a threshold. -/
def rngCmd : Cmd := vecCmd 0x37 [(0x48, 4, 0x20100), (0x54, 4, 0xFFFFFFFF)] [(1, 0x30000, 0x40B)]

theorem test_rng_fill : worked (rngWork 0 rngCmd) (holding rngCmd []) 0x10000 8 =
    some ((0, 0, 1), [1, 0, 0, 0, 1, 0, 0, 0]) := by decide +kernel

/-! Attention and caches -/

/-- One query row of 64 elements against one key, in FP16. -/
def attnCmd (op : Nat) : Cmd :=
  pinning op 3 ([(0x40, 8, 0x20000), (0x48, 8, 0x30000), (0x50, 8, 0x31000), (0x58, 8, 0x32000), (0x60, 8, 0x33000),
    (0x68, 8, 0x34000), (0x70, 8, 0x40000), (0xA0, 4, 1), (0xA4, 4, 1), (0xA8, 4, 0x400101), (0xAC, 4, 1), (0xB0, 4, 64), (0xB4, 4, 64),
    (0xB8, 4, 64), (0xBC, 4, 64), (0xC0, 4, 0x3F800000), (0xC8, 4, if op = 0x40 then 0x40404 else 0x4040404), (0xE0, 8, 1)] ++
    if op = 0x40 then [] else [(0x80, 8, 0x35000), (0x88, 8, 0x36000), (0x90, 8, 0x37000), (0x98, 8, 0x38000)])

/-- A NaN in the query, or in statistics and dO; the descriptor has one row and one key. -/
def attnMem : List (Nat × List Byte) :=
  [(0, [0, 0x7E]), (0x14000, leBytes 8 0 ++ leBytes 4 0 ++ leBytes 4 1 ++ leBytes 4 0 ++ leBytes 4 1), (0x15000, [0, 0x7E])]

def onePlan : List SeqDesc × Option Pool := ([SeqDesc.mk 0 0 1 0 1 0 0], none)

theorem test_attn_plan : [0x40, 0x41].all (fun op => match runOn (attnPlan (whoOf 0 (attnCmd op)) (attnCmd op).packet)
    (holding (attnCmd op) attnMem) with
  | (.ok pl, _) => decide (pl = onePlan)
  | _ => false) = true := by decide +kernel

theorem test_attn_fwd : worked (attnWork false 0 (attnCmd 0x40) onePlan.1 none) (holding (attnCmd 0x40) attnMem) 0x12000 2 =
    some ((0, 0, 1), [0, 0x7E]) := by decide +kernel

/-- The last of its units is left. -/
def lastBwd : Cmd := { attnCmd 0x41 with doneUnits := 1, written := 1 }

/-- A NaN under the gradient role raises OUT_OVF (Table 4-4). -/
theorem test_attn_bwd : worked (attnWork true 0 lastBwd onePlan.1 none) (holding lastBwd attnMem) 0x17000 2 =
    some ((0, outOvf, 2), [0, 0x7E]) := by decide +kernel

theorem test_attn_checked : checked (holding (attnCmd 0x41) []) = true := by decide +kernel

/-- A pool of one page, free or with a count of 1, of one head of 64 E4M3 values. -/
def poolMem (tail refs : Nat) : List (Nat × List Byte) :=
  [(0, leBytes 8 0x50000 ++ leBytes 8 0x22000 ++ leBytes 8 0x21000 ++ leBytes 4 1 ++ leBytes 4 0x9000 ++ leBytes 4 0x400102),
   (0x1000, leBytes 4 0 ++ leBytes 4 tail ++ leBytes 4 1), (0x1040, leBytes 4 0), (0x2000, leBytes 2 refs)]

/-- One position of one head, at position 0 of a sequence whose only page is not assigned yet. -/
def appendCmd : Cmd :=
  pinning 0x42 2 [(0x40, 8, 0x20000), (0x48, 8, 0x23000), (0x50, 8, 0x30000), (0x58, 8, 0x31000), (0x60, 4, 1), (0x64, 4, 1),
    (0x68, 4, 64), (0x6C, 4, 64), (0x70, 4, 0x1000004), (0x74, 4, 64), (0x80, 8, 1)]

def appendMem : List (Nat × List Byte) :=
  poolMem 1 0 ++ [(0x3000, leBytes 8 0x24000 ++ leBytes 4 0 ++ leBytes 4 1 ++ leBytes 4 0 ++ leBytes 4 0 ++ leBytes 4 1),
    (0x4000, leBytes 4 0xFFFFFFFF)]

/-- Its plan goes through, and pops the page; then so does its work. -/
theorem test_kv_append : (match runOn (kvAppendPlan 0 appendCmd) (holding appendCmd appendMem) with
  | (.ok w, h) => (stored h 0x4000 4, stored h 0x1000 4, worked w h 0x2000 2)
  | _ => ([], [], none)) = ([0, 0, 0, 0], [1, 0, 0, 0], some ((0, 0, 1), [1, 0])) := by decide +kernel

/-- RELEASE of a page with a count of 1 puts it on the free list. -/
def releaseCmd : Cmd :=
  pinning 0x43 1 [(0x40, 8, 0x20000), (0x48, 8, 0x24000), (0x58, 4, 1), (0x5C, 4, 1), (0x60, 8, 1)]

theorem test_kv_page : goesThrough (kvPageWork 0 releaseCmd) (holding releaseCmd (poolMem 0 1)) 0x1004 4 =
    some ((0, 0, 1), [1, 0, 0, 0]) := by decide +kernel

/-- Lengths 300 and 5: the second comes first. -/
def bucketCmd : Cmd :=
  pinning 0x44 1 [(0x40, 8, 0x20000), (0x48, 8, 0x30000), (0x50, 8, 0x31000), (0x58, 4, 2), (0x60, 8, 0x40000), (0x68, 8, 1)]

theorem test_bucket_sort : goesThrough (bucketWork 0 bucketCmd) (holding bucketCmd [(0, leBytes 4 300 ++ leBytes 4 5)]) 0x10000 8 =
    some ((0, 0, 1), [1, 0, 0, 0, 0, 0, 0, 0]) := by decide +kernel

/-! Compression, objects and streams -/

/-- One FP16 element under FR4. -/
def packCmd : Cmd :=
  pinning 0x50 2 [(0x40, 8, 0x20000), (0x48, 8, 0x30000), (0x58, 8, 1), (0x64, 4, 0xC04), (0x80, 8, 1)]

/-- The step 1/7 rounded up has MANT 0x924A and EXP -2; the code is 7. -/
def oneBlock : List Byte := [0xFE, 0xFF, 0x4A, 0x92, 0, 0x0C, 0, 0, 7]

theorem test_cmp_pack : worked (cmpWork true 0 packCmd) (holding packCmd [(0, [0, 0x3C])]) 0x10000 9 =
    some ((0, 0, 1), oneBlock) := by decide +kernel

def unpackCmd : Cmd :=
  pinning 0x51 2 [(0x40, 8, 0x20000), (0x48, 8, 0x30000), (0x58, 8, 1), (0x64, 4, 0xC04), (0x68, 4, 4), (0x80, 8, 1)]

theorem test_cmp_unpack : worked (cmpWork false 0 unpackCmd) (holding unpackCmd [(0, oneBlock)]) 0x10000 2 =
    some ((0, 0, 1), [0, 0x3C]) := by decide +kernel

/-- SPILL of 4 KiB with its units written: the descriptor at 0x30000 gets the stored bytes and says sealed. -/
def spillCmd : Cmd :=
  { pinning 0x15 1 [(0x40, 8, 0x20000), (0x48, 8, 0x30000), (0x50, 8, 4096), (0x68, 8, 1)] with doneUnits := 1, written := 1 }

theorem test_spill : goesThrough (spillWork 0 spillCmd) (holding spillCmd []) 0x10000 20 =
    some ((0, 4192, 1), leBytes 8 4096 ++ leBytes 8 4192 ++ leBytes 4 2) := by decide +kernel

def promoteCmd : Cmd :=
  { pinning 0x16 1 [(0x40, 8, 0x20000), (0x48, 8, 0x30000), (0x50, 8, 16), (0x60, 8, 1)] with doneUnits := 1, written := 1 }

theorem test_promote : goesThrough (promoteWork 0 promoteCmd) (holding promoteCmd []) 0 0 = some ((0, 0, 1), []) := by
  decide +kernel

/-- The opening command of a task of one schedule entry, whose unit is done and whose member has ended. -/
def streamCmd : Cmd :=
  { pinning 0x14 1 [(0x0C, 2, 9), (0x40, 8, 0x20000), (0x48, 4, 1), (0x4C, 4, 0x10001), (0x50, 8, 1)] with doneUnits := 1, written := 1 }

def streaming : Hw :=
  { holding streamCmd [] with streams := [Stream.mk 9 0 0 1 [1] true [StreamEntry.mk 0 0 0x30000 0x31000 64 1 1 [] 1] 0 none none false] }

theorem test_prefetch_stream : (match runOn (streamPre 0 streamCmd) streaming with
  | (.ok (), h) => goesThrough (streamWork 0 streamCmd h) h 0 0
  | _ => none) = some ((0, 1, 1), []) := by decide +kernel

/-! Pawns -/

/-- Status and DETAIL words with which a pawn command's work goes through, and the hardware then. -/
def pawnsCheck (slot : Nat) (j : PawnJob) (c : Cmd) (h : Hw) : Option ((Nat × Nat × Nat) × Hw) :=
  match runOn (pawnCheck slot j c) h with
  | (.error _, _) => none
  | (.ok gs, h1) =>
    if (cmdAt h1 slot).any fun c => c.doneUnits = 0 && j.waits h1 c.outs then none
    else match runOn (runTokens slot j gs 16384) h1 with
    | (.error _, _) => none
    | (.ok (), h2) =>
      match cmdAt h2 slot with
      | none => none
      | some c2 =>
        if allShares j c2 gs then
          match runOn (j.final gs) h2 with
          | (.error _, _) => none
          | (.ok x, h3) => if (cmdAt h3 slot).isSome then some (x, h3) else none
        else none

theorem gate_open {slot : Nat} {j : PawnJob} {h : Hw}
    (e : ¬ ((cmdAt h slot).any fun c => c.doneUnits = 0 && j.waits h c.outs) = true) :
    runOn (pawnGate slot j) h = (.ok (), h) := by
  show runOn (do let h ← get
                 if (cmdAt h slot).any fun c => c.doneUnits = 0 && j.waits h c.outs then throw .wait) h = _
  simp only [runOn, bind, get, getThe, MonadStateOf.get, ExceptT.run, ExceptT.bind, ExceptT.mk, StateT.run, StateT.bind,
    StateT.get, pure, monadLift, MonadLift.monadLift, liftM, ExceptT.lift, ExceptT.bindCont, Functor.map,
    StateT.map, ExceptT.pure]
  split
  · contradiction
  · rfl

theorem pawnsCheck_ends {slot : Nat} {j : PawnJob} {c : Cmd} {h h3 : Hw} {st d0 d1 : Nat}
    (e : pawnsCheck slot j c h = some ((st, d0, d1), h3)) : ∃ h', pawnEnds slot j c h st d0 d1 h' := by
  simp only [pawnsCheck] at e
  split at e
  · cases e
  · rename_i gs h1 he
    split at e
    · cases e
    · rename_i hg
      split at e
      · cases e
      · rename_i h2 ht
        split at e
        · cases e
        · rename_i c2 hc
          split at e
          · split at e
            · cases e
            · rename_i hs _ x h4 hf
              split at e
              · rename_i hi
                obtain ⟨c3, hc3⟩ := Option.isSome_iff_exists.mp hi
                cases e
                exact ⟨_, gs, h1, h2, h3, c2, c3, he, gate_open hg, ht, hc, hs, hf, hc3, rfl⟩
              · cases e
          · cases e

/-! Pawns, reports, accesses -/

/-- Page tables in HBM, octet 4 a pawn region of stack-local memory, and 2 MiB at 0x200000 mapped to it; one token a stack. -/
def pawnHw (c : Cmd) (bs : List (Nat × List Byte)) : Hw :=
  let h := put (regsOf live [(xLive 0 0, 0x100000), (xLive 0 0x10, 1), (mmLive 4, 6), (regOf (.stack 8) 0x10004, 1)])
    [(0x100000, 0x101001), (0x101000, 0x102001), (0x102008, 0x80000000F)]
  { inSlot h c with mem := bs.foldl (fun m x => m.write .tile (tileKey 2 x.1) x.2) h.mem }

/-- A segment on stack 8. -/
def segment (n : Nat) (bases : List Nat) : List Byte := leBytes 4 n ++ leBytes 4 8 ++ bases.flatMap (leBytes 8)

/-- One FP16 element of D is set to 1. -/
def setCmd1 : Cmd :=
  pinning 0x60 1 [(0x40, 8, 0x20000), (0x48, 4, 1), (0x4C, 4, 1), (0x50, 4, 0x4000000), (0x58, 4, 0x3F800000), (0x68, 8, 0x40000)]

theorem test_pawn_op : let h := pawnHw setCmd1 [(0, segment 1 [0, 0, 0, 0x200000])]
    checked h = true ∧ (pawnsCheck 0 (pawnOpJob 0 setCmd1) setCmd1 h).map (fun x => (x.1,
      (readPaPiece x.2 (castle .secure) 0x800000000 4).1)) = some ((0, 0, 1), .bytes [0, 0x3C, 0, 0] none) := by decide +kernel

/-- The digest of no elements is the hash of the byte 2 (R219). -/
def digestCmd : Cmd := pinning 0x62 1 [(0x40, 8, 0x20000), (0x48, 4, 1), (0x4C, 4, 4), (0x50, 8, 0x30000), (0x60, 8, 0x40000)]

theorem test_digest : let h := holding digestCmd [(0, segment 0 [0x200000])]
    checked h = true ∧ (pawnsCheck 0 (digestJob 0 digestCmd) digestCmd h).map (fun x => (x.1, stored x.2 0x10000 32)) =
      some ((0, 0, 0), emptyHash) := by decide +kernel

/-- No rows. -/
def gemvCmd : Cmd :=
  pinning 0x63 1 [(0x40, 8, 0x20000), (0x48, 4, 1), (0x4C, 4, 2048), (0x50, 8, 0x30000), (0x58, 8, 0x31000), (0x60, 8, 0x40000),
    (0x68, 4, 0x60202)]

theorem test_pawn_gemv : let h := holding gemvCmd [(0, segment 0 [0x200000, 0x400000])]
    checked h = true ∧ (pawnsCheck 0 (gemvJob 0 gemvCmd) gemvCmd h).map Prod.fst = some (0, 0, 0) := by decide +kernel

/-- OPT 1 over no elements. -/
def emptyUpdate : Cmd := pinning 0x61 2 [(0x40, 8, 0x20000), (0x48, 4, 1), (0x4C, 4, 0x401), (0x88, 8, 0x40000)]

theorem test_update : let h := holding emptyUpdate [(0, segment 0 [0x200000, 0x400000, 0x600000, 0x800000, 0, 0, 0])]
    checked h = true ∧ (pawnsCheck 0 (updateJob 0 emptyUpdate) emptyUpdate h).map Prod.fst = some (0, 0, 0) := by decide +kernel

/-- Pawn 3 of stack 8 has spent the token of the command in slot 0. -/
def spentHw (limit : Nat) : Hw :=
  { regsOf live [(regOf (.stack 8) 0x10004, limit)] with tokens := [(pawnKey 8 3, (0, true))] }

theorem test_token_return : (after (.tokenReturn 8 3) (spentHw 1)).tokens = [(pawnKey 8 3, (0, false))] ∧
    (after (.tokenReturn 8 3) (spentHw 1)).tokenWaits = [] ∧
    ((after (.tokenReturn 8 3) (spentHw 0)).tokens, (after (.tokenReturn 8 3) (spentHw 0)).tokenWaits) = ([], [(0, pawnKey 8 3)]) ∧
    after (.tokenReturn 8 4) (spentHw 1) = spentHw 1 := by decide +kernel

/-! Reports and notation -/

def reportCmd (op : Nat) : Cmd := pinning op 1 [(0x40, 8, 0x20000)]

theorem test_query : endOf (after (.query 0) (holding (reportCmd 0xF0) [])) 0 = some (0, 256, 0) ∧
    stored (after (.query 0) (holding (reportCmd 0xF0) [])) 0 8 = leBytes 4 1 ++ leBytes 4 256 := by decide +kernel

theorem test_telemetry : ((endOf (after (.telemetry 0) (holding (reportCmd 0xF1) [])) 0).map Prod.fst) = some 0 := by
  decide +kernel

/-- The pieces go to ports 0 to 4, which are UP, under key slot 0. -/
def noteHw (c : Cmd) (mem : List (Nat × List Byte)) : Hw :=
  let h := (List.range 5).foldl (fun h q => setPortState h q 4) (regsOf (holding c mem) [(0x600140, 0x843210)])
  { h with sec := { h.sec with egressKeys := [(0, EgressKey.mk (List.replicate 32 1) (List.replicate 32 2) 0 .nonSecure)] } }

/-- One extent of 64 KiB at 0x30000. -/
def noteCmd : Cmd := pinning 0x90 1 [(0x40, 8, 0x20000), (0x48, 4, 1)]
def yes5 : List Bool := [true, true, true, true, true]

theorem test_notate : let h := noteHw noteCmd [(0, leBytes 8 0x30000 ++ leBytes 8 0x10000)]
    checked h = true ∧ buddyLost h = none ∧ (runOn (noteCheck 0 noteCmd) h).1 = .ok [(0x30000, 0x10000)] := by
  decide +kernel

/-- Its records are sent; it is to resume step 7. -/
def sentCmd : Cmd := { noteCmd with priv := [4, 7, 0, 0, 0, 0, 0x30000, 0x10000] }

theorem test_notate_ends :
    endOf (after (.notate 0 [] yes5) (noteHw sentCmd [])) 0 = some (0, 7, 5 * (64 + 66048)) ∧
    after (.notate 0 [] []) (noteHw sentCmd []) = noteHw sentCmd [] ∧
    endOf (after (.notate 0 [] yes5) (setPortState (noteHw sentCmd []) 4 5)) 0 = some (0x40, 4, 0) ∧
    unitsOut (noteHw sentCmd []) = false ∧
    ((cmdAt (after (.notate 0 [] []) (noteHw { sentCmd with priv := 3 :: sentCmd.priv.drop 1 } [])) 0).map fun c => c.priv.head?) =
      some (some 4) ∧
    endOf (after (.notate 0 [true, false] yes5) (noteHw { sentCmd with priv := 2 :: sentCmd.priv.drop 1 } [])) 0 = none ∧
    endOf (after (.notate 0 [true, true, false, true, true] yes5) (noteHw { sentCmd with priv := 2 :: sentCmd.priv.drop 1 } []))
      0 = some (0x11, 2 ^ 63 + 3 * 2 ^ 48, 2) := by decide +kernel

theorem test_notate_refused : let h := setPortState (noteHw { noteCmd with priv := 0 :: noteWords live }
      [(0, leBytes 8 0x30000 ++ leBytes 8 0x10000)]) 3 0
    (runOn (noteCheck 0 noteCmd) h).1 = .error (.stop 0x40 3 0) ∧ endOf (after (.notate 0 [] []) h) 0 = some (0x40, 3, 0) := by
  decide +kernel

/-- A step is open. -/
theorem test_restore_in_step : let h := setRegBit (noteHw (reportCmd 0x91) []) rTrainStatus 0 true
    stepOpen h = true ∧ endOf (after (.restore 0 []) h) 0 = some (0x11, 2 ^ 63 + 7 * 2 ^ 48, 0) := by decide +kernel

def fiveDigests : List (List Byte) := [[1], [2], [3], [4], [5]]

theorem test_verify : let h := noteHw (pinning 0x92 1 [(0x40, 8, 7)]) []
    let h := { h with ckpt := { h.ckpt with gens := [(7, fiveDigests)] } }
    endOf (after (.verify 0 (fiveDigests.map some)) h) 0 = some (0, 7, 0) ∧
    endOf (after (.verify 0 [some [1], some [2], none, some [4], some [5]]) h) 0 = some (0x30, 2, 0) := by decide +kernel

theorem test_invalidate : let h := { live with ckpt := { live.ckpt with rx := [CkptRx.mk 3 0] } }
    acts h .secure 0x600004 = true ∧ (after (.invalidateSlots .secure) h).ckpt.rx = [] := by decide +kernel

/-! Accesses -/

theorem test_management_read : ((after (.mgmtRead .sticky 0 4) { live with pins := { live.pins with mgmtAlertN := true } }).mgmtOut.length,
      (after (.mgmtRead .sticky 0 4) { live with pins := { live.pins with mgmtAlertN := true } }).pins.mgmtAlertN) = (4, false) ∧
    after (.mgmtRead .sticky 0 65) live = live := by decide +kernel

theorem test_jtag_refused : let s := State.reset.fuses
    ((jtagTakes s live .idcode, (after (.jtagInstruction .idcode) live).jtag.ir) = (true, .idcode)) ∧
    jtagTakes s live .bypass = true := by decide +kernel

/-- A halfword write to an event counter is recorded; a dword write counts; the identity page takes none. -/
theorem test_register_write : (after (.registerWrite .nonSecure 0x140000 2 7) live).errs.log.map (fun r => (r.source, r.kind, r.addr.toNat)) =
      [(8, 5, 0x140000)] ∧ blockOf 0x140000 = .ctr ∧ blockOf 0 = .ident ∧ acts live .nonSecure 0x140000 = true ∧
    getReg (after (.registerWrite .nonSecure 0x140000 4 7) live) 0x140000 = 7 ∧
    after (.registerWrite .secure 0 4 7) live = live := by decide +kernel

/-! Order of host writes (R383) and the rest of the review's points -/

/-- A posted write waits behind the bytes that slot 5 holds. -/
def postedHw : Hw := { heldHw with host := { heldHw.host with winQueue := [WinAccess.mk ⟨true, .bar2⟩ 0 0 8 [1]] } }

/-- A register write, and a read of the window, wait behind it; on an empty queue the write then acts. -/
theorem test_posted_order : postedBefore postedHw .nonSecure = true ∧
    (after (.tileReset .nonSecure 0) postedHw).host.behind = [.tileReset .nonSecure 0] ∧
    readWaits postedHw postedHw.host.winQueue (WinAccess.mk ⟨false, .bar2⟩ 640 640 8 []) = true ∧
    acts postedHw .secure (regOf (.tile 0) 8) = true ∧
    ((nextOf (step (ofHw { linked with host := { linked.host with behind := [.tileReset .nonSecure 0] } }))).map fun t =>
      (t.hw.host.behind, tileInReset t.hw 0)) = some ([], true) := by decide +kernel

/-- Without REFCLK_SYS a start stands. -/
theorem test_start_waits : nextOf (step { startingAt 5 with hw := { (startingAt 5).hw with
    supplies := { (startingAt 5).hw.supplies with refclkSys := false } } }) = some { startingAt 5 with hw := { (startingAt 5).hw with
    supplies := { (startingAt 5).hw.supplies with refclkSys := false } } } := by decide +kernel

/-- STALE_SLOT has parked ring 0: any value wakes it. -/
def parkedRing : Hw :=
  { setRegBit (setRegBit ringed (rRingStatus 0) 0 true) (rRingStatus 0) 2 true with rings := [(0, { RingAux.reset with stale := true })] }

theorem test_stale_doorbell : ([0, 17].map fun v => let h := after (.sqDoorbell .nonSecure 0 v) parkedRing
    (ringParked h 0, (ringAux h 0).mismatch, (ringAux h 0).sqProd)) = [(false, true, 0), (false, true, 0)] := by decide +kernel

/-- On a disabled ring only the bit clears; a finished command whose ring is full owes its record. -/
theorem test_halt_and_due : (let h := { setRegBit ringed (rRingStatus 0) 8 true with rings := [(0, { RingAux.reset with cqFailed := true })] }
     ringHalted (after (.errorHaltClear .nonSecure 0) h) 0 = false ∧
     (ringAux (after (.errorHaltClear .nonSecure 0) h) 0).cqFailed = true) ∧
    (after (.finalRecord 3) (setReg finishedRing (rRing 0 0x10) 16)).due = [DueRecord.mk 3 none] := by decide +kernel

/-- An audit of the group of two whose map 0 leads to port 0; its roots differ, and rank 1's is authoritative. -/
def auditing (gathered : Option (List (List Byte))) : Hw :=
  let h := setReg (pair 0x76 0 (nearEnd 0)) 0x600148 0x800003E8
  let h := regsOf h [(rStepLo, 5000), (rTrainStatus, 2), (0x60014C, 1)]
  { h with slots := [(0, endCmd [1])], colls := [], ckpt := { h.ckpt with gathered := gathered } }

theorem test_audit_gathers : auditDue (auditing none) = true ∧ drained (auditing none) 0 = true ∧
    (audit 0 [] (auditing none)).1 = false ∧ regBit (audit 0 [] (auditing none)).2 0x600000 2 = false ∧
    (audit 0 [] (auditing none)).2.colls.map Coll.tag = [0xFFFFFFFF] := by decide +kernel

theorem test_audit_diverges : (audit 0 [] (auditing (some [[1], [2]]))).1 = false ∧
    regBit (audit 0 [] (auditing (some [[1], [2]]))).2 0x600000 2 = true ∧
    (audit 0 [] (auditing (some [[1], [1]]))).1 = true ∧
    ((cmdAt (after (.stepEnd 0 []) (auditing (some [[1], [2]]))) 0).map Cmd.priv) = some [2] := by decide +kernel

/-- This member is the source for rank 1, and sends no block: the service ends. -/
theorem test_refresh_serves : (audit 0 [] (setReg (auditing (some [[1], [2]])) 0x60014C 0)).2.ckpt.serves = [1] ∧
    (after (.divergenceRefresh []) { live with ckpt := { live.ckpt with serves := [1] } }).ckpt.serves = [] := by decide +kernel

/-- Of two waiting messages the one of higher priority goes first; with 128 frames outstanding only ACK goes. -/
def talking (n : Nat) : Hw := setChan linkUp die3 { ChanAux.reset with
  waiting := [⟨1, [7]⟩, ⟨3, [9]⟩], replay := List.replicate n (sound 1 7 0 [1]) }

theorem test_channel_turn :
    (chanAux (after (.idleFrame die3 ⟨sound 0 0 0 [], []⟩) (talking 1)) die3).sent.map (fun x => (x.1, x.2.payload)) =
      [(.data, [9])] ∧
    (chanAux (after (.idleFrame die3 ⟨sound 0 0 0 [], []⟩) (talking 128)) die3).sent.map Prod.fst = [.idle] ∧
    chanWorks (after (.controlReplayTimeout die3) (setChan linkUp die3 { chanAux (talking 1) die3 with resends := 8 })) die3 = false := by
  decide +kernel

/-- A flit that no valid wire marks is none. -/
theorem test_flit_valid : isFlit 0 = false ∧ isFlit 0xFF = true ∧
    after (.flit { flitOn 1 false none with valid := 0 }) live = live := by decide +kernel

/-- The chain of the castle and die 3, both in BYPASS, has two bits. -/
theorem test_jtag_chain : chainBits (after (.jtagInstruction .bypass) { live with jtag := { live.jtag with selected := 8#52 } }).jtag = some 2 ∧
    (after (.jtagInstruction (.dieInternal 3)) live).jtag.refused = true := by decide +kernel

/-- A write of 8 bytes is two; the component registers keep what is written. -/
theorem test_register_sizes : (let h := after (.registerWrite .nonSecure 0x140000 8 0x900000007) live
     getReg h 0x140000 = 7) ∧
    (after (.registerWrite .nonSecure 0x204010 4 5) live).host.component = [(0x204010, 5)] := by decide +kernel

/-- FEC and the NAK of a failed CRC: the counters move on by what no command shows. -/
theorem test_port_record : (after (.portStateBound 0) (port0 2 .reset)).errs.log.map (fun r => (r.source, r.kind, r.severity, r.unit)) =
      [(5, 7, 0, 0)] ∧
    (after (.lightReturn 0) (port0 5 .reset)).errs.log.length = 1 ∧ (after (.cellCrcFailure 0) upPort).draws = upPort.draws + 2 := by
  decide +kernel

/-- Tile 0 serves a FILL in slot 0; its reset leaves the units to another. -/
theorem test_reset_abandons : ((cmdAt (after (.tileReset .nonSecure 0) (with0 { longFill with serving := some (0, 0) })) 0).map Cmd.serving) =
    some none := by decide +kernel

end Sys2Proof.Tests
end

section
/-! PROOFS. Two relations that say what an operation leaves alone, and the operations on registers and error records
that keep them. -/

namespace Sys2Proof.Machine

/-! Memory -/

/-- Marking an interval of one space undefined leaves every byte of the others. -/
theorem read_makeFree_ne (m : Mem) {sp tp : Space} (ne : tp ≠ sp) (a n d x : Nat) :
    (m.makeFree sp a n d).read tp x = m.read tp x := by
  have zeroed : (m.zero sp a n).read tp x = m.read tp x := by rw [read_zero, if_neg fun e => ne e.1]
  have draw : freeDraw (m.makeFree sp a n d) tp x = freeDraw (m.zero sp a n) tp x := by
    rw [freeDraw_eq, freeDraw_eq, Mem.makeFree, setMarks_marks]
    by_cases e : tp = .tile ↔ sp = .tile
    · have others : (m.zero sp a n).marks sp = (m.zero sp a n).marks tp := by
        have h1 : sp ≠ .tile := fun h => ne ((e.mpr h).trans h.symm)
        have h2 : tp ≠ .tile := fun h => h1 (e.mp h)
        simp [Mem.marks, h1, h2]
      have missed : (FreeRange.mk sp a n d).hits tp x = false := by
        simp [FreeRange.hits, Ne.symm ne]
      rw [if_pos e, List.find?_cons, missed, others]
    · rw [if_neg e]
  rw [← zeroed, Mem.read, Mem.read, draw, Mem.makeFree, setMarks_cells]

/-- Undefined ranges of HBM leave every byte of the other spaces. -/
theorem read_freeKeys_ne {tp : Space} (ne : tp ≠ .hbm) (ks : List (Nat × Nat)) (h : Hw) (x : Nat) :
    (freeKeys ks h).mem.read tp x = h.mem.read tp x := by
  unfold freeKeys
  induction ks generalizing h with
  | nil => rfl
  | cons k ks ih => rw [List.foldl_cons, ih]; exact read_makeFree_ne _ ne ..

/-- Undefined ranges of HBM change memory and the draws alone. -/
theorem freeKeys_eq (ks : List (Nat × Nat)) (h : Hw) :
    freeKeys ks h = { h with mem := (freeKeys ks h).mem, draws := (freeKeys ks h).draws } := by
  unfold freeKeys
  induction ks generalizing h with
  | nil => rfl
  | cons k ks ih => rw [List.foldl_cons, ih]

/-! The relations -/

/-- The registers that neither memory accesses, nor ports, nor error records, nor the ends of commands write: those
below the host block (rings, counters, streams with the lend windows, training), RST_CFG and RST_STATUS. -/
def steadyReg (o : Nat) : Prop := o < 0x200000 ∨ o = 0x700104 ∨ o = 0x700108

/-- What stays through an access, through the end of a command and through the loss of a link: the steady registers, the
contents of flash and the security core. -/
structure KeepsStored (h h' : Hw) : Prop where
  reg : ∀ o, steadyReg o → getReg h' o = getReg h o
  flash : ∀ a, h'.mem.read .flash a = h.mem.read .flash a
  sec : h'.sec = h.sec

/-- What stays also through the sending of cells and through an error record: all of memory, the commands and the
collectives. -/
structure KeepsWork (h h' : Hw) : Prop where
  reg : ∀ o, steadyReg o → getReg h' o = getReg h o
  mem : h'.mem = h.mem
  slots : h'.slots = h.slots
  colls : h'.colls = h.colls
  sec : h'.sec = h.sec

theorem KeepsStored.refl (h : Hw) : KeepsStored h h := ⟨fun _ _ => rfl, fun _ => rfl, rfl⟩

theorem KeepsStored.trans {h g k : Hw} (a : KeepsStored h g) (b : KeepsStored g k) : KeepsStored h k :=
  ⟨fun o s => (b.reg o s).trans (a.reg o s), fun x => (b.flash x).trans (a.flash x), b.sec.trans a.sec⟩

theorem KeepsWork.refl (h : Hw) : KeepsWork h h := ⟨fun _ _ => rfl, rfl, rfl, rfl, rfl⟩

theorem KeepsWork.trans {h g k : Hw} (a : KeepsWork h g) (b : KeepsWork g k) : KeepsWork h k :=
  ⟨fun o s => (b.reg o s).trans (a.reg o s), b.mem.trans a.mem, b.slots.trans a.slots, b.colls.trans a.colls,
    b.sec.trans a.sec⟩

theorem KeepsWork.stored {h h' : Hw} (k : KeepsWork h h') : KeepsStored h h' :=
  ⟨k.reg, fun x => by rw [k.mem], k.sec⟩

/-- What each operation of a sequence keeps, the sequence keeps. -/
theorem KeepsStored.foldl {α : Type} {f : Hw → α → Hw} (step : ∀ h x, KeepsStored h (f h x)) (xs : List α)
    (h : Hw) : KeepsStored h (xs.foldl f h) :=
  List.foldlRecOn xs f (motive := KeepsStored h) (.refl h) fun g k x _ => k.trans (step g x)

theorem KeepsWork.foldl {α : Type} {f : Hw → α → Hw} (step : ∀ h x, KeepsWork h (f h x)) (xs : List α)
    (h : Hw) : KeepsWork h (xs.foldl f h) :=
  List.foldlRecOn xs f (motive := KeepsWork h) (.refl h) fun g k x _ => k.trans (step g x)

variable (h : Hw)

/-! Registers -/

theorem keepsWork_setReg {o : Nat} (n : ¬ steadyReg o) (v : Word) : KeepsWork h (setReg h o v) :=
  ⟨fun _ s => getReg_setReg_ne h v fun e => n (e ▸ s), rfl, rfl, rfl, rfl⟩

theorem not_steady_tile {t r : Nat} : ¬ steadyReg (regOf (.tile t) r) := by
  simp only [steadyReg, regOf, baseOf]; omega

theorem not_steady_stack {s r : Nat} : ¬ steadyReg (regOf (.stack s) r) := by
  simp only [steadyReg, regOf, baseOf]; omega

theorem not_steady_board {b r : Nat} : ¬ steadyReg (regOf (.board b) r) := by
  simp only [steadyReg, regOf, baseOf]; omega

theorem not_steady_port {q r : Nat} (l : r < 0x100) : ¬ steadyReg (rPort q r) := by
  simp only [steadyReg, rPort, regOf, baseOf]; omega

theorem not_steady_host {r : Nat} (l : r < 0x4000) : ¬ steadyReg (regOf .host r) := by
  simp only [steadyReg, regOf, baseOf]; omega

/-! Error records and interrupts -/

theorem getReg_routeSeverity (r : ErrRec) (o : Nat) : getReg (routeSeverity h r) o = getReg h o := by
  simp only [routeSeverity]
  split_ifs <;> rfl

/-- A record of a severity of Table 19-5 writes ERR_LAST and the counter of its severity alone. -/
theorem getReg_errRecord {e : ErrEvent} {o : Nat} (last : o ≠ rErrLast)
    (count : o ≠ regOf .err (0x50 + 4 * e.severity)) : getReg (errRecord h e).2 o = getReg h o := by
  have counted : getReg (errRecord h e).2 o =
      getReg (bumpSat (setReg h rErrLast (nextRef (getReg h rErrLast))) (regOf .err (0x50 + 4 * e.severity)) 1) o := by
    simp only [errRecord, getReg_routeSeverity]
    rfl
  rw [counted, bumpSat, getReg_setReg_ne _ _ count, getReg_setReg_ne _ _ last]

theorem keepsWork_errRecord {e : ErrEvent} (l : e.severity ≤ 4) : KeepsWork h (errRecord h e).2 := by
  obtain ⟨mem, slots, _, colls, sec⟩ := logErr_frame (h := h) e
  refine ⟨fun o s => getReg_errRecord h ?_ ?_, mem, slots, colls, sec⟩ <;>
    (simp only [steadyReg] at s; simp only [rErrLast, regOf, baseOf]; omega)

theorem keepsWork_logErr {e : ErrEvent} (l : e.severity ≤ 4) : KeepsWork h (logErr h e) := keepsWork_errRecord h l

/-- Entering a package state changes it, the messages and the registers alone. -/
theorem setPkg_frame (p : PkgState) : setPkg h p =
    { h with pkg := p, host := (setPkg h p).host, regs := (setPkg h p).regs, freeRegs := (setPkg h p).freeRegs } := by
  have sent (g : Hw) : sendMsix g 67 = { g with
      host := (sendMsix g 67).host, regs := (sendMsix g 67).regs, freeRegs := (sendMsix g 67).freeRegs } := by
    unfold sendMsix
    split_ifs <;> rfl
  unfold setPkg
  split_ifs with e
  · rw [← e]
  · exact sent _

theorem setPkg_pkg (p : PkgState) : (setPkg h p).pkg = p := by rw [setPkg_frame]
@[simp] theorem setPkg_pins (p : PkgState) : (setPkg h p).pins = h.pins := by rw [setPkg_frame]
@[simp] theorem setPkg_supplies (p : PkgState) : (setPkg h p).supplies = h.supplies := by rw [setPkg_frame]
@[simp] theorem setPkg_mem (p : PkgState) : (setPkg h p).mem = h.mem := by rw [setPkg_frame]

end Sys2Proof.Machine
end

section
/-! PROOFS. Accesses, cells, the ends of commands and the loss of links keep flash, the security core and the steady
registers. -/

namespace Sys2Proof.Machine

variable (h : Hw)

/-! Cells and ports -/

theorem keepsWork_setPortAux (q : Nat) (a : PortAux) : KeepsWork h (setPortAux h q a) :=
  ⟨fun _ _ => rfl, rfl, rfl, rfl, rfl⟩

theorem keepsWork_emitCell (q : Nat) (c : Cell) : KeepsWork h (emitCell h q c) :=
  (keepsWork_setPortAux h q _).trans (keepsWork_setReg _ (not_steady_port (by omega)) _)

theorem keepsWork_sealOut (q : Nat) (c : Cell) : KeepsWork h (sealOut h q c).2 := by
  unfold sealOut
  split
  · exact .refl h
  · exact keepsWork_setPortAux ..

theorem keepsWork_pumpPort (f q : Nat) : KeepsWork h (pumpPort f h q) := by
  induction f generalizing h with
  | zero => exact .refl h
  | succ f ih =>
    simp only [pumpPort]
    split
    · exact .refl h
    · exact (keepsWork_sealOut ..).trans ((keepsWork_setPortAux ..).trans ((keepsWork_emitCell ..).trans (ih _)))

theorem keepsWork_sendCell (q : Nat) (c : Cell) : KeepsWork h (sendCell h q c) := by
  unfold sendCell
  split_ifs
  · exact (keepsWork_setPortAux ..).trans (keepsWork_pumpPort ..)
  · exact .refl h

theorem keepsWork_sendOnSlot (m s : Nat) (c : Cell) : KeepsWork h (sendOnSlot h m s c) := by
  simp only [sendOnSlot]
  split_ifs
  · exact .refl h
  · exact keepsWork_sendCell ..

theorem keepsWork_sendTo (v : CollView) (p : Partner) (c : Cell) : KeepsWork h (sendTo h v p c) := by
  unfold sendTo
  split
  · exact .refl h
  · exact keepsWork_sendOnSlot ..

theorem keepsWork_setPortState (q st : Nat) : KeepsWork h (setPortState h q st) :=
  keepsWork_setReg h (not_steady_port (by omega)) _

theorem keepsWork_clearLink (q : Nat) : KeepsWork h (clearLink h q) := ⟨fun _ _ => rfl, rfl, rfl, rfl, rfl⟩

theorem keepsWork_abortPartner (v : CollView) (a : AbortPay) (p : Partner) : KeepsWork h (abortPartner v a h p) := by
  simp only [abortPartner]
  split
  · exact keepsWork_sendTo ..
  · split
    · exact (keepsWork_setPortAux ..).trans ((keepsWork_setPortAux ..).trans (keepsWork_sendTo ..))
    · split
      · exact .refl h
      · split_ifs
        · exact .refl h
        · exact ⟨fun _ _ => rfl, rfl, rfl, rfl, rfl⟩

theorem keepsWork_sendAborts (v : CollView) (a : AbortPay) : KeepsWork h (sendAborts h v a) :=
  KeepsWork.foldl (fun g p => keepsWork_abortPartner g v a p) v.partners h

/-! Reading the stacks -/

theorem keepsWork_bumpSat {o : Nat} (n : ¬ steadyReg o) (k : Nat) : KeepsWork h (bumpSat h o k) :=
  keepsWork_setReg h n _

theorem keepsWork_setRegBit {o : Nat} (n : ¬ steadyReg o) (i : Nat) (b : Bool) : KeepsWork h (setRegBit h o i b) :=
  keepsWork_setReg h n _

theorem keepsWork_setStackAux (s : Nat) (a : StackAux) : KeepsWork h (setStackAux h s a) :=
  ⟨fun _ _ => rfl, rfl, rfl, rfl, rfl⟩

theorem keepsWork_setCacheAux (b : Nat) (a : CacheAux) : KeepsWork h (setCacheAux h b a) :=
  ⟨fun _ _ => rfl, rfl, rfl, rfl, rfl⟩

theorem keepsWork_logStackEvent (s y kind symbol : Nat) : KeepsWork h (logStackEvent h s y kind symbol) :=
  (keepsWork_setReg h not_steady_stack _).trans
    ((keepsWork_setReg _ not_steady_stack _).trans (keepsWork_setReg _ not_steady_stack _))

theorem keepsWork_trackRow (s y : Nat) : KeepsWork h (trackRow h s y) := by
  simp only [trackRow]
  split_ifs
  · exact keepsWork_setStackAux ..
  · exact keepsWork_setStackAux ..
  · exact (keepsWork_setStackAux ..).trans
      ((keepsWork_setRegBit _ not_steady_stack _ _).trans (keepsWork_logErr _ (by simp)))

theorem keepsWork_correctCw (s y symbol : Nat) : KeepsWork h (correctCw h s y symbol) :=
  (keepsWork_bumpSat h not_steady_stack _).trans <| (keepsWork_setRegBit _ not_steady_stack _ _).trans <|
    (keepsWork_logStackEvent ..).trans <| (keepsWork_trackRow ..).trans (keepsWork_setStackAux ..)

theorem keepsWork_takePoison (s y : Nat) : KeepsWork h (takePoison h s y) := by
  have marked : KeepsWork h (setCwErrs (setPoison h (cwOf s y) true) (cwOf s y) []) :=
    ⟨fun _ _ => rfl, rfl, rfl, rfl, rfl⟩
  simp only [takePoison]
  split_ifs
  · exact marked
  · exact marked.trans ((keepsWork_setStackAux ..).trans (keepsWork_setReg _ not_steady_stack _))

theorem keepsWork_poisonCw (s y symbol : Nat) : KeepsWork h (poisonCw h s y symbol) :=
  (keepsWork_takePoison ..).trans <| (keepsWork_bumpSat _ not_steady_stack _).trans <|
    (keepsWork_setRegBit _ not_steady_stack _ _).trans <| (keepsWork_logStackEvent ..).trans
      (keepsWork_logErr _ (by simp))

theorem keepsWork_checkCw (s y : Nat) : KeepsWork h (checkCw h s y).2 := by
  simp only [checkCw]
  split_ifs
  · exact .refl h
  · split
    · exact .refl h
    · exact keepsWork_correctCw ..
    · exact keepsWork_poisonCw ..

theorem keepsWork_stackRead (s y n k : Nat) : KeepsWork h (stackRead h s y n k).2.2 :=
  (keepsWork_checkCw ..).trans (keepsWork_setStackAux ..)

theorem keepsWork_dropLines (p : Nat → Nat → Bool) : KeepsWork h (dropLines h p) :=
  ⟨fun _ _ => rfl, rfl, rfl, rfl, rfl⟩

theorem keepsWork_allocLine (b line : Nat) : KeepsWork h (allocLine h b line) := by
  simp only [allocLine]
  split
  · exact (keepsWork_dropLines ..).trans (keepsWork_setCacheAux ..)
  · exact keepsWork_setCacheAux ..

theorem keepsWork_fillRemote (b m line : Nat) : KeepsWork h (fillRemote h b m line) := by
  have filled (g : Hw) (x y : CacheAux) : KeepsWork g (setCacheAux (setCacheAux (allocLine g b line) b x) m y) :=
    (keepsWork_allocLine g b line).trans ((keepsWork_setCacheAux _ b x).trans (keepsWork_setCacheAux _ m y))
  simp only [fillRemote]
  split
  · split_ifs
    · exact (keepsWork_dropLines ..).trans (filled ..)
    · exact filled ..
  · exact filled ..

theorem keepsWork_lookLine (b line : Nat) : KeepsWork h (lookLine h b line).2 := by
  simp only [lookLine]
  split
  · exact keepsWork_setCacheAux ..
  · split_ifs
    · exact (keepsWork_dropLines ..).trans
        ((keepsWork_bumpSat _ not_steady_board _).trans (keepsWork_setCacheAux ..))
    · exact keepsWork_setCacheAux ..

theorem keepsWork_lineRead (far : Option Nat) (pa s y n : Nat) : KeepsWork h (lineRead h far pa s y n).2.2 := by
  unfold lineRead
  extract_lets line m far near home may atHome copy r filled
  have near_kept : KeepsWork h near.2 := by
    unfold near
    clear_value far
    cases far with
    | none => exact .refl h
    | some b => exact keepsWork_lookLine ..
  have home_kept : KeepsWork h home.2 := near_kept.trans (keepsWork_lookLine ..)
  have r_kept : KeepsWork h r.2.2 := by
    unfold r
    split_ifs
    · exact home_kept
    all_goals exact home_kept.trans (keepsWork_stackRead ..)
  have filled_kept : KeepsWork h filled := by
    unfold filled
    split_ifs
    · exact r_kept.trans (keepsWork_allocLine ..)
    · exact r_kept
  split_ifs
  · exact keepsWork_stackRead ..
  · exact near_kept
  · exact r_kept
  · clear_value copy
    cases copy with
    | none => exact filled_kept
    | some b => exact filled_kept.trans (keepsWork_fillRemote ..)

/-! Translation and undefined contents -/

theorem keepsStored_modCmd (k : Nat) (f : Cmd → Cmd) : KeepsStored h (modCmd h k f) := by
  unfold modCmd
  split
  · exact .refl h
  · exact ⟨fun _ _ => rfl, fun _ => rfl, rfl⟩

theorem keepsStored_touchStack (who : Who) (s : Nat) : KeepsStored h (touchStack h who s) := by
  unfold touchStack
  split
  · exact .refl h
  · exact keepsStored_modCmd ..

theorem keepsWork_logBoard (who : Who) (kind pa board : Nat) : KeepsWork h (logBoard h who kind pa board) := by
  unfold logBoard
  refine keepsWork_logErr h ?_
  split <;> simp

theorem keepsStored_readPaPiece (who : Who) (pa n : Nat) : KeepsStored h (readPaPiece h who pa n).2 := by
  unfold readPaPiece
  split
  · split_ifs
    · exact (keepsWork_logBoard ..).stored
    · exact .refl h
    all_goals exact (keepsStored_touchStack ..).trans (keepsWork_lineRead ..).stored
  · exact .refl h
  · split_ifs
    · exact .refl h
    · exact ⟨fun _ _ => rfl, fun _ => rfl, rfl⟩
  · exact (keepsWork_logBoard ..).stored

theorem keepsStored_readPa_go (who : Who) (ps : List (Nat × Nat)) (acc : List Byte) (poison : Option Nat) :
    KeepsStored h (readPa.go who h acc poison ps).2 := by
  induction ps generalizing h acc poison with
  | nil => exact .refl h
  | cons p ps ih =>
    have piece := keepsStored_readPaPiece h who p.1 p.2
    unfold readPa.go
    split
    · next e => rw [e] at piece; exact piece.trans (ih ..)
    · exact piece

theorem keepsStored_readPa (who : Who) (pa n : Nat) : KeepsStored h (readPa h who pa n).2 := keepsStored_readPa_go ..

theorem keepsWork_installPointer (b : Nat) (e : PointerEntry) : KeepsWork h (installPointer h b e) :=
  ⟨fun _ _ => rfl, rfl, rfl, rfl, rfl⟩

theorem keepsWork_setXcache (k : Nat) (c : XCache) : KeepsWork h (setXcache h k c) :=
  ⟨fun _ _ => rfl, rfl, rfl, rfl, rfl⟩

theorem keepsStored_follow (walker : Option Nat) (r va f l table : Nat) :
    KeepsStored h (follow h walker r va f l table).2 := by
  induction f generalizing h l table with
  | zero => exact .refl h
  | succ f ih =>
    have read := keepsStored_readPa h (castle (worldOf r)) (table + va / 2 ^ levelShift l % levelEntries l * 8) 8
    simp only [follow]
    split_ifs
    · exact .refl h
    · split
      · next g e =>
        rw [e] at read
        split_ifs
        · exact read
        · exact read
        · exact read
        · cases walker with
          | none => exact read.trans (ih ..)
          | some b => exact read.trans ((keepsWork_installPointer ..).stored.trans (ih ..))
        · exact read
      all_goals next e => rw [e] at read; exact read

theorem keepsStored_leafFor (who : Who) (va : Nat) : KeepsStored h (leafFor h who va).2 := by
  unfold leafFor
  extract_lets r k c missed _ walked start
  have walked_kept : KeepsStored h walked := ⟨fun _ _ => rfl, fun _ => rfl, rfl⟩
  split
  · exact (keepsWork_setXcache ..).stored
  · have path := walked_kept.trans (keepsStored_follow walked (some who.board) r va (4 - start.1) start.1 start.2)
    split
    · next e => rw [e] at path; exact path.trans (keepsWork_setXcache ..).stored
    · exact path

theorem keepsStored_walk (who : Who) (va : Nat) (acc : Acc) : KeepsStored h (walk h who va acc).2 := by
  have leaf := keepsStored_leafFor h who va
  unfold walk
  split_ifs
  · exact .refl h
  · split
    · next e => rw [e] at leaf; split_ifs <;> exact leaf
    all_goals next e => rw [e] at leaf; exact leaf

theorem keepsStored_translate (who : Who) (va : Nat) (acc : Acc) : KeepsStored h (translate h who va acc).2 := by
  unfold translate
  split
  · exact .refl h
  · exact keepsStored_walk ..

/-- Undefined contents of a space other than flash. -/
theorem keepsStored_makeFree {sp : Space} (ne : sp ≠ .flash) (a n d : Nat) :
    KeepsStored h { h with mem := h.mem.makeFree sp a n d } :=
  ⟨fun _ _ => rfl, read_makeFree_ne h.mem (Ne.symm ne) a n d, rfl⟩

theorem keepsStored_freeHost (a n : Nat) : KeepsStored h (freeHost h a n) :=
  ⟨fun _ _ => rfl, read_makeFree_ne h.mem (by decide) a n h.draws, rfl⟩

theorem keepsStored_freeVa_go (who : Who) (ps : List (Nat × Nat)) : KeepsStored h (runOn (freeVa.go who ps) h).2 := by
  induction ps generalizing h with
  | nil => exact .refl h
  | cons p ps ih =>
    have at_ := keepsStored_translate h who p.1 .wr
    unfold freeVa.go
    rw [runOn_bind_ok runOn_get]
    dsimp only
    split
    · next e =>
      rw [e] at at_
      split
      · split_ifs
        · rw [runOn_bind_ok (runOn_set _)]
          exact at_.trans (ih _)
        · rw [runOn_bind_ok (runOn_set _)]
          exact at_.trans ((keepsStored_makeFree _ (by decide) ..).trans (ih _))
      · rw [runOn_bind_ok (runOn_set _)]
        exact at_.trans ((keepsStored_makeFree _ (by decide) ..).trans (ih _))
      · rw [runOn_bind_ok (runOn_set _)]
        exact at_.trans (ih _)
    · next e =>
      rw [e] at at_
      rw [runOn_bind_ok (runOn_set _)]
      exact at_.trans ((keepsStored_freeHost ..).trans (ih _))
    · next e =>
      rw [e] at at_
      rw [runOn_bind_ok (runOn_set _)]
      exact at_.trans (ih _)

theorem keepsStored_freeVaDraw (who : Who) (va n : Nat) : KeepsStored h (runOn (freeVaDraw who va n) h).2 := by
  have freed : KeepsStored h (runOn (freeVa who va n) h).2 := keepsStored_freeVa_go ..
  unfold freeVaDraw
  rw [runOn_bind]
  split
  · next e => rw [e] at freed; exact freed.trans ⟨fun _ _ => rfl, fun _ => rfl, rfl⟩
  · next e => rw [e] at freed; exact freed

theorem keepsStored_spoil (who : Who) (rs : List (Nat × Nat)) : KeepsStored h (spoil who rs h) :=
  KeepsStored.foldl (fun g (r : Nat × Nat) => keepsStored_freeVaDraw g who r.1 r.2) rs h

/-! Ends of commands and of collectives -/

theorem keepsStored_setReg {o : Nat} (n : ¬ steadyReg o) (v : Word) : KeepsStored h (setReg h o v) :=
  (keepsWork_setReg h n v).stored

theorem not_steady_tileFreq {t : Nat} : ¬ steadyReg (rTileFreq t) := not_steady_board

theorem keepsStored_setTileAux (t : Nat) (a : TileAux) : KeepsStored h (setTileAux h t a) :=
  ⟨fun _ _ => rfl, fun _ => rfl, rfl⟩

theorem keepsStored_freeTile (t : Nat) : KeepsStored h (freeTile h t) :=
  (keepsStored_setTileAux h t _).trans <| (keepsStored_setReg _ not_steady_tile _).trans <|
    (keepsStored_setReg _ not_steady_tile _).trans (keepsStored_setReg _ not_steady_tileFreq _)

theorem keepsStored_leaveOpen (slot : Nat) (c : Cmd) : KeepsStored h (leaveOpen h slot c) := by
  have noted : KeepsStored h (notePast h slot c) := by
    rw [notePast_eq]
    exact ⟨fun _ _ => rfl, fun _ => rfl, rfl⟩
  exact noted.trans (keepsStored_spoil ..)

theorem keepsStored_finish (slot st d0 d1 : Nat) : KeepsStored h (finish h slot st d0 d1) := by
  unfold finish
  split
  · exact .refl h
  · next c _ =>
    have freed : KeepsStored h (c.tiles.foldl freeTile (leaveOpen h slot c)) :=
      (keepsStored_leaveOpen ..).trans (KeepsStored.foldl keepsStored_freeTile ..)
    exact ⟨freed.reg, freed.flash, freed.sec⟩

theorem keepsStored_countColls : KeepsStored h (countColls h) :=
  keepsStored_setReg h (by simp only [steadyReg]; omega) _

theorem keepsStored_removeColl (slot : Nat) : KeepsStored h (removeColl h slot) :=
  have dropped : KeepsStored h { h with colls := h.colls.filter fun c => c.slot ≠ slot } :=
    ⟨fun _ _ => rfl, fun _ => rfl, rfl⟩
  dropped.trans (keepsStored_countColls _)

theorem keepsStored_endColl (v : CollView) (st d0 d1 : Nat) : KeepsStored h (endColl h v st d0 d1) := by
  have spoiled : KeepsStored h (freeWork (freeOutputs h v) v) := (keepsStored_spoil ..).trans (keepsStored_spoil ..)
  have removed := spoiled.trans ((keepsStored_removeColl _ v.coll.slot).trans
    (keepsWork_bumpSat _ (by simp only [steadyReg]; omega : ¬ steadyReg 0x504064) 1).stored)
  unfold endColl
  split_ifs
  · exact removed.trans ⟨fun _ _ => rfl, fun _ => rfl, rfl⟩
  · exact removed.trans (keepsStored_finish ..)

/-- The failure of a collective: its ABORT cells, the end of its command and an error record. -/
theorem keepsStored_failCollAs (source kind unit addr : Nat) (v : CollView) (st d0 d1 cause word : Nat) :
    KeepsStored h (failCollAs source kind unit addr h v st d0 d1 cause word) := by
  unfold failCollAs
  extract_lets a sent ended
  have ended_kept : KeepsStored h ended := (keepsWork_sendAborts ..).stored.trans (keepsStored_endColl ..)
  have logged (c : Cmd) : KeepsStored h (cmdErr ended v.coll.slot c st d0 d1 source kind unit addr).2 :=
    ended_kept.trans (keepsWork_errRecord _ (by simp)).stored
  dsimp only
  split_ifs
  · exact logged _
  · exact (logged _).trans (keepsStored_modCmd ..)

theorem keepsStored_failColl (v : CollView) (st d0 d1 cause word : Nat) :
    KeepsStored h (failColl h v st d0 d1 cause word) := keepsStored_failCollAs ..

/-! Links -/

/-- A link that goes without a collective over it takes no work with it. -/
theorem keepsWork_dropLink {q : Nat} (empty : h.colls = []) (st : Nat) : KeepsWork h (dropLink h q st) := by
  have hit : collsOn h q = [] := by simp [collsOn, empty]
  simp only [dropLink, hit, ite_self, List.foldl_nil]
  exact (keepsWork_setPortState ..).trans (keepsWork_clearLink ..)

theorem keepsStored_dropLink (q st : Nat) : KeepsStored h (dropLink h q st) := by
  refine KeepsStored.trans ((keepsWork_setPortState ..).trans (keepsWork_clearLink ..)).stored
    (KeepsStored.foldl (fun g s => ?_) _ _)
  split
  · exact .refl g
  · exact keepsStored_failColl ..

theorem keepsWork_darkenPort {q : Nat} (empty : h.colls = []) : KeepsWork h (darkenPort h q) :=
  (keepsWork_dropLink h empty 0).trans
    ((keepsWork_setReg _ (not_steady_port (by omega)) _).trans (keepsWork_setPortAux ..))

theorem keepsStored_darkenPort (q : Nat) : KeepsStored h (darkenPort h q) :=
  (keepsStored_dropLink ..).trans
    ((keepsStored_setReg _ (not_steady_port (by omega)) _).trans (keepsWork_setPortAux ..).stored)

/-- The four cells of R306, where the port runs. -/
theorem keepsWork_partingCells (q : Nat) (c : Cell) :
    KeepsWork h (if portRuns h q then (List.range 4).foldl (fun h _ => emitCell h q c) h else h) := by
  split_ifs
  · exact KeepsWork.foldl (fun g _ => keepsWork_emitCell g q c) _ _
  · exact .refl h

theorem keepsStored_leavePorts (serial : Quad) (type : Nat) : KeepsStored h (leavePorts h serial type) :=
  KeepsStored.foldl (fun g q => (keepsWork_partingCells g q _).stored.trans (keepsStored_darkenPort ..)) _ h

theorem keepsWork_leavePorts (empty : h.colls = []) (serial : Quad) (type : Nat) :
    KeepsWork h (leavePorts h serial type) := by
  unfold leavePorts allPorts
  refine List.foldlRecOn _ _ (motive := KeepsWork h) (.refl h) fun g k q _ => ?_
  have parted := k.trans (keepsWork_partingCells g q (blankCell type (.serial serial)))
  exact parted.trans (keepsWork_darkenPort _ (parted.colls.trans empty))

/-! The agent's lines -/

theorem keepsStored_countAgent (n : Nat) : KeepsStored h (countAgent h n) :=
  have noted (a : HostAux) : KeepsStored h { h with host := a } := ⟨fun _ _ => rfl, fun _ => rfl, rfl⟩
  (noted _).trans <| (keepsStored_setReg _ (not_steady_host (r := 0x20) (by omega)) _).trans
    (keepsStored_setReg _ (not_steady_host (r := 8) (by omega)) _)

theorem keepsStored_writeBackLine (line : Nat) : KeepsStored h (writeBackLine h line) := by
  unfold writeBackLine
  split
  · exact .refl h
  · have cleared (a n : Nat) : KeepsStored h (clearHostPoison h a n) := by
      unfold clearHostPoison
      split_ifs
      · exact .refl h
      · exact ⟨fun _ _ => rfl, fun _ => rfl, rfl⟩
    have written (g : Hw) (l : List (Nat × AgentLine)) (a : Nat) (bs : List Byte) :
        KeepsStored g { g with mem := g.mem.write .host a bs, host := { g.host with lines := l } } :=
      ⟨fun _ _ => rfl, fun x => read_write_other _ _ _ _ _ _ (by simp), rfl⟩
    exact (cleared ..).trans ((written ..).trans (keepsStored_countAgent ..))

theorem keepsStored_agentReset (perst : Bool) : KeepsStored h (agentReset perst h) := by
  unfold agentReset
  split_ifs
  · have dropped : KeepsStored h { h with host := { h.host with lines := [] } } :=
      ⟨fun _ _ => rfl, fun _ => rfl, rfl⟩
    exact dropped.trans (keepsStored_countAgent ..)
  · exact KeepsStored.foldl (fun g (e : Nat × AgentLine) => keepsStored_writeBackLine g e.1) _ h

end Sys2Proof.Machine
end

section
/-! PROOFS. Resigning with no collective live, and what a restart leaves (Table 19-4). -/

namespace Sys2Proof.Machine

variable (h : Hw)

/-! Resigning with no collective live -/

theorem keepsWork_sendMsix {v : Nat} (l : v < 128) : KeepsWork h (sendMsix h v) := by
  unfold sendMsix
  split_ifs
  · exact keepsWork_setReg h (not_steady_host (by omega)) _
  · exact ⟨fun _ _ => rfl, rfl, rfl, rfl, rfl⟩
  · exact ⟨fun _ _ => rfl, rfl, rfl, rfl, rfl⟩

theorem keepsWork_setPkg (p : PkgState) : KeepsWork h (setPkg h p) := by
  have entered : KeepsWork h { h with pkg := p } := ⟨fun _ _ => rfl, rfl, rfl, rfl, rfl⟩
  unfold setPkg
  split_ifs
  · exact .refl h
  · exact entered.trans (keepsWork_sendMsix _ (by decide))

theorem keepsWork_setPower (p : PkgState) : KeepsWork h (setPower h p) :=
  (keepsWork_setReg h (by simp only [steadyReg]; omega) _).trans (keepsWork_setPkg ..)

theorem dropColls_of_empty {h : Hw} (empty : h.colls = []) : dropColls h = h := by simp [dropColls, empty]

theorem keepsWork_resign (empty : h.colls = []) (serial : Quad) : KeepsWork h (resign serial h) := by
  unfold resign
  split_ifs
  · exact .refl h
  · rw [dropColls_of_empty empty]
    exact (keepsWork_leavePorts h empty ..).trans ((keepsWork_logErr _ (by simp)).trans (keepsWork_setPower ..))

theorem resign_pkg {h : Hw} (off : h.pkg ≠ .off) (aux : h.pkg ≠ .aux) (serial : Quad) :
    (resign serial h).pkg = .resigned := by
  unfold resign
  split_ifs with idle
  · simpa [off, aux] using idle
  · exact setPkg_pkg ..

/-! Lend windows -/

theorem gibKeys_ne_nil (g : Nat) : gibKeys h g ≠ [] := by
  unfold gibKeys
  split <;> simp

/-- Whether any memory is lent rests on the lend windows alone. -/
theorem lentKeys_eq_nil_iff : lentKeys h = [] ↔ ∀ w < 8, bit (getReg h (0x161040 + 4 * w)) 31 = true →
    ∀ i < fld (getReg h (0x161040 + 4 * w)) 23 12, 2304 ≤ fld (getReg h (0x161040 + 4 * w)) 11 0 + i := by
  simp only [lentKeys, List.flatMap_eq_nil_iff, List.mem_range]
  refine forall₂_congr fun w _ => ?_
  split_ifs with b
  · simp only [b, true_imp_iff, List.flatMap_eq_nil_iff, List.mem_range, ite_eq_right_iff, gibKeys_ne_nil,
      imp_false, not_lt]
  · simp [b]

theorem KeepsStored.lentKeys_nil {h h' : Hw} (k : KeepsStored h h') (unlent : lentKeys h = []) : lentKeys h' = [] := by
  rw [lentKeys_eq_nil_iff] at unlent ⊢
  intro w l
  rw [k.reg _ (.inl (by omega))]
  exact unlent w l

/-! Restart (Table 19-4) -/

theorem restart_slots (keep : Bool) : (restart keep h).slots = [] := by rw [restart, freeKeys_eq]; rfl
theorem restart_colls (keep : Bool) : (restart keep h).colls = [] := by rw [restart, freeKeys_eq]; rfl
theorem restart_sec (keep : Bool) : (restart keep h).sec = { h.sec with halted := false } := by
  rw [restart, freeKeys_eq]

theorem restart_tile (keep : Bool) (a : Nat) : (restart keep h).mem.read .tile a = 0 := by
  rw [restart, read_freeKeys_ne (by decide)]
  rfl

/-- Marks that a filter on spaces keeps are found as before, and those it drops are not. -/
theorem find?_hits_filter (p : FreeRange → Bool) (rs : List FreeRange) (sp : Space) (a : Nat) (b : Bool)
    (on : ∀ r : FreeRange, r.space = sp → p r = b) :
    (rs.filter p).find? (fun r => r.hits sp a) = if b = true then rs.find? (fun r => r.hits sp a) else none := by
  have same (r : FreeRange) : decide (p r = true ∧ r.hits sp a = true) = (b && r.hits sp a) := by
    by_cases e : r.space = sp
    · simp [on r e]
    · simp [FreeRange.hits, e]
  rw [List.find?_filter, funext same]
  cases b <;> simp

theorem restart_flash (keep : Bool) (a : Nat) : (restart keep h).mem.read .flash a = h.mem.read .flash a := by
  have marks := find?_hits_filter (fun r => decide (r.space = .host) || decide (r.space = .flash)) h.mem.free
    .flash a true (by simp +contextual)
  rw [restart, read_freeKeys_ne (by decide)]
  simp only [Mem.read, freeDraw_eq, Mem.marks, Mem.cells, reduceCtorEq, if_false, marks, if_true]

theorem restart_hbm (keep : Bool) (unlent : lentKeys h = []) (a : Nat) : (restart keep h).mem.read .hbm a = 0 := by
  have marks := find?_hits_filter (fun r => decide (r.space = .host) || decide (r.space = .flash)) h.mem.free
    .hbm a false (by simp +contextual)
  rw [restart, unlent]
  simp only [freeKeys, List.foldl_nil, Mem.read, freeDraw_eq, Mem.marks, Mem.cells, reduceCtorEq, if_false, marks,
    Bool.false_eq_true, Option.map_none]
  rfl

end Sys2Proof.Machine
end

section
/-! PROOFS. The boot of the auxiliary domain: what each of its steps changes (R392, R393, R450). -/

namespace Sys2Proof.Machine

/-! Registers alone -/

/-- Only registers change, and none of them outside a set. -/
structure OnlyRegsIn (p : Nat → Prop) (h h' : Hw) : Prop where
  reg : ∀ o, ¬ p o → getReg h' o = getReg h o
  rest : h' = { h with regs := h'.regs, freeRegs := h'.freeRegs }

theorem OnlyRegsIn.refl (p : Nat → Prop) (h : Hw) : OnlyRegsIn p h h := ⟨fun _ _ => rfl, rfl⟩

theorem OnlyRegsIn.trans {p : Nat → Prop} {h g k : Hw} (a : OnlyRegsIn p h g) (b : OnlyRegsIn p g k) :
    OnlyRegsIn p h k :=
  ⟨fun o n => (b.reg o n).trans (a.reg o n), by rw [b.rest, a.rest]⟩

theorem OnlyRegsIn.setReg {p : Nat → Prop} {o : Nat} (i : p o) (h : Hw) (v : Word) : OnlyRegsIn p h (setReg h o v) :=
  ⟨fun _ n => getReg_setReg_ne h v fun e => n (e ▸ i), rfl⟩

theorem OnlyRegsIn.foldl {α : Type} {p : Nat → Prop} {f : Hw → α → Hw} {xs : List α}
    (step : ∀ x ∈ xs, ∀ h, OnlyRegsIn p h (f h x)) (h : Hw) : OnlyRegsIn p h (xs.foldl f h) :=
  List.foldlRecOn xs f (motive := OnlyRegsIn p h) (.refl p h) fun g k x m => k.trans (step x m g)

theorem OnlyRegsIn.setStale {p : Nat → Prop} {h h' : Hw} (k : OnlyRegsIn p h h') :
    OnlyRegsIn p (setStale h) (setStale h') := ⟨k.reg, by rw [k.rest]; rfl⟩

variable (h : Hw)

/-! The boot (R450 steps 1 and 2) -/

/-- The registers of the security block. -/
def inSec (o : Nat) : Prop := 0x800000 ≤ o ∧ o < 0x810000

/-- The registers of the power block. -/
def inPower (o : Nat) : Prop := 0x400000 ≤ o ∧ o < 0x410000

theorem rSec_inSec {r : Nat} (l : r < 0x10000) : inSec (rSec r) := by
  simp only [inSec, rSec, regOf, baseOf]; omega

theorem rPwr_inPower {r : Nat} (l : r < 0x10000) : inPower (rPwr r) := by
  simp only [inPower, rPwr, regOf, baseOf]; omega

theorem bootRegs_onlyRegs (meas pub : List Byte) : OnlyRegsIn inSec h (bootRegs h meas pub) := by
  refine (OnlyRegsIn.foldl (fun i m g => .setReg (rSec_inSec ?_) g _) h).trans
    (OnlyRegsIn.foldl (fun i m g => .setReg (rSec_inSec ?_) g _) _) <;>
  · have := List.mem_range.mp m
    omega

/-- Firmware verification changes registers of the security block, what is known of the firmware, two pins and whether
the position digest is stale; the firmware is verified exactly where the image of a slot is (R393). -/
theorem verifyFirmware_frame (f : Fuses) : ∃ g : Hw, OnlyRegsIn inSec g (verifyFirmware f h) ∧
    g = { h with sec := g.sec, pins := g.pins, fabric := g.fabric } ∧
    g.sec = { h.sec with verified := decide (imageCause f h 0 = 0 ∨ imageCause f h 1 = 0), fwMeas := g.sec.fwMeas,
                         idPriv := g.sec.idPriv, aliasPriv := g.sec.aliasPriv } ∧
    g.pins = { h.pins with faultN := g.pins.faultN, ospiReleased := g.pins.ospiReleased } := by
  unfold verifyFirmware
  extract_lets c0 c1 svn boot oks meas keys sec pins booted halted
  split_ifs with ok
  · refine ⟨setStale booted,
      .setStale ((OnlyRegsIn.setReg (rSec_inSec (by decide)) _ _).trans (bootRegs_onlyRegs ..)), rfl, ?_, rfl⟩
    rw [decide_eq_true ok, setStale]
  · refine ⟨halted, (OnlyRegsIn.setReg (rSec_inSec (by decide)) _ _).trans (bootRegs_onlyRegs ..), rfl, ?_, rfl⟩
    rw [decide_eq_false ok]

theorem calRegs_bound : ∀ r ∈ calRegs, r.1 < 0x10000 ∧ r.2 < 0x10000 := by
  simp only [calRegs, List.mem_append, List.mem_map, List.mem_range]
  rintro r (((⟨d, l, rfl⟩ | ⟨d, l, rfl⟩) | ⟨d, l, rfl⟩) | ⟨d, l, rfl⟩) <;> dsimp only <;> omega

theorem calCommitHw_onlyRegs : OnlyRegsIn inPower h (calCommitHw h) := by
  unfold calCommitHw
  split_ifs
  · exact .setReg (rPwr_inPower (by decide)) h _
  · exact OnlyRegsIn.foldl (fun r m g => .setReg (rPwr_inPower (calRegs_bound r m).2) g _) h

theorem loadCalPage_onlyRegs : OnlyRegsIn inPower h (loadCalPage h) := by
  unfold loadCalPage
  extract_lets pick
  clear_value pick
  cases pick with
  | none => exact .setReg (rPwr_inPower (by decide)) h _
  | some c =>
    refine (OnlyRegsIn.foldl (fun i m g => .setReg (rPwr_inPower ?_) g _) h).trans (calCommitHw_onlyRegs _)
    have l := List.mem_range.mp m
    rw [List.getD_eq_getElem _ _ l]
    exact (calRegs_bound _ (List.getElem_mem l)).1

end Sys2Proof.Machine
end

section
/-! PROOFS. What every step of the boot keeps, what it says of the firmware, and CONV_STATUS. -/

namespace Sys2Proof.Machine

/-- The kind of the last reset, as RST_STATUS reports it. -/
def resetKind (h : Hw) : Nat := regFld h rRstStatus 31 24

/-- What every step of the boot leaves: the package state, a start that is to come, memory, commands and collectives, the
key stores, the supplies, the drive of PKG_RESET_N and the kind of the reset. -/
structure BootKeeps (h h' : Hw) : Prop where
  pkg : h'.pkg = h.pkg
  starting : h'.starting = h.starting
  mem : h'.mem = h.mem
  slots : h'.slots = h.slots
  colls : h'.colls = h.colls
  linkKeys : h'.sec.linkKeys = h.sec.linkKeys
  egressKeys : h'.sec.egressKeys = h.sec.egressKeys
  supplies : h'.supplies = h.supplies
  driven : h'.pins.pkgResetDriven = h.pins.pkgResetDriven
  kind : resetKind h' = resetKind h

theorem BootKeeps.refl (h : Hw) : BootKeeps h h := ⟨rfl, rfl, rfl, rfl, rfl, rfl, rfl, rfl, rfl, rfl⟩

theorem BootKeeps.trans {h g k : Hw} (a : BootKeeps h g) (b : BootKeeps g k) : BootKeeps h k :=
  ⟨b.pkg.trans a.pkg, b.starting.trans a.starting, b.mem.trans a.mem, b.slots.trans a.slots, b.colls.trans a.colls,
    b.linkKeys.trans a.linkKeys, b.egressKeys.trans a.egressKeys, b.supplies.trans a.supplies, b.driven.trans a.driven,
    b.kind.trans a.kind⟩

theorem OnlyRegsIn.sec {p : Nat → Prop} {h h' : Hw} (k : OnlyRegsIn p h h') : h'.sec = h.sec := by rw [k.rest]

theorem OnlyRegsIn.bringStep {p : Nat → Prop} {h h' : Hw} (k : OnlyRegsIn p h h') :
    h'.bringStep = h.bringStep := by rw [k.rest]

/-- Registers other than RST_STATUS alone. -/
theorem OnlyRegsIn.bootKeeps {p : Nat → Prop} {h h' : Hw} (k : OnlyRegsIn p h h') (n : ¬ p rRstStatus) :
    BootKeeps h h' := by
  have kind : resetKind h' = resetKind h := by rw [resetKind, resetKind, regFld, k.reg _ n, regFld]
  constructor
  case kind => exact kind
  all_goals rw [k.rest]

theorem not_inSec_rRstStatus : ¬ inSec rRstStatus := by simp only [inSec, rRstStatus, regOf, baseOf]; omega
theorem not_inPower_rRstStatus : ¬ inPower rRstStatus := by simp only [inPower, rRstStatus, regOf, baseOf]; omega

variable (f : Fuses) (h : Hw)

theorem resetKind_setKind {k : Nat} (l : k < 256) : resetKind (setKind h k) = k := by
  rw [resetKind, setKind, regFld, setRegFld, getReg_setReg_self]
  exact fld_setFld _ _ _ _ (by decide) l

theorem resetKind_setStep (n : Nat) : resetKind (setStep h n) = resetKind h := by
  rw [resetKind, setStep, regFld, setRegFld, getReg_setReg_self]
  exact fld_setFld_other _ _ _ _ _ _ (by decide)

@[simp] theorem setKind_pkg (k : Nat) : (setKind h k).pkg = h.pkg := rfl
@[simp] theorem setKind_pins (k : Nat) : (setKind h k).pins = h.pins := rfl
@[simp] theorem setKind_supplies (k : Nat) : (setKind h k).supplies = h.supplies := rfl
@[simp] theorem setKind_mem (k : Nat) : (setKind h k).mem = h.mem := rfl

@[simp] theorem setStep_sec (n : Nat) : (setStep h n).sec = h.sec := rfl
@[simp] theorem setStep_bringStep (n : Nat) : (setStep h n).bringStep = n := rfl

theorem bootKeeps_setStep (n : Nat) : BootKeeps h (setStep h n) :=
  ⟨rfl, rfl, rfl, rfl, rfl, rfl, rfl, rfl, rfl, resetKind_setStep ..⟩

theorem bootKeeps_bootOne : BootKeeps h (bootOne f h) :=
  ((OnlyRegsIn.setReg (p := (· = 0x100)) rfl h _).bootKeeps (by decide)).trans (bootKeeps_setStep ..)

theorem bootKeeps_verifyFirmware : BootKeeps h (verifyFirmware f h) := by
  obtain ⟨g, regs, hg, hsec, hpins⟩ := verifyFirmware_frame h f
  refine BootKeeps.trans (g := g) ?_ (regs.bootKeeps not_inSec_rRstStatus)
  rw [hg, hsec, hpins]
  exact ⟨rfl, rfl, rfl, rfl, rfl, rfl, rfl, rfl, rfl, rfl⟩

theorem bootKeeps_bootTwo : BootKeeps h (bootTwo h) := by
  unfold bootTwo
  split_ifs
  · exact ((loadCalPage_onlyRegs h).bootKeeps not_inPower_rRstStatus).trans (bootKeeps_setStep ..)
  · exact .refl h

theorem bootKeeps_boot : BootKeeps h (boot f h) :=
  (bootKeeps_bootOne ..).trans ((bootKeeps_verifyFirmware ..).trans (bootKeeps_bootTwo _))

theorem verifyFirmware_verified :
    (verifyFirmware f h).sec.verified = decide (imageCause f h 0 = 0 ∨ imageCause f h 1 = 0) := by
  obtain ⟨g, regs, -, hsec, -⟩ := verifyFirmware_frame h f
  rw [regs.rest, hsec]

theorem verifyFirmware_bringStep : (verifyFirmware f h).bringStep = h.bringStep := by
  obtain ⟨g, regs, hg, -, -⟩ := verifyFirmware_frame h f
  rw [regs.rest, hg]

theorem bootTwo_sec : (bootTwo h).sec = h.sec := by
  unfold bootTwo
  split_ifs
  · rw [setStep_sec, (loadCalPage_onlyRegs h).sec]
  · rfl

theorem bootTwo_bringStep : (bootTwo h).bringStep = if h.sec.verified then 2 else h.bringStep := by
  unfold bootTwo
  split_ifs
  · exact setStep_bringStep ..
  · rfl

/-- Verification reads flash alone. -/
theorem imageCause_congr {h h' : Hw} (mem : h'.mem = h.mem) (slot : Nat) :
    imageCause f h' slot = imageCause f h slot := by
  have flash : imageCause f h' slot = imageCause f { h with mem := h'.mem } slot := rfl
  rw [flash, mem]

theorem boot_verified : (boot f h).sec.verified = decide (imageCause f h 0 = 0 ∨ imageCause f h 1 = 0) := by
  have read := imageCause_congr f (bootKeeps_bootOne f h).mem
  rw [boot, bootTwo_sec, verifyFirmware_verified, read, read]

theorem boot_bringStep : (boot f h).bringStep = if (boot f h).sec.verified then 2 else 1 := by
  rw [boot, bootTwo_bringStep, bootTwo_sec, verifyFirmware_bringStep]
  rfl

/-! VIN in CONV_STATUS -/

theorem vinFlags_onlyRegs (mv : Nat) :
    OnlyRegsIn inPower { h with supplies := { h.supplies with vinMv := mv } } (vinFlags h mv) :=
  (OnlyRegsIn.setReg (rPwr_inPower (by decide)) _ _).trans <|
    (OnlyRegsIn.setReg (rPwr_inPower (by decide)) _ _).trans (OnlyRegsIn.setReg (rPwr_inPower (by decide)) _ _)

theorem getReg_vinFlags_vin (mv : Nat) : getReg (vinFlags h mv) (rPwr 0x10) = BitVec.ofNat 32 mv := by
  simp only [vinFlags, setRegBit]
  rw [getReg_setReg_ne _ _ (by decide), getReg_setReg_ne _ _ (by decide), getReg_setReg_self]

@[simp] theorem vinFlags_pkg (mv : Nat) : (vinFlags h mv).pkg = h.pkg := by rw [(vinFlags_onlyRegs h mv).rest]
@[simp] theorem vinFlags_pins (mv : Nat) : (vinFlags h mv).pins = h.pins := by rw [(vinFlags_onlyRegs h mv).rest]
@[simp] theorem vinFlags_mem (mv : Nat) : (vinFlags h mv).mem = h.mem := by rw [(vinFlags_onlyRegs h mv).rest]

end Sys2Proof.Machine
end

section
/-! PROOFS. Warm resets (R455, R456): O42. -/

namespace Sys2Proof.Machine

variable (f : Fuses) (h : Hw)

/-- What a warm reset of kind k at h leaves, however its start goes on: no command, no collective, empty stores of the
tiles and of HBM where none of it was lent, the flash, the key stores, and its kind in RST_STATUS. -/
structure WarmCleared (h : Hw) (k : Nat) (h' : Hw) : Prop where
  slots : h'.slots = []
  colls : h'.colls = []
  hbm : lentKeys h = [] → ∀ a, h'.mem.read .hbm a = 0
  tile : ∀ a, h'.mem.read .tile a = 0
  flash : ∀ a, h'.mem.read .flash a = h.mem.read .flash a
  linkKeys : h'.sec.linkKeys = h.sec.linkKeys
  egressKeys : h'.sec.egressKeys = h.sec.egressKeys
  kind : resetKind h' = k

theorem WarmCleared.of_bootKeeps {h g g' : Hw} {k : Nat} (c : WarmCleared h k g) (b : BootKeeps g g') :
    WarmCleared h k g' where
  slots := b.slots.trans c.slots
  colls := b.colls.trans c.colls
  hbm := b.mem ▸ c.hbm
  tile := b.mem ▸ c.tile
  flash := b.mem ▸ c.flash
  linkKeys := b.linkKeys.trans c.linkKeys
  egressKeys := b.egressKeys.trans c.egressKeys
  kind := b.kind.trans c.kind

theorem WarmCleared.of_keepsWork {h g g' : Hw} {k : Nat} (c : WarmCleared h k g) (w : KeepsWork g g') :
    WarmCleared h k g' where
  slots := w.slots.trans c.slots
  colls := w.colls.trans c.colls
  hbm := w.mem ▸ c.hbm
  tile := w.mem ▸ c.tile
  flash := w.mem ▸ c.flash
  linkKeys := w.sec ▸ c.linkKeys
  egressKeys := w.sec ▸ c.egressKeys
  kind := by rw [resetKind, regFld, w.reg rRstStatus (.inr (.inr rfl))]; exact c.kind

theorem WarmCleared.with_pins {h g : Hw} {k : Nat} (c : WarmCleared h k g) (p : Pins) :
    WarmCleared h k { g with pins := p } :=
  ⟨c.slots, c.colls, c.hbm, c.tile, c.flash, c.linkKeys, c.egressKeys, c.kind⟩

/-- The hardware of a warm reset once its lines, its QUIET cells and the restart are over, PKG_RESET_N driven. -/
def warmEmptied (c : WarmCause) (h : Hw) : Hw :=
  let r := restart true (leavePorts (agentReset (c = .perst) h) f.serial 12)
  { r with pins := { r.pins with pkgResetDriven := true, faultN := false } }

/-- The hardware of a warm reset after step 1 of its bring-up. -/
def warmStepOne (c : WarmCause) (h : Hw) : Hw :=
  bootOne f (setKind (setPkg (warmEmptied f c h) .bringup) (warmKind c))

/-- A package that works or starts goes through step 1 and on, or resigns where its castle fails stage 1 of R30. -/
theorem warmHw_of_live {h : Hw} (off : h.pkg ≠ .off) (resigned : h.pkg ≠ .resigned) (aux : h.pkg ≠ .aux)
    (c : WarmCause) (obs : BringUpObs) : warmHw f c obs h =
      if stageOne f then
        warmStart f obs (regBit (leavePorts (agentReset (c = .perst) h) f.serial 12) (regOf .err 0x104) 1)
          (warmStepOne f c h)
      else
        resign f.serial
          { warmStepOne f c h with pins := { (warmStepOne f c h).pins with pkgResetDriven := false } } := by
  simp only [warmHw, off, resigned, aux, or_self, if_false]
  rfl

theorem warmHw_of_idle {h : Hw} (idle : h.pkg = .off ∨ h.pkg = .resigned) (c : WarmCause) (obs : BringUpObs) :
    warmHw f c obs h = h := if_pos idle

theorem keepsStored_warmEntry (perst : Bool) : KeepsStored h (leavePorts (agentReset perst h) f.serial 12) :=
  (keepsStored_agentReset ..).trans (keepsStored_leavePorts ..)

theorem warmKind_lt (c : WarmCause) : warmKind c < 256 := by cases c <;> decide

theorem warmEmptied_sec {h g : Hw} (k : KeepsStored h g) (c : WarmCause) :
    (warmEmptied f c g).sec = { h.sec with halted := false } :=
  (restart_sec ..).trans (by rw [(k.trans (keepsStored_warmEntry f g (c = .perst))).sec])

theorem warmStepOne_cleared {h g : Hw} (k : KeepsStored h g) (c : WarmCause) :
    WarmCleared h (warmKind c) (warmStepOne f c g) := by
  have entry := k.trans (keepsStored_warmEntry f g (c = .perst))
  have work := keepsWork_setPkg (warmEmptied f c g) .bringup
  refine WarmCleared.of_bootKeeps ?_ (bootKeeps_bootOne f _)
  constructor
  case kind => exact resetKind_setKind _ (warmKind_lt c)
  case slots => exact work.slots.trans (restart_slots ..)
  case colls => exact work.colls.trans (restart_colls ..)
  case linkKeys => exact (congrArg SecAux.linkKeys work.sec).trans (by rw [warmEmptied_sec f k c])
  case egressKeys => exact (congrArg SecAux.egressKeys work.sec).trans (by rw [warmEmptied_sec f k c])
  case hbm =>
    intro unlent a
    exact (congrArg (Mem.read · .hbm a) work.mem).trans (restart_hbm _ _ (entry.lentKeys_nil unlent) a)
  case tile => exact fun a => (congrArg (Mem.read · .tile a) work.mem).trans (restart_tile ..)
  case flash => exact fun a =>
    (congrArg (Mem.read · .flash a) work.mem).trans ((restart_flash ..).trans (entry.flash a))

theorem warmStepOne_pkg (c : WarmCause) : (warmStepOne f c h).pkg = .bringup :=
  (bootKeeps_bootOne ..).pkg.trans (setPkg_pkg ..)

theorem warmStepOne_bringStep (c : WarmCause) : (warmStepOne f c h).bringStep = 1 := rfl

theorem warmStepOne_driven (c : WarmCause) : (warmStepOne f c h).pins.pkgResetDriven = true := by
  refine (bootKeeps_bootOne ..).driven.trans ?_
  show (setPkg (warmEmptied f c h) .bringup).pins.pkgResetDriven = true
  rw [setPkg_frame]
  rfl

/-- After step 1, firmware that verifies lets the bring-up go on from step 2 with its start to come. -/
theorem warmStart_of_verified {h : Hw} (v : (verifyFirmware f h).sec.verified = true) (obs : BringUpObs) (test : Bool) :
    (warmStart f obs test h).sec.verified = true ∧ (warmStart f obs test h).pkg = h.pkg ∧
    (warmStart f obs test h).bringStep = 2 ∧
    (warmStart f obs test h).pins.pkgResetDriven = h.pins.pkgResetDriven ∧
    (warmStart f obs test h).starting = some (obs, test) := by
  have booted := (bootKeeps_verifyFirmware f h).trans (bootKeeps_bootTwo _)
  have verified : (bootTwo (verifyFirmware f h)).sec.verified = true := by rw [bootTwo_sec, v]
  have step : (bootTwo (verifyFirmware f h)).bringStep = 2 := by rw [bootTwo_bringStep, if_pos v]
  unfold warmStart
  generalize bootTwo (verifyFirmware f h) = b at booted verified step
  dsimp only
  rw [if_pos verified]
  have flags := vinFlags_onlyRegs
    { b with starting := some (obs, test), supplies := { b.supplies with refclkSys := obs.refclk } } b.supplies.vinMv
  have kept := flags.bootKeeps not_inPower_rRstStatus
  exact ⟨flags.sec ▸ verified, kept.pkg.trans booted.pkg, flags.bringStep.trans step,
    kept.driven.trans booted.driven, kept.starting⟩

/-- Without it the package halts in AUX with its converters stopped (log 38). -/
theorem warmStart_of_unverified {h : Hw} (v : (verifyFirmware f h).sec.verified = false) (obs : BringUpObs)
    (test : Bool) :
    (warmStart f obs test h).sec.verified = false ∧ (warmStart f obs test h).pkg = .aux ∧
    (warmStart f obs test h).supplies.converters = false ∧ (warmStart f obs test h).bringStep = h.bringStep := by
  have verified : (bootTwo (verifyFirmware f h)).sec.verified = false := by rw [bootTwo_sec, v]
  have step : (bootTwo (verifyFirmware f h)).bringStep = h.bringStep := by
    rw [bootTwo_bringStep, v, if_neg (by decide), verifyFirmware_bringStep]
  unfold warmStart
  generalize bootTwo (verifyFirmware f h) = b at verified step
  dsimp only
  rw [if_neg (by simp [verified]), setPkg_frame]
  exact ⟨verified, rfl, rfl, step⟩

theorem warmStart_cleared {h g : Hw} {k : Nat} (c : WarmCleared h k g) (obs : BringUpObs) (test : Bool) :
    WarmCleared h k (warmStart f obs test g) := by
  have booted := c.of_bootKeeps ((bootKeeps_verifyFirmware f g).trans (bootKeeps_bootTwo _))
  unfold warmStart
  generalize bootTwo (verifyFirmware f g) = b at booted
  obtain ⟨slots, colls, hbm, tile, flash, link, egress, kind⟩ := booted
  dsimp only
  split_ifs
  · refine .of_bootKeeps ?_ ((vinFlags_onlyRegs _ _).bootKeeps not_inPower_rRstStatus)
    exact ⟨slots, colls, hbm, tile, flash, link, egress, kind⟩
  · refine .of_keepsWork ?_ (keepsWork_setPkg ..)
    exact ⟨slots, colls, hbm, tile, flash, link, egress, kind⟩

section
variable {h g : Hw} (k : KeepsStored h g) (off : g.pkg ≠ .off) (resigned : g.pkg ≠ .resigned) (aux : g.pkg ≠ .aux)
include off resigned aux

/-- Where the castle fails its first check, the package resigns (log 86). -/
theorem warmHw_resigns (castle : stageOne f = false) (c : WarmCause) (obs : BringUpObs) :
    (warmHw f c obs g).pkg = .resigned := by
  have pkg := warmStepOne_pkg f g c
  rw [warmHw_of_live f off resigned aux, castle, if_neg (by decide)]
  exact resign_pkg (h := { warmStepOne f c g with pins := _ }) (by simp [pkg]) (by simp [pkg]) _

include k

/-- Whatever its castle and its firmware show, a warm reset of a live package clears it. -/
theorem warmHw_cleared (c : WarmCause) (obs : BringUpObs) : WarmCleared h (warmKind c) (warmHw f c obs g) := by
  have one := warmStepOne_cleared f k c
  rw [warmHw_of_live f off resigned aux]
  split_ifs
  · exact warmStart_cleared f one obs _
  · have parted := one.with_pins { (warmStepOne f c g).pins with pkgResetDriven := false }
    exact parted.of_keepsWork (keepsWork_resign _ parted.colls f.serial)

/-- RST_CFG, which says whether the self-test runs, is read before the restart, and is as it was. -/
theorem warmHw_of_castle (castle : stageOne f = true) (c : WarmCause) (obs : BringUpObs) :
    warmHw f c obs g = warmStart f obs (regBit h (regOf .err 0x104) 1) (warmStepOne f c g) := by
  have entry := k.trans (keepsStored_warmEntry f g (c = .perst))
  rw [warmHw_of_live f off resigned aux, if_pos castle, regBit, entry.reg (regOf .err 0x104) (.inr (.inl rfl)), regBit]

/-- Where the castle passes and the firmware verifies, the bring-up is at step 2. -/
theorem warmHw_starts (castle : stageOne f = true) (c : WarmCause) (obs : BringUpObs)
    (v : (warmHw f c obs g).sec.verified = true) :
    (warmHw f c obs g).pkg = .bringup ∧ (warmHw f c obs g).bringStep = 2 ∧
    (warmHw f c obs g).pins.pkgResetDriven = true ∧
    (warmHw f c obs g).starting = some (obs, regBit h (regOf .err 0x104) 1) := by
  rw [warmHw_of_castle f k off resigned aux castle] at v ⊢
  cases firmware : (verifyFirmware f (warmStepOne f c g)).sec.verified
  · simp [(warmStart_of_unverified f firmware obs _).1] at v
  · obtain ⟨-, pkg, step, driven, start⟩ := warmStart_of_verified f firmware obs (regBit h (regOf .err 0x104) 1)
    exact ⟨pkg.trans (warmStepOne_pkg ..), step, driven.trans (warmStepOne_driven ..), start⟩

/-- Where the castle passes and no firmware verifies, the package halts in AUX (log 38). -/
theorem warmHw_halts (castle : stageOne f = true) (c : WarmCause) (obs : BringUpObs)
    (v : (warmHw f c obs g).sec.verified = false) :
    (warmHw f c obs g).pkg = .aux ∧ (warmHw f c obs g).supplies.converters = false ∧
    (warmHw f c obs g).bringStep = 1 := by
  rw [warmHw_of_castle f k off resigned aux castle] at v ⊢
  cases firmware : (verifyFirmware f (warmStepOne f c g)).sec.verified
  · obtain ⟨-, pkg, converters, step⟩ := warmStart_of_unverified f firmware obs (regBit h (regOf .err 0x104) 1)
    exact ⟨pkg, converters, step.trans (warmStepOne_bringStep ..)⟩
  · simp [(warmStart_of_verified f firmware obs _).1] at v

end

theorem effect_warmReset (s : State) (c : WarmCause) (obs : BringUpObs) :
    effect (.warmReset c obs) s (warmHw s.fuses c obs s.hw) := rfl

theorem effect_perstN (s : State) (assert_ : Bool) (obs : BringUpObs) :
    effect (.perstN assert_ obs) s (perstHw s.fuses assert_ obs s.hw) := rfl

theorem effect_pkgResetN (s : State) (ns : Nat) (obs : BringUpObs) :
    effect (.pkgResetN ns obs) s (pkgResetHw s.fuses ns obs s.hw) := rfl

/-- A fresh assertion of PERST_N without PERST_SOFT is a warm reset. -/
theorem perstHw_of_hard {h : Hw} (up : h.pins.perst = false) (hard : regBit h (regOf .err 0x104) 0 = false)
    (obs : BringUpObs) :
    perstHw f true obs h = warmHw f .perst obs { h with pins := { h.pins with perst := true } } := by
  have hard' : regBit { h with pins := { h.pins with perst := true } } (regOf .err 0x104) 0 = false := hard
  simp [perstHw, up, hard']

/-- A board's low of at least 1 µs on a line that the package does not drive is a warm reset. -/
theorem pkgResetHw_of_long {h : Hw} {ns : Nat} (long : 1000 ≤ ns) (undriven : h.pins.pkgResetDriven = false)
    (obs : BringUpObs) : pkgResetHw f ns obs h =
      warmHw f .pkgReset obs { h with pins := { h.pins with pkgResetHeld := decide (0 < ns) } } :=
  if_pos ⟨long, by simp [undriven]⟩

theorem pkgResetHw_of_short {h : Hw} {ns : Nat} (short : ns < 1000 ∨ h.pins.pkgResetDriven = true)
    (obs : BringUpObs) :
    pkgResetHw f ns obs h = { h with pins := { h.pins with pkgResetHeld := decide (0 < ns) } } := by
  refine if_neg fun ⟨long, undriven⟩ => ?_
  rcases short with short | driven
  · omega
  · simp [driven] at undriven

/-- Settles O42: each cause leads to `warmHw` at pins of its own, and the lemmas on it hold for every pins. -/
theorem warmResetStartsAgain : Obligations.WarmResetStartsAgain := by
  intro s obs live done
  have pinsOnly (p : Pins) : KeepsStored s.hw { s.hw with pins := p } := ⟨fun _ _ => rfl, fun _ => rfl, rfl⟩
  have warm (c : WarmCause) (l : live) (p : Pins) :
      done (warmKind c) (warmHw s.fuses c obs { s.hw with pins := p }) := by
    obtain ⟨off, resigned, aux⟩ := l
    have k := pinsOnly p
    obtain ⟨slots, colls, hbm, tile, flash, link, egress, kind⟩ := warmHw_cleared s.fuses k off resigned aux c obs
    exact ⟨slots, colls, hbm, tile, flash, link, egress, kind,
      fun castle v => warmHw_starts s.fuses k off resigned aux castle c obs v,
      fun castle v => warmHw_halts s.fuses k off resigned aux castle c obs v,
      fun castle => warmHw_resigns s.fuses (g := { s.hw with pins := p }) off resigned aux castle c obs⟩
  refine ⟨?firmware, ?perst, ?perstN, ?pkgReset, ?short, ?idle⟩
  case firmware => exact fun l => ⟨_, effect_warmReset .., warm .firmware l s.hw.pins⟩
  case perst => exact fun l => ⟨_, effect_warmReset .., warm .perst l s.hw.pins⟩
  case perstN =>
    intro l up hard
    refine ⟨_, effect_perstN .., ?_⟩
    rw [perstHw_of_hard s.fuses up hard obs]
    exact warm .perst l _
  case pkgReset =>
    intro ns long undriven l
    refine ⟨_, effect_pkgResetN .., ?_⟩
    rw [pkgResetHw_of_long s.fuses long undriven obs]
    exact warm .pkgReset l _
  case short => exact fun ns short => pkgResetHw_of_short s.fuses short obs ▸ effect_pkgResetN ..
  case idle => exact fun c idle => warmHw_of_idle s.fuses idle c obs ▸ effect_warmReset ..

end Sys2Proof.Machine
end

section
/-! PROOFS. The supplies and the first stage (R424, R427): O43. -/

namespace Sys2Proof.Machine

variable (f : Fuses) (h : Hw)

/-- An early VIN owes a new ramp and sets VIN_EARLY; no other register and no memory changes. -/
theorem earlyVin_frame : (earlyVin h).supplies.needRamp = true ∧ regBit (earlyVin h) (rPwr 0x20) 3 = true ∧
    regsKept h (earlyVin h) [rPwr 0x20] ∧ (earlyVin h).mem = h.mem := by
  refine ⟨rfl, ?_, fun o n => ?_, rfl⟩
  · rw [earlyVin, regBit_setRegBit _ _ _ _ _ _ (by decide), if_pos ⟨rfl, rfl⟩]
  · exact getReg_setReg_ne _ _ (by simpa using n)

/-- PWR_GOOD_AUX is noted once VAUX is there, after what a VIN that stands already does. -/
theorem pwrGoodHw_of_first {h : Hw} (vaux : h.supplies.vaux = true) (on : h.pkg ≠ .off)
    (first : h.pins.pwrGoodAux = false) : pwrGoodHw h =
      let g := if 2000 ≤ h.supplies.vinMv then earlyVin h else h
      { g with supplies := { g.supplies with viom := true, vana := true }
               pins := { g.pins with pwrGoodAux := true } } :=
  if_pos ⟨vaux, on, by simp [first]⟩

/-- The first stage may start only so. -/
theorem mayStart_iff (mv : Nat) : mayStart h mv = true ↔ h.pkg = .aux ∧ h.pins.pwrGoodAux = true ∧ 34000 < mv ∧
    h.sec.verified = true ∧ h.supplies.needRamp = false := by
  simp [mayStart, and_assoc]

/-- The hardware as a start that may go on leaves it: step 3, with its converters running (R450). -/
def startedHw (mv : Nat) (obs : BringUpObs) (h : Hw) : Hw :=
  bringUp obs true (vinFlags (setKind (setPkg { h with
    supplies := { h.supplies with refclkSys := obs.refclk }
    pins := { h.pins with faultN := false, thermTripN := false } } .bringup) 1) mv)

theorem firstStageHw_of_start {h : Hw} {mv : Nat} {obs : BringUpObs} (may : mayStart h mv = true)
    (clk : obs.refclk = true) : firstStageHw f mv obs h =
      if stageOne f then startedHw mv obs h else resign f.serial (startedHw mv obs h) := by
  have aux := ((mayStart_iff h mv).mp may).1
  have may' : mayStart { h with supplies := { h.supplies with refclkSys := obs.refclk } } mv = true := may
  unfold firstStageHw
  rw [if_pos aux]
  exact if_pos ⟨may', clk⟩

theorem firstStageHw_of_not_start {h : Hw} {mv : Nat} {obs : BringUpObs}
    (no : mayStart h mv = false ∨ obs.refclk = false) :
    ∃ x : Supplies, firstStageHw f mv obs h = { h with supplies := x } ∧ x.converters = h.supplies.converters := by
  by_cases aux : h.pkg = .aux
  · refine ⟨{ h.supplies with refclkSys := obs.refclk, vinMv := mv }, ?_, rfl⟩
    have stays : ¬ (mayStart { h with supplies := { h.supplies with refclkSys := obs.refclk } } mv = true ∧
        obs.refclk = true) := by
      rintro ⟨may, clk⟩
      rcases no with no | no
      · exact absurd (no.symm.trans may) (by decide)
      · exact absurd (no.symm.trans clk) (by decide)
    unfold firstStageHw
    rw [if_pos aux]
    exact (if_neg stays).trans (if_pos aux)
  · refine ⟨h.supplies, ?_, rfl⟩
    unfold firstStageHw
    rw [if_neg aux]
    exact (if_neg fun m => aux ((mayStart_iff h mv).mp m.1).1).trans (if_neg aux)

/-- Step 3 from AUX, as R450 gives it. -/
theorem startedHw_frame (mv : Nat) (obs : BringUpObs) : let g := startedHw mv obs h
    g.pkg = .bringup ∧ g.bringStep = 3 ∧ g.starting = some (obs, true) ∧ g.supplies.converters = true ∧
    g.pins.pkgResetDriven = false ∧ g.pins.faultN = false ∧ g.pins.thermTripN = false ∧
    getReg g (rPwr 0x10) = BitVec.ofNat 32 mv ∧ g.mem = h.mem := by
  have vin : getReg (startedHw mv obs h) (rPwr 0x10) = BitVec.ofNat 32 mv :=
    (getReg_setReg_ne _ _ (by decide)).trans (getReg_vinFlags_vin _ mv)
  refine ⟨?_, rfl, rfl, rfl, rfl, ?_, ?_, vin, ?_⟩ <;>
    simp [startedHw, bringUp, setStep, setRegFld, setPkg_pkg]

theorem effect_vauxUp (s : State) : effect .vauxUp s (vauxUpHw s.fuses s.hw) := rfl
theorem effect_pwrGoodAux (s : State) : effect .pwrGoodAux s (pwrGoodHw s.hw) := rfl
theorem effect_vinEarly (s : State) : effect .vinEarly s (vinEarlyHw s.hw) := rfl
theorem effect_firstStageStart (s : State) (mv : Nat) (obs : BringUpObs) :
    effect (.firstStageStart mv obs) s (firstStageHw s.fuses mv obs s.hw) := rfl

theorem vauxUpHw_of_bare {h : Hw} (b : h.pkg = .off ∨ (h.pkg = .aux ∧ h.bringStep = 0)) : let g := vauxUpHw f h
    g.pkg = .aux ∧ g.supplies.vaux = true ∧ g.pins.pkgResetDriven = true ∧
    (g.sec.verified = true ↔ imageCause f h 0 = 0 ∨ imageCause f h 1 = 0) ∧
    g.bringStep = (if g.sec.verified = true then 2 else 1) ∧ g.mem = h.mem := by
  let e := setKind (setPkg { h with
    supplies := { h.supplies with vaux := true }, pins := { h.pins with pkgResetDriven := true } } .aux) 1
  have booted : vauxUpHw f h = boot f e := if_pos b
  have mem : e.mem = h.mem := by simp [e]
  have kept := bootKeeps_boot f e
  rw [booted]
  refine ⟨kept.pkg.trans (setPkg_pkg ..), ?_, ?_, ?_, boot_bringStep f e, kept.mem.trans mem⟩
  · simp [kept.supplies, e]
  · simp [kept.driven, e]
  · rw [boot_verified, imageCause_congr f mem, imageCause_congr f mem, decide_eq_true_iff]

/-- Settles O43: each supply event by its own equation. -/
theorem suppliesStartThePackage : Obligations.SuppliesStartThePackage := by
  intro s bare
  refine ⟨?vaux, ?booted, ?powerGood, ?early, fun mv obs => ⟨?resigns, ?starts, ?guard, ?stays⟩⟩
  case vaux => exact fun b => ⟨_, effect_vauxUp s, vauxUpHw_of_bare s.fuses b⟩
  case booted =>
    intro b
    have same : vauxUpHw s.fuses s.hw = s.hw := if_neg b
    exact same ▸ effect_vauxUp s
  case powerGood =>
    intro vaux on first
    refine ⟨_, effect_pwrGoodAux s, ?_⟩
    rw [pwrGoodHw_of_first vaux on first]
    refine ⟨rfl, rfl, rfl, fun low => ?_, fun high => ?_⟩
    · rw [if_neg (by omega)]
      exact ⟨rfl, rfl⟩
    · rw [if_pos high]
      exact earlyVin_frame s.hw
  case early =>
    intro aux first
    have noted : vinEarlyHw s.hw = earlyVin { s.hw with
        supplies := { s.hw.supplies with vinMv := max 2000 s.hw.supplies.vinMv } } := if_pos ⟨aux, by simp [first]⟩
    obtain ⟨ramp, flag, -, mem⟩ := noted ▸ earlyVin_frame _
    exact ⟨_, effect_vinEarly s, ramp, flag, mem⟩
  case resigns =>
    intro may clk castle
    refine ⟨_, effect_firstStageStart s mv obs, ?_⟩
    obtain ⟨pkg, -⟩ := startedHw_frame s.hw mv obs
    rw [firstStageHw_of_start s.fuses may clk, castle, if_neg (by decide)]
    exact resign_pkg (by simp [pkg]) (by simp [pkg]) _
  case starts =>
    intro may clk castle
    refine ⟨_, effect_firstStageStart s mv obs, ?_⟩
    rw [firstStageHw_of_start s.fuses may clk, if_pos castle]
    exact startedHw_frame s.hw mv obs
  case guard => exact (mayStart_iff s.hw mv).mp
  case stays =>
    intro no
    obtain ⟨x, same, converters⟩ := firstStageHw_of_not_start s.fuses no
    exact ⟨_, effect_firstStageStart s mv obs, by rw [same], by rw [same]; exact converters⟩

end Sys2Proof.Machine
end

section
/-! PROOFS. PREFETCH_STREAM and the copies staged at its end: O50. -/

namespace Sys2Proof.Machine

/-! A task whose opening command ends while a copy of its one entry cannot be read: the copy is made after the end of the
command (R247), its read meets a regime that is not enabled (R354), and the fault strikes the task, whose opening
command then stands suspended (R248). -/

namespace StagingFault

/-- PREFETCH_STREAM of task 9 with CREDIT_MAX 1 and STAGE_MASK tile 0. -/
def packet : List Byte :=
  leBytes 4 0x10014 ++ leBytes 8 0 ++ leBytes 4 9 ++ List.replicate 60 0 ++ leBytes 4 0x10000 ++ leBytes 24 1 ++
    List.replicate 24 0

/-- A package in READY in which tile 0 serves and no regime is enabled. -/
def package : Hw := setReg { Hw.reset with pkg := .ready, bringStep := 10 } (regOf (.tile 0) 4) 1

def opener : Cmd := { newCmd package 0 packet with phase := .running }

/-- A range of memory of which tile 0 gets a copy (kind 1: the entry itself has no units). -/
def entry : StreamEntry :=
  { kind := 1, src := 0x10000, dst := 0, obj := 0, bytes := 4096, after := 0, last := 0, stage := [0], units := 0 }

/-- The task is live, its schedule checked, and its one member is still to come. -/
def hw : Hw :=
  { package with slots := [(0, opener)], streams := [Stream.mk 9 0 0 1 [] true [entry] 0 none none false] }

def state : State := { State.reset with hw := hw }

/-- The hardware once the checks before the first unit are over; there is no unit. -/
def opened : Hw := (runOn (openWork 0 (streamWork 0 opener hw)) hw).2

/-- The hardware at the end of the command's work, before the copies are made. -/
def finished : Hw := finish opened 0 0 1 0

theorem opener_ready : ready hw 0 0x14 opener := by
  refine ⟨by decide +kernel, fun t => absurd t (by decide)⟩

theorem opener_served : served hw 0 opener = true := by decide +kernel

theorem schedule_checked : runOn (streamPre 0 opener) hw = (.ok (), hw) := rfl

/-- The command as its opening work leaves it. -/
def openedCmd : Cmd := (cmdAt opened 0).getD opener

theorem cmdAt_opened : cmdAt opened 0 = some openedCmd := by decide +kernel

theorem work_ends : workEnds 0 (streamWork 0 opener hw) opener hw 0 1 0 finished := by
  refine ⟨opened, opened, opened, openedCmd, openedCmd, openedCmd, rfl, cmdAt_opened, rfl,
    .none opened openedCmd cmdAt_opened (Nat.zero_le _), cmdAt_opened, rfl, cmdAt_opened, rfl⟩

/-- The read of the copy strikes the task, and its opening command is no longer finished. -/
theorem phase_staged :
    (cmdAt (perfRegs dmaPerf (opener.mask.filter (tileReady (stageLive finished))) (stageLive finished)) 0).map
      Cmd.phase = some .suspended := by decide +kernel

end StagingFault

open StagingFault in
/-- Refutes O50: PREFETCH_STREAM's end lets copies be staged, and a fault of such a copy's read strikes its own task,
which suspends the command that has just finished. -/
theorem not_workRunsInUnitsToItsEnd : ¬ Obligations.WorkRunsInUnitsToItsEnd := by
  rintro ⟨-, -, -, -, streams⟩
  obtain ⟨-, -, -, prefetch⟩ := streams 0 state opener 0 1 0 hw finished
  obtain ⟨_, _, rfl, rfl, -, c, at_, phase, -⟩ := prefetch opener_ready opener_served schedule_checked work_ends
  have suspended : some Phase.suspended = some c.phase := phase_staged.symm.trans (congrArg (Option.map Cmd.phase) at_)
  simp [phase] at suspended

end Sys2Proof.Machine
end

section
/-! PROOFS. The end of a command's work (R50): O8. -/

namespace Sys2Proof.Machine

variable {h : Hw} {slot st d0 d1 : Nat} {c : Cmd}

/-- Registers that a command's end leaves: all but TILE_STATUS and TILE_FREQ of its tiles. -/
theorem regsKept_finish (e : cmdAt h slot = some c) :
    regsKept (leaveOpen h slot c) (finish h slot st d0 d1) (tileStatuses c.tiles) := by
  intro o n
  simp only [tileStatuses, List.mem_append, List.mem_map, not_or, not_exists, not_and] at n
  rw [getReg_finish e]
  exact getReg_freeTiles _ _ _ fun t m => ⟨fun x => n.1 t m x.symm, fun x => n.2 t m x.symm⟩

theorem ended_finish (e : cmdAt h slot = some c) : ended (finish h slot st d0 d1) slot st d0 d1 :=
  ⟨c.finished st d0 d1, by rw [cmdAt_finish e, if_pos rfl], rfl, rfl, rfl, rfl⟩

/-- The end of a command, whole. -/
theorem endsOnly_finish (e : cmdAt h slot = some c) : endsOnly h (finish h slot st d0 d1) slot c st d0 d1 := by
  refine ⟨ended_finish e, fun k n => ?others, regsKept_finish e, fun t n => tileAux_finish e n,
    fun t m => tileAux_finish_mem e m, ?frame, fun b v => ?plain, leaveOpen_none⟩
  case others => rw [cmdAt_finish e, if_neg n]
  case frame => rw [finish_eq e]
  case plain => rw [leaveOpen_plain b v, notePast_eq]

theorem tileBusy_finish (e : cmdAt h slot = some c) {t : Nat} (m : t ∈ c.tiles) (l : t < 192) :
    tileBusy (finish h slot st d0 d1) t = false := by
  rw [tileBusy, regBit, getReg_finish e]
  exact tileBusy_freeTiles _ _ _ m l

/-- Settles O8, from the laws of `finish`. -/
theorem finishEndsTheCommand : Obligations.FinishEndsTheCommand := by
  intro h slot st d0 d1 c e
  refine ⟨endsOnly_finish e, fun k => ⟨overlaps_control k, workBuffer_control k⟩,
    fun t m l => tileBusy_finish e m l, fun x m => ?_⟩
  rw [finish_eq e] at m
  simpa using (List.mem_filter.mp m).2

end Sys2Proof.Machine
end

section
/-! PROOFS. A register write of two dwords, of which one answers: O7. -/

namespace Sys2Proof.Machine

/-! A write of 8 bytes is two dword writes (R469), and STREAM_POLICY of each ring answers by the world of its own ring
(Table 20-1): over that of a secure ring and the next one, a non-secure agent writes the second alone. -/

namespace HalfAnsweredWrite

/-- A package in READY whose ring 0 is of the secure world, and every other ring of the non-secure one. -/
def hw : Hw := setReg { Hw.reset with pkg := .ready, bringStep := 10 } (rRing 0 0x058) (1#32 <<< 31)

def state : State := { State.reset with hw := hw }

/-- An 8-byte write at STREAM_POLICY of ring 0, with REPLAY_MAX 1 for ring 1 in its upper dword. -/
def write : Instr := .registerWrite .nonSecure 0x160000 8 (2 ^ 32)

theorem offset_silent : answers hw .nonSecure 0x160000 = false := by decide +kernel

theorem nothing_waits : postedBefore hw .nonSecure = false := by decide +kernel

/-- The write takes effect at ring 1. -/
theorem replayMax_written : (nextOf (exec write state)).map (replayMax ·.hw 1) = some 1 := by decide +kernel

/-- Neither nothing, nor what follows every command, sets it. -/
theorem replayMax_before : replayMax hw 1 = 0 ∧ replayMax (settle hw) 1 = 0 := by decide +kernel

end HalfAnsweredWrite

open HalfAnsweredWrite in
/-- Refutes O7: the second dword of an 8-byte write at an offset that does not answer may answer (log 50). -/
theorem not_commandsThatCannotActDoNothing : ¬ Obligations.CommandsThatCannotActDoNothing := by
  intro claim
  obtain ⟨silent, -⟩ := (claim write state).1 .nonSecure 0x160000 rfl
  have written := replayMax_written
  rcases silent nothing_waits offset_silent with settled | same
  · rw [settled] at written
    exact absurd ((Option.some.inj written).symm.trans replayMax_before.2) (by decide)
  · rw [same] at written
    exact absurd ((Option.some.inj written).symm.trans replayMax_before.1) (by decide)

end Sys2Proof.Machine
end

section
/-! PROOFS. Doorbells (R39, R40, R51) and the commits of rings (R34): O11, O12. -/

namespace Sys2Proof.Machine

variable (h : Hw)

/-! Registers of ring pages -/

/-- A register of a ring page is steady: no message and no port writes it. -/
theorem steady_rRing {n r : Nat} (ln : n < 64) (lr : r < 0x1000) : steadyReg (rRing n r) := by
  simp only [steadyReg, rRing]; omega

theorem rRing_inj {n r r' : Nat} : rRing n r = rRing n r' ↔ r = r' := by simp only [rRing]; omega

theorem sendMsix_frame (v : Nat) : sendMsix h v =
    { h with host := (sendMsix h v).host, regs := (sendMsix h v).regs, freeRegs := (sendMsix h v).freeRegs } := by
  unfold sendMsix
  split_ifs <;> rfl

@[simp] theorem ringAux_sendMsix (v n : Nat) : ringAux (sendMsix h v) n = ringAux h n := by
  rw [sendMsix_frame]; rfl

@[simp] theorem ringAux_setRegBit (o i : Nat) (b : Bool) (n : Nat) : ringAux (setRegBit h o i b) n = ringAux h n := rfl

@[simp] theorem ringAux_setRegFld (o hi lo v n : Nat) : ringAux (setRegFld h o hi lo v) n = ringAux h n := rfl

/-- The ring error interrupt leaves the steady registers. -/
theorem getReg_ringIrq {o : Nat} (s : steadyReg o) : getReg (ringIrq h) o = getReg h o :=
  (keepsWork_sendMsix h (by decide)).reg o s

@[simp] theorem ringAux_ringIrq (n : Nat) : ringAux (ringIrq h) n = ringAux h n := ringAux_sendMsix ..

theorem regBit_ringIrq {o : Nat} (s : steadyReg o) (i : Nat) : regBit (ringIrq h) o i = regBit h o i := by
  rw [regBit, getReg_ringIrq h s, regBit]

/-! Waking from HOLD and QUIET (R443) -/

/-- What leaves every ring as it is: the steady registers and the hidden state of the rings stay. -/
structure KeepsRings (h h' : Hw) : Prop where
  reg : ∀ o, steadyReg o → getReg h' o = getReg h o
  rings : h'.rings = h.rings

theorem KeepsRings.refl : KeepsRings h h := ⟨fun _ _ => rfl, rfl⟩

theorem KeepsRings.trans {h g k : Hw} (a : KeepsRings h g) (b : KeepsRings g k) : KeepsRings h k :=
  ⟨fun o s => (b.reg o s).trans (a.reg o s), b.rings.trans a.rings⟩

theorem KeepsRings.allPorts {f : Hw → Nat → Hw} (step : ∀ h q, KeepsRings h (f h q)) :
    KeepsRings h (allPorts f h) :=
  List.foldlRecOn _ f (motive := KeepsRings h) (.refl h) fun g k q _ => k.trans (step g q)

theorem keepsRings_setPower (p : PkgState) : KeepsRings h (setPower h p) :=
  ⟨(keepsWork_setPower h p).reg, by unfold setPower; rw [setPkg_frame]; rfl⟩

theorem keepsRings_tryLock (q : Nat) : KeepsRings h (tryLock h q) := by
  unfold tryLock
  split_ifs
  · exact ⟨(keepsWork_setPortState ..).reg, rfl⟩
  · exact .refl h

theorem keepsRings_leaveLowPower : KeepsRings h (leaveLowPower h) := by
  unfold leaveLowPower
  extract_lets woken
  have woken_keeps : KeepsRings h woken := by
    unfold woken
    split_ifs
    · have emptied (m : Mem) : KeepsRings h { h with mem := m } := ⟨fun _ _ => rfl, rfl⟩
      exact (emptied _).trans (.allPorts _ fun _ _ => ⟨fun _ _ => rfl, rfl⟩)
    · exact .refl h
  exact woken_keeps.trans ((keepsRings_setPower ..).trans (.allPorts _ keepsRings_tryLock))

theorem keepsRings_wakeOnDoorbell : KeepsRings h (wakeOnDoorbell h) := by
  unfold wakeOnDoorbell
  split_ifs
  · exact keepsRings_leaveLowPower h
  · exact .refl h

theorem KeepsRings.ringAux {h h' : Hw} (k : KeepsRings h h') (n : Nat) : ringAux h' n = ringAux h n := by
  simp only [Machine.ringAux, k.rings]

/-! Submission doorbells (R39, R40) -/

/-- What any doorbell makes of a ring that STALE_SLOT has parked: a fresh series of refetches (log 61). -/
def freshSeries (a : RingAux) : RingAux :=
  if a.stale then { a with refetches := 0, mismatch := true, stale := false } else a

theorem freshSeries_of_stale {a : RingAux} (s : a.stale = true) :
    (freshSeries a).mismatch = true ∧ (freshSeries a).refetches = 0 := by simp [freshSeries, s]

theorem freshSeries_sqProd (a : RingAux) : (freshSeries a).sqProd = a.sqProd := by
  unfold freshSeries
  split_ifs <;> rfl

section
variable {h} {n : Nat} {v : Word} (ln : n < 64)
include ln

/-- A doorbell within SQ_SIZE of SQ_CONS. -/
theorem sqDoorbellHw_accepts (r : (v - sqCons h n).toNat ≤ sqSize h n) : sqDoorbellHw n v h =
    setRegBit (setRingAux (wakeOnDoorbell h) n { freshSeries (ringAux h n) with sqProd := v })
      (rRingStatus n) 4 false := by
  have k := keepsRings_wakeOnDoorbell h
  have cons : sqCons (wakeOnDoorbell h) n = sqCons h n := k.reg _ (steady_rRing ln (by decide))
  have size : sqSize (wakeOnDoorbell h) n = sqSize h n := by
    rw [sqSize, k.reg _ (steady_rRing ln (by decide)), sqSize]
  rw [← k.ringAux]
  exact if_pos (by rwa [cons, size])

/-- Any other. -/
theorem sqDoorbellHw_ignores (r : sqSize h n < (v - sqCons h n).toNat) : sqDoorbellHw n v h =
    ringIrq (setRegBit (setRegBit (setRingAux (wakeOnDoorbell h) n (freshSeries (ringAux h n)))
      (rRingStatus n) 7 true) (rRingStatus n) 4 (!(ringAux h n).stale)) := by
  have k := keepsRings_wakeOnDoorbell h
  have cons : sqCons (wakeOnDoorbell h) n = sqCons h n := k.reg _ (steady_rRing ln (by decide))
  have size : sqSize (wakeOnDoorbell h) n = sqSize h n := by
    rw [sqSize, k.reg _ (steady_rRing ln (by decide)), sqSize]
  rw [← k.ringAux]
  exact if_neg (by rw [cons, size]; omega)

end

/-- A register command that acts leaves what its meaning does. -/
theorem effect_of_acts {i : Instr} {w : World} {off : Nat} {f : Hw → Hw} {s : State}
    (arm : exec i s = onHw (ifAnswers w off i f) s) (a : acts s.hw w off = true) : effect i s (f s.hw) := by
  rw [effect, arm, onHw_eq, ifAnswers_of a]

/-- Settles O11: the two cases of the range, each with the ring as `freshSeries` leaves it. -/
theorem submissionDoorbellRange : Obligations.SubmissionDoorbellRange := by
  intro w n v s a
  have rung : effect (.sqDoorbell w n v) s (sqDoorbellHw n.val v s.hw) := effect_of_acts rfl a
  have distance : (v.toNat + 2 ^ 32 - (sqCons s.hw n.val).toNat) % 2 ^ 32 = (v - sqCons s.hw n.val).toNat := by
    rw [BitVec.toNat_sub]
    congr 1
    have := (sqCons s.hw n.val).isLt
    omega
  rw [distance]
  refine ⟨fun r => ⟨_, rung, ?_⟩, fun r => ⟨_, rung, ?_⟩⟩
  · rw [sqDoorbellHw_accepts n.isLt r]
    refine ⟨by simp, ?_, fun stale => ?_⟩
    · rw [ringParked, regBit_setRegBit _ _ _ _ _ _ (by decide), if_pos ⟨rfl, rfl⟩]
    · simpa using freshSeries_of_stale stale
  · rw [sqDoorbellHw_ignores n.isLt r]
    have steady : steadyReg (rRingStatus n.val) := steady_rRing n.isLt (by decide)
    refine ⟨by simp [freshSeries_sqProd], ?_, ?_, fun stale => ?_⟩
    · rw [regBit_ringIrq _ steady, regBit_setRegBit _ _ _ _ _ _ (by decide), if_neg (by simp),
        regBit_setRegBit _ _ _ _ _ _ (by decide), if_pos ⟨rfl, rfl⟩]
    · rw [ringParked, regBit_ringIrq _ steady, regBit_setRegBit _ _ _ _ _ _ (by decide), if_pos ⟨rfl, rfl⟩]
    · simpa using freshSeries_of_stale stale

end Sys2Proof.Machine
end

section
/-! PROOFS. What a commit of a ring asks for and does (R33, R34). -/

namespace Sys2Proof.Machine

variable (h : Hw)

/-! Runs of registers -/

theorem copyRegs_succ (src dst words : Nat) : copyRegs h src dst (words + 1) =
    setReg (copyRegs h src dst words) (dst + 4 * words) (getReg (copyRegs h src dst words) (src + 4 * words)) := by
  simp [copyRegs, List.range_succ]

/-- Registers outside the run keep their values. -/
theorem getReg_copyRegs_ne {src dst words o : Nat} (ne : ∀ i < words, o ≠ dst + 4 * i) :
    getReg (copyRegs h src dst words) o = getReg h o := by
  induction words with
  | zero => rfl
  | succ n ih =>
    rw [copyRegs_succ, getReg_setReg_ne _ _ (ne n (by omega)), ih fun i l => ne i (by omega)]

/-- Each register of the run takes the value of its source, where the two runs are apart. -/
theorem getReg_copyRegs {src dst words : Nat} (apart : src + 4 * words ≤ dst) {i : Nat} (l : i < words) :
    getReg (copyRegs h src dst words) (dst + 4 * i) = getReg h (src + 4 * i) := by
  induction words with
  | zero => omega
  | succ n ih =>
    rw [copyRegs_succ]
    by_cases e : i = n
    · subst e
      rw [getReg_setReg_self, getReg_copyRegs_ne h fun j _ => by omega]
    · rw [getReg_setReg_ne _ _ (by omega), ih (by omega) (by omega)]

/-! Sizes and bases -/

theorem isPow2_iff {n : Nat} : isPow2 n = true ↔ ∃ k, n = 2 ^ k := by
  simp only [isPow2, Bool.and_eq_true, decide_eq_true_eq, beq_iff_eq]
  constructor
  · rintro ⟨pos, both⟩
    exact (Nat.and_sub_one_eq_zero_iff_isPowerOfTwo (by omega)).mp both
  · intro pow
    have pos : 0 < n := by
      obtain ⟨k, rfl⟩ := pow
      exact Nat.two_pow_pos k
    exact ⟨pos, (Nat.and_sub_one_eq_zero_iff_isPowerOfTwo (by omega)).mpr pow⟩

/-- A ring size is a power of two from 16 to 65,536 (R33). -/
theorem ringSizeOk_iff {n : Nat} : ringSizeOk n = true ↔ ∃ k, 4 ≤ k ∧ k ≤ 16 ∧ n = 2 ^ k := by
  simp only [ringSizeOk, Bool.and_eq_true, decide_eq_true_eq, isPow2_iff]
  constructor
  · rintro ⟨⟨⟨k, rfl⟩, low⟩, high⟩
    exact ⟨k, (Nat.pow_le_pow_iff_right (a := 2) (n := 4) (by decide)).mp low,
      (Nat.pow_le_pow_iff_right (a := 2) (m := 16) (by decide)).mp high, rfl⟩
  · rintro ⟨k, low, high, rfl⟩
    exact ⟨⟨⟨k, rfl⟩, Nat.pow_le_pow_right (n := 2) (by decide) low⟩, Nat.pow_le_pow_right (n := 2) (by decide) high⟩

/-- The low bits of a base are 0 where it lies on 4 KiB. -/
theorem regFld_page {o : Nat} : regFld h o 11 0 = (getReg h o).toNat % 4096 := by
  simp [regFld, fld]

/-- What RING_COMMIT takes (R34): a disabled ring whose sizes, bases and world are as they may be. -/
theorem ringCommitBad_eq_false_iff {w : World} {n : Nat} : ringCommitBad h w n = false ↔
    ringEnabled h n = false ∧
    (∀ r ∈ [0x028, 0x034], ∃ k, 4 ≤ k ∧ k ≤ 16 ∧ (getReg h (rRing n r)).toNat = 2 ^ k) ∧
    (∀ r ∈ [0x020, 0x02C], (getReg h (rRing n r)).toNat % 4096 = 0) ∧
    (w = .nonSecure → regBit h (rRing n 0x038) 31 = false) := by
  simp only [ringCommitBad, Bool.or_eq_false_iff, Bool.and_eq_false_imp, decide_eq_false_iff_not, not_not,
    decide_eq_true_eq, Bool.not_eq_false', ringSizeOk_iff, regFld_page, List.forall_mem_cons, List.not_mem_nil,
    false_imp_iff, implies_true, and_true, and_assoc]

/-! The commit -/

section
variable {n : Nat}

/-- What an accepted commit does after the copy of the staged set. -/
theorem acceptRing_eq : ∃ g, g = copyRegs h (rRing n 0x020) (rRing n 0x040) 7 ∧ acceptRing h n =
    setRingAux (setRegBit (setReg (setReg g (rRing n 0x00C) 0) (rRing n 0x010) 0) (rRingStatus n) 4 false) n .reset :=
  ⟨_, rfl, rfl⟩

theorem ringAux_acceptRing : ringAux (acceptRing h n) n = .reset := by
  obtain ⟨g, -, e⟩ := acceptRing_eq h (n := n)
  rw [e, ringAux_setRingAux_self]

/-- A ring's hidden state beside registers. -/
theorem setRingAux_frame {p : Nat → Prop} {h g : Hw} (k : OnlyRegsIn p h g) (a : RingAux) : setRingAux g n a =
    { h with regs := g.regs, freeRegs := g.freeRegs, rings := (setRingAux g n a).rings } := by
  rw [k.rest]
  rfl

theorem acceptRing_frame : acceptRing h n = { h with
    regs := (acceptRing h n).regs, freeRegs := (acceptRing h n).freeRegs, rings := (acceptRing h n).rings } := by
  have copied : OnlyRegsIn (fun _ => True) h (copyRegs h (rRing n 0x020) (rRing n 0x040) 7) :=
    .foldl (fun _ _ g => .setReg trivial g _) h
  obtain ⟨g, rfl, e⟩ := acceptRing_eq h (n := n)
  rw [e]
  exact setRingAux_frame
    (copied.trans ((OnlyRegsIn.setReg trivial ..).trans ((OnlyRegsIn.setReg trivial ..).trans (.setReg trivial ..)))) _

/-- Registers of the ring but its status and its two indexes are as the copy leaves them. -/
theorem getReg_acceptRing {r : Nat} (status : r ≠ 0x008) (cons : r ≠ 0x00C) (prod : r ≠ 0x010) :
    getReg (acceptRing h n) (rRing n r) = getReg (copyRegs h (rRing n 0x020) (rRing n 0x040) 7) (rRing n r) := by
  have ne {x : Nat} (e : r ≠ x) : rRing n r ≠ rRing n x := fun y => e (rRing_inj.mp y)
  obtain ⟨g, rfl, e⟩ := acceptRing_eq h (n := n)
  rw [e, getReg_setRingAux, setRegBit, rRingStatus, getReg_setReg_ne _ _ (ne status), getReg_setReg_ne _ _ (ne prod),
    getReg_setReg_ne _ _ (ne cons)]

theorem getReg_acceptRing_live {i : Nat} (l : i < 7) :
    getReg (acceptRing h n) (rRing n (0x040 + 4 * i)) = getReg h (rRing n (0x020 + 4 * i)) := by
  have split (r : Nat) : rRing n (r + 4 * i) = rRing n r + 4 * i := by simp only [rRing]; omega
  have apart : rRing n 0x020 + 4 * 7 ≤ rRing n 0x040 := by simp only [rRing]; omega
  rw [getReg_acceptRing h (by omega) (by omega) (by omega), split, split]
  exact getReg_copyRegs h apart l

theorem sqCons_acceptRing : sqCons (acceptRing h n) n = 0 := by
  have ne {x : Nat} (e : 0x00C ≠ x) : rRing n 0x00C ≠ rRing n x := fun y => e (rRing_inj.mp y)
  obtain ⟨g, -, e⟩ := acceptRing_eq h (n := n)
  rw [sqCons, e, getReg_setRingAux, setRegBit, rRingStatus, getReg_setReg_ne _ _ (ne (by decide)),
    getReg_setReg_ne _ _ (ne (by decide)), getReg_setReg_self]

theorem cqProd_acceptRing : cqProd (acceptRing h n) n = 0 := by
  have ne {x : Nat} (e : 0x010 ≠ x) : rRing n 0x010 ≠ rRing n x := fun y => e (rRing_inj.mp y)
  obtain ⟨g, -, e⟩ := acceptRing_eq h (n := n)
  rw [cqProd, e, getReg_setRingAux, setRegBit, rRingStatus, getReg_setReg_ne _ _ (ne (by decide)), getReg_setReg_self]

theorem ringParked_acceptRing : ringParked (acceptRing h n) n = false := by
  obtain ⟨g, -, e⟩ := acceptRing_eq h (n := n)
  rw [ringParked, regBit, e, getReg_setRingAux, setRegBit, getReg_setReg_self,
    bit_setBit _ _ _ _ (by decide), if_pos rfl]

end

end Sys2Proof.Machine
end

section
/-! PROOFS. Doorbells and ring commits as register commands: O12. -/

namespace Sys2Proof.Machine

variable {h : Hw} {n : Nat}

/-- With no record due, nothing waits for room. -/
theorem writeDue_of_nil (due : h.due = []) : writeDue h = h := by
  have drained : ({ h with due := [] } : Hw) = h := by rw [← due]
  simpa only [writeDue, due, writeList, List.nil_append] using drained

theorem onlyRegs_setRegBit (h : Hw) (o i : Nat) (b : Bool) : onlyRegs h (setRegBit h o i b) [o] :=
  ⟨fun _ m => getReg_setReg_ne _ _ (by simpa using m), rfl⟩

/-- In no low-power state a doorbell wakes nothing. -/
theorem wakeOnDoorbell_of_awake (hold : h.pkg ≠ .hold) (quiet : h.pkg ≠ .quiet) : wakeOnDoorbell h = h :=
  if_neg (by simp [hold, quiet])

theorem cqDoorbellHw_accepts {v : Word}
    (r : (v - (ringAux h n).cqCons).toNat ≤ (cqProd h n - (ringAux h n).cqCons).toNat) :
    cqDoorbellHw n v h = writeDue (setRingAux h n { ringAux h n with cqCons := v }) := if_pos r

theorem cqDoorbellHw_ignores {v : Word}
    (r : (cqProd h n - (ringAux h n).cqCons).toNat < (v - (ringAux h n).cqCons).toNat) :
    cqDoorbellHw n v h = ringIrq (setRegBit h (rRingStatus n) 7 true) := if_neg (Nat.not_le.mpr r)

/-- Settles O12: each register command by the equation of its case. -/
theorem doorbellsAndRingCommits : Obligations.DoorbellsAndRingCommits := by
  refine ⟨fun w n v s => ⟨?submission, ?completion⟩, fun w n s => ⟨?commit, ?enable⟩⟩
  case submission =>
    intro a hold quiet r
    refine ⟨_, effect_of_acts rfl a, ?_⟩
    rw [sqDoorbellHw_accepts n.isLt r, wakeOnDoorbell_of_awake hold quiet]
    refine ⟨fun o m => getReg_setReg_ne _ _ (by simpa using m), fun m ne => ?_, rfl⟩
    rw [ringAux_setRegBit, ringAux_setRingAux, if_neg ne]
  case completion =>
    intro a aux
    have refused (r : (cqProd s.hw n.val - aux.cqCons).toNat < (v - aux.cqCons).toNat) :
        effect (.cqDoorbell w n v) s (ringIrq (setRegBit s.hw (rRingStatus n.val) 7 true)) :=
      cqDoorbellHw_ignores r ▸ effect_of_acts rfl a
    refine ⟨fun r => ?_, refused⟩
    have rung : effect (.cqDoorbell w n v) s (writeDue (setRingAux s.hw n.val { aux with cqCons := v })) :=
      cqDoorbellHw_accepts r ▸ effect_of_acts rfl a
    refine ⟨rung, fun due => ⟨_, writeDue_of_nil (h := setRingAux s.hw n.val _) due ▸ rung, ?_, rfl⟩⟩
    exact ringAux_setRingAux_self ..
  case commit =>
    intro a ok
    have done : effect (.ringCommit w n) s (ringCommitHw w n.val s.hw) := effect_of_acts rfl a
    have good : ringCommitBad s.hw w n.val = false ↔ ok := ringCommitBad_eq_false_iff s.hw
    refine ⟨fun k => ⟨acceptRing s.hw n.val, ?_, fun i l => getReg_acceptRing_live _ l, sqCons_acceptRing _,
      cqProd_acceptRing _, ringParked_acceptRing _, ringAux_acceptRing _, acceptRing_frame _⟩, fun k => ?_⟩
    · rwa [ringCommitHw, good.mpr k, if_neg (by decide)] at done
    · rwa [ringCommitHw, if_pos (by simpa using mt good.mp k)] at done
  case enable =>
    intro a off moving
    have done : effect (.ringEnable w n) s (ringEnableHw n.val s.hw) := effect_of_acts rfl a
    rw [ringEnableHw, if_neg (by simp [off, moving])] at done
    refine ⟨fun size => ⟨_, if_neg size ▸ done, ?_, onlyRegs_setRegBit ..⟩, fun size => by rwa [if_pos size] at done⟩
    rw [ringEnabled, regBit_setRegBit _ _ _ _ _ _ (by decide), if_pos ⟨rfl, rfl⟩]

end Sys2Proof.Machine
end

section
/-! PROOFS. Writes into host memory by the package itself (R378, R381) and the records that use them (R50, R51): O14. -/

namespace Sys2Proof.Machine

/-- What stays through a write of the package into host memory: every register but AGENT_STATUS and the count of bytes
written back, every byte of device memory, and all else but the host's side. -/
structure KeepsButHost (h h' : Hw) : Prop where
  reg : ∀ o, o ≠ rHost 0x08 → o ≠ rHost 0x20 → getReg h' o = getReg h o
  mem : ∀ sp a, sp ≠ .host → h'.mem.read sp a = h.mem.read sp a
  rest : h' = { h with regs := h'.regs, freeRegs := h'.freeRegs, mem := h'.mem, host := h'.host }

variable (h : Hw)

theorem KeepsButHost.refl : KeepsButHost h h := ⟨fun _ _ _ => rfl, fun _ _ _ => rfl, rfl⟩

theorem KeepsButHost.trans {h g k : Hw} (a : KeepsButHost h g) (b : KeepsButHost g k) : KeepsButHost h k :=
  ⟨fun o x y => (b.reg o x y).trans (a.reg o x y), fun sp x n => (b.mem sp x n).trans (a.mem sp x n),
    by rw [b.rest, a.rest]⟩

theorem KeepsButHost.foldl {α : Type} {f : Hw → α → Hw} (step : ∀ h x, KeepsButHost h (f h x)) (xs : List α) :
    KeepsButHost h (xs.foldl f h) :=
  List.foldlRecOn xs f (motive := KeepsButHost h) (.refl h) fun g k x _ => k.trans (step g x)

theorem KeepsButHost.slots {h h' : Hw} (k : KeepsButHost h h') : h'.slots = h.slots := by rw [k.rest]

theorem keepsButHost_host (a : HostAux) : KeepsButHost h { h with host := a } :=
  ⟨fun _ _ _ => rfl, fun _ _ _ => rfl, rfl⟩

theorem keepsButHost_write (a : Nat) (bs : List Byte) (x : HostAux) :
    KeepsButHost h { h with mem := h.mem.write .host a bs, host := x } :=
  ⟨fun _ _ _ => rfl, fun _ _ n => read_write_other _ _ _ _ _ _ fun e => n e.1, rfl⟩

theorem keepsButHost_countAgent (n : Nat) : KeepsButHost h (countAgent h n) :=
  ⟨fun _ x y => (getReg_setReg_ne _ _ x).trans (getReg_setReg_ne _ _ y), fun _ _ _ => rfl, rfl⟩

theorem keepsButHost_clearHostPoison (a n : Nat) : KeepsButHost h (clearHostPoison h a n) := by
  unfold clearHostPoison
  split_ifs
  · exact .refl h
  · exact keepsButHost_host ..

theorem keepsButHost_writeBackLine (line : Nat) : KeepsButHost h (writeBackLine h line) := by
  unfold writeBackLine
  split
  · exact .refl h
  · exact (keepsButHost_clearHostPoison ..).trans ((keepsButHost_write ..).trans (keepsButHost_countAgent ..))

theorem keepsButHost_writeBackLines (p : Nat → Bool) : KeepsButHost h (writeBackLines h p) :=
  .foldl h (fun g (e : Nat × AgentLine) => keepsButHost_writeBackLine g e.1) _

theorem keepsButHost_hostIoWrite (a : Nat) (bs : List Byte) : KeepsButHost h (hostIoWrite h a bs) :=
  (KeepsButHost.foldl h (fun g (p : Nat × Nat) => keepsButHost_writeBackLine g (p.1 / 64)) _).trans <|
    (keepsButHost_clearHostPoison ..).trans (keepsButHost_write ..)

/-- The bytes of a CXL.io write stand in host memory. -/
theorem read_hostIoWrite (a : Nat) (bs : List Byte) {i : Nat} (l : i < bs.length) :
    (hostIoWrite h a bs).mem.read .host (a + i) = bs.getD i 0 := read_write_self _ _ _ _ _ l

/-! Records -/

variable {h} {n : Nat} {bs : List Byte}

theorem postRecord_of_closed (closed : cqClosed h n = true) : postRecord h n bs = (false, h) :=
  if_pos (.inl closed)

/-- The index registers of a ring are none of the agent's. -/
theorem cqProd_keepsButHost {h h' : Hw} (k : KeepsButHost h h') : cqProd h' n = cqProd h n :=
  k.reg _ (by simp only [rRing, rHost, regOf, baseOf]; omega) (by simp only [rRing, rHost, regOf, baseOf]; omega)

/-- A record for a ring in host memory, over a link that is up, takes the next index. -/
theorem postRecord_of_host (closed : cqClosed h n = false) (size : cqSize h n ≠ 0) (loc : bit (ringCfg h n) 29 = true)
    (up : hostUp h = true) : postRecord h n bs = (true,
      setReg (hostIoWrite h (cqBase h n + (cqProd h n).toNat % cqSize h n * 32) bs) (rRing n 0x010)
        (cqProd h n + 1)) := by
  have put (a : Nat) : ringWrite h (ringWorld h n) (bit (ringCfg h n) 29) a bs = (none, hostIoWrite h a bs) := by
    rw [ringWrite, loc, if_pos rfl, if_pos up]
  rw [postRecord, if_neg (by simp [closed, size])]
  simp only [put, cqProd_keepsButHost (keepsButHost_hostIoWrite h _ bs)]

/-- Settles O14: a closed ring takes nothing, and one in host memory takes the record at its next index. -/
theorem recordsTakeTheNextIndex : Obligations.RecordsTakeTheNextIndex := by
  intro h n bs
  refine ⟨postRecord_of_closed, fun closed size loc up => ?_⟩
  have k := keepsButHost_hostIoWrite h (cqBase h n + (cqProd h n).toNat % cqSize h n * 32) bs
  rw [postRecord_of_host closed size loc up]
  exact ⟨rfl, getReg_setReg_self .., fun i l => read_hostIoWrite h _ bs l, k.mem, k.slots⟩

end Sys2Proof.Machine
end

section
/-! PROOFS. Fetch of packets (R37-R41, R54): O15. -/

namespace Sys2Proof.Machine

variable {h h1 : Hw} {n k : Nat} {head : List Byte}

/-- A command whose arm is a change of the package leaves what that makes of it. -/
theorem effect_of_onHw {i : Instr} {f : Hw → Hw} {s : State} (arm : exec i s = onHw f s) : effect i s (f s.hw) := arm

theorem applyVerdict_packet (c : Cmd) (v : Verdict) : (applyVerdict c v).packet = c.packet := by cases v <;> rfl

theorem sqCons_advanceSq (h : Hw) (n : Nat) : sqCons (advanceSq h n) n = sqCons h n + 1 := getReg_setReg_self ..

/-! Taking a packet -/

/-- A packet that starts a task or is the next member of none stands in its slot. -/
theorem enterCmd_plain {slot at_ : Nat} {c : Cmd} (op : c.opcode ≠ 0x14) (task : hTask c.packet = 0) :
    enterCmd h slot n at_ c = setCmd h slot c := (if_neg op).trans (if_pos task)

/-- A sound PREFETCH_STREAM opens its task (R243). -/
theorem enterCmd_opens {slot at_ : Nat} {c : Cmd} (op : c.opcode = 0x14) (task : hTask c.packet ≠ 0)
    (fresh : ∀ t ∈ h.streams, t.task ≠ hTask c.packet) (sound : c.refused = false) :
    ∃ t : Stream, enterCmd h slot n at_ c = { setCmd h slot c with streams := h.streams ++ [t] } ∧
      t.task = hTask c.packet ∧ t.slot = slot ∧ t.members = stMembers c.packet ∧ t.fetched = [] ∧ t.replays = 0 ∧
      t.fault = none := by
  have new : ¬ (hTask c.packet = 0 ∨ (h.streams.any fun t => t.task = hTask c.packet) = true) := by
    simpa [task] using fresh
  rw [enterCmd, if_pos op, if_neg new, openTask, sound]
  exact ⟨_, rfl, rfl, rfl, rfl, rfl, rfl, rfl⟩

/-- A packet with a free slot, room for its task and an open completion ring is taken whole. -/
theorem acceptPacket_takes {slot k2 : Nat} {p : List Byte} {h2 : Hw} (free : pickSlot h n = some slot)
    (open_ : cqClosed h (cqOf h n head) = false) (room : hOpcode head = 0x14 → hTask head = 0 ∨ h.streams.length < 256)
    (read : readSlot h n (packetAt h n) (64 * (1 + hLen head)) = ((some p, k2), h2)) :
    acceptPacket h n head = enterCmd { advanceSq h2 n with nextOrder := (advanceSq h2 n).nextOrder + 1 } slot n
      (packetAt h2 n) (applyVerdict (newCmd (advanceSq h2 n) n p) (verdictOf (advanceSq h2 n) n p)) := by
  have takes : ¬ ((hOpcode head = 0x14 && hTask head ≠ 0) = true ∧ 256 ≤ h.streams.length ∨
      cqClosed h (cqOf h n head) = true) := by
    rintro (⟨opens, full⟩ | closed)
    · rw [Bool.and_eq_true, decide_eq_true_eq, decide_eq_true_eq] at opens
      exact (room opens.1).elim opens.2 (Nat.not_lt.mpr full)
    · exact Bool.false_ne_true (open_.symm.trans closed)
  rw [acceptPacket, free]
  simp only
  rw [if_neg takes, read]

/-! The two commands of fetch -/

/-- The state from which fetch takes a packet: a series of refetches is over. -/
def takenFrom (again : Bool) (h1 : Hw) (n : Nat) : Hw :=
  if again then setRingAux h1 n { ringAux h1 n with mismatch := false, refetches := 0 } else h1

/-- What fetch makes of a header with another lap, outside a series and within one. -/
def lapDiffers (again : Bool) (h1 : Hw) (n : Nat) : Hw :=
  if again then
    if 8 ≤ (ringAux h1 n).refetches + 1 then staleSlot h1 n
    else setRingAux h1 n { ringAux h1 n with refetches := (ringAux h1 n).refetches + 1 }
  else setRingAux h1 n { ringAux h1 n with mismatch := true, refetches := 0 }

/-- What fetch makes of a header it has read. -/
def headerRead (again : Bool) (h1 : Hw) (n : Nat) (head : List Byte) : Hw :=
  if hLap head = (ringAux h1 n).lap then acceptPacket (takenFrom again h1 n) n head else lapDiffers again h1 n

/-- PACKET_FETCH on its turn, once the header is read. -/
theorem packetFetchHw_of_read {t : Hw} (fetch : fetchable h n = true) (turn : fetchTurnOf h n = true)
    (taken : t = { h with fetchTurn := smPut h.fetchTurn (prioMax h n) n })
    (read : readSlot t n (packetAt h n) 64 = ((some head, k), h1)) :
    packetFetchHw n h = headerRead false h1 n head := by
  have at_ : packetAt t n = packetAt h n := by rw [taken]; rfl
  rw [packetFetchHw, if_neg (by simp [fetch, turn]), ← taken, at_, read]
  rfl

/-- LAP_REFETCH within a series, once the header is read. -/
theorem lapRefetchHw_of_read (on : fetchOn h n = true) (series : (ringAux h n).mismatch = true)
    (read : readSlot h n (packetAt h n) 64 = ((some head, k), h1)) :
    lapRefetchHw n h = headerRead true h1 n head := by
  rw [lapRefetchHw, if_neg (by simp [on, series]), read]
  rfl

/-- The eighth failure of a series parks the ring with code 0x70 (R39). -/
theorem staleSlot_parks (ln : n < 64) : ringParked (staleSlot h n) n = true ∧
    regBit (staleSlot h n) (rRingStatus n) 6 = true ∧ regFld (staleSlot h n) (rRingStatus n) 31 24 = 0x70 ∧
    (ringAux (staleSlot h n) n).mismatch = false := by
  have steady : steadyReg (rRingStatus n) := steady_rRing ln (by decide)
  have code {g : Hw} {i : Nat} (low : i < 24) :
      regBit (setRegFld g (rRingStatus n) 31 24 0x70) (rRingStatus n) i = regBit g (rRingStatus n) i := by
    rw [regBit, setRegFld, getReg_setReg_self]
    exact bit_setFld_other _ _ _ _ _ (.inl low)
  refine ⟨?parked, ?stale, ?code, ?series⟩
  case parked =>
    rw [ringParked, staleSlot, regBit_ringIrq _ steady, code (by decide), regBit_setRegBit _ _ _ _ _ _ (by decide),
      if_pos ⟨rfl, rfl⟩]
  case stale =>
    rw [staleSlot, regBit_ringIrq _ steady, code (by decide), regBit_setRegBit _ _ _ _ _ _ (by decide),
      if_neg (by simp), regBit_setRegBit _ _ _ _ _ _ (by decide), if_pos ⟨rfl, rfl⟩]
  case code =>
    rw [staleSlot, regFld, getReg_ringIrq _ steady, setRegFld, getReg_setReg_self]
    exact fld_setFld _ _ _ _ (by decide) (by decide)
  case series => simp [staleSlot]

theorem staleSlot_slots : (staleSlot h n).slots = h.slots := by
  rw [staleSlot, ringIrq, sendMsix_frame]
  rfl

theorem sqCons_staleSlot (ln : n < 64) : sqCons (staleSlot h n) n = sqCons h n := by
  have ne : rRing n 0xC ≠ rRingStatus n := fun e => absurd (rRing_inj.mp e) (by decide)
  rw [sqCons, staleSlot, getReg_ringIrq _ (steady_rRing ln (by decide)), setRegFld, getReg_setReg_ne _ _ ne, setRegBit,
    getReg_setReg_ne _ _ ne, setRegBit, getReg_setReg_ne _ _ ne]
  rfl

/-- A header with another lap takes nothing. -/
theorem lapDiffers_takes_nothing (ln : n < 64) (again : Bool) :
    (lapDiffers again h n).slots = h.slots ∧ sqCons (lapDiffers again h n) n = sqCons h n := by
  unfold lapDiffers
  split_ifs
  · exact ⟨staleSlot_slots, sqCons_staleSlot ln⟩
  · exact ⟨rfl, rfl⟩
  · exact ⟨rfl, rfl⟩

/-- Outside a series it starts one. -/
theorem lapDiffers_starts : (ringAux (lapDiffers false h n) n).mismatch = true ∧
    (ringAux (lapDiffers false h n) n).refetches = 0 := by simp [lapDiffers]

/-- Within one it counts. -/
theorem lapDiffers_counts (few : (ringAux h n).refetches < 7) :
    (ringAux (lapDiffers true h n) n).refetches = (ringAux h n).refetches + 1 := by
  rw [lapDiffers, if_pos rfl, if_neg (by omega), ringAux_setRingAux_self]

/-- The eighth failure is the last. -/
theorem lapDiffers_parks (many : 7 ≤ (ringAux h n).refetches) : lapDiffers true h n = staleSlot h n := by
  rw [lapDiffers, if_pos rfl, if_pos (by omega)]

/-- Settles O15: both commands of fetch read the header, then take the packet or go on with the series. -/
theorem fetchTakesPacketsInOrder : Obligations.FetchTakesPacketsInOrder := by
  intro n s head k h0 h1 again fetch may turn start read
  have fetched : effect fetch s (headerRead again h1 n.val head) := by
    cases series : again with
    | true =>
      have on : fetchOn s.hw n.val = true := (Bool.and_eq_true_iff.mp may).1
      have e : fetch = .lapRefetch n := if_pos series
      obtain rfl : h0 = s.hw := start.trans (if_pos series)
      rw [e, ← lapRefetchHw_of_read on series read]
      exact effect_of_onHw rfl
    | false =>
      have e : fetch = .packetFetch n := if_neg (by rw [series]; decide)
      have taken := start.trans (if_neg (by rw [series]; decide))
      rw [e, ← packetFetchHw_of_read (turn series).1 (turn series).2 taken read]
      exact effect_of_onHw rfl
  refine ⟨fun lap => ?takes, fun lap => ?refetches⟩
  case takes =>
    intro g eg slot p k2 h2 free open_ room readWhole h3 c h4
    have packet : c.packet = p := applyVerdict_packet ..
    obtain rfl : takenFrom again h1 n.val = g := eg.symm
    rw [headerRead, if_pos lap, acceptPacket_takes free open_ room readWhole] at fetched
    refine ⟨fetched, sqCons_advanceSq .., rfl, rfl, fun op task => ?_, fun op task fresh sound => ?_⟩
    · rw [← packet] at op task
      exact enterCmd_plain op task
    · rw [← packet] at op task fresh ⊢
      exact enterCmd_opens op task fresh sound
  case refetches =>
    rw [headerRead, if_neg lap] at fetched
    obtain ⟨slots, cons⟩ := lapDiffers_takes_nothing (h := h1) n.isLt again
    refine ⟨_, fetched, slots, cons, fun e => ?_, fun e few => ?_, fun e many => ?_⟩
    · rw [e]
      exact lapDiffers_starts
    · rw [e]
      exact lapDiffers_counts few
    · rw [e, lapDiffers_parks many]
      exact staleSlot_parks n.isLt

end Sys2Proof.Machine
end

section
/-! PROOFS. Accesses of the castle and translation look at no slot's command but that of their requester, and leave what
stands beside memory: the commands, the held ranges, the records due and the stream tasks. -/

namespace Sys2Proof.Machine

/-- A state with the commands, holds, records due and stream tasks of another. -/
def beside (h k : Hw) : Hw := { h with slots := k.slots, holds := k.holds, due := k.due, streams := k.streams }

variable (h k : Hw)

/-! What is read -/

@[simp] theorem getReg_beside (o : Nat) : getReg (beside h k) o = getReg h o := rfl
@[simp] theorem stackAux_beside (s : Nat) : stackAux (beside h k) s = stackAux h s := rfl
@[simp] theorem cacheAux_beside (b : Nat) : cacheAux (beside h k) b = cacheAux h b := rfl
@[simp] theorem heldLine_beside (b l : Nat) : heldLine (beside h k) b l = heldLine h b l := rfl
@[simp] theorem isPoison_beside (c : Nat) : isPoison (beside h k) c = isPoison h c := rfl
@[simp] theorem cwErrs_beside (c : Nat) : cwErrs (beside h k) c = cwErrs h c := rfl
@[simp] theorem wayFor_beside (b l : Nat) : wayFor (beside h k) b l = wayFor h b l := rfl
@[simp] theorem decodePa_beside (a : Nat) : decodePa (beside h k) a = decodePa h a := rfl
@[simp] theorem regionSecure_beside (a : Nat) : regionSecure (beside h k) a = regionSecure h a := rfl
@[simp] theorem mem_beside : (beside h k).mem = h.mem := rfl
@[simp] theorem octetPawn_beside (n : Nat) : octetPawn (beside h k) n = octetPawn h n := rfl
@[simp] theorem octetNoAlloc_beside (n : Nat) : octetNoAlloc (beside h k) n = octetNoAlloc h n := rfl
@[simp] theorem cacheEnabled_beside (b : Nat) : cacheEnabled (beside h k) b = cacheEnabled h b := rfl
@[simp] theorem cacheNoRemote_beside (b : Nat) : cacheNoRemote (beside h k) b = cacheNoRemote h b := rfl

/-! What is changed: records of errors and the stacks -/

theorem setReg_beside (o : Nat) (v : Word) : setReg (beside h k) o v = beside (setReg h o v) k := rfl
theorem bumpSat_beside (o n : Nat) : bumpSat (beside h k) o n = beside (bumpSat h o n) k := rfl
theorem setRegBit_beside (o i : Nat) (b : Bool) : setRegBit (beside h k) o i b = beside (setRegBit h o i b) k := rfl
theorem setStackAux_beside (s : Nat) (a : StackAux) :
    setStackAux (beside h k) s a = beside (setStackAux h s a) k := rfl
theorem setCacheAux_beside (b : Nat) (a : CacheAux) :
    setCacheAux (beside h k) b a = beside (setCacheAux h b a) k := rfl
theorem dropLines_beside (p : Nat → Nat → Bool) : dropLines (beside h k) p = beside (dropLines h p) k := rfl
theorem logStackEvent_beside (s y n x : Nat) :
    logStackEvent (beside h k) s y n x = beside (logStackEvent h s y n x) k := by
  rw [logStackEvent, setReg_beside, setReg_beside, setReg_beside, logStackEvent]

theorem routeSeverity_beside (r : ErrRec) : routeSeverity (beside h k) r = beside (routeSeverity h r) k := by
  have aer : regBit (beside h k) (regOf .err 0xA0) 4 = regBit h (regOf .err 0xA0) 4 := rfl
  by_cases high : 4 ≤ r.severity
  · have mid : 3 ≤ r.severity := by omega
    simp only [routeSeverity, high, mid, true_or, if_true]
    rfl
  · by_cases mid : 3 ≤ r.severity
    · simp only [routeSeverity, high, mid, true_or, if_true, if_false]
      rfl
    · simp only [routeSeverity, aer, high, mid, false_or, if_false]
      split_ifs <;> rfl

/-- The record of an event. -/
def recordOf (h : Hw) (e : ErrEvent) : ErrRec :=
  { ref := nextRef (getReg h rErrLast), source := BitVec.ofNat 8 e.source, kind := BitVec.ofNat 8 e.kind,
    code := BitVec.ofNat 8 e.code, secure := e.secure, severity := e.severity, unit := e.unit, cmd := e.cmd,
    addr := BitVec.ofNat 64 e.addr, detail0 := e.detail0, detail1 := e.detail1, step := BitVec.ofNat 64 (stepNum h),
    cyclesDraw := h.draws }

/-- A state once the record of an event stands in the log and counts (R458). -/
def withRecord (h : Hw) (e : ErrEvent) : Hw :=
  let r := recordOf h e
  let g := bumpSat (setReg { h with draws := h.draws + 1 } rErrLast r.ref) (regOf .err (0x50 + 4 * e.severity)) 1
  { g with errs := { g.errs with
      log := (r :: g.errs.log).take 4096,
      highest := some (max e.severity (g.errs.highest.getD 0)),
      wrapped := g.errs.wrapped || (decide (r.ref = 1) && g.errs.highest.isSome),
      toMirror := g.errs.toMirror ++ [r] } }

theorem errRecord_eq (e : ErrEvent) :
    errRecord h e = ((recordOf h e).ref, routeSeverity (withRecord h e) (recordOf h e)) := rfl

theorem withRecord_beside (e : ErrEvent) : withRecord (beside h k) e = beside (withRecord h e) k := rfl

theorem errRecord_beside (e : ErrEvent) :
    errRecord (beside h k) e = ((errRecord h e).1, beside (errRecord h e).2 k) := by
  have same : recordOf (beside h k) e = recordOf h e := rfl
  rw [errRecord_eq, errRecord_eq, same, withRecord_beside, routeSeverity_beside]

theorem logErr_beside (e : ErrEvent) : logErr (beside h k) e = beside (logErr h e) k :=
  congrArg Prod.snd (errRecord_beside ..)

theorem trackRow_beside (s y : Nat) : trackRow (beside h k) s y = beside (trackRow h s y) k := by
  simp only [trackRow, stackAux_beside, setStackAux_beside, setRegBit_beside, logErr_beside]
  split_ifs <;> rfl

theorem correctCw_beside (s y x : Nat) : correctCw (beside h k) s y x = beside (correctCw h s y x) k := by
  simp only [correctCw, bumpSat_beside, setRegBit_beside, logStackEvent_beside, trackRow_beside, stackAux_beside,
    setStackAux_beside]

theorem takePoison_beside (s y : Nat) : takePoison (beside h k) s y = beside (takePoison h s y) k := by
  have marked (c : Nat) : setCwErrs (setPoison (beside h k) c true) c [] =
      beside (setCwErrs (setPoison h c true) c []) k := rfl
  simp only [takePoison, marked, stackAux_beside]
  split_ifs <;> rfl

theorem poisonCw_beside (s y x : Nat) : poisonCw (beside h k) s y x = beside (poisonCw h s y x) k := by
  simp only [poisonCw, takePoison_beside, bumpSat_beside, setRegBit_beside, logStackEvent_beside, logErr_beside]

theorem checkCw_beside (s y : Nat) : checkCw (beside h k) s y = ((checkCw h s y).1, beside (checkCw h s y).2 k) := by
  simp only [checkCw, isPoison_beside, cwErrs_beside, correctCw_beside, poisonCw_beside]
  split_ifs
  · rfl
  · split <;> rfl

theorem stackRead_beside (s y n m : Nat) : stackRead (beside h k) s y n m =
    ((stackRead h s y n m).1, (stackRead h s y n m).2.1, beside (stackRead h s y n m).2.2 k) := by
  simp only [stackRead, readCw, checkCw_beside]
  rfl

theorem injectErrs_beside (s : Nat) :
    injectErrs (beside h k) s = ((injectErrs h s).1, beside (injectErrs h s).2 k) := by
  by_cases armed : bit (getReg h (regOf (.stack s) 0x30)) 31 = true
  · simp only [injectErrs, getReg_beside, armed, if_true]
    rfl
  · simp only [injectErrs, getReg_beside, armed]
    rfl

theorem writeCw_beside (s y : Nat) (bs : List Byte) : writeCw (beside h k) s y bs = beside (writeCw h s y bs) k := by
  have clean (g : Hw) (c : Nat) : setPoison (beside g k) c false = beside (setPoison g c false) k := rfl
  have errs (g : Hw) (c : Nat) (e : List (Nat × Byte)) : setCwErrs (beside g k) c e = beside (setCwErrs g c e) k := rfl
  have checked : (if decide (bs.length = 64) = true then (false, beside h k) else checkCw (beside h k) s y) =
      ((if decide (bs.length = 64) = true then (false, h) else checkCw h s y).1,
        beside (if decide (bs.length = 64) = true then (false, h) else checkCw h s y).2 k) := by
    rw [checkCw_beside]
    split_ifs <;> rfl
  simp only [writeCw, checked, logStackEvent_beside, logErr_beside, clean, injectErrs_beside, errs, stackAux_beside,
    setStackAux_beside]
  split_ifs <;> rfl

/-! The board caches -/

theorem allocLine_beside (b l : Nat) : allocLine (beside h k) b l = beside (allocLine h b l) k := by
  simp only [allocLine, wayFor_beside]
  split <;> rfl

/-- The filter of a board makes room: beyond its capacity the oldest tracked copy goes (R191). -/
def evictOldest (h : Hw) (m : Nat) : Hw :=
  match (cacheAux h m).sharers with
  | o :: _ => if sharerMax ≤ (cacheAux h m).sharers.length then dropLine h o.2 o.1 else h
  | [] => h

/-- Board b takes the copy of a line, and the filter of board m tracks it. -/
def takeCopy (h : Hw) (b m l : Nat) : Hw :=
  let g := allocLine h b l
  let g := setCacheAux g b { cacheAux g b with fills := (cacheAux g b).fills + 1 }
  setCacheAux g m { cacheAux g m with sharers := (cacheAux g m).sharers ++ [(l, b)] }

theorem fillRemote_eq (b m l : Nat) : fillRemote h b m l = takeCopy (evictOldest h m) b m l := rfl

theorem evictOldest_beside (m : Nat) : evictOldest (beside h k) m = beside (evictOldest h m) k := by
  unfold evictOldest
  rw [cacheAux_beside]
  split
  · split_ifs <;> rfl
  · rfl

theorem takeCopy_beside (b m l : Nat) : takeCopy (beside h k) b m l = beside (takeCopy h b m l) k := by
  simp only [takeCopy, allocLine_beside, setCacheAux_beside, cacheAux_beside]

theorem fillRemote_beside (b m l : Nat) : fillRemote (beside h k) b m l = beside (fillRemote h b m l) k := by
  rw [fillRemote_eq, fillRemote_eq, evictOldest_beside, takeCopy_beside]

theorem lookLine_beside (b l : Nat) :
    lookLine (beside h k) b l = ((lookLine h b l).1, beside (lookLine h b l).2 k) := by
  simp only [lookLine, heldLine_beside]
  split
  · rfl
  · split_ifs <;> rfl

/-- The look in the cache of the reader's own board. -/
def lookNear (h : Hw) (far : Option Nat) (l : Nat) : Bool × Hw :=
  match far with
  | some b => lookLine h b l
  | none => (false, h)

/-- The bytes from the home cache, or else from the stack. -/
def readHome (home : Bool × Hw) (s y n m : Nat) : List Byte × Bool × Hw :=
  if home.1 then (home.2.mem.readN .hbm (hbmKey s y) n, false, home.2) else stackRead home.2 s y n m

/-- What the caches take of a line that was read. -/
def fillLine (h : Hw) (atHome : Bool) (copy : Option Nat) (m l : Nat) : Hw :=
  let g := if atHome then allocLine h m l else h
  match copy with
  | some b => fillRemote g b m l
  | none => g

theorem lookNear_beside (far : Option Nat) (l : Nat) :
    lookNear (beside h k) far l = ((lookNear h far l).1, beside (lookNear h far l).2 k) := by
  cases far with
  | none => rfl
  | some b => exact lookLine_beside ..

theorem readHome_beside (hit : Bool) (s y n m : Nat) : readHome (hit, beside h k) s y n m =
    ((readHome (hit, h) s y n m).1, (readHome (hit, h) s y n m).2.1, beside (readHome (hit, h) s y n m).2.2 k) := by
  cases hit with
  | true => rfl
  | false => exact stackRead_beside ..

theorem fillLine_beside (atHome : Bool) (copy : Option Nat) (m l : Nat) :
    fillLine (beside h k) atHome copy m l = beside (fillLine h atHome copy m l) k := by
  have home : (if atHome = true then allocLine (beside h k) m l else beside h k) =
      beside (if atHome = true then allocLine h m l else h) k := by
    rw [allocLine_beside]
    split_ifs <;> rfl
  unfold fillLine
  rw [home]
  cases copy with
  | none => rfl
  | some b => exact fillRemote_beside ..

/-- A read within a line, by its parts (R190). -/
theorem lineRead_eq (far : Option Nat) (pa s y n : Nat) : lineRead h far pa s y n =
    (let far := far.filter (· ≠ s / 8)
     let near := lookNear h far (pa / 64)
     let home := lookLine near.2 (s / 8) (pa / 64)
     let may := !octetNoAlloc h (pa / 2 ^ 33)
     let atHome := may && !home.1 && cacheEnabled h (s / 8)
     let copy := far.filter fun b => may && cacheEnabled h b && !cacheNoRemote h b
     let r := readHome home s y n (if atHome || copy.isSome then 64 else n)
     if octetPawn h (pa / 2 ^ 33) then stackRead h s y n n
     else if near.1 then (near.2.mem.readN .hbm (hbmKey s y) n, false, near.2)
     else if r.2.1 then r
     else (r.1, false, fillLine r.2.2 atHome copy (s / 8) (pa / 64))) := rfl

theorem lineRead_beside (far : Option Nat) (pa s y n : Nat) : lineRead (beside h k) far pa s y n =
    ((lineRead h far pa s y n).1, (lineRead h far pa s y n).2.1, beside (lineRead h far pa s y n).2.2 k) := by
  rw [lineRead_eq, lineRead_eq]
  simp only [lookNear_beside, lookLine_beside, readHome_beside, fillLine_beside, octetPawn_beside,
    octetNoAlloc_beside, cacheEnabled_beside, cacheNoRemote_beside, stackRead_beside, mem_beside]
  split_ifs <;> rfl

theorem logBoard_beside {who : Who} (own : who.slot = none) (kind pa b : Nat) :
    logBoard (beside h k) who kind pa b = beside (logBoard h who kind pa b) k := by
  simp only [logBoard, own]
  exact logErr_beside ..

theorem lineWrite_beside (pa s y : Nat) (bs : List Byte) :
    lineWrite (beside h k) pa s y bs = beside (lineWrite h pa s y bs) k := by
  have counted (g : Hw) : countStack (beside g k) s 0 bs.length = beside (countStack g s 0 bs.length) k := rfl
  have stored (g : Hw) (a : Nat) : ({ beside g k with mem := (beside g k).mem.write .hbm a bs } : Hw) =
      beside { g with mem := g.mem.write .hbm a bs } k := rfl
  unfold lineWrite
  simp only [writeCw_beside, counted, isPoison_beside, heldLine_beside]
  by_cases c : bs.length < 64 ∧ isPoison (countStack (writeCw h s y bs) s 0 bs.length) (cwOf s y) = true ∧
      (heldLine (countStack (writeCw h s y bs) s 0 bs.length) (s / 8) (pa / 64)).isSome = true
  · simp only [if_pos c, stored, cacheAux_beside, dropLines_beside]
    split_ifs <;> rfl
  · simp only [if_neg c, cacheAux_beside, dropLines_beside]
    split_ifs <;> rfl

end Sys2Proof.Machine
end

section
/-! PROOFS. Accesses of the castle, translation and undefined contents leave the commands, the held ranges, the records
due and the stream tasks, and look at none of the last two. -/

namespace Sys2Proof.Machine

variable (h k : Hw)

/-! Physical accesses of the castle -/

section
variable {h k} (held : k.holds = h.holds) {who : Who} (own : who.slot = none)
include held own

theorem readPaPiece_beside (pa n : Nat) : readPaPiece (beside h k) who pa n =
    ((readPaPiece h who pa n).1, beside (readPaPiece h who pa n).2 k) := by
  have same (a m : Nat) : heldByOther (beside h k) who a m = heldByOther h who a m := by
    rw [heldByOther, heldByOther, ← held]
    rfl
  have touch (g : Hw) (s : Nat) : touchStack g who s = g := by simp only [touchStack, own]
  unfold readPaPiece
  simp only [decodePa_beside, regionSecure_beside, same, touch, lineRead_beside, logBoard_beside _ _ own]
  split
  · split_ifs <;> rfl
  · rfl
  · split_ifs <;> rfl
  · rfl

theorem writePaPiece_beside (pa : Nat) (bs : List Byte) : writePaPiece (beside h k) who pa bs =
    ((writePaPiece h who pa bs).1, beside (writePaPiece h who pa bs).2 k) := by
  have same (a m : Nat) : heldByOther (beside h k) who a m = heldByOther h who a m := by
    rw [heldByOther, heldByOther, ← held]
    rfl
  have touch (g : Hw) (s : Nat) : touchStack g who s = g := by simp only [touchStack, own]
  unfold writePaPiece
  simp only [decodePa_beside, regionSecure_beside, same, touch, lineWrite_beside, logBoard_beside _ _ own]
  split
  · split_ifs <;> rfl
  all_goals rfl

end

/-- A change that leaves what stands beside memory. -/
structure StandsBy (h h' : Hw) : Prop where
  slots : h'.slots = h.slots
  holds : h'.holds = h.holds
  due : h'.due = h.due
  streams : h'.streams = h.streams

theorem StandsBy.refl : StandsBy h h := ⟨rfl, rfl, rfl, rfl⟩

theorem StandsBy.trans {h g k : Hw} (a : StandsBy h g) (b : StandsBy g k) : StandsBy h k :=
  ⟨b.slots.trans a.slots, b.holds.trans a.holds, b.due.trans a.due, b.streams.trans a.streams⟩

/-- What commutes with `beside` leaves it. -/
theorem StandsBy.of_beside {h g : Hw} (e : g = beside g h) : StandsBy h g :=
  e ▸ ⟨rfl, rfl, rfl, rfl⟩

section
variable {who : Who} (own : who.slot = none)
include own

theorem standsBy_readPaPiece (pa n : Nat) : StandsBy h (readPaPiece h who pa n).2 :=
  .of_beside (congrArg Prod.snd (readPaPiece_beside (h := h) (k := h) rfl own pa n))

theorem standsBy_writePaPiece (pa : Nat) (bs : List Byte) : StandsBy h (writePaPiece h who pa bs).2 :=
  .of_beside (congrArg Prod.snd (writePaPiece_beside (h := h) (k := h) rfl own pa bs))

theorem readPa_go_beside {h k : Hw} (held : k.holds = h.holds) (ps : List (Nat × Nat)) (acc : List Byte)
    (poison : Option Nat) : readPa.go who (beside h k) acc poison ps =
      ((readPa.go who h acc poison ps).1, beside (readPa.go who h acc poison ps).2 k) := by
  induction ps generalizing h acc poison with
  | nil => rfl
  | cons p ps ih =>
    have stands := (standsBy_readPaPiece h own p.1 p.2).holds
    unfold readPa.go
    rw [readPaPiece_beside held own]
    generalize readPaPiece h who p.1 p.2 = r at stands
    obtain ⟨answer, g⟩ := r
    cases answer with
    | bytes bs q => exact ih (held.trans stands.symm) ..
    | _ => rfl

theorem readPa_beside {h k : Hw} (held : k.holds = h.holds) (pa n : Nat) : readPa (beside h k) who pa n =
    ((readPa h who pa n).1, beside (readPa h who pa n).2 k) := readPa_go_beside own held ..

theorem writePa_go_beside {h k : Hw} (held : k.holds = h.holds) (ps : List (Nat × Nat)) (bs : List Byte) :
    writePa.go who (beside h k) bs ps = ((writePa.go who h bs ps).1, beside (writePa.go who h bs ps).2 k) := by
  induction ps generalizing h bs with
  | nil => rfl
  | cons p ps ih =>
    have stands := (standsBy_writePaPiece h own p.1 (bs.take p.2)).holds
    unfold writePa.go
    rw [writePaPiece_beside held own]
    generalize writePaPiece h who p.1 (bs.take p.2) = r at stands
    obtain ⟨answer, g⟩ := r
    cases answer with
    | bytes _ _ => exact ih (held.trans stands.symm) ..
    | _ => rfl

theorem writePa_beside {h k : Hw} (held : k.holds = h.holds) (pa : Nat) (bs : List Byte) :
    writePa (beside h k) who pa bs = ((writePa h who pa bs).1, beside (writePa h who pa bs).2 k) :=
  writePa_go_beside own held ..

theorem standsBy_readPa (pa n : Nat) : StandsBy h (readPa h who pa n).2 :=
  .of_beside (congrArg Prod.snd (readPa_beside (h := h) (k := h) own rfl pa n))

theorem standsBy_writePa (pa : Nat) (bs : List Byte) : StandsBy h (writePa h who pa bs).2 :=
  .of_beside (congrArg Prod.snd (writePa_beside (h := h) (k := h) own rfl pa bs))

end

/-! Translation -/

theorem follow_beside {h k : Hw} (held : k.holds = h.holds) (walker : Option Nat) (r va f l table : Nat) :
    follow (beside h k) walker r va f l table =
      ((follow h walker r va f l table).1, beside (follow h walker r va f l table).2 k) := by
  induction f generalizing h l table with
  | zero => rfl
  | succ f ih =>
    have world (g : Hw) (w : World) (a n : Nat) : hbmOfWorld (beside g k) w a n = hbmOfWorld g w a n := rfl
    have pointer (g : Hw) (e : Nat) : pointerOk (beside g k) r l e = pointerOk g r l e := rfl
    have stands := (standsBy_readPa h (who := castle (worldOf r)) rfl
      (table + va / 2 ^ levelShift l % levelEntries l * 8) 8).holds
    simp only [follow, world]
    rw [readPa_beside rfl held]
    by_cases c : l = 0 ∧ (!hbmOfWorld h (worldOf r) table 4096) = true
    · rw [if_pos c, if_pos c]
    rw [if_neg c, if_neg c]
    generalize readPa h (castle (worldOf r)) (table + va / 2 ^ levelShift l % levelEntries l * 8) 8 = read at stands
    obtain ⟨answer, g⟩ := read
    have next : k.holds = g.holds := held.trans stands.symm
    cases answer with
    | bytes bs p =>
      cases p with
      | some _ => rfl
      | none =>
        simp only [pointer]
        split_ifs
        · rfl
        · rfl
        · rfl
        · cases walker with
          | none => exact ih next ..
          | some b => exact ih (h := installPointer g b _) next ..
        · rfl
    | _ => rfl

/-- A walk begins: the cache counts a miss, the walkers a walk. -/
def walking (h : Hw) (x : Nat) : Hw :=
  let g := setXcache h x { xcache h x with misses := (xcache h x).misses + 1 }
  { g with xlate := { g.xlate with walks := g.xlate.walks + 1 } }

/-- What a walk has found is installed. -/
def installed (x r va : Nat) : Path × Hw → Path × Hw
  | (.leaf l a e, h) => (.leaf l a e, installLeaf h x r l va e)
  | found => found

theorem leafFor_of_hit {who : Who} {va : Nat} {e : LeafEntry}
    (hit : ((xcache h (xcacheOf h who)).entries.find? fun e =>
      e.regime = regimeOf who.world && e.page = va / 2 ^ levelShift e.level) = some e) :
    leafFor h who va = (.leaf e.level 0 e.leaf, setXcache h (xcacheOf h who)
      { xcache h (xcacheOf h who) with hits := (xcache h (xcacheOf h who)).hits + 1 }) := by
  simp only [leafFor, hit]

theorem leafFor_of_miss {who : Who} {va : Nat}
    (miss : ((xcache h (xcacheOf h who)).entries.find? fun e =>
      e.regime = regimeOf who.world && e.page = va / 2 ^ levelShift e.level) = none) :
    leafFor h who va =
      (let g := walking h (xcacheOf h who)
       let s := walkStart g who.board (regimeOf who.world) va
       installed (xcacheOf h who) (regimeOf who.world) va
         (follow g (some who.board) (regimeOf who.world) va (4 - s.1) s.1 s.2)) := by
  simp only [leafFor, miss]
  rfl

theorem installed_beside (x r va : Nat) (p : Path × Hw) :
    installed x r va (p.1, beside p.2 k) = ((installed x r va p).1, beside (installed x r va p).2 k) := by
  obtain ⟨path, g⟩ := p
  cases path <;> rfl

section
variable {h k : Hw} (same : k.slots = h.slots) (held : k.holds = h.holds) (who : Who)
include same

theorem cmdAt_beside (x : Nat) : cmdAt (beside h k) x = cmdAt h x := by rw [cmdAt, cmdAt, ← same]; rfl

theorem pinned_beside (va : Nat) : pinned (beside h k) who va = pinned h who va := by
  simp only [pinned, cmdAt_beside same]

theorem xcacheOf_beside : xcacheOf (beside h k) who = xcacheOf h who := by
  have read : cmdAt (beside h k) = cmdAt h := funext (cmdAt_beside same)
  rw [xcacheOf, xcacheOf, read]

include held

theorem leafFor_beside (va : Nat) :
    leafFor (beside h k) who va = ((leafFor h who va).1, beside (leafFor h who va).2 k) := by
  have cache := xcacheOf_beside same who
  cases look : (xcache h (xcacheOf h who)).entries.find? fun e =>
      e.regime = regimeOf who.world && e.page = va / 2 ^ levelShift e.level with
  | some e =>
    rw [leafFor_of_hit _ look, leafFor_of_hit (beside h k) (by rwa [cache]), cache]
    rfl
  | none =>
    have walked : walking (beside h k) (xcacheOf h who) = beside (walking h (xcacheOf h who)) k := rfl
    have start (g : Hw) : walkStart (beside g k) who.board (regimeOf who.world) va =
        walkStart g who.board (regimeOf who.world) va := rfl
    rw [leafFor_of_miss _ look, leafFor_of_miss (beside h k) (by rwa [cache]), cache]
    dsimp only
    rw [walked, start, follow_beside (h := walking h _) held]
    exact installed_beside ..

theorem walk_beside (va : Nat) (acc : Acc) :
    walk (beside h k) who va acc = ((walk h who va acc).1, beside (walk h who va acc).2 k) := by
  have enabled (r : Nat) : regimeEnabled (beside h k) r = regimeEnabled h r := rfl
  simp only [walk, enabled]
  split_ifs
  · rfl
  · rw [leafFor_beside same held]
    generalize leafFor h who va = found
    obtain ⟨path, g⟩ := found
    cases path with
    | leaf => dsimp only; split_ifs <;> rfl
    | _ => rfl

theorem translate_beside (va : Nat) (acc : Acc) :
    translate (beside h k) who va acc = ((translate h who va acc).1, beside (translate h who va acc).2 k) := by
  simp only [translate, pinned_beside same, walk_beside same held]
  split <;> rfl

end

theorem standsBy_translate (who : Who) (va : Nat) (acc : Acc) : StandsBy h (translate h who va acc).2 :=
  .of_beside (congrArg Prod.snd (translate_beside (h := h) (k := h) rfl rfl who va acc))

/-! Undefined contents -/

theorem StandsBy.foldl {α : Type} {f : Hw → α → Hw} (step : ∀ h x, StandsBy h (f h x)) (xs : List α) :
    StandsBy h (xs.foldl f h) :=
  List.foldlRecOn xs f (motive := StandsBy h) (.refl h) fun g k x _ => k.trans (step g x)

theorem standsBy_freeVa_go (who : Who) (ps : List (Nat × Nat)) : StandsBy h (runOn (freeVa.go who ps) h).2 := by
  induction ps generalizing h with
  | nil => exact .refl h
  | cons p ps ih =>
    have at_ := standsBy_translate h who p.1 .wr
    have freed (g : Hw) (m : Mem) : StandsBy g { g with mem := m } := ⟨rfl, rfl, rfl, rfl⟩
    unfold freeVa.go
    rw [runOn_bind_ok runOn_get]
    dsimp only
    generalize translate h who p.1 .wr = found at at_
    obtain ⟨walk, g⟩ := found
    -- Each answer sets a state from which the other pieces go on.
    have next {g' : Hw} (s : StandsBy g g') : StandsBy h (runOn (set g' >>= fun _ => freeVa.go who ps) h).2 := by
      rw [runOn_bind_ok (runOn_set _)]
      exact at_.trans (s.trans (ih g'))
    split
    · next e =>
      cases e
      split
      · split_ifs
        · exact next (.refl g)
        · exact next (freed ..)
      · exact next (freed ..)
      · exact next (.refl g)
    · next e =>
      cases e
      exact next (g' := freeHost g _ _) ⟨rfl, rfl, rfl, rfl⟩
    · next e =>
      cases e
      exact next (.refl _)

theorem standsBy_freeVaDraw (who : Who) (va n : Nat) : StandsBy h (runOn (freeVaDraw who va n) h).2 := by
  have freed : StandsBy h (runOn (freeVa who va n) h).2 := standsBy_freeVa_go ..
  unfold freeVaDraw
  rw [runOn_bind]
  generalize runOn (freeVa who va n) h = r at freed
  obtain ⟨_ | _, g⟩ := r
  · exact freed
  · exact freed.trans ⟨rfl, rfl, rfl, rfl⟩

theorem standsBy_spoil (who : Who) (rs : List (Nat × Nat)) : StandsBy h (spoil who rs h) :=
  .foldl h (fun g (r : Nat × Nat) => standsBy_freeVaDraw g who r.1 r.2) rs

/-- What a command's end leaves open touches no command and no task. -/
theorem standsBy_leaveOpen (slot : Nat) (c : Cmd) : StandsBy h (leaveOpen h slot c) := by
  have noted : StandsBy h (notePast h slot c) := by
    rw [notePast_eq]
    exact ⟨rfl, rfl, rfl, rfl⟩
  exact noted.trans (standsBy_spoil ..)

end Sys2Proof.Machine
end

section
/-! PROOFS. STOP, ABORT and the disabling of rings (R58), and the clearing of ERROR_HALT (R34, R53): O13. -/

namespace Sys2Proof.Machine

variable {h : Hw} {slot st d0 d1 : Nat}

/-! The end of one command beside the others -/

theorem finish_of_none (e : cmdAt h slot = none) : finish h slot st d0 d1 = h := by rw [finish, e]

theorem holds_finish : (finish h slot st d0 d1).holds = h.holds := by
  cases e : cmdAt h slot with
  | none => rw [finish_of_none e]
  | some c =>
    rw [finish_eq e]
    exact (standsBy_leaveOpen h slot c).holds

theorem taskOf_finish (k : Nat) : taskOf (finish h slot st d0 d1) k = taskOf h k := by
  cases e : cmdAt h slot with
  | none => rw [finish_of_none e]
  | some c =>
    rw [finish_eq e, taskOf]
    exact congrArg (List.find? _) (standsBy_leaveOpen h slot c).streams

/-- The end of a command leaves every other. -/
theorem cmdAt_finish_ne {k : Nat} (ne : k ≠ slot) : cmdAt (finish h slot st d0 d1) k = cmdAt h k := by
  cases e : cmdAt h slot with
  | none => rw [finish_of_none e]
  | some c => rw [cmdAt_finish e, if_neg ne, cmdAt, (standsBy_leaveOpen h slot c).slots, cmdAt]

/-- The end of a command whose operands overlap nowhere, without a work buffer, leaves memory. -/
theorem mem_finish {c : Cmd} (e : cmdAt h slot = some c) (apart : c.overlaps = []) (none_ : c.workBuffer = []) :
    (finish h slot st d0 d1).mem = h.mem := by
  rw [finish_eq e, leaveOpen_plain none_ apart, notePast_eq]

theorem endCountOf_of_some {c : Cmd} (e : cmdAt h slot = some c) : endCountOf h slot = endCount c := by
  rw [endCountOf, e]
  rfl

/-! Slots in order -/

theorem mem_of_smFind {α : Type} {m : List (Nat × α)} {k : Nat} {v : α} (f : smFind m k = some v) : (k, v) ∈ m := by
  induction m with
  | nil => cases f
  | cons e r ih =>
    unfold smFind at f
    split_ifs at f with first
    · obtain rfl := first
      cases f
      exact List.mem_cons_self
    · exact List.mem_cons_of_mem _ (ih f)

theorem le_of_mem_sorted {α : Type} {m : List (Nat × α)} {b : Nat} (s : smSorted b m = true) {e : Nat × α}
    (i : e ∈ m) : b ≤ e.1 := by
  induction m generalizing b with
  | nil => cases i
  | cons x r ih =>
    simp only [smSorted, Bool.and_eq_true, decide_eq_true_eq] at s
    rcases List.mem_cons.mp i with rfl | later
    · exact s.1
    · exact Nat.le_trans s.1 (Nat.le_of_succ_le (ih s.2 later))

theorem smFind_of_mem {α : Type} {m : List (Nat × α)} {b : Nat} (s : smSorted b m = true) {e : Nat × α}
    (i : e ∈ m) : smFind m e.1 = some e.2 := by
  induction m generalizing b with
  | nil => cases i
  | cons x r ih =>
    simp only [smSorted, Bool.and_eq_true, decide_eq_true_eq] at s
    rcases List.mem_cons.mp i with rfl | later
    · exact if_pos rfl
    · have after := le_of_mem_sorted s.2 later
      exact (if_neg (by omega)).trans (ih s.2 later)

/-! The commands of an aborted ring -/

/-- A ring abort ends the command of a slot. -/
def abortEnds (n : Nat) (h : Hw) (e : Nat × Cmd) : Prop := e.2.ring.val = n ∧ abortable h e.1 e.2 = true

/-- What a ring abort makes of a slot. -/
def abortSlot (n : Nat) (h : Hw) (e : Nat × Cmd) : Hw :=
  if e.2.ring.val = n ∧ abortable h e.1 e.2 then abortCmd h e.1 1 0 else h

section
variable {n : Nat} {e : Nat × Cmd}

theorem holds_abortSlot : (abortSlot n h e).holds = h.holds := by
  unfold abortSlot
  split_ifs
  · exact holds_finish
  · rfl

theorem abortEnds_congr {g : Hw} (same : g.holds = h.holds) : abortEnds n g e ↔ abortEnds n h e := by
  have read : holds g e.1 = holds h e.1 := by rw [holds, same, holds]
  simp only [abortEnds, abortable, read]

theorem cmdAt_abortSlot {k : Nat} (other : e.1 = k → ¬ abortEnds n h e) :
    cmdAt (abortSlot n h e) k = cmdAt h k := by
  unfold abortSlot
  split_ifs with ends
  · exact cmdAt_finish_ne fun own => other own.symm ends
  · rfl

/-- Commands that the abort does not end stay. -/
theorem cmdAt_abortSlots {k : Nat} {es : List (Nat × Cmd)} (others : ∀ e ∈ es, e.1 = k → ¬ abortEnds n h e) :
    cmdAt (es.foldl (abortSlot n) h) k = cmdAt h k := by
  induction es generalizing h with
  | nil => rfl
  | cons x es ih =>
    rw [List.foldl_cons, ih fun e i own => mt (abortEnds_congr holds_abortSlot).mp (others e (.tail _ i) own),
      cmdAt_abortSlot (others x List.mem_cons_self)]

theorem ended_congr {g : Hw} (same : cmdAt g slot = cmdAt h slot) (end_ : ended h slot st d0 d1) :
    ended g slot st d0 d1 := by rwa [ended, same]

/-- Those that it ends have ended as it says. -/
theorem ended_abortSlots {b : Nat} {es : List (Nat × Cmd)} (sorted : smSorted b es = true) (i : e ∈ es)
    (at_ : cmdAt h e.1 = some e.2) (ends : abortEnds n h e) :
    ended (es.foldl (abortSlot n) h) e.1 3 1 (endCount e.2) := by
  induction es generalizing h b with
  | nil => cases i
  | cons x es ih =>
    simp only [smSorted, Bool.and_eq_true, decide_eq_true_eq] at sorted
    rw [List.foldl_cons]
    rcases List.mem_cons.mp i with rfl | later
    · have after : ∀ y ∈ es, y.1 = e.1 → ¬ abortEnds n (abortSlot n h e) y := fun y j own => by
        have := le_of_mem_sorted sorted.2 j
        omega
      refine ended_congr (cmdAt_abortSlots after) ?_
      have done : abortSlot n h e = abortCmd h e.1 1 0 := if_pos ends
      rw [done, abortCmd, endCountOf_of_some at_]
      exact ended_finish at_
    · have before : x.1 ≠ e.1 := by
        have := le_of_mem_sorted sorted.2 later
        omega
      exact ih sorted.2 later ((cmdAt_abortSlot fun own => absurd own before).trans at_)
        ((abortEnds_congr holds_abortSlot).mpr ends)

/-- Where none of those has overlapping operands or a work buffer, memory stays. -/
theorem mem_abortSlots {b : Nat} {es : List (Nat × Cmd)} (sorted : smSorted b es = true)
    (at_ : ∀ e ∈ es, cmdAt h e.1 = some e.2)
    (plain : ∀ e ∈ es, abortEnds n h e → e.2.overlaps = [] ∧ e.2.workBuffer = []) :
    (es.foldl (abortSlot n) h).mem = h.mem := by
  induction es generalizing h b with
  | nil => rfl
  | cons x es ih =>
    simp only [smSorted, Bool.and_eq_true, decide_eq_true_eq] at sorted
    have kept : ∀ e ∈ es, cmdAt (abortSlot n h x) e.1 = some e.2 := fun e i => by
      have := le_of_mem_sorted sorted.2 i
      rw [cmdAt_abortSlot fun own => by omega]
      exact at_ e (.tail _ i)
    have later : ∀ e ∈ es, abortEnds n (abortSlot n h x) e → e.2.overlaps = [] ∧ e.2.workBuffer = [] := fun e i ends =>
      plain e (.tail _ i) ((abortEnds_congr holds_abortSlot).mp ends)
    rw [List.foldl_cons, ih sorted.2 kept later]
    unfold abortSlot
    split_ifs with ends
    · obtain ⟨apart, none_⟩ := plain x List.mem_cons_self ends
      exact mem_finish (at_ x List.mem_cons_self) apart none_
    · rfl

end

/-! The commands of the ring page -/

section
variable {n : Nat}

theorem regBit_setRegBit_self (h : Hw) (o : Nat) {i : Nat} (b : Bool) (l : i < 32) :
    regBit (setRegBit h o i b) o i = b := by rw [regBit_setRegBit _ _ _ _ _ _ l, if_pos ⟨rfl, rfl⟩]

theorem regBit_setRegBit_ne (h : Hw) (o : Nat) {i j : Nat} (b : Bool) (l : i < 32) (ne : j ≠ i) :
    regBit (setRegBit h o i b) o j = regBit h o j := by
  rw [regBit_setRegBit _ _ _ _ _ _ l, if_neg fun same => ne same.2]

/-- ABORT on an enabled ring: STOPPING, the end of each command it may end, and that of the ring's tasks. -/
theorem ringAbortHw_of_enabled (on : ringEnabled h n = true) : ringAbortHw n h =
    abortTasks (h.slots.foldl (abortSlot n) (setRegBit h (rRingStatus n) 3 true)) n := if_pos on

/-- Ends of commands leave the status of the ring. -/
theorem ringStopping_abortSlots (ln : n < 64) (es : List (Nat × Cmd)) :
    ringStopping (es.foldl (abortSlot n) h) n = ringStopping h n := by
  have step (h : Hw) (e : Nat × Cmd) : KeepsStored h (abortSlot n h e) := by
    unfold abortSlot
    split_ifs
    · exact keepsStored_finish ..
    · exact .refl h
  have status := (KeepsStored.foldl step es h).reg (rRingStatus n) (steady_rRing ln (by decide))
  rw [ringStopping, regBit, status, ringStopping, regBit]

/-- A ring none of whose commands holds a slot. -/
theorem inFlight_eq_zero {r : RingId} (sorted : smSorted 0 h.slots = true)
    (none_ : ∀ k c, cmdAt h k = some c → c.ring ≠ r) : inFlight h r.val = 0 := by
  rw [inFlight, List.length_eq_zero_iff, List.filter_eq_nil_iff]
  intro e i
  have := none_ e.1 e.2 (smFind_of_mem sorted i)
  simpa [Fin.val_inj] using this

theorem ringDisabledHw_of_drained (on : ringEnabled h n = true) (stopping : ringStopping h n = true)
    (drained : inFlight h n = 0) : ringDisabledHw n h =
      setRegBit (setRegBit h (rRingStatus n) 0 false) (rRingStatus n) 3 false := if_pos ⟨on, stopping, drained⟩

theorem errorHaltClearHw_of_disabled (off : ringEnabled h n = false) :
    errorHaltClearHw n h = setRegBit h (rRingStatus n) 8 false := if_neg (by simp [off])

theorem errorHaltClearHw_of_enabled (on : ringEnabled h n = true) : errorHaltClearHw n h =
    writeDue (setRingAux (setRegBit h (rRingStatus n) 8 false) n { ringAux h n with cqFailed := false }) := if_pos on

end

/-- Settles O13: the commands of an aborted ring end one by one, in the order of their slots. -/
theorem ringStopAbortDisable : Obligations.RingStopAbortDisable := by
  intro w n s
  refine ⟨fun a on => ⟨?stop, ?abort⟩, fun on stopping none_ sorted => ?disable,
    fun a => ⟨fun off => ?clearOff, fun on => ?clearOn, fun on due => ?clearDrained⟩⟩
  case stop =>
    have done : effect (.ringStop w n) s (ringStopHw n.val s.hw) := effect_of_acts rfl a
    rw [ringStopHw, if_pos on] at done
    exact ⟨_, done, regBit_setRegBit_self _ _ _ (by decide),
      (regBit_setRegBit_ne _ _ _ (by decide) (by decide)).trans on, onlyRegs_setRegBit ..⟩
  case abort =>
    have done : effect (.ringAbort w n) s (ringAbortHw n.val s.hw) := effect_of_acts rfl a
    rw [ringAbortHw_of_enabled on] at done
    have rings {k : Nat} {c : Cmd} : abortEnds n.val (setRegBit s.hw (rRingStatus n.val) 3 true) (k, c) ↔
        c.ring = n ∧ abortable s.hw k c = true := and_congr_left fun _ => Fin.val_inj
    refine ⟨_, done, ?stopping, fun sorted =>
      ⟨fun k c e ring may => ?ends, fun k c e stays => ?stay, fun plain => ?mem⟩⟩
    case stopping =>
      exact (ringStopping_abortSlots n.isLt _).trans (regBit_setRegBit_self _ _ _ (by decide))
    case ends => exact ended_abortSlots (e := (k, c)) sorted (mem_of_smFind e) e (rings.mpr ⟨ring, may⟩)
    case stay =>
      refine (cmdAt_abortSlots fun x i own ends => ?_).trans e
      obtain ⟨j, d⟩ := x
      obtain rfl : j = k := own
      obtain rfl : c = d := Option.some.inj (e.symm.trans (smFind_of_mem sorted i))
      obtain ⟨ring, may⟩ := rings.mp ends
      exact stays.elim (absurd ring) fun not => Bool.false_ne_true (not.symm.trans may)
    case mem =>
      refine mem_abortSlots sorted (fun x i => smFind_of_mem sorted i) fun x i ends => ?_
      obtain ⟨ring, may⟩ := rings.mp ends
      exact plain x.1 x.2 (smFind_of_mem sorted i) ring may
  case disable =>
    have done : effect (.ringDisabled n) s (ringDisabledHw n.val s.hw) := effect_of_onHw rfl
    rw [ringDisabledHw_of_drained on stopping (inFlight_eq_zero sorted none_)] at done
    refine ⟨_, done, ?_, ?_, ?_⟩
    · exact (regBit_setRegBit_ne _ _ _ (by decide) (by decide)).trans (regBit_setRegBit_self _ _ _ (by decide))
    · exact regBit_setRegBit_self _ _ _ (by decide)
    · refine ⟨fun o m => ?_, rfl⟩
      have ne : o ≠ rRingStatus n.val := by simpa using m
      rw [setRegBit, getReg_setReg_ne _ _ ne, setRegBit, getReg_setReg_ne _ _ ne]
  case clearOff =>
    have done : effect (.errorHaltClear w n) s (errorHaltClearHw n.val s.hw) := effect_of_acts rfl a
    rw [errorHaltClearHw_of_disabled off] at done
    exact ⟨_, done, regBit_setRegBit_self _ _ _ (by decide), onlyRegs_setRegBit ..⟩
  case clearOn =>
    rw [← errorHaltClearHw_of_enabled on]
    exact effect_of_acts rfl a
  case clearDrained =>
    have done : effect (.errorHaltClear w n) s (errorHaltClearHw n.val s.hw) := effect_of_acts rfl a
    rw [errorHaltClearHw_of_enabled on, writeDue_of_nil (by exact due)] at done
    refine ⟨_, done, regBit_setRegBit_self _ _ _ (by decide), fun o m => ?_, ?_, rfl, rfl⟩
    · exact getReg_setReg_ne _ _ (by simpa using m)
    · rw [ringAux_setRingAux_self]

end Sys2Proof.Machine
end

section
/-! PROOFS. Dispatch (R42-R49): O16. -/

namespace Sys2Proof.Machine

variable {h : Hw} {slot : Nat} {c d : Cmd}

/-! What a dispatch fixes -/

theorem stampStep_packet (h : Hw) (c : Cmd) : (stampStep h c).packet = c.packet := by
  unfold stampStep
  dsimp only
  split_ifs <;> rfl

theorem stampStep_doneUnits (h : Hw) (c : Cmd) : (stampStep h c).doneUnits = c.doneUnits := by
  unfold stampStep
  dsimp only
  split_ifs <;> rfl

theorem stampStep_empty (h : Hw) (c : Cmd) : (stampStep h c).empty = c.empty := by
  unfold stampStep
  dsimp only
  split_ifs <;> rfl

theorem stampStep_world (h : Hw) (c : Cmd) : (stampStep h c).world = c.world := by
  unfold stampStep
  dsimp only
  split_ifs <;> rfl

/-- The first dispatch of a command fixes its step. -/
theorem stampStep_of_new (new : c.key = []) : stampStep h c =
    { c with knows := ringKnows h c.ring.val, step := BitVec.ofNat 64 (stepNum h), key := h.train.stepKey,
             inStep := stepOpen h } := if_pos new

/-- A later one leaves it. -/
theorem stampStep_of_old (old : c.key ≠ []) : stampStep h c = { c with knows := ringKnows h c.ring.val } := if_neg old

/-- The state in which a dispatch decides what becomes of the command. -/
def dispatched (h : Hw) (slot : Nat) (c : Cmd) : Hw := setCmd (learn h c) slot (stampStep (learn h c) c)

/-! What becomes of it -/

section
variable (e : cmdAt h slot = some c)
include e

theorem dispatchHw_of_not (not : mayDispatch h slot c = false) : dispatchHw slot h = h := by
  rw [dispatchHw, e]
  exact if_pos (by rw [not]; rfl)

section
variable (may : mayDispatch h slot c = true)
include may

theorem dispatchHw_of_may : dispatchHw slot h =
    match waitInError h (stampStep (learn h c) c).packet with
    | some k => finish (dispatched h slot c) slot 3 (2 + k * 2 ^ 16) 0
    | none =>
      if (stampStep (learn h c) c).empty then
        let g := finish (dispatched h slot c) slot 1 0 0
        match taskOf g slot with
        | some t => if t.slot = slot then modStream g t.task fun t => { t with checked := true } else g
        | none => g
      else if (maskOff (stampStep (learn h c) c).opcode).isSome ∧ (stampStep (learn h c) c).mask.all (tileOut h) then
        noTile (dispatched h slot c) slot (stampStep (learn h c) c).mask
      else if (stampStep (learn h c) c).cls = 7 ∧ (stampStep (learn h c) c).world = .nonSecure ∧
          mapSecure h (mapActive h) then finish (dispatched h slot c) slot 0x13 0 0
      else startCmd (dispatched h slot c) slot (stampStep (learn h c) c) := by
  rw [dispatchHw, e]
  exact if_neg (by rw [may]; decide)

/-- A wait whose counter is in error ends it (R44). -/
theorem dispatchHw_of_waitInError {k : Nat} (wait : waitInError h c.packet = some k) :
    dispatchHw slot h = finish (dispatched h slot c) slot 3 (2 + k * 2 ^ 16) 0 := by
  rw [dispatchHw_of_may e may, stampStep_packet, wait]

variable (waits : waitInError h c.packet = none)
include waits

/-- A work count of zero ends it (R49). -/
theorem dispatchHw_of_empty (empty : c.empty = true) (alone : taskOf h slot = none) :
    dispatchHw slot h = finish (dispatched h slot c) slot 1 0 0 := by
  have task : taskOf (finish (dispatched h slot c) slot 1 0 0) slot = none := (taskOf_finish slot).trans alone
  rw [dispatchHw_of_may e may, stampStep_packet, waits]
  dsimp only
  rw [if_pos ((stampStep_empty ..).trans empty), task]

variable (work : c.empty = false)
  (serves : (maskOff c.opcode).isSome = false ∨ ∃ t ∈ c.mask, tileOut h t = false)
include work serves

/-- With work to do and a tile that serves, the world of the map decides (R308). -/
theorem dispatchHw_of_work : dispatchHw slot h =
    if c.cls = 7 ∧ c.world = .nonSecure ∧ mapSecure h (mapActive h) then finish (dispatched h slot c) slot 0x13 0 0
    else startCmd (dispatched h slot c) slot (stampStep (learn h c) c) := by
  have op : (stampStep (learn h c) c).opcode = c.opcode := congrArg hOpcode (stampStep_packet ..)
  have cls : (stampStep (learn h c) c).cls = c.cls := congrArg (· / 16) op
  have mask : (stampStep (learn h c) c).mask = c.mask := by rw [Cmd.mask, op, stampStep_packet, Cmd.mask]
  have served : ¬ ((maskOff c.opcode).isSome = true ∧ c.mask.all (tileOut h) = true) := by
    rintro ⟨some_, all⟩
    rcases serves with none_ | ⟨t, i, in_⟩
    · exact Bool.false_ne_true (none_.symm.trans some_)
    · exact Bool.false_ne_true (in_.symm.trans (List.all_eq_true.mp all t i))
  rw [dispatchHw_of_may e may, stampStep_packet, waits]
  dsimp only
  rw [stampStep_empty, work, if_neg (by decide), op, mask, if_neg served, cls, stampStep_world]

end
end

/-! A command that starts -/

/-- A slot runs a command as its dispatch made it, and memory is as given. -/
structure Started (slot : Nat) (d : Cmd) (m : Mem) (h : Hw) : Prop where
  runs : ∃ c, cmdAt h slot = some c ∧ c.phase = .running ∧ c.packet = d.packet ∧ c.doneUnits = d.doneUnits ∧
    c.step = d.step ∧ c.key = d.key ∧ c.inStep = d.inStep
  mem : h.mem = m

namespace Started
variable {m : Mem} {g : Hw}

theorem of_same (s : Started slot d m h) (slots : g.slots = h.slots) (mem : g.mem = h.mem) : Started slot d m g :=
  ⟨by rw [cmdAt, slots]; exact s.runs, mem.trans s.mem⟩

/-- A change of the command that leaves what a dispatch fixes. -/
theorem modCmd (s : Started slot d m h) {f : Cmd → Cmd} (f_keeps : ∀ c, (f c).phase = c.phase ∧
    (f c).packet = c.packet ∧ (f c).doneUnits = c.doneUnits ∧ (f c).step = c.step ∧ (f c).key = c.key ∧
    (f c).inStep = c.inStep) : Started slot d m (modCmd h slot f) := by
  obtain ⟨⟨c, e, phase, packet, units, step, key, open_⟩, mem⟩ := s
  obtain ⟨phase', packet', units', step', key', open'⟩ := f_keeps c
  rw [modCmd_of_some _ f e]
  exact ⟨⟨f c, cmdAt_setCmd_self .., phase'.trans phase, packet'.trans packet, units'.trans units, step'.trans step,
    key'.trans key, open'.trans open_⟩, mem⟩

theorem startClosing (s : Started slot d m h) (c : Cmd) : Started slot d m (startClosing slot c h) := by
  unfold Machine.startClosing
  split_ifs
  · exact (s.of_same (g := setRegFld h rTrainStatus 1 0 2) rfl rfl).modCmd fun c => ⟨rfl, rfl, rfl, rfl, rfl, rfl⟩
  · exact s.modCmd fun c => ⟨rfl, rfl, rfl, rfl, rfl, rfl⟩

theorem openColl (s : Started slot d m h) (c : Cmd) : Started slot d m (openColl h slot c) := s.of_same rfl rfl

theorem takeTiles (s : Started slot d m h) (mask : List Nat) : Started slot d m (takeTiles h slot mask) := by
  unfold Machine.takeTiles
  extract_lets ts stages g
  have busy : OnlyRegsIn (fun _ => True) h g := .foldl (fun t _ g =>
    (OnlyRegsIn.setReg trivial g _).trans ((OnlyRegsIn.setReg trivial ..).trans
      ((OnlyRegsIn.setReg trivial ..).trans (.setReg trivial ..)))) h
  exact (s.of_same (g := g) (by rw [busy.rest]) (by rw [busy.rest])).modCmd fun c => ⟨rfl, rfl, rfl, rfl, rfl, rfl⟩

end Started

theorem started_startCmd : Started slot d h.mem (startCmd h slot d) := by
  have running : Started slot d h.mem (setCmd h slot { d with phase := .running }) :=
    ⟨⟨_, cmdAt_setCmd_self .., rfl, rfl, rfl, rfl, rfl, rfl⟩, rfl⟩
  unfold startCmd
  extract_lets h1 h2 _ h3 h4 h5
  have closing : Started slot d h.mem h2 := by
    unfold h2
    split_ifs
    · exact running.startClosing d
    · exact running
  have update : Started slot d h.mem h3 := by
    unfold h3
    split_ifs
    · exact closing.of_same rfl rfl
    · exact closing
  have coll : Started slot d h.mem h4 := by
    unfold h4
    split_ifs
    · exact update.openColl d
    · exact update
  have note : Started slot d h.mem h5 := by
    unfold h5
    split_ifs
    · exact coll.modCmd fun c => ⟨rfl, rfl, rfl, rfl, rfl, rfl⟩
    · exact coll
  split_ifs
  · exact note.takeTiles d.mask
  · exact note

/-- Settles O16: the cases of a dispatch, each by its equation. -/
theorem dispatchStartsTheCommand : Obligations.DispatchStartsTheCommand := by
  intro slot s c e g d h1 secureMap
  have done : effect (.dispatch slot) s (dispatchHw slot.val s.hw) := effect_of_onHw rfl
  have ends (st d0 d1 : Nat) : endsOnly h1 (finish h1 slot.val st d0 d1) slot.val d st d0 d1 :=
    endsOnly_finish (cmdAt_setCmd_self ..)
  refine ⟨stampStep_packet .., stampStep_doneUnits .., fun new => ?new, fun old => stampStep_of_old old,
    fun not => ?not, fun may => ⟨fun k wait => ?wait, fun waits empty alone => ?empty,
      fun waits work serves => ⟨fun secure => ?secure, fun open_ => ?runs⟩⟩⟩
  case new =>
    have first : d = _ := stampStep_of_new new
    rw [first]
    exact ⟨rfl, rfl, rfl⟩
  case not => rwa [dispatchHw_of_not e not] at done
  case wait => exact ⟨_, dispatchHw_of_waitInError e may wait ▸ done, ends ..⟩
  case empty => exact ⟨_, dispatchHw_of_empty e may waits empty alone ▸ done, ends ..⟩
  case secure =>
    rw [dispatchHw_of_work e may waits work serves, if_pos secure] at done
    exact ⟨_, done, ends ..⟩
  case runs =>
    rw [dispatchHw_of_work e may waits work serves, if_neg open_] at done
    obtain ⟨⟨c', at_, phase, packet, units, step, key, inStep⟩, mem⟩ :=
      started_startCmd (h := h1) (slot := slot.val) (d := d)
    exact ⟨_, c', done, at_, phase, packet.trans (stampStep_packet ..), units.trans (stampStep_doneUnits ..), step, key,
      inStep, mem⟩

end Sys2Proof.Machine
end

section
/-! PROOFS. The fence actions (R381) and the control commands NOP, FENCE, WAIT_EVENT and SIGNAL (R43-R47): O10. -/

namespace Sys2Proof.Machine

variable {h : Hw} {slot st d0 d1 : Nat} {c : Cmd}

/-! Commands without tiles and operands -/

/-- A command of an opcode that holds no tile does its work where it is ready. -/
theorem withCmd_of_ready {op : Nat} {f : Cmd → Hw → Hw} (r : ready h slot op c) (free : holdsTiles op = false) :
    withCmd slot op f h = f c h := by
  obtain ⟨at_, code, -⟩ := active_some r.1
  have claims : claimTiles h slot c = h := if_neg (by simp [code, free])
  simp only [withCmd, r.1, claims, at_, free, Bool.false_eq_true, false_and, if_false]

theorem cls_of_opcode {op : Nat} (code : c.opcode = op) : c.cls = op / 16 := by rw [← code]; rfl

/-- The end of a control command leaves open only the order of what it stored. -/
theorem leaveOpen_control (cls : c.cls = 0) : leaveOpen h slot c = { h with order := (leaveOpen h slot c).order } := by
  rw [leaveOpen_plain (workBuffer_control (.inl cls)) (overlaps_control (.inl cls)), notePast_eq]

theorem mem_finish_control (e : cmdAt h slot = some c) (cls : c.cls = 0) : (finish h slot st d0 d1).mem = h.mem :=
  mem_finish e (overlaps_control (.inl cls)) (workBuffer_control (.inl cls))

theorem host_finish_control (e : cmdAt h slot = some c) (cls : c.cls = 0) : (finish h slot st d0 d1).host = h.host := by
  rw [finish_eq e, leaveOpen_control cls]

theorem regsKept_finish_control (e : cmdAt h slot = some c) (cls : c.cls = 0) :
    regsKept h (finish h slot st d0 d1) (tileStatuses c.tiles) := fun o n => by
  rw [regsKept_finish e o n, leaveOpen_control cls]
  rfl

/-! The agent's lines -/

theorem lines_writeBackLine (h : Hw) (line : Nat) :
    (writeBackLine h line).host.lines = h.host.lines.filter fun e => e.1 ≠ line := by
  have cleared (a n : Nat) : (clearHostPoison h a n).host.lines = h.host.lines := by
    unfold clearHostPoison
    split_ifs <;> rfl
  unfold writeBackLine
  split
  · next none_ =>
    refine (List.filter_eq_self.mpr fun e i => ?_).symm
    have := List.find?_eq_none.mp (Option.map_eq_none_iff.mp none_) e i
    simpa using this
  · exact congrArg (List.filter _) (cleared ..)

/-- Once some lines have been written back, those left are the others. -/
theorem lines_writeBackLines_foldl (es : List (Nat × AgentLine)) :
    (es.foldl (fun h e => writeBackLine h e.1) h).host.lines =
      h.host.lines.filter fun x => es.all fun e => x.1 ≠ e.1 := by
  induction es generalizing h with
  | nil => simp
  | cons e es ih =>
    rw [List.foldl_cons, ih, lines_writeBackLine, List.filter_filter]
    simp [Bool.and_comm]

/-- With every line written back none is left. -/
theorem lines_writeBackLines_all (h : Hw) : (writeBackLines h fun _ => true).host.lines = [] := by
  rw [writeBackLines, lines_writeBackLines_foldl, List.filter_eq_nil_iff]
  intro x i
  have own : ¬ ∀ e ∈ h.host.lines, x.1 ≠ e.1 := fun all => all x i rfl
  simpa using own

/-! Fence actions -/

/-- What stays through fence actions: as through a write into host memory, but for the count of flushing reads. -/
structure KeepsButFence (h h' : Hw) : Prop where
  reg : ∀ o, o ≠ rHost 0x08 → o ≠ rHost 0x20 → o ≠ rHost 0x24 → getReg h' o = getReg h o
  mem : ∀ sp a, sp ≠ .host → h'.mem.read sp a = h.mem.read sp a
  rest : h' = { h with regs := h'.regs, freeRegs := h'.freeRegs, mem := h'.mem, host := h'.host }

theorem KeepsButHost.fence {h h' : Hw} (k : KeepsButHost h h') : KeepsButFence h h' :=
  ⟨fun o x y _ => k.reg o x y, k.mem, k.rest⟩

theorem KeepsButHost.flushed {h h' : Hw} (k : KeepsButHost h h') (n : Nat) : KeepsButFence h (flushReads h' n) :=
  ⟨fun o x y z => (getReg_setReg_ne _ _ z).trans (k.reg o x y), k.mem, by
    have moved : flushReads h' n =
      { h' with regs := (flushReads h' n).regs, freeRegs := (flushReads h' n).freeRegs } := rfl
    rw [moved, k.rest]⟩

theorem fenceActions_of_some (e : cmdAt h slot = some c) : fenceActions h slot =
    (let g := setCmd h slot { c with fenced := true }
     if c.fenced ∨ !hFenceGlobal c.packet ∨ !hostUp g then g
     else if c.opcode = 1 ∨ c.opcode = 3 then
       let w := writeBackLines g fun _ => true
       flushReads w ((if w.host.lastWrite.isSome then 1 else 0) + validPeers w)
     else if c.wroteHost then flushReads (writeBackLines g fun s => s = slot) (1 + c.peers.length)
     else g) := by
  rw [fenceActions, e]

/-- The fence actions of a command mark it, and leave all but the host's side. -/
theorem keepsButFence_fenceActions (e : cmdAt h slot = some c) :
    KeepsButFence (setCmd h slot { c with fenced := true }) (fenceActions h slot) := by
  rw [fenceActions_of_some e]
  dsimp only
  split
  · exact (KeepsButHost.refl _).fence
  split
  · exact (keepsButHost_writeBackLines ..).flushed _
  split
  · exact (keepsButHost_writeBackLines ..).flushed _
  · exact (KeepsButHost.refl _).fence

theorem getReg_fenceActions (e : cmdAt h slot = some c) {o : Nat} (a : o ≠ rHost 0x08) (b : o ≠ rHost 0x20)
    (r : o ≠ rHost 0x24) : getReg (fenceActions h slot) o = getReg h o :=
  (keepsButFence_fenceActions e).reg o a b r

theorem cmdAt_fenceActions (e : cmdAt h slot = some c) (k : Nat) :
    cmdAt (fenceActions h slot) k = if k = slot then some { c with fenced := true } else cmdAt h k := by
  rw [(keepsButFence_fenceActions e).rest]
  exact cmdAt_setCmd ..

/-- Without FENCE_GLOBAL there are none. -/
theorem fenceActions_of_local (e : cmdAt h slot = some c) (local_ : hFenceGlobal c.packet = false) :
    fenceActions h slot = setCmd h slot { c with fenced := true } := by
  rw [fenceActions_of_some e]
  exact if_pos (.inr (.inl (by rw [local_]; rfl)))

/-- Those of FENCE and SIGNAL leave the agent no line. -/
theorem lines_fenceActions (e : cmdAt h slot = some c) (code : c.opcode = 1 ∨ c.opcode = 3)
    (global : hFenceGlobal c.packet = true) (first : c.fenced = false) (up : hostUp h = true) :
    (fenceActions h slot).host.lines = [] := by
  have acts : ¬ (c.fenced = true ∨ (!hFenceGlobal c.packet) = true ∨
      (!hostUp (setCmd h slot { c with fenced := true })) = true) := by
    have linked : hostUp (setCmd h slot { c with fenced := true }) = true := up
    simp [global, first, linked]
  rw [fenceActions_of_some e]
  dsimp only
  rw [if_neg acts, if_pos code]
  exact lines_writeBackLines_all _

/-! Counters -/

/-- A wait is met where the signed difference is not negative (R43). -/
theorem waitMet_iff : waitMet h c = true ↔
    0 ≤ (getReg h (rCtr (parBits c.packet 0 9 0)) - BitVec.ofNat 32 (par c.packet 4 4)).toInt := by
  rw [waitMet, ctrMet, BitVec.msb_eq_toInt]
  simp

theorem rCtr_ne_rHost {k r : Nat} (l : k < 1024) (lr : r < 0x1000) : rCtr k ≠ rHost r := by
  simp only [rCtr, rHost, regOf, baseOf]
  omega

theorem parBits_lt (p : List Byte) (off hi lo : Nat) : parBits p off hi lo < 2 ^ (hi + 1 - lo) :=
  Nat.mod_lt _ (Nat.two_pow_pos _)

/-! SIGNAL -/

/-- The counter of a SIGNAL. -/
def signalCtr (c : Cmd) : Nat := parBits c.packet 0 9 0

/-- What a SIGNAL does before its store, from the state after its fence actions. -/
theorem signalled_of_done (done : c.priv = [1]) : signalled h slot c = fenceActions h slot := if_pos done

/-- The update of its counter. -/
theorem signalled_of_new (new : c.priv ≠ [1]) : signalled h slot c =
    modCmd (learnCtr (ctrSignal (fenceActions h slot) (signalCtr c) (parBit c.packet 0 16)
        (BitVec.ofNat 32 (par c.packet 4 4))) (signalCtr c) c.knows) slot
      fun x => { x with priv := [1], outRanges := if parBit x.packet 0 17 then [(par x.packet 8 8, 8)] else [] } :=
  if_neg new

@[simp] theorem getReg_modCmd (k : Nat) (f : Cmd → Cmd) (o : Nat) : getReg (modCmd h k f) o = getReg h o := by
  unfold modCmd
  split <;> rfl

@[simp] theorem mem_modCmd (k : Nat) (f : Cmd → Cmd) : (modCmd h k f).mem = h.mem := by
  unfold modCmd
  split <;> rfl

section
variable (e : cmdAt h slot = some c)
include e

/-- Registers but the counter and those of the fence actions stay. -/
theorem getReg_signalled {o : Nat} (k : c.priv = [1] ∨ o ≠ rCtr (signalCtr c)) (a : o ≠ rHost 0x08)
    (b : o ≠ rHost 0x20) (r : o ≠ rHost 0x24) : getReg (signalled h slot c) o = getReg h o := by
  by_cases done : c.priv = [1]
  · rw [signalled_of_done done, getReg_fenceActions e a b r]
  · rw [signalled_of_new done, getReg_modCmd]
    exact (getReg_setReg_ne _ _ (k.resolve_left done)).trans (getReg_fenceActions e a b r)

/-- The counter of a SIGNAL that has not updated it before. -/
theorem getReg_signalled_ctr (new : c.priv ≠ [1]) : getReg (signalled h slot c) (rCtr (signalCtr c)) =
    if parBit c.packet 0 16 = true then BitVec.ofNat 32 (par c.packet 4 4)
    else getReg h (rCtr (signalCtr c)) + BitVec.ofNat 32 (par c.packet 4 4) := by
  have low : signalCtr c < 1024 := parBits_lt ..
  have ctr : getReg (fenceActions h slot) (rCtr (signalCtr c)) = getReg h (rCtr (signalCtr c)) :=
    getReg_fenceActions e (rCtr_ne_rHost low (by decide)) (rCtr_ne_rHost low (by decide))
      (rCtr_ne_rHost low (by decide))
  rw [signalled_of_new new, getReg_modCmd, ← ctr]
  exact getReg_setReg_self ..

theorem read_signalled {sp : Space} (ne : sp ≠ .host) (a : Nat) :
    (signalled h slot c).mem.read sp a = h.mem.read sp a := by
  by_cases done : c.priv = [1]
  · rw [signalled_of_done done]
    exact (keepsButFence_fenceActions e).mem sp a ne
  · rw [signalled_of_new done, mem_modCmd]
    exact (keepsButFence_fenceActions e).mem sp a ne

theorem cmdAt_signalled : ∃ c', cmdAt (signalled h slot c) slot = some c' := by
  have fenced : cmdAt (fenceActions h slot) slot = some { c with fenced := true } := by
    rw [cmdAt_fenceActions e, if_pos rfl]
  by_cases done : c.priv = [1]
  · rw [signalled_of_done done]
    exact ⟨_, fenced⟩
  · rw [signalled_of_new done, cmdAt_modCmd, if_pos rfl]
    exact ⟨_, congrArg (Option.map _) fenced⟩

/-- The state from which a SIGNAL stores. -/
theorem signalled_eq : signalled h slot c =
    if c.priv = [1] then fenceActions h slot
    else modCmd (learnCtr (ctrSignal (fenceActions h slot) (parBits c.packet 0 9 0) (parBit c.packet 0 16)
        (BitVec.ofNat 32 (par c.packet 4 4))) (parBits c.packet 0 9 0) c.knows) slot
      fun x => { x with priv := [1], outRanges := if parBit c.packet 0 17 then [(par c.packet 8 8, 8)] else [] } := by
  have fenced : cmdAt (fenceActions h slot) slot = some { c with fenced := true } := by
    rw [cmdAt_fenceActions e, if_pos rfl]
  split
  · next done => exact signalled_of_done done
  · next new =>
    rw [signalled_of_new new, modCmd_of_some _ _ (by exact fenced), modCmd_of_some _ _ (by exact fenced)]
    rfl

/-- Without a store a SIGNAL ends once its counter is updated (R47). -/
theorem signalWork_of_plain (plain : parBit c.packet 0 17 = false) :
    signalWork slot c h = finish (signalled h slot c) slot 0 0 0 := by
  rw [signalWork, ← signalled_eq e, plain, if_neg (by decide)]

/-- With one it ends once its 8 bytes are stored (R47). -/
theorem signalWork_of_stored {h2 : Hw} (stores : parBit c.packet 0 17 = true)
    (run : runOn (wr (whoOf slot c) (par c.packet 8 8) (leBytes 8 (par c.packet 0x10 8))) (signalled h slot c) =
      (.ok (), h2)) : signalWork slot c h = finish h2 slot 0 0 0 := by
  rw [signalWork, ← signalled_eq e, if_pos stores, run]

end

/-- Settles O10: each control command by the equation of its work. -/
theorem controlCommandsEnd : Obligations.ControlCommandsEnd := by
  refine ⟨fun slot s c => ⟨fun r => ?nop, fun r => ?fence⟩, fun slot s c r => ?wait, fun slot s c r => ?signal⟩
  case nop =>
    obtain ⟨e, -⟩ := active_some r.1
    have done : effect (.nop slot) s (withCmd slot.val 0x00 (nopWork slot.val) s.hw) := effect_of_onHw rfl
    rw [withCmd_of_ready r rfl] at done
    exact ⟨_, done, endsOnly_finish e⟩
  case fence =>
    obtain ⟨e, code, -⟩ := active_some r.1
    have cls : ({ c with fenced := true } : Cmd).cls = 0 := cls_of_opcode (c := c) code
    have done : effect (.fence slot) s (withCmd slot.val 0x01 (fenceWork slot.val) s.hw) := effect_of_onHw rfl
    rw [withCmd_of_ready r rfl, fenceWork] at done
    have fenced : cmdAt (fenceActions s.hw slot.val) slot.val = some { c with fenced := true } := by
      rw [cmdAt_fenceActions e, if_pos rfl]
    refine ⟨_, done, ended_finish fenced, fun global first up => ?lines, fun local_ => ⟨?mem, ?regs⟩,
      fun sp a ne => ?dev⟩
    case lines =>
      refine (congrArg HostAux.lines (host_finish_control fenced cls)).trans ?_
      exact lines_fenceActions e (.inl code) global first up
    case mem =>
      refine (mem_finish_control fenced cls).trans ?_
      rw [fenceActions_of_local e local_]
      rfl
    case regs =>
      intro o n
      refine (regsKept_finish_control fenced cls o n).trans ?_
      rw [fenceActions_of_local e local_]
      rfl
    case dev =>
      refine (congrArg (·.read sp a) (mem_finish_control fenced cls)).trans ?_
      exact (keepsButFence_fenceActions e).mem sp a ne
  case wait =>
    obtain ⟨e, -⟩ := active_some r.1
    have done : effect (.waitEvent slot) s (withCmd slot.val 0x02 (waitWork slot.val) s.hw) := effect_of_onHw rfl
    have late : effect (.waitEventTimeout slot) s (withCmd slot.val 0x02 (timeoutWork slot.val) s.hw) :=
      effect_of_onHw rfl
    rw [withCmd_of_ready r rfl] at done late
    refine ⟨fun met => ?met, fun unmet => ?unmet⟩
    case met =>
      have met : waitMet s.hw c = true := waitMet_iff.mpr met
      rw [waitWork, if_pos met] at done
      rw [timeoutWork, if_neg (by simp [met])] at late
      exact ⟨⟨_, done, endsOnly_finish e⟩, late⟩
    case unmet =>
      have unmet : waitMet s.hw c = false := by
        rw [← Bool.not_eq_true, waitMet_iff]
        exact Int.not_le.mpr unmet
      rw [waitWork, if_neg (by simp [unmet])] at done
      refine ⟨done, fun none_ => ?_, fun some_ => ?_⟩
      · rwa [timeoutWork, if_neg (by simp [none_])] at late
      · rw [timeoutWork, if_pos (by simp [some_, unmet])] at late
        exact ⟨_, late, endsOnly_finish e⟩
  case signal =>
    obtain ⟨e, -⟩ := active_some r.1
    have done : effect (.signal slot) s (withCmd slot.val 0x03 (signalWork slot.val) s.hw) := effect_of_onHw rfl
    rw [withCmd_of_ready r rfl] at done
    have low : signalCtr c < 1024 := parBits_lt ..
    obtain ⟨c', at_⟩ := cmdAt_signalled e
    refine ⟨getReg_signalled_ctr e, fun before => ?again, fun o n => ?regs, fun sp a ne => read_signalled e ne a,
      fun plain => ?plain, fun stores h2 c2 run at2 => ?stores⟩
    case again =>
      exact getReg_signalled e (.inl before) (rCtr_ne_rHost low (by decide)) (rCtr_ne_rHost low (by decide))
        (rCtr_ne_rHost low (by decide))
    case regs =>
      simp only [List.mem_cons, List.not_mem_nil, or_false, not_or] at n
      obtain ⟨ctr, lines, written, reads⟩ := n
      exact getReg_signalled e (.inr ctr) lines written reads
    case plain =>
      rw [signalWork_of_plain e plain] at done
      exact ⟨done, ended_finish at_⟩
    case stores =>
      rw [signalWork_of_stored e stores run] at done
      exact ⟨done, ended_finish at2⟩

end Sys2Proof.Machine
end

section
/-! PROOFS. Writing a record looks at no record that is due (R50, R51). -/

namespace Sys2Proof.Machine

/-- A state with other records due. -/
def withDue (d : List DueRecord) (h : Hw) : Hw := { h with due := d }

variable (d : List DueRecord) (h : Hw)

@[simp] theorem getReg_withDue (o : Nat) : getReg (withDue d h) o = getReg h o := rfl
@[simp] theorem cmdAt_withDue (k : Nat) : cmdAt (withDue d h) k = cmdAt h k := rfl
@[simp] theorem agentLine_withDue (l : Nat) : agentLine (withDue d h) l = agentLine h l := rfl
@[simp] theorem hostUp_withDue : hostUp (withDue d h) = hostUp h := rfl

theorem withDue_eq_beside : withDue d h = beside h (withDue d h) := rfl

/-- What leaves the records due and the rest beside memory puts any others beside it. -/
theorem StandsBy.beside_withDue {h g : Hw} (s : StandsBy h g) : beside g (withDue d h) = withDue d g := by
  obtain ⟨slots, holds, -, streams⟩ := s
  simp only [beside, withDue, slots, holds, streams]

/-! Host memory -/

theorem modCmd_withDue (k : Nat) (f : Cmd → Cmd) : modCmd (withDue d h) k f = withDue d (modCmd h k f) := by
  simp only [modCmd, cmdAt_withDue]
  split <;> rfl

theorem clearHostPoison_withDue (a n : Nat) :
    clearHostPoison (withDue d h) a n = withDue d (clearHostPoison h a n) := by
  have same : (withDue d h).host = h.host := rfl
  simp only [clearHostPoison, same]
  split_ifs <;> rfl

theorem writeBackLine_withDue (l : Nat) : writeBackLine (withDue d h) l = withDue d (writeBackLine h l) := by
  simp only [writeBackLine, agentLine_withDue]
  split
  · rfl
  · rw [clearHostPoison_withDue]
    rfl

/-- A run of changes none of which looks at the records due. -/
theorem foldl_withDue {α : Type} {f : Hw → α → Hw} (step : ∀ h x, f (withDue d h) x = withDue d (f h x))
    (xs : List α) : xs.foldl f (withDue d h) = withDue d (xs.foldl f h) := by
  induction xs generalizing h with
  | nil => rfl
  | cons x xs ih => rw [List.foldl_cons, List.foldl_cons, step, ih]

theorem writeBackLines_withDue (p : Nat → Bool) : writeBackLines (withDue d h) p = withDue d (writeBackLines h p) :=
  foldl_withDue d h (fun g (e : Nat × AgentLine) => writeBackLine_withDue d g e.1) _

theorem hostIoWrite_withDue (a : Nat) (bs : List Byte) :
    hostIoWrite (withDue d h) a bs = withDue d (hostIoWrite h a bs) := by
  simp only [hostIoWrite]
  rw [foldl_withDue d h (fun g (p : Nat × Nat) => writeBackLine_withDue d g (p.1 / 64)), clearHostPoison_withDue]
  rfl

theorem makeAgentRoom_withDue (l : Nat) : makeAgentRoom (withDue d h) l = withDue d (makeAgentRoom h l) := by
  have same : (withDue d h).host = h.host := rfl
  simp only [makeAgentRoom, same]
  split
  · rfl
  · split
    · exact writeBackLine_withDue ..
    · rfl

theorem agentWriteLine_withDue (slot a : Nat) (bs : List Byte) :
    agentWriteLine (withDue d h) slot a bs = withDue d (agentWriteLine h slot a bs) := by
  have bytes (n : Nat) : hostBytes (withDue d h) n 64 = hostBytes h n 64 := rfl
  simp only [agentWriteLine, makeAgentRoom_withDue, bytes]
  rfl

/-- A run that writes bytes piece by piece. -/
theorem foldl_bytes_withDue {f : Hw → Nat → List Byte → Hw}
    (step : ∀ h a bs, f (withDue d h) a bs = withDue d (f h a bs)) (ps : List (Nat × Nat)) (bs : List Byte) :
    (ps.foldl (fun r p => (f r.1 p.1 (r.2.take p.2), r.2.drop p.2)) (withDue d h, bs)).1 =
      withDue d (ps.foldl (fun r p => (f r.1 p.1 (r.2.take p.2), r.2.drop p.2)) (h, bs)).1 := by
  induction ps generalizing h bs with
  | nil => rfl
  | cons p ps ih => rw [List.foldl_cons, List.foldl_cons, step, ih]

theorem hostWritePiece_withDue (slot a : Nat) (bs : List Byte) :
    hostWritePiece (withDue d h) slot a bs = withDue d (hostWritePiece h slot a bs) := by
  have peer : peerOf (withDue d h) a = peerOf h a := rfl
  have mode (g : Hw) : hostMode (withDue d g) = hostMode g := rfl
  simp only [hostWritePiece, peer, modCmd_withDue]
  split
  · rfl
  · rw [mode]
    split
    · exact foldl_bytes_withDue d _ (f := (agentWriteLine · slot)) (fun g => agentWriteLine_withDue d g slot) ..
    · exact hostIoWrite_withDue ..

theorem hostWrite_withDue (slot a : Nat) (bs : List Byte) :
    hostWrite (withDue d h) slot a bs = (hostWrite h slot a bs).map (withDue d) := by
  by_cases up : hostUp h = true
  · rw [hostWrite, hostWrite, if_pos up, if_pos (by exact up)]
    exact congrArg some
      (foldl_bytes_withDue d h (f := (hostWritePiece · slot)) (fun g => hostWritePiece_withDue d g slot) ..)
  · rw [hostWrite, hostWrite, if_neg up, if_neg (by exact up)]
    rfl

theorem fenceActions_withDue (slot : Nat) : fenceActions (withDue d h) slot = withDue d (fenceActions h slot) := by
  cases e : cmdAt h slot with
  | none =>
    have none_ (g : Hw) (n : cmdAt g slot = none) : fenceActions g slot = g := by rw [fenceActions, n]
    rw [none_ h e, none_ (withDue d h) e]
  | some c =>
    have marked : setCmd (withDue d h) slot { c with fenced := true } =
        withDue d (setCmd h slot { c with fenced := true }) := rfl
    rw [fenceActions_of_some e, fenceActions_of_some (h := withDue d h) e]
    simp only [marked, hostUp_withDue, writeBackLines_withDue]
    split
    · rfl
    split
    · rfl
    split <;> rfl

/-! Device memory through translation -/

theorem translate_withDue (who : Who) (va : Nat) (acc : Acc) : translate (withDue d h) who va acc =
    ((translate h who va acc).1, withDue d (translate h who va acc).2) := by
  rw [withDue_eq_beside, translate_beside (h := h) (k := withDue d h) rfl rfl,
    (standsBy_translate h who va acc).beside_withDue]

theorem writePa_withDue {who : Who} (own : who.slot = none) (pa : Nat) (bs : List Byte) :
    writePa (withDue d h) who pa bs = ((writePa h who pa bs).1, withDue d (writePa h who pa bs).2) := by
  rw [withDue_eq_beside, writePa_beside (h := h) (k := withDue d h) own rfl,
    (standsBy_writePa h own pa bs).beside_withDue]

/-- An operation of the castle answers the same whatever records are due, and leaves them. -/
def BlindToDue {α : Type} (m : Run α) : Prop :=
  ∀ d h, runOn m (withDue d h) = ((runOn m h).1, withDue d (runOn m h).2)

theorem BlindToDue.bind {α β : Type} {m : Run α} {f : α → Run β} (a : BlindToDue m) (b : ∀ x, BlindToDue (f x)) :
    BlindToDue (m >>= f) := by
  intro d h
  rw [runOn_bind, runOn_bind, a]
  generalize runOn m h = r
  obtain ⟨_ | x, g⟩ := r
  · rfl
  · exact b x d g

section
variable {who : Who} (own : who.slot = none)
include own

theorem noteHeld_withDue (pa : Nat) : noteHeld (withDue d h) who pa = withDue d (noteHeld h who pa) := by
  have located : decodePa (withDue d h) pa = decodePa h pa := rfl
  simp only [noteHeld, own, located, Option.bind_none, Bool.false_eq_true, if_false]
  split <;> rfl

theorem xlateRun_blind (va : Nat) (acc : Acc) : BlindToDue (xlateRun who va acc) := by
  intro d h
  unfold xlateRun
  rw [runOn_bind_ok runOn_get, runOn_bind_ok runOn_get, translate_withDue]
  generalize translate h who va acc = r
  obtain ⟨walk, g⟩ := r
  cases walk with
  | held a =>
    dsimp only
    rw [noteHeld_withDue d g own]
    rfl
  | _ => rfl

theorem wrPage_blind (va : Nat) (bs : List Byte) : BlindToDue (wrPage who va bs) := by
  refine (xlateRun_blind own va .wr).bind fun x d h => ?_
  obtain ⟨toHost, pa⟩ := x
  have alone (g : Hw) : racing g who va bs.length = [] := by simp only [racing, own, Option.bind_none]
  have raced (g : Hw) : freeRaced g va pa [] = g := rfl
  rw [runOn_bind_ok runOn_get, runOn_bind_ok runOn_get]
  simp only [alone, raced, if_true, hostWrite_withDue]
  cases toHost with
  | true =>
    simp only [if_true]
    cases hostWrite h (who.slot.getD noSlot) pa bs <;> rfl
  | false =>
    simp only [Bool.false_eq_true, if_false]
    rw [writePa_withDue d h (who := { who with va := va }) own]
    generalize writePa h { who with va := va } pa bs = r
    obtain ⟨answer, g⟩ := r
    cases answer with
    | held =>
      dsimp only
      rw [noteHeld_withDue d g own]
      rfl
    | _ => rfl

theorem wr_blind (va : Nat) (bs : List Byte) : BlindToDue (wr who va bs) := by
  have go (ps : List (Nat × Nat)) (bs : List Byte) : BlindToDue (wr.go who bs ps) := by
    induction ps generalizing bs with
    | nil => exact fun d h => rfl
    | cons p ps ih => exact (wrPage_blind own p.1 (bs.take p.2)).bind fun _ => ih _
  exact go _ _

end

/-! Records -/

theorem sendMsix_withDue (v : Nat) : sendMsix (withDue d h) v = withDue d (sendMsix h v) := by
  have masked : msixMasked (withDue d h) v = msixMasked h v := rfl
  have state : (withDue d h).pkg = h.pkg := rfl
  simp only [sendMsix, masked, state]
  split
  · rfl
  split <;> rfl

theorem haltRing_withDue (n code : Nat) : haltRing (withDue d h) n code = withDue d (haltRing h n code) := by
  have marked : setRegFld (setRegBit (withDue d h) (rRingStatus n) 8 true) (rRingStatus n) 31 24 code =
      withDue d (setRegFld (setRegBit h (rRingStatus n) 8 true) (rRingStatus n) 31 24 code) := rfl
  rw [haltRing, marked, ringIrq, sendMsix_withDue, haltRing, ringIrq]

theorem castleFail_withDue (w : World) (f : Fail) :
    castleFail (withDue d h) w f = ((castleFail h w f).1, withDue d (castleFail h w f).2) := by
  cases f with
  | xlate va acc np =>
    have logged (g : Hw) (e : ErrEvent) : logErr (withDue d g) e = withDue d (logErr g e) := by
      have stands : StandsBy g (logErr g e) := .of_beside (logErr_beside g g e)
      rw [withDue_eq_beside, logErr_beside, stands.beside_withDue]
    have counted : bumpSat (withDue d h) rPermFaults 1 = withDue d (bumpSat h rPermFaults 1) := rfl
    simp only [castleFail, castleFault, counted, logged]
  | _ => rfl

theorem ringWrite_withDue (w : World) (hostLoc : Bool) (a : Nat) (bs : List Byte) :
    ringWrite (withDue d h) w hostLoc a bs =
      ((ringWrite h w hostLoc a bs).1, withDue d (ringWrite h w hostLoc a bs).2) := by
  unfold ringWrite
  cases hostLoc with
  | true =>
    simp only [if_true, hostUp_withDue, hostIoWrite_withDue]
    split <;> rfl
  | false =>
    simp only [Bool.false_eq_true, if_false]
    rw [wr_blind (who := castle w) rfl a bs d h]
    generalize runOn (wr (castle w) a bs) h = r
    obtain ⟨f | _, g⟩ := r
    · dsimp only
      rw [castleFail_withDue]
    · rfl

/-- A record is written, or not, whatever others are due. -/
theorem postRecord_withDue (n : Nat) (bs : List Byte) :
    postRecord (withDue d h) n bs = ((postRecord h n bs).1, withDue d (postRecord h n bs).2) := by
  have closed : cqClosed (withDue d h) n = cqClosed h n := rfl
  have size : cqSize (withDue d h) n = cqSize h n := rfl
  have at_ : cqBase (withDue d h) n = cqBase h n := rfl
  have next (g : Hw) : cqProd (withDue d g) n = cqProd g n := rfl
  have world : ringWorld (withDue d h) n = ringWorld h n := rfl
  have cfg : ringCfg (withDue d h) n = ringCfg h n := rfl
  unfold postRecord
  simp only [closed, size, at_, next, world, cfg, ringWrite_withDue]
  split
  · rfl
  generalize ringWrite h (ringWorld h n) (bit (ringCfg h n) 29) _ bs = r
  obtain ⟨_ | code, g⟩ := r
  · rfl
  · dsimp only
    split
    · rfl
    · exact congrArg (Prod.mk _) (haltRing_withDue d (setRingAux g n { ringAux g n with cqFailed := true }) n code)

end Sys2Proof.Machine
end

section
/-! PROOFS. The final record of a command and what follows it (R44, R50-R54, R381): O17. -/

namespace Sys2Proof.Machine

variable {h g : Hw} {slot : Nat} {c : Cmd}

/-! What follows a record -/

/-- What the signal, the interrupt, the halt and the freeing of a slot leave: the steady registers but those of the
status of rings, memory, and the window accesses that wait. -/
structure Tidies (h h' : Hw) : Prop where
  reg : ∀ o, steadyReg o → (∀ r : RingId, o ≠ rRingStatus r.val) → getReg h' o = getReg h o
  mem : h'.mem = h.mem
  queue : h'.host.winQueue = h.host.winQueue

theorem Tidies.refl (h : Hw) : Tidies h h := ⟨fun _ _ _ => rfl, rfl, rfl⟩

theorem Tidies.trans {h g k : Hw} (a : Tidies h g) (b : Tidies g k) : Tidies h k :=
  ⟨fun o s n => (b.reg o s n).trans (a.reg o s n), b.mem.trans a.mem, b.queue.trans a.queue⟩

theorem tidies_sendMsix (h : Hw) {v : Nat} (l : v < 128) : Tidies h (sendMsix h v) := by
  refine ⟨fun o s _ => (keepsWork_sendMsix h l).reg o s, (keepsWork_sendMsix h l).mem, ?_⟩
  unfold sendMsix
  split_ifs <;> rfl

theorem tidies_completionIrq (h : Hw) {n : Nat} (l : n < 64) (c : Cmd) : Tidies h (completionIrq h n c) := by
  unfold completionIrq
  split_ifs
  · exact tidies_sendMsix h (by omega)
  · exact .refl h

theorem tidies_haltRing (h : Hw) (r : RingId) (code : Nat) : Tidies h (haltRing h r.val code) := by
  have marked (g : Hw) (v : Word) : Tidies g (setReg g (rRingStatus r.val) v) :=
    ⟨fun o _ n => getReg_setReg_ne _ _ (n r), rfl, rfl⟩
  exact (marked ..).trans ((marked ..).trans (tidies_sendMsix _ (by decide)))

theorem tidies_haltOnError (h : Hw) (c : Cmd) : Tidies h (haltOnError h c) := by
  unfold haltOnError
  split_ifs
  · exact tidies_haltRing h c.ring _
  · exact .refl h

theorem tidies_releaseTiles (h : Hw) (slot : Nat) : Tidies h (releaseTiles h slot) := by
  cases e : cmdAt h slot with
  | none =>
    have same : releaseTiles h slot = h := by rw [releaseTiles, e]
    rw [same]
    exact .refl h
  | some c =>
    rw [releaseTiles_of_some e]
    refine ⟨fun o s _ => (KeepsStored.foldl keepsStored_freeTile c.tiles _).reg o s, ?_, ?_⟩
    · rw [freeTiles_eq]; rfl
    · rw [freeTiles_eq]; rfl

theorem tidies_freeSlot (h : Hw) (slot : Nat) : Tidies h (freeSlot h slot) :=
  (tidies_releaseTiles h slot).trans ⟨fun _ _ _ => rfl, rfl, rfl⟩

/-- Grants change the tokens alone. -/
theorem grantTokens_frame (f : Nat) (h : Hw) (s : Nat) :
    ∃ t w, grantTokens f h s = { h with tokens := t, tokenWaits := w } := by
  induction f generalizing h with
  | zero => exact ⟨_, _, rfl⟩
  | succ f ih =>
    unfold grantTokens
    split_ifs
    · exact ⟨_, _, rfl⟩
    · dsimp only
      split
      · exact ⟨_, _, rfl⟩
      · obtain ⟨t, w, e⟩ := ih { h with tokens := _, tokenWaits := _ }
        exact ⟨t, w, e⟩

theorem grantAll_frame (h : Hw) : ∃ t w, grantAll h = { h with tokens := t, tokenWaits := w } :=
  List.foldlRecOn (List.range 24) _ (motive := fun g : Hw => ∃ t w, g = { h with tokens := t, tokenWaits := w })
    ⟨_, _, rfl⟩ fun g k s _ => by
      obtain ⟨t, w, rfl⟩ := k
      exact grantTokens_frame 512 { h with tokens := t, tokenWaits := w } s

theorem tidies_grantAll (h : Hw) : Tidies h (grantAll h) := by
  obtain ⟨t, w, e⟩ := grantAll_frame h
  rw [e]
  exact ⟨fun _ _ _ => rfl, rfl, rfl⟩

theorem cmdAt_grantAll (h : Hw) (k : Nat) : cmdAt (grantAll h) k = cmdAt h k := by
  obtain ⟨t, w, e⟩ := grantAll_frame h
  rw [e]
  rfl

theorem cmdAt_freeSlot (h : Hw) (slot : Nat) : cmdAt (freeSlot h slot) slot = none :=
  (cmdAt_dropCmd (releaseTiles h slot) slot slot).trans (if_pos rfl)

/-! The window -/

/-- Serving a window access makes no command. -/
theorem cmdAt_winSpoils (x : WinAccess) (empty : cmdAt h slot = none) : cmdAt (winSpoils h x) slot = none := by
  refine List.foldlRecOn _ _ (motive := fun g : Hw => cmdAt g slot = none) empty fun g none_ e _ => ?_
  rw [cmdAt_modCmd]
  split_ifs with own
  · rw [← own, none_]
    rfl
  · exact none_

theorem slots_freePa (h : Hw) (pa n : Nat) : (freePa h pa n).slots = h.slots :=
  List.foldlRecOn _ _ (motive := fun g : Hw => g.slots = h.slots) rfl fun g k p _ => by
    split <;> exact k

theorem cmdAt_serveOne {x : WinAccess} (empty : cmdAt h slot = none) (served : serveOne h x = some g) :
    cmdAt g slot = none := by
  have wrote := (standsBy_writePa h (who := winWho) rfl x.pa x.bytes).slots
  have read := (standsBy_readPa h (who := winWho) rfl x.pa x.len).slots
  have kept {g' : Hw} (slots : g'.slots = h.slots) : cmdAt g' slot = none := by rwa [cmdAt, slots]
  unfold serveOne at served
  extract_lets rs drawn at served
  have drawn_slots (g' : Hw) : (drawn g').slots = g'.slots := by
    unfold drawn
    split_ifs <;> rfl
  split at served
  · generalize writePa h winWho x.pa x.bytes = r at wrote served
    obtain ⟨answer, g'⟩ := r
    cases answer with
    | bytes bs p =>
      cases served
      have freed := List.foldlRecOn rs (fun h r => freePa h r.1 r.2)
        (motive := fun k : Hw => k.slots = (winSpoils g' x).slots) rfl
        fun k same r _ => (slots_freePa k r.1 r.2).trans same
      have spoiled := cmdAt_winSpoils x (kept wrote)
      rw [cmdAt, ← freed, ← drawn_slots] at spoiled
      exact spoiled
    | held => cases served
    | _ =>
      cases served
      exact kept wrote
  · generalize readPa h winWho x.pa x.len = r at read served
    obtain ⟨answer, g'⟩ := r
    cases answer with
    | bytes bs p =>
      cases served
      exact kept ((drawn_slots g').trans read)
    | held => cases served
    | _ =>
      cases served
      exact kept read

theorem cmdAt_serveWindow (empty : cmdAt h slot = none) : cmdAt (serveWindow h) slot = none := by
  refine List.foldlRecOn _ _ (motive := fun g : Hw => cmdAt g slot = none) empty fun g none_ x _ => ?_
  split
  · next g' served =>
    unfold serveTurn at served
    split_ifs at served
    exact cmdAt_serveOne (g := g') none_ served
  · exact none_

/-- With no access waiting there is none to serve. -/
theorem serveWindow_of_nil (none_ : h.host.winQueue = []) : serveWindow h = h := by
  rw [serveWindow, none_]
  rfl

/-! After the record -/

/-- What follows a final record of a command in ring n, up to the window. -/
def afterRecord (h : Hw) (slot n : Nat) (c : Cmd) : Hw :=
  grantAll (freeSlot (haltOnError (completionIrq (signalOf (closesStep h c) c) n c) c) slot)

theorem cmdAt_afterRecord (n : Nat) : cmdAt (serveWindow (afterRecord h slot n c)) slot = none :=
  cmdAt_serveWindow ((cmdAt_grantAll _ slot).trans (cmdAt_freeSlot _ slot))

theorem tidies_afterRecord {n : Nat} (l : n < 64) :
    Tidies (signalOf (closesStep h c) c) (afterRecord h slot n c) :=
  (tidies_completionIrq _ l c).trans ((tidies_haltOnError _ c).trans
    ((tidies_freeSlot _ slot).trans (tidies_grantAll _)))

theorem hSigCtr_lt (p : List Byte) : hSigCtr p < 1024 := Nat.mod_lt _ (by decide)

/-- The signal of a command changes its counter alone. -/
theorem signalOf_onlyRegs (h : Hw) (c : Cmd) : (signalOf h c).mem = h.mem ∧ (signalOf h c).host = h.host ∧
    ∀ o, o ≠ rCtr (hSigCtr c.packet) → o ≠ rCtr (hSigCtr c.packet) + 4 → getReg (signalOf h c) o = getReg h o := by
  unfold signalOf
  split_ifs
  · exact ⟨rfl, rfl, fun o a b => (getReg_setReg_ne _ _ b).trans (getReg_setReg_ne _ _ a)⟩
  · exact ⟨rfl, rfl, fun o a _ => getReg_setReg_ne _ _ a⟩
  · exact ⟨rfl, rfl, fun _ _ _ => rfl⟩

theorem getReg_signalOf_ctr (signals : hSignal c.packet = true) (loud : c.silent = false) :
    getReg (signalOf h c) (rCtr (hSigCtr c.packet)) = if hSigMode c.packet = true then hSigVal c.packet
      else getReg h (rCtr (hSigCtr c.packet)) + hSigVal c.packet := by
  have set_ : getReg (ctrSignal h (hSigCtr c.packet) (hSigMode c.packet) (hSigVal c.packet))
      (rCtr (hSigCtr c.packet)) = if hSigMode c.packet = true then hSigVal c.packet
        else getReg h (rCtr (hSigCtr c.packet)) + hSigVal c.packet := getReg_setReg_self ..
  unfold signalOf
  rw [if_pos ⟨signals, by rw [loud]; rfl⟩]
  dsimp only
  split_ifs at set_ ⊢
  · exact (getReg_setReg_ne _ _ (by omega)).trans set_
  · exact (getReg_setReg_ne _ _ (by omega)).trans set_
  · exact set_
  · exact set_

theorem closesStep_onlyRegs (h : Hw) (c : Cmd) : (closesStep h c).mem = h.mem ∧ (closesStep h c).host = h.host ∧
    ∀ o, o ≠ 0x170000 → getReg (closesStep h c) o = getReg h o := by
  unfold closesStep
  split_ifs
  · exact ⟨rfl, rfl, fun _ n => getReg_setReg_ne _ _ n⟩
  · exact ⟨rfl, rfl, fun _ _ => rfl⟩

theorem rRing_ne_rCtr {n r k : Nat} (ln : n < 64) (lr : r < 0x1000) : rRing n r ≠ rCtr k ∧ rRing n r ≠ rCtr k + 4 := by
  simp only [rRing, rCtr]
  omega

/-- With no window access waiting, memory and the indexes of rings stay as the record has left them. -/
theorem afterRecord_keeps {n m : Nat} (l : n < 64) (lm : m < 64) :
    (afterRecord h slot n c).mem = h.mem ∧ (afterRecord h slot n c).host.winQueue = h.host.winQueue ∧
    cqProd (afterRecord h slot n c) m = cqProd h m := by
  have tidy := tidies_afterRecord (h := h) (slot := slot) (c := c) l
  obtain ⟨mem, host, reg⟩ := signalOf_onlyRegs (closesStep h c) c
  obtain ⟨mem', host', reg'⟩ := closesStep_onlyRegs h c
  refine ⟨tidy.mem.trans (mem.trans mem'), tidy.queue.trans (by rw [host, host']), ?_⟩
  have ctr := rRing_ne_rCtr (k := hSigCtr c.packet) lm (r := 0x010) (by decide)
  rw [cqProd, tidy.reg _ (steady_rRing lm (by decide)) fun r => by simp only [rRing, rRingStatus]; omega,
    reg _ ctr.1 ctr.2, reg' _ (by simp only [rRing]; omega), cqProd]

/-- A command that signals sets its counter or adds to it (R44). -/
theorem getReg_afterRecord_ctr {n : Nat} (l : n < 64) (signals : hSignal c.packet = true) (loud : c.silent = false) :
    getReg (afterRecord h slot n c) (rCtr (hSigCtr c.packet)) = if hSigMode c.packet = true then hSigVal c.packet
      else getReg h (rCtr (hSigCtr c.packet)) + hSigVal c.packet := by
  have low : hSigCtr c.packet < 1024 := hSigCtr_lt _
  have steady : steadyReg (rCtr (hSigCtr c.packet)) := by simp only [steadyReg, rCtr]; omega
  have ring (r : RingId) : rCtr (hSigCtr c.packet) ≠ rRingStatus r.val := by
    have := r.isLt
    simp only [rCtr, rRingStatus, rRing]
    omega
  obtain ⟨-, -, closed⟩ := closesStep_onlyRegs h c
  rw [(tidies_afterRecord l).reg _ steady ring, getReg_signalOf_ctr signals loud,
    closed _ (by simp only [rCtr]; omega)]

/-! The final record -/

theorem writeFinal_of_some (e : cmdAt h slot = some c) : writeFinal h slot =
    (let g := fencedHw h slot c
     let c1 := (cmdAt g slot).getD c
     match postRecord g c1.target (recordBytes g c1.target c1 true c1.status.toNat c1.detail0 c1.detail1) with
     | (false, g) => (false, g)
     | (true, g) => (true, serveWindow (afterRecord g slot c1.target c1))) := by
  rw [writeFinal, e]
  rfl

/-! The fence actions before a record -/

/-- A command once its fence actions are done: a refused one has none (R48). -/
def Cmd.fencedBy (c : Cmd) : Cmd := if c.refused = true then c else { c with fenced := true }

theorem Cmd.fencedBy_keeps (c : Cmd) : c.fencedBy.packet = c.packet ∧ c.fencedBy.status = c.status ∧
    c.fencedBy.target = c.target ∧ c.fencedBy.phase = c.phase ∧ c.fencedBy.detail0 = c.detail0 ∧
    c.fencedBy.detail1 = c.detail1 ∧ c.fencedBy.silent = c.silent := by
  unfold Cmd.fencedBy
  split_ifs <;> exact ⟨rfl, rfl, rfl, rfl, rfl, rfl, rfl⟩

theorem fencedHw_withDue (d : List DueRecord) : fencedHw (withDue d h) slot c = withDue d (fencedHw h slot c) := by
  simp only [fencedHw, fenceActions_withDue]
  split_ifs <;> rfl

theorem queue_writeBackLine (h : Hw) (l : Nat) : (writeBackLine h l).host.winQueue = h.host.winQueue := by
  unfold writeBackLine clearHostPoison
  split
  · rfl
  · split_ifs <;> rfl

theorem queue_writeBackLines (h : Hw) (p : Nat → Bool) : (writeBackLines h p).host.winQueue = h.host.winQueue :=
  List.foldlRecOn _ _ (motive := fun g : Hw => g.host.winQueue = h.host.winQueue) rfl fun g k e _ =>
    (queue_writeBackLine g e.1).trans k

theorem queue_hostIoWrite (h : Hw) (a : Nat) (bs : List Byte) :
    (hostIoWrite h a bs).host.winQueue = h.host.winQueue := by
  have lines := List.foldlRecOn (pieces 64 a bs.length) (fun h p => writeBackLine h (p.1 / 64))
    (motive := fun g : Hw => g.host.winQueue = h.host.winQueue) rfl fun g k p _ => (queue_writeBackLine g _).trans k
  unfold hostIoWrite clearHostPoison
  dsimp only
  split_ifs <;> exact lines

section
variable (e : cmdAt h slot = some c)
include e

theorem cmdAt_fencedHw : cmdAt (fencedHw h slot c) slot = some c.fencedBy := by
  unfold fencedHw Cmd.fencedBy
  split_ifs
  · exact e
  · rw [cmdAt_fenceActions e, if_pos rfl]

theorem queue_fencedHw : (fencedHw h slot c).host.winQueue = h.host.winQueue := by
  unfold fencedHw
  split_ifs
  · rfl
  rw [fenceActions_of_some e]
  dsimp only
  split
  · rfl
  split
  · exact queue_writeBackLines ..
  split
  · exact queue_writeBackLines ..
  · rfl

theorem rings_fencedHw : (fencedHw h slot c).rings = h.rings := by
  unfold fencedHw
  split_ifs
  · rfl
  · rw [(keepsButFence_fenceActions e).rest]
    rfl

/-- The fence actions leave every register but three of the host block. -/
theorem getReg_fencedHw {o : Nat} (a : o ≠ rHost 0x08) (b : o ≠ rHost 0x20) (r : o ≠ rHost 0x24) :
    getReg (fencedHw h slot c) o = getReg h o := by
  unfold fencedHw
  split_ifs
  · rfl
  · exact getReg_fenceActions e a b r

theorem getReg_fencedHw_low {o : Nat} (low : o < 0x200000) : getReg (fencedHw h slot c) o = getReg h o := by
  have ne (r : Nat) : o ≠ rHost r := by
    simp only [rHost, regOf, baseOf]
    omega
  exact getReg_fencedHw e (ne _) (ne _) (ne _)

end

/-- What a ring's records depend on is as before the fence actions. -/
theorem ring_fencedHw (e : cmdAt h slot = some c) {n : Nat} (l : n < 64) :
    cqProd (fencedHw h slot c) n = cqProd h n ∧ cqSize (fencedHw h slot c) n = cqSize h n ∧
    cqBase (fencedHw h slot c) n = cqBase h n ∧ ringCfg (fencedHw h slot c) n = ringCfg h n ∧
    ringAux (fencedHw h slot c) n = ringAux h n ∧ hostUp (fencedHw h slot c) = hostUp h := by
  have page {r : Nat} (lr : r < 0x1000) : getReg (fencedHw h slot c) (rRing n r) = getReg h (rRing n r) :=
    getReg_fencedHw_low e (by simp only [rRing]; omega)
  have base : cqBase (fencedHw h slot c) n = cqBase h n := by
    have high : rRing n 0x04C + 4 = rRing n 0x050 := rfl
    rw [cqBase, getReg64, high, page (by decide), page (by decide), cqBase, getReg64, high]
  have link : getReg (fencedHw h slot c) rHostLink = getReg h rHostLink :=
    getReg_fencedHw e (by decide) (by decide) (by decide)
  have mode : hostMode (fencedHw h slot c) = hostMode h := by rw [hostMode, regFld, link, hostMode, regFld]
  refine ⟨page (by decide), ?_, base, page (by decide), ?_, ?_⟩
  · rw [cqSize, page (by decide), cqSize]
  · rw [ringAux, rings_fencedHw e, ringAux]
  · rw [hostUp, mode, hostUp]

/-- A ring with room is not closed (R51). -/
theorem cqClosed_of_room {n : Nat} (sound : (ringAux h n).cqFailed = false) (room : cqUsed h n + 1 ≤ cqSize h n) :
    cqClosed h n = false := by
  rw [cqClosed, sound, cqFull, Bool.or_false, decide_eq_false_iff_not]
  omega

/-- The same of a command after its fence actions. -/
theorem getReg_afterRecord_fenced {n : Nat} (l : n < 64) (signals : hSignal c.packet = true)
    (loud : c.silent = false) : getReg (afterRecord h slot n c.fencedBy) (rCtr (hSigCtr c.packet)) =
      if hSigMode c.packet = true then hSigVal c.packet
      else getReg h (rCtr (hSigCtr c.packet)) + hSigVal c.packet := by
  obtain ⟨packet, -, -, -, -, -, silent⟩ := c.fencedBy_keeps
  have ctr := getReg_afterRecord_ctr (h := h) (slot := slot) (c := c.fencedBy) l (by rw [packet]; exact signals)
    (by rw [silent]; exact loud)
  rwa [packet] at ctr

/-- Neither fence actions nor a record in host memory write a counter. -/
theorem getReg_recorded_ctr (e : cmdAt h slot = some c) {n k a : Nat} {bs : List Byte} {v : Word} (l : n < 64)
    (low : k < 1024) : getReg (setReg (hostIoWrite (fencedHw h slot c) a bs) (rRing n 0x010) v) (rCtr k) =
      getReg h (rCtr k) := by
  have host := (keepsButHost_hostIoWrite (fencedHw h slot c) a bs).reg (rCtr k) (rCtr_ne_rHost low (by decide))
    (rCtr_ne_rHost low (by decide))
  rw [getReg_setReg_ne _ _ (rRing_ne_rCtr l (by decide)).1.symm, host]
  exact getReg_fencedHw_low e (by simp only [rCtr]; omega)

/-! FINAL_RECORD -/

/-- The record that a command's fence actions leave it to write. -/
def finalBytes (h : Hw) (slot : Nat) (c : Cmd) : List Byte :=
  recordBytes (fencedHw h slot c) c.target c.fencedBy true c.status.toNat c.detail0 c.detail1

section
variable (e : cmdAt h slot = some c)
include e

theorem writeFinal_withDue (d : List DueRecord) : writeFinal (withDue d h) slot =
    match postRecord (fencedHw h slot c) c.target (finalBytes h slot c) with
    | (false, g) => (false, withDue d g)
    | (true, g) => (true, serveWindow (afterRecord (withDue d g) slot c.target c.fencedBy)) := by
  obtain ⟨-, status, target, -, d0, d1, -⟩ := c.fencedBy_keeps
  have at_ : cmdAt (withDue d (fencedHw h slot c)) slot = some c.fencedBy := cmdAt_fencedHw e
  have bytes (g : Hw) (n : Nat) (x : Cmd) (st : Nat) (a b : Quad) :
      recordBytes (withDue d g) n x true st a b = recordBytes g n x true st a b := rfl
  rw [writeFinal_of_some (h := withDue d h) e, fencedHw_withDue]
  dsimp only
  rw [at_, Option.getD_some, status, target, d0, d1, bytes, postRecord_withDue, finalBytes]
  generalize postRecord (fencedHw h slot c) c.target _ = r
  obtain ⟨_ | _, g⟩ := r <;> rfl

variable (fin : c.phase = .finished) (task : taskOf h slot = none) (run : (working h || h.sec.halted) = true)
  (due : h.due = [] ∨ h.due = [DueRecord.mk slot none])
include fin task run due

/-- The final record of a finished command outside a live task, with no other due. -/
theorem finalRecordHw_of_finished : finalRecordHw slot h =
    match postRecord (fencedHw h slot c) c.target (finalBytes h slot c) with
    | (false, g) => withDue [DueRecord.mk slot none] g
    | (true, g) => serveWindow (afterRecord (withDue [] g) slot c.target c.fencedBy) := by
  have ready_ : finalReady h slot = withDue [DueRecord.mk slot none] h := by
    rcases due with none_ | own
    · simp only [finalReady, none_, List.any_nil, Bool.false_eq_true, if_false]
      rfl
    · have same : withDue [DueRecord.mk slot none] h = h := by rw [withDue, ← own]
      rw [finalReady, own, same]
      exact if_pos (by simp)
  have runs : c.phase = .finished ∧ (taskOf h slot).isNone = true ∧ (working h = true ∨ h.sec.halted = true) :=
    ⟨fin, by rw [task]; rfl, Bool.or_eq_true_iff.mp run⟩
  have one : writeOne (withDue [] h) (DueRecord.mk slot none) = writeFinal (withDue [] h) slot := by
    simp only [writeOne, cmdAt_withDue, e]
  have drained (g : Hw) : writeList g [] [] = g := rfl
  have writes : writeDue (withDue [DueRecord.mk slot none] h) =
      match writeFinal (withDue [] h) slot with
      | (true, g) => writeList g [] []
      | (false, g) => writeList g [DueRecord.mk slot none] [] := by
    rw [← one]
    rfl
  rw [finalRecordHw, e]
  dsimp only
  rw [if_pos runs, ready_, writes, writeFinal_withDue e]
  generalize postRecord (fencedHw h slot c) c.target (finalBytes h slot c) = r
  obtain ⟨_ | _, g⟩ := r
  · rfl
  · exact drained _

end

/-- A command that is not finished, or belongs to a live task, writes none. -/
theorem finalRecordHw_none (e : cmdAt h slot = some c)
    (no : c.phase ≠ .finished ∨ (taskOf h slot).isSome = true) : finalRecordHw slot h = h := by
  rw [finalRecordHw, e]
  refine if_neg ?_
  rintro ⟨fin, task, -⟩
  rcases no with other | live
  · exact other fin
  · rw [Option.isNone_iff_eq_none] at task
    rw [task] at live
    cases live

/-- Settles O17: the record is written, or not, by what its ring takes, and all that follows it keeps its trace. -/
theorem finalRecordFreesTheSlot : Obligations.FinalRecordFreesTheSlot := by
  intro slot s c e h1 c1 record
  have done : effect (.finalRecord slot) s (finalRecordHw slot.val s.hw) := effect_of_onHw rfl
  obtain ⟨packet, status, target, phase, -, -, silent⟩ := c.fencedBy_keeps
  have at_ : cmdAt h1 slot.val = some c.fencedBy := cmdAt_fencedHw e
  have own : c1 = c.fencedBy := by rw [show c1 = (cmdAt h1 slot.val).getD c from rfl, at_]; rfl
  have bytes : record = finalBytes s.hw slot.val c := by rw [finalBytes, ← own]
  refine ⟨fun fin task run due => ?finished, fun no => finalRecordHw_none e no ▸ done⟩
  rw [finalRecordHw_of_finished e fin task run due, ← bytes] at done
  have posted (taken : (postRecord h1 c.target record).1 = true) : effect (.finalRecord slot) s
      (serveWindow (afterRecord (withDue [] (postRecord h1 c.target record).2) slot.val c.target c.fencedBy)) := by
    have pair : postRecord (fencedHw s.hw slot.val c) c.target record = (true, (postRecord h1 c.target record).2) :=
      Prod.ext taken rfl
    rwa [pair] at done
  rw [own]
  refine ⟨packet, status, target, fun taken => ⟨_, posted taken, cmdAt_afterRecord _⟩, fun room => ?room,
    fun closed => ⟨?waits, at_, phase.trans fin⟩⟩
  case room =>
    obtain ⟨l, up, loc, size, sound, room⟩ := room
    obtain ⟨prod, size_, base, cfg, aux, link⟩ := ring_fencedHw e l
    have closed : cqClosed h1 c.target = false := by
      rw [cqClosed, cqFull, cqUsed, prod, size_, aux]
      exact cqClosed_of_room sound room
    have post := postRecord_of_host (bs := record) closed (size_ ▸ size) (cfg ▸ loc) (link ▸ up)
    have wrote := posted (congrArg Prod.fst post)
    -- The state g that the record leaves, by what the rest depends on.
    obtain ⟨g, eg⟩ : ∃ g, g = (postRecord h1 c.target record).2 := ⟨_, rfl⟩
    rw [← eg] at wrote
    rw [post, prod, size_, base] at eg
    dsimp only at eg
    have queue : g.host.winQueue = s.hw.host.winQueue := by
      rw [eg, setReg_host, queue_hostIoWrite]
      exact queue_fencedHw e
    have index : cqProd g c.target = cqProd s.hw c.target + 1 := by
      rw [eg]
      exact getReg_setReg_self ..
    have ctr {k : Nat} (low : k < 1024) : getReg g (rCtr k) = getReg s.hw (rCtr k) := by
      rw [eg]
      exact getReg_recorded_ctr e l low
    have stored {i : Nat} (low : i < record.length) := read_hostIoWrite h1
      (cqBase s.hw c.target + (cqProd s.hw c.target).toNat % cqSize s.hw c.target * 32) record low
    refine ⟨_, wrote, cmdAt_afterRecord _, fun empty => ?_⟩
    obtain ⟨mem, waits, prod'⟩ := afterRecord_keeps (h := withDue [] g) (slot := slot.val) (c := c.fencedBy) l l
    rw [serveWindow_of_nil (waits.trans (queue.trans empty))]
    refine ⟨prod'.trans index, fun i low => ?bytes, fun signals loud => ?counter⟩
    case bytes =>
      rw [mem, withDue, eg, setReg_mem]
      exact stored low
    case counter => rw [getReg_afterRecord_fenced l signals loud, getReg_withDue, ctr (hSigCtr_lt _)]
  case waits =>
    have pair : postRecord (fencedHw s.hw slot.val c) c.target record = (false, h1) := postRecord_of_closed closed
    rwa [pair] at done

end Sys2Proof.Machine
end

section
/-! PROOFS. The counters of the units and their CLR_COUNTERS (R89, R142, R197, R225, R250, R343, R368, R384, R422):
O32. -/

namespace Sys2Proof.Machine

variable {h : Hw} {offs : List Nat}

/-! Runs of cleared registers -/

/-- Registers of a list return to their reset values. -/
def clearAll (offs : List Nat) (h : Hw) : Hw := offs.foldl clearReg h

theorem getReg_clearAll (o : Nat) :
    getReg (clearAll offs h) o = if o ∈ offs then regReset o else getReg h o := by
  unfold clearAll
  induction offs generalizing h with
  | nil => rfl
  | cons x xs ih =>
    rw [List.foldl_cons, ih, clearReg, getReg_setReg]
    by_cases later : o ∈ xs
    · simp [later]
    · by_cases now : o = x
      · simp [now]
      · simp [later, now]

theorem clearAll_frame : clearAll offs h =
    { h with regs := (clearAll offs h).regs, freeRegs := (clearAll offs h).freeRegs } := by
  unfold clearAll
  induction offs generalizing h with
  | nil => rfl
  | cons x xs ih => rw [List.foldl_cons, ih]; rfl

@[simp] theorem stackAux_clearAll (k : Nat) : stackAux (clearAll offs h) k = stackAux h k := by rw [clearAll_frame]; rfl

@[simp] theorem xcache_clearReg (o t : Nat) : xcache (clearReg h o) t = xcache h t := rfl

/-- The registers of a list are at their reset values, and no other register, no memory, no command and no ring has
changed. -/
structure CountersGone (offs : List Nat) (h h' : Hw) : Prop where
  gone : ∀ o ∈ offs, getReg h' o = regReset o
  kept : regsKept h h' offs
  mem : h'.mem = h.mem
  slots : h'.slots = h.slots
  rings : h'.rings = h.rings

/-- What is counted below the granularity of the registers goes first; it is in none of these. -/
theorem CountersGone.of_clearAll {g : Hw} (reads : ∀ o, getReg g o = getReg h o) (mem : g.mem = h.mem)
    (slots : g.slots = h.slots) (rings : g.rings = h.rings) : CountersGone offs h (clearAll offs g) := by
  have frame := clearAll_frame (h := g) (offs := offs)
  refine ⟨fun o m => ?_, fun o m => ?_, ?_, ?_, ?_⟩
  · rw [getReg_clearAll, if_pos m]
  · rw [getReg_clearAll, if_neg m, reads]
  · rw [frame, mem]
  · rw [frame, slots]
  · rw [frame, rings]

/-! Counters -/

/-- A counter that is a stored register: it is 0 at reset, and every agent that it answers reads what is stored. -/
def StoredCounter (o : Nat) : Prop := regReset o = 0 ∧ ∀ f h w, blockRead f h w o = getReg h o

/-- A CLR_COUNTERS clears the counters that it returns to reset values, and those that read 0 after it in another
way. -/
theorem clears_of_gone {i : Instr} {w : World} {off : Nat} {regs : List Nat} {f : Hw → Hw}
    (arm : ∀ s, exec i s = onHw (ifAnswers w off i f) s) (gone : ∀ h, CountersGone offs h (f h)) (sub : offs ⊆ regs)
    (counts : ∀ o ∈ regs, o ∈ offs ∧ StoredCounter o ∨ ∀ h fz v, blockRead fz (f h) v o = 0) :
    clears i w off regs := by
  intro s a
  obtain ⟨zero, kept, mem, slots, rings⟩ := gone s.hw
  refine ⟨f s.hw, effect_of_acts (arm s) a, fun o m v => ?_, fun o n => kept o fun m => n (sub m), mem, slots, rings⟩
  rcases counts o m with ⟨cleared, reset, stored⟩ | reads
  · rw [stored, zero o cleared, reset]
  · exact reads ..

/-- Where all of them are stored registers. -/
theorem clears_of_stored {i : Instr} {w : World} {off : Nat} {f : Hw → Hw}
    (arm : ∀ s, exec i s = onHw (ifAnswers w off i f) s) (gone : ∀ h, CountersGone offs h (f h))
    (stored : ∀ o ∈ offs, StoredCounter o) : clears i w off offs :=
  clears_of_gone arm gone (fun _ m => m) fun o m => .inl ⟨m, stored o m⟩

/-! The blocks of the counters -/

theorem blockOf_tile {t r : Nat} (lt : t < 192) (lr : r < 0x10000) : blockOf (regOf (.tile t) r) = .tile t := by
  generalize at_ : regOf (.tile t) r = o
  simp only [regOf, baseOf] at at_
  unfold blockOf
  repeat rw [if_neg (by omega)]
  rw [if_pos (by omega)]
  congr 1
  omega

theorem blockOf_stack {k r : Nat} (lk : k < 24) (lr : r < 0x20000) : blockOf (regOf (.stack k) r) = .stack k := by
  generalize at_ : regOf (.stack k) r = o
  simp only [regOf, baseOf] at at_
  unfold blockOf
  repeat rw [if_neg (by omega)]
  rw [if_pos (by omega)]
  congr 1
  omega

theorem blockOf_zl {r : Nat} (lr : r < 0x10000) : blockOf (rZl r) = .zl := by
  generalize at_ : rZl r = o
  simp only [rZl, regOf, baseOf] at at_
  unfold blockOf
  repeat rw [if_neg (by omega)]
  rw [if_pos (by omega)]

section
variable {t r : Nat} (lt : t < 192) (lr : r < 0x10000)
include lt lr

theorem regReset_tile : regReset (regOf (.tile t) r) = BitVec.ofNat 32 (tileInfo t r).reset := by
  rw [regReset, regInfo, blockOf_tile lt lr, regOf, Nat.add_sub_cancel_left]

theorem blockRead_tile (f : Fuses) (w : World) : blockRead f h w (regOf (.tile t) r) = readTile h t r := by
  rw [blockRead, blockOf_tile lt lr, regOf, Nat.add_sub_cancel_left]

end

section
variable {k r : Nat} (lk : k < 24) (lr : r < 0x20000)
include lk lr

theorem regReset_stack : regReset (regOf (.stack k) r) = BitVec.ofNat 32 (stackInfo k r).reset := by
  rw [regReset, regInfo, blockOf_stack lk lr, regOf, Nat.add_sub_cancel_left]

theorem blockRead_stack (f : Fuses) (w : World) : blockRead f h w (regOf (.stack k) r) = readStack h k r := by
  rw [blockRead, blockOf_stack lk lr, regOf, Nat.add_sub_cancel_left]

end

/-- The counters of a tile block, without those of its translation cache. -/
def tileCounters : List Nat :=
  arrayCounters ++ [0x1010, 0x1014, 0x1018, 0x2010, 0x2014, 0x2018, 0x201C, 0x3010]

theorem storedCounter_tile {t r : Nat} (lt : t < 192) (m : r ∈ tileCounters) : StoredCounter (regOf (.tile t) r) := by
  have apart : ∀ r ∈ tileCounters, r < 0x10000 ∧
      r ∉ [0, 4, 0x1000, 0x2000, 0x2004, 0x2008, 0x3000, 0x3008, 0x300C] ∧ r ∉ [0x10, 0x1004] := by decide
  obtain ⟨lr, reads, resets⟩ := apart r m
  simp only [List.mem_cons, List.not_mem_nil, or_false, not_or] at reads resets
  refine ⟨?_, fun f h w => ?_⟩
  · rw [regReset_tile lt lr]
    simp [tileInfo, reads, resets, ro]
  · rw [blockRead_tile lt lr]
    simp [readTile, reads]

theorem storedCounter_stack {k r : Nat} (lk : k < 24) (m : r ∈ [0x10, 0x14, 0x10010, 0x10014, 0x10018, 0x1001C]) :
    StoredCounter (regOf (.stack k) r) := by
  have apart : ∀ r ∈ [0x10, 0x14, 0x10010, 0x10014, 0x10018, 0x1001C], r < 0x10100 ∧
      r ∉ [0, 4, 0x2C, 0x30, 0x34, 0x38, 0x10000, 0x10004, 0x10008, 0x10020] := by decide
  obtain ⟨lr, others⟩ := apart r m
  simp only [List.mem_cons, List.not_mem_nil, or_false, not_or] at others
  refine ⟨?_, fun f h w => ?_⟩
  · rw [regReset_stack lk (by omega)]
    simp [stackInfo, others, ro]
  · rw [blockRead_stack lk (by omega)]
    have low : ¬ 0x10100 ≤ r := by omega
    have lower : ¬ 0x10200 ≤ r := by omega
    simp [readStack, others, low, lower]

theorem storedCounter_note : ∀ o ∈ [0x600010, 0x600014, 0x600018], StoredCounter o := by
  intro o m
  have known : regReset o = 0 ∧ blockOf o = .note ∧ o - 0x600000 ≠ 0 ∧ o - 0x600000 ≠ 0x1C ∧
      regOf .note (o - 0x600000) = o := by revert o; decide
  obtain ⟨reset, block, status, slots, offset⟩ := known
  refine ⟨reset, fun f h w => ?_⟩
  simp only [blockRead, block, readNote, baseOf, if_neg status, if_neg slots, offset]

theorem storedCounter_host : ∀ o ∈ (List.range 7).map fun i => rHost (0x10 + 4 * i), StoredCounter o := by
  intro o m
  have known : regReset o = 0 ∧ blockOf o = .host := by revert o; decide
  exact ⟨known.1, fun f h w => by simp only [blockRead, known.2]⟩

/-- The two counters of link l. -/
theorem storedCounter_zl {l r : Nat} (ll : l < 51) (at_ : r = 0x104 + 16 * l ∨ r = 0x108 + 16 * l) :
    StoredCounter (rZl r) := by
  have lr : r < 0x10000 := by omega
  obtain ⟨status, rate, test, link, sel, low, high⟩ : r ≠ 0 ∧ r ≠ 4 ∧ r ≠ 0xC ∧ r % 16 ≠ 0 ∧ r ≠ 0x440 ∧ r ≠ 0x444 ∧
    r ≠ 0x448 := by omega
  have offset : rZl r - baseOf .zl = r := Nat.add_sub_cancel_left ..
  refine ⟨?_, fun f h w => ?_⟩
  · rw [regReset, regInfo, blockOf_zl lr, offset]
    simp [zlInfo, rate, test, link, sel, ro]
  · rw [blockRead, blockOf_zl lr, offset]
    simp [readZl, status, low, high]

/-! Their commands -/

section
variable (h : Hw)

theorem clearRegs_eq (b : Block) (rels : List Nat) : clearRegs (regOf b 0) rels h = clearAll (rels.map (regOf b)) h := by
  rw [clearAll, List.foldl_map]
  rfl

theorem clearRegs_gone (b : Block) (rels : List Nat) :
    CountersGone (rels.map (regOf b)) h (clearRegs (regOf b 0) rels h) := by
  rw [clearRegs_eq]
  exact .of_clearAll (fun _ => rfl) rfl rfl rfl

theorem tileClrHw_gone (t : Nat) : CountersGone (arrayCounters.map (regOf (.tile t))) h (tileClrHw t h) := by
  rw [tileClrHw, clearRegs_eq]
  exact .of_clearAll (fun _ => rfl) rfl rfl rfl

theorem stackClrHw_gone (k : Nat) : CountersGone ([0x10, 0x14].map (regOf (.stack k))) h (stackClrHw k h) := by
  rw [stackClrHw, clearRegs_eq]
  exact .of_clearAll (fun _ => rfl) rfl rfl rfl

theorem pawnClrHw_gone (k : Nat) :
    CountersGone ([0x10010, 0x10014, 0x10018, 0x1001C].map (regOf (.stack k))) h (pawnClrHw k h) := by
  rw [pawnClrHw, clearRegs_eq]
  exact .of_clearAll (fun _ => rfl) rfl rfl rfl

theorem tcClrHw_gone (t : Nat) : CountersGone [regOf (.tile t) 0x3010] h (tcClrHw t h) :=
  .of_clearAll (fun _ => rfl) rfl rfl rfl

theorem noteClrHw_gone : CountersGone [0x600010, 0x600014, 0x600018] h (noteClrHw h) := by
  have run : noteClrHw h =
      clearAll [0x600010, 0x600014, 0x600018] { h with ckpt := { h.ckpt with sentBytes := 0 } } := rfl
  rw [run]
  exact .of_clearAll (fun _ => rfl) rfl rfl rfl

theorem hostClrHw_gone : CountersGone ((List.range 7).map fun i => rHost (0x10 + 4 * i)) h (hostClrHw h) := by
  rw [hostClrHw, ← List.foldl_map (f := fun i => rHost (0x10 + 4 * i)) (g := clearReg)]
  exact .of_clearAll (fun _ => rfl) rfl rfl rfl

theorem zlClrHw_gone : CountersGone ((List.range 51).flatMap fun l => [rE2e l, rRetry l]) h (zlClrHw h) := by
  have run : zlClrHw h = clearAll ((List.range 51).flatMap fun l => [rE2e l, rRetry l]) h := by
    rw [clearAll, List.foldl_flatMap]
    rfl
  rw [run]
  exact .of_clearAll (fun _ => rfl) rfl rfl rfl

end

/-- The byte counters of a stack read what is counted beside the registers (R197), which goes with them. -/
theorem clears_stack (w : World) (k : StackId) : clears (.stackClrCounters w k) w (regOf (.stack k.val) 8)
    ([0x10, 0x14, 0x34, 0x38].map (regOf (.stack k.val))) := by
  have bytes (h : Hw) : (stackAux (stackClrHw k.val h) k.val).rdBytes = 0 ∧
      (stackAux (stackClrHw k.val h) k.val).wrBytes = 0 := by simp [stackClrHw, clearRegs_eq]
  refine clears_of_gone (fun _ => rfl) (fun h => stackClrHw_gone h k.val) (List.map_subset _ (by simp)) fun o m => ?_
  simp only [List.map_cons, List.map_nil, List.mem_cons, List.not_mem_nil, or_false] at m
  rcases m with rfl | rfl | rfl | rfl
  case inl => exact .inl ⟨List.mem_map_of_mem (by decide), storedCounter_stack k.isLt (by decide)⟩
  case inr.inl => exact .inl ⟨List.mem_map_of_mem (by decide), storedCounter_stack k.isLt (by decide)⟩
  case inr.inr.inl => exact .inr fun h fz v => by simp [blockRead_stack k.isLt, readStack, (bytes h).1, w32]
  case inr.inr.inr => exact .inr fun h fz v => by simp [blockRead_stack k.isLt, readStack, (bytes h).2, w32]

/-- Hits and misses of a translation cache are counted in the cache (R368). -/
theorem clears_translation (w : World) (t : TileId) : clears (.tcClrCounters w t) w (regOf (.tile t.val) 0x3004)
    ([0x3008, 0x300C, 0x3010].map (regOf (.tile t.val))) := by
  have counts (h : Hw) : (xcache (tcClrHw t.val h) t.val).hits = 0 ∧ (xcache (tcClrHw t.val h) t.val).misses = 0 := by
    simp [tcClrHw]
  refine clears_of_gone (fun _ => rfl) (fun h => tcClrHw_gone h t.val) (by simp) fun o m => ?_
  simp only [List.map_cons, List.map_nil, List.mem_cons, List.not_mem_nil, or_false] at m
  rcases m with rfl | rfl | rfl
  case inl => exact .inr fun h fz v => by simp [blockRead_tile t.isLt, readTile, (counts h).1, w32]
  case inr.inl => exact .inr fun h fz v => by simp [blockRead_tile t.isLt, readTile, (counts h).2, w32]
  case inr.inr => exact .inl ⟨List.mem_singleton_self _, storedCounter_tile t.isLt (by decide)⟩

/-- Counters of a tile block that are all stored registers. -/
theorem clears_tile {i : Instr} {w : World} {off : Nat} {rels : List Nat} {f : Hw → Hw} {t : TileId}
    (arm : ∀ s, exec i s = onHw (ifAnswers w off i f) s)
    (gone : ∀ h, CountersGone (rels.map (regOf (.tile t.val))) h (f h)) (sub : ∀ r ∈ rels, r ∈ tileCounters) :
    clears i w off (rels.map (regOf (.tile t.val))) := by
  refine clears_of_stored arm gone fun o m => ?_
  obtain ⟨r, listed, rfl⟩ := List.mem_map.mp m
  exact storedCounter_tile t.isLt (sub r listed)

/-- Settles O32: each command by the registers that it clears. -/
theorem countersClear : Obligations.CountersClear := by
  intro w t k
  refine ⟨?arrays, ?vector, ?dma, clears_translation w t, clears_stack w k, ?pawns, ?notes, ?host, ?links⟩
  case arrays =>
    have listed : (List.range 16).map (fun i => regOf (.tile t.val) (0x100 + 4 * i)) =
        arrayCounters.map (regOf (.tile t.val)) := by rw [arrayCounters, List.map_map]; rfl
    rw [listed]
    exact clears_tile (fun _ => rfl) (fun h => tileClrHw_gone h t.val) (by decide)
  case vector => exact clears_tile (fun _ => rfl) (fun h => clearRegs_gone h _ _) (by decide)
  case dma => exact clears_tile (fun _ => rfl) (fun h => clearRegs_gone h _ _) (by decide)
  case pawns =>
    refine clears_of_stored (fun _ => rfl) (fun h => pawnClrHw_gone h k.val) fun o m => ?_
    obtain ⟨r, listed, rfl⟩ := List.mem_map.mp m
    exact storedCounter_stack k.isLt (List.mem_of_mem_drop (i := 2) listed)
  case notes => exact clears_of_stored (fun _ => rfl) noteClrHw_gone storedCounter_note
  case host => exact clears_of_stored (fun _ => rfl) hostClrHw_gone storedCounter_host
  case links =>
    refine clears_of_stored (fun _ => rfl) zlClrHw_gone fun o m => ?_
    obtain ⟨l, lane, off⟩ := List.mem_flatMap.mp m
    rcases List.mem_pair.mp off with rfl | rfl
    · exact storedCounter_zl (List.mem_range.mp lane) (.inl rfl)
    · exact storedCounter_zl (List.mem_range.mp lane) (.inr rfl)

end Sys2Proof.Machine
end

section
/-! PROOFS. What follows a command while the mirror of error records is off (R460). -/

namespace Sys2Proof.Machine

variable {h : Hw}

/-- The register of the error block whose bit 5 turns the mirror on. -/
def rMirrorCfg : Nat := regOf .err 0xA0

theorem getReg_errIrq_cfg (r : ErrRec) : getReg (errIrq h r) rMirrorCfg = getReg h rMirrorCfg := by
  unfold errIrq sendMsix
  split_ifs
  · exact getReg_setReg_ne _ _ (by decide)
  all_goals rfl

theorem errIrq_frame (r : ErrRec) : errIrq h r =
    { h with host := (errIrq h r).host, regs := (errIrq h r).regs, freeRegs := (errIrq h r).freeRegs } := by
  unfold errIrq
  split_ifs
  · exact sendMsix_frame ..
  · rfl

theorem mirrorOne_of_off (off : bit (getReg h rMirrorCfg) 5 = false) (r : ErrRec) : mirrorOne h r = (true, h) :=
  if_pos (.inl (by rw [← rMirrorCfg, off]; rfl))

/-- Due records then go with their interrupts alone. -/
theorem flushErrs_of_off (off : bit (getReg h rMirrorCfg) 5 = false) (n : Nat) : flushErrs n h =
    { h with host := (flushErrs n h).host, regs := (flushErrs n h).regs, freeRegs := (flushErrs n h).freeRegs,
             errs := (flushErrs n h).errs } := by
  induction n generalizing h with
  | zero => rfl
  | succ n ih =>
    unfold flushErrs
    cases due : h.errs.toMirror with
    | nil => rfl
    | cons r rs =>
      have unmirrored : bit (getReg { h with errs := { h.errs with toMirror := rs } } rMirrorCfg) 5 = false := off
      simp only [mirrorOne_of_off unmirrored]
      rw [ih (by rw [getReg_errIrq_cfg]; exact off), errIrq_frame]

theorem settle_of_off (off : bit (getReg h rMirrorCfg) 5 = false) : settle h =
    { h with pkg := (settle h).pkg, host := (settle h).host, regs := (settle h).regs, freeRegs := (settle h).freeRegs,
             errs := (settle h).errs } := by
  have followed (g : Hw) : settlePkg g =
      { g with pkg := (settlePkg g).pkg, host := (settlePkg g).host, regs := (settlePkg g).regs,
               freeRegs := (settlePkg g).freeRegs } := by
    unfold settlePkg
    split_ifs
    · rw [setPkg_frame]
    · rw [setPkg_frame]
    · rfl
  unfold settle
  rw [followed, flushErrs_of_off off]

/-- What a command's own effect leaves in memory and at the ports is in the state that the command goes on with. -/
theorem effect_next {i : Instr} {s : State} (done : effect i s h) (off : bit (getReg h rMirrorCfg) 5 = false) :
    (nextOf (exec i s)).map (fun t => (t.hw.mem, t.hw.ports)) = some (h.mem, h.ports) := by
  rw [done, nextOf, Option.map_some, settle_of_off off]

end Sys2Proof.Machine
end

section
/-! PROOFS. TILE_RESET where a port is listed twice: O34. -/

namespace Sys2Proof.Machine

/-! The ports are a sparse map, and the statement speaks of every state, also of one whose map holds port 0 twice, the
second time behind the first. The reset drops the open requests of the tile (R250), an entry that then is as at reset
leaves the map, and the second entry of port 0 shows: with a request of another tile that port 0 did not show before.
Where the keys of the map rise, as in its canonical form, there is no second entry. -/

namespace DoubledPort

/-- A deep-tier request that a tile's DMA engine has open. -/
def request (tile : Nat) : DtReq :=
  { tag := 0, slot := 0, tile := tile, write := false, window := 0, offset := 0, len := 64, got := [], acks := 0,
    answer := none, lost := false }

/-- A package in READY, with the requests of tiles 0 and 1 in two entries of port 0. -/
def hw : Hw :=
  { Hw.reset with
    pkg := .ready
    bringStep := 10
    ports := [0, 1].map fun tile => (0, { PortAux.reset with requests := [request tile] }) }

def state : State := { State.reset with hw := hw }

theorem reset_acts : acts hw .nonSecure (regOf (.tile 0) 8) = true := by decide +kernel

theorem tile_free : tileBusy hw 0 = false := by decide +kernel

theorem mirror_off : bit (getReg hw rMirrorCfg) 5 = false := by decide +kernel

theorem before_reset : (portAux hw 0).requests = [request 0] := by decide +kernel

/-- The requests of port 0 in a map of ports. -/
def requestsIn (ports : List (Nat × PortAux)) : List DtReq := (smGet PortAux.reset ports 0).requests

theorem after_reset :
    (nextOf (exec (.tileReset .nonSecure 0) state)).map (requestsIn ·.hw.ports) = some [request 1] := by decide +kernel

end DoubledPort

open DoubledPort in
/-- Refutes O34: with port 0 twice in the map of ports, a reset of tile 0 uncovers a request of tile 1. -/
theorem not_tileResets : ¬ Obligations.TileResets := by
  intro claim
  obtain ⟨-, free⟩ := (claim .nonSecure 0 state).1 reset_acts
  obtain ⟨h', done, -, -, -, outside, -, -, -, -, requests, -⟩ := free tile_free
  have off : bit (getReg h' rMirrorCfg) 5 = false := by
    rw [outside _ (.inl (by decide))]
    exact mirror_off
  have shown : (portAux h' 0).requests = [request 1] := by
    have next := congrArg (Option.map fun x => requestsIn x.2) (effect_next done off)
    rw [Option.map_map] at next
    exact Option.some.inj (next.symm.trans after_reset)
  have listed : request 1 ∈ (portAux h' 0).requests := by rw [shown]; exact List.mem_singleton_self _
  have old : request 1 ∈ (portAux hw 0).requests := (requests 0 _ listed).2
  rw [before_reset] at old
  exact absurd old (by decide)

end Sys2Proof.Machine
end

section
/-! PROOFS. REGION_COMMIT where a register is listed twice: O39. -/

namespace Sys2Proof.Machine

/-! Registers are a sparse map, and the statement speaks of every state, also of one whose map holds a base register of
the live region table twice. That register reads its first value, 0, as its staged copy does; but the commit goes
through the entries of the map, takes the second, valid one for a region, finds none like it among the staged copies and
zero-fills it. Where the keys of the map rise, as in its canonical form, there is no second entry. -/

namespace DoubledRegion

/-- A package in READY with 7 in the first byte of HBM, and the base register of live region 0 listed as 0 and then as
valid; region 0 has 2 MiB, staged and live. -/
def hw : Hw :=
  { Hw.reset with
    pkg := .ready
    bringStep := 10
    regs := [(rSec 0x1004, 1), (rSec 0x1800, 0), (rSec 0x1800, 0x80000000), (rSec 0x1804, 1)]
    mem := { Mem.reset with hbm := [(0, 7)] } }

def state : State := { State.reset with hw := hw }

theorem block_answers : answers hw .secure (rSec 0x2000) = true := by decide +kernel

theorem staged_sound : firstCause (regionCauses hw) = none := by decide +kernel

theorem staged_is_live : ∀ p ∈ setPairs (rSec 0x1000) (rSec 0x1800) 512, getReg hw p.1 = getReg hw p.2 := by
  decide +kernel

theorem mirror_off : bit (getReg hw rMirrorCfg) 5 = false := by decide +kernel

theorem byte_before : hw.mem.read .hbm 0 = 7 := by decide +kernel

theorem byte_after : (nextOf (exec (.regionCommit .secure) state)).map (·.hw.mem.read .hbm 0) = some 0 := by
  decide +kernel

end DoubledRegion

open DoubledRegion in
/-- Refutes O39: a commit of region registers that read as their live copies do zero-fills HBM where the map of
registers holds a live one twice. -/
theorem not_keysAndFloor : ¬ Obligations.KeysAndFloor := by
  rintro ⟨sets, -⟩
  obtain ⟨accepted, -⟩ := (sets state).2 block_answers
  obtain ⟨h', done, -, -, -, -, same⟩ := accepted staged_sound
  obtain ⟨mem, kept⟩ := same staged_is_live
  have off : bit (getReg h' rMirrorCfg) 5 = false := by
    rw [kept _ List.not_mem_nil]
    exact mirror_off
  have next := congrArg (Option.map fun x => x.1.read .hbm 0) (effect_next done off)
  rw [Option.map_map, mem] at next
  have unchanged : some (hw.mem.read .hbm 0) = some 0 := next.symm.trans byte_after
  rw [byte_before] at unchanged
  exact absurd unchanged (by decide)

end Sys2Proof.Machine
end

section
/-! PROOFS. Values on the grid of a floating format, and the conversions that keep them: O60. -/

namespace Sys2Proof.Machine

variable {f : FFmt} {m q : Nat} {e u : Int} {b : Nat}

/-! The grid of a format -/

/-- m × 2^e is written in the grid of a format with unbounded exponent range: with all its fraction bits, or at the
least exponent (R102). -/
structure FFmt.OnGrid (f : FFmt) (m : Nat) (e : Int) : Prop where
  lt : m < 2 ^ (f.p + 1)
  least : f.emin - f.p ≤ e
  subnormal : m < 2 ^ f.p → e = f.emin - f.p

theorem FFmt.onGrid_subnormal (l : m < 2 ^ f.p) : f.OnGrid m (f.emin - f.p) :=
  ⟨by omega, le_rfl, fun _ => rfl⟩

theorem FFmt.onGrid_normal {fr : Nat} (l : fr < 2 ^ f.p) (h : f.emin - f.p ≤ e) : f.OnGrid (2 ^ f.p + fr) e :=
  ⟨by omega, h, fun x => by omega⟩

/-- The spacing at a grid value is the value's own exponent, so nothing is left below it. -/
theorem FFmt.floorGrid_of_onGrid (g : f.OnGrid m e) (nz : m ≠ 0) : f.floorGrid m e = (m, e, 0, 0) := by
  have spacing : (if f.emin ≤ (Nat.log2 m : Int) + e then (Nat.log2 m : Int) + e else f.emin) - f.p = e := by
    by_cases sub : m < 2 ^ f.p
    · have log : Nat.log2 m < f.p := (Nat.log2_lt nz).2 sub
      have at_least := g.subnormal sub
      rw [if_neg (by omega)]
      exact at_least.symm
    · have log : Nat.log2 m = f.p := (Nat.log2_eq_iff nz).2 ⟨Nat.le_of_not_lt sub, g.lt⟩
      have least := g.least
      rw [if_pos (by omega)]
      omega
  simp [FFmt.floorGrid, spacing]

/-- A grid value is not rounded, whatever the random word. -/
theorem FFmt.roundGrid_of_onGrid (g : f.OnGrid m e) (rnd : Option Word) : f.roundGrid rnd m e = (m, e) := by
  by_cases nz : m = 0
  · have zero : e = f.emin - f.p := g.subnormal (nz ▸ Nat.two_pow_pos _)
    simp [FFmt.roundGrid, nz, zero]
  · cases rnd with
    | none => simp [FFmt.roundGrid, nz, f.floorGrid_of_onGrid g nz]
    | some w => simp [FFmt.roundGrid, nz, f.floorGrid_of_onGrid g nz, w.isLt]

theorem FFmt.encodeGrid_subnormal (neg : Bool) (l : m < 2 ^ f.p) :
    f.encodeGrid neg m e = neg.toNat * 2 ^ (f.ebits + f.p) + m := by
  have one : ¬ 2 ^ (f.p + 1) ≤ m := by omega
  simp [FFmt.encodeGrid, one, l]

theorem FFmt.encodeGrid_normal {ef fr : Nat} (neg : Bool) (l : fr < 2 ^ f.p) :
    f.encodeGrid neg (2 ^ f.p + fr) ((ef : Int) - f.bias - f.p) =
      neg.toNat * 2 ^ (f.ebits + f.p) + ef * 2 ^ f.p + fr := by
  have one : ¬ 2 ^ (f.p + 1) ≤ 2 ^ f.p + fr := by omega
  simp [FFmt.encodeGrid, one]

/-! The largest finite value -/

/-- Fractions decide only at the largest value's exponent: below it a spacing is at most half the largest value's, so
q may reach twice the largest one's. -/
theorem FFmt.beyond_eq_false (le : u ≤ f.maxFinite.2) (top : u = f.maxFinite.2 → q ≤ f.maxFinite.1)
    (dbl : q ≤ 2 * f.maxFinite.1) : f.beyond q u = false := by
  have shift : q ≤ f.maxFinite.1 * 2 ^ (f.maxFinite.2 - u).toNat := by
    cases d : (f.maxFinite.2 - u).toNat with
    | zero => simpa using top (by omega)
    | succ k =>
      calc q ≤ f.maxFinite.1 * 2 := by omega
        _ ≤ f.maxFinite.1 * 2 ^ (k + 1) := Nat.mul_le_mul_left _ (Nat.le_self_pow (Nat.succ_ne_zero k) 2)
  simpa [FFmt.beyond, le, Nat.shiftLeft_eq] using shift

/-- The exponent and fraction fields spell no infinity and no NaN of the format (Table 4-2). -/
def FFmt.FiniteFields (f : FFmt) (ef fr : Nat) : Prop :=
  ¬ (f.special = 0 ∧ ef = 2 ^ f.ebits - 1) ∧ ¬ (f.special = 1 ∧ ef = 2 ^ f.ebits - 1 ∧ fr = 7)

/-- The largest finite value is a normal one, and bounds every finite value that fields of the format spell: by its
exponent, and at that exponent by its fraction. -/
structure FFmt.MaxBounds (f : FFmt) : Prop where
  normal : 2 ^ f.p ≤ f.maxFinite.1
  least : f.emin - f.p ≤ f.maxFinite.2
  exponent : ∀ ef fr, ef < 2 ^ f.ebits → f.FiniteFields ef fr → (ef : Int) - f.bias - f.p ≤ f.maxFinite.2
  fraction : ∀ ef fr, fr < 2 ^ f.p → f.FiniteFields ef fr → (ef : Int) - f.bias - f.p = f.maxFinite.2 →
    2 ^ f.p + fr ≤ f.maxFinite.1

/-- A format with IEEE 754's special values keeps its top exponent for them. -/
theorem FFmt.maxBounds_ieee (s : f.special = 0) (wide : 3 ≤ 2 ^ f.ebits) : f.MaxBounds := by
  have largest : f.maxFinite = (2 ^ (f.p + 1) - 1, ((2 ^ f.ebits - 2 : Nat) : Int) - f.bias - f.p) := by
    simp [FFmt.maxFinite, s]
  have pos : 0 < 2 ^ f.p := Nat.two_pow_pos _
  refine ⟨?_, ?_, fun ef fr l fin => ?_, fun ef fr l _ _ => ?_⟩ <;> rw [largest]
  · show 2 ^ f.p ≤ 2 ^ (f.p + 1) - 1
    omega
  · show 1 - (f.bias : Int) - f.p ≤ ((2 ^ f.ebits - 2 : Nat) : Int) - f.bias - f.p
    omega
  · have below : ef ≠ 2 ^ f.ebits - 1 := fun x => fin.1 ⟨s, x⟩
    show (ef : Int) - f.bias - f.p ≤ ((2 ^ f.ebits - 2 : Nat) : Int) - f.bias - f.p
    omega
  · show 2 ^ f.p + fr ≤ 2 ^ (f.p + 1) - 1
    omega

/-- E4M3 gives up its top fraction alone, so 448 is 14 × 2^5. -/
theorem maxBounds_e4m3 : e4m3.MaxBounds := by
  refine ⟨by decide, by decide, fun ef fr l fin => ?_, fun ef fr l fin top => ?_⟩ <;>
    simp [e4m3, FFmt.FiniteFields, FFmt.maxFinite] at * <;> omega

/-- FP4 has no special value, so its largest, 6, is 3 × 2. -/
theorem maxBounds_fp4 : fp4.MaxBounds := by
  refine ⟨by decide, by decide, fun ef fr l fin => ?_, fun ef fr l fin top => ?_⟩ <;>
    simp [fp4, FFmt.FiniteFields, FFmt.maxFinite] at * <;> omega

theorem maxBounds_table {f : FFmt} (h : f ∈ [fp4, e4m3, e5m2, fp16, bf16, fp32, w40, m48]) : f.MaxBounds := by
  simp only [List.mem_cons, List.not_mem_nil, or_false] at h
  obtain rfl | rfl | rfl | rfl | rfl | rfl | rfl | rfl := h
  · exact maxBounds_fp4
  · exact maxBounds_e4m3
  all_goals exact FFmt.maxBounds_ieee rfl (by decide)

/-! The value that bits spell -/

/-- Bits are their sign, exponent and fraction fields. -/
theorem FFmt.bits_eq_fields (l : b < 2 ^ (1 + f.ebits + f.p)) :
    (b.testBit (f.ebits + f.p)).toNat * 2 ^ (f.ebits + f.p) + b / 2 ^ f.p % 2 ^ f.ebits * 2 ^ f.p +
      b % 2 ^ f.p = b := by
  have sign : (b.testBit (f.ebits + f.p)).toNat = b / 2 ^ f.p / 2 ^ f.ebits := by
    have high : b / 2 ^ (f.ebits + f.p) < 2 :=
      Nat.div_lt_of_lt_mul (by rwa [← Nat.pow_succ, Nat.succ_eq_one_add, ← Nat.add_assoc])
    rw [Nat.toNat_testBit, Nat.mod_eq_of_lt high, Nat.div_div_eq_div_mul, ← Nat.pow_add, Nat.add_comm f.p]
  calc
    _ = (2 ^ f.ebits * (b / 2 ^ f.p / 2 ^ f.ebits) + b / 2 ^ f.p % 2 ^ f.ebits) * 2 ^ f.p + b % 2 ^ f.p := by
      rw [sign, Nat.pow_add]; ring
    _ = b := by rw [Nat.div_add_mod, Nat.mul_comm, Nat.div_add_mod]

/-- A finite reading of bits is subnormal, with exponent field 0, or normal, and its fields are no special value's. -/
theorem FFmt.decode_finite (nan : (f.decode b).isNan = false) (inf : ∀ n, f.decode b ≠ .inf n) :
    let neg := b.testBit (f.ebits + f.p)
    let ef := b / 2 ^ f.p % 2 ^ f.ebits
    let fr := b % 2 ^ f.p
    (ef = 0 ∧ f.decode b = .fin neg fr (f.emin - f.p)) ∨
      (ef ≠ 0 ∧ f.FiniteFields ef fr ∧ f.decode b = .fin neg (2 ^ f.p + fr) ((ef : Int) - f.bias - f.p)) := by
  intro neg ef fr
  have unfolded : f.decode b =
      if f.special = 0 ∧ ef = 2 ^ f.ebits - 1 then (if fr = 0 then .inf neg else .nan)
      else if f.special = 1 ∧ ef = 2 ^ f.ebits - 1 ∧ fr = 7 then .nan
      else if ef = 0 then .fin neg fr (f.emin - f.p)
      else .fin neg (2 ^ f.p + fr) ((ef : Int) - f.bias - f.p) := rfl
  rw [unfolded] at nan inf ⊢
  by_cases ieee : f.special = 0 ∧ ef = 2 ^ f.ebits - 1
  · rw [if_pos ieee] at nan inf
    by_cases zero : fr = 0
    · exact absurd (if_pos zero) (inf neg)
    · simp [zero, Num.isNan] at nan
  by_cases code : f.special = 1 ∧ ef = 2 ^ f.ebits - 1 ∧ fr = 7
  · simp [code, Num.isNan] at nan
  rw [if_neg ieee, if_neg code]
  by_cases sub : ef = 0
  · exact .inl ⟨sub, if_pos sub⟩
  · exact .inr ⟨sub, ⟨ieee, code⟩, if_neg sub⟩

/-! The conversions -/

/-- A grid value within range is encoded as it stands, in either role (Table 4-4, its first case). -/
theorem convertFloat_of_onGrid (g : f.OnGrid m e) (within : f.beyond m e = false) (w gradient : Bool)
    (rnd : Option Word) (neg : Bool) :
    convertFloat f w gradient rnd (.fin neg m e) = Conv.mk (f.encodeGrid neg m e) 0 false false := by
  simp [convertFloat, f.roundGrid_of_onGrid g, within]

theorem convertFloat_decode (bounds : f.MaxBounds) (w gradient : Bool) (rnd : Option Word)
    (l : b < 2 ^ (1 + f.ebits + f.p)) (nan : (f.decode b).isNan = false) (inf : ∀ n, f.decode b ≠ .inf n) :
    convertFloat f w gradient rnd (f.decode b) = Conv.mk b 0 false false := by
  have fields := f.bits_eq_fields l
  have normal := bounds.normal
  have fraction : b % 2 ^ f.p < 2 ^ f.p := Nat.mod_lt _ (Nat.two_pow_pos _)
  obtain ⟨zero, value⟩ | ⟨nonzero, special, value⟩ := FFmt.decode_finite nan inf
  · have within : f.beyond (b % 2 ^ f.p) (f.emin - f.p) = false :=
      f.beyond_eq_false bounds.least (fun _ => by omega) (by omega)
    rw [zero, Nat.zero_mul, Nat.add_zero] at fields
    rw [value, convertFloat_of_onGrid (f.onGrid_subnormal fraction) within, f.encodeGrid_subnormal _ fraction, fields]
  · have least : f.emin - f.p ≤ ((b / 2 ^ f.p % 2 ^ f.ebits : Nat) : Int) - f.bias - f.p := by
      rw [FFmt.emin]
      omega
    have within := f.beyond_eq_false (q := 2 ^ f.p + b % 2 ^ f.p)
      (bounds.exponent _ _ (Nat.mod_lt _ (Nat.two_pow_pos _)) special) (bounds.fraction _ _ fraction special) (by omega)
    rw [value, convertFloat_of_onGrid (f.onGrid_normal fraction least) within, f.encodeGrid_normal _ fraction, fields]

@[simp] theorem roundInt_numOfInt (v : Int) : roundInt (decide (v < 0)) v.natAbs 0 = v := by
  by_cases neg : v < 0
  · simp [roundInt, signed, neg, abs_of_neg]
  · simp [roundInt, signed, neg, Int.not_lt.1 neg]

/-- An integer is not rounded: its conversion is the clamp to the bounds of n bits. -/
theorem convertInt_numOfInt (n : Nat) (v : Int) : convertInt n (numOfInt v) =
    if v < -(2 ^ (n - 1)) then Conv.mk (enc2 n (-(2 ^ (n - 1)))) outSat false false
    else if 2 ^ (n - 1) - 1 < v then Conv.mk (enc2 n (2 ^ (n - 1) - 1)) outSat false false
    else Conv.mk (enc2 n v) 0 false false := by
  simp only [convertInt, numOfInt, roundInt_numOfInt]

theorem enc2_upper (n : Nat) : enc2 (n + 1) (2 ^ n - 1) = 2 ^ n - 1 := by
  have pos : 0 < 2 ^ n := Nat.two_pow_pos n
  have cast : (2 ^ n - 1 : Int) = ((2 ^ n - 1 : Nat) : Int) := by push_cast [pos]; rfl
  rw [enc2, cast, ← Int.natCast_mod, Int.toNat_natCast, Nat.mod_eq_of_lt (by omega)]

theorem enc2_lower (n : Nat) : enc2 (n + 1) (-(2 ^ n)) = 2 ^ n := by
  have cast : (2 ^ n : Int) = ((2 ^ n : Nat) : Int) := by push_cast; rfl
  have wrap : -((2 ^ n : Nat) : Int) % (2 ^ (n + 1) : Nat) = (2 ^ n : Nat) := by
    have pos : 0 < 2 ^ n := Nat.two_pow_pos n
    rw [← Int.add_emod_right, Int.emod_eq_of_lt] <;> omega
  rw [enc2, cast, wrap, Int.toNat_natCast]

theorem convertInt_clamps (n : Nat) (v : Int) :
    (-(2 ^ n) ≤ v → v < 2 ^ n → convertInt (n + 1) (numOfInt v) = Conv.mk (enc2 (n + 1) v) 0 false false) ∧
    (2 ^ n ≤ v → convertInt (n + 1) (numOfInt v) = Conv.mk (2 ^ n - 1) outSat false false) ∧
    (v < -(2 ^ n) → convertInt (n + 1) (numOfInt v) = Conv.mk (2 ^ n) outSat false false) := by
  have pos : (0 : Int) < 2 ^ n := by positivity
  rw [convertInt_numOfInt, Nat.add_sub_cancel]
  refine ⟨fun lo hi => ?_, fun hi => ?_, fun lo => ?_⟩
  · rw [if_neg (by omega), if_neg (by omega)]
  · rw [if_neg (by omega), if_pos (by omega), enc2_upper]
  · rw [if_pos lo, enc2_lower]

/-- Settles O60: the bits of a finite value spell a value on the grid and within range, which no conversion rounds; an
integer is clamped to its format's bounds. -/
theorem conversionsKeepValues : Obligations.ConversionsKeepValues := by
  refine ⟨fun f table w gradient rnd b l nan inf =>
    convertFloat_decode (maxBounds_table table) w gradient rnd l nan inf, fun n v width => ?_⟩
  obtain rfl | rfl | rfl := width
  · exact convertInt_clamps 3 v
  · exact convertInt_clamps 7 v
  · exact convertInt_clamps 31 v

end Sys2Proof.Machine
end

section
/-! PROOFS. The decode of device physical addresses and its inverse (R170-R173): O58. -/

namespace Sys2Proof.Machine

variable {h : Hw} {a b k m y : Nat}

/-! The decode of each mode and the address that it takes to a place -/

/-- The decode of HBM under a mode of the memory map. -/
def decodeIn (m a : Nat) : PaLoc :=
  match m with
  | 0 => boardLocal a
  | 1 => packageWide a
  | _ => stackLocal a

theorem decodePa_of_hbm (l : a < hbmEnd) : decodePa h a = decodeIn (octetMode h (a / 2 ^ 33)) a := if_pos l

/-- The octet that holds offset y of stack k while its row is not PACKAGE_WIDE. -/
def octetAt (k y : Nat) : Nat := 3 * (y / GiB) + k / 8

def boardAddr (k y : Nat) : Nat :=
  octetAt k y * 2 ^ 33 + y % GiB / 2 ^ 10 * 2 ^ 13 + k % 8 * 2 ^ 10 + y % GiB % 2 ^ 10

def stackAddr (k y : Nat) : Nat := octetAt k y * 2 ^ 33 + k % 8 * GiB + y % GiB

def wideAddr (k y : Nat) : Nat := y / GiB * (24 * GiB) + (y % GiB / 1024 * 24 + k) * 1024 + y % GiB % 1024

/-- The address that the decode of a mode takes to a place. -/
def addrIn (m k y : Nat) : Nat :=
  match m with
  | 0 => boardAddr k y
  | 1 => wideAddr k y
  | _ => stackAddr k y

/-- A place in the 24 stacks of 96 GiB. -/
def InStacks (k y : Nat) : Prop := k < 24 ∧ y < 96 * GiB

theorem boardAddr_octet : boardAddr k y / 2 ^ 33 = octetAt k y := by
  simp only [boardAddr, GiB]
  omega

theorem boardAddr_rest :
    boardAddr k y % 2 ^ 33 = y % GiB / 2 ^ 10 * 2 ^ 13 + k % 8 * 2 ^ 10 + y % GiB % 2 ^ 10 := by
  simp only [boardAddr, GiB]
  omega

theorem boardLocal_eq_iff (l : a < hbmEnd) : boardLocal a = .hbm k y ↔ InStacks k y ∧ a = boardAddr k y := by
  constructor
  · have lines : a % 2 ^ 33 / 2 ^ 13 = a % 2 ^ 33 / 2 ^ 10 / 8 := by omega
    simp only [boardLocal, PaLoc.hbm.injEq, InStacks, boardAddr, octetAt, lines, hbmEnd, GiB] at *
    omega
  · rintro ⟨i, rfl⟩
    simp only [boardLocal, boardAddr_octet, boardAddr_rest, PaLoc.hbm.injEq, InStacks, octetAt, GiB] at *
    omega

theorem stackLocal_eq_iff (l : a < hbmEnd) : stackLocal a = .hbm k y ↔ InStacks k y ∧ a = stackAddr k y := by
  simp only [stackLocal, PaLoc.hbm.injEq, InStacks, stackAddr, octetAt, hbmEnd, GiB] at *
  omega

theorem packageWide_eq_iff (l : a < hbmEnd) : packageWide a = .hbm k y ↔ InStacks k y ∧ a = wideAddr k y := by
  simp only [packageWide, PaLoc.hbm.injEq, InStacks, wideAddr, hbmEnd, GiB] at *
  omega

theorem decodeIn_eq_iff (l : a < hbmEnd) : decodeIn m a = .hbm k y ↔ InStacks k y ∧ a = addrIn m k y := by
  unfold decodeIn addrIn
  split
  · exact boardLocal_eq_iff l
  · exact packageWide_eq_iff l
  · exact stackLocal_eq_iff l

/-! Where the address of a place lies -/

theorem stackAddr_octet : stackAddr k y / 2 ^ 33 = octetAt k y := by
  simp only [stackAddr, GiB]
  omega

theorem wideAddr_row (l : k < 24) : wideAddr k y / 2 ^ 33 / 3 = octetAt k y / 3 := by
  rw [Nat.div_div_eq_div_mul]
  simp only [wideAddr, octetAt, GiB]
  omega

theorem octetAt_lt (i : InStacks k y) : octetAt k y < 288 := by
  simp only [InStacks, octetAt, GiB] at *
  omega

/-- The address lies in the row of its octet, and but for PACKAGE_WIDE in the octet itself. -/
theorem addrIn_octet (l : k < 24) :
    addrIn m k y / 2 ^ 33 / 3 = octetAt k y / 3 ∧ (m ≠ 1 → addrIn m k y / 2 ^ 33 = octetAt k y) := by
  unfold addrIn
  split
  · exact ⟨by rw [boardAddr_octet], fun _ => boardAddr_octet⟩
  · exact ⟨wideAddr_row l, fun ne => absurd rfl ne⟩
  · exact ⟨by rw [stackAddr_octet], fun _ => stackAddr_octet⟩

theorem addrIn_lt (i : InStacks k y) : addrIn m k y / 2 ^ 33 < 288 := by
  have row := (addrIn_octet (m := m) (y := y) i.1).1
  have := octetAt_lt i
  omega

theorem lt_hbmEnd_iff : a < hbmEnd ↔ a / 2 ^ 33 < 288 := by
  simp only [hbmEnd, GiB]
  omega

/-! The decode under a memory map -/

/-- An octet is PACKAGE_WIDE only with the other two of its row (R173). -/
def RowsAlike (h : Hw) : Prop :=
  ∀ n m, n < 288 → m < 288 → n / 3 = m / 3 → (octetMode h n = 1 ↔ octetMode h m = 1)

/-- A mode is that of the octet where its decode finds a place exactly where it is that of the place's own octet. -/
theorem octetMode_addrIn_iff (alike : RowsAlike h) (i : InStacks k y) :
    octetMode h (addrIn m k y / 2 ^ 33) = m ↔ octetMode h (octetAt k y) = m := by
  obtain ⟨row, own⟩ := addrIn_octet (m := m) (y := y) i.1
  by_cases wide : m = 1
  · subst wide
    exact alike _ _ (addrIn_lt i) (octetAt_lt i) row
  · rw [own wide]

theorem lt_of_decodePa_hbm (e : decodePa h a = .hbm k y) : a < hbmEnd := by
  by_contra l
  rw [decodePa, if_neg l] at e
  split_ifs at e

/-- Each place in the stacks has one address, and HBM addresses lead nowhere else. -/
theorem decodePa_eq_hbm_iff (alike : RowsAlike h) :
    decodePa h a = .hbm k y ↔ InStacks k y ∧ a = addrIn (octetMode h (octetAt k y)) k y := by
  constructor
  · intro e
    have l := lt_of_decodePa_hbm e
    rw [decodePa_of_hbm l, decodeIn_eq_iff l] at e
    obtain ⟨i, at_⟩ := e
    rw [(octetMode_addrIn_iff alike i).mp (congrArg (fun x => octetMode h (x / 2 ^ 33)) at_).symm]
    exact ⟨i, at_⟩
  · rintro ⟨i, rfl⟩
    have l := lt_hbmEnd_iff.mpr (addrIn_lt (m := octetMode h (octetAt k y)) i)
    rw [decodePa_of_hbm l, (octetMode_addrIn_iff alike i).mpr rfl, decodeIn_eq_iff l]
    exact ⟨i, rfl⟩

/-! Tile stores and cache arrays -/

theorem eq_of_decodePa_tile {t off : Nat} (e : decodePa h a = .tile t off) :
    a = 0xF00000000000 + t * 0x800000 + off := by
  unfold decodePa at e
  split_ifs at e
  · unfold boardLocal packageWide stackLocal at e
    split at e <;> cases e
  · cases e
    omega

theorem eq_of_decodePa_cacheArray {n off : Nat} (e : decodePa h a = .cacheArray n off) :
    a = 0xF10000000000 + n * 0x4000000 + off := by
  unfold decodePa at e
  split_ifs at e
  · unfold boardLocal packageWide stackLocal at e
    split at e <;> cases e
  · cases e
    omega

/-- Settles O58: each kind of place determines its address. -/
theorem addressesDecodeOnce : Obligations.AddressesDecodeOnce := by
  intro h alike
  refine ⟨fun a b same backed => ?_, fun a k y e => ((decodePa_eq_hbm_iff alike).mp e).1, fun k y lk ly => ?_⟩
  · cases e : decodePa h a with
    | hbm k y =>
      exact ((decodePa_eq_hbm_iff alike).mp e).2.trans ((decodePa_eq_hbm_iff alike).mp (same ▸ e)).2.symm
    | tile t off => exact (eq_of_decodePa_tile e).trans (eq_of_decodePa_tile (same ▸ e)).symm
    | cacheArray n off =>
      exact (eq_of_decodePa_cacheArray e).trans (eq_of_decodePa_cacheArray (same ▸ e)).symm
    | unbacked => exact absurd e backed
  · have e := (decodePa_eq_hbm_iff alike).mpr ⟨⟨lk, ly⟩, rfl⟩
    exact ⟨_, lt_of_decodePa_hbm e, e⟩

end Sys2Proof.Machine
end

section
/-! PROOFS. A write of one codeword and the read of it (R170, R178, R180, R211, R390): O59. -/

namespace Sys2Proof.Machine

variable {h h' : Hw} {s y n : Nat}

/-! Sound codewords -/

/-- A codeword with no erroneous symbol and no poison. -/
def SoundCw (h : Hw) (cw : Nat) : Prop := isPoison h cw = false ∧ cwErrs h cw = []

theorem checkCw_of_sound (sound : SoundCw h (cwOf s y)) : checkCw h s y = (false, h) := by
  simp [checkCw, sound.1, sound.2]

theorem stackRead_of_sound (sound : SoundCw h (cwOf s y)) (k : Nat) :
    (stackRead h s y n k).1 = h.mem.readN .hbm (hbmKey s y) n ∧ (stackRead h s y n k).2.1 = false := by
  simp [stackRead, readCw, checkCw_of_sound sound]

/-- Looking a line up changes registers and caches alone. -/
theorem lookLine_frame (h : Hw) (b line : Nat) : (lookLine h b line).2 = { h with
    regs := (lookLine h b line).2.regs, freeRegs := (lookLine h b line).2.freeRegs,
    caches := (lookLine h b line).2.caches } := by
  unfold lookLine
  split
  · rfl
  · split_ifs <;> rfl

theorem lookNear_frame (h : Hw) (far : Option Nat) (line : Nat) : (lookNear h far line).2 = { h with
    regs := (lookNear h far line).2.regs, freeRegs := (lookNear h far line).2.freeRegs,
    caches := (lookNear h far line).2.caches } := by
  cases far with
  | none => rfl
  | some b => exact lookLine_frame h b line

/-- A read of a sound codeword answers its bytes, whichever caches hold them. -/
theorem lineRead_of_sound (sound : SoundCw h (cwOf s y)) (far : Option Nat) (pa : Nat) :
    (lineRead h far pa s y n).1 = h.mem.readN .hbm (hbmKey s y) n ∧ (lineRead h far pa s y n).2.1 = false := by
  rw [lineRead_eq]
  extract_lets far near home may atHome copy r
  have near_mem : near.2.mem = h.mem := by rw [lookNear_frame]
  have home_mem : home.2.mem = h.mem := by rw [lookLine_frame, near_mem]
  have home_sound : SoundCw home.2 (cwOf s y) := by
    have near_sound : SoundCw near.2 (cwOf s y) := by rw [lookNear_frame]; exact sound
    rw [lookLine_frame]
    exact near_sound
  have r_reads : r.1 = h.mem.readN .hbm (hbmKey s y) n ∧ r.2.1 = false := by
    rw [← home_mem]
    simp only [r, readHome]
    split_ifs
    · exact ⟨rfl, rfl⟩
    all_goals exact stackRead_of_sound home_sound _
  split_ifs with pawn hit bad
  · exact stackRead_of_sound sound n
  · exact ⟨by rw [near_mem], rfl⟩
  · exact r_reads
  · exact ⟨r_reads.1, rfl⟩

/-! The write of a sound codeword -/

/-- What the write of a codeword leaves: its bytes in memory, the codeword sound, registers and held ranges as they
were. -/
structure CwStored (h : Hw) (s y : Nat) (bs : List Byte) (h' : Hw) : Prop where
  mem : h'.mem = h.mem.write .hbm (hbmKey s y) bs
  sound : SoundCw h' (cwOf s y)
  regs : h'.regs = h.regs
  freeRegs : h'.freeRegs = h.freeRegs
  holds : h'.holds = h.holds

theorem injectErrs_of_unarmed (idle : regBit h (regOf (.stack s) 0x30) 31 = false) : injectErrs h s = ([], h) :=
  if_neg (by simpa [regBit] using idle)

theorem isPoison_setPoison_false (h : Hw) (cw x : Nat) :
    isPoison (setPoison h cw false) x = (isPoison h x && decide (x ≠ cw)) := by
  rw [Bool.eq_iff_iff]
  simp [isPoison, setPoison]

theorem cwErrs_setCwErrs (h : Hw) (cw x : Nat) (e : List (Nat × Byte)) :
    cwErrs (setCwErrs h cw e) x = if x = cw then e else cwErrs h x := by
  simp [cwErrs, setCwErrs, smGet_smSet]

theorem writeCw_stored {bs : List Byte} (sound : SoundCw h (cwOf s y))
    (idle : regBit h (regOf (.stack s) 0x30) 31 = false) : CwStored h s y bs (writeCw h s y bs) := by
  have unarmed : injectErrs (setPoison h (cwOf s y) false) s = ([], setPoison h (cwOf s y) false) :=
    injectErrs_of_unarmed idle
  have checked : (if decide (bs.length = 64) = true then (false, h) else checkCw h s y) = (false, h) := by
    rw [checkCw_of_sound sound, ite_self]
  simp only [writeCw, checked, unarmed, Bool.false_eq_true, if_false]
  refine ⟨rfl, ⟨?_, ?_⟩, rfl, rfl, rfl⟩
  · show isPoison (setPoison h (cwOf s y) false) (cwOf s y) = false
    simp [isPoison_setPoison_false]
  · show cwErrs (setCwErrs (setPoison h (cwOf s y) false) (cwOf s y) []) (cwOf s y) = []
    simp [cwErrs_setCwErrs]

theorem lineWrite_stored {bs : List Byte} (sound : SoundCw h (cwOf s y))
    (idle : regBit h (regOf (.stack s) 0x30) 31 = false) (pa : Nat) :
    CwStored h s y bs (lineWrite h pa s y bs) := by
  obtain ⟨mem, kept, regs, freeRegs, holds⟩ := writeCw_stored (bs := bs) sound idle
  have counted : CwStored h s y bs (countStack (writeCw h s y bs) s 0 bs.length) :=
    ⟨mem, kept, regs, freeRegs, holds⟩
  unfold lineWrite
  extract_lets line m g g'
  have same : g' = g := if_neg fun e => by simp [g, counted.sound.1] at e
  rw [same]
  split_ifs
  · exact ⟨mem, kept, regs, freeRegs, holds⟩
  · exact counted

/-! Physical accesses -/

theorem touchStack_frame (h : Hw) (who : Who) (k : Nat) :
    touchStack h who k = { h with slots := (touchStack h who k).slots } := by
  unfold touchStack modCmd
  split
  · rfl
  · split <;> rfl

section
variable (regs : h'.regs = h.regs) (freeRegs : h'.freeRegs = h.freeRegs)
include regs freeRegs

theorem getReg_congr (o : Nat) : getReg h' o = getReg h o := by rw [getReg, getReg, regs, freeRegs]

theorem decodePa_congr (pa : Nat) : decodePa h' pa = decodePa h pa := by
  simp only [decodePa, octetMode, octetEntry, getReg_congr regs freeRegs]

theorem regionSecure_congr (pa : Nat) : regionSecure h' pa = regionSecure h pa := by
  simp only [regionSecure, regionHit, getReg_congr regs freeRegs, regs]

end

theorem heldByOther_congr (holds : h'.holds = h.holds) (who : Who) (key n : Nat) :
    heldByOther h' who key n = heldByOther h who key n := by rw [heldByOther, heldByOther, holds]

section
variable {who : Who} {pa : Nat} {bs : List Byte} (at_ : decodePa h pa = .hbm s y)
include at_

theorem readPaPiece_of_refused (world : who.world = .nonSecure ∧ regionSecure h pa = true) :
    readPaPiece h who pa n = (.refused, logBoard h who 2 pa (s / 8)) := by
  simp only [readPaPiece, at_, if_pos world]

theorem writePaPiece_of_refused (world : who.world = .nonSecure ∧ regionSecure h pa = true) :
    writePaPiece h who pa bs = (.refused, logBoard h who 2 pa (s / 8)) := by
  simp only [writePaPiece, at_, if_pos world]

variable (world : ¬ (who.world = .nonSecure ∧ regionSecure h pa = true))
include world

theorem readPaPiece_of_held (held : heldByOther h who (hbmKey s y) n = true) :
    readPaPiece h who pa n = (.held, h) := by
  simp only [readPaPiece, at_, if_neg world, held, if_true]

theorem writePaPiece_of_held (held : heldByOther h who (hbmKey s y) bs.length = true) :
    writePaPiece h who pa bs = (.held, h) := by
  simp only [writePaPiece, at_, if_neg world, held, if_true]

theorem writePaPiece_of_free (free : heldByOther h who (hbmKey s y) bs.length = false) :
    writePaPiece h who pa bs = (.bytes [] none, lineWrite (touchStack h who s) pa s y bs) := by
  simp only [writePaPiece, at_, if_neg world, free, Bool.false_eq_true, if_false]

theorem readPaPiece_of_sound (free : heldByOther h who (hbmKey s y) n = false) (sound : SoundCw h (cwOf s y)) :
    (readPaPiece h who pa n).1 = .bytes (h.mem.readN .hbm (hbmKey s y) n) none := by
  have touched_mem : (touchStack h who s).mem = h.mem := by rw [touchStack_frame]
  have touched : SoundCw (touchStack h who s) (cwOf s y) := by rw [touchStack_frame]; exact sound
  obtain ⟨read, whole⟩ :=
    lineRead_of_sound (n := n) touched (if who.engine then some who.board else none) pa
  simp only [readPaPiece, at_, if_neg world, free, Bool.false_eq_true, if_false, read, whole, touched_mem]

theorem writePaPiece_stored (free : heldByOther h who (hbmKey s y) bs.length = false) (sound : SoundCw h (cwOf s y))
    (idle : regBit h (regOf (.stack s) 0x30) 31 = false) :
    ∃ h1, writePaPiece h who pa bs = (.bytes [] none, h1) ∧ CwStored h s y bs h1 := by
  refine ⟨_, writePaPiece_of_free at_ world free, ?_⟩
  rw [touchStack_frame]
  obtain ⟨mem, kept, regs, freeRegs, holds⟩ :=
    lineWrite_stored (h := { h with slots := (touchStack h who s).slots }) (bs := bs) sound idle pa
  exact ⟨mem, kept, regs, freeRegs, holds⟩

end

/-- An accessor of the secure world, or one outside the secure regions, is not refused (R390). -/
theorem not_refused {who : Who} {pa : Nat} (reach : who.world = .secure ∨ regionSecure h pa = false) :
    ¬ (who.world = .nonSecure ∧ regionSecure h pa = true) := by
  rintro ⟨ns, secure⟩
  simp [ns, secure] at reach

theorem logBoard_mem (h : Hw) (who : Who) (kind pa board : Nat) : (logBoard h who kind pa board).mem = h.mem :=
  (logErr_frame _).1

/-- Settles O59: a write to a sound codeword leaves it sound and the registers and held ranges as they were, so that the
read meets the same place and finds the bytes. -/
theorem storedBytesReadBack : Obligations.StoredBytesReadBack := by
  intro h who pa bs _
  refine ⟨fun t off at_ => ?_, fun k y at_ => ⟨fun reach free errs poison idle => ?_, fun ns secure => ?_,
    fun reach held => ?_⟩⟩
  · have write : writePaPiece h who pa bs =
        (.bytes [] none, { h with mem := h.mem.write .tile (tileKey t off) bs }) := by simp only [writePaPiece, at_]
    have at' : decodePa { h with mem := h.mem.write .tile (tileKey t off) bs } pa = .tile t off := at_
    exact ⟨_, write, by simp only [readPaPiece, at', readN_write], rfl, fun sp a apart =>
      read_write_other _ _ _ _ _ a apart⟩
  · have world := not_refused reach
    obtain ⟨h1, write, stored⟩ := writePaPiece_stored at_ world free ⟨poison, errs⟩ idle
    have read := readPaPiece_of_sound (h := h1) (who := who) (pa := pa) (n := bs.length)
      (by rw [decodePa_congr stored.regs stored.freeRegs, at_])
      (by rwa [regionSecure_congr stored.regs stored.freeRegs])
      (by rwa [heldByOther_congr stored.holds]) stored.sound
    refine ⟨h1, write, ?_, fun o _ => getReg_congr stored.regs stored.freeRegs o, fun sp a apart => ?_⟩
    · rw [read, stored.mem, readN_write]
    · rw [stored.mem, read_write_other _ _ _ _ _ a apart]
  · have refused : who.world = .nonSecure ∧ regionSecure h pa = true := ⟨ns, secure⟩
    refine ⟨fun n => ?_, ?_⟩
    · rw [readPaPiece_of_refused at_ refused]
      exact ⟨rfl, logBoard_mem ..⟩
    · rw [writePaPiece_of_refused at_ refused]
      exact ⟨rfl, logBoard_mem ..⟩
  · exact ⟨writePaPiece_of_held at_ (not_refused reach) held, readPaPiece_of_held at_ (not_refused reach) held⟩

end Sys2Proof.Machine
end

section
/-! PROOFS. What accepted and refused commits of linked sets do to registers (R474, R475). -/

namespace Sys2Proof.Machine

variable {h : Hw}

/-! Fields of registers -/

/-- A field that was set reads as the low bits of the value. -/
theorem fld_setFld_mod {n : Nat} (w : BitVec n) (hi lo v : Nat) (l : hi < n) :
    fld (setFld w hi lo v) hi lo = v % 2 ^ (hi + 1 - lo) := by
  apply Nat.eq_of_testBit_eq
  intro i
  rw [fld_eq_testBit, getLsbD_setFld, Nat.testBit_mod_two_pow]
  by_cases within : i < hi + 1 - lo
  · have : lo ≤ lo + i ∧ lo + i ≤ hi ∧ lo + i < n := by omega
    simp [within, this]
  · simp [within]

theorem regFld_setRegFld_self (h : Hw) (o : Nat) {hi lo : Nat} (v : Nat) (l : hi < 32) :
    regFld (setRegFld h o hi lo v) o hi lo = v % 2 ^ (hi + 1 - lo) := by
  rw [regFld, setRegFld, getReg_setReg_self, fld_setFld_mod _ _ _ _ l]

theorem regFld_setRegFld_apart (h : Hw) (o : Nat) {hi lo hi' lo' : Nat} (v : Nat) (apart : hi' < lo ∨ hi < lo') :
    regFld (setRegFld h o hi lo v) o hi' lo' = regFld h o hi' lo' := by
  rw [regFld, setRegFld, getReg_setReg_self, fld_setFld_other _ _ _ _ _ _ apart, regFld]

theorem regBit_setRegFld_apart (h : Hw) (o : Nat) {hi lo i : Nat} (v : Nat) (apart : i < lo ∨ hi < i) :
    regBit (setRegFld h o hi lo v) o i = regBit h o i := by
  rw [regBit, setRegFld, getReg_setReg_self, bit_setFld_other _ _ _ _ _ apart, regBit]

/-- Setting a bit is setting a field of one bit. -/
theorem regFld_setRegBit_apart (h : Hw) (o : Nat) {hi lo i : Nat} (b : Bool) (apart : hi < i ∨ i < lo) :
    regFld (setRegBit h o i b) o hi lo = regFld h o hi lo := regFld_setRegFld_apart h o b.toNat apart

/-! At most some registers change -/

theorem OnlyRegsIn.onlyRegs {h h' : Hw} {offs : List Nat} (k : OnlyRegsIn (· ∈ offs) h h') : onlyRegs h h' offs :=
  ⟨k.reg, k.rest⟩

theorem OnlyRegsIn.mono {p q : Nat → Prop} {h h' : Hw} (k : OnlyRegsIn p h h') (le : ∀ o, p o → q o) :
    OnlyRegsIn q h h' := ⟨fun o n => k.reg o fun i => n (le o i), k.rest⟩

/-- A refused commit changes its status register alone. -/
theorem rejectSet_onlyRegsIn {p : Nat → Prop} {off : Nat} (i : p off) (h : Hw) (cause item bits : Nat) :
    OnlyRegsIn p h (rejectSet h off cause item bits) := by
  have caused : OnlyRegsIn p h (setRegFld (setRegBit h off 31 true) off 30 28 cause) :=
    (OnlyRegsIn.setReg i ..).trans (.setReg i ..)
  unfold rejectSet
  split_ifs
  · exact caused
  · exact caused.trans (.setReg i ..)

/-- It shows REJECT, the cause and the item (R475). -/
theorem rejectSet_shows (h : Hw) (off cause item : Nat) {bits : Nat} (l : bits ≤ 28) :
    regBit (rejectSet h off cause item bits) off 31 = true ∧
    regFld (rejectSet h off cause item bits) off 30 28 = cause % 8 ∧
    (bits ≠ 0 → regFld (rejectSet h off cause item bits) off (bits - 1) 0 = item % 2 ^ bits) := by
  have bit_caused : regBit (setRegFld (setRegBit h off 31 true) off 30 28 cause) off 31 = true := by
    rw [regBit_setRegFld_apart _ _ _ (.inr (by decide)), regBit_setRegBit_self _ _ _ (by decide)]
  have fld_caused : regFld (setRegFld (setRegBit h off 31 true) off 30 28 cause) off 30 28 = cause % 8 :=
    regFld_setRegFld_self _ _ _ (by decide)
  simp only [rejectSet]
  split_ifs with none_
  · exact ⟨bit_caused, fld_caused, fun some_ => absurd none_ some_⟩
  · refine ⟨?_, ?_, fun _ => ?_⟩
    · rw [regBit_setRegFld_apart _ _ _ (.inr (by omega)), bit_caused]
    · rw [regFld_setRegFld_apart _ _ _ (.inr (by omega)), fld_caused]
    · rw [regFld_setRegFld_self _ _ _ (by omega)]
      congr 2
      omega

/-! Sets that are taken -/

/-- Registers that no entry of a snapshot names keep their values. -/
theorem applySnap_onlyRegsIn (s : Snapshot) (h : Hw) : OnlyRegsIn (· ∈ s.map Prod.fst) h (applySnap h s) :=
  .foldl (fun _ m _ => .setReg (List.mem_map_of_mem m) _ _) h

theorem getReg_applySnap {s : Snapshot} (nodup : (s.map Prod.fst).Nodup) {e : Nat × Word} (m : e ∈ s) :
    getReg (applySnap h s) e.1 = e.2 := by
  induction s generalizing h with
  | nil => cases m
  | cons d s ih =>
    rw [List.map_cons, List.nodup_cons] at nodup
    rcases List.mem_cons.mp m with rfl | m
    · have kept := (applySnap_onlyRegsIn s (setReg h e.1 e.2)).reg e.1 nodup.1
      exact kept.trans (getReg_setReg_self ..)
    · exact ih nodup.2 m

/-- The staged copies of a set under the offsets of its live copies. -/
def snapOf (h : Hw) (pairs : List (Nat × Nat)) : Snapshot := pairs.map fun p => (p.2, getReg h p.1)

theorem snapOf_fst (h : Hw) (pairs : List (Nat × Nat)) : (snapOf h pairs).map Prod.fst = pairs.map Prod.snd := by
  simp [snapOf]

/-- A snapshot of its staged copies takes a set whole. -/
theorem takesSet_snap {pairs : List (Nat × Nat)} (nodup : (pairs.map Prod.snd).Nodup) :
    takesSet h (applySnap h (snapOf h pairs)) pairs := by
  refine ⟨fun p m => ?_, ?_⟩
  · exact getReg_applySnap (by rwa [snapOf_fst]) (e := (p.2, getReg h p.1)) (List.mem_map_of_mem m)
  · rw [← snapOf_fst h]
    exact (applySnap_onlyRegsIn ..).onlyRegs

/-- The live copies of a set are taken one by one. -/
def takePairs (pairs : List (Nat × Nat)) (h : Hw) : Hw :=
  pairs.foldl (fun h p => setReg h p.2 (getReg h p.1)) h

/-- No register of a set is staged and live. -/
def Apart (pairs : List (Nat × Nat)) : Prop := ∀ p ∈ pairs, ∀ q ∈ pairs, p.1 ≠ q.2

/-- Taken one by one they are taken as a snapshot, since no staged copy is written. -/
theorem takePairs_eq_snap {pairs : List (Nat × Nat)} (apart : Apart pairs) :
    takePairs pairs h = applySnap h (snapOf h pairs) := by
  induction pairs generalizing h with
  | nil => rfl
  | cons p ps ih =>
    have rest := ih (h := setReg h p.2 (getReg h p.1))
      fun q m r n => apart q (List.mem_cons_of_mem _ m) r (List.mem_cons_of_mem _ n)
    have same : snapOf (setReg h p.2 (getReg h p.1)) ps = snapOf h ps :=
      List.map_congr_left fun q m => by
        rw [getReg_setReg_ne _ _ (apart q (List.mem_cons_of_mem _ m) p List.mem_cons_self)]
    exact rest.trans (by rw [same]; rfl)

theorem takesSet_takePairs {pairs : List (Nat × Nat)} (apart : Apart pairs) (nodup : (pairs.map Prod.snd).Nodup) :
    takesSet h (takePairs pairs h) pairs := by
  rw [takePairs_eq_snap apart]
  exact takesSet_snap nodup

/-! Runs of words -/

theorem setPairs_snd (stg live words : Nat) :
    (setPairs stg live words).map Prod.snd = (List.range words).map fun i => live + 4 * i := by
  simp [setPairs]

theorem setPairs_nodup (stg live words : Nat) : ((setPairs stg live words).map Prod.snd).Nodup := by
  rw [setPairs_snd]
  exact List.nodup_range.map fun i j e => by simpa using e

theorem takesSet_copyRegs {stg live words : Nat} (apart : stg + 4 * words ≤ live) :
    takesSet h (copyRegs h stg live words) (setPairs stg live words) := by
  have copied : copyRegs h stg live words = takePairs (setPairs stg live words) h := by
    simp [copyRegs, takePairs, setPairs, List.foldl_map]
  rw [copied]
  refine takesSet_takePairs (fun p m q n => ?_) (setPairs_nodup ..)
  obtain ⟨i, li, rfl⟩ := List.mem_map.mp m
  obtain ⟨j, -, rfl⟩ := List.mem_map.mp n
  have := List.mem_range.mp li
  show stg + 4 * i ≠ live + 4 * j
  omega

theorem takesSet_snapSet (stg live words : Nat) :
    takesSet h (applySnap h (snapSet h stg live words)) (setPairs stg live words) := by
  have snapped : snapSet h stg live words = snapOf h (setPairs stg live words) := by
    simp [snapSet, snapOf, setPairs]
  rw [snapped]
  exact takesSet_snap (setPairs_nodup ..)

/-! Commits -/

/-- The commit of a linked set is refused as its status register shows. -/
theorem refuses_of_rejectSet {i : Instr} {w : World} {off : Nat} {f : Hw → Hw} {s : State}
    (arm : exec i s = onHw (ifAnswers w off i f) s) (a : acts s.hw w off = true) {causes : List (Nat × Nat)}
    {status bits : Nat} (l : bits ≤ 28) {item : Nat × Nat → Nat} (shown : bits ≠ 0 → item = Prod.snd)
    (reject : ∀ x, firstCause causes = some x → f s.hw = rejectSet s.hw status x.1 (item x) bits) :
    refuses i s s.hw causes status bits := by
  intro x cause
  obtain ⟨bit_, cause_, item_⟩ := rejectSet_shows s.hw status x.1 (item x) l
  refine ⟨_, effect_of_acts arm a, ?_⟩
  rw [reject x cause]
  refine ⟨bit_, cause_, fun some_ => ?_, (rejectSet_onlyRegsIn List.mem_cons_self ..).onlyRegs⟩
  rw [item_ some_, shown some_]

/-- The commit of a linked set takes it whole or refuses it whole. -/
theorem commits_whole {i : Instr} {w : World} {off : Nat} {f : Hw → Hw} {s : State}
    (arm : exec i s = onHw (ifAnswers w off i f) s) (a : acts s.hw w off = true) {causes pairs : List (Nat × Nat)}
    {status bits : Nat} (l : bits ≤ 28) {item : Nat × Nat → Nat} (shown : bits ≠ 0 → item = Prod.snd)
    (reject : ∀ x, firstCause causes = some x → f s.hw = rejectSet s.hw status x.1 (item x) bits)
    (take : firstCause causes = none → takesSet s.hw (f s.hw) pairs) :
    (firstCause causes = none → ∃ h', effect i s h' ∧ takesSet s.hw h' pairs) ∧
    refuses i s s.hw causes status bits :=
  ⟨fun sound => ⟨_, effect_of_acts arm a, take sound⟩, refuses_of_rejectSet arm a l shown reject⟩

end Sys2Proof.Machine
end

section
/-! PROOFS. The commits of the linked sets (R173, R174, R251, R349, R367, R377, R379, R445, R446, R467): O33. -/

namespace Sys2Proof.Machine

variable {h : Hw} {x : Nat × Nat}

/-! A translation regime (R367) -/

theorem xlateCommitHw_of_cause {r : Nat} (c : firstCause (xlateCauses h r) = some x) :
    xlateCommitHw r h = rejectSet h (regOf (.regime r) 0x44) x.1 0 0 := by rw [xlateCommitHw, c]

/-- Dropping every page of a regime leaves its entries above the addresses alone. -/
theorem dropXlate_entries {r : Nat} {e : Nat × XCache} (m : e ∈ (dropXlate h r 0 (2 ^ 48)).xlate.caches)
    {y : LeafEntry} (my : y ∈ e.2.entries) (own : y.regime = r) : 2 ^ 48 ≤ y.page * 2 ^ levelShift y.level := by
  obtain ⟨⟨d, -, rfl⟩, -⟩ := (List.mem_filter.mp m).imp_left List.mem_map.mp
  have kept := (List.mem_filter.mp my).2
  have upper : 0 < (y.page + 1) * 2 ^ levelShift y.level := by positivity
  simpa [own, upper] using kept

@[simp] theorem getReg_dropXlate (r va n o : Nat) : getReg (dropXlate h r va n) o = getReg h o := rfl

/-- What an accepted commit does after its copy: the caches of the regime empty and its ENABLE shows. -/
def closeXlateCommit (r : Nat) (h : Hw) : Hw :=
  setRegBit (dropXlate h r 0 (2 ^ 48)) 0x300000 r (regimeEnabled (dropXlate h r 0 (2 ^ 48)) r)

theorem getReg_closeXlateCommit {r o : Nat} (ne : o ≠ 0x300000) : getReg (closeXlateCommit r h) o = getReg h o := by
  rw [closeXlateCommit, setRegBit, getReg_setReg_ne _ _ ne, getReg_dropXlate]

theorem regBit_closeXlateCommit {r : Nat} (l : r < 32) :
    regBit (closeXlateCommit r h) 0x300000 r = regimeEnabled (closeXlateCommit r h) r := by
  have live : xLive r 0x10 ≠ 0x300000 := by simp only [xLive, regOf, baseOf]; omega
  have enabled : regimeEnabled (closeXlateCommit r h) r = regimeEnabled (dropXlate h r 0 (2 ^ 48)) r := by
    rw [regimeEnabled, regimeEnabled, regBit, getReg_closeXlateCommit live, regBit, getReg_dropXlate]
  rw [enabled, closeXlateCommit, regBit_setRegBit_self _ _ _ l]

theorem closeXlateCommit_frame (r : Nat) (h : Hw) : closeXlateCommit r h = { h with
    regs := (closeXlateCommit r h).regs, freeRegs := (closeXlateCommit r h).freeRegs,
    xlate := (closeXlateCommit r h).xlate } := rfl

theorem xlateCommitHw_of_sound {r : Nat} (sound : firstCause (xlateCauses h r) = none) :
    xlateCommitHw r h = closeXlateCommit r (copyRegs h (regOf (.regime r) 0) (regOf (.regime r) 0x20) 8) := by
  rw [xlateCommitHw, sound]
  rfl

theorem setPairs_live_ne {stg live words : Nat} {o : Nat} (ne : ∀ i < words, live + 4 * i ≠ o) {p : Nat × Nat}
    (m : p ∈ setPairs stg live words) : p.2 ≠ o := by
  obtain ⟨i, l, rfl⟩ := List.mem_map.mp m
  exact ne i (List.mem_range.mp l)

theorem xlateCommits {s : State} {w : World} {r : RegimeId}
    (a : acts s.hw w (regOf (.regime r.val) 0x40) = true) :
    let pairs := setPairs (regOf (.regime r.val) 0) (regOf (.regime r.val) 0x20) 8
    (firstCause (xlateCauses s.hw r.val) = none → ∃ h', effect (.xlateCommit w r) s h' ∧
      (∀ p ∈ pairs, getReg h' p.2 = getReg s.hw p.1) ∧ regsKept s.hw h' (0x300000 :: pairs.map Prod.snd) ∧
      regBit h' 0x300000 r.val = regimeEnabled h' r.val ∧
      h' = { s.hw with regs := h'.regs, freeRegs := h'.freeRegs, xlate := h'.xlate } ∧
      (∀ e ∈ h'.xlate.caches, ∀ x ∈ e.2.entries, x.regime = r.val →
        2 ^ 48 ≤ x.page * 2 ^ levelShift x.level)) ∧
    refuses (.xlateCommit w r) s s.hw (xlateCauses s.hw r.val) (regOf (.regime r.val) 0x44) 0 := by
  intro pairs
  refine ⟨fun sound => ⟨_, effect_of_acts rfl a, ?_⟩, refuses_of_rejectSet rfl a (by decide) (item := fun _ => 0)
    (fun n => absurd rfl n) fun _ => xlateCommitHw_of_cause⟩
  rw [xlateCommitHw_of_sound sound]
  obtain ⟨taken, kept, rest⟩ :
      takesSet s.hw (copyRegs s.hw (regOf (.regime r.val) 0) (regOf (.regime r.val) 0x20) 8) pairs :=
    takesSet_copyRegs (by simp only [regOf]; omega)
  generalize copyRegs s.hw (regOf (.regime r.val) 0) (regOf (.regime r.val) 0x20) 8 = c at taken kept rest
  refine ⟨fun p m => ?_, fun o n => ?_, regBit_closeXlateCommit (by omega), ?_,
    fun e m y my own => dropXlate_entries m my own⟩
  · have live : p.2 ≠ 0x300000 := setPairs_live_ne (fun i _ => by simp only [regOf, baseOf]; omega) m
    rw [getReg_closeXlateCommit live, taken p m]
  · rw [List.mem_cons, not_or] at n
    rw [getReg_closeXlateCommit n.1, kept o n.2]
  · rw [closeXlateCommit_frame, rest]

/-! The error block (R467) -/

theorem errCommitHw_of_cause (c : firstCause (errCauses h) = some x) :
    errCommitHw h = rejectSet h (regOf .err 0xC4) x.1 0 0 := by rw [errCommitHw, c]

/-- What an accepted commit does after its copy: the mirror ring is empty and runs again. -/
def closeErrCommit (h : Hw) : Hw :=
  { setReg (setReg h (regOf .err 0xC8) 0) (regOf .err 0xCC) 0 with
    errs := { h.errs with mirrorStopped := false } }

theorem getReg_closeErrCommit (o : Nat) : getReg (closeErrCommit h) o =
    if o = regOf .err 0xCC then 0 else if o = regOf .err 0xC8 then 0 else getReg h o := by
  have regs : getReg (closeErrCommit h) o = getReg (setReg (setReg h (regOf .err 0xC8) 0) (regOf .err 0xCC) 0) o := rfl
  rw [regs, getReg_setReg, getReg_setReg]

theorem closeErrCommit_frame (h : Hw) : closeErrCommit h = { h with
    regs := (closeErrCommit h).regs, freeRegs := (closeErrCommit h).freeRegs,
    errs := { h.errs with mirrorStopped := false } } := rfl

theorem errCommitHw_of_sound (sound : firstCause (errCauses h) = none) :
    errCommitHw h = closeErrCommit (copyRegs h (regOf .err 0x80) (regOf .err 0xA0) 4) := by
  rw [errCommitHw, sound]
  rfl

theorem errCommits {s : State} {w : World} (a : acts s.hw w (regOf .err 0xC0) = true) :
    let pairs := setPairs (regOf .err 0x80) (regOf .err 0xA0) 4
    (firstCause (errCauses s.hw) = none → ∃ h', effect (.errCommit w) s h' ∧
      (∀ p ∈ pairs, getReg h' p.2 = getReg s.hw p.1) ∧
      regsKept s.hw h' (regOf .err 0xC8 :: regOf .err 0xCC :: pairs.map Prod.snd) ∧
      getReg h' (regOf .err 0xC8) = 0 ∧ getReg h' (regOf .err 0xCC) = 0 ∧ h'.errs.mirrorStopped = false ∧
      h' = { s.hw with regs := h'.regs, freeRegs := h'.freeRegs,
                       errs := { s.hw.errs with mirrorStopped := false } }) ∧
    refuses (.errCommit w) s s.hw (errCauses s.hw) (regOf .err 0xC4) 0 := by
  intro pairs
  refine ⟨fun sound => ⟨_, effect_of_acts rfl a, ?_⟩, refuses_of_rejectSet rfl a (by decide) (item := fun _ => 0)
    (fun n => absurd rfl n) fun _ => errCommitHw_of_cause⟩
  rw [errCommitHw_of_sound sound]
  obtain ⟨taken, kept, rest⟩ : takesSet s.hw (copyRegs s.hw (regOf .err 0x80) (regOf .err 0xA0) 4) pairs :=
    takesSet_copyRegs (by decide)
  generalize copyRegs s.hw (regOf .err 0x80) (regOf .err 0xA0) 4 = c at taken kept rest
  refine ⟨fun p m => ?_, fun o n => ?_, ?_, ?_, rfl, ?_⟩
  · have cons : p.2 ≠ regOf .err 0xCC := setPairs_live_ne (fun i _ => by simp only [regOf]; omega) m
    have prod : p.2 ≠ regOf .err 0xC8 := setPairs_live_ne (fun i _ => by simp only [regOf]; omega) m
    rw [getReg_closeErrCommit, if_neg cons, if_neg prod, taken p m]
  · simp only [List.mem_cons, not_or] at n
    rw [getReg_closeErrCommit, if_neg n.2.1, if_neg n.1, kept o n.2.2]
  · rw [getReg_closeErrCommit, if_neg (by decide), if_pos rfl]
  · rw [getReg_closeErrCommit, if_pos rfl]
  · rw [closeErrCommit_frame, rest]

/-! The calibration registers (R444, R445) -/

def calPairs : List (Nat × Nat) := calRegs.map fun p => (rPwr p.1, rPwr p.2)

theorem calRegs_low : ∀ p ∈ calRegs, p.1 < 0x600 ∧ 0x600 ≤ p.2 := by decide +kernel

theorem calPairs_apart : Apart calPairs := by
  intro p m q n
  obtain ⟨c, mc, rfl⟩ := List.mem_map.mp m
  obtain ⟨d, md, rfl⟩ := List.mem_map.mp n
  have := (calRegs_low c mc).1
  have := (calRegs_low d md).2
  show rPwr c.1 ≠ rPwr d.2
  simp only [rPwr, regOf]
  omega

theorem calRegs_nodup : (calRegs.map Prod.snd).Nodup := by decide +kernel

theorem calPairs_nodup : (calPairs.map Prod.snd).Nodup := by
  have live : calPairs.map Prod.snd = (calRegs.map Prod.snd).map rPwr := by simp [calPairs]
  rw [live]
  exact calRegs_nodup.map fun a b e => by simpa [rPwr, regOf] using e

/-- A voltage field above its bound. -/
def calBad (h : Hw) : Bool := (List.range 12).any fun d => 10 < regFld h (rPwr (0x200 + 4 * d)) 3 0

theorem calBad_iff : calBad h = true ↔ ∃ d < 12, 10 < regFld h (rPwr (0x200 + 4 * d)) 3 0 := by
  simp [calBad]

theorem calCommitHw_of_sound (sound : calBad h = false) : calCommitHw h = takePairs calPairs h := by
  have taken : takePairs calPairs h = calRegs.foldl (fun h r => setReg h (rPwr r.2) (getReg h (rPwr r.1))) h := by
    rw [takePairs, calPairs, List.foldl_map]
  rw [taken]
  exact if_neg (by rw [← calBad, sound]; decide)

theorem calCommits {s : State} {w : World} (a : acts s.hw w (rPwr 0x900) = true) :
    ((∀ d < 12, regFld s.hw (rPwr (0x200 + 4 * d)) 3 0 ≤ 10) → ∃ h', effect (.calCommit w) s h' ∧
      takesSet s.hw h' (calRegs.map fun p => (rPwr p.1, rPwr p.2))) ∧
    ((∃ d < 12, 10 < regFld s.hw (rPwr (0x200 + 4 * d)) 3 0) → ∃ h', effect (.calCommit w) s h' ∧
      regBit h' rCalStatus 31 = true ∧ regFld h' rCalStatus 30 0 = regFld s.hw rCalStatus 30 0 ∧
      onlyRegs s.hw h' [rCalStatus]) := by
  refine ⟨fun low => ⟨_, effect_of_acts rfl a, ?_⟩, fun high => ⟨_, effect_of_acts rfl a, ?_⟩⟩
  · have sound : calBad s.hw = false := by
      rw [← Bool.not_eq_true, calBad_iff]
      rintro ⟨d, ld, above⟩
      have := low d ld
      omega
    rw [calCommitHw_of_sound sound]
    exact takesSet_takePairs calPairs_apart calPairs_nodup
  · have refused : calCommitHw s.hw = setRegBit s.hw rCalStatus 31 true := if_pos (calBad_iff.mpr high)
    rw [refused]
    exact ⟨regBit_setRegBit_self _ _ _ (by decide), regFld_setRegBit_apart _ _ _ (.inl (by decide)),
      onlyRegs_setRegBit ..⟩

/-! The memory map (R173, R174) -/

theorem mmLive_inj {n m : Nat} (ln : n < 288) (lm : m < 288) : mmLive n = mmLive m ↔ n = m := by
  simp only [mmLive, regOf, baseOf]
  omega

theorem mmStg_ne_mmLive {n m : Nat} (ln : n < 288) (lm : m < 288) : mmStg n ≠ mmLive m := by
  simp only [mmStg, mmLive, regOf, baseOf]
  omega

/-- Marking the pieces of an octet undefined changes memory and the draws alone, and memory in HBM alone. -/
theorem freeOctet_frame (h : Hw) (n : Nat) :
    freeOctet h n = { h with mem := (freeOctet h n).mem, draws := (freeOctet h n).draws } ∧
    ∀ tp, tp ≠ .hbm → ∀ a, (freeOctet h n).mem.read tp a = h.mem.read tp a := by
  unfold freeOctet
  extract_lets g
  have g_frame : g = { h with mem := g.mem } ∧ ∀ tp, tp ≠ .hbm → ∀ a, g.mem.read tp a = h.mem.read tp a := by
    refine List.foldlRecOn _ _ (motive := fun x : Hw => x = { h with mem := x.mem } ∧ ∀ tp, tp ≠ .hbm → ∀ a,
      x.mem.read tp a = h.mem.read tp a) ⟨rfl, fun _ _ _ => rfl⟩ fun x ⟨frame, kept⟩ j _ => ⟨?_, fun tp ne a => ?_⟩
    · rw [frame]
    · exact (read_makeFree_ne _ ne ..).trans (kept tp ne a)
  exact ⟨by rw [g_frame.1], g_frame.2⟩

/-- What an entry's change does to the contents of its octet (R174). -/
def octetFreed (h : Hw) (n : Nat) : Hw :=
  if fld (getReg h (mmStg n)) 2 0 ≠ fld (getReg h (mmLive n)) 2 0 then freeOctet h n else h

theorem octetFreed_frame (h : Hw) (n : Nat) :
    octetFreed h n = { h with mem := (octetFreed h n).mem, draws := (octetFreed h n).draws } := by
  unfold octetFreed
  split_ifs
  · exact (freeOctet_frame h n).1
  · rfl

theorem read_octetFreed_ne {tp : Space} (ne : tp ≠ .hbm) (h : Hw) (n a : Nat) :
    (octetFreed h n).mem.read tp a = h.mem.read tp a := by
  unfold octetFreed
  split_ifs
  · exact (freeOctet_frame h n).2 tp ne a
  · rfl

/-- An accepted commit takes the entry of one octet. -/
def takeOctet (h : Hw) (n : Nat) : Hw :=
  if getReg h (mmStg n) = getReg h (mmLive n) then h else setReg (octetFreed h n) (mmLive n) (getReg h (mmStg n))

theorem getReg_takeOctet (h : Hw) (n o : Nat) :
    getReg (takeOctet h n) o = if o = mmLive n then getReg h (mmStg n) else getReg h o := by
  unfold takeOctet
  by_cases same : getReg h (mmStg n) = getReg h (mmLive n)
  · rw [if_pos same, same]
    split_ifs with at_
    · rw [at_]
    · rfl
  · rw [if_neg same, getReg_setReg, octetFreed_frame]
    rfl

theorem slots_takeOctet (h : Hw) (n : Nat) : (takeOctet h n).slots = h.slots := by
  unfold takeOctet
  split_ifs
  · rfl
  · rw [setReg_slots, octetFreed_frame]

theorem read_takeOctet_ne {tp : Space} (ne : tp ≠ .hbm) (h : Hw) (n a : Nat) :
    (takeOctet h n).mem.read tp a = h.mem.read tp a := by
  unfold takeOctet
  split_ifs
  · rfl
  · exact read_octetFreed_ne ne h n a

/-- An octet whose MODE and PAWN stay keeps its contents (R174). -/
theorem mem_takeOctet {n : Nat} (same : fld (getReg h (mmStg n)) 2 0 = fld (getReg h (mmLive n)) 2 0) :
    (takeOctet h n).mem = h.mem := by
  unfold takeOctet octetFreed
  rw [if_neg (not_not.mpr same)]
  split_ifs <;> rfl

/-- The entries of the first k octets. -/
def takeOctets (k : Nat) (h : Hw) : Hw := (List.range k).foldl takeOctet h

theorem takeOctets_succ (k : Nat) (h : Hw) : takeOctets (k + 1) h = takeOctet (takeOctets k h) k := by
  simp [takeOctets, List.range_succ]

theorem getReg_takeOctets_ne {k o : Nat} (ne : ∀ n < k, o ≠ mmLive n) : getReg (takeOctets k h) o = getReg h o := by
  induction k with
  | zero => rfl
  | succ k ih =>
    rw [takeOctets_succ, getReg_takeOctet, if_neg (ne k (by omega)), ih fun n l => ne n (by omega)]

theorem getReg_takeOctets_stg {k n : Nat} (lk : k ≤ 288) (ln : n < 288) :
    getReg (takeOctets k h) (mmStg n) = getReg h (mmStg n) :=
  getReg_takeOctets_ne fun _ lm => mmStg_ne_mmLive ln (by omega)

theorem getReg_takeOctets_live {k n : Nat} (lk : k ≤ 288) (ln : n < k) :
    getReg (takeOctets k h) (mmLive n) = getReg h (mmStg n) := by
  induction k with
  | zero => omega
  | succ k ih =>
    rw [takeOctets_succ, getReg_takeOctet]
    by_cases e : n = k
    · rw [e, if_pos rfl, getReg_takeOctets_stg (by omega) (by omega)]
    · rw [if_neg fun x => e ((mmLive_inj (by omega) (by omega)).mp x), ih (by omega) (by omega)]

theorem slots_takeOctets (k : Nat) (h : Hw) : (takeOctets k h).slots = h.slots :=
  List.foldlRecOn _ takeOctet (motive := fun g => g.slots = h.slots) rfl fun g e n _ => (slots_takeOctet g n).trans e

theorem read_takeOctets_ne {tp : Space} (ne : tp ≠ .hbm) (k : Nat) (h : Hw) (a : Nat) :
    (takeOctets k h).mem.read tp a = h.mem.read tp a :=
  List.foldlRecOn _ takeOctet (motive := fun g => g.mem.read tp a = h.mem.read tp a) rfl
    fun g e n _ => (read_takeOctet_ne ne g n a).trans e

theorem mem_takeOctets {k : Nat} (lk : k ≤ 288)
    (same : ∀ n < 288, fld (getReg h (mmStg n)) 2 0 = fld (getReg h (mmLive n)) 2 0) :
    (takeOctets k h).mem = h.mem := by
  induction k with
  | zero => rfl
  | succ k ih =>
    have live : getReg (takeOctets k h) (mmLive k) = getReg h (mmLive k) :=
      getReg_takeOctets_ne fun n ln e => by have := (mmLive_inj (by omega) (by omega)).mp e; omega
    rw [takeOctets_succ, mem_takeOctet, ih (by omega)]
    rw [getReg_takeOctets_stg (by omega) (by omega), live, same k (by omega)]

/-- The lines of the octets whose entries change leave every cache. -/
def dropOctets (h : Hw) : Hw :=
  dropLines h fun _ l => decide (getReg h (mmStg (l / 2 ^ 27)) ≠ getReg h (mmLive (l / 2 ^ 27)))

theorem memmapCommitHw_of_sound {w : World} (sound : firstCause (memmapCauses h w) = none) :
    memmapCommitHw w h = takeOctets 288 (dropOctets h) := by
  rw [memmapCommitHw, sound]
  rfl

/-- The status of a refused commit in one board. -/
def rejectBoard (x : Nat × Nat) (h : Hw) (b : Nat) : Hw :=
  setRegFld (rejectSet h (regOf (.board b) 0x104) x.1 0 0) (regOf (.board b) 0x104) 24 16 x.2

theorem memmapCommitHw_of_cause {w : World} (c : firstCause (memmapCauses h w) = some x) :
    memmapCommitHw w h = (List.range 3).foldl (rejectBoard x) h := by
  rw [memmapCommitHw, c]
  rfl

theorem rejectBoard_shows (h : Hw) (x : Nat × Nat) (b : Nat) :
    let st := regOf (.board b) 0x104
    regBit (rejectBoard x h b) st 31 = true ∧ regFld (rejectBoard x h b) st 30 28 = x.1 % 8 ∧
    regFld (rejectBoard x h b) st 24 16 = x.2 % 512 := by
  obtain ⟨bit_, cause_, -⟩ := rejectSet_shows h (regOf (.board b) 0x104) x.1 0 (bits := 0) (by decide)
  refine ⟨?_, ?_, regFld_setRegFld_self _ _ _ (by decide)⟩
  · rw [rejectBoard, regBit_setRegFld_apart _ _ _ (.inr (by decide)), bit_]
  · rw [rejectBoard, regFld_setRegFld_apart _ _ _ (.inr (by decide)), cause_]

theorem rejectBoard_onlyRegsIn {p : Nat → Prop} (h : Hw) (x : Nat × Nat) {b : Nat} (i : p (regOf (.board b) 0x104)) :
    OnlyRegsIn p h (rejectBoard x h b) := (rejectSet_onlyRegsIn i ..).trans (.setReg i ..)

theorem rejectBoards_shows (h : Hw) (x : Nat × Nat) {k b : Nat} (l : b < k) :
    getReg ((List.range k).foldl (rejectBoard x) h) (regOf (.board b) 0x104) =
      getReg (rejectBoard x ((List.range b).foldl (rejectBoard x) h) b) (regOf (.board b) 0x104) := by
  induction k with
  | zero => omega
  | succ k ih =>
    rw [List.range_succ, List.foldl_append, List.foldl_cons, List.foldl_nil]
    by_cases e : b = k
    · rw [e]
    · have other : regOf (.board b) 0x104 ≠ regOf (.board k) 0x104 := by simp only [regOf, baseOf]; omega
      rw [(rejectBoard_onlyRegsIn (p := (· = regOf (.board k) 0x104)) _ x rfl).reg _ other, ih (by omega)]

theorem memmapCommits {s : State} {w : World} {b : BoardId} (a : acts s.hw w (regOf (.board b.val) 0x100) = true) :
    (firstCause (memmapCauses s.hw w) = none → ∃ h', effect (.memmapCommit w b) s h' ∧
      (∀ n < 288, getReg h' (mmLive n) = getReg s.hw (mmStg n)) ∧
      regsKept s.hw h' ((List.range 288).map mmLive) ∧
      (∀ sp a, sp ≠ .hbm → h'.mem.read sp a = s.hw.mem.read sp a) ∧
      ((∀ n < 288, fld (getReg s.hw (mmStg n)) 2 0 = fld (getReg s.hw (mmLive n)) 2 0) → h'.mem = s.hw.mem) ∧
      h'.slots = s.hw.slots) ∧
    (∀ x, firstCause (memmapCauses s.hw w) = some x → ∃ h', effect (.memmapCommit w b) s h' ∧
      (∀ k < 3, regBit h' (regOf (.board k) 0x104) 31 = true ∧ regFld h' (regOf (.board k) 0x104) 30 28 = x.1 % 8 ∧
        regFld h' (regOf (.board k) 0x104) 24 16 = x.2 % 512) ∧
      onlyRegs s.hw h' ((List.range 3).map fun k => regOf (.board k) 0x104)) := by
  refine ⟨fun sound => ⟨_, effect_of_acts rfl a, ?_⟩, fun x cause => ⟨_, effect_of_acts rfl a, ?_⟩⟩
  · rw [memmapCommitHw_of_sound sound]
    refine ⟨fun n l => getReg_takeOctets_live (by decide) l, fun o n => getReg_takeOctets_ne fun m l e => ?_,
      fun sp a ne => read_takeOctets_ne ne .., fun same => mem_takeOctets (h := dropOctets s.hw) (by decide) same,
      slots_takeOctets ..⟩
    exact n (List.mem_map.mpr ⟨m, List.mem_range.mpr l, e.symm⟩)
  · rw [memmapCommitHw_of_cause cause]
    refine ⟨fun k l => ?_, OnlyRegsIn.onlyRegs (.foldl (fun k m g => rejectBoard_onlyRegsIn g x ?_) _)⟩
    · simp only [regBit, regFld, rejectBoards_shows s.hw x l]
      exact rejectBoard_shows ..
    · exact List.mem_map_of_mem m

/-! All of them -/

/-- Settles O33: each set as a run of words with its staged copies apart from its live ones. -/
theorem linkedSetsCommitWhole : Obligations.LinkedSetsCommitWhole := by
  refine ⟨fun w s => ⟨fun a => ?_, fun a => ?_, fun a => ?_, fun a => ?_, fun r a => xlateCommits a,
    fun a => errCommits a, fun a => calCommits a⟩, fun w b s a => memmapCommits a⟩
  · exact commits_whole rfl a (by decide) (item := fun _ => 0) (fun n => absurd rfl n)
      (fun x c => by rw [windowCommitHw, c])
      (fun c => by rw [windowCommitHw, c]; exact takesSet_copyRegs (by decide))
  · exact commits_whole rfl a (by decide) (item := Prod.snd) (fun _ => rfl)
      (fun x c => by rw [peerCommitHw, c])
      (fun c => by rw [peerCommitHw, c]; exact takesSet_copyRegs (by decide))
  · exact commits_whole rfl a (by decide) (item := Prod.snd) (fun _ => rfl)
      (fun x c => by rw [lendCommitHw, c])
      (fun c => by rw [lendCommitHw, c]; exact takesSet_copyRegs (by decide))
  · exact commits_whole rfl a (by decide) (item := fun _ => 0) (fun n => absurd rfl n)
      (fun x c => by rw [noteCommitHw, c])
      (fun c => by rw [noteCommitHw, c]; exact takesSet_snapSet ..)

end Sys2Proof.Machine
end

section
/-! PROOFS. Refresh, scrub, write-back, error injection and the caches' end (R168, R179, R181, R182, R184, R192). -/

namespace Sys2Proof.Machine

variable {h : Hw} {k : Nat}

/-! Refresh and its count window -/

/-- What a refresh makes of REFRESH_COUNT (Table 7-7): pseudo-channel 0 counts. -/
theorem refreshHw_of_ready (r : stackReady h k = true) (pc : Nat) (temp : Int) :
    refreshHw k pc temp h = setRegBit
      (if pc = 0 then setRegFld h (regOf (.stack k) 0xC) 19 0 ((regFld h (regOf (.stack k) 0xC) 19 0 + 1) % 2 ^ 20)
        else h) (regOf (.stack k) 0xC) 20 (decide (85 < temp)) := if_pos r

theorem refresh_effect {s : State} {k : StackId} (r : stackReady s.hw k.val = true) (pc : Fin 32) (temp : Int) :
    let rc := regOf (.stack k.val) 0xC
    ∃ h', effect (.refresh k pc temp) s h' ∧ regBit h' rc 20 = decide (85 < temp) ∧ onlyRegs s.hw h' [rc] ∧
      regFld h' rc 19 0 = (if pc = 0 then (regFld s.hw rc 19 0 + 1) % 2 ^ 20 else regFld s.hw rc 19 0) := by
  intro rc
  refine ⟨_, effect_of_onHw rfl, ?_⟩
  rw [refreshHw_of_ready r]
  have zero : (pc.val = 0) = (pc = 0) := propext (Fin.ext_iff (a := pc) (b := 0)).symm
  simp only [zero]
  refine ⟨regBit_setRegBit_self _ _ _ (by decide), OnlyRegsIn.onlyRegs ?_, ?_⟩
  · split_ifs
    · exact (OnlyRegsIn.setReg List.mem_cons_self ..).trans (.setReg List.mem_cons_self ..)
    · exact .setReg List.mem_cons_self ..
  · rw [regFld_setRegBit_apart _ _ _ (.inl (by decide))]
    split_ifs
    · rw [regFld_setRegFld_self _ _ _ (by decide)]
      exact Nat.mod_mod_of_dvd _ (dvd_refl _)
    · rfl

theorem windowEnd_effect {s : State} {k : StackId} (end_ : regFld s.hw (regOf (.stack k.val) 0xC) 19 0 = 0) :
    ∃ h', effect (.refreshCountWindow k) s h' ∧ (∀ e ∈ (stackAux h' k.val).tracker, e.2 = 0) ∧
      (stackAux h' k.val).tracker.map Prod.fst = (stackAux s.hw k.val).tracker.map Prod.fst ∧
      h' = { s.hw with stackAux := h'.stackAux } := by
  refine ⟨_, effect_of_onHw rfl, ?_⟩
  rw [windowEndHw, if_pos end_]
  refine ⟨fun e m => ?_, ?_, rfl⟩
  · rw [stackAux_setStackAux_self] at m
    obtain ⟨d, -, rfl⟩ := List.mem_map.mp m
    rfl
  · simp

/-! Scrub -/

theorem scrubNow_effect {s : State} {w : World} {k : StackId} (a : acts s.hw w (regOf (.stack k.val) 8) = true)
    (r : stackReady s.hw k.val = true) :
    ∃ h', effect (.scrubNow w k) s h' ∧ (stackAux h' k.val).scrubAt = 0 ∧ (stackAux h' k.val).scrubNow = true ∧
      regBit h' (regOf (.stack k.val) 4) 2 = true ∧ regsKept s.hw h' [regOf (.stack k.val) 4] ∧
      h'.mem = s.hw.mem := by
  refine ⟨_, effect_of_acts rfl a, ?_⟩
  rw [scrubNowHw, if_pos r, setRegBit, stackAux_setReg, stackAux_setStackAux_self]
  refine ⟨rfl, rfl, regBit_setRegBit_self _ _ _ (by decide), fun o n => ?_, rfl⟩
  rw [getReg_setReg_ne _ _ (by simpa using n), getReg_setStackAux]

/-- The scrub moves on to the next codeword, and ends its pass with the stack. -/
def scrubOn (k : Nat) (h : Hw) : Hw :=
  let next := ((stackAux h k).scrubAt + 1) % stackWords
  let g := setStackAux h k { stackAux h k with
    scrubAt := next, scrubNow := (stackAux h k).scrubNow && decide (next ≠ 0) }
  if next = 0 then setRegBit g (regOf (.stack k) 4) 2 false else g

/-- A codeword that the scrub skips, or that it finds poisoned or without an error, is left as it is (R181, R211). -/
def ScrubPasses (h : Hw) (k : Nat) : Prop :=
  let y := (stackAux h k).scrubAt * 64
  heldByOther h (castle .secure) (hbmKey k y) 64 = true ∨ isPoison h (cwOf k y) = true ∨ cwErrs h (cwOf k y) = []

theorem scrubHw_of_passes (r : stackReady h k = true)
    (on : regFld h (regOf (.stack k) 0x2C) 7 0 ≠ 0 ∨ (stackAux h k).scrubNow = true) (passes : ScrubPasses h k) :
    scrubHw k h = scrubOn k (setRegBit h (regOf (.stack k) 4) 2 true) := by
  have runs : ¬ ((!stackReady h k) = true ∨
      (regFld h (regOf (.stack k) 0x2C) 7 0 = 0 ∧ (!(stackAux h k).scrubNow) = true)) := by
    rcases on with on | on <;> simp [r, on]
  unfold scrubHw
  extract_lets st a y g g' next b g1
  have same : g' = g := by
    have held : heldByOther g (castle .secure) (hbmKey k y) 64 = heldByOther h (castle .secure) (hbmKey k y) 64 := rfl
    have checked : isPoison h (cwOf k y) = true ∨ cwErrs h (cwOf k y) = [] → (checkCw g k y).2 = g := by
      rintro (bad | none_)
      · have : isPoison g (cwOf k y) = true := bad
        simp [checkCw, this]
      · have : cwErrs g (cwOf k y) = [] := none_
        simp only [checkCw, this]
        split_ifs <;> rfl
    unfold g'
    split_ifs with free
    · rfl
    · rw [held] at free
      exact checked (passes.resolve_left free)
  rw [if_neg runs]
  unfold g1 b next
  rw [same]
  rfl

theorem scrubOn_shows (h : Hw) (k : Nat) :
    let next := ((stackAux h k).scrubAt + 1) % stackWords
    (stackAux (scrubOn k h) k).scrubAt = next ∧
    regBit (scrubOn k h) (regOf (.stack k) 4) 2 = (regBit h (regOf (.stack k) 4) 2 && decide (next ≠ 0)) ∧
    regsKept h (scrubOn k h) [regOf (.stack k) 4] ∧ (scrubOn k h).mem = h.mem := by
  intro next
  unfold scrubOn
  extract_lets a g
  have g_next : (stackAux g k).scrubAt = next := by unfold g; rw [stackAux_setStackAux_self]
  by_cases last : next = 0
  · rw [if_pos last]
    refine ⟨g_next, ?_, fun o m => getReg_setReg_ne g _ (by simpa using m), rfl⟩
    simp [regBit_setRegBit_self, last]
  · rw [if_neg last]
    refine ⟨g_next, ?_, fun o _ => rfl, rfl⟩
    have same : regBit g (regOf (.stack k) 4) 2 = regBit h (regOf (.stack k) 4) 2 := rfl
    simp [same, last]

theorem scrub_effect {s : State} {k : StackId} (r : stackReady s.hw k.val = true)
    (on : regFld s.hw (regOf (.stack k.val) 0x2C) 7 0 ≠ 0 ∨ (stackAux s.hw k.val).scrubNow = true)
    (passes : ScrubPasses s.hw k.val) :
    let next := ((stackAux s.hw k.val).scrubAt + 1) % stackWords
    ∃ h', effect (.scrub k) s h' ∧ (stackAux h' k.val).scrubAt = next ∧
      regBit h' (regOf (.stack k.val) 4) 2 = decide (next ≠ 0) ∧ regsKept s.hw h' [regOf (.stack k.val) 4] ∧
      h'.mem = s.hw.mem := by
  intro next
  refine ⟨_, effect_of_onHw rfl, ?_⟩
  rw [scrubHw_of_passes r on passes]
  obtain ⟨at_, running, kept, mem⟩ := scrubOn_shows (setRegBit s.hw (regOf (.stack k.val) 4) 2 true) k.val
  refine ⟨at_, ?_, fun o n => (kept o n).trans (getReg_setReg_ne s.hw _ (by simpa using n)), mem⟩
  rw [running, regBit_setRegBit_self _ _ _ (by decide), Bool.true_and]
  rfl

/-! Write-back, injection and the caches -/

theorem writeBack_effect {s : State} {k : StackId} {cw : Nat} {rest : List Nat}
    (waits : (stackAux s.hw k.val).writeBacks = cw :: rest) :
    ∃ h', effect (.correctedWriteBack k) s h' ∧ (stackAux h' k.val).writeBacks = rest ∧ cwErrs h' cw = [] ∧
      (∀ x, x ≠ cw → cwErrs h' x = cwErrs s.hw x) ∧
      h' = { s.hw with stackAux := h'.stackAux, symErrs := h'.symErrs } := by
  refine ⟨_, effect_of_onHw rfl, ?_⟩
  simp only [writeBackHw, waits]
  refine ⟨?_, ?_, fun x ne => ?_, rfl⟩
  · have aux (g : Hw) : stackAux (setCwErrs g cw []) k.val = stackAux g k.val := rfl
    rw [aux, stackAux_setStackAux_self]
  · rw [cwErrs_setCwErrs, if_pos rfl]
  · rw [cwErrs_setCwErrs, if_neg ne]
    rfl

theorem eccInject_effect {s : State} {w : World} {k : StackId} {v : Word}
    (a : acts s.hw w (regOf (.stack k.val) 0x30) = true) :
    (w = .secure → ∃ h', effect (.eccInject w k v) s h' ∧
      getReg h' (regOf (.stack k.val) 0x30) = v &&& 0xFFFF00FF ∧ onlyRegs s.hw h' [regOf (.stack k.val) 0x30]) ∧
    (w = .nonSecure → effect (.eccInject w k v) s s.hw) := by
  have done : effect (.eccInject w k v) s (eccInjectHw w k.val v s.hw) := effect_of_acts rfl a
  refine ⟨fun secure => ⟨_, done, ?_⟩, fun ns => ?_⟩
  · rw [eccInjectHw, if_pos secure]
    exact ⟨getReg_setReg_self .., OnlyRegsIn.onlyRegs (.setReg List.mem_cons_self ..)⟩
  · rwa [eccInjectHw, if_neg (by simp [ns])] at done

/-- The cache of a board is empty once every line of it has left, however often the map lists it. -/
theorem lines_emptyCache (b : Nat) (h : Hw) : (cacheAux (emptyCache b h) b).lines = [] := by
  simp only [cacheAux, emptyCache, dropLines]
  induction h.caches with
  | nil => rfl
  | cons e es ih =>
    rw [List.map_cons, List.filter_cons]
    split_ifs with listed
    · rw [smGet]
      split_ifs with own
      · simp only at own
        simp [own]
      · exact ih
    · exact ih

theorem invalidateAll_effect {s : State} {w : World} {b : BoardId} (a : acts s.hw w (regOf (.board b.val) 8) = true) :
    ∃ h', effect (.invalidateAll w b) s h' ∧ (cacheAux h' b.val).lines = [] ∧
      h' = { s.hw with caches := h'.caches } :=
  ⟨_, effect_of_acts rfl a, lines_emptyCache .., rfl⟩

end Sys2Proof.Machine
end

section
/-! PROOFS. Error records and the check of a row (R178-R180, R184, R185). -/

namespace Sys2Proof.Machine

variable {h h' : Hw} {k y key : Nat}

/-! What an error record leaves -/

theorem routeSeverity_rest (h : Hw) (r : ErrRec) : routeSeverity h r = { h with
    host := (routeSeverity h r).host, errs := (routeSeverity h r).errs, pins := (routeSeverity h r).pins } := by
  simp only [routeSeverity]
  split_ifs <;> rfl

theorem withRecord_rest (h : Hw) (e : ErrEvent) : withRecord h e = { h with
    regs := (withRecord h e).regs, freeRegs := (withRecord h e).freeRegs, errs := (withRecord h e).errs,
    draws := (withRecord h e).draws } := by
  simp only [withRecord, bumpSat, setReg]

/-- A record reaches registers, the queue of the host, the error logs, the pins and the draws alone. -/
theorem logErr_rest (h : Hw) (e : ErrEvent) : logErr h e = { h with
    regs := (logErr h e).regs, freeRegs := (logErr h e).freeRegs, host := (logErr h e).host,
    errs := (logErr h e).errs, pins := (logErr h e).pins, draws := (logErr h e).draws } := by
  have written := withRecord_rest h e
  have routed := routeSeverity_rest (withRecord h e) (recordOf h e)
  rw [logErr, errRecord_eq]
  dsimp only
  generalize routeSeverity (withRecord h e) (recordOf h e) = x at routed ⊢
  generalize withRecord h e = w at written routed
  rw [routed, written]

@[simp] theorem stackAux_logErr (h : Hw) (e : ErrEvent) (s : Nat) : stackAux (logErr h e) s = stackAux h s := by
  rw [logErr_rest]; rfl

@[simp] theorem isPoison_logErr (h : Hw) (e : ErrEvent) (cw : Nat) : isPoison (logErr h e) cw = isPoison h cw := by
  rw [logErr_rest]; rfl

@[simp] theorem cwErrs_logErr (h : Hw) (e : ErrEvent) (cw : Nat) : cwErrs (logErr h e) cw = cwErrs h cw := by
  rw [logErr_rest]; rfl

/-- The registers of the stacks are not those of the error block. -/
theorem getReg_stack_logErr (h : Hw) {e : ErrEvent} (l : e.severity ≤ 4) (s r : Nat) :
    getReg (logErr h e) (regOf (.stack s) r) = getReg h (regOf (.stack s) r) :=
  getReg_errRecord h (by simp only [rErrLast, regOf, baseOf]; omega) (by simp only [regOf, baseOf]; omega)

@[simp] theorem stackAux_logStackEvent (h : Hw) (s y kind x t : Nat) :
    stackAux (logStackEvent h s y kind x) t = stackAux h t :=
  (stackAux_setReg ..).trans ((stackAux_setReg ..).trans (stackAux_setReg ..))

theorem logStackEvent_mem (h : Hw) (s y kind x : Nat) : (logStackEvent h s y kind x).mem = h.mem :=
  (setReg_mem ..).trans ((setReg_mem ..).trans (setReg_mem ..))

/-- A logged event shows in ERR_ADDR and ERR_INFO alone. -/
theorem logStackEvent_onlyRegsIn (h : Hw) (s y kind x : Nat) :
    OnlyRegsIn (fun o => ∃ r ∈ [0x20, 0x24, 0x28], o = regOf (.stack s) r) h (logStackEvent h s y kind x) :=
  (OnlyRegsIn.setReg ⟨0x20, by simp, rfl⟩ ..).trans
    ((OnlyRegsIn.setReg ⟨0x24, by simp, rfl⟩ ..).trans (.setReg ⟨0x28, by simp, rfl⟩ ..))

theorem getReg_logStackEvent (h : Hw) (s y kind x : Nat) {r : Nat} (out : r ∉ [0x20, 0x24, 0x28]) :
    getReg (logStackEvent h s y kind x) (regOf (.stack s) r) = getReg h (regOf (.stack s) r) := by
  refine (logStackEvent_onlyRegsIn h s y kind x).reg _ ?_
  rintro ⟨r', m, e⟩
  have : r = r' := by simpa [regOf] using e
  exact out (this ▸ m)

/-! What the reading of a tracked row leaves -/

/-- The tracker of a stack holds a row. -/
def Tracked (h : Hw) (k key : Nat) : Prop := ∃ e ∈ (stackAux h k).tracker, e.1 = key

/-- What the checks of the codewords of a tracked row leave: memory, the remaps with those to be saved, the tracker but
for the row's own count, and the registers ECC_INJECT and the count of remaps. -/
structure RowKept (k key : Nat) (h h' : Hw) : Prop where
  mem : h'.mem = h.mem
  remaps : (stackAux h' k).remaps = (stackAux h k).remaps
  unsaved : (stackAux h' k).unsaved = (stackAux h k).unsaved
  others : (stackAux h' k).tracker.filter (fun e => e.1 ≠ key) = (stackAux h k).tracker.filter fun e => e.1 ≠ key
  tracked : Tracked h k key → Tracked h' k key
  inject : getReg h' (regOf (.stack k) 0x30) = getReg h (regOf (.stack k) 0x30)
  count : getReg h' (regOf (.stack k) 0x18) = getReg h (regOf (.stack k) 0x18)

theorem RowKept.refl (k key : Nat) (h : Hw) : RowKept k key h h := ⟨rfl, rfl, rfl, rfl, id, rfl, rfl⟩

theorem RowKept.trans {g : Hw} (a : RowKept k key h g) (b : RowKept k key g h') : RowKept k key h h' :=
  ⟨b.mem.trans a.mem, b.remaps.trans a.remaps, b.unsaved.trans a.unsaved, b.others.trans a.others,
    b.tracked ∘ a.tracked, b.inject.trans a.inject, b.count.trans a.count⟩

/-- What changes neither memory, nor the hidden state of the stack, nor the two registers, keeps the row. -/
theorem RowKept.of_aux (mem : h'.mem = h.mem) (aux : stackAux h' k = stackAux h k)
    (inject : getReg h' (regOf (.stack k) 0x30) = getReg h (regOf (.stack k) 0x30))
    (count : getReg h' (regOf (.stack k) 0x18) = getReg h (regOf (.stack k) 0x18)) : RowKept k key h h' :=
  ⟨mem, by rw [aux], by rw [aux], by rw [aux], fun t => by rwa [Tracked, aux], inject, count⟩

theorem rowKept_setReg (h : Hw) {r : Nat} (v : Word) (inject : r ≠ 0x30) (count : r ≠ 0x18) :
    RowKept k key h (setReg h (regOf (.stack k) r) v) := by
  have ne {x : Nat} (n : r ≠ x) : regOf (.stack k) x ≠ regOf (.stack k) r := fun e => n (by simpa [regOf] using e.symm)
  exact .of_aux rfl rfl (getReg_setReg_ne h v (ne inject)) (getReg_setReg_ne h v (ne count))

theorem rowKept_logErr (h : Hw) {e : ErrEvent} (l : e.severity ≤ 4) : RowKept k key h (logErr h e) :=
  .of_aux (logErr_frame e).1 (stackAux_logErr ..) (getReg_stack_logErr h l ..) (getReg_stack_logErr h l ..)

theorem rowKept_logStackEvent (h : Hw) (y kind x : Nat) : RowKept k key h (logStackEvent h k y kind x) :=
  (rowKept_setReg h _ (by decide) (by decide)).trans
    ((rowKept_setReg _ _ (by decide) (by decide)).trans (rowKept_setReg _ _ (by decide) (by decide)))

/-- A change of the hidden state that leaves the remaps and the tracker keeps the row. -/
theorem rowKept_setStackAux (h : Hw) {a : StackAux} (remaps : a.remaps = (stackAux h k).remaps)
    (unsaved : a.unsaved = (stackAux h k).unsaved) (tracker : a.tracker = (stackAux h k).tracker) :
    RowKept k key h (setStackAux h k a) := by
  refine ⟨rfl, ?_, ?_, ?_, fun t => ?_, rfl, rfl⟩
  · rw [stackAux_setStackAux_self, remaps]
  · rw [stackAux_setStackAux_self, unsaved]
  · rw [stackAux_setStackAux_self, tracker]
  · rwa [Tracked, stackAux_setStackAux_self, tracker]

/-- A tracked row counts once more. -/
def countRow (a : StackAux) (key : Nat) : StackAux :=
  { a with tracker := a.tracker.map fun e => if e.1 = key then (key, e.2 + 1) else e }

theorem trackRow_of_tracked (t : Tracked h k (rowKey y)) :
    trackRow h k y = setStackAux h k (countRow (stackAux h k) (rowKey y)) := by
  have listed : ((stackAux h k).tracker.any fun e => e.1 = rowKey y) = true := by simpa [Tracked] using t
  simp only [trackRow, if_pos listed, countRow]

theorem filter_countRow (a : StackAux) (key : Nat) :
    (countRow a key).tracker.filter (fun e => e.1 ≠ key) = a.tracker.filter fun e => e.1 ≠ key := by
  unfold countRow
  induction a.tracker with
  | nil => rfl
  | cons e es ih =>
    by_cases own : e.1 = key
    · simpa [own] using ih
    · simpa [own] using ih

theorem rowKept_trackRow (t : Tracked h k key) (own : rowKey y = key) : RowKept k key h (trackRow h k y) := by
  subst own
  rw [trackRow_of_tracked t]
  refine ⟨rfl, ?_, ?_, ?_, fun _ => ?_, rfl, rfl⟩
  · rw [stackAux_setStackAux_self]; rfl
  · rw [stackAux_setStackAux_self]; rfl
  · rw [stackAux_setStackAux_self, filter_countRow]
  · obtain ⟨e, m, at_⟩ := t
    rw [Tracked, stackAux_setStackAux_self]
    exact ⟨_, List.mem_map_of_mem m, by simp [at_]⟩

theorem rowKept_correctCw (t : Tracked h k key) (own : rowKey y = key) (x : Nat) :
    RowKept k key h (correctCw h k y x) := by
  have logged : RowKept k key h (logStackEvent (setRegBit (bumpSat h (regOf (.stack k) 0x10) 1)
      (regOf (.stack k) 4) 4 true) k (y / 64 * 64) 1 x) :=
    (rowKept_setReg h _ (by decide) (by decide)).trans
      ((rowKept_setReg _ _ (by decide) (by decide)).trans (rowKept_logStackEvent ..))
  exact logged.trans ((rowKept_trackRow (logged.tracked t) own).trans (rowKept_setStackAux _ rfl rfl rfl))

theorem rowKept_takePoison (h : Hw) (y : Nat) : RowKept k key h (takePoison h k y) := by
  have marked : RowKept k key h (setCwErrs (setPoison h (cwOf k y) true) (cwOf k y) []) := .of_aux rfl rfl rfl rfl
  unfold takePoison
  extract_lets g a g1
  split_ifs
  · exact marked
  · have pending : RowKept k key g g1 := rowKept_setStackAux g rfl rfl rfl
    exact marked.trans (pending.trans (rowKept_setReg (r := 0x1C) g1 _ (by decide) (by decide)))

theorem rowKept_poisonCw (h : Hw) (y x : Nat) : RowKept k key h (poisonCw h k y x) :=
  (rowKept_takePoison h y).trans <| (rowKept_setReg (r := 0x14) _ _ (by decide) (by decide)).trans <|
    (rowKept_setReg (r := 4) _ _ (by decide) (by decide)).trans <| (rowKept_logStackEvent ..).trans
      (rowKept_logErr _ (by simp))

theorem rowKept_checkCw (t : Tracked h k key) (own : rowKey y = key) : RowKept k key h (checkCw h k y).2 := by
  simp only [checkCw]
  split_ifs
  · exact .refl ..
  · split
    · exact .refl ..
    · exact rowKept_correctCw t own _
    · exact rowKept_poisonCw ..

/-! What the check of a codeword makes of it -/

theorem isPoison_setPoison_true (h : Hw) (cw x : Nat) :
    isPoison (setPoison h cw true) x = (isPoison h x || decide (x = cw)) := by
  rw [Bool.eq_iff_iff]
  simp only [isPoison, setPoison, if_true, List.contains_iff_mem, Bool.or_eq_true, decide_eq_true_eq]
  split_ifs with listed
  · exact ⟨.inl, fun m => m.elim id fun e => e ▸ listed⟩
  · simp

/-- Poison and erroneous symbols stay. -/
structure SameMarks (h h' : Hw) : Prop where
  poison : ∀ cw, isPoison h' cw = isPoison h cw
  errs : ∀ cw, cwErrs h' cw = cwErrs h cw

theorem SameMarks.trans {g : Hw} (a : SameMarks h g) (b : SameMarks g h') : SameMarks h h' :=
  ⟨fun cw => (b.poison cw).trans (a.poison cw), fun cw => (b.errs cw).trans (a.errs cw)⟩

theorem sameMarks_setReg (h : Hw) (o : Nat) (v : Word) : SameMarks h (setReg h o v) := ⟨fun _ => rfl, fun _ => rfl⟩

theorem sameMarks_setStackAux (h : Hw) (s : Nat) (a : StackAux) : SameMarks h (setStackAux h s a) :=
  ⟨fun _ => rfl, fun _ => rfl⟩

theorem sameMarks_logErr (h : Hw) (e : ErrEvent) : SameMarks h (logErr h e) :=
  ⟨isPoison_logErr h e, cwErrs_logErr h e⟩

theorem sameMarks_logStackEvent (h : Hw) (s y kind x : Nat) : SameMarks h (logStackEvent h s y kind x) :=
  (sameMarks_setReg ..).trans ((sameMarks_setReg ..).trans (sameMarks_setReg ..))

theorem sameMarks_trackRow (h : Hw) (s y : Nat) : SameMarks h (trackRow h s y) := by
  simp only [trackRow]
  split_ifs
  · exact sameMarks_setStackAux ..
  · exact sameMarks_setStackAux ..
  · exact (sameMarks_setStackAux ..).trans ((sameMarks_setReg ..).trans (sameMarks_logErr ..))

theorem sameMarks_correctCw (h : Hw) (s y x : Nat) : SameMarks h (correctCw h s y x) :=
  (sameMarks_setReg ..).trans <| (sameMarks_setReg ..).trans <| (sameMarks_logStackEvent ..).trans <|
    (sameMarks_trackRow ..).trans (sameMarks_setStackAux ..)

/-- The poison pattern takes the place of the errors of a codeword. -/
def poisoned (h : Hw) (cw : Nat) : Hw := setCwErrs (setPoison h cw true) cw []

theorem isPoison_poisoned (h : Hw) (cw x : Nat) : isPoison (poisoned h cw) x = (isPoison h x || decide (x = cw)) :=
  isPoison_setPoison_true h cw x

theorem sameMarks_takePoison (h : Hw) (s y : Nat) : SameMarks (poisoned h (cwOf s y)) (takePoison h s y) := by
  unfold takePoison
  extract_lets g a g1
  split_ifs
  · exact ⟨fun _ => rfl, fun _ => rfl⟩
  · exact (sameMarks_setStackAux ..).trans (sameMarks_setReg ..)

theorem sameMarks_poisonCw (h : Hw) (s y x : Nat) : SameMarks (poisoned h (cwOf s y)) (poisonCw h s y x) :=
  (sameMarks_takePoison ..).trans <| (sameMarks_setReg ..).trans <| (sameMarks_setReg ..).trans <|
    (sameMarks_logStackEvent ..).trans (sameMarks_logErr ..)

/-- The checked codeword is poisoned where it was or where it has two errors; every other one stays (R179, R180). -/
theorem isPoison_checkCw (h : Hw) (s y x : Nat) : isPoison (checkCw h s y).2 x =
    (isPoison h x || (decide (x = cwOf s y) && decide (2 ≤ (cwErrs h x).length))) := by
  simp only [checkCw]
  split_ifs with bad
  · by_cases own : x = cwOf s y
    · simp [own, bad]
    · simp [own]
  · split
    case h_1 none_ => by_cases own : x = cwOf s y <;> simp [own, none_]
    case h_2 e one =>
      rw [(sameMarks_correctCw ..).poison]
      by_cases own : x = cwOf s y <;> simp [own, one]
    case h_3 e es ne more =>
      have two : 2 ≤ (cwErrs h (cwOf s y)).length := by
        rw [more]
        cases es with
        | nil => exact absurd rfl ne
        | cons => simp
      rw [(sameMarks_poisonCw ..).poison, isPoison_poisoned]
      by_cases own : x = cwOf s y
      · simp [own, two]
      · simp [own]

theorem cwErrs_checkCw_ne (h : Hw) {s y x : Nat} (ne : x ≠ cwOf s y) : cwErrs (checkCw h s y).2 x = cwErrs h x := by
  simp only [checkCw]
  split_ifs
  · rfl
  · split
    · rfl
    · exact (sameMarks_correctCw ..).errs x
    · rw [(sameMarks_poisonCw ..).errs, poisoned, cwErrs_setCwErrs, if_neg ne]
      rfl

/-! The check of a row -/

/-- The checks of the first n codewords from an offset. -/
def checkWords (n : Nat) (h : Hw) (s y : Nat) : Hw := (List.range n).foldl (fun h i => (checkCw h s (y + 64 * i)).2) h

theorem checkWords_succ (n : Nat) (h : Hw) (s y : Nat) :
    checkWords (n + 1) h s y = (checkCw (checkWords n h s y) s (y + 64 * n)).2 := by
  simp [checkWords, List.range_succ]

theorem cwOf_step (s y i : Nat) : cwOf s (y + 64 * i) = cwOf s y + i := by
  simp only [cwOf, hbmKey]
  omega

theorem rowKept_checkWords {n : Nat} (t : Tracked h k key) (own : ∀ i < n, rowKey (y + 64 * i) = key) :
    RowKept k key h (checkWords n h k y) := by
  induction n with
  | zero => exact .refl ..
  | succ n ih =>
    have before := ih fun i l => own i (by omega)
    rw [checkWords_succ]
    exact before.trans (rowKept_checkCw (before.tracked t) (own n (by omega)))

theorem cwErrs_checkWords_later {n j : Nat} (l : n ≤ j) :
    cwErrs (checkWords n h k y) (cwOf k y + j) = cwErrs h (cwOf k y + j) := by
  induction n with
  | zero => rfl
  | succ n ih =>
    have ne : cwOf k y + j ≠ cwOf k (y + 64 * n) := by rw [cwOf_step]; omega
    rw [checkWords_succ, cwErrs_checkCw_ne _ ne, ih (by omega)]

/-- Codewords that were not poisoned are poisoned once they are checked with two errors. -/
theorem isPoison_checkWords {n : Nat} {j : Nat} (sound : isPoison h (cwOf k y + j) = false) :
    isPoison (checkWords n h k y) (cwOf k y + j) =
      (decide (j < n) && decide (2 ≤ (cwErrs h (cwOf k y + j)).length)) := by
  induction n with
  | zero => simpa [checkWords] using sound
  | succ n ih =>
    rw [checkWords_succ, isPoison_checkCw, ih, cwOf_step]
    by_cases e : j = n
    · subst e
      simp [cwErrs_checkWords_later (h := h) (k := k) (y := y) (le_refl j)]
    · have later : (j < n + 1) = (j < n) := propext (by omega)
      simp [e, later]

end Sys2Proof.Machine
end

section
/-! PROOFS. Row remaps and the remap list in flash (R184-R187): O35. -/

namespace Sys2Proof.Machine

variable {h h' : Hw} {k : Nat} {words : List Nat}

/-! The copy of a row into a spare -/

def clearErrs (words : List Nat) (h : Hw) : Hw := words.foldl (fun h w => setCwErrs h w []) h

theorem clearErrs_frame (words : List Nat) (h : Hw) :
    clearErrs words h = { h with symErrs := (clearErrs words h).symErrs } := by
  induction words generalizing h with
  | nil => rfl
  | cons w ws ih =>
    have rest : clearErrs (w :: ws) h = clearErrs ws (setCwErrs h w []) := rfl
    rw [rest, ih]
    rfl

theorem cwErrs_clearErrs (x : Nat) : cwErrs (clearErrs words h) x = if x ∈ words then [] else cwErrs h x := by
  induction words generalizing h with
  | nil => simp [clearErrs]
  | cons w ws ih =>
    have rest : clearErrs (w :: ws) h = clearErrs ws (setCwErrs h w []) := rfl
    rw [rest, ih, cwErrs_setCwErrs]
    by_cases last : x ∈ ws
    · simp [last]
    · by_cases own : x = w <;> simp [last, own]

/-- What the copy leaves: memory, poison, the hidden state of the stacks and every register but ECC_INJECT; and with no
injection armed its codewords are correct. -/
structure RowCopied (s : Nat) (words : List Nat) (h h' : Hw) : Prop where
  mem : h'.mem = h.mem
  aux : ∀ t, stackAux h' t = stackAux h t
  poison : ∀ cw, isPoison h' cw = isPoison h cw
  reg : ∀ o, o ≠ regOf (.stack s) 0x30 → getReg h' o = getReg h o
  errs : regBit h (regOf (.stack s) 0x30) 31 = false → ∀ cw ∈ words, cwErrs h' cw = []

theorem rowCopied_clearErrs (s : Nat) (words : List Nat) (h : Hw) : RowCopied s words h (clearErrs words h) where
  mem := by rw [clearErrs_frame]
  aux t := by rw [clearErrs_frame]; rfl
  poison cw := by rw [clearErrs_frame]; rfl
  reg o _ := by rw [clearErrs_frame]; rfl
  errs _ cw m := by rw [cwErrs_clearErrs, if_pos m]

theorem RowCopied.setReg {s : Nat} (c : RowCopied s words h h') (v : Word) :
    RowCopied s words h (setReg h' (regOf (.stack s) 0x30) v) where
  mem := c.mem
  aux := c.aux
  poison := c.poison
  reg o ne := (getReg_setReg_ne h' v ne).trans (c.reg o ne)
  errs := c.errs

theorem rowCopied_injectErrs {s : Nat} (c : RowCopied s words h h') : RowCopied s words h (injectErrs h' s).2 := by
  unfold injectErrs
  extract_lets r pat
  split_ifs
  · exact c.setReg _
  · exact c

theorem copyRow_cons (h : Hw) (s w : Nat) (ws : List Nat) : copyRow h s (w :: ws) =
    (let g := clearErrs (w :: ws) h
     if isPoison g w then (injectErrs g s).2 else setCwErrs (injectErrs g s).2 w (injectErrs g s).1) := rfl

theorem rowCopied_copyRow (h : Hw) (s : Nat) (words : List Nat) : RowCopied s words h (copyRow h s words) := by
  cases words with
  | nil => exact ⟨rfl, fun _ => rfl, fun _ => rfl, fun _ _ => rfl, fun _ _ m => absurd m List.not_mem_nil⟩
  | cons w ws =>
    rw [copyRow_cons]
    extract_lets g
    have cleared : RowCopied s (w :: ws) h g := rowCopied_clearErrs ..
    obtain ⟨mem, aux, poison, reg, errs⟩ := rowCopied_injectErrs cleared
    split_ifs
    · exact ⟨mem, aux, poison, reg, errs⟩
    · refine ⟨mem, aux, poison, reg, fun idle cw m => ?_⟩
      have unarmed : injectErrs g s = ([], g) := injectErrs_of_unarmed (by
        have same : g.regs = h.regs ∧ g.freeRegs = h.freeRegs := by
          unfold g; constructor <;> rw [clearErrs_frame]
        rwa [regBit, getReg_congr same.1 same.2])
      rw [cwErrs_setCwErrs, unarmed]
      split_ifs
      · rfl
      · exact cleared.errs idle cw m

/-! The codewords of a row -/

/-- The offset of a row's first byte (Table 7-1). -/
def rowAt (r : RowId) : Nat := r.row.val * 2 ^ 21 + r.bank.val * 2 ^ 15 + r.pc.val * 2 ^ 10

def keyOf (r : RowId) : Nat := rowKeyOf r.pc.val r.bank.val r.row.val

def wordsOf (k : Nat) (r : RowId) : List Nat := rowWords k r.pc.val r.bank.val r.row.val

theorem rowKey_rowAt (r : RowId) {i : Nat} (l : i < 16) : rowKey (rowAt r + 64 * i) = keyOf r := by
  have pc : yPc (rowAt r + 64 * i) = r.pc.val := by simp only [yPc, rowAt]; omega
  have bank : yBank (rowAt r + 64 * i) = r.bank.val := by simp only [yBank, rowAt]; omega
  have row : yRow (rowAt r + 64 * i) = r.row.val := by simp only [yRow, rowAt]; omega
  rw [rowKey, pc, bank, row, keyOf]

theorem mem_wordsOf {r : RowId} {cw : Nat} : cw ∈ wordsOf k r ↔ ∃ i < 16, cw = cwOf k (rowAt r) + i := by
  have step (i : Nat) : cwOf k (r.row.val * 2 ^ 21 + r.bank.val * 2 ^ 15 + r.pc.val * 2 ^ 10 + 64 * i) =
      cwOf k (rowAt r) + i := cwOf_step k (rowAt r) i
  simp only [wordsOf, rowWords, List.mem_map, List.mem_range, step, eq_comm]

/-! Remaps -/

theorem regFld_setStackAux (a : StackAux) (o hi lo : Nat) : regFld (setStackAux h k a) o hi lo = regFld h o hi lo :=
  congrArg (fld · hi lo) (getReg_setStackAux h k a o)

theorem regFld_of_getReg {o hi lo : Nat} (e : getReg h' o = getReg h o) : regFld h' o hi lo = regFld h o hi lo :=
  congrArg (fld · hi lo) e

section
variable {r : RowId}

/-- A row with three corrected errors in a window and no poison is remapped (R184, R186). -/
theorem rowRemapHw_of_met (ready : stackReady h k = true)
    (met : ∃ n, (keyOf r, n) ∈ (stackAux h k).tracker ∧ 3 ≤ n) (sound : ∀ cw ∈ wordsOf k r, isPoison h cw = false) :
    rowRemapHw k r h = remapRow h k 1 r.pc.val r.bank.val r.row.val := by
  obtain ⟨n, m, three⟩ := met
  have counted : ((stackAux h k).tracker.any fun e => e.1 = keyOf r && decide (3 ≤ e.2)) = true :=
    List.any_eq_true.mpr ⟨_, m, by simp [three]⟩
  have whole : (wordsOf k r).any (isPoison h) = false := by simpa using sound
  exact if_pos ⟨ready, counted, by rw [← wordsOf, whole]; rfl⟩

/-- The row copied, before its entry joins the list. -/
def copiedRow (h : Hw) (k : Nat) (r : RowId) : Hw := copyRow (checkWords 16 h k (rowAt r)) k (wordsOf k r)

/-- The entry that leads a row to a spare. -/
def entryFor (sp : Nat) (r : RowId) : RemapEntry := RemapEntry.mk 1 sp r.bank.val r.pc.val r.row.val

/-- The hidden state of a stack with a row led to a spare. -/
def remapped (a : StackAux) (k sp : Nat) (r : RowId) : StackAux :=
  { a with
    tracker := a.tracker.filter fun e => e.1 ≠ keyOf r
    remaps := (a.remaps.map fun x =>
      if liveFor x r.pc.val r.bank.val r.row.val then { x with kind := 3 } else x) ++ [entryFor sp r]
    unsaved := a.unsaved ++ [entryFor sp r]
    writeBacks := a.writeBacks.filter fun w => !(wordsOf k r).contains w }

/-- The count of remaps and the records of one. -/
def countRemap (h : Hw) (k y : Nat) : Hw :=
  let o := regOf (.stack k) 0x18
  logErr (logStackEvent (setRegFld h o 14 0 (regFld h o 14 0 + 1)) k y 3 0x7F)
    { source := 3, kind := 3, severity := 1, unit := k, addr := y }

theorem remapRow_of_spare {sp : Nat} (spare : freeSpare (stackAux h k) r.pc.val r.bank.val = some sp) :
    remapRow h k 1 r.pc.val r.bank.val r.row.val =
      countRemap (setStackAux (copiedRow h k r) k (remapped (stackAux (copiedRow h k r) k) k sp r)) k (rowAt r) := by
  simp only [remapRow, spare]
  rfl

/-- A row for which no spare is free. -/
def exhaustSpares (h : Hw) (k : Nat) (r : RowId) : Hw :=
  let a := stackAux h k
  logErr (setRegBit (logStackEvent (setStackAux h k { a with tracker := a.tracker.filter fun e => e.1 ≠ keyOf r })
    k (rowAt r) 4 0x7F) (regOf (.stack k) 4) 6 true)
    { source := 3, kind := 4, severity := 3, unit := k, addr := rowAt r }

theorem remapRow_of_none (none_ : freeSpare (stackAux h k) r.pc.val r.bank.val = none) :
    remapRow h k 1 r.pc.val r.bank.val r.row.val = exhaustSpares h k r := by
  simp only [remapRow, none_]
  rfl

theorem exhaustSpares_shows (h : Hw) (k : Nat) (r : RowId) :
    (exhaustSpares h k r).mem = h.mem ∧
    (stackAux (exhaustSpares h k r) k).tracker = (stackAux h k).tracker.filter (fun e => e.1 ≠ keyOf r) ∧
    (stackAux (exhaustSpares h k r) k).remaps = (stackAux h k).remaps ∧
    regBit (exhaustSpares h k r) (regOf (.stack k) 4) 6 = true := by
  unfold exhaustSpares
  extract_lets a
  refine ⟨?_, ?_, ?_, ?_⟩
  · rw [(logErr_frame _).1, setRegBit, setReg_mem, logStackEvent_mem, setStackAux_mem]
  · rw [stackAux_logErr, setRegBit, stackAux_setReg, stackAux_logStackEvent, stackAux_setStackAux_self]
  · rw [stackAux_logErr, setRegBit, stackAux_setReg, stackAux_logStackEvent, stackAux_setStackAux_self]
  · rw [regBit, getReg_stack_logErr _ (by simp), ← regBit, regBit_setRegBit_self _ _ _ (by decide)]

theorem countRemap_shows (h : Hw) (k y : Nat) :
    (countRemap h k y).mem = h.mem ∧ stackAux (countRemap h k y) k = stackAux h k ∧
    SameMarks h (countRemap h k y) ∧
    regFld (countRemap h k y) (regOf (.stack k) 0x18) 14 0 = (regFld h (regOf (.stack k) 0x18) 14 0 + 1) % 2 ^ 15 := by
  unfold countRemap
  extract_lets o
  refine ⟨?_, ?_, (sameMarks_setReg ..).trans ((sameMarks_logStackEvent ..).trans
    (sameMarks_logErr ..)), ?_⟩
  · rw [(logErr_frame _).1, logStackEvent_mem, setRegFld, setReg_mem]
  · rw [stackAux_logErr, stackAux_logStackEvent, setRegFld, stackAux_setReg]
  · rw [regFld, getReg_stack_logErr _ (by simp), getReg_logStackEvent _ _ _ _ _ (by decide), ← regFld,
      regFld_setRegFld_self _ _ _ (by decide)]

section
variable (tracked : Tracked h k (keyOf r)) (sound : ∀ cw ∈ wordsOf k r, isPoison h cw = false)
include tracked

theorem rowKept_row : RowKept k (keyOf r) h (checkWords 16 h k (rowAt r)) :=
  rowKept_checkWords tracked fun _ => rowKey_rowAt r

theorem copiedRow_keeps :
    (copiedRow h k r).mem = h.mem ∧ (stackAux (copiedRow h k r) k).remaps = (stackAux h k).remaps ∧
    (stackAux (copiedRow h k r) k).unsaved = (stackAux h k).unsaved ∧
    (stackAux (copiedRow h k r) k).tracker.filter (fun e => e.1 ≠ keyOf r) =
      (stackAux h k).tracker.filter (fun e => e.1 ≠ keyOf r) ∧
    getReg (copiedRow h k r) (regOf (.stack k) 0x18) = getReg h (regOf (.stack k) 0x18) := by
  have kept := rowKept_row tracked
  have copied := rowCopied_copyRow (checkWords 16 h k (rowAt r)) k (wordsOf k r)
  refine ⟨copied.mem.trans kept.mem, ?_, ?_, ?_, ?_⟩
  · rw [copiedRow, copied.aux, kept.remaps]
  · rw [copiedRow, copied.aux, kept.unsaved]
  · rw [copiedRow, copied.aux, kept.others]
  · exact (copied.reg _ (by simp [regOf])).trans kept.count

include sound

omit tracked in
theorem isPoison_copiedRow {cw : Nat} (m : cw ∈ wordsOf k r) :
    isPoison (copiedRow h k r) cw = decide (2 ≤ (cwErrs h cw).length) := by
  have clean := sound cw m
  obtain ⟨i, l, rfl⟩ := mem_wordsOf.mp m
  rw [copiedRow, (rowCopied_copyRow ..).poison, isPoison_checkWords clean]
  simp [l]

omit sound in
theorem cwErrs_copiedRow (idle : regBit h (regOf (.stack k) 0x30) 31 = false) {cw : Nat} (m : cw ∈ wordsOf k r) :
    cwErrs (copiedRow h k r) cw = [] := by
  refine (rowCopied_copyRow ..).errs ?_ cw m
  rwa [regBit, (rowKept_row tracked).inject, ← regBit]

end

theorem rowRemap_effect {s : State} {k : StackId} (ready : stackReady s.hw k.val = true)
    (met : ∃ n, (keyOf r, n) ∈ (stackAux s.hw k.val).tracker ∧ 3 ≤ n)
    (sound : ∀ cw ∈ wordsOf k.val r, isPoison s.hw cw = false) :
    let a := stackAux s.hw k.val
    ∃ h', effect (.rowRemap k r) s h' ∧ h'.mem = s.hw.mem ∧
      (stackAux h' k.val).tracker = a.tracker.filter (fun e => e.1 ≠ keyOf r) ∧
      (∀ sp, freeSpare a r.pc.val r.bank.val = some sp →
        (∀ cw ∈ wordsOf k.val r, isPoison h' cw = decide (2 ≤ (cwErrs s.hw cw).length)) ∧
        (regBit s.hw (regOf (.stack k.val) 0x30) 31 = false → ∀ cw ∈ wordsOf k.val r, cwErrs h' cw = []) ∧
        (stackAux h' k.val).remaps.getLast? = some (entryFor sp r) ∧
        (stackAux h' k.val).remaps.length = a.remaps.length + 1 ∧
        (stackAux h' k.val).unsaved = a.unsaved ++ [entryFor sp r] ∧
        regFld h' (regOf (.stack k.val) 0x18) 14 0 = (regFld s.hw (regOf (.stack k.val) 0x18) 14 0 + 1) % 2 ^ 15) ∧
      (freeSpare a r.pc.val r.bank.val = none → (stackAux h' k.val).remaps = a.remaps ∧
        regBit h' (regOf (.stack k.val) 4) 6 = true) := by
  intro a
  refine ⟨_, effect_of_onHw rfl, ?_⟩
  rw [rowRemapHw_of_met ready met sound]
  have tracked : Tracked s.hw k.val (keyOf r) := by
    obtain ⟨n, m, -⟩ := met
    exact ⟨_, m, rfl⟩
  cases spare : freeSpare a r.pc.val r.bank.val with
  | none =>
    rw [remapRow_of_none spare]
    obtain ⟨mem, tracker, remaps, exhausted⟩ := exhaustSpares_shows s.hw k.val r
    exact ⟨mem, tracker, fun sp e => by simp at e, fun _ => ⟨remaps, exhausted⟩⟩
  | some sp =>
    rw [remapRow_of_spare spare]
    obtain ⟨mem, remaps, unsaved, others, count⟩ := copiedRow_keeps tracked
    obtain ⟨mem', aux, marks, counted⟩ := countRemap_shows
      (setStackAux (copiedRow s.hw k.val r) k.val (remapped (stackAux (copiedRow s.hw k.val r) k.val) k.val sp r))
      k.val (rowAt r)
    have poison := fun cw (m : cw ∈ wordsOf k.val r) => isPoison_copiedRow sound m
    have errs := fun idle cw (m : cw ∈ wordsOf k.val r) => cwErrs_copiedRow tracked idle m
    generalize copiedRow s.hw k.val r = g at *
    have kept : SameMarks g _ := (sameMarks_setStackAux ..).trans marks
    rw [regFld_setStackAux, regFld_of_getReg count] at counted
    rw [stackAux_setStackAux_self] at aux
    rw [setStackAux_mem] at mem'
    generalize countRemap _ _ _ = g' at *
    rw [aux]
    refine ⟨mem'.trans mem, others, fun sp' e => ?_, fun e => by simp at e⟩
    cases e
    refine ⟨fun cw m => ?_, fun idle cw m => ?_, ?_, ?_, ?_, ?_⟩
    · exact (kept.poison cw).trans (poison cw m)
    · exact (kept.errs cw).trans (errs idle cw m)
    · simp [remapped]
    · simp [remapped, remaps, a]
    · simp [remapped, unsaved, a]
    · exact counted

end

/-! The remap list (R187) -/

theorem slice_length (bs : List Byte) (at_ n : Nat) : (slice bs at_ n).length = n := by
  simp only [slice, List.length_append, List.length_take, List.length_drop, List.length_replicate]
  omega

theorem leBytes_length (n v : Nat) : (leBytes n v).length = n := by
  induction n generalizing v with
  | zero => rfl
  | succ n ih => rw [leBytes, List.length_cons, ih]

theorem keccakF_length (a : List (BitVec 64)) : (keccakF a).length = 25 := by
  have rounds : ∀ (rcs : List (BitVec 64)) (a : List (BitVec 64)), rcs ≠ [] →
      (rcs.foldl keccakRound a).length = 25 := by
    intro rcs
    induction rcs using List.reverseRecOn with
    | nil => exact fun _ ne => absurd rfl ne
    | append_singleton rcs rc _ => intro a _; simp [keccakRound]
  exact rounds _ _ (by decide)

theorem shakeAbsorb_length (m : List Byte) : (shakeAbsorb m).length = 25 :=
  List.foldlRecOn _ _ (motive := fun a : List (BitVec 64) => a.length = 25) (by simp) fun _ _ _ _ => keccakF_length _

theorem shake256_length (m : List Byte) {n : Nat} (l : n ≤ 200) : (shake256 m n).length = n := by
  simp only [shake256, List.length_take, List.length_flatMap, leBytes_length, List.map_const', List.sum_replicate,
    shakeAbsorb_length, smul_eq_mul]
  omega

/-- A saved list with its digest. -/
def sealedList (es : List RemapEntry) : List Byte := remapList es ++ shake256 (remapList es) 32

theorem sealedList_length (es : List RemapEntry) : (sealedList es).length = 65568 := by
  rw [sealedList, List.length_append, shake256_length _ (by decide), remapList, slice_length]

/-- Both copies in flash hold the list. -/
def writeCopies (m : Mem) (k : Nat) (bs : List Byte) : Mem :=
  (m.write .flash (remapFlash k 0) bs).write .flash (remapFlash k 1) bs

theorem read_writeCopies (m : Mem) (k : Nat) {bs : List Byte} (l : bs.length = 65568) {c i : Nat} (lc : c < 2)
    (li : i < 65568) : (writeCopies m k bs).read .flash (remapFlash k c + i) = bs.getD i 0 := by
  obtain rfl | rfl : c = 0 ∨ c = 1 := by omega
  · rw [writeCopies, read_write_other, read_write_self _ _ _ _ _ (by omega)]
    simp only [remapFlash]
    omega
  · exact read_write_self _ _ _ _ _ (by omega)

theorem read_writeCopies_ne (m : Mem) (k : Nat) (bs : List Byte) {sp : Space} (ne : sp ≠ .flash) (x : Nat) :
    (writeCopies m k bs).read sp x = m.read sp x := by
  rw [writeCopies, read_write_other _ _ _ _ _ _ (by simp [ne]), read_write_other _ _ _ _ _ _ (by simp [ne])]

theorem remapListWrite_effect {s : State} {k : StackId} {e : RemapEntry} {rest : List RemapEntry}
    (waits : (stackAux s.hw k.val).unsaved = e :: rest) :
    let a := stackAux s.hw k.val
    ∃ h', effect (.remapListWrite k) s h' ∧ (stackAux h' k.val).unsaved = rest ∧
      (∀ c < 2, let bs := remapList (a.remaps.take (a.remaps.length - rest.length))
        ∀ i < 65568, h'.mem.read .flash (remapFlash k.val c + i) = (bs ++ shake256 bs 32).getD i 0) ∧
      (∀ sp x, sp ≠ .flash → h'.mem.read sp x = s.hw.mem.read sp x) ∧
      h' = { s.hw with stackAux := h'.stackAux, mem := h'.mem } := by
  intro a
  have written : remapListHw k.val s.hw = { setStackAux s.hw k.val { a with unsaved := rest } with
      mem := writeCopies s.hw.mem k.val (sealedList (a.remaps.take (a.remaps.length - rest.length))) } := by
    simp only [remapListHw, waits]
    rfl
  refine ⟨_, effect_of_onHw rfl, ?_⟩
  rw [written]
  refine ⟨?_, fun c lc => by intro bs i li; exact read_writeCopies _ _ (sealedList_length _) lc li,
    fun sp x ne => read_writeCopies_ne _ _ _ ne x, rfl⟩
  exact congrArg StackAux.unsaved (stackAux_setStackAux_self ..)

/-- Settles O35: each event of a stack by what it does to the tracker, the remaps and the codewords that it names. -/
theorem stacksAreKept : Obligations.StacksAreKept := by
  refine ⟨fun w k s => ⟨fun pc temp r => refresh_effect r pc temp, windowEnd_effect, scrubNow_effect,
    fun r on passes => scrub_effect r on passes, fun cw rest => writeBack_effect, fun v a => eccInject_effect a,
    fun b a => invalidateAll_effect a⟩, fun k r s => ⟨rowRemap_effect, fun e rest => remapListWrite_effect⟩⟩

end Sys2Proof.Machine
end

section
/-! PROOFS. STACK_STATUS.READY through accesses of the castle and what follows every command. -/

namespace Sys2Proof.Machine

variable (k : Nat)

/-- A change leaves STACK_STATUS.READY of stack k. -/
def KeepsReady (h h' : Hw) : Prop := stackReady h' k = stackReady h k

variable {k} {h h' : Hw}

theorem KeepsReady.refl (h : Hw) : KeepsReady k h h := rfl

theorem KeepsReady.trans {g : Hw} (a : KeepsReady k h g) (b : KeepsReady k g h') : KeepsReady k h h' :=
  Eq.trans (b : stackReady h' k = stackReady g k) a

/-! Registers -/

theorem KeepsReady.of_reg (e : getReg h' (regOf (.stack k) 4) = getReg h (regOf (.stack k) 4)) : KeepsReady k h h' :=
  congrArg (bit · 0) e

theorem KeepsReady.of_regs (regs : h'.regs = h.regs) (free : h'.freeRegs = h.freeRegs) : KeepsReady k h h' :=
  .of_reg (getReg_congr regs free _)

variable (h)

theorem keepsReady_setReg {o : Nat} (ne : regOf (.stack k) 4 ≠ o) (v : Word) : KeepsReady k h (setReg h o v) :=
  .of_reg (getReg_setReg_ne h v ne)

theorem keepsReady_setStackReg (s : Nat) {r : Nat} (ne : r ≠ 4) (l : r < 0x20000) (v : Word) :
    KeepsReady k h (setReg h (regOf (.stack s) r) v) :=
  keepsReady_setReg h (by simp only [regOf, baseOf]; omega) v

/-- The other bits of STACK_STATUS. -/
theorem keepsReady_setStatusBit (s : Nat) {i : Nat} (b : Bool) (ne : 0 ≠ i) (l : i < 32) :
    KeepsReady k h (setRegBit h (regOf (.stack s) 4) i b) := by
  by_cases e : regOf (.stack k) 4 = regOf (.stack s) 4
  · rw [KeepsReady, stackReady, e, regBit_setRegBit_ne _ _ _ l ne, stackReady, e]
  · exact keepsReady_setReg h e _

theorem keepsReady_logErr {e : ErrEvent} (l : e.severity ≤ 4) : KeepsReady k h (logErr h e) :=
  .of_reg (getReg_stack_logErr h l ..)

theorem keepsReady_sendMsix {v : Nat} (l : v < 128) : KeepsReady k h (sendMsix h v) := by
  unfold sendMsix
  split_ifs
  · exact keepsReady_setReg h (by simp only [regOf, baseOf]; omega) _
  all_goals exact .of_regs rfl rfl

theorem keepsReady_setPkg (p : PkgState) : KeepsReady k h (setPkg h p) := by
  have entered : KeepsReady k h { h with pkg := p } := .of_regs rfl rfl
  unfold setPkg
  split_ifs
  · exact .refl h
  · exact entered.trans (keepsReady_sendMsix _ (by decide))

/-! The stacks -/

theorem keepsReady_setStackAux (s : Nat) (a : StackAux) : KeepsReady k h (setStackAux h s a) := .of_regs rfl rfl

theorem keepsReady_logStackEvent (s y kind symbol : Nat) : KeepsReady k h (logStackEvent h s y kind symbol) :=
  (keepsReady_setStackReg h s (by decide) (by decide) _).trans <|
    (keepsReady_setStackReg _ s (by decide) (by decide) _).trans (keepsReady_setStackReg _ s (by decide) (by decide) _)

theorem keepsReady_trackRow (s y : Nat) : KeepsReady k h (trackRow h s y) := by
  simp only [trackRow]
  split_ifs
  · exact keepsReady_setStackAux ..
  · exact keepsReady_setStackAux ..
  · exact (keepsReady_setStackAux ..).trans
      ((keepsReady_setStatusBit _ s _ (by decide) (by decide)).trans (keepsReady_logErr _ (by simp)))

theorem keepsReady_correctCw (s y symbol : Nat) : KeepsReady k h (correctCw h s y symbol) :=
  (keepsReady_setStackReg h s (by decide) (by decide) _).trans <|
    (keepsReady_setStatusBit _ s _ (by decide) (by decide)).trans <| (keepsReady_logStackEvent ..).trans <|
      (keepsReady_trackRow ..).trans (keepsReady_setStackAux ..)

theorem keepsReady_takePoison (s y : Nat) : KeepsReady k h (takePoison h s y) := by
  have marked : KeepsReady k h (setCwErrs (setPoison h (cwOf s y) true) (cwOf s y) []) := .of_regs rfl rfl
  simp only [takePoison]
  split_ifs
  · exact marked
  · exact marked.trans
      ((keepsReady_setStackAux ..).trans (keepsReady_setStackReg _ s (r := 0x1C) (by decide) (by decide) _))

theorem keepsReady_poisonCw (s y symbol : Nat) : KeepsReady k h (poisonCw h s y symbol) :=
  (keepsReady_takePoison ..).trans <| (keepsReady_setStackReg _ s (r := 0x14) (by decide) (by decide) _).trans <|
    (keepsReady_setStatusBit _ s _ (by decide) (by decide)).trans <| (keepsReady_logStackEvent ..).trans
      (keepsReady_logErr _ (by simp))

theorem keepsReady_checkCw (s y : Nat) : KeepsReady k h (checkCw h s y).2 := by
  simp only [checkCw]
  split_ifs
  · exact .refl h
  · split
    · exact .refl h
    · exact keepsReady_correctCw ..
    · exact keepsReady_poisonCw ..

theorem keepsReady_stackRead (s y n m : Nat) : KeepsReady k h (stackRead h s y n m).2.2 :=
  (keepsReady_checkCw ..).trans (keepsReady_setStackAux ..)

theorem keepsReady_injectErrs (s : Nat) : KeepsReady k h (injectErrs h s).2 := by
  unfold injectErrs
  extract_lets r pat
  split_ifs
  · exact keepsReady_setStackReg h s (r := 0x30) (by decide) (by decide) _
  · exact .refl h

theorem keepsReady_writeCw (s y : Nat) (bs : List Byte) : KeepsReady k h (writeCw h s y bs) := by
  unfold writeCw
  extract_lets cw full chk g logged sound inj coded a unwritten
  have checked : KeepsReady k h g := by
    unfold g chk
    split_ifs
    · exact .refl h
    · exact keepsReady_checkCw ..
  split_ifs
  · exact checked.trans ((keepsReady_logStackEvent ..).trans (keepsReady_logErr _ (by simp)))
  · have injected : KeepsReady k sound inj.2 := keepsReady_injectErrs ..
    have replaced : KeepsReady k g sound := .of_regs rfl rfl
    exact checked.trans (replaced.trans (injected.trans (.of_regs rfl rfl)))

/-! The board caches -/

theorem keepsReady_dropLines (p : Nat → Nat → Bool) : KeepsReady k h (dropLines h p) := .of_regs rfl rfl

theorem keepsReady_setCacheAux (b : Nat) (a : CacheAux) : KeepsReady k h (setCacheAux h b a) := .of_regs rfl rfl

theorem keepsReady_allocLine (b line : Nat) : KeepsReady k h (allocLine h b line) := by
  simp only [allocLine]
  split
  · exact (keepsReady_dropLines ..).trans (keepsReady_setCacheAux ..)
  · exact keepsReady_setCacheAux ..

theorem keepsReady_evictOldest (m : Nat) : KeepsReady k h (evictOldest h m) := by
  unfold evictOldest
  split
  · split_ifs
    · exact keepsReady_dropLines ..
    · exact .refl h
  · exact .refl h

theorem keepsReady_fillRemote (b m line : Nat) : KeepsReady k h (fillRemote h b m line) := by
  rw [fillRemote_eq]
  exact (keepsReady_evictOldest ..).trans
    ((keepsReady_allocLine ..).trans ((keepsReady_setCacheAux ..).trans (keepsReady_setCacheAux ..)))

theorem keepsReady_lookLine (b line : Nat) : KeepsReady k h (lookLine h b line).2 := by
  have apart : regOf (.stack k) 4 ≠ regOf (.board b) 0x1C := by simp only [regOf, baseOf]; omega
  simp only [lookLine]
  split
  · exact keepsReady_setCacheAux ..
  · split_ifs
    · exact (keepsReady_dropLines ..).trans ((keepsReady_setReg _ apart _).trans (keepsReady_setCacheAux ..))
    · exact keepsReady_setCacheAux ..

theorem keepsReady_lookNear (far : Option Nat) (line : Nat) : KeepsReady k h (lookNear h far line).2 := by
  cases far with
  | none => exact .refl h
  | some b => exact keepsReady_lookLine ..

theorem keepsReady_readHome (home : Bool × Hw) (s y n m : Nat) : KeepsReady k home.2 (readHome home s y n m).2.2 := by
  unfold readHome
  split_ifs
  · exact .refl _
  · exact keepsReady_stackRead ..

theorem keepsReady_fillLine (atHome : Bool) (copy : Option Nat) (m line : Nat) :
    KeepsReady k h (fillLine h atHome copy m line) := by
  have home : KeepsReady k h (if atHome then allocLine h m line else h) := by
    split_ifs
    · exact keepsReady_allocLine ..
    · exact .refl h
  cases copy with
  | none => exact home
  | some b => exact home.trans (keepsReady_fillRemote ..)

theorem keepsReady_lineRead (far : Option Nat) (pa s y n : Nat) : KeepsReady k h (lineRead h far pa s y n).2.2 := by
  rw [lineRead_eq]
  extract_lets far near home may atHome copy r
  have looked : KeepsReady k h r.2.2 :=
    (keepsReady_lookNear ..).trans ((keepsReady_lookLine ..).trans (keepsReady_readHome ..))
  split_ifs
  · exact keepsReady_stackRead ..
  · exact keepsReady_lookNear ..
  · exact looked
  · exact looked.trans (keepsReady_fillLine ..)

theorem keepsReady_lineWrite (pa s y : Nat) (bs : List Byte) : KeepsReady k h (lineWrite h pa s y bs) := by
  unfold lineWrite
  extract_lets line m g g'
  have counted : KeepsReady k h g := (keepsReady_writeCw h s y bs).trans (.of_regs rfl rfl)
  have stored : KeepsReady k g g' := by
    unfold g'
    split_ifs
    · exact .of_regs rfl rfl
    · exact .refl g
  split_ifs
  · exact counted.trans (stored.trans (keepsReady_dropLines ..))
  · exact counted.trans stored

end Sys2Proof.Machine
end

section
/-! PROOFS. STACK_STATUS.READY through translated accesses and what follows every command. -/

namespace Sys2Proof.Machine

variable {k : Nat} (h : Hw)

/-! Physical accesses -/

theorem keepsReady_modCmd (n : Nat) (f : Cmd → Cmd) : KeepsReady k h (modCmd h n f) := by
  unfold modCmd
  split
  · exact .refl h
  · exact .of_regs rfl rfl

theorem keepsReady_touchStack (who : Who) (s : Nat) : KeepsReady k h (touchStack h who s) := by
  rw [touchStack_frame]
  exact .of_regs rfl rfl

theorem keepsReady_logBoard (who : Who) (kind pa board : Nat) : KeepsReady k h (logBoard h who kind pa board) := by
  unfold logBoard
  refine keepsReady_logErr h ?_
  split <;> simp

theorem keepsReady_readPaPiece (who : Who) (pa n : Nat) : KeepsReady k h (readPaPiece h who pa n).2 := by
  unfold readPaPiece
  split
  · split_ifs
    · exact keepsReady_logBoard ..
    · exact .refl h
    all_goals exact (keepsReady_touchStack ..).trans (keepsReady_lineRead ..)
  · exact .refl h
  · split_ifs
    · exact .refl h
    · exact .of_regs rfl rfl
  · exact keepsReady_logBoard ..

theorem keepsReady_readPa (who : Who) (pa n : Nat) : KeepsReady k h (readPa h who pa n).2 := by
  have go (ps : List (Nat × Nat)) (h : Hw) (acc : List Byte) (poison : Option Nat) :
      KeepsReady k h (readPa.go who h acc poison ps).2 := by
    induction ps generalizing h acc poison with
    | nil => exact .refl h
    | cons p ps ih =>
      have piece := keepsReady_readPaPiece (k := k) h who p.1 p.2
      unfold readPa.go
      split
      · next e => rw [e] at piece; exact piece.trans (ih ..)
      · exact piece
  exact go _ h [] none

theorem keepsReady_writePaPiece (who : Who) (pa : Nat) (bs : List Byte) :
    KeepsReady k h (writePaPiece h who pa bs).2 := by
  unfold writePaPiece
  split
  · split_ifs
    · exact keepsReady_logBoard ..
    · exact .refl h
    · exact (keepsReady_touchStack ..).trans (keepsReady_lineWrite ..)
  · exact .of_regs rfl rfl
  · exact .refl h
  · exact keepsReady_logBoard ..

theorem keepsReady_writePa (who : Who) (pa : Nat) (bs : List Byte) : KeepsReady k h (writePa h who pa bs).2 := by
  have go (ps : List (Nat × Nat)) (h : Hw) (bs : List Byte) : KeepsReady k h (writePa.go who h bs ps).2 := by
    induction ps generalizing h bs with
    | nil => exact .refl h
    | cons p ps ih =>
      have piece := keepsReady_writePaPiece (k := k) h who p.1 (bs.take p.2)
      unfold writePa.go
      split
      · next e => rw [e] at piece; exact piece.trans (ih ..)
      · exact piece
  exact go _ h bs

/-! Translation -/

theorem keepsReady_setXcache (n : Nat) (c : XCache) : KeepsReady k h (setXcache h n c) := .of_regs rfl rfl

theorem keepsReady_follow (walker : Option Nat) (r va f l table : Nat) :
    KeepsReady k h (follow h walker r va f l table).2 := by
  induction f generalizing h l table with
  | zero => exact .refl h
  | succ f ih =>
    have read := keepsReady_readPa (k := k) h (castle (worldOf r))
      (table + va / 2 ^ levelShift l % levelEntries l * 8) 8
    simp only [follow]
    split_ifs
    · exact .refl h
    · split
      · next g e =>
        rw [e] at read
        have installed (b : Nat) (p : PointerEntry) : KeepsReady k g (installPointer g b p) := .of_regs rfl rfl
        split_ifs
        · exact read
        · exact read
        · exact read
        · cases walker with
          | none => exact read.trans (ih ..)
          | some b => exact read.trans ((installed ..).trans (ih ..))
        · exact read
      all_goals next e => rw [e] at read; exact read

theorem keepsReady_leafFor (who : Who) (va : Nat) : KeepsReady k h (leafFor h who va).2 := by
  unfold leafFor
  extract_lets r x c missed xlate walked start
  split
  · exact keepsReady_setXcache ..
  · have begun : KeepsReady k h walked := .of_regs rfl rfl
    have path := begun.trans (keepsReady_follow walked (some who.board) r va (4 - start.1) start.1 start.2)
    split
    · next e => rw [e] at path; exact path.trans (keepsReady_setXcache ..)
    · exact path

theorem keepsReady_translate (who : Who) (va : Nat) (acc : Acc) : KeepsReady k h (translate h who va acc).2 := by
  unfold translate
  split
  · exact .refl h
  · have leaf := keepsReady_leafFor (k := k) h who va
    unfold walk
    split_ifs
    · exact .refl h
    · split
      · next e => rw [e] at leaf; split_ifs <;> exact leaf
      all_goals next e => rw [e] at leaf; exact leaf

/-! Host memory -/

theorem KeepsButHost.ready {h h' : Hw} (a : KeepsButHost h h') : KeepsReady k h h' :=
  .of_reg (a.reg _ (by simp only [rHost, regOf, baseOf]; omega) (by simp only [rHost, regOf, baseOf]; omega))

theorem keepsReady_agentWriteLine (slot a : Nat) (bs : List Byte) : KeepsReady k h (agentWriteLine h slot a bs) := by
  unfold agentWriteLine
  extract_lets line cur new g rest
  have room : KeepsReady k h g := by
    unfold g makeAgentRoom
    dsimp only
    split_ifs
    · exact .refl h
    · split
      · exact (keepsButHost_writeBackLine ..).ready
      · exact .refl h
  exact room.trans ((keepsButHost_host ..).trans (keepsButHost_countAgent ..)).ready

/-- A run that writes bytes piece by piece. -/
theorem keepsReady_foldl_bytes {f : Hw → Nat → List Byte → Hw} (step : ∀ h a bs, KeepsReady k h (f h a bs))
    (ps : List (Nat × Nat)) (bs : List Byte) :
    KeepsReady k h (ps.foldl (fun r p => (f r.1 p.1 (r.2.take p.2), r.2.drop p.2)) (h, bs)).1 :=
  List.foldlRecOn ps _ (motive := fun r : Hw × List Byte => KeepsReady k h r.1) (.refl h)
    fun _ kept _ _ => kept.trans (step ..)

theorem keepsReady_hostWritePiece (slot a : Nat) (bs : List Byte) : KeepsReady k h (hostWritePiece h slot a bs) := by
  unfold hostWritePiece
  split
  · exact (keepsReady_modCmd ..).trans (.of_regs rfl rfl)
  · dsimp only
    split_ifs
    · exact (keepsReady_modCmd ..).trans
        (keepsReady_foldl_bytes _ (fun g a bs => keepsReady_agentWriteLine g slot a bs) ..)
    · exact (keepsReady_modCmd ..).trans (keepsButHost_hostIoWrite ..).ready

theorem keepsReady_hostWrite {slot a : Nat} {bs : List Byte} {h' : Hw} (e : hostWrite h slot a bs = some h') :
    KeepsReady k h h' := by
  unfold hostWrite at e
  split_ifs at e
  cases e
  exact keepsReady_foldl_bytes h (fun g a bs => keepsReady_hostWritePiece g slot a bs) ..

/-! Operations of the castle -/

/-- An operation leaves STACK_STATUS.READY of stack k, however it ends. -/
def RunKeepsReady (k : Nat) {α : Type} (m : Run α) : Prop := ∀ h, KeepsReady k h (runOn m h).2

theorem RunKeepsReady.bind {α β : Type} {m : Run α} {f : α → Run β} (a : RunKeepsReady k m)
    (b : ∀ x, RunKeepsReady k (f x)) : RunKeepsReady k (m >>= f) := by
  intro h
  have first := a h
  rw [runOn_bind]
  generalize runOn m h = r at first
  obtain ⟨_ | x, g⟩ := r
  · exact first
  · exact first.trans (b x g)

section
variable {who : Who} (own : who.slot = none)
include own

theorem keepsReady_noteHeld (pa : Nat) : KeepsReady k h (noteHeld h who pa) := by
  simp only [noteHeld, own, Option.bind_none, Bool.false_eq_true, if_false]
  split
  · exact keepsReady_setStackReg h _ (by decide) (by decide) _
  · exact .refl h

theorem keepsReady_xlateRun (va : Nat) (acc : Acc) : RunKeepsReady k (xlateRun who va acc) := by
  intro h
  have walked := keepsReady_translate (k := k) h who va acc
  unfold xlateRun
  rw [runOn_bind_ok runOn_get]
  generalize translate h who va acc = r at walked
  obtain ⟨walk, g⟩ := r
  cases walk with
  | held a => exact walked.trans (keepsReady_noteHeld g own a)
  | _ => exact walked

theorem keepsReady_wrPage (va : Nat) (bs : List Byte) : RunKeepsReady k (wrPage who va bs) := by
  refine (keepsReady_xlateRun own va .wr).bind fun x h => ?_
  obtain ⟨toHost, pa⟩ := x
  have alone (g : Hw) : racing g who va bs.length = [] := by simp only [racing, own, Option.bind_none]
  rw [runOn_bind_ok runOn_get]
  simp only [alone, if_true]
  cases toHost with
  | true =>
    simp only [if_true]
    cases e : hostWrite h (who.slot.getD noSlot) pa bs with
    | none => exact .refl h
    | some g => exact keepsReady_hostWrite h e
  | false =>
    simp only [Bool.false_eq_true, if_false]
    have stored := keepsReady_writePa (k := k) h { who with va := va } pa bs
    generalize writePa h { who with va := va } pa bs = r at stored
    obtain ⟨answer, g⟩ := r
    cases answer with
    | held => exact stored.trans (keepsReady_noteHeld g own pa)
    | _ => exact stored

theorem keepsReady_wr (va : Nat) (bs : List Byte) : RunKeepsReady k (wr who va bs) := by
  have go (ps : List (Nat × Nat)) (bs : List Byte) : RunKeepsReady k (wr.go who bs ps) := by
    induction ps generalizing bs with
    | nil => exact fun h => .refl h
    | cons p ps ih => exact (keepsReady_wrPage own p.1 (bs.take p.2)).bind fun _ => ih _
  exact go _ _

end

theorem keepsReady_castleFail (w : World) (f : Fail) : KeepsReady k h (castleFail h w f).2 := by
  cases f with
  | xlate va acc np =>
    have apart : regOf (.stack k) 4 ≠ rPermFaults := by simp only [regOf, baseOf, rPermFaults]; omega
    exact (keepsReady_setReg h apart _).trans (keepsReady_logErr _ (by simp))
  | _ => exact .refl h

theorem keepsReady_ringWrite (w : World) (hostLoc : Bool) (a : Nat) (bs : List Byte) :
    KeepsReady k h (ringWrite h w hostLoc a bs).2 := by
  unfold ringWrite
  split_ifs
  · exact (keepsButHost_hostIoWrite ..).ready
  · exact .refl h
  · have stored := keepsReady_wr (k := k) (who := castle w) rfl a bs h
    split
    · next e => rw [e] at stored; exact stored
    · next e => rw [e] at stored; exact stored.trans (keepsReady_castleFail ..)

/-! What follows every command -/

theorem keepsReady_errReg {r : Nat} (l : r < 0x10000) (v : Word) : KeepsReady k h (setReg h (regOf .err r) v) :=
  keepsReady_setReg h (by simp only [regOf, baseOf]; omega) v

theorem keepsReady_mirrorOne (r : ErrRec) : KeepsReady k h (mirrorOne h r).2 := by
  unfold mirrorOne
  extract_lets cfg size prod used
  split_ifs
  · exact .refl h
  · exact keepsReady_errReg h (by decide) _
  · have stored := keepsReady_ringWrite (k := k) h .nonSecure (bit cfg 6)
      (getReg64 h (regOf .err 0xA4) + prod.toNat % size * 64) (errBytes r true)
    split
    · next e => rw [e] at stored; exact stored.trans (keepsReady_errReg _ (by decide) _)
    · exact .refl h
    · next e => rw [e] at stored; exact stored.trans ((keepsReady_errReg _ (by decide) _).trans (.of_regs rfl rfl))

theorem keepsReady_errIrq (r : ErrRec) : KeepsReady k h (errIrq h r) := by
  unfold errIrq
  split_ifs
  · exact keepsReady_sendMsix h (by decide)
  · exact .refl h

theorem keepsReady_flushErrs (n : Nat) : KeepsReady k h (flushErrs n h) := by
  induction n generalizing h with
  | zero => exact .refl h
  | succ n ih =>
    unfold flushErrs
    split
    · exact .refl h
    · next r rs _ =>
      have taken : KeepsReady k h { h with errs := { h.errs with toMirror := rs } } := .of_regs rfl rfl
      have copied := taken.trans (keepsReady_mirrorOne _ r)
      split
      · next e => rw [e] at copied; exact copied.trans ((keepsReady_errIrq ..).trans (ih _))
      · exact .refl h

theorem keepsReady_settlePkg : KeepsReady k h (settlePkg h) := by
  unfold settlePkg
  split_ifs
  · exact keepsReady_setPkg ..
  · exact keepsReady_setPkg ..
  · exact .refl h

/-- What follows every command leaves STACK_STATUS.READY. -/
theorem stackReady_settle : stackReady (settle h) k = stackReady h k :=
  (keepsReady_flushErrs h _).trans (keepsReady_settlePkg _)

end Sys2Proof.Machine
end

section
/-! PROOFS. A lost stack that reads ready again: O47. -/

namespace Sys2Proof.Machine

/-! The statement speaks of every state, and a command there may name a completion ring beyond the 64: the field of the
model is a number, which the fetch alone keeps below 64 (R48). The final record that the stack's loss gives such a
command raises the interrupt vector of its ring (R52); where that vector is masked, its pending bit is set, and the
pending bits of vectors far beyond the 72 of the table lie over the registers of the stacks: bit 0 of STACK_STATUS of
stack 0, which the loss has just cleared, is the pending bit of the vector chosen here. -/

namespace StrayInterrupt

/-- The ring whose pending bit is bit 0 of STACK_STATUS of stack 0. -/
def ring : Nat := 32 * 0x77F801

/-- A command that has accessed stack 0, with IRQ set in its header, whose records go to that ring. -/
def cmd : Cmd :=
  { newCmd Hw.reset 0 (List.replicate 4 0 ++ [8] ++ List.replicate 123 0) with
    phase := .running, usedStacks := [0], target := ring }

/-- The package in READY with the host link up; the ring has room for a record in host memory and its interrupt on, and
its vector is masked. -/
def hw : Hw :=
  let h := setReg { Hw.reset with pkg := .ready, bringStep := 10, slots := [(0, cmd)] } rHostLink 2
  let h := setReg (setReg h (rRing ring 0x054) 1) (rRing ring 0x058) (3 <<< 28)
  setReg h (regOf .host (0x1000 + 16 * ring + 12)) 1

def state : State := { State.reset with hw := hw }

theorem package_on : hw.pkg ≠ .off ∧ hw.pkg ≠ .aux ∧ hw.pkg ≠ .resigned := by decide

theorem lost_reads_ready : stackReady (loseStack state.fuses.serial 0 hw) 0 = true := by decide +kernel

end StrayInterrupt

open StrayInterrupt in
/-- Refutes O47: the record of a command that uses the lost stack, and names a ring that does not exist, sets the
pending bit of an interrupt vector beyond the table, and that bit is READY of the stack. -/
theorem not_lossesResignThePackage : ¬ Obligations.LossesResignThePackage := by
  intro claim
  obtain ⟨losses, -⟩ := claim state
  obtain ⟨h', lost, -, unready, -⟩ := losses package_on 0
  have arm : effect (.stackLoss 0) state (loseStack state.fuses.serial 0 hw) := effect_of_onHw rfl
  have same : settle h' = settle (loseStack state.fuses.serial 0 hw) := by
    simpa using lost.symm.trans arm
  have ready : stackReady h' 0 = true := by
    rw [← stackReady_settle, same, stackReady_settle, lost_reads_ready]
  exact absurd (unready.symm.trans ready) (by decide)

end Sys2Proof.Machine
end

section
/-! PROOFS. The host window (R210-R212, R371, R376, R383): O36. -/

namespace Sys2Proof.Machine

variable {h h1 : Hw}

/-! Operations that the window uses -/

/-- Of the host's part a record reaches the messages to the host alone. -/
theorem host_logErr (h : Hw) (e : ErrEvent) :
    (logErr h e).host = { h.host with aerSent := (logErr h e).host.aerSent } := by
  have routed (g : Hw) (r : ErrRec) :
      (routeSeverity g r).host = { g.host with aerSent := (routeSeverity g r).host.aerSent } := by
    simp only [routeSeverity]
    split_ifs <;> rfl
  exact routed ..

theorem host_modCmd (h : Hw) (k : Nat) (f : Cmd → Cmd) : (modCmd h k f).host = h.host := by
  unfold modCmd
  split <;> rfl

theorem host_winSpoils (h : Hw) (x : WinAccess) : (winSpoils h x).host = h.host :=
  List.foldlRecOn _ _ (motive := fun g : Hw => g.host = h.host) rfl fun _ k _ _ => (host_modCmd ..).trans k

theorem mem_winSpoils (h : Hw) (x : WinAccess) : (winSpoils h x).mem = h.mem :=
  List.foldlRecOn _ _ (motive := fun g : Hw => g.mem = h.mem) rfl fun _ k _ _ => (mem_modCmd ..).trans k

theorem mem_waitWindow (h : Hw) (x : WinAccess) : (waitWindow h x).mem = h.mem := by
  unfold waitWindow
  split <;> rfl

theorem winQueue_waitWindow (h : Hw) (x : WinAccess) : (waitWindow h x).host.winQueue = h.host.winQueue ++ [x] := by
  unfold waitWindow
  split <;> rfl

/-! Accesses that are served -/

section
variable {x : WinAccess} {bs : List Byte} {p : Option Nat} (clear : winRaces h x = [])
include clear

/-- A read that meets no output of a pawn command is answered with the bytes of its place. -/
theorem serveOne_of_read (op : x.op.write = false) (read : readPa h winWho x.pa x.len = (.bytes bs p, h1)) :
    serveOne h x = some (answerWin (countWin h1 x.len 0) bs p.isSome) := by
  simp [serveOne, op, clear, read]

/-- A write that meets none is made and counted, and spoils the outputs of the commands whose pages it meets. -/
theorem serveOne_of_write (op : x.op.write = true) (wrote : writePa h winWho x.pa x.bytes = (.bytes bs p, h1)) :
    serveOne h x = some (countWin (winSpoils h1 x) 0 x.len) := by
  simp [serveOne, op, clear, wrote]

end

theorem readWaits_of_write {x : WinAccess} (op : x.op.write = true) (q : List WinAccess) : readWaits h q x = false := by
  simp [readWaits, op]

/-! WINDOW_ACCESS -/

/-- The bytes that a window access moves. -/
def winLen (op : WinOp) (len : Nat) (bytes : List Byte) : Nat := if op.write = true then bytes.length else len

/-- The access that a WINDOW_ACCESS makes. -/
def winAccess (h : Hw) (op : WinOp) (off len : Nat) (bytes : List Byte) : WinAccess :=
  { op := op, off := off, pa := winBase h + off, len := winLen op len bytes, bytes := bytes }

/-- The hardware once a refused access has been counted and recorded (R376). -/
def winRefusal (h : Hw) (off : Nat) : Hw :=
  logErr (bumpSat h (rHost 0x18) 1) { source := 8, kind := 1, severity := 2, addr := off }

/-- A refusal counts in WIN_REJECTS, and changes no memory and answers nothing. -/
theorem winRefusal_frame (h : Hw) (off : Nat) : (winRefusal h off).mem = h.mem ∧
    getReg (winRefusal h off) (rHost 0x18) = satAdd (getReg h (rHost 0x18)) 1 ∧
    (winRefusal h off).host.winAnswers = h.host.winAnswers := by
  refine ⟨(logErr_frame _).1, (getReg_errRecord _ ?last ?count).trans (getReg_setReg_self ..),
    congrArg HostAux.winAnswers (host_logErr ..)⟩
  case last => decide
  case count => simp [rHost, regOf, baseOf]

section
variable {op : WinOp} {off len : Nat} {bytes : List Byte}

theorem windowHw_of_no_path (no : pathUp h op.path = false ∨ winLen op len bytes = 0) :
    windowHw op off len bytes h = h := if_pos (by simpa [winLen] using no)

variable (path : pathUp h op.path = true) (pos : 0 < winLen op len bytes)
include path pos

/-- On a path that is there: the answer while commands may not run, the refusal, the service or the wait. -/
theorem windowHw_of_path : windowHw op off len bytes h =
    if working h = false then (if op.write then h else answerWin h (List.replicate (winLen op len bytes) 0) false)
    else if winRefused h off (winLen op len bytes) = true then
      if op.write then winRefusal h off
      else answerWin (winRefusal h off) (List.replicate (winLen op len bytes) 0xFF) false
    else (serveTurn h h.host.winQueue (winAccess h op off len bytes)).getD
      (waitWindow h (winAccess h op off len bytes)) := by
  unfold windowHw
  refine (if_neg (not_or.mpr ⟨by simp [path], pos.ne'⟩)).trans (if_congr (by simp) rfl (if_congr Iff.rfl rfl ?_))
  change (match serveTurn h h.host.winQueue (winAccess h op off len bytes) with | some h => h | none => _) = _
  cases serveTurn h h.host.winQueue (winAccess h op off len bytes) <;> rfl

/-- An access that passes is served, where its turn has come and its stack lets it. -/
theorem windowHw_of_served (works : working h = true) (may : winRefused h off (winLen op len bytes) = false)
    (turn : readWaits h h.host.winQueue (winAccess h op off len bytes) = false)
    (served : serveOne h (winAccess h op off len bytes) = some h1) : windowHw op off len bytes h = h1 := by
  have turn : serveTurn h h.host.winQueue (winAccess h op off len bytes) = some h1 := by simp [serveTurn, turn, served]
  rw [windowHw_of_path path pos, if_neg (by simp [works]), if_neg (by simp [may]), turn, Option.getD_some]

/-- Else it waits. -/
theorem windowHw_of_waits (works : working h = true) (may : winRefused h off (winLen op len bytes) = false)
    (waits : readWaits h h.host.winQueue (winAccess h op off len bytes) = true ∨
      serveOne h (winAccess h op off len bytes) = none) :
    windowHw op off len bytes h = waitWindow h (winAccess h op off len bytes) := by
  have turn : serveTurn h h.host.winQueue (winAccess h op off len bytes) = none := by
    rcases waits with w | w <;> simp [serveTurn, w]
  rw [windowHw_of_path path pos, if_neg (by simp [works]), if_neg (by simp [may]), turn, Option.getD_none]

theorem windowHw_of_idle (idle : working h = false) : windowHw op off len bytes h =
    if op.write then h else answerWin h (List.replicate (winLen op len bytes) 0) false := by
  rw [windowHw_of_path path pos, if_pos idle]

/-- A refused access is counted and recorded, and a read is answered with all ones (R376). -/
theorem windowHw_of_refused (works : working h = true) (no : winRefused h off (winLen op len bytes) = true) :
    (windowHw op off len bytes h).mem = h.mem ∧
    getReg (windowHw op off len bytes h) (rHost 0x18) = satAdd (getReg h (rHost 0x18)) 1 ∧
    (windowHw op off len bytes h).host.winAnswers = h.host.winAnswers ++
      (if op.write = true then [] else [WinAnswer.mk (List.replicate (winLen op len bytes) 0xFF) false]) := by
  rw [windowHw_of_path path pos, if_neg (by simp [works]), if_pos no]
  obtain ⟨mem, reg, answers⟩ := winRefusal_frame h off
  generalize winRefusal h off = g at mem reg answers ⊢
  cases op.write
  · exact ⟨mem, reg, congrArg (· ++ _) answers⟩
  · exact ⟨mem, reg, answers.trans (List.append_nil _).symm⟩

end

/-! WINDOW_ACCESS_TIMEOUT -/

/-- The oldest waiting access ends (R212): a read is answered with poison, a write is dropped. -/
theorem windowTimeoutHw_of_cons {y : WinAccess} {rest : List WinAccess} (waits : h.host.winQueue = y :: rest) :
    (windowTimeoutHw h).host.winQueue = rest ∧ (windowTimeoutHw h).mem = h.mem ∧
    (y.op.write = false → ∃ bs, bs.length = y.len ∧
      (windowTimeoutHw h).host.winAnswers = h.host.winAnswers ++ [WinAnswer.mk bs true]) ∧
    (y.op.write = true → (windowTimeoutHw h).host.winAnswers = h.host.winAnswers) := by
  unfold windowTimeoutHw
  rw [waits]
  dsimp only
  split_ifs with op
  · rw [(logErr_frame _).1, host_logErr]
    exact ⟨rfl, rfl, by simp [op], fun _ => rfl⟩
  · rw [(logErr_frame _).1, host_logErr]
    exact ⟨rfl, rfl, fun _ => ⟨_, by simp, rfl⟩, by simp [op]⟩

/-- Settles O36: each outcome of an access by its equation. -/
theorem hostWindow : Obligations.HostWindow := by
  intro op off len bytes s n x passes
  have access : effect (.windowAccess op off len bytes) s (windowHw op off.toNat len bytes s.hw) := effect_of_onHw rfl
  refine ⟨fun path pos => ⟨fun idle => ?idle, fun works no => ?refused, fun ⟨works, may⟩ waits => ?waits,
    fun ⟨works, may⟩ read turn clear bs p h1 answer => ?read,
    fun ⟨works, may⟩ write clear bs p h1 answer => ?write⟩, fun no => ?noPath,
    fun y rest waits => ⟨_, effect_of_onHw rfl, windowTimeoutHw_of_cons waits⟩⟩
  case idle =>
    refine ⟨_, access, ?_⟩
    rw [windowHw_of_idle path pos idle]
    cases write : op.write <;> simp [answerWin, winLen, n, write]
  case refused => exact ⟨_, access, windowHw_of_refused path pos works no⟩
  case waits =>
    refine ⟨_, access, ?_⟩
    rw [windowHw_of_waits path pos works may waits]
    exact ⟨mem_waitWindow .., winQueue_waitWindow ..⟩
  case read =>
    refine ⟨_, access, ?_⟩
    rw [windowHw_of_served path pos works may turn (serveOne_of_read clear read answer)]
    exact ⟨rfl, rfl⟩
  case write =>
    refine ⟨_, access, ?_⟩
    rw [windowHw_of_served path pos works may (readWaits_of_write write _) (serveOne_of_write clear write answer)]
    have answers := congrArg HostAux.winAnswers (host_winSpoils h1 (winAccess s.hw op off.toNat len bytes))
    exact ⟨mem_winSpoils .., answers⟩
  case noPath => rwa [windowHw_of_no_path no] at access

end Sys2Proof.Machine
end

section
/-! PROOFS. Pawn commands and the token budget (R206-R208, R218, R220): O51. -/

namespace Sys2Proof.Machine

variable {h : Hw} {slot s : Nat}

/-! A pawn command that goes through -/

/-- A pawn command whose work goes through runs to the end of that work. -/
theorem pawnRun_of_pawnEnds {j : PawnJob} {c : Cmd} {st d0 d1 : Nat} {h' : Hw}
    (e : pawnEnds slot j c h st d0 d1 h') : pawnRun slot j c h = h' := by
  obtain ⟨gs, h1, h2, h3, c2, c3, checked, gate, ran, at2, shares, result, -, rfl⟩ := e
  have whole : runOn (do let gs ← pawnCheck slot j c
                         pawnGate slot j
                         runTokens slot j gs 16384
                         pure gs) h = (.ok gs, h2) := by
    rw [runOn_bind_ok checked, runOn_bind_ok gate, runOn_bind_ok ran]
    rfl
  simp only [pawnRun, whole, at2, shares, result, if_true]

theorem ended_of_pawnEnds {j : PawnJob} {c : Cmd} {st d0 d1 : Nat} {h' : Hw}
    (e : pawnEnds slot j c h st d0 d1 h') : ended h' slot st d0 d1 := by
  obtain ⟨_, _, _, _, _, _, _, _, _, _, _, _, at3, rfl⟩ := e
  exact ended_finish at3

/-- An opcode of the pawns, of which no command holds tiles, ends as its job does. -/
theorem endsAs_of_pawnRun {i : SlotId → Instr} {op : Nat} {job : Nat → Cmd → PawnJob}
    (free : holdsTiles op = false)
    (arm : ∀ k s, exec (i k) s = onHw (withCmd k.val op fun c h => pawnRun k.val (job k.val c) c h) s)
    {k : SlotId} {s : State} {c : Cmd} {st d0 d1 : Nat} {h' : Hw} (r : ready s.hw k.val op c)
    (e : pawnEnds k.val (job k.val c) c s.hw st d0 d1 h') : effect (i k) s h' ∧ ended h' k.val st d0 d1 := by
  have whole := effect_of_onHw (arm k s)
  rw [withCmd_of_ready r free, pawnRun_of_pawnEnds e] at whole
  exact ⟨whole, ended_of_pawnEnds e⟩

/-! Grants -/

/-- The requests for pawns of a stack that may be granted: the pawn's token is not held. -/
def openRequests (h : Hw) (s : Nat) : List (Nat × Nat) :=
  h.tokenWaits.filter fun w => w.2 / 512 = s && (smFind h.tokens w.2).isNone

/-- A request, of a slot for a pawn, gets its token. -/
def grantOne (h : Hw) (w : Nat × Nat) : Hw :=
  { h with tokens := smPut h.tokens w.2 (w.1, false), tokenWaits := h.tokenWaits.erase w }

/-- What a turn of granting can do: nothing, at the limit or without a request, or one grant below the limit. -/
theorem grantTokens_succ_cases (f : Nat) (h : Hw) (s : Nat) :
    ((limitEff h s ≤ holdersOf h s ∨ openRequests h s = []) ∧ grantTokens (f + 1) h s = h) ∨
    (holdersOf h s < limitEff h s ∧
      ∃ w ∈ openRequests h s, grantTokens (f + 1) h s = grantTokens f (grantOne h w) s) := by
  have turn : grantTokens (f + 1) h s = if limitEff h s ≤ holdersOf h s then h else
      match openRequests h s with
      | [] => h
      | w :: r => grantTokens f (grantOne h (r.foldl (fun b x => if waitsBefore h x b then x else b) w)) s := rfl
  by_cases full : limitEff h s ≤ holdersOf h s
  · exact .inl ⟨.inl full, turn.trans (if_pos full)⟩
  rw [if_neg full] at turn
  cases requests : openRequests h s with
  | nil => exact .inl ⟨.inr rfl, by rw [turn, requests]⟩
  | cons w r =>
    refine .inr ⟨Nat.lt_of_not_le full, _, ?_, by rw [turn, requests]⟩
    refine List.foldlRecOn r _ (motive := (· ∈ w :: r)) (by simp) fun b is x m => ?_
    split_ifs
    · exact List.mem_cons_of_mem _ m
    · exact is

/-- Without a request that may be granted, none is. -/
theorem grantTokens_of_none (none_ : openRequests h s = []) (f : Nat) : grantTokens f h s = h := by
  cases f with
  | zero => rfl
  | succ f =>
    obtain ⟨-, e⟩ | ⟨-, w, m, -⟩ := grantTokens_succ_cases f h s
    · exact e
    · simp [none_] at m

/-- At the limit no request is granted. -/
theorem grantTokens_of_full (full : limitEff h s ≤ holdersOf h s) (f : Nat) : grantTokens f h s = h := by
  cases f with
  | zero => rfl
  | succ f =>
    obtain ⟨-, e⟩ | ⟨room, -⟩ := grantTokens_succ_cases f h s
    · exact e
    · omega

theorem filter_smPut_length_le {α : Type} (p : Nat × α → Bool) (m : List (Nat × α)) (k : Nat) (v : α) :
    ((smPut m k v).filter p).length ≤ (m.filter p).length + 1 := by
  have inserted (l : List (Nat × α)) : (smInsert k v l).Perm ((k, v) :: l) := by
    induction l with
    | nil => exact .refl _
    | cons e r ih =>
      simp only [smInsert]
      split_ifs
      · exact .refl _
      · exact (ih.cons e).trans (.swap ..)
  have dropped : ((smDel m k).filter p).length ≤ (m.filter p).length := (List.filter_sublist.filter p).length_le
  have kept : (((k, v) :: smDel m k).filter p).length ≤ ((smDel m k).filter p).length + 1 := by
    rw [List.filter_cons]
    split_ifs <;> simp
  rw [smPut, ((inserted _).filter p).length_eq]
  omega

/-- A grant adds at most one holder. -/
theorem holdersOf_grantOne_le (w : Nat × Nat) : holdersOf (grantOne h w) s ≤ holdersOf h s + 1 :=
  filter_smPut_length_le ..

/-- Grants never bring a stack above its limit (R208): each is made below it and adds at most one holder. -/
theorem holdersOf_grantTokens_le (f s : Nat) (h : Hw) :
    holdersOf (grantTokens f h s) s ≤ max (limitEff h s) (holdersOf h s) := by
  induction f generalizing h with
  | zero => exact le_max_right ..
  | succ f ih =>
    obtain ⟨-, e⟩ | ⟨room, w, -, e⟩ := grantTokens_succ_cases f h s
    · rw [e]
      exact le_max_right ..
    · have rest := ih (grantOne h w)
      have limit : limitEff (grantOne h w) s = limitEff h s := rfl
      have one := holdersOf_grantOne_le (h := h) (s := s) w
      rw [e]
      omega

/-! The return of a token -/

/-- The token of a pawn given up, and asked for again behind the requests that wait. -/
def askedAgain (h : Hw) (slot key : Nat) : Hw :=
  { h with tokens := smDel h.tokens key, tokenWaits := h.tokenWaits ++ [(slot, key)] }

theorem effect_tokenReturn (k : StackId) (p : Fin 512) (s : State) :
    effect (.tokenReturn k p) s (tokenReturnHw k.val p.val s.hw) := effect_of_onHw rfl

theorem tokenReturnHw_of_spent {p : Nat} (spent : smFind h.tokens (pawnKey s p) = some (slot, true)) :
    tokenReturnHw s p h = grantTokens 512 (askedAgain h slot (pawnKey s p)) s := by
  rw [tokenReturnHw, spent]
  rfl

theorem tokenReturnHw_of_not_spent {p : Nat} (n : ∀ slot, smFind h.tokens (pawnKey s p) ≠ some (slot, true)) :
    tokenReturnHw s p h = h := by
  unfold tokenReturnHw
  split
  · next slot spent => exact absurd spent (n slot)
  · rfl

theorem pawnKey_div (s : Nat) {p : Nat} (l : p < 512) : pawnKey s p / 512 = s := by
  rw [pawnKey]
  omega

variable {key : Nat}

/-- Requests for other stacks are none that may be granted. -/
theorem openRequests_of_others (others : ∀ x ∈ h.tokenWaits, x.2 / 512 ≠ s) : openRequests h s = [] :=
  List.filter_eq_nil_iff.mpr fun x m => by simp [others x m]

/-- Where no other request waits for the stack, the pawn's own is the one that may be granted. -/
theorem openRequests_askedAgain (own : key / 512 = s) (others : ∀ x ∈ h.tokenWaits, x.2 / 512 ≠ s) :
    openRequests (askedAgain h slot key) s = [(slot, key)] := by
  have behind : openRequests (askedAgain h slot key) s =
      openRequests { h with tokens := smDel h.tokens key } s ++ [(slot, key)] := by
    simp [openRequests, askedAgain, List.filter_append, own, smFind_smDel]
  rw [behind, openRequests_of_others (h := { h with tokens := smDel h.tokens key }) others, List.nil_append]

/-- A pawn that alone asks, below the limit, gets its token back fresh. -/
theorem grantTokens_askedAgain (f : Nat) (own : key / 512 = s) (others : ∀ x ∈ h.tokenWaits, x.2 / 512 ≠ s)
    (room : holdersOf (askedAgain h slot key) s < limitEff h s) :
    grantTokens (f + 1) (askedAgain h slot key) s = grantOne (askedAgain h slot key) (slot, key) ∧
    (grantOne (askedAgain h slot key) (slot, key)).tokenWaits = h.tokenWaits := by
  have limit : limitEff (askedAgain h slot key) s = limitEff h s := rfl
  have requests := openRequests_askedAgain (slot := slot) own others
  have fresh : (slot, key) ∉ h.tokenWaits := fun m => others _ m own
  have left : (grantOne (askedAgain h slot key) (slot, key)).tokenWaits = h.tokenWaits := by
    simp [grantOne, askedAgain, List.erase_append_right _ fresh]
  refine ⟨?_, left⟩
  obtain ⟨full | empty, -⟩ | ⟨-, w, m, e⟩ := grantTokens_succ_cases f (askedAgain h slot key) s
  · omega
  · simp [requests] at empty
  · obtain rfl : w = (slot, key) := by simpa [requests] using m
    exact e.trans (grantTokens_of_none (openRequests_of_others (left.symm ▸ others)) f)

/-- Settles O51: the three opcodes by one lemma over their jobs, the return by what a turn of granting can do. -/
theorem pawnsWorkUnderTokens : Obligations.PawnsWorkUnderTokens := by
  refine ⟨fun slot s c st d0 d1 h' => ⟨?pawnOp, ?digest, ?gemv⟩,
    fun k p s => ⟨fun n => ?unspent, fun slot spent => ?spent⟩, fun n k h => holdersOf_grantTokens_le n k h⟩
  case pawnOp => exact endsAs_of_pawnRun (job := pawnOpJob) rfl fun _ _ => rfl
  case digest => exact endsAs_of_pawnRun (job := digestJob) rfl fun _ _ => rfl
  case gemv => exact endsAs_of_pawnRun (job := gemvJob) rfl fun _ _ => rfl
  case unspent =>
    have whole := effect_tokenReturn k p s
    rwa [tokenReturnHw_of_not_spent n] at whole
  case spent =>
    have own := pawnKey_div k.val p.isLt
    have whole := tokenReturnHw_of_spent spent
    refine ⟨_, effect_tokenReturn k p s, ?frame, fun full => ?full, fun room others => ?room⟩
    case frame =>
      obtain ⟨t, w, e⟩ := grantTokens_frame 512 (askedAgain s.hw slot (pawnKey k.val p.val)) k.val
      rw [whole, e]
      rfl
    case full =>
      have same : tokenReturnHw k.val p.val s.hw = askedAgain s.hw slot (pawnKey k.val p.val) :=
        whole.trans (grantTokens_of_full full 512)
      rw [same]
      exact ⟨by simp [askedAgain, smFind_smDel], rfl⟩
    case room =>
      obtain ⟨granted, waits⟩ := grantTokens_askedAgain (slot := slot) 511 own others room
      rw [whole, granted]
      exact ⟨by simp [grantOne, smFind_smPut], waits⟩

end Sys2Proof.Machine
end

section
/-! PROOFS. How far the work of commands reaches: accesses, cells, error records, the ends of commands and of
collectives and the loss of links, as one frame. -/

namespace Sys2Proof.Machine

/-- The registers that work and its ends write: those of the tiles, the stacks and the boards, the low ones of the
ports, the error block's, and the counters of collectives. -/
def workReg (o : Nat) : Prop :=
  0x1000000 ≤ o ∨ (∃ q r, r < 0x100 ∧ o = rPort q r) ∨ (0x700000 ≤ o ∧ o < 0x700100) ∨ o = 0x504060 ∨ o = 0x504064

/-- A state with the parts that work reaches of another. -/
def withWorkOf (h h' : Hw) : Hw :=
  { h with
    regs := h'.regs, freeRegs := h'.freeRegs, mem := h'.mem, symErrs := h'.symErrs, poison := h'.poison
    stackAux := h'.stackAux, tilesAux := h'.tilesAux, caches := h'.caches, xlate := h'.xlate, slots := h'.slots
    order := h'.order, fabric := h'.fabric, ports := h'.ports, colls := h'.colls, streams := h'.streams
    ckpt := h'.ckpt, host := h'.host, pins := h'.pins, errs := h'.errs, tokens := h'.tokens
    tokenWaits := h'.tokenWaits, draws := h'.draws }

/-- Work and its ends reach at most these registers and these parts of the hardware, and bring no collective to life. -/
structure WorkReach (h h' : Hw) : Prop where
  reg : ∀ o, ¬ workReg o → getReg h' o = getReg h o
  colls : h'.colls ⊆ h.colls
  rest : h' = withWorkOf h h'

/-- What writes no register and starts no collective reaches within its frame. -/
theorem WorkReach.of_rest {h h' : Hw} (regs : h'.regs = h.regs) (free : h'.freeRegs = h.freeRegs)
    (colls : h'.colls = h.colls) (rest : h' = withWorkOf h h') : WorkReach h h' :=
  ⟨fun o _ => by rw [getReg, getReg, regs, free], colls ▸ List.Subset.refl _, rest⟩

theorem WorkReach.refl (h : Hw) : WorkReach h h := ⟨fun _ _ => rfl, List.Subset.refl _, rfl⟩

theorem WorkReach.trans {h g k : Hw} (a : WorkReach h g) (b : WorkReach g k) : WorkReach h k :=
  ⟨fun o n => (b.reg o n).trans (a.reg o n), List.Subset.trans b.colls a.colls, by rw [b.rest, a.rest]; rfl⟩

/-- What each operation of a sequence reaches, the sequence reaches. -/
theorem WorkReach.foldl {α : Type} {f : Hw → α → Hw} (step : ∀ h x, WorkReach h (f h x)) (xs : List α) (h : Hw) :
    WorkReach h (xs.foldl f h) :=
  List.foldlRecOn xs f (motive := WorkReach h) (.refl h) fun g k x _ => k.trans (step g x)

theorem WorkReach.supplies {h h' : Hw} (w : WorkReach h h') : h'.supplies = h.supplies := by rw [w.rest, withWorkOf]

variable (h : Hw)

/-! Registers -/

theorem WorkReach.setReg {o : Nat} (w : workReg o) (v : Word) : WorkReach h (setReg h o v) :=
  ⟨fun _ n => getReg_setReg_ne h v fun e => n (e ▸ w), List.Subset.refl _, rfl⟩

theorem WorkReach.bumpSat {o : Nat} (w : workReg o) (n : Nat) : WorkReach h (bumpSat h o n) := .setReg h w _

theorem WorkReach.setRegBit {o : Nat} (w : workReg o) (i : Nat) (b : Bool) : WorkReach h (setRegBit h o i b) :=
  .setReg h w _

theorem workReg_tile {t r : Nat} : workReg (regOf (.tile t) r) := by simp only [workReg, regOf, baseOf]; omega
theorem workReg_stack {s r : Nat} : workReg (regOf (.stack s) r) := by simp only [workReg, regOf, baseOf]; omega
theorem workReg_board {b r : Nat} : workReg (regOf (.board b) r) := by simp only [workReg, regOf, baseOf]; omega
theorem workReg_port {q r : Nat} (l : r < 0x100) : workReg (rPort q r) := .inr (.inl ⟨q, r, l, rfl⟩)
theorem workReg_colls : workReg 0x504060 := .inr (.inr (.inr (.inl rfl)))
theorem workReg_ended : workReg 0x504064 := .inr (.inr (.inr (.inr rfl)))

/-- An error record reaches the registers of its block, the queue of the host and the pins. -/
theorem workReach_errRecord {e : ErrEvent} (l : e.severity ≤ 4) : WorkReach h (errRecord h e).2 := by
  have apart {o r : Nat} (n : ¬ workReg o) (low : r < 0x100) : o ≠ regOf .err r := fun x =>
    n (.inr (.inr (.inl (by simp only [x, regOf, baseOf]; omega))))
  refine ⟨fun o n => getReg_errRecord h (apart n (r := 4) (by decide)) (apart n (by omega)), ?_, ?_⟩
  · exact (logErr_frame (h := h) e).2.2.2.1 ▸ List.Subset.refl _
  · show logErr h e = withWorkOf h (logErr h e)
    rw [logErr_rest]
    rfl

theorem workReach_logErr {e : ErrEvent} (l : e.severity ≤ 4) : WorkReach h (logErr h e) := workReach_errRecord h l

/-! The stacks and the board caches -/

theorem workReach_setStackAux (s : Nat) (a : StackAux) : WorkReach h (setStackAux h s a) :=
  .of_rest rfl rfl rfl rfl

theorem workReach_setCacheAux (b : Nat) (a : CacheAux) : WorkReach h (setCacheAux h b a) :=
  .of_rest rfl rfl rfl rfl

theorem workReach_dropLines (p : Nat → Nat → Bool) : WorkReach h (dropLines h p) :=
  .of_rest rfl rfl rfl rfl

theorem workReach_logStackEvent (s y kind symbol : Nat) : WorkReach h (logStackEvent h s y kind symbol) :=
  (WorkReach.setReg h workReg_stack _).trans ((WorkReach.setReg _ workReg_stack _).trans (.setReg _ workReg_stack _))

theorem workReach_trackRow (s y : Nat) : WorkReach h (trackRow h s y) := by
  simp only [trackRow]
  split_ifs
  · exact workReach_setStackAux ..
  · exact workReach_setStackAux ..
  · exact (workReach_setStackAux ..).trans ((WorkReach.setRegBit _ workReg_stack ..).trans (workReach_logErr _ (by simp)))

theorem workReach_correctCw (s y symbol : Nat) : WorkReach h (correctCw h s y symbol) :=
  (WorkReach.bumpSat h workReg_stack _).trans <| (WorkReach.setRegBit _ workReg_stack ..).trans <|
    (workReach_logStackEvent ..).trans <| (workReach_trackRow ..).trans (workReach_setStackAux ..)

theorem workReach_takePoison (s y : Nat) : WorkReach h (takePoison h s y) := by
  have marked : WorkReach h (setCwErrs (setPoison h (cwOf s y) true) (cwOf s y) []) :=
    .of_rest rfl rfl rfl rfl
  simp only [takePoison]
  split_ifs
  · exact marked
  · exact marked.trans ((workReach_setStackAux ..).trans (.setReg _ workReg_stack _))

theorem workReach_poisonCw (s y symbol : Nat) : WorkReach h (poisonCw h s y symbol) :=
  (workReach_takePoison ..).trans <| (WorkReach.bumpSat _ workReg_stack _).trans <|
    (WorkReach.setRegBit _ workReg_stack ..).trans <| (workReach_logStackEvent ..).trans
      (workReach_logErr _ (by simp))

theorem workReach_stackRead (s y n k : Nat) : WorkReach h (stackRead h s y n k).2.2 := by
  have checked : WorkReach h (checkCw h s y).2 := by
    simp only [checkCw]
    split_ifs
    · exact .refl h
    · split
      · exact .refl h
      · exact workReach_correctCw ..
      · exact workReach_poisonCw ..
  exact checked.trans (workReach_setStackAux ..)

theorem workReach_allocLine (b line : Nat) : WorkReach h (allocLine h b line) := by
  simp only [allocLine]
  split
  · exact (workReach_dropLines ..).trans (workReach_setCacheAux ..)
  · exact workReach_setCacheAux ..

theorem workReach_lookLine (b line : Nat) : WorkReach h (lookLine h b line).2 := by
  simp only [lookLine]
  split
  · exact workReach_setCacheAux ..
  · split_ifs
    · exact (workReach_dropLines ..).trans ((WorkReach.bumpSat _ workReg_board _).trans (workReach_setCacheAux ..))
    · exact workReach_setCacheAux ..

theorem workReach_lookNear (far : Option Nat) (line : Nat) : WorkReach h (lookNear h far line).2 := by
  cases far with
  | none => exact .refl h
  | some b => exact workReach_lookLine ..

theorem workReach_readHome (home : Bool × Hw) (s y n m : Nat) : WorkReach home.2 (readHome home s y n m).2.2 := by
  unfold readHome
  split_ifs
  · exact .refl _
  · exact workReach_stackRead ..

theorem workReach_fillLine (atHome : Bool) (copy : Option Nat) (m line : Nat) :
    WorkReach h (fillLine h atHome copy m line) := by
  have home : WorkReach h (if atHome then allocLine h m line else h) := by
    split_ifs
    · exact workReach_allocLine ..
    · exact .refl h
  have evicted (g : Hw) : WorkReach g (evictOldest g m) := by
    unfold evictOldest
    split
    · split_ifs
      · exact workReach_dropLines ..
      · exact .refl g
    · exact .refl g
  have taken (g : Hw) (b : Nat) : WorkReach g (takeCopy g b m line) :=
    (workReach_allocLine ..).trans ((workReach_setCacheAux ..).trans (workReach_setCacheAux ..))
  cases copy with
  | none => exact home
  | some b =>
    have filled (g : Hw) : WorkReach g (fillRemote g b m line) :=
      fillRemote_eq g b m line ▸ (evicted g).trans (taken _ b)
    exact home.trans (filled _)

theorem workReach_lineRead (far : Option Nat) (pa s y n : Nat) : WorkReach h (lineRead h far pa s y n).2.2 := by
  rw [lineRead_eq]
  extract_lets far near home may atHome copy r
  have looked : WorkReach h r.2.2 :=
    (workReach_lookNear ..).trans ((workReach_lookLine ..).trans (workReach_readHome ..))
  split_ifs
  · exact workReach_stackRead ..
  · exact workReach_lookNear ..
  · exact looked
  · exact looked.trans (workReach_fillLine ..)

/-! Accesses and translation -/

theorem workReach_modCmd (k : Nat) (f : Cmd → Cmd) : WorkReach h (modCmd h k f) := by
  unfold modCmd
  split
  · exact .refl h
  · exact .of_rest rfl rfl rfl rfl

theorem workReach_logBoard (who : Who) (kind pa board : Nat) : WorkReach h (logBoard h who kind pa board) := by
  unfold logBoard
  refine workReach_logErr h ?_
  split <;> simp

theorem workReach_readPaPiece (who : Who) (pa n : Nat) : WorkReach h (readPaPiece h who pa n).2 := by
  have touched (s : Nat) : WorkReach h (touchStack h who s) := by
    unfold touchStack
    split
    · exact .refl h
    · exact workReach_modCmd ..
  unfold readPaPiece
  split
  · split_ifs
    · exact workReach_logBoard ..
    · exact .refl h
    all_goals exact (touched _).trans (workReach_lineRead ..)
  · exact .refl h
  · split_ifs
    · exact .refl h
    · exact .of_rest rfl rfl rfl rfl
  · exact workReach_logBoard ..

theorem workReach_readPa (who : Who) (pa n : Nat) : WorkReach h (readPa h who pa n).2 := by
  have go (ps : List (Nat × Nat)) (g : Hw) (acc : List Byte) (poison : Option Nat) :
      WorkReach g (readPa.go who g acc poison ps).2 := by
    induction ps generalizing g acc poison with
    | nil => exact .refl g
    | cons p ps ih =>
      have piece := workReach_readPaPiece g who p.1 p.2
      unfold readPa.go
      split
      · next e => rw [e] at piece; exact piece.trans (ih ..)
      · exact piece
  exact go ..

theorem workReach_setXcache (k : Nat) (c : XCache) : WorkReach h (setXcache h k c) :=
  .of_rest rfl rfl rfl rfl

theorem workReach_follow (walker : Option Nat) (r va f l table : Nat) :
    WorkReach h (follow h walker r va f l table).2 := by
  induction f generalizing h l table with
  | zero => exact .refl h
  | succ f ih =>
    have read := workReach_readPa h (castle (worldOf r)) (table + va / 2 ^ levelShift l % levelEntries l * 8) 8
    have installed (g : Hw) (b : Nat) (e : PointerEntry) : WorkReach g (installPointer g b e) :=
      .of_rest rfl rfl rfl rfl
    simp only [follow]
    split_ifs
    · exact .refl h
    · split
      · next g e =>
        rw [e] at read
        split_ifs
        · exact read
        · exact read
        · exact read
        · cases walker with
          | none => exact read.trans (ih ..)
          | some b => exact read.trans ((installed ..).trans (ih ..))
        · exact read
      all_goals next e => rw [e] at read; exact read

theorem workReach_leafFor (who : Who) (va : Nat) : WorkReach h (leafFor h who va).2 := by
  cases look : (xcache h (xcacheOf h who)).entries.find? fun e =>
      e.regime = regimeOf who.world && e.page = va / 2 ^ levelShift e.level with
  | some e =>
    rw [leafFor_of_hit h look]
    exact workReach_setXcache ..
  | none =>
    have walked : WorkReach h (walking h (xcacheOf h who)) := .of_rest rfl rfl rfl rfl
    have leaf (x r : Nat) (p : Path × Hw) : WorkReach p.2 (installed x r va p).2 := by
      obtain ⟨path, g⟩ := p
      cases path with
      | leaf => exact workReach_setXcache ..
      | _ => exact .refl g
    rw [leafFor_of_miss h look]
    exact walked.trans ((workReach_follow ..).trans (leaf ..))

theorem workReach_translate (who : Who) (va : Nat) (acc : Acc) : WorkReach h (translate h who va acc).2 := by
  have walked : WorkReach h (walk h who va acc).2 := by
    have leaf := workReach_leafFor h who va
    unfold walk
    split_ifs
    · exact .refl h
    · split
      · next e => rw [e] at leaf; split_ifs <;> exact leaf
      all_goals next e => rw [e] at leaf; exact leaf
  unfold translate
  split
  · exact .refl h
  · exact walked

/-! Undefined contents -/

theorem workReach_freeVaDraw (who : Who) (va n : Nat) : WorkReach h (runOn (freeVaDraw who va n) h).2 := by
  have go (ps : List (Nat × Nat)) (h : Hw) : WorkReach h (runOn (freeVa.go who ps) h).2 := by
    induction ps generalizing h with
    | nil => exact .refl h
    | cons p ps ih =>
      have at_ := workReach_translate h who p.1 .wr
      have freed (g : Hw) (m : Mem) : WorkReach g { g with mem := m } := .of_rest rfl rfl rfl rfl
      unfold freeVa.go
      rw [runOn_bind_ok runOn_get]
      dsimp only
      generalize translate h who p.1 .wr = found at at_
      obtain ⟨walk, g⟩ := found
      -- Each answer sets a state from which the other pieces go on.
      have next {g' : Hw} (s : WorkReach g g') : WorkReach h (runOn (set g' >>= fun _ => freeVa.go who ps) h).2 := by
        rw [runOn_bind_ok (runOn_set _)]
        exact at_.trans (s.trans (ih g'))
      split
      · next e =>
        cases e
        split
        · split_ifs
          · exact next (.refl g)
          · exact next (freed ..)
        · exact next (freed ..)
        · exact next (.refl g)
      · next e =>
        cases e
        exact next (g' := freeHost g _ _) (.of_rest rfl rfl rfl rfl)
      · next e =>
        cases e
        exact next (.refl _)
  have freed : WorkReach h (runOn (freeVa who va n) h).2 := go ..
  unfold freeVaDraw
  rw [runOn_bind]
  generalize runOn (freeVa who va n) h = r at freed
  obtain ⟨_ | _, g⟩ := r
  · exact freed
  · exact freed.trans (.of_rest rfl rfl rfl rfl)

theorem workReach_spoil (who : Who) (rs : List (Nat × Nat)) : WorkReach h (spoil who rs h) :=
  .foldl (fun g (r : Nat × Nat) => workReach_freeVaDraw g who r.1 r.2) rs h

end Sys2Proof.Machine
end

section
/-! PROOFS. The frame of work, continued: cells, the ends of commands and of collectives, and the loss of links. -/

namespace Sys2Proof.Machine

variable (h : Hw)

/-! The ends of commands -/

theorem workReach_freeTile (t : Nat) : WorkReach h (freeTile h t) :=
  (WorkReach.of_rest rfl rfl rfl rfl : WorkReach h (setTileAux h t _)).trans <|
    (WorkReach.setReg _ workReg_tile _).trans <| (WorkReach.setReg _ workReg_tile _).trans (.setReg _ workReg_board _)

theorem workReach_leaveOpen (slot : Nat) (c : Cmd) : WorkReach h (leaveOpen h slot c) := by
  have noted : WorkReach h (notePast h slot c) := by
    rw [notePast_eq]
    exact .of_rest rfl rfl rfl rfl
  exact noted.trans (workReach_spoil ..)

theorem workReach_finish (slot st d0 d1 : Nat) : WorkReach h (finish h slot st d0 d1) := by
  unfold finish
  split
  · exact .refl h
  · next c _ =>
    have freed : WorkReach h (c.tiles.foldl freeTile (leaveOpen h slot c)) :=
      (workReach_leaveOpen ..).trans (.foldl workReach_freeTile ..)
    exact freed.trans (.of_rest rfl rfl rfl rfl)

theorem workReach_abortTaskOf (slot reason : Nat) : WorkReach h (abortTaskOf h slot reason) := by
  unfold abortTaskOf
  split
  · exact workReach_finish ..
  · next t _ =>
    have ended (ms : List Nat) : WorkReach h (ms.foldl (fun h m => abortCmd h m reason 0) h) :=
      .foldl (fun g m => workReach_finish g m ..) ms h
    exact (ended _).trans (.of_rest rfl rfl rfl rfl)

/-! Cells -/

theorem workReach_setPortAux (q : Nat) (a : PortAux) : WorkReach h (setPortAux h q a) := .of_rest rfl rfl rfl rfl

theorem workReach_emitCell (q : Nat) (c : Cell) : WorkReach h (emitCell h q c) :=
  (workReach_setPortAux h q _).trans (.setReg _ (workReg_port (by omega)) _)

theorem workReach_pumpPort (f q : Nat) : WorkReach h (pumpPort f h q) := by
  have sealed (g : Hw) (c : Cell) : WorkReach g (sealOut g q c).2 := by
    unfold sealOut
    split
    · exact .refl g
    · exact workReach_setPortAux ..
  induction f generalizing h with
  | zero => exact .refl h
  | succ f ih =>
    simp only [pumpPort]
    split
    · exact .refl h
    · exact (sealed ..).trans ((workReach_setPortAux ..).trans ((workReach_emitCell ..).trans (ih _)))

theorem workReach_sendCell (q : Nat) (c : Cell) : WorkReach h (sendCell h q c) := by
  unfold sendCell
  split_ifs
  · exact (workReach_setPortAux ..).trans (workReach_pumpPort ..)
  · exact .refl h

theorem workReach_sendTo (v : CollView) (p : Partner) (c : Cell) : WorkReach h (sendTo h v p c) := by
  unfold sendTo
  split
  · exact .refl h
  · simp only [sendOnSlot]
    split_ifs
    · exact .refl h
    · exact workReach_sendCell ..

/-! The ends of collectives -/

theorem workReach_abortPartner (v : CollView) (a : AbortPay) (p : Partner) : WorkReach h (abortPartner v a h p) := by
  simp only [abortPartner]
  split
  · exact workReach_sendTo ..
  · split
    · exact (workReach_setPortAux ..).trans ((workReach_setPortAux ..).trans (workReach_sendTo ..))
    · split
      · exact .refl h
      · split_ifs
        · exact .refl h
        · exact .of_rest rfl rfl rfl rfl

theorem workReach_removeColl (slot : Nat) : WorkReach h (removeColl h slot) :=
  have dropped : WorkReach h { h with colls := h.colls.filter fun c => c.slot ≠ slot } :=
    ⟨fun _ _ => rfl, List.filter_subset_self .., rfl⟩
  dropped.trans (.setReg _ workReg_colls _)

theorem workReach_endColl (v : CollView) (st d0 d1 : Nat) : WorkReach h (endColl h v st d0 d1) := by
  have removed : WorkReach h (bumpSat (removeColl (freeWork (freeOutputs h v) v) v.coll.slot) 0x504064 1) :=
    (workReach_spoil ..).trans <| (workReach_spoil ..).trans <| (workReach_removeColl ..).trans (.bumpSat _ workReg_ended 1)
  unfold endColl
  split_ifs
  · exact removed.trans (.of_rest rfl rfl rfl rfl)
  · exact removed.trans (workReach_finish ..)

theorem workReach_failColl (v : CollView) (st d0 d1 cause word : Nat) :
    WorkReach h (failColl h v st d0 d1 cause word) := by
  unfold failColl failCollAs
  extract_lets a sent ended
  have ended_reach : WorkReach h ended :=
    (WorkReach.foldl (fun g p => workReach_abortPartner g v a p) v.partners h).trans (workReach_endColl ..)
  have logged (c : Cmd) (addr : Nat) : WorkReach h (cmdErr ended v.coll.slot c st d0 d1 1 0 v.cmd.ring.val addr).2 :=
    ended_reach.trans (workReach_errRecord _ (by simp))
  dsimp only
  split_ifs
  · exact logged ..
  · exact logged ..
  · exact (logged ..).trans (workReach_modCmd ..)
  · exact (logged ..).trans (workReach_modCmd ..)

/-! The loss of links -/

theorem workReach_dropLink (q st : Nat) : WorkReach h (dropLink h q st) := by
  have cleared (g : Hw) : WorkReach g (clearLink g q) := .of_rest rfl rfl rfl rfl
  refine WorkReach.trans ((WorkReach.setReg h (workReg_port (by omega)) _).trans (cleared _)) (.foldl (fun g s => ?_) _ _)
  split
  · exact .refl g
  · exact workReach_failColl ..

theorem workReach_darkenPort (q : Nat) : WorkReach h (darkenPort h q) :=
  (workReach_dropLink ..).trans ((WorkReach.setReg _ (workReg_port (by omega)) _).trans (workReach_setPortAux ..))

end Sys2Proof.Machine
end

section
/-! PROOFS. What a port changes when it takes a cell (R298-R303). -/

namespace Sys2Proof.Machine

variable {h g k : Hw} {q : Nat} {rels : List Nat}

/-! The frame of one port -/

theorem onlyPort.refl : onlyPort h h q rels := ⟨fun _ _ => rfl, fun _ _ => rfl, rfl⟩

theorem onlyPort.trans (a : onlyPort h g q rels) (b : onlyPort g k q rels) : onlyPort h k q rels := by
  obtain ⟨regsA, portsA, restA⟩ := a
  obtain ⟨regsB, portsB, restB⟩ := b
  exact ⟨fun o n => (regsB o n).trans (regsA o n), fun p n => (portsB p n).trans (portsA p n), by rw [restB, restA]⟩

theorem onlyPort_setPortAux (a : PortAux) : onlyPort h (setPortAux h q a) q rels :=
  ⟨fun _ _ => rfl, fun p n => by rw [portAux_setPortAux, if_neg n], rfl⟩

theorem onlyPort_cellCount {rel : Nat} (m : rel ∈ rels) (n : Nat) : onlyPort h (cellCount h q rel n) q rels :=
  ⟨fun _ out => getReg_setReg_ne h _ fun e => out (e ▸ List.mem_map_of_mem m), fun _ _ => rfl, rfl⟩

theorem onlyPort_emitCell (m : 0x2C ∈ rels) (c : Cell) : onlyPort h (emitCell h q c) q rels :=
  (onlyPort_setPortAux _).trans (onlyPort_cellCount m _)

theorem onlyPort_sealOut (c : Cell) : onlyPort h (sealOut h q c).2 q rels := by
  unfold sealOut
  split
  · exact .refl
  · exact onlyPort_setPortAux _

theorem onlyPort_pumpPort (m : 0x2C ∈ rels) (f : Nat) : onlyPort h (pumpPort f h q) q rels := by
  induction f generalizing h with
  | zero => exact .refl
  | succ f ih =>
    simp only [pumpPort]
    split
    · exact .refl
    · exact (onlyPort_sealOut _).trans ((onlyPort_setPortAux _).trans ((onlyPort_emitCell m _).trans ih))

theorem onlyPort_sendCell (m : 0x2C ∈ rels) (c : Cell) : onlyPort h (sendCell h q c) q rels := by
  unfold sendCell
  split_ifs
  · exact (onlyPort_setPortAux _).trans (onlyPort_pumpPort m _)
  · exact .refl

theorem onlyPort_freeBuffer (v : Nat) : onlyPort h (freeBuffer h q v) q rels := onlyPort_setPortAux _

/-- A port's registers lie in the blocks of the ports. -/
theorem onlyPort.getReg_apart (a : onlyPort h g q rels) (lq : q < 12) (low : ∀ r ∈ rels, r < 0x400) {o : Nat}
    (apart : o < 0x500000 ∨ 0x503000 ≤ o) : getReg g o = getReg h o := by
  refine a.1 o fun m => ?_
  obtain ⟨r, i, rfl⟩ := List.mem_map.mp m
  have := low r i
  simp only [rPort, regOf, baseOf] at apart
  omega

theorem onlyPort.mem (a : onlyPort h g q rels) : g.mem = h.mem := by rw [a.2.2]
theorem onlyPort.slots (a : onlyPort h g q rels) : g.slots = h.slots := by rw [a.2.2]
theorem onlyPort.ckpt (a : onlyPort h g q rels) : g.ckpt = h.ckpt := by rw [a.2.2]

/-! The acceptance of a sequenced cell -/

theorem portAux_emitCell (c : Cell) : portAux (emitCell h q c) q =
    { (stampCell (portAux h q) c).2 with
      out := (stampCell (portAux h q) c).2.out ++ [crcCell (stampCell (portAux h q) c).1]
      txCount := (stampCell (portAux h q) c).2.txCount + 1 } := portAux_setPortAux_self ..

/-- What a cell carries besides leaves the sequence number of the last one accepted. -/
theorem rxSeq_stampCell (a : PortAux) (c : Cell) : (stampCell a c).2.rxSeq = a.rxSeq := by
  unfold stampCell
  split <;> rfl

theorem rxSeq_emitCell (c : Cell) : (portAux (emitCell h q c) q).rxSeq = (portAux h q).rxSeq := by
  rw [portAux_emitCell]
  exact rxSeq_stampCell ..

theorem rxSeq_sealOut (c : Cell) : (portAux (sealOut h q c).2 q).rxSeq = (portAux h q).rxSeq := by
  unfold sealOut
  split
  · rfl
  · simp only [portAux_setPortAux_self]

/-- Cells that leave change nothing of what has arrived. -/
theorem rxSeq_pumpPort (f : Nat) : (portAux (pumpPort f h q) q).rxSeq = (portAux h q).rxSeq := by
  induction f generalizing h with
  | zero => rfl
  | succ f ih =>
    simp only [pumpPort]
    split
    · rfl
    · rw [ih, rxSeq_emitCell, portAux_setPortAux_self]
      exact rxSeq_sealOut _

theorem rxSeq_takeAck (c : Cell) : (portAux (takeAck (countRx h q) q c) q).rxSeq = (portAux h q).rxSeq := by
  unfold takeAck
  extract_lets a v a'
  have counted : (portAux (countRx h q) q).rxSeq = (portAux h q).rxSeq := by simp [countRx, cellCount]
  rw [rxSeq_pumpPort, portAux_setPortAux_self]
  exact counted

theorem onlyPort_takenCell (c : Cell) : onlyPort h (takenCell h q c) q [0x2C, 0x30] := by
  have counted : onlyPort h (countRx h q) q [0x2C, 0x30] := (onlyPort_setPortAux _).trans (onlyPort_cellCount (by simp) _)
  have acked : onlyPort h (takeAck (countRx h q) q c) q [0x2C, 0x30] :=
    counted.trans ((onlyPort_setPortAux _).trans (onlyPort_pumpPort (by simp) _))
  exact acked.trans (onlyPort_setPortAux _)

theorem onlyPort_acceptedCell (c d : Cell) : onlyPort h (acceptedCell h q c d) q [0x2C, 0x30] := by
  refine (onlyPort_takenCell c).trans ?_
  simp only [acceptedCell, countEnc]
  split
  · exact .refl
  · exact onlyPort_setPortAux _

/-- Deciphering changes the bytes of a cell alone. -/
theorem cell_of_clearCell {c d : Cell} (clear : clearCell h q c = some d) : ∃ w, d = { c with wire := w } := by
  unfold clearCell at clear
  split_ifs at clear
  · exact ⟨c.wire, (Option.some.inj clear).symm⟩
  · obtain ⟨key, -, opened⟩ := Option.bind_eq_some_iff.mp clear
    simp only [openCell] at opened
    split_ifs at opened
    exact ⟨_, (Option.some.inj opened).symm⟩

variable {c d : Cell}

/-- A cell that is taken meets its use, in the clear, at the hardware that has counted it. -/
theorem arriveSeq_of_taken {t : Nat} {f : Cell → Hw → Hw} (tk : taken h q c d) (type : c.type.toNat = t) :
    arriveSeq t q c f h = f d (acceptedCell h q c d) := by
  obtain ⟨runs, crc, inOrder, clear, spells⟩ := tk
  have next : c.seq.toNat = ((portAux (takeAck (countRx h q) q c) q).rxSeq + 1) % 4096 := by
    rw [rxSeq_takeAck, inOrder]
  have accepted : acceptSeq (takeAck (countRx h q) q c) q c = (true, takenCell h q c) := by
    unfold acceptSeq
    exact if_pos next
  simp only [arriveSeq, ifCrc, crc, type, runs, and_self, if_true, accepted, clear, spells, acceptedCell]

/-- As the effect of the command that is its arrival. -/
theorem effect_of_taken {s : State} {i : Instr} {t : Nat} {f : Cell → Hw → Hw} (tk : taken s.hw q c d)
    (arm : exec i s = onHw (arriveSeq t q c f) s) (type : c.type.toNat = t) :
    effect i s (f d (acceptedCell s.hw q c d)) := by
  rw [← arriveSeq_of_taken (f := f) tk type]
  exact effect_of_onHw arm

theorem type_of_taken (tk : taken h q c d) : d.type = c.type := by
  obtain ⟨-, -, -, clear, -⟩ := tk
  obtain ⟨w, rfl⟩ := cell_of_clearCell clear
  rfl

end Sys2Proof.Machine
end

section
/-! PROOFS. What the cells of collectives and of the deep tier do once taken (R241, R318, R319, R323, R324, R336): O57. -/

namespace Sys2Proof.Machine

variable {h : Hw} {q slot : Nat} {c d : Cell}

/-! Collectives -/

theorem collAt_some {v : CollView} (at_ : collAt h slot = some v) :
    v.coll.slot = slot ∧ (v.audit = false → cmdAt h slot = some v.cmd) := by
  unfold collAt at at_
  split at at_
  · next x cmd found e =>
    obtain rfl := Option.some.inj at_
    refine ⟨by simpa using List.find?_some found, fun audit => ?_⟩
    have plain : ¬ cmd.opcode = 0x82 := by simpa using audit
    simpa [plain] using e
  · cases at_

section
variable {v : CollView} {cmd : Cmd} (audit : v.audit = false) (at_ : cmdAt h v.coll.slot = some cmd)
include audit

/-- A collective that is no audit leaves the live ones, and then its command ends. -/
theorem endColl_eq (st d0 d1 : Nat) : endColl h v st d0 d1 =
    finish (bumpSat (removeColl (freeWork (freeOutputs h v) v) v.coll.slot) 0x504064 1) v.coll.slot st d0 d1 := by
  simp only [endColl, audit, Bool.false_eq_true, if_false]

theorem colls_endColl (st d0 d1 : Nat) : ∀ x ∈ (endColl h v st d0 d1).colls, x.slot ≠ v.coll.slot := by
  intro x m
  rw [endColl_eq audit] at m
  have kept := (workReach_finish _ v.coll.slot st d0 d1).colls m
  exact of_decide_eq_true (List.mem_filter.mp kept).2

include at_

theorem ended_endColl (st d0 d1 : Nat) : ended (endColl h v st d0 d1) v.coll.slot st d0 d1 := by
  rw [endColl_eq audit]
  refine ended_finish (c := cmd) ?_
  have stands := (standsBy_spoil h (whoOf v.coll.slot v.cmd) (collOutputs v)).trans
    (standsBy_spoil _ (whoOf v.coll.slot v.cmd) (collBuffer v))
  exact (congrArg (smFind · v.coll.slot) stands.slots).trans at_

/-- A failure ends the command with its status and names its error record. -/
theorem ended_failColl (st d0 d1 cause word : Nat) :
    ended (failColl h v st d0 d1 cause word) v.coll.slot st d0 d1 := by
  unfold failColl failCollAs
  extract_lets a sent done
  have sent_at : cmdAt sent v.coll.slot = some cmd :=
    (congrArg (smFind · v.coll.slot) (keepsWork_sendAborts h v a).slots).trans at_
  obtain ⟨x, e, phase, status, detail0, detail1⟩ := ended_endColl audit sent_at st d0 d1
  have logged (y : Cmd) (addr : Nat) :
      cmdAt (cmdErr done v.coll.slot y st d0 d1 1 0 v.cmd.ring.val addr).2 v.coll.slot = some x :=
    (congrArg (smFind · v.coll.slot) (keepsWork_errRecord done (by simp)).slots).trans e
  simp only [audit, Bool.false_eq_true, if_false]
  exact ⟨_, (cmdAt_modCmd ..).trans ((if_pos rfl).trans (congrArg (Option.map _) (logged ..))), phase, status, detail0,
    detail1⟩

end

/-! Where a cell goes -/

/-- The use of a collective's cell: for another member, for none, and for one that is live. -/
theorem toColl_of_hops {f : Cell → Hw → Nat → Hw} (away : d.hops ≠ 0) : toColl q f d h = forwardCell h q d := if_pos away

theorem toColl_of_none {f : Cell → Hw → Nat → Hw} (here : d.hops = 0) (none_ : collOfCtx h d.ctx.toNat = none) :
    toColl q f d h = freeBuffer h q (vcOf d.type.toNat) := by
  have same : collOfCtx (freeBuffer h q (vcOf d.type.toNat)) d.ctx.toNat = none := none_
  simp only [toColl, here, ne_eq, not_true_eq_false, if_false, same]

theorem toColl_of_some {f : Cell → Hw → Nat → Hw} (here : d.hops = 0) (live : collOfCtx h d.ctx.toNat = some slot) :
    toColl q f d h = f d (freeBuffer h q (vcOf d.type.toNat)) slot := by
  have same : collOfCtx (freeBuffer h q (vcOf d.type.toNat)) d.ctx.toNat = some slot := live
  simp only [toColl, here, ne_eq, not_true_eq_false, if_false, same]

section
variable {p : SetupPay} (here : d.hops = 0) (pay : d.payload = .setup p)
include here pay

/-- A SETUP that names no live collective, and whose sender is owed no ABORT, waits. -/
theorem setupIn_of_waits (none_ : setupTarget h d = none) (clear : owedTo h d = none) : setupIn q d h =
    setPortAux h q { portAux h q with setups := (portAux h q).setups ++ [d] } := by
  simp only [setupIn, here, ne_eq, not_true_eq_false, if_false, none_, pay, clear]

theorem setupIn_of_target {x : Coll} {v : CollView} (target : setupTarget h d = some x)
    (at_ : collAt (freeBuffer h q 0) x.slot = some v) :
    setupIn q d h = advanceColl 64 (matchSetup (freeBuffer h q 0) v q p) x.slot := by
  simp only [setupIn, here, ne_eq, not_true_eq_false, if_false, target, pay, at_]

end

section
variable {v : CollView} (at_ : collAt h slot = some v)
include at_

theorem closeIn_of_other {p : ClosePay} (pay : d.payload = .close p) (other : p.stepLo ≠ getReg h rStepLo) :
    closeIn d h slot = failColl (bumpSat h 0x504068 1) v 0x41 (3 + v.group.rank * 2 ^ 16) 0 3 0 := by
  simp only [closeIn, pay, at_, if_pos other]

theorem closeIn_of_same {p : ClosePay} (pay : d.payload = .close p) (same : p.stepLo = getReg h rStepLo) :
    closeIn d h slot = advanceColl 64 (modColl h slot fun x =>
      if p.up then { x with ups := x.ups ++ [p] } else { x with down := some p }) slot := by
  simp only [closeIn, pay, at_, same, ne_eq, not_true_eq_false, if_false]

theorem abortIn_of_abort {a : AbortPay} (pay : d.payload = .abort a) : abortIn d h slot =
    endColl (sendAborts h v a) v (abortedAs a).1 (abortedAs a).2.1 (abortedAs a).2.2 := by
  simp only [abortIn, pay, at_]

end

/-! The lender's side and the requester's (R241) -/

section
variable {w : BitVec 3} {off : Quad} {n pa : Nat} {sec : Bool} {bs : List Byte}

section
variable (pay : d.payload = .dtRead w off n sec)
include pay

theorem dtReadIn_of_refused (no : 65536 < n ∨ lendAddr (freeBuffer h q 2) sec w.toNat off.toNat n = none) :
    dtReadIn q d h = sendCell (freeBuffer h q 2) q (dtAnswerCell d .refused) := by
  have none_ : (if n ≤ 65536 then lendAddr (freeBuffer h q 2) sec w.toNat off.toNat n else none) = none := by
    split_ifs with l
    · exact no.resolve_left (by omega)
    · rfl
  simp only [dtReadIn, pay, none_]

variable (l : n ≤ 65536) (lent : lendAddr (freeBuffer h q 2) sec w.toNat off.toNat n = some pa)
include l lent

theorem dtReadIn_of_read {g : Hw} (read : readPa (freeBuffer h q 2) (portWho sec q) pa n = (.bytes bs none, g)) :
    dtReadIn q d h = (List.range (chunksOf 240 bs).length).foldl (fun h i => sendCell h q
      { blankCell 10 (.dtResp ((chunksOf 240 bs).getD i [])) with ctx := d.ctx, index := BitVec.ofNat 26 i }) g := by
  simp only [dtReadIn, pay, if_pos l, lent, read]

theorem dtReadIn_of_poison {g : Hw} {x : Nat}
    (read : readPa (freeBuffer h q 2) (portWho sec q) pa n = (.bytes bs (some x), g)) :
    dtReadIn q d h = sendCell g q (dtAnswerCell d .error) := by
  simp only [dtReadIn, pay, if_pos l, lent, read]

end

section
variable (pay : d.payload = .dtWrite w off sec bs)
include pay

theorem dtWriteIn_of_refused
    (no : lendAddr (freeBuffer h q 2) sec w.toNat (off.toNat + d.index.toNat * 240) bs.length = none) :
    dtWriteIn q d h = sendCell (freeBuffer h q 2) q (dtAnswerCell d .refused) := by
  simp only [dtWriteIn, pay, no]

theorem dtWriteIn_of_written {ys : List Byte} {p : Option Nat} {g : Hw}
    (lent : lendAddr (freeBuffer h q 2) sec w.toNat (off.toNat + d.index.toNat * 240) bs.length = some pa)
    (wrote : writePa (freeBuffer h q 2) (portWho sec q) pa bs = (.bytes ys p, g)) :
    dtWriteIn q d h = sendCell g q (dtAnswerCell d .acked) := by
  simp only [dtWriteIn, pay, lent, wrote]

end

end

theorem dtRespIn_of_resp {bs : List Byte} (pay : d.payload = .dtResp bs) : dtRespIn q d h =
    modReq (freeBuffer h q 3) q d.ctx.toNat fun r => { r with got := r.got ++ [(d.index.toNat, bs)] } := by
  simp only [dtRespIn, pay]

theorem dtAckIn_of_ack {x : DtAnswer} (pay : d.payload = .dtAck x) : dtAckIn q d h =
    modReq (freeBuffer h q 3) q d.ctx.toNat fun r =>
      if x = .acked then { r with acks := r.acks + 1 } else { r with answer := some x } := by
  cases x <;> simp [dtAckIn, pay]

/-! Checkpoint cells (R336) -/

section
variable {half : Nat}

theorem ckptIn_of_closed {n : Nat} (pay : d.payload = .ckpt (.openSlot n))
    (closed : (recvPorts (freeBuffer h q 2)).contains q = false) :
    ckptIn q d h = sendCell (freeBuffer h q 2) q (ckptCell (.reply false)) := by
  simp only [ckptIn, pay, closed, Bool.not_false, if_true]

variable (fills : rxHalf (freeBuffer h q 2) q = some half)
include fills

theorem ckptIn_of_units {pos : Nat} {bs : List Byte} (pay : d.payload = .ckpt (.units pos bs))
    (fits : pos + bs.length + 4032 ≤ slotGib (freeBuffer h q 2) * GiB) :
    ckptIn q d h = storePiece (freeBuffer h q 2) q half pos bs := by
  simp only [ckptIn, pay, fills, if_pos fits]

theorem ckptIn_of_record {r : List Byte} (pay : d.payload = .ckpt (.record r)) : ckptIn q d h =
    sendCell (setRx (writePa (freeBuffer h q 2) (castle .secure) (slotBase (freeBuffer h q 2) q half)
      (slice r 0 128)).2 q none) q (ckptCell (.reply true)) := by
  simp only [ckptIn, pay, fills]

end

theorem rxHalf_congr {g : Hw} (ckpt : g.ckpt = h.ckpt) : rxHalf g q = rxHalf h q := by rw [rxHalf, ckpt, rxHalf]

theorem rxHalf_setRx_none : rxHalf (setRx h q none) q = none := by simp [rxHalf, setRx]

section
variable {g : Hw}

theorem lendAddr_congr {sec : Bool} {w off n : Nat} (live : getReg g (0x161040 + 4 * w) = getReg h (0x161040 + 4 * w)) :
    lendAddr g sec w off n = lendAddr h sec w off n := by rw [lendAddr, live, lendAddr]

variable (cfg : getReg g 0x600144 = getReg h 0x600144)
include cfg

/-- The slots of the reserve rest on one register (R335, R336). -/
theorem recvPorts_congr : recvPorts g = recvPorts h := by simp only [recvPorts, regBit, cfg]

theorem slotGib_congr : slotGib g = slotGib h := by simp only [slotGib, regFld, cfg, recvPorts_congr cfg]

theorem slotBase_congr (half : Nat) : slotBase g q half = slotBase h q half := by
  simp only [slotBase, regFld, cfg, recvPorts_congr cfg, slotGib_congr cfg]

end

/-- The arrivals of the cells of collectives. -/
theorem collective_of_seqCell {i : Instr} {p : PortId} {t : Nat} (e : seqCell i = some (p, c, t)) (low : t ≤ 6) :
    (i = .setup p c ∧ t = 3) ∨ (i = .close p c ∧ t = 4) ∨ (i = .abort p c ∧ t = 5) ∨ (i = .data p c ∧ t = 6) := by
  unfold seqCell at e
  split at e <;> cases e <;> simp at low ⊢

/-- Settles O57: every arrival meets its use by `effect_of_taken`, and each use has an equation per outcome. -/
theorem cellsReachTheirUse : Obligations.CellsReachTheirUse := by
  intro q c d s tk h1 took
  have frame (vc : Nat) : onlyPort s.hw (took vc) q.val [0x2C, 0x30] :=
    (onlyPort_acceptedCell c d).trans (onlyPort_freeBuffer vc)
  have reads (vc : Nat) {o : Nat} (apart : o < 0x500000 ∨ 0x503000 ≤ o) : getReg (took vc) o = getReg s.hw o :=
    (frame vc).getReg_apart q.isLt (by simp) apart
  have arrives {i : Instr} {f : Cell → Hw → Hw} (t : BitVec 4) (arm : exec i s = onHw (arriveSeq t.toNat q.val c f) s)
      (e : c.type = t) : effect i s (f d h1) := effect_of_taken tk arm (e ▸ rfl)
  have setup := arrives (i := .setup q c) (f := setupIn q.val) 3 rfl
  have close := arrives (i := .close q c) (f := toColl q.val closeIn) 4 rfl
  have abort := arrives (i := .abort q c) (f := toColl q.val abortIn) 5 rfl
  have data := arrives (i := .data q c) (f := toColl q.val dataIn) 6 rfl
  have dtRead := arrives (i := .dtRead q c) (f := dtReadIn q.val) 7 rfl
  have dtWrite := arrives (i := .dtWrite q c) (f := dtWriteIn q.val) 8 rfl
  have ckpt := arrives (i := .ckpt q c) (f := ckptIn q.val) 9 rfl
  have dtResp := arrives (i := .dtResp q c) (f := dtRespIn q.val) 10 rfl
  have dtAck := arrives (i := .dtAck q c) (f := dtAckIn q.val) 11 rfl
  have vc {t : BitVec 4} (e : c.type = t) : freeBuffer h1 q.val (vcOf d.type.toNat) = took (vcOf t.toNat) := by
    rw [type_of_taken tk, e]
  refine ⟨?forwarded, fun here => ⟨?waits, ?meets, ?discarded, ?live⟩, ?read, ?write, ?resp, ?ack, ?ckpt⟩
  case forwarded =>
    intro away i t seq low type
    have sent : setupIn q.val d h1 = forwardCell h1 q.val d := if_pos away
    obtain ⟨rfl, rfl⟩ | ⟨rfl, rfl⟩ | ⟨rfl, rfl⟩ | ⟨rfl, rfl⟩ := collective_of_seqCell seq low
    · exact sent ▸ effect_of_taken tk rfl type
    all_goals exact toColl_of_hops (h := h1) away ▸ effect_of_taken tk rfl type
  case waits =>
    intro p e pay none_ clear
    refine ⟨_, setupIn_of_waits here pay none_ clear ▸ setup e, ?_, onlyPort_setPortAux _⟩
    rw [portAux_setPortAux_self]
  case meets =>
    intro p x v e pay target at_
    exact setupIn_of_target here pay target at_ ▸ setup e
  case discarded =>
    intro none_
    refine ⟨fun e => ?_, fun e => ?_, fun e => ?_⟩
    · exact vc e ▸ toColl_of_none here none_ ▸ close e
    · exact vc e ▸ toColl_of_none here none_ ▸ abort e
    · exact vc e ▸ toColl_of_none here none_ ▸ data e
  case live =>
    intro slot v live at_ audit
    obtain ⟨own, cmd⟩ := collAt_some at_
    have cmd_at : cmdAt h1 v.coll.slot = some v.cmd := own ▸ cmd audit
    have at_took (n : Nat) : collAt (took n) slot = some v := at_
    have meets (f : Cell → Hw → Nat → Hw) {n : Nat} (e : freeBuffer h1 q.val (vcOf d.type.toNat) = took n) :
        toColl q.val f d h1 = f d (took n) slot := by rw [toColl_of_some here live, e]
    have closes (e : c.type = 4) : effect (.close q c) s (closeIn d (took 0) slot) := meets closeIn (vc e) ▸ close e
    have aborts (e : c.type = 5) : effect (.abort q c) s (abortIn d (took 0) slot) := meets abortIn (vc e) ▸ abort e
    have joins (e : c.type = 6) : effect (.data q c) s (dataIn d (took 1) slot) := meets dataIn (vc e) ▸ data e
    refine ⟨fun p e pay other => ?other, fun p e pay same => ?same, fun a e pay => ?abort, fun b e pay => ?data⟩
    case other =>
      have ends := ended_failColl (h := bumpSat (took 0) 0x504068 1) audit cmd_at 0x41 (3 + v.group.rank * 2 ^ 16) 0 3 0
      exact ⟨_, closeIn_of_other (at_took 0) pay (by rwa [reads 0 (by decide)]) ▸ closes e, own ▸ ends⟩
    case same =>
      exact closeIn_of_same (at_took 0) pay (by rwa [reads 0 (by decide)]) ▸ closes e
    case abort =>
      have sent_at : cmdAt (sendAborts (took 0) v a) v.coll.slot = some v.cmd :=
        (congrArg (smFind · v.coll.slot) (keepsWork_sendAborts (took 0) v a).slots).trans cmd_at
      exact ⟨_, abortIn_of_abort (at_took 0) pay ▸ aborts e, own ▸ ended_endColl audit sent_at ..,
        own ▸ colls_endColl audit _ _ _⟩
    case data =>
      have use : dataIn d (took 1) slot = advanceColl 64 (modColl (took 1) slot fun x =>
          { x with inbox := x.inbox ++ [(b.level, d.index.toNat, b.bytes)] }) slot := by simp only [dataIn, pay]
      exact use ▸ joins e
  case read =>
    intro w off n sec e pay
    have lends : lendAddr (took 2) sec w.toNat off.toNat n = lendAddr s.hw sec w.toNat off.toNat n :=
      lendAddr_congr (reads 2 (by omega))
    refine ⟨fun no => ?refused, fun pa bs g l lent read => ?read, fun pa bs x g l lent read => ?poison⟩
    case refused => exact dtReadIn_of_refused pay (by rwa [lends]) ▸ dtRead e
    case read =>
      refine ⟨_, dtReadIn_of_read pay l (lends.trans lent) read ▸ dtRead e, ?_⟩
      have sent := KeepsWork.foldl (fun (h : Hw) i => keepsWork_sendCell h q.val
        { blankCell 10 (.dtResp ((chunksOf 240 bs).getD i [])) with ctx := d.ctx, index := BitVec.ofNat 26 i })
        (List.range (chunksOf 240 bs).length) g
      exact ⟨sent.mem, sent.slots⟩
    case poison => exact dtReadIn_of_poison pay l (lends.trans lent) read ▸ dtRead e
  case write =>
    intro w off sec bs e pay o
    have lends : lendAddr (took 2) sec w.toNat o bs.length = lendAddr s.hw sec w.toNat o bs.length :=
      lendAddr_congr (reads 2 (by omega))
    refine ⟨fun no => ?refused, fun pa ys p g lent wrote => ?written⟩
    case refused => exact dtWriteIn_of_refused pay (lends.trans no) ▸ dtWrite e
    case written => exact dtWriteIn_of_written pay (lends.trans lent) wrote ▸ dtWrite e
  case resp => exact fun bs e pay => dtRespIn_of_resp pay ▸ dtResp e
  case ack => exact fun x e pay => dtAckIn_of_ack pay ▸ dtAck e
  case ckpt =>
    intro e
    have cfg : getReg (took 2) 0x600144 = getReg s.hw 0x600144 := reads 2 (by decide)
    have halves : rxHalf (took 2) q.val = rxHalf s.hw q.val := rxHalf_congr (frame 2).ckpt
    refine ⟨fun n pay closed => ?closed, fun pos bs half pay fills fits => ?units, fun r half pay fills => ?record⟩
    case closed => exact ckptIn_of_closed pay (by rwa [recvPorts_congr cfg]) ▸ ckpt e
    case units => exact ckptIn_of_units (halves.trans fills) pay (by rwa [slotGib_congr cfg]) ▸ ckpt e
    case record =>
      have sent (g : Hw) (x : Cell) : onlyPort g (sendCell g q.val x) q.val [0x2C] := onlyPort_sendCell (by simp) x
      refine ⟨_, ckptIn_of_record (halves.trans fills) pay ▸ ckpt e, ?_, ?_⟩
      · rw [rxHalf_congr (sent ..).ckpt, rxHalf_setRx_none]
      · rw [(sent ..).mem, slotBase_congr cfg]
        rfl

end Sys2Proof.Machine
end

section
/-! PROOFS. The stop of the converters: what a restart and the boot after it leave (R425, R449). -/

namespace Sys2Proof.Machine

/-! Registers that a restart keeps -/

theorem smGet_filter_key {α : Type} {dflt : α} (p : Nat → Bool) {k : Nat} (keeps : p k = true) (m : List (Nat × α)) :
    smGet dflt (m.filter fun e => p e.1) k = smGet dflt m k := by
  induction m with
  | nil => rfl
  | cons e r ih =>
    by_cases at_ : e.1 = k
    · simp [at_, keeps, smGet]
    · by_cases stays : p e.1 = true
      · simp [stays, smGet, at_, ih]
      · simp [stays, smGet, at_, ih]

theorem smFind_filter_key {α : Type} (p : Nat → Bool) {k : Nat} (keeps : p k = true) (m : List (Nat × α)) :
    smFind (m.filter fun e => p e.1) k = smFind m k := by
  have spread : (m.filter fun e => p e.1).map (fun e => (e.1, some e.2)) =
      (m.map fun e => (e.1, some e.2)).filter fun e => p e.1 := by
    rw [List.filter_map]
    rfl
  rw [smFind_eq_smGet, spread, smGet_filter_key p keeps, ← smFind_eq_smGet]

variable (f : Fuses) (h : Hw)

/-- The registers that a restart keeps (Table 19-4). -/
def restartKeeps (keepCfg : Bool) (o : Nat) : Bool := auxReg o || (keepCfg && decide (o = regOf .err 0x104))

/-- The registers of the auxiliary domain stand over a restart. -/
theorem getReg_restart (keepCfg : Bool) {o : Nat} (aux : auxReg o = true) :
    getReg (restart keepCfg h) o = getReg h o := by
  have keeps : restartKeeps keepCfg o = true := by simp [restartKeeps, aux]
  have regs : (restart keepCfg h).regs = h.regs.filter fun e => restartKeeps keepCfg e.1 := by
    rw [restart, freeKeys_eq]
    rfl
  have free : (restart keepCfg h).freeRegs = h.freeRegs.filter fun e => restartKeeps keepCfg e.1 := by
    rw [restart, freeKeys_eq]
    rfl
  rw [getReg, regs, free, smFind_filter_key _ keeps, smGet_filter_key _ keeps, getReg]

theorem restart_starting (keepCfg : Bool) : (restart keepCfg h).starting = none := by rw [restart, freeKeys_eq]; rfl
theorem restart_pins (keepCfg : Bool) : (restart keepCfg h).pins = h.pins := by rw [restart, freeKeys_eq]
theorem restart_supplies (keepCfg : Bool) : (restart keepCfg h).supplies = h.supplies := by rw [restart, freeKeys_eq]
theorem restart_sticky (keepCfg : Bool) : (restart keepCfg h).errs.sticky = h.errs.sticky := by
  rw [restart, freeKeys_eq]
theorem restart_aerSent (keepCfg : Bool) : (restart keepCfg h).host.aerSent = h.host.aerSent := by
  rw [restart, freeKeys_eq]

/-! The boot after it -/

/-- The registers that the boot of steps 1 and 2 writes: BR_BYTES, RST_STATUS, CAL_STATUS and the calibration's. -/
def bootReg (o : Nat) : Prop := o = 0x100 ∨ o = rRstStatus ∨ o = rCalStatus ∨ (rPwr 0x200 ≤ o ∧ o < rPwr 0x1000)

theorem calRegs_range : ∀ r ∈ calRegs, bootReg (rPwr r.1) ∧ bootReg (rPwr r.2) := by
  simp only [calRegs, List.mem_append, List.mem_map, List.mem_range, bootReg, rPwr, regOf, baseOf]
  rintro r (((⟨d, l, rfl⟩ | ⟨d, l, rfl⟩) | ⟨d, l, rfl⟩) | ⟨d, l, rfl⟩) <;> dsimp only <;> omega

theorem bootReg_calStatus : bootReg rCalStatus := .inr (.inr (.inl rfl))

theorem loadCalPage_bootRegs : OnlyRegsIn bootReg h (loadCalPage h) := by
  have committed (g : Hw) : OnlyRegsIn bootReg g (calCommitHw g) := by
    unfold calCommitHw
    split_ifs
    · exact .setReg bootReg_calStatus g _
    · exact .foldl (fun r m g => .setReg (calRegs_range r m).2 g _) g
  unfold loadCalPage
  extract_lets pick
  clear_value pick
  cases pick with
  | none => exact .setReg bootReg_calStatus h _
  | some c =>
    refine (OnlyRegsIn.foldl (fun i m g => .setReg ?_ g _) h).trans (committed _)
    have l := List.mem_range.mp m
    rw [List.getD_eq_getElem _ _ l]
    exact (calRegs_range _ (List.getElem_mem l)).1

/-- A step of the boot that is over shows in RST_STATUS. -/
theorem setStep_bootRegs (n : Nat) : OnlyRegsIn bootReg { h with bringStep := n } (setStep h n) :=
  .setReg (.inr (.inl rfl)) _ _

theorem OnlyRegsIn.with_step {p : Nat → Prop} {h h' : Hw} (k : OnlyRegsIn p h h') (n : Nat) :
    OnlyRegsIn p { h with bringStep := n } { h' with bringStep := n } := ⟨k.reg, by rw [k.rest]⟩

/-- Steps 1 and 2 again change their registers and the step alone. -/
theorem reboot_bootRegs : ∃ n, OnlyRegsIn bootReg { h with bringStep := n } (bootTwo (bootOne f h)) := by
  have one : OnlyRegsIn bootReg { h with bringStep := 1 } (bootOne f h) :=
    ((OnlyRegsIn.setReg (.inl rfl) h _).with_step 1).trans (setStep_bootRegs ..)
  have two (g : Hw) : OnlyRegsIn bootReg { g with bringStep := 2 } (setStep (loadCalPage g) 2) :=
    ((loadCalPage_bootRegs g).with_step 2).trans (setStep_bootRegs ..)
  unfold bootTwo
  split_ifs
  · exact ⟨2, (one.with_step 2).trans (two _)⟩
  · exact ⟨1, one⟩

/-! The stop -/

theorem getReg_setPkg (p : PkgState) {o : Nat} (apart : o ≠ regOf .host 0x2008) : getReg (setPkg h p) o = getReg h o := by
  have sent (g : Hw) : getReg (sendMsix g 67) o = getReg g o := by
    unfold sendMsix
    split_ifs
    · exact getReg_setReg_ne _ _ apart
    · rfl
    · rfl
  unfold setPkg
  split_ifs
  · rfl
  · exact sent _

theorem setPkg_aerSent (p : PkgState) : (setPkg h p).host.aerSent = h.host.aerSent := by
  have sent (g : Hw) : (sendMsix g 67).host.aerSent = g.host.aerSent := by
    unfold sendMsix
    split_ifs <;> rfl
  unfold setPkg
  split_ifs
  · rfl
  · exact sent _

end Sys2Proof.Machine
end

section
/-! PROOFS. Conversion trips, the loss of supplies and of the reference clocks (R425, R427, R430, R440): O44. -/

namespace Sys2Proof.Machine

variable (f : Fuses) (h : Hw)

/-! The stop of the converters -/

/-- The hardware at the stop of the converters, before the boot of steps 1 and 2 stands again. -/
def stoppedCold (h : Hw) : Hw :=
  let r := restart false h
  setPkg { r with
    supplies := { r.supplies with converters := false }
    pins := { r.pins with pkgResetDriven := true } } (if h.pkg = .resigned then .resigned else .aux)

theorem stopConverters_eq : stopConverters f h = bootTwo (bootOne f (stoppedCold h)) := rfl

/-- What the stop leaves, in terms of the restart that it makes. -/
structure StopFrame (h h' : Hw) : Prop where
  pkg : h'.pkg = if h.pkg = .resigned then .resigned else .aux
  starting : h'.starting = none
  slots : h'.slots = []
  mem : h'.mem = (restart false h).mem
  supplies : h'.supplies = { h.supplies with converters := false }
  pins : h'.pins = { h.pins with pkgResetDriven := true }
  sticky : h'.errs.sticky = h.errs.sticky
  aerSent : h'.host.aerSent = h.host.aerSent
  conv : getReg h' (rPwr 0x20) = getReg h (rPwr 0x20)

theorem stopFrame_stoppedCold : StopFrame h (stoppedCold h) := by
  constructor
  case pkg => exact setPkg_pkg ..
  case starting => rw [stoppedCold, setPkg_frame]; exact restart_starting h false
  case slots => rw [stoppedCold, setPkg_frame]; exact restart_slots h false
  case mem => rw [stoppedCold, setPkg_frame]
  case supplies => rw [stoppedCold, setPkg_frame]; simp only [restart_supplies]
  case pins => rw [stoppedCold, setPkg_frame]; simp only [restart_pins]
  case sticky => rw [stoppedCold, setPkg_frame]; exact restart_sticky h false
  case aerSent => exact (setPkg_aerSent ..).trans (restart_aerSent h false)
  case conv => exact (getReg_setPkg _ _ (by decide)).trans (getReg_restart h false (by decide))

theorem not_bootReg_conv : ¬ bootReg (rPwr 0x20) := by
  simp only [bootReg, rCalStatus, rRstStatus, rPwr, regOf, baseOf]; omega

theorem stopFrame_stopConverters : StopFrame h (stopConverters f h) := by
  obtain ⟨pkg, starting, slots, mem, supplies, pins, sticky, aerSent, conv⟩ := stopFrame_stoppedCold h
  obtain ⟨n, reg, rest⟩ := reboot_bootRegs f (stoppedCold h)
  rw [stopConverters_eq]
  constructor
  case conv => exact (reg _ not_bootReg_conv).trans conv
  case pkg => rw [rest]; exact pkg
  case starting => rw [rest]; exact starting
  case slots => rw [rest]; exact slots
  case mem => rw [rest]; exact mem
  case supplies => rw [rest]; exact supplies
  case pins => rw [rest]; exact pins
  case sticky => rw [rest]; exact sticky
  case aerSent => rw [rest]; exact aerSent

/-- A package of state h whose converters have stopped: it is in AUX or stays RESIGNED, with no command and no start to
come, and of its memories only what is in flash, and what was lent, is left (R242, R425). -/
structure ConvertersStopped (h h' : Hw) : Prop where
  pkg : h'.pkg = if h.pkg = .resigned then .resigned else .aux
  converters : h'.supplies.converters = false
  slots : h'.slots = []
  starting : h'.starting = none
  hbm : lentKeys h = [] → ∀ a, h'.mem.read .hbm a = 0
  tile : ∀ a, h'.mem.read .tile a = 0
  flash : ∀ a, h'.mem.read .flash a = h.mem.read .flash a

/-- A stop after changes that keep the lend windows and flash stops the package that was. -/
theorem convertersStopped_stopConverters {h g : Hw} (k : KeepsStored h g) (same : g.pkg = h.pkg) :
    ConvertersStopped h (stopConverters f g) := by
  obtain ⟨pkg, starting, slots, mem, supplies, -⟩ := stopFrame_stopConverters f g
  constructor
  case pkg => rw [pkg, same]
  case converters => rw [supplies]
  case slots => exact slots
  case starting => exact starting
  case hbm =>
    intro unlent
    rw [mem]
    exact restart_hbm g false (k.lentKeys_nil unlent)
  case tile => rw [mem]; exact restart_tile g false
  case flash =>
    intro a
    rw [mem, restart_flash, k.flash]

/-! VIN and the auxiliary supplies -/

/-- The converters run on a powered package. -/
def running (h : Hw) : Prop := h.pkg ≠ .off ∧ h.pkg ≠ .aux ∧ h.supplies.converters = true

theorem running_iff : powered h = true ∧ h.supplies.converters = true ↔ running h := by
  simp [powered, running, and_assoc]

/-- The supply event's own note of VIN, after the stop that it may bring. -/
def vinNoted (mv : Nat) (h : Hw) : Hw :=
  let g := if h.pkg = .off then h else vinFlags h mv
  { g with supplies := { g.supplies with vinMv := mv, needRamp := g.supplies.needRamp && decide (2000 ≤ mv) } }

theorem vinLossHw_of_low {mv : Nat} (low : mv < 33000) : vinLossHw f mv h =
    vinNoted mv (if powered h = true ∧ h.supplies.converters = true then stopConverters f h else h) := if_pos low

theorem vinNoted_needRamp {mv : Nat} (low : mv < 2000) : (vinNoted mv h).supplies.needRamp = false := by
  have not : ¬ 2000 ≤ mv := by omega
  simp [vinNoted, not]

theorem ConvertersStopped.vinNoted {h g : Hw} (s : ConvertersStopped h g) (mv : Nat) :
    ConvertersStopped h (vinNoted mv g) := by
  obtain ⟨pkg, converters, slots, starting, hbm, tile, flash⟩ := s
  unfold Machine.vinNoted
  split_ifs
  · exact ⟨pkg, converters, slots, starting, hbm, tile, flash⟩
  · rw [(vinFlags_onlyRegs g mv).rest]
    exact ⟨pkg, converters, slots, starting, hbm, tile, flash⟩

/-- The loss of VIOM or VANA, after the stop that it may bring. -/
theorem auxLossHw_of_other {h : Hw} {x : AuxSupply} (other : x ≠ .vaux) (on : h.pkg ≠ .off) : auxLossHw f x h =
    let g := if powered h = true ∧ h.supplies.converters = true then stopConverters f h else h
    { g with
      pins := { g.pins with pwrGoodAux := false }
      supplies := { g.supplies with viom := g.supplies.viom && decide (x ≠ .viom)
                                    vana := g.supplies.vana && decide (x ≠ .vana) } } := by
  cases x with
  | vaux => exact absurd rfl other
  | _ => exact if_neg on

theorem auxLossHw_of_vaux {h : Hw} (on : h.pkg ≠ .off) : auxLossHw f .vaux h = loseVaux h := if_neg on

/-! Conversion trips -/

/-- The pins as a trip of a cause finds them: a thermal one asserts THERM_TRIP_N (R430). -/
def tripPins (c : TripCause) (p : Pins) : Pins := if c = .thermal then { p with thermTripN := true } else p

/-- The hardware once CONV_STATUS holds a trip's cause. -/
def tripLatched (cause tile : Nat) (h : Hw) : Hw :=
  setRegFld (setRegFld (setRegBit h (rPwr 0x20) 0 true) (rPwr 0x20) 11 8 cause) (rPwr 0x20) 7 4 tile

/-- The record of a trip. -/
def tripEvent (cause unit : Nat) : ErrEvent := { source := 0xA, kind := cause, severity := 4, unit := unit }

/-- The hardware once that record is written, with no message to the host (R459), and a new ramp is owed. -/
def tripRecorded (h : Hw) (e : ErrEvent) : Hw :=
  let g := logErr h e
  let silent := { g with host := { g.host with aerSent := h.host.aerSent } }
  { silent with supplies := { silent.supplies with needRamp := true } }

/-- The hardware at a trip, before its converters stop. -/
def tripLogged (cause unit tile : Nat) (h : Hw) : Hw := tripRecorded (tripLatched cause tile h) (tripEvent cause unit)

/-- Every trip of a running package is a record of some cause, and a stop. -/
theorem conversionTripHw_of_running {h : Hw} (run : running h) (c : TripCause) :
    ∃ cause unit tile, conversionTripHw f c h =
      stopConverters f (tripLogged cause unit tile { h with pins := tripPins c h.pins }) := by
  have trip (cause unit tile : Nat) (p : Pins) : tripHw f cause unit tile { h with pins := p } =
      stopConverters f (tripLogged cause unit tile { h with pins := p }) := if_pos ((running_iff h).mpr run)
  cases c with
  | vinAbove48 => exact ⟨1, 0, 0, trip 1 0 0 h.pins⟩
  | powerTile t => exact ⟨2, t.val, t.val, trip 2 t.val t.val h.pins⟩
  | regulation => exact ⟨3, 0, 0, trip 3 0 0 h.pins⟩
  | railOver => exact ⟨4, 0, 0, trip 4 0 0 h.pins⟩
  | thermal => exact ⟨5, 0, 0, (if_pos ((running_iff h).mpr run)).trans (trip 5 0 0 { h.pins with thermTripN := true })⟩

theorem conversionTripHw_of_not_running {h : Hw} (not : ¬ running h) (c : TripCause) :
    conversionTripHw f c h = h := by
  have idle := fun r => not ((running_iff h).mp r)
  cases c <;> exact if_neg idle

/-- A fatal record is the last of the sticky log and asserts FAULT_N (R458, Table 19-5). -/
theorem logErr_of_fatal {e : ErrEvent} (fatal : e.severity = 4) :
    (logErr h e).errs.sticky.getLast? = some (recordOf h e) ∧
    (logErr h e).pins = { h.pins with mgmtAlertN := true, faultN := true } := by
  have severity : (recordOf h e).severity = 4 := fatal
  have routed : logErr h e = routeSeverity (withRecord h e) (recordOf h e) := rfl
  have pins : (withRecord h e).pins = h.pins := rfl
  generalize withRecord h e = w at routed pins
  generalize recordOf h e = r at routed severity
  rw [routed]
  constructor
  · have last (l : List ErrRec) : ((l ++ [r]).drop (l.length + 1 - 16)).getLast? = some r := by
      rw [List.drop_append_of_le_length (by omega), List.getLast?_concat]
    simp only [routeSeverity, severity, Nat.reduceLeDiff, true_or, if_true, le_refl, last]
  · simp [routeSeverity, severity, pins]

section
variable {e : ErrEvent} (fatal : e.severity = 4)

theorem tripRecorded_pkg : (tripRecorded h e).pkg = h.pkg := by
  show (logErr h e).pkg = _
  rw [logErr_rest]

include fatal

theorem keepsStored_tripRecorded : KeepsStored h (tripRecorded h e) := by
  obtain ⟨reg, flash, sec⟩ := (keepsWork_logErr h (e := e) (by omega)).stored
  exact ⟨reg, flash, sec⟩

theorem regBit_tripRecorded (i : Nat) : regBit (tripRecorded h e) (rPwr 0x20) i = regBit h (rPwr 0x20) i :=
  have kept : getReg (logErr h e) (rPwr 0x20) = getReg h (rPwr 0x20) :=
    getReg_errRecord h (by decide) (by rw [fatal]; decide)
  congrArg (bit · i) kept

theorem tripRecorded_pins : (tripRecorded h e).pins = { h.pins with mgmtAlertN := true, faultN := true } :=
  (logErr_of_fatal h fatal).2

theorem tripRecorded_sticky : (tripRecorded h e).errs.sticky.getLast? = some (recordOf h e) := (logErr_of_fatal h fatal).1

end

section
variable (cause unit tile : Nat)

theorem keepsStored_tripLogged : KeepsStored h (tripLogged cause unit tile h) := by
  have low : ¬ steadyReg (rPwr 0x20) := by simp only [steadyReg, rPwr, regOf, baseOf]; omega
  have latched : KeepsStored h (tripLatched cause tile h) :=
    (keepsStored_setReg h low _).trans ((keepsStored_setReg _ low _).trans (keepsStored_setReg _ low _))
  exact latched.trans (keepsStored_tripRecorded _ rfl)

theorem tripLogged_pkg : (tripLogged cause unit tile h).pkg = h.pkg := tripRecorded_pkg _

theorem tripLogged_pins : (tripLogged cause unit tile h).pins = { h.pins with mgmtAlertN := true, faultN := true } :=
  tripRecorded_pins _ rfl

theorem tripLogged_bit : regBit (tripLogged cause unit tile h) (rPwr 0x20) 0 = true := by
  rw [tripLogged, regBit_tripRecorded _ rfl, tripLatched,
    regBit_setRegFld_apart _ _ _ (.inl (by decide)),
    regBit_setRegFld_apart _ _ _ (.inl (by decide)), regBit_setRegBit_self _ _ _ (by decide)]

end

end Sys2Proof.Machine
end

section
/-! PROOFS. What an alarm leaves latched (R402-R404), and the settling of O44. -/

namespace Sys2Proof.Machine

variable (h : Hw)

/-! Alarms -/

/-- What stays from the detection of an alarm on: the latches and the state of the supplies. -/
structure KeepsLatches (h h' : Hw) : Prop where
  latches : alarmLatch h' = alarmLatch h
  supplies : h'.supplies = h.supplies

theorem KeepsLatches.refl (h : Hw) : KeepsLatches h h := ⟨rfl, rfl⟩

theorem KeepsLatches.trans {h g k : Hw} (a : KeepsLatches h g) (b : KeepsLatches g k) : KeepsLatches h k :=
  ⟨b.latches.trans a.latches, b.supplies.trans a.supplies⟩

theorem KeepsLatches.foldl {α : Type} {f : Hw → α → Hw} (step : ∀ h x, KeepsLatches h (f h x)) (xs : List α) (h : Hw) :
    KeepsLatches h (xs.foldl f h) :=
  List.foldlRecOn xs f (motive := KeepsLatches h) (.refl h) fun g k x _ => k.trans (step g x)

theorem not_workReg_latch : ¬ workReg (rSec 0x100) := by
  simp only [workReg, rPort, rSec, regOf, baseOf]
  rintro (_ | ⟨_, _, _, _⟩ | _ | _ | _) <;> omega

theorem WorkReach.keepsLatches {h h' : Hw} (w : WorkReach h h') : KeepsLatches h h' :=
  ⟨w.reg _ not_workReg_latch, w.supplies⟩

theorem keepsLatches_setReg {o : Nat} (apart : rSec 0x100 ≠ o) (v : Word) : KeepsLatches h (setReg h o v) :=
  ⟨getReg_setReg_ne h v apart, rfl⟩

theorem keepsLatches_setPower (p : PkgState) : KeepsLatches h (setPower h p) :=
  (keepsLatches_setReg h (by decide) _).trans ⟨getReg_setPkg _ p (by decide), setPkg_supplies ..⟩

theorem keepsLatches_eraseKeys : KeepsLatches h (eraseKeys h) := by
  have ended (g : Hw) (c : Coll) : KeepsLatches g (match collAt g c.slot with
      | none => g
      | some v => endColl g v 3 keyErased 0) := by
    split
    · exact .refl g
    · exact (workReach_endColl ..).keepsLatches
  have aborted (g : Hw) (e : Nat × Cmd) : KeepsLatches g (match cmdAt g e.1 with
      | some c => if movesKeys g e.1 c then abortTaskOf g e.1 keyErased else g
      | none => g) := by
    split
    · split_ifs
      · exact (workReach_abortTaskOf ..).keepsLatches
      · exact .refl g
    · exact .refl g
  have erased {g : Hw} (k : KeepsLatches h g) (s : SecAux) : KeepsLatches h { g with sec := s } :=
    ⟨k.latches, k.supplies⟩
  exact erased ((KeepsLatches.foldl ended ..).trans (.foldl aborted ..)) _

theorem keepsLatches_erasePolicy : KeepsLatches h (erasePolicy h) := by
  have signalled : KeepsLatches h { eraseKeys h with pins := { (eraseKeys h).pins with alarmN := true } } :=
    (keepsLatches_eraseKeys h).trans ⟨rfl, rfl⟩
  have left (g : Hw) : KeepsLatches g (leaveQuiet g) := by
    unfold leaveQuiet
    split_ifs <;> exact ⟨rfl, rfl⟩
  have dark (ps : List Nat) (g : Hw) : KeepsLatches g (ps.foldl darkenPort g) :=
    .foldl (fun g q => (workReach_darkenPort g q).keepsLatches) ps g
  simp only [erasePolicy]
  split_ifs
  · exact signalled.trans ((left _).trans ((dark ..).trans (keepsLatches_setPower ..)))
  · exact signalled

theorem keepsLatches_haltPackage : KeepsLatches h (haltPackage h) := by
  have disabled (g : Hw) (n : Nat) :
      KeepsLatches g (setRegBit (setRegBit g (rRingStatus n) 0 false) (rRingStatus n) 3 false) := by
    have apart : rSec 0x100 ≠ rRingStatus n := by simp only [rSec, regOf, baseOf, rRingStatus, rRing]; omega
    exact (keepsLatches_setReg g apart _).trans (keepsLatches_setReg _ apart _)
  have aborted (g : Hw) (e : Nat × Cmd) :
      KeepsLatches g (if e.2.phase ≠ .finished then abortCmd g e.1 keyErased 0 else g) := by
    split_ifs
    · exact (workReach_finish ..).keepsLatches
    · exact .refl g
  have dark (g : Hw) : KeepsLatches g (allPorts darkenPort g) :=
    .foldl (fun g q => (workReach_darkenPort g q).keepsLatches) _ g
  have noted {g : Hw} (s : SecAux) : KeepsLatches g { g with sec := s } := ⟨rfl, rfl⟩
  have stopped {g : Hw} (ts : List Stream) : KeepsLatches g { g with streams := ts } := ⟨rfl, rfl⟩
  unfold haltPackage
  extract_lets off collless idle streamless portless
  have off_k : KeepsLatches h off := .foldl disabled ..
  have collless_k : KeepsLatches h collless :=
    off_k.trans (.foldl (fun g (c : Coll) => (workReach_removeColl g c.slot).keepsLatches) ..)
  have idle_k : KeepsLatches h idle := collless_k.trans (.foldl aborted ..)
  have portless_k : KeepsLatches h portless := idle_k.trans ((stopped _).trans (dark _))
  exact portless_k.trans ((noted _).trans (workReach_logErr _ (by simp)).keepsLatches)

/-- A detected source is latched, and no supply changes by it. -/
theorem alarmDetectHw_latches {h : Hw} (on : h.pkg ≠ .off) {src : Nat} (l : src < 32) :
    (alarmDetectHw src h).supplies = h.supplies ∧ bit (alarmLatch (alarmDetectHw src h)) src = true := by
  have latched : bit (alarmLatch (setRegBit h (rSec 0x100) src true)) src = true := regBit_setRegBit_self h _ true l
  unfold alarmDetectHw
  rw [if_neg on]
  extract_lets live counted owner logged erased
  have live_k : KeepsLatches (setRegBit h (rSec 0x100) src true) live :=  ⟨getReg_freeReg_ne _ (by decide), rfl⟩
  have counted_k : KeepsLatches live counted := keepsLatches_setReg _ (by decide) _
  have owner_k : KeepsLatches counted owner := by
    unfold owner
    split_ifs
    · exact keepsLatches_setReg _ (by decide) _
    · exact .refl _
  have logged_k : KeepsLatches owner logged := (workReach_logErr _ (by simp)).keepsLatches
  have erased_k : KeepsLatches logged erased := by
    unfold erased
    split_ifs
    · exact .refl _
    · exact keepsLatches_erasePolicy _
  have kept := live_k.trans (counted_k.trans (owner_k.trans (logged_k.trans erased_k)))
  have shown {g : Hw} (k : KeepsLatches (setRegBit h (rSec 0x100) src true) g) :
      g.supplies = h.supplies ∧ bit (alarmLatch g) src = true :=
    ⟨k.supplies, (congrArg (bit · src) k.latches).trans latched⟩
  split_ifs
  · exact shown (kept.trans (keepsLatches_haltPackage _))
  · exact shown kept

/-! REFCLK_SYS -/

/-- The loss of REFCLK_SYS, before the alarm that it may be. -/
def withoutClock (h : Hw) : Hw := { h with supplies := { h.supplies with refclkSys := false } }

theorem refclkSysLossHw_of_running {h : Hw} (clock : h.supplies.refclkSys = true) (run : running h) :
    refclkSysLossHw h = alarmDetectHw 3 (withoutClock h) := if_pos ⟨clock, (running_iff h).mpr run⟩

theorem refclkSysLossHw_of_not {h : Hw} (not : ¬ (h.supplies.refclkSys = true ∧ running h)) :
    refclkSysLossHw h = withoutClock h :=
  if_neg fun ⟨clock, run⟩ => not ⟨clock, (running_iff h).mp run⟩

theorem refclkSysLossHw_clock : (refclkSysLossHw h).supplies.refclkSys = false := by
  by_cases run : h.supplies.refclkSys = true ∧ running h
  · rw [refclkSysLossHw_of_running run.1 run.2,
      (alarmDetectHw_latches (h := withoutClock h) run.2.1 (by decide)).1]
    rfl
  · rw [refclkSysLossHw_of_not run]
    rfl

/-- Without REFCLK_SYS no island has a clock: no command works and the link does not train. -/
theorem not_working_of_clock {h : Hw} (lost : h.supplies.refclkSys = false) : working h = false := by
  simp [working, lost]

theorem not_mayTrain_of_clock {h : Hw} (lost : h.supplies.refclkSys = false) : mayTrain h = false := by
  simp [mayTrain, lost]

/-! The stops -/

/-- A running package is stopped by a low VIN. -/
theorem vinLossHw_stops (f : Fuses) {h : Hw} {mv : Nat} (low : mv < 33000) (run : running h) :
    ConvertersStopped h (vinLossHw f mv h) := by
  rw [vinLossHw_of_low f h low, if_pos ((running_iff h).mpr run)]
  exact (convertersStopped_stopConverters f (.refl h) rfl).vinNoted mv

/-- A running package is stopped by the loss of VIOM or VANA. -/
theorem auxLossHw_stops (f : Fuses) {h : Hw} {x : AuxSupply} (other : x ≠ .vaux) (run : running h) :
    ConvertersStopped h (auxLossHw f x h) := by
  obtain ⟨pkg, converters, slots, starting, hbm, tile, flash⟩ := convertersStopped_stopConverters f (.refl h) rfl
  rw [auxLossHw_of_other f other run.1, if_pos ((running_iff h).mpr run)]
  exact ⟨pkg, converters, slots, starting, hbm, tile, flash⟩

/-! What a trip and the loss of VAUX leave -/

/-- What a trip of a running package leaves beside the stop: its record, the owed ramp and the pins. -/
structure Tripped (h h' : Hw) (c : TripCause) (r : ErrRec) : Prop where
  ramp : h'.supplies.needRamp = true
  status : regBit h' (rPwr 0x20) 0 = true
  fault : h'.pins.faultN = true
  thermal : c = .thermal → h'.pins.thermTripN = true
  last : h'.errs.sticky.getLast? = some r
  severity : r.severity = 4
  source : r.source = 0x0A
  silent : h'.host.aerSent = h.host.aerSent

/-- A record of any cause and a stop leave what a trip leaves (R430, R459). -/
theorem tripped_stopConverters (f : Fuses) (h : Hw) (c : TripCause) (cause unit tile : Nat) :
    ∃ r, Tripped h (stopConverters f (tripLogged cause unit tile { h with pins := tripPins c h.pins })) c r := by
  generalize at_ : { h with pins := tripPins c h.pins } = g
  obtain ⟨-, -, -, -, supplies, pins, sticky, aerSent, conv⟩ := stopFrame_stopConverters f (tripLogged cause unit tile g)
  refine ⟨recordOf (tripLatched cause tile g) (tripEvent cause unit), ?_, ?_, ?_, ?_, ?_, rfl, rfl, ?_⟩
  · rw [supplies]
    rfl
  · rw [regBit, conv]
    exact tripLogged_bit g cause unit tile
  · rw [pins, tripLogged_pins]
  · rintro rfl
    rw [pins, tripLogged_pins, ← at_]
    rfl
  · rw [sticky]
    exact tripRecorded_sticky _ rfl
  · rw [aerSent, ← at_]
    rfl

theorem conversionTripHw_trips (f : Fuses) {h : Hw} (run : running h) (c : TripCause) :
    ConvertersStopped h (conversionTripHw f c h) ∧ ∃ r, Tripped h (conversionTripHw f c h) c r := by
  obtain ⟨cause, unit, tile, trip⟩ := conversionTripHw_of_running f run c
  rw [trip]
  have pinned : KeepsStored h { h with pins := tripPins c h.pins } := ⟨fun _ _ => rfl, fun _ => rfl, rfl⟩
  exact ⟨convertersStopped_stopConverters f (pinned.trans (keepsStored_tripLogged _ cause unit tile))
    (tripLogged_pkg _ cause unit tile), tripped_stopConverters f h c cause unit tile⟩

theorem getReg_linkDown (h : Hw) : getReg (linkDown h) rHostLink = 0 := getReg_setReg_self h rHostLink 0

/-- Settles O44: every stop of the converters is the frame of its restart, a trip's record and pins stand over it, and
the alarm CGLITCH keeps its own latch. -/
theorem supplyLossStopsTheConverters : Obligations.SupplyLossStopsTheConverters := by
  intro s
  have parts {h' : Hw} (k : ConvertersStopped s.hw h') : h'.pkg = (if s.hw.pkg = .resigned then .resigned else .aux) ∧
      h'.supplies.converters = false ∧ h'.slots = [] ∧ h'.starting = none ∧
      (lentKeys s.hw = [] → ∀ a, h'.mem.read .hbm a = 0) ∧ (∀ a, h'.mem.read .tile a = 0) ∧
      (∀ a, h'.mem.read .flash a = s.hw.mem.read .flash a) :=
    ⟨k.pkg, k.converters, k.slots, k.starting, k.hbm, k.tile, k.flash⟩
  refine ⟨fun mv low _ => ?lowVin, fun mv low => ?noVin, fun mv high => ?inWindow, fun x other on => ?auxOther,
    fun on => ?vaux, fun run c => ?trips, fun idle c => ?noTrip, ?cxl, ?sysClock, fun clock off aux conv => ?glitch,
    fun clock idle => ?unpowered, fun lost => ?already⟩
  case lowVin =>
    refine ⟨_, effect_of_onHw (f := vinLossHw s.fuses mv) rfl, ?_, fun run => parts (vinLossHw_stops _ low run)⟩
    rw [vinLossHw_of_low _ _ low]
    rfl
  case noVin =>
    refine ⟨_, effect_of_onHw (f := vinLossHw s.fuses mv) rfl, ?_, ?_⟩ <;> rw [vinLossHw_of_low _ _ (by omega)]
    · rfl
    · exact vinNoted_needRamp _ low
  case inWindow =>
    have done : effect (.vinLoss mv) s (vinLossHw s.fuses mv s.hw) := effect_of_onHw rfl
    rwa [vinLossHw, if_neg (by omega)] at done
  case auxOther =>
    refine ⟨_, effect_of_onHw (f := auxLossHw s.fuses x) rfl, ?_, fun run => parts (auxLossHw_stops _ other run)⟩
    rw [auxLossHw_of_other _ other on]
  case vaux =>
    have done : effect (.auxSupplyLoss .vaux) s (auxLossHw s.fuses .vaux s.hw) := effect_of_onHw rfl
    rw [auxLossHw_of_vaux _ on] at done
    exact ⟨_, done, rfl, restart_slots s.hw false, rfl, rfl, rfl, restart_hbm s.hw false, restart_flash s.hw false⟩
  case trips =>
    obtain ⟨stop, r, t⟩ := conversionTripHw_trips s.fuses run c
    exact ⟨_, r, effect_of_onHw rfl, parts stop, t.ramp, t.status, t.fault, t.thermal, t.last, t.severity, t.source,
      t.silent⟩
  case noTrip =>
    have done : effect (.conversionTrip c) s (conversionTripHw s.fuses c s.hw) := effect_of_onHw rfl
    rwa [conversionTripHw_of_not_running _ idle] at done
  case cxl => exact ⟨_, effect_of_onHw (f := refclkCxlLossHw) rfl, rfl, getReg_linkDown _, rfl⟩
  case sysClock =>
    have lost := refclkSysLossHw_clock s.hw
    exact ⟨_, effect_of_onHw (f := refclkSysLossHw) rfl, lost, not_working_of_clock lost, not_mayTrain_of_clock lost⟩
  case glitch =>
    refine ⟨_, effect_of_onHw (f := refclkSysLossHw) rfl, ?_⟩
    rw [refclkSysLossHw_of_running clock ⟨off, aux, conv⟩]
    exact (alarmDetectHw_latches (h := withoutClock s.hw) off (by decide)).2
  case unpowered =>
    have done : effect .refclkSysLoss s (refclkSysLossHw s.hw) := effect_of_onHw rfl
    rwa [refclkSysLossHw_of_not fun ⟨_, off, aux, conv⟩ => by simp [off, aux, conv] at idle] at done
  case already =>
    have done : effect .refclkSysLoss s (refclkSysLossHw s.hw) := effect_of_onHw rfl
    have same : withoutClock s.hw = s.hw := by rw [withoutClock, ← lost]
    rwa [refclkSysLossHw_of_not fun ⟨clock, _⟩ => by simp [lost] at clock, same] at done

end Sys2Proof.Machine
end

section
/-! PROOFS. The world of the training block (R267) and SKIP_ON_OVF of UPDATE (R287): O19, O26. -/

namespace Sys2Proof.Machine

variable {h : Hw} {slot : Nat} {c : Cmd}

/-! The world of the training block -/

theorem inTrainWorld_of_own {f : Hw → Hw} (own : c.world = trainWorld h) : inTrainWorld slot c f h = f h := if_pos own

theorem inTrainWorld_of_other {f : Hw → Hw} (other : c.world ≠ trainWorld h) :
    inTrainWorld slot c f h = finish h slot 0x13 0 0 := if_neg other

/-- The secure world's is the training block with TRAIN_CFG.WORLD set (R267). -/
theorem trainWorld_eq_secure_iff : trainWorld h = .secure ↔ regBit h 0x170120 31 = true := by
  unfold trainWorld
  split_ifs with bit_ <;> simp [bit_]

theorem ne_trainWorld_of_other (other : c.world = .secure ↔ regBit h 0x170120 31 = false) :
    c.world ≠ trainWorld h := by
  intro same
  rw [same, trainWorld_eq_secure_iff] at other
  cases bit_ : regBit h 0x170120 31 <;> simp [bit_] at other

section
variable {i : Instr} {op : Nat} {f : Cmd → Hw → Hw} {s : State}

/-- A ready command of class 0x8 does its work in its own world. -/
theorem effect_of_own (arm : exec i s = onHw (withCmd slot op fun c => inTrainWorld slot c (f c)) s)
    (free : holdsTiles op = false) (r : ready s.hw slot op c) (own : c.world = trainWorld s.hw) :
    effect i s (f c s.hw) := by
  have whole := effect_of_onHw arm
  rwa [withCmd_of_ready r free, inTrainWorld_of_own own] at whole

/-- In the other world it ends BAD_WORLD. -/
theorem ends_of_other (arm : exec i s = onHw (withCmd slot op fun c => inTrainWorld slot c (f c)) s)
    (free : holdsTiles op = false) (r : ready s.hw slot op c) (other : c.world ≠ trainWorld s.hw) :
    ∃ h', effect i s h' ∧ endsOnly s.hw h' slot c 0x13 0 0 := by
  have whole := effect_of_onHw arm
  rw [withCmd_of_ready r free, inTrainWorld_of_other other] at whole
  exact ⟨_, whole, endsOnly_finish (active_some r.1).1⟩

end

/-- Settles O19: the three opcodes share the gate of the block's world. -/
theorem trainingBlockWorld : Obligations.TrainingBlockWorld := by
  intro slot s c roots other
  have ne := ne_trainWorld_of_other other
  exact ⟨fun r => ends_of_other rfl rfl r ne, fun r => ends_of_other rfl rfl r ne,
    fun r => ends_of_other rfl rfl r ne⟩

/-! UPDATE -/

/-- UPDATE asks for the step's decision, and has not read its segments yet (R287, log 81). -/
def asksDecision (c : Cmd) : Prop := (hOpflags c.packet).testBit 1 = true ∧ c.segs = none

theorem updateRun_of_undecided (asks : asksDecision c)
    (bad : (stepOpen h = false ∧ stepClosing h = false) ∨ stepDecided h = false) :
    updateRun slot c h = finish h slot 0x11 stateBad 0 := by
  obtain ⟨flag, new⟩ := asks
  have bad' : (!(stepOpen h || stepClosing h)) = true ∨ (!stepDecided h) = true := by simpa using bad
  simp only [updateRun, flag, new, Option.isNone_none, and_self, if_true, if_pos bad']

theorem updateRun_of_decided (asks : asksDecision c) (step : stepOpen h = true ∨ stepClosing h = true)
    (decided : stepDecided h = true) : updateRun slot c h =
      if stepSkip h = true then finish h slot 0x50 0 0 else pawnRun slot (updateJob slot c) c h := by
  obtain ⟨flag, new⟩ := asks
  have good : ¬ ((!(stepOpen h || stepClosing h)) = true ∨ (!stepDecided h) = true) := by
    simpa [decided] using or_iff_not_imp_left.mp step
  simp only [updateRun, flag, new, Option.isNone_none, and_self, if_true, if_neg good]

theorem updateRun_of_not_asks (not : ¬ asksDecision c) : updateRun slot c h = pawnRun slot (updateJob slot c) c h := by
  refine if_neg fun ⟨flag, new⟩ => not ⟨flag, Option.isNone_iff_eq_none.mp new⟩

/-- Settles O26: the decision is asked first, and what goes on runs as its job does. -/
theorem updateSkipsOnOverflow : Obligations.UpdateSkipsOnOverflow := by
  intro slot s c r
  obtain ⟨at_, -⟩ := active_some r.1
  have done : effect (.update slot) s (withCmd slot.val 0x61 (updateRun slot.val) s.hw) := effect_of_onHw rfl
  rw [withCmd_of_ready r rfl] at done
  refine ⟨fun flag new bad => ?bad, fun flag new step decided skip => ?skipped, fun runs st d0 d1 h' ends => ?runs⟩
  case bad =>
    have undecided : (stepOpen s.hw = false ∧ stepClosing s.hw = false) ∨ stepDecided s.hw = false :=
      bad.symm.imp_right And.right
    rw [updateRun_of_undecided ⟨flag, new.1⟩ undecided] at done
    exact ⟨_, done, endsOnly_finish at_⟩
  case skipped =>
    rw [updateRun_of_decided ⟨flag, new.1⟩ step decided, if_pos skip] at done
    exact ⟨_, done, endsOnly_finish at_⟩
  case runs =>
    have run : updateRun slot.val c s.hw = pawnRun slot.val (updateJob slot.val c) c s.hw := by
      by_cases asks : asksDecision c
      · obtain plain | read | ⟨step, decided, skip⟩ := runs
        · exact absurd asks.1 (by simp [plain])
        · exact absurd asks.2 (Option.isSome_iff_ne_none.mp read)
        · rw [updateRun_of_decided asks step decided, if_neg (by simp [skip])]
      · exact updateRun_of_not_asks asks
    rw [run, pawnRun_of_pawnEnds ends] at done
    exact ⟨done, ended_of_pawnEnds ends⟩

end Sys2Proof.Machine
end

section
/-! PROOFS. STEP_END and its replica audit (R270, R345, R346): O22. -/

namespace Sys2Proof.Machine

variable {h : Hw} {slot : Nat} {c : Cmd} {roots : List (List Byte)}

/-! The end of a command of class 8 and above leaves no memory open -/

theorem late_of_opcode {op : Nat} (code : c.opcode = op) (late : 0x80 ≤ op := by decide) : 7 < c.cls := by
  rw [cls_of_opcode code]
  omega

theorem mem_finish_late {st d0 d1 : Nat} (e : cmdAt h slot = some c) (late : 7 < c.cls) :
    (finish h slot st d0 d1).mem = h.mem := mem_finish e (overlaps_control (.inr late)) (workBuffer_control (.inr late))

/-- The registers of the checkpoint block stand over the end of a command. -/
theorem getReg_note_finish {st d0 d1 r : Nat} (e : cmdAt h slot = some c) (late : 7 < c.cls) (l : r < 0x10000) :
    getReg (finish h slot st d0 d1) (0x600000 + r) = getReg h (0x600000 + r) := by
  rw [getReg_finish e, leaveOpen_plain (workBuffer_control (.inr late)) (overlaps_control (.inr late)), notePast_eq]
  refine getReg_freeTiles _ _ _ fun t _ => ⟨?_, ?_⟩ <;> (simp only [rTileFreq, regOf, baseOf]; omega)

/-! The work of STEP_END -/

/-- DETAIL1 of a STEP_END that closes its step (R270). -/
def closeDetail (h : Hw) : Nat :=
  (stepSkip h).toNat + 2 * (regBit h rTrainStatus 2).toNat + 4 * (regBit h rTrainStatus 3).toNat +
    enc2 8 (liveExp h) * 2 ^ 8 + enc2 8 (nextExp h) * 2 ^ 16

theorem closeStep_eq : closeStep slot h = finish h slot 0 (stepNum h) (closeDetail h) := rfl

section
variable (e : cmdAt h slot = some c)
include e

theorem stepEndWork_of_closing (closes : c.priv = [1]) : stepEndWork slot roots c h =
    if drained h slot = false then h
    else if auditDue h = false then closeStep slot h
    else if (audit slot roots h).1 = true then closeStep slot (audit slot roots h).2
    else if regBit (audit slot roots h).2 0x600000 2 = true then
      modCmd (audit slot roots h).2 slot fun c => { c with priv := [2] }
    else (audit slot roots h).2 := by
  rcases ran : audit slot roots h with ⟨go, g⟩
  cases go <;> simp [stepEndWork, closes, e, ran]

/-- After a divergence it waits for the refresh (log 27). -/
theorem stepEndWork_of_refresh (waits : c.priv = [2]) :
    stepEndWork slot roots c h = if regBit h 0x600000 2 = true then h else closeStep slot h := by
  simp [stepEndWork, waits, e]

theorem stepEndWork_of_stray (started : c.priv ≠ []) (other : c.priv ≠ [1]) (stray : c.priv ≠ [2]) :
    stepEndWork slot roots c h = finish h slot 0x11 stateBad 0 := by
  simp only [stepEndWork, if_neg started, e]

end

/-- An audit whose group has no member shows SKIPPED and goes on (R345). -/
theorem audit_of_no_member (none_ : (auditGroup h).size = 0) : audit slot roots h = (true, setReg h 0x600020 2) :=
  if_pos none_

/-- What a STEP_END reports is in the registers of the training block. -/
theorem closeDetail_setReg {o : Nat} (apart : 0x180000 ≤ o) (v : Word) :
    closeDetail (setReg h o v) = closeDetail h := by
  have status : getReg (setReg h o v) rTrainStatus = getReg h rTrainStatus :=
    getReg_setReg_ne _ _ (by simp only [rTrainStatus]; omega)
  have scale : getReg (setReg h o v) rTrainScale = getReg h rTrainScale :=
    getReg_setReg_ne _ _ (by simp only [rTrainScale]; omega)
  simp only [closeDetail, stepSkip, liveExp, nextExp, regBit, regFld, status, scale]

theorem stepNum_setReg {o : Nat} (apart : 0x180000 ≤ o) (v : Word) : stepNum (setReg h o v) = stepNum h := by
  rw [stepNum, getReg64, getReg_setReg_ne _ _ (by simp only [rStepLo]; omega),
    getReg_setReg_ne _ _ (by simp only [rStepLo]; omega)]
  rfl

/-- The final record of a STEP_END that closed its step ends the closing state (R270). -/
theorem closesStep_closes {d : Cmd} (code : d.opcode = 0x82) (done : d.status = 0) (taken : d.refused = false) :
    stepClosing (closesStep h d) = false ∧ stepOpen (closesStep h d) = false := by
  have cleared : closesStep h d = setRegFld h rTrainStatus 1 0 0 := if_pos ⟨code, done, by simp [taken]⟩
  have bit_ {i : Nat} (l : i ≤ 1) : regBit (closesStep h d) rTrainStatus i = false := by
    rw [cleared, regBit, setRegFld, getReg_setReg_self, bit, getLsbD_setFld, if_pos ⟨Nat.zero_le _, l, by omega⟩,
      Nat.zero_testBit]
  exact ⟨bit_ le_rfl, bit_ (Nat.zero_le _)⟩

/-- Settles O22: each stage of the command by the equation of its work. -/
theorem stepEndClosesTheStep : Obligations.StepEndClosesTheStep := by
  intro slot s c roots r own
  obtain ⟨at_, code, -⟩ := active_some r.1
  have done : effect (.stepEnd slot roots) s (stepEndWork slot.val roots c s.hw) := effect_of_own rfl rfl r own
  refine ⟨fun closes owed => ?owed, fun closes clear => ?drained, fun waits pending => ?pending,
    fun waits refreshed => ?refreshed, fun started other stray => ?stray, fun h d => closesStep_closes⟩
  case owed => rwa [stepEndWork_of_closing at_ closes, if_pos owed] at done
  case pending => rwa [stepEndWork_of_refresh at_ waits, if_pos pending] at done
  case refreshed =>
    rw [stepEndWork_of_refresh at_ waits, if_neg (by simp [refreshed])] at done
    exact ⟨_, done, endsOnly_finish at_⟩
  case stray =>
    rw [stepEndWork_of_stray at_ started other stray] at done
    exact ⟨_, done, endsOnly_finish at_⟩
  case drained =>
    rw [stepEndWork_of_closing at_ closes, if_neg (by simp [clear])] at done
    refine ⟨fun none_ => ?none, fun due empty => ?empty, fun h1 c1 due ran at1 => ?goesOn,
      fun h1 c1 due ran at1 => ⟨fun held => ?held, fun gathers => ?gathers⟩⟩
    case none =>
      rw [if_pos none_] at done
      exact ⟨_, done, endsOnly_finish at_⟩
    case empty =>
      rw [if_neg (by simp [due]), audit_of_no_member empty, if_pos rfl, closeStep_eq, closeDetail_setReg (by decide),
        stepNum_setReg (by decide)] at done
      have at1 : cmdAt (setReg s.hw 0x600020 2) slot.val = some c := at_
      refine ⟨_, done, ended_finish at1, ?_, mem_finish_late at1 (late_of_opcode code)⟩
      exact (getReg_note_finish (r := 0x20) at1 (late_of_opcode code) (by decide)).trans (getReg_setReg_self ..)
    case goesOn =>
      rw [if_neg (by simp [due]), ran, if_pos rfl] at done
      exact ⟨done, ended_finish at1⟩
    case held =>
      rw [if_neg (by simp [due]), ran, if_neg Bool.false_ne_true, if_pos held, modCmd_of_some _ _ at1] at done
      exact done
    case gathers =>
      rw [if_neg (by simp [due]), ran, if_neg Bool.false_ne_true, if_neg (by simp [gathers])] at done
      exact done

end Sys2Proof.Machine
end

section
/-! PROOFS. LOSS_SCALE_CHECK (R279, R280): what stays through the end of a command, what a decision writes, and O23. -/

namespace Sys2Proof.Machine

variable {h : Hw} {slot : Nat} {c : Cmd}

/-! The training block through the end of a command -/

/-- The steady registers, the training block's own state and memory stay. -/
structure KeepsTraining (h h' : Hw) : Prop where
  reg : ∀ o, steadyReg o → getReg h' o = getReg h o
  train : h'.train = h.train
  mem : h'.mem = h.mem

theorem KeepsTraining.trans {h g k : Hw} (a : KeepsTraining h g) (b : KeepsTraining g k) : KeepsTraining h k :=
  ⟨fun o s => (b.reg o s).trans (a.reg o s), b.train.trans a.train, b.mem.trans a.mem⟩

theorem KeepsTraining.regBit {h' : Hw} (k : KeepsTraining h h') {o : Nat} (s : steadyReg o) (i : Nat) :
    regBit h' o i = regBit h o i := by rw [Machine.regBit, k.reg o s, Machine.regBit]

theorem KeepsTraining.regFld {h' : Hw} (k : KeepsTraining h h') {o : Nat} (s : steadyReg o) (hi lo : Nat) :
    regFld h' o hi lo = regFld h o hi lo := by rw [Machine.regFld, k.reg o s, Machine.regFld]

theorem steady_trainStatus : steadyReg rTrainStatus := .inl (by decide)
theorem steady_trainScale : steadyReg rTrainScale := .inl (by decide)

theorem keepsTraining_finish (e : cmdAt h slot = some c) (late : 7 < c.cls) (st d0 d1 : Nat) :
    KeepsTraining h (finish h slot st d0 d1) where
  reg := (keepsStored_finish h slot st d0 d1).reg
  train := by
    rw [finish_eq e, leaveOpen_plain (workBuffer_control (.inr late)) (overlaps_control (.inr late)), notePast_eq]
  mem := mem_finish_late e late

theorem keepsTraining_modCmd (h : Hw) (k : Nat) (f : Cmd → Cmd) : KeepsTraining h (modCmd h k f) :=
  ⟨fun _ _ => getReg_modCmd .., by unfold modCmd; split <;> rfl, mem_modCmd ..⟩

theorem keepsTraining_logErr (h : Hw) {e : ErrEvent} (l : e.severity ≤ 4) : KeepsTraining h (logErr h e) :=
  ⟨(keepsWork_logErr h l).reg, by rw [logErr_rest], (keepsWork_logErr h l).mem⟩

/-! The end with an error record -/

theorem ended_modCmd {st d0 d1 : Nat} {f : Cmd → Cmd} (f_keeps : ∀ c, (f c).phase = c.phase ∧ (f c).status = c.status ∧
      (f c).detail0 = c.detail0 ∧ (f c).detail1 = c.detail1) (end_ : ended h slot st d0 d1) :
    ended (modCmd h slot f) slot st d0 d1 := by
  obtain ⟨x, at_, phase, status, detail0, detail1⟩ := end_
  obtain ⟨phase', status', detail0', detail1'⟩ := f_keeps x
  refine ⟨f x, ?_, phase'.trans phase, status'.trans status, detail0'.trans detail0, detail1'.trans detail1⟩
  rw [cmdAt_modCmd, if_pos rfl, at_]
  rfl

/-- A command that ends with an error record ends as without it, and names the record. -/
theorem finishErr_ends (e : cmdAt h slot = some c) (late : 7 < c.cls) (st d0 d1 source kind unit addr : Nat) :
    ended (finishErr h slot st d0 d1 source kind unit addr) slot st d0 d1 ∧
    KeepsTraining h (finishErr h slot st d0 d1 source kind unit addr) := by
  have logged : KeepsTraining h (cmdErr h slot c st d0 d1 source kind unit addr).2 := keepsTraining_logErr h (by simp)
  have at1 : cmdAt (cmdErr h slot c st d0 d1 source kind unit addr).2 slot = some c :=
    (congrArg (smFind · slot) (keepsWork_errRecord h (by simp)).slots).trans e
  have whole : finishErr h slot st d0 d1 source kind unit addr =
      modCmd (finish (cmdErr h slot c st d0 d1 source kind unit addr).2 slot st d0 d1) slot
        fun x => { x with errRef := (cmdErr h slot c st d0 d1 source kind unit addr).1 } := by
    rw [finishErr, e]
  rw [whole]
  exact ⟨ended_modCmd (fun _ => ⟨rfl, rfl, rfl, rfl⟩) (ended_finish at1),
    (logged.trans (keepsTraining_finish at1 late ..)).trans (keepsTraining_modCmd ..)⟩

/-! Exponents -/

theorem sext_bounds (v : Nat) : -128 ≤ sext 8 v ∧ sext 8 v ≤ 127 := by
  simp only [sext]
  split <;> omega

/-- An exponent within its range is what its field reads as. -/
theorem sext_enc2 {e : Int} (lo : -128 ≤ e) (hi : e ≤ 127) : sext 8 (enc2 8 e % 2 ^ 8) = e := by
  simp only [sext, enc2]
  split_ifs <;> omega

/-! The decision -/

/-- The clean checks with this one. -/
def cleanChecks (h : Hw) : Nat := min (h.train.cleanRun + 1) (2 ^ 32 - 1)

/-- INTERVAL is reached. -/
def intervalReached (h : Hw) : Bool :=
  decide (regFld h 0x170128 15 0 ≠ 0) && decide (regFld h 0x170128 15 0 ≤ cleanChecks h)

/-- NEXT_EXP of a decision (R280). -/
def nextScale (ovf : Bool) (h : Hw) : Int :=
  if ovf then max (liveExp h - 1) (floorExp h)
  else if intervalReached h then min (liveExp h + 1) (ceilExp h) else liveExp h

/-- The state that a decision leaves before the end of its command. -/
def scaleDecided (ovf : Bool) (h : Hw) : Hw :=
  let g := setCleanRun (setNextExp (setRegBit h rTrainStatus 6 true) (nextScale ovf h))
    (if ovf || intervalReached h then 0 else cleanChecks h)
  if ovf then bumpSat (setRegBit g rTrainStatus 5 true) 0x170018 1 else g

/-- DETAIL0 of a decision. -/
def scaleDetail (ovf : Bool) (h : Hw) : Nat :=
  ovf.toNat + (ovf && decide (nextScale ovf h = liveExp h)).toNat * 2 +
    (decide (liveExp h < nextScale ovf h)).toNat * 4 + enc2 8 (liveExp h) * 2 ^ 8 + enc2 8 (nextScale ovf h) * 2 ^ 16

theorem regFld_setRegBit_ne {o o' : Nat} (ne : o' ≠ o) (i : Nat) (b : Bool) (hi lo : Nat) :
    regFld (setRegBit h o i b) o' hi lo = regFld h o' hi lo := by
  rw [regFld, setRegBit, getReg_setReg_ne _ _ ne, regFld]

theorem decideScale_eq (ovf : Bool) : decideScale slot ovf h =
    finish (scaleDecided ovf h) slot 0 (scaleDetail ovf h) (scaleDecided ovf h).train.cleanRun := by
  have interval : regFld (setRegBit h rTrainStatus 6 true) 0x170128 15 0 = regFld h 0x170128 15 0 :=
    regFld_setRegBit_ne (by decide) ..
  have floor : floorExp (setRegBit h rTrainStatus 6 true) = floorExp h := by
    rw [floorExp, regFld_setRegBit_ne (by decide), floorExp]
  have ceil : ceilExp (setRegBit h rTrainStatus 6 true) = ceilExp h := by
    rw [ceilExp, regFld_setRegBit_ne (by decide), ceilExp]
  cases ovf <;> simp only [decideScale, interval, floor, ceil] <;> rfl

theorem getReg_setCleanRun (n o : Nat) : getReg (setCleanRun h n) o =
    if o = 0x170010 then BitVec.ofNat 32 (min n 65535) else getReg h o := getReg_setReg ..

section
variable (ovf : Bool)

/-- The registers that a decision writes, but CLEAN_RUN. -/
theorem scaleDecided_writes :
    getReg (scaleDecided ovf h) rTrainScale = setFld (getReg h rTrainScale) 7 0 (enc2 8 (nextScale ovf h)) ∧
    getReg (scaleDecided ovf h) rTrainStatus = (if ovf = true then setBit (setBit (getReg h rTrainStatus) 6 true) 5 true
      else setBit (getReg h rTrainStatus) 6 true) ∧
    getReg (scaleDecided ovf h) 0x170018 =
      (if ovf = true then satAdd (getReg h 0x170018) 1 else getReg h 0x170018) := by
  cases ovf <;>
    simp [scaleDecided, bumpSat, setRegBit, setNextExp, setRegFld, getReg_setReg, getReg_setCleanRun, rTrainScale,
      rTrainStatus]

theorem nextScale_bounds : -128 ≤ nextScale ovf h ∧ nextScale ovf h ≤ 127 := by
  have live : -128 ≤ liveExp h ∧ liveExp h ≤ 127 := sext_bounds _
  have floor : -128 ≤ floorExp h ∧ floorExp h ≤ 127 := sext_bounds _
  have ceil : -128 ≤ ceilExp h ∧ ceilExp h ≤ 127 := sext_bounds _
  unfold nextScale
  split_ifs <;> omega

theorem nextExp_scaleDecided : nextExp (scaleDecided ovf h) = nextScale ovf h := by
  obtain ⟨lo, hi⟩ := nextScale_bounds (h := h) ovf
  obtain ⟨scale, -⟩ := scaleDecided_writes (h := h) ovf
  rw [nextExp, regFld, scale, fld_setFld_mod _ _ _ _ (by decide)]
  exact sext_enc2 lo hi

theorem liveExp_scaleDecided : liveExp (scaleDecided ovf h) = liveExp h := by
  obtain ⟨scale, -⟩ := scaleDecided_writes (h := h) ovf
  rw [liveExp, regFld, scale, fld_setFld_other _ _ _ _ _ _ (.inr (by decide)), liveExp, regFld]

theorem stepDecided_scaleDecided : stepDecided (scaleDecided ovf h) = true := by
  obtain ⟨-, status, -⟩ := scaleDecided_writes (h := h) ovf
  rw [stepDecided, regBit, status]
  cases ovf <;> simp [bit_setBit]

theorem stepSkip_scaleDecided : stepSkip (scaleDecided ovf h) = (ovf || stepSkip h) := by
  obtain ⟨-, status, -⟩ := scaleDecided_writes (h := h) ovf
  rw [stepSkip, regBit, status]
  cases ovf <;> simp [stepSkip, regBit, bit_setBit]

theorem skipped_scaleDecided : getReg (scaleDecided ovf h) 0x170018 =
    if ovf = true then satAdd (getReg h 0x170018) 1 else getReg h 0x170018 := (scaleDecided_writes ovf).2.2

theorem cleanRun_scaleDecided : (scaleDecided ovf h).train.cleanRun =
    if ovf || intervalReached h then 0 else cleanChecks h := by cases ovf <;> rfl

theorem mem_scaleDecided : (scaleDecided ovf h).mem = h.mem := by cases ovf <;> rfl

theorem cmdAt_scaleDecided (k : Nat) : cmdAt (scaleDecided ovf h) k = cmdAt h k := by cases ovf <;> rfl

theorem scaleDetail_mod : scaleDetail ovf h % 2 = ovf.toNat := by
  have := Bool.toNat_lt ovf
  unfold scaleDetail
  omega

end

/-! The check -/

/-- Agreement is asked for, and an overflow is uncovered or no sample was taken (R279). -/
def unagreed (h : Hw) : Prop :=
  regBit h 0x170120 0 = true ∧ (regBit h rTrainStatus 4 = true ∨ getReg h 0x170014 = 0)

/-- The overflow that a decision rests on. -/
def checkedOverflow (h : Hw) : Bool :=
  if regBit h 0x170120 0 = true then regBit h rTrainStatus 3 else regBit h rTrainStatus 2

theorem lossScaleWork_of_bad (bad : stepOpen h = false ∨ stepDecided h = true) :
    lossScaleWork slot h = finish h slot 0x11 stateBad 0 := if_pos (by simpa using bad)

section
variable (open_ : stepOpen h = true) (undecided : stepDecided h = false)
include open_ undecided

theorem lossScaleWork_of_unagreed (un : unagreed h) : lossScaleWork slot h =
    finishErr (setRegBit h rTrainStatus 8 true) slot 0x52 0 0 0x0B 1 0 0 := by
  rw [lossScaleWork, if_neg (by simp [open_, undecided]), if_pos un.1, if_pos un.2]

theorem lossScaleWork_of_agreed (agreed : ¬ unagreed h) :
    lossScaleWork slot h = decideScale slot (checkedOverflow h) h := by
  rw [lossScaleWork, if_neg (by simp [open_, undecided]), checkedOverflow]
  split_ifs with asked un
  · exact absurd ⟨asked, un⟩ agreed
  · rfl
  · rfl

end

/-- Settles O23: the refusals end the command, and a decision is what `scaleDecided` writes, which its end keeps. -/
theorem lossScaleDecision : Obligations.LossScaleDecision := by
  intro slot s c r own
  obtain ⟨at_, code, -⟩ := active_some r.1
  have late : 7 < c.cls := late_of_opcode code
  have done : effect (.lossScaleCheck slot) s (lossScaleWork slot.val s.hw) :=
    effect_of_own (f := fun _ => lossScaleWork slot.val) rfl rfl r own
  refine ⟨fun bad => ?bad, fun open_ undecided un => ?unagreed, fun open_ undecided agreed => ?decides⟩
  case bad =>
    rw [lossScaleWork_of_bad bad] at done
    exact ⟨_, done, endsOnly_finish at_⟩
  case unagreed =>
    rw [lossScaleWork_of_unagreed open_ undecided un] at done
    have at1 : cmdAt (setRegBit s.hw rTrainStatus 8 true) slot.val = some c := at_
    obtain ⟨end_, keeps⟩ := finishErr_ends at1 late 0x52 0 0 0x0B 1 0 0
    refine ⟨_, done, end_, ?_, ?_, ?_, keeps.train, keeps.mem⟩
    · rw [keeps.regBit steady_trainStatus, regBit_setRegBit_self _ _ _ (by decide)]
    · rw [stepDecided, keeps.regBit steady_trainStatus, regBit_setRegBit_ne _ _ _ (by decide) (by decide)]
      exact undecided
    · rw [nextExp, keeps.regFld steady_trainScale, regFld_setRegBit_ne (by decide), nextExp]
  case decides =>
    rw [lossScaleWork_of_agreed open_ undecided agreed, decideScale_eq] at done
    have at1 := (cmdAt_scaleDecided (h := s.hw) (checkedOverflow s.hw) slot.val).trans at_
    have keeps := keepsTraining_finish at1 late 0 (scaleDetail (checkedOverflow s.hw) s.hw)
      (scaleDecided (checkedOverflow s.hw) s.hw).train.cleanRun
    have next := (congrArg (sext 8) (keeps.regFld steady_trainScale 7 0)).trans (nextExp_scaleDecided _)
    have skip := (keeps.regBit steady_trainStatus 5).trans (stepSkip_scaleDecided _)
    have run := (congrArg TrainAux.cleanRun keeps.train).trans (cleanRun_scaleDecided _)
    have count := (keeps.reg 0x170018 (.inl (by decide))).trans (skipped_scaleDecided _)
    refine ⟨_, scaleDetail (checkedOverflow s.hw) s.hw, done, ?end_,
      (keeps.regBit steady_trainStatus 6).trans (stepDecided_scaleDecided _),
      (congrArg (sext 8) (keeps.regFld steady_trainScale 23 16)).trans (liveExp_scaleDecided _),
      keeps.mem.trans (mem_scaleDecided _), scaleDetail_mod _, fun ovf => ?overflow, fun clean => ?clean⟩
    case end_ =>
      rw [keeps.train]
      exact ended_finish at1
    case overflow =>
      have ovf : checkedOverflow s.hw = true := ovf
      simp only [ovf] at next skip run count ⊢
      exact ⟨next, skip, run, count⟩
    case clean =>
      have clean : checkedOverflow s.hw = false := clean
      simp only [clean] at next skip run count ⊢
      refine ⟨skip, count, fun some_ reached => ?_, fun short => ?_⟩
      · have reached : intervalReached s.hw = true := by
          simp only [intervalReached, Bool.and_eq_true, decide_eq_true_eq]
          exact ⟨some_, reached⟩
        simp only [nextScale, reached] at next run
        exact ⟨next, run⟩
      · have short : intervalReached s.hw = false := by
          simp only [intervalReached, Bool.and_eq_false_iff, decide_eq_false_iff_not, not_not, not_le]
          exact short
        simp only [nextScale, short] at next run
        exact ⟨next, run⟩

end Sys2Proof.Machine
end

section
/-! PROOFS. The commits of the training set, of a route map and of FABRIC_CFG (R293, R310, R315, R328, R475): O24. -/

namespace Sys2Proof.Machine

variable {h : Hw} {w : World} {m : Nat}

/-! TRAIN_COMMIT -/

/-- A sound training set pends, and an epoch that was disarmed holds it no more (R293). -/
def trainPending (h : Hw) : Hw :=
  { h with train := { h.train with pendingSet := some (snapSet h 0x170100 0x170120 7) },
           fabric := { h.fabric with heldTrain := false } }

theorem trainCommitHw_of_sound (sound : firstCause (trainCauses h w) = none) :
    trainCommitHw w h = setRegBit (trainPending h) rTrainStatus 7 true := by
  rw [trainCommitHw, sound]
  rfl

theorem trainCommitHw_of_cause {x : Nat × Nat} (cause : firstCause (trainCauses h w) = some x) :
    trainCommitHw w h = rejectSet h 0x170144 x.1 0 0 := by rw [trainCommitHw, cause]

/-- Setting a bit of one register keeps the others. -/
theorem regsKept_setRegBit (h : Hw) (o i : Nat) (b : Bool) {offs : List Nat} (m : o ∈ offs) :
    regsKept h (setRegBit h o i b) offs := fun _ n => getReg_setReg_ne _ _ fun e => n (e ▸ m)

/-- A refused commit shows REJECT and its cause, and changes its status register alone (R475). -/
theorem rejectSet_refuses (h : Hw) (off cause : Nat) : regBit (rejectSet h off cause 0 0) off 31 = true ∧
    regFld (rejectSet h off cause 0 0) off 30 28 = cause % 8 ∧ onlyRegs h (rejectSet h off cause 0 0) [off] :=
  have ⟨reject, cause_, _⟩ := rejectSet_shows h off cause 0 (bits := 0) (by decide)
  ⟨reject, cause_, (rejectSet_onlyRegsIn List.mem_cons_self ..).onlyRegs⟩

/-! MAP_COMMIT -/

/-- The staged copies of a map, under the offsets of its live ones. -/
def mapSnap (h : Hw) (m : Nat) : Snapshot := snapSet h (stgMap m 0) (rMap m 0) 192

/-- A map waits for the armed epoch. -/
def mapPending (h : Hw) (m : Nat) : Hw :=
  { h with fabric := { h.fabric with pendingMaps := smPut h.fabric.pendingMaps m (mapSnap h m) } }

theorem mapCommitHw_of_cause {x : Nat × Nat} (cause : firstCause (mapCauses h w m) = some x) :
    mapCommitHw w m h = rejectSet h (regOf (.map m) 0xFF4) x.1 0 0 := by rw [mapCommitHw, cause]

theorem mapCommitHw_of_armed (sound : firstCause (mapCauses h w m) = none) (armed : epochArmed h = true) :
    mapCommitHw w m h = setRegBit (mapPending h m) (regOf (.map m) 0xFF4) 27 true := by
  rw [mapCommitHw, sound]
  exact if_pos armed

theorem mapCommitHw_of_unarmed (sound : firstCause (mapCauses h w m) = none) (unarmed : epochArmed h = false) :
    mapCommitHw w m h = applyMap h m (mapSnap h m) := by
  rw [mapCommitHw, sound]
  exact if_neg (by simp [unarmed])

/-- What a map's coming into force leaves in registers: the snapshot, but for the status register. -/
theorem getReg_applyMap (s : Snapshot) {o : Nat} (ne : o ≠ regOf (.map m) 0xFF4) :
    getReg (applyMap h m s) o = getReg (applySnap h s) o := getReg_setReg_ne _ _ ne

theorem rMap_eq (m i : Nat) : rMap m (4 * i) = rMap m 0 + 4 * i := by simp only [rMap, regOf]; omega
theorem stgMap_eq (m i : Nat) : regOf (.map m) (4 * i) = stgMap m 0 + 4 * i := by simp only [stgMap, regOf]; omega

theorem mapSnap_eq (h : Hw) (m : Nat) :
    mapSnap h m = (List.range 192).map fun i => (rMap m (4 * i), getReg h (regOf (.map m) (4 * i))) := by
  simp only [mapSnap, snapSet, rMap_eq m, stgMap_eq]

/-- The live copies of a map once it is in force. -/
theorem getReg_applyMap_live {i : Nat} (l : i < 192) :
    getReg (applyMap h m (mapSnap h m)) (rMap m (4 * i)) = getReg h (regOf (.map m) (4 * i)) := by
  have pair : (stgMap m 0 + 4 * i, rMap m 0 + 4 * i) ∈ setPairs (stgMap m 0) (rMap m 0) 192 :=
    List.mem_map.mpr ⟨i, List.mem_range.mpr l, rfl⟩
  obtain ⟨live, -⟩ := takesSet_snapSet (h := h) (stgMap m 0) (rMap m 0) 192
  rw [getReg_applyMap _ (by simp only [rMap, regOf]; omega), rMap_eq, stgMap_eq, mapSnap]
  exact live (stgMap m 0 + 4 * i, rMap m 0 + 4 * i) pair

/-- It changes no register but them and its status register. -/
theorem regsKept_applyMap : regsKept h (applyMap h m (mapSnap h m))
    (regOf (.map m) 0xFF4 :: (List.range 192).map fun i => rMap m (4 * i)) := by
  intro o n
  rw [List.mem_cons, not_or] at n
  obtain ⟨status, live⟩ := n
  rw [getReg_applyMap _ status]
  refine (applySnap_onlyRegsIn (mapSnap h m) h).reg o fun at_ => live ?_
  rwa [mapSnap_eq, List.map_map] at at_

/-! FABRIC_COMMIT -/

/-- FABRIC_CFG waits for the armed epoch. -/
def cfgPending (h : Hw) (v : Word) : Hw := { h with fabric := { h.fabric with pendingCfg := some v } }

theorem fabricCommitHw_of_other (other : w = .nonSecure ∧ bit (getReg h 0x504100) 31 ≠ fabricSecure h) :
    fabricCommitHw w h = setRegBit h 0x50410C 31 true := if_pos other

theorem fabricCommitHw_of_own (own : w = .secure ∨ bit (getReg h 0x504100) 31 = fabricSecure h) : fabricCommitHw w h =
    if epochArmed h then setRegBit (cfgPending h (getReg h 0x504100)) 0x50410C 30 true
    else applyCfg h (getReg h 0x504100) := by
  refine if_neg ?_
  rintro ⟨rfl, other⟩
  exact own.elim (by simp) other

theorem getReg_applyCfg (v : Word) {o : Nat} (ne : o ≠ 0x50410C) :
    getReg (applyCfg h v) o = if o = 0x504104 then v else getReg h o := by
  refine (getReg_setReg_ne _ _ ne).trans ?_
  exact getReg_setReg ..

/-- Settles O24: each commit by the equation of its case. -/
theorem trainingAndFabricCommits : Obligations.TrainingAndFabricCommits := by
  intro w s
  refine ⟨fun a => ⟨fun sound => ?train, fun x cause => ?trainRefused⟩, fun m a => ⟨fun sound unarmed => ?map,
    fun sound armed => ?mapPends, fun x cause => ?mapRefused⟩, fun a => ⟨fun ns other => ?fabricRefused, fun own =>
    ⟨fun armed => ?cfgPends, fun unarmed => ?cfg⟩⟩⟩
  case train =>
    refine ⟨_, effect_of_acts rfl a, ?_⟩
    rw [trainCommitHw_of_sound sound]
    exact ⟨rfl, regBit_setRegBit_self _ _ _ (by decide),
      regsKept_setRegBit (trainPending s.hw) _ _ _ List.mem_cons_self, rfl, rfl⟩
  case trainRefused =>
    refine ⟨_, effect_of_acts rfl a, ?_⟩
    rw [trainCommitHw_of_cause cause]
    exact rejectSet_refuses ..
  case map =>
    refine ⟨_, effect_of_acts rfl a, ?_⟩
    rw [mapCommitHw_of_unarmed sound unarmed]
    exact ⟨rfl, fun i l => getReg_applyMap_live l, regsKept_applyMap⟩
  case mapPends =>
    refine ⟨_, effect_of_acts rfl a, ?_⟩
    rw [mapCommitHw_of_armed sound armed]
    refine ⟨regsKept_setRegBit (mapPending s.hw m.val) _ _ _ List.mem_cons_self,
      regBit_setRegBit_self _ _ _ (by decide), ?_⟩
    rw [← mapSnap_eq]
    exact (smFind_smPut ..).trans (if_pos rfl)
  case mapRefused =>
    refine ⟨_, effect_of_acts rfl a, ?_⟩
    rw [mapCommitHw_of_cause cause]
    obtain ⟨reject, -, only⟩ := rejectSet_refuses s.hw (regOf (.map m.val) 0xFF4) x.1
    exact ⟨reject, only⟩
  case fabricRefused =>
    refine ⟨_, effect_of_acts rfl a, ?_⟩
    rw [fabricCommitHw_of_other ⟨ns, other⟩]
    exact ⟨regBit_setRegBit_self _ _ _ (by decide), onlyRegs_setRegBit ..⟩
  case cfgPends =>
    refine ⟨_, effect_of_acts rfl a, ?_⟩
    rw [fabricCommitHw_of_own own, if_pos armed]
    exact ⟨rfl, regsKept_setRegBit (cfgPending s.hw _) _ _ _ List.mem_cons_self⟩
  case cfg =>
    refine ⟨_, effect_of_acts rfl a, ?_⟩
    rw [fabricCommitHw_of_own own, if_neg (by simp [unarmed])]
    refine ⟨(getReg_applyCfg _ (by decide)).trans (if_pos rfl), rfl, fun o n => ?_⟩
    simp only [List.mem_cons, List.not_mem_nil, or_false, not_or] at n
    obtain ⟨live, status⟩ := n
    exact (getReg_applyCfg _ status).trans (if_neg live)

end Sys2Proof.Machine
end

section
/-! PROOFS. A STEP_BEGIN with a scale record: O20. -/

namespace Sys2Proof.Machine

/-- An operation that goes through, by what it answers. -/
theorem runOn_of_ok {α : Type} {m : Run α} {h : Hw} {x : α} (ok : (runOn m h).1 = .ok x) :
    runOn m h = (.ok x, (runOn m h).2) := Prod.ext ok rfl

/-! STEP_BEGIN notes the place of its scale record among what it stores (R46) before it writes it, and its end gives
that range to the order of commands. The statement lets the record be written by a command that has noted nothing,
whose end leaves the order as it was. -/

namespace ScaleRecord

/-- STEP_BEGIN of step 1 with its scale record at 0x10000. -/
def packet : List Byte :=
  leBytes 4 0x10081 ++ List.replicate 60 0 ++ leBytes 8 1 ++ leBytes 8 0x10000 ++ List.replicate 48 0

/-- The castle's cache holds the leaf of that page, at the same physical address, readable and writable. -/
def leaf : LeafEntry := { regime := 0, level := 3, page := 1, leaf := 0x1000D }

/-- A package in READY whose non-secure regime is enabled; no step is open. -/
def package : Hw :=
  setReg { Hw.reset with
    pkg := .ready, bringStep := 10
    xlate := { Hw.reset.xlate with caches := [(castleCache, XCache.mk [leaf] 0 0)] } } (xLive 0 0x10) 1

def cmd : Cmd := { newCmd package 0 packet with phase := .running }

def hw : Hw := { package with slots := [(0, cmd)] }

def state : State := { State.reset with hw := hw }

/-- Once the place of the record has been checked. -/
def checked : Hw := (runOn (mayWrite (whoOf 0 cmd) 0x10000 16) hw).2

def opened : Hw := openStep (applyTraining checked) 1

/-- Once the record is written, its place not noted. -/
def written : Hw := (runOn (wr (whoOf 0 cmd) 0x10000 (scaleRecord (liveExp opened))) opened).2

def writtenCmd : Cmd := (cmdAt written 0).getD cmd

theorem cmd_ready : ready hw 0 0x81 cmd := ⟨by decide +kernel, fun t => absurd t (by decide)⟩

theorem own_world : cmd.world = trainWorld hw := by decide +kernel

theorem step_closed : stepOpen hw = false ∧ stepClosing hw = false := by decide +kernel

theorem no_epoch : epochArmed hw = false := by decide +kernel

theorem operands : par cmd.packet 0 8 = 1 ∧ par cmd.packet 8 8 = 0x10000 := by decide +kernel

theorem place_checked : runOn (mayWrite (whoOf 0 cmd) 0x10000 16) hw = (.ok (), checked) :=
  runOn_of_ok (by decide +kernel)

theorem epoch_checked : epochArmed checked = epochArmed hw ∧ getReg64 checked 0x504010 = getReg64 hw 0x504010 ∧
    checked.fabric.heldTrain = false := by decide +kernel

theorem record_written :
    runOn (wr (whoOf 0 cmd) 0x10000 (scaleRecord (liveExp opened))) opened = (.ok (), written) :=
  runOn_of_ok (by decide +kernel)

theorem cmdAt_written : cmdAt written 0 = some writtenCmd := by decide +kernel

/-- The step that the model takes gives the place of the record to the order of commands. -/
theorem past_stepped : (nextOf (exec (.stepBegin 0) state)).map (·.hw.order.past.map PastWrite.ranges) =
    some [[(0x10000, 16)]] := by decide +kernel

/-- The end of a command that has noted nothing does not. -/
theorem past_claimed : (settle (finish written 0 0 1 (enc2 64 (liveExp opened)))).order.past = [] := by decide +kernel

end ScaleRecord

open ScaleRecord in
/-- Refutes O20: with a scale record the place of the record joins what commands have written (R46), which the state
that the statement gives lacks. -/
theorem not_stepBeginOpensTheStep : ¬ Obligations.StepBeginOpensTheStep := by
  intro all
  obtain ⟨step, place⟩ := operands
  obtain ⟨armed, epoch, held⟩ := epoch_checked
  have unarmed : epochArmed checked = false := armed.trans no_epoch
  obtain ⟨-, -, opens⟩ := all 0 state cmd cmd_ready own_world
  obtain ⟨-, record⟩ := opens step_closed.1 step_closed.2 (.inl no_epoch)
  rw [step, place] at record
  obtain ⟨-, -, taken, -⟩ := record (by decide) checked opened written writtenCmd place_checked
    (by simp [unarmed, held, opened]) armed epoch record_written cmdAt_written
  have stepped := past_stepped
  rw [taken] at stepped
  have claimed : ((settle (finish written 0 0 1 (enc2 64 (liveExp opened)))).order.past.map PastWrite.ranges) =
    [[(0x10000, 16)]] := Option.some.inj stepped
  rw [past_claimed] at claimed
  cases claimed

end Sys2Proof.Machine
end

section
/-! PROOFS. The position digest, MAP_SELECT and epochs (R311, R312, R314, Table 12-7): O25. -/

namespace Sys2Proof.Machine

variable {h : Hw} {slot : Nat} {c : Cmd}

/-! The position digest -/

/-- The registers that follow a digest: its sixteen words, and PORT_STATUS with TAG_DIFF of each port (R304). -/
def digestRegs : List Nat := ((List.range 16).map fun i => 0x504020 + 4 * i) ++ (List.range 12).map fun q => rPort q 0

/-- The digest is up to date. -/
def freshDigest (h : Hw) : Hw := { h with fabric := { h.fabric with stale := false } }

theorem getReg_freshDigest (h : Hw) (o : Nat) : getReg (freshDigest h) o = getReg h o := rfl

theorem OnlyRegsIn.freshDigest {p : Nat → Prop} {h' : Hw} (k : OnlyRegsIn p h h') :
    OnlyRegsIn p (freshDigest h) (freshDigest h') := ⟨k.reg, by rw [k.rest]; rfl⟩

/-- The sixteen registers of a digest with its words (Table 12-7). -/
def digestSnap (d : List Byte) : Snapshot :=
  (List.range 16).map fun i => (0x504020 + 4 * i, BitVec.ofNat 32 (leAt d (4 * i) 4))

theorem digestSnap_fst (d : List Byte) :
    (digestSnap d).map Prod.fst = (List.range 16).map fun i => 0x504020 + 4 * i := by
  simp [digestSnap]

theorem digestSnap_nodup (d : List Byte) : ((digestSnap d).map Prod.fst).Nodup := by
  rw [digestSnap_fst]
  exact List.nodup_range.map fun i j e => by omega

/-- TAG_DIFF of the ports in HELLO and UP follows the digest (R304). -/
def tagDiffs (h : Hw) : Hw := allPorts (fun h q => if portState h q = 3 ∨ portState h q = 4 then tagDiff h q else h) h

theorem tagDiffs_onlyRegsIn (h : Hw) : OnlyRegsIn (· ∈ (List.range 12).map fun q => rPort q 0) h (tagDiffs h) := by
  refine .foldl (fun q m g => ?_) h
  split_ifs
  · exact .setReg (List.mem_map_of_mem m) ..
  · exact .refl ..

theorem recomputeDigest_eq (h : Hw) : recomputeDigest h =
    tagDiffs (freshDigest (applySnap h (digestSnap (shake256 (digestInput h) 64)))) := by
  rw [applySnap, digestSnap, List.foldl_map]
  rfl

theorem recomputeDigest_onlyRegsIn (h : Hw) : OnlyRegsIn (· ∈ digestRegs) (freshDigest h) (recomputeDigest h) := by
  rw [recomputeDigest_eq]
  refine ((applySnap_onlyRegsIn ..).freshDigest.mono fun o m => ?_).trans
    ((tagDiffs_onlyRegsIn _).mono fun o m => ?_)
  · exact List.mem_append_left _ (digestSnap_fst _ ▸ m)
  · exact List.mem_append_right _ m

/-- The words of the digest (R312). -/
theorem getReg_recomputeDigest {i : Nat} (l : i < 16) : getReg (recomputeDigest h) (0x504020 + 4 * i) =
    BitVec.ofNat 32 (leAt (shake256 (digestInput h) 64) (4 * i) 4) := by
  have apart : 0x504020 + 4 * i ∉ (List.range 12).map fun q => rPort q 0 := by
    simp only [List.mem_map, List.mem_range, rPort, regOf, baseOf]
    omega
  rw [recomputeDigest_eq, (tagDiffs_onlyRegsIn _).reg _ apart, getReg_freshDigest]
  generalize shake256 (digestInput h) 64 = d
  exact getReg_applySnap (digestSnap_nodup d) (e := (0x504020 + 4 * i, BitVec.ofNat 32 (leAt d (4 * i) 4)))
    (List.mem_map_of_mem (List.mem_range.mpr l))

/-- A stale digest that holds no setup back is recomputed, and lets nothing else go on. -/
theorem digestRecomputeHw_of_stale (stale : h.fabric.stale = true) (works : working h = true)
    (sent : ∀ x ∈ h.colls, x.setupSent = true) : digestRecomputeHw h = recomputeDigest h := by
  have colls : (recomputeDigest h).colls = h.colls := by rw [(recomputeDigest_onlyRegsIn h).rest]; rfl
  have held : ((recomputeDigest h).colls.filter fun x => !x.setupSent) = [] := by
    rw [colls, List.filter_eq_nil_iff]
    exact fun x m => by simp [sent x m]
  rw [digestRecomputeHw, if_pos ⟨stale, works⟩, releaseSetups, held, List.foldl_nil]

theorem digestRecomputeHw_of_fresh (fresh : h.fabric.stale = false) : digestRecomputeHw h = h :=
  if_neg (by simp [fresh])

/-! MAP_SELECT (R311) -/

/-- A map's number in bits [1:0] of a register. -/
theorem fld_ofNat_low {m : Nat} (l : m < 4) : fld (BitVec.ofNat 32 m) 1 0 = m := by
  rw [fld, BitVec.toNat_ofNat, Nat.shiftRight_zero]
  omega

/-- In an ascending list the least number that meets a condition is the first. -/
theorem find?_eq_least {p : Nat → Bool} {l : List Nat} {q : Nat} (sorted : l.Pairwise (· < ·)) (m : q ∈ l)
    (meets : p q = true) (least : ∀ x ∈ l, p x = true → q ≤ x) : l.find? p = some q := by
  induction l with
  | nil => cases m
  | cons x l ih =>
    obtain ⟨below, sorted⟩ := List.pairwise_cons.mp sorted
    rcases List.mem_cons.mp m with rfl | later
    · rw [List.find?_cons_of_pos meets]
    · have skipped : ¬ p x = true := fun first =>
        absurd (least x List.mem_cons_self first) (Nat.not_le.mpr (below q later))
      rw [List.find?_cons_of_neg skipped]
      exact ih sorted later fun y i => least y (List.mem_cons_of_mem _ i)

theorem mapPorts_sorted (h : Hw) (m : Nat) : (mapPorts h m).Pairwise (· < ·) := List.pairwise_lt_range.filter _

/-- The map that a MAP_SELECT names. -/
def selectedMap (c : Cmd) : Nat := parBits c.packet 0 1 0

theorem mapSelectWork_of_live (live : classLive h 7 = true) : mapSelectWork slot c h = h := if_pos live

section
variable (idle : classLive h 7 = false)
include idle

theorem mapSelectWork_of_invalid (invalid : mapValid h (selectedMap c) = false) :
    mapSelectWork slot c h = finish h slot 0x11 stateBad 0 := by
  have invalid : mapValid h (parBits c.packet 0 1 0) = false := invalid
  simp [mapSelectWork, idle, invalid]

theorem mapSelectWork_of_down {q : Nat} (valid : mapValid h (selectedMap c) = true)
    (first : ((mapPorts h (selectedMap c)).find? fun q => !portUp h q) = some q) :
    mapSelectWork slot c h = finish h slot 0x40 q 0 := by
  have valid : mapValid h (parBits c.packet 0 1 0) = true := valid
  have first : ((mapPorts h (parBits c.packet 0 1 0)).find? fun q => !portUp h q) = some q := first
  simp [mapSelectWork, idle, valid, first]

theorem mapSelectWork_of_up (valid : mapValid h (selectedMap c) = true)
    (up : ∀ q ∈ mapPorts h (selectedMap c), portUp h q = true) :
    mapSelectWork slot c h = finish (setReg h 0x504004 (BitVec.ofNat 32 (selectedMap c))) slot 0 0 0 := by
  have valid : mapValid h (parBits c.packet 0 1 0) = true := valid
  have none_ : ((mapPorts h (parBits c.packet 0 1 0)).find? fun q => !portUp h q) = none :=
    List.find?_eq_none.mpr fun q m => by simp [up q m]
  simp only [mapSelectWork, idle, Bool.false_eq_true, if_false, valid, Bool.not_true, none_]
  rfl

end

/-! COMMIT_EPOCH and DISARM (R314) -/

/-- An epoch is armed (R314). -/
def armEpoch (h : Hw) (e : Word) (step : Nat) : Hw :=
  setReg64 (setReg (setRegBit h rEpochCtrl 0 true) 0x50400C e) 0x504010 step

/-- The epoch that a COMMIT_EPOCH names. -/
def namedEpoch (c : Cmd) : Word := BitVec.ofNat 32 (par c.packet 8 4)

theorem commitEpochWork_of_bad
    (bad : epochArmed h = true ∨ namedEpoch c = getReg h rEpoch ∨ par c.packet 0 8 ≤ stepNum h) :
    commitEpochWork slot c h = finish h slot 0x11 stateBad 0 := if_pos bad

theorem commitEpochWork_of_sound (unarmed : epochArmed h = false) (other : namedEpoch c ≠ getReg h rEpoch)
    (ahead : stepNum h < par c.packet 0 8) : commitEpochWork slot c h =
    finish (armEpoch h (namedEpoch c) (par c.packet 0 8)) slot 0 (namedEpoch c).toNat (par c.packet 0 8) := by
  refine if_neg ?_
  rintro (armed | same | behind)
  · simp [unarmed] at armed
  · exact other same
  · omega

/-- A value of 64 bits in two registers. -/
theorem getReg64_setReg64 (h : Hw) (o : Nat) {v : Nat} (l : v < 2 ^ 64) : getReg64 (setReg64 h o v) o = v := by
  rw [getReg64, setReg64, getReg_setReg_self, getReg_setReg_ne _ _ (by omega), getReg_setReg_self,
    BitVec.toNat_ofNat, BitVec.toNat_ofNat]
  omega

theorem getReg_setReg64_ne {o x : Nat} (v : Nat) (low : x ≠ o) (high : x ≠ o + 4) :
    getReg (setReg64 h o v) x = getReg h x := by
  rw [setReg64, getReg_setReg_ne _ _ high, getReg_setReg_ne _ _ low]

theorem leNat_lt (bs : List Byte) : leNat bs < 256 ^ bs.length := by
  induction bs with
  | nil => decide
  | cons b bs ih =>
    have byte := b.isLt
    rw [leNat, List.length_cons, Nat.pow_succ]
    omega

theorem par_lt (p : List Byte) (off n : Nat) : par p off n < 256 ^ n := by
  have l := leNat_lt (slice p (0x40 + off) n)
  rwa [slice_length] at l

/-- The epoch registers: EPOCH_CTRL, EPOCH_ARM and EPOCH_STEP (Table 12-15). -/
def epochRegs : List Nat := [rEpochCtrl, 0x50400C, 0x504010, 0x504014]

theorem clearEpoch_onlyRegsIn (h : Hw) : OnlyRegsIn (· ∈ epochRegs) h (clearEpoch h) :=
  have i {o : Nat} (m : o ∈ epochRegs) (g : Hw) (v : Word) : OnlyRegsIn (· ∈ epochRegs) g (setReg g o v) :=
    .setReg m g v
  (i (by simp [epochRegs]) ..).trans <| (i (by simp [epochRegs]) ..).trans <|
    (i (by simp [epochRegs]) ..).trans (i (by simp [epochRegs]) ..)

theorem epochArmed_clearEpoch (h : Hw) : epochArmed (clearEpoch h) = false := by
  rw [epochArmed, regBit, clearEpoch, getReg_setReg64_ne _ (by decide) (by decide), getReg_setReg_ne _ _ (by decide)]
  exact regBit_setRegBit_self _ _ _ (by decide)

theorem disarmHw_of_armed (armed : epochArmed h = true) : disarmHw h =
    clearEpoch { h with fabric := { h.fabric with heldTrain := h.train.pendingSet.isSome } } := if_pos armed

theorem armEpoch_shows (h : Hw) (e : Word) {step : Nat} (l : step < 2 ^ 64) :
    epochArmed (armEpoch h e step) = true ∧ getReg (armEpoch h e step) 0x50400C = e ∧
    getReg64 (armEpoch h e step) 0x504010 = step ∧ getReg (armEpoch h e step) rEpoch = getReg h rEpoch := by
  refine ⟨?_, ?_, getReg64_setReg64 _ _ l, ?_⟩
  · rw [epochArmed, regBit, armEpoch, getReg_setReg64_ne _ (by decide) (by decide), getReg_setReg_ne _ _ (by decide)]
    exact regBit_setRegBit_self _ _ _ (by decide)
  · rw [armEpoch, getReg_setReg64_ne _ (by decide) (by decide), getReg_setReg_self]
  · rw [armEpoch, getReg_setReg64_ne _ (by decide) (by decide), getReg_setReg_ne _ _ (by decide)]
    exact getReg_setReg_ne _ _ (by decide)

/-! The end of a command that has no buffers -/

section
variable {st d0 d1 : Nat} (e : cmdAt h slot = some c) (plain : c.cls = 0 ∨ 7 < c.cls)
include e plain

/-- The end of a command with no buffers changes no register below the tiles. -/
theorem getReg_finish_low {o : Nat} (low : o < 0x1000000) : getReg (finish h slot st d0 d1) o = getReg h o := by
  rw [getReg_finish e, leaveOpen_plain (workBuffer_control plain) (overlaps_control plain), notePast_eq]
  refine getReg_freeTiles _ _ _ fun t _ => ⟨?_, ?_⟩ <;> (simp only [rTileFreq, regOf, baseOf]; omega)

theorem finish_keeps_steps : (finish h slot st d0 d1).train = h.train ∧ (finish h slot st d0 d1).fabric = h.fabric := by
  rw [finish_eq e, leaveOpen_plain (workBuffer_control plain) (overlaps_control plain), notePast_eq]
  exact ⟨rfl, rfl⟩

end

/-- Settles O25: each command by the equation of its case, the digest by what `recomputeDigest` writes. -/
theorem mapsEpochsAndTheDigest : Obligations.MapsEpochsAndTheDigest := by
  refine ⟨fun slot s c w => ⟨fun r => ?select, fun r => ?commit, fun a armed => ?disarm⟩, fun s => ⟨fun fresh => ?fresh,
    fun stale works sent => ?stale⟩⟩
  case select =>
    obtain ⟨at_, code, -⟩ := active_some r.1
    have cls : c.cls = 0 := cls_of_opcode code
    have done : effect (.mapSelect slot) s (mapSelectWork slot.val c s.hw) := by
      have whole : effect (.mapSelect slot) s _ := effect_of_onHw rfl
      rwa [withCmd_of_ready r rfl] at whole
    refine ⟨fun live => ?live, fun idle invalid => ?invalid, fun idle valid q m down least => ?down,
      fun idle valid up => ?up⟩
    case live => rwa [mapSelectWork_of_live live] at done
    case invalid =>
      rw [mapSelectWork_of_invalid idle invalid] at done
      exact ⟨_, done, endsOnly_finish at_⟩
    case down =>
      have first := find?_eq_least (p := fun q => !portUp s.hw q) (mapPorts_sorted ..) m (by simp [down])
        fun x i n => least x i (by simpa using n)
      rw [mapSelectWork_of_down idle valid first] at done
      exact ⟨_, done, endsOnly_finish at_⟩
    case up =>
      rw [mapSelectWork_of_up idle valid up] at done
      have at1 : cmdAt (setReg s.hw 0x504004 (BitVec.ofNat 32 (selectedMap c))) slot.val = some c := at_
      refine ⟨_, done, ended_finish at1, ?_, fun o n => ?_, mem_finish_control at1 cls⟩
      · rw [mapActive, regFld, getReg_finish_low at1 (.inl cls) (by decide), getReg_setReg_self]
        exact fld_ofNat_low (parBits_lt c.packet 0 1 0)
      · rw [List.mem_cons, not_or] at n
        rw [regsKept_finish_control at1 cls o n.2, getReg_setReg_ne _ _ n.1]
  case commit =>
    obtain ⟨at_, code, -⟩ := active_some r.1
    have cls : c.cls = 0 := cls_of_opcode code
    have done : effect (.commitEpoch slot) s (commitEpochWork slot.val c s.hw) := by
      have whole : effect (.commitEpoch slot) s _ := effect_of_onHw rfl
      rwa [withCmd_of_ready r rfl] at whole
    refine ⟨fun bad => ?bad, fun unarmed other ahead => ?sound⟩
    case bad =>
      rw [commitEpochWork_of_bad bad] at done
      exact ⟨_, done, endsOnly_finish at_⟩
    case sound =>
      rw [commitEpochWork_of_sound unarmed other ahead] at done
      have at1 : cmdAt (armEpoch s.hw (namedEpoch c) (par c.packet 0 8)) slot.val = some c := at_
      obtain ⟨armed, arm, step, epoch⟩ := armEpoch_shows s.hw (namedEpoch c) (par_lt c.packet 0 8)
      have kept {o : Nat} (low : o < 0x1000000) := getReg_finish_low (st := 0) (d0 := (namedEpoch c).toNat)
        (d1 := par c.packet 0 8) at1 (.inl cls) low
      refine ⟨_, done, ended_finish at1, ?_, (kept (by decide)).trans arm, ?_, (kept (by decide)).trans epoch,
        mem_finish_control at1 cls⟩
      · rwa [epochArmed, regBit, kept (by decide)]
      · rwa [getReg64, kept (by decide), kept (by decide)]
  case disarm =>
    refine ⟨_, effect_of_acts rfl a, ?_⟩
    rw [disarmHw_of_armed armed]
    exact ⟨epochArmed_clearEpoch _, rfl, rfl, rfl, (clearEpoch_onlyRegsIn _).reg⟩
  case fresh =>
    have done : effect .digestRecompute s (digestRecomputeHw s.hw) := effect_of_onHw rfl
    rwa [digestRecomputeHw_of_fresh fresh] at done
  case stale =>
    have done : effect .digestRecompute s (digestRecomputeHw s.hw) := effect_of_onHw rfl
    rw [digestRecomputeHw_of_stale stale works sent] at done
    have frame := recomputeDigest_onlyRegsIn s.hw
    refine ⟨_, done, ?_, fun i l => getReg_recomputeDigest l, frame.reg, ?_, ?_⟩ <;> (rw [frame.rest]; rfl)

end Sys2Proof.Machine
end

section
/-! PROOFS. The epoch turns at a STEP_BEGIN (R315): O21. -/

namespace Sys2Proof.Machine

variable {h : Hw} {slot : Nat} {c : Cmd}

/-! The pending sets -/

/-- No set waits for an epoch. -/
structure NothingPends (h : Hw) : Prop where
  training : h.train.pendingSet = none
  maps : h.fabric.pendingMaps = []
  cfg : h.fabric.pendingCfg = none

theorem NothingPends.of_same {g : Hw} (n : NothingPends h) (train : g.train.pendingSet = h.train.pendingSet)
    (fabric : g.fabric = h.fabric) : NothingPends g :=
  ⟨train.trans n.training, by rw [fabric, n.maps], by rw [fabric, n.cfg]⟩

theorem NothingPends.onlyRegsIn {g : Hw} {p : Nat → Prop} (n : NothingPends h) (k : OnlyRegsIn p h g) :
    NothingPends g := n.of_same (by rw [k.rest]) (by rw [k.rest])

/-- Every pending map becomes live. -/
def applyMaps (l : List (Nat × Snapshot)) (h : Hw) : Hw := l.foldl (fun h e => applyMap h e.1 e.2) h

/-- A pending FABRIC_CFG becomes live. -/
def applyPendingCfg (h : Hw) : Hw :=
  match h.fabric.pendingCfg with
  | none => h
  | some v => applyCfg h v

/-- Every pending set becomes live (R315). -/
def applyPending (h : Hw) : Hw := applyPendingCfg (applyMaps (applyTraining h).fabric.pendingMaps (applyTraining h))

/-- EPOCH becomes the armed one (R315). -/
def takeEpoch (h : Hw) : Hw := setReg h rEpoch (getReg h 0x50400C)

theorem turnEpoch_eq (h : Hw) : turnEpoch h = recomputeDigest (clearEpoch (takeEpoch (applyPending h))) := rfl

@[simp] theorem applySnap_train (h : Hw) (s : Snapshot) : (applySnap h s).train = h.train := by
  rw [(applySnap_onlyRegsIn s h).rest]

@[simp] theorem applySnap_fabric (h : Hw) (s : Snapshot) : (applySnap h s).fabric = h.fabric := by
  rw [(applySnap_onlyRegsIn s h).rest]

@[simp] theorem applySnap_slots (h : Hw) (s : Snapshot) : (applySnap h s).slots = h.slots := by
  rw [(applySnap_onlyRegsIn s h).rest]

@[simp] theorem applyTraining_pendingSet (h : Hw) : (applyTraining h).train.pendingSet = none := by
  cases pends : h.train.pendingSet with
  | none => simp only [applyTraining, pends]
  | some s => simp only [applyTraining, pends]; rfl

@[simp] theorem applyTraining_slots (h : Hw) : (applyTraining h).slots = h.slots := by
  cases pends : h.train.pendingSet with
  | none => simp only [applyTraining, pends]
  | some s =>
    simp only [applyTraining, pends]
    exact applySnap_slots h s

@[simp] theorem applyMap_train (h : Hw) (m : Nat) (s : Snapshot) : (applyMap h m s).train = h.train :=
  applySnap_train h s

@[simp] theorem applyMap_slots (h : Hw) (m : Nat) (s : Snapshot) : (applyMap h m s).slots = h.slots :=
  applySnap_slots h s

/-- A map that becomes live waits no more. -/
theorem applyMap_pendingMaps (h : Hw) (m : Nat) (s : Snapshot) :
    (applyMap h m s).fabric.pendingMaps = h.fabric.pendingMaps.filter fun e => e.1 ≠ m := by
  show ((applySnap h s).fabric.pendingMaps).filter _ = _
  rw [applySnap_fabric]

theorem applyMaps_keeps (l : List (Nat × Snapshot)) (h : Hw) :
    (applyMaps l h).train = h.train ∧ (applyMaps l h).slots = h.slots := by
  induction l generalizing h with
  | nil => exact ⟨rfl, rfl⟩
  | cons e l ih =>
    obtain ⟨train, slots⟩ := ih (applyMap h e.1 e.2)
    exact ⟨train.trans (applyMap_train ..), slots.trans (applyMap_slots ..)⟩

/-- Only maps that none of the list names still wait. -/
theorem applyMaps_pendingMaps (l : List (Nat × Snapshot)) (h : Hw) :
    ∀ e ∈ (applyMaps l h).fabric.pendingMaps, e ∈ h.fabric.pendingMaps ∧ e.1 ∉ l.map Prod.fst := by
  induction l generalizing h with
  | nil => exact fun e m => ⟨m, List.not_mem_nil⟩
  | cons d l ih =>
    intro e m
    obtain ⟨waits, unnamed⟩ := ih (applyMap h d.1 d.2) e m
    rw [applyMap_pendingMaps, List.mem_filter, decide_eq_true_iff] at waits
    exact ⟨waits.1, by simp only [List.map_cons, List.mem_cons, not_or]; exact ⟨waits.2, unnamed⟩⟩

theorem applyMaps_all (h : Hw) : (applyMaps h.fabric.pendingMaps h).fabric.pendingMaps = [] :=
  List.eq_nil_iff_forall_not_mem.mpr fun e m =>
    have ⟨waits, unnamed⟩ := applyMaps_pendingMaps _ h e m
    unnamed (List.mem_map_of_mem waits)

theorem applyPendingCfg_keeps (h : Hw) : (applyPendingCfg h).train = h.train ∧ (applyPendingCfg h).slots = h.slots ∧
    (applyPendingCfg h).fabric.pendingMaps = h.fabric.pendingMaps ∧ (applyPendingCfg h).fabric.pendingCfg = none := by
  cases pends : h.fabric.pendingCfg with
  | none => simp only [applyPendingCfg, pends, and_self]
  | some v => simp only [applyPendingCfg, pends]; exact ⟨rfl, rfl, rfl, rfl⟩

/-- Once every pending set is applied, nothing pends. -/
theorem nothingPends_applyPending (h : Hw) : NothingPends (applyPending h) := by
  obtain ⟨train, -, maps, cfg⟩ :=
    applyPendingCfg_keeps (applyMaps (applyTraining h).fabric.pendingMaps (applyTraining h))
  refine ⟨?_, maps.trans (applyMaps_all _), cfg⟩
  rw [applyPending, train, (applyMaps_keeps ..).1, applyTraining_pendingSet]

theorem applyPending_slots (h : Hw) : (applyPending h).slots = h.slots := by
  rw [applyPending, (applyPendingCfg_keeps _).2.1, (applyMaps_keeps ..).2, applyTraining_slots]

theorem applyPending_of_nothing (n : NothingPends h) : applyPending h = h := by
  have training : applyTraining h = h := by simp only [applyTraining, n.training]
  simp only [applyPending, applyMaps, applyPendingCfg, training, n.maps, List.foldl_nil, n.cfg]

/-! The turn -/

theorem rest_recomputeDigest (h : Hw) : (recomputeDigest h).train = h.train ∧ (recomputeDigest h).slots = h.slots ∧
    (recomputeDigest h).fabric.pendingMaps = h.fabric.pendingMaps ∧
    (recomputeDigest h).fabric.pendingCfg = h.fabric.pendingCfg := by
  rw [(recomputeDigest_onlyRegsIn h).rest]
  exact ⟨rfl, rfl, rfl, rfl⟩

theorem nothingPends_turnEpoch (h : Hw) : NothingPends (turnEpoch h) := by
  obtain ⟨train, -, maps, cfg⟩ := rest_recomputeDigest (clearEpoch (takeEpoch (applyPending h)))
  have pends := nothingPends_applyPending h
  rw [turnEpoch_eq]
  exact ⟨by rw [train]; exact pends.training, maps.trans pends.maps, cfg.trans pends.cfg⟩

theorem turnEpoch_slots (h : Hw) : (turnEpoch h).slots = h.slots := by
  rw [turnEpoch_eq, (rest_recomputeDigest _).2.1]
  exact applyPending_slots h

/-- The turn disarms the epoch. -/
theorem epochArmed_turnEpoch (h : Hw) : epochArmed (turnEpoch h) = false := by
  rw [turnEpoch_eq, epochArmed, regBit, (recomputeDigest_onlyRegsIn _).reg _ (by decide)]
  exact epochArmed_clearEpoch _

/-- Where nothing pends, EPOCH becomes the armed one. -/
theorem getReg_turnEpoch_epoch (n : NothingPends h) : getReg (turnEpoch h) rEpoch = getReg h 0x50400C := by
  rw [turnEpoch_eq, (recomputeDigest_onlyRegsIn _).reg _ (by decide), getReg_freshDigest,
    (clearEpoch_onlyRegsIn _).reg _ (by decide),
    applyPending_of_nothing n, takeEpoch, getReg_setReg_self]

/-! The step opens -/

/-- The registers that open a step beside STEP_NUM (R269). -/
def openRegs : List Nat := [rTrainStatus, rTrainScale, 0x170014]

/-- STEP_NUM and the step key are latched (R269, R273). -/
def latchStep (h : Hw) (step : Nat) : Hw :=
  { setReg64 h rStepLo step with
    train := { h.train with stepKey := stepKeyOf (setReg64 h rStepLo step) step, updateSeen := false } }

theorem openStep_onlyRegsIn (h : Hw) (step : Nat) : OnlyRegsIn (· ∈ openRegs) (latchStep h step) (openStep h step) := by
  have i {o : Nat} (m : o ∈ openRegs) (g : Hw) (v : Word) : OnlyRegsIn (· ∈ openRegs) g (setReg g o v) := .setReg m g v
  have scale : OnlyRegsIn (· ∈ openRegs) (latchStep h step)
      (setLiveExp (latchStep h step) (max (floorExp (latchStep h step)) (min (ceilExp (latchStep h step))
        (nextExp (latchStep h step))))) := i (by simp [openRegs]) ..
  refine (scale.trans (.foldl (f := fun h b => setRegBit h rTrainStatus b false) (xs := [2, 3, 4, 5, 6])
    (fun b _ g => i (by simp [openRegs]) ..) _)).trans ?_
  exact (i (o := 0x170014) (by simp [openRegs]) ..).trans (i (o := rTrainStatus) (by simp [openRegs]) ..)

theorem stepOpen_openStep (h : Hw) (step : Nat) : stepOpen (openStep h step) = true :=
  regBit_setRegBit_self _ _ _ (by decide)

theorem stepNum_openStep (h : Hw) {step : Nat} (l : step < 2 ^ 64) : stepNum (openStep h step) = step := by
  rw [stepNum, getReg64, (openStep_onlyRegsIn ..).reg _ (by decide), (openStep_onlyRegsIn ..).reg _ (by decide)]
  exact getReg64_setReg64 h rStepLo l

/-- A register that neither STEP_NUM nor the opening of a step holds. -/
theorem getReg_openStep {o step : Nat} (n : o ∉ openRegs) (low : o ≠ rStepLo) (high : o ≠ rStepLo + 4) :
    getReg (openStep h step) o = getReg h o :=
  ((openStep_onlyRegsIn ..).reg _ n).trans (getReg_setReg64_ne _ low high)

theorem openStep_slots (h : Hw) (step : Nat) : (openStep h step).slots = h.slots := by
  rw [(openStep_onlyRegsIn ..).rest]; rfl

theorem NothingPends.openStep (n : NothingPends h) (step : Nat) : NothingPends (openStep h step) :=
  have latched : NothingPends (latchStep h step) := n.of_same rfl rfl
  latched.onlyRegsIn (openStep_onlyRegsIn ..)

/-! STEP_BEGIN of a closed step that finds an armed epoch due -/

/-- The command notes that it stores nothing. -/
def notesNothing (h : Hw) (slot : Nat) : Hw := modCmd h slot fun c => { c with outRanges := [] }

theorem cmdAt_notesNothing (e : cmdAt h slot = some c) :
    cmdAt (notesNothing h slot) slot = some { c with outRanges := [] } :=
  (cmdAt_modCmd ..).trans ((if_pos rfl).trans (congrArg (Option.map _) e))

theorem NothingPends.notesNothing (n : NothingPends h) (slot : Nat) : NothingPends (notesNothing h slot) := by
  unfold Machine.notesNothing modCmd
  split
  · exact n
  · exact n.of_same rfl rfl

/-- Once the epoch has turned and the step is open. -/
def epochTurned (h : Hw) (slot step : Nat) : Hw := notesNothing (openStep (turnEpoch h) step) slot

section
variable (closed : stepOpen h = false) (still : stepClosing h = false) (plain : par c.packet 8 8 = 0)
  (armed : epochArmed h = true) (due : getReg64 h 0x504010 ≤ par c.packet 0 8)
include closed still plain armed due

theorem stepBegin_waits (live : classLive h 7 = true) : runOn (stepBegin slot c) h = (.error .wait, h) := by
  simp [stepBegin, runOn_bind, closed, still, plain, armed, due, live]

theorem stepBegin_turns (idle : classLive h 7 = false) : runOn (stepBegin slot c) h =
    (.ok (0, par c.packet 0 8, enc2 64 (liveExp (openStep (turnEpoch h) (par c.packet 0 8)))),
      epochTurned h slot (par c.packet 0 8)) := by
  simp [-bind_pure_comp, stepBegin, runOn_bind, closed, still, plain, armed, due, idle, noteOut, epochTurned,
    notesNothing]

end

theorem runCmd_of_ok {m : Run (Nat × Nat × Nat)} {g : Hw} {st d0 d1 : Nat} (ran : runOn m h = (.ok (st, d0, d1), g)) :
    runCmd h slot m = finish g slot st d0 d1 := by
  simp only [runCmd, ran]

/-- A command that waits and has changed nothing leaves the hardware as it was. -/
theorem runCmd_of_wait {m : Run (Nat × Nat × Nat)} (ran : runOn m h = (.error .wait, h)) : runCmd h slot m = h := by
  simp only [runCmd, ran]
  exact if_pos rfl

theorem cmdAt_epochTurned (e : cmdAt h slot = some c) (step : Nat) :
    cmdAt (epochTurned h slot step) slot = some { c with outRanges := [] } := by
  have kept : cmdAt (openStep (turnEpoch h) step) slot = some c := by
    rw [cmdAt, openStep_slots, turnEpoch_slots]
    exact e
  exact cmdAt_notesNothing kept

/-- What an end with no buffers leaves: the open step, and nothing that pends. -/
theorem finish_epochTurned (e : cmdAt h slot = some c) (plain : c.cls = 0 ∨ 7 < c.cls) (step d1 : Nat) :
    (∀ o < 0x1000000,
      getReg (finish (epochTurned h slot step) slot 0 step d1) o = getReg (openStep (turnEpoch h) step) o) ∧
    NothingPends (finish (epochTurned h slot step) slot 0 step d1) := by
  have at1 := cmdAt_epochTurned e step
  have pends : NothingPends (epochTurned h slot step) := ((nothingPends_turnEpoch h).openStep step).notesNothing slot
  obtain ⟨train, fabric⟩ := finish_keeps_steps (st := 0) (d0 := step) (d1 := d1) at1 plain
  refine ⟨fun o low => ?_, pends.of_same (by rw [train]) fabric⟩
  rw [getReg_finish_low at1 plain low, epochTurned, notesNothing, getReg_modCmd]

/-- Settles O21: the turn applies every pending set before it disarms, and neither the opening of the step nor the end
of the command touches the epoch. -/
theorem epochTurnsAtStepBegin : Obligations.EpochTurnsAtStepBegin := by
  intro slot s c r own closed still plain armed due
  obtain ⟨at_, code, -⟩ := active_some r.1
  have ran : effect (.stepBegin slot) s (runCmd s.hw slot.val (stepBegin slot.val c)) :=
    effect_of_own (f := fun c h => runCmd h slot.val (stepBegin slot.val c)) rfl rfl r own
  refine ⟨fun live => ?waits, fun idle => ?turns⟩
  case waits => rwa [runCmd_of_wait (stepBegin_waits closed still plain armed due live)] at ran
  case turns =>
    rw [runCmd_of_ok (stepBegin_turns closed still plain armed due idle)] at ran
    generalize enc2 64 _ = d1 at ran
    obtain ⟨kept, pends⟩ := finish_epochTurned at_ (.inr (late_of_opcode code)) (par c.packet 0 8) d1
    refine ⟨_, ran, ?_, ?_, ?_, pends.training, pends.maps, pends.cfg, fun training maps cfg => ?_⟩
    · rw [epochArmed, regBit, kept _ (by decide), getReg_openStep (by decide) (by decide) (by decide)]
      exact epochArmed_turnEpoch _
    · rw [stepOpen, regBit, kept _ (by decide)]
      exact stepOpen_openStep ..
    · rw [stepNum, getReg64, kept _ (by decide), kept _ (by decide)]
      exact stepNum_openStep _ (par_lt c.packet 0 8)
    · rw [kept _ (by decide), getReg_openStep (by decide) (by decide) (by decide)]
      exact getReg_turnEpoch_epoch ⟨training, maps, cfg⟩

end Sys2Proof.Machine
end

section
/-! PROOFS. The lanes of an UP port lock again: O55. -/

namespace Sys2Proof.Machine

/-! A port runs only while REFCLK_SYS does (R296), and no step of a port starts that clock. -/

namespace LanesWithoutClock

/-- Port 0 is UP with both laser inputs and nothing queued, and REFCLK_SYS is out. -/
def hw : Hw :=
  setReg { Hw.reset with
    supplies := { Hw.reset.supplies with refclkSys := false }
    ports := [(0, { PortAux.reset with laser0 := true, laser1 := true })] } (rPort 0 0) 4

def state : State := { State.reset with hw := hw }

theorem up : portState hw 0 = 4 := by decide +kernel

theorem lit : laserOk hw 0 = true := by decide +kernel

theorem nothing_queued : (portAux hw 0).queue = [] := by decide +kernel

theorem no_clock : hw.supplies.refclkSys = false := rfl

end LanesWithoutClock

/-- A change of one port's registers and of what it holds leaves the supplies as they were. -/
theorem supplies_of_onlyPort {h h' : Hw} {q : Nat} {rels : List Nat} (k : onlyPort h h' q rels) :
    h'.supplies = h.supplies := by rw [k.2.2]

theorem refclkSys_of_portRuns {h : Hw} {q : Nat} (runs : portRuns h q = true) : h.supplies.refclkSys = true := by
  simp only [portRuns, Bool.and_eq_true] at runs
  exact runs.1.2

open LanesWithoutClock in
/-- Refutes O55: an UP port whose lanes lock again while REFCLK_SYS is out keeps its state, and does not run (R296), as
the statement says it would. -/
theorem not_portStates : ¬ Obligations.PortStates := by
  intro all
  obtain ⟨-, -, again, -⟩ := all 0 .secure state
  obtain ⟨h', -, runs, only⟩ := again up lit nothing_queued
  have clock := refclkSys_of_portRuns runs
  rw [supplies_of_onlyPort only] at clock
  exact absurd clock (by rw [show state.hw = hw from rfl, no_clock]; decide)

end Sys2Proof.Machine
end

section
/-! PROOFS. Credits, acknowledgements, retries and the loss of a partner (R298-R306, Table 12-6): O56. -/

namespace Sys2Proof.Machine

variable {h g : Hw} {q slot : Nat} {rels : List Nat} {c : Cell}

/-! An arriving cell on a port with nothing queued -/

theorem nextCell_of_empty {a : PortAux} (empty : a.queue = []) : nextCell a = none := by
  simp [nextCell, empty]

/-- With nothing queued nothing leaves. -/
theorem pumpPort_of_empty (empty : (portAux h q).queue = []) (f : Nat) : pumpPort f h q = h := by
  cases f with
  | zero => rfl
  | succ f =>
    have stays : (if portRuns h q then nextCell (portAux h q) else none) = none := by
      rw [nextCell_of_empty empty, ite_self]
    simp only [pumpPort, stays]

/-- What a port holds once it has counted a cell and taken its ACK and its credits. -/
def ackedAux (a : PortAux) (c : Cell) : PortAux :=
  let a := ackCells { a with rxCount := a.rxCount + 1 } c.ack.toNat
  { a with credits := a.credits.set c.crVc.toNat (a.credits.getD c.crVc.toNat 0 + c.crCnt.toNat) }

theorem takeAck_of_empty (empty : (portAux h q).queue = []) (c : Cell) : takeAck (countRx h q) q c =
    setPortAux (countRx h q) q (ackedAux (portAux h q) c) := by
  have counted : portAux (countRx h q) q = { portAux h q with rxCount := (portAux h q).rxCount + 1 } :=
    portAux_setPortAux_self ..
  simp only [takeAck, counted]
  exact pumpPort_of_empty (by rw [portAux_setPortAux_self]; exact empty) _

theorem portAux_takeAck (empty : (portAux h q).queue = []) (c : Cell) :
    portAux (takeAck (countRx h q) q c) q = ackedAux (portAux h q) c := by
  rw [takeAck_of_empty empty, portAux_setPortAux_self]

theorem onlyPort_countRx (m : 0x30 ∈ rels) : onlyPort h (countRx h q) q rels :=
  (onlyPort_setPortAux _).trans (onlyPort_cellCount m _)

theorem onlyPort_takeAck (m : 0x30 ∈ rels) (empty : (portAux h q).queue = []) (c : Cell) :
    onlyPort h (takeAck (countRx h q) q c) q rels := by
  rw [takeAck_of_empty empty]
  exact (onlyPort_countRx m).trans (onlyPort_setPortAux _)

/-- What stays in the replay buffer was there, and is not acknowledged (R301). -/
theorem kept_of_acked {a : PortAux} (left : (portAux g q).replay = (ackedAux a c).replay) :
    ∀ x ∈ (portAux g q).replay, x ∈ a.replay ∧ 2048 ≤ (c.ack.toNat + 4096 - x.seq.toNat) % 4096 := by
  intro x m
  rw [left] at m
  obtain ⟨was, later⟩ := List.mem_filter.mp m
  exact ⟨was, of_decide_eq_true later⟩

/-! Cells that leave -/

theorem crcOk_crcCell (c : Cell) : crcOk (crcCell c) = true := decide_eq_true rfl

/-- A leaving cell names the last good one; of its port only the credits owed change. -/
theorem stampCell_frame (a : PortAux) (c : Cell) : (stampCell a c).1.type = c.type ∧
    (stampCell a c).1.ack = BitVec.ofNat 12 a.rxSeq ∧ (stampCell a c).2.out = a.out ∧
    (stampCell a c).2.replay = a.replay := by
  unfold stampCell
  split <;> exact ⟨rfl, rfl, rfl, rfl⟩

theorem out_emitCell (h : Hw) (q : Nat) (c : Cell) : (portAux (emitCell h q c) q).out =
    (portAux h q).out ++ [crcCell (stampCell (portAux h q) c).1] := by
  obtain ⟨-, -, out, -⟩ := stampCell_frame (portAux h q) c
  rw [portAux_emitCell, out]

theorem replay_emitCell (h : Hw) (q : Nat) (c : Cell) : (portAux (emitCell h q c) q).replay = (portAux h q).replay := by
  obtain ⟨-, -, -, replay⟩ := stampCell_frame (portAux h q) c
  rw [portAux_emitCell]
  exact replay

/-- A NAK leaves that names the last good cell (R301). -/
theorem sendNak_leaves (h : Hw) (q : Nat) : ∃ n, (portAux (sendNak h q) q).out = (portAux h q).out ++ [n] ∧ n.type = 2 ∧
    crcOk n = true ∧ n.ack = BitVec.ofNat 12 (portAux h q).rxSeq ∧
    (portAux (sendNak h q) q).rxSeq = (portAux h q).rxSeq := by
  obtain ⟨type, ack, -, -⟩ := stampCell_frame (portAux h q) (blankCell 2 .none)
  exact ⟨_, out_emitCell .., type, crcOk_crcCell _, ack, rxSeq_emitCell _⟩

/-- Cells leave one by one, and none leaves the replay buffer. -/
theorem emitCells_leave (cs : List Cell) (h : Hw) (q : Nat) :
    (portAux (cs.foldl (fun h c => emitCell h q c) h) q).out.length = (portAux h q).out.length + cs.length ∧
    (portAux (cs.foldl (fun h c => emitCell h q c) h) q).replay = (portAux h q).replay ∧
    onlyPort h (cs.foldl (fun h c => emitCell h q c) h) q [0x2C] := by
  induction cs generalizing h with
  | nil => exact ⟨rfl, rfl, .refl⟩
  | cons c cs ih =>
    obtain ⟨out, replay, only⟩ := ih (emitCell h q c)
    refine ⟨?_, replay.trans (replay_emitCell ..), (onlyPort_emitCell (by simp) c).trans only⟩
    rw [List.foldl_cons, out, out_emitCell, List.length_append, List.length_singleton, List.length_cons]
    omega

theorem onlyPort_setReg {rel : Nat} (m : rel ∈ rels) (v : Word) : onlyPort h (setReg h (rPort q rel) v) q rels :=
  ⟨fun _ out => getReg_setReg_ne h _ fun e => out (e ▸ List.mem_map_of_mem m), fun _ _ => rfl, rfl⟩

theorem onlyPort.mono {rels' : List Nat} (k : onlyPort h g q rels) (sub : rels ⊆ rels') : onlyPort h g q rels' :=
  ⟨fun o n => k.1 o fun m => n (List.map_subset _ sub m), k.2.1, k.2.2⟩

/-- Every unacknowledged cell leaves again, and REPLAYS counts (R301). -/
theorem resendCells_leave (h : Hw) (q : Nat) :
    (portAux (resendCells h q) q).replay = (portAux h q).replay ∧
    getReg (resendCells h q) (rPort q 0x20) = satAdd (getReg h (rPort q 0x20)) 1 ∧
    (portAux (resendCells h q) q).out.length = (portAux h q).out.length + (portAux h q).replay.length ∧
    onlyPort h (resendCells h q) q [0x20, 0x2C] := by
  obtain ⟨out, replay, only⟩ := emitCells_leave (portAux h q).replay h q
  have count := only.1 (rPort q 0x20) (by simp [rPort, regOf])
  refine ⟨replay, ?_, out, (only.mono (by simp)).trans (onlyPort_setReg (by simp) _)⟩
  rw [resendCells, bumpSat, getReg_setReg_self, count]

/-! The cells that a port takes -/

theorem creditHw_of_runs (type : c.type = 1) (runs : portRuns h q = true) :
    creditHw q c h = takeAck (countRx h q) q c := if_pos ⟨type, runs⟩

theorem nakHw_of_runs (type : c.type = 2) (runs : portRuns h q = true) :
    nakHw q c h = resendCells (takeAck (countRx h q) q c) q := if_pos ⟨type, runs⟩

theorem badCellsHw_of_runs (type : 14 ≤ c.type.toNat) (runs : portRuns h q = true) :
    badCellsHw q c h = bumpSat (countRx h q) (rPort q 0x38) 1 := if_pos ⟨type, runs⟩

/-- A cell whose CRC holds is taken. -/
theorem ifCrc_of_ok (ok : crcOk c = true) (f : Hw → Hw) : ifCrc q c f h = f h := if_pos ok

section
variable {t : Nat} {f : Cell → Hw → Hw} (ok : crcOk c = true)
include ok

theorem arriveSeq_of_silent (silent : ¬ portRuns h q = true) : arriveSeq t q c f h = h := by
  rw [arriveSeq, ifCrc_of_ok ok, if_neg fun both => silent both.2]

/-- A cell out of order is answered by a NAK (R301). -/
theorem arriveSeq_of_outOfOrder (type : c.type.toNat = t) (runs : portRuns h q = true)
    (other : c.seq.toNat ≠ ((portAux h q).rxSeq + 1) % 4096) :
    arriveSeq t q c f h = sendNak (takeAck (countRx h q) q c) q := by
  have other : c.seq.toNat ≠ ((portAux (takeAck (countRx h q) q c) q).rxSeq + 1) % 4096 := by rwa [rxSeq_takeAck]
  rw [arriveSeq, ifCrc_of_ok ok, if_pos ⟨type, runs⟩]
  simp only [acceptSeq, if_neg other]

/-- One whose tag fails loses the partner (R303). -/
theorem arriveSeq_of_badTag (type : c.type.toNat = t) (runs : portRuns h q = true)
    (next : c.seq.toNat = ((portAux h q).rxSeq + 1) % 4096) (bad : clearCell (takenCell h q c) q c = none) :
    arriveSeq t q c f h = partnerLoss (takenCell h q c) q 3 := by
  have next : c.seq.toNat = ((portAux (takeAck (countRx h q) q c) q).rxSeq + 1) % 4096 := by rwa [rxSeq_takeAck]
  have accepted : acceptSeq (takeAck (countRx h q) q c) q c = (true, takenCell h q c) := by
    rw [acceptSeq, if_pos next]
    rfl
  rw [arriveSeq, ifCrc_of_ok ok, if_pos ⟨type, runs⟩]
  simp only [accepted, bad]

end

theorem leaveCell_of_heard {t cause : Nat} (type : c.type.toNat = t) (heard : portState h q = 3 ∨ portRuns h q = true) :
    leaveCell t q cause c h = partnerLoss (countRx h q) q cause := if_pos ⟨type, heard⟩

theorem leaveCell_of_unheard {t cause : Nat} (hello : portState h q ≠ 3) (silent : ¬ portRuns h q = true) :
    leaveCell t q cause c h = h := if_neg fun both => both.2.elim hello silent

/-! Failed CRCs -/

theorem cellCrcFailureHw_of_runs (runs : portRuns h q = true) :
    cellCrcFailureHw q h = sendNak (countFec h q) q := if_pos runs

theorem not_runs_of_state (other : portState h q ≠ 4) : ¬ portRuns h q = true := by
  simp [portRuns, portUp, other]

theorem state_of_runs (runs : portRuns h q = true) : portState h q = 4 := by
  simp only [portRuns, portUp, Bool.and_eq_true, decide_eq_true_eq] at runs
  exact runs.1.1

theorem cellCrcFailureHw_of_hello (hello : portState h q = 3) :
    cellCrcFailureHw q h = setPortAux h q { portAux h q with good := 0 } :=
  (if_neg (not_runs_of_state (by rw [hello]; decide))).trans (if_pos hello)

theorem cellCrcFailureHw_of_other (hello : portState h q ≠ 3) (silent : ¬ portRuns h q = true) :
    cellCrcFailureHw q h = h := (if_neg silent).trans (if_neg hello)

/-- Every row of an arriving cell does what a failed CRC does, where its CRC fails. -/
theorem exec_of_badCrc {i : Instr} {p : PortId} {s : State} {f : Hw → Hw} (bad : crcOk c = false)
    (arm : exec i s = onHw (ifCrc p.val c f) s) : exec i s = exec (.cellCrcFailure p) s := by
  have failed : ifCrc p.val c f = cellCrcFailureHw p.val := funext fun h => if_neg (by simp [bad])
  rw [arm, failed]
  rfl

/-- The rows of sequenced cells share the arrival of one. -/
theorem exec_of_seqCell {i : Instr} {p : PortId} {t : Nat} (e : seqCell i = some (p, c, t)) :
    ∃ f, ∀ s, exec i s = onHw (arriveSeq t p.val c f) s := by
  unfold seqCell at e
  split at e
  case h_10 => cases e
  all_goals
    cases e
    exact ⟨_, fun _ => rfl⟩

/-! Timeouts -/

theorem replayTimeoutHw_of_waiting (runs : portRuns h q = true) (waits : (portAux h q).replay ≠ []) :
    replayTimeoutHw q h = resendCells h q := if_pos ⟨runs, waits⟩

theorem timeouts_of_none (none_ : (portAux h q).replay = []) : replayTimeoutHw q h = h ∧ ackTimeoutHw q h = h :=
  ⟨if_neg fun both => both.2 none_, if_neg fun waits => waits none_⟩

/-- The CREDIT cell of a channel's timeout (R300). -/
def creditCell (a : PortAux) (v : Nat) : Cell :=
  { blankCell 1 .none with
    ack := BitVec.ofNat 12 a.rxSeq, crVc := BitVec.ofNat 2 v, crCnt := BitVec.ofNat 10 (min 1023 (a.owed.getD v 0)) }

/-- What a port holds once it has left. -/
def creditedAux (a : PortAux) (v : Nat) : PortAux :=
  { a with
    owed := a.owed.set v (a.owed.getD v 0 - min 1023 (a.owed.getD v 0)), out := a.out ++ [crcCell (creditCell a v)],
    txCount := a.txCount + 1 }

theorem creditTimeoutHw_of_owed {v : Nat} (runs : portRuns h q = true) (owed : 0 < (portAux h q).owed.getD v 0) :
    creditTimeoutHw q v h =
      cellCount (setPortAux h q (creditedAux (portAux h q) v)) q 0x2C ((portAux h q).txCount + 1) :=
  if_pos ⟨runs, by omega⟩

theorem creditTimeoutHw_of_none {v : Nat} (none_ : (portAux h q).owed.getD v 0 = 0) : creditTimeoutHw q v h = h :=
  if_neg fun both => by
    rw [none_] at both
    simp at both

/-! What collectives see of a port -/

/-- Two packages have the same collectives, commands and route maps. -/
structure SameColls (h g : Hw) : Prop where
  colls : g.colls = h.colls
  slots : g.slots = h.slots
  maps : ∀ m r, getReg g (rMap m r) = getReg h (rMap m r)

theorem SameColls.groupOf (k : SameColls h g) (m i : Nat) : groupOf g m i = groupOf h m i := by
  simp only [Machine.groupOf, k.maps]

theorem SameColls.collAt (k : SameColls h g) (slot : Nat) : collAt g slot = collAt h slot := by
  simp only [Machine.collAt, k.colls, cmdAt, k.slots, k.groupOf]

theorem SameColls.routePorts (k : SameColls h g) (v : CollView) : routePorts g v = routePorts h v := by
  simp only [Machine.routePorts, mapSlot, k.maps]

theorem SameColls.collsOn (k : SameColls h g) (q : Nat) : collsOn g q = collsOn h q := by
  simp only [Machine.collsOn, k.colls, k.collAt, k.routePorts]

theorem onlyPort.sameColls (k : onlyPort h g q rels) (lq : q < 12) (low : ∀ r ∈ rels, r < 0x400) : SameColls h g :=
  ⟨by rw [k.2.2], k.slots, fun m r => k.getReg_apart lq low (by simp only [rMap, regOf, baseOf]; omega)⟩

/-! The loss of a partner -/

/-- PORT_STATUS of a port whose partner is lost: LOST, with the cause (Table 12-6). -/
def lostStatus (h : Hw) (q cause : Nat) : Hw :=
  setRegBit (setRegFld (setPortState h q 5) (rPort q 0) 27 24 cause) (rPort q 0) 9 true

/-- Such a port, with what lived on the link discarded. -/
def lostPort (h : Hw) (q cause : Nat) : Hw := clearLink (lostStatus h q cause) q

theorem getReg_lostPort (h : Hw) (q cause o : Nat) :
    getReg (lostPort h q cause) o = getReg (lostStatus h q cause) o := rfl

/-- A collective on a lost link ends as LINK_LOST (R305). -/
def endLinkLost (q : Nat) (h : Hw) (slot : Nat) : Hw :=
  match collAt h slot with
  | none => h
  | some v => failColl h v 0x40 q v.group.rank 0 q

theorem partnerLoss_eq {cause : Nat} (live : portState h q = 3 ∨ portState h q = 4) : partnerLoss h q cause =
    let ended := (collsOn h q).foldl (endLinkLost q) (lostPort h q cause)
    logErr ended { source := 5, kind := cause, secure := portSecure ended q, severity := (if cause = 4 then 0 else 3),
                   unit := q } := if_pos live

theorem partnerLoss_of_other {cause : Nat} (hello : portState h q ≠ 3) (up : portState h q ≠ 4) :
    partnerLoss h q cause = h := if_neg fun either => either.elim hello up

theorem replay_lostPort (h : Hw) (q cause : Nat) : (portAux (lostPort h q cause) q).replay = [] := by
  rw [lostPort, clearLink, portAux_setPortAux_self]

theorem portState_lostPort (h : Hw) (q cause : Nat) : portState (lostPort h q cause) q = 5 := by
  rw [portState, regFld, getReg_lostPort, ← regFld, lostStatus, regFld_setRegBit_apart _ _ _ (.inl (by decide)),
    regFld_setRegFld_apart _ _ _ (.inl (by decide)), setPortState, regFld_setRegFld_self _ _ _ (by decide)]
  rfl

theorem cause_lostPort (h : Hw) (q : Nat) {cause : Nat} (l : cause < 16) :
    regFld (lostPort h q cause) (rPort q 0) 27 24 = cause := by
  rw [regFld, getReg_lostPort, ← regFld, lostStatus, regFld_setRegBit_apart _ _ _ (.inr (by decide)),
    regFld_setRegFld_self _ _ _ (by decide)]
  exact Nat.mod_eq_of_lt l

theorem sameColls_lostPort (lq : q < 12) (cause : Nat) : SameColls h (lostPort h q cause) := by
  refine ⟨rfl, rfl, fun m r => ?_⟩
  have apart : rMap m r ≠ rPort q 0 := by
    simp only [rMap, rPort, regOf, baseOf]
    omega
  rw [getReg_lostPort, lostStatus, setRegBit, getReg_setReg_ne _ _ apart, setRegFld, getReg_setReg_ne _ _ apart,
    setPortState, setRegFld, getReg_setReg_ne _ _ apart]

/-- Error records leave the status of a port. -/
theorem getReg_logErr_port (e : ErrEvent) (lq : q < 12) : getReg (logErr h e) (rPort q 0) = getReg h (rPort q 0) :=
  getReg_errRecord h (by simp only [rPort, rErrLast, regOf, baseOf]; omega)
    (by simp only [rPort, regOf, baseOf]; omega)

/-- With no collective on it, a port whose partner is lost stands LOST, with the cause and nothing to replay. -/
theorem partnerLoss_alone {cause : Nat} (lq : q < 12) (l : cause < 16)
    (live : portState h q = 3 ∨ portState h q = 4) (alone : collsOn h q = []) :
    portState (partnerLoss h q cause) q = 5 ∧ regFld (partnerLoss h q cause) (rPort q 0) 27 24 = cause ∧
    (portAux (partnerLoss h q cause) q).replay = [] ∧ (partnerLoss h q cause).mem = h.mem ∧
    (partnerLoss h q cause).slots = h.slots := by
  rw [partnerLoss_eq live, alone, List.foldl_nil]
  dsimp only
  generalize ErrEvent.mk .. = e
  obtain ⟨mem, slots, ports, -⟩ := logErr_frame (h := lostPort h q cause) e
  refine ⟨?_, ?_, ?_, mem, slots⟩
  · rw [portState, regFld, getReg_logErr_port _ lq]
    exact portState_lostPort ..
  · rw [regFld, getReg_logErr_port _ lq]
    exact cause_lostPort h q l
  · rw [portAux, ports]
    exact replay_lostPort ..

/-- The one collective on it ends as LINK_LOST (R305). -/
theorem partnerLoss_ends {cause : Nat} {v : CollView} (lq : q < 12) (live : portState h q = 3 ∨ portState h q = 4)
    (on : collsOn h q = [slot]) (at_ : collAt h slot = some v) (plain : v.audit = false) :
    ended (partnerLoss h q cause) slot 0x40 q v.group.rank := by
  have lost : collAt (lostPort h q cause) slot = some v := ((sameColls_lostPort lq cause).collAt slot).trans at_
  obtain ⟨here, cmd⟩ := collAt_some lost
  have fails : ended (failColl (lostPort h q cause) v 0x40 q v.group.rank 0 q) slot 0x40 q v.group.rank :=
    here ▸ ended_failColl plain (here ▸ cmd plain) 0x40 q v.group.rank 0 q
  rw [partnerLoss_eq live, on, List.foldl_cons, List.foldl_nil, endLinkLost, lost]
  dsimp only
  obtain ⟨x, found, rest⟩ := fails
  exact ⟨x, (congrArg (smFind · slot) (logErr_frame _).2.1).trans found, rest⟩

/-- What a port has taken before leaves how its loss ends. -/
theorem onlyPort.portState (k : onlyPort h g q rels) (n : 0 ∉ rels) : portState g q = portState h q := by
  rw [Machine.portState, regFld, k.1, ← regFld, Machine.portState]
  simpa [rPort, regOf] using n

/-- The events that lose a partner, with the cause of each (Table 12-6). -/
def loses (i : Instr) (p : PortId) (c : Cell) (h : Hw) (cause : Nat) : Prop :=
  (i = .keepaliveTimeout p ∧ cause = 1) ∨ (i = .ackTimeout p ∧ (portAux h p.val).replay ≠ [] ∧ cause = 2) ∨
  (i = .quiet p c ∧ crcOk c = true ∧ c.type = 12 ∧ (portState h p.val = 3 ∨ portRuns h p.val = true) ∧ cause = 4) ∨
  (i = .resign p c ∧ crcOk c = true ∧ c.type = 13 ∧ (portState h p.val = 3 ∨ portRuns h p.val = true) ∧ cause = 5)

/-- Each is a loss, of a port that has at most counted a cell, and that only in HELLO or UP. -/
theorem effect_of_loses {i : Instr} {p : PortId} {s : State} {cause : Nat} (l : loses i p c s.hw cause) : cause < 16 ∧
    ∃ g, onlyPort s.hw g p.val [0x30] ∧ effect i s (partnerLoss g p.val cause) ∧
      (portState s.hw p.val ≠ 3 → portState s.hw p.val ≠ 4 → g = s.hw) := by
  have counted : onlyPort s.hw (countRx s.hw p.val) p.val [0x30] := onlyPort_countRx (by simp)
  have live {g : Hw} (heard : portState s.hw p.val = 3 ∨ portRuns s.hw p.val = true) (hello : portState s.hw p.val ≠ 3)
      (up : portState s.hw p.val ≠ 4) : g = s.hw := absurd (heard.imp_right state_of_runs) (by simp [hello, up])
  rcases l with ⟨rfl, rfl⟩ | ⟨rfl, waits, rfl⟩ | ⟨rfl, ok, type, heard, rfl⟩ | ⟨rfl, ok, type, heard, rfl⟩
  · exact ⟨by decide, s.hw, .refl, effect_of_onHw rfl, fun _ _ => rfl⟩
  · have done : effect (.ackTimeout p) s (ackTimeoutHw p.val s.hw) := effect_of_onHw rfl
    rw [ackTimeoutHw, if_pos waits] at done
    exact ⟨by decide, s.hw, .refl, done, fun _ _ => rfl⟩
  · have done : effect (.quiet p c) s (ifCrc p.val c (leaveCell 12 p.val 4 c) s.hw) := effect_of_onHw rfl
    rw [ifCrc_of_ok ok, leaveCell_of_heard (by rw [type]; rfl) heard] at done
    exact ⟨by decide, _, counted, done, live heard⟩
  · have done : effect (.resign p c) s (ifCrc p.val c (leaveCell 13 p.val 5 c) s.hw) := effect_of_onHw rfl
    rw [ifCrc_of_ok ok, leaveCell_of_heard (by rw [type]; rfl) heard] at done
    exact ⟨by decide, _, counted, done, live heard⟩

/-- Settles O56: each row by the equation of its case; the losses share what `partnerLoss` leaves. -/
theorem linkLayerKeepsOrder : Obligations.LinkLayerKeepsOrder := by
  intro q c s
  have lq : q.val < 12 := q.isLt
  refine ⟨fun runs ok empty => ⟨fun type => ?credit, fun type => ?nak, fun i t e type other => ?outOfOrder⟩,
    fun runs ok type => ?bad, fun runs => ?crcRuns, fun hello => ?crcHello, fun hello silent => ?crcSilent,
    fun failed i row => ?crcRows, fun runs waits => ?replay, fun none_ => ?none, fun v runs owed => ?owed,
    fun v none_ => ?paid, fun silent ok => ?silent, fun hello silent ok => ?unheard, fun i cause l => ?loss,
    fun i t e type runs ok empty next badTag alone => ?tag⟩
  case credit =>
    have done : effect (.credit q c) s (ifCrc q.val c (creditHw q.val c) s.hw) := effect_of_onHw rfl
    rw [ifCrc_of_ok ok, creditHw_of_runs type runs] at done
    have acked := portAux_takeAck empty c
    exact ⟨_, done, kept_of_acked (congrArg PortAux.replay acked), congrArg PortAux.credits acked,
      onlyPort_takeAck (by simp) empty c⟩
  case nak =>
    have done : effect (.nak q c) s (ifCrc q.val c (nakHw q.val c) s.hw) := effect_of_onHw rfl
    rw [ifCrc_of_ok ok, nakHw_of_runs type runs] at done
    obtain ⟨replay, count, out, only⟩ := resendCells_leave (takeAck (countRx s.hw q.val) q.val c) q.val
    have taken := onlyPort_takeAck (rels := [0x30]) (by simp) empty c
    rw [portAux_takeAck empty] at replay out
    refine ⟨_, done, kept_of_acked replay, ?_, ?_, (taken.mono (by simp)).trans (only.mono (by simp))⟩
    · rw [count, taken.1 _ (by simp [rPort, regOf])]
    · rw [replay]
      exact out
  case outOfOrder =>
    obtain ⟨f, arm⟩ := exec_of_seqCell e
    have done := effect_of_onHw (arm s)
    rw [arriveSeq_of_outOfOrder ok type runs other] at done
    obtain ⟨n, out, isNak, sound, ack, rxSeq⟩ := sendNak_leaves (takeAck (countRx s.hw q.val) q.val c) q.val
    rw [portAux_takeAck empty] at out ack rxSeq
    exact ⟨_, done, ⟨n, out, isNak, sound, ack, rxSeq⟩,
      kept_of_acked ((replay_emitCell ..).trans (congrArg PortAux.replay (portAux_takeAck empty c))),
      (onlyPort_takeAck (by simp) empty c).trans (onlyPort_emitCell (by simp) _)⟩
  case bad =>
    have done : effect (.badCells q c) s (ifCrc q.val c (badCellsHw q.val c) s.hw) := effect_of_onHw rfl
    rw [ifCrc_of_ok ok, badCellsHw_of_runs type runs] at done
    have counted := onlyPort_countRx (h := s.hw) (q := q.val) (rels := [0x30]) (by simp)
    refine ⟨_, done, ?_, congrArg PortAux.rxCount (portAux_setPortAux_self ..),
      (counted.mono (by simp)).trans (onlyPort_setReg (by simp) _)⟩
    rw [bumpSat, getReg_setReg_self, counted.1 _ (by simp [rPort, regOf])]
  case crcRuns =>
    have done : effect (.cellCrcFailure q) s (cellCrcFailureHw q.val s.hw) := effect_of_onHw rfl
    rw [cellCrcFailureHw_of_runs runs] at done
    obtain ⟨n, out, isNak, sound, ack, rxSeq⟩ := sendNak_leaves (countFec s.hw q.val) q.val
    have counted := portAux_setPortAux_self (h := { s.hw with draws := s.hw.draws + 2 }) q.val
    rw [countFec, counted] at out ack rxSeq
    exact ⟨_, done, ⟨n, out, isNak, sound, ack, rxSeq⟩, (onlyPort_setPortAux _).trans (onlyPort_emitCell (by simp) _)⟩
  case crcHello =>
    have done : effect (.cellCrcFailure q) s (cellCrcFailureHw q.val s.hw) := effect_of_onHw rfl
    rw [cellCrcFailureHw_of_hello hello] at done
    exact ⟨_, done, congrArg PortAux.good (portAux_setPortAux_self ..), onlyPort_setPortAux _⟩
  case crcSilent =>
    have done : effect (.cellCrcFailure q) s (cellCrcFailureHw q.val s.hw) := effect_of_onHw rfl
    rwa [cellCrcFailureHw_of_other hello silent] at done
  case crcRows =>
    rcases row with named | ⟨t, e⟩
    · simp only [List.mem_cons, List.not_mem_nil, or_false] at named
      rcases named with rfl | rfl | rfl | rfl | rfl | rfl <;> exact exec_of_badCrc failed rfl
    · obtain ⟨f, arm⟩ := exec_of_seqCell e
      exact exec_of_badCrc failed (arm s)
  case replay =>
    have done : effect (.replayTimeout q) s (replayTimeoutHw q.val s.hw) := effect_of_onHw rfl
    rw [replayTimeoutHw_of_waiting runs waits] at done
    exact ⟨_, done, resendCells_leave ..⟩
  case none =>
    have replay : effect (.replayTimeout q) s (replayTimeoutHw q.val s.hw) := effect_of_onHw rfl
    have ack : effect (.ackTimeout q) s (ackTimeoutHw q.val s.hw) := effect_of_onHw rfl
    obtain ⟨noReplay, noAck⟩ := timeouts_of_none none_
    exact ⟨noReplay ▸ replay, noAck ▸ ack⟩
  case owed =>
    have done : effect (.creditTimeout q v) s (creditTimeoutHw q.val v.val s.hw) := effect_of_onHw rfl
    rw [creditTimeoutHw_of_owed runs owed] at done
    refine ⟨_, crcCell (creditCell (portAux s.hw q.val) v.val), done, congrArg PortAux.out (portAux_setPortAux_self ..),
      crcOk_crcCell _, rfl, rfl, rfl, congrArg PortAux.owed (portAux_setPortAux_self ..),
      (onlyPort_setPortAux _).trans (onlyPort_cellCount (by simp) _)⟩
  case paid =>
    have done : effect (.creditTimeout q v) s (creditTimeoutHw q.val v.val s.hw) := effect_of_onHw rfl
    rwa [creditTimeoutHw_of_none none_] at done
  case silent =>
    have credit : effect (.credit q c) s (ifCrc q.val c (creditHw q.val c) s.hw) := effect_of_onHw rfl
    have nak : effect (.nak q c) s (ifCrc q.val c (nakHw q.val c) s.hw) := effect_of_onHw rfl
    have bad : effect (.badCells q c) s (ifCrc q.val c (badCellsHw q.val c) s.hw) := effect_of_onHw rfl
    rw [ifCrc_of_ok ok, creditHw, if_neg fun both => silent both.2] at credit
    rw [ifCrc_of_ok ok, nakHw, if_neg fun both => silent both.2] at nak
    rw [ifCrc_of_ok ok, badCellsHw, if_neg fun both => silent both.2] at bad
    refine ⟨credit, nak, bad, fun i t e => ?_⟩
    obtain ⟨f, arm⟩ := exec_of_seqCell e
    have done := effect_of_onHw (arm s)
    rwa [arriveSeq_of_silent ok silent] at done
  case unheard =>
    have quiet : effect (.quiet q c) s (ifCrc q.val c (leaveCell 12 q.val 4 c) s.hw) := effect_of_onHw rfl
    have resign : effect (.resign q c) s (ifCrc q.val c (leaveCell 13 q.val 5 c) s.hw) := effect_of_onHw rfl
    rw [ifCrc_of_ok ok, leaveCell_of_unheard hello silent] at quiet resign
    exact ⟨quiet, resign⟩
  case loss =>
    obtain ⟨low, g, only, done, same⟩ := effect_of_loses l
    have sees := only.sameColls lq (by simp)
    have state : portState g q.val = portState s.hw q.val := only.portState (by simp)
    refine ⟨fun hello up => ?_, fun live alone => ?_, fun live slot v on at_ plain => ?_⟩
    · rwa [same hello up, partnerLoss_of_other hello up] at done
    · obtain ⟨lost, why, replay, mem, slots⟩ := partnerLoss_alone lq low (by rwa [state]) (by rwa [sees.collsOn])
      exact ⟨_, done, lost, why, replay, mem.trans only.mem, slots.trans only.slots⟩
    · exact ⟨_, done, partnerLoss_ends lq (by rwa [state]) (by rwa [sees.collsOn]) (by rwa [sees.collAt]) plain⟩
  case tag =>
    obtain ⟨f, arm⟩ := exec_of_seqCell e
    have done := effect_of_onHw (arm s)
    rw [arriveSeq_of_badTag ok type runs next badTag] at done
    have only := onlyPort_takenCell (h := s.hw) (q := q.val) c
    have sees := only.sameColls lq (by simp)
    have state : portState (takenCell s.hw q.val c) q.val = 4 := (only.portState (by simp)).trans (state_of_runs runs)
    obtain ⟨lost, why, -, mem, slots⟩ := partnerLoss_alone (cause := 3) lq (by decide) (.inr state)
      (by rwa [sees.collsOn])
    exact ⟨_, done, lost, why, mem.trans only.mem, slots.trans only.slots⟩

end Sys2Proof.Machine
end

section
/-! PROOFS. Collectives close, fail and end, and a divergence ends (R316-R325, R346): O52. -/

namespace Sys2Proof.Machine

variable {h g : Hw} {slot : Nat} {c : Cmd} {v : CollView}

/-! A command that holds tiles -/

/-- A ready command that holds its tiles does its work. -/
theorem withCmd_of_tiles {op : Nat} {f : Cmd → Hw → Hw} (r : ready h slot op c) (holds : holdsTiles op = true) :
    withCmd slot op f h = f c h := by
  obtain ⟨at_, code, -⟩ := active_some r.1
  have tiles := r.2 holds
  have claims : claimTiles h slot c = h := if_neg (by simp [tiles])
  simp only [withCmd, r.1, claims, at_, tiles, and_false, if_false]

/-- The row of a collective runs it in its slot. -/
def RunsColl (i : SlotId → Instr) (op : Nat) : Prop :=
  ∀ (slot : SlotId) (s : State), exec (i slot) s = onHw (withCmd slot.val op (collRun slot.val)) s

/-- The rows of the collectives (Table 12-9) share their run. -/
theorem runsColl_of_row {i : SlotId → Instr} {op : Nat} (row : (i, op) ∈ [(Instr.reduceScatter, 0x70),
    (Instr.allGather, 0x71), (Instr.allToAll, 0x72), (Instr.broadcast, 0x73), (Instr.send, 0x74), (Instr.recv, 0x75),
    (Instr.barrier, 0x76)]) : RunsColl i op ∧ holdsTiles op = true ∧ op ≠ 0x82 := by
  simp only [List.mem_cons, Prod.mk.injEq, List.not_mem_nil, or_false] at row
  rcases row with ⟨rfl, rfl⟩ | ⟨rfl, rfl⟩ | ⟨rfl, rfl⟩ | ⟨rfl, rfl⟩ | ⟨rfl, rfl⟩ | ⟨rfl, rfl⟩ | ⟨rfl, rfl⟩ <;>
    exact ⟨fun _ _ => rfl, rfl, by decide⟩

theorem collRun_of_tiles (tiles : c.tiles ≠ []) : collRun slot c h = advanceColl 64 h slot := by
  unfold collRun
  split
  · next none_ _ => exact absurd none_ tiles
  · rfl

/-- What a collective's row does where its command is ready. -/
theorem effect_of_runsColl {i : SlotId → Instr} {op : Nat} {slot : SlotId} {s : State} (runs : RunsColl i op)
    (holds : holdsTiles op = true) (r : ready s.hw slot.val op c) :
    effect (i slot) s (advanceColl 64 s.hw slot.val) := by
  have done := effect_of_onHw (runs slot s)
  rwa [withCmd_of_tiles r holds, collRun_of_tiles (r.2 holds)] at done

/-- The command and the operation of a collective that is no audit. -/
theorem collAt_plain (at_ : collAt h slot = some v) (e : cmdAt h slot = some c) (plain : c.opcode ≠ 0x82) :
    v.coll.slot = slot ∧ v.cmd = c ∧ v.op = c.opcode ∧ v.audit = false := by
  obtain ⟨here, -⟩ := collAt_some at_
  unfold collAt at at_
  rw [e] at at_
  split at at_
  · next x cmd _ same =>
    obtain rfl := Option.some.inj same
    obtain rfl := Option.some.inj at_
    refine ⟨here, ?_, ?_, ?_⟩ <;> simp [plain]
  · cases at_

/-! How far a collective has come -/

section
variable (at_ : collAt h slot = some v) (running : v.cmd.phase = .running) (well : v.cmd.fault = none)
include at_ running well

/-- With its levels exchanged and its writes made, a collective goes on with its close exchange (R323). -/
theorem advanceColl_of_written (sent : v.coll.setupSent = true) (exchanged : levels v ≤ v.coll.level)
    (written : v.coll.written = true) (f : Nat) : advanceColl (f + 1) h slot = closeColl h v := by
  simp [advanceColl, at_, running, well, sent, Nat.not_lt.mpr exchanged, written]

/-- One that ends at its start goes no further. -/
theorem advanceColl_of_gone (unsent : v.coll.setupSent = false) (gone : collAt (startColl h v) slot = none) (f : Nat) :
    advanceColl (f + 1) h slot = startColl h v := by
  simp [advanceColl, at_, running, well, unsent, gone]

end

/-! A failure -/

theorem colls_failColl (plain : v.audit = false) (st d0 d1 cause word : Nat) :
    ∀ x ∈ (failColl h v st d0 d1 cause word).colls, x.slot ≠ v.coll.slot := by
  unfold failColl failCollAs
  extract_lets a sent done
  have logged (y : Cmd) (addr : Nat) :
      (cmdErr done v.coll.slot y st d0 d1 1 0 v.cmd.ring.val addr).2.colls = done.colls :=
    (keepsWork_errRecord done (by simp)).colls
  have named (g : Hw) (f : Cmd → Cmd) : (modCmd g v.coll.slot f).colls = g.colls := by
    unfold modCmd
    split <;> rfl
  simp only [plain, Bool.false_eq_true, if_false, named, logged]
  exact colls_endColl plain st d0 d1

/-- The lowest port of the route that is not UP, where none comes back from a QUIET, ends the collective (R316). -/
theorem startColl_of_down {q : Nat} (stays : ∀ p, (portAux h p).rejoins = false) (lq : q < 12)
    (routed : (routePorts h v).contains q = true) (down : portUp h q = false)
    (least : ∀ p < q, (routePorts h v).contains p = true → portUp h p = true) :
    startColl h v = failColl h v 0x40 q v.group.rank 0 q := by
  have first : ((List.range 12).filter fun q => (routePorts h v).contains q && !portUp h q).head? = some q := by
    rw [List.head?_filter]
    refine find?_eq_least List.pairwise_lt_range (List.mem_range.mpr lq) (by rw [routed, down]; rfl) fun p _ meets => ?_
    obtain ⟨on, off⟩ := Bool.and_eq_true_iff.mp meets
    exact Nat.le_of_not_lt fun before => by simp [least p before on] at off
  obtain ⟨ps, shape⟩ := List.head?_eq_some_iff.mp first
  simp only [startColl, shape, List.all_cons, stays, Bool.false_and, Bool.false_eq_true, if_false]

theorem collAt_of_gone (gone : ∀ x ∈ h.colls, x.slot ≠ slot) : collAt h slot = none := by
  have none_ : h.colls.find? (fun c => c.slot = slot) = none :=
    List.find?_eq_none.mpr fun x m => by simpa using gone x m
  simp only [collAt, none_]

/-- A failure ends the command and leaves no collective in its slot. -/
theorem failColl_ends (at_ : collAt h slot = some v) (plain : v.audit = false) (st d0 d1 cause word : Nat) :
    ended (failColl h v st d0 d1 cause word) slot st d0 d1 ∧
    ∀ x ∈ (failColl h v st d0 d1 cause word).colls, x.slot ≠ slot := by
  obtain ⟨rfl, cmd⟩ := collAt_some at_
  exact ⟨ended_failColl plain (cmd plain) .., colls_failColl plain st d0 d1 cause word⟩

/-! Completion -/

/-- DETAIL0 of a collective that is done (Table 12-11). -/
def doneDetail (v : CollView) : Nat :=
  if v.op = 0x70 then v.coll.flags % 32
  else if v.op = 0x72 then v.coll.blocks.foldl (fun n b => n + b.2.length / clRow v.cmd.packet) 0 else 0

theorem slots_perfRegs (regs tiles : List Nat) (h : Hw) : (perfRegs regs tiles h).slots = h.slots :=
  List.foldlRecOn tiles _ (motive := fun g : Hw => g.slots = h.slots) rfl fun _ kept _ _ =>
    List.foldlRecOn regs _ (motive := fun g : Hw => g.slots = h.slots) kept fun _ same _ _ => same

/-- The agreement that a completed collective leaves (R278). -/
def agreedColl (h : Hw) (v : CollView) (agreed : Bool) : Hw :=
  if v.coll.agree then bumpSat (if agreed then setRegBit h rTrainStatus 3 true else h) 0x170014 1 else h

theorem slots_agreedColl (h : Hw) (v : CollView) (agreed : Bool) : (agreedColl h v agreed).slots = h.slots := by
  unfold agreedColl
  split_ifs <;> rfl

theorem doneColl_eq (plain : v.audit = false) (agreed : Bool) : doneColl h v agreed =
    finish (removeColl (perfRegs tilePerf v.cmd.tiles (freeWork (agreedColl h v agreed) v)) v.coll.slot) v.coll.slot 0
      (doneDetail v) v.coll.bytesIn := by
  simp only [doneColl, plain, Bool.false_eq_true, if_false]
  rfl

/-- A collective that is done ends its command and is live no more. -/
theorem doneColl_ends (plain : v.audit = false) (e : cmdAt h v.coll.slot = some c) (agreed : Bool) :
    ended (doneColl h v agreed) v.coll.slot 0 (doneDetail v) v.coll.bytesIn ∧
    ∀ x ∈ (doneColl h v agreed).colls, x.slot ≠ v.coll.slot := by
  rw [doneColl_eq plain]
  have slots : (removeColl (perfRegs tilePerf v.cmd.tiles (freeWork (agreedColl h v agreed) v)) v.coll.slot).slots =
      h.slots :=
    (slots_perfRegs ..).trans ((standsBy_spoil _ _ (collBuffer v)).slots.trans (slots_agreedColl ..))
  refine ⟨ended_finish (c := c) ((congrArg (smFind · v.coll.slot) slots).trans e), fun x m => ?_⟩
  have kept := (workReach_finish ..).colls m
  exact of_decide_eq_true (List.mem_filter.mp kept).2

/-! The close exchange (R323) -/

theorem keepsWork_sendClose (h : Hw) (v : CollView) (rank : Nat) (p : ClosePay) :
    KeepsWork h (sendClose h v rank p) := by
  unfold sendClose
  split
  · exact .refl h
  · exact keepsWork_sendTo ..

theorem sampleAgree_frame (h : Hw) (v : CollView) : (sampleAgree h v).2.slots = h.slots ∧
    (sampleAgree h v).2.colls = h.colls := by
  unfold sampleAgree
  split_ifs <;> exact ⟨rfl, rfl⟩

/-- The downward pass ends a member once its children have been told. -/
theorem closeDown_ends (plain : v.audit = false) (e : cmdAt h v.coll.slot = some c) (agree : Bool) :
    ended (closeDown h v agree) v.coll.slot 0 (doneDetail v) v.coll.bytesIn ∧
    ∀ x ∈ (closeDown h v agree).colls, x.slot ≠ v.coll.slot := by
  have told : KeepsWork h ((children v.group).foldl (fun h r => sendClose h v r (closeCell h v false agree)) h) :=
    KeepsWork.foldl (fun g r => keepsWork_sendClose g v r (closeCell g v false agree)) (children v.group) h
  exact doneColl_ends plain ((congrArg (smFind · v.coll.slot) told.slots).trans e) agree

section
variable (notSend : v.op ≠ 0x74) (notRecv : v.op ≠ 0x75)
include notSend notRecv

theorem closeColl_of_down {d : ClosePay} (up : v.coll.upSent = true) (down : v.coll.down = some d) :
    closeColl h v = closeDown h v d.agree := by
  simp [closeColl, notSend, notRecv, up, down]

theorem closeColl_of_told (up : v.coll.upSent = true) (down : v.coll.down = none) : closeColl h v = h := by
  simp [closeColl, notSend, notRecv, up, down]

section
variable (unsent : v.coll.upSent = false)
include unsent

theorem closeColl_of_unready (missing : v.coll.ups.length < (children v.group).length ∨ closeReady v = false) :
    closeColl h v = h := by
  simp [closeColl, notSend, notRecv, unsent, missing]

variable (heard : (children v.group).length ≤ v.coll.ups.length) (matched : closeReady v = true)
include heard matched

/-- What the member passes on: its own sample, and those of its children (R278). -/
theorem closeColl_of_root (root : v.group.rank = 0) : closeColl h v =
    closeDown (sampleAgree h v).2 v ((sampleAgree h v).1 || v.coll.ups.any ClosePay.agree) := by
  simp [closeColl, notSend, notRecv, unsent, Nat.not_lt.mpr heard, matched, root]

theorem closeColl_of_inner (inner : v.group.rank ≠ 0) : closeColl h v =
    modColl (sendClose (sampleAgree h v).2 v (v.group.rank - 2 ^ lowBit v.group)
      (closeCell (sampleAgree h v).2 v true ((sampleAgree h v).1 || v.coll.ups.any ClosePay.agree)))
      v.coll.slot fun c => { c with upSent := true } := by
  simp [closeColl, notSend, notRecv, unsent, Nat.not_lt.mpr heard, matched, inner]

end
end

theorem closeColl_of_sent {p : ClosePay} {ps : List ClosePay} (send : v.op = 0x74) (come : v.coll.ups = p :: ps) :
    closeColl h v = doneColl h v false := by
  simp [closeColl, send, come]

theorem closeColl_of_unsent (send : v.op = 0x74) (none_ : v.coll.ups = []) : closeColl h v = h := by
  simp [closeColl, send, none_]

theorem closeColl_of_received {p : Partner} {ps : List Partner} (recv : v.op = 0x75) (from_ : v.partners = p :: ps) :
    closeColl h v = doneColl (sendClose h v p.rank (closeCell h v true false)) v false := by
  simp [closeColl, recv, from_]

/-- A collective that is marked in its slot is found marked, whatever cells have left before. -/
theorem collAt_modColl {f : Coll → Coll} (keeps : ∀ x, (f x).slot = x.slot) (colls : g.colls = h.colls)
    (slots : g.slots = h.slots) (at_ : collAt h slot = some v) :
    ∃ v', collAt (modColl g slot f) slot = some v' ∧ v'.coll = f v.coll := by
  unfold collAt at at_
  split at at_
  · next x cmd found e =>
    obtain rfl := Option.some.inj at_
    have here : x.slot = slot := by simpa using List.find?_some found
    have same : ((fun c : Coll => decide (c.slot = slot)) ∘ fun c => if c.slot = slot then f c else c) =
        fun c => decide (c.slot = slot) := by
      funext y
      by_cases at_y : y.slot = slot <;> simp [at_y, keeps]
    have marked : (modColl g slot f).colls.find? (fun c => c.slot = slot) = some (f x) := by
      rw [modColl, List.find?_map, same, colls, found, Option.map_some, if_pos here]
    have cmd_at : cmdAt (modColl g slot f) slot = some cmd := (congrArg (smFind · slot) slots).trans e
    unfold collAt
    rw [marked, cmd_at]
    exact ⟨_, rfl, rfl⟩
  · cases at_

/-! Halts of every ring (R346) -/

/-- Memory, the commands and the registers of the note block stay. -/
structure KeepsNote (h h' : Hw) : Prop where
  mem : h'.mem = h.mem
  slots : h'.slots = h.slots
  note : ∀ o, 0x600000 ≤ o → o < 0x700000 → getReg h' o = getReg h o

theorem KeepsNote.refl (h : Hw) : KeepsNote h h := ⟨rfl, rfl, fun _ _ _ => rfl⟩

theorem KeepsNote.trans {k : Hw} (a : KeepsNote h g) (b : KeepsNote g k) : KeepsNote h k :=
  ⟨b.mem.trans a.mem, b.slots.trans a.slots, fun o low high => (b.note o low high).trans (a.note o low high)⟩

theorem KeepsNote.foldl {α : Type} {f : Hw → α → Hw} {xs : List α}
    (step : ∀ x ∈ xs, ∀ h, KeepsNote h (f h x)) (h : Hw) : KeepsNote h (xs.foldl f h) :=
  List.foldlRecOn xs f (motive := KeepsNote h) (.refl h) fun g k x m => k.trans (step x m g)

theorem keepsNote_logErr (h : Hw) (e : ErrEvent) : KeepsNote h (logErr h e) := by
  obtain ⟨mem, slots, -⟩ := logErr_frame (h := h) e
  refine ⟨mem, slots, fun o low high => getReg_errRecord h ?_ ?_⟩ <;>
    (simp only [rErrLast, regOf, baseOf]; omega)

/-- An interrupt writes the pending bits of its vector at most. -/
theorem getReg_sendMsix_ne {o vec : Nat} (ne : o ≠ regOf .host (0x2000 + 4 * (vec / 32))) :
    getReg (sendMsix h vec) o = getReg h o := by
  unfold sendMsix
  split_ifs
  · exact getReg_setReg_ne h _ ne
  · rfl
  · rfl

theorem getReg_haltRing {n o : Nat} (code : Nat) (ring : o ≠ rRingStatus n) (pending : o ≠ regOf .host 0x2008) :
    getReg (haltRing h n code) o = getReg h o := by
  rw [haltRing, ringIrq, getReg_sendMsix_ne pending, setRegFld, getReg_setReg_ne _ _ ring, setRegBit,
    getReg_setReg_ne _ _ ring]

theorem keepsNote_haltRing {n : Nat} (ln : n < 64) (code : Nat) (h : Hw) : KeepsNote h (haltRing h n code) := by
  refine ⟨?_, ?_, fun o low _ => getReg_haltRing code ?_ ?_⟩
  · rw [haltRing, ringIrq, sendMsix_frame]; rfl
  · rw [haltRing, ringIrq, sendMsix_frame]; rfl
  · simp only [rRingStatus, rRing]; omega
  · simp only [regOf, baseOf]; omega

theorem ringHalted_haltRing_self {n : Nat} (ln : n < 64) (code : Nat) : ringHalted (haltRing h n code) n = true := by
  have apart : rRingStatus n ≠ regOf .host (0x2000 + 4 * (65 / 32)) := by
    simp only [rRingStatus, rRing, regOf, baseOf]
    omega
  rw [ringHalted, haltRing, ringIrq, regBit, getReg_sendMsix_ne apart, ← regBit,
    regBit_setRegFld_apart _ _ _ (.inl (by decide)), regBit_setRegBit_self _ _ _ (by decide)]

/-- A ring that is halted stays so while others are. -/
theorem ringHalted_haltRing {m n : Nat} (ln : n < 64) (code : Nat) (halted : ringHalted h n = true) :
    ringHalted (haltRing h m code) n = true := by
  by_cases same : n = m
  · exact same ▸ ringHalted_haltRing_self ln code
  · rw [ringHalted, regBit, getReg_haltRing code (by simp only [rRingStatus, rRing]; omega)
      (by simp only [rRingStatus, rRing, regOf, baseOf]; omega)]
    exact halted

theorem ringHalted_haltRings {n : Nat} (ln : n < 64) (code : Nat) (ns : List Nat) (h : Hw)
    (halts : n ∈ ns ∨ ringHalted h n = true) : ringHalted (ns.foldl (fun h n => haltRing h n code) h) n = true := by
  induction ns generalizing h with
  | nil => exact halts.resolve_left List.not_mem_nil
  | cons m ns ih =>
    refine ih _ ?_
    rcases halts with in_ | halted
    · rcases List.mem_cons.mp in_ with rfl | later
      · exact .inr (ringHalted_haltRing_self ln code)
      · exact .inl later
    · exact .inr (ringHalted_haltRing ln code halted)

theorem keepsNote_haltAll (h : Hw) : KeepsNote h (haltAll h) := by
  unfold haltAll
  extract_lets recorded
  have halts : KeepsNote recorded ((List.range 64).foldl (fun h n => haltRing h n 0x51) recorded) :=
    .foldl (fun _ m g => keepsNote_haltRing (List.mem_range.mp m) 0x51 g) recorded
  exact (keepsNote_logErr ..).trans halts

theorem ringHalted_haltAll {n : Nat} (ln : n < 64) : ringHalted (haltAll h) n = true :=
  ringHalted_haltRings ln 0x51 _ _ (.inl (List.mem_range.mpr ln))

/-! The end of a divergence (R346) -/

/-- Steps 6 and 7 of a divergent member: the records, the counters, and the divergence over. -/
def divergenceOver (h : Hw) (blocks : List RefreshBlock) : Hw :=
  setRegBit (setRegFld (bumpSat (blocks.foldl blockRecord h) 0x600018 blocks.length) 0x600020 31 16
    (min 65535 blocks.length)) 0x600000 2 false

/-- It stops the rings, and leaves its memory (R346 step 7). -/
def divergenceStops (h : Hw) (blocks : List RefreshBlock) : Bool := regBit h 0x600148 30 || decide (64 < blocks.length)

theorem divergenceHw_of_stops {blocks : List RefreshBlock} (serves : h.ckpt.serves = [])
    (divergent : regBit h 0x600000 2 = true) (stops : divergenceStops h (blocks.filter (blockDiffers h)) = true) :
    divergenceHw blocks h = haltAll (divergenceOver h (blocks.filter (blockDiffers h))) := by
  have stops : (regBit h 0x600148 30 || decide (64 < (blocks.filter (blockDiffers h)).length)) = true := stops
  simp only [divergenceHw, serves, ne_eq, not_true_eq_false, if_false, divergent, if_true, stops]
  rfl

theorem divergenceHw_of_refreshes {blocks : List RefreshBlock} (serves : h.ckpt.serves = [])
    (divergent : regBit h 0x600000 2 = true) (stops : divergenceStops h (blocks.filter (blockDiffers h)) = false) :
    divergenceHw blocks h = divergenceOver ((blocks.filter (blockDiffers h)).foldl refreshBlock h)
      (blocks.filter (blockDiffers h)) := by
  have stops : (regBit h 0x600148 30 || decide (64 < (blocks.filter (blockDiffers h)).length)) = false := stops
  simp only [divergenceHw, serves, ne_eq, not_true_eq_false, if_false, divergent, if_true, stops, Bool.false_eq_true]
  rfl

theorem divergenceHw_of_whole {blocks : List RefreshBlock} (serves : h.ckpt.serves = [])
    (whole : regBit h 0x600000 2 = false) : divergenceHw blocks h = h := by
  simp only [divergenceHw, serves, ne_eq, not_true_eq_false, if_false, whole, Bool.false_eq_true]

/-- The divergence is over, with the number of its blocks. -/
theorem divergenceOver_shows (h : Hw) (blocks : List RefreshBlock) :
    regBit (divergenceOver h blocks) 0x600000 2 = false ∧
    regFld (divergenceOver h blocks) 0x600020 31 16 = min 65535 blocks.length := by
  refine ⟨regBit_setRegBit_self _ _ _ (by decide), ?_⟩
  rw [divergenceOver, regFld_setRegBit_ne (by decide), regFld_setRegFld_self _ _ _ (by decide)]
  exact Nat.mod_eq_of_lt (by omega)

/-- It is recorded beside memory and commands. -/
theorem divergenceOver_frame (h : Hw) (blocks : List RefreshBlock) :
    (divergenceOver h blocks).mem = h.mem ∧ (divergenceOver h blocks).slots = h.slots := by
  have recorded : KeepsNote h (blocks.foldl blockRecord h) := .foldl (fun _ _ g => keepsNote_logErr g _) h
  exact ⟨recorded.mem, recorded.slots⟩

theorem divergenceHw_of_source {blocks : List RefreshBlock} (source : h.ckpt.serves ≠ []) :
    divergenceHw blocks h = serveBlocks blocks h := if_pos source

/-- The source of more blocks than it may send stops the rings instead. -/
theorem serveBlocks_of_many {blocks : List RefreshBlock} (many : 64 < blocks.length) : serveBlocks blocks h =
    { haltAll h with ckpt := { (haltAll h).ckpt with serves := [] } } := by
  simp only [serveBlocks, if_pos many]

/-- Settles O52: a collective by the equation of its place in the close exchange, a divergence by the case of its
member. -/
theorem collectivesClose : Obligations.CollectivesClose := by
  refine ⟨fun i op row slot s c v r at_ => ?rows, fun slot s v at_ => ?limit, fun blocks s => ?divergence⟩
  case rows =>
    obtain ⟨runs, holds, plain⟩ := runsColl_of_row row
    have went := effect_of_runsColl runs holds r
    obtain ⟨e, code, running, well, -⟩ := active_some r.1
    obtain ⟨here, cmd, opcode, noAudit⟩ := collAt_plain at_ e (code ▸ plain)
    rw [code] at opcode
    have detail : doneDetail v = if op = 0x70 then v.coll.flags % 32
        else if op = 0x72 then v.coll.blocks.foldl (fun n b => n + b.2.length / clRow c.packet) 0 else 0 := by
      rw [doneDetail, opcode, cmd]
    have e_at : cmdAt s.hw v.coll.slot = some c := here ▸ e
    rw [← cmd] at running well
    refine ⟨fun sent written exchanged => ?close, fun unsent stays q lq routed down least => ?lost⟩
    case close =>
      have closes : effect (i slot) s (closeColl s.hw v) :=
        advanceColl_of_written at_ running well sent exchanged written 63 ▸ went
      have ends {g : Hw} (same : closeColl s.hw v = g) (closed : ended g v.coll.slot 0 (doneDetail v) v.coll.bytesIn ∧
          ∀ x ∈ g.colls, x.slot ≠ v.coll.slot) : ∃ h', effect (i slot) s h' ∧
          ended h' slot.val 0 (doneDetail v) v.coll.bytesIn ∧ ∀ x ∈ h'.colls, x.slot ≠ slot.val :=
        ⟨g, same ▸ closes, here ▸ closed⟩
      rw [← detail]
      refine ⟨fun send => ⟨fun come => ?sent, fun none_ => ?unsent⟩, fun recv from_ => ?received,
        fun notSend notRecv => ⟨fun up down => ?down, fun up none_ => ?told, fun unsent missing => ?unready,
          fun unsent heard matched => ⟨fun root => ?root, fun inner => ?inner⟩⟩⟩
      case sent =>
        obtain ⟨p, ps, ups⟩ := List.exists_cons_of_ne_nil come
        exact ends (closeColl_of_sent (opcode.trans send) ups) (doneColl_ends noAudit e_at false)
      case unsent => rwa [closeColl_of_unsent (opcode.trans send) none_] at closes
      case received =>
        obtain ⟨p, ps, partners⟩ := List.exists_cons_of_ne_nil from_
        have told := keepsWork_sendClose s.hw v p.rank (closeCell s.hw v true false)
        exact ends (closeColl_of_received (opcode.trans recv) partners)
          (doneColl_ends noAudit ((congrArg (smFind · v.coll.slot) told.slots).trans e_at) false)
      case down =>
        obtain ⟨d, down⟩ := Option.isSome_iff_exists.mp down
        exact ends (closeColl_of_down (opcode ▸ notSend) (opcode ▸ notRecv) up down)
          (closeDown_ends noAudit e_at d.agree)
      case told => rwa [closeColl_of_told (opcode ▸ notSend) (opcode ▸ notRecv) up none_] at closes
      case unready => rwa [closeColl_of_unready (opcode ▸ notSend) (opcode ▸ notRecv) unsent missing] at closes
      case root =>
        obtain ⟨slots, -⟩ := sampleAgree_frame s.hw v
        exact ends (closeColl_of_root (opcode ▸ notSend) (opcode ▸ notRecv) unsent heard matched root)
          (closeDown_ends noAudit ((congrArg (smFind · v.coll.slot) slots).trans e_at) _)
      case inner =>
        rw [closeColl_of_inner (opcode ▸ notSend) (opcode ▸ notRecv) unsent heard matched inner] at closes
        generalize closeCell _ v true _ = p at closes
        obtain ⟨slots, colls⟩ := sampleAgree_frame s.hw v
        have told := keepsWork_sendClose (sampleAgree s.hw v).2 v (v.group.rank - 2 ^ lowBit v.group) p
        obtain ⟨v', found, marked⟩ := collAt_modColl (f := fun x => { x with upSent := true }) (fun _ => rfl)
          (told.colls.trans colls) (told.slots.trans slots) at_
        rw [here] at closes
        exact ⟨_, v', closes, found, by rw [marked], congrArg (smFind · slot.val) (told.slots.trans slots)⟩
    case lost =>
      have fails := startColl_of_down stays lq routed down least
      obtain ⟨ends, gone⟩ := failColl_ends at_ noAudit 0x40 q v.group.rank 0 q
      have starts : effect (i slot) s (startColl s.hw v) :=
        advanceColl_of_gone at_ running well unsent (fails ▸ collAt_of_gone gone) 63 ▸ went
      exact ⟨_, fails ▸ starts, ends, gone⟩
  case limit =>
    have done : effect (.collTimeoutExpiry slot) s (collTimeout slot.val s.hw) := effect_of_onHw rfl
    refine ⟨fun running noAudit limit => ?_, fun none_ => ?_⟩
    · obtain ⟨ends, gone⟩ := failColl_ends at_ noAudit 0x42 0 v.group.rank 0 0
      simp only [collTimeout, at_, running, ne_eq, limit, not_false_eq_true, and_self, if_true] at done
      exact ⟨_, done, ends, gone⟩
    · simpa only [collTimeout, at_, none_, ne_eq, not_true_eq_false, and_false, if_false] using done
  case divergence =>
    have done : effect (.divergenceRefresh blocks) s (divergenceHw blocks s.hw) := effect_of_onHw rfl
    refine ⟨fun serves whole => ?whole, fun serves divergent => ?member, fun source => ?source⟩
    case whole => rwa [divergenceHw_of_whole serves whole] at done
    case member =>
      cases stops : divergenceStops s.hw (blocks.filter (blockDiffers s.hw)) with
      | true =>
        rw [divergenceHw_of_stops serves divergent stops] at done
        obtain ⟨shut, count⟩ := divergenceOver_shows s.hw (blocks.filter (blockDiffers s.hw))
        obtain ⟨mem, slots⟩ := divergenceOver_frame s.hw (blocks.filter (blockDiffers s.hw))
        obtain ⟨memAll, slotsAll, note⟩ := keepsNote_haltAll (divergenceOver s.hw (blocks.filter (blockDiffers s.hw)))
        refine ⟨_, done, ?_, ?_, fun _ => ⟨memAll.trans mem, slotsAll.trans slots, fun n ln _ => ringHalted_haltAll ln⟩,
          fun _ => ⟨memAll.trans mem, slotsAll.trans slots⟩⟩
        · rwa [regBit, note _ (by decide) (by decide), ← regBit]
        · rwa [regFld, note _ (by decide) (by decide), ← regFld]
      | false =>
        rw [divergenceHw_of_refreshes serves divergent stops] at done
        obtain ⟨shut, count⟩ := divergenceOver_shows ((blocks.filter (blockDiffers s.hw)).foldl refreshBlock s.hw)
          (blocks.filter (blockDiffers s.hw))
        refine ⟨_, done, shut, count, fun stop => ?_, fun same => ?_⟩
        · have goes : divergenceStops s.hw (blocks.filter (blockDiffers s.hw)) = true := by
            simpa only [divergenceStops, Bool.or_eq_true, decide_eq_true_eq] using stop
          exact absurd goes (by simp [stops])
        · rw [same]
          exact divergenceOver_frame s.hw []
    case source =>
      rw [divergenceHw_of_source source] at done
      refine ⟨_, done, rfl, fun many => ?_⟩
      rw [serveBlocks_of_many many]
      obtain ⟨mem, slots, -⟩ := keepsNote_haltAll s.hw
      exact ⟨mem, slots, fun n ln _ => ringHalted_haltAll ln⟩

end Sys2Proof.Machine
end

section
/-! PROOFS. A command's own accesses look at no range that it has noted for the order of commands (R46), and keep its
packet. -/

namespace Sys2Proof.Machine

/-! Sparse maps -/

section
variable {α β : Type} {m : List (Nat × α)} {k : Nat} {v w : α}

theorem smDel_smInsert : smDel (smInsert k v m) k = smDel m k := by
  induction m with
  | nil => simp [smInsert, smDel]
  | cons e r ih =>
    unfold smInsert
    split_ifs with before
    · simp [smDel]
    · rw [smDel, List.filter_cons, ← smDel, ih, smDel, smDel, List.filter_cons]

theorem smPut_smPut : smPut (smPut m k v) k w = smPut m k w := by
  have gone : smDel (smDel m k) k = smDel m k := by simp [smDel, List.filter_filter]
  rw [smPut, smPut, smDel_smInsert, gone, ← smPut]

/-- What looks at the other keys alone sees no change of one. -/
theorem flatMap_smPut {f : Nat × α → List β} (blind : ∀ x, f (k, x) = []) : (smPut m k v).flatMap f = m.flatMap f := by
  have inserted (l : List (Nat × α)) : (smInsert k v l).flatMap f = l.flatMap f := by
    induction l with
    | nil => simp [smInsert, blind]
    | cons e r ih =>
      unfold smInsert
      split_ifs <;> simp [blind, ih]
  have deleted : (smDel m k).flatMap f = m.flatMap f := by
    induction m with
    | nil => rfl
    | cons e r ih =>
      obtain ⟨j, x⟩ := e
      rw [smDel] at ih ⊢
      rw [List.filter_cons]
      split_ifs with other
      · rw [List.flatMap_cons, List.flatMap_cons, ih]
      · obtain rfl : j = k := by simpa using other
        rw [ih, List.flatMap_cons, blind, List.nil_append]
  rw [smPut, inserted, deleted]

end

/-! Host memory, whatever stands beside it -/

section
variable (h k : Hw)

@[simp] theorem agentLine_beside (l : Nat) : agentLine (beside h k) l = agentLine h l := rfl

theorem foldl_beside {α : Type} {f : Hw → α → Hw} (step : ∀ h x, f (beside h k) x = beside (f h x) k) (xs : List α) :
    xs.foldl f (beside h k) = beside (xs.foldl f h) k := by
  induction xs generalizing h with
  | nil => rfl
  | cons x xs ih => rw [List.foldl_cons, List.foldl_cons, step, ih]

theorem clearHostPoison_beside (a n : Nat) :
    clearHostPoison (beside h k) a n = beside (clearHostPoison h a n) k := by
  have same : (beside h k).host = h.host := rfl
  simp only [clearHostPoison, same]
  split_ifs <;> rfl

theorem writeBackLine_beside (l : Nat) : writeBackLine (beside h k) l = beside (writeBackLine h l) k := by
  simp only [writeBackLine, agentLine_beside]
  split
  · rfl
  · rw [clearHostPoison_beside]
    rfl

theorem hostIoWrite_beside (a : Nat) (bs : List Byte) :
    hostIoWrite (beside h k) a bs = beside (hostIoWrite h a bs) k := by
  simp only [hostIoWrite]
  rw [foldl_beside h k fun g (p : Nat × Nat) => writeBackLine_beside g k (p.1 / 64), clearHostPoison_beside]
  rfl

theorem agentWriteLine_beside (slot a : Nat) (bs : List Byte) :
    agentWriteLine (beside h k) slot a bs = beside (agentWriteLine h slot a bs) k := by
  have bytes (n : Nat) : hostBytes (beside h k) n 64 = hostBytes h n 64 := rfl
  have same : (beside h k).host = h.host := rfl
  have room (l : Nat) : makeAgentRoom (beside h k) l = beside (makeAgentRoom h l) k := by
    simp only [makeAgentRoom, same]
    split
    · rfl
    · split
      · exact writeBackLine_beside ..
      · rfl
  simp only [agentWriteLine, room, bytes]
  rfl

theorem freePa_beside (pa n : Nat) : freePa (beside h k) pa n = beside (freePa h pa n) k :=
  foldl_beside h k (fun g (p : Nat × Nat) => by
    simp only [decodePa_beside]
    split <;> rfl) _

theorem freeRaced_beside (va pa : Nat) (rs : List (Nat × Nat)) :
    freeRaced (beside h k) va pa rs = beside (freeRaced h va pa rs) k := by
  induction rs generalizing h with
  | nil => rfl
  | cons r rs ih =>
    rw [freeRaced, freePa_beside]
    exact ih { freePa h (pa + (r.1 - va)) r.2 with draws := h.draws + 1 }

end

/-! A command that has noted ranges -/

/-- The command of a slot has noted the ranges that it stores to. -/
def noting (slot : Nat) (rs : List (Nat × Nat)) (h : Hw) : Hw := modCmd h slot fun c => { c with outRanges := rs }

/-- The packet of the command in a slot. -/
def ownPacket (h : Hw) (slot : Nat) : Option (List Byte) := (cmdAt h slot).map Cmd.packet

theorem runOn_noteOut (h : Hw) (slot : Nat) (rs : List (Nat × Nat)) :
    runOn (noteOut slot rs) h = (.ok (), noting slot rs h) := rfl

theorem StandsBy.ownPacket {h g : Hw} (s : StandsBy h g) (slot : Nat) : ownPacket g slot = ownPacket h slot :=
  congrArg (fun m => (smFind m slot).map Cmd.packet) s.slots

section
variable {slot : Nat} (rs : List (Nat × Nat)) (h : Hw)

theorem noting_eq_beside : noting slot rs h = beside h (noting slot rs h) := by
  unfold noting modCmd
  split <;> rfl

theorem holds_noting : (noting slot rs h).holds = h.holds := by
  unfold noting modCmd
  split <;> rfl

/-- What leaves all that stands beside memory leaves the note where it was. -/
theorem StandsBy.beside_noting {h g : Hw} (s : StandsBy h g) : beside g (noting slot rs h) = noting slot rs g := by
  obtain ⟨slots, holds, due, streams⟩ := s
  have same : cmdAt g slot = cmdAt h slot := congrArg (smFind · slot) slots
  unfold noting modCmd
  rw [same]
  split
  · simp only [beside, ← slots, ← holds, ← due, ← streams]
  · simp only [beside, setCmd, slots, holds, due, streams]

/-- What looks at no range noted reads the same of every command. -/
theorem map_cmdAt_noting {α : Type} {f : Cmd → α} (blind : ∀ c, f { c with outRanges := rs } = f c) (x : Nat) :
    (cmdAt (noting slot rs h) x).map f = (cmdAt h x).map f := by
  rw [noting, cmdAt_modCmd]
  split_ifs with own
  · rw [own, Option.map_map]
    exact congrArg (Option.map · _) (funext blind)
  · rfl

/-- A change of the command that looks at no range noted goes the same way. -/
theorem modCmd_noting {f : Cmd → Cmd} (blind : ∀ c, f { c with outRanges := rs } = { f c with outRanges := rs }) :
    modCmd (noting slot rs h) slot f = noting slot rs (modCmd h slot f) := by
  cases at_ : cmdAt h slot with
  | none => rw [noting, modCmd, modCmd, at_]; simp only [at_, noting, modCmd]
  | some c =>
    have put (a b : Cmd) : setCmd (setCmd h slot a) slot b = setCmd h slot b := by
      simp only [setCmd, smPut_smPut]
    rw [noting, modCmd_of_some _ _ at_, modCmd_of_some _ _ (cmdAt_setCmd_self ..), modCmd_of_some _ _ at_, noting,
      modCmd_of_some _ _ (cmdAt_setCmd_self ..), put, put, blind]

end

/-- A change of the hardware goes the same way where the command of a slot has noted ranges, and keeps its packet. -/
structure BlindTo (slot : Nat) (f : Hw → Hw) (h : Hw) : Prop where
  same : ∀ rs, f (noting slot rs h) = noting slot rs (f h)
  packet : ownPacket (f h) slot = ownPacket h slot

section
variable {slot : Nat} {f g : Hw → Hw} {h : Hw}

theorem BlindTo.of_beside (apart : ∀ k, k.holds = h.holds → f (beside h k) = beside (f h) k) : BlindTo slot f h := by
  have stands : StandsBy h (f h) := .of_beside (apart h rfl)
  refine ⟨fun rs => ?_, stands.ownPacket slot⟩
  rw [noting_eq_beside, apart _ (holds_noting rs h), stands.beside_noting]

theorem BlindTo.comp (a : BlindTo slot f h) (b : BlindTo slot g (f h)) : BlindTo slot (fun h => g (f h)) h :=
  ⟨fun rs => by rw [a.same, b.same], b.packet.trans a.packet⟩

theorem BlindTo.modCmd {f : Cmd → Cmd} (blind : ∀ c rs, f { c with outRanges := rs } = { f c with outRanges := rs })
    (packet : ∀ c, (f c).packet = c.packet) : BlindTo slot (fun h => modCmd h slot f) h := by
  refine ⟨fun rs => modCmd_noting rs h fun c => blind c rs, ?_⟩
  rw [ownPacket, cmdAt_modCmd, if_pos rfl, Option.map_map, ownPacket]
  exact congrArg (Option.map · _) (funext packet)

/-- A run that writes bytes piece by piece. -/
theorem BlindTo.foldl_bytes {f : Hw → Nat → List Byte → Hw} (step : ∀ h a bs, BlindTo slot (f · a bs) h)
    (ps : List (Nat × Nat)) (bs : List Byte) :
    BlindTo slot (fun h => (ps.foldl (fun r p => (f r.1 p.1 (r.2.take p.2), r.2.drop p.2)) (h, bs)).1) h := by
  induction ps generalizing h bs with
  | nil => exact ⟨fun _ => rfl, rfl⟩
  | cons p ps ih => exact (step h p.1 (bs.take p.2)).comp (ih (bs.drop p.2))

end

/-- Where the ways before and after the note are one way, it is blind. -/
theorem BlindTo.of_way {slot : Nat} {f way : Hw → Hw} {h : Hw} (blind : BlindTo slot way h) (here : f h = way h)
    (noted : ∀ rs, f (noting slot rs h) = way (noting slot rs h)) : BlindTo slot f h :=
  ⟨fun rs => by rw [noted, blind.same, here], by rw [here, blind.packet]⟩

/-! Host memory written by a command -/

/-- The command has written host memory. -/
def markHost (slot : Nat) (h : Hw) : Hw := modCmd h slot fun c => { c with wroteHost := true }

/-- The command has written a peer range. -/
def markPeer (slot p : Nat) (h : Hw) : Hw := modCmd h slot fun c => { c with
  wroteHost := true, peers := if c.peers.contains p then c.peers else c.peers ++ [p] }

/-- Bytes reach the memory of a peer. -/
def peerWrite (a : Nat) (bs : List Byte) (h : Hw) : Hw :=
  { h with mem := h.mem.write .host a bs, host := { h.host with lastWrite := some a } }

/-- Bytes pass through the lines of the agent. -/
def agentWrite (slot a : Nat) (bs : List Byte) (h : Hw) : Hw :=
  ((pieces 64 a bs.length).foldl (fun r p => (agentWriteLine r.1 slot p.1 (r.2.take p.2), r.2.drop p.2)) (h, bs)).1

section
variable {slot a p : Nat} {bs : List Byte} {h : Hw}

theorem hostWritePiece_peer (peer : peerOf h a = some p) :
    hostWritePiece h slot a bs = peerWrite a bs (markPeer slot p h) := by
  simp only [hostWritePiece, peer, peerWrite, markPeer]

theorem hostWritePiece_host (none_ : peerOf h a = none) : hostWritePiece h slot a bs =
    if hostMode (markHost slot h) = 1 then agentWrite slot a bs (markHost slot h)
    else hostIoWrite (markHost slot h) a bs := by
  rw [hostWritePiece, none_]
  rfl

theorem blindTo_markHost : BlindTo slot (markHost slot) h := .modCmd (fun _ _ => rfl) fun _ => rfl

theorem blindTo_hostWritePiece : BlindTo slot (hostWritePiece · slot a bs) h := by
  have peer (rs : List (Nat × Nat)) : peerOf (noting slot rs h) a = peerOf h a := by rw [noting_eq_beside]; rfl
  cases covered : peerOf h a with
  | some p =>
    have marks : BlindTo slot (markPeer slot p) h := .modCmd (fun _ _ => rfl) fun _ => rfl
    have writes : BlindTo slot (peerWrite a bs) (markPeer slot p h) := .of_beside fun _ _ => rfl
    exact (marks.comp writes).of_way (hostWritePiece_peer covered) fun rs =>
      hostWritePiece_peer ((peer rs).trans covered)
  | none =>
    have mode (rs : List (Nat × Nat)) : hostMode (markHost slot (noting slot rs h)) = hostMode (markHost slot h) := by
      simp only [hostMode, regFld, getReg_modCmd, markHost, noting]
    have here := hostWritePiece_host (slot := slot) (bs := bs) covered
    have noted (rs : List (Nat × Nat)) := hostWritePiece_host (slot := slot) (bs := bs) ((peer rs).trans covered)
    simp only [mode] at noted
    by_cases cxl : hostMode (markHost slot h) = 1
    · simp only [if_pos cxl] at here noted
      have lines : BlindTo slot (agentWrite slot a bs) (markHost slot h) :=
        .foldl_bytes (f := (agentWriteLine · slot)) (fun g a bs => .of_beside fun k _ => agentWriteLine_beside ..) ..
      exact (blindTo_markHost.comp lines).of_way here noted
    · simp only [if_neg cxl] at here noted
      have posts : BlindTo slot (hostIoWrite · a bs) (markHost slot h) := .of_beside fun k _ => hostIoWrite_beside ..
      exact (blindTo_markHost.comp posts).of_way here noted

/-- A write of host memory goes through, or not, as before. -/
theorem hostWrite_noting (rs : List (Nat × Nat)) {h' : Hw} (wrote : hostWrite h slot a bs = some h') :
    hostWrite (noting slot rs h) slot a bs = some (noting slot rs h') ∧ ownPacket h' slot = ownPacket h slot := by
  have up : hostUp (noting slot rs h) = hostUp h := by rw [noting_eq_beside]; rfl
  have blind := BlindTo.foldl_bytes (slot := slot) (h := h) (f := (hostWritePiece · slot))
    (fun g a bs => blindTo_hostWritePiece) (pieces 4096 a bs.length) bs
  unfold hostWrite at wrote ⊢
  rw [up]
  split_ifs at wrote ⊢
  cases wrote
  exact ⟨congrArg some (blind.same rs), blind.packet⟩

end

/-! Physical accesses of a command -/

section
variable {slot : Nat} {who : Who} (own : who.slot = some slot) (h : Hw)
include own

theorem blindTo_touchStack (s : Nat) : BlindTo slot (touchStack · who s) h := by
  have touch : BlindTo slot (fun g => modCmd g slot fun c =>
      if c.usedStacks.contains s then c else { c with usedStacks := c.usedStacks ++ [s] }) h := by
    refine .modCmd (fun c rs => ?_) fun c => ?_
    · dsimp only
      split_ifs <;> rfl
    · split_ifs <;> rfl
  exact touch.of_way (by simp only [touchStack, own]) fun rs => by simp only [touchStack, own]

/-- A piece that is written is written as before. -/
theorem writePaPiece_noting (rs : List (Nat × Nat)) {pa : Nat} {bs answer : List Byte} {poison : Option Nat} {h' : Hw}
    (wrote : writePaPiece h who pa bs = (.bytes answer poison, h')) :
    writePaPiece (noting slot rs h) who pa bs = (.bytes answer poison, noting slot rs h') ∧
      ownPacket h' slot = ownPacket h slot := by
  have decode : decodePa (noting slot rs h) pa = decodePa h pa := by rw [noting_eq_beside]; rfl
  have region : regionSecure (noting slot rs h) pa = regionSecure h pa := by rw [noting_eq_beside]; rfl
  have held (a n : Nat) : heldByOther (noting slot rs h) who a n = heldByOther h who a n := by
    rw [heldByOther, heldByOther, holds_noting]
  unfold writePaPiece at wrote ⊢
  rw [decode, region]
  cases at_ : decodePa h pa with
  | hbm s y =>
    simp only [at_, held] at wrote ⊢
    split_ifs at wrote ⊢
    · cases wrote
    · cases wrote
    · cases wrote
      have line : BlindTo slot (fun g => lineWrite (touchStack g who s) pa s y bs) h :=
        (blindTo_touchStack own h s).comp (g := (lineWrite · pa s y bs)) (.of_beside fun k _ => lineWrite_beside ..)
      exact ⟨congrArg (Prod.mk _) (line.same rs), line.packet⟩
  | tile t off =>
    simp only [at_] at wrote ⊢
    cases wrote
    have stored : BlindTo slot (fun g => { g with mem := g.mem.write .tile (tileKey t off) bs }) h :=
      .of_beside fun _ _ => rfl
    exact ⟨congrArg (Prod.mk _) (stored.same rs), stored.packet⟩
  | cacheArray b off =>
    simp only [at_] at wrote ⊢
    cases wrote
    exact ⟨rfl, rfl⟩
  | unbacked =>
    simp only [at_] at wrote
    cases wrote

theorem writePa_go_noting (rs : List (Nat × Nat)) {answer : List Byte} {poison : Option Nat} {h' : Hw}
    (ps : List (Nat × Nat)) (bs : List Byte) (wrote : writePa.go who h bs ps = (.bytes answer poison, h')) :
    writePa.go who (noting slot rs h) bs ps = (.bytes answer poison, noting slot rs h') ∧
      ownPacket h' slot = ownPacket h slot := by
  induction ps generalizing h bs with
  | nil =>
    cases wrote
    exact ⟨rfl, rfl⟩
  | cons p ps ih =>
    unfold writePa.go at wrote ⊢
    split at wrote
    · next x y g piece =>
      obtain ⟨noted, packet⟩ := writePaPiece_noting own h rs piece
      obtain ⟨rest, packets⟩ := ih g (bs.drop p.2) wrote
      rw [noted]
      exact ⟨rest, packets.trans packet⟩
    · next other => exact absurd wrote (other answer poison h')

/-- Bytes that are written are written as before. -/
theorem writePa_noting (rs : List (Nat × Nat)) {pa : Nat} {bs answer : List Byte} {poison : Option Nat} {h' : Hw}
    (wrote : writePa h who pa bs = (.bytes answer poison, h')) :
    writePa (noting slot rs h) who pa bs = (.bytes answer poison, noting slot rs h') ∧
      ownPacket h' slot = ownPacket h slot := writePa_go_noting own h rs _ _ wrote

end

end Sys2Proof.Machine
end

section
/-! PROOFS. Translated writes of a command look at no range that it has noted (R46, R354). -/

namespace Sys2Proof.Machine

/-! Translation -/

section
variable {slot : Nat} (rs : List (Nat × Nat)) (h : Hw) (who : Who)

theorem xcacheOf_noting : xcacheOf (noting slot rs h) who = xcacheOf h who := by
  have looks (g : Hw) : xcacheOf g who =
      (who.slot.bind fun x => ((cmdAt g x).map Cmd.serving).map fun tile => (tile.map Prod.snd).getD castleCache).getD
        castleCache := by
    unfold xcacheOf
    cases who.slot with
    | none => rfl
    | some x =>
      rw [Option.bind_some, Option.bind_some]
      cases cmdAt g x <;> rfl
  simp only [looks, map_cmdAt_noting rs h (f := Cmd.serving) fun _ => rfl]

theorem pinned_noting (va : Nat) : pinned (noting slot rs h) who va = pinned h who va := by
  have looks (g : Hw) : pinned g who va = who.slot.bind fun x => ((cmdAt g x).map Cmd.pins).bind fun pins =>
      (pins.find? fun p => p.1 = va / 65536).map fun p =>
        .ok (decide (2 ^ 63 ≤ p.2)) (p.2 % 2 ^ 63 + va % 65536) := by
    unfold pinned
    cases who.slot with
    | none => rfl
    | some x =>
      simp only [Option.bind_some]
      cases cmdAt g x <;> rfl
  simp only [looks, map_cmdAt_noting rs h (f := Cmd.pins) fun _ => rfl]

/-- A walk looks at the command of its agent for the cache alone. -/
theorem leafFor_noting (va : Nat) : leafFor (noting slot rs h) who va =
    ((leafFor h who va).1, noting slot rs (leafFor h who va).2) := by
  have cache := xcacheOf_noting (slot := slot) rs h who
  have stands : StandsBy h (leafFor h who va).2 :=
    .of_beside (congrArg Prod.snd (leafFor_beside (h := h) (k := h) rfl rfl who va))
  rw [← stands.beside_noting]
  rw [noting_eq_beside] at cache
  rw [noting_eq_beside]
  cases look : (xcache h (xcacheOf h who)).entries.find? fun e =>
      e.regime = regimeOf who.world && e.page = va / 2 ^ levelShift e.level with
  | some e =>
    rw [leafFor_of_hit _ look, leafFor_of_hit (beside h _) (by rwa [cache]), cache]
    rfl
  | none =>
    have start (g k : Hw) : walkStart (beside g k) who.board (regimeOf who.world) va =
        walkStart g who.board (regimeOf who.world) va := rfl
    have walked (k : Hw) : walking (beside h k) (xcacheOf h who) = beside (walking h (xcacheOf h who)) k := rfl
    rw [leafFor_of_miss _ look, leafFor_of_miss (beside h _) (by rwa [cache]), cache]
    dsimp only
    rw [walked, start, follow_beside (h := walking h _) (holds_noting rs h)]
    exact installed_beside ..

theorem translate_noting (va : Nat) (acc : Acc) : translate (noting slot rs h) who va acc =
    ((translate h who va acc).1, noting slot rs (translate h who va acc).2) := by
  have enabled (r : Nat) : regimeEnabled (noting slot rs h) r = regimeEnabled h r := by rw [noting_eq_beside]; rfl
  have walks : walk (noting slot rs h) who va acc = ((walk h who va acc).1, noting slot rs (walk h who va acc).2) := by
    simp only [walk, enabled]
    split_ifs
    · rfl
    · rw [leafFor_noting]
      generalize leafFor h who va = found
      obtain ⟨path, g⟩ := found
      cases path with
      | leaf => dsimp only; split_ifs <;> rfl
      | _ => rfl
  simp only [translate, pinned_noting, walks]
  split <;> rfl

end

/-! Translated writes of a command -/

/-- An operation of the command in a slot that goes through does so in the same way where the command has noted ranges,
and keeps its packet. -/
def RunBlind (slot : Nat) {α : Type} (m : Run α) : Prop :=
  ∀ rs h x h', runOn m h = (.ok x, h') →
    runOn m (noting slot rs h) = (.ok x, noting slot rs h') ∧ ownPacket h' slot = ownPacket h slot

theorem RunBlind.bind {slot : Nat} {α β : Type} {m : Run α} {f : α → Run β} (a : RunBlind slot m)
    (b : ∀ x, RunBlind slot (f x)) : RunBlind slot (m >>= f) := by
  intro rs h y h' ran
  rcases first : runOn m h with ⟨e | x, g⟩
  · rw [runOn_bind_error first] at ran
    cases ran
  · rw [runOn_bind_ok first] at ran
    obtain ⟨noted, packet⟩ := a rs h x g first
    obtain ⟨rest, packets⟩ := b x rs g y h' ran
    rw [runOn_bind_ok noted]
    exact ⟨rest, packets.trans packet⟩

theorem runBlind_xlateRun {slot : Nat} (who : Who) (va : Nat) (acc : Acc) : RunBlind slot (xlateRun who va acc) := by
  intro rs h x h' ran
  have stands := standsBy_translate h who va acc
  unfold xlateRun at ran ⊢
  rw [runOn_bind_ok runOn_get] at ran ⊢
  rw [translate_noting]
  generalize translate h who va acc = found at ran stands ⊢
  obtain ⟨walk, g⟩ := found
  cases walk with
  | ok t pa =>
    obtain ⟨rfl, rfl⟩ : (t, pa) = x ∧ g = h' := by
      cases ran
      exact ⟨rfl, rfl⟩
    exact ⟨rfl, stands.ownPacket slot⟩
  | _ => cases ran

section
variable {slot : Nat} (rs : List (Nat × Nat)) (h : Hw) {who : Who} (own : who.slot = some slot)
include own

/-- What races with an access of a command is what others have noted (R46). -/
theorem racing_noting (va n : Nat) : racing (noting slot rs h) who va n = racing h who va n := by
  cases at_ : cmdAt h slot with
  | none => rw [noting, modCmd, at_]
  | some c =>
    have noted : noting slot rs h = setCmd h slot { c with outRanges := rs } := modCmd_of_some _ _ at_
    have here : cmdAt (noting slot rs h) slot = some { c with outRanges := rs } := by rw [noted, cmdAt_setCmd_self]
    have task : taskOrder (noting slot rs h) slot = taskOrder h slot := by
      unfold taskOrder
      simp only [map_cmdAt_noting rs h (f := Cmd.order) fun _ => rfl]
      rw [noted]
      rfl
    have past : pastWrites (noting slot rs h) slot { c with outRanges := rs } = pastWrites h slot c := by
      unfold pastWrites
      rw [task, noted]
      rfl
    have mates (x y : Nat) : sameTask (noting slot rs h) x y = sameTask h x y := by rw [noted]; rfl
    have slots : (noting slot rs h).slots = smPut h.slots slot { c with outRanges := rs } := by rw [noted]; rfl
    unfold racing
    simp only [own, Option.bind_some, here, at_, past, mates, slots]
    rw [flatMap_smPut fun x => if_neg (by simp)]

/-- Bytes written within a page are written as before. -/
theorem runBlind_wrPage (va : Nat) (bs : List Byte) : RunBlind slot (wrPage who va bs) := by
  refine (runBlind_xlateRun who va .wr).bind fun x rs h y h' ran => ?_
  obtain ⟨toHost, pa⟩ := x
  have blurred (g : Hw) (xs : List (Nat × Nat)) : blur (noting slot rs g) va bs xs = blur g va bs xs := by
    rw [noting_eq_beside]
    rfl
  rw [runOn_bind_ok runOn_get] at ran ⊢
  rw [racing_noting rs h own]
  simp only [blurred]
  generalize racing h who va bs.length = races at ran ⊢
  cases toHost with
  | true =>
    simp only [own, Option.getD_some, if_true] at ran ⊢
    generalize (if races = [] then bs else blur h va bs races) = written at ran ⊢
    cases wrote : hostWrite h slot pa written with
    | none =>
      rw [wrote] at ran
      cases ran
    | some g =>
      obtain ⟨noted, packet⟩ := hostWrite_noting rs wrote
      rw [wrote] at ran
      rw [noted]
      cases ran
      have drawn : BlindTo slot (fun g => if races = [] then g else { g with draws := g.draws + 1 }) g :=
        .of_beside fun _ _ => by split_ifs <;> rfl
      exact ⟨congrArg (Prod.mk _) (drawn.same rs), drawn.packet.trans packet⟩
  | false =>
    simp only [Bool.false_eq_true, if_false] at ran ⊢
    split at ran
    · next answer poison g wrote =>
      obtain ⟨noted, packet⟩ := writePa_noting (who := { who with va := va }) own h rs wrote
      cases ran
      rw [noted]
      have raced : BlindTo slot (freeRaced · va pa races) g := .of_beside fun k _ => freeRaced_beside g k va pa races
      exact ⟨congrArg (Prod.mk _) (raced.same rs), raced.packet.trans packet⟩
    all_goals cases ran

theorem runBlind_wr (va : Nat) (bs : List Byte) : RunBlind slot (wr who va bs) := by
  have go (ps : List (Nat × Nat)) (bs : List Byte) : RunBlind slot (wr.go who bs ps) := by
    induction ps generalizing bs with
    | nil =>
      intro rs h x h' ran
      cases ran
      exact ⟨rfl, rfl⟩
    | cons p ps ih => exact (runBlind_wrPage own p.1 (bs.take p.2)).bind fun _ => ih _
  exact go _ _

end

end Sys2Proof.Machine
end

section
/-! PROOFS. QUERY, TELEMETRY and ATTEST write their reports (R395, R464-R466). -/

namespace Sys2Proof.Machine

variable {h h1 : Hw} {slot : Nat} {c c1 : Cmd} {bs : List Byte}

/-- A report that can be written is written, and ends its command with its bytes in DETAIL0. -/
theorem reportWork_of_written (at_ : cmdAt h slot = some c) (late : 7 < c.cls) (at1 : cmdAt h1 slot = some c1)
    (wrote : runOn (wr (whoOf slot c) (par c.packet 0 8) bs) h = (.ok (), h1)) :
    ended (reportWork slot c bs h) slot 0 bs.length 0 ∧ (reportWork slot c bs h).mem = h1.mem := by
  let place := [(par c.packet 0 8, bs.length)]
  obtain ⟨noted, packet⟩ := runBlind_wr (slot := slot) (who := whoOf slot c) rfl _ bs place h () h1 wrote
  have at2 : cmdAt (noting slot place h1) slot = some { c1 with outRanges := place } := by
    rw [noting, cmdAt_modCmd, if_pos rfl, at1]
    rfl
  have late1 : 7 < c1.cls := by
    rw [ownPacket, ownPacket, at1, at_] at packet
    rwa [Cmd.cls, Option.some.inj packet]
  have ran : reportWork slot c bs h = finish (noting slot place h1) slot 0 bs.length 0 := by
    refine runCmd_of_ok ?_
    rw [runOn_bind_ok (runOn_noteOut ..), runOn_bind_ok noted, runOn_pure]
  rw [ran]
  exact ⟨ended_finish at2, (mem_finish_late at2 late1).trans (mem_modCmd ..)⟩

/-- A ready command of class 0xF does the work of its report. -/
theorem effect_of_report {i : Instr} {op : Nat} {f : Cmd → Hw → List Byte} {draw : Hw → Hw} {s : State}
    (arm : exec i s = onHw (withCmd slot op fun c h => reportWork slot c (f c h) (draw h)) s)
    (code : 0xF0 ≤ op) (plain : holdsTiles op = false) (draws : (draw s.hw).slots = s.hw.slots)
    (at1 : cmdAt h1 slot = some c1) (is : bs = f c s.hw) (r : ready s.hw slot op c)
    (wrote : runOn (wr (whoOf slot c) (par c.packet 0 8) bs) (draw s.hw) = (.ok (), h1)) :
    ∃ h', effect i s h' ∧ ended h' slot 0 bs.length 0 ∧ h'.mem = h1.mem := by
  subst is
  obtain ⟨at_, own, -⟩ := active_some r.1
  have drawn : cmdAt (draw s.hw) slot = some c := (congrArg (smFind · slot) draws).trans at_
  have done := effect_of_onHw arm
  rw [withCmd_of_ready r plain] at done
  exact ⟨_, done, reportWork_of_written drawn (late_of_opcode own (by omega)) at1 wrote⟩

theorem holdsTiles_report {op : Nat} (cls : op / 16 = 15) : holdsTiles op = false := by
  rw [holdsTiles, cls]
  rfl

end Sys2Proof.Machine
end

section
/-! PROOFS. The stages of NOTATE (R338, R341). -/

namespace Sys2Proof.Machine

variable {h g : Hw} {slot serial st d0 d1 op : Nat} {c d : Cmd} {accepted acked : List Bool}

/-! What makes progress, and what fails -/

/-- A command that stands in its slot under other words of progress makes progress as before. -/
theorem active_setCmd (a : active h slot op = some c) (packet : d.packet = c.packet) (phase : d.phase = c.phase)
    (fault : d.fault = c.fault) : active (setCmd h slot d) slot op = some d := by
  obtain ⟨at_, -⟩ := active_some a
  have task : taskOf (setCmd h slot d) slot = taskOf h slot := rfl
  have works : working (setCmd h slot d) = working h := rfl
  have code : d.opcode = c.opcode := by rw [Cmd.opcode, Cmd.opcode, packet]
  unfold active at a ⊢
  rw [at_] at a
  rw [cmdAt_setCmd_self]
  simp only [code, phase, fault, works, task] at a ⊢
  split_ifs at a ⊢
  rfl

/-- A command that has ended makes no progress. -/
theorem active_of_ended (done : ended h slot st d0 d1) : active h slot op = none := by
  obtain ⟨c, at_, phase, -⟩ := done
  simp [active, at_, phase]

/-- A failure ends a command of no live task, and any command where its status is no fault of a task (Table 9-8). -/
theorem failCmd_of_ends (ends : taskOf h slot = none ∨ taskFault st = false) :
    failCmd h slot st d0 d1 = finish h slot st d0 d1 := by
  unfold failCmd
  cases task : taskOf h slot with
  | none => rfl
  | some t =>
    have plain : taskFault st = false := ends.resolve_left (by simp [task])
    simp [plain]

/-! The stages -/

theorem noteStep_of_none (none_ : active h slot 0x90 = none) : noteStep slot serial accepted acked h = h := by
  rw [noteStep, none_]

section
variable (a : active h slot 0x90 = some c)
include a

/-- A check that fails ends the command as it says. -/
theorem noteStep_of_stop (stage : c.priv.headD 0 = 0)
    (stop : runOn (noteCheck slot c) h = (.error (.stop st d0 d1), g)) :
    noteStep slot serial accepted acked h = failCmd g slot st d0 d1 := by
  unfold noteStep
  simp only [a, stage, stop, takeFail]

/-- One of the five ports is not UP. -/
theorem noteStep_of_lost {q : Nat} (stage : c.priv.headD 0 ≠ 0) (lost : buddyLost h = some q) :
    noteStep slot serial accepted acked h = failCmd h slot 0x40 q 0 := by
  unfold noteStep
  simp only [a, lost]

variable (up : buddyLost h = none)
include up

theorem noteStep_of_refusal {k : Nat} (stage : c.priv.headD 0 = 2) (five : accepted.length = 5)
    (refuses : (List.range 5).find? (fun i => !accepted.getD i true) = some k) :
    noteStep slot serial accepted acked h = failCmd h slot 0x11 (2 ^ 63 + 3 * 2 ^ 48) (piecePort h k) := by
  unfold noteStep
  simp only [a, up, stage, five, refuses, ne_eq, not_true_eq_false, if_false]

theorem noteStep_of_sent (stage : c.priv.headD 0 = 3) : noteStep slot serial accepted acked h =
    if unitsOut h = true then h else setStage (sendRecords c h) slot 4 := by
  unfold noteStep
  simp only [a, up, stage]

theorem noteStep_of_acked (stage : c.priv.headD 0 = 4) :
    noteStep slot serial accepted (List.replicate 5 true) h = noteDone slot c h := by
  have none_ : (List.range 5).find? (fun i => !(List.replicate 5 true).getD i true) = none := by decide
  unfold noteStep
  simp only [a, up, stage, none_, List.length_replicate, ne_eq, not_true_eq_false, if_false]

end

/-! The command -/

/-- NOTATE takes one of its steps, and stays where that leaves it behind the checks. -/
theorem notate_of_rests (begun : c.priv ≠ []) (step : noteStep slot serial accepted acked h = g)
    (rests : active g slot 0x90 = none ∨ (cmdAt g slot).any (fun d => d.priv.headD 0 = 1) = false) :
    notate slot serial accepted acked c h = g := by
  simp only [notate, if_neg begun, step]
  rcases rests with stopped | later
  · rw [noteStep_of_none stopped, ite_self]
  · rw [later, if_neg Bool.false_ne_true]

/-- At its dispatch it takes down its training record first. -/
theorem notate_of_dispatch (new : c.priv = []) (at_ : cmdAt h slot = some c)
    (step : noteStep slot serial accepted acked (setCmd h slot { c with priv := 0 :: noteWords h }) = g)
    (stopped : active g slot 0x90 = none) : notate slot serial accepted acked c h = g := by
  simp only [notate, if_pos new, modCmd_of_some _ _ at_, step]
  rw [noteStep_of_none stopped, ite_self]

/-- Its end stores the digests of its generation, and RESUME_STEP of the last one. -/
theorem noteDone_ends (at_ : cmdAt h slot = some c) : ended (noteDone slot c h) slot 0 ((noteRecordWords c).getD 0 0)
    (5 * pieceBytes (noteQ (noteExtents c))) := ended_finish (c := c) at_

/-! What cells leave -/

theorem KeepsWork.cmdAt {h g : Hw} (k : KeepsWork h g) (n : Nat) : cmdAt g n = cmdAt h n :=
  congrArg (smFind · n) k.slots

theorem keepsWork_sendRecords (h : Hw) (c : Cmd) : KeepsWork h (sendRecords c h) :=
  .foldl (fun g (x : Nat × List Byte) => keepsWork_sendCell g (piecePort g x.1) _) c.leaves h

theorem cmdAt_setStage (at_ : cmdAt h slot = some c) (n : Nat) :
    cmdAt (setStage h slot n) slot = some { c with priv := n :: c.priv.drop 1 } := by
  rw [setStage, cmdAt_modCmd, if_pos rfl, at_]
  rfl

/-- A first word of progress. -/
theorem headD_of_head? {ws : List Nat} {k : Nat} (first : ws.head? = some k) : ws ≠ [] ∧ ws.headD 0 = k := by
  cases ws with
  | nil => cases first
  | cons w ws => exact ⟨List.cons_ne_nil w ws, Option.some.inj first⟩

end Sys2Proof.Machine
end

section
/-! PROOFS. NOTATE as a command (R338): O53. -/

namespace Sys2Proof.Machine

variable {slot : SlotId} {s : State} {c : Cmd} {accepted acked : List Bool} (r : ready s.hw slot.val 0x90 c)
include r

theorem effect_notate : effect (.notate slot accepted acked) s
    (notate slot.val s.fuses.serial.toNat accepted acked c s.hw) :=
  withCmd_of_ready (f := notate slot.val s.fuses.serial.toNat accepted acked) r rfl ▸
    effect_of_onHw (i := .notate slot accepted acked) rfl

/-- A step that ends the command is all that NOTATE does. -/
theorem notate_ends {g : Hw} {st d0 d1 : Nat} (begun : c.priv ≠ []) (ends : ended g slot.val st d0 d1)
    (step : noteStep slot.val s.fuses.serial.toNat accepted acked s.hw = g) :
    ∃ h', effect (.notate slot accepted acked) s h' ∧ ended h' slot.val st d0 d1 :=
  ⟨g, notate_of_rests begun step (.inl (active_of_ended ends)) ▸ effect_notate r, ends⟩

/-- Checks that fail end it with what they say. -/
theorem notate_of_stop {st d0 d1 : Nat} {h1 : Hw} {c1 : Cmd} (new : c.priv = [])
    (stop : runOn (noteCheck slot.val { c with priv := 0 :: noteWords s.hw })
      (setCmd s.hw slot.val { c with priv := 0 :: noteWords s.hw }) = (.error (.stop st d0 d1), h1))
    (at1 : cmdAt h1 slot.val = some c1) (alone : taskOf h1 slot.val = none) :
    ∃ h', effect (.notate slot accepted acked) s h' ∧ ended h' slot.val st d0 d1 := by
  have own : active (setCmd s.hw slot.val { c with priv := 0 :: noteWords s.hw }) slot.val 0x90 =
      some { c with priv := 0 :: noteWords s.hw } := active_setCmd r.1 rfl rfl rfl
  have ends : ended (finish h1 slot.val st d0 d1) slot.val st d0 d1 := ended_finish at1
  have step : noteStep slot.val s.fuses.serial.toNat accepted acked
      (setCmd s.hw slot.val { c with priv := 0 :: noteWords s.hw }) = finish h1 slot.val st d0 d1 :=
    (noteStep_of_stop own rfl stop).trans (failCmd_of_ends (.inl alone))
  exact ⟨_, notate_of_dispatch new (active_some r.1).1 step (active_of_ended ends) ▸ effect_notate r, ends⟩

/-- Its records wait for the units of its pieces. -/
theorem notate_waits (sent : c.priv.head? = some 3) (up : buddyLost s.hw = none) (out : unitsOut s.hw = true) :
    effect (.notate slot accepted acked) s s.hw := by
  obtain ⟨begun, stage⟩ := headD_of_head? sent
  have step : noteStep slot.val s.fuses.serial.toNat accepted acked s.hw = s.hw :=
    (noteStep_of_sent r.1 up stage).trans (if_pos out)
  have rests : (cmdAt s.hw slot.val).any (fun d => d.priv.headD 0 = 1) = false := by
    simp [(active_some r.1).1, sent]
  have done := effect_notate (accepted := accepted) (acked := acked) r
  rwa [notate_of_rests begun step (.inr rests)] at done

/-- With every unit arrived its records leave. -/
theorem notate_sends (sent : c.priv.head? = some 3) (up : buddyLost s.hw = none) (arrived : unitsOut s.hw = false) :
    ∃ h' d, effect (.notate slot accepted acked) s h' ∧ cmdAt h' slot.val = some d ∧ d.priv = 4 :: c.priv.drop 1 ∧
      h'.mem = s.hw.mem := by
  obtain ⟨begun, stage⟩ := headD_of_head? sent
  have kept := keepsWork_sendRecords s.hw c
  have at4 := cmdAt_setStage ((kept.cmdAt slot.val).trans (active_some r.1).1) 4
  have step : noteStep slot.val s.fuses.serial.toNat accepted acked s.hw =
      setStage (sendRecords c s.hw) slot.val 4 :=
    (noteStep_of_sent r.1 up stage).trans (if_neg (by simp [arrived]))
  have rests : (cmdAt (setStage (sendRecords c s.hw) slot.val 4) slot.val).any (fun d => d.priv.headD 0 = 1) =
      false := by simp [at4]
  exact ⟨_, _, notate_of_rests begun step (.inr rests) ▸ effect_notate r, at4, rfl, (mem_modCmd ..).trans kept.mem⟩

/-- With every record acknowledged it is done. -/
theorem notate_done (sent : c.priv.head? = some 4) (up : buddyLost s.hw = none) (acks : acked = List.replicate 5 true) :
    ∃ h', effect (.notate slot accepted acked) s h' ∧
      ended h' slot.val 0 ((noteRecordWords c).getD 0 0) (5 * pieceBytes (noteQ (noteExtents c))) := by
  obtain ⟨begun, stage⟩ := headD_of_head? sent
  subst acks
  exact notate_ends r begun (noteDone_ends (active_some r.1).1) (noteStep_of_acked r.1 up stage)

/-- A port of its five that is not UP ends it. -/
theorem notate_of_lost {k q : Nat} (stage : c.priv.head? = some k) (begun : k ≠ 0) (lost : buddyLost s.hw = some q)
    (alone : taskOf s.hw slot.val = none) :
    ∃ h', effect (.notate slot accepted acked) s h' ∧ ended h' slot.val 0x40 q 0 := by
  obtain ⟨started, stage⟩ := headD_of_head? stage
  exact notate_ends r started (ended_finish (active_some r.1).1)
    ((noteStep_of_lost r.1 (stage ▸ begun) lost).trans (failCmd_of_ends (.inl alone)))

/-- A buddy that refuses the open request ends it. -/
theorem notate_of_refusal {k : Nat} (asked : c.priv.head? = some 2) (up : buddyLost s.hw = none)
    (five : accepted.length = 5) (refuses : (List.range 5).find? (fun i => !accepted.getD i true) = some k) :
    ∃ h', effect (.notate slot accepted acked) s h' ∧
      ended h' slot.val 0x11 (2 ^ 63 + 3 * 2 ^ 48) (piecePort s.hw k) := by
  obtain ⟨begun, stage⟩ := headD_of_head? asked
  exact notate_ends r begun (ended_finish (active_some r.1).1)
    ((noteStep_of_refusal r.1 up stage five refuses).trans (failCmd_of_ends (.inr rfl)))

end Sys2Proof.Machine
end

section
/-! PROOFS. RESTORE and VERIFY as commands (R342, R343): O53. -/

namespace Sys2Proof.Machine

/-! RESTORE -/

/-- In a step that is open or closes its checks stop it with cause 7. -/
theorem restoreCheck_of_step {h : Hw} (slot : Nat) (c : Cmd) (live : stepOpen h = true ∨ stepClosing h = true) :
    runOn (restoreCheck slot c) h = (.error (.stop 0x11 (2 ^ 63 + 7 * 2 ^ 48) 0), h) := by
  have stops : (stepOpen h || stepClosing h) = true := by rwa [Bool.or_eq_true]
  unfold restoreCheck
  rw [runOn_bind_ok runOn_get]
  simp only [stops, if_true]
  exact runOn_bind_error rfl

/-- The pieces that RESTORE asks for next (R342 step 4). -/
def nextPieces (answers : List BuddyAnswer) (g : Generation) (asked : List Nat) : List Nat :=
  if asked = [] then firstPieces (heldPieces answers g) else if wantsParity answers g asked = true then [4] else []

theorem restoreOn_of_gen {h h1 : Hw} {slot : Nat} {c : Cmd} {es : List (Nat × Nat)} {asked : List Nat}
    {answers : List BuddyAnswer} {g : Generation} (gen : runOn (restoreGen es answers c) h = (.ok g, h1)) :
    restoreOn slot es asked answers c h =
      if nextPieces answers g asked = [] then runCmd h slot (restore slot es asked answers c)
      else askPieces answers g (nextPieces answers g asked) (modCmd h slot fun c =>
        { c with priv := (32 + ((asked ++ nextPieces answers g asked).map (2 ^ ·)).sum) :: flatPairs es }) := by
  unfold restoreOn
  rw [gen]
  rfl

theorem keepsWork_askPieces (answers : List BuddyAnswer) (g : Generation) (ps : List Nat) (h : Hw) :
    KeepsWork h (askPieces answers g ps h) := by
  refine .foldl (fun h i => ?_) ps h
  split
  · exact keepsWork_sendCell ..
  · exact .refl h

section
variable {slot : SlotId} {s : State} {c : Cmd} {answers : List BuddyAnswer} (r : ready s.hw slot.val 0x91 c)

theorem restoreRun_of_gen {m : Nat} {ws : List Nat} {g : Generation} {h h1 : Hw} (begun : c.priv = m :: ws)
    (five : answers.length = 5) (gen : runOn (restoreGen (pairsOf ws) answers c) h = (.ok g, h1)) (n : Nat) :
    restoreRun n answers c h =
      if nextPieces answers g (pieceNumbers m) = [] then
        runCmd h n (restore n (pairsOf ws) (pieceNumbers m) answers c)
      else askPieces answers g (nextPieces answers g (pieceNumbers m)) (modCmd h n fun c => { c with
        priv := (32 + ((pieceNumbers m ++ nextPieces answers g (pieceNumbers m)).map (2 ^ ·)).sum) ::
          flatPairs (pairsOf ws) }) := by
  rw [← restoreOn_of_gen gen]
  unfold restoreRun
  rw [begun]
  exact if_neg (by simp [five])

include r

theorem effect_restore : effect (.restore slot answers) s (restoreRun slot.val answers c s.hw) :=
  withCmd_of_ready (f := restoreRun slot.val answers) r rfl ▸ effect_of_onHw (i := .restore slot answers) rfl

theorem restore_in_step (new : c.priv = []) (live : stepOpen s.hw = true ∨ stepClosing s.hw = true) :
    ∃ h', effect (.restore slot answers) s h' ∧ endsOnly s.hw h' slot.val c 0x11 (2 ^ 63 + 7 * 2 ^ 48) 0 := by
  have stops : restoreRun slot.val answers c s.hw = finish s.hw slot.val 0x11 (2 ^ 63 + 7 * 2 ^ 48) 0 := by
    unfold restoreRun
    rw [new]
    simp only [restoreCheck_of_step slot.val c live, takeFail]
    exact failCmd_of_ends (.inr rfl)
  exact ⟨_, stops ▸ effect_restore r, endsOnly_finish (active_some r.1).1⟩

/-- With its checks passed it asks the buddies for their records. -/
theorem restore_asks {es : List (Nat × Nat)} {h1 : Hw} (new : c.priv = [])
    (checked : runOn (restoreCheck slot.val c) s.hw = (.ok es, h1)) :
    effect (.restore slot answers) s
      (askBuddies .askRecords (modCmd h1 slot.val fun c => { c with priv := 32 :: flatPairs es })) := by
  have asks : restoreRun slot.val answers c s.hw =
      askBuddies .askRecords (modCmd h1 slot.val fun c => { c with priv := 32 :: flatPairs es }) := by
    unfold restoreRun
    rw [new]
    simp only [checked]
  exact asks ▸ effect_restore r

/-- It waits for the answers of all five. -/
theorem restore_waits {m : Nat} {ws : List Nat} (begun : c.priv = m :: ws) (few : answers.length ≠ 5) :
    effect (.restore slot answers) s s.hw := by
  have waits : restoreRun slot.val answers c s.hw = s.hw := by
    unfold restoreRun
    rw [begun]
    exact if_pos few
  have done := effect_restore (answers := answers) r
  rwa [waits] at done

variable {m : Nat} {ws : List Nat} {g : Generation} {h1 : Hw} (begun : c.priv = m :: ws) (five : answers.length = 5)
  (gen : runOn (restoreGen (pairsOf ws) answers c) s.hw = (.ok g, h1))
include begun five gen

/-- It asks for the pieces it still needs. -/
theorem restore_asks_pieces (more : nextPieces answers g (pieceNumbers m) ≠ []) :
    ∃ h' d, effect (.restore slot answers) s h' ∧ cmdAt h' slot.val = some d ∧
      d.priv = (32 + ((pieceNumbers m ++ nextPieces answers g (pieceNumbers m)).map (2 ^ ·)).sum) ::
        flatPairs (pairsOf ws) ∧ h'.mem = s.hw.mem := by
  have done := effect_restore (answers := answers) r
  rw [restoreRun_of_gen begun five gen, if_neg more] at done
  have kept (h : Hw) := keepsWork_askPieces answers g (nextPieces answers g (pieceNumbers m)) h
  refine ⟨_, _, done, ((kept _).cmdAt slot.val).trans ((cmdAt_modCmd ..).trans ((if_pos rfl).trans
    (congrArg (Option.map _) (active_some r.1).1))), rfl, (kept _).mem.trans (mem_modCmd ..)⟩

/-- With the pieces at hand it ends as its steps give. -/
theorem restore_ends (none_ : nextPieces answers g (pieceNumbers m) = []) {st d0 d1 : Nat} {h' : Hw}
    (runs : runsAs slot.val (restore slot.val (pairsOf ws) (pieceNumbers m) answers c) s.hw st d0 d1 h') :
    effect (.restore slot answers) s h' ∧ ended h' slot.val st d0 d1 := by
  obtain ⟨h2, c2, ran, at2, rfl⟩ := runs
  have done := effect_restore (answers := answers) r
  rw [restoreRun_of_gen begun five gen, if_pos none_, runCmd_of_ok ran] at done
  exact ⟨done, ended_finish at2⟩

end

/-! VERIFY -/

/-- Requests to the buddies leave the note block, and the digests held. -/
theorem askBuddies_keeps (h : Hw) (m : CkptMsg) : KeepsNote h (askBuddies m h) ∧ (askBuddies m h).ckpt = h.ckpt := by
  have sends (h : Hw) (i : Nat) : KeepsNote h (sendCell h (piecePort h i) (ckptCell m)) ∧
      (sendCell h (piecePort h i) (ckptCell m)).ckpt = h.ckpt := by
    have four : 4 * i + 3 + 1 - 4 * i = 4 := by omega
    have port : piecePort h i < 16 := by
      rw [piecePort, regFld, fld, four]
      exact Nat.mod_lt _ (by decide)
    have only : onlyPort h (sendCell h (piecePort h i) (ckptCell m)) (piecePort h i) [0x2C] :=
      onlyPort_sendCell (by decide) _
    refine ⟨⟨only.mem, only.slots, fun o low _ => only.1 o fun own => ?_⟩, only.ckpt⟩
    obtain rfl := List.mem_singleton.mp own
    simp only [rPort, regOf, baseOf] at low
    omega
  exact List.foldlRecOn (List.range 5) _ (motive := fun g : Hw => KeepsNote h g ∧ g.ckpt = h.ckpt) ⟨.refl h, rfl⟩
    fun g ⟨kept, ckpt⟩ i _ => ⟨kept.trans (sends g i).1, (sends g i).2.trans ckpt⟩

/-- The hardware once VERIFY has asked its buddies for the digests of its generation. -/
def verifyAsked (slot : Nat) (c : Cmd) (h : Hw) : Hw :=
  askBuddies (.askDigest (verifyGen h c)) (modCmd h slot fun c => { c with priv := [1] })

/-- VERIFY finds what it looks at as it was before it asked. -/
theorem verifyAsked_keeps {h : Hw} {slot : Nat} {c : Cmd} (at_ : cmdAt h slot = some c) :
    noteValid (verifyAsked slot c h) = noteValid h ∧ verifyGen (verifyAsked slot c h) c = verifyGen h c ∧
      (verifyAsked slot c h).ckpt = h.ckpt ∧ (verifyAsked slot c h).mem = h.mem ∧
      cmdAt (verifyAsked slot c h) slot = some { c with priv := [1] } := by
  unfold verifyAsked
  rw [modCmd_of_some _ _ at_]
  obtain ⟨⟨mem, slots, note⟩, ckpt⟩ := askBuddies_keeps (setCmd h slot { c with priv := [1] })
    (.askDigest (verifyGen h c))
  refine ⟨?_, ?_, ckpt, mem, (congrArg (smFind · slot) slots).trans (cmdAt_setCmd_self ..)⟩
  · rw [noteValid, regBit, note _ (by decide) (by decide)]
    rfl
  · rw [verifyGen, getReg64, note _ (by decide) (by decide), note _ (by decide) (by decide)]
    rfl

/-- Five digests that the buddies repeat verify a generation. -/
theorem verify_of_repeated {h : Hw} {c : Cmd} {digests : List (Option (List Byte))} {g : Nat × List (List Byte)}
    (valid : noteValid h = true) (five : digests.length = 5)
    (held : h.ckpt.gens.find? (fun x => x.1 = verifyGen h c) = some g) (same : digests = g.2.map some) :
    runOn (verify digests c) h = (.ok (0, verifyGen h c, 0), h) := by
  have none_ : (List.range 5).find? (fun i => digests.getD i none ≠ g.2[i]?) = none := by
    rw [List.find?_eq_none]
    intro i m
    have l : i < g.2.length := by
      rw [same, List.length_map] at five
      rw [five]
      exact List.mem_range.mp m
    simp [same, l]
  unfold verify
  rw [runOn_bind_ok runOn_get]
  simp only [valid, held, five, none_, Bool.not_true, Bool.false_eq_true, if_false, ne_eq, not_true_eq_false]
  rfl

section
variable {slot : SlotId} {s : State} {c : Cmd} {digests : List (Option (List Byte))} {g : Nat × List (List Byte)}
  (r : ready s.hw slot.val 0x92 c) (valid : noteValid s.hw = true) (five : digests.length = 5)
  (held : s.hw.ckpt.gens.find? (fun x => x.1 = verifyGen s.hw c) = some g) (same : digests = g.2.map some)
include r

theorem effect_verify : effect (.verify slot digests) s (verifyRun slot.val digests c s.hw) :=
  withCmd_of_ready (f := verifyRun slot.val digests) r rfl ▸ effect_of_onHw (i := .verify slot digests) rfl

include valid five held same

theorem verify_ends (asked : c.priv ≠ []) : ∃ h', effect (.verify slot digests) s h' ∧
    endsOnly s.hw h' slot.val c 0 (verifyGen s.hw c) 0 := by
  have ends : verifyRun slot.val digests c s.hw = finish s.hw slot.val 0 (verifyGen s.hw c) 0 := by
    simp only [verifyRun, asked, decide_false, Bool.false_and, Bool.false_eq_true, if_false]
    exact runCmd_of_ok (verify_of_repeated valid five held same)
  exact ⟨_, ends ▸ effect_verify r, endsOnly_finish (active_some r.1).1⟩

/-- It asks its buddies first where it has not. -/
theorem verify_asks_and_ends (new : c.priv = []) : ∃ h', effect (.verify slot digests) s h' ∧
    ended h' slot.val 0 (verifyGen s.hw c) 0 ∧ h'.mem = s.hw.mem := by
  obtain ⟨at_, code, -⟩ := active_some r.1
  have known : (s.hw.ckpt.gens.any fun x => x.1 = verifyGen s.hw c) = true :=
    List.any_eq_true.mpr ⟨g, List.mem_of_find?_eq_some held, by simpa using List.find?_some held⟩
  obtain ⟨valid2, gen, ckpt, mem, at2⟩ := verifyAsked_keeps at_
  have repeated : runOn (verify digests c) (verifyAsked slot.val c s.hw) =
      (.ok (0, verifyGen s.hw c, 0), verifyAsked slot.val c s.hw) := by
    rw [← gen]
    exact verify_of_repeated (valid2.trans valid) five (by rw [gen, ckpt, held]) same
  have ends : verifyRun slot.val digests c s.hw =
      finish (verifyAsked slot.val c s.hw) slot.val 0 (verifyGen s.hw c) 0 := by
    simp only [verifyRun, new, valid, known, decide_true, Bool.true_and, if_true]
    exact runCmd_of_ok repeated
  exact ⟨_, ends ▸ effect_verify r, ended_finish at2, (mem_finish_late at2 (late_of_opcode code)).trans mem⟩

end

end Sys2Proof.Machine
end

section
/-! PROOFS. INVALIDATE_SLOTS (R335): O53. -/

namespace Sys2Proof.Machine

/-! Writes below the tile stores -/

/-- Every byte outside HBM stands. -/
structure HbmAlone (h h' : Hw) : Prop where
  read : ∀ sp a, sp ≠ .hbm → h'.mem.read sp a = h.mem.read sp a

variable {h g k : Hw}

theorem HbmAlone.refl (h : Hw) : HbmAlone h h := ⟨fun _ _ _ => rfl⟩

theorem HbmAlone.trans (a : HbmAlone h g) (b : HbmAlone g k) : HbmAlone h k :=
  ⟨fun sp x ne => (b.read sp x ne).trans (a.read sp x ne)⟩

theorem HbmAlone.of_mem (same : g.mem = h.mem) : HbmAlone h g := ⟨fun _ _ _ => by rw [same]⟩

theorem HbmAlone.of_write {y : Nat} {bs : List Byte} (wrote : g.mem = h.mem.write .hbm y bs) : HbmAlone h g :=
  ⟨fun _ x ne => by rw [wrote, read_write_other _ _ _ _ _ x fun own => ne own.1]⟩

theorem hbmAlone_writeCw (h : Hw) (s y : Nat) (bs : List Byte) : HbmAlone h (writeCw h s y bs) := by
  unfold writeCw
  extract_lets cw full chk checked logged sound inj coded a unwritten
  have read : checked.mem = h.mem := by
    unfold checked chk
    split_ifs
    · rfl
    · exact (keepsWork_checkCw ..).mem
  have injected : unwritten.mem = h.mem := by
    have stack : inj.2.mem = sound.mem := by
      unfold inj injectErrs
      extract_lets r pattern
      split_ifs <;> rfl
    exact stack.trans read
  split_ifs
  · exact .of_mem ((keepsWork_logErr _ (by simp)).mem.trans ((keepsWork_logStackEvent ..).mem.trans read))
  · exact (HbmAlone.of_mem injected).trans (.of_write rfl)

theorem hbmAlone_lineWrite (h : Hw) (pa s y : Nat) (bs : List Byte) : HbmAlone h (lineWrite h pa s y bs) := by
  unfold lineWrite
  extract_lets line m counted taken
  have wrote : HbmAlone h counted := (hbmAlone_writeCw h s y bs).trans (.of_mem rfl)
  have line_ : HbmAlone counted taken := by
    unfold taken
    split_ifs
    · exact .of_write rfl
    · exact .refl _
  split_ifs
  · exact wrote.trans (line_.trans (.of_mem rfl))
  · exact wrote.trans line_

/-- Below the tile stores an address is one of HBM or backed by nothing (R170, R176). -/
theorem decodePa_ne_tile (h : Hw) {pa : Nat} (low : pa < 0xF00000000000) (t off : Nat) :
    decodePa h pa ≠ .tile t off := by
  unfold decodePa
  rw [if_neg (fun high : 0xF00000000000 ≤ pa ∧ pa < 0xF00000000000 + 192 * 0x800000 => by omega)]
  split_ifs
  · split <;> simp [boardLocal, packageWide, stackLocal]
  · simp
  · simp

theorem hbmAlone_writePaPiece (h : Hw) {who : Who} {pa : Nat} (low : pa < 0xF00000000000) (bs : List Byte) :
    HbmAlone h (writePaPiece h who pa bs).2 := by
  have touched (s : Nat) : HbmAlone h (touchStack h who s) := .of_mem (by rw [touchStack_frame])
  unfold writePaPiece
  split
  · split_ifs
    · exact .of_mem (keepsWork_logBoard ..).mem
    · exact .refl h
    · exact (touched _).trans (hbmAlone_lineWrite ..)
  · next at_ => exact absurd at_ (decodePa_ne_tile h low _ _)
  · exact .refl h
  · exact .of_mem (keepsWork_logBoard ..).mem

/-- The pieces of an interval begin within it. -/
theorem pieces_within {k a n : Nat} {p : Nat × Nat} (m : p ∈ pieces k a n) : p.1 < a + n := by
  have go (f a n : Nat) (m : p ∈ pieces.go k f a n) : p.1 < a + n := by
    induction f generalizing a n with
    | zero => cases m
    | succ f ih =>
      unfold pieces.go at m
      split_ifs at m with empty
      · cases m
      · rcases List.mem_cons.mp m with rfl | later
        · exact Nat.lt_add_of_pos_right (Nat.pos_of_ne_zero empty)
        · have := ih _ _ later
          omega
  exact go _ a n m

theorem hbmAlone_writePa (h : Hw) (who : Who) {pa : Nat} {bs : List Byte} (low : pa + bs.length ≤ 0xF00000000000) :
    HbmAlone h (writePa h who pa bs).2 := by
  have go (ps : List (Nat × Nat)) (below : ∀ p ∈ ps, p.1 < 0xF00000000000) (h : Hw) (bs : List Byte) :
      HbmAlone h (writePa.go who h bs ps).2 := by
    induction ps generalizing h bs with
    | nil => exact .refl h
    | cons p ps ih =>
      have piece := hbmAlone_writePaPiece h (who := who) (below p List.mem_cons_self) (bs.take p.2)
      unfold writePa.go
      split
      · next e => rw [e] at piece; exact piece.trans (ih (fun q m => below q (List.mem_cons_of_mem p m)) ..)
      · exact piece
  exact go _ (fun p m => Nat.lt_of_lt_of_le (pieces_within m) low) h bs

/-! The slots of the reserve -/

/-- The slots of a reserve of any percentage lie below the tile stores. -/
theorem slotBase_low (h : Hw) (q : Nat) {half : Nat} (two : half ≤ 1) : slotBase h q half + 4096 ≤ 0xF00000000000 := by
  have pct : regFld h 0x600144 23 16 < 256 := Nat.mod_lt _ (by decide)
  have reserve : reserveGib (regFld h 0x600144 23 16) ≤ 5875 := by
    unfold reserveGib
    omega
  have ports : ((recvPorts h).takeWhile fun x => x ≠ q).length ≤ (recvPorts h).length :=
    (List.takeWhile_prefix _).length_le
  have size : slotGib h ≤ reserveGib (regFld h 0x600144 23 16) := Nat.div_le_self ..
  have all_ : 2 * (recvPorts h).length * slotGib h ≤ reserveGib (regFld h 0x600144 23 16) := Nat.mul_div_le ..
  have place : (2 * ((recvPorts h).takeWhile fun x => x ≠ q).length + half) * slotGib h ≤ 11750 :=
    calc (2 * ((recvPorts h).takeWhile fun x => x ≠ q).length + half) * slotGib h
      _ ≤ (2 * (recvPorts h).length + 1) * slotGib h := Nat.mul_le_mul_right _ (by omega)
      _ = 2 * (recvPorts h).length * slotGib h + slotGib h := Nat.succ_mul ..
      _ ≤ 11750 := by omega
  have end_ : hbmEnd - reserveGib (regFld h 0x600144 23 16) * GiB ≤ 2304 * GiB := Nat.sub_le ..
  unfold slotBase
  generalize (2 * ((recvPorts h).takeWhile fun x => x ≠ q).length + half) * slotGib h = n at place ⊢
  generalize hbmEnd - reserveGib (regFld h 0x600144 23 16) * GiB = start at end_ ⊢
  simp only [GiB] at end_ ⊢
  omega

theorem hbmAlone_clearSlot (h : Hw) (q : Nat) {half : Nat} (two : half ≤ 1) : HbmAlone h (clearSlot h q half) := by
  unfold clearSlot
  split_ifs
  · exact .refl h
  · exact hbmAlone_writePa h _ (by rw [List.length_replicate]; exact slotBase_low h q two)

theorem slots_clearSlot (h : Hw) (q half : Nat) : (clearSlot h q half).slots = h.slots := by
  unfold clearSlot
  split_ifs
  · rfl
  · exact (standsBy_writePa h (who := castle .secure) rfl _ _).slots

theorem invalidateSlots_clears {w : World} {s : State} (a : acts s.hw w 0x600004 = true) :
    ∃ h', effect (.invalidateSlots w) s h' ∧ h'.ckpt.rx = [] ∧ h'.slots = s.hw.slots ∧
      (∀ sp a, sp ≠ .hbm → h'.mem.read sp a = s.hw.mem.read sp a) := by
  have cleared : ((recvPorts s.hw).foldl (fun h q => clearSlot (clearSlot h q 0) q 1) s.hw).slots = s.hw.slots ∧
      HbmAlone s.hw ((recvPorts s.hw).foldl (fun h q => clearSlot (clearSlot h q 0) q 1) s.hw) :=
    List.foldlRecOn (recvPorts s.hw) _ (motive := fun g : Hw => g.slots = s.hw.slots ∧ HbmAlone s.hw g)
      ⟨rfl, .refl _⟩ fun g ⟨slots, alone⟩ q _ =>
        ⟨(slots_clearSlot ..).trans ((slots_clearSlot ..).trans slots),
          alone.trans ((hbmAlone_clearSlot g q (Nat.zero_le 1)).trans (hbmAlone_clearSlot _ q (Nat.le_refl 1)))⟩
  exact ⟨_, effect_of_acts (i := .invalidateSlots w) (f := invalidateSlotsHw) rfl a, rfl, cleared.1, cleared.2.read⟩

end Sys2Proof.Machine
end

section
/-! PROOFS. Reports, NOTATE, RESTORE, VERIFY and INVALIDATE_SLOTS: the settling of O53. -/

namespace Sys2Proof.Machine

/-- Settles O53: a command's writes go the same way whether or not it has noted their place (R46), so that a report ends
as it is written; the commands of the checkpoint block by the equations of their stages. -/
theorem reportsAndNotation : Obligations.ReportsAndNotation := by
  refine ⟨fun slot s c c1 h1 at1 => ?reports, fun slot s c accepted acked r => ?notate,
    fun slot s c answers r => ?restore, fun slot s c digests g r valid five held same => ?verify,
    fun w s a => invalidateSlots_clears a⟩
  case reports =>
    refine ⟨fun bs => ?query, fun bs => ?telemetry, fun bs => ?attest⟩
    case query =>
      exact effect_of_report (f := fun _ h => queryReport s.fuses h) (draw := fun h => h) rfl (by decide)
        (holdsTiles_report rfl) rfl at1
    case telemetry =>
      exact effect_of_report (f := fun c h => telemetryReport s.fuses h c)
        (draw := fun h => { h with draws := h.draws + 1 }) rfl (by decide) (holdsTiles_report rfl) rfl at1
    case attest =>
      exact effect_of_report (f := fun c h => attestReport s.fuses h c) (draw := fun h => h) rfl (by decide)
        (holdsTiles_report rfl) rfl at1
  case notate =>
    exact ⟨fun st d0 d1 h1 c1 new stop at1 alone => notate_of_stop r new stop at1 alone,
      fun sent up => ⟨notate_waits r sent up, notate_sends r sent up⟩, notate_done r,
      fun k q stage begun lost alone => notate_of_lost r stage begun lost alone,
      fun k asked up five refuses => notate_of_refusal r asked up five refuses⟩
  case restore =>
    exact ⟨restore_in_step r, fun es h1 new checked => restore_asks r new checked,
      fun m ws begun => ⟨restore_waits r begun, fun five g h1 gen => ⟨restore_asks_pieces r begun five gen,
        fun none_ st d0 d1 h' runs => restore_ends r begun five gen none_ runs⟩⟩⟩
  case verify =>
    exact ⟨verify_ends r valid five held same, verify_asks_and_ends r valid five held same⟩

end Sys2Proof.Machine
end

section
/-! PROOFS. Reads of device memory and walks change no byte of memory (R355), and what a disabled regime answers (R350,
R352): O31. -/

namespace Sys2Proof.Machine

/-! Reads of device memory -/

theorem mem_readPaPiece (h : Hw) (who : Who) (pa n : Nat) : (readPaPiece h who pa n).2.mem = h.mem := by
  have touched (s : Nat) : (touchStack h who s).mem = h.mem := by rw [touchStack_frame]
  unfold readPaPiece
  split
  case h_1 =>
    split_ifs
    · exact logBoard_mem ..
    · rfl
    all_goals exact (keepsWork_lineRead ..).mem.trans (touched _)
  case h_2 => rfl
  case h_3 => split_ifs <;> rfl
  case h_4 => exact logBoard_mem ..

theorem mem_readPa (h : Hw) (who : Who) (pa n : Nat) : (readPa h who pa n).2.mem = h.mem := by
  have go (ps : List (Nat × Nat)) (h : Hw) (acc : List Byte) (poison : Option Nat) :
      (readPa.go who h acc poison ps).2.mem = h.mem := by
    induction ps generalizing h acc poison with
    | nil => rfl
    | cons p ps ih =>
      have piece := mem_readPaPiece h who p.1 p.2
      unfold readPa.go
      split
      · next e => rw [e] at piece; exact (ih ..).trans piece
      · exact piece
  exact go ..

/-! Walks -/

theorem mem_follow (h : Hw) (walker : Option Nat) (r va f l table : Nat) :
    (follow h walker r va f l table).2.mem = h.mem := by
  induction f generalizing h l table with
  | zero => rfl
  | succ f ih =>
    have read := mem_readPa h (castle (worldOf r)) (table + va / 2 ^ levelShift l % levelEntries l * 8) 8
    unfold follow
    dsimp only
    generalize readPa h (castle (worldOf r)) (table + va / 2 ^ levelShift l % levelEntries l * 8) 8 = found at read ⊢
    obtain ⟨answer, g⟩ := found
    -- The table's own place may be wrong; else the entry's answer ends the walk, or a pointer leads to the next table.
    split_ifs
    · rfl
    · cases answer with
      | bytes bs poison =>
        cases poison with
        | some _ => exact read
        | none =>
          dsimp only
          split_ifs
          · exact read
          · exact read
          · exact read
          · cases walker with
            | none => exact (ih ..).trans read
            | some b => exact (ih ..).trans read
          · exact read
      | _ => exact read

theorem mem_installed (x r va : Nat) (p : Path × Hw) : (installed x r va p).2.mem = p.2.mem := by
  obtain ⟨path, g⟩ := p
  cases path <;> rfl

theorem mem_leafFor (h : Hw) (who : Who) (va : Nat) : (leafFor h who va).2.mem = h.mem := by
  cases look : (xcache h (xcacheOf h who)).entries.find? fun e =>
      e.regime = regimeOf who.world && e.page = va / 2 ^ levelShift e.level with
  | some e => rw [leafFor_of_hit _ look]; rfl
  | none =>
    rw [leafFor_of_miss _ look]
    exact (mem_installed ..).trans (mem_follow ..)

theorem mem_walk (h : Hw) (who : Who) (va : Nat) (acc : Acc) : (walk h who va acc).2.mem = h.mem := by
  have leaf := mem_leafFor h who va
  unfold walk
  split_ifs
  · rfl
  · generalize leafFor h who va = found at leaf
    obtain ⟨path, g⟩ := found
    cases path with
    | leaf => dsimp only; split_ifs <;> exact leaf
    | _ => exact leaf

theorem standsBy_walk (h : Hw) (who : Who) (va : Nat) (acc : Acc) : StandsBy h (walk h who va acc).2 :=
  .of_beside (congrArg Prod.snd (walk_beside (h := h) (k := h) rfl rfl who va acc))

/-- A disabled regime, and an address beyond 2^48, have no walk. -/
theorem walk_of_closed {h : Hw} {who : Who} {va : Nat}
    (closed : regimeEnabled h (regimeOf who.world) = false ∨ 2 ^ 48 ≤ va) (acc : Acc) :
    walk h who va acc = (.permission, h) :=
  if_pos (closed.symm.imp_right fun disabled => by rw [disabled]; rfl)

/-- Settles O31: the guard of `walk` comes before any read, and a walk writes nothing but caches and error records. -/
theorem disabledRegimeRefuses : Obligations.DisabledRegimeRefuses := by
  intro h who va acc
  refine ⟨fun closed => walk_of_closed closed acc, mem_walk .., (standsBy_walk ..).slots, fun t pa ok => ?_,
    fun none_ => by rw [translate, none_]⟩
  have enabled : ¬ (regimeEnabled h (regimeOf who.world) = false ∨ 2 ^ 48 ≤ va) := fun closed => by
    rw [walk_of_closed closed] at ok
    cases ok
  simpa using enabled

end Sys2Proof.Machine
end

section
/-! PROOFS. MAP, UNMAP and INVAL (R364-R366): O27. -/

namespace Sys2Proof.Machine

/-! The pins of a range -/

theorem any_smPut {α : Type} {p : Nat × α → Bool} {k : Nat} (blind : ∀ x, p (k, x) = false) (m : List (Nat × α))
    (v : α) : (smPut m k v).any p = m.any p := by
  rw [Bool.eq_iff_iff, List.any_eq_true, List.any_eq_true]
  constructor
  · rintro ⟨e, listed, hit⟩
    rcases mem_smInsert.mp listed with rfl | old
    · rw [blind] at hit
      cases hit
    · exact ⟨e, (List.mem_filter.mp old).1, hit⟩
  · rintro ⟨⟨j, x⟩, listed, hit⟩
    have other : j ≠ k := by
      rintro rfl
      rw [blind] at hit
      cases hit
    exact ⟨_, mem_smInsert.mpr (.inr (List.mem_filter.mpr ⟨listed, by simpa using other⟩)), hit⟩

/-- A command's own words bear on no pin of another. -/
theorem pinsIn_modCmd (h : Hw) (slot : Nat) (f : Cmd → Cmd) (w : World) (va n : Nat) :
    pinsIn (modCmd h slot f) slot w va n = pinsIn h slot w va n := by
  unfold modCmd
  split
  · rfl
  · exact any_smPut (by simp) ..

/-! The end of a translation command -/

section
variable {h : Hw} {slot : Nat} {c : Cmd} (at_ : cmdAt h slot = some c) (late : 7 < c.cls)
include at_

theorem finishXlate_ends (d0 : Nat) : ended (finishXlate h slot d0) slot 0 d0 0 :=
  ended_finish (h := bumpSat h 0x300010 1) at_

include late

theorem mem_finishXlate (d0 : Nat) : (finishXlate h slot d0).mem = h.mem :=
  mem_finish_late (h := bumpSat h 0x300010 1) at_ late

/-- Beside INVALS its end reaches the registers of its tiles alone. -/
theorem getReg_finishXlate (d0 : Nat) {o : Nat} (out : o ∉ tileStatuses c.tiles) :
    getReg (finishXlate h slot d0) o = getReg (bumpSat h 0x300010 1) o := by
  refine (regsKept_finish (h := bumpSat h 0x300010 1) at_ o out).trans ?_
  rw [leaveOpen_plain (workBuffer_control (.inr late)) (overlaps_control (.inr late)), notePast_eq]
  rfl

theorem invals_finishXlate (d0 : Nat) :
    getReg (finishXlate h slot d0) 0x300010 = satAdd (getReg h 0x300010) 1 := by
  have out : 0x300010 ∉ tileStatuses c.tiles := by
    simp only [tileStatuses, List.mem_append, List.mem_map, rTileFreq, regOf, baseOf]
    rintro (⟨t, -, e⟩ | ⟨t, -, e⟩) <;> omega
  rw [getReg_finishXlate at_ late d0 out, bumpSat, getReg_setReg_self]

theorem regsKept_finishXlate (d0 : Nat) : regsKept h (finishXlate h slot d0) (0x300010 :: tileStatuses c.tiles) := by
  intro o out
  obtain ⟨ne, tiles⟩ := not_or.mp fun hit => out (List.mem_cons.mpr hit)
  rw [getReg_finishXlate at_ late d0 tiles, bumpSat, getReg_setReg_ne _ _ ne]

theorem xlate_finishXlate (d0 : Nat) : (finishXlate h slot d0).xlate = h.xlate := by
  rw [finishXlate, finish_eq (h := bumpSat h 0x300010 1) at_,
    leaveOpen_plain (workBuffer_control (.inr late)) (overlaps_control (.inr late)), notePast_eq]
  rfl

end

/-! MAP and UNMAP -/

/-- What a MAP or UNMAP whose entries are written does: it waits for the pins of its range, or ends (R366). -/
def closeMap (map : Bool) (slot : Nat) (c : Cmd) (used : Nat) (h : Hw) : Hw :=
  if pinsIn h slot c.world (xmVa c.packet) (xmPages c.packet * pageBytes (xmPsize c.packet)) then h
  else finishXlate h slot (if map then used else 0)

theorem mapRun_of_written {map : Bool} {slot used : Nat} {c : Cmd} {h : Hw} (written : c.priv = [1, used]) :
    mapRun map slot c h = closeMap map slot c used h := by
  unfold mapRun
  rw [written]
  rfl

theorem mapRun_of_new {map : Bool} {slot used : Nat} {c : Cmd} {h h1 : Hw} (new : c.priv = [])
    (work : runOn (mapWork map c.world c.packet) h = (.ok used, h1)) :
    mapRun map slot c h = closeMap map slot c used (modCmd h1 slot fun c => { c with priv := [1, used] }) := by
  unfold mapRun
  rw [new]
  simp only [work]
  rfl

section
variable {map : Bool} {slot used : Nat} {c : Cmd} {h : Hw}

theorem closeMap_of_pinned
    (pinned : pinsIn h slot c.world (xmVa c.packet) (xmPages c.packet * pageBytes (xmPsize c.packet)) = true) :
    closeMap map slot c used h = h := if_pos pinned

theorem closeMap_of_free
    (free : pinsIn h slot c.world (xmVa c.packet) (xmPages c.packet * pageBytes (xmPsize c.packet)) = false) :
    closeMap map slot c used h = finishXlate h slot (if map then used else 0) := if_neg (by simp [free])

end

theorem effect_map (map : Bool) {slot : SlotId} {s : State} {c : Cmd}
    (r : ready s.hw slot.val (if map = true then 0xA0 else 0xA1) c) :
    effect (if map = true then .map slot else .unmap slot) s (mapRun map slot.val c s.hw) := by
  cases map with
  | true => exact withCmd_of_ready (f := mapRun true slot.val) r rfl ▸ effect_of_onHw (i := .map slot) rfl
  | false => exact withCmd_of_ready (f := mapRun false slot.val) r rfl ▸ effect_of_onHw (i := .unmap slot) rfl

theorem late_of_map {map : Bool} {h : Hw} {slot : Nat} {c : Cmd}
    (r : ready h slot (if map = true then 0xA0 else 0xA1) c) : 7 < c.cls := by
  obtain ⟨-, code, -⟩ := active_some r.1
  exact late_of_opcode code (by split_ifs <;> decide)

/-! INVAL -/

/-- Dropping a range of a regime leaves of its translations those beside the range. -/
theorem dropXlate_beside {h : Hw} {r va n : Nat} {e : Nat × XCache} (m : e ∈ (dropXlate h r va n).xlate.caches)
    {y : LeafEntry} (my : y ∈ e.2.entries) (own : y.regime = r) :
    (y.page + 1) * 2 ^ levelShift y.level ≤ va ∨ va + n ≤ y.page * 2 ^ levelShift y.level := by
  obtain ⟨⟨d, -, rfl⟩, -⟩ := (List.mem_filter.mp m).imp_left List.mem_map.mp
  have kept := (List.mem_filter.mp my).2
  simp only [own, decide_true, Bool.true_and, Bool.not_eq_true', Bool.and_eq_false_iff, decide_eq_false_iff_not,
    not_lt] at kept
  exact kept.symm

theorem effect_inval {slot : SlotId} {s : State} {c : Cmd} (r : ready s.hw slot.val 0xA2 c) :
    effect (.inval slot) s (invalRun slot.val c s.hw) :=
  withCmd_of_ready (f := invalRun slot.val) r rfl ▸ effect_of_onHw (i := .inval slot) rfl

section
variable {h : Hw} {slot : Nat} {c : Cmd}

theorem invalRun_of_pinned (pinned : pinsIn h slot c.world (par c.packet 0 8) (par c.packet 8 8) = true) :
    invalRun slot c h = dropXlate h (regimeOf c.world) (par c.packet 0 8) (par c.packet 8 8) := if_pos pinned

theorem invalRun_of_free (free : pinsIn h slot c.world (par c.packet 0 8) (par c.packet 8 8) = false) :
    invalRun slot c h =
      finishXlate (dropXlate h (regimeOf c.world) (par c.packet 0 8) (par c.packet 8 8)) slot 0 :=
  if_neg (ne_true_of_eq_false free)

end

/-- Settles O27: MAP and UNMAP end as `closeMap` does, at once or once they have written; INVAL by the same end from
the emptied caches. -/
theorem translationCommands : Obligations.TranslationCommands := by
  intro slot s c va bytes
  refine ⟨fun map => ⟨fun used h1 r new work at1 => ?new, fun used r written => ?written⟩, fun r => ?inval⟩
  case new =>
    have late : 7 < c.cls := late_of_map r
    have done := effect_map map r
    rw [mapRun_of_new new work] at done
    have at2 : cmdAt (modCmd h1 slot.val fun c => { c with priv := [1, used] }) slot.val =
        some { c with priv := [1, used] } := by rw [cmdAt_modCmd, if_pos rfl, at1]; rfl
    refine ⟨fun free => ?_, fun pinned => ?_⟩
    · rw [closeMap_of_free (by rwa [pinsIn_modCmd])] at done
      exact ⟨_, done, finishXlate_ends at2 _, (mem_finishXlate at2 late _).trans (mem_modCmd ..),
        (invals_finishXlate at2 late _).trans (by rw [getReg_modCmd])⟩
    · rw [closeMap_of_pinned (by rwa [pinsIn_modCmd])] at done
      exact ⟨_, done, at2, mem_modCmd ..⟩
  case written =>
    have at_ := (active_some r.1).1
    have done := effect_map map r
    rw [mapRun_of_written written] at done
    refine ⟨fun free => ?_, fun pinned => ?_⟩
    · rw [closeMap_of_free free] at done
      exact ⟨_, done, finishXlate_ends at_ _, mem_finishXlate at_ (late_of_map r) _,
        invals_finishXlate at_ (late_of_map r) _⟩
    · rwa [closeMap_of_pinned pinned] at done
  case inval =>
    intro n h1
    obtain ⟨at_, code, -⟩ := active_some r.1
    have late : 7 < c.cls := late_of_opcode code
    have at1 : cmdAt h1 slot.val = some c := at_
    have done := effect_inval r
    refine ⟨fun e m x mx own => dropXlate_beside m mx own, rfl, rfl, fun free => ?_, fun pinned => ?_⟩
    · rw [invalRun_of_free free] at done
      exact ⟨_, done, finishXlate_ends at1 _, mem_finishXlate at1 late _, xlate_finishXlate at1 late _,
        invals_finishXlate at1 late _, regsKept_finishXlate at1 late _⟩
    · rwa [invalRun_of_pinned pinned] at done

end Sys2Proof.Machine
end

section
/-! PROOFS. Outstanding faults are resolved (R358, R363): O29. -/

namespace Sys2Proof.Machine

variable {h g : Hw} {r slot : Nat} {id : Word} {c : Cmd} {pf : PendingFault}

/-! The end of a fault -/

theorem cmdAt_faultResolved (h : Hw) (slot k : Nat) : cmdAt (faultResolved h slot) k =
    if k = slot then (cmdAt h slot).map fun c => { c with fault := none } else cmdAt h k := cmdAt_modCmd ..

theorem mem_faultResolved (h : Hw) (slot : Nat) : (faultResolved h slot).mem = h.mem := mem_modCmd ..

theorem demandMaps_faultResolved (h : Hw) (slot : Nat) :
    getReg (faultResolved h slot) rDemandMaps = satAdd (getReg h rDemandMaps) 1 := by
  rw [faultResolved, getReg_modCmd, bumpSat, getReg_setReg_self]

/-! ZERO_RESOLUTION -/

/-- A frame of the pool, or a page that is there, resolves the fault. -/
theorem zeroResolutionHw_of_found (at_ : cmdAt h slot = some c) (fault : c.fault = some pf)
    (zero : pf.report = false) {a : ZeroAnswer} (answer : zeroResolve h (regimeOf c.world) pf = (a, g))
    (found : a = .mapped ∨ a = .already) : zeroResolutionHw slot h = faultResolved g slot := by
  unfold zeroResolutionHw
  rcases found with rfl | rfl <;> simp [at_, fault, zero, answer]

/-! XLATE_RESOLVE -/

/-- A slot whose command waits on no record of the FAULT_ID stays. -/
theorem resolveOne_of_apart (apart : ∀ d f, cmdAt h slot = some d → d.fault = some f → f.id ≠ id) :
    resolveOne r id h slot = h := by
  have none_ : reported h r slot (fun f => !f.unposted && f.id = id) = none := by
    unfold reported
    cases at_ : cmdAt h slot with
    | none => rfl
    | some d =>
      cases fault : d.fault with
      | none => simp [fault]
      | some f => simp [fault, apart d f at_ fault]
  unfold resolveOne
  rw [none_]

/-- A leaf at the address of a posted record resolves the fault. -/
theorem resolveOne_of_leaf (at_ : cmdAt h slot = some c) (fault : c.fault = some pf) (report : pf.report = true)
    (posted : pf.unposted = false) (own : regimeOf c.world = r) {l a e : Nat}
    (leaf : pathTo h r pf.va = (.leaf l a e, g)) : resolveOne r pf.id h slot = faultResolved g slot := by
  have waits : reported h r slot (fun f => !f.unposted && f.id = pf.id) = some (c, pf) := by
    simp [reported, at_, fault, report, posted, own]
  unfold resolveOne
  rw [waits]
  simp only [leaf]

/-- A pass over a list of which one element acts, and that once. -/
theorem foldl_of_once {α β : Type} {f : β → α → β} {x : α} {b d : β} (others : ∀ y, y ≠ x → f b y = b)
    (acts : f b x = d) (after : ∀ y, f d y = d) {xs : List α} (listed : x ∈ xs) : xs.foldl f b = d := by
  induction xs with
  | nil => cases listed
  | cons y ys ih =>
    rw [List.foldl_cons]
    by_cases own : y = x
    · rw [own, acts]
      exact List.foldl_fixed' after ys
    · rw [others y own]
      exact ih ((List.mem_cons.mp listed).resolve_left (Ne.symm own))

theorem standsBy_follow (h : Hw) (walker : Option Nat) (r va f l table : Nat) :
    StandsBy h (follow h walker r va f l table).2 :=
  .of_beside (congrArg Prod.snd (follow_beside (h := h) (k := h) rfl walker r va f l table))

theorem standsBy_pathTo (h : Hw) (r va : Nat) : StandsBy h (pathTo h r va).2 := standsBy_follow ..

/-- The record of one command alone is resolved once. -/
theorem xlateResolveHw_of_leaf (at_ : cmdAt h slot = some c) (fault : c.fault = some pf) (report : pf.report = true)
    (posted : pf.unposted = false) (own : regimeOf c.world = r)
    (alone : ∀ k d f, k ≠ slot → cmdAt h k = some d → d.fault = some f → f.id ≠ pf.id) {l a e : Nat}
    (leaf : pathTo h r pf.va = (.leaf l a e, g)) : xlateResolveHw r pf.id h = faultResolved g slot := by
  have slots : g.slots = h.slots := by
    have kept := (standsBy_pathTo h r pf.va).slots
    rwa [leaf] at kept
  have others (k : Nat) (ne : k ≠ slot) : resolveOne r pf.id h k = h := resolveOne_of_apart fun d f => alone k d f ne
  have after (k : Nat) : resolveOne r pf.id (faultResolved g slot) k = faultResolved g slot := by
    refine resolveOne_of_apart fun d f read waits => ?_
    rw [cmdAt_faultResolved] at read
    split_ifs at read with here
    · obtain ⟨d', -, rfl⟩ := Option.map_eq_some_iff.mp read
      cases waits
    · rw [cmdAt, slots] at read
      exact alone k d f here read waits
  exact foldl_of_once others (resolveOne_of_leaf at_ fault report posted own leaf) after
    (List.mem_map_of_mem (mem_of_smFind at_))

/-- A FAULT_ID with no outstanding record has no effect (R363). -/
theorem xlateResolveHw_of_apart (apart : ∀ k d f, (k, d) ∈ h.slots → d.fault = some f → f.id ≠ id) :
    xlateResolveHw r id h = h :=
  List.foldl_fixed' (fun k => resolveOne_of_apart fun d f at_ => apart k d f (mem_of_smFind at_)) _

/-- Settles O29: each resolution ends as `faultResolved` does, from the state that the tables were read in. -/
theorem faultsAreResolved : Obligations.FaultsAreResolved := by
  intro slot s c pf at_ fault
  have cleared {h1 : Hw} (at1 : cmdAt h1 slot.val = some c) :
      cmdAt (faultResolved h1 slot.val) slot.val = some { c with fault := none } := by
    rw [cmdAt_faultResolved, if_pos rfl, at1]
    rfl
  refine ⟨fun zero h1 a answer found at1 => ?zero,
    fun w r a => ⟨fun l p e h1 report posted own alone leaf at1 => ?resolve, fun id apart => ?apart⟩⟩
  case zero =>
    have done : effect (.zeroResolution slot) s (zeroResolutionHw slot.val s.hw) := effect_of_onHw rfl
    rw [zeroResolutionHw_of_found at_ fault zero answer found] at done
    exact ⟨_, done, cleared at1, demandMaps_faultResolved .., mem_faultResolved .., fun k ne =>
      (cmdAt_faultResolved ..).trans (if_neg ne)⟩
  case resolve =>
    have done : effect (.xlateResolve w r pf.id) s (xlateResolveHw r.val pf.id s.hw) := effect_of_acts rfl a
    rw [xlateResolveHw_of_leaf at_ fault report posted own alone leaf] at done
    exact ⟨_, done, cleared at1, demandMaps_faultResolved .., mem_faultResolved ..⟩
  case apart =>
    have done : effect (.xlateResolve w r id) s (xlateResolveHw r.val id s.hw) := effect_of_acts rfl a
    rwa [xlateResolveHw_of_apart apart] at done

end Sys2Proof.Machine
end

section
/-! PROOFS. What every command and every step does to the queue and the fuses (R394): O1, O2, O3. -/

namespace Sys2Proof.Machine

/-- At most the SVN floor of the fuses changes, and it does not fall (R394). -/
def FloorRaised (f g : Fuses) : Prop := { g with svnFloor := f.svnFloor } = f ∧ f.svnFloor ≤ g.svnFloor

theorem FloorRaised.refl (f : Fuses) : FloorRaised f f := ⟨rfl, le_refl _⟩

theorem FloorRaised.trans {f g k : Fuses} (a : FloorRaised f g) (b : FloorRaised g k) : FloorRaised f k := by
  obtain ⟨same, raised⟩ := a
  obtain ⟨same', raised'⟩ := b
  refine ⟨?_, raised.trans raised'⟩
  calc { k with svnFloor := f.svnFloor }
      = { ({ k with svnFloor := g.svnFloor } : Fuses) with svnFloor := f.svnFloor } := rfl
    _ = f := by rw [same', same]

theorem floorRaised_burnFloor (h : Hw) (f : Fuses) : FloorRaised f (burnFloor h f) := by
  unfold burnFloor
  split_ifs
  · exact ⟨rfl, le_max_left ..⟩
  · exact .refl f

/-- An outcome goes on, with the queue of a state and with its fuses but for a floor that has risen. -/
def GoesOn (s : State) (o : Host.Outcome State Fault Refusal) : Prop :=
  ∃ t, o = .next t ∧ t.pending = s.pending ∧ FloorRaised s.fuses t.fuses

theorem goesOn_onHw (f : Hw → Hw) (s : State) : GoesOn s (onHw f s) := ⟨_, rfl, rfl, .refl _⟩

theorem goesOn_same (s : State) : GoesOn s (.next s) := ⟨s, rfl, rfl, .refl _⟩

theorem goesOn_burnFloor (s : State) : GoesOn s (.next { s with fuses := burnFloor s.hw s.fuses }) :=
  ⟨_, rfl, rfl, floorRaised_burnFloor ..⟩

/-- A dword written acts on the hardware, or burns the floor. -/
theorem goesOn_writeDword (w : World) (off : Nat) (v : Word) (s : State) : GoesOn s (.next (writeDword w off v s)) := by
  unfold writeDword
  split_ifs
  · exact goesOn_same s
  · exact goesOn_burnFloor s
  · exact goesOn_same s
  · exact goesOn_onHw (blockWrite w off v) s

theorem GoesOn.trans {s t : State} {o : Host.Outcome State Fault Refusal} (a : GoesOn s (.next t)) (b : GoesOn t o) :
    GoesOn s o := by
  obtain ⟨_, ⟨⟩, queue, raised⟩ := a
  obtain ⟨u, on, queue', raised'⟩ := b
  exact ⟨u, on, queue'.trans queue, raised.trans raised'⟩

theorem goesOn_registerWrite (w : World) (off bytes : Nat) (v : Quad) (s : State) :
    GoesOn s (exec (.registerWrite w off bytes v) s) := by
  have low := goesOn_writeDword w off (BitVec.ofNat 32 v.toNat) s
  show GoesOn s (execRegisterWrite w off bytes v s)
  unfold execRegisterWrite
  split_ifs
  · exact goesOn_onHw ..
  · exact goesOn_onHw ..
  · exact goesOn_same s
  · exact low.trans (goesOn_writeDword ..)
  · exact low

/-- Every command but the two that can burn the floor is a meaning over the hardware. -/
theorem exec_goesOn (i : Instr) (s : State) : GoesOn s (exec i s) := by
  cases i with
  | svnAdvance w =>
    show GoesOn s (execSvnAdvance w s)
    unfold execSvnAdvance
    split_ifs
    · exact goesOn_burnFloor s
    · exact goesOn_same s
  | registerWrite w off bytes v => exact goesOn_registerWrite w off bytes v s
  | controlChannelExhausted l =>
    show GoesOn s (execControlChannelExhausted l s)
    unfold execControlChannelExhausted
    exact goesOn_onHw _ s
  | _ => exact goesOn_onHw _ s

/-- Settles O1: a step is defined so on a queue that is not empty. -/
theorem stepRunsFront : Obligations.StepRunsFront := fun c rest s => step_cons s c rest

/-- Settles O2: every arm of the dispatch is a meaning over the hardware, or burns the floor. -/
theorem everyCommandGoesOn : Obligations.EveryCommandGoesOn := by
  intro i s
  obtain ⟨t, on, queue, same, -⟩ := exec_goesOn i s
  exact ⟨t, on, queue, same⟩

/-- A step of an empty queue is a step of the start in progress, or the command of a write that waited. -/
theorem stepEmpty_raises {s s' : State} (on : stepEmpty s = .next s') : FloorRaised s.fuses s'.fuses := by
  unfold stepEmpty at on
  split at on
  · cases on
    unfold idleStep
    split
    · split_ifs <;> exact .refl _
    · exact .refl _
  · next i h _ =>
    obtain ⟨t, went, -, raised⟩ := exec_goesOn i { s with hw := h }
    rw [went] at on
    cases on
    exact raised

theorem step_raises {s s' : State} (on : step s = .next s') : FloorRaised s.fuses s'.fuses := by
  unfold step at on
  split at on
  · exact stepEmpty_raises on
  · next i rest _ =>
    obtain ⟨t, went, -, raised⟩ := exec_goesOn i { s with pending := rest }
    rw [went] at on
    cases on
    exact raised

/-- Settles O3: no step lowers the floor or changes another fuse, so neither do two. -/
theorem fusesKeepAndFloorNeverFalls : Obligations.FusesKeepAndFloorNeverFalls :=
  fun _ _ _ on kept => FloorRaised.trans kept (step_raises on)

end Sys2Proof.Machine
end

section
/-! PROOFS. What follows a command where no error record is due (R449, R460), the number of a record (R458) and
LINK_BW (R478): O5, O9, O49. -/

namespace Sys2Proof.Machine

variable (h : Hw)

/-! READY and RUN -/

theorem settle_of_none_due {h : Hw} (none_ : h.errs.toMirror = []) : settle h = settlePkg h := by
  simp only [settle, none_, flushErrs]

/-- The message of a package state is vector 67: it is held, or pends, or is sent. -/
theorem setPkg_rest (p : PkgState) : regsKept h (setPkg h p) [rHost 0x2008] ∧
    setPkg h p = { h with pkg := p, host := (setPkg h p).host, regs := (setPkg h p).regs,
                          freeRegs := (setPkg h p).freeRegs } ∧
    (setPkg h p).host = { h.host with msixSent := (setPkg h p).host.msixSent,
                                      msixHeld := (setPkg h p).host.msixHeld } := by
  refine ⟨fun o out => getReg_setPkg h p fun e => out (by simp [e, rHost]), setPkg_frame h p, ?_⟩
  unfold setPkg sendMsix
  split_ifs <;> rfl

/-- Settles O5: with nothing due, what follows a command is the change between READY and RUN with its message. -/
theorem settleWithNothingDue : Obligations.SettleWithNothingDue := by
  intro h due
  rw [settle_of_none_due due]
  have entered {p : PkgState} (new : h.pkg ≠ p) :
      ((setPkg h p).pkg = h.pkg → setPkg h p = h) ∧ regsKept h (setPkg h p) [rHost 0x2008] ∧
      setPkg h p = { h with pkg := (setPkg h p).pkg, host := (setPkg h p).host, regs := (setPkg h p).regs,
                            freeRegs := (setPkg h p).freeRegs } ∧
      (setPkg h p).host = { h.host with msixSent := (setPkg h p).host.msixSent,
                                        msixHeld := (setPkg h p).host.msixHeld } := by
    obtain ⟨regs, frame, host⟩ := setPkg_rest h p
    refine ⟨fun same => absurd ((setPkg_pkg h p).symm.trans same).symm new, regs, ?_, host⟩
    rw [setPkg_pkg]
    exact frame
  by_cases up : h.pkg = .ready ∧ anyRingEnabled h = true
  · have is_ : settlePkg h = setPkg h .run := if_pos up
    rw [is_]
    exact ⟨by rw [setPkg_pkg, if_pos up], entered (by rw [up.1]; decide)⟩
  by_cases down : h.pkg = .run ∧ anyRingEnabled h = false ∧ h.slots = []
  · have is_ : settlePkg h = setPkg h .ready := by
      unfold settlePkg
      rw [if_neg up, if_pos (by simpa using down)]
    rw [is_]
    exact ⟨by rw [setPkg_pkg, if_neg up, if_pos down], entered (by rw [down.1]; decide)⟩
  · have is_ : settlePkg h = h := by
      unfold settlePkg
      rw [if_neg up, if_neg (by simpa using down)]
    rw [is_, if_neg up, if_neg down]
    exact ⟨rfl, fun _ => rfl, fun _ _ => rfl, rfl, rfl⟩

/-! Error records -/

/-- The routing of a record leaves all of the error logs but the sticky one, and every register. -/
theorem routeSeverity_errs (r : ErrRec) :
    (routeSeverity h r).errs = { h.errs with sticky := (routeSeverity h r).errs.sticky } := by
  simp only [routeSeverity]
  split_ifs <;> rfl

/-- Settles O9: the record of an event stands in the log and counts before its severity routes it. -/
theorem errorRecordsNumbered : Obligations.ErrorRecordsNumbered := by
  intro h e
  have apart : rErrLast ≠ regOf .err (0x50 + 4 * e.severity) := by simp only [rErrLast, regOf, baseOf]; omega
  have errs := routeSeverity_errs (withRecord h e) (recordOf h e)
  obtain ⟨mem, slots, -⟩ := logErr_frame (h := h) e
  have regs (o : Nat) : getReg (errRecord h e).2 o = getReg (withRecord h e) o := getReg_routeSeverity ..
  have counted (o : Nat) : getReg (withRecord h e) o =
      getReg (bumpSat (setReg h rErrLast (recordOf h e).ref) (regOf .err (0x50 + 4 * e.severity)) 1) o := rfl
  rw [errRecord_eq] at regs ⊢
  dsimp only at regs ⊢
  rw [errs]
  refine ⟨rfl, ?last, ⟨recordOf h e, rfl, rfl, rfl, rfl, rfl⟩, ?count, rfl, slots, mem, ?others⟩
  case last => rw [regs, counted, bumpSat, getReg_setReg_ne _ _ apart, getReg_setReg_self]
  case count => rw [regs, counted, bumpSat, getReg_setReg_self, getReg_setReg_ne _ _ apart.symm]
  case others =>
    intro o out
    simp only [List.mem_cons, List.not_mem_nil, or_false, not_or] at out
    exact getReg_errRecord h out.1 out.2

/-! LINK_BW -/

/-- Settles O49: 32 GB/s for 4 GT/s are 4 GB/s for each half GT/s of RATE. -/
theorem linkBandwidth : Obligations.LinkBandwidth := by
  intro f h w n here
  have low : 0x20 + 4 * n.val < 0xEC := by omega
  have aligned : (0x20 + 4 * n.val) / 4 * 4 = 0x20 + 4 * n.val := by omega
  have link : (0x20 + 4 * n.val - 0x20) / 4 = n.val := by omega
  have block : blockOf (0x20 + 4 * n.val) = .ident := by
    unfold blockOf
    rw [if_pos (by omega)]
  have reads : readReg f h w (0x20 + 4 * n.val) = if 5 ≤ h.bringStep then linkBw h n.val else 0 := by
    rw [readReg, if_pos here, aligned, blockRead, block]
    show readIdent f h (0x20 + 4 * n.val - 0) = _
    rw [Nat.sub_zero, readIdent, if_neg (by omega), if_neg (by omega), if_neg (by omega), if_pos (by omega), link]
  have scale (bundles rate : Nat) : bundles * 32 * rate / 8 = bundles * 4 * rate := by
    rw [show bundles * 32 * rate = 8 * (bundles * 4 * rate) by ring, Nat.mul_div_cancel_left _ (by decide)]
  refine ⟨fun late => ?_, fun late full => ?_, fun early => ?_⟩ <;> rw [reads]
  · rw [if_pos late, scale, linkBw, w32]
  · have few : regFld h (rLink n.val) 15 8 < 2 ^ 8 := Nat.mod_lt _ (by decide)
    rw [if_pos late, linkBw, full, w32, BitVec.toNat_ofNat]
    omega
  · rw [if_neg (by omega)]

end Sys2Proof.Machine
end

section
/-! PROOFS. Interrupt vectors (R374, R453): O38. -/

namespace Sys2Proof.Machine

variable {h : Hw} {v : Nat}

theorem sendMsix_of_masked (masked : msixMasked h v = true) :
    sendMsix h v = setRegBit h (regOf .host (0x2000 + 4 * (v / 32))) (v % 32) true := if_pos masked

theorem sendMsix_of_held (unmasked : msixMasked h v = false) (early : h.pkg = .bringup) (other : v ≠ 67) :
    sendMsix h v = { h with host := { h.host with msixHeld := h.host.msixHeld ++ [v] } } := by
  rw [sendMsix, if_neg (by simp [unmasked]), if_pos ⟨early, other⟩]

theorem sendMsix_of_sent (unmasked : msixMasked h v = false) (now : h.pkg ≠ .bringup ∨ v = 67) :
    sendMsix h v = { h with host := { h.host with msixSent := h.host.msixSent ++ [msixMessage h v] } } := by
  rw [sendMsix, if_neg (by simp [unmasked]), if_neg (by tauto)]

/-- A message is what the first three dwords of its entry hold. -/
theorem msixMessage_congr {g : Hw} (same : ∀ r < 12, getReg g (regOf .host (0x1000 + 16 * v) + r) =
    getReg h (regOf .host (0x1000 + 16 * v) + r)) : msixMessage g v = msixMessage h v := by
  have base := same 0 (by decide)
  rw [Nat.add_zero] at base
  simp only [msixMessage, getReg64, base, same 4 (by decide), same 8 (by decide)]

/-- The vector control word of an entry, and the word that holds the vector's pending bit. -/
def rVectorCtrl (v : Nat) : Nat := rHost (0x1000 + 16 * v + 12)
def rPending (v : Nat) : Nat := rHost (0x2000 + 4 * (v / 32))

/-- A vector whose entry is unmasked, before its pending message goes out. -/
def unmasked (v : Nat) (h : Hw) : Hw := setRegBit h (rVectorCtrl v) 0 false

theorem msixMasked_unmasked : msixMasked (unmasked v h) v = false := regBit_setRegBit_self h _ _ (by decide)

theorem rPending_ne_rVectorCtrl : rPending v ≠ rVectorCtrl v := by
  simp only [rPending, rVectorCtrl, rHost, regOf, baseOf]; omega

theorem unmaskHw_eq : unmaskHw v h = if regBit (unmasked v h) (rPending v) (v % 32) = true then
    sendMsix (setRegBit (unmasked v h) (rPending v) (v % 32) false) v else unmasked v h := rfl

theorem regBit_unmasked_pending (i : Nat) : regBit (unmasked v h) (rPending v) i = regBit h (rPending v) i :=
  congrArg (bit · i) (getReg_setReg_ne h _ (rPending_ne_rVectorCtrl))

theorem unmaskHw_of_idle (idle : regBit h (rPending v) (v % 32) = false) : unmaskHw v h = unmasked v h := by
  have still : regBit (unmasked v h) (rPending v) (v % 32) = false := (regBit_unmasked_pending _).trans idle
  rw [unmaskHw_eq, if_neg (by simp [still])]

/-- A pending message goes out with its entry as it stands, and its pending bit is clear. -/
theorem unmaskHw_of_pending (few : v < 72) (pends : regBit h (rPending v) (v % 32) = true)
    (late : h.pkg ≠ .bringup) : unmaskHw v h =
      let g := setRegBit (unmasked v h) (rPending v) (v % 32) false
      { g with host := { g.host with msixSent := h.host.msixSent ++ [msixMessage h v] } } := by
  have still : regBit (unmasked v h) (rPending v) (v % 32) = true := (regBit_unmasked_pending _).trans pends
  have is_ : unmaskHw v h = sendMsix (setRegBit (unmasked v h) (rPending v) (v % 32) false) v := by rw [unmaskHw_eq, if_pos still]
  have free : msixMasked (setRegBit (unmasked v h) (rPending v) (v % 32) false) v = false :=
    (congrArg (bit · 0) (getReg_setReg_ne _ _ (rPending_ne_rVectorCtrl).symm)).trans msixMasked_unmasked
  rw [is_, sendMsix_of_sent free (.inl late)]
  have message : msixMessage (setRegBit (unmasked v h) (rPending v) (v % 32) false) v = msixMessage h v := by
    refine msixMessage_congr fun r l => ?_
    have ctrl : regOf .host (0x1000 + 16 * v) + r ≠ rVectorCtrl v := by
      simp only [rVectorCtrl, rHost, regOf]; omega
    have pend : regOf .host (0x1000 + 16 * v) + r ≠ rPending v := by
      simp only [rPending, rHost, regOf, baseOf]; omega
    exact (getReg_setReg_ne _ _ pend).trans (getReg_setReg_ne _ _ ctrl)
  rw [message]
  rfl

theorem unmaskHw_sends (few : v < 72) (pends : regBit h (rPending v) (v % 32) = true)
    (late : h.pkg ≠ .bringup) :
    msixMasked (unmaskHw v h) v = false ∧ regBit (unmaskHw v h) (rPending v) (v % 32) = false ∧
    (unmaskHw v h).host.msixSent = h.host.msixSent ++ [msixMessage h v] := by
  rw [unmaskHw_of_pending few pends late]
  have kept := getReg_setReg_ne (unmasked v h) (setBit (getReg (unmasked v h) (rPending v)) (v % 32) false)
    (rPending_ne_rVectorCtrl (v := v)).symm
  exact ⟨(congrArg (bit · 0) kept).trans msixMasked_unmasked,
    regBit_setRegBit_self (unmasked v h) (rPending v) false (Nat.mod_lt _ (by decide)), rfl⟩

/-- Settles O38: a message pends, is held or is sent, as its mask and the bring-up say. -/
theorem interruptVectors : Obligations.InterruptVectors := by
  refine ⟨fun h v _ => ⟨fun masked => ?pends, fun open_ now => ?sent, fun open_ early other => ?held⟩,
    fun v s here => ⟨fun pends late => ?sends, fun idle => ?quiet⟩⟩
  case pends =>
    rw [sendMsix_of_masked masked]
    refine ⟨rfl, regBit_setRegBit_self h _ true (Nat.mod_lt _ (by decide)), fun o out => ?_⟩
    exact getReg_setReg_ne h _ (by simpa using out)
  case sent =>
    rw [sendMsix_of_sent open_ now]
    exact ⟨rfl, fun _ _ => rfl⟩
  case held =>
    rw [sendMsix_of_held open_ early other]
    exact ⟨rfl, rfl⟩
  all_goals
    have done : effect (.msixUnmask v) s (unmaskHw v.val s.hw) := effect_of_acts rfl here
  case sends => exact ⟨_, done, unmaskHw_sends v.isLt pends late⟩
  case quiet =>
    refine ⟨_, done, ?_⟩
    rw [unmaskHw_of_idle idle]
    exact ⟨msixMasked_unmasked, fun o out => getReg_setReg_ne _ _ (mt List.mem_singleton.mpr out), rfl⟩

end Sys2Proof.Machine
end

section
/-! PROOFS. Snoops, AGENT_FLUSH, the training of the link and peer timeouts (R371, R378, R379, R440, R451): O37. -/

namespace Sys2Proof.Machine

variable {h : Hw}

/-! Snoops -/

theorem hostSnoopHw_of_line {a : Nat} {l : AgentLine} (held : agentLine h (a / 64) = some l) : hostSnoopHw a h =
    countAgent { h with mem := h.mem.write .host (a / 64 * 64) l.bytes,
                        host := { h.host with lines := h.host.lines.filter fun e => e.1 ≠ a / 64 } } 0 := by
  simp only [hostSnoopHw, held]

/-- A line that a snoop has taken is not held, and its bytes stand in host memory alone. -/
theorem hostSnoopHw_writes {a : Nat} {l : AgentLine} (held : agentLine h (a / 64) = some l) :
    agentLine (hostSnoopHw a h) (a / 64) = none ∧
    (hostSnoopHw a h).mem = h.mem.write .host (a / 64 * 64) l.bytes := by
  rw [hostSnoopHw_of_line held]
  refine ⟨?_, rfl⟩
  show ((h.host.lines.filter fun e => e.1 ≠ a / 64).find? fun e => e.1 = a / 64).map Prod.snd = none
  rw [Option.map_eq_none_iff, List.find?_eq_none]
  intro e m
  simpa using (List.mem_filter.mp m).2

/-! The link -/

/-- The word that HOST_LINK_STATUS takes when the link trains. -/
def linkWord (mode width speed enables : Nat) : Word :=
  BitVec.ofNat 32 (mode + (if mode = 1 then enables % 8 * 8 else 0) + width * 64 + speed * 4096)

/-- The hardware that the link finds when it trains: in PCIe mode without the agent's lines. -/
def linesFor (mode : Nat) (h : Hw) : Hw := if mode = 2 then discardLines h else h

/-- The hardware once the link has trained, before step 9. -/
def linkTrained (mode width speed enables : Nat) (h : Hw) : Hw :=
  let g := linesFor mode h
  setReg { g with supplies := { g.supplies with refclkCxl := true }, host := { g.host with memInfoValid := true } }
    rHostLink (linkWord mode width speed enables)

theorem linkTrainHw_of_may {mode width speed enables : Nat} (may : mayTrain h = true)
    (result : trainResult mode width speed = true) :
    linkTrainHw mode width speed enables h = stepNine (linkTrained mode width speed enables h) :=
  if_pos ⟨may, result⟩

theorem linesFor_eq (mode : Nat) : linesFor mode h =
    { h with regs := (linesFor mode h).regs, freeRegs := (linesFor mode h).freeRegs, host := (linesFor mode h).host } := by
  unfold linesFor
  split_ifs <;> rfl

theorem linkTrained_mem (mode width speed enables : Nat) : (linkTrained mode width speed enables h).mem = h.mem := by
  rw [linkTrained, linesFor_eq]
  rfl

theorem linkTrained_bringStep (mode width speed enables : Nat) :
    (linkTrained mode width speed enables h).bringStep = h.bringStep := by
  rw [linkTrained, linesFor_eq]
  rfl

theorem getReg_linkTrained (mode width speed enables : Nat) :
    getReg (linkTrained mode width speed enables h) rHostLink = linkWord mode width speed enables :=
  getReg_setReg_self ..

/-- Step 9 changes the step and its field of RST_STATUS, once step 8 is over and the link is up. -/
theorem stepNine_eq : stepNine h = if h.bringStep = 8 ∧ hostUp h = true then setStep h 9 else h := rfl

theorem getReg_stepNine {o : Nat} (apart : o ≠ rRstStatus) : getReg (stepNine h) o = getReg h o := by
  rw [stepNine_eq]
  split_ifs
  · exact getReg_setReg_ne _ _ apart
  · rfl

theorem stepNine_rest : stepNine h = { h with
    bringStep := (stepNine h).bringStep, regs := (stepNine h).regs, freeRegs := (stepNine h).freeRegs } := by
  rw [stepNine_eq]
  split_ifs <;> rfl

theorem stepNine_bringStep (up : hostUp h = true) :
    (stepNine h).bringStep = if h.bringStep = 8 then 9 else h.bringStep := by
  simp only [stepNine_eq, up, and_true]
  split_ifs <;> rfl

/-- A link that has trained is in the mode that its word names. -/
theorem hostMode_of_linkWord {mode width speed enables : Nat} (small : mode < 4)
    (at_ : getReg h rHostLink = linkWord mode width speed enables) : hostMode h = mode := by
  rw [hostMode, regFld, at_, linkWord, fld, BitVec.toNat_ofNat]
  split_ifs <;> omega

/-! Peer timeouts -/

section
variable {slot st d0 d1 : Nat} {c : Cmd}

theorem finishErr_of_some (at_ : cmdAt h slot = some c) (source kind unit addr : Nat) :
    finishErr h slot st d0 d1 source kind unit addr =
      modCmd (finish (cmdErr h slot c st d0 d1 source kind unit addr).2 slot st d0 d1) slot
        fun d => { d with errRef := (cmdErr h slot c st d0 d1 source kind unit addr).1 } := by
  rw [finishErr, at_]

theorem finishErr_ended (at_ : cmdAt h slot = some c) (source kind unit addr : Nat) :
    ended (finishErr h slot st d0 d1 source kind unit addr) slot st d0 d1 := by
  have logged : cmdAt (cmdErr h slot c st d0 d1 source kind unit addr).2 slot = some c :=
    (congrArg (smFind · slot) (logErr_frame (h := h) _).2.1).trans at_
  obtain ⟨d, at', fin, status, detail0, detail1⟩ := ended_finish (st := st) (d0 := d0) (d1 := d1) logged
  rw [finishErr_of_some at_]
  refine ⟨{ d with errRef := (cmdErr h slot c st d0 d1 source kind unit addr).1 }, ?_, fin, status, detail0, detail1⟩
  rw [cmdAt_modCmd, if_pos rfl, at']
  rfl

theorem workReach_finishErr (source kind unit addr : Nat) :
    WorkReach h (finishErr h slot st d0 d1 source kind unit addr) := by
  cases at_ : cmdAt h slot with
  | none => rw [finishErr, at_]; exact .refl h
  | some c =>
    rw [finishErr_of_some at_]
    exact (workReach_errRecord h (by simp)).trans ((workReach_finish ..).trans (workReach_modCmd ..))

/-- A command with no work buffer and no overlapping operands leaves no byte undefined at its end. -/
theorem mem_finishErr (at_ : cmdAt h slot = some c) (buffer : c.workBuffer = []) (overlaps : c.overlaps = [])
    (source kind unit addr : Nat) : (finishErr h slot st d0 d1 source kind unit addr).mem = h.mem := by
  obtain ⟨mem, slots, -⟩ := logErr_frame (h := h)
    { source := source, kind := kind, code := st, secure := worldBit c.world, severity := 2, unit := unit,
      cmd := cmdField slot c, addr := addr, detail0 := BitVec.ofNat 64 d0, detail1 := BitVec.ofNat 64 d1 }
  have logged : cmdAt (cmdErr h slot c st d0 d1 source kind unit addr).2 slot = some c :=
    (congrArg (smFind · slot) slots).trans at_
  rw [finishErr_of_some at_, mem_modCmd, finish_eq logged, leaveOpen_plain buffer overlaps, notePast_eq]
  exact mem

end

/-- A peer access that no task and no collective waits for ends its command and counts twice. -/
theorem peerTimeoutHw_of_alone {slot va pa : Nat} {c : Cmd} (running : active h slot c.opcode = some c)
    (colls : h.colls = []) (task : taskOf h slot = none) (target : peerTarget h slot va c = some pa) :
    peerTimeoutHw slot va h =
      finishErr (bumpSat (bumpSat h (rHost 0x28) 1) rPermFaults 1) slot 0x20 va c.written 8 4 0 pa := by
  obtain ⟨at_, -⟩ := active_some running
  have task' : taskOf (bumpSat (bumpSat h (rHost 0x28) 1) rPermFaults 1) slot = none := task
  have coll' : collAt (bumpSat (bumpSat h (rHost 0x28) 1) rPermFaults 1) slot = none := by
    have none_ : (bumpSat (bumpSat h (rHost 0x28) 1) rPermFaults 1).colls = [] := colls
    rw [collAt, none_, List.find?_nil]
  simp only [peerTimeoutHw, at_, running, target, task', coll', Option.isNone_some, Bool.false_eq_true, if_false]

/-- Settles O37: the agent's writes reach host memory alone, the link's word is what training puts into it, and a peer
timeout is the end of a command with its record. -/
theorem agentLinesReachTheHost : Obligations.AgentLinesReachTheHost := by
  intro s w
  refine ⟨fun line l held full => ?snoop, fun here => ⟨fun cxl => ?flush, fun other => ?noFlush⟩,
    fun mode width speed enables may result => ?train, fun may => ?may, ?down,
    fun slot addr c pa running colls task target => ?peer⟩
  case snoop =>
    obtain ⟨gone, mem⟩ := hostSnoopHw_writes held
    refine ⟨_, effect_of_onHw (f := hostSnoopHw line.toNat) rfl, gone, fun i l64 => ?_, fun sp a out => ?_⟩ <;> rw [mem]
    · exact read_write_self _ _ _ _ _ (full ▸ l64)
    · refine read_write_other _ _ _ _ _ _ ?_
      rw [full]
      rintro ⟨rfl, low, high⟩
      rcases out with out | out
      · exact out rfl
      · omega
  case flush =>
    have all : agentFlushHw s.hw = writeBackLines s.hw fun _ => true := if_pos cxl
    have kept := keepsButHost_writeBackLines s.hw fun _ => true
    refine ⟨_, effect_of_acts (f := agentFlushHw) rfl here, ?_⟩
    rw [all]
    refine ⟨lines_writeBackLines_all _, kept.mem, fun o out => ?_⟩
    simp only [List.mem_cons, List.not_mem_nil, or_false, not_or] at out
    exact kept.reg o out.1 out.2
  case noFlush =>
    have done : effect (.agentFlush w) s (agentFlushHw s.hw) := effect_of_acts rfl here
    rwa [agentFlushHw, if_neg other] at done
  case train =>
    have done : effect (.cxlLinkTraining ⟨mode, enables⟩ width speed) s
        (linkTrainHw mode.toNat width.toNat speed.toNat enables.toNat s.hw) := effect_of_onHw rfl
    rw [linkTrainHw_of_may may result] at done
    have word := getReg_linkTrained (h := s.hw) mode.toNat width.toNat speed.toNat enables.toNat
    have steps := linkTrained_bringStep (h := s.hw) mode.toNat width.toNat speed.toNat enables.toNat
    have mem := linkTrained_mem (h := s.hw) mode.toNat width.toNat speed.toNat enables.toNat
    have info : (linkTrained mode.toNat width.toNat speed.toNat enables.toNat s.hw).host.memInfoValid = true := rfl
    generalize linkTrained mode.toNat width.toNat speed.toNat enables.toNat s.hw = g at done word steps mem info
    have stays : getReg (stepNine g) rHostLink = linkWord mode.toNat width.toNat speed.toNat enables.toNat :=
      (getReg_stepNine (by decide)).trans word
    have mode_g : hostMode g = mode.toNat := hostMode_of_linkWord mode.isLt word
    have up : hostUp g = true := by
      have known : mode.toNat = 1 ∨ mode.toNat = 2 := by
        simp only [trainResult, Bool.and_eq_true, Bool.or_eq_true, decide_eq_true_eq] at result
        exact result.1.1.1.1
      rcases known with k | k <;> simp [hostUp, mode_g, k]
    refine ⟨_, done, hostMode_of_linkWord mode.isLt stays, ?_, ?_, ?_, ?_⟩
    · have one : mode.toNat = 1 ↔ mode = 1 := by
        rw [← BitVec.toNat_inj]
        rfl
      rw [stays, linkWord, Nat.mod_eq_of_lt enables.isLt]
      simp only [one]
    · rw [stepNine_bringStep up, steps]
    · rw [stepNine_rest]
      exact info
    · rw [stepNine_rest]
      exact mem
  case may =>
    simp only [mayTrain, resetAsserted, Bool.and_eq_true, Bool.not_eq_true', Bool.or_eq_false_iff] at may
    obtain ⟨⟨⟨⟨perst, driven, held⟩, clock⟩, -⟩, -⟩ := may
    exact ⟨perst, driven, held, clock⟩
  case down =>
    refine ⟨_, effect_of_onHw (f := linkDown) rfl, getReg_linkDown _, fun o out => ?_, rfl⟩
    exact getReg_setReg_ne s.hw 0 (by simpa using out)
  case peer =>
    obtain ⟨at_, -⟩ := active_some running
    have done : effect (.peerTimeout slot addr) s (peerTimeoutHw slot.val addr.toNat s.hw) := effect_of_onHw rfl
    rw [peerTimeoutHw_of_alone running colls task target] at done
    have at' : cmdAt (bumpSat (bumpSat s.hw (rHost 0x28) 1) rPermFaults 1) slot.val = some c := at_
    refine ⟨_, done, finishErr_ended at' .., ?_, fun overlaps buffer => mem_finishErr at' buffer overlaps ..⟩
    have apart : ¬ workReg (rHost 0x28) := by
      simp only [workReg, rPort, rHost, regOf, baseOf]
      rintro (_ | ⟨_, _, _, _⟩ | _ | _ | _) <;> omega
    rw [(workReach_finishErr ..).reg _ apart, bumpSat, getReg_setReg_ne _ _ (by decide), bumpSat, getReg_setReg_self]

end Sys2Proof.Machine
end

section
/-! PROOFS. Control frames and data flits of a Zinolu die link (R408, R409, R415, R416): O48. -/

namespace Sys2Proof.Machine

variable {h : Hw} {ch : Channel} {a : ChanAux} {f : Frame} {k : FrameKind} {act : ChanAux → Hw} {serial : Quad}

/-! Frames as they leave -/

/-- The CRC word of a frame is over the other 28 bytes, so a frame leaves with a CRC that holds. -/
theorem frameCrcOk_crcFrame (type : Nat) (f : Frame) : frameCrcOk type (crcFrame type f) = true :=
  decide_eq_true rfl

/-- Which frame the sender's turn lets out, and what it then keeps for a resend (R415, R416). -/
structure SentOne (a a' : ChanAux) (k : FrameKind) (g : Frame) : Prop where
  sent : a'.sent = a.sent ++ [(k, g)]
  ack : g.ack = BitVec.ofNat 8 a.rxSeq
  crc : frameCrcOk k.code g = true
  delivered : a'.delivered = a.delivered
  rxSeq : a'.rxSeq = a.rxSeq

theorem sentOne_sendFrame (a : ChanAux) (k : FrameKind) (f : Frame) :
    SentOne a (sendFrame a k f) k (crcFrame k.code { f with ack := BitVec.ofNat 8 a.rxSeq }) :=
  ⟨rfl, rfl, frameCrcOk_crcFrame .., rfl, rfl⟩

/-- The frame of a message. -/
def dataOf (a : ChanAux) (m : Message) : Frame :=
  crcFrame 1 (Frame.mk (BitVec.ofNat 8 ((a.txSeq + 1) % 256)) (BitVec.ofNat 8 a.rxSeq) m.prio m.payload [] 0)

/-- With a message and room in the replay buffer, the turn sends the message. -/
theorem sendNext_of_message {m : Message} (next : nextMessage a.waiting = some m) (room : a.replay.length < 128) :
    SentOne a (sendNext a) .data (dataOf a m) ∧ (sendNext a).replay = a.replay ++ [dataOf a m] := by
  simp only [sendNext, next, if_pos room]
  exact ⟨⟨rfl, rfl, frameCrcOk_crcFrame .., rfl, rfl⟩, rfl⟩

/-- Without one, or without room, it sends an IDLE frame, which no one resends. -/
theorem sendNext_of_idle (idle : nextMessage a.waiting = none ∨ 128 ≤ a.replay.length) :
    sendNext a = sendFrame a .idle (Frame.mk 0 0 0 [] [] 0) := by
  unfold sendNext
  split
  · next m next =>
    rw [if_neg (by simpa [next] using idle)]
  · rfl

theorem sentOne_sendNext (a : ChanAux) : ∃ k g, SentOne a (sendNext a) k g := by
  by_cases sends : ∃ m, nextMessage a.waiting = some m ∧ a.replay.length < 128
  · obtain ⟨m, next, room⟩ := sends
    exact ⟨_, _, (sendNext_of_message next room).1⟩
  · have idle : nextMessage a.waiting = none ∨ 128 ≤ a.replay.length := by
      cases next : nextMessage a.waiting with
      | none => exact .inl rfl
      | some m => exact .inr (not_lt.mp fun room => sends ⟨m, next, room⟩)
    rw [sendNext_of_idle idle]
    exact ⟨_, _, sentOne_sendFrame ..⟩

/-- The message that goes next is of the highest priority of those that wait. -/
theorem prio_le_nextMessage {ms : List Message} {m n : Message} (next : nextMessage ms = some m) (there : n ∈ ms) :
    n.prio ≤ m.prio := by
  have found (p : Nat) : (ms.find? fun x => x.prio.toNat = p) = none ↔ ∀ x ∈ ms, x.prio.toNat ≠ p := by
    simp [List.find?_eq_none]
  have is_ {p : Nat} (hit : (ms.find? fun x => x.prio.toNat = p) = some m) : m.prio.toNat = p := by
    simpa using List.find?_some hit
  have below : n.prio.toNat < 4 := n.prio.isLt
  rw [BitVec.le_def]
  simp only [nextMessage, List.findSome?_cons, List.findSome?_nil] at next
  split at next
  · next hit =>
    cases next
    have := is_ hit
    omega
  · next no3 =>
    split at next
    · next hit =>
      cases next
      have := is_ hit
      have := (found 3).mp no3 n there
      omega
    · next no2 =>
      split at next
      · next hit =>
        cases next
        have := is_ hit
        have := (found 3).mp no3 n there
        have := (found 2).mp no2 n there
        omega
      · next no1 =>
        split at next
        · next hit =>
          cases next
          have := (found 3).mp no3 n there
          have := (found 2).mp no2 n there
          have := (found 1).mp no1 n there
          omega
        · cases next

/-! Frames as they arrive -/

/-- An ACK touches the replay buffer and what counts resends of it. -/
theorem takeFrameAck_eq (a : ChanAux) (n : Nat) : takeFrameAck a n =
    { a with replay := (takeFrameAck a n).replay, acked := (takeFrameAck a n).acked,
             resends := (takeFrameAck a n).resends } := by
  unfold takeFrameAck
  dsimp only
  split_ifs <;> rfl

/-- A frame that stays in the replay buffer is one that the ACK does not cover. -/
theorem mem_takeFrameAck {n : Nat} {y : Frame} (m : y ∈ (takeFrameAck a n).replay) :
    y ∈ a.replay ∧ 128 ≤ (n + 256 - y.seq.toNat) % 256 := by
  unfold takeFrameAck at m
  dsimp only at m
  split_ifs at m with fewer
  · simpa using m
  · have all := List.length_filter_eq_length_iff.mp (le_antisymm (List.length_filter_le ..) (not_lt.mp fewer))
    exact ⟨m, by simpa using all y m⟩

theorem onFrame_of_ok (works : chanWorks h ch = true) (ok : frameCrcOk k.code f = true) :
    onFrame ch k f h act = act (takeFrameAck (chanAux h ch) f.ack.toNat) := by
  simp [onFrame, works, ok]

theorem onFrame_of_bad (works : chanWorks h ch = true) (bad : frameCrcOk k.code f = false) :
    onFrame ch k f h act = setChan h ch (nakOut (chanAux h ch)) := by
  simp [onFrame, works, bad]

theorem dataFrameHw_of_order {x : FrameObs} (works : chanWorks h ch = true) (ok : frameCrcOk 1 x.frame = true)
    (short : x.frame.payload.length ≤ 24) (order : x.frame.seq.toNat = ((chanAux h ch).rxSeq + 1) % 256) :
    let a := takeFrameAck (chanAux h ch) x.frame.ack.toNat
    dataFrameHw ch x h = setChan h ch (sendNext (queueMessages x.queued
      { a with rxSeq := x.frame.seq.toNat, delivered := a.delivered ++ [x.frame] })) := by
  have order' : x.frame.seq.toNat = ((takeFrameAck (chanAux h ch) x.frame.ack.toNat).rxSeq + 1) % 256 := by
    rw [takeFrameAck_eq]
    exact order
  rw [dataFrameHw, onFrame_of_ok (k := .data) works ok, if_neg (not_lt.mpr short), if_pos order']

theorem dataFrameHw_of_disorder {x : FrameObs} (works : chanWorks h ch = true) (ok : frameCrcOk 1 x.frame = true)
    (short : x.frame.payload.length ≤ 24) (disorder : x.frame.seq.toNat ≠ ((chanAux h ch).rxSeq + 1) % 256) :
    dataFrameHw ch x h =
      setChan h ch (nakOut (queueMessages x.queued (takeFrameAck (chanAux h ch) x.frame.ack.toNat))) := by
  have disorder' : x.frame.seq.toNat ≠ ((takeFrameAck (chanAux h ch) x.frame.ack.toNat).rxSeq + 1) % 256 := by
    rw [takeFrameAck_eq]
    exact disorder
  rw [dataFrameHw, onFrame_of_ok (k := .data) works ok, if_neg (not_lt.mpr short), if_neg disorder']

/-! Resends -/

/-- Every frame of a list goes out, in order, and is kept. -/
theorem foldl_sendFrame (fs : List Frame) (a : ChanAux) :
    (fs.foldl (fun a f => sendFrame a .data f) a).replay = a.replay ∧
    (fs.foldl (fun a f => sendFrame a .data f) a).sent.length = a.sent.length + fs.length := by
  induction fs generalizing a with
  | nil => exact ⟨rfl, rfl⟩
  | cons f fs ih =>
    obtain ⟨replay, sent⟩ := ih (sendFrame a .data f)
    refine ⟨replay, sent.trans ?_⟩
    simp only [sendFrame, List.length_append, List.length_cons, List.length_nil]
    omega

/-- An episode that the channel still has in it. -/
theorem resendFrames_of_left (left_ : a.replay = [] ∨ a.resends < 8) :
    let g := resendFrames serial h ch a
    g.mem = h.mem ∧ regsKept h g [rRetry ch.link.val] ∧
    getReg g (rRetry ch.link.val) = satAdd (getReg h (rRetry ch.link.val)) 1 ∧
    (chanAux g ch).replay = a.replay ∧ (chanAux g ch).sent.length = a.sent.length + a.replay.length := by
  have more : ¬ (a.replay ≠ [] ∧ 8 ≤ a.resends) := by
    rintro ⟨some_, eight⟩
    exact left_.elim some_ (not_lt.mpr eight)
  obtain ⟨replay, sent⟩ := foldl_sendFrame a.replay { a with resends := a.resends + 1 }
  simp only [resendFrames, if_neg more, bumpSat, chanAux_setReg, chanAux_setChan_self]
  refine ⟨rfl, fun o out => ?_, ?_, replay, sent⟩
  · exact getReg_setReg_ne _ _ (by simpa using out)
  · rw [getReg_setReg_self]
    rfl

theorem resendFrames_of_spent (some_ : a.replay ≠ []) (eight : 8 ≤ a.resends) :
    resendFrames serial h ch a = exhaust serial ch h := if_pos ⟨some_, eight⟩

/-! Flits -/

/-- A failed flit is counted, and ends the command that waits for it. -/
theorem flitHw_of_bad {x : FlitObs} (up : powered h = true) (flit : isFlit x.valid = true)
    (fails : flitOk x.bytes x.track = false) (fresh : x.marked = false)
    (open_ : x.link.val < 12 → regBit h (rLink x.link.val) 6 = false) :
    flitHw x h = x.consumer.elim (bumpSat h (rE2e x.link.val) 1) fun slot =>
      dataError (bumpSat h (rE2e x.link.val) 1) slot.val x.link.val := by
  have shut : (decide (x.link.val < 12) && regBit h (rLink x.link.val) 6) = false := by
    simpa using open_
  simp only [flitHw, shut, up, flit, fails, fresh, Bool.not_true, Bool.false_eq_true, or_false, if_false]
  cases x.consumer <;> rfl

theorem flitHw_of_good {x : FlitObs} (good : ¬ (powered h = true ∧ isFlit x.valid = true ∧
    flitOk x.bytes x.track = false ∧ x.marked = false ∧
    (x.link.val < 12 → regBit h (rLink x.link.val) 6 = false))) : flitHw x h = h := by
  refine if_pos ?_
  by_contra bad
  simp only [not_or, Bool.not_eq_true, Bool.not_eq_false', Bool.and_eq_false_iff, decide_eq_false_iff_not] at bad
  obtain ⟨up, flit, shut, fails, fresh⟩ := bad
  exact good ⟨up, flit, fails, fresh, shut.neg_resolve_left⟩

theorem activeAny_some {slot : Nat} {c : Cmd} (a : activeAny h slot = some c) : cmdAt h slot = some c := by
  unfold activeAny at a
  split at a
  · cases a
  · exact (active_some a).1

/-- A command of no task and no collective that meets a bad flit ends, whatever its outputs. -/
theorem dataError_ended {slot l : Nat} {c : Cmd} (a : activeAny h slot = some c) (colls : h.colls = [])
    (task : taskOf h slot = none) : ended (dataError h slot l) slot 0x43 l (endCount c) := by
  have at_ := activeAny_some a
  have alone : collAt h slot = none := by rw [collAt, colls, List.find?_nil]
  have fails {g : Hw} {d : Cmd} (at' : cmdAt g slot = some d) (task' : taskOf g slot = none) :
      ended (failCmd (spoilOutputs g slot) slot 0x43 l (endCount c)) slot 0x43 l (endCount c) := by
    have spoiled : StandsBy g (spoilOutputs g slot) := by
      rw [spoilOutputs, at']
      exact standsBy_spoil ..
    have at'' : cmdAt (spoilOutputs g slot) slot = some d := (congrArg (smFind · slot) spoiled.slots).trans at'
    have task'' : taskOf (spoilOutputs g slot) slot = none := by
      rw [taskOf, spoiled.streams]
      exact task'
    rw [failCmd_of_ends (.inl task'')]
    exact ended_finish at''
  simp only [dataError, a, alone]
  split
  · next x g out =>
    refine fails (d := { c with outRanges := x.1, buffer := x.2 }) ?_ ?_
    · rw [cmdAt_modCmd, if_pos rfl, at_]
      rfl
    · rw [modCmd_of_some _ _ at_]
      exact task
  · exact fails at_ task

/-- Settles O48: what a frame of each type does by the replay buffer and its numbers, and what a flit does by its code. -/
theorem controlFramesInOrder : Obligations.ControlFramesInOrder := by
  intro ch f ms s
  extract_lets a x freed hw refused again
  have nak {i : Instr} {b : ChanAux} (done : effect i s (setChan s.hw ch (nakOut b))) (sent : b.sent = a.sent)
      (delivered : b.delivered = a.delivered) (rx : b.rxSeq = a.rxSeq) : refused i := by
    refine ⟨_, crcFrame 2 (Frame.mk 0 (BitVec.ofNat 8 b.rxSeq) 0 [] [] 0), done, rfl, ?_, ?_, ?_⟩
    · rw [chanAux_setChan_self, ← sent]
      rfl
    · rw [chanAux_setChan_self, ← delivered]
      rfl
    · rw [← rx]
      rfl
  have ack : freed.sent = a.sent ∧ freed.delivered = a.delivered ∧ freed.rxSeq = a.rxSeq ∧ freed.txSeq = a.txSeq ∧
      freed.waiting = a.waiting := by
    have same : freed = { a with replay := freed.replay, acked := freed.acked, resends := freed.resends } :=
      takeFrameAck_eq ..
    rw [same]
    exact ⟨rfl, rfl, rfl, rfl, rfl⟩
  obtain ⟨ackSent, ackDelivered, ackRx, ackTx, ackWaiting⟩ := ack
  have resent {i : Instr} {b : ChanAux} (done : effect i s (resendFrames s.fuses.serial s.hw ch b))
      (sent : b.sent = a.sent) (left_ : b.replay = [] ∨ b.resends < 8) : again i b.replay := by
    obtain ⟨mem, regs, count, replay, out⟩ := resendFrames_of_left (serial := s.fuses.serial) (h := s.hw) (ch := ch) left_
    exact ⟨_, done, mem, regs, count, replay, sent ▸ out⟩
  refine ⟨fun works => ⟨fun ok => ?idle, fun ok short order => ?inOrder, fun ok short order => ?outOfOrder,
    fun ok left_ => ?nakFrame, fun ok some_ eight => ?nakSpent, fun bad => ?badIdle, fun bad => ?badData, fun bad => ?badNak,
    fun bytes => ⟨fun bad => ?badRaw, fun ok => ?goodRaw⟩, fun some_ left_ => ?timeout, fun some_ eight => ?timeoutSpent,
    fun none_ => ?timeoutIdle⟩, fun x => ?flits⟩
  case idle =>
    have done : effect (.idleFrame ch x) s (idleFrameHw ch x s.hw) := effect_of_onHw rfl
    rw [idleFrameHw, onFrame_of_ok (k := .idle) works ok] at done
    have waits : (queueMessages ms freed).waiting = a.waiting ++ ms := by rw [← ackWaiting]; rfl
    have tied {k : FrameKind} {g : Frame} {b : ChanAux} (one : SentOne (queueMessages ms freed) b k g) :
        b.delivered = a.delivered ∧ b.sent = a.sent ++ [(k, g)] ∧ g.ack = BitVec.ofNat 8 a.rxSeq ∧
        frameCrcOk k.code g = true :=
      ⟨one.delivered.trans ackDelivered, one.sent.trans (congrArg (· ++ [(k, g)]) ackSent),
        one.ack.trans (congrArg (BitVec.ofNat 8) ackRx), one.crc⟩
    by_cases sends : ∃ m, nextMessage (a.waiting ++ ms) = some m ∧ freed.replay.length < 128
    · obtain ⟨m, next, room⟩ := sends
      obtain ⟨one, replay⟩ := sendNext_of_message (a := queueMessages ms freed) (m := m) (waits ▸ next) room
      obtain ⟨delivered, sent, ack, crc⟩ := tied one
      refine ⟨_, .data, dataOf (queueMessages ms freed) m, done, rfl, ?_⟩
      rw [chanAux_setChan_self]
      refine ⟨delivered, sent, ack, crc, fun y there => ?_, fun empty => ?_, fun full => absurd room (not_lt.mpr full),
        fun m' next' _ => ?_⟩
      · rw [replay, List.mem_append, List.mem_singleton] at there
        exact there.imp mem_takeFrameAck fun is_ => ⟨rfl, is_⟩
      · rw [empty] at next
        cases next
      · obtain rfl : m = m' := Option.some.inj (next.symm.trans next')
        refine ⟨rfl, rfl, ?_, replay, fun n there => prio_le_nextMessage next there⟩
        rw [← ackTx]
        simp only [dataOf, crcFrame, queueMessages]
        rw [← BitVec.toNat_inj, BitVec.toNat_ofNat, BitVec.toNat_ofNat]
        exact Nat.mod_mod ..
    · have idle : nextMessage (queueMessages ms freed).waiting = none ∨ 128 ≤ (queueMessages ms freed).replay.length := by
        rw [waits]
        cases next : nextMessage (a.waiting ++ ms) with
        | none => exact .inl rfl
        | some m => exact .inr (not_lt.mp fun room => sends ⟨m, next, room⟩)
      have replay : (sendNext (queueMessages ms freed)).replay = freed.replay := by rw [sendNext_of_idle idle]; rfl
      obtain ⟨g, one⟩ : ∃ g, SentOne (queueMessages ms freed) (sendNext (queueMessages ms freed)) .idle g :=
        ⟨_, sendNext_of_idle idle ▸ sentOne_sendFrame ..⟩
      obtain ⟨delivered, sent, ack, crc⟩ := tied one
      refine ⟨_, .idle, g, done, rfl, ?_⟩
      rw [chanAux_setChan_self]
      exact ⟨delivered, sent, ack, crc, fun y there => .inl (mem_takeFrameAck (replay ▸ there)),
        fun _ => ⟨rfl, replay⟩, fun _ => ⟨rfl, replay⟩, fun m next room => absurd ⟨m, next, room⟩ sends⟩
  case inOrder =>
    have done : effect (.dataFrame ch x) s (dataFrameHw ch x s.hw) := effect_of_onHw rfl
    rw [dataFrameHw_of_order works ok short order] at done
    obtain ⟨k, g, one⟩ := sentOne_sendNext (queueMessages ms
      { freed with rxSeq := f.seq.toNat, delivered := freed.delivered ++ [f] })
    refine ⟨_, done, rfl, ?_⟩
    rw [chanAux_setChan_self]
    refine ⟨one.delivered.trans (congrArg (· ++ [f]) ackDelivered), one.rxSeq, ?_⟩
    have length := congrArg List.length one.sent
    rw [List.length_append] at length
    exact length.trans (congrArg (fun l => List.length l + 1) ackSent)
  case outOfOrder =>
    have done : effect (.dataFrame ch x) s (dataFrameHw ch x s.hw) := effect_of_onHw rfl
    rw [dataFrameHw_of_disorder works ok short order] at done
    exact nak done ackSent ackDelivered ackRx
  case nakFrame =>
    have done : effect (.nakFrame ch f) s (nakFrameHw s.fuses.serial ch f s.hw) := effect_of_onHw rfl
    rw [nakFrameHw, onFrame_of_ok (k := .nak) works ok] at done
    exact resent done ackSent left_
  case nakSpent =>
    have done : effect (.nakFrame ch f) s (nakFrameHw s.fuses.serial ch f s.hw) := effect_of_onHw rfl
    rwa [nakFrameHw, onFrame_of_ok (k := .nak) works ok, resendFrames_of_spent some_ eight] at done
  case badIdle =>
    have done : effect (.idleFrame ch x) s (idleFrameHw ch x s.hw) := effect_of_onHw rfl
    rw [idleFrameHw, onFrame_of_bad (k := .idle) works bad] at done
    exact nak done rfl rfl rfl
  case badData =>
    have done : effect (.dataFrame ch x) s (dataFrameHw ch x s.hw) := effect_of_onHw rfl
    rw [dataFrameHw, onFrame_of_bad (k := .data) works bad] at done
    exact nak done rfl rfl rfl
  case badNak =>
    have done : effect (.nakFrame ch f) s (nakFrameHw s.fuses.serial ch f s.hw) := effect_of_onHw rfl
    rw [nakFrameHw, onFrame_of_bad (k := .nak) works bad] at done
    exact nak done rfl rfl rfl
  case badRaw =>
    have done : effect (.controlFrameCrcFailure ⟨ch, bytes⟩) s (frameCrcHw ch bytes s.hw) := effect_of_onHw rfl
    rw [frameCrcHw, if_pos ⟨works, bad⟩] at done
    exact nak done rfl rfl rfl
  case goodRaw =>
    have done : effect (.controlFrameCrcFailure ⟨ch, bytes⟩) s (frameCrcHw ch bytes s.hw) := effect_of_onHw rfl
    rwa [frameCrcHw, if_neg fun bad => bad.2 ok] at done
  case timeout =>
    have done : effect (.controlReplayTimeout ch) s (controlReplayHw s.fuses.serial ch s.hw) := effect_of_onHw rfl
    rw [controlReplayHw, if_pos ⟨works, some_⟩] at done
    exact resent done rfl (.inr left_)
  case timeoutSpent =>
    have done : effect (.controlReplayTimeout ch) s (controlReplayHw s.fuses.serial ch s.hw) := effect_of_onHw rfl
    rwa [controlReplayHw, if_pos ⟨works, some_⟩, resendFrames_of_spent some_ eight] at done
  case timeoutIdle =>
    have done : effect (.controlReplayTimeout ch) s (controlReplayHw s.fuses.serial ch s.hw) := effect_of_onHw rfl
    rwa [controlReplayHw, if_neg fun waits => waits.2 none_] at done
  case flits =>
    intro bad
    have done : effect (.flit x) s (flitHw x s.hw) := effect_of_onHw rfl
    refine ⟨fun ⟨up, flit, fails, fresh, open_⟩ alone => ?_, fun slot c ⟨up, flit, fails, fresh, open_⟩ waits runs colls task => ?_,
      fun good => ?_⟩
    · rw [flitHw_of_bad up flit fails fresh open_, alone] at done
      exact ⟨_, done, getReg_setReg_self .., fun o out => getReg_setReg_ne _ _ (by simpa using out), rfl⟩
    · rw [flitHw_of_bad up flit fails fresh open_, waits] at done
      exact ⟨_, done, dataError_ended (h := bumpSat s.hw (rE2e x.link.val) 1) runs colls task⟩
    · rwa [flitHw_of_good good] at done

end Sys2Proof.Machine
end

section
/-! PROOFS. The management endpoint, the TAP, and register writes by their access codes (R372, R420, R462, R469): O54. -/

namespace Sys2Proof.Machine

variable {h : Hw} {w : World} {off bytes : Nat} {v : Quad} {d : Word} {s t : State} {f : Fuses}

/-! The management endpoint -/

/-- A READ answers as many bytes as it asks for, whatever the space holds there. -/
theorem length_mgmtBytes (f : Fuses) (h : Hw) (sp : MgmtSpace) (off n : Nat) : (mgmtBytes f h sp off n).length = n := by
  have page (base : Nat) : (mgmtPage f h base off n).length = n := by
    rw [mgmtPage, List.length_map, List.length_range]
  cases sp with
  | identity => exact page 0
  | status => exact page 0x1000
  | conv => exact slice_length ..
  | sticky => exact slice_length ..

theorem mgmtReadHw_of_reads {sp : MgmtSpace} {n : Nat} (on : h.pkg ≠ .off) (some_ : 0 < n) (fits : n ≤ 64) :
    mgmtReadHw f sp off n h = { h with
      mgmtOut := h.mgmtOut ++ mgmtBytes f h sp off n,
      pins := { h.pins with mgmtAlertN :=
        h.pins.mgmtAlertN && !(decide (sp = .sticky) && decide (64 * h.errs.sticky.length ≤ off + n)) } } :=
  if_neg fun ignored => ignored.elim on (by omega)

/-! The TAP -/

theorem jtagHw_of_taken {ir : JtagIr} (on : h.pkg ≠ .off) (takes : jtagTakes f h ir = true) : jtagHw f ir h =
    { h with jtag := { jtagDies h.jtag ir with ir := ir, refused := false, dr := jtagRegister ir } } := by
  simp only [jtagHw, if_neg on, takes, if_true, Bool.not_true]

theorem jtagHw_of_refused {ir : JtagIr} (on : h.pkg ≠ .off) (refuses : jtagTakes f h ir = false) : jtagHw f ir h =
    { h with jtag := { h.jtag with ir := .bypass, refused := true, dr := some (1, 0) } } := by
  simp [jtagHw, on, refuses, jtagRegister]

/-- In BYPASS every die of the chain has one bit. -/
theorem chainBits_of_bypass {j : Jtag} (alone : j.internal = []) (dr : j.dr = some (1, 0)) :
    chainBits j = some (chainDies j).length := by
  simp [chainBits, alone, dr]

/-! Register writes -/

/-- A record heads the castle log. -/
theorem logErr_log (h : Hw) (e : ErrEvent) : (logErr h e).errs.log = recordOf h e :: h.errs.log.take 4095 := by
  rw [logErr, errRecord_eq]
  dsimp only
  rw [routeSeverity_errs]
  rfl

theorem not_postedBefore_of_acts (a : acts h w off = true) : postedBefore h w = false := by
  simpa using (Bool.and_eq_true_iff.mp a).2

theorem answers_of_acts (a : acts h w off = true) : answers h w off = true := (Bool.and_eq_true_iff.mp a).1

theorem execRegisterWrite_of_malformed (a : acts s.hw w off = true) (bad : bytes < 4 ∨ off % 4 ≠ 0) :
    execRegisterWrite w off bytes v s = onHw (malformedWrite off) s := by
  have bad' : malformed off bytes = true := by
    simpa [malformed] using bad
  simp only [execRegisterWrite, not_postedBefore_of_acts a, bad', answers_of_acts a, Bool.false_eq_true, if_false,
    if_true]

/-- A dword write in its order. -/
theorem execRegisterWrite_dword (order : postedBefore s.hw w = false) (aligned : off % 4 = 0) :
    execRegisterWrite w off 4 v s = .next (writeDword w off (BitVec.ofNat 32 v.toNat) s) := by
  simp [execRegisterWrite, order, malformed, aligned]

/-- A write of 8 bytes in its order. -/
theorem execRegisterWrite_pair (order : postedBefore s.hw w = false) (aligned : off % 4 = 0) :
    execRegisterWrite w off 8 v s = .next (writeDword w (off + 4) (BitVec.ofNat 32 (v.toNat / 2 ^ 32))
      (writeDword w off (BitVec.ofNat 32 v.toNat) s)) := by
  simp [execRegisterWrite, order, malformed, aligned]

/-- A write of 8 bytes is the write of its lower dword and then that of its upper one (R469). -/
theorem execRegisterWrite_eight (a : acts s.hw w off = true) (aligned : off % 4 = 0)
    (low : execRegisterWrite w off 4 v s = .next t) (order : postedBefore t.hw w = false) :
    execRegisterWrite w off 8 v s = execRegisterWrite w (off + 4) 4 (v >>> 32) t := by
  have first := not_postedBefore_of_acts a
  rw [execRegisterWrite_dword first aligned] at low
  obtain rfl := Host.Outcome.next.inj low
  rw [execRegisterWrite_pair first aligned, execRegisterWrite_dword order (by omega), BitVec.toNat_ushiftRight,
    Nat.shiftRight_eq_div_pow]

/-- A whole write outside SEC_CTRL does what its block does. -/
theorem execRegisterWrite_block (a : acts s.hw w off = true) (aligned : off % 4 = 0) (out : blockOf off ≠ .sec) :
    execRegisterWrite w off 4 v s = onHw (blockWrite w off (BitVec.ofNat 32 v.toNat)) s := by
  have other : off ≠ rSec 0xC := fun e => out (e ▸ by decide)
  rw [execRegisterWrite_dword (not_postedBefore_of_acts a) aligned, writeDword, answers_of_acts a,
    if_neg (by simp), if_neg other]
  rfl

theorem blockWrite_of_fixed (fixed : blockOf off = .ident ∨ blockOf off = .gstatus ∨ blockOf off = .build) :
    blockWrite w off d h = h := by
  unfold blockWrite
  rcases fixed with is_ | is_ | is_ <;> rw [is_]

theorem blockWrite_of_cxl (is_ : blockOf off = .cxl) : blockWrite w off d h = componentWrite off d h := by
  unfold blockWrite
  rw [is_]

theorem blockWrite_of_ctr (is_ : blockOf off = .ctr) : blockWrite w off d h = plainWrite w off d h := by
  unfold blockWrite
  rw [is_]

/-- A write of a component register is held; in CXL mode two bits of the link's word follow what is held. -/
theorem componentWrite_keeps : let g := componentWrite off d h
    g.host.component = h.host.component ++ [(off, d)] ∧ regsKept h g [rHostLink] ∧
    (hostMode h ≠ 1 → regsKept h g []) ∧
    g = { h with regs := g.regs, freeRegs := g.freeRegs, host := { h.host with component := g.host.component } } := by
  have mode : hostMode { h with host := { h.host with component := h.host.component ++ [(off, d)] } } = hostMode h := rfl
  by_cases cxl : hostMode h = 1
  · rw [componentWrite, mode, if_pos cxl]
    refine ⟨rfl, fun o out => ?_, fun other => absurd cxl other, rfl⟩
    have out' : o ≠ rHostLink := by simpa using out
    exact (getReg_setReg_ne _ _ out').trans (getReg_setReg_ne _ _ out')
  · rw [componentWrite, mode, if_neg cxl]
    exact ⟨rfl, fun _ _ => rfl, fun _ _ _ => rfl, rfl⟩

/-- What a write leaves in a register by its access code (Table 20-2). -/
def codeWrite (w : World) (off : Nat) (old d : Word) : Word :=
  let i := regInfo off
  let mask : Word := BitVec.ofNat 32 (if w = .secure then i.rw ||| i.secureOnly else i.rw - (i.rw &&& i.secureOnly))
  (old &&& ~~~mask ||| d &&& mask) &&& ~~~(d &&& BitVec.ofNat 32 i.w1c)

theorem plainWrite_keeps (w : World) (off : Nat) (d : Word) (h : Hw) :
    onlyRegs h (plainWrite w off d h) [off] ∧
    getReg (plainWrite w off d h) off = codeWrite w off (getReg h off) d := by
  have is_ : plainWrite w off d h =
      if codeWrite w off (getReg h off) d = getReg h off then h else setReg h off (codeWrite w off (getReg h off) d) := rfl
  rw [is_]
  split_ifs with same
  · exact ⟨⟨fun _ _ => rfl, rfl⟩, same.symm⟩
  · exact ⟨⟨fun o out => getReg_setReg_ne _ _ (by simpa using out), rfl⟩, getReg_setReg_self ..⟩

/-- Settles O54: each access is what its own equation says. -/
theorem plainAccesses : Obligations.PlainAccesses := by
  intro s
  refine ⟨fun sp off n => ⟨fun on some_ fits => ?reads, fun none_ => ?ignored⟩,
    fun ir on => ⟨fun takes => ?taken, fun refuses => ?refused⟩,
    fun w off bytes v a => ⟨fun bad => ?malformed, fun eight aligned t low order => ?pair, fun four aligned => ?whole⟩⟩
  case reads =>
    have done : effect (.mgmtRead sp off n) s (mgmtReadHw s.fuses sp off n s.hw) := effect_of_onHw rfl
    rw [mgmtReadHw_of_reads on some_ fits] at done
    refine ⟨_, mgmtBytes s.fuses s.hw sp off n, done, length_mgmtBytes .., rfl, rfl, ?_⟩
    simp only [Bool.and_eq_true, Bool.not_eq_true', ← Bool.not_eq_true, decide_eq_true_eq]
  case ignored =>
    have done : effect (.mgmtRead sp off n) s (mgmtReadHw s.fuses sp off n s.hw) := effect_of_onHw rfl
    rwa [mgmtReadHw, if_pos none_] at done
  case taken =>
    have done : effect (.jtagInstruction ir) s (jtagHw s.fuses ir s.hw) := effect_of_onHw rfl
    rw [jtagHw_of_taken on takes] at done
    refine ⟨_, done, rfl, rfl, rfl, rfl, ?_, ?_⟩
    · rintro ds rfl
      exact ⟨rfl, rfl⟩
    · rintro rfl alone
      exact chainBits_of_bypass alone rfl
  case refused =>
    have done : effect (.jtagInstruction ir) s (jtagHw s.fuses ir s.hw) := effect_of_onHw rfl
    rw [jtagHw_of_refused on refuses] at done
    exact ⟨_, done, rfl, rfl, rfl, rfl⟩
  case malformed =>
    have done : effect (.registerWrite w off bytes v) s (malformedWrite off s.hw) :=
      effect_of_onHw (execRegisterWrite_of_malformed a bad)
    obtain ⟨mem, slots, -⟩ := logErr_frame (h := s.hw)
      { source := 8, kind := 5, severity := 2, addr := off }
    exact ⟨_, _, _, done, logErr_log .., rfl, rfl, rfl, rfl, mem, slots⟩
  case pair =>
    subst eight
    exact execRegisterWrite_eight a aligned low order
  case whole =>
    subst four
    have by_block (out : blockOf off ≠ .sec) :
        effect (.registerWrite w off 4 v) s (blockWrite w off (BitVec.ofNat 32 v.toNat) s.hw) :=
      effect_of_onHw (execRegisterWrite_block a aligned out)
    refine ⟨fun fixed => ?_, fun cxl => ?_, fun ctr => ?_⟩
    · have done := by_block (by rcases fixed with e | e | e <;> simp [e])
      rwa [blockWrite_of_fixed fixed] at done
    · have done := by_block (by simp [cxl])
      rw [blockWrite_of_cxl cxl] at done
      exact ⟨_, done, componentWrite_keeps⟩
    · have done := by_block (by simp [ctr])
      rw [blockWrite_of_ctr ctr] at done
      exact ⟨_, done, plainWrite_keeps ..⟩

end Sys2Proof.Machine
end

section
/-! PROOFS. Power states, the calibration page and ageing (R437, R442, R443, R445): O45. -/

namespace Sys2Proof.Machine

variable {h h' : Hw} {w : World} {v : Word}

/-! Byte strings -/

theorem leNat_leBytes (n v : Nat) : leNat (leBytes n v) = v % 256 ^ n := by
  induction n generalizing v with
  | zero => rw [leBytes, leNat, Nat.pow_zero, Nat.mod_one]
  | succ n ih =>
    have power : 256 ^ (n + 1) = 256 * 256 ^ n := Nat.pow_succ'
    rw [power, Nat.mod_mul, leBytes, leNat, ih, BitVec.toNat_ofNat]

/-- What stands at the start of a string stands at the start of its slice. -/
theorem slice_append {a b : List Byte} {n : Nat} (within : a.length ≤ n) :
    slice (a ++ b) 0 n = a ++ slice b 0 (n - a.length) := by
  simp only [slice, List.drop_zero, List.take_append, List.take_of_length_le within, List.append_assoc,
    List.length_append, List.length_take]
  congr 3
  omega

/-- The slice of a part is that part. -/
theorem slice_part (a b c : List Byte) : slice (a ++ (b ++ c)) a.length b.length = b := by simp [slice]

/-! The calibration page (R445) -/

theorem length_sealPage (head : List Byte) : (sealPage head).length = 4096 := by
  rw [sealPage, List.length_append, slice_length, shake256_length _ (by decide)]

theorem pageDigestOk_sealPage (head : List Byte) : pageDigestOk (sealPage head) = true := by
  have body : slice (sealPage head) 0 0xFE0 = slice head 0 0xFE0 := by
    have part := slice_part [] (slice head 0 0xFE0) (shake256 (slice head 0 0xFE0) 32)
    rwa [slice_length, List.nil_append] at part
  have digest : slice (sealPage head) 0xFE0 32 = shake256 (slice head 0 0xFE0) 32 := by
    have part := slice_part (slice head 0 0xFE0) (shake256 (slice head 0 0xFE0) 32) []
    rwa [slice_length, shake256_length _ (by decide), List.append_nil] at part
  rw [pageDigestOk, body, digest, beq_self_eq_true]

/-- A page that begins with the magic word and version 1 and is sealed is valid. -/
theorem calPageOk_sealPage (rest : List Byte) :
    calPageOk (sealPage (leBytes 4 0x4C414359 ++ (leBytes 4 1 ++ rest))) = true := by
  have starts (a b r d : List Byte) (la : a.length ≤ 0xFE0) (lb : b.length ≤ 0xFE0 - a.length) :
      ∃ tail, slice (a ++ (b ++ r)) 0 0xFE0 ++ d = a ++ (b ++ tail) :=
    ⟨slice r 0 (0xFE0 - a.length - b.length) ++ d, by
      rw [slice_append la, slice_append lb, List.append_assoc, List.append_assoc]⟩
  have digest := pageDigestOk_sealPage (leBytes 4 0x4C414359 ++ (leBytes 4 1 ++ rest))
  obtain ⟨tail, is_⟩ := starts (leBytes 4 0x4C414359) (leBytes 4 1) rest
    (shake256 (slice (leBytes 4 0x4C414359 ++ (leBytes 4 1 ++ rest)) 0 0xFE0) 32) (by rw [leBytes_length]; decide)
    (by rw [leBytes_length, leBytes_length]; decide)
  have page : sealPage (leBytes 4 0x4C414359 ++ (leBytes 4 1 ++ rest)) =
    leBytes 4 0x4C414359 ++ (leBytes 4 1 ++ tail) := is_
  rw [page] at digest ⊢
  have magic : leAt (leBytes 4 0x4C414359 ++ (leBytes 4 1 ++ tail)) 0 4 = 0x4C414359 := by
    have part := slice_part [] (leBytes 4 0x4C414359) (leBytes 4 1 ++ tail)
    rw [leBytes_length, List.nil_append] at part
    exact (congrArg leNat part).trans (leNat_leBytes ..)
  have version : leAt (leBytes 4 0x4C414359 ++ (leBytes 4 1 ++ tail)) 4 4 = 1 := by
    have part := slice_part (leBytes 4 0x4C414359) (leBytes 4 1) tail
    rw [leBytes_length, leBytes_length] at part
    exact (congrArg leNat part).trans (leNat_leBytes ..)
  rw [calPageOk, magic, version, digest]
  rfl

/-- CAL_SAVE writes one copy, and it is valid. -/
structure Saves (c : Nat) (h h' : Hw) : Prop where
  copy : c < 2
  valid : calPageOk (readPage h' (calPageAt c)) = true
  rest : h' = { h with mem := h'.mem }
  mem : ∀ sp a, (sp ≠ .flash ∨ a < calPageAt c ∨ calPageAt c + 4096 ≤ a) → h'.mem.read sp a = h.mem.read sp a

theorem saves_of_write {c : Nat} (copy : c < 2) (rest : List Byte) : Saves c h { h with
    mem := h.mem.write .flash (calPageAt c) (sealPage (leBytes 4 0x4C414359 ++ (leBytes 4 1 ++ rest))) } := by
  have length := length_sealPage (leBytes 4 0x4C414359 ++ (leBytes 4 1 ++ rest))
  refine ⟨copy, ?_, rfl, fun sp a out => ?_⟩
  · have reads := readN_write h.mem .flash (calPageAt c) (sealPage (leBytes 4 0x4C414359 ++ (leBytes 4 1 ++ rest)))
    rw [length] at reads
    rw [readPage, reads]
    exact calPageOk_sealPage rest
  · refine read_write_other _ _ _ _ _ _ ?_
    rw [length]
    rintro ⟨rfl, low, high⟩
    rcases out with out | out | out
    · exact out rfl
    · omega
    · omega

theorem calSaveHw_saves (h : Hw) : ∃ c, Saves c h (calSaveHw h) := by
  unfold calSaveHw
  split
  next c seq picked =>
  have copy : c < 2 := by
    split at picked
    · cases picked; decide
    · cases picked; decide
    · cases picked; decide
    · split_ifs at picked <;> cases picked <;> decide
  refine ⟨c, ?_⟩
  simp only [List.append_assoc]
  exact saves_of_write copy _

/-! Leaving HOLD and QUIET (R443, R449) -/

theorem anyRingEnabled_of_steady (kept : ∀ o, steadyReg o → getReg h' o = getReg h o) :
    anyRingEnabled h' = anyRingEnabled h := by
  have each (n : Nat) (l : n < 64) : ringEnabled h' n = ringEnabled h n := by
    rw [ringEnabled, ringEnabled, regBit, regBit, kept _ (.inl (by simp only [rRingStatus, rRing]; omega))]
  rw [Bool.eq_iff_iff, anyRingEnabled, anyRingEnabled, List.any_eq_true, List.any_eq_true]
  exact exists_congr fun n => and_congr_right fun m => by rw [each n (List.mem_range.mp m)]

/-- What does its work port by port keeps what each port's work keeps. -/
theorem allPorts_keeps {α : Type} {f : Hw → Nat → Hw} (get : Hw → α) (step : ∀ h q, get (f h q) = get h) (h : Hw) :
    get (allPorts f h) = get h :=
  List.foldlRecOn _ f (motive := fun g => get g = get h) rfl fun g k q _ => (step g q).trans k

theorem tryLock_pkg (h : Hw) (q : Nat) : (tryLock h q).pkg = h.pkg := by
  unfold tryLock
  split_ifs <;> rfl

theorem tryLock_mem (h : Hw) (q : Nat) : (tryLock h q).mem = h.mem := by
  unfold tryLock
  split_ifs <;> rfl

theorem dropLines_power (h : Hw) (p : Nat → Nat → Bool) : (dropLines h p).power = h.power := rfl

theorem dropLines_mem (h : Hw) (p : Nat → Nat → Bool) : (dropLines h p).mem = h.mem := rfl

theorem tryLock_power (h : Hw) (q : Nat) : (tryLock h q).power = h.power := by
  unfold tryLock
  split_ifs <;> rfl

theorem setPower_pkg (h : Hw) (p : PkgState) : (setPower h p).pkg = p := by
  unfold setPower
  exact setPkg_pkg ..

theorem setPower_power (h : Hw) (p : PkgState) : (setPower h p).power = h.power := by
  unfold setPower
  rw [setPkg_frame]
  rfl

/-- An enabled port of a package that leaves QUIET locks again (Table 18-6). -/
def rejoinPort (h : Hw) (q : Nat) : Hw := setPortAux h q { portAux h q with rejoins := regBit h (rPort q 4) 0 }

/-- The tile stores zeroed. -/
def emptyTiles (h : Hw) : Hw := { h with mem := h.mem.zero .tile 0 (192 * 2 ^ 23) }

theorem getReg_withMem (h : Hw) (m : Mem) (o : Nat) : getReg { h with mem := m } o = getReg h o := rfl

theorem getReg_emptyTiles (h : Hw) (o : Nat) : getReg (emptyTiles h) o = getReg h o := by
  exact getReg_withMem h _ o

theorem emptyTiles_power (h : Hw) : (emptyTiles h).power = h.power := by
  have other (m : Mem) : { h with mem := m }.power = h.power := rfl
  exact other _

/-- What leaving QUIET does before the package state changes. -/
def wokenHw (h : Hw) : Hw := if h.pkg = .quiet then allPorts rejoinPort (emptyTiles h) else h

theorem leaveLowPower_eq (h : Hw) : leaveLowPower h =
    allPorts tryLock (setPower (wokenHw h) (if anyRingEnabled (wokenHw h) then .run else .ready)) := rfl

theorem getReg_wokenHw (h : Hw) (o : Nat) : getReg (wokenHw h) o = getReg h o := by
  unfold wokenHw
  split_ifs
  · exact (allPorts_keeps (f := rejoinPort) (getReg · o) (fun _ _ => rfl) _).trans (getReg_emptyTiles h o)
  · rfl

theorem wokenHw_power (h : Hw) : (wokenHw h).power = h.power := by
  unfold wokenHw
  split_ifs
  · exact (allPorts_keeps (f := rejoinPort) Hw.power (fun _ _ => rfl) _).trans (emptyTiles_power h)
  · rfl

theorem wokenHw_mem (h : Hw) : (wokenHw h).mem = if h.pkg = .quiet then (emptyTiles h).mem else h.mem := by
  unfold wokenHw
  split_ifs
  · exact allPorts_keeps (f := rejoinPort) Hw.mem (fun _ _ => rfl) _
  · rfl

theorem leaveLowPower_pkg (h : Hw) : (leaveLowPower h).pkg = if anyRingEnabled h = true then .run else .ready := by
  rw [leaveLowPower_eq, allPorts_keeps Hw.pkg tryLock_pkg, setPower_pkg,
    anyRingEnabled_of_steady fun o _ => getReg_wokenHw h o]

theorem leaveLowPower_power (h : Hw) : (leaveLowPower h).power = h.power := by
  rw [leaveLowPower_eq, allPorts_keeps Hw.power tryLock_power, setPower_power, wokenHw_power]

theorem leaveLowPower_mem (h : Hw) :
    (leaveLowPower h).mem = if h.pkg = .quiet then (emptyTiles h).mem else h.mem := by
  rw [leaveLowPower_eq, allPorts_keeps Hw.mem tryLock_mem, (keepsWork_setPower ..).mem, wokenHw_mem]

theorem read_emptyTiles (h : Hw) (sp : Space) (a : Nat) : (emptyTiles h).mem.read sp a =
    if sp = .tile ∧ a < 192 * 2 ^ 23 then 0 else h.mem.read sp a := by
  rw [emptyTiles, read_zero]
  simp only [Nat.zero_le, true_and, Nat.zero_add]

/-! Requests (R442) -/

/-- The hardware once a write of PWR_CTRL stands in the register and has saved what it asks to save. -/
def pwrWritten (v : Word) (h : Hw) : Hw :=
  let req := fld v 1 0
  let g := setRegBit h (rPwr 4) 2 (bit v 2)
  let g := if req = 3 then g else setRegFld g (rPwr 4) 1 0 req
  if bit v 3 then calSaveHw g else g

theorem pwrCtrlHw_eq (v : Word) (h : Hw) : pwrCtrlHw v h = requestState (fld v 1 0) (pwrWritten v h) := rfl

/-- What a write of PWR_CTRL does before its request acts. -/
structure PwrWritten (v : Word) (h h' : Hw) : Prop where
  reg : regsKept h h' [rPwr 4]
  rest : h' = { h with regs := h'.regs, freeRegs := h'.freeRegs, mem := h'.mem }
  mem : bit v 3 = false → h'.mem = h.mem
  saved : bit v 3 = true → ∃ c < 2, calPageOk (readPage h' (calPageAt c)) = true

theorem pwrWritten_writes (v : Word) (h : Hw) : PwrWritten v h (pwrWritten v h) := by
  unfold pwrWritten
  extract_lets req bits g
  have noted : regsKept h g [rPwr 4] ∧ g = { h with regs := g.regs, freeRegs := g.freeRegs } := by
    have one : regsKept h bits [rPwr 4] := fun o out => getReg_setReg_ne _ _ (by simpa using out)
    unfold g
    split_ifs
    · exact ⟨one, rfl⟩
    · exact ⟨fun o out => (getReg_setReg_ne _ _ (by simpa using out)).trans (one o out), rfl⟩
  obtain ⟨reg, rest⟩ := noted
  clear_value g
  split_ifs with saves
  · obtain ⟨c, s⟩ := calSaveHw_saves g
    refine ⟨fun o out => ?_, ?_, fun not_ => absurd saves (by simp [not_]), fun _ => ⟨c, s.copy, s.valid⟩⟩
    · rw [s.rest, getReg_withMem]
      exact reg o out
    · rw [s.rest, rest]
  · exact ⟨reg, by rw [rest], fun _ => by rw [rest], fun yes => absurd yes saves⟩

theorem PwrWritten.pkg (k : PwrWritten v h h') : h'.pkg = h.pkg := by rw [k.rest]
theorem PwrWritten.power (k : PwrWritten v h h') : h'.power = h.power := by rw [k.rest]

theorem not_steady_power {r : Nat} (l : r < 0x1000) : ¬ steadyReg (rPwr r) := by
  simp only [steadyReg, rPwr, regOf, baseOf]
  omega

theorem PwrWritten.anyRing (k : PwrWritten v h h') : anyRingEnabled h' = anyRingEnabled h :=
  anyRingEnabled_of_steady fun o s => k.reg o (by
    rw [List.mem_singleton]
    exact fun is_ => not_steady_power (by decide) (is_ ▸ s))

theorem requestState_of_wait {n : Nat} {p : PkgState} (is_ : n = 1 ∧ p = .hold ∨ n = 2 ∧ p = .quiet) (other : h.pkg ≠ p) :
    requestState n h = { h with power := { h.power with target := some p } } := by
  rcases is_ with ⟨rfl, rfl⟩ | ⟨rfl, rfl⟩ <;> simp [requestState, other]

theorem requestState_of_none : requestState 3 h = h := rfl

theorem requestState_of_run_low (low : h.pkg = .hold ∨ h.pkg = .quiet) :
    requestState 0 h = leaveLowPower { h with power := { h.power with target := none } } := if_pos low

theorem requestState_of_run_high (high : ¬ (h.pkg = .hold ∨ h.pkg = .quiet)) :
    requestState 0 h = { h with power := { h.power with target := none } } := if_neg high

/-- A request touches the flash no more. -/
theorem requestState_flash (n : Nat) (h : Hw) (a : Nat) :
    (requestState n h).mem.read .flash a = h.mem.read .flash a := by
  by_cases run : n = 0
  · subst run
    by_cases low : h.pkg = .hold ∨ h.pkg = .quiet
    · rw [requestState_of_run_low low, leaveLowPower_mem]
      split_ifs
      · rw [read_emptyTiles, if_neg (by simp)]
      · rfl
    · rw [requestState_of_run_high low]
  · unfold requestState
    split_ifs <;> rfl

/-! Entry (R442) -/

/-- Without a command no collective has one of its ports, so a port goes dark and takes no work with it. -/
theorem keepsWork_darkenPort_of_idle (idle : h.slots = []) (q : Nat) : KeepsWork h (darkenPort h q) := by
  have alone (g : Hw) (none_ : g.slots = []) (s : Nat) : collAt g s = none := by
    unfold collAt cmdAt
    rw [none_]
    split
    · next found => cases found
    · rfl
  have hit : collsOn h q = [] := by simp [collsOn, alone h idle]
  have dropped : KeepsWork h (dropLink h q 0) := by
    simp only [dropLink, hit, ite_self, List.foldl_nil]
    exact (keepsWork_setPortState ..).trans (keepsWork_clearLink ..)
  exact dropped.trans ((keepsWork_setReg _ (not_steady_port (by omega)) _).trans (keepsWork_setPortAux ..))

theorem keepsWork_leavePorts_of_idle (idle : h.slots = []) (serial : Quad) (type : Nat) :
    KeepsWork h (leavePorts h serial type) := by
  unfold leavePorts allPorts
  refine List.foldlRecOn _ _ (motive := KeepsWork h) (.refl h) fun g k q _ => ?_
  have parted := k.trans (keepsWork_partingCells g q (blankCell type (.serial serial)))
  exact parted.trans (keepsWork_darkenPort_of_idle (parted.slots.trans idle) q)

theorem leavePorts_power (h : Hw) (serial : Quad) (type : Nat) : (leavePorts h serial type).power = h.power := by
  have port (g : Hw) (q : Nat) (c : Cell) :
      WorkReach g (if portRuns g q then (List.range 4).foldl (fun h _ => emitCell h q c) g else g) := by
    split_ifs
    · exact .foldl (fun g _ => workReach_emitCell g q c) _ _
    · exact .refl g
  refine allPorts_keeps Hw.power (fun g q => ?_) h
  rw [((port g q (blankCell type (.serial serial))).trans (workReach_darkenPort ..)).rest, withWorkOf]

/-- A state of low power is entered once it is asked for and no command holds a slot. -/
theorem powerStateEntryHw_enters {p : PkgState} (asked : h.power.target = some p) (up : h.pkg = .ready ∨ h.pkg = .run)
    (idle : h.slots = []) (serial : Quad) : let g := powerStateEntryHw serial h
    g.pkg = p ∧ g.power.target = none ∧ g.mem = h.mem := by
  have entered : powerStateEntryHw serial h =
      let g := { h with power := { h.power with target := none } }
      setPower (if p = .quiet then dropLines (leavePorts g serial 12) (fun _ _ => true) else g) p := by
    simp only [powerStateEntryHw, asked]
    exact if_pos ⟨up, idle⟩
  rw [entered]
  extract_lets src asleep
  refine ⟨setPower_pkg .., ?_, ?_⟩
  · rw [setPower_power]
    split_ifs
    · rw [dropLines_power, leavePorts_power]
    · rfl
  · rw [(keepsWork_setPower ..).mem]
    split_ifs
    · rw [dropLines_mem, (keepsWork_leavePorts_of_idle (h := asleep) idle ..).mem]
    · rfl

theorem powerStateEntryHw_of_waits (waits : h.power.target = none ∨ h.slots ≠ [] ∨ (h.pkg ≠ .ready ∧ h.pkg ≠ .run))
    (serial : Quad) : powerStateEntryHw serial h = h := by
  unfold powerStateEntryHw
  split
  · rfl
  · next p asked =>
    refine if_neg ?_
    rintro ⟨up, idle⟩
    rcases waits with none_ | busy | ⟨ready, run⟩
    · rw [none_] at asked
      cases asked
    · exact busy idle
    · exact up.elim ready run


/-! Ageing (R437) -/

/-- A trim after one step toward what an evaluation calls for. -/
def trimToward (old n : Nat) : Nat :=
  if old < min n 10 then old + 1 else if min n 10 < old then old - 1 else old

/-- The trim registers apart from those that an error record writes. -/
theorem rAge_apart {e r : Nat} (l : e < 12) : rAge e ≠ regOf .err r := by
  simp only [rAge, rPwr, regOf, baseOf]
  omega

/-- A die's evaluation in operation moves its own trim by a step and the limit's words, and no memory. -/
theorem ageDie_keeps (h : Hw) (d n : Nat) : (ageDie false h d n).mem = h.mem ∧
    ∀ e < 12, getReg (ageDie false h d n) (rAge e) =
      if e = d then BitVec.ofNat 32 (trimToward (ageTrim h d) n) else getReg h (rAge e) := by
  unfold ageDie
  extract_lets old want new g src aged limited
  have new_ : new = trimToward (ageTrim h d) n := rfl
  have moved (e : Nat) : getReg aged (rAge e) =
      if e = d then BitVec.ofNat 32 (trimToward (ageTrim h d) n) else getReg h (rAge e) := by
    rw [← new_]
    split_ifs with same
    · exact same ▸ getReg_setReg_self ..
    · exact getReg_setReg_ne _ _ (by simp only [rAge, rPwr, regOf, baseOf]; omega)
  have status (e : Nat) : rAge e ≠ rCalStatus := by
    simp only [rAge, rCalStatus, rPwr, regOf, baseOf]
    omega
  have kept : limited.mem = h.mem ∧ ∀ e, getReg limited (rAge e) = getReg aged (rAge e) := by
    unfold limited
    split_ifs
    · exact ⟨rfl, fun _ => rfl⟩
    · exact ⟨rfl, fun e => (getReg_setReg_ne _ _ (status e)).trans (getReg_setReg_ne _ _ (status e))⟩
  obtain ⟨mem, regs⟩ := kept
  split_ifs
  · refine ⟨(logErr_frame _).1.trans mem, fun e l => ?_⟩
    rw [← moved, ← regs]
    exact getReg_errRecord _ (rAge_apart (r := 4) l) (rAge_apart l)
  · exact ⟨rfl, fun e _ => moved e⟩

/-- What an evaluation in operation does at a die. -/
def ageStep (need : List (DieId × Nat)) (h : Hw) (d : Nat) : Hw :=
  match need.find? fun x => x.1.val = d with
  | none => h
  | some x => ageDie false h d x.2

theorem evaluateAge_eq (need : List (DieId × Nat)) (h : Hw) :
    evaluateAge false need h = saveAgePage ((List.range 12).foldl (ageStep need) h) := rfl

/-- What stands in a die's trim register once the evaluation has come by. -/
def agedWord (need : List (DieId × Nat)) (h : Hw) (d : Nat) : Word :=
  match need.find? fun x => x.1.val = d with
  | none => getReg h (rAge d)
  | some x => BitVec.ofNat 32 (trimToward (ageTrim h d) x.2)

theorem ageStep_keeps (need : List (DieId × Nat)) (h : Hw) (d : Nat) : (ageStep need h d).mem = h.mem ∧
    ∀ e < 12, getReg (ageStep need h d) (rAge e) = if e = d then agedWord need h d else getReg h (rAge e) := by
  unfold ageStep agedWord
  split
  · refine ⟨rfl, fun e _ => ?_⟩
    split_ifs with same
    · rw [same]
    · rfl
  · exact ageDie_keeps ..

/-- Die by die, each trim moves once. -/
theorem foldl_ageStep (need : List (DieId × Nat)) {ds : List Nat} (once : ds.Nodup) (h : Hw) :
    (ds.foldl (ageStep need) h).mem = h.mem ∧
    ∀ e < 12, getReg (ds.foldl (ageStep need) h) (rAge e) = if e ∈ ds then agedWord need h e else getReg h (rAge e) := by
  induction ds generalizing h with
  | nil => exact ⟨rfl, fun _ _ => by simp⟩
  | cons d ds ih =>
    obtain ⟨out, once⟩ := List.nodup_cons.mp once
    obtain ⟨mem, regs⟩ := ih once (ageStep need h d)
    obtain ⟨mem', regs'⟩ := ageStep_keeps need h d
    refine ⟨mem.trans mem', fun e l => ?_⟩
    have later (ne : e ≠ d) : agedWord need (ageStep need h d) e = agedWord need h e := by
      have same : getReg (ageStep need h d) (rAge e) = getReg h (rAge e) := (regs' e l).trans (if_neg ne)
      rw [agedWord, agedWord, ageTrim, ageTrim, regFld_of_getReg same, same]
    rw [List.foldl_cons, regs e l, regs' e l]
    by_cases same : e = d
    · subst same
      rw [if_neg out, if_pos rfl, if_pos List.mem_cons_self]
    · rw [if_neg same, later same]
      exact if_congr (by simp [same]) rfl rfl

theorem ageTrim_le (h : Hw) (d : Nat) : ageTrim h d < 16 := Nat.mod_lt _ (by decide)

/-- A trim after an evaluation in operation. -/
theorem ageTrim_evaluateAge (need : List (DieId × Nat)) (h : Hw) (d : DieId) :
    ageTrim (evaluateAge false need h) d.val = match need.find? fun x => x.1.val = d.val with
      | none => ageTrim h d.val
      | some x => trimToward (ageTrim h d.val) x.2 := by
  have word : getReg (evaluateAge false need h) (rAge d.val) = agedWord need h d.val := by
    rw [evaluateAge_eq, saveAgePage, getReg_withMem]
    exact ((foldl_ageStep need List.nodup_range h).2 d.val d.isLt).trans (if_pos (List.mem_range.mpr d.isLt))
  rw [ageTrim, regFld, word, agedWord]
  split
  · rfl
  · next x _ =>
    have small := ageTrim_le h d.val
    have fits : trimToward (ageTrim h d.val) x.2 < 16 := by
      unfold trimToward
      split_ifs <;> omega
    rw [fld, BitVec.toNat_ofNat]
    omega

theorem evaluateAge_mem (need : List (DieId × Nat)) (h : Hw) {sp : Space} (ne : sp ≠ .flash) (a : Nat) :
    (evaluateAge false need h).mem.read sp a = h.mem.read sp a := by
  rw [evaluateAge_eq, saveAgePage]
  rw [read_write_other _ _ _ _ _ _ (by simp [ne]), read_write_other _ _ _ _ _ _ (by simp [ne]),
    (foldl_ageStep need List.nodup_range h).1]

theorem managed_runs (m : managed h = true) : powered h = true ∧ h.pkg ≠ .bringup ∧ h.pkg ≠ .resigned := by
  simp only [managed, Bool.and_eq_true, decide_eq_true_eq] at m
  obtain ⟨⟨⟨on, up⟩, stays⟩, -⟩ := m
  exact ⟨on, up, stays⟩

/-- Settles O45: a write of PWR_CTRL stands before its request acts, and each of the others is its own equation. -/
theorem powerStatesAndCalibration : Obligations.PowerStatesAndCalibration := by
  refine ⟨fun w v s => ⟨fun a => ?request, fun p asked up idle => ?enters, fun waits => ?waits⟩,
    fun s => ⟨fun w a => ?saves, fun m need => ?ages⟩⟩
  case request =>
    have done : effect (.powerStateRequest w v) s (requestState (fld v 1 0) (pwrWritten v s.hw)) :=
      effect_of_acts (f := pwrCtrlHw v) rfl a
    have k := pwrWritten_writes v s.hw
    generalize pwrWritten v s.hw = g at done k
    have waits {n : Nat} {p : PkgState} (req : fld v 1 0 = n) (is_ : n = 1 ∧ p = .hold ∨ n = 2 ∧ p = .quiet)
        (other : s.hw.pkg ≠ p) : ∃ h', effect (.powerStateRequest w v) s h' ∧ h'.power.target = some p ∧
        h'.pkg = s.hw.pkg ∧ regsKept s.hw h' [rPwr 4] ∧ (bit v 3 = false → h'.mem = s.hw.mem) := by
      rw [req, requestState_of_wait is_ (k.pkg ▸ other)] at done
      exact ⟨_, done, rfl, k.pkg, k.reg, k.mem⟩
    refine ⟨fun req other => waits req (.inl ⟨rfl, rfl⟩) other, fun req other => waits req (.inr ⟨rfl, rfl⟩) other,
      fun req => ?_, fun req => ?_, fun saves => ?_⟩
    · rw [req, requestState_of_none] at done
      exact ⟨_, done, k.reg, k.power, k.mem⟩
    · rw [req] at done
      by_cases low : s.hw.pkg = .hold ∨ s.hw.pkg = .quiet
      · rw [requestState_of_run_low (k.pkg.symm ▸ low)] at done
        refine ⟨_, done, ?_, fun _ => ?_, fun quiet a l => ?_, fun hold quiet => (low.elim hold quiet).elim⟩
        · rw [leaveLowPower_power]
        · exact (leaveLowPower_pkg _).trans (by rw [← k.anyRing]; rfl)
        · rw [leaveLowPower_mem, if_pos (k.pkg.trans quiet), read_emptyTiles, if_pos ⟨rfl, l⟩]
      · rw [requestState_of_run_high (k.pkg.symm ▸ low)] at done
        exact ⟨_, done, rfl, fun low' => absurd low' low, fun quiet => absurd (.inr quiet) low,
          fun _ _ => ⟨k.pkg, k.mem⟩⟩
    · obtain ⟨c, copy, valid⟩ := k.saved saves
      have page (x : Nat) : readPage (requestState (fld v 1 0) g) x = readPage g x := by
        simp only [readPage, Mem.readN, requestState_flash]
      refine ⟨_, done, ?_⟩
      rw [page, page]
      obtain rfl | rfl : c = 0 ∨ c = 1 := by omega
      · exact .inl valid
      · exact .inr valid
  case enters => exact ⟨_, effect_of_onHw rfl, powerStateEntryHw_enters asked up idle s.fuses.serial⟩
  case waits =>
    have done : effect .powerStateEntry s (powerStateEntryHw s.fuses.serial s.hw) := effect_of_onHw rfl
    rwa [powerStateEntryHw_of_waits waits] at done
  case saves =>
    obtain ⟨c, k⟩ := calSaveHw_saves s.hw
    exact ⟨_, c, k.copy, effect_of_acts (f := calSaveHw) rfl a, k.valid, k.rest, k.mem⟩
  case ages =>
    have done : effect (.ageingEvaluation need) s (ageingHw need s.hw) := effect_of_onHw rfl
    rw [ageingHw, if_pos (managed_runs m)] at done
    refine ⟨_, done, fun sp a ne => evaluateAge_mem need s.hw ne a, fun d others => ?_, fun d n found => ?_⟩
    · have none_ : (need.find? fun x => x.1.val = d.val) = none := by
        rw [List.find?_eq_none]
        intro x there
        simpa [Fin.ext_iff] using others x there
      rw [ageTrim_evaluateAge, none_]
    · rw [ageTrim_evaluateAge, found]
      rfl

end Sys2Proof.Machine
end

section
/-! PROOFS. What follows every command, as one frame: the registers that the mirror copy of an error record and its
interrupts may reach (R460). -/

namespace Sys2Proof.Machine

/-- The registers that a mirror copy and what follows it may write: those that work writes, the agent's two of the host
block, the count of permission faults, and the pending bits of vectors 64 to 71. -/
def mirrorReg (o : Nat) : Prop :=
  workReg o ∨ o = rHost 8 ∨ o = rHost 0x20 ∨ o = rPermFaults ∨ o = rHost 0x2008

/-- A change within the registers and the parts of the hardware that a mirror copy may reach. -/
structure MirrorReach (h h' : Hw) : Prop where
  reg : ∀ o, ¬ mirrorReg o → getReg h' o = getReg h o
  rest : h' = withWorkOf h h'

theorem WorkReach.mirror {h h' : Hw} (k : WorkReach h h') : MirrorReach h h' :=
  ⟨fun o out => k.reg o fun work => out (.inl work), k.rest⟩

theorem KeepsButHost.mirror {h h' : Hw} (k : KeepsButHost h h') : MirrorReach h h' :=
  ⟨fun o out => k.reg o (fun e => out (.inr (.inl e))) fun e => out (.inr (.inr (.inl e))), by rw [k.rest]; rfl⟩

theorem MirrorReach.refl (h : Hw) : MirrorReach h h := ⟨fun _ _ => rfl, rfl⟩

theorem MirrorReach.trans {h g k : Hw} (a : MirrorReach h g) (b : MirrorReach g k) : MirrorReach h k :=
  ⟨fun o n => (b.reg o n).trans (a.reg o n), by rw [b.rest, a.rest]; rfl⟩

/-- What writes no register reaches within its frame. -/
theorem MirrorReach.of_rest {h h' : Hw} (regs : h'.regs = h.regs) (free : h'.freeRegs = h.freeRegs)
    (rest : h' = withWorkOf h h') : MirrorReach h h' := ⟨fun o _ => getReg_congr regs free o, rest⟩

variable (h : Hw)

theorem MirrorReach.setReg {o : Nat} (m : mirrorReg o) (v : Word) : MirrorReach h (setReg h o v) :=
  ⟨fun _ n => getReg_setReg_ne h v fun e => n (e ▸ m), rfl⟩

theorem mirrorReach_errReg {r : Nat} (l : r < 0x100) (v : Word) : MirrorReach h (setReg h (regOf .err r) v) :=
  .setReg h (.inl (.inr (.inr (.inl (by simp only [regOf, baseOf]; omega))))) v

theorem mirrorReach_logErr {e : ErrEvent} (l : e.severity ≤ 4) : MirrorReach h (logErr h e) :=
  (workReach_logErr h l).mirror

/-- Vectors 64 to 95 have their pending bits in one register. -/
theorem mirrorReach_sendMsix {v : Nat} (low : 64 ≤ v) (high : v < 96) : MirrorReach h (sendMsix h v) := by
  unfold sendMsix
  split_ifs
  · have reg : regOf .host (0x2000 + 4 * (v / 32)) = rHost 0x2008 := by simp only [rHost, regOf, baseOf]; omega
    exact .setReg h (.inr (.inr (.inr (.inr reg)))) _
  all_goals exact .of_rest rfl rfl rfl

/-! Stores -/

theorem mirrorReach_injectErrs (s : Nat) : MirrorReach h (injectErrs h s).2 := by
  unfold injectErrs
  extract_lets r pat
  split_ifs
  · exact .setReg h (.inl workReg_stack) _
  · exact .refl h

theorem mirrorReach_checkCw (s y : Nat) : MirrorReach h (checkCw h s y).2 := by
  simp only [checkCw]
  split_ifs
  · exact .refl h
  · split
    · exact .refl h
    · exact (workReach_correctCw ..).mirror
    · exact (workReach_poisonCw ..).mirror

theorem mirrorReach_writeCw (s y : Nat) (bs : List Byte) : MirrorReach h (writeCw h s y bs) := by
  unfold writeCw
  extract_lets cw full chk g logged sound inj coded a unwritten
  have checked : MirrorReach h g := by
    unfold g chk
    split_ifs
    · exact .refl h
    · exact mirrorReach_checkCw ..
  split_ifs
  · exact checked.trans ((workReach_logStackEvent ..).mirror.trans (mirrorReach_logErr _ (by simp)))
  · have injected : MirrorReach sound inj.2 := mirrorReach_injectErrs ..
    have replaced : MirrorReach g sound := .of_rest rfl rfl rfl
    have coded_ (g : Hw) (a : StackAux) (m : Mem) (errs : List (Nat × Byte)) :
        MirrorReach g { setStackAux (setCwErrs g cw errs) s a with mem := m } := .of_rest rfl rfl rfl
    exact checked.trans (replaced.trans (injected.trans (coded_ ..)))

theorem mirrorReach_lineWrite (pa s y : Nat) (bs : List Byte) : MirrorReach h (lineWrite h pa s y bs) := by
  unfold lineWrite
  extract_lets line m g g'
  have counted : MirrorReach h g := (mirrorReach_writeCw h s y bs).trans (.of_rest rfl rfl rfl)
  have stored : MirrorReach g g' := by
    have held (m : Mem) : MirrorReach g { g with mem := m } := .of_rest rfl rfl rfl
    unfold g'
    split_ifs
    · exact held _
    · exact .refl g
  split_ifs
  · exact counted.trans (stored.trans (workReach_dropLines ..).mirror)
  · exact counted.trans stored

theorem mirrorReach_writePaPiece (who : Who) (pa : Nat) (bs : List Byte) :
    MirrorReach h (writePaPiece h who pa bs).2 := by
  have touched (s : Nat) : MirrorReach h (touchStack h who s) := by
    rw [touchStack_frame]
    exact .of_rest rfl rfl rfl
  have stored (m : Mem) : MirrorReach h { h with mem := m } := .of_rest rfl rfl rfl
  unfold writePaPiece
  split
  · split_ifs
    · exact (workReach_logBoard ..).mirror
    · exact .refl h
    · exact (touched _).trans (mirrorReach_lineWrite ..)
  · exact stored _
  · exact .refl h
  · exact (workReach_logBoard ..).mirror

theorem mirrorReach_writePa (who : Who) (pa : Nat) (bs : List Byte) : MirrorReach h (writePa h who pa bs).2 := by
  have go (ps : List (Nat × Nat)) (h : Hw) (bs : List Byte) : MirrorReach h (writePa.go who h bs ps).2 := by
    induction ps generalizing h bs with
    | nil => exact .refl h
    | cons p ps ih =>
      have piece := mirrorReach_writePaPiece h who p.1 (bs.take p.2)
      unfold writePa.go
      split
      · next e => rw [e] at piece; exact piece.trans (ih ..)
      · exact piece
  exact go _ h bs

/-! Host memory -/

theorem mirrorReach_agentWriteLine (slot a : Nat) (bs : List Byte) : MirrorReach h (agentWriteLine h slot a bs) := by
  unfold agentWriteLine
  extract_lets line cur new g rest
  have room : KeepsButHost h g := by
    unfold g makeAgentRoom
    dsimp only
    split_ifs
    · exact .refl h
    · split
      · exact keepsButHost_writeBackLine ..
      · exact .refl h
  exact (room.trans ((keepsButHost_host ..).trans (keepsButHost_countAgent ..))).mirror

/-- A run that writes bytes piece by piece. -/
theorem mirrorReach_foldl_bytes {f : Hw → Nat → List Byte → Hw} (step : ∀ h a bs, MirrorReach h (f h a bs))
    (ps : List (Nat × Nat)) (bs : List Byte) :
    MirrorReach h (ps.foldl (fun r p => (f r.1 p.1 (r.2.take p.2), r.2.drop p.2)) (h, bs)).1 :=
  List.foldlRecOn ps _ (motive := fun r : Hw × List Byte => MirrorReach h r.1) (.refl h)
    fun _ kept _ _ => kept.trans (step ..)

theorem mirrorReach_hostWritePiece (slot a : Nat) (bs : List Byte) : MirrorReach h (hostWritePiece h slot a bs) := by
  unfold hostWritePiece
  split
  · have peer (g : Hw) (m : Mem) (x : HostAux) : MirrorReach g { g with mem := m, host := x } := .of_rest rfl rfl rfl
    exact (workReach_modCmd ..).mirror.trans (peer ..)
  · dsimp only
    split_ifs
    · exact (workReach_modCmd ..).mirror.trans
        (mirrorReach_foldl_bytes _ (fun g a bs => mirrorReach_agentWriteLine g slot a bs) ..)
    · exact (workReach_modCmd ..).mirror.trans (keepsButHost_hostIoWrite ..).mirror

theorem mirrorReach_hostWrite {slot a : Nat} {bs : List Byte} {h' : Hw} (e : hostWrite h slot a bs = some h') :
    MirrorReach h h' := by
  unfold hostWrite at e
  split_ifs at e
  cases e
  exact mirrorReach_foldl_bytes h (fun g a bs => mirrorReach_hostWritePiece g slot a bs) ..

/-! Operations of the castle -/

/-- An operation reaches no more than a mirror copy, however it ends. -/
def RunMirror {α : Type} (m : Run α) : Prop := ∀ h, MirrorReach h (runOn m h).2

theorem RunMirror.bind {α β : Type} {m : Run α} {f : α → Run β} (a : RunMirror m) (b : ∀ x, RunMirror (f x)) :
    RunMirror (m >>= f) := by
  intro h
  have first := a h
  rw [runOn_bind]
  generalize runOn m h = r at first
  obtain ⟨_ | x, g⟩ := r
  · exact first
  · exact first.trans (b x g)

section
variable {who : Who} (own : who.slot = none)
include own

theorem mirrorReach_noteHeld (pa : Nat) : MirrorReach h (noteHeld h who pa) := by
  simp only [noteHeld, own, Option.bind_none, Bool.false_eq_true, if_false]
  split
  · exact .setReg h (.inl workReg_stack) _
  · exact .refl h

theorem runMirror_xlateRun (va : Nat) (acc : Acc) : RunMirror (xlateRun who va acc) := by
  intro h
  have walked := (workReach_translate h who va acc).mirror
  unfold xlateRun
  rw [runOn_bind_ok runOn_get]
  generalize translate h who va acc = r at walked
  obtain ⟨walk, g⟩ := r
  cases walk with
  | held a => exact walked.trans (mirrorReach_noteHeld g own a)
  | _ => exact walked

theorem runMirror_wrPage (va : Nat) (bs : List Byte) : RunMirror (wrPage who va bs) := by
  refine (runMirror_xlateRun own va .wr).bind fun x h => ?_
  obtain ⟨toHost, pa⟩ := x
  have alone (g : Hw) : racing g who va bs.length = [] := by simp only [racing, own, Option.bind_none]
  rw [runOn_bind_ok runOn_get]
  simp only [alone, if_true]
  cases toHost with
  | true =>
    simp only [if_true]
    cases e : hostWrite h (who.slot.getD noSlot) pa bs with
    | none => exact .refl h
    | some g => exact mirrorReach_hostWrite h e
  | false =>
    simp only [Bool.false_eq_true, if_false]
    have stored := mirrorReach_writePa h { who with va := va } pa bs
    generalize writePa h { who with va := va } pa bs = r at stored
    obtain ⟨answer, g⟩ := r
    cases answer with
    | held => exact stored.trans (mirrorReach_noteHeld g own pa)
    | _ => exact stored

theorem runMirror_wr (va : Nat) (bs : List Byte) : RunMirror (wr who va bs) := by
  have go (ps : List (Nat × Nat)) (bs : List Byte) : RunMirror (wr.go who bs ps) := by
    induction ps generalizing bs with
    | nil => exact fun h => .refl h
    | cons p ps ih => exact (runMirror_wrPage own p.1 (bs.take p.2)).bind fun _ => ih _
  exact go _ _

end

theorem mirrorReach_castleFail (w : World) (f : Fail) : MirrorReach h (castleFail h w f).2 := by
  cases f with
  | xlate va acc np =>
    have counted : MirrorReach h (bumpSat h rPermFaults 1) := .setReg h (.inr (.inr (.inr (.inl rfl)))) _
    show MirrorReach h (castleFault h w va)
    exact counted.trans (mirrorReach_logErr _ (by simp))
  | _ => exact .refl h

theorem mirrorReach_ringWrite (w : World) (hostLoc : Bool) (a : Nat) (bs : List Byte) :
    MirrorReach h (ringWrite h w hostLoc a bs).2 := by
  unfold ringWrite
  split_ifs
  · exact (keepsButHost_hostIoWrite ..).mirror
  · exact .refl h
  · have stored := runMirror_wr (who := castle w) rfl a bs h
    split
    · next e => rw [e] at stored; exact stored
    · next e => rw [e] at stored; exact stored.trans (mirrorReach_castleFail ..)

/-! What follows every command -/

theorem mirrorReach_mirrorOne (r : ErrRec) : MirrorReach h (mirrorOne h r).2 := by
  unfold mirrorOne
  extract_lets cfg size prod used
  split_ifs
  · exact .refl h
  · exact mirrorReach_errReg h (by decide) _
  · have stored := mirrorReach_ringWrite h .nonSecure (bit cfg 6)
      (getReg64 h (regOf .err 0xA4) + prod.toNat % size * 64) (errBytes r true)
    split
    · next e => rw [e] at stored; exact stored.trans (mirrorReach_errReg _ (by decide) _)
    · exact .refl h
    · next e =>
      have stopped (g : Hw) (a : ErrAux) : MirrorReach g { g with errs := a } := .of_rest rfl rfl rfl
      rw [e] at stored
      exact stored.trans ((mirrorReach_errReg _ (by decide) _).trans (stopped ..))

theorem mirrorReach_errIrq (r : ErrRec) : MirrorReach h (errIrq h r) := by
  unfold errIrq
  split_ifs
  · exact mirrorReach_sendMsix h (by decide) (by decide)
  · exact .refl h

theorem mirrorReach_flushErrs (n : Nat) : MirrorReach h (flushErrs n h) := by
  induction n generalizing h with
  | zero => exact .refl h
  | succ n ih =>
    unfold flushErrs
    split
    · exact .refl h
    · next r rs _ =>
      have taken : MirrorReach h { h with errs := { h.errs with toMirror := rs } } := .of_rest rfl rfl rfl
      have copied := taken.trans (mirrorReach_mirrorOne _ r)
      split
      · next e => rw [e] at copied; exact copied.trans ((mirrorReach_errIrq ..).trans (ih _))
      · exact .refl h

variable {h}

/-- A register that neither a mirror copy nor its interrupts reach stays through what follows a command. -/
theorem getReg_settle {o : Nat} (out : ¬ mirrorReg o) : getReg (settle h) o = getReg h o := by
  have entered (g : Hw) (p : PkgState) : getReg (setPkg g p) o = getReg g o :=
    getReg_setPkg g p fun e => out (.inr (.inr (.inr (.inr e))))
  refine Eq.trans ?_ ((mirrorReach_flushErrs h (h.errs.toMirror.length + 64)).reg o out)
  unfold settle settlePkg
  split_ifs
  · exact entered ..
  · exact entered ..
  · rfl

end Sys2Proof.Machine
end

section
/-! PROOFS. The estimate under a gain that comes into force with the pending set: O46. -/

namespace Sys2Proof.Machine

/-! The statement speaks of every state, and the set that waits for the next allocation is a list of registers and
words, which ARB_COMMIT alone keeps to the two of the live set. An allocation writes the pending set before it takes its
readings, so a pending set that names PWR_GAIN changes the gain under which the estimate is shown. -/

namespace PendingGain

/-- The castle leaks 1 kW without a voltage at 0 °C. -/
def fuses : Fuses :=
  { State.reset.fuses with factory := { State.reset.fuses.factory with leak := [(48, [((0, 0), 1000000)])] } }

/-- The package in READY with REFCLK_SYS; the pending set is a gain of 1.25. -/
def hw : Hw :=
  { Hw.reset with
    pkg := .ready, bringStep := 10, supplies := { Hw.reset.supplies with refclkSys := true, converters := false }
    power := { Hw.reset.power with pendingArb := some [(rPwr 0x18, 5120)] } }

def state : State := { State.reset with hw := hw, fuses := fuses }

/-- A sample of the castle's islands alone. -/
def sample : ArbSample :=
  { islands := [{ die := 48, counts := [], quarterDeg := 0 }], vinMv := 0, iinMa := 0, base := 0, demandLink := 0,
    demandMemory := 0, demandCompute := 0, floorLink := 0, floorMemory := 0, floorCompute := 0, boardDemand := [] }

theorem hw_managed : managed state.hw = true := by decide

/-- The estimate is 1,000 W under a gain of 1.00. -/
theorem expected : BitVec.ofNat 32 (estimate fuses hw sample * gainNow hw / 4096) = (1000 : Word) := by decide +kernel

/-- The allocation shows 1,250 W. -/
theorem shown : getReg (arbAllocationHw fuses sample hw) (rPwr 8) = (1250 : Word) := by decide +kernel

end PendingGain

/-- The registers of the power block are none of those that a mirror copy reaches. -/
theorem not_mirrorReg_power {r : Nat} (l : r < 0x10000) : ¬ mirrorReg (rPwr r) := by
  simp only [mirrorReg, workReg, rPort, rPwr, rHost, rPermFaults, regOf, baseOf]
  omega

open PendingGain in
/-- Refutes O46: with PWR_GAIN in the pending set the estimate is shown under the new gain and not under the one that
was in force. -/
theorem not_arbiterAndClocks : ¬ Obligations.ArbiterAndClocks := by
  intro claim
  obtain ⟨-, allocations, -⟩ := claim state
  obtain ⟨h', allocated, -, estimate_, -⟩ := allocations hw_managed sample
  have arm : effect (.arbAllocation sample) state (arbAllocationHw fuses sample hw) := effect_of_onHw rfl
  have same : settle h' = settle (arbAllocationHw fuses sample hw) := by
    simpa using allocated.symm.trans arm
  have out : ¬ mirrorReg (rPwr 8) := not_mirrorReg_power (by decide)
  have shows : getReg h' (rPwr 8) = 1250 := by
    rw [← getReg_settle out, same, getReg_settle out, shown]
  exact absurd ((expected.symm.trans estimate_.symm).trans shows) (by decide)

end Sys2Proof.Machine
end

section
/-! PROOFS. A held message that sets an alarm latch as the latches are cleared: O40. -/

namespace Sys2Proof.Machine

/-! The statement speaks of every state, and the messages that bring-up holds are a list of numbers, which the model's
own commands keep below 72. A write of ALARM_LATCH that leaves no erase latch ends a bring-up of step 8, and that sends
the held messages (R453); one whose vector is masked sets its pending bit, and the pending bits of vectors far beyond the
table lie over the registers of the security core: bit 0 of ALARM_LATCH is that of the vector chosen here. -/

namespace HeldMessage

/-- The vector whose pending bit is bit 0 of ALARM_LATCH. -/
def vector : Nat := 32 * 0x17F840

/-- The package at the end of bring-up, without an alarm; the vector is held and masked. -/
def hw : Hw :=
  setReg { Hw.reset with pkg := .bringup, bringStep := 8, host := { Hw.reset.host with msixHeld := [vector] } }
    (regOf .host (0x1000 + 16 * vector + 12)) 1

def state : State := { State.reset with hw := hw }

theorem hw_answers : answers state.hw .secure (rSec 0x100) = true := by decide

theorem no_latch : alarmLatch state.hw = 0 := by decide +kernel

/-- The write leaves a latch set that was clear. -/
theorem latched : alarmLatch (alarmClearHw 0 hw) = 1 := by decide +kernel

end HeldMessage

theorem not_mirrorReg_latch : ¬ mirrorReg (rSec 0x100) := by
  simp only [mirrorReg, workReg, rPort, rSec, rHost, rPermFaults, regOf, baseOf]
  omega

open HeldMessage in
/-- Refutes O40: a write of ALARM_LATCH ends a bring-up, and the message of a vector that does not exist sets a latch. -/
theorem not_alarmsAndErasure : ¬ Obligations.AlarmsAndErasure := by
  intro claim
  obtain ⟨-, clears, -⟩ := claim state 0
  obtain ⟨h', live, cleared, latch, -⟩ := clears 0 hw_answers
  have arm : effect (.alarmClear .secure 0) state (ifSecView .secure (rSec 0x100) (alarmClearHw 0) state.hw) :=
    effect_of_onHw rfl
  rw [ifSecView_of hw_answers] at arm
  have same : settle h' = settle (alarmClearHw 0 state.hw) := by
    simpa using cleared.symm.trans arm
  have is_ : alarmLatch h' = 1 := by
    rw [alarmLatch, ← getReg_settle not_mirrorReg_latch, same, getReg_settle not_mirrorReg_latch, ← alarmLatch]
    exact latched
  rw [is_, no_latch] at latch
  simp at latch

end Sys2Proof.Machine
end

section
/-! PROOFS. What work that a soft reset still does may reach: cells that leave, and window accesses that waited (R457). -/

namespace Sys2Proof.Machine

/-- The registers that such work may write: the low ones of the 16 ports that a slot can name, the counts of
collectives, the low ones of the host block and of the error block, and of the tiles, stacks and boards those outside
offsets 0x400 to 0xFFF of a 64 KiB page, where the boards keep their sets. -/
def softReg (o : Nat) : Prop :=
  (0x500000 ≤ o ∧ o < 0x504000) ∨ (0x504060 ≤ o ∧ o < 0x504068) ∨ (0x200000 ≤ o ∧ o < 0x200100) ∨
  (0x700000 ≤ o ∧ o < 0x700080) ∨ (0x1000000 ≤ o ∧ (o % 0x10000 < 0x400 ∨ 0x1000 ≤ o % 0x10000))

/-- A state with the parts of another that hold no register, no byte and no secret. -/
def withLoose (h h' : Hw) : Hw :=
  { h with
    symErrs := h'.symErrs, poison := h'.poison, stackAux := h'.stackAux, tilesAux := h'.tilesAux, caches := h'.caches
    xlate := h'.xlate, slots := h'.slots, ports := h'.ports, fabric := h'.fabric, host := h'.host, errs := h'.errs
    holds := h'.holds, draws := h'.draws }

/-- A change within what such work may reach; it leaves flash, the security core, the package state and PERST_N, and
brings no collective to life. -/
structure SoftReach (h h' : Hw) : Prop where
  reg : ∀ o, ¬ softReg o → getReg h' o = getReg h o
  flash : ∀ a, h'.mem.read .flash a = h.mem.read .flash a
  colls : h'.colls ⊆ h.colls
  sec : h'.sec = h.sec
  pkg : h'.pkg = h.pkg
  perst : h'.pins.perst = h.pins.perst

theorem SoftReach.refl (h : Hw) : SoftReach h h := ⟨fun _ _ => rfl, fun _ => rfl, List.Subset.refl _, rfl, rfl, rfl⟩

theorem SoftReach.trans {h g k : Hw} (a : SoftReach h g) (b : SoftReach g k) : SoftReach h k :=
  ⟨fun o n => (b.reg o n).trans (a.reg o n), fun x => (b.flash x).trans (a.flash x), List.Subset.trans b.colls a.colls,
    b.sec.trans a.sec, b.pkg.trans a.pkg, b.perst.trans a.perst⟩

theorem SoftReach.foldl {α : Type} {f : Hw → α → Hw} (step : ∀ h x, SoftReach h (f h x)) (xs : List α) (h : Hw) :
    SoftReach h (xs.foldl f h) :=
  List.foldlRecOn xs f (motive := SoftReach h) (.refl h) fun g k x _ => k.trans (step g x)

theorem SoftReach.of_loose {h h' : Hw} (e : h' = withLoose h h') : SoftReach h h' := by
  rw [e]
  exact ⟨fun _ _ => rfl, fun _ => rfl, List.Subset.refl _, rfl, rfl, rfl⟩

variable (h : Hw)

/-! Registers and memory -/

theorem SoftReach.setReg {o : Nat} (s : softReg o) (v : Word) : SoftReach h (setReg h o v) :=
  ⟨fun _ n => getReg_setReg_ne h v fun e => n (e ▸ s), fun _ => rfl, List.Subset.refl _, rfl, rfl, rfl⟩

theorem softReg_tile {t r : Nat} (l : r < 0x400) : softReg (regOf (.tile t) r) := by
  simp only [softReg, regOf, baseOf]
  omega

theorem softReg_stack {s r : Nat} (l : r % 0x10000 < 0x400) : softReg (regOf (.stack s) r) := by
  simp only [softReg, regOf, baseOf]
  omega

theorem softReg_board {b r : Nat} (l : r < 0x400 ∨ 0x1000 ≤ r ∧ r < 0x10000) : softReg (regOf (.board b) r) := by
  simp only [softReg, regOf, baseOf]
  omega

theorem softReg_port {q r : Nat} (lq : q < 16) (l : r < 0x400) : softReg (rPort q r) := by
  simp only [softReg, rPort, regOf, baseOf]
  omega

theorem softReg_host {r : Nat} (l : r < 0x100) : softReg (rHost r) := by
  simp only [softReg, rHost, regOf, baseOf]
  omega

/-- Stores in a space other than flash. -/
theorem softReach_write {sp : Space} (ne : .flash ≠ sp) (a : Nat) (bs : List Byte) :
    SoftReach h { h with mem := h.mem.write sp a bs } :=
  ⟨fun _ _ => rfl, fun _ => read_write_other _ _ _ _ _ _ fun e => ne e.1, List.Subset.refl _, rfl, rfl, rfl⟩

theorem softReach_makeFree {sp : Space} (ne : .flash ≠ sp) (a n d : Nat) :
    SoftReach h { h with mem := h.mem.makeFree sp a n d } :=
  ⟨fun _ _ => rfl, read_makeFree_ne _ ne a n d, List.Subset.refl _, rfl, rfl, rfl⟩

theorem softReach_logErr {e : ErrEvent} (l : e.severity ≤ 4) : SoftReach h (logErr h e) := by
  obtain ⟨mem, -, -, colls, sec⟩ := logErr_frame (h := h) e
  have apart {o r : Nat} (n : ¬ softReg o) (low : r < 0x80) : o ≠ regOf .err r := fun x =>
    n (.inr (.inr (.inr (.inl (by simp only [x, regOf, baseOf]; omega)))))
  have perst : (logErr h e).pins.perst = h.pins.perst := by
    simp only [logErr, errRecord, routeSeverity]
    split_ifs <;> rfl
  exact ⟨fun o n => getReg_errRecord h (apart n (r := 4) (by decide)) (apart n (by omega)), fun a => by rw [mem],
    colls ▸ List.Subset.refl _, sec, by rw [logErr_rest], perst⟩

/-! The stacks -/

theorem softReach_setStackReg (s : Nat) {r : Nat} (l : r % 0x10000 < 0x400) (v : Word) :
    SoftReach h (setReg h (regOf (.stack s) r) v) := .setReg h (softReg_stack l) v

theorem softReach_setStackAux (s : Nat) (a : StackAux) : SoftReach h (setStackAux h s a) := .of_loose rfl

theorem softReach_logStackEvent (s y kind symbol : Nat) : SoftReach h (logStackEvent h s y kind symbol) :=
  (softReach_setStackReg h s (by decide) _).trans <|
    (softReach_setStackReg _ s (by decide) _).trans (softReach_setStackReg _ s (by decide) _)

theorem softReach_trackRow (s y : Nat) : SoftReach h (trackRow h s y) := by
  simp only [trackRow]
  split_ifs
  · exact softReach_setStackAux ..
  · exact softReach_setStackAux ..
  · exact (softReach_setStackAux ..).trans
      ((softReach_setStackReg _ s (r := 4) (by decide) _).trans (softReach_logErr _ (by simp)))

theorem softReach_checkCw (s y : Nat) : SoftReach h (checkCw h s y).2 := by
  have corrected (symbol : Nat) : SoftReach h (correctCw h s y symbol) :=
    (softReach_setStackReg h s (by decide) _).trans <| (softReach_setStackReg _ s (r := 4) (by decide) _).trans <|
      (softReach_logStackEvent ..).trans <| (softReach_trackRow ..).trans (softReach_setStackAux ..)
  have taken : SoftReach h (takePoison h s y) := by
    have marked : SoftReach h (setCwErrs (setPoison h (cwOf s y) true) (cwOf s y) []) := .of_loose rfl
    simp only [takePoison]
    split_ifs
    · exact marked
    · exact marked.trans ((softReach_setStackAux ..).trans (softReach_setStackReg _ s (r := 0x1C) (by decide) _))
  have poisoned (symbol : Nat) : SoftReach h (poisonCw h s y symbol) :=
    taken.trans <| (softReach_setStackReg _ s (r := 0x14) (by decide) _).trans <|
      (softReach_setStackReg _ s (r := 4) (by decide) _).trans <| (softReach_logStackEvent ..).trans
        (softReach_logErr _ (by simp))
  simp only [checkCw]
  split_ifs
  · exact .refl h
  · split
    · exact .refl h
    · exact corrected _
    · exact poisoned _

theorem softReach_stackRead (s y n m : Nat) : SoftReach h (stackRead h s y n m).2.2 :=
  (softReach_checkCw ..).trans (softReach_setStackAux ..)

theorem softReach_writeCw (s y : Nat) (bs : List Byte) : SoftReach h (writeCw h s y bs) := by
  have injected (g : Hw) : SoftReach g (injectErrs g s).2 := by
    unfold injectErrs
    extract_lets r pat
    split_ifs
    · exact softReach_setStackReg g s (r := 0x30) (by decide) _
    · exact .refl g
  unfold writeCw
  extract_lets cw full chk g logged sound inj coded a unwritten
  have checked : SoftReach h g := by
    unfold g chk
    split_ifs
    · exact .refl h
    · exact softReach_checkCw ..
  split_ifs
  · exact checked.trans ((softReach_logStackEvent ..).trans (softReach_logErr _ (by simp)))
  · have replaced : SoftReach g sound := .of_loose rfl
    have coded_ (g : Hw) (errs : List (Nat × Byte)) (a : StackAux) :
        SoftReach g (setStackAux (setCwErrs g cw errs) s a) := .of_loose rfl
    exact checked.trans (replaced.trans ((injected sound).trans ((coded_ ..).trans (softReach_write _ (by decide) ..))))

/-! The board caches -/

theorem softReach_setCacheAux (b : Nat) (a : CacheAux) : SoftReach h (setCacheAux h b a) := .of_loose rfl

theorem softReach_dropLines (p : Nat → Nat → Bool) : SoftReach h (dropLines h p) := .of_loose rfl

theorem softReach_allocLine (b line : Nat) : SoftReach h (allocLine h b line) := by
  simp only [allocLine]
  split
  · exact (softReach_dropLines ..).trans (softReach_setCacheAux ..)
  · exact softReach_setCacheAux ..

theorem softReach_lookLine (b line : Nat) : SoftReach h (lookLine h b line).2 := by
  simp only [lookLine]
  split
  · exact softReach_setCacheAux ..
  · split_ifs
    · exact (softReach_dropLines ..).trans
        ((SoftReach.setReg _ (softReg_board (.inl (by decide))) _).trans (softReach_setCacheAux ..))
    · exact softReach_setCacheAux ..

theorem softReach_lookNear (far : Option Nat) (line : Nat) : SoftReach h (lookNear h far line).2 := by
  cases far with
  | none => exact .refl h
  | some b => exact softReach_lookLine ..

theorem softReach_readHome (home : Bool × Hw) (s y n m : Nat) : SoftReach home.2 (readHome home s y n m).2.2 := by
  unfold readHome
  split_ifs
  · exact .refl _
  · exact softReach_stackRead ..

theorem softReach_fillLine (atHome : Bool) (copy : Option Nat) (m line : Nat) :
    SoftReach h (fillLine h atHome copy m line) := by
  have home : SoftReach h (if atHome then allocLine h m line else h) := by
    split_ifs
    · exact softReach_allocLine ..
    · exact .refl h
  have evicted (g : Hw) : SoftReach g (evictOldest g m) := by
    unfold evictOldest
    split
    · split_ifs
      · exact softReach_dropLines ..
      · exact .refl g
    · exact .refl g
  cases copy with
  | none => exact home
  | some b =>
    have filled (g : Hw) : SoftReach g (fillRemote g b m line) := by
      rw [fillRemote_eq]
      exact (evicted g).trans
        ((softReach_allocLine ..).trans ((softReach_setCacheAux ..).trans (softReach_setCacheAux ..)))
    exact home.trans (filled _)

theorem softReach_lineRead (far : Option Nat) (pa s y n : Nat) : SoftReach h (lineRead h far pa s y n).2.2 := by
  rw [lineRead_eq]
  extract_lets far near home may atHome copy r
  have looked : SoftReach h r.2.2 :=
    (softReach_lookNear ..).trans ((softReach_lookLine ..).trans (softReach_readHome ..))
  split_ifs
  · exact softReach_stackRead ..
  · exact softReach_lookNear ..
  · exact looked
  · exact looked.trans (softReach_fillLine ..)

theorem softReach_lineWrite (pa s y : Nat) (bs : List Byte) : SoftReach h (lineWrite h pa s y bs) := by
  unfold lineWrite
  extract_lets line m g g'
  have counted : SoftReach h g := (softReach_writeCw h s y bs).trans (softReach_setStackAux ..)
  have stored : SoftReach g g' := by
    unfold g'
    split_ifs
    · exact softReach_write g (by decide) ..
    · exact .refl g
  split_ifs
  · exact counted.trans (stored.trans (softReach_dropLines ..))
  · exact counted.trans stored

/-! Physical accesses -/

theorem softReach_modCmd (n : Nat) (f : Cmd → Cmd) : SoftReach h (modCmd h n f) := by
  unfold modCmd
  split
  · exact .refl h
  · exact .of_loose rfl

theorem softReach_touchStack (who : Who) (s : Nat) : SoftReach h (touchStack h who s) := by
  rw [touchStack_frame]
  exact .of_loose rfl

theorem softReach_logBoard (who : Who) (kind pa board : Nat) : SoftReach h (logBoard h who kind pa board) := by
  unfold logBoard
  refine softReach_logErr h ?_
  split <;> simp

theorem softReach_readPaPiece (who : Who) (pa n : Nat) : SoftReach h (readPaPiece h who pa n).2 := by
  unfold readPaPiece
  split
  · split_ifs
    · exact softReach_logBoard ..
    · exact .refl h
    all_goals exact (softReach_touchStack ..).trans (softReach_lineRead ..)
  · exact .refl h
  · split_ifs
    · exact .refl h
    · exact .of_loose rfl
  · exact softReach_logBoard ..

theorem softReach_readPa (who : Who) (pa n : Nat) : SoftReach h (readPa h who pa n).2 := by
  have go (ps : List (Nat × Nat)) (h : Hw) (acc : List Byte) (poison : Option Nat) :
      SoftReach h (readPa.go who h acc poison ps).2 := by
    induction ps generalizing h acc poison with
    | nil => exact .refl h
    | cons p ps ih =>
      have piece := softReach_readPaPiece h who p.1 p.2
      unfold readPa.go
      split
      · next e => rw [e] at piece; exact piece.trans (ih ..)
      · exact piece
  exact go _ h [] none

theorem softReach_writePaPiece (who : Who) (pa : Nat) (bs : List Byte) :
    SoftReach h (writePaPiece h who pa bs).2 := by
  unfold writePaPiece
  split
  · split_ifs
    · exact softReach_logBoard ..
    · exact .refl h
    · exact (softReach_touchStack ..).trans (softReach_lineWrite ..)
  · exact softReach_write h (by decide) ..
  · exact .refl h
  · exact softReach_logBoard ..

theorem softReach_writePa (who : Who) (pa : Nat) (bs : List Byte) : SoftReach h (writePa h who pa bs).2 := by
  have go (ps : List (Nat × Nat)) (h : Hw) (bs : List Byte) : SoftReach h (writePa.go who h bs ps).2 := by
    induction ps generalizing h bs with
    | nil => exact .refl h
    | cons p ps ih =>
      have piece := softReach_writePaPiece h who p.1 (bs.take p.2)
      unfold writePa.go
      split
      · next e => rw [e] at piece; exact piece.trans (ih ..)
      · exact piece
  exact go _ h bs

theorem softReach_freePa (pa n : Nat) : SoftReach h (freePa h pa n) := by
  refine SoftReach.foldl (fun g p => ?_) _ h
  split
  · exact softReach_makeFree g (by decide) ..
  · exact softReach_makeFree g (by decide) ..
  · exact .refl g

/-! The window (R210, R211, R376) -/

theorem softReach_winSpoils (x : WinAccess) : SoftReach h (winSpoils h x) :=
  .foldl (fun g _ => softReach_modCmd g ..) _ h

theorem softReach_countWin (rd wr : Nat) : SoftReach h (countWin h rd wr) := by
  have noted (x : HostAux) : SoftReach h { h with host := x } := .of_loose rfl
  exact (noted _).trans ((SoftReach.setReg _ (softReg_host (by decide)) _).trans (.setReg _ (softReg_host (by decide)) _))

theorem softReach_answerWin (bs : List Byte) (poison : Bool) : SoftReach h (answerWin h bs poison) := .of_loose rfl

variable {h} in
theorem softReach_serveOne {x : WinAccess} {g : Hw} (served : serveOne h x = some g) : SoftReach h g := by
  have drawn (k : Hw) : SoftReach k (if winRaces h x = [] then k else { k with draws := k.draws + 1 }) := by
    split_ifs
    · exact .refl k
    · exact .of_loose rfl
  unfold serveOne at served
  extract_lets rs drawn_ at served
  by_cases writes : x.op.write = true
  · rw [if_pos writes] at served
    have wrote := softReach_writePa h winWho x.pa x.bytes
    split at served
    · next e =>
      rw [e] at wrote
      cases served
      exact wrote.trans ((softReach_winSpoils ..).trans
        ((SoftReach.foldl (fun g (r : Nat × Nat) => softReach_freePa g r.1 r.2) _ _).trans
          ((drawn _).trans (softReach_countWin ..))))
    · cases served
    · next e =>
      cases served
      rw [e] at wrote
      exact wrote
  · rw [if_neg writes] at served
    have read := softReach_readPa h winWho x.pa x.len
    split at served
    · next e =>
      rw [e] at read
      cases served
      exact read.trans ((drawn _).trans ((softReach_countWin ..).trans (softReach_answerWin ..)))
    · cases served
    · next e =>
      cases served
      rw [e] at read
      exact read.trans (softReach_answerWin ..)

theorem softReach_serveWindow : SoftReach h (serveWindow h) := by
  refine SoftReach.foldl (fun g x => ?_) _ h
  split
  · next k served =>
    have one : SoftReach g k := by
      unfold serveTurn at served
      split_ifs at served
      exact softReach_serveOne served
    exact one.trans (.of_loose rfl)
  · exact .refl g

/-! Cells that leave (R300, R324) -/

theorem softReach_setPortAux (q : Nat) (a : PortAux) : SoftReach h (setPortAux h q a) := .of_loose rfl

theorem softReach_pumpPort {q : Nat} (l : q < 16) (f : Nat) : SoftReach h (pumpPort f h q) := by
  have sealed (g : Hw) (c : Cell) : SoftReach g (sealOut g q c).2 := by
    unfold sealOut
    split
    · exact .refl g
    · exact softReach_setPortAux ..
  have emitted (g : Hw) (c : Cell) : SoftReach g (emitCell g q c) :=
    (softReach_setPortAux g q _).trans (.setReg _ (softReg_port l (by decide)) _)
  induction f generalizing h with
  | zero => exact .refl h
  | succ f ih =>
    simp only [pumpPort]
    split
    · exact .refl h
    · exact (sealed ..).trans ((softReach_setPortAux ..).trans ((emitted ..).trans (ih _)))

theorem slotPort_lt (w : Word) : slotPort w < 16 := Nat.mod_lt _ (by decide)

theorem softReach_sendTo (v : CollView) (p : Partner) (c : Cell) : SoftReach h (sendTo h v p c) := by
  unfold sendTo
  split
  · exact .refl h
  · simp only [sendOnSlot, sendCell]
    split_ifs
    · exact .refl h
    · exact (softReach_setPortAux ..).trans (softReach_pumpPort _ (slotPort_lt _) _)
    · exact .refl h

theorem softReach_abortPartner (v : CollView) (a : AbortPay) (p : Partner) :
    SoftReach h (abortPartner v a h p) := by
  simp only [abortPartner]
  split
  · exact softReach_sendTo ..
  · split
    · exact (softReach_setPortAux ..).trans ((softReach_setPortAux ..).trans (softReach_sendTo ..))
    · split
      · exact .refl h
      · split_ifs
        · exact .refl h
        · exact .of_loose rfl

theorem softReach_removeColl (slot : Nat) : SoftReach h (removeColl h slot) := by
  have dropped : SoftReach h { h with colls := h.colls.filter fun c => c.slot ≠ slot } :=
    ⟨fun _ _ => rfl, fun _ => rfl, List.filter_subset_self .., rfl, rfl, rfl⟩
  exact dropped.trans (.setReg _ (.inr (.inl (by omega))) _)

end Sys2Proof.Machine
end

section
/-! PROOFS. A soft reset (R373, R455, R457, R476): O41. -/

namespace Sys2Proof.Machine

/-! Registers that return to their reset values -/

theorem smFind_filter_out {α : Type} (p : Nat → Bool) {k : Nat} (drops : p k = false) (m : List (Nat × α)) :
    smFind (m.filter fun e => p e.1) k = none := by
  induction m with
  | nil => rfl
  | cons e r ih =>
    by_cases stays : p e.1 = true
    · have other : e.1 ≠ k := fun is_ => by simp [is_, drops] at stays
      simpa [stays, smFind, other] using ih
    · simpa [stays] using ih

theorem smGet_filter_out {α : Type} {dflt : α} (p : Nat → Bool) {k : Nat} (drops : p k = false) (m : List (Nat × α)) :
    smGet dflt (m.filter fun e => p e.1) k = dflt := by
  induction m with
  | nil => rfl
  | cons e r ih =>
    by_cases stays : p e.1 = true
    · have other : e.1 ≠ k := fun is_ => by simp [is_, drops] at stays
      simpa [stays, smGet, other] using ih
    · simpa [stays] using ih

theorem getReg_resetRegs (h : Hw) (p : Nat → Bool) (o : Nat) :
    getReg (resetRegs h p) o = if p o = true then regReset o else getReg h o := by
  rw [getReg, resetRegs]
  split_ifs with hit
  · have drops : (!p o) = false := by rw [hit]; rfl
    rw [smFind_filter_out (fun k => !p k) drops, smGet_filter_out (fun k => !p k) drops]
  · have keeps : (!p o) = true := by simpa using hit
    rw [smFind_filter_key (fun k => !p k) keeps, smGet_filter_key (fun k => !p k) keeps, getReg]

/-! Nothing in flight -/

/-- No command, task, hold, collective or token is left. -/
structure Emptied (h : Hw) : Prop where
  slots : h.slots = []
  streams : h.streams = []
  holds : h.holds = []
  colls : h.colls = []
  tokens : h.tokens = []

/-- The registers that the stages of a soft reset before its restaging may write. -/
def resetReg (o : Nat) : Prop :=
  softReg o ∨ o = 0x30104C ∨ o = 0x30204C ∨ (0x100000 ≤ o ∧ o < 0x142000) ∨
  (0x170000 ≤ o ∧ o < 0x180000 ∧ ¬ (0x170120 ≤ o ∧ o < 0x17013C)) ∨ (0x1000000 ≤ o ∧ o < 0x1C00000)

/-- A stage of a soft reset: what it leaves alone. -/
structure ResetReach (h h' : Hw) : Prop where
  reg : ∀ o, ¬ resetReg o → getReg h' o = getReg h o
  flash : ∀ a, h'.mem.read .flash a = h.mem.read .flash a
  sec : h'.sec = h.sec
  pkg : h'.pkg = h.pkg
  perst : h'.pins.perst = h.pins.perst

theorem ResetReach.trans {h g k : Hw} (a : ResetReach h g) (b : ResetReach g k) : ResetReach h k :=
  ⟨fun o n => (b.reg o n).trans (a.reg o n), fun x => (b.flash x).trans (a.flash x), b.sec.trans a.sec,
    b.pkg.trans a.pkg, b.perst.trans a.perst⟩

theorem SoftReach.reset {h h' : Hw} (k : SoftReach h h') : ResetReach h h' :=
  ⟨fun o n => k.reg o fun s => n (.inl s), k.flash, k.sec, k.pkg, k.perst⟩

variable (h : Hw)

/-! Collectives and waiting accesses -/

theorem softReach_abortColl (c : Coll) : SoftReach h (removeColl (match collAt h c.slot with
    | none => h
    | some v => sendAborts h v (AbortPay.mk 3 (BitVec.ofNat 16 v.group.rank) 1 0)) c.slot) := by
  refine SoftReach.trans ?_ (softReach_removeColl ..)
  split
  · exact .refl h
  · exact .foldl (fun g p => softReach_abortPartner g _ _ p) _ h

/-- The ABORT cells leave, and no collective is live. -/
theorem abortColls_reaches : SoftReach h (abortColls h) ∧ (abortColls h).colls = [] := by
  have gone (cs : List Coll) (g : Hw) : let k := cs.foldl (fun h c => removeColl (match collAt h c.slot with
      | none => h
      | some v => sendAborts h v (AbortPay.mk 3 (BitVec.ofNat 16 v.group.rank) 1 0)) c.slot) g
      SoftReach g k ∧ ∀ x ∈ k.colls, ∀ c ∈ cs, x.slot ≠ c.slot := by
    induction cs generalizing g with
    | nil => exact ⟨.refl g, fun _ _ _ m => by cases m⟩
    | cons c cs ih =>
      have one := softReach_abortColl g c
      obtain ⟨rest, apart⟩ := ih (removeColl (match collAt g c.slot with
        | none => g
        | some v => sendAborts g v (AbortPay.mk 3 (BitVec.ofNat 16 v.group.rank) 1 0)) c.slot)
      refine ⟨one.trans rest, fun x m d there => ?_⟩
      rcases List.mem_cons.mp there with rfl | there
      · have left_ := rest.colls m
        rw [removeColl, countColls, setReg_colls, List.mem_filter] at left_
        simpa using left_.2
      · exact apart x m d there
  obtain ⟨reach, apart⟩ := gone h.colls h
  exact ⟨reach, List.eq_nil_iff_forall_not_mem.mpr fun x m => apart x m x (reach.colls m) rfl⟩

theorem softReach_freeKeys (ks : List (Nat × Nat)) : SoftReach h (freeKeys ks h) := by
  have flash := read_freeKeys_ne (tp := .flash) (by decide) ks h
  rw [freeKeys_eq] at flash ⊢
  exact ⟨fun _ _ => rfl, flash, List.Subset.refl _, rfl, rfl, rfl⟩

/-- The hardware once collectives are aborted and the window's waiting accesses are served. -/
def servedHw (h : Hw) : Hw := serveWindow { freeKeys (lentKeys h) (abortColls h) with holds := [] }

theorem servedHw_reaches : SoftReach h (servedHw h) ∧ (servedHw h).colls = [] := by
  obtain ⟨aborted, none_⟩ := abortColls_reaches h
  have freed := softReach_freeKeys (abortColls h) (lentKeys h)
  have released : SoftReach (freeKeys (lentKeys h) (abortColls h))
    { freeKeys (lentKeys h) (abortColls h) with holds := [] } := .of_loose rfl
  have rest := freed.trans (released.trans (softReach_serveWindow _))
  exact ⟨aborted.trans rest, List.subset_nil.mp (none_ ▸ rest.colls)⟩

/-! Commands -/

theorem softReach_releaseTiles (slot : Nat) : SoftReach h (releaseTiles h slot) := by
  have freed (g : Hw) (t : Nat) : SoftReach g (freeTile g t) := by
    have cleared : SoftReach g (setTileAux g t { tileAux g t with queue := [], claimed := none }) := .of_loose rfl
    exact cleared.trans <| (SoftReach.setReg _ (softReg_tile (by decide)) _).trans <|
      (SoftReach.setReg _ (softReg_tile (by decide)) _).trans (.setReg _ (softReg_board (.inr (by omega))) _)
  unfold releaseTiles
  split
  · exact .refl h
  · exact SoftReach.trans (.of_loose rfl) (.foldl freed ..)

theorem resetReach_setFault {o : Nat} (m : o = 0x30104C ∨ o = 0x30204C) (v : Word) : ResetReach h (setReg h o v) :=
  ⟨fun _ n => getReg_setReg_ne h v fun e => n (.inr (m.elim (fun x => .inl (e.trans x)) fun x => .inr (.inl (e.trans x)))),
    fun _ => rfl, rfl, rfl, rfl⟩

/-- Every command is discarded with what it held. -/
theorem discardCmds_reaches (none_ : h.colls = []) : ResetReach h (discardCmds h) ∧ Emptied (discardCmds h) := by
  have released : SoftReach h (h.slots.foldl (fun h e => releaseTiles h e.1) h) :=
    .foldl (fun g (e : Nat × Cmd) => softReach_releaseTiles g e.1) _ h
  have colls : (h.slots.foldl (fun h e => releaseTiles h e.1) h).colls = [] :=
    List.subset_nil.mp (none_ ▸ released.colls)
  unfold discardCmds
  generalize h.slots.foldl (fun h e => releaseTiles h e.1) h = g at released colls
  refine ⟨released.reset.trans (ResetReach.trans (g := { g with
    slots := [], streams := [], holds := [], tokens := [], tokenWaits := [],
    ports := (g.ports.map fun e => (e.1, { e.2 with requests := [] })).filter fun e => e.2 ≠ PortAux.reset }) ?_
    ((resetReach_setFault _ (.inl rfl) _).trans (resetReach_setFault _ (.inr rfl) _))), ⟨rfl, rfl, rfl, colls, rfl⟩⟩
  exact ⟨fun _ _ => rfl, fun _ => rfl, rfl, rfl, rfl⟩

/-! The agent -/

theorem KeepsButHost.reset {h h' : Hw} (k : KeepsButHost h h') : ResetReach h h' := by
  have low (r : Nat) (l : r < 0x100) : resetReg (rHost r) := .inl (softReg_host l)
  refine ⟨fun o n => k.reg o (fun e => n (e ▸ low _ (by decide))) fun e => n (e ▸ low _ (by decide)),
    fun a => k.mem .flash a (by decide), ?_, ?_, ?_⟩ <;> rw [k.rest]

theorem keepsButHost_agentReset (perst : Bool) : KeepsButHost h (agentReset perst h) := by
  unfold agentReset
  split_ifs
  · exact (keepsButHost_host ..).trans (keepsButHost_countAgent ..)
  · exact keepsButHost_writeBackLines ..

theorem KeepsButHost.emptied {h h' : Hw} (k : KeepsButHost h h') (e : Emptied h) : Emptied h' := by
  rw [k.rest]
  exact ⟨e.slots, e.streams, e.holds, e.colls, e.tokens⟩

/-! Tiles (R90) -/

/-- A tile is reset, and serves again. -/
def resetTile (h : Hw) (t : Nat) : Hw := tileResetDone t (tileResetHw t h)

theorem resetTiles_eq : resetTiles h = (List.range 192).foldl resetTile h := rfl

/-- A change of registers of a tile's page, of its store and of what the tile is about. -/
structure TileReach (t : Nat) (h h' : Hw) : Prop where
  reg : ∀ o, ¬ (0x1000000 + 0x10000 * t ≤ o ∧ o < 0x1000000 + 0x10000 * (t + 1)) → getReg h' o = getReg h o
  flash : ∀ a, h'.mem.read .flash a = h.mem.read .flash a
  sec : h'.sec = h.sec
  pkg : h'.pkg = h.pkg
  perst : h'.pins.perst = h.pins.perst
  emptied : Emptied h → Emptied h'

theorem TileReach.refl (t : Nat) (h : Hw) : TileReach t h h :=
  ⟨fun _ _ => rfl, fun _ => rfl, rfl, rfl, rfl, id⟩

theorem TileReach.trans {t : Nat} {h g k : Hw} (a : TileReach t h g) (b : TileReach t g k) : TileReach t h k :=
  ⟨fun o n => (b.reg o n).trans (a.reg o n), fun x => (b.flash x).trans (a.flash x), b.sec.trans a.sec,
    b.pkg.trans a.pkg, b.perst.trans a.perst, fun e => b.emptied (a.emptied e)⟩

theorem tileReach_setStatus (t : Nat) (i : Nat) (b : Bool) : TileReach t h (setRegBit h (regOf (.tile t) 4) i b) := by
  refine ⟨fun o n => getReg_setReg_ne h _ fun e => n ?_, fun _ => rfl, rfl, rfl, rfl,
    fun e => ⟨e.slots, e.streams, e.holds, e.colls, e.tokens⟩⟩
  simp only [e, regOf, baseOf]
  omega

theorem tileReach_clearTile (t : Nat) : TileReach t h (clearTile t h) := by
  have flash (a : Nat) : (clearTile t h).mem.read .flash a = h.mem.read .flash a := by
    have zeroed (m : Mem) (k n : Nat) : (m.zero .tile k n).read .flash a = m.read .flash a := by
      rw [read_zero, if_neg fun e => Space.noConfusion e.1]
    exact zeroed ..
  refine ⟨fun o n => ?_, flash, rfl, rfl, rfl, fun e => ⟨e.slots, e.streams, e.holds, e.colls, e.tokens⟩⟩
  have kept : getReg (clearTile t h) o = getReg (resetRegs h fun o => decide (regOf (.tile t) 0 ≤ o) &&
      decide (o < regOf (.tile t) 0 + 0x10000) && decide (o ≠ regOf (.tile t) 0 + 4)) o := getReg_withMem ..
  rw [kept, getReg_resetRegs, if_neg]
  intro page
  simp only [Bool.and_eq_true, decide_eq_true_eq] at page
  refine n ?_
  have base : regOf (.tile t) 0 = 0x1000000 + 0x10000 * t := by
    simp only [regOf, baseOf]
    omega
  omega

theorem tileReach_resetTile (t : Nat) : TileReach t h (resetTile h t) := by
  have done (g : Hw) : TileReach t g (tileResetDone t g) := by
    unfold tileResetDone
    dsimp only
    split_ifs
    · exact (tileReach_setStatus ..).trans (tileReach_setStatus ..)
    · exact .refl t g
  have abandoned (g : Hw) : TileReach t g (abandonUnits t g) :=
    ⟨fun _ _ => rfl, fun _ => rfl, rfl, rfl, rfl,
      fun e => ⟨by simp only [abandonUnits, e.slots, List.map_nil], e.streams, e.holds, e.colls, e.tokens⟩⟩
  have begun : TileReach t h (tileResetHw t h) := by
    unfold tileResetHw
    dsimp only
    split_ifs
    · exact tileReach_setStatus ..
    · exact (tileReach_clearTile ..).trans (abandoned _)
    · exact (tileReach_clearTile ..).trans ((abandoned _).trans
        ((tileReach_setStatus ..).trans (tileReach_setStatus ..)))
  exact begun.trans (done _)

theorem tileInReset_resetTile (t : Nat) : tileInReset (resetTile h t) t = false := by
  unfold resetTile tileResetDone
  dsimp only
  split_ifs with held
  · rw [tileInReset, regBit_setRegBit_ne _ _ _ (by decide) (by decide), regBit_setRegBit_self _ _ _ (by decide)]
  · simpa using held

/-- A tile that serves serves on through the reset of any tile. -/
theorem tileInReset_resetTile_of_serves {t : Nat} (serves : tileInReset h t = false) (u : Nat) :
    tileInReset (resetTile h u) t = false := by
  by_cases same : t = u
  · exact same ▸ tileInReset_resetTile h t
  · have kept : getReg (resetTile h u) (regOf (.tile t) 4) = getReg h (regOf (.tile t) 4) := by
      refine (tileReach_resetTile h u).reg _ ?_
      simp only [regOf, baseOf]
      omega
    rw [tileInReset, regBit, kept]
    exact serves

theorem resetTiles_reaches : ResetReach h (resetTiles h) ∧ (Emptied h → Emptied (resetTiles h)) ∧
    ∀ t < 192, tileInReset (resetTiles h) t = false := by
  have each (ts : List Nat) (small : ∀ t ∈ ts, t < 192) (g : Hw) : ResetReach g (ts.foldl resetTile g) ∧
      (Emptied g → Emptied (ts.foldl resetTile g)) ∧
      ∀ t, t ∈ ts ∨ tileInReset g t = false → tileInReset (ts.foldl resetTile g) t = false := by
    induction ts generalizing g with
    | nil =>
      refine ⟨⟨fun _ _ => rfl, fun _ => rfl, rfl, rfl, rfl⟩, id, fun t serves => serves.resolve_left ?_⟩
      exact List.not_mem_nil
    | cons u ts ih =>
      obtain ⟨reach, empty, serve⟩ := ih (fun t m => small t (.tail _ m)) (resetTile g u)
      have one := tileReach_resetTile g u
      have l := small u List.mem_cons_self
      have one_reset : ResetReach g (resetTile g u) := by
        refine ⟨fun o n => one.reg o fun page => n ?_, one.flash, one.sec, one.pkg, one.perst⟩
        exact .inr (.inr (.inr (.inr (.inr (by omega)))))
      refine ⟨one_reset.trans reach, fun e => empty (one.emptied e), fun t serves => serve t ?_⟩
      rcases serves with there | serves
      · rcases List.mem_cons.mp there with rfl | later
        · exact .inr (tileInReset_resetTile ..)
        · exact .inl later
      · exact .inr (tileInReset_resetTile_of_serves g serves u)
  obtain ⟨reach, empty, serve⟩ := each (List.range 192) (fun t => List.mem_range.mp) h
  exact ⟨reach, empty, fun t l => serve t (.inl (List.mem_range.mpr l))⟩

/-! Rings -/

/-- What a soft reset returns to reset values: ring pages and counters, and the training block but its live set. -/
def ringPage (o : Nat) : Bool :=
  (decide (0x100000 ≤ o) && decide (o < 0x142000)) ||
  (decide (0x170000 ≤ o) && decide (o < 0x180000) && !(decide (0x170120 ≤ o) && decide (o < 0x17013C)))

theorem getReg_resetRings (o : Nat) :
    getReg (resetRings h) o = if ringPage o = true then regReset o else getReg h o :=
  getReg_resetRegs h ringPage o

theorem resetRings_reaches : ResetReach h (resetRings h) ∧ (Emptied h → Emptied (resetRings h)) := by
  refine ⟨⟨fun o n => ?_, fun _ => rfl, rfl, rfl, rfl⟩, fun e => ⟨e.slots, e.streams, e.holds, e.colls, e.tokens⟩⟩
  rw [getReg_resetRings, if_neg]
  intro page
  simp only [ringPage, Bool.or_eq_true, Bool.and_eq_true, Bool.not_eq_true', decide_eq_true_eq, Bool.and_eq_false_iff,
    decide_eq_false_iff_not] at page
  refine n (.inr (.inr (.inr ?_)))
  omega

/-! Staged copies (R476) -/

/-- A run of registers may be copied to lower ones. -/
theorem getReg_copyRegs_down {src dst words : Nat} (apart : dst + 4 * words ≤ src) {i : Nat} (l : i < words) :
    getReg (copyRegs h src dst words) (dst + 4 * i) = getReg h (src + 4 * i) := by
  induction words with
  | zero => omega
  | succ n ih =>
    rw [copyRegs_succ]
    by_cases e : i = n
    · subst e
      rw [getReg_setReg_self, getReg_copyRegs_ne h fun j _ => by omega]
    · rw [getReg_setReg_ne _ _ (by omega), ih (by omega) (by omega)]

theorem copyRegs_rest (src dst words : Nat) : copyRegs h src dst words = { h with
    regs := (copyRegs h src dst words).regs, freeRegs := (copyRegs h src dst words).freeRegs } := by
  induction words with
  | zero => rfl
  | succ n ih =>
    rw [copyRegs_succ]
    generalize copyRegs h src dst n = g at ih
    rw [ih]
    rfl

/-- A run of registers ends before another begins, or the other way round. -/
def runsApart (a n b m : Nat) : Bool := decide (a + 4 * n ≤ b) || decide (b + 4 * m ≤ a)

theorem runsApart_ne {a n b m i j : Nat} (apart : runsApart a n b m = true) (li : i < n) (lj : j < m) :
    a + 4 * i ≠ b + 4 * j := by
  simp only [runsApart, Bool.or_eq_true, decide_eq_true_eq] at apart
  omega

/-- What a list of sets asks so that each staged copy becomes its live one: staged runs are apart from live runs and
from each other, each below its live run. -/
def restages (ks : List (Nat × Nat × Nat)) : Bool :=
  match ks with
  | [] => true
  | k :: ks => decide (k.1 + 4 * k.2.2 ≤ k.2.1) && restages ks &&
      ks.all fun x => runsApart x.1 x.2.2 k.1 k.2.2 && runsApart x.1 x.2.2 k.2.1 k.2.2 &&
        runsApart k.1 k.2.2 x.2.1 x.2.2

theorem keptSets_restages : restages keptSets = true := by decide +kernel

def restageAll (ks : List (Nat × Nat × Nat)) (h : Hw) : Hw := ks.foldl (fun h k => copyRegs h k.2.1 k.1 k.2.2) h

theorem restage_eq : restage h = restageAll keptSets h := rfl

variable {h} in
/-- A register that no staged run holds stays. -/
theorem getReg_restageAll_ne {ks : List (Nat × Nat × Nat)} {o : Nat} (ne : ∀ k ∈ ks, ∀ i < k.2.2, o ≠ k.1 + 4 * i) :
    getReg (restageAll ks h) o = getReg h o := by
  induction ks generalizing h with
  | nil => rfl
  | cons k ks ih =>
    exact (ih fun x m => ne x (.tail _ m)).trans (getReg_copyRegs_ne h (ne k List.mem_cons_self))

variable {h} in
/-- Each set's live copy stays and its staged copy becomes equal to it. -/
theorem getReg_restageAll {ks : List (Nat × Nat × Nat)} (sound : restages ks = true) {p : Nat × Nat × Nat}
    (m : p ∈ ks) {i : Nat} (l : i < p.2.2) :
    getReg (restageAll ks h) (p.2.1 + 4 * i) = getReg h (p.2.1 + 4 * i) ∧
    getReg (restageAll ks h) (p.1 + 4 * i) = getReg h (p.2.1 + 4 * i) := by
  induction ks generalizing h with
  | nil => cases m
  | cons k ks ih =>
    simp only [restages, Bool.and_eq_true, decide_eq_true_eq, List.all_eq_true] at sound
    obtain ⟨⟨down, rest⟩, apart⟩ := sound
    rcases List.mem_cons.mp m with rfl | later
    · have staged : getReg (restageAll ks (copyRegs h p.2.1 p.1 p.2.2)) (p.1 + 4 * i) = getReg h (p.2.1 + 4 * i) :=
        (getReg_restageAll_ne fun x there j lj => (runsApart_ne (apart x there).1.1 lj l).symm).trans
          (getReg_copyRegs_down h down l)
      have live : getReg (restageAll ks (copyRegs h p.2.1 p.1 p.2.2)) (p.2.1 + 4 * i) = getReg h (p.2.1 + 4 * i) :=
        (getReg_restageAll_ne fun x there j lj => (runsApart_ne (apart x there).1.2 lj l).symm).trans
          (getReg_copyRegs_ne h fun j lj => by omega)
      exact ⟨live, staged⟩
    · have first : getReg (copyRegs h k.2.1 k.1 k.2.2) (p.2.1 + 4 * i) = getReg h (p.2.1 + 4 * i) :=
        getReg_copyRegs_ne h fun j lj => (runsApart_ne (apart p later).2 lj l).symm
      obtain ⟨live, staged⟩ := ih rest later (h := copyRegs h k.2.1 k.1 k.2.2)
      exact ⟨live.trans first, staged.trans first⟩

/-- Restaging changes registers alone. -/
theorem restageAll_rest (ks : List (Nat × Nat × Nat)) :
    ∃ (rs : List (Nat × Word)) (fs : List (Nat × Nat)), restageAll ks h = { h with regs := rs, freeRegs := fs } := by
  refine List.foldlRecOn ks _ (motive := fun g : Hw => ∃ (rs : List (Nat × Word)) (fs : List (Nat × Nat)),
      g = { h with regs := rs, freeRegs := fs })
    ⟨h.regs, h.freeRegs, rfl⟩ fun g known k _ => ?_
  obtain ⟨rs, fs, rfl⟩ := known
  exact ⟨_, _, copyRegs_rest ..⟩

/-- No register of a kept live set is one that a soft reset writes before it restages. -/
def runKept (lo n : Nat) : Bool :=
  decide (lo + 4 * n ≤ 0x100000) || (decide (0x142000 ≤ lo) && decide (lo + 4 * n ≤ 0x170000)) ||
  (decide (0x170120 ≤ lo) && decide (lo + 4 * n ≤ 0x17013C)) ||
  (decide (0x200100 ≤ lo) && decide (lo + 4 * n ≤ 0x301040)) ||
  (decide (0x302000 ≤ lo) && decide (lo + 4 * n ≤ 0x302040)) ||
  (decide (0x400000 < lo) && decide (lo + 4 * n ≤ 0x500000)) ||
  (decide (0x504068 ≤ lo) && decide (lo + 4 * n ≤ 0x700000)) ||
  (decide (0x700080 ≤ lo) && decide (lo + 4 * n ≤ 0x700104)) ||
  (decide (0x800000 ≤ lo) && decide (lo + 4 * n ≤ 0x1000000)) ||
  (decide (0x1C00000 ≤ lo) && decide (0x400 ≤ lo % 0x10000) && decide (lo % 0x10000 + 4 * n ≤ 0x1000))

theorem keptSets_kept : ∀ p ∈ keptSets, runKept p.2.1 p.2.2 = true := by decide +kernel

theorem runKept_apart {lo n i : Nat} (kept : runKept lo n = true) (l : i < n) : ¬ resetReg (lo + 4 * i) := by
  simp only [runKept, Bool.or_eq_true, Bool.and_eq_true, decide_eq_true_eq] at kept
  simp only [resetReg, softReg]
  omega

/-! The package goes on (R449) -/

/-- The package state once all work is gone: ALARM stays, HOLD and QUIET are left, and READY is entered. -/
def softExit (h : Hw) : Hw :=
  if h.pkg = .alarm then h
  else if h.pkg = .hold ∨ h.pkg = .quiet then leaveLowPower h
  else setPower h .ready

/-- The registers that a change of the package state may write: those of the ports, PWR_STATUS and what pends of
vector 67. -/
def exitReg (o : Nat) : Prop := (0x500000 ≤ o ∧ o < 0x504000) ∨ o = 0x400000 ∨ o = 0x202008

/-- A change of the package state: what it leaves. -/
structure ExitReach (h h' : Hw) : Prop where
  reg : ∀ o, ¬ exitReg o → getReg h' o = getReg h o
  flash : ∀ a, h'.mem.read .flash a = h.mem.read .flash a
  emptied : Emptied h → Emptied h'
  rings : h'.rings = h.rings
  sec : h'.sec = h.sec
  perst : h'.pins.perst = h.pins.perst

theorem ExitReach.refl : ExitReach h h := ⟨fun _ _ => rfl, fun _ => rfl, id, rfl, rfl, rfl⟩

variable {h} in
theorem ExitReach.trans {g k : Hw} (a : ExitReach h g) (b : ExitReach g k) : ExitReach h k :=
  ⟨fun o n => (b.reg o n).trans (a.reg o n), fun x => (b.flash x).trans (a.flash x), fun e => b.emptied (a.emptied e),
    b.rings.trans a.rings, b.sec.trans a.sec, b.perst.trans a.perst⟩

theorem ExitReach.allPorts {f : Hw → Nat → Hw} (port : ∀ g q, q < 12 → ExitReach g (f g q)) :
    ExitReach h (allPorts f h) :=
  List.foldlRecOn _ f (motive := ExitReach h) (.refl h) fun g k q m => k.trans (port g q (List.mem_range.mp m))

theorem ExitReach.setReg {o : Nat} (m : exitReg o) (v : Word) : ExitReach h (setReg h o v) :=
  ⟨fun _ n => getReg_setReg_ne h v fun e => n (e ▸ m), fun _ => rfl,
    fun e => ⟨e.slots, e.streams, e.holds, e.colls, e.tokens⟩, rfl, rfl, rfl⟩

theorem exitReach_tryLock {q : Nat} (l : q < 12) : ExitReach h (tryLock h q) := by
  unfold tryLock
  split_ifs
  · exact .setReg h (.inl (by simp only [rPort, regOf, baseOf]; omega)) _
  · exact .refl h

theorem exitReach_setPower (p : PkgState) : ExitReach h (setPower h p) := by
  have entered (g : Hw) : ExitReach g (setPkg g p) := by
    rw [setPkg_frame]
    refine ⟨fun o n => ?_, fun _ => rfl, fun e => ⟨e.slots, e.streams, e.holds, e.colls, e.tokens⟩, rfl, rfl, rfl⟩
    exact (congrArg (getReg · o) (setPkg_frame g p).symm).trans (getReg_setPkg g p fun e => n (.inr (.inr e)))
  unfold setPower
  exact ExitReach.trans (.setReg h (.inr (.inl rfl)) _) (entered _)

theorem exitReach_wokenHw : ExitReach h (wokenHw h) := by
  have zeroed : ExitReach h (emptyTiles h) := by
    refine ⟨fun o _ => getReg_emptyTiles h o, fun a => ?_, fun e => ?_, ?_, ?_, ?_⟩
    · rw [read_emptyTiles, if_neg fun e => Space.noConfusion e.1]
    · rw [emptyTiles]
      exact ⟨e.slots, e.streams, e.holds, e.colls, e.tokens⟩
    all_goals rw [emptyTiles]
  unfold wokenHw
  split_ifs
  · exact zeroed.trans (.allPorts _ fun g q _ => ⟨fun _ _ => rfl, fun _ => rfl,
      fun e => ⟨e.slots, e.streams, e.holds, e.colls, e.tokens⟩, rfl, rfl, rfl⟩)
  · exact .refl h

theorem exitReach_softExit : ExitReach h (softExit h) := by
  unfold softExit
  split_ifs
  · exact .refl h
  · rw [leaveLowPower_eq]
    exact ((exitReach_wokenHw h).trans (exitReach_setPower ..)).trans (.allPorts _ fun g q l => exitReach_tryLock g l)
  · exact exitReach_setPower ..

variable {h} in
/-- With no ring enabled the package is READY, or in ALARM where it was. -/
theorem softExit_pkg (none_ : anyRingEnabled h = false) :
    (softExit h).pkg = if h.pkg = .alarm then .alarm else .ready := by
  unfold softExit
  split_ifs with alarm
  · exact alarm
  · rw [leaveLowPower_pkg, none_]
    rfl
  · exact setPower_pkg ..

theorem ringReset_off : ∀ n < 64, bit (regReset (rRingStatus n)) 0 = false := by decide +kernel

variable {h} in
/-- No ring is enabled where every ring register reads its reset value. -/
theorem anyRingEnabled_of_reset (reset : ∀ o, 0x100000 ≤ o → o < 0x142000 → getReg h o = regReset o) :
    anyRingEnabled h = false := by
  rw [anyRingEnabled, List.any_eq_false]
  intro n m
  have l := List.mem_range.mp m
  rw [ringEnabled, regBit, reset _ (by simp only [rRingStatus, rRing]; omega)
    (by simp only [rRingStatus, rRing]; omega), ringReset_off n l]
  exact Bool.false_ne_true

/-! The soft reset -/

/-- The hardware once work, tiles and rings are reset. -/
def softEmptied (c : SoftCause) (h : Hw) : Hw :=
  resetRings (resetTiles (agentReset (c = .perst) (discardCmds (servedHw h))))

/-- No request is pending any more, and the reset's kind is shown. -/
def kindShown (c : SoftCause) (g : Hw) : Hw :=
  setKind { g with power := { g.power with target := none } } (softKind c)

/-- The hardware before the package state changes. -/
def softKinded (c : SoftCause) (h : Hw) : Hw := kindShown c (restage (softEmptied c h))

/-- A package whose state a soft reset leaves alone (R456). -/
def resetIdle (h : Hw) : Prop := h.pkg = .off ∨ h.pkg = .aux ∨ h.pkg = .bringup ∨ h.pkg = .resigned

variable {h} in
theorem softHw_of_idle (c : SoftCause) (idle : resetIdle h) : softHw c h = h := if_pos idle

theorem softExit_kindShown (c : SoftCause) (g : Hw) :
    (let k := setKind { g with power := { g.power with target := none } } (softKind c)
    if k.pkg = .alarm then k
    else if k.pkg = .hold ∨ k.pkg = .quiet then leaveLowPower k
    else setPower k .ready) = softExit (kindShown c g) := rfl

variable {h} in
theorem softHw_eq (c : SoftCause) (work : ¬ resetIdle h) : softHw c h = softExit (softKinded c h) := by
  unfold resetIdle at work
  unfold softHw softKinded softEmptied servedHw
  exact (if_neg work).trans (softExit_kindShown c _)

theorem softEmptied_reaches (c : SoftCause) : ResetReach h (softEmptied c h) ∧ Emptied (softEmptied c h) ∧
    ∀ t < 192, tileInReset (softEmptied c h) t = false := by
  unfold softEmptied
  obtain ⟨served, none_⟩ := servedHw_reaches h
  obtain ⟨discarded, empty⟩ := discardCmds_reaches _ none_
  have agent := keepsButHost_agentReset (discardCmds (servedHw h)) (c = .perst)
  obtain ⟨tiles, tilesEmpty, serve⟩ := resetTiles_reaches (agentReset (c = .perst) (discardCmds (servedHw h)))
  obtain ⟨rings, ringsEmpty⟩ := resetRings_reaches
    (resetTiles (agentReset (c = .perst) (discardCmds (servedHw h))))
  refine ⟨served.reset.trans (discarded.trans (agent.reset.trans (tiles.trans rings))),
    ringsEmpty (tilesEmpty (agent.emptied empty)), fun t l => ?_⟩
  have outside : ringPage (regOf (.tile t) 4) = false := by
    have above : 0x1000000 ≤ regOf (.tile t) 4 := by
      simp only [regOf, baseOf]
      omega
    have notRing : decide (regOf (.tile t) 4 < 0x142000) = false := decide_eq_false (by omega)
    have notTrain : decide (regOf (.tile t) 4 < 0x180000) = false := decide_eq_false (by omega)
    simp only [ringPage, notRing, notTrain, Bool.and_false, Bool.false_and, Bool.or_false]
  rw [tileInReset, regBit, getReg_resetRings, outside, if_neg Bool.false_ne_true]
  exact serve t l

/-- The runs of registers that a set's copies stand apart from: those that a change of the package state or the kind
writes, those of the rings and those of the tiles. -/
def setsApartFrom : List (Nat × Nat) :=
  [(0x500000, 0x1000), (0x400000, 1), (0x202008, 1), (rRstStatus, 1), (0x100000, 0x10800), (0x1000000, 0x300000)]

theorem keptSets_apart : ∀ p ∈ keptSets, ∀ x ∈ setsApartFrom,
    runsApart p.1 p.2.2 x.1 x.2 = true ∧ (x.2 < 0x10800 → runsApart p.2.1 p.2.2 x.1 x.2 = true) := by decide +kernel


/-- The copies of a kept set stand apart from each run of `setsApartFrom`, the live one from all but rings and tiles. -/
theorem keptSets_ne {p : Nat × Nat × Nat} (m : p ∈ keptSets) {r n : Nat} (there : (r, n) ∈ setsApartFrom) {i : Nat}
    (l : i < p.2.2) {o : Nat} (lo : r ≤ o) (hi : o < r + 4 * n) :
    o ≠ p.1 + 4 * i ∧ (n < 0x10800 → o ≠ p.2.1 + 4 * i) := by
  obtain ⟨staged, live⟩ := keptSets_apart p m (r, n) there
  simp only [runsApart, Bool.or_eq_true, decide_eq_true_eq] at staged live
  omega

theorem keptSets_not_exit {p : Nat × Nat × Nat} (m : p ∈ keptSets) {i : Nat} (l : i < p.2.2) {o : Nat}
    (is_ : o = p.1 + 4 * i ∨ o = p.2.1 + 4 * i) : ¬ exitReg o ∧ o ≠ rRstStatus := by
  have apart {r n : Nat} (there : (r, n) ∈ setsApartFrom) (small : n < 0x10800) : ¬ (r ≤ o ∧ o < r + 4 * n) := by
    rintro ⟨lo, hi⟩
    obtain ⟨staged, live⟩ := keptSets_ne m there l lo hi
    exact is_.elim staged (live small)
  have port := apart (r := 0x500000) (n := 0x1000) (by decide) (by decide)
  have power := apart (r := 0x400000) (n := 1) (by decide) (by decide)
  have pends := apart (r := 0x202008) (n := 1) (by decide) (by decide)
  have kind := apart (r := rRstStatus) (n := 1) (by decide) (by decide)
  refine ⟨?_, fun e => kind (by omega)⟩
  simp only [exitReg]
  omega

/-- What a soft reset leaves of a package in work. -/
structure SoftDone (h : Hw) (kind : Nat) (h' : Hw) : Prop where
  emptied : Emptied h'
  ringRegs : ∀ o, 0x100000 ≤ o → o < 0x142000 → getReg h' o = regReset o
  rings : h'.rings = []
  tiles : ∀ t < 192, tileInReset h' t = false
  kind : regFld h' rRstStatus 31 24 = kind
  sec : h'.sec = h.sec
  flash : ∀ a, h'.mem.read .flash a = h.mem.read .flash a
  kept : ∀ p ∈ keptSets, ∀ i < p.2.2, getReg h' (p.2.1 + 4 * i) = getReg h (p.2.1 + 4 * i) ∧
    getReg h' (p.1 + 4 * i) = getReg h (p.2.1 + 4 * i)
  pkg : h'.pkg = if h.pkg = .alarm then .alarm else .ready

theorem getReg_kindShown (c : SoftCause) {o : Nat} (kind : o ≠ rRstStatus) :
    getReg (kindShown c h) o = getReg h o := by
  unfold kindShown
  exact getReg_setReg_ne _ _ kind

/-- Showing the kind leaves all but one register and the request for a power state. -/
theorem kindShown_rest (c : SoftCause) : (Emptied h → Emptied (kindShown c h)) ∧ (kindShown c h).rings = h.rings ∧
    (kindShown c h).sec = h.sec ∧ (kindShown c h).mem = h.mem ∧ (kindShown c h).pkg = h.pkg ∧
    (kindShown c h).pins = h.pins :=
  ⟨fun e => ⟨e.slots, e.streams, e.holds, e.colls, e.tokens⟩, rfl, rfl, rfl, rfl, rfl⟩

theorem resetRings_rings : (resetRings h).rings = [] := rfl

theorem getReg_softKinded (c : SoftCause) {o : Nat} (kind : o ≠ rRstStatus) :
    getReg (softKinded c h) o = getReg (restage (softEmptied c h)) o := by
  rw [softKinded, getReg_kindShown _ c kind]

theorem restage_keeps (g : Hw) : (Emptied g → Emptied (restage g)) ∧ (restage g).rings = g.rings ∧
    (restage g).sec = g.sec ∧ (restage g).mem = g.mem ∧ (restage g).pkg = g.pkg ∧ (restage g).pins = g.pins := by
  obtain ⟨rs, fs, restaged⟩ := restageAll_rest g keptSets
  rw [restage_eq, restaged]
  exact ⟨fun e => ⟨e.slots, e.streams, e.holds, e.colls, e.tokens⟩, rfl, rfl, rfl, rfl, rfl⟩

theorem softKinded_rest (c : SoftCause) : (Emptied (softEmptied c h) → Emptied (softKinded c h)) ∧
    (softKinded c h).rings = [] ∧ (softKinded c h).sec = (softEmptied c h).sec ∧
    (softKinded c h).mem = (softEmptied c h).mem ∧ (softKinded c h).pkg = (softEmptied c h).pkg ∧
    (softKinded c h).pins = (softEmptied c h).pins := by
  have none_ : (softEmptied c h).rings = [] := by rw [softEmptied, resetRings_rings]
  obtain ⟨empty, rings, sec, mem, pkg, pins⟩ := kindShown_rest (restage (softEmptied c h)) c
  obtain ⟨empty', rings', sec', mem', pkg', pins'⟩ := restage_keeps (softEmptied c h)
  rw [softKinded]
  exact ⟨fun e => empty (empty' e), rings.trans (rings'.trans none_), sec.trans sec', mem.trans mem', pkg.trans pkg',
    pins.trans pins'⟩

theorem softKinded_ringRegs (c : SoftCause) {o : Nat} (lo : 0x100000 ≤ o) (hi : o < 0x142000) :
    getReg (softKinded c h) o = regReset o := by
  have restaged : getReg (restage (softEmptied c h)) o = getReg (softEmptied c h) o := by
    rw [restage_eq]
    exact getReg_restageAll_ne fun p m i l =>
      (keptSets_ne m (r := 0x100000) (n := 0x10800) (by decide) l lo (by omega)).1
  have page : ringPage o = true := by
    rw [ringPage, decide_eq_true lo, decide_eq_true hi]
    rfl
  rw [getReg_softKinded h c (by rw [rRstStatus, regOf, baseOf]; omega), restaged, softEmptied, getReg_resetRings, if_pos page]

theorem softHw_done (c : SoftCause) (work : ¬ resetIdle h) : SoftDone h (softKind c) (softHw c h) := by
  obtain ⟨reach, empty, serve⟩ := softEmptied_reaches h c
  obtain ⟨emptied, rings, sec, mem, pkg, -⟩ := softKinded_rest h c
  have exits := exitReach_softExit (softKinded c h)
  have ringRegs {o : Nat} (lo : 0x100000 ≤ o) (hi : o < 0x142000) := softKinded_ringRegs h c lo hi
  have off := anyRingEnabled_of_reset fun o lo hi => ringRegs lo hi
  have before {o : Nat} (kind : o ≠ rRstStatus) (exit_ : ¬ exitReg o) :
      getReg (softExit (softKinded c h)) o = getReg (restage (softEmptied c h)) o :=
    (exits.reg o exit_).trans (getReg_softKinded h c kind)
  rw [softHw_eq c work]
  refine ⟨exits.emptied (emptied empty), fun o lo hi => ?_, exits.rings.trans rings, fun t l => ?_, ?_,
    exits.sec.trans (sec.trans reach.sec), fun a => ?_, fun p m i l => ?_, ?_⟩
  · exact (exits.reg o (by simp only [exitReg]; omega)).trans (ringRegs lo hi)
  · have page : 0x1000000 ≤ regOf (.tile t) 4 ∧ regOf (.tile t) 4 < 0x1C00000 := by
      simp only [regOf, baseOf]
      omega
    have restaged : getReg (restage (softEmptied c h)) (regOf (.tile t) 4) =
        getReg (softEmptied c h) (regOf (.tile t) 4) := by
      rw [restage_eq]
      exact getReg_restageAll_ne fun p m i li =>
        (keptSets_ne m (r := 0x1000000) (n := 0x300000) (by decide) li page.1 (by omega)).1
    have kind : regOf (.tile t) 4 ≠ rRstStatus := by
      have e : rRstStatus = 0x700108 := rfl
      omega
    rw [tileInReset, regBit, before kind (by simp only [exitReg]; omega), restaged]
    exact serve t l
  · have apart : ¬ exitReg rRstStatus := by
      simp only [exitReg, rRstStatus, regOf, baseOf]
      omega
    have small : softKind c < 256 := by cases c <;> simp only [softKind] <;> decide
    rw [regFld, exits.reg _ apart]
    exact resetKind_setKind _ small
  · rw [exits.flash, mem]
    exact reach.flash a
  · obtain ⟨live, staged⟩ := getReg_restageAll (h := softEmptied c h) keptSets_restages m l
    have same := reach.reg _ (runKept_apart (keptSets_kept p m) l)
    obtain ⟨liveExit, liveKind⟩ := keptSets_not_exit m l (.inr rfl)
    obtain ⟨stagedExit, stagedKind⟩ := keptSets_not_exit m l (.inl rfl)
    rw [before liveKind liveExit, before stagedKind stagedExit, restage_eq]
    exact ⟨live.trans same, staged.trans same⟩
  · rw [softExit_pkg off, pkg, reach.pkg]

theorem softHw_perst (c : SoftCause) : (softHw c h).pins.perst = h.pins.perst := by
  by_cases idle : resetIdle h
  · rw [softHw_of_idle c idle]
  · obtain ⟨reach, -, -⟩ := softEmptied_reaches h c
    obtain ⟨-, -, -, -, -, pins⟩ := softKinded_rest h c
    rw [softHw_eq c idle, (exitReach_softExit _).perst, pins, reach.perst]

theorem getReg_linkDown_ne {o : Nat} (ne : o ≠ rHostLink) : getReg (linkDown h) o = getReg h o := by
  exact getReg_setReg_ne h 0 ne

theorem keptSets_not_hostLink : ∀ p ∈ keptSets, runsApart p.1 p.2.2 rHostLink 1 = true ∧
    runsApart p.2.1 p.2.2 rHostLink 1 = true := by decide +kernel

variable {h} in
/-- The link that goes down after a soft reset leaves all that the reset left. -/
theorem SoftDone.linkDown {kind : Nat} {h' : Hw} (d : SoftDone h kind h') : SoftDone h kind (linkDown h') := by
  have tile (t : Nat) : tileInReset (Machine.linkDown h') t = tileInReset h' t := by
    rw [tileInReset, tileInReset, regBit, regBit, getReg_linkDown_ne h' (by simp only [rHostLink, regOf, baseOf]; omega)]
  refine ⟨⟨d.emptied.slots, d.emptied.streams, d.emptied.holds, d.emptied.colls, d.emptied.tokens⟩, fun o lo hi => ?_,
    d.rings, fun t l => (tile t).trans (d.tiles t l), ?_, d.sec, d.flash, fun p m i l => ?_, d.pkg⟩
  · rw [getReg_linkDown_ne h' (by rw [rHostLink]; omega)]
    exact d.ringRegs o lo hi
  · rw [regFld, getReg_linkDown_ne h' (by decide)]
    exact d.kind
  · obtain ⟨staged, live⟩ := keptSets_not_hostLink p m
    rw [getReg_linkDown_ne h' (runsApart_ne (j := 0) live l Nat.one_pos),
      getReg_linkDown_ne h' (runsApart_ne (j := 0) staged l Nat.one_pos)]
    exact d.kept p m i l

/-- The hardware with PERST_N asserted. -/
def perstLow (h : Hw) : Hw := { h with pins := { h.pins with perst := true } }

variable {h} in
theorem perstHw_of_soft (f : Fuses) (obs : BringUpObs) (high : h.pins.perst = false)
    (soft : regBit h (regOf .err 0x104) 0 = true) :
    perstHw f true obs h = linkDown (softHw .perst (perstLow h)) := by
  have held : regBit (perstLow h) (regOf .err 0x104) 0 = true := soft
  have fresh : ¬ (!(true && !h.pins.perst)) = true := by rw [high]; decide
  unfold perstHw
  exact (if_neg fresh).trans (if_pos held)

variable {h} in
theorem SoftDone.of_perstLow {kind : Nat} {h' : Hw} (d : SoftDone (perstLow h) kind h') :
    SoftDone h kind h' :=
  ⟨d.emptied, d.ringRegs, d.rings, d.tiles, d.kind, d.sec, d.flash, d.kept, d.pkg⟩

/-- Settles O41: `softHw_done` for each of the three causes; the assertion of PERST_N also brings the host link down. -/
theorem softResetDiscardsWork : Obligations.SoftResetDiscardsWork := by
  intro s w obs idle done
  have parts {kind : Nat} {h' : Hw} (d : SoftDone s.hw kind h') : done kind h' :=
    ⟨d.emptied.slots, d.emptied.streams, d.emptied.holds, d.emptied.colls, d.emptied.tokens, d.ringRegs, d.rings,
      d.tiles, d.kind, d.sec, d.flash, d.kept, fun e => d.pkg.trans (if_pos e), fun n => d.pkg.trans (if_neg n)⟩
  refine ⟨fun a => ⟨fun still => ?_, fun work => ?_⟩, fun down => ?_, fun up work => ?_, fun work => ?_,
    fun work high soft => ?_, ?_⟩
  · have asked : effect (.softReset (.rstCtrl w)) s (softHw (.rstCtrl w) s.hw) :=
      effect_of_acts (f := softHw (.rstCtrl w)) rfl a
    rwa [softHw_of_idle _ still] at asked
  · exact ⟨_, effect_of_acts (f := softHw (.rstCtrl w)) rfl a, parts (softHw_done s.hw (.rstCtrl w) work)⟩
  · have came : effect .functionLevelReset s (flrHw s.hw) := effect_of_onHw (f := flrHw) rfl
    rwa [flrHw, if_neg (by rw [down]; exact Bool.false_ne_true)] at came
  · have came : effect .functionLevelReset s (flrHw s.hw) := effect_of_onHw (f := flrHw) rfl
    rw [flrHw, if_pos up] at came
    exact ⟨_, came, parts (softHw_done s.hw .flr work)⟩
  · exact ⟨_, effect_of_onHw (f := softHw .flr) rfl, parts (softHw_done s.hw .flr work)⟩
  · have asserted : effect (.perstN true obs) s (perstHw s.fuses true obs s.hw) := effect_of_onHw rfl
    rw [perstHw_of_soft s.fuses obs high soft] at asserted
    have reset := (softHw_done (perstLow s.hw) .perst work).linkDown
    exact ⟨_, asserted, parts reset.of_perstLow, getReg_linkDown _, softHw_perst (perstLow s.hw) .perst⟩
  · exact ⟨_, effect_of_onHw (f := perstHw s.fuses false obs) rfl, rfl⟩

end Sys2Proof.Machine
end

section
/-! PROOFS. What the end of commands and the loss of a stack leave of the package state. -/

namespace Sys2Proof.Machine

/-- The package state, the step last completed and the start in progress. -/
def startOf (h : Hw) : PkgState × Nat × Option (BringUpObs × Bool) := (h.pkg, h.bringStep, h.starting)

/-- A change that leaves the package state and the start in progress alone. -/
structure KeepsStart (h h' : Hw) : Prop where
  same : startOf h' = startOf h

theorem KeepsStart.refl (h : Hw) : KeepsStart h h := ⟨rfl⟩

theorem KeepsStart.trans {h g k : Hw} (a : KeepsStart h g) (b : KeepsStart g k) : KeepsStart h k := ⟨b.same.trans a.same⟩

theorem KeepsStart.foldl {α : Type} {f : Hw → α → Hw} (step : ∀ h x, KeepsStart h (f h x)) (xs : List α) (h : Hw) :
    KeepsStart h (xs.foldl f h) :=
  List.foldlRecOn xs f (motive := KeepsStart h) (.refl h) fun g k x _ => k.trans (step g x)

theorem KeepsStart.pkg {h h' : Hw} (k : KeepsStart h h') : h'.pkg = h.pkg := congrArg Prod.fst k.same

theorem KeepsStart.bringStep {h h' : Hw} (k : KeepsStart h h') : h'.bringStep = h.bringStep :=
  congrArg (fun x => x.2.1) k.same

theorem KeepsStart.starting {h h' : Hw} (k : KeepsStart h h') : h'.starting = h.starting :=
  congrArg (fun x => x.2.2) k.same

theorem KeepsStart.of_work {h h' : Hw} (e : h' = withWorkOf h h') : KeepsStart h h' :=
  ⟨by rw [e]; rfl⟩

theorem WorkReach.start {h h' : Hw} (k : WorkReach h h') : KeepsStart h h' := .of_work k.rest

theorem MirrorReach.start {h h' : Hw} (k : MirrorReach h h') : KeepsStart h h' := .of_work k.rest

variable (h : Hw)

theorem keepsStart_setReg (o : Nat) (v : Word) : KeepsStart h (setReg h o v) := ⟨rfl⟩

theorem keepsStart_setRegBit (o i : Nat) (b : Bool) : KeepsStart h (setRegBit h o i b) := ⟨rfl⟩

theorem keepsStart_setRegFld (o hi lo v : Nat) : KeepsStart h (setRegFld h o hi lo v) := ⟨rfl⟩

theorem keepsStart_setStackAux (s : Nat) (a : StackAux) : KeepsStart h (setStackAux h s a) := ⟨rfl⟩

theorem keepsStart_setCacheAux (b : Nat) (a : CacheAux) : KeepsStart h (setCacheAux h b a) := ⟨rfl⟩

theorem keepsStart_setCmd (slot : Nat) (c : Cmd) : KeepsStart h (setCmd h slot c) := ⟨rfl⟩

theorem keepsStart_setRingAux (n : Nat) (a : RingAux) : KeepsStart h (setRingAux h n a) := ⟨rfl⟩

theorem keepsStart_setCwErrs (w : Nat) (es : List (Nat × Byte)) : KeepsStart h (setCwErrs h w es) := ⟨rfl⟩

theorem keepsStart_lanes (ls : List (Nat × LaneRepair)) : KeepsStart h { h with lanes := ls } := ⟨rfl⟩

theorem keepsStart_withMem (m : Mem) : KeepsStart h { h with mem := m } := ⟨rfl⟩

theorem keepsStart_sendMsix (v : Nat) : KeepsStart h (sendMsix h v) := by
  unfold sendMsix
  split_ifs <;> exact ⟨rfl⟩

theorem keepsStart_logErr {e : ErrEvent} (l : e.severity ≤ 4) : KeepsStart h (logErr h e) := (workReach_logErr h l).start

/-! Records -/

theorem keepsStart_fencedHw (slot : Nat) (c : Cmd) : KeepsStart h (fencedHw h slot c) := by
  unfold fencedHw
  split_ifs
  · exact .refl h
  · cases at_ : cmdAt h slot with
    | none =>
      rw [fenceActions, at_]
      exact .refl h
    | some c =>
      exact ⟨by rw [(keepsButFence_fenceActions at_).rest]; rfl⟩

theorem keepsStart_haltRing (n code : Nat) : KeepsStart h (haltRing h n code) :=
  (keepsStart_setRegBit ..).trans ((keepsStart_setRegFld ..).trans (keepsStart_sendMsix _ 65))

theorem keepsStart_postRecord (n : Nat) (bs : List Byte) : KeepsStart h (postRecord h n bs).2 := by
  unfold postRecord
  split_ifs
  · exact .refl h
  · extract_lets a
    have stored := (mirrorReach_ringWrite h (ringWorld h n) (bit (ringCfg h n) 29) a bs).start
    generalize ringWrite h (ringWorld h n) (bit (ringCfg h n) 29) a bs = r at stored ⊢
    obtain ⟨code, g⟩ := r
    cases code with
    | none => exact stored.trans (keepsStart_setReg ..)
    | some code =>
      dsimp only
      split_ifs
      · exact stored
      · exact stored.trans ((keepsStart_setRingAux ..).trans (keepsStart_haltRing ..))

theorem keepsStart_afterRecord (slot n : Nat) (c : Cmd) : KeepsStart h (afterRecord h slot n c) := by
  have closed : KeepsStart h (closesStep h c) := by
    unfold closesStep
    split_ifs <;> exact ⟨rfl⟩
  have signalled (g : Hw) : KeepsStart g (signalOf g c) := by
    unfold signalOf
    split_ifs <;> exact ⟨rfl⟩
  have told (g : Hw) : KeepsStart g (completionIrq g n c) := by
    unfold completionIrq
    split_ifs
    · exact keepsStart_sendMsix ..
    · exact .refl g
  have halted (g : Hw) : KeepsStart g (haltOnError g c) := by
    unfold haltOnError
    split_ifs
    · exact keepsStart_haltRing ..
    · exact .refl g
  have released (g : Hw) : KeepsStart g (releaseTiles g slot) := by
    unfold releaseTiles
    split
    · exact .refl g
    · exact (keepsStart_setCmd ..).trans (.foldl (fun k t => (workReach_freeTile k t).start) _ _)
  have freed (g : Hw) : KeepsStart g (freeSlot g slot) := (released g).trans ⟨rfl⟩
  have granted (g : Hw) : KeepsStart g (grantAll g) := by
    obtain ⟨t, w, e⟩ := grantAll_frame g
    exact ⟨by rw [e]; rfl⟩
  exact closed.trans <| (signalled _).trans <| (told _).trans <| (halted _).trans <| (freed _).trans (granted _)

/-- A final record, and the window accesses that it lets go on, leave the package state. -/
theorem writeFinal_pkg (slot : Nat) : (writeFinal h slot).2.pkg = h.pkg := by
  cases at_ : cmdAt h slot with
  | none => rw [writeFinal, at_]
  | some c =>
    rw [writeFinal_of_some at_]
    extract_lets g c1
    have fenced := (keepsStart_fencedHw h slot c).pkg
    have posted := (keepsStart_postRecord g c1.target
      (recordBytes g c1.target c1 true c1.status.toNat c1.detail0 c1.detail1)).pkg
    generalize postRecord g c1.target (recordBytes g c1.target c1 true c1.status.toNat c1.detail0 c1.detail1) = r at posted
    obtain ⟨done, k⟩ := r
    cases done with
    | false => exact posted.trans fenced
    | true => exact (softReach_serveWindow _).pkg.trans ((keepsStart_afterRecord ..).pkg.trans (posted.trans fenced))

theorem writeOne_pkg (e : DueRecord) : (writeOne h e).2.pkg = h.pkg := by
  unfold writeOne
  split
  · rfl
  · exact (keepsStart_postRecord ..).pkg
  · exact writeFinal_pkg ..

theorem writeList_pkg (kept es : List DueRecord) : (writeList h kept es).pkg = h.pkg := by
  induction es generalizing h kept with
  | nil => rfl
  | cons e es ih =>
    rw [writeList]
    split_ifs
    · exact ih ..
    · have one := writeOne_pkg h e
      generalize writeOne h e = r at one
      obtain ⟨done, g⟩ := r
      cases done <;> exact (ih ..).trans one

theorem writeDue_pkg : (writeDue h).pkg = h.pkg := writeList_pkg ..

/-! The loss of a stack (R188) -/

theorem keepsStart_dropColls : KeepsStart h (dropColls h) := by
  refine .foldl (fun g c => ?_) _ h
  split
  · exact (workReach_removeColl ..).start
  · exact ((workReach_spoil ..).trans ((workReach_spoil ..).trans (workReach_removeColl ..))).start

theorem keepsStart_leavePorts (serial : Quad) (type : Nat) : KeepsStart h (leavePorts h serial type) := by
  have port (g : Hw) (q : Nat) (c : Cell) :
      WorkReach g (if portRuns g q then (List.range 4).foldl (fun h _ => emitCell h q c) g else g) := by
    split_ifs
    · exact .foldl (fun g _ => workReach_emitCell g q c) _ _
    · exact .refl g
  exact .foldl (fun g q => ((port g q (blankCell type (.serial serial))).trans (workReach_darkenPort ..)).start) _ h

theorem stackLostRecord_pkg (s slot : Nat) : (stackLostRecord s h slot).pkg = h.pkg := by
  have spoiled : KeepsStart h (spoilOutputs h slot) := by
    unfold spoilOutputs
    split
    · exact .refl h
    · exact (workReach_spoil ..).start
  have ready (g : Hw) : (finalReady g slot).pkg = g.pkg := by
    unfold finalReady
    split_ifs <;> rfl
  rw [stackLostRecord, writeDue_pkg, ready, (workReach_finish ..).start.pkg, spoiled.pkg]

theorem keepsStart_markLost (s : Nat) : KeepsStart h (markLost h s) :=
  (keepsStart_setRegBit ..).trans (keepsStart_setRegBit ..)

variable {h} in
/-- A running package that loses stacks resigns. -/
theorem loseStack_pkg (up : h.pkg = .bringup) (serial : Quad) (s : Nat) : (loseStack serial s h).pkg = .resigned := by
  have users (us : List Nat) (g : Hw) : (us.foldl (stackLostRecord s) g).pkg = g.pkg :=
    List.foldlRecOn us _ (motive := fun k => k.pkg = g.pkg) rfl fun k e u _ => (stackLostRecord_pkg k s u).trans e
  have kept : ((usersOf (markLost h s) s).foldl (stackLostRecord s) (leavePorts (dropColls (markLost h s)) serial 13)).pkg
      = .bringup := by
    rw [users, (keepsStart_leavePorts ..).pkg, (keepsStart_dropColls _).pkg, (keepsStart_markLost h s).pkg, up]
  unfold loseStack
  rw [if_neg (by simp [up])]
  exact resign_pkg (by rw [kept]; decide) (by rw [kept]; decide) serial

variable {h} in
theorem loseStacks_pkg (up : h.pkg = .bringup) (serial : Quad) (s : Nat) (ss : List Nat) :
    (loseStacks serial (s :: ss) h).pkg = .resigned := by
  have marked : ((s :: ss).foldl markLost h).pkg = .bringup :=
    (KeepsStart.foldl keepsStart_markLost (s :: ss) h).pkg.trans up
  exact loseStack_pkg marked serial s

end Sys2Proof.Machine
end

section
/-! PROOFS. The step of an empty queue: a waiting write, a start in progress, or idling (R383, R440, R450): O6. -/

namespace Sys2Proof.Machine

variable (h : Hw)

/-! What the steps of a start do besides counting -/

theorem keepsStart_laneTest (f : Fuses) (obs : BringUpObs) : KeepsStart h (laneTest f obs h) := by
  have link (g : Hw) (l : Nat) : KeepsStart g (testLink f obs g l) := by
    unfold testLink
    extract_lets out halves used spares counted repaired
    have mended : KeepsStart counted repaired := .foldl (fun k x => by dsimp only; split_ifs <;> exact ⟨rfl⟩) _ _
    have set_ : KeepsStart g counted := keepsStart_setReg ..
    exact set_.trans (mended.trans (.foldl (fun k _ => keepsStart_logErr k (by simp)) _ _))
  exact (keepsStart_lanes h []).trans (.foldl link _ _)

theorem keepsStart_negotiate : KeepsStart h (negotiate h) := by
  have set_ (g : Hw) (rel v : Nat) : KeepsStart g (setOpset g rel v) := .foldl (fun k _ => keepsStart_setReg k _ _) _ g
  unfold negotiate
  extract_lets ds tiles pawns rated fed
  have counted : KeepsStart h fed := (keepsStart_setReg ..).trans (keepsStart_setReg ..)
  exact counted.trans <| (set_ ..).trans <| (set_ ..).trans <| (set_ ..).trans (set_ ..)

theorem keepsStart_tryLock (q : Nat) : KeepsStart h (tryLock h q) := by
  unfold tryLock
  split_ifs <;> exact ⟨rfl⟩

theorem keepsStart_lockPorts : KeepsStart h (allPorts tryLock h) := .foldl keepsStart_tryLock _ h

/-- The function is unfolded under its binders: unfolded in the goal, its match would have the kernel compute a digest. -/
theorem keepsStart_reapply (s : Nat) : KeepsStart h (reapply h s) := by
  generalize own : reapply = f
  delta reapply at own
  rw [← own]
  beta_reduce
  generalize flashList h s = saved
  cases saved with
  | none => exact keepsStart_logErr h (by simp)
  | some es => exact (keepsStart_setStackAux ..).trans (keepsStart_setReg ..)

theorem keepsStart_checkRow (s y : Nat) : KeepsStart h (checkRow h s y) :=
  .foldl (fun g i => (mirrorReach_checkCw g s (y + 64 * i)).start) _ h

theorem keepsStart_copyRow (s : Nat) (ws : List Nat) : KeepsStart h (copyRow h s ws) := by
  have cleared : KeepsStart h (ws.foldl (fun h w => setCwErrs h w []) h) :=
    .foldl (f := fun h w => setCwErrs h w []) (fun g w => keepsStart_setCwErrs g w []) ws h
  unfold copyRow
  generalize ws.foldl (fun h w => setCwErrs h w []) h = g at cleared
  cases ws with
  | nil => exact cleared
  | cons w ws =>
    have injected := cleared.trans (mirrorReach_injectErrs g s).start
    dsimp only
    split_ifs
    · exact injected
    · exact injected.trans (keepsStart_setCwErrs ..)

theorem keepsStart_logStackEvent (s y kind symbol : Nat) : KeepsStart h (logStackEvent h s y kind symbol) :=
  (workReach_logStackEvent h s y kind symbol).start

theorem keepsStart_remapRow (s kind pc bank row : Nat) : KeepsStart h (remapRow h s kind pc bank row) := by
  unfold remapRow
  extract_lets k y aux cleared shown words moved a o
  clear_value y
  split
  · have clears : KeepsStart h cleared := keepsStart_setStackAux ..
    have told : KeepsStart cleared shown := (keepsStart_logStackEvent ..).trans (keepsStart_setRegBit ..)
    exact (clears.trans told).trans (keepsStart_logErr shown (by simp))
  · extract_lets e remapped counted logged
    have kept : KeepsStart h moved := (keepsStart_checkRow ..).trans (keepsStart_copyRow ..)
    have counts : KeepsStart moved counted := (keepsStart_setStackAux ..).trans (keepsStart_setRegFld ..)
    have told : KeepsStart counted logged := keepsStart_logStackEvent ..
    exact ((kept.trans counts).trans told).trans (keepsStart_logErr logged (by simp))

theorem keepsStart_remapPending (s : Nat) : KeepsStart h (remapPending h s) := by
  unfold remapPending
  extract_lets rows aux cleared
  have clears : KeepsStart h cleared := keepsStart_setStackAux ..
  exact clears.trans (.foldl (fun g k => keepsStart_remapRow g ..) rows cleared)

/-- Unfolded like `reapply`, since the page's copy is found by its digest. -/
theorem keepsStart_loadAgePage : KeepsStart h (loadAgePage h) := by
  generalize own : loadAgePage = f
  delta loadAgePage at own
  rw [← own]
  beta_reduce
  generalize [0xA000, 0xB000].find? (fun a => pageDigestOk (readPage h a)) = copy
  cases copy with
  | none => exact .refl h
  | some a => exact .foldl (fun g d => keepsStart_setReg g _ _) _ h

theorem keepsStart_evaluateAge (atStart : Bool) (need : List (DieId × Nat)) : KeepsStart h (evaluateAge atStart need h) := by
  have die (g : Hw) (d n : Nat) : KeepsStart g (ageDie atStart g d n) := by
    unfold ageDie
    extract_lets old want new set_ aux noted shown
    have notes : KeepsStart g noted := (keepsStart_setReg g (rAge d) (BitVec.ofNat 32 new)).trans ⟨rfl⟩
    have marked : KeepsStart noted shown := by
      unfold shown
      split_ifs
      · exact .refl noted
      · exact (keepsStart_setRegBit ..).trans (keepsStart_setRegFld ..)
    split_ifs
    · exact (notes.trans marked).trans (keepsStart_logErr shown (by simp))
    · exact notes
  have saved (g : Hw) : KeepsStart g (saveAgePage g) := keepsStart_withMem ..
  refine KeepsStart.trans (.foldl (fun g d => ?_) (List.range 12) h) (saved _)
  split
  · exact .refl g
  · exact die ..

/-- A change that leaves the start alone, or at whose end the package has resigned. -/
def KeepsOrResigns (h h' : Hw) : Prop := KeepsStart h h' ∨ h'.pkg = .resigned

variable {h} in
theorem resign_of_bringup (up : h.pkg = .bringup) (serial : Quad) : (resign serial h).pkg = .resigned :=
  resign_pkg (by rw [up]; decide) (by rw [up]; decide) serial

variable {h} in
theorem initStacks_start (up : h.pkg = .bringup) (f : Fuses) (obs : BringUpObs) : KeepsOrResigns h (initStacks f obs h) := by
  unfold initStacks
  cases obs.badStacks with
  | nil =>
    have stack (g : Hw) (s : Nat) :
        KeepsStart g (setRegBit (remapPending (reapply g s) s) (regOf (.stack s) 4) 0 true) :=
      (keepsStart_reapply ..).trans ((keepsStart_remapPending ..).trans (keepsStart_setRegBit ..))
    have emptied (g : Hw) : KeepsStart g { g with mem := { g.mem with hbm := [] }, poison := [], symErrs := [] } := ⟨rfl⟩
    exact .inl ((KeepsStart.foldl stack (List.range 24) h).trans (emptied _))
  | cons s ss => exact .inr (loseStacks_pkg up f.serial s.val (ss.map Fin.val))

variable {h} in
theorem selfTest_start (up : h.pkg = .bringup) (f : Fuses) (obs : BringUpObs) : KeepsOrResigns h (selfTest f obs h) := by
  unfold selfTest
  extract_lets begun bad tiles boards
  split_ifs
  · exact .inr (resign_of_bringup (h := begun) up f.serial)
  · have failed : KeepsStart begun tiles := .foldl (fun g t => ((keepsStart_setRegBit ..).trans
      (keepsStart_setRegBit ..)).trans (keepsStart_logErr _ (by simp))) bad begun
    have boarded : KeepsStart tiles boards := .foldl (fun g b => (((keepsStart_setRegBit ..).trans
      (keepsStart_setRegBit ..)).trans (keepsStart_setCacheAux ..)).trans (keepsStart_logErr _ (by simp))) _ tiles
    exact .inl ((keepsStart_setRegBit ..).trans (failed.trans (boarded.trans (keepsStart_setRegFld ..))))

/-! The steps of a start -/

/-- The start has gone on to step n, or the package has resigned. -/
def Stepped (h : Hw) (n : Nat) (h' : Hw) : Prop :=
  (h'.pkg = .bringup ∧ h'.bringStep = n ∧ h'.starting = h.starting) ∨ h'.pkg = .resigned

variable {h} {n : Nat}

theorem Stepped.of_setStep {g : Hw} (up : h.pkg = .bringup) (k : KeepsStart h g) : Stepped h n (setStep g n) :=
  .inl ⟨k.pkg.trans up, rfl, k.starting⟩

theorem Stepped.kept {g k : Hw} (s : Stepped h n g) (kept : KeepsStart g k) : Stepped h n k :=
  s.imp (fun ⟨pkg, step, start⟩ => ⟨kept.pkg.trans pkg, kept.bringStep.trans step, kept.starting.trans start⟩)
    kept.pkg.trans

theorem Stepped.of_kept {g : Hw} (up : h.pkg = .bringup) (k : KeepsOrResigns h g) {f : Hw → Hw} (own : ∀ g, KeepsStart g (f g)) :
    Stepped h n (if g.pkg = .bringup then setStep (f g) n else g) := by
  rcases k with k | gone
  · rw [if_pos (k.pkg.trans up)]
    exact .of_setStep up (k.trans (own g))
  · rw [if_neg (by rw [gone]; decide)]
    exact .inr gone

variable (up : h.pkg = .bringup)
include up

theorem stepFour_steps (f : Fuses) (obs : BringUpObs) : Stepped h 4 (stepFour f obs h) := by
  have tested := keepsStart_laneTest h f obs
  unfold stepFour
  split_ifs with sound dead
  · exact .inr (resign_of_bringup (tested.pkg.trans up) f.serial)
  · cases stacksByLanes f obs with
    | nil => exact .of_setStep up tested
    | cons s ss => exact .inr (loseStacks_pkg (tested.pkg.trans up) f.serial s ss)
  · exact .inr (resign_of_bringup up f.serial)

theorem stepFive_steps (f : Fuses) : Stepped h 5 (stepFive f h) := by
  unfold stepFive
  extract_lets sends ds known
  have shown : KeepsStart h known := ⟨rfl⟩
  split_ifs
  · exact (Stepped.of_setStep up (shown.trans (keepsStart_negotiate known))).kept (keepsStart_lockPorts _)
  · exact .inr (resign_of_bringup (shown.pkg.trans up) f.serial)

theorem stepSix_steps (f : Fuses) (obs : BringUpObs) : Stepped h 6 (stepSix f obs h) := by
  unfold stepSix
  extract_lets ready
  exact .of_kept up (initStacks_start up f obs) (f := fun g => evaluateAge true obs.ageSteps (loadAgePage g)) fun g =>
    (keepsStart_loadAgePage g).trans (keepsStart_evaluateAge ..)

theorem stepSeven_steps (f : Fuses) (obs : BringUpObs) (test : Bool) : Stepped h 7 (stepSeven f obs test h) := by
  unfold stepSeven
  extract_lets serving tested
  have served : KeepsStart h serving := .foldl (fun g t => by split_ifs <;> exact ⟨rfl⟩) _ h
  refine .of_kept up (g := tested) ?_ (f := id) fun g => .refl g
  unfold tested
  split_ifs
  · exact (selfTest_start (served.pkg.trans up) f obs).imp_left served.trans
  · exact .inl served

/-- Steps 3 to 7 each count one step more, unless the package resigns. -/
theorem bringStepHw_steps (f : Fuses) (obs : BringUpObs) (test : Bool) (start : h.starting = some (obs, test))
    (lo : 2 ≤ h.bringStep) (hi : h.bringStep < 7) : Stepped h (h.bringStep + 1) (bringStepHw f obs test h) := by
  unfold bringStepHw
  split_ifs with two three four five six seven
  · exact .inl ⟨up, by rw [two]; rfl, start.symm⟩
  · rw [three]; exact stepFour_steps up f obs
  · rw [four]; exact stepFive_steps up f
  · rw [five]; exact stepSix_steps up f obs
  · rw [six]; exact stepSeven_steps up f obs test
  · omega
  · omega

omit up

/-! What follows -/

/-- What follows every command leaves the start, and of the package states changes READY and RUN only. -/
theorem settle_start (h : Hw) : (settle h).bringStep = h.bringStep ∧ (settle h).starting = h.starting ∧
    (h.pkg ≠ .ready → h.pkg ≠ .run → (settle h).pkg = h.pkg) ∧
    (h.pkg = .ready → (settle h).pkg = .ready ∨ (settle h).pkg = .run) := by
  have flushed := (mirrorReach_flushErrs h (h.errs.toMirror.length + 64)).start
  obtain ⟨pkg, step, start⟩ : _ ∧ _ ∧ _ := ⟨flushed.pkg, flushed.bringStep, flushed.starting⟩
  rw [settle]
  generalize flushErrs (h.errs.toMirror.length + 64) h = g at pkg step start
  rw [← pkg, ← step, ← start]
  have entered (p : PkgState) : (setPkg g p).bringStep = g.bringStep ∧ (setPkg g p).starting = g.starting := by
    rw [setPkg_frame]
    exact ⟨rfl, rfl⟩
  unfold settlePkg
  split_ifs with on off
  · exact ⟨(entered _).1, (entered _).2, fun n => absurd on.1 n, fun _ => .inr (setPkg_pkg ..)⟩
  · exact ⟨(entered _).1, (entered _).2, fun _ n => absurd off.1 n, fun r => absurd (r.symm.trans off.1) (by decide)⟩
  · exact ⟨rfl, rfl, fun _ _ => rfl, .inl⟩

/-! Step 8 -/

/-- Locking ports reaches their registers alone. -/
theorem getReg_lockPorts (h : Hw) {o : Nat} (apart : ¬ exitReg o) : getReg (allPorts tryLock h) o = getReg h o :=
  (ExitReach.allPorts h fun g _ l => exitReach_tryLock g l).reg o apart

/-- No start is in progress any more, with step 8 over. -/
def startOver (h : Hw) : Hw := setStep { h with starting := none } 8

theorem startOver_start (h : Hw) :
    (startOver h).pkg = h.pkg ∧ (startOver h).bringStep = 8 ∧ (startOver h).starting = none := ⟨rfl, rfl, rfl⟩

theorem getReg_startOver (h : Hw) {o : Nat} (status : o ≠ rRstStatus) : getReg (startOver h) o = getReg h o := by
  have same : getReg { h with starting := none, bringStep := 8 } o = getReg h o := rfl
  exact (getReg_setReg_ne _ _ status).trans same

theorem stepEight_eq (h : Hw) : stepEight h = stepNine (endBringUp (startOver (allPorts tryLock h))) := rfl

theorem getReg_portsLocked (h : Hw) {o : Nat} (apart : ¬ exitReg o) (status : o ≠ rRstStatus) :
    getReg (startOver (allPorts tryLock h)) o = getReg h o :=
  (getReg_startOver _ status).trans (getReg_lockPorts h apart)

theorem eraseLatched_portsLocked (h : Hw) : eraseLatched (startOver (allPorts tryLock h)) = eraseLatched h := by
  have same {r : Nat} (l : r < 0x1000) : getReg (startOver (allPorts tryLock h)) (rSec r) = getReg h (rSec r) := by
    refine getReg_portsLocked h ?_ ?_
    · simp only [exitReg, rSec, regOf, baseOf]
      omega
    · simp only [rSec, rRstStatus, regOf, baseOf]
      omega
  have latch : alarmLatch (startOver (allPorts tryLock h)) = alarmLatch h := same (by decide)
  have policy (i : Nat) : policyOf (startOver (allPorts tryLock h)) i = policyOf h i := by
    rw [policyOf, policyOf, regFld, regFld, same (by decide)]
  simp only [eraseLatched, latch, policy]

theorem hostUp_of_same {h g : Hw} (same : getReg g rHostLink = getReg h rHostLink) : hostUp g = hostUp h := by
  rw [hostUp, hostUp, hostMode, hostMode, regFld, regFld, same]

theorem hostUp_portsLocked (h : Hw) : hostUp (startOver (allPorts tryLock h)) = hostUp h := by
  refine hostUp_of_same (getReg_portsLocked h ?_ ?_)
  · simp only [exitReg, rHostLink]
    omega
  · simp only [rHostLink, rRstStatus, regOf, baseOf]
    omega

/-- The messages held until BRINGUP ends leave the start and the link. -/
theorem sendHeld_keeps (held : List Nat) (h : Hw) : KeepsStart h (held.foldl sendMsix h) ∧
    getReg (held.foldl sendMsix h) rHostLink = getReg h rHostLink := by
  have one (g : Hw) (v : Nat) : getReg (sendMsix g v) rHostLink = getReg g rHostLink := by
    unfold sendMsix
    split_ifs
    · exact getReg_setReg_ne _ _ (by simp only [rHostLink, regOf, baseOf]; omega)
    · rfl
    · rfl
  exact ⟨.foldl keepsStart_sendMsix held h,
    List.foldlRecOn held _ (motive := fun g => getReg g rHostLink = getReg h rHostLink) rfl fun g e v _ => (one g v).trans e⟩

/-- The package is READY, with its held messages yet to send. -/
def enteredReady (h : Hw) : Hw := setPower { h with host := { h.host with msixHeld := [], memActive := true } } .ready

theorem endBringUp_eq (h : Hw) : endBringUp h =
    if h.pkg = .bringup ∧ 8 ≤ h.bringStep ∧ !eraseLatched h then h.host.msixHeld.foldl sendMsix (enteredReady h)
    else h := rfl

theorem enteredReady_start (h : Hw) : (enteredReady h).pkg = .ready ∧ (enteredReady h).bringStep = h.bringStep ∧
    (enteredReady h).starting = h.starting ∧ getReg (enteredReady h) rHostLink = getReg h rHostLink := by
  unfold enteredReady
  refine ⟨setPower_pkg .., ?_, ?_, (exitReach_setPower _ _).reg _ ?_⟩
  · unfold setPower
    rw [setPkg_frame]
    rfl
  · unfold setPower
    rw [setPkg_frame]
    rfl
  · simp only [exitReg, rHostLink]
    omega

/-- Step 8 leaves BRINGUP unless a latch of an erase policy is set. -/
theorem endBringUp_start {h : Hw} (up : h.pkg = .bringup) (eight : h.bringStep = 8) :
    (endBringUp h).pkg = (if eraseLatched h = true then .bringup else .ready) ∧ (endBringUp h).bringStep = 8 ∧
    (endBringUp h).starting = h.starting ∧ hostUp (endBringUp h) = hostUp h := by
  rw [endBringUp_eq]
  by_cases latched : eraseLatched h = true
  · have stays : ¬ (h.pkg = .bringup ∧ 8 ≤ h.bringStep ∧ (!eraseLatched h) = true) := by simp [latched]
    rw [if_neg stays, if_pos latched]
    exact ⟨up, eight, rfl, rfl⟩
  · have leaves : h.pkg = .bringup ∧ 8 ≤ h.bringStep ∧ (!eraseLatched h) = true :=
      ⟨up, eight.ge, by simpa using latched⟩
    obtain ⟨pkg, step, start, link⟩ := enteredReady_start h
    obtain ⟨sent, sentLink⟩ := sendHeld_keeps h.host.msixHeld (enteredReady h)
    rw [if_pos leaves, if_neg latched]
    exact ⟨sent.pkg.trans pkg, sent.bringStep.trans (step.trans eight), sent.starting.trans start,
      hostUp_of_same (sentLink.trans link)⟩

theorem stepNine_start (h : Hw) : (stepNine h).pkg = h.pkg ∧ (stepNine h).starting = h.starting := by
  rw [stepNine_rest]
  exact ⟨rfl, rfl⟩

theorem stepEight_ends (up : h.pkg = .bringup) :
    (stepEight h).pkg = (if eraseLatched h = true then .bringup else .ready) ∧ (stepEight h).starting = none ∧
    (stepEight h).bringStep = if hostUp h = true then 9 else 8 := by
  obtain ⟨pkg, step, start⟩ := startOver_start (allPorts tryLock h)
  obtain ⟨pkg', step', start', link⟩ := endBringUp_start (pkg.trans ((keepsStart_lockPorts h).pkg.trans up)) step
  obtain ⟨pkg9, start9⟩ := stepNine_start (endBringUp (startOver (allPorts tryLock h)))
  rw [hostUp_portsLocked] at link
  rw [eraseLatched_portsLocked] at pkg'
  rw [stepEight_eq]
  refine ⟨pkg9.trans pkg', start9.trans (start'.trans start), ?_⟩
  rw [stepNine_eq, step', link]
  by_cases linked : hostUp h = true
  · rw [if_pos ⟨rfl, linked⟩, if_pos linked]
    exact setStep_bringStep ..
  · rw [if_neg fun both => linked both.2, if_neg linked, step']

/-! The step of an empty queue -/

theorem nextBehind_of_blocked {h : Hw} (stuck : h.host.behind = [] ∨
    (h.host.winQueue.any fun x => x.op.write && x.op.path = .bar2) = true) : nextBehind h = none := by
  unfold nextBehind
  split
  · rfl
  · next i rest some_ =>
    rcases stuck with none_ | posted
    · exact absurd (none_.symm.trans some_) (by simp)
    · exact if_pos (by simp [postedBefore, posted])

theorem nextBehind_of_free {h : Hw} {i : Instr} {rest : List Instr} (first : h.host.behind = i :: rest)
    (free : ¬ (h.host.winQueue.any fun x => x.op.write && x.op.path = .bar2) = true) :
    nextBehind h = some (i, { h with host := { h.host with behind := [] } }) := by
  unfold nextBehind
  rw [first]
  exact if_neg (by simpa [postedBefore] using free)

theorem step_of_empty {s : State} (empty : s.pending = []) : step s = stepEmpty s := by
  unfold step
  rw [empty]

theorem stepEmpty_of_none {s : State} (none_ : nextBehind s.hw = none) : stepEmpty s = .next (idleStep s) := by
  unfold stepEmpty
  rw [none_]

/-- Settles O6: the case of `nextBehind`, and where it finds nothing the step of a start, `bringStepHw_steps` up to
step 7 and `stepEight_ends` for step 8, each followed by `settle_start`. -/
theorem emptyQueueStep : Obligations.EmptyQueueStep := by
  intro s empty blocked
  rw [step_of_empty empty]
  refine ⟨fun i rest t first free ran => ?_, fun stuck => ?_⟩
  · unfold stepEmpty
    rw [nextBehind_of_free first free]
    simp only [ran, first, List.drop_one, List.tail_cons]
  · rw [stepEmpty_of_none (nextBehind_of_blocked stuck)]
    refine ⟨fun idle => ?_, fun x start up clock lo hi => ?_⟩
    · have same : idleStep s = s := by
        unfold idleStep
        rcases idle with none_ | stopped
        · rw [none_]
        · split
          · exact if_neg (by simp [stopped])
          · rfl
      rw [same]
    · obtain ⟨obs, test⟩ := x
      have goes : idleStep s = { s with hw := settle (bringStepHw s.fuses obs test s.hw) } := by
        unfold idleStep
        rw [start]
        exact if_pos ⟨up, clock⟩
      obtain ⟨step_, start_, stays, ready⟩ := settle_start (bringStepHw s.fuses obs test s.hw)
      refine ⟨_, rfl, by rw [goes]; exact empty, by rw [goes], fun before => ?_, fun last => ?_⟩
      · rw [goes]
        rcases bringStepHw_steps up s.fuses obs test start lo before with ⟨pkg, count, starting⟩ | gone
        · exact .inl ⟨(stays (by rw [pkg]; decide) (by rw [pkg]; decide)).trans pkg, step_.trans count,
            start_.trans (starting.trans start)⟩
        · exact .inr ((stays (by rw [gone]; decide) (by rw [gone]; decide)).trans gone)
      · have eight : bringStepHw s.fuses obs test s.hw = stepEight s.hw := by
          simp [bringStepHw, last]
        obtain ⟨pkg, over_, count⟩ := stepEight_ends up
        rw [eight] at goes step_ start_ stays ready
        rw [goes]
        refine ⟨start_.trans over_, fun clear => ?_, fun latched => ?_, step_.trans count⟩
        · rw [if_neg (by rw [clear]; exact Bool.false_ne_true)] at pkg
          exact ready pkg
        · rw [if_pos latched] at pkg
          exact (stays (by rw [pkg]; decide) (by rw [pkg]; decide)).trans pkg

end Sys2Proof.Machine
end
